-- ==== Sys2Proof/Word.lean ====
section
/-!
DEFINITION. The word types of the part (R13, R42) and their plainest arithmetic.
-/
namespace Sys2Proof

/-- One byte of memory. -/
abbrev Byte := BitVec 8

/-- One 32-bit register. -/
abbrev Word := BitVec 32

/-- A 64-bit value: a register pair, a program counter, an address before truncation (R13, R92). -/
abbrev DWord := BitVec 64

end Sys2Proof
end

