-- ==== Sys2Proof/Syntax.lean ====
section
/-!
DEFINITION. The syntax of the part's steps: operands, fields and the one inductive `Instr`, one constructor for
each row of spec/opcode_table.json. Rows that are instruction words carry decoded fields (R42 to R56); rows that
are events carry what selects the event, or what the outside world supplies with it.
-/
namespace Sys2Proof

/-- A register operand byte, decoded (R52): v0 to v191, s0 to s47, t0 to t7, the zero byte, the home-lane byte. -/
inductive Reg where
  | v (n : Fin 192)
  | s (n : Fin 48)
  | t (n : Fin 8)
  | zero
  | lane
deriving DecidableEq, Repr

/-- The fields every full word has besides its class fields (R42, R43): B, W, N and G. -/
structure Hdr where
  /-- B: the word is the last of its run. -/
  b : Bool
  /-- W: the switch marker. -/
  w : Bool
  /-- N: the guard is negated. -/
  n : Bool
  /-- G: the guard predicate p0 to p7. -/
  g : Fin 8
deriving DecidableEq, Repr

/-- Integer types of TY (R18, R46). -/
inductive ITy where
  | i8 | i16 | i32 | i64 | n8 | n16 | n32 | n64
deriving DecidableEq, Repr

/-- Float types of TY (R46). -/
inductive FTy where
  | f32 | f16 | bf16
deriving DecidableEq, Repr

/-- Rounding modes of RM (R19). -/
inductive Rm where
  | rn | rz | rd | ru | rs
deriving DecidableEq, Repr

/-- Source modifiers (R46): none, negate, absolute, negated absolute. -/
inductive SMod where
  | none | neg | abs | negAbs
deriving DecidableEq, Repr

/-- Conditions of ICMP (R214). -/
inductive ICond where
  | eq | ne | lt | le | gt | ge | any | none
deriving DecidableEq, Repr

/-- Conditions of FCMP (R231). -/
inductive FCond where
  | eq | ne | lt | le | gt | ge | num | nan | equ | neu | ltu | leu | gtu | geu
deriving DecidableEq, Repr

/-- Modes of VTOS (R220). -/
inductive VtosMode where
  | first | last | uni
deriving DecidableEq, Repr

/-- A plain conversion type of CVT: an integer type or a float type (R242). -/
inductive CvtTy where
  | int (t : ITy)
  | flt (t : FTy)
deriving DecidableEq, Repr

/-- Kinds of PACK2 (R245). -/
inductive PackKind where
  | f16 | bf16 | i16 | n16
deriving DecidableEq, Repr

/-- Narrow element formats, by the format code of R241. -/
inductive BFmt where
  | e4m3 | e5m2 | i8 | i4o | e2m1 | i4
deriving DecidableEq, Repr

/-- Scopes (R48, R338). -/
inductive Scope where
  | grp | cove | dev | sys
deriving DecidableEq, Repr

/-- L1 hints (R48, R136). -/
inductive Hint where
  | default | stream | keep | bypass
deriving DecidableEq, Repr

/-- Access widths per thread (R48). -/
inductive Width where
  | w8 | w16 | w32 | w64 | w128
deriving DecidableEq, Repr

/-- The operand of a class-M word (R48): base pair, index, scale, width, scope, ORD, hint, counter, offset. -/
structure MemOp where
  base : Reg
  index : Option Reg
  scale : Fin 4
  width : Width
  scope : Scope
  ord : Bool
  hint : Hint
  sbc : Option (Fin 6)
  off : BitVec 12
deriving DecidableEq, Repr

/-- Atomic operations of AOP (R299). -/
inductive AOp where
  | add | smin | smax | umin | umax | and | or | xor | exch | fadd | fmin | fmax | hadd2 | badd2
deriving DecidableEq, Repr

/-- The operand of ATOM, ATOMCAS and RED (R298), with SPAD and a 7-bit offset in place of OFFSET. -/
structure AtomMem where
  base : Reg
  index : Option Reg
  scale : Fin 4
  width : Width
  scope : Scope
  ord : Bool
  sbc : Option (Fin 6)
  spad : Bool
  off : BitVec 7
deriving DecidableEq, Repr

/-- Modes of SHFL (R289). -/
inductive ShflMode where
  | at | rot | mir | xor
deriving DecidableEq, Repr

/-- Modes of VOTE (R292). -/
inductive VoteMode where
  | all | any | uni | mask | count
deriving DecidableEq, Repr

/-- Forms of MATCH (R293). -/
inductive MatchMode where
  | peers | same | lead
deriving DecidableEq, Repr

/-- Operations of REDL and PRFX (R294). -/
inductive RedOp where
  | add | min | max | and | or | xor
deriving DecidableEq, Repr

/-- The type of REDL and PRFX: integer or float column (R294). -/
inductive RedTy where
  | int (t : ITy)
  | flt (t : FTy)
deriving DecidableEq, Repr

/-- Forms of LMAP (R295). -/
inductive LmapForm where
  | self
  | phys (a : Reg)
  | find (a : Reg)
deriving DecidableEq, Repr

/-- The completion action of a copy command (R169): none, flip a reel stage, add 1 to a barrier object. -/
inductive Fin3 where
  | none
  | flip (r : Reg)
  | add (r : Reg)
deriving DecidableEq, Repr

/-- The fields of a copy command word (R169): operands, size register, granule exponent, counter, REL, FIN, DSP, SSP. -/
structure CopyOp where
  dst : Reg
  src : Reg
  size : Reg
  gran : Fin 16
  sbc : Option (Fin 6)
  rel : Bool
  fin : Fin3
  dsp : Bool
  ssp : Bool
deriving DecidableEq, Repr

/-- Formats of a matrix operand (R275). -/
inductive MFmt where
  | f16 | bf16 | b8 | b4
deriving DecidableEq, Repr

/-- Element counts of MXRD and MXWR (R282). -/
inductive MCnt where
  | x1 | x2 | x4
deriving DecidableEq, Repr

/-- Conversions of MXST (R283), with the rounding of the converting ones. -/
inductive MConv where
  | f32
  | f16 (rm : Rm)
  | bf16 (rm : Rm)
deriving DecidableEq, Repr

/-- Half opcodes of a dual word (R72). -/
inductive HOp where
  | mov | iadd | isub | and | or | xor | ishl | ishr | lshr | imin | imax | iaddi | ishli | lshri | movi5
  | fadd | fmul | fmin | fmax | fneg | fabs | hadd2 | hmul2 | cvtF32I32 | cvtI32F32 | frcp | fexp2
deriving DecidableEq, Repr

/-- One half of a dual word (R54): guard without negation, destination, source (none where A must be 0xFF), M5. -/
structure Half where
  op : HOp
  g : Fin 8
  d : Reg
  a : Option Reg
  m : BitVec 5
deriving DecidableEq, Repr

/-- A range of storage that a soft error may strike (R465). -/
inductive ErrSite where
  /-- HBM or LLC: the 64-byte granule holding a device physical address. -/
  | granule (pa : Nat)
  /-- The L1 of a core: its copy of the 64-byte granule holding a device physical address. -/
  | l1Granule (core pa : Nat)
  /-- A word of a core's register file row: pool row and lane; the row is poisoned. -/
  | regRow (core row : Nat)
  /-- A scratchpad word of a core, by physical word index. -/
  | spadWord (core word : Nat)
  /-- An accumulator element: core, tile, row, column. -/
  | accElem (core tile m c : Nat)
  /-- A table entry at a device physical address. -/
  | tableEntry (pa : Nat)
  /-- An integrity-tree node of a memory key slot, covering frames first to last. -/
  | treeNode (slot first last : Nat)
  /-- Headland SRAM: metering, window map or frame records; both copies lost when the error is uncorrectable. -/
  | headlandSram
deriving DecidableEq, Repr

/-- A unit that wear may retire (R463). -/
inductive WearUnit where
  | core (n : Nat)
  | slice (n : Nat)
  | pchan (stack n : Nat)
  | lane (port : Nat)
  | keyRow (fabric : Bool) (slot : Nat)
deriving DecidableEq, Repr

/-- Why a span is pre-empted (R398). -/
inductive PreemptWhy where
  | slice | freeze | lent | replace
deriving DecidableEq, Repr

/-- A frame on the host port (R376, R452): source and queue pair, the bytes before its tag (of a launch frame, those before its first
record: the records follow), the tag, and, of a command frame, whether
its payload, whose layout the spec does not give, holds the command's fields. -/
structure FrameHdr where
  src : Nat
  qp : Nat
  bytes : List (BitVec 8)
  tag : List (BitVec 8)
  wellFormed : Bool
deriving DecidableEq, Repr

/-- SEQ of a frame (R452). -/
def FrameHdr.seq (h : FrameHdr) : Nat := ((h.bytes.drop 8).take 8).foldr (fun b acc => b.toNat + 256 * acc) 0

/-- One launch record of a launch frame: the local queue it names and its 128 bytes (R452, R87). -/
structure FrameRec where
  queue : Nat
  bytes : List Byte
deriving DecidableEq, Repr

/-- A host WRITE (R450): queue pair and source, R_Key, virtual address, bytes. -/
structure HostMsg where
  src : Nat
  qp : Nat
  rkey : Nat
  va : Nat
  bytes : List Byte
deriving DecidableEq, Repr

/-- The fields of an EXPORT command (R455). -/
structure ExportReq where
  ctx : Nat
  addr : Nat
  len : Nat
  hostAddr : Nat
  rkey : Nat
  barrier : Nat
  threshold : Nat
  imm : Nat
deriving DecidableEq, Repr

/-- The fields of a KEYLOAD command (R456); `opens` says whether decapsulation and tag succeed, `material` is the
key material then carried. -/
structure KeyReq where
  fabric : Bool
  slot : Nat
  holder : Nat
  enci : Bool
  fbase : Nat
  fcount : Nat
  mdbase : Nat
  opens : Bool
  material : List Byte
deriving DecidableEq, Repr

/-- A LAYOUT command (R454, R460): array modes for listed cores, or a unit to retire. -/
inductive LayoutReq where
  | modes (l : List (Nat × Nat))
  | retire (u : WearUnit)
deriving DecidableEq, Repr

/-- How a recall ends (R127). -/
inductive RecallEnd where
  | ok | tagMismatch | unknownJetty | pageLost
deriving DecidableEq, Repr

/-- A packet from another chip or from a jetty, as it arrives (R321, R324, R473): the port and jetty it comes by, the
sending chip, the RX entry it names, the receiver offset q, its bytes as (offset in window, byte) pairs, the addend of a
signal packet, its path's core (65534 of a jetty's result) and sequence number, whether it opens under the receiver's key, and the
RID of a jetty's result. -/
structure RemotePkt where
  port : Nat
  jetty : Nat
  chip : Nat
  rxw : Nat
  q : Nat
  bytes : List (Nat × Byte)
  addend : Nat
  core : Nat
  seq : Nat
  opens : Bool
  rid : Nat := 0
deriving DecidableEq, Repr

/-- A packet at the receive side: one this chip sent (loop-back, by its identity) or one from elsewhere. -/
inductive RxSrc where
  | own (id : Nat)
  | remote (p : RemotePkt)
deriving DecidableEq, Repr

/-- Contributions of other chips that reach a jetty (R331): jetty, material of the fabric key, RID, and words by receiver offset. -/
structure JContrib where
  jetty : Nat
  key : List Byte
  rid : Nat
  words : List (Nat × Word)
deriving DecidableEq, Repr

/-- The part's steps: one constructor for each row of spec/opcode_table.json. The first 57 and the last two are
events, the others instruction words. -/
inductive Instr where
  -- events of power, wear and layout
  | powerSample (watts : Nat) (temps : List (Nat × Nat))
  | softError (site : ErrSite) (uncorrectable : Bool) (retire : Option WearUnit)
  | portLinkChange (port : Nat) (jetty : Option (BitVec 16))
  | layoutAbandon (change : Nat)
  | ckptTrigger (ctx : Nat) (onCount : Bool)
  -- migration
  | migrationEpoch (queued : Nat)
  | parkComplete (park : Nat)
  | recallComplete (id : Nat) (how : RecallEnd)
  -- launch and scheduling
  | launchFrame (h : FrameHdr) (recs : List (List Byte))
  | recordAcceptance (queue : Nat)
  | spanPlacement (queue : Nat)
  | gridCompletion (grid : Nat)
  | runSelection (core quarter : Nat)
  | preemption (span : Nat) (why : PreemptWhy)
  | eddyRestore (group : Nat)
  | matrixGrantSwitch (core half ctx : Nat)
  -- completions inside the part
  | resultReturn (result : Nat) (late : Bool)
  | walkComplete (walk : Nat)
  | storePerform (group hwarp : Nat)
  | directoryAck (item : Nat)
  | drop (item : Nat)
  | lineRetry (warp : Nat)
  | serviceWarpRequest (cove item : Nat)
  | bwaitRetest (cove item : Nat)
  | copyGranule (cmd : Nat) (ahead : Option (List Nat))
  | xbulkGranule (cmd : Nat) (ahead : Option (List Nat))
  | mxstGranule (cmd : Nat)
  | matrixGranule (core half : Nat) (ahead : Option (List (Nat × Nat × Nat)))
  -- the fabric
  | rxPacket (p : RxSrc)
  | signalPacket (p : RxSrc)
  | packetAck (packet : Nat) (badAuth : Bool) (others : List JContrib)
  | flitReplay (packet : Nat)
  | packetRetransmit (packet : Nat)
  | enrolmentConfirm (entry : Nat)
  | enrolmentLost (entry : Nat)
  -- subtree operations in progress
  | freezeComplete (op : Nat)
  | checkpointImage (op : Nat)
  | backwashFrame (job : Nat)
  | receiptSigned (receipt : Nat)
  -- the host port
  | hostWrite (m : HostMsg)
  | hostWriteImm (m : HostMsg) (imm : Word)
  | hostReadRefused (src qp : Nat)
  | readview (h : FrameHdr) (ctx block core : Nat)
  | exportCmd (h : FrameHdr) (r : ExportReq)
  | keyload (h : FrameHdr) (r : KeyReq)
  | armckpt (h : FrameHdr) (ctx kind value : Nat) (desc : List Byte)
  | report (h : FrameHdr) (hostAddr rkey size : Nat)
  | health (h : FrameHdr)
  | layout (h : FrameHdr) (r : LayoutReq)
  | powercap (h : FrameHdr) (watts : Nat)
  | bootstmt (h : FrameHdr)
  | reset (h : FrameHdr)
  -- control words (R356)
  | nop (h : Hdr)
  | bra (h : Hdr) (u : Bool) (prio : Fin 16) (off : BitVec 32)
  | brx (h : Hdr) (u : Bool) (prio : Fin 16) (tgt : Reg)
  | call (h : Hdr) (u : Bool) (prio : Fin 16) (link : Reg) (off : BitVec 32)
  | ret (h : Hdr) (u : Bool) (prio : Fin 16) (tgt : Reg)
  | exit (h : Hdr)
  | join (h : Hdr) (k : Fin 12)
  | leave (h : Hdr) (k : Fin 12)
  | kwait (h : Hdr) (k : Fin 12)
  | rgn (h : Hdr)
  | yield (h : Hdr)
  | trap (h : Hdr) (code : BitVec 16)
  | brk (h : Hdr) (code : BitVec 16)
  | spri (h : Hdr) (prio : Fin 16)
  | launch (h : Hdr) (rec : Reg) (q : Fin 64)
  | trl (w : Bool) (r0 r1 r2 r3 : Option Reg)
  | dualWord (b w : Bool) (x y : Half)
  -- integer, address and predicate words (R205)
  | iadd (h : Hdr) (d a b : Reg) (ty : ITy) (sat : Bool)
  | isub (h : Hdr) (d a b : Reg) (ty : ITy) (sat : Bool)
  | imul (h : Hdr) (d a b : Reg) (ty : ITy) (sat : Bool)
  | imulh (h : Hdr) (d a b : Reg) (ty : ITy)
  | imad (h : Hdr) (d a b c : Reg) (ty : ITy) (sat : Bool)
  | imadw (h : Hdr) (d a b c : Reg) (signed : Bool) (sat : Bool)
  | iadd64 (h : Hdr) (d a b : Reg) (p : Option (Fin 8)) (ci co : Bool)
  | lea (h : Hdr) (d a b : Reg) (ty : ITy) (k : Fin 32)
  | ishl (h : Hdr) (d a b : Reg) (ty : ITy)
  | ishr (h : Hdr) (d a b : Reg) (ty : ITy)
  | lshr (h : Hdr) (d a b : Reg) (ty : ITy)
  | rot (h : Hdr) (d a b : Reg) (ty : ITy)
  | lop3 (h : Hdr) (d a b c : Reg) (tt : BitVec 8)
  | and (h : Hdr) (d a b : Reg) (ty : ITy)
  | or (h : Hdr) (d a b : Reg) (ty : ITy)
  | xor (h : Hdr) (d a b : Reg) (ty : ITy)
  | not (h : Hdr) (d a : Reg) (ty : ITy)
  | imin (h : Hdr) (d a b : Reg) (ty : ITy)
  | imax (h : Hdr) (d a b : Reg) (ty : ITy)
  | iabs (h : Hdr) (d a : Reg) (ty : ITy) (sat : Bool)
  | ineg (h : Hdr) (d a : Reg) (ty : ITy) (sat : Bool)
  | popc (h : Hdr) (d a : Reg) (ty : ITy)
  | clz (h : Hdr) (d a : Reg) (ty : ITy)
  | brev (h : Hdr) (d a : Reg) (ty : ITy)
  | bfx (h : Hdr) (d a b : Reg) (ty : ITy)
  | bfi (h : Hdr) (d a b c : Reg) (ty : ITy)
  | icmp (h : Hdr) (p : Fin 8) (a b : Reg) (ty : ITy) (cond : ICond)
  | sel (h : Hdr) (d a b : Reg) (p : Fin 8) (neg : Bool) (ty : ITy)
  | mov (h : Hdr) (d a : Reg) (ty : ITy)
  | movi (h : Hdr) (d : Reg) (imm : Word)
  | moviN64 (h : Hdr) (d : Reg) (hi : Bool) (imm : Word)
  | plop (h : Hdr) (p a b c : Fin 8) (tt : BitVec 8)
  | idot4 (h : Hdr) (d a b c : Reg) (signed mix sat : Bool)
  | vtos (h : Hdr) (d a : Reg) (ty : ITy) (mode : VtosMode)
  | sysrd (h : Hdr) (d : Reg) (sel : Fin 31)
  -- float words (R224)
  | fadd (h : Hdr) (d a b : Reg) (ty : FTy) (rm : Rm) (ma mb : SMod) (sat ftz : Bool)
  | fsub (h : Hdr) (d a b : Reg) (ty : FTy) (rm : Rm) (ma mb : SMod) (sat ftz : Bool)
  | fmul (h : Hdr) (d a b : Reg) (ty : FTy) (rm : Rm) (ma mb : SMod) (sat ftz : Bool)
  | ffma (h : Hdr) (d a b c : Reg) (ty : FTy) (rm : Rm) (ma mb : SMod) (nc sat ftz : Bool)
  | fmin (h : Hdr) (d a b : Reg) (ty : FTy) (ma mb : SMod) (ftz : Bool)
  | fmax (h : Hdr) (d a b : Reg) (ty : FTy) (ma mb : SMod) (ftz : Bool)
  | fcmp (h : Hdr) (p : Fin 8) (a b : Reg) (ty : FTy) (ma mb : SMod) (ftz : Bool) (cond : FCond)
  | fclass (h : Hdr) (d a : Reg) (ty : FTy) (ftz : Bool)
  | fscale (h : Hdr) (d a b : Reg) (ty : FTy) (rm : Rm) (ma : SMod) (ftz : Bool)
  | frint (h : Hdr) (d a : Reg) (ty : FTy) (rm : Rm) (ma : SMod) (ftz : Bool)
  | fmaxa (h : Hdr) (d a b : Reg) (ty : FTy) (ftz : Bool)
  | frcp (h : Hdr) (d a : Reg) (ma : SMod) (ftz : Bool)
  | frsq (h : Hdr) (d a : Reg) (ma : SMod) (ftz : Bool)
  | fsqrt (h : Hdr) (d a : Reg) (rm : Rm) (ma : SMod) (ftz : Bool)
  | fexp2 (h : Hdr) (d a : Reg) (ma : SMod) (ftz : Bool)
  | flog2 (h : Hdr) (d a : Reg) (ma : SMod) (ftz : Bool)
  | fsin (h : Hdr) (d a : Reg) (ma : SMod) (ftz : Bool)
  | fcos (h : Hdr) (d a : Reg) (ma : SMod) (ftz : Bool)
  | ftanh (h : Hdr) (d a : Reg) (ma : SMod) (ftz : Bool)
  | fsigm (h : Hdr) (d a : Reg) (ma : SMod) (ftz : Bool)
  | hadd2 (h : Hdr) (d a b : Reg) (rm : Rm) (ma mb : SMod) (sat : Bool)
  | hmul2 (h : Hdr) (d a b : Reg) (rm : Rm) (ma mb : SMod) (sat : Bool)
  | hfma2 (h : Hdr) (d a b c : Reg) (rm : Rm) (ma mb : SMod) (nc sat : Bool)
  | hmin2 (h : Hdr) (d a b : Reg) (ma mb : SMod)
  | hmax2 (h : Hdr) (d a b : Reg) (ma mb : SMod)
  | badd2 (h : Hdr) (d a b : Reg) (rm : Rm) (ma mb : SMod) (sat : Bool)
  | bmul2 (h : Hdr) (d a b : Reg) (rm : Rm) (ma mb : SMod) (sat : Bool)
  | bfma2 (h : Hdr) (d a b c : Reg) (rm : Rm) (ma mb : SMod) (nc sat : Bool)
  | bmin2 (h : Hdr) (d a b : Reg) (ma mb : SMod)
  | bmax2 (h : Hdr) (d a b : Reg) (ma mb : SMod)
  | hdot2 (h : Hdr) (d a b c : Reg) (rm : Rm) (ma mb : SMod) (nc sat : Bool)
  | bdot2 (h : Hdr) (d a b c : Reg) (rm : Rm) (ma mb : SMod) (nc sat : Bool)
  -- conversion and block words (R241)
  | cvt (h : Hdr) (d a : Reg) (dt st : CvtTy) (rm : Rm) (ma : SMod) (sat ftz : Bool)
  | pack2 (h : Hdr) (d a b : Reg) (kind : PackKind) (rm : Rm) (ma mb : SMod) (sat ftz : Bool)
  | blkenc (h : Hdr) (d a : Reg) (scale : Option Reg) (fmt : BFmt) (z : Fin 8) (rm : Rm) (ftz : Bool)
  | blkdec (h : Hdr) (d a : Reg) (c4 : Bool) (z : Fin 8) (ftz : Bool)
  | blkhdrMake (h : Hdr) (d a : Reg) (fmt : BFmt) (c : Bool) (z : Fin 8)
  | blkhdrChk (h : Hdr) (d a : Reg) (c4 : Bool) (c : Bool) (z : Fin 8)
  -- memory words (R147)
  | ld (h : Hdr) (d : Reg) (m : MemOp)
  | st (h : Hdr) (d : Reg) (m : MemOp)
  | lds (h : Hdr) (d : Reg) (m : MemOp)
  | sts (h : Hdr) (d : Reg) (m : MemOp)
  | ldc (h : Hdr) (d : Reg) (m : MemOp)
  | ldsc (h : Hdr) (o : Reg) (m : MemOp)
  | stsc (h : Hdr) (d : Reg) (m : MemOp)
  | pref (h : Hdr) (m : MemOp)
  | cctlWb (h : Hdr) (m : MemOp)
  | cctlInv (h : Hdr) (m : MemOp)
  | cctlIvc (h : Hdr) (m : MemOp)
  | cctlIvcAll (h : Hdr)
  | cctlIviAll (h : Hdr)
  | fenceAcq (h : Hdr) (sc : Scope)
  | fenceRel (h : Hdr) (sc : Scope)
  | fenceAcqrel (h : Hdr) (sc : Scope)
  | prset (h : Hdr) (m : MemOp)
  | prclr (h : Hdr) (m : MemOp)
  | prtst (h : Hdr) (d : Reg) (m : MemOp)
  -- atomics, barrier objects, reels, GSYNC (R298, R307, R187, R313)
  | atom (h : Hdr) (d : Reg) (y : Reg) (op : AOp) (m : AtomMem)
  | atomcas (h : Hdr) (d : Reg) (y : Reg) (m : AtomMem)
  | red (h : Hdr) (y : Reg) (op : AOp) (m : AtomMem)
  | bsig (h : Hdr) (y : Reg) (m : MemOp)
  | bwait (h : Hdr) (y : Reg) (m : MemOp)
  | bpoll (h : Hdr) (d : Reg) (m : MemOp)
  | stwait (h : Hdr) (stage : Reg) (m : MemOp)
  | stflip (h : Hdr) (stage : Reg) (m : MemOp)
  | gsync (h : Hdr) (span : Bool)
  -- cross-lane words (R288)
  | shfl (h : Hdr) (d a b : Reg) (p : Option (Fin 8)) (ty : ITy) (mode : ShflMode) (seg : Fin 6)
  | shflx (h : Hdr) (d a b : Reg) (p : Option (Fin 8)) (ty : ITy)
  | vote (h : Hdr) (d : Reg ⊕ Fin 8) (pa : Fin 8) (neg : Bool) (mode : VoteMode)
  | redl (h : Hdr) (d a : Reg) (ty : RedTy) (op : RedOp) (rm : Rm) (sat ftz : Bool)
  | prfx (h : Hdr) (d a : Reg) (ty : RedTy) (op : RedOp) (excl : Bool) (rm : Rm) (sat ftz : Bool)
  | matchLanes (h : Hdr) (d a : Reg) (ty : ITy) (mode : MatchMode)
  | qxch (h : Hdr) (d a : Reg) (ty : ITy) (x : Fin 4)
  | qbcst (h : Hdr) (d a : Reg) (ty : ITy) (q : Fin 4)
  | lmap (h : Hdr) (d : Reg) (form : LmapForm)
  -- copy words (R169) and counters
  | cpy (h : Hdr) (c : CopyOp)
  | cpy2d (h : Hdr) (c : CopyOp)
  | cpyg (h : Hdr) (c : CopyOp)
  | cpys (h : Hdr) (c : CopyOp)
  | cpyf (h : Hdr) (c : CopyOp)
  | waitsb (h : Hdr) (c : Fin 6) (n : Fin 64)
  | cpyq (h : Hdr) (d : Reg) (clr : Bool)
  -- matrix words (R273)
  | mxa (h : Hdr) (base stride : Reg) (sp : Bool) (fmt : MFmt) (c : Bool) (z : Fin 8)
  | mxb (h : Hdr) (base stride : Reg) (sp : Bool) (fmt : MFmt) (z : Fin 8)
  | mxshp (h : Hdr) (dims k : Reg)
  | mxspm (h : Hdr) (bmap : Option (Reg × Bool)) (index : Option (Reg × Bool × Reg))
  | mxrun (h : Hdr) (reel : Option Reg) (gran : Fin 16) (sbc : Option (Fin 6)) (acc : Fin 8) (flip : Fin 4)
  | mxcmt (h : Hdr) (d : Reg)
  | mxwb (h : Hdr) (n : Reg)
  | mxz (h : Hdr) (acc : Fin 8)
  | mxrd (h : Hdr) (d index : Reg) (acc : Fin 8) (cnt : MCnt)
  | mxwr (h : Hdr) (index y : Reg) (acc : Fin 8) (cnt : MCnt)
  | mxst (h : Hdr) (stride base : Reg) (sp : Bool) (acc : Fin 8) (cv : MConv) (gran : Fin 16) (sbc : Option (Fin 6))
  | mxpairOn (h : Hdr)
  | mxpairOff (h : Hdr)
  | mxprog (h : Hdr) (d : Reg)
  -- fabric words (R329, R335)
  | xbulk (h : Hdr) (dst src size : Reg) (gran : Fin 16) (sbc : Option (Fin 6)) (ch : Fin 1024) (ssp rel : Bool)
  | xred (h : Hdr) (y : Reg) (m : MemOp)
  | xsig (h : Hdr) (y : Reg) (m : MemOp)
  | rfence (h : Hdr)
  -- privileged words (R392, R110, R404, R418, R396, R439, R318)
  | syswrWrite (h : Hdr) (d tgt val : Reg) (sel : BitVec 8)
  | syswrRead (h : Hdr) (d tgt : Reg) (sel : BitVec 8)
  | faultResolve (h : Hdr) (d tgt val : Reg)
  | ctxStat (h : Hdr) (d tgt val : Reg)
  | ctxPrqHead (h : Hdr) (d tgt val : Reg)
  | ctxFqHead (h : Hdr) (d tgt val : Reg)
  | ctxNqHead (h : Hdr) (d tgt val : Reg)
  | ptCtl (h : Hdr) (d tgt val : Reg)
  | ptEntryWrite (h : Hdr) (d tgt val : Reg) (sel : BitVec 8)
  | tlbiCtx (h : Hdr) (tgt : Reg)
  | tlbiPage (h : Hdr) (addr tgt : Reg)
  | tlbiRange (h : Hdr) (addr tgt count : Reg)
  | subdevCreate (h : Hdr) (d tgt desc : Reg)
  | subdevResize (h : Hdr) (d tgt desc : Reg)
  | subdevFreeze (h : Hdr) (d tgt : Reg) (bar : Option Reg)
  | subdevThaw (h : Hdr) (d tgt : Reg) (bar : Option Reg)
  | subdevCkpt (h : Hdr) (d tgt desc : Reg)
  | subdevRevoke (h : Hdr) (d tgt : Reg) (bar : Option Reg)
  | subdevReset (h : Hdr) (d tgt : Reg) (bar : Option Reg)
  | subdevDlog (h : Hdr) (d tgt desc : Reg)
  | subdevMeter (h : Hdr) (d tgt area : Reg)
  | shareSet (h : Hdr) (d tgt desc : Reg)
  | shareChg (h : Hdr) (d tgt desc : Reg)
  | pgreply (h : Hdr) (d req ans : Reg)
  | meas (h : Hdr) (d addr len : Reg) (tag : BitVec 5)
  | rcpt (h : Hdr) (d desc tgt : Reg)
  | scrubStart (h : Hdr) (d desc : Reg)
  | scrubProg (h : Hdr) (d job : Reg)
  | scrubCtx (h : Hdr) (d tgt : Reg)
  | keyzM (h : Hdr) (d slot : Reg)
  | keyzF (h : Hdr) (d slot : Reg)
  | worldOwn (h : Hdr) (d tgt w : Reg)
  | worldLatch (h : Hdr) (d core w : Reg) (bar : Option Reg)
  | worldFree (h : Hdr) (d w : Reg)
  | wmapSet (h : Hdr) (idx addr : Reg)
  | wmapClr (h : Hdr) (idx : Reg)
  | wmapGet (h : Hdr) (idx addr : Reg)
  -- the command processor and the host
  | extensionApplied (ctx : Nat)
  | hostAcknowledgement (exp : Nat)
  -- events that carry nothing (R10, R421, R425, R457, R466); they stand last because Lean numbers only so many
  -- constructors with fields
  | powerOn
  | resetLine
  | powerLoss
  | layoutTick
  | framemsTick
deriving DecidableEq, Repr

end Sys2Proof
end

