-- ==== Sys2Proof/Machine/RegByte.lean ====
section
/-!
DEFINITION. Register bytes (R52, R53): their encoding, and which bytes an operand field accepts.
-/
namespace Sys2Proof.Machine

/-- The byte that names a register (R52). -/
def regByte : Reg → BitVec 8
  | .v n => BitVec.ofNat 8 n.val
  | .s n => BitVec.ofNat 8 (0xC0 + n.val)
  | .t n => BitVec.ofNat 8 (0xF0 + n.val)
  | .zero => 0xF8
  | .lane => 0xF9

/-- The register a byte names (R52); none for the reserved bytes and for 0xFF. -/
def regOfByte (b : BitVec 8) : Option Reg :=
  if h : b.toNat < 0xC0 then some (.v ⟨b.toNat, h⟩)
  else if h : b.toNat < 0xF0 then some (.s ⟨b.toNat - 0xC0, by omega⟩)
  else if h : b.toNat < 0xF8 then some (.t ⟨b.toNat - 0xF0, by omega⟩)
  else if b.toNat = 0xF8 then some .zero
  else if b.toNat = 0xF9 then some .lane
  else none

/-- The byte of an operand that may be absent: 0xFF for none. -/
def optByte : Option Reg → BitVec 8
  | some r => regByte r
  | none => 0xFF

/-- What one operand field accepts: register kinds, and how many registers it spans (1, 2 or 4). -/
structure RegKind where
  v : Bool := true
  s : Bool := true
  t : Bool := true
  zero : Bool := true
  lane : Bool := false
  width : Nat := 1
deriving DecidableEq, Repr

/-- A register fits a field of a group with `regs` v registers (R52, R53, R148). -/
def RegKind.accepts (k : RegKind) (regs : Nat) : Reg → Bool
  | .v n => k.v && decide (n.val + k.width ≤ regs) && decide (n.val % k.width = 0)
  | .s n => k.s && decide (n.val + k.width ≤ 48) && decide (n.val % k.width = 0)
  | .t n => k.t && decide (n.val + k.width ≤ 8) && decide (n.val % k.width = 0)
  | .zero => k.zero
  | .lane => k.lane && decide (k.width = 1)

/-- One operand of a word: its register, what its field accepts, whether the word reads it and whether it writes it. -/
structure RegUse where
  reg : Reg
  kind : RegKind
  src : Bool
  dst : Bool
deriving DecidableEq, Repr

/-- A source operand: v, s, t, zero, and the home lane where it is one register wide (R202). -/
def useSrc (w : Nat) (r : Reg) : RegUse := ⟨r, { lane := true, width := w }, true, false⟩
/-- A destination operand: v, s, t, zero (R202). -/
def useDst (w : Nat) (r : Reg) : RegUse := ⟨r, { width := w }, false, true⟩
/-- A destination of a variable-latency word: v or zero (R52, R147). -/
def useVarDst (w : Nat) (r : Reg) : RegUse := ⟨r, { s := false, t := false, width := w }, false, true⟩
/-- A source that takes v, s, t or zero, not the home lane (R148, R477). -/
def usePlain (w : Nat) (r : Reg) : RegUse := ⟨r, { width := w }, true, false⟩
/-- An s source or the zero byte (R160). -/
def useS (w : Nat) (r : Reg) : RegUse := ⟨r, { v := false, t := false, width := w }, true, false⟩
/-- A pair of v, s or t registers, not the zero byte (R356, R377). -/
def usePair (r : Reg) : RegUse := ⟨r, { zero := false, width := 2 }, true, false⟩
/-- A v pair (R356). -/
def useVPair (src dst : Bool) (r : Reg) : RegUse := ⟨r, { s := false, t := false, zero := false, width := 2 }, src, dst⟩

/-- Register indices that an operand spans, for the temporaries of R60. -/
def RegUse.temps (u : RegUse) : List Nat :=
  match u.reg with
  | .t n => (List.range u.kind.width).map (fun i => n.val + i)
  | _ => []

end Sys2Proof.Machine
end

