-- ==== Sys2Proof/Machine/Forms.lean ====
section
/-!
DEFINITION. The forms of the instruction words: which registers each word names and what its fields accept (the field
tables of R147, R169, R205, R224, R241, R273, R288, R298, R307, R329, R335, R356, R392, R404, R439), its role and
privilege (R70), and how it counts in a run (R58, R59).
-/
namespace Sys2Proof.Machine

/-- Registers spanned by a value of an integer type (R203). -/
def tyRegs : ITy → Nat
  | .i64 | .n64 => 2
  | .i8 | .i16 | .i32 | .n8 | .n16 | .n32 => 1

/-- Width-only types (R203). -/
def widthOnly : ITy → Bool
  | .i32 | .n32 | .i64 | .n64 => true
  | .i8 | .i16 | .n8 | .n16 => false

/-- Bytes of a memory access width (R149). -/
def widthBytes : Width → Nat
  | .w8 => 1 | .w16 => 2 | .w32 => 4 | .w64 => 8 | .w128 => 16

/-- Registers spanned by a memory access width (R148). -/
def widthRegs : Width → Nat
  | .w8 | .w16 | .w32 => 1
  | .w64 => 2
  | .w128 => 4

/-- SYSWR selectors that name a 64-bit field (R393). -/
def selWide (sel : BitVec 8) : Bool :=
  [0x02, 0x03, 0x05, 0x06, 0x07, 0x09, 0x0A, 0x0E, 0x10, 0x11, 0x1A, 0x29, 0x2C, 0x2D, 0x2E, 0x2F].contains sel.toNat

/-- Registers spanned by a SYSWR selector's field (R392). -/
def selRegs (sel : BitVec 8) : Nat := if selWide sel then 2 else 1

/-- SYSWR selectors that are not reserved (R393). -/
def selKnown (sel : BitVec 8) : Bool :=
  decide (sel.toNat ≤ 0x1B) || (decide (0x20 ≤ sel.toNat) && decide (sel.toNat ≤ 0x2F) && decide (sel.toNat ≠ 0x27))

/-- SYSWR writes that have a row of their own: CTX.STAT, the three HEADs, FAULT.RESOLVE, PT.CTL and the port entries. -/
def selOwnRow (sel : BitVec 8) : Bool :=
  [0x00, 0x05, 0x09, 0x10, 0x1A, 0x28, 0x29, 0x2A, 0x2B, 0x2C, 0x2D, 0x2E, 0x2F].contains sel.toNat

/-- Two sources and a destination of one width. -/
def abUses (w : Nat) (d a b : Reg) : List RegUse := [useDst w d, useSrc w a, useSrc w b]

/-- Base pair and index of a memory operand (R148). -/
def memUses (m : MemOp) : List RegUse :=
  usePlain 2 m.base :: (m.index.toList.map (useSrc 1))

/-- Registers spanned by a CVT operand (R241). -/
def cvtRegs : CvtTy → Nat
  | .int t => tyRegs t
  | .flt _ => 1

/-- Formats of the 4-bit class (R241). -/
def fmt4 : BFmt → Bool
  | .i4o | .e2m1 | .i4 => true
  | .e4m3 | .e5m2 | .i8 => false

/-- A destination of the words of R241: v, t or zero. -/
def useBlkDst (w : Nat) (r : Reg) : RegUse := ⟨r, { s := false, width := w }, false, true⟩

/-- The 8- and 16-bit integer types. -/
def narrow (ty : ITy) : Bool := ty == .i8 || ty == .i16 || ty == .n8 || ty == .n16

/-- The two's-complement types (R18). -/
def signedTy : ITy → Bool
  | .i8 | .i16 | .i32 | .i64 => true
  | .n8 | .n16 | .n32 | .n64 => false

/-- FTZ may be 1 on F32 alone (R46). -/
def ftzOk (ty : FTy) (ftz : Bool) : Bool := !ftz || ty == .f32

/-- The fields of CVT (R241, R243): RM, SAT, modifier and FTZ by the pair of types. -/
def cvtOk (dt st : CvtTy) (rm : Rm) (ma : SMod) (sat ftz : Bool) : Bool :=
  (!ftz || dt == .flt .f32 || st == .flt .f32) &&
  match dt, st with
  | .int _, .int _ => rm == .rn && ma == .none
  | .flt _, .int _ => ma == .none
  | .flt _, .flt _ => true
  | .int _, .flt _ => !sat

/-- Group scope, no ORD, default hint (R147). -/
def plainMem (m : MemOp) : Bool := m.scope == .grp && !m.ord && m.hint == .default

/-- v and zero (SHFL's SA, R288). -/
def useVZ (w : Nat) (r : Reg) : RegUse := ⟨r, { s := false, t := false, width := w }, true, false⟩
/-- v and t (an index of MXRD, R273). -/
def useVT (r : Reg) : RegUse := ⟨r, { s := false, zero := false }, true, false⟩
/-- v, s and t (MXSHP, R273). -/
def useVST (r : Reg) : RegUse := ⟨r, { zero := false }, true, false⟩
/-- s alone (XBULK, R335). -/
def useSOnly (w : Nat) (r : Reg) : RegUse := ⟨r, { v := false, t := false, zero := false, width := w }, true, false⟩

/-- Base and index of an atomic's operand: a pair, or one offset register in the scratchpad (R298). -/
def atomUses (m : AtomMem) : List RegUse :=
  usePlain (if m.spad then 1 else 2) m.base :: m.index.toList.map (useSrc 1)

/-- Registers spanned by a REDL or PRFX value (R294). -/
def redRegs : RedTy → Nat
  | .int t => tyRegs t
  | .flt _ => 1

/-- Elements of MXRD and MXWR, one register each (R282). -/
def cntRegs : MCnt → Nat
  | .x1 => 1 | .x2 => 2 | .x4 => 4

/-- The register of a completion action (R170). -/
def finUses : Fin3 → List RegUse
  | .none => []
  | .flip r => [usePlain 1 r]
  | .add r => [usePair r]

/-- Operands of a copy command; `n` registers name its sizes, `fill` says that SA is CPYF's pattern (R170, R171). -/
def copyUses (n : Nat) (fill : Bool) (c : CopyOp) : List RegUse :=
  (if c.dsp then usePlain 1 c.dst else usePair c.dst) ::
  (if fill || c.ssp then usePlain 1 c.src else usePair c.src) ::
  usePlain n c.size :: finUses c.fin

/-- Kinds of dual-word halves (R54). -/
inductive HopKind where
  | oneOp | intTwo | fltTwo | immSigned | immShift | immMove
deriving DecidableEq, Repr

/-- The kind of each half opcode (R54, R72). -/
def hopKind : HOp → HopKind
  | .mov | .fneg | .fabs | .cvtF32I32 | .cvtI32F32 | .frcp | .fexp2 => .oneOp
  | .iadd | .isub | .and | .or | .xor | .ishl | .ishr | .lshr | .imin | .imax => .intTwo
  | .fadd | .fmul | .fmin | .fmax | .hadd2 | .hmul2 => .fltTwo
  | .iaddi => .immSigned
  | .ishli | .lshri => .immShift
  | .movi5 => .immMove

/-- The half reads its destination (R56). -/
def hopReadsD (o : HOp) : Bool :=
  match hopKind o with
  | .oneOp | .immMove => false
  | .intTwo | .fltTwo | .immSigned | .immShift => true

/-- The half takes a register in A (R54). -/
def hopTakesA (o : HOp) : Bool :=
  match hopKind o with
  | .oneOp | .intTwo | .fltTwo => true
  | .immSigned | .immShift | .immMove => false

/-- Halves that need the V role (R72). -/
def hopNeedsV : HOp → Bool
  | .mov | .iadd | .isub | .and | .or | .xor | .ishl | .ishr | .lshr | .imin | .imax | .iaddi | .ishli | .lshri | .movi5 => false
  | .fadd | .fmul | .fmin | .fmax | .fneg | .fabs | .hadd2 | .hmul2 | .cvtF32I32 | .cvtI32F32 | .frcp | .fexp2 => true

/-- Operands of a half (R54); the home lane is no source of a float half or a conversion (R223, R241). -/
def halfUses (x : Half) : List RegUse :=
  ⟨x.d, {}, hopReadsD x.op, true⟩ :: x.a.toList.map (if hopNeedsV x.op then usePlain 1 else useSrc 1)

/-- Fields of an atomic's operand (R298). -/
def atomOk (m : AtomMem) : Bool :=
  (m.width == .w32 || m.width == .w64) && (!m.spad || m.scope == .grp)

/-- Widths of each atomic operation (R299). -/
def aopWidthOk (op : AOp) (w : Width) : Bool :=
  match op with
  | .add | .smin | .smax | .umin | .umax | .and | .or | .xor | .exch => true
  | .fadd | .fmin | .fmax | .hadd2 | .badd2 => w == .w32

/-- Fields of REDL and PRFX (R294). -/
def redOk (ty : RedTy) (op : RedOp) (rm : Rm) (sat ftz : Bool) : Bool :=
  match ty with
  | .int t => !narrow t && rm == .rn && !ftz && (!sat || op == .add)
  | .flt f =>
    (op == .add || op == .min || op == .max) && (rm == .rn || (op == .add && rm != .rs)) &&
    (!sat || op == .add) && ftzOk f ftz

/-- Fields of a dual-word half (R54): A is present where the kind takes it, and M5 is within the kind's use. -/
def halfOk (x : Half) : Bool :=
  x.a.isSome == hopTakesA x.op &&
  match hopKind x.op with
  | .oneOp | .intTwo => x.m == 0
  | .fltTwo => decide (x.m.toNat < 4)
  | .immSigned | .immShift | .immMove => true

/-- The v registers a half reads (R56). -/
def halfVReads (x : Half) : List Nat :=
  (halfUses x).filterMap (fun u => if u.src then match u.reg with | .v n => some n.val | _ => none else none)

/-- The pairing rules of a dual word (R56). -/
def pairOk (x y : Half) : Bool :=
  (x.d != y.d || x.d == .zero) &&
  (match x.d, y.d with
    | .v a, .v b => a.val % 4 != b.val % 4
    | _, _ => true) &&
  (List.range 4).all (fun k => ((halfVReads x ++ halfVReads y).filter (fun n => n % 4 == k)).length ≤ 2)

/-- The register operands of a word (the DST, SA, SB and SC columns of the field tables). Events name none. -/
def instrUses : Instr → List RegUse
  -- control words (R356, R377)
  | .nop _ | .bra .. | .exit _ | .join .. | .leave .. | .kwait .. | .rgn _ | .yield _ | .trap .. | .brk .. | .spri .. => []
  | .brx _ _ _ r => [usePair r]
  | .call _ _ _ r _ => [useVPair false true r]
  | .ret _ _ _ r => [useVPair true false r]
  | .launch _ r _ => [usePair r]
  | .trl _ a b c d => [a, b, c, d].filterMap (fun o => o.map (fun r => ⟨r, { t := false, zero := false }, false, false⟩))
  | .dualWord _ _ x y => halfUses x ++ halfUses y
  -- integer words (R205)
  | .iadd _ d a b ty _ | .isub _ d a b ty _ | .imul _ d a b ty _ => abUses (tyRegs ty) d a b
  | .imulh _ d a b ty | .and _ d a b ty | .or _ d a b ty | .xor _ d a b ty | .imin _ d a b ty | .imax _ d a b ty =>
    abUses (tyRegs ty) d a b
  | .imad _ d a b c ty _ => abUses (tyRegs ty) d a b ++ [useSrc (tyRegs ty) c]
  | .imadw _ d a b c _ _ => [useDst 2 d, useSrc 1 a, useSrc 1 b, useSrc 2 c]
  | .iadd64 _ d a b _ _ _ => abUses 2 d a b
  | .lea _ d a b ty _ => [useDst 2 d, useSrc 2 a, useSrc (tyRegs ty) b]
  | .ishl _ d a b ty | .ishr _ d a b ty | .lshr _ d a b ty | .rot _ d a b ty | .bfx _ d a b ty =>
    [useDst (tyRegs ty) d, useSrc (tyRegs ty) a, useSrc 1 b]
  | .lop3 _ d a b c _ => abUses 1 d a b ++ [useSrc 1 c]
  | .not _ d a ty | .iabs _ d a ty _ | .ineg _ d a ty _ | .brev _ d a ty | .mov _ d a ty =>
    [useDst (tyRegs ty) d, useSrc (tyRegs ty) a]
  | .popc _ d a ty | .clz _ d a ty => [useDst 1 d, useSrc (tyRegs ty) a]
  | .bfi _ d a b c ty => abUses (tyRegs ty) d a b ++ [useSrc 1 c]
  | .icmp _ _ a b ty _ => [useSrc (tyRegs ty) a, useSrc (tyRegs ty) b]
  | .sel _ d a b _ _ ty => abUses (tyRegs ty) d a b
  | .movi _ d _ => [useDst 1 d]
  | .moviN64 _ d _ _ => [useDst 2 d]
  | .plop .. => []
  | .idot4 _ d a b c _ _ _ => abUses 1 d a b ++ [useSrc 1 c]
  | .vtos _ d a ty _ => [⟨d, { v := false, t := false, width := tyRegs ty }, false, true⟩, useSrc (tyRegs ty) a]
  | .sysrd _ d _ => [useDst 1 d]
  -- float words (R223, R224)
  | .fadd _ d a b .. | .fsub _ d a b .. | .fmul _ d a b .. | .fmin _ d a b .. | .fmax _ d a b .. | .fmaxa _ d a b .. =>
    [useDst 1 d, usePlain 1 a, usePlain 1 b]
  | .hadd2 _ d a b .. | .hmul2 _ d a b .. | .hmin2 _ d a b .. | .hmax2 _ d a b .. | .badd2 _ d a b .. | .bmul2 _ d a b ..
  | .bmin2 _ d a b .. | .bmax2 _ d a b .. => [useDst 1 d, usePlain 1 a, usePlain 1 b]
  | .ffma _ d a b c .. | .hfma2 _ d a b c .. | .bfma2 _ d a b c .. | .hdot2 _ d a b c .. | .bdot2 _ d a b c .. =>
    [useDst 1 d, usePlain 1 a, usePlain 1 b, usePlain 1 c]
  | .fcmp _ _ a b .. => [usePlain 1 a, usePlain 1 b]
  | .fclass _ d a .. | .frint _ d a .. | .frcp _ d a .. | .frsq _ d a .. | .fsqrt _ d a .. | .fexp2 _ d a .. | .flog2 _ d a ..
  | .fsin _ d a .. | .fcos _ d a .. | .ftanh _ d a .. | .fsigm _ d a .. => [useDst 1 d, usePlain 1 a]
  | .fscale _ d a b .. => [useDst 1 d, usePlain 1 a, useSrc 1 b]
  -- conversion and block words (R241)
  | .cvt _ d a dt st .. => [useBlkDst (cvtRegs dt) d, usePlain (cvtRegs st) a]
  | .pack2 _ d a b .. => [useBlkDst 1 d, usePlain 1 a, usePlain 1 b]
  | .blkenc _ d a sc f _ _ _ =>
    useBlkDst 1 d :: usePlain (if fmt4 f then 4 else 2) a :: sc.toList.map (useS 1)
  | .blkdec _ d a c4 _ _ => [useBlkDst (if c4 then 4 else 2) d, usePlain 1 a]
  | .blkhdrMake _ d a .. | .blkhdrChk _ d a .. => [useBlkDst 1 d, usePlain 1 a]
  -- memory words (R147)
  | .ld _ d m | .lds _ d m | .ldc _ d m => useVarDst (widthRegs m.width) d :: memUses m
  | .st _ d m | .sts _ d m =>
    ⟨d, { lane := true, width := widthRegs m.width }, true, false⟩ :: memUses m
  | .ldsc _ o m => usePlain 1 o :: memUses m
  | .stsc _ d m => useS (widthRegs m.width) d :: useS 2 m.base :: (m.index.toList.map (useS 1))
  | .pref _ m | .cctlWb _ m | .cctlInv _ m | .cctlIvc _ m | .prset _ m | .prclr _ m => memUses m
  | .cctlIvcAll _ | .cctlIviAll _ | .fenceAcq .. | .fenceRel .. | .fenceAcqrel .. => []
  | .prtst _ d m => ⟨d, { s := false }, false, true⟩ :: memUses m
  -- atomics, barrier objects, reels, GSYNC (R298, R307, R187, R313)
  | .atom _ d y _ m => useVarDst (widthRegs m.width) d :: usePlain (widthRegs m.width) y :: atomUses m
  | .atomcas _ d y m =>
    useVarDst (widthRegs m.width) d :: ⟨y, { zero := false, width := 2 * widthRegs m.width }, true, false⟩ :: atomUses m
  | .red _ y _ m => usePlain (widthRegs m.width) y :: atomUses m
  | .bsig _ y m | .bwait _ y m | .xred _ y m | .xsig _ y m => usePlain (widthRegs m.width) y :: memUses m
  | .bpoll _ d m => useVarDst 2 d :: memUses m
  | .stwait _ st m | .stflip _ st m => usePlain 1 st :: memUses m
  | .gsync .. | .rfence _ => []
  -- cross-lane words (R288)
  | .shfl _ d a b _ ty _ _ | .shflx _ d a b _ ty => [useBlkDst (tyRegs ty) d, useVZ (tyRegs ty) a, useSrc 1 b]
  | .vote _ d _ _ _ => match d with | .inl r => [useDst 1 r] | .inr _ => []
  | .redl _ d a ty .. => [useDst (redRegs ty) d, useSrc (redRegs ty) a]
  | .prfx _ d a ty .. => [useBlkDst (redRegs ty) d, useSrc (redRegs ty) a]
  | .matchLanes _ d a ty _ => [useDst 1 d, usePlain (tyRegs ty) a]
  | .qxch _ d a ty _ | .qbcst _ d a ty _ => [useBlkDst (tyRegs ty) d, ⟨a, { s := false, width := tyRegs ty }, true, false⟩]
  | .lmap _ d f =>
    useDst 1 d :: match f with | .self => [] | .phys a => [useSrc 1 a] | .find a => [useSrc 1 a]
  -- copy words (R169, R170, R171, R183, R184)
  | .cpy _ c => copyUses 1 false c
  | .cpy2d _ c | .cpyg _ c | .cpys _ c => copyUses 4 false c
  | .cpyf _ c => copyUses 1 true c
  | .waitsb .. => []
  | .cpyq _ d _ => [useDst 1 d]
  -- matrix words (R273)
  | .mxa _ b st sp .. | .mxb _ b st sp .. => [usePlain (if sp then 1 else 2) b, usePlain 1 st]
  | .mxshp _ dims k => [useVST dims, useVST k]
  | .mxspm _ bm ix =>
    (match bm with | some (r, sp) => [usePlain (if sp then 1 else 2) r] | none => []) ++
    (match ix with | some (r, sp, st) => [usePlain (if sp then 1 else 2) r, usePlain 1 st] | none => [])
  | .mxrun _ reel .. => reel.toList.map (usePlain 1)
  | .mxcmt _ d => [⟨d, { v := false, t := false }, false, true⟩]
  | .mxwb _ n => [usePlain 1 n]
  | .mxz .. | .mxpairOn _ | .mxpairOff _ => []
  | .mxrd _ d i _ c => [useBlkDst (cntRegs c) d, useVT i]
  | .mxwr _ i y _ c => [useVT i, usePlain (cntRegs c) y]
  | .mxst _ st b sp .. => [usePlain 1 st, usePlain (if sp then 1 else 2) b]
  | .mxprog _ d => [useDst 1 d]
  | .xbulk _ d sr sz _ _ _ ssp _ => [useSOnly 2 d, useSOnly (if ssp then 1 else 2) sr, useSOnly 1 sz]
  -- privileged words (R110, R392, R396, R404, R418, R439, R318)
  | .syswrWrite _ d tgt val sel | .ptEntryWrite _ d tgt val sel =>
    [useDst (selRegs sel) d, usePlain 1 tgt, usePlain (selRegs sel) val]
  | .syswrRead _ d tgt sel => [useDst (selRegs sel) d, usePlain 1 tgt]
  | .faultResolve _ d tgt val | .ctxPrqHead _ d tgt val | .ctxFqHead _ d tgt val | .ctxNqHead _ d tgt val =>
    [useDst 2 d, usePlain 1 tgt, usePlain 2 val]
  | .ctxStat _ d tgt val | .ptCtl _ d tgt val => [useDst 1 d, usePlain 1 tgt, usePlain 1 val]
  | .tlbiCtx _ tgt => [usePlain 1 tgt]
  | .tlbiPage _ a tgt => [usePlain 2 a, usePlain 1 tgt]
  | .tlbiRange _ a tgt c => [usePlain 2 a, usePlain 1 tgt, usePlain 1 c]
  | .pgreply _ d r a => [useDst 1 d, usePlain 1 r, usePlain 1 a]
  | .subdevCreate _ d t a | .subdevResize _ d t a | .subdevCkpt _ d t a | .subdevDlog _ d t a | .subdevMeter _ d t a
  | .shareSet _ d t a | .shareChg _ d t a => [useDst 1 d, usePlain 1 t, usePlain 2 a]
  | .subdevFreeze _ d t o | .subdevThaw _ d t o | .subdevRevoke _ d t o | .subdevReset _ d t o =>
    useDst 1 d :: usePlain 1 t :: o.toList.map (usePlain 2)
  | .meas _ d a l _ => [useDst 1 d, usePlain 2 a, usePlain 2 l]
  | .rcpt _ d a t => [useDst 1 d, usePlain 2 a, usePlain 1 t]
  | .scrubStart _ d a => [useDst 1 d, usePlain 2 a]
  | .scrubProg _ d r | .scrubCtx _ d r => [useDst 2 d, usePlain 1 r]
  | .keyzM _ d r | .keyzF _ d r | .worldFree _ d r => [useDst 1 d, usePlain 1 r]
  | .worldOwn _ d t w => [useDst 1 d, usePlain 1 t, usePlain 1 w]
  | .worldLatch _ d c w o => useDst 1 d :: usePlain 1 c :: usePlain 1 w :: o.toList.map (usePlain 2)
  | .wmapSet _ i a | .wmapGet _ i a => [usePlain 1 i, usePlain 2 a]
  | .wmapClr _ i => [usePlain 1 i]
  -- events
  | .powerOn | .resetLine | .powerLoss | .powerSample .. | .softError .. | .portLinkChange .. | .layoutTick
  | .layoutAbandon .. | .framemsTick | .ckptTrigger .. | .migrationEpoch .. | .parkComplete .. | .recallComplete ..
  | .launchFrame .. | .recordAcceptance .. | .spanPlacement .. | .gridCompletion .. | .runSelection .. | .preemption ..
  | .eddyRestore .. | .matrixGrantSwitch .. | .resultReturn .. | .walkComplete .. | .storePerform .. | .directoryAck ..
  | .drop .. | .lineRetry .. | .serviceWarpRequest .. | .bwaitRetest .. | .copyGranule .. | .xbulkGranule ..
  | .mxstGranule .. | .matrixGranule .. | .rxPacket .. | .signalPacket .. | .packetAck .. | .flitReplay ..
  | .packetRetransmit .. | .enrolmentConfirm .. | .enrolmentLost .. | .freezeComplete .. | .checkpointImage ..
  | .backwashFrame .. | .receiptSigned .. | .hostWrite .. | .hostWriteImm .. | .hostReadRefused .. | .readview ..
  | .exportCmd .. | .keyload .. | .armckpt .. | .report .. | .health .. | .layout .. | .powercap .. | .bootstmt ..
  | .reset .. | .extensionApplied .. | .hostAcknowledgement .. => []

/-- Every register operand is one its field accepts in a group with `regs` v registers (R52, R53); else REG_RANGE. -/
def regsOk (regs : Nat) (i : Instr) : Bool :=
  (instrUses i).all (fun u => u.kind.accepts regs u.reg)

/-- The fields besides registers hold values the word's row allows (R45 to R51 and the field tables); else ILLEGAL_OP. -/
def fieldsOk : Instr → Bool
  | .imulh _ _ _ _ ty | .bfx _ _ _ _ ty => !narrow ty
  | .lea _ _ _ _ ty _ => !narrow ty
  | .iadd64 _ _ _ _ p ci co => p.isSome == (ci || co)
  | .ishl _ _ _ _ ty | .ishr _ _ _ _ ty | .lshr _ _ _ _ ty | .rot _ _ _ _ ty | .and _ _ _ _ ty | .or _ _ _ _ ty
  | .xor _ _ _ _ ty | .bfi _ _ _ _ _ ty | .sel _ _ _ _ _ _ ty | .vtos _ _ _ ty _ => widthOnly ty
  | .not _ _ _ ty | .popc _ _ _ ty | .clz _ _ _ ty | .brev _ _ _ ty | .mov _ _ _ ty => widthOnly ty
  | .iabs _ _ _ ty _ => signedTy ty
  | .fadd _ _ _ _ ty _ _ _ _ ftz | .fsub _ _ _ _ ty _ _ _ _ ftz | .fmul _ _ _ _ ty _ _ _ _ ftz => ftzOk ty ftz
  | .ffma _ _ _ _ _ ty _ _ _ _ _ ftz => ftzOk ty ftz
  | .fmin _ _ _ _ ty _ _ ftz | .fmax _ _ _ _ ty _ _ ftz => ftzOk ty ftz
  | .fcmp _ _ _ _ ty _ _ ftz _ => ftzOk ty ftz
  | .fclass _ _ _ ty ftz | .fmaxa _ _ _ _ ty ftz => ftzOk ty ftz
  | .fscale _ _ _ _ ty _ _ ftz => ftzOk ty ftz
  | .frint _ _ _ ty rm _ ftz => ftzOk ty ftz && rm != .rs
  | .fsqrt _ _ _ rm _ _ => rm != .rs
  | .cvt _ _ _ dt st rm ma sat ftz => cvtOk dt st rm ma sat ftz
  | .pack2 _ _ _ _ kind rm ma mb _ ftz =>
    match kind with
    | .f16 | .bf16 => true
    | .i16 | .n16 => rm == .rn && ma == .none && mb == .none && !ftz
  | .ld _ _ m | .st _ _ m => m.ord || m.scope == .grp
  | .lds _ _ m | .sts _ _ m => m.scope == .grp && m.hint == .default
  | .ldc _ _ m => plainMem m
  | .ldsc _ _ m => plainMem m && (m.width == .w32 || m.width == .w64 || m.width == .w128)
  | .stsc _ _ m => plainMem m && (m.width == .w32 || m.width == .w64) && m.sbc == none
  | .pref _ m => m.scope == .grp && !m.ord && m.width == .w8 && m.sbc == none
  | .cctlWb _ m | .cctlInv _ m | .cctlIvc _ m | .prset _ m | .prclr _ m | .prtst _ _ m =>
    plainMem m && m.width == .w8 && m.sbc == none
  | .syswrWrite _ _ _ _ sel => selKnown sel && !selOwnRow sel
  | .ptEntryWrite _ _ _ _ sel => decide (0x29 ≤ sel.toNat) && decide (sel.toNat ≤ 0x2F)
  | .syswrRead _ _ _ sel => selKnown sel
  | .atom _ _ _ op m => atomOk m && m.index.isNone && m.scale == 0 && aopWidthOk op m.width
  | .atomcas _ _ _ m => atomOk m && m.index.isNone && m.scale == 0
  | .red _ _ op m => atomOk m && aopWidthOk op m.width
  | .bsig _ _ m => m.ord && m.hint == .default && (m.width == .w32 || m.width == .w64)
  | .bwait _ _ m => m.ord && m.hint == .default && (m.width == .w32 || m.width == .w64) && m.sbc == none
  | .bpoll _ _ m => (m.ord || m.scope == .grp) && m.hint == .default && m.width == .w64
  | .stwait _ _ m | .stflip _ _ m => plainMem m && m.width == .w128 && m.sbc == none
  | .xred _ _ m => plainMem m && (m.width == .w32 || m.width == .w64 || m.width == .w128)
  | .xsig _ _ m => plainMem m && (m.width == .w32 || m.width == .w64)
  | .shfl _ _ _ _ _ ty _ _ | .shflx _ _ _ _ _ ty => widthOnly ty
  | .vote _ d _ _ mode =>
    match mode with
    | .all | .any | .uni => d.isRight
    | .mask | .count => d.isLeft
  | .redl _ _ _ ty op rm sat ftz => redOk ty op rm sat ftz
  | .prfx _ _ _ ty op excl rm sat ftz => redOk ty op rm sat ftz && (!excl || op == .add)
  | .matchLanes _ _ _ ty _ => widthOnly ty
  | .qxch _ _ _ ty x => widthOnly ty && x != 0
  | .qbcst _ _ _ ty _ => widthOnly ty
  | .cpyf _ c => !c.ssp
  | .mxa _ _ _ _ fmt c z => match fmt with | .f16 | .bf16 => !c && z == 0 | .b8 | .b4 => true
  | .mxb _ _ _ _ fmt z => match fmt with | .f16 | .bf16 => z == 0 | .b8 | .b4 => true
  | .mxrun _ reel _ _ _ flip => reel.isSome == (flip != 0)
  | .mxst _ _ _ _ _ cv _ _ => match cv with | .f32 => true | .f16 rm | .bf16 rm => rm != .rs
  | .meas _ _ _ _ tag => (decide (1 ≤ tag.toNat) && decide (tag.toNat ≤ 3)) || decide (0x10 ≤ tag.toNat)
  | .dualWord _ _ x y => halfOk x && halfOk y
  | .nop .. | .bra .. | .brx .. | .call .. | .ret .. | .exit .. | .join .. | .leave .. | .kwait .. | .rgn ..
  | .yield .. | .trap .. | .brk .. | .spri .. | .launch .. | .trl .. | .iadd .. | .isub .. | .imul .. | .imad ..
  | .imadw .. | .lop3 .. | .imin .. | .imax .. | .ineg .. | .icmp .. | .movi .. | .moviN64 .. | .plop ..
  | .idot4 .. | .sysrd .. | .frcp .. | .frsq .. | .fexp2 .. | .flog2 .. | .fsin .. | .fcos .. | .ftanh ..
  | .fsigm .. | .hadd2 .. | .hmul2 .. | .hfma2 .. | .hmin2 .. | .hmax2 .. | .badd2 .. | .bmul2 .. | .bfma2 ..
  | .bmin2 .. | .bmax2 .. | .hdot2 .. | .bdot2 .. | .blkenc .. | .blkdec .. | .blkhdrMake .. | .blkhdrChk ..
  | .cctlIvcAll .. | .cctlIviAll .. | .fenceAcq .. | .fenceRel .. | .fenceAcqrel .. | .gsync .. | .lmap ..
  | .cpy .. | .cpy2d .. | .cpyg .. | .cpys .. | .waitsb .. | .cpyq .. | .mxshp .. | .mxspm .. | .mxcmt ..
  | .mxwb .. | .mxz .. | .mxrd .. | .mxwr .. | .mxpairOn .. | .mxpairOff .. | .mxprog .. | .xbulk .. | .rfence ..
  | .faultResolve .. | .ctxStat .. | .ctxPrqHead .. | .ctxFqHead .. | .ctxNqHead .. | .ptCtl .. | .tlbiCtx ..
  | .tlbiPage .. | .tlbiRange .. | .subdevCreate .. | .subdevResize .. | .subdevFreeze .. | .subdevThaw ..
  | .subdevCkpt .. | .subdevRevoke .. | .subdevReset .. | .subdevDlog .. | .subdevMeter .. | .shareSet ..
  | .shareChg .. | .pgreply .. | .rcpt .. | .scrubStart .. | .scrubProg .. | .scrubCtx .. | .keyzM .. | .keyzF ..
  | .worldOwn .. | .worldLatch .. | .worldFree .. | .wmapSet .. | .wmapClr .. | .wmapGet .. => true
  | .powerOn | .resetLine | .powerLoss | .layoutTick | .framemsTick => false
  | .powerSample .. | .softError .. | .portLinkChange .. | .layoutAbandon .. | .ckptTrigger .. | .migrationEpoch ..
  | .parkComplete .. | .recallComplete .. | .launchFrame .. | .recordAcceptance .. | .spanPlacement ..
  | .gridCompletion .. | .runSelection .. | .preemption .. | .eddyRestore .. | .matrixGrantSwitch ..
  | .resultReturn .. | .walkComplete .. | .storePerform .. | .directoryAck .. | .drop .. | .lineRetry ..
  | .serviceWarpRequest .. | .bwaitRetest .. | .copyGranule .. | .xbulkGranule .. | .mxstGranule ..
  | .matrixGranule .. | .rxPacket .. | .signalPacket .. | .packetAck .. | .flitReplay .. | .packetRetransmit ..
  | .enrolmentConfirm .. | .enrolmentLost .. | .freezeComplete .. | .checkpointImage .. | .backwashFrame ..
  | .receiptSigned .. | .hostWrite .. | .hostWriteImm .. | .hostReadRefused .. | .readview .. | .exportCmd ..
  | .keyload .. | .armckpt .. | .report .. | .health .. | .layout .. | .powercap .. | .bootstmt .. | .reset ..
  | .extensionApplied .. | .hostAcknowledgement .. => false

end Sys2Proof.Machine
end

