-- ==== Sys2Proof/Decode.lean ====
section
/-!
DEFINITION. The decoder and the encoder of instruction words (R42 to R56, R62, R69 to R72, and the field tables of each
chapter). `decodeWord` is total on every 64-bit word and names the decode fault of a word it refuses. Of the decode
faults, ILLEGAL_RUN depends on the run (R58 to R60) and is judged where the run is known; here it stands for a trailer
without B alone.
-/
namespace Sys2Proof

open Sys2Proof.Machine

/-- Decode-time faults (R69). -/
inductive DecodeFault where
  | illegalOp | regRange | illegalPair | illegalRun
deriving DecidableEq, Repr

/-- The fields of a full word (R43), class fields unread. -/
structure Raw where
  b : Bool
  w : Bool
  op : BitVec 8
  n : Bool
  g : BitVec 3
  dst : BitVec 8
  sa : BitVec 8
  sb : BitVec 8
  x : BitVec 25
deriving DecidableEq, Repr

/-- One bit as a Bool. -/
def bitAt {n : Nat} (v : BitVec n) (i : Nat) : Bool := v.getLsbD i

/-- The word of a full word's fields (R42, R43). -/
def Raw.pack (r : Raw) : BitVec 64 :=
  BitVec.ofBool r.b ++ BitVec.ofBool r.w ++ 0#1 ++ r.op ++ BitVec.ofBool r.n ++ r.g ++ r.dst ++ r.sa ++ r.sb ++ r.x

/-- The fields of a word read as a full word (R42, R43). -/
def Raw.unpack (v : BitVec 64) : Raw :=
  { b := bitAt v 63, w := bitAt v 62, op := v.extractLsb' 53 8, n := bitAt v 52, g := v.extractLsb' 49 3,
    dst := v.extractLsb' 41 8, sa := v.extractLsb' 33 8, sb := v.extractLsb' 25 8, x := v.extractLsb' 0 25 }

/-- X of class A (R46). -/
structure AX where
  sc : BitVec 8
  rm : BitVec 3
  ty : BitVec 3
  ma : BitVec 2
  mb : BitVec 2
  sat : Bool
  ftz : Bool
  sub : BitVec 5
deriving DecidableEq, Repr

def AX.pack (a : AX) : BitVec 25 :=
  a.sc ++ a.rm ++ a.ty ++ a.ma ++ a.mb ++ BitVec.ofBool a.sat ++ BitVec.ofBool a.ftz ++ a.sub

def AX.unpack (x : BitVec 25) : AX :=
  { sc := x.extractLsb' 17 8, rm := x.extractLsb' 14 3, ty := x.extractLsb' 11 3, ma := x.extractLsb' 9 2,
    mb := x.extractLsb' 7 2, sat := bitAt x 6, ftz := bitAt x 5, sub := x.extractLsb' 0 5 }

/-- X of class M (R48). -/
structure MX where
  sbc : BitVec 3
  scale : BitVec 2
  width : BitVec 3
  scope : BitVec 2
  ord : Bool
  hint : BitVec 2
  off : BitVec 12
deriving DecidableEq, Repr

def MX.pack (m : MX) : BitVec 25 :=
  m.sbc ++ m.scale ++ m.width ++ m.scope ++ BitVec.ofBool m.ord ++ m.hint ++ m.off

def MX.unpack (x : BitVec 25) : MX :=
  { sbc := x.extractLsb' 22 3, scale := x.extractLsb' 20 2, width := x.extractLsb' 17 3, scope := x.extractLsb' 15 2,
    ord := bitAt x 14, hint := x.extractLsb' 12 2, off := x.extractLsb' 0 12 }

/-- X of class E (R51). -/
structure EX where
  gran : BitVec 4
  sbc : BitVec 3
  rest : BitVec 18
deriving DecidableEq, Repr

def EX.pack (e : EX) : BitVec 25 := e.gran ++ e.sbc ++ e.rest

def EX.unpack (x : BitVec 25) : EX :=
  { gran := x.extractLsb' 21 4, sbc := x.extractLsb' 18 3, rest := x.extractLsb' 0 18 }

/-- The low 41 bits of a class-C word (R49): U, PRIO, reserved, OFFSET. -/
structure CX where
  u : Bool
  prio : BitVec 4
  res : BitVec 4
  off : BitVec 32
deriving DecidableEq, Repr

def CX.pack (c : CX) : BitVec 41 := BitVec.ofBool c.u ++ c.prio ++ c.res ++ c.off

def CX.unpack (v : BitVec 41) : CX :=
  { u := bitAt v 40, prio := v.extractLsb' 36 4, res := v.extractLsb' 32 4, off := v.extractLsb' 0 32 }

/-- The low 41 bits of a full word: SA, SB and X as one field. -/
def Raw.low (r : Raw) : BitVec 41 := r.sa ++ r.sb ++ r.x

/-- SA, SB and X of a low field. -/
def lowSa (v : BitVec 41) : BitVec 8 := v.extractLsb' 33 8
def lowSb (v : BitVec 41) : BitVec 8 := v.extractLsb' 25 8
def lowX (v : BitVec 41) : BitVec 25 := v.extractLsb' 0 25

-- field codes

def ityOf (b : BitVec 3) : ITy :=
  if b = 0 then .i8 else if b = 1 then .i16 else if b = 2 then .i32 else if b = 3 then .i64
  else if b = 4 then .n8 else if b = 5 then .n16 else if b = 6 then .n32 else .n64

def ityCode : ITy → BitVec 3
  | .i8 => 0 | .i16 => 1 | .i32 => 2 | .i64 => 3 | .n8 => 4 | .n16 => 5 | .n32 => 6 | .n64 => 7

def ftyOf (b : BitVec 3) : Option FTy :=
  if b = 0 then some .f32 else if b = 1 then some .f16 else if b = 2 then some .bf16 else none

def ftyCode : FTy → BitVec 3
  | .f32 => 0 | .f16 => 1 | .bf16 => 2

def rmOf (b : BitVec 3) : Option Rm :=
  if b = 0 then some .rn else if b = 1 then some .rz else if b = 2 then some .rd else if b = 3 then some .ru
  else if b = 4 then some .rs else none

def rmCode : Rm → BitVec 3
  | .rn => 0 | .rz => 1 | .rd => 2 | .ru => 3 | .rs => 4

def smodOf (b : BitVec 2) : SMod :=
  if b = 0 then .none else if b = 1 then .neg else if b = 2 then .abs else .negAbs

def smodCode : SMod → BitVec 2
  | .none => 0 | .neg => 1 | .abs => 2 | .negAbs => 3

def icondOf (b : BitVec 5) : Option ICond :=
  if b = 0 then some .eq else if b = 1 then some .ne else if b = 2 then some .lt else if b = 3 then some .le
  else if b = 4 then some .gt else if b = 5 then some .ge else if b = 6 then some .any else if b = 7 then some .none
  else none

def icondCode : ICond → BitVec 5
  | .eq => 0 | .ne => 1 | .lt => 2 | .le => 3 | .gt => 4 | .ge => 5 | .any => 6 | .none => 7

def fcondOf (b : BitVec 5) : Option FCond :=
  if b = 0 then some .eq else if b = 1 then some .ne else if b = 2 then some .lt else if b = 3 then some .le
  else if b = 4 then some .gt else if b = 5 then some .ge else if b = 6 then some .num else if b = 7 then some .nan
  else if b = 8 then some .equ else if b = 9 then some .neu else if b = 10 then some .ltu else if b = 11 then some .leu
  else if b = 12 then some .gtu else if b = 13 then some .geu else none

def fcondCode : FCond → BitVec 5
  | .eq => 0 | .ne => 1 | .lt => 2 | .le => 3 | .gt => 4 | .ge => 5 | .num => 6 | .nan => 7
  | .equ => 8 | .neu => 9 | .ltu => 10 | .leu => 11 | .gtu => 12 | .geu => 13

def scopeOf (b : BitVec 2) : Scope :=
  if b = 0 then .grp else if b = 1 then .cove else if b = 2 then .dev else .sys

def scopeCode : Scope → BitVec 2
  | .grp => 0 | .cove => 1 | .dev => 2 | .sys => 3

def hintOf (b : BitVec 2) : Hint :=
  if b = 0 then .default else if b = 1 then .stream else if b = 2 then .keep else .bypass

def hintCode : Hint → BitVec 2
  | .default => 0 | .stream => 1 | .keep => 2 | .bypass => 3

def widthOf (b : BitVec 3) : Option Width :=
  if b = 0 then some .w8 else if b = 1 then some .w16 else if b = 2 then some .w32 else if b = 3 then some .w64
  else if b = 4 then some .w128 else none

def widthCode : Width → BitVec 3
  | .w8 => 0 | .w16 => 1 | .w32 => 2 | .w64 => 3 | .w128 => 4

def aopOf (b : BitVec 4) : Option AOp :=
  if b = 0 then some .add else if b = 1 then some .smin else if b = 2 then some .smax else if b = 3 then some .umin
  else if b = 4 then some .umax else if b = 5 then some .and else if b = 6 then some .or else if b = 7 then some .xor
  else if b = 8 then some .exch else if b = 9 then some .fadd else if b = 10 then some .fmin
  else if b = 11 then some .fmax else if b = 12 then some .hadd2 else if b = 13 then some .badd2 else none

def aopCode : AOp → BitVec 4
  | .add => 0 | .smin => 1 | .smax => 2 | .umin => 3 | .umax => 4 | .and => 5 | .or => 6 | .xor => 7 | .exch => 8
  | .fadd => 9 | .fmin => 10 | .fmax => 11 | .hadd2 => 12 | .badd2 => 13

def shflOf (b : BitVec 2) : ShflMode :=
  if b = 0 then .at else if b = 1 then .rot else if b = 2 then .mir else .xor

def shflCode : ShflMode → BitVec 2
  | .at => 0 | .rot => 1 | .mir => 2 | .xor => 3

def redOpOf (b : BitVec 3) : Option RedOp :=
  if b = 0 then some .add else if b = 1 then some .min else if b = 2 then some .max else if b = 3 then some .and
  else if b = 4 then some .or else if b = 5 then some .xor else none

def redOpCode : RedOp → BitVec 3
  | .add => 0 | .min => 1 | .max => 2 | .and => 3 | .or => 4 | .xor => 5

def redTyOf (f : Bool) (b : BitVec 3) : Option RedTy :=
  if f then (ftyOf b).map .flt else some (.int (ityOf b))

def redTyFlt : RedTy → Bool
  | .int _ => false
  | .flt _ => true

def redTyCode : RedTy → BitVec 3
  | .int t => ityCode t
  | .flt t => ftyCode t

def cvtDstOf (b : BitVec 4) : Option CvtTy :=
  if b.toNat < 8 then some (.int (ityOf (b.extractLsb' 0 3)))
  else if b = 8 then some (.flt .f32) else if b = 9 then some (.flt .f16) else if b = 10 then some (.flt .bf16)
  else none

def cvtDstCode : CvtTy → BitVec 4
  | .int t => 0#1 ++ ityCode t
  | .flt t => 1#1 ++ ftyCode t

def cvtSrcOf (f : Bool) (b : BitVec 3) : Option CvtTy :=
  if f then (ftyOf b).map .flt else some (.int (ityOf b))

def cvtSrcFlt : CvtTy → Bool
  | .int _ => false
  | .flt _ => true

def cvtSrcCode : CvtTy → BitVec 3
  | .int t => ityCode t
  | .flt t => ftyCode t

def packKindOf (b : BitVec 5) : Option PackKind :=
  if b = 0 then some .f16 else if b = 1 then some .bf16 else if b = 2 then some .i16 else if b = 3 then some .n16
  else none

def packKindCode : PackKind → BitVec 5
  | .f16 => 0 | .bf16 => 1 | .i16 => 2 | .n16 => 3

def bfmtOf (b : BitVec 3) : Option BFmt :=
  if b = 0 then some .e4m3 else if b = 1 then some .e5m2 else if b = 2 then some .i8 else if b = 4 then some .i4o
  else if b = 5 then some .e2m1 else if b = 6 then some .i4 else none

def bfmtCode : BFmt → BitVec 3
  | .e4m3 => 0 | .e5m2 => 1 | .i8 => 2 | .i4o => 4 | .e2m1 => 5 | .i4 => 6

def voteOf (b : BitVec 5) : Option VoteMode :=
  if b = 0 then some .all else if b = 1 then some .any else if b = 2 then some .uni else if b = 3 then some .mask
  else if b = 4 then some .count else none

def voteCode : VoteMode → BitVec 5
  | .all => 0 | .any => 1 | .uni => 2 | .mask => 3 | .count => 4

def matchOf (b : BitVec 5) : Option MatchMode :=
  if b = 0 then some .peers else if b = 1 then some .same else if b = 2 then some .lead else none

def matchCode : MatchMode → BitVec 5
  | .peers => 0 | .same => 1 | .lead => 2

def vtosOf (b : BitVec 5) : Option VtosMode :=
  if b = 0 then some .first else if b = 1 then some .last else if b = 2 then some .uni else none

def vtosCode : VtosMode → BitVec 5
  | .first => 0 | .last => 1 | .uni => 2

def mfmtOf (b : BitVec 3) : Option MFmt :=
  if b = 0 then some .f16 else if b = 1 then some .bf16 else if b = 2 then some .b8 else if b = 3 then some .b4 else none

def mfmtCode : MFmt → BitVec 3
  | .f16 => 0 | .bf16 => 1 | .b8 => 2 | .b4 => 3

def mcntOf (b : BitVec 2) : Option MCnt :=
  if b = 0 then some .x1 else if b = 1 then some .x2 else if b = 2 then some .x4 else none

def mcntCode : MCnt → BitVec 2
  | .x1 => 0 | .x2 => 1 | .x4 => 2

def mconvOf (cv rm : BitVec 2) : Option MConv :=
  if cv = 0 then (if rm = 0 then some .f32 else none)
  else match rmOf (0#1 ++ rm) with
    | some r => if cv = 1 then some (.f16 r) else if cv = 2 then some (.bf16 r) else none
    | none => none

def mconvCv : MConv → BitVec 2
  | .f32 => 0 | .f16 _ => 1 | .bf16 _ => 2

def mconvRm : MConv → BitVec 2
  | .f32 => 0
  | .f16 r | .bf16 r => (rmCode r).extractLsb' 0 2

def hopOf (b : BitVec 6) : Option HOp :=
  if b = 0x01 then some .mov else if b = 0x02 then some .iadd else if b = 0x03 then some .isub
  else if b = 0x04 then some .and else if b = 0x05 then some .or else if b = 0x06 then some .xor
  else if b = 0x07 then some .ishl else if b = 0x08 then some .ishr else if b = 0x09 then some .lshr
  else if b = 0x0A then some .imin else if b = 0x0B then some .imax else if b = 0x0C then some .iaddi
  else if b = 0x0D then some .ishli else if b = 0x0E then some .lshri else if b = 0x0F then some .movi5
  else if b = 0x10 then some .fadd else if b = 0x11 then some .fmul else if b = 0x12 then some .fmin
  else if b = 0x13 then some .fmax else if b = 0x14 then some .fneg else if b = 0x15 then some .fabs
  else if b = 0x16 then some .hadd2 else if b = 0x17 then some .hmul2 else if b = 0x18 then some .cvtF32I32
  else if b = 0x19 then some .cvtI32F32 else if b = 0x1A then some .frcp else if b = 0x1B then some .fexp2 else none

def hopCode : HOp → BitVec 6
  | .mov => 0x01 | .iadd => 0x02 | .isub => 0x03 | .and => 0x04 | .or => 0x05 | .xor => 0x06 | .ishl => 0x07
  | .ishr => 0x08 | .lshr => 0x09 | .imin => 0x0A | .imax => 0x0B | .iaddi => 0x0C | .ishli => 0x0D | .lshri => 0x0E
  | .movi5 => 0x0F | .fadd => 0x10 | .fmul => 0x11 | .fmin => 0x12 | .fmax => 0x13 | .fneg => 0x14 | .fabs => 0x15
  | .hadd2 => 0x16 | .hmul2 => 0x17 | .cvtF32I32 => 0x18 | .cvtI32F32 => 0x19 | .frcp => 0x1A | .fexp2 => 0x1B

-- operand bytes, read leniently: whether a byte is readable is returned beside the instruction

/-- A register byte; `okb` says whether it names one. -/
def rd (b : BitVec 8) : Reg := (regOfByte b).getD .zero
def okb (b : BitVec 8) : Bool := (regOfByte b).isSome

/-- An operand that 0xFF leaves out. -/
def ro (b : BitVec 8) : Option Reg := if b = 0xFF then none else some (rd b)
def oko (b : BitVec 8) : Bool := b == 0xFF || okb b

/-- A predicate byte (R202). -/
def pr (b : BitVec 8) : Fin 8 := (b.extractLsb' 0 3).toFin
def okp (b : BitVec 8) : Bool := decide (b.toNat < 8)
def predByte (p : Fin 8) : BitVec 8 := BitVec.ofNat 8 p.val

/-- A predicate byte that 0xFF leaves out. -/
def po (b : BitVec 8) : Option (Fin 8) := if b = 0xFF then none else some (pr b)
def okpo (b : BitVec 8) : Bool := b == 0xFF || okp b
def optPred : Option (Fin 8) → BitVec 8
  | some p => predByte p
  | none => 0xFF

/-- SBC (R48): a counter, 7 for none; 6 is REG_RANGE. -/
def sbcOf (b : BitVec 3) : Option (Fin 6) :=
  if h : b.toNat < 6 then some ⟨b.toNat, h⟩ else none
def okc (b : BitVec 3) : Bool := b != 6
def sbcCode : Option (Fin 6) → BitVec 3
  | some c => BitVec.ofNat 3 c.val
  | none => 7

/-- A k register byte (R49). -/
def kOf (b : BitVec 8) : Fin 12 := if h : b.toNat < 12 then ⟨b.toNat, h⟩ else 0
def okk (b : BitVec 8) : Bool := decide (b.toNat < 12)
def kByte (k : Fin 12) : BitVec 8 := BitVec.ofNat 8 k.val

/-- The common fields of a full word. -/
def Raw.hdr (r : Raw) : Hdr := { b := r.b, w := r.w, n := r.n, g := r.g.toFin }

/-- `x` where the fields hold what the row requires; none is ILLEGAL_OP. -/
def req (c : Bool) (x : Bool × Instr) : Option (Bool × Instr) := if c then some x else none

/-- RM, modifiers, FTZ and SUB all neutral (R205). -/
def AX.plain (a : AX) : Bool := a.rm == 0 && a.ma == 0 && a.mb == 0 && !a.ftz && a.sub == 0

/-- A memory operand of a class-M word. -/
def MX.mem (m : MX) (r : Raw) (w : Width) : MemOp :=
  { base := rd r.sa, index := ro r.sb, scale := m.scale.toFin, width := w, scope := scopeOf m.scope, ord := m.ord,
    hint := hintOf m.hint, sbc := sbcOf m.sbc, off := m.off }

/-- The operand of an atomic (R298). -/
def MX.atom (m : MX) (r : Raw) (w : Width) (idx : Option Reg) : AtomMem :=
  { base := rd r.sa, index := idx, scale := m.scale.toFin, width := w, scope := scopeOf m.scope, ord := m.ord,
    sbc := sbcOf m.sbc, spad := bitAt m.off 7, off := m.off.extractLsb' 0 7 }

/-- The fields of a copy command (R169). -/
def copyOf (r : Raw) (e : EX) : CopyOp :=
  let freg := e.rest.extractLsb' 7 8
  { dst := rd r.dst, src := rd r.sa, size := rd r.sb, gran := e.gran.toFin, sbc := sbcOf e.sbc, rel := bitAt e.rest 17,
    fin := if e.rest.extractLsb' 15 2 = 1 then .flip (rd freg) else if e.rest.extractLsb' 15 2 = 2 then .add (rd freg)
      else .none,
    dsp := bitAt e.rest 6, ssp := bitAt e.rest 5 }

/-- Class-C words (R356, R377). -/
def decodeControl (op : Nat) (r : Raw) (c : CX) : Option (Bool × Instr) :=
  let h := r.hdr
  let none := r.dst == 0xFF && !c.u && c.prio == 0 && c.res == 0 && c.off == 0
  let kform := !c.u && c.prio == 0 && c.res == 0 && c.off == 0
  match op with
  | 0x00 => req none (true, .nop h)
  | 0x01 => req (r.dst == 0xFF && c.res == 0) (true, .bra h c.u c.prio.toFin c.off)
  | 0x02 => req (c.res == 0 && c.off == 0) (okb r.dst, .brx h c.u c.prio.toFin (rd r.dst))
  | 0x03 => req (c.res == 0) (okb r.dst, .call h c.u c.prio.toFin (rd r.dst) c.off)
  | 0x04 => req (c.res == 0 && c.off == 0) (okb r.dst, .ret h c.u c.prio.toFin (rd r.dst))
  | 0x05 => req none (true, .exit h)
  | 0x06 => req kform (okk r.dst, .join h (kOf r.dst))
  | 0x07 => req kform (okk r.dst, .leave h (kOf r.dst))
  | 0x08 => req kform (okk r.dst, .kwait h (kOf r.dst))
  | 0x09 => req none (true, .rgn h)
  | 0x0A => req none (true, .yield h)
  | 0x0B => req (r.dst == 0xFF && !c.u && c.prio == 0 && c.res == 0 && c.off.extractLsb' 16 16 == 0)
      (true, .trap h (c.off.extractLsb' 0 16))
  | 0x0C => req (r.dst == 0xFF && !c.u && c.prio == 0 && c.res == 0 && c.off.extractLsb' 16 16 == 0)
      (true, .brk h (c.off.extractLsb' 0 16))
  | 0x0D => req (r.dst == 0xFF && !c.u && c.res == 0 && c.off == 0) (true, .spri h c.prio.toFin)
  | 0x0E => req (!c.u && c.prio == 0 && c.res == 0 && c.off.extractLsb' 6 26 == 0)
      (okb r.dst, .launch h (rd r.dst) (c.off.extractLsb' 0 6).toFin)
  | _ => Option.none

/-- Integer words (R205, R218). -/
def decodeInt (op : Nat) (r : Raw) (a : AX) : Option (Bool × Instr) :=
  let h := r.hdr
  let d := rd r.dst
  let x := rd r.sa
  let y := rd r.sb
  let z := rd a.sc
  let ty := ityOf a.ty
  let ok1 := okb r.dst && okb r.sa
  let ok2 := ok1 && okb r.sb
  let ok3 := ok2 && okb a.sc
  let tt := a.rm ++ a.ty ++ a.ma
  match op with
  | 0x10 => req (a.plain && a.sc == 0xFF) (ok2, .iadd h d x y ty a.sat)
  | 0x11 => req (a.plain && a.sc == 0xFF) (ok2, .isub h d x y ty a.sat)
  | 0x12 => req (a.plain && a.sc == 0xFF) (ok2, .imul h d x y ty a.sat)
  | 0x13 => req (a.plain && !a.sat && a.sc == 0xFF) (ok2, .imulh h d x y ty)
  | 0x14 => req a.plain (ok3, .imad h d x y z ty a.sat)
  | 0x15 => req (a.plain && (a.ty == 2 || a.ty == 6)) (ok3, .imadw h d x y z (a.ty == 2) a.sat)
  | 0x16 => req (a.rm == 0 && a.ma == 0 && a.mb == 0 && !a.ftz && !a.sat && a.ty == 7 && a.sub.extractLsb' 2 3 == 0 &&
        (a.sub != 0 || a.sc == 0xFF))
      (ok2 && (if a.sub = 0 then a.sc == 0xFF else okp a.sc), .iadd64 h d x y (if a.sub = 0 then none else some (pr a.sc)) (bitAt a.sub 0) (bitAt a.sub 1))
  | 0x17 => req (a.rm == 0 && a.ma == 0 && a.mb == 0 && !a.ftz && !a.sat && a.sc == 0xFF) (ok2, .lea h d x y ty a.sub.toFin)
  | 0x18 => req (a.plain && !a.sat && a.sc == 0xFF) (ok2, .ishl h d x y ty)
  | 0x19 => req (a.plain && !a.sat && a.sc == 0xFF) (ok2, .ishr h d x y ty)
  | 0x1A => req (a.plain && !a.sat && a.sc == 0xFF) (ok2, .lshr h d x y ty)
  | 0x1B => req (a.plain && !a.sat && a.sc == 0xFF) (ok2, .rot h d x y ty)
  | 0x1C => req (a.mb == 0 && !a.sat && !a.ftz && a.sub == 0) (ok3, .lop3 h d x y z tt)
  | 0x1D => req (a.plain && !a.sat && a.sc == 0xFF) (ok2, .and h d x y ty)
  | 0x1E => req (a.plain && !a.sat && a.sc == 0xFF) (ok2, .or h d x y ty)
  | 0x1F => req (a.plain && !a.sat && a.sc == 0xFF) (ok2, .xor h d x y ty)
  | 0x20 => req (a.plain && !a.sat && a.sc == 0xFF && r.sb == 0xFF) (ok1, .not h d x ty)
  | 0x21 => req (a.plain && !a.sat && a.sc == 0xFF) (ok2, .imin h d x y ty)
  | 0x22 => req (a.plain && !a.sat && a.sc == 0xFF) (ok2, .imax h d x y ty)
  | 0x23 => req (a.plain && a.sc == 0xFF && r.sb == 0xFF) (ok1, .iabs h d x ty a.sat)
  | 0x24 => req (a.plain && a.sc == 0xFF && r.sb == 0xFF) (ok1, .ineg h d x ty a.sat)
  | 0x25 => req (a.plain && !a.sat && a.sc == 0xFF && r.sb == 0xFF) (ok1, .popc h d x ty)
  | 0x26 => req (a.plain && !a.sat && a.sc == 0xFF && r.sb == 0xFF) (ok1, .clz h d x ty)
  | 0x27 => req (a.plain && !a.sat && a.sc == 0xFF && r.sb == 0xFF) (ok1, .brev h d x ty)
  | 0x28 => req (a.plain && !a.sat && a.sc == 0xFF) (ok2, .bfx h d x y ty)
  | 0x29 => req (a.plain && !a.sat) (ok3, .bfi h d x y z ty)
  | 0x2A => (icondOf a.sub).bind (fun c => req (a.rm == 0 && a.ma == 0 && a.mb == 0 && !a.ftz && !a.sat && a.sc == 0xFF)
      (okp r.dst && okb r.sa && okb r.sb, .icmp h (pr r.dst) x y ty c))
  | 0x2B => req (a.rm == 0 && a.ma == 0 && a.mb == 0 && !a.ftz && !a.sat && a.sub.extractLsb' 1 4 == 0)
      (ok2 && okp a.sc, .sel h d x y (pr a.sc) (bitAt a.sub 0) ty)
  | 0x2C => req (a.plain && !a.sat && a.sc == 0xFF && r.sb == 0xFF) (ok1, .mov h d x ty)
  | 0x2D =>
    if r.sa = 0xFF then req (!bitAt r.sb 7) (okb r.dst, .movi h d (r.sb.extractLsb' 0 7 ++ r.x))
    else req (r.sa == 0xF8) (okb r.dst, .moviN64 h d (bitAt r.sb 7) (r.sb.extractLsb' 0 7 ++ r.x))
  | 0x2E => req (a.mb == 0 && !a.sat && !a.ftz && a.sub == 0)
      (okp r.dst && okp r.sa && okp r.sb && okp a.sc, .plop h (pr r.dst) (pr r.sa) (pr r.sb) (pr a.sc) tt)
  | 0x2F => req (a.rm == 0 && a.ma == 0 && a.mb == 0 && !a.ftz && (a.ty == 0 || a.ty == 4) && a.sub.extractLsb' 1 4 == 0)
      (ok3, .idot4 h d x y z (a.ty == 0) (bitAt a.sub 0) a.sat)
  | 0x30 => (vtosOf a.sub).bind (fun m => req (a.rm == 0 && a.ma == 0 && a.mb == 0 && !a.ftz && !a.sat && a.sc == 0xFF &&
      r.sb == 0xFF) (ok1, .vtos h d x ty m))
  | 0x31 =>
    if hs : r.sa.toNat < 31 then
      req (r.sb == 0xFF && a.sc == 0xFF && a.rm == 0 && a.ty == 0 && a.ma == 0 && a.mb == 0 && !a.ftz && !a.sat &&
        a.sub == 0) (okb r.dst, .sysrd h d ⟨r.sa.toNat, hs⟩)
    else none
  | _ => none

/-- Float words (R224). -/
def decodeFloat (op : Nat) (r : Raw) (a : AX) : Option (Bool × Instr) :=
  let h := r.hdr
  let d := rd r.dst
  let x := rd r.sa
  let y := rd r.sb
  let z := rd a.sc
  let ma := smodOf a.ma
  let mb := smodOf a.mb
  let ok1 := okb r.dst && okb r.sa
  let ok2 := ok1 && okb r.sb
  let ok3 := ok2 && okb a.sc
  (rmOf a.rm).bind fun rm =>
  (ftyOf a.ty).bind fun ty =>
  match op with
  | 0x40 => req (a.sc == 0xFF && a.sub == 0) (ok2, .fadd h d x y ty rm ma mb a.sat a.ftz)
  | 0x41 => req (a.sc == 0xFF && a.sub == 0) (ok2, .fsub h d x y ty rm ma mb a.sat a.ftz)
  | 0x42 => req (a.sc == 0xFF && a.sub == 0) (ok2, .fmul h d x y ty rm ma mb a.sat a.ftz)
  | 0x43 => req (a.sub.extractLsb' 1 4 == 0) (ok3, .ffma h d x y z ty rm ma mb (bitAt a.sub 0) a.sat a.ftz)
  | 0x44 => req (a.sc == 0xFF && a.sub == 0 && a.rm == 0 && !a.sat) (ok2, .fmin h d x y ty ma mb a.ftz)
  | 0x45 => req (a.sc == 0xFF && a.sub == 0 && a.rm == 0 && !a.sat) (ok2, .fmax h d x y ty ma mb a.ftz)
  | 0x46 => (fcondOf a.sub).bind (fun c => req (a.sc == 0xFF && a.rm == 0 && !a.sat)
      (okp r.dst && okb r.sa && okb r.sb, .fcmp h (pr r.dst) x y ty ma mb a.ftz c))
  | 0x47 => req (r.sb == 0xFF && a.sc == 0xFF && a.sub == 0 && a.rm == 0 && !a.sat && a.ma == 0 && a.mb == 0)
      (ok1, .fclass h d x ty a.ftz)
  | 0x48 => req (a.sc == 0xFF && a.sub == 0 && !a.sat && a.mb == 0) (ok2, .fscale h d x y ty rm ma a.ftz)
  | 0x49 => req (r.sb == 0xFF && a.sc == 0xFF && a.sub == 0 && !a.sat && a.mb == 0) (ok1, .frint h d x ty rm ma a.ftz)
  | 0x4A => req (a.sc == 0xFF && a.sub == 0 && a.rm == 0 && !a.sat && a.ma == 0 && a.mb == 0) (ok2, .fmaxa h d x y ty a.ftz)
  | 0x50 => req (r.sb == 0xFF && a.sc == 0xFF && a.sub == 0 && a.rm == 0 && a.ty == 0 && !a.sat && a.mb == 0)
      (ok1, .frcp h d x ma a.ftz)
  | 0x51 => req (r.sb == 0xFF && a.sc == 0xFF && a.sub == 0 && a.rm == 0 && a.ty == 0 && !a.sat && a.mb == 0)
      (ok1, .frsq h d x ma a.ftz)
  | 0x53 => req (r.sb == 0xFF && a.sc == 0xFF && a.sub == 0 && a.rm == 0 && a.ty == 0 && !a.sat && a.mb == 0)
      (ok1, .fexp2 h d x ma a.ftz)
  | 0x54 => req (r.sb == 0xFF && a.sc == 0xFF && a.sub == 0 && a.rm == 0 && a.ty == 0 && !a.sat && a.mb == 0)
      (ok1, .flog2 h d x ma a.ftz)
  | 0x55 => req (r.sb == 0xFF && a.sc == 0xFF && a.sub == 0 && a.rm == 0 && a.ty == 0 && !a.sat && a.mb == 0)
      (ok1, .fsin h d x ma a.ftz)
  | 0x56 => req (r.sb == 0xFF && a.sc == 0xFF && a.sub == 0 && a.rm == 0 && a.ty == 0 && !a.sat && a.mb == 0)
      (ok1, .fcos h d x ma a.ftz)
  | 0x57 => req (r.sb == 0xFF && a.sc == 0xFF && a.sub == 0 && a.rm == 0 && a.ty == 0 && !a.sat && a.mb == 0)
      (ok1, .ftanh h d x ma a.ftz)
  | 0x58 => req (r.sb == 0xFF && a.sc == 0xFF && a.sub == 0 && a.rm == 0 && a.ty == 0 && !a.sat && a.mb == 0)
      (ok1, .fsigm h d x ma a.ftz)
  | 0x52 => req (r.sb == 0xFF && a.sc == 0xFF && a.sub == 0 && a.ty == 0 && !a.sat && a.mb == 0)
      (ok1, .fsqrt h d x rm ma a.ftz)
  | 0x60 => req (a.sc == 0xFF && a.sub == 0 && a.ty == 0 && !a.ftz) (ok2, .hadd2 h d x y rm ma mb a.sat)
  | 0x61 => req (a.sc == 0xFF && a.sub == 0 && a.ty == 0 && !a.ftz) (ok2, .hmul2 h d x y rm ma mb a.sat)
  | 0x65 => req (a.sc == 0xFF && a.sub == 0 && a.ty == 0 && !a.ftz) (ok2, .badd2 h d x y rm ma mb a.sat)
  | 0x66 => req (a.sc == 0xFF && a.sub == 0 && a.ty == 0 && !a.ftz) (ok2, .bmul2 h d x y rm ma mb a.sat)
  | 0x62 => req (a.sub.extractLsb' 1 4 == 0 && a.ty == 0 && !a.ftz)
      (ok3, .hfma2 h d x y z rm ma mb (bitAt a.sub 0) a.sat)
  | 0x67 => req (a.sub.extractLsb' 1 4 == 0 && a.ty == 0 && !a.ftz)
      (ok3, .bfma2 h d x y z rm ma mb (bitAt a.sub 0) a.sat)
  | 0x6A => req (a.sub.extractLsb' 1 4 == 0 && a.ty == 0 && !a.ftz)
      (ok3, .hdot2 h d x y z rm ma mb (bitAt a.sub 0) a.sat)
  | 0x6B => req (a.sub.extractLsb' 1 4 == 0 && a.ty == 0 && !a.ftz)
      (ok3, .bdot2 h d x y z rm ma mb (bitAt a.sub 0) a.sat)
  | 0x63 => req (a.sc == 0xFF && a.sub == 0 && a.ty == 0 && a.rm == 0 && !a.sat && !a.ftz) (ok2, .hmin2 h d x y ma mb)
  | 0x64 => req (a.sc == 0xFF && a.sub == 0 && a.ty == 0 && a.rm == 0 && !a.sat && !a.ftz) (ok2, .hmax2 h d x y ma mb)
  | 0x68 => req (a.sc == 0xFF && a.sub == 0 && a.ty == 0 && a.rm == 0 && !a.sat && !a.ftz) (ok2, .bmin2 h d x y ma mb)
  | 0x69 => req (a.sc == 0xFF && a.sub == 0 && a.ty == 0 && a.rm == 0 && !a.sat && !a.ftz) (ok2, .bmax2 h d x y ma mb)
  | _ => none

/-- Conversion and block words (R241). -/
def decodeConv (op : Nat) (r : Raw) (a : AX) : Option (Bool × Instr) :=
  let h := r.hdr
  let d := rd r.dst
  let x := rd r.sa
  let ok1 := okb r.dst && okb r.sa
  let z := (a.ma.extractLsb' 0 1 ++ a.mb : BitVec 3).toFin
  let zok := a.ty == 0 && a.sc == 0xFF && !bitAt a.ma 1 && !a.sat
  (rmOf a.rm).bind fun rm =>
  match op with
  | 0x70 =>
    (cvtDstOf (a.sub.extractLsb' 0 4)).bind fun dt =>
    (cvtSrcOf (bitAt a.sub 4) a.ty).bind fun st =>
    req (r.sb == 0xFF && a.sc == 0xFF && a.mb == 0) (ok1, .cvt h d x dt st rm (smodOf a.ma) a.sat a.ftz)
  | 0x71 => (packKindOf a.sub).bind (fun k => req (a.sc == 0xFF && a.ty == 0)
      (ok1 && okb r.sb, .pack2 h d x (rd r.sb) k rm (smodOf a.ma) (smodOf a.mb) a.sat a.ftz))
  | 0x72 => (bfmtOf (a.sub.extractLsb' 0 3)).bind (fun f => req (zok && a.sub.extractLsb' 3 2 == 0)
      (ok1 && oko r.sb, .blkenc h d x (ro r.sb) f z rm a.ftz))
  | 0x73 => req (zok && r.sb == 0xFF && a.rm == 0 && a.sub.extractLsb' 3 2 == 0 && a.sub.extractLsb' 0 2 == 0)
      (ok1, .blkdec h d x (bitAt a.sub 2) z a.ftz)
  | 0x74 =>
    if bitAt a.sub 4 then
      req (zok && r.sb == 0xFF && a.rm == 0 && !a.ftz && a.sub.extractLsb' 0 2 == 0)
        (ok1, .blkhdrChk h d x (bitAt a.sub 2) (bitAt a.sub 3) z)
    else (bfmtOf (a.sub.extractLsb' 0 3)).bind (fun f => req (zok && r.sb == 0xFF && a.rm == 0 && !a.ftz)
      (ok1, .blkhdrMake h d x f (bitAt a.sub 3) z))
  | _ => none

/-- Class-M words of chapters 07, 08, 15 and 16 (R147, R187, R298, R307, R313, R329). -/
def decodeMem (op : Nat) (r : Raw) (m : MX) : Option (Bool × Instr) :=
  let h := r.hdr
  let d := rd r.dst
  let okm := okb r.sa && oko r.sb && okc m.sbc
  let bare := r.sa == 0xFF && r.sb == 0xFF && m.scale == 0 && m.off == 0 && m.width == 0 && m.hint == 0 && (m.sbc == 7 || m.sbc == 6)
  (widthOf m.width).bind fun w =>
  let o := m.mem r w
  match op with
  | 0x80 => req true (okb r.dst && okm, .ld h d o)
  | 0x81 => req true (okb r.dst && okm, .st h d o)
  | 0x82 => req true (okb r.dst && okm, .lds h d o)
  | 0x83 => req true (okb r.dst && okm, .sts h d o)
  | 0x84 => req true (okb r.dst && okm, .ldc h d o)
  | 0x85 => req true (okb r.dst && okm, .ldsc h d o)
  | 0x86 => req (m.sbc == 7 || m.sbc == 6) (okb r.dst && okm, .stsc h d o)
  | 0x87 => req (r.dst == 0xFF && (m.sbc == 7 || m.sbc == 6)) (okm, .pref h o)
  | 0x88 =>
    if r.dst = 0 then req (m.sbc == 7 || m.sbc == 6) (okm, .cctlWb h o)
    else if r.dst = 1 then req (m.sbc == 7 || m.sbc == 6) (okm, .cctlInv h o)
    else if r.dst = 2 then req (m.sbc == 7 || m.sbc == 6) (okm, .cctlIvc h o)
    else if r.dst = 3 then req (bare && m.scope == 0 && !m.ord) (okc m.sbc, .cctlIvcAll h)
    else if r.dst = 4 then req (bare && m.scope == 0 && !m.ord) (okc m.sbc, .cctlIviAll h)
    else none
  | 0x89 =>
    if r.dst = 1 then req (bare && m.ord) (okc m.sbc, .fenceAcq h (scopeOf m.scope))
    else if r.dst = 2 then req (bare && m.ord) (okc m.sbc, .fenceRel h (scopeOf m.scope))
    else if r.dst = 3 then req (bare && m.ord) (okc m.sbc, .fenceAcqrel h (scopeOf m.scope))
    else none
  | 0x8A => req (r.dst == 0xFF && (m.sbc == 7 || m.sbc == 6)) (okm, .prset h o)
  | 0x8B => req (r.dst == 0xFF && (m.sbc == 7 || m.sbc == 6)) (okm, .prclr h o)
  | 0x8C => req (m.sbc == 7 || m.sbc == 6) (okb r.dst && okm, .prtst h d o)
  | 0x90 => (aopOf (m.off.extractLsb' 8 4)).bind (fun op => req (m.hint == 0)
      (okb r.dst && okb r.sa && okb r.sb && okc m.sbc, .atom h d (rd r.sb) op (m.atom r w none)))
  | 0x91 => req (m.hint == 0 && m.off.extractLsb' 8 4 == 0)
      (okb r.dst && okb r.sa && okb r.sb && okc m.sbc, .atomcas h d (rd r.sb) (m.atom r w none))
  | 0x92 => (aopOf (m.off.extractLsb' 8 4)).bind (fun op => req (m.hint == 0)
      (okb r.dst && okm, .red h d op (m.atom r w (ro r.sb))))
  | 0x93 => req true (okb r.dst && okm, .bsig h d o)
  | 0x94 => req (m.sbc == 7 || m.sbc == 6) (okb r.dst && okm, .bwait h d o)
  | 0x95 => req true (okb r.dst && okm, .bpoll h d o)
  | 0x96 => req (m.sbc == 7) (okb r.dst && okm, .stwait h d o)
  | 0x97 => req (m.sbc == 7) (okb r.dst && okm, .stflip h d o)
  | 0x98 => req (r.dst == 0xFF && bare && m.sbc == 7 && m.ord && (m.scope == 0 || m.scope == 1)) (okc m.sbc, .gsync h (m.scope == 1))
  | 0xD1 => req true (okb r.dst && okm, .xred h d o)
  | 0xD2 => req true (okb r.dst && okm, .xsig h d o)
  | 0xD3 => req (r.dst == 0xFF && bare && m.scope == 0 && !m.ord) (okc m.sbc, .rfence h)
  | _ => none

/-- Cross-lane words (R288, R294, R295). -/
def decodeCross (op : Nat) (r : Raw) (a : AX) : Option (Bool × Instr) :=
  let h := r.hdr
  let d := rd r.dst
  let x := rd r.sa
  let ty := ityOf a.ty
  let ok1 := okb r.dst && okb r.sa
  let plain := a.rm == 0 && a.ma == 0 && a.mb == 0 && !a.sat && !a.ftz
  match op with
  | 0xA0 =>
    if hs : (a.sub.extractLsb' 2 3).toNat < 6 then
      req plain (ok1 && okb r.sb && okpo a.sc,
        .shfl h d x (rd r.sb) (po a.sc) ty (shflOf (a.sub.extractLsb' 0 2)) ⟨(a.sub.extractLsb' 2 3).toNat, hs⟩)
    else none
  | 0xA1 => req (plain && a.sub == 0) (ok1 && okb r.sb && okpo a.sc, .shflx h d x (rd r.sb) (po a.sc) ty)
  | 0xA2 => (voteOf a.sub).bind (fun m =>
      req (a.rm == 0 && a.ty == 0 && (a.ma == 0 || a.ma == 1) && a.mb == 0 && !a.sat && !a.ftz && r.sb == 0xFF &&
          a.sc == 0xFF)
        (match m with
          | .all | .any | .uni => (okp r.dst && okp r.sa, .vote h (.inr (pr r.dst)) (pr r.sa) (a.ma == 1) m)
          | .mask | .count => (okb r.dst && okp r.sa, .vote h (.inl d) (pr r.sa) (a.ma == 1) m)))
  | 0xA3 =>
    (redTyOf (bitAt a.sub 4) a.ty).bind fun t => (redOpOf (a.sub.extractLsb' 0 3)).bind fun o => (rmOf a.rm).bind fun rm =>
    req (r.sb == 0xFF && a.sc == 0xFF && a.ma == 0 && a.mb == 0 && !bitAt a.sub 3) (ok1, .redl h d x t o rm a.sat a.ftz)
  | 0xA4 =>
    (redTyOf (bitAt a.sub 4) a.ty).bind fun t => (redOpOf (a.sub.extractLsb' 0 3)).bind fun o => (rmOf a.rm).bind fun rm =>
    req (r.sb == 0xFF && a.sc == 0xFF && a.ma == 0 && a.mb == 0) (ok1, .prfx h d x t o (bitAt a.sub 3) rm a.sat a.ftz)
  | 0xA5 => (matchOf a.sub).bind (fun m => req (plain && r.sb == 0xFF && a.sc == 0xFF) (ok1, .matchLanes h d x ty m))
  | 0xA6 => req (plain && r.sb == 0xFF && a.sc == 0xFF && a.sub.extractLsb' 2 3 == 0)
      (ok1, .qxch h d x ty (a.sub.extractLsb' 0 2).toFin)
  | 0xA7 => req (plain && r.sb == 0xFF && a.sc == 0xFF && a.sub.extractLsb' 2 3 == 0)
      (ok1, .qbcst h d x ty (a.sub.extractLsb' 0 2).toFin)
  | 0xA8 =>
    let bare := plain && r.sb == 0xFF && a.sc == 0xFF && a.ty == 0
    if a.sub = 0 then req (bare && r.sa == 0xFF) (okb r.dst, .lmap h d .self)
    else if a.sub = 1 then req bare (ok1, .lmap h d (.phys x))
    else if a.sub = 2 then req bare (ok1, .lmap h d (.find x))
    else none
  | _ => none

/-- Class-E words (R169, R183, R184, R273 to R285, R335). -/
def decodeEngine (op : Nat) (r : Raw) (e : EX) : Option (Bool × Instr) :=
  let h := r.hdr
  let c := copyOf r e
  let freg := e.rest.extractLsb' 7 8
  let fin := e.rest.extractLsb' 15 2
  let okCopy := okb r.dst && okb r.sa && okb r.sb && okc e.sbc && (fin == 0 || okb freg)
  let copy := fin != 3 && e.rest.extractLsb' 0 5 == 0 && (fin != 0 || freg == 0xFF)
  let idle := e.gran == 0 && (e.sbc == 7 || e.sbc == 6)
  let oks := okc e.sbc
  let acc := (e.rest.extractLsb' 15 3).toFin
  match op with
  | 0xB0 => req copy (okCopy, .cpy h c)
  | 0xB1 => req copy (okCopy, .cpy2d h c)
  | 0xB2 => req copy (okCopy, .cpyg h c)
  | 0xB3 => req copy (okCopy, .cpys h c)
  | 0xB4 => req copy (okCopy, .cpyf h c)
  | 0xB5 => req (r.dst == 0xFF && r.sa == 0xFF && r.sb == 0xFF && e.gran == 0 && e.sbc != 7 && e.rest.extractLsb' 6 12 == 0)
      (oks, .waitsb h ((sbcOf e.sbc).getD 0) (e.rest.extractLsb' 0 6).toFin)
  | 0xB6 => req (r.sa == 0xFF && r.sb == 0xFF && e.gran == 0 && e.sbc == 7 && e.rest.extractLsb' 1 17 == 0)
      (okb r.dst && oks, .cpyq h (rd r.dst) (bitAt e.rest 0))
  | 0xC0 => (mfmtOf (e.rest.extractLsb' 14 3)).bind (fun f => req (r.dst == 0xFF && idle && e.rest.extractLsb' 0 10 == 0)
      (okb r.sa && okb r.sb && oks,
        .mxa h (rd r.sa) (rd r.sb) (bitAt e.rest 17) f (bitAt e.rest 13) (e.rest.extractLsb' 10 3).toFin))
  | 0xC1 => (mfmtOf (e.rest.extractLsb' 14 3)).bind (fun f =>
      req (r.dst == 0xFF && idle && !bitAt e.rest 13 && e.rest.extractLsb' 0 10 == 0)
      (okb r.sa && okb r.sb && oks, .mxb h (rd r.sa) (rd r.sb) (bitAt e.rest 17) f (e.rest.extractLsb' 10 3).toFin))
  | 0xC2 => req (r.dst == 0xFF && idle && e.rest == 0) (okb r.sa && okb r.sb && oks, .mxshp h (rd r.sa) (rd r.sb))
  | 0xC3 => req (idle && e.rest.extractLsb' 0 16 == 0 && (r.sa != 0xFF || !bitAt e.rest 17) &&
        (r.sb != 0xFF || (!bitAt e.rest 16 && r.dst == 0xFF)))
      (oko r.sa && oko r.sb && oks && (r.sb == 0xFF || okb r.dst),
        .mxspm h (if r.sa = 0xFF then none else some (rd r.sa, bitAt e.rest 17))
          (if r.sb = 0xFF then none else some (rd r.sb, bitAt e.rest 16, rd r.dst)))
  | 0xC4 => req (r.sa == 0xFF && r.sb == 0xFF && e.rest.extractLsb' 0 13 == 0 &&
        (e.rest.extractLsb' 13 2 != 0 || r.dst == 0xFF))
      (oks && (e.rest.extractLsb' 13 2 == 0 || okb r.dst),
        .mxrun h (if e.rest.extractLsb' 13 2 = 0 then none else some (rd r.dst)) e.gran.toFin (sbcOf e.sbc) acc
          (e.rest.extractLsb' 13 2).toFin)
  | 0xC5 => req (r.sa == 0xFF && r.sb == 0xFF && idle && e.rest == 0) (okb r.dst && oks, .mxcmt h (rd r.dst))
  | 0xC6 => req (r.dst == 0xFF && r.sb == 0xFF && idle && e.rest == 0) (okb r.sa && oks, .mxwb h (rd r.sa))
  | 0xC7 => req (r.dst == 0xFF && r.sa == 0xFF && r.sb == 0xFF && idle && e.rest.extractLsb' 0 15 == 0) (oks, .mxz h acc)
  | 0xC8 => (mcntOf (e.rest.extractLsb' 13 2)).bind (fun n => req (r.sb == 0xFF && idle && e.rest.extractLsb' 0 13 == 0)
      (okb r.dst && okb r.sa && oks, .mxrd h (rd r.dst) (rd r.sa) acc n))
  | 0xC9 => (mcntOf (e.rest.extractLsb' 13 2)).bind (fun n => req (r.dst == 0xFF && idle && e.rest.extractLsb' 0 13 == 0)
      (okb r.sa && okb r.sb && oks, .mxwr h (rd r.sa) (rd r.sb) acc n))
  | 0xCA => (mconvOf (e.rest.extractLsb' 12 2) (e.rest.extractLsb' 10 2)).bind (fun cv =>
      req (r.sb == 0xFF && e.rest.extractLsb' 0 10 == 0)
      (okb r.dst && okb r.sa && oks, .mxst h (rd r.dst) (rd r.sa) (bitAt e.rest 14) acc cv e.gran.toFin (sbcOf e.sbc)))
  | 0xCB => req (r.dst == 0xFF && r.sa == 0xFF && r.sb == 0xFF && idle && e.rest.extractLsb' 0 17 == 0)
      (oks, if bitAt e.rest 17 then .mxpairOn h else .mxpairOff h)
  | 0xCC => req (r.sa == 0xFF && r.sb == 0xFF && idle && e.rest == 0) (okb r.dst && oks, .mxprog h (rd r.dst))
  | 0xD0 => req (e.rest.extractLsb' 0 6 == 0)
      (okb r.dst && okb r.sa && okb r.sb && oks,
        .xbulk h (rd r.dst) (rd r.sa) (rd r.sb) e.gran.toFin (sbcOf e.sbc) (e.rest.extractLsb' 8 10).toFin
          (bitAt e.rest 7) (bitAt e.rest 6))
  | _ => none

/-- Privileged words (R110, R318, R392, R396, R404, R418, R439). -/
def decodePriv (op : Nat) (r : Raw) (a : AX) : Option (Bool × Instr) :=
  let h := r.hdr
  let d := rd r.dst
  let x := rd r.sa
  let y := rd r.sb
  let ok1 := okb r.dst && okb r.sa
  let ok2 := ok1 && okb r.sb
  let zero := a.rm == 0 && a.ty == 0 && a.ma == 0 && a.mb == 0 && !a.sat && !a.ftz
  let opt := ok1 && oko r.sb
  match op with
  | 0xE0 =>
    let sel := a.rm ++ a.ty ++ a.ma
    let rest := a.sc == 0xFF && a.mb == 0 && !a.sat && !a.ftz
    if a.sub = 0 then
      req rest (ok2,
        if sel = 0x1A then .faultResolve h d x y
        else if sel = 0x00 then .ctxStat h d x y
        else if sel = 0x05 then .ctxPrqHead h d x y
        else if sel = 0x09 then .ctxFqHead h d x y
        else if sel = 0x10 then .ctxNqHead h d x y
        else if sel = 0x28 then .ptCtl h d x y
        else if 0x29 ≤ sel.toNat ∧ sel.toNat ≤ 0x2F then .ptEntryWrite h d x y sel
        else .syswrWrite h d x y sel)
    else if a.sub = 1 then req (rest && r.sb == 0xFF) (ok1, .syswrRead h d x sel)
    else none
  | 0xE1 =>
    if a.sub = 0 then req (zero && r.dst == 0xFF && r.sa == 0xFF && a.sc == 0xFF) (okb r.sb, .tlbiCtx h y)
    else if a.sub = 1 then req (zero && r.dst == 0xFF && a.sc == 0xFF) (okb r.sa && okb r.sb, .tlbiPage h x y)
    else if a.sub = 2 then req (zero && r.dst == 0xFF) (okb r.sa && okb r.sb && okb a.sc, .tlbiRange h x y (rd a.sc))
    else none
  | 0xE2 =>
    let z := zero && a.sc == 0xFF
    if a.sub = 0 then req z (ok2, .subdevCreate h d x y)
    else if a.sub = 1 then req z (ok2, .subdevResize h d x y)
    else if a.sub = 2 then req z (opt, .subdevFreeze h d x (ro r.sb))
    else if a.sub = 3 then req z (opt, .subdevThaw h d x (ro r.sb))
    else if a.sub = 4 then req z (ok2, .subdevCkpt h d x y)
    else if a.sub = 5 then req z (opt, .subdevRevoke h d x (ro r.sb))
    else if a.sub = 6 then req z (opt, .subdevReset h d x (ro r.sb))
    else if a.sub = 7 then req z (ok2, .subdevDlog h d x y)
    else if a.sub = 8 then req z (ok2, .subdevMeter h d x y)
    else none
  | 0xE3 => req (zero && a.sc == 0xFF && a.sub == 0) (ok2, .pgreply h d x y)
  | 0xE4 => req (zero && a.sc == 0xFF) (ok2, .meas h d x y a.sub)
  | 0xE5 => req (zero && a.sc == 0xFF && a.sub == 0) (ok2, .rcpt h d x y)
  | 0xE6 =>
    let z := zero && a.sc == 0xFF && r.sb == 0xFF
    if a.sub = 0 then req z (ok1, .scrubStart h d x)
    else if a.sub = 1 then req z (ok1, .scrubProg h d x)
    else if a.sub = 2 then req z (ok1, .scrubCtx h d x)
    else none
  | 0xE7 =>
    let z := zero && a.sc == 0xFF && r.sb == 0xFF
    if a.sub = 0 then req z (ok1, .keyzM h d x)
    else if a.sub = 1 then req z (ok1, .keyzF h d x)
    else none
  | 0xE8 =>
    if a.sub = 0 then req (zero && a.sc == 0xFF) (ok2, .worldOwn h d x y)
    else if a.sub = 1 then req zero (ok2 && oko a.sc, .worldLatch h d x y (ro a.sc))
    else if a.sub = 2 then req (zero && a.sc == 0xFF && r.sb == 0xFF) (ok1, .worldFree h d x)
    else none
  | 0xE9 =>
    let z := zero && a.sc == 0xFF && r.dst == 0xFF
    if a.sub = 0 then req z (okb r.sa && okb r.sb, .wmapSet h x y)
    else if a.sub = 1 then req (z && r.sb == 0xFF) (okb r.sa, .wmapClr h x)
    else if a.sub = 2 then req z (okb r.sa && okb r.sb, .wmapGet h x y)
    else none
  | 0xEA =>
    let z := zero && a.sc == 0xFF
    if a.sub = 0 then req z (ok2, .shareSet h d x y)
    else if a.sub = 1 then req z (ok2, .shareChg h d x y)
    else none
  | _ => none

/-- A full word (R43, R70): none is ILLEGAL_OP; the Bool says that every register and predicate byte is readable. -/
def decodeFull (r : Raw) : Option (Bool × Instr) :=
  let op := r.op.toNat
  if op < 0x10 then decodeControl op r (CX.unpack r.low)
  else if op < 0x40 then decodeInt op r (AX.unpack r.x)
  else if op < 0x70 then decodeFloat op r (AX.unpack r.x)
  else if op < 0x80 then decodeConv op r (AX.unpack r.x)
  else if op < 0xA0 then decodeMem op r (MX.unpack r.x)
  else if op < 0xB0 then decodeCross op r (AX.unpack r.x)
  else if op < 0xD1 then decodeEngine op r (EX.unpack r.x)
  else if op < 0xE0 then decodeMem op r (MX.unpack r.x)
  else if op < 0xF0 then decodePriv op r (AX.unpack r.x)
  else if op = 0xFF then
    let sc := r.x.extractLsb' 17 8
    req (!r.n && r.g == 7 && r.x.extractLsb' 0 17 == 0)
      (oko r.dst && oko r.sa && oko r.sb && oko sc, .trl r.w (ro r.dst) (ro r.sa) (ro r.sb) (ro sc))
  else none

/-- One half of a dual word (R54): none is ILLEGAL_OP. -/
def decodeHalf (v : BitVec 30) : Option (Bool × Half) :=
  (hopOf (v.extractLsb' 24 6)).bind fun op =>
  let d := v.extractLsb' 13 8
  let a := v.extractLsb' 5 8
  let x : Half :=
    ⟨op, (v.extractLsb' 21 3).toFin, rd d, if hopTakesA op then some (rd a) else none, v.extractLsb' 0 5⟩
  if halfOk x && (hopTakesA op || a == 0xFF) then some (okb d && (!hopTakesA op || okb a), x) else none

def encodeHalf (x : Half) : BitVec 30 :=
  hopCode x.op ++ (BitVec.ofFin x.g : BitVec 3) ++ regByte x.d ++ optByte x.a ++ x.m

/-- A full word from its opcode, header and three operand bytes and X. -/
def full (op : BitVec 8) (h : Hdr) (dst sa sb : BitVec 8) (x : BitVec 25) : Raw :=
  { b := h.b, w := h.w, op := op, n := h.n, g := BitVec.ofFin h.g, dst := dst, sa := sa, sb := sb, x := x }

/-- A class-A word. -/
def fullA (op : BitVec 8) (h : Hdr) (dst sa sb : BitVec 8) (a : AX) : Raw := full op h dst sa sb a.pack

/-- A class-C word. -/
def fullC (op : BitVec 8) (h : Hdr) (dst : BitVec 8) (c : CX) : Raw :=
  full op h dst (lowSa c.pack) (lowSb c.pack) (lowX c.pack)

/-- A class-E word. -/
def fullE (op : BitVec 8) (h : Hdr) (dst sa sb : BitVec 8) (e : EX) : Raw := full op h dst sa sb e.pack

/-- A class-M word from its operand. -/
def fullM (op : BitVec 8) (h : Hdr) (dst : BitVec 8) (m : MemOp) : Raw :=
  full op h dst (regByte m.base) (optByte m.index)
    (MX.pack { sbc := sbcCode m.sbc, scale := BitVec.ofFin m.scale, width := widthCode m.width,
               scope := scopeCode m.scope, ord := m.ord, hint := hintCode m.hint, off := m.off })

/-- An atomic's word (R298). -/
def fullAtom (op : BitVec 8) (h : Hdr) (dst sb : BitVec 8) (aop : BitVec 4) (m : AtomMem) : Raw :=
  full op h dst (regByte m.base) sb
    (MX.pack { sbc := sbcCode m.sbc, scale := BitVec.ofFin m.scale, width := widthCode m.width,
               scope := scopeCode m.scope, ord := m.ord, hint := 0, off := aop ++ BitVec.ofBool m.spad ++ m.off })

/-- A class-M word with no operand: FENCE, GSYNC, RFENCE and the whole-cache forms of CCTL. -/
def fullBare (op : BitVec 8) (h : Hdr) (dst : BitVec 8) (sc : Scope) (ord : Bool) : Raw :=
  full op h dst 0xFF 0xFF
    (MX.pack { sbc := 7, scale := 0, width := 0, scope := scopeCode sc, ord := ord, hint := 0, off := 0 })

/-- X of an integer word: type, SAT, SUB, third source. -/
def axInt (ty : BitVec 3) (sat : Bool) (sub : BitVec 5) (sc : BitVec 8) : AX :=
  { sc := sc, rm := 0, ty := ty, ma := 0, mb := 0, sat := sat, ftz := false, sub := sub }

/-- X of LOP3 and PLOP (R205). -/
def axTt (tt : BitVec 8) (sc : BitVec 8) : AX :=
  { sc := sc, rm := tt.extractLsb' 5 3, ty := tt.extractLsb' 2 3, ma := tt.extractLsb' 0 2, mb := 0, sat := false,
    ftz := false, sub := 0 }

/-- X of a float word. -/
def axFlt (ty : BitVec 3) (rm : Rm) (ma mb : SMod) (sat ftz : Bool) (sub : BitVec 5) (sc : BitVec 8) : AX :=
  { sc := sc, rm := rmCode rm, ty := ty, ma := smodCode ma, mb := smodCode mb, sat := sat, ftz := ftz, sub := sub }

/-- X of the block words (R241): swizzle in [9:7]. -/
def axBlk (rm : Rm) (z : Fin 8) (ftz : Bool) (sub : BitVec 5) : AX :=
  { sc := 0xFF, rm := rmCode rm, ty := 0, ma := 0#1 ++ (BitVec.ofFin z : BitVec 3).extractLsb' 2 1,
    mb := (BitVec.ofFin z : BitVec 3).extractLsb' 0 2, sat := false, ftz := ftz, sub := sub }

/-- X of a SYSWR word (R392). -/
def axSel (sel : BitVec 8) (sub : BitVec 5) : AX :=
  { sc := 0xFF, rm := sel.extractLsb' 5 3, ty := sel.extractLsb' 2 3, ma := sel.extractLsb' 0 2, mb := 0, sat := false,
    ftz := false, sub := sub }

/-- One bit as SUB bit `i`. -/
def subBit (b : Bool) (i : Nat) : BitVec 5 := if b then BitVec.ofNat 5 (2 ^ i) else 0

/-- Class-C fields. -/
def cx (u : Bool) (prio : Fin 16) (off : BitVec 32) : CX := { u := u, prio := BitVec.ofFin prio, res := 0, off := off }

/-- X of a copy command (R169). -/
def exCopy (c : CopyOp) : EX :=
  { gran := BitVec.ofFin c.gran, sbc := sbcCode c.sbc,
    rest := BitVec.ofBool c.rel ++
      (match c.fin with | .none => 0#2 | .flip _ => 1#2 | .add _ => 2#2) ++
      (match c.fin with | .none => 0xFF#8 | .flip r => regByte r | .add r => regByte r) ++
      BitVec.ofBool c.dsp ++ BitVec.ofBool c.ssp ++ 0#5 }

/-- X of an engine word with no granule and no counter. -/
def exIdle (rest : BitVec 18) : EX := { gran := 0, sbc := 7, rest := rest }

def encodeCopy (op : BitVec 8) (h : Hdr) (c : CopyOp) : Raw :=
  fullE op h (regByte c.dst) (regByte c.src) (regByte c.size) (exCopy c)

/-- The fields of a full word (R43 to R51). Events and dual words have none and give a word of zeros. -/
def encodeRaw : Instr → Raw
  | .nop h => fullC 0x00 h 0xFF (cx false 0 0)
  | .exit h => fullC 0x05 h 0xFF (cx false 0 0)
  | .rgn h => fullC 0x09 h 0xFF (cx false 0 0)
  | .yield h => fullC 0x0A h 0xFF (cx false 0 0)
  | .bra h u p off => fullC 0x01 h 0xFF (cx u p off)
  | .brx h u p t => fullC 0x02 h (regByte t) (cx u p 0)
  | .call h u p l off => fullC 0x03 h (regByte l) (cx u p off)
  | .ret h u p t => fullC 0x04 h (regByte t) (cx u p 0)
  | .join h k => fullC 0x06 h (kByte k) (cx false 0 0)
  | .leave h k => fullC 0x07 h (kByte k) (cx false 0 0)
  | .kwait h k => fullC 0x08 h (kByte k) (cx false 0 0)
  | .trap h c => fullC 0x0B h 0xFF (cx false 0 (0#16 ++ c))
  | .brk h c => fullC 0x0C h 0xFF (cx false 0 (0#16 ++ c))
  | .spri h p => fullC 0x0D h 0xFF (cx false p 0)
  | .launch h r q => fullC 0x0E h (regByte r) (cx false 0 (0#26 ++ (BitVec.ofFin q : BitVec 6)))
  | .trl w a b c d => ⟨true, w, 0xFF, false, 7, optByte a, optByte b, optByte c, optByte d ++ 0#17⟩
  | .iadd h d a b ty sat => fullA 0x10 h (regByte d) (regByte a) (regByte b) (axInt (ityCode ty) sat 0 0xFF)
  | .isub h d a b ty sat => fullA 0x11 h (regByte d) (regByte a) (regByte b) (axInt (ityCode ty) sat 0 0xFF)
  | .imul h d a b ty sat => fullA 0x12 h (regByte d) (regByte a) (regByte b) (axInt (ityCode ty) sat 0 0xFF)
  | .imulh h d a b ty => fullA 0x13 h (regByte d) (regByte a) (regByte b) (axInt (ityCode ty) false 0 0xFF)
  | .ishl h d a b ty => fullA 0x18 h (regByte d) (regByte a) (regByte b) (axInt (ityCode ty) false 0 0xFF)
  | .ishr h d a b ty => fullA 0x19 h (regByte d) (regByte a) (regByte b) (axInt (ityCode ty) false 0 0xFF)
  | .lshr h d a b ty => fullA 0x1A h (regByte d) (regByte a) (regByte b) (axInt (ityCode ty) false 0 0xFF)
  | .rot h d a b ty => fullA 0x1B h (regByte d) (regByte a) (regByte b) (axInt (ityCode ty) false 0 0xFF)
  | .and h d a b ty => fullA 0x1D h (regByte d) (regByte a) (regByte b) (axInt (ityCode ty) false 0 0xFF)
  | .or h d a b ty => fullA 0x1E h (regByte d) (regByte a) (regByte b) (axInt (ityCode ty) false 0 0xFF)
  | .xor h d a b ty => fullA 0x1F h (regByte d) (regByte a) (regByte b) (axInt (ityCode ty) false 0 0xFF)
  | .imin h d a b ty => fullA 0x21 h (regByte d) (regByte a) (regByte b) (axInt (ityCode ty) false 0 0xFF)
  | .imax h d a b ty => fullA 0x22 h (regByte d) (regByte a) (regByte b) (axInt (ityCode ty) false 0 0xFF)
  | .bfx h d a b ty => fullA 0x28 h (regByte d) (regByte a) (regByte b) (axInt (ityCode ty) false 0 0xFF)
  | .imad h d a b c ty sat => fullA 0x14 h (regByte d) (regByte a) (regByte b) (axInt (ityCode ty) sat 0 (regByte c))
  | .imadw h d a b c sg sat => fullA 0x15 h (regByte d) (regByte a) (regByte b) (axInt (if sg then 2 else 6) sat 0 (regByte c))
  | .iadd64 h d a b p ci co => fullA 0x16 h (regByte d) (regByte a) (regByte b)
      (axInt 7 false (subBit ci 0 ||| subBit co 1) (optPred p))
  | .lea h d a b ty k => fullA 0x17 h (regByte d) (regByte a) (regByte b) (axInt (ityCode ty) false (BitVec.ofFin k) 0xFF)
  | .lop3 h d a b c tt => fullA 0x1C h (regByte d) (regByte a) (regByte b) (axTt tt (regByte c))
  | .not h d a ty => fullA 0x20 h (regByte d) (regByte a) 0xFF (axInt (ityCode ty) false 0 0xFF)
  | .popc h d a ty => fullA 0x25 h (regByte d) (regByte a) 0xFF (axInt (ityCode ty) false 0 0xFF)
  | .clz h d a ty => fullA 0x26 h (regByte d) (regByte a) 0xFF (axInt (ityCode ty) false 0 0xFF)
  | .brev h d a ty => fullA 0x27 h (regByte d) (regByte a) 0xFF (axInt (ityCode ty) false 0 0xFF)
  | .mov h d a ty => fullA 0x2C h (regByte d) (regByte a) 0xFF (axInt (ityCode ty) false 0 0xFF)
  | .iabs h d a ty sat => fullA 0x23 h (regByte d) (regByte a) 0xFF (axInt (ityCode ty) sat 0 0xFF)
  | .ineg h d a ty sat => fullA 0x24 h (regByte d) (regByte a) 0xFF (axInt (ityCode ty) sat 0 0xFF)
  | .bfi h d a b c ty => fullA 0x29 h (regByte d) (regByte a) (regByte b) (axInt (ityCode ty) false 0 (regByte c))
  | .icmp h p a b ty c => fullA 0x2A h (predByte p) (regByte a) (regByte b) (axInt (ityCode ty) false (icondCode c) 0xFF)
  | .sel h d a b p ng ty => fullA 0x2B h (regByte d) (regByte a) (regByte b) (axInt (ityCode ty) false (subBit ng 0) (predByte p))
  | .movi h d i => full 0x2D h (regByte d) 0xFF (0#1 ++ i.extractLsb' 25 7) (i.extractLsb' 0 25)
  | .moviN64 h d hi i => full 0x2D h (regByte d) 0xF8 (BitVec.ofBool hi ++ i.extractLsb' 25 7) (i.extractLsb' 0 25)
  | .plop h p a b c tt => fullA 0x2E h (predByte p) (predByte a) (predByte b) (axTt tt (predByte c))
  | .idot4 h d a b c sg mix sat => fullA 0x2F h (regByte d) (regByte a) (regByte b)
      (axInt (if sg then 0 else 4) sat (subBit mix 0) (regByte c))
  | .vtos h d a ty m => fullA 0x30 h (regByte d) (regByte a) 0xFF (axInt (ityCode ty) false (vtosCode m) 0xFF)
  | .sysrd h d s => fullA 0x31 h (regByte d) (BitVec.ofNat 8 s.val) 0xFF (axInt 0 false 0 0xFF)
  | .fadd h d a b ty rm ma mb sat ftz => fullA 0x40 h (regByte d) (regByte a) (regByte b)
      (axFlt (ftyCode ty) rm ma mb sat ftz 0 0xFF)
  | .fsub h d a b ty rm ma mb sat ftz => fullA 0x41 h (regByte d) (regByte a) (regByte b)
      (axFlt (ftyCode ty) rm ma mb sat ftz 0 0xFF)
  | .fmul h d a b ty rm ma mb sat ftz => fullA 0x42 h (regByte d) (regByte a) (regByte b)
      (axFlt (ftyCode ty) rm ma mb sat ftz 0 0xFF)
  | .ffma h d a b c ty rm ma mb nc sat ftz => fullA 0x43 h (regByte d) (regByte a) (regByte b)
      (axFlt (ftyCode ty) rm ma mb sat ftz (subBit nc 0) (regByte c))
  | .fmin h d a b ty ma mb ftz => fullA 0x44 h (regByte d) (regByte a) (regByte b)
      (axFlt (ftyCode ty) .rn ma mb false ftz 0 0xFF)
  | .fmax h d a b ty ma mb ftz => fullA 0x45 h (regByte d) (regByte a) (regByte b)
      (axFlt (ftyCode ty) .rn ma mb false ftz 0 0xFF)
  | .fcmp h p a b ty ma mb ftz c => fullA 0x46 h (predByte p) (regByte a) (regByte b)
      (axFlt (ftyCode ty) .rn ma mb false ftz (fcondCode c) 0xFF)
  | .fclass h d a ty ftz => fullA 0x47 h (regByte d) (regByte a) 0xFF (axFlt (ftyCode ty) .rn .none .none false ftz 0 0xFF)
  | .fscale h d a b ty rm ma ftz => fullA 0x48 h (regByte d) (regByte a) (regByte b)
      (axFlt (ftyCode ty) rm ma .none false ftz 0 0xFF)
  | .frint h d a ty rm ma ftz => fullA 0x49 h (regByte d) (regByte a) 0xFF (axFlt (ftyCode ty) rm ma .none false ftz 0 0xFF)
  | .fmaxa h d a b ty ftz => fullA 0x4A h (regByte d) (regByte a) (regByte b)
      (axFlt (ftyCode ty) .rn .none .none false ftz 0 0xFF)
  | .frcp h d a ma ftz => fullA 0x50 h (regByte d) (regByte a) 0xFF (axFlt 0 .rn ma .none false ftz 0 0xFF)
  | .frsq h d a ma ftz => fullA 0x51 h (regByte d) (regByte a) 0xFF (axFlt 0 .rn ma .none false ftz 0 0xFF)
  | .fexp2 h d a ma ftz => fullA 0x53 h (regByte d) (regByte a) 0xFF (axFlt 0 .rn ma .none false ftz 0 0xFF)
  | .flog2 h d a ma ftz => fullA 0x54 h (regByte d) (regByte a) 0xFF (axFlt 0 .rn ma .none false ftz 0 0xFF)
  | .fsin h d a ma ftz => fullA 0x55 h (regByte d) (regByte a) 0xFF (axFlt 0 .rn ma .none false ftz 0 0xFF)
  | .fcos h d a ma ftz => fullA 0x56 h (regByte d) (regByte a) 0xFF (axFlt 0 .rn ma .none false ftz 0 0xFF)
  | .ftanh h d a ma ftz => fullA 0x57 h (regByte d) (regByte a) 0xFF (axFlt 0 .rn ma .none false ftz 0 0xFF)
  | .fsigm h d a ma ftz => fullA 0x58 h (regByte d) (regByte a) 0xFF (axFlt 0 .rn ma .none false ftz 0 0xFF)
  | .fsqrt h d a rm ma ftz => fullA 0x52 h (regByte d) (regByte a) 0xFF (axFlt 0 rm ma .none false ftz 0 0xFF)
  | .hadd2 h d a b rm ma mb sat => fullA 0x60 h (regByte d) (regByte a) (regByte b) (axFlt 0 rm ma mb sat false 0 0xFF)
  | .hmul2 h d a b rm ma mb sat => fullA 0x61 h (regByte d) (regByte a) (regByte b) (axFlt 0 rm ma mb sat false 0 0xFF)
  | .badd2 h d a b rm ma mb sat => fullA 0x65 h (regByte d) (regByte a) (regByte b) (axFlt 0 rm ma mb sat false 0 0xFF)
  | .bmul2 h d a b rm ma mb sat => fullA 0x66 h (regByte d) (regByte a) (regByte b) (axFlt 0 rm ma mb sat false 0 0xFF)
  | .hfma2 h d a b c rm ma mb nc sat => fullA 0x62 h (regByte d) (regByte a) (regByte b)
      (axFlt 0 rm ma mb sat false (subBit nc 0) (regByte c))
  | .bfma2 h d a b c rm ma mb nc sat => fullA 0x67 h (regByte d) (regByte a) (regByte b)
      (axFlt 0 rm ma mb sat false (subBit nc 0) (regByte c))
  | .hdot2 h d a b c rm ma mb nc sat => fullA 0x6A h (regByte d) (regByte a) (regByte b)
      (axFlt 0 rm ma mb sat false (subBit nc 0) (regByte c))
  | .bdot2 h d a b c rm ma mb nc sat => fullA 0x6B h (regByte d) (regByte a) (regByte b)
      (axFlt 0 rm ma mb sat false (subBit nc 0) (regByte c))
  | .hmin2 h d a b ma mb => fullA 0x63 h (regByte d) (regByte a) (regByte b) (axFlt 0 .rn ma mb false false 0 0xFF)
  | .hmax2 h d a b ma mb => fullA 0x64 h (regByte d) (regByte a) (regByte b) (axFlt 0 .rn ma mb false false 0 0xFF)
  | .bmin2 h d a b ma mb => fullA 0x68 h (regByte d) (regByte a) (regByte b) (axFlt 0 .rn ma mb false false 0 0xFF)
  | .bmax2 h d a b ma mb => fullA 0x69 h (regByte d) (regByte a) (regByte b) (axFlt 0 .rn ma mb false false 0 0xFF)
  | .cvt h d a dt st rm ma sat ftz => fullA 0x70 h (regByte d) (regByte a) 0xFF
      (axFlt (cvtSrcCode st) rm ma .none sat ftz (BitVec.ofBool (cvtSrcFlt st) ++ cvtDstCode dt) 0xFF)
  | .pack2 h d a b k rm ma mb sat ftz => fullA 0x71 h (regByte d) (regByte a) (regByte b)
      (axFlt 0 rm ma mb sat ftz (packKindCode k) 0xFF)
  | .blkenc h d a s f z rm ftz => fullA 0x72 h (regByte d) (regByte a) (optByte s) (axBlk rm z ftz (0#2 ++ bfmtCode f))
  | .blkdec h d a c4 z ftz => fullA 0x73 h (regByte d) (regByte a) 0xFF (axBlk .rn z ftz (subBit c4 2))
  | .blkhdrMake h d a f c z => fullA 0x74 h (regByte d) (regByte a) 0xFF (axBlk .rn z false (0#1 ++ BitVec.ofBool c ++ bfmtCode f))
  | .blkhdrChk h d a c4 c z => fullA 0x74 h (regByte d) (regByte a) 0xFF
      (axBlk .rn z false (1#1 ++ BitVec.ofBool c ++ BitVec.ofBool c4 ++ 0#2))
  | .ld h d m => fullM 0x80 h (regByte d) m
  | .st h d m => fullM 0x81 h (regByte d) m
  | .lds h d m => fullM 0x82 h (regByte d) m
  | .sts h d m => fullM 0x83 h (regByte d) m
  | .ldc h d m => fullM 0x84 h (regByte d) m
  | .ldsc h d m => fullM 0x85 h (regByte d) m
  | .stsc h d m => fullM 0x86 h (regByte d) m
  | .prtst h d m => fullM 0x8C h (regByte d) m
  | .bsig h d m => fullM 0x93 h (regByte d) m
  | .bwait h d m => fullM 0x94 h (regByte d) m
  | .bpoll h d m => fullM 0x95 h (regByte d) m
  | .stwait h d m => fullM 0x96 h (regByte d) m
  | .stflip h d m => fullM 0x97 h (regByte d) m
  | .xred h d m => fullM 0xD1 h (regByte d) m
  | .xsig h d m => fullM 0xD2 h (regByte d) m
  | .pref h m => fullM 0x87 h 0xFF m
  | .prset h m => fullM 0x8A h 0xFF m
  | .prclr h m => fullM 0x8B h 0xFF m
  | .cctlWb h m => fullM 0x88 h 0 m
  | .cctlInv h m => fullM 0x88 h 1 m
  | .cctlIvc h m => fullM 0x88 h 2 m
  | .cctlIvcAll h => fullBare 0x88 h 3 .grp false
  | .cctlIviAll h => fullBare 0x88 h 4 .grp false
  | .fenceAcq h sc => fullBare 0x89 h 1 sc true
  | .fenceRel h sc => fullBare 0x89 h 2 sc true
  | .fenceAcqrel h sc => fullBare 0x89 h 3 sc true
  | .atom h d y op m => fullAtom 0x90 h (regByte d) (regByte y) (aopCode op) m
  | .atomcas h d y m => fullAtom 0x91 h (regByte d) (regByte y) 0 m
  | .red h y op m => fullAtom 0x92 h (regByte y) (optByte m.index) (aopCode op) m
  | .gsync h sp => fullBare 0x98 h 0xFF (if sp then .cove else .grp) true
  | .rfence h => fullBare 0xD3 h 0xFF .grp false
  | .shfl h d a b p ty m s => fullA 0xA0 h (regByte d) (regByte a) (regByte b)
      (axInt (ityCode ty) false (BitVec.ofNat 3 s.val ++ shflCode m) (optPred p))
  | .shflx h d a b p ty => fullA 0xA1 h (regByte d) (regByte a) (regByte b) (axInt (ityCode ty) false 0 (optPred p))
  | .vote h d p ng m => fullA 0xA2 h (match d with | .inl r => regByte r | .inr q => predByte q) (predByte p) 0xFF
      (axFlt 0 .rn (if ng then .neg else .none) .none false false (voteCode m) 0xFF)
  | .redl h d a ty op rm sat ftz => fullA 0xA3 h (regByte d) (regByte a) 0xFF
      (axFlt (redTyCode ty) rm .none .none sat ftz (BitVec.ofBool (redTyFlt ty) ++ 0#1 ++ redOpCode op) 0xFF)
  | .prfx h d a ty op ex rm sat ftz => fullA 0xA4 h (regByte d) (regByte a) 0xFF
      (axFlt (redTyCode ty) rm .none .none sat ftz (BitVec.ofBool (redTyFlt ty) ++ BitVec.ofBool ex ++ redOpCode op) 0xFF)
  | .matchLanes h d a ty m => fullA 0xA5 h (regByte d) (regByte a) 0xFF (axInt (ityCode ty) false (matchCode m) 0xFF)
  | .qxch h d a ty x => fullA 0xA6 h (regByte d) (regByte a) 0xFF (axInt (ityCode ty) false (0#3 ++ (BitVec.ofFin x : BitVec 2)) 0xFF)
  | .qbcst h d a ty x => fullA 0xA7 h (regByte d) (regByte a) 0xFF (axInt (ityCode ty) false (0#3 ++ (BitVec.ofFin x : BitVec 2)) 0xFF)
  | .lmap h d f => match f with
    | .self => fullA 0xA8 h (regByte d) 0xFF 0xFF (axInt 0 false 0 0xFF)
    | .phys a => fullA 0xA8 h (regByte d) (regByte a) 0xFF (axInt 0 false 1 0xFF)
    | .find a => fullA 0xA8 h (regByte d) (regByte a) 0xFF (axInt 0 false 2 0xFF)
  | .cpy h c => encodeCopy 0xB0 h c
  | .cpy2d h c => encodeCopy 0xB1 h c
  | .cpyg h c => encodeCopy 0xB2 h c
  | .cpys h c => encodeCopy 0xB3 h c
  | .cpyf h c => encodeCopy 0xB4 h c
  | .waitsb h c n => fullE 0xB5 h 0xFF 0xFF 0xFF { gran := 0, sbc := sbcCode (some c), rest := (0#12 ++ (BitVec.ofFin n : BitVec 6) : BitVec 18) }
  | .cpyq h d c => fullE 0xB6 h (regByte d) 0xFF 0xFF (exIdle (0#17 ++ BitVec.ofBool c))
  | .mxa h b st sp f c z => fullE 0xC0 h 0xFF (regByte b) (regByte st)
      (exIdle (BitVec.ofBool sp ++ mfmtCode f ++ BitVec.ofBool c ++ (BitVec.ofFin z : BitVec 3) ++ 0#10))
  | .mxb h b st sp f z => fullE 0xC1 h 0xFF (regByte b) (regByte st)
      (exIdle (BitVec.ofBool sp ++ mfmtCode f ++ 0#1 ++ (BitVec.ofFin z : BitVec 3) ++ 0#10))
  | .mxshp h a b => fullE 0xC2 h 0xFF (regByte a) (regByte b) (exIdle 0)
  | .mxspm h bm ix => fullE 0xC3 h (match ix with | some (_, _, s) => regByte s | none => 0xFF)
      (match bm with | some (r, _) => regByte r | none => 0xFF) (match ix with | some (r, _, _) => regByte r | none => 0xFF)
      (exIdle (BitVec.ofBool (match bm with | some (_, s) => s | none => false) ++
        BitVec.ofBool (match ix with | some (_, s, _) => s | none => false) ++ 0#16))
  | .mxrun h r g c acc f => fullE 0xC4 h (optByte r) 0xFF 0xFF
      { gran := BitVec.ofFin g, sbc := sbcCode c, rest := (BitVec.ofFin acc : BitVec 3) ++ (BitVec.ofFin f : BitVec 2) ++ 0#13 }
  | .mxcmt h d => fullE 0xC5 h (regByte d) 0xFF 0xFF (exIdle 0)
  | .mxwb h n => fullE 0xC6 h 0xFF (regByte n) 0xFF (exIdle 0)
  | .mxz h a => fullE 0xC7 h 0xFF 0xFF 0xFF (exIdle ((BitVec.ofFin a : BitVec 3) ++ 0#15))
  | .mxrd h d i a n => fullE 0xC8 h (regByte d) (regByte i) 0xFF (exIdle ((BitVec.ofFin a : BitVec 3) ++ mcntCode n ++ 0#13))
  | .mxwr h i y a n => fullE 0xC9 h 0xFF (regByte i) (regByte y) (exIdle ((BitVec.ofFin a : BitVec 3) ++ mcntCode n ++ 0#13))
  | .mxst h st b sp a cv g c => fullE 0xCA h (regByte st) (regByte b) 0xFF
      { gran := BitVec.ofFin g, sbc := sbcCode c,
        rest := (BitVec.ofFin a : BitVec 3) ++ BitVec.ofBool sp ++ mconvCv cv ++ mconvRm cv ++ 0#10 }
  | .mxpairOn h => fullE 0xCB h 0xFF 0xFF 0xFF (exIdle (1#1 ++ 0#17))
  | .mxpairOff h => fullE 0xCB h 0xFF 0xFF 0xFF (exIdle 0)
  | .mxprog h d => fullE 0xCC h (regByte d) 0xFF 0xFF (exIdle 0)
  | .xbulk h d s n g c ch ssp rel => fullE 0xD0 h (regByte d) (regByte s) (regByte n)
      { gran := BitVec.ofFin g, sbc := sbcCode c,
        rest := (BitVec.ofFin ch : BitVec 10) ++ BitVec.ofBool ssp ++ BitVec.ofBool rel ++ 0#6 }
  | .syswrWrite h d t v s => fullA 0xE0 h (regByte d) (regByte t) (regByte v) (axSel s 0)
  | .ptEntryWrite h d t v s => fullA 0xE0 h (regByte d) (regByte t) (regByte v) (axSel s 0)
  | .syswrRead h d t s => fullA 0xE0 h (regByte d) (regByte t) 0xFF (axSel s 1)
  | .faultResolve h d t v => fullA 0xE0 h (regByte d) (regByte t) (regByte v) (axSel 0x1A 0)
  | .ctxStat h d t v => fullA 0xE0 h (regByte d) (regByte t) (regByte v) (axSel 0x00 0)
  | .ctxPrqHead h d t v => fullA 0xE0 h (regByte d) (regByte t) (regByte v) (axSel 0x05 0)
  | .ctxFqHead h d t v => fullA 0xE0 h (regByte d) (regByte t) (regByte v) (axSel 0x09 0)
  | .ctxNqHead h d t v => fullA 0xE0 h (regByte d) (regByte t) (regByte v) (axSel 0x10 0)
  | .ptCtl h d t v => fullA 0xE0 h (regByte d) (regByte t) (regByte v) (axSel 0x28 0)
  | .tlbiCtx h t => fullA 0xE1 h 0xFF 0xFF (regByte t) (axInt 0 false 0 0xFF)
  | .tlbiPage h a t => fullA 0xE1 h 0xFF (regByte a) (regByte t) (axInt 0 false 1 0xFF)
  | .tlbiRange h a t c => fullA 0xE1 h 0xFF (regByte a) (regByte t) (axInt 0 false 2 (regByte c))
  | .subdevCreate h d t a => fullA 0xE2 h (regByte d) (regByte t) (regByte a) (axInt 0 false 0 0xFF)
  | .subdevResize h d t a => fullA 0xE2 h (regByte d) (regByte t) (regByte a) (axInt 0 false 1 0xFF)
  | .subdevCkpt h d t a => fullA 0xE2 h (regByte d) (regByte t) (regByte a) (axInt 0 false 4 0xFF)
  | .subdevDlog h d t a => fullA 0xE2 h (regByte d) (regByte t) (regByte a) (axInt 0 false 7 0xFF)
  | .subdevMeter h d t a => fullA 0xE2 h (regByte d) (regByte t) (regByte a) (axInt 0 false 8 0xFF)
  | .subdevFreeze h d t o => fullA 0xE2 h (regByte d) (regByte t) (optByte o) (axInt 0 false 2 0xFF)
  | .subdevThaw h d t o => fullA 0xE2 h (regByte d) (regByte t) (optByte o) (axInt 0 false 3 0xFF)
  | .subdevRevoke h d t o => fullA 0xE2 h (regByte d) (regByte t) (optByte o) (axInt 0 false 5 0xFF)
  | .subdevReset h d t o => fullA 0xE2 h (regByte d) (regByte t) (optByte o) (axInt 0 false 6 0xFF)
  | .pgreply h d r a => fullA 0xE3 h (regByte d) (regByte r) (regByte a) (axInt 0 false 0 0xFF)
  | .meas h d a l t => fullA 0xE4 h (regByte d) (regByte a) (regByte l) (axInt 0 false t 0xFF)
  | .rcpt h d a t => fullA 0xE5 h (regByte d) (regByte a) (regByte t) (axInt 0 false 0 0xFF)
  | .scrubStart h d r => fullA 0xE6 h (regByte d) (regByte r) 0xFF (axInt 0 false 0 0xFF)
  | .scrubProg h d r => fullA 0xE6 h (regByte d) (regByte r) 0xFF (axInt 0 false 1 0xFF)
  | .scrubCtx h d r => fullA 0xE6 h (regByte d) (regByte r) 0xFF (axInt 0 false 2 0xFF)
  | .keyzM h d r => fullA 0xE7 h (regByte d) (regByte r) 0xFF (axInt 0 false 0 0xFF)
  | .keyzF h d r => fullA 0xE7 h (regByte d) (regByte r) 0xFF (axInt 0 false 1 0xFF)
  | .worldOwn h d t w => fullA 0xE8 h (regByte d) (regByte t) (regByte w) (axInt 0 false 0 0xFF)
  | .worldLatch h d c w o => fullA 0xE8 h (regByte d) (regByte c) (regByte w) (axInt 0 false 1 (optByte o))
  | .worldFree h d w => fullA 0xE8 h (regByte d) (regByte w) 0xFF (axInt 0 false 2 0xFF)
  | .wmapSet h i a => fullA 0xE9 h 0xFF (regByte i) (regByte a) (axInt 0 false 0 0xFF)
  | .wmapClr h i => fullA 0xE9 h 0xFF (regByte i) 0xFF (axInt 0 false 1 0xFF)
  | .wmapGet h i a => fullA 0xE9 h 0xFF (regByte i) (regByte a) (axInt 0 false 2 0xFF)
  | .shareSet h d t a => fullA 0xEA h (regByte d) (regByte t) (regByte a) (axInt 0 false 0 0xFF)
  | .shareChg h d t a => fullA 0xEA h (regByte d) (regByte t) (regByte a) (axInt 0 false 1 0xFF)
  | .dualWord .. | .powerSample .. | .softError .. | .portLinkChange .. | .layoutAbandon .. | .ckptTrigger ..
  | .migrationEpoch .. | .parkComplete .. | .recallComplete .. | .launchFrame .. | .recordAcceptance ..
  | .spanPlacement .. | .gridCompletion .. | .runSelection .. | .preemption .. | .eddyRestore ..
  | .matrixGrantSwitch .. | .resultReturn .. | .walkComplete .. | .storePerform .. | .directoryAck .. | .drop ..
  | .lineRetry .. | .serviceWarpRequest .. | .bwaitRetest .. | .copyGranule .. | .xbulkGranule ..
  | .mxstGranule .. | .matrixGranule .. | .rxPacket .. | .signalPacket .. | .packetAck .. | .flitReplay ..
  | .packetRetransmit .. | .enrolmentConfirm .. | .enrolmentLost .. | .freezeComplete .. | .checkpointImage ..
  | .backwashFrame .. | .receiptSigned .. | .hostWrite .. | .hostWriteImm .. | .hostReadRefused ..
  | .readview .. | .exportCmd .. | .keyload .. | .armckpt .. | .report .. | .health .. | .layout ..
  | .powercap .. | .bootstmt .. | .reset .. | .extensionApplied .. | .hostAcknowledgement .. | .powerOn
  | .resetLine | .powerLoss | .layoutTick | .framemsTick
    => { b := false, w := false, op := 0, n := false, g := 0, dst := 0, sa := 0, sb := 0, x := 0 }

/-- The 64-bit word of an instruction (R42, R54). For an event it is meaningless. -/
def encode (i : Instr) : BitVec 64 :=
  match i with
  | .dualWord b w x y => BitVec.ofBool b ++ BitVec.ofBool w ++ 1#1 ++ encodeHalf x ++ encodeHalf y ++ 0#1
  | i => (encodeRaw i).pack

/-- The instruction that a 64-bit word holds for a group of `regs` v registers, or its decode fault (R69). -/
def decodeWord (regs : Nat) (v : BitVec 64) : Except DecodeFault Instr :=
  if bitAt v 61 then
    if bitAt v 0 then .error .illegalOp
    else match decodeHalf (v.extractLsb' 31 30), decodeHalf (v.extractLsb' 1 30) with
      | some (okx, x), some (oky, y) =>
        let i := Instr.dualWord (bitAt v 63) (bitAt v 62) x y
        if !(okx && oky && regsOk regs i) then .error .regRange
        else if !pairOk x y then .error .illegalPair
        else .ok i
      | _, _ => .error .illegalOp
  else
    let r := Raw.unpack v
    match decodeFull r with
    | none => .error .illegalOp
    | some (readable, i) =>
      if !fieldsOk i then .error .illegalOp
      else if !(readable && regsOk regs i) then .error .regRange
      else if r.op = 0xFF && !r.b then .error .illegalRun
      else .ok i

/-- The instruction the decoder reads from a word numbered as spec/opcode_table.json numbers bits: the part's words are 64
bits, little-endian (R42), so a word of `nbits` bits is the whole 64-bit word with the bits above them zero. The group
is taken to hold the largest allocation, 192 registers. -/
def decodeTableWord (nbits w : Nat) : Option Instr :=
  match decodeWord 192 (BitVec.ofNat 64 (w % 2 ^ nbits)) with
  | .ok i => some i
  | .error _ => none

end Sys2Proof
end

