-- ==== Sys2Proof/Config.lean ====
section
/-!
DEFINITION. What one part fixes (identity, links, placement of spares) and the free values: constants with no body, so
that no proof can see what they are. Log entries 5 to 9.
-/
namespace Sys2Proof.Config

/-- FREE VALUE (log entry 5): the n-th choice of a number that the part makes without reporting which. -/
opaque freeNat : Nat → Nat

/-- FREE VALUE (log entry 5): the n-th choice between two outcomes that the part makes without reporting which. -/
opaque freeBit : Nat → Bool

/-- FREE VALUE (log entry 5): the n-th word the part draws where the spec gives no value. -/
opaque freeWord : Nat → Word

/-- FREE VALUE (log entry 6, R235, R236): which of the results within its bound a special function returns. It depends
on the function (0 FRCP, 1 FRSQ, 2 FEXP2, 3 FLOG2, 4 FSIN, 5 FCOS, 6 FTANH, 7 FSIGM), the operand bits and FTZ alone. -/
opaque sfuPick : Nat → Word → Bool → Nat

/-- Log entry 7: the identity values drawn or derived at boot (R437, R438, R457). The argument numbers the power-on. -/
opaque bootId : Nat → List Byte
opaque partId : List Byte
opaque fwMeas : List Byte
opaque receiptKey : List Byte
opaque identityKey : List Byte
opaque kemKey : List Byte
opaque fwVersion : List Byte
opaque recordDigest : List Byte

/-- Log entry 7: SLH-DSA-SHA2-128f and SLH-DSA-SHA2-256s of FIPS 205 (R438), uninterpreted: the signature of a message. -/
opaque signReceipt : List Byte → List Byte
opaque signIdentity : List Byte → List Byte

/-- Log entry 7: AES-GMAC-128 over a reply under a frame key and nonce (R452, R453), uninterpreted. -/
opaque gmac : Nat → List Byte → List Byte → List Byte

/-- Log entry 7: the AES-GCM-256 tag of a packet (R321, R323), uninterpreted: key material, nonce, fields of the header flit, data. -/
opaque packetTag : List Byte → List Byte → List Nat → List Byte → List Byte

/-- Log entry 7: the AES-GCM tag of a sealed page under a memory key slot's material and SEQ (R125), uninterpreted. -/
opaque pageTag : List Byte → Nat → List Byte → List Byte

/-- FREE VALUE (log entry 5, R413): how a checkpoint image lays out a group's header, and its masks and counters: the spec lists
what they hold and gives no places. A number of 4,096 bits, and bytes. -/
opaque imageHeader : List Nat → Nat
opaque imageMasks : List Nat → List Byte

/-- FREE VALUE (log entry 5, R459, R464, R467): how the payload of a reply lays out its fields: the spec lists the fields and gives no
places. By block or command code, and the fields in the spec's order. -/
opaque replyLayout : Nat → List Nat → List Byte
opaque bootLayout : List (List Byte) → List Byte

/-- FREE VALUE (log entry 5, R123): the frame of the block of far records that the migration engine uses for a 64 MiB stretch of the
root's space. -/
opaque farBlock : Nat → Nat

/-- Log entry 8: FAB.CHIP, from the part record's pod layout (R314). -/
opaque fabChip : BitVec 16

/-- Log entry 8: FAB.PORTp.JETTY learnt at the link training of boot, 0xFFFF for a port that is down (R314, R457). -/
opaque portJetty : Nat → BitVec 16

/-- Log entry 8: whether the part record holds an owner section that opens (R458), and its source, queue pair and key. -/
opaque ownerSection : Option (Nat × Nat × Nat)

/-- Log entry 8: whether the part record verifies at boot (R9, R457 step 4). -/
opaque recordVerifies : Bool

/-- Log entry 9: the correctable-error rate threshold of the part record (R463). -/
opaque errorThreshold : Nat

end Sys2Proof.Config
end

