-- ==== Sys2Proof/Machine/NMap.lean ====
section
/-!
DEFINITION. Sparse data by key: a list of (key, value) pairs with strictly rising keys. `get`/`set` treat an unlisted
key as holding a default and never list the default, so that equal contents are equal lists; `find`/`insert`/`erase`
treat an unlisted key as absent.
-/
namespace Sys2Proof.Machine

/-- Sparse data keyed by natural numbers. -/
abbrev NMap (α : Type) := List (Nat × α)

/-- The value listed at `k`, if any. -/
def NMap.find {α : Type} : NMap α → Nat → Option α
  | [], _ => none
  | (k, v) :: m, q => if k = q then some v else NMap.find m q

/-- List `v` at `k`, in order, in place of what is listed there. -/
def NMap.insert {α : Type} : NMap α → Nat → α → NMap α
  | [], q, x => [(q, x)]
  | (k, v) :: m, q, x =>
    if q < k then (q, x) :: (k, v) :: m
    else if q = k then (q, x) :: m
    else (k, v) :: NMap.insert m q x

/-- List nothing at `k`. -/
def NMap.erase {α : Type} : NMap α → Nat → NMap α
  | [], _ => []
  | (k, v) :: m, q => if k = q then NMap.erase m q else (k, v) :: NMap.erase m q

/-- The value at `k`, an unlisted key holding `d`. -/
def NMap.get {α : Type} (d : α) : NMap α → Nat → α
  | [], _ => d
  | (k, v) :: m, q => if k = q then v else NMap.get d m q

/-- Make the value at `k` be `v`, listing nothing where `v` is the default. -/
def NMap.set {α : Type} [DecidableEq α] (d : α) (m : NMap α) (k : Nat) (v : α) : NMap α :=
  if v = d then NMap.erase m k else NMap.insert m k v

/-- Apply `f` to the record listed at `k`, if there is one. -/
def NMap.upd {α : Type} (m : NMap α) (k : Nat) (f : α → α) : NMap α :=
  match NMap.find m k with
  | some x => NMap.insert m k (f x)
  | none => m

/-- The values listed, in key order. -/
def NMap.vals {α : Type} (m : NMap α) : List α := m.map (·.2)

/-- The keys rise strictly from above `lo`. -/
def NMap.risingFrom {α : Type} : Option Nat → NMap α → Bool
  | _, [] => true
  | none, (k, _) :: m => NMap.risingFrom (some k) m
  | some lo, (k, _) :: m => decide (lo < k) && NMap.risingFrom (some k) m

/-- The canonical form of a sparse map with default `d`: keys strictly rising, no default listed. -/
def NMap.wf {α : Type} [DecidableEq α] (d : α) (m : NMap α) : Bool :=
  NMap.risingFrom none m && m.all (fun c => decide (c.2 ≠ d))

end Sys2Proof.Machine
end

