-- ==== Sys2Proof/Machine/CoreTypes.lean ====
section
/-!
DEFINITION. The state of threads, home warps, issue warps, groups and spans (chapters 02, 09, 15, 18, 19, 20): the
records that State holds, as plain data.
-/
namespace Sys2Proof.Machine

/-- One entry of an issue warp's remap table (R193). An empty lane has every field zero. -/
structure LaneEnt where
  live : Bool := false
  help : Bool := false
  hwarp : Nat := 0
  hlane : Nat := 0
deriving DecidableEq, Repr, Inhabited

/-- Where a thread is (R352). -/
inductive TStat where
  | inWarp | frontier | exited
deriving DecidableEq, Repr, Inhabited

/-- The restart record of an idempotent region (R368). -/
structure RestartRec where
  isOpen : Bool := false
  pc : DWord := 0
  prio : Nat := 0
  temps : List Word := []
  count : Nat := 0
  named : Nat := 0
  /-- the issue warp whose run it was taken in: threads of several runs are never merged (R353) -/
  run : Nat := 0
deriving DecidableEq, Repr, Inhabited

/-- One thread (R190, R196): position, block priority, stochastic generator, restart record. -/
structure Thread where
  pc : DWord := 0
  prio : Nat := 0
  stat : TStat := .frontier
  gen : Word := 0
  restart : RestartRec := {}
deriving DecidableEq, Repr, Inhabited

/-- Why an issue warp, or a sub-group of one, is parked (R61, R365, R388). -/
inductive Park where
  /-- not parked: the run can issue its next word -/
  | none
  /-- KWAIT on k: `released` once the condition has held (R364) -/
  | kwait (k : Nat) (released : Bool)
  /-- BWAIT on the barrier objects still awaited, one request item per lane (R310) -/
  | bwait (items : List Nat)
  /-- STWAIT: the lines and phases still awaited, as scratchpad stage word address and wanted phase (R188) -/
  | stwait (stages : List (Nat × Bool)) (released : Bool)
  /-- WAITSB: counter at most n in every named home warp (R189) -/
  | waitsb (c n : Nat) (hwarps : List Nat)
  /-- an access met absent presence lines: the lines awaited, as group * 4096 + line of its range (R140, R141) -/
  | lines (l : List Nat)
  /-- walks in progress (R104) -/
  | walk (walks : List Nat)
  /-- a cove's queue of walks, full (R102) -/
  | walkRoom (cove : Nat)
  /-- page requests in the part's tables, by request identity (R104) -/
  | page (reqs : List Nat)
  /-- a die's request table, full: lanes without a record walk again when an entry frees (R105) -/
  | table (die : Nat)
  /-- a recall of far pages (R127) -/
  | far (recalls : List Nat)
  /-- a full scoreboard counter (R66) -/
  | counter (c : Nat) (hwarps : List Nat)
  /-- W: pending register results of the warp's threads (R65) -/
  | results
  /-- a store FIFO that must drain: the home warps (R157) -/
  | fifo (hwarps : List Nat)
  /-- a store FIFO that must hold room: the home warps (R158) -/
  | room (hwarps : List Nat)
  /-- work items that must finish: releases, writebacks, engine steps (R342, R344) -/
  | items (l : List Nat)
  /-- a launch queue holding 64 records (R378) -/
  | queue (q : Nat)
  /-- GSYNC: `released` once every thread has arrived (R313) -/
  | gsync (span : Bool) (released : Bool)
  /-- MXWB: a batch and every earlier one must be complete (R281) -/
  | batch (n : Nat)
  /-- a copy or matrix queue that is full (R167, R256), or another wait that the word tests again when it issues -/
  | engine
  /-- the grant of an array or array half (R272) -/
  | grant
  /-- a privileged operation in progress, by operation identity (R405) -/
  | oper (l : List Nat)
  /-- lines that engines have claimed (R122) -/
  | held (lines : List Nat)
  /-- stores in FIFOs that must be performed (R112) -/
  | stores (l : List Nat)
  /-- stopped by a fault: the stop's identity (R388) -/
  | stopped (stop : Nat)
deriving DecidableEq, Repr, Inhabited

/-- What an access is for: the KIND of a page request (R107). `arrive` is a packet's arrival in a receive window (R324): a write
that sets D (R98, R424) and asks no W of the leaves, as the manual's own result window has none; it posts no request (R326). -/
inductive AccKind where
  | read | write | fetch | atomic | engRead | engWrite | arrive
deriving DecidableEq, Repr, Inhabited

/-- Leaf types of a composed translation (R95, R100). -/
inductive LeafTy where
  | page | txWin | rxWin | onChip
deriving DecidableEq, Repr, Inhabited

/-- A composed translation (R100) of the 64 KiB page holding an address: output page, permissions, attributes, the
size of the smallest leaf, and the entries its walk used, as (context, input address of that stage, log2 size). -/
structure Xl where
  pa : Nat := 0
  w : Bool := false
  x : Bool := false
  ty : LeafTy := .page
  key : Nat := 0
  attr : Nat := 0
  size : Nat := 16
  used : List (Nat × Nat × Nat) := []
deriving DecidableEq, Repr, Inhabited

/-- A stage failure (R103, R107). -/
structure XFail where
  stage : Nat := 0
  level : Nat := 0
  addr : Nat := 0
  eaddr : Nat := 0
  perm : Bool := false
  format : Bool := false
  poison : Bool := false
  /-- another fault code of the walk itself: ATTR_ALIAS, WORLD, WINDOW (R100, R428, R431); 0 for none -/
  code : Nat := 0
deriving DecidableEq, Repr, Inhabited

/-- The outcome of a walk (R99, R103): a translation, a failure of a stage, or a far page by its record's address. -/
inductive XRes where
  | ok (t : Xl)
  | fail (f : XFail)
  | far (leafPa rec : Nat)
  /-- an update of A or D reaches a line that an engine holds: the walk waits (R98, R122) -/
  | busy
deriving DecidableEq, Repr, Inhabited

/-- A translation, or its failure, formed for a parked warp's word (R104). -/
structure Formed where
  page : Nat := 0
  kind : AccKind := .read
  res : XRes := .ok {}
deriving DecidableEq, Repr, Inhabited

/-- Staged operand of the matrix array (R274, R275). -/
structure MStage where
  set : Bool := false
  base : Nat := 0
  stride : Nat := 0
  sp : Bool := false
  fmt : Nat := 0
  c : Bool := false
  z : Nat := 0
deriving DecidableEq, Repr, Inhabited

/-- Staged shape and sparsity maps (R276, R277). -/
structure MShape where
  set : Bool := false
  m : Nat := 0
  n : Nat := 0
  k : Nat := 0
deriving DecidableEq, Repr, Inhabited

structure MSparse where
  ben : Bool := false
  bmap : Nat := 0
  bsp : Bool := false
  ien : Bool := false
  idx : Nat := 0
  isp : Bool := false
  istride : Nat := 0
deriving DecidableEq, Repr, Inhabited

/-- The four staging registers (R274). -/
structure Staging where
  a : MStage := {}
  b : MStage := {}
  shp : MShape := {}
  spm : MSparse := {}
deriving DecidableEq, Repr, Inhabited

/-- One write of an s register by another issue warp during a run: the values the registers held before it (R197). -/
abbrev SUndo := List (Nat × Word)

/-- One issue warp, or a sub-group split off from one (R190, R192, R365, R388). -/
structure Warp where
  gi : Nat := 0
  core : Nat := 0
  quarter : Nat := 0
  pc : DWord := 0
  /-- the priority the warp was formed with (R355) -/
  prio : Nat := 0
  /-- remap table (R193) -/
  lanes : List LaneEnt := []
  /-- instructions of the run before the word at the PC (R58) -/
  count : Nat := 0
  /-- temporaries that words of the run before the PC name, as bits (R60) -/
  named : Nat := 0
  /-- what the word at the PC, once fetched, adds to both when the warp goes past it (R58, R60, R61) -/
  wordN : Nat := 0
  wordNamed : Nat := 0
  /-- counted work of the word at the PC that the warp's lanes still have to do, by home warp (R66, R104) -/
  works : List (Nat × Nat) := []
  /-- the store at the PC found a store FIFO full (R158, R369) -/
  foundFull : Bool := false
  /-- t registers, by physical lane * 8 + index (R60) -/
  temps : NMap Word := []
  /-- v registers as a helper lane's writes leave them, by physical lane * 256 + index (R195) -/
  hv : NMap Word := []
  /-- p registers as a helper lane's writes leave them, by physical lane * 8 + index (R195) -/
  hp : NMap Bool := []
  /-- writes of s registers by other warps since the run began, newest first (R197) -/
  sUndo : List SUndo := []
  /-- the staging registers before each write by another warp since the run began, newest first (R197, R274) -/
  stgUndo : List Staging := []
  /-- v registers of its threads that the run has written, by key, with the values they held before, newest first (R287) -/
  wrote : NMap (List Word) := []
  /-- the same of other runs of the group that ended during this one (R287) -/
  stale : NMap (List Word) := []
  /-- the s values this word sees in place of the group's (R197), chosen when the word issues -/
  sSeen : NMap Word := []
  /-- CYCLE.HI as it stood when this run last read CYCLE.LO (R201) -/
  cycHi : Option Word := none
  park : Park := .none
  /-- how far a word of several phases has come; 0 at a fresh word -/
  phase : Nat := 0
  /-- lanes of the word at the PC that have acted already (R378) -/
  donePl : Nat := 0
  /-- results of those lanes, by physical lane, until the word ends -/
  serVals : NMap Nat := []
  /-- what a lane that has acted awaits before its result stands: an operation's identity, by physical lane (R418, R441) -/
  opLane : NMap Nat := []
  formed : List Formed := []
  /-- translations that a TLBI has dropped: context, page, frame, log2 of the page's size (R112) -/
  shot : List (Nat × Nat × Nat × Nat) := []
  /-- B of the word at the PC, as fetched -/
  curB : Bool := false
  /-- OP of the word at the PC, once fetched (R391) -/
  curOp : Nat := 0
  /-- addresses at which lanes of the warp await a page request or a recall, by physical lane (R391) -/
  eas : NMap Nat := []
  /-- the control word of this run has acted; only its trailer is left (R62) -/
  tail : Bool := false
  /-- temporaries stand in the context save area (R194) -/
  spilt : Bool := false
  /-- order in which warps parked or were released, for the oldest first (R194, R383) -/
  age : Nat := 0
  /-- the run ends once its park is over (a last word with W, R65) -/
  ends : Bool := false
  /-- the word it parked at carries W: its threads' results are awaited once the park is over (R65) -/
  wMark : Bool := false
  /-- the cycle at which the run was selected (R380) -/
  since : Nat := 0
  /-- eddy watch: a register changed, or a store, atomic, command, send or launch was made (R385) -/
  worked : Bool := false
  /-- eddy watch: the target of a backward branch that every branching lane took (R385) -/
  backTo : Option DWord := none
  /-- YIELD was executed in the run (R362) -/
  yields : Bool := false
  /-- 128-byte lines that the run has loaded (R385) -/
  loaded : List Nat := []
deriving DecidableEq, Repr, Inhabited

/-- What one byte of a store goes to (R158): device physical memory, on behalf of a context and a page of its space; the
core's scratchpad; a TX window by its port entry (R320). -/
inductive StoreDest where
  | mem (ctx page : Nat)
  | spad
  | tx (entry : Nat)
deriving DecidableEq, Repr, Inhabited

/-- One byte of a store: home lane, destination, address in it (physical, or window offset), value. -/
structure FWrite where
  lane : Nat := 0
  dest : StoreDest := .spad
  addr : Nat := 0
  byte : Byte := 0
deriving DecidableEq, Repr, Inhabited

/-- One entry of a home warp's store FIFO (R158): the bytes that one instruction's lanes store, in ascending lane order,
the lanes whose stores are not yet committed (R369), the work it counts down, its L1 hint, and whether each word is
written back and registered when performed (R157). -/
structure FifoEntry where
  /-- identity, by which a later wait names it (R112) -/
  id : Nat := 0
  writes : List FWrite := []
  uncommitted : List Nat := []
  work : Option Nat := none
  hint : Nat := 0
  rel : Bool := false
  /-- the store of an issue warp that carries lanes of several home warps: their entries share it and are performed together
  (R138, R154, R160) -/
  sync : Option Nat := none
deriving DecidableEq, Repr, Inhabited

/-- One home warp (R190). Registers, k masks and counters stand in flat maps of State. -/
structure HWarp where
  fifo : List FifoEntry := []
  /-- registers that a trailer told later runs to await (R63): v indices below 192, s index i as 192 + i -/
  awaited : List Nat := []
deriving DecidableEq, Repr, Inhabited

/-- A fault's record fields that the word supplies (R391). -/
structure FaultInfo where
  code : Nat := 0
  flags : Nat := 0
  opc : Nat := 0
  pc : DWord := 0
  addr : DWord := 0
  detail : DWord := 0
deriving DecidableEq, Repr, Inhabited

/-- How a stop is to be resolved (R395). -/
inductive Resolution where
  | retry | skip | finish
deriving DecidableEq, Repr, Inhabited

/-- Stopped lanes of one home warp (R388): the warp that holds them and the record's fields. -/
structure Stop where
  warp : Nat := 0
  ctx : Nat := 0
  gi : Nat := 0
  hwarp : Nat := 0
  info : FaultInfo := {}
  /-- slot and generation in the die's fault table; none while the table is full -/
  fid : Option Nat := none
  held : Option Resolution := none
deriving DecidableEq, Repr, Inhabited

/-- State of one scratchpad line (R140). -/
structure Presence where
  p : Bool := false
  q : Bool := false
  n : Nat := 0
deriving DecidableEq, Repr, Inhabited

/-- One group (R190, R191, R201). -/
structure Group where
  ctx : Nat := 0
  grid : Nat := 0
  gid : Nat := 0
  span : Nat := 0
  spanPos : Nat := 0
  core : Nat := 0
  /-- on a core and issuing; false while pre-empted (R398) -/
  resident : Bool := true
  roles : Nat := 7
  regs : Nat := 8
  scratch : Nat := 0
  gsize : Nat := 1
  rb : Nat := 0
  spBase : Nat := 0
  stg : Staging := {}
  openBatch : Nat := 1
  /-- sticky copy-fault bit (R184) -/
  sticky : Bool := false
  /-- YIELD marks: quarter, cycle at which the mark lapses, other groups to be selected first (R362) -/
  yielded : List (Nat × Nat × List Nat) := []
  /-- when each quarter last selected the group (R383) -/
  lastSel : List (Nat × Nat) := []
  eddyN : Nat := 0
  eddyPc : DWord := 0
  /-- lines loaded by the last 64 runs, newest run first (R385) -/
  eddyLines : List (List Nat) := []
  demoted : Option Nat := none
  /-- ranges on the old core are untouched (R399) -/
  intact : Bool := true
  /-- its scratchpad range in the save area: bytes and presence by offset and line (R399) -/
  savedSp : NMap Byte := []
  savedLines : NMap Presence := []
  /-- its poisoned words there, by place in the range (R465) -/
  savedPoison : List Nat := []
deriving DecidableEq, Repr, Inhabited

/-- One span (R190, R381). -/
structure Span where
  grid : Nat := 0
  number : Nat := 0
  groups : List Nat := []
  /-- on the part; false while waiting for a place again (R399, R401) -/
  placed : Bool := true
deriving DecidableEq, Repr, Inhabited

/-- Where a variable-latency result takes its bytes from, so that a late return can read them again (R64, R339). -/
inductive ResSrc where
  | fixed
  | mem (core pa : Nat) (bypass : Bool)
  /-- a byte address of a core's scratchpad -/
  | spad (core addr : Nat)
deriving DecidableEq, Repr, Inhabited

/-- A variable-latency result of one lane (R64): the registers it will write and their values. Register index below 192
is a v register of home lane `lane`, 192 + i is s register i of the group. -/
structure ResLane where
  lane : Nat := 0
  reg : Nat := 0
  vals : List Word := []
  src : ResSrc := .fixed
  nbytes : Nat := 4
  /-- a helper lane: the result goes to this issue warp's own copy at this physical lane (R195) -/
  help : Option (Nat × Nat) := none
  /-- the rank its hint gives a line it fills (R136), and the page of its context's space (R130) -/
  rank : Nat := 1
  page : Nat := 0
deriving DecidableEq, Repr, Inhabited

/-- Pending results of one home warp for one word. `known` says that the values have been formed (R296). -/
structure Result where
  gi : Nat := 0
  hwarp : Nat := 0
  lanes : List ResLane := []
  known : Bool := true
  work : Option Nat := none
deriving DecidableEq, Repr, Inhabited

/-- One instruction's work for one home warp's lanes (R66): parts still to finish, and the counter that then falls. -/
structure Work where
  gi : Nat := 0
  hwarp : Nat := 0
  sbc : Option Nat := none
  left : Nat := 0
deriving DecidableEq, Repr, Inhabited

/-- One quarter of a core (R383): the run in its issue slot. -/
structure Quarter where
  run : Option Nat := none
deriving DecidableEq, Repr, Inhabited

end Sys2Proof.Machine
end

