-- ==== Sys2Proof/Machine/MemTypes.lean ====
section
/-!
DEFINITION. The state of translation, the LLC and its directory, the L1s, scratchpads, presence lines, requests, far
pages and access counters (chapters 04 to 07): the records that State holds, as plain data.
-/
namespace Sys2Proof.Machine

/-- One line of a translation cache (R101): `place` 0 micro-TLB of core `unit`, 1 cove TLB, 2 strata cache of a die. -/
structure TlbEnt where
  place : Nat := 0
  unit : Nat := 0
  ctx : Nat := 0
  /-- 64 KiB page number of the input address -/
  page : Nat := 0
  xl : Xl := {}
deriving DecidableEq, Repr, Inhabited

/-- A table entry held by the walk cache of one of a die's walkers (R101, R113, R470): context whose stage it belongs to, device
physical address, input address it serves, its value as read. -/
structure WcEnt where
  die : Nat := 0
  walker : Nat := 0
  ctx : Nat := 0
  addr : Nat := 0
  level : Nat := 0
  pa : Nat := 0
  val : Nat := 0
deriving DecidableEq, Repr, Inhabited

/-- A walk in its cove's queue, or taken by a walker of the die (R102). -/
structure Walk where
  ctx : Nat := 0
  page : Nat := 0
  kind : AccKind := .read
  core : Nat := 0
  walker : Option Nat := none
deriving DecidableEq, Repr, Inhabited

/-- One page request (R105, R107). `reqid` is none while it waits for a free slot. Its record's fields follow. -/
structure PageReq where
  ctx : Nat := 0
  die : Nat := 0
  fail : XFail := {}
  kind : AccKind := .read
  origVa : Nat := 0
  core : Nat := 0
  lanes : Nat := 0
  slot : Nat := 0
  gen : Nat := 0
  /-- an answer held until the lanes' group is resident (R108): 0 retry, 1 UNMAPPED, 2 PERM -/
  held : Option Nat := none
deriving DecidableEq, Repr, Inhabited

/-- One word of a line in an L1 (R120, R135): listed when valid. -/
structure L1Word where
  val : Word := 0
  dirty : Bool := false
  owned : Bool := false
  /-- messages on their way to the directory that carry a value of the word, newest first (R120, R121) -/
  sent : List Nat := []
  /-- no store has been made to it since the newest of them left -/
  same : Bool := false
  /-- bytes of the dirty word that stores have written, as bits (R117) -/
  mask : Nat := 0
  /-- threads, by key, whose stores stand in the dirty word (R158) -/
  writers : List Nat := []
deriving DecidableEq, Repr, Inhabited

/-- One line of an L1 (R135): words by index 0 to 31, rank, order of use, poisoned granules (0, 1), bytes of poisoned
granules overwritten since (R117), and on whose behalf it was last filled or written (R130). -/
structure L1Line where
  words : NMap L1Word := []
  rank : Nat := 1
  used : Nat := 0
  poison : List Nat := []
  fresh : List Nat := []
  /-- dirty words that a soft error has struck and no store has written since (R465) -/
  lost : List Nat := []
  ctx : Nat := 0
  page : Nat := 0
deriving DecidableEq, Repr, Inhabited

/-- One line of the LLC with its directory entry (R118, R120): owning core of each owned word, poisoned granules, bytes
written since a granule was poisoned (R117), and whether HBM has older data. -/
structure LlcLine where
  owners : NMap Nat := []
  poison : List Nat := []
  fresh : List Nat := []
  dirty : Bool := false
deriving DecidableEq, Repr, Inhabited

/-- A word on its way to the directory: its place in the line, its value, the bytes that stores have written (R117), and
whether a soft error has struck it (R465). -/
structure DirWord where
  i : Nat := 0
  val : Word := 0
  mask : Nat := 15
  lost : Bool := false
deriving DecidableEq, Repr, Inhabited

/-- A message to the directory in flight (R120): words of one line that a core registers, or an engine's claim. -/
structure DirItem where
  core : Nat := 0
  line : Nat := 0
  words : List DirWord := []
  /-- the words were written back by the eviction of a line that an engine holds, and wait there (R122) -/
  evicted : Bool := false
  /-- an engine command claims the line instead (R122) -/
  claim : Option Nat := none
  /-- work that its acknowledgement counts down -/
  work : Option Nat := none
deriving DecidableEq, Repr, Inhabited

/-- A drop on its way to an L1 (R120, R122): the words of a line. -/
structure DropItem where
  core : Nat := 0
  line : Nat := 0
  words : List Nat := []
deriving DecidableEq, Repr, Inhabited

/-- A request of a context's access to the LLC, still to be counted (R130): context, page, die, write. -/
structure Counted where
  ctx : Nat := 0
  page : Nat := 0
  die : Nat := 0
  write : Bool := false
deriving DecidableEq, Repr, Inhabited

/-- What a request asks of a service warp (R299, R301, R308, R310, R311, R313). -/
inductive SvcKind where
  | atom (op : AOp) | cas (c : Nat) | red (op : AOp) | bsig | bwait | bpoll | gsync
deriving DecidableEq, Repr, Inhabited

/-- One lane's request at a service warp (R296): the word, its data or threshold, the thread, where the value goes. -/
structure SvcReq where
  kind : SvcKind := .bsig
  cove : Nat := 0
  ctx : Nat := 0
  pa : Nat := 0
  /-- bits of the operation, 32 or 64 -/
  bits : Nat := 64
  data : Nat := 0
  gi : Nat := 0
  hwarp : Nat := 0
  lane : Nat := 0
  core : Nat := 0
  result : Option Nat := none
  work : Option Nat := none
  /-- BPOLL as an acquire (R311): later accesses of the thread follow it; at cove scope and wider the acquire of R120 is applied -/
  acq : Bool := false
  wide : Bool := false
  opc : Nat := 0
  pc : DWord := 0
  ea : Nat := 0
  /-- a waiting lane that its service warp has recorded, or one beyond the recorded 2,048 (R310) -/
  waiting : Bool := false
  beyond : Bool := false
deriving DecidableEq, Repr, Inhabited

/-- A claim of an engine or of the part on a line (R122), in the order acknowledged. -/
structure Claim where
  line : Nat := 0
  cmd : Nat := 0
deriving DecidableEq, Repr, Inhabited

/-- One line of a constant cache or an instruction cache (R143): the code object it belongs to, the line of its virtual
address, the line of memory it was filled from, and its bytes as filled. The caches list it under core * 2^41 and an identity. -/
structure CodeLine where
  obj : Nat := 0
  vline : Nat := 0
  line : Nat := 0
  bytes : List Byte := []
deriving DecidableEq, Repr, Inhabited

/-- A near-tier frame's record (R129, R428): world tag, binding of attribute and key, state, charge, heat. -/
structure Frame where
  wt : Nat := 0
  bound : Bool := false
  attr : Nat := 0
  key : Nat := 0
  state : Nat := 0
  charge : Nat := 0
  heat : Nat := 0
deriving DecidableEq, Repr, Inhabited

/-- A park of a page in progress (R125): step, leaf and record addresses, the leaf it had, frame, charge. -/
structure ParkOp where
  leafPa : Nat := 0
  recPa : Nat := 0
  oldLeaf : Nat := 0
  /-- the page's root-space address -/
  va : Nat := 0
  frame : Nat := 0
  forRecall : Option Nat := none
deriving DecidableEq, Repr, Inhabited

/-- A recall in progress (R127); `frame` is none while it waits for one (R129). -/
structure RecallOp where
  leafPa : Nat := 0
  recPa : Nat := 0
  frame : Option Nat := none
  ctx : Nat := 0
  /-- the commands attached; lanes attach through their park -/
  cmds : List Nat := []
deriving DecidableEq, Repr, Inhabited

/-- A page as the jetty pool holds it (R125): its plaintext and poisoned granules, the key material and generation it is sealed
under, its tag. -/
structure FarPage where
  bytes : List Byte := []
  poison : List Nat := []
  material : List Byte := []
  seq : Nat := 0
  tag : List Byte := []
deriving DecidableEq, Repr, Inhabited

/-- An access counter (R130). -/
structure Acnt where
  count : Nat := 0
  queued : Option Nat := none
  held : Option Nat := none
deriving DecidableEq, Repr, Inhabited

end Sys2Proof.Machine
end

