-- ==== Sys2Proof/Machine/EngineTypes.lean ====
section
/-!
DEFINITION. The state of the copy engines, of XBULK, of the matrix arrays and of their store paths (chapters 08, 13, 14,
16): the records that State holds, as plain data.
-/
namespace Sys2Proof.Machine

/-- The element sequence of a command (R173, R283, R335): bases and sizes, the index list as read at issue, and for MXST
the snapshot's elements in sequence order. -/
inductive Moves where
  | linear (bytes : Nat)
  | fill (pattern : Word) (bytes : Nat)
  | rows (b m : Nat) (ss ds : Int)
  | gather (b : Nat) (xs : Int) (idx : List Int)
  | scatter (b : Nat) (xs : Int) (idx : List Int)
  | tile (n e : Nat) (stride : Nat) (elems : List Nat)
deriving DecidableEq, Repr, Inhabited

/-- The completion action of a command in service (R179): none, flip a stage of the reel whose header stands at a
scratchpad address of a core, add to a barrier object. -/
inductive FinAct where
  | none
  | flip (gi hdr stage : Nat)
  | add (addr : Nat)
deriving DecidableEq, Repr, Inhabited

/-- What the next granule of a command waits for, the command leaving its place in service to others meanwhile (log entry 36). Lines
of scratchpads are named as group * 4096 + line of its range. -/
inductive CmdWait where
  /-- a source line that is absent (R177) -/
  | absent (line : Nat)
  /-- a source line of global memory that another command has claimed (R346) -/
  | source (line : Nat)
  /-- a line to be cleared that 15 commands have cleared (R175) -/
  | full (line : Nat)
  /-- its turn at a destination line of global memory (R122) -/
  | memTurn (line : Nat)
  /-- its turn at a destination line of a scratchpad (R142) -/
  | spadTurn (line : Nat)
deriving DecidableEq, Repr, Inhabited

/-- Why a command stands still (R176, R182, R271). -/
inductive CmdStop where
  | running
  | waits (w : CmdWait)
  /-- page requests that the access at an address awaits -/
  | request (reqs : List Nat) (addr : Nat)
  | recall (recalls : List Nat) (addr : Nat)
  | preempted
  /-- every destination is written; the FIN add waits for a page request (R179) -/
  | finWait (reqs : List Nat)
deriving DecidableEq, Repr, Inhabited

/-- A copy, MXST or XBULK command (R167, R173 to R182, R283, R335). -/
structure Cmd where
  gi : Nat := 0
  ctx : Nat := 0
  /-- core whose engine serves it -/
  core : Nat := 0
  /-- OP of its word, for the fault record -/
  opc : Nat := 0
  pc : DWord := 0
  moves : Moves := .linear 0
  src : Nat := 0
  dst : Nat := 0
  ssp : Bool := false
  dsp : Bool := false
  gran : Nat := 0
  fin : FinAct := .none
  /-- work items that its completion counts down (R66) -/
  works : List Nat := []
  service : Bool := false
  /-- granules completed -/
  done : Nat := 0
  stop : CmdStop := .running
  /-- a pre-emption, freeze or re-placement has asked it to stop at a granule its GRAN permits -/
  asked : Bool := false
  /-- granules whose scratchpad lines have been cleared and whose global lines have been claimed, from 0 up to here -/
  prepared : Nat := 0
  /-- scratchpad lines it has cleared and not landed, as group * 4096 + line of the group's range -/
  lines : List Nat := []
  /-- lines that were present when its own clear was taken (R177) -/
  srcLines : List Nat := []
  /-- it has entered service before (R167) -/
  begun : Bool := false
  /-- source words read ahead of their granule, by move (R177) -/
  early : NMap Word := []
  /-- scratchpad bytes that commands issued after it on its core have written first: its own there do not stand (R142); as the line's
  key * 128 + the byte's place in it -/
  later : List Nat := []
  /-- words of register rows written and not landed: v register word, bytes by place in it (R146) -/
  late : List (Nat × List (Nat × Byte)) := []
  /-- XBULK: sends packets; the port entry and offset of the first destination byte, and packets not yet acknowledged -/
  bulk : Bool := false
  entry : Nat := 0
  winOff : Nat := 0
  packets : List Nat := []
  hwarp : Nat := 0
deriving DecidableEq, Repr, Inhabited

/-- A queued matrix command (R278, R279): its snapshot of the staging, where its granules stand, its batch. -/
structure MCmd where
  gi : Nat := 0
  paired : Bool := false
  pc : DWord := 0
  stg : Staging := {}
  acc : Nat := 0
  /-- FLIP of its word, 0 once the flip is taken (R269) -/
  flip : Nat := 0
  reelHdr : Nat := 0
  reelStage : Nat := 0
  gran : Nat := 0
  works : List Nat := []
  batch : Nat := 1
  hwarp : Nat := 0
  done : Nat := 0
  stop : CmdStop := .running
  /-- a pre-emption, freeze or re-placement has asked it to stop at a granule its GRAN permits -/
  asked : Bool := false
  /-- operand bytes read and still needed (R268): kind, row or column, piece of 16 bytes of its block or unit; the bytes -/
  early : List ((Nat × Nat × Nat) × List Byte) := []
deriving DecidableEq, Repr, Inhabited

/-- The commands of one context on one array or half (R255, R271), in order, and what the progress register shows of the last
one to end at a fault. -/
structure MQueue where
  cmds : List MCmd := []
  last : Nat := 0
deriving DecidableEq, Repr, Inhabited

/-- Counters of one context on one queue (R257). -/
structure MCount where
  cyc : Nat := 0
  cmds : Nat := 0
  faults : Nat := 0
deriving DecidableEq, Repr, Inhabited

/-- The engines of the cores. Queues and counters are listed by (core * 2 + half) * 4096 + context, grants by core * 2 + half;
accumulator elements by context, core, tile, row and column (MatrixWords.lean). -/
structure EngSt where
  cmds : NMap Cmd := []
  /-- clears of scratchpad lines in the order taken, as (line, command) (R142) -/
  clears : List (Nat × Nat) := []
  mqueues : NMap MQueue := []
  /-- the context that holds an array or half (R272, R382) -/
  grants : NMap Nat := []
  mcounts : NMap MCount := []
  accs : NMap Word := []
  /-- accumulator elements that a soft error has poisoned (R465) -/
  accPoison : List Nat := []
  /-- ARR.MODE bits of each core as Headland has set them, 0 full, 1 split (R255) -/
  arrMode : NMap Nat := []
  /-- bindings of a context on a leader core (R284), as context * 512 + core -/
  pairs : List Nat := []
deriving DecidableEq, Repr, Inhabited

end Sys2Proof.Machine
end

