-- ==== Sys2Proof/Machine/FabTypes.lean ====
section
/-!
DEFINITION. The state of the fabric (chapter 16): window map, packets in flight, paths, the jetties' reduction slots.
-/
namespace Sys2Proof.Machine

/-- Kinds of packet (R321). -/
inductive PktKind where
  | store | reduction | signal
deriving DecidableEq, Repr, Inhabited

/-- A packet this chip has sent, until it is acknowledged (R321, R327). -/
structure Packet where
  kind : PktKind := .store
  entry : Nat := 0
  port : Nat := 0
  jetty : Nat := 0
  chip : Nat := 0
  rxw : Nat := 0
  cls : Nat := 0
  rop : Nat := 0
  rid : Nat := 0
  q : Nat := 0
  bytes : List (Nat × Byte) := []
  addend : Nat := 0
  core : Nat := 0
  /-- path sequence number, seal count, and the material of the fabric key it is sealed under (R323) -/
  seq : Nat := 0
  sealNo : Nat := 0
  fkey : Nat := 0
  material : List Byte := []
  /-- its nonce, and the tag that its header flit carries (R321, R323) -/
  nonce : List Byte := []
  tag : List Byte := []
  ctx : Nat := 0
  gi : Nat := 0
  hwarp : Nat := 0
  works : List Nat := []
  /-- the XBULK command it belongs to -/
  cmd : Option Nat := none
  /-- its flits have left through the port (R328) -/
  left : Bool := false
  /-- owner and ARRIVE of the window that counts its bytes, once they are written (R324) -/
  arrive : Option (Nat × Nat) := none
  /-- taken in, written or discarded at its receiver; only the acknowledgement is still to come -/
  taken : Bool := false
  /-- the receiver reported a failed authentication (R326) -/
  badAuth : Bool := false
  /-- times it was sent again on the escape channel (R327) -/
  resent : Nat := 0
deriving DecidableEq, Repr, Inhabited

/-- One request of a chip's entry to a jetty's enrolment (R472). -/
structure EnrolReq where
  entry : Nat := 0
  confirmed : Bool := false
deriving DecidableEq, Repr, Inhabited

/-- A slot of a jetty's reduction unit (R331). -/
structure Slot where
  count : Nat := 0
  val : Word := 0
deriving DecidableEq, Repr, Inhabited

/-- An enrolment as the jetty holds it (R472), opened or joined by this chip's entries. -/
structure Enrol where
  jetty : Nat := 0
  material : List Byte := []
  rid : Nat := 0
  rop : Nat := 0
  contrib : Nat := 0
  recvs : List (Nat × Nat) := []
  reqs : List EnrolReq := []
  /-- slots by receiver offset word -/
  slots : NMap Slot := []
  /-- next path sequence number of the results to each (chip, RXW) (R473) -/
  seqs : List ((Nat × Nat) × Nat) := []
deriving DecidableEq, Repr, Inhabited

/-- A path (R322), or a jetty's path of the results of an enrolment, by its RID (R473). -/
structure Path where
  core : Nat := 0
  port : Nat := 0
  jetty : Nat := 0
  chip : Nat := 0
  rxw : Nat := 0
  rid : Nat := 0
deriving DecidableEq, Repr, Inhabited

/-- The fabric as this chip sees it. -/
structure FabSt where
  /-- window map: the 128 bytes of each entry (R316) -/
  wmap : NMap (List Byte) := []
  packets : NMap Packet := []
  /-- next sequence number of each path of this chip (R321) -/
  pathSeqs : List (Path × Nat) := []
  /-- sequence numbers taken in of each path from elsewhere that ends here, newest first (R322, R327); `core` 65534 stands for a
  jetty's results -/
  seen : List (Path × Nat) := []
  /-- seal counts by core * 64 + slot (R323) -/
  seals : NMap Nat := []
  /-- seal counts of jetties for the fabric keys they hold through enrolments of this chip (R323) -/
  jettySeals : List ((Nat × List Byte) × Nat) := []
  enrols : NMap Enrol := []
  /-- FAB.PORTp.JETTY where a link change has altered what boot learnt (R314) -/
  links : NMap Nat := []
deriving DecidableEq, Repr, Inhabited

end Sys2Proof.Machine
end

