-- ==== Sys2Proof/Machine/CtxTypes.lean ====
section
/-!
DEFINITION. The state of contexts and of the operations on subtrees (chapters 20, 21, 22): the records that State holds,
as plain data.
-/
namespace Sys2Proof.Machine

/-- A record on its way to a ring (R106, R131, R390): its bytes with SEQ still zero, and whether it is an event. -/
structure RingRec where
  event : Bool := false
  bytes : List Byte := []
  /-- a page of the notification it stands for, as (die, page): none for the other rings (R131) -/
  note : Option (Nat × Nat) := none
  /-- the page request it is the record of (R107) -/
  req : Option Nat := none
deriving DecidableEq, Repr, Inhabited

/-- A ring of a context (R106, R130, R390): its registers, the next SEQ, records that wait in the part, events lost. -/
structure Ring where
  base : Nat := 0
  size : Nat := 0
  head : Nat := 0
  arrive : Nat := 0
  seq : Nat := 0
  waiting : List RingRec := []
  lost : Nat := 0
  lostFlag : Bool := false
  /-- a write to the ring has failed and was reported; until BASE, SIZE or HEAD is next written (R478) -/
  stuck : Bool := false
  /-- page requests that a write to the ring awaits (R478) -/
  reqs : List Nat := []
deriving DecidableEq, Repr, Inhabited

/-- An extension of a measurement chain at the command processor (R436). -/
structure Ext where
  id : Nat := 0
  tag : Nat := 0
  len : Nat := 0
  digest : List Byte := []
deriving DecidableEq, Repr, Inhabited

/-- The grants of a child (R402, R406): cores as bits, queues by part index, key slots by range. -/
structure Grant where
  steward : Bool := false
  cores : Nat := 0
  qBase : Nat := 0
  qCount : Nat := 0
  mkBase : Nat := 0
  mkCount : Nat := 0
  fkBase : Nat := 0
  fkCount : Nat := 0
deriving DecidableEq, Repr, Inhabited

/-- An armed checkpoint trigger (R414): period in ms or count of records, what is left of it, its descriptor. -/
structure Trigger where
  value : Nat := 0
  left : Nat := 0
  desc : List Byte := []
deriving DecidableEq, Repr, Inhabited

/-- A dirty-page log in progress on a subtree (R423, R424). -/
structure DirtyLog where
  issuer : Nat := 0
  log : Nat := 0
  cap : Nat := 0
  arrive : Nat := 0
  stateAddr : Nat := 0
  count : Nat := 0
  overflow : Bool := false
  /-- pages logged in the round, by address in the issuer's space -/
  pages : List Nat := []
deriving DecidableEq, Repr, Inhabited

/-- One context (R3, R393, R402 to R408, R425, R436). -/
structure Ctx where
  parent : Nat := 0
  level : Nat := 0
  world : Nat := 0
  frozen : Bool := false
  resetting : Bool := false
  /-- removed; its grants return at the next tick (R415, R416) -/
  gone : Bool := false
  grant : Grant := {}
  /-- shares as the live tables hold them (R379) -/
  shareV : Nat := 0
  shareC : Nat := 0
  shareM : Nat := 0
  shareL : Nat := 0
  guar : Nat := 0
  burst : Nat := 0
  used : Nat := 0
  stat : Bool := false
  brk : Bool := false
  xroot : Nat := 0
  prq : Ring := {}
  fq : Ring := {}
  nq : Ring := {}
  acntCtl : Nat := 0
  acntThresh : Nat := 0
  uncounted : Nat := 0
  chain : List Byte := List.replicate 32 0
  exts : Nat := 0
  extQ : List Ext := []
  corecyc : Nat := 0
  arrcyc : Nat := 0
  bytes : Nat := 0
  framems : Nat := 0
  trigTime : Option Trigger := none
  trigCount : Option Trigger := none
  dlog : Option DirtyLog := none
deriving DecidableEq, Repr, Inhabited

/-- Kinds of operation in progress (R409 to R417, R447). -/
inductive OpKind where
  | freeze | thaw
  /-- a checkpoint: its descriptor's AREA, AREABYTES, thaw flag; its DONE is the operation's barrier (R412) -/
  | ckpt (area bytes : Nat) (thawAfter : Bool)
  | reset | revoke
  | latch (core world : Nat)
deriving DecidableEq, Repr, Inhabited

/-- How far an operation has come: waiting for an earlier one (R409), draining, writing its image or scrubbing, waiting for a tick. -/
inductive OpStage where
  | waiting | draining | working | ticking
deriving DecidableEq, Repr, Inhabited

/-- An operation in progress: who issued it, on what target, the barrier it adds to when done; the fields of a command fault of it. -/
structure Oper where
  kind : OpKind := .freeze
  stage : OpStage := .waiting
  issuer : Nat := 0
  target : Nat := 0
  bar : Option Nat := none
  /-- backwash jobs that scrub frames of its subtree (R475) -/
  jobs : List Nat := []
  /-- page requests that writing an image awaits (R412); one of them was answered with a fault -/
  reqs : List Nat := []
  deny : Bool := false
  /-- layout version and the target's chain at a checkpoint's freeze (R413) -/
  ver : Nat := 0
  chain : List Byte := []
  /-- a word issued it, not a trigger (R414) -/
  word : Bool := true
  core : Nat := 0
  hwarp : Nat := 0
  gid : Nat := 0
  grid : Nat := 0
  pc : DWord := 0
deriving DecidableEq, Repr, Inhabited

/-- A layout change staged for the next tick (R421, R460). `oper` is the operation that ends with it. -/
inductive Change where
  | grant (ctx : Nat) (g : Grant)
  /-- a removed context's or removed descendants' grants return -/
  | remove (ctx : Nat)
  | share (ctx v c m l guar burst : Nat)
  | charge (frames : List Nat) (ctx : Nat)
  | modes (l : List (Nat × Nat))
  | retire (u : WearUnit)
deriving DecidableEq, Repr, Inhabited

structure Staged where
  id : Nat := 0
  change : Change := .remove 0
  oper : Option Nat := none
  /-- the tenant entry, source, queue pair and SEQ to answer (R454, R460) -/
  reply : Option (Nat × Nat) := none
deriving DecidableEq, Repr, Inhabited

/-- A backwash job (R444 to R446, R475). The job of a reset charges its frames at the end, not one by one. -/
structure Job where
  owner : Nat := 0
  left : List Nat := []
  total : Nat := 0
  done : Nat := 0
  active : Bool := true
  held : Bool := false
  bar : Nat := 0
  ofReset : Bool := false
  /-- contexts whose frames it scrubs -/
  ctxs : List Nat := []
deriving DecidableEq, Repr, Inhabited

/-- A receipt in signing (R442). -/
structure Receipt where
  issuer : Nat := 0
  target : Nat := 0
  out : Nat := 0
  nonce : List Byte := []
  bar : Nat := 0
  path : Nat := 0
  prot : Bool := false
  /-- extensions of the target that must be applied first; then its H and E as they were taken -/
  waits : List Nat := []
  taken : Option (List Byte × Nat) := none
  /-- the whole receipt, once it is signed, and page requests that writing it awaits -/
  image : List Byte := []
  reqs : List Nat := []
  deny : Bool := false
  core : Nat := 0
  hwarp : Nat := 0
  gid : Nat := 0
  grid : Nat := 0
  pc : DWord := 0
deriving DecidableEq, Repr, Inhabited

/-- Contexts and operations. -/
structure CtxSt where
  ctxs : NMap Ctx := []
  opers : NMap Oper := []
  staged : List Staged := []
  layoutVer : Nat := 0
  /-- WORLD.OWNER (R427): protected worlds that have an owner -/
  worldOwner : NMap Nat := []
  /-- world latches of the cores (R427) -/
  latch : NMap Nat := []
  jobs : NMap Job := []
  receipts : NMap Receipt := []
  /-- receipts signed since power-on (R437) -/
  counter : Nat := 0
  /-- adds of the part that wait for a page request: context, address, amount, requests (R478) -/
  adds : List (Nat × Nat × Nat × List Nat) := []
deriving DecidableEq, Repr, Inhabited

end Sys2Proof.Machine
end

