-- ==== Sys2Proof/Machine/PartTypes.lean ====
section
/-!
DEFINITION. The state of the part (chapters 19, 23): launch queues, grids, the host port, keys, power and wear: the records
that State holds, as plain data.
-/
namespace Sys2Proof.Machine

/-- A record in a launch queue (R373): its 128 bytes, the frame it came in, and the grid once it is accepted. -/
structure QRec where
  bytes : List Byte := []
  /-- tenant entry, SEQ and index of the record in its frame (R453) -/
  frame : Option (Nat × Nat × Nat) := none
  grid : Option Nat := none
  /-- the context it was launched for -/
  ctx : Nat := 0
  localQ : Nat := 0
  /-- page requests that its checks await; one of them was answered with a fault (R88) -/
  reqs : List Nat := []
  deny : Bool := false
deriving DecidableEq, Repr, Inhabited

/-- One launch queue (R372, R374). -/
structure LQueue where
  recs : List QRec := []
  accepted : Nat := 0
  refused : Nat := 0
  last : Nat := 0
deriving DecidableEq, Repr, Inhabited

/-- A grid in progress (R87 to R90). -/
structure Grid where
  ctx : Nat := 0
  queue : Nat := 0
  localQ : Nat := 0
  /-- LQ.ACCEPTED after its acceptance, mod 2^26 (R391) -/
  number : Nat := 0
  code : Nat := 0
  entry : Nat := 0
  text : Nat := 0
  textEnd : Nat := 0
  const : Nat := 0
  constBytes : Nat := 0
  data : Nat := 0
  steward : Bool := false
  lseed : Word := 0
  gx : Nat := 1
  gy : Nat := 1
  gz : Nat := 1
  gsize : Nat := 1
  span : Nat := 1
  regs : Nat := 8
  scratch : Nat := 0
  roles : Nat := 0
  prio : Nat := 0
  world : Nat := 0
  cls : Nat := 0
  args : Nat := 0
  argBytes : Nat := 0
  hbufs : List (Nat × Nat) := []
  done : Nat := 0
  /-- spans placed so far -/
  placed : Nat := 0
  /-- cores that have run its groups -/
  cores : List Nat := []
  /-- groups that have ended -/
  ended : Nat := 0
  /-- its context was reset or revoked: no DONE and no extension (R474) -/
  dropped : Bool := false
  /-- extensions of acceptance that must be applied before a group starts (R89) -/
  exts : List Nat := []
  /-- result buffers extended so far; page requests that the next one awaits, one of them answered with a fault (R89) -/
  hashed : Nat := 0
  reqs : List Nat := []
  deny : Bool := false
deriving DecidableEq, Repr, Inhabited

/-- One tenant entry of the host port (R376, R450, R452). `open` is entry 0 as R458 leaves it without an owner section. -/
structure Tenant where
  v : Bool := false
  src : Nat := 0
  qp : Nat := 0
  ctx : Nat := 0
  qmask : Nat := 0
  keyLo : Nat := 0
  keyHi : Nat := 0
  imm : Nat := 0
  lastSeq : Nat := 0
  standsOpen : Bool := false
deriving DecidableEq, Repr, Inhabited

/-- What the part sends to the host (R449, R450, R453, R455). -/
inductive HostOut where
  | reply (qp code status seq : Nat) (payload : List Byte) (tag : List Byte)
  | nak (src qp : Nat) (access : Bool)
  | write (qp addr rkey : Nat) (bytes : List Byte)
  | writeImm (qp addr rkey imm : Nat)
deriving DecidableEq, Repr, Inhabited

/-- An EXPORT in progress (R455). `sent` once its WRITEs have left. -/
structure Exp where
  entry : Nat := 0
  seq : Nat := 0
  req : ExportReq := ⟨0, 0, 0, 0, 0, 0, 0, 0⟩
  sent : Bool := false
  /-- where its barrier object lies, once translated (R455) -/
  pa : Option Nat := none
  reqs : List Nat := []
  deny : Bool := false
deriving DecidableEq, Repr, Inhabited

/-- A message of the host that waits for its turn on its queue pair (R451): none once it is performed but for the add of its
immediate, to a context's barrier object. -/
structure InMsg where
  src : Nat := 0
  qp : Nat := 0
  msg : Option Instr := none
  bar : Nat × Nat := (0, 0)
deriving DecidableEq, Repr, Inhabited

/-- One key slot (R434). -/
structure KeySlot where
  loaded : Bool := false
  enci : Bool := false
  fbase : Nat := 0
  fcount : Nat := 0
  mdbase : Nat := 0
  material : List Byte := []
  /-- withdrawn by wear (R463) -/
  gone : Bool := false
deriving DecidableEq, Repr, Inhabited

/-- The report ring of the host (R454). -/
structure ReportRing where
  qp : Nat := 0
  addr : Nat := 0
  rkey : Nat := 0
  size : Nat := 0
  next : Nat := 0
deriving DecidableEq, Repr, Inhabited

/-- The rest of the part. -/
structure PartSt where
  /-- power is on and the boot has run (R10, R457) -/
  powered : Bool := true
  /-- CYCLE of the die (R201) -/
  cycle : Nat := 0
  queues : NMap LQueue := []
  grids : NMap Grid := []
  /-- virtual times, by class (0 V, 1 C, 2 M, 3 L) * 2^40 + place * 2^12 + context (R380) -/
  vt : NMap Nat := []
  /-- contexts that were ready at a quarter when it last selected a run (R380) -/
  ready : NMap (List Nat) := []
  /-- cores lent to a context outside its partition (R384) -/
  lent : NMap Nat := []
  tenants : NMap Tenant := []
  noMatch : Nat := 0
  badTag : Nat := 0
  badFrame : Nat := 0
  out : List HostOut := []
  inbox : List InMsg := []
  exps : NMap Exp := []
  report : Option ReportRing := none
  /-- faults of the root and health changes that Headland holds for the host (R390, R454) -/
  headland : List (List Byte) := []
  mkeys : NMap KeySlot := []
  fkeys : NMap KeySlot := []
  migCtl : Nat := 0
  migEpoch : Nat := 0
  migFreeLow : Nat := 0
  migFreeHigh : Nat := 0
  migQDepth : Nat := 0
  migBatch : Nat := 0
  powerCap : Nat := 1700
  /-- clocks of the 512 islands in steps of 53.125 MHz: cores 0 to 383, coves 384 to 431, LLC groups to 463, memory-controller groups to
  487, fabric ports to 503, others to 511; 16, which is 850 MHz, where none is listed (R1, R461) -/
  clocks : NMap Nat := []
  watts : Nat := 0
  maxTemp : Nat := 0
  health : Nat := 0
  /-- spares used, by kind and place (Subtree.lean): with `retired`, the wear section of the part record, which outlives power (R9, R457,
  R463) -/
  sparesUsed : NMap Nat := []
  errors : NMap Nat := []
  /-- units lost with no spare left -/
  retired : List WearUnit := []
  /-- number of this power-on -/
  boots : Nat := 0
  /-- poisoned register rows as core * 4096 + row with the lane, and poisoned scratchpad words (R465) -/
  rowPoison : List Nat := []
  spadPoison : List Nat := []
deriving DecidableEq, Repr, Inhabited

end Sys2Proof.Machine
end

