-- ==== Sys2Proof/Machine/State.lean ====
section
/-!
DEFINITION. The machine's state as plain data, the reasons a step of the model can stop, and the state after reset.
-/
namespace Sys2Proof.Machine

/-- Who acts in one step of the model: an event of the part or of the world outside it, or an issue warp. -/
inductive Who where
  | event (i : Instr)
  | issue (warp : Nat)
deriving DecidableEq, Repr

/-- One entry of the agenda: who acts, after how many cycles of the die's counter. -/
structure Turn where
  dt : Nat
  who : Who
deriving DecidableEq, Repr

/-- The model's own fields (log entries 10 and 11): the order in which steps happen and the inputs they carry; the issue
warp whose word executes, 0 for none; the counters of free values and of fresh identities. -/
structure ModelSt where
  agenda : List Turn := []
  cur : Nat := 0
  free : Nat := 0
  nextId : Nat := 1
deriving DecidableEq, Repr

/-- Registers and threads (R190, R196). Keys: thread and v, p, k, sb by group, home warp and home lane; see Regs.lean. -/
structure RegSt where
  threads : NMap Thread := []
  v : NMap Word := []
  s : NMap Word := []
  p : NMap Bool := []
  k : NMap Word := []
  sb : NMap Nat := []
  hwarps : NMap HWarp := []
deriving DecidableEq, Repr

/-- Work on the cores: issue warps, groups, spans, quarters, results and counted work in flight, stops. -/
structure WorkSt where
  warps : NMap Warp := []
  groups : NMap Group := []
  spans : NMap Span := []
  quarters : NMap Quarter := []
  results : NMap Result := []
  works : NMap Work := []
  stops : NMap Stop := []
  /-- generation last used of each fault-table slot, by die * 1024 + slot (R388) -/
  stopGens : NMap Nat := []
deriving DecidableEq, Repr

/-- Memory and what caches it (chapters 05, 06). -/
structure MemSt where
  /-- global memory as the LLC and HBM hold it, by device physical address -/
  mem : List Host.Cell := []
  llc : NMap LlcLine := []
  hbmPoison : List Nat := []
  l1 : NMap L1Line := []
  l1Clock : Nat := 0
  dirItems : NMap DirItem := []
  drops : NMap DropItem := []
  claims : List Claim := []
  spad : List Host.Cell := []
  presence : NMap Presence := []
  icache : NMap CodeLine := []
  ccache : NMap CodeLine := []
  /-- slice map entries that differ from the slice itself (R119) -/
  sliceMap : NMap Nat := []
  counted : List Counted := []
  /-- requests at the service warps (R296) -/
  svc : NMap SvcReq := []
deriving DecidableEq, Repr

/-- Translation, requests, frames and migration (chapters 04, 05). -/
structure XlSt where
  tlb : List TlbEnt := []
  wc : List WcEnt := []
  walks : NMap Walk := []
  /-- the cove whose walk each die's walkers took last, by its place on the die (R102) -/
  lastCove : NMap Nat := []
  reqs : NMap PageReq := []
  reqGens : NMap Nat := []
  frames : NMap Frame := []
  pool : List Nat := []
  parks : NMap ParkOp := []
  recalls : NMap RecallOp := []
  acnt : NMap Acnt := []
  /-- pages that a dirty-page log has still to append: context logged, address in its issuer's space (R424) -/
  logged : List (Nat × Nat) := []
  /-- pages named by far-flagged notifications, oldest first: context and page (R134) -/
  farNotes : List (Nat × Nat) := []
  /-- notification records, by context and SEQ, whose FLAGS[0] is still to be set (R131) -/
  again : List (Nat × Nat) := []
  /-- pages of this part in the jetty pool, by jetty * 2^64 + address (R124, R125) -/
  poolPages : NMap FarPage := []
deriving DecidableEq, Repr

/-- The whole machine. -/
structure State where
  md : ModelSt := {}
  rg : RegSt := {}
  wk : WorkSt := {}
  mm : MemSt := {}
  xl : XlSt := {}
  en : EngSt := {}
  fb : FabSt := {}
  cx : CtxSt := {}
  pt : PartSt := {}
deriving DecidableEq, Repr

/-- The root as boot creates it (R402, R457): every core, queue, key slot and frame, and the STEWARD right. BURST and USED
of the root, and every register that no rule gives a value, are the model's (log entries 1, 2). -/
def rootCtx : Ctx :=
  { grant := { steward := true, cores := 2 ^ 384 - 1, qBase := 0, qCount := 1024, mkBase := 0, mkCount := 256,
               fkBase := 0, fkCount := 64 },
    guar := 9175040, burst := 9175040, used := 9175040 }

/-- Tenant entry 0 as R458 provisions it from the part record (log entry 8). -/
def bootTenant : Tenant :=
  match Config.ownerSection with
  | some (src, qp, key) =>
    { v := true, src := src, qp := qp, qmask := 2 ^ 64 - 1, keyLo := key % 2 ^ 64, keyHi := key / 2 ^ 64 % 2 ^ 64 }
  | none => { v := true, qp := 1, standsOpen := true }

/-- The part after the boot of power-on number `n` (R457), with an empty wear section: the root, tenant entry 0, and nothing else. A part
record that fails its checks leaves HEALTH at 2 (R457 step 4). -/
def State.boot (n : Nat) : State :=
  { cx := { ctxs := [(0, rootCtx)] },
    pt := { tenants := [(0, bootTenant)], boots := n, health := if Config.recordVerifies then 0 else 2 } }

/-- The machine right after reset (R457, R466). -/
def State.reset : State := State.boot 0

/-- Reasons for which the model stops with a fault. The part's own faults are taken, not these (R388). -/
inductive Fault where
  /-- An agenda entry named a word of the instruction set as an event: an ill-formed input of the model, not of the part.
  Raised by `step`. Safe: no run of the part has such an entry. -/
  | wordAsEvent
deriving DecidableEq, Repr

/-- Reasons for which the model refuses an instruction. -/
inductive Refusal where
  /-- The instruction has no meaning yet. Raised by `exec`. Safe. -/
  | notModelled (mnemonic : String)
deriving DecidableEq, Repr

end Sys2Proof.Machine
end

