-- ==== Sys2Proof/Machine/Regs.lean ====
section
/-!
DEFINITION. Registers and lanes (R52, R53, R190 to R199): keys, reading and writing of operands, guards, and the lanes of
an issue warp.
-/
namespace Sys2Proof.Machine

/-- Keys of the register maps: group, home warp (0 to 31), home lane (0 to 31), index. -/
def hwKey (gi h : Nat) : Nat := gi * 32 + h
def thKey (gi h l : Nat) : Nat := hwKey gi h * 32 + l
def vKey (gi h i l : Nat) : Nat := (hwKey gi h * 192 + i) * 32 + l
def sKey (gi i : Nat) : Nat := gi * 64 + i
def pKey (gi h i l : Nat) : Nat := (hwKey gi h * 8 + i) * 32 + l
def kKey (gi h k : Nat) : Nat := hwKey gi h * 16 + k
def cKey (gi h c : Nat) : Nat := hwKey gi h * 8 + c

/-- Updates of one record each. -/
def State.updWarp (s : State) (id : Nat) (f : Warp → Warp) : State :=
  { s with wk := { s.wk with warps := s.wk.warps.upd id f } }
def State.updGroup (s : State) (id : Nat) (f : Group → Group) : State :=
  { s with wk := { s.wk with groups := s.wk.groups.upd id f } }
def State.updThread (s : State) (key : Nat) (f : Thread → Thread) : State :=
  { s with rg := { s.rg with threads := s.rg.threads.upd key f } }
def State.updHWarp (s : State) (key : Nat) (f : HWarp → HWarp) : State :=
  { s with rg := { s.rg with hwarps := NMap.set {} s.rg.hwarps key (f (NMap.get {} s.rg.hwarps key)) } }
def State.hwarp (s : State) (key : Nat) : HWarp := NMap.get {} s.rg.hwarps key
def State.warp (s : State) (id : Nat) : Warp := (s.wk.warps.find id).getD {}
def State.group (s : State) (id : Nat) : Group := (s.wk.groups.find id).getD {}
def State.thread (s : State) (key : Nat) : Thread := (s.rg.threads.find key).getD {}

/-- A fresh identity: never that of the executing issue warp. -/
def State.fresh (s : State) : Nat × State :=
  let id := max s.md.nextId (s.md.cur + 1)
  (id, { s with md := { s.md with nextId := id + 1 } })
/-- A fresh index of free values. -/
def State.drawFree (s : State) : Nat × State := (s.md.free, { s with md := { s.md with free := s.md.free + 1 } })
/-- FREE VALUE (log entry 5): one of `n` outcomes that the part does not report. -/
def State.pick (s : State) (n : Nat) : Nat × State :=
  let (i, s) := s.drawFree
  (Config.freeNat i % n, s)
def State.coin (s : State) : Bool × State :=
  let (i, s) := s.drawFree
  (Config.freeBit i, s)

/-- Live lanes of an issue warp with their physical numbers (R193). -/
def liveLanes (w : Warp) : List (Nat × LaneEnt) :=
  ((List.range w.lanes.length).zip w.lanes).filter (fun p => p.2.live)

/-- active(w): live lanes that are no helpers (R192). -/
def activeLanes (w : Warp) : List (Nat × LaneEnt) := (liveLanes w).filter (fun p => !p.2.help)

/-- A helper thread (R190): one that fills the group's last quad and that no record creates. -/
def helperThread (s : State) (w : Warp) (e : LaneEnt) : Bool := (s.rg.threads.find (thKey w.gi e.hwarp e.hlane)).isNone

/-- A register word as physical lane `p` reads it: `i` counts the registers of a pair or quad (R52, R53, R195, R197). -/
def readWord (s : State) (w : Warp) (p : Nat) (e : LaneEnt) (r : Reg) (i : Nat) : Word :=
  match r with
  | .v n =>
    let own := NMap.get 0 s.rg.v (vKey w.gi e.hwarp (n.val + i) e.hlane)
    if e.help then (NMap.find w.hv (p * 256 + n.val + i)).getD (if helperThread s w e then 0 else own) else own
  | .s n => (NMap.find w.sSeen (n.val + i)).getD (NMap.get 0 s.rg.s (sKey w.gi (n.val + i)))
  | .t n => NMap.get 0 w.temps (p * 8 + n.val + i)
  | .zero => 0
  | .lane => BitVec.ofNat 32 e.hlane

/-- The natural number that `width` registers from `r` spell, the low word first (R13). -/
def readVal (s : State) (w : Warp) (p : Nat) (e : LaneEnt) (r : Reg) (width : Nat) : Nat :=
  (List.range width).foldl (fun acc i => acc + (readWord s w p e r i).toNat * 2 ^ (32 * i)) 0

/-- A predicate as a lane reads it; p7 reads true (R196). -/
def readPred (s : State) (w : Warp) (p : Nat) (e : LaneEnt) (i : Nat) : Bool :=
  if i = 7 then true
  else
    let own := NMap.get false s.rg.p (pKey w.gi e.hwarp i e.hlane)
    if e.help then (NMap.find w.hp (p * 8 + i)).getD (own && !helperThread s w e) else own

/-- The guard of a full word in a lane (R44). -/
def guardOf (s : State) (w : Warp) (h : Hdr) (p : Nat) (e : LaneEnt) : Bool :=
  readPred s w p e h.g.val != h.n

/-- Live lanes whose guard is true, helpers among them. -/
def guardedLanes (s : State) (w : Warp) (h : Hdr) : List (Nat × LaneEnt) :=
  (liveLanes w).filter (fun q => guardOf s w h q.1 q.2)

/-- Taking lanes: lanes of active(w) whose guard is true (R358). -/
def takingLanes (s : State) (w : Warp) (h : Hdr) : List (Nat × LaneEnt) :=
  (guardedLanes s w h).filter (fun q => !q.2.help)

/-- Order of lanes by (HWARP, HLANE) (R197). -/
def laneRank (e : LaneEnt) : Nat := e.hwarp * 32 + e.hlane

/-- The lane of highest rank. -/
def topLane {α : Type} (rank : α → Nat) : List α → Option α
  | [] => none
  | a :: l =>
    match topLane rank l with
    | none => some a
    | some b => if rank b < rank a then some a else some b

/-- Lanes in ascending (HWARP, HLANE) order. -/
def insertLane (q : Nat × LaneEnt) : List (Nat × LaneEnt) → List (Nat × LaneEnt)
  | [] => [q]
  | r :: l => if laneRank q.2 ≤ laneRank r.2 then q :: r :: l else r :: insertLane q l
def sortLanes (l : List (Nat × LaneEnt)) : List (Nat × LaneEnt) := l.foldr insertLane []

/-- Word `i` of a raw value. -/
def wordOf (val i : Nat) : Word := BitVec.ofNat 32 (val / 2 ^ (32 * i))

/-- Write `width` registers of one lane from `r` on: thread state, or the run's own copies for temporaries and helper
lanes (R60, R195). An s register is written by `writeS` alone. -/
def writeLane (s : State) (wid p : Nat) (e : LaneEnt) (r : Reg) (width val : Nat) : State :=
  match r with
  | .v n =>
    let w := s.warp wid
    if e.help then
      s.updWarp wid (fun w => { w with
        hv := (List.range width).foldl (fun m i => NMap.insert m (p * 256 + n.val + i) (wordOf val i)) w.hv })
    else
      let keys := (List.range width).map (fun i => vKey w.gi e.hwarp (n.val + i) e.hlane)
      let t : State := { s with rg := { s.rg with
        v := (List.range width).foldl (fun m i => NMap.set 0 m (vKey w.gi e.hwarp (n.val + i) e.hlane) (wordOf val i)) s.rg.v } }
      t.updWarp wid (fun w => { w with
        wrote := keys.foldl (fun m k => NMap.insert m k (NMap.get 0 s.rg.v k :: NMap.get [] m k)) w.wrote })
  | .t n =>
    s.updWarp wid (fun w => { w with
      temps := (List.range width).foldl (fun m i => NMap.set 0 m (p * 8 + n.val + i) (wordOf val i)) w.temps })
  | .s _ | .zero | .lane => s

/-- What a write of s registers leaves for the other issue warps of the group that have a run in progress (R197). -/
def noteSWrite (gi wid : Nat) (idx : List Nat) (old : SUndo) (ws : NMap Warp) : NMap Warp :=
  ws.map (fun c =>
    if c.2.gi = gi then
      if c.1 = wid then (c.1, { c.2 with sUndo := c.2.sUndo.map (fun u => u.filter (fun x => !idx.contains x.1)),
                                         sSeen := c.2.sSeen.filter (fun x => !idx.contains x.1) })
      else (c.1, { c.2 with sUndo := old :: c.2.sUndo })
    else c)

/-- Write an s register, or a pair as one unit (R197). -/
def writeS (s : State) (wid : Nat) (n width val : Nat) : State :=
  let gi := (s.warp wid).gi
  let idx := (List.range width).map (fun i => n + i)
  let old := idx.map (fun i => (i, NMap.get 0 s.rg.s (sKey gi i)))
  { s with
    rg := { s.rg with s := (List.range width).foldl (fun m i => NMap.set 0 m (sKey gi (n + i)) (wordOf val i)) s.rg.s },
    wk := { s.wk with warps := noteSWrite gi wid idx old s.wk.warps } }

/-- Write a destination from the lanes' values: every lane its own, or an s register once from the highest lane that is
no helper (R196, R197). -/
def writeDst (s : State) (wid : Nat) (r : Reg) (width : Nat) (vals : List (Nat × LaneEnt × Nat)) : State :=
  match r with
  | .s n =>
    match topLane (fun v => laneRank v.2.1) (vals.filter (fun v => !v.2.1.help)) with
    | some v => writeS s wid n.val width v.2.2
    | none => s
  | .v _ | .t _ | .zero | .lane => vals.foldl (fun s v => writeLane s wid v.1 v.2.1 r width v.2.2) s

/-- Write a predicate of one lane; writes to p7 are discarded (R196). -/
def writePred (s : State) (wid p : Nat) (e : LaneEnt) (i : Nat) (b : Bool) : State :=
  if i = 7 then s
  else if e.help then s.updWarp wid (fun w => { w with hp := NMap.insert w.hp (p * 8 + i) b })
  else { s with rg := { s.rg with p := NMap.set false s.rg.p (pKey (s.warp wid).gi e.hwarp i e.hlane) b } }

def writePreds (s : State) (wid : Nat) (i : Nat) (vals : List (Nat × LaneEnt × Bool)) : State :=
  vals.foldl (fun s v => writePred s wid v.1 v.2.1 i v.2.2) s

/-- The stochastic generator of the thread a lane carries or stands for (R21, R195). -/
def genOf (s : State) (w : Warp) (e : LaneEnt) : Word := (s.thread (thKey w.gi e.hwarp e.hlane)).gen
def setGen (s : State) (gi : Nat) (e : LaneEnt) (x : Word) : State :=
  s.updThread (thKey gi e.hwarp e.hlane) (fun t => { t with gen := x })

/-- Home warps that supply a lane of a list, each once. -/
def homeWarps (l : List (Nat × LaneEnt)) : List Nat := (l.map (fun q => q.2.hwarp)).eraseDups

/-- k masks and scoreboard counters of a home warp (R66, R198). -/
def kMask (s : State) (gi h k : Nat) : Word := NMap.get 0 s.rg.k (kKey gi h k)
def setK (s : State) (gi h k : Nat) (v : Word) : State := { s with rg := { s.rg with k := NMap.set 0 s.rg.k (kKey gi h k) v } }
def sbOf (s : State) (gi h c : Nat) : Nat := NMap.get 0 s.rg.sb (cKey gi h c)
def setSb (s : State) (gi h c n : Nat) : State := { s with rg := { s.rg with sb := NMap.set 0 s.rg.sb (cKey gi h c) n } }

end Sys2Proof.Machine
end

