-- ==== Sys2Proof/Machine/Mem.lean ====
section
/-!
DEFINITION. Global memory, the LLC with its directory, and the L1s (R115 to R122, R135, R136, R153, R154): reading,
performing stores, registering words, drops, claims and the part's own writes.
-/
namespace Sys2Proof.Machine

def State.updMM (s : State) (f : MemSt → MemSt) : State := { s with mm := f s.mm }

/-- A byte as the LLC and HBM hold it. Memory that nothing has written reads 0 (log entry 3). -/
def memByte (s : State) (pa : Nat) : Byte := NMap.get 0 s.mm.mem pa
/-- The canonical form of memory: addresses strictly rising, and no byte listed that equals what an unlisted address reads as. -/
def Memory.wf (m : List Host.Cell) : Bool := NMap.wf 0 m
def setMemByte (s : State) (pa : Nat) (b : Byte) : State :=
  s.updMM (fun m => { m with mem := NMap.set 0 m.mem pa b })

/-- Bytes from `pa` on as a number, little-endian (R13). -/
def natOfBytes (l : List Byte) : Nat := l.foldr (fun b acc => b.toNat + 256 * acc) 0
def bytesOfNat (n v : Nat) : List Byte := (List.range n).map (fun i => BitVec.ofNat 8 (v / 256 ^ i))
def memBytes (s : State) (pa n : Nat) : List Byte := (List.range n).map (fun i => memByte s (pa + i))
def memNat (s : State) (pa n : Nat) : Nat := natOfBytes (memBytes s pa n)
def setMemBytes (s : State) (pa : Nat) (l : List Byte) : State :=
  ((List.range l.length).zip l).foldl (fun s q => setMemByte s (pa + q.1) q.2) s

def dieOf (core : Nat) : Nat := core / 192
def coveOf (core : Nat) : Nat := core / 8

/-- Slice and set of a line (R118, R119). -/
def sliceOf (s : State) (line : Nat) : Nat :=
  let pa := line * 128
  let f := fun i => pa / 2 ^ i % 256
  NMap.get (f 7 ^^^ f 15 ^^^ f 23 ^^^ f 31 ^^^ f 39 ^^^ (pa / 2 ^ 47 % 2)) s.mm.sliceMap
    (f 7 ^^^ f 15 ^^^ f 23 ^^^ f 31 ^^^ f 39 ^^^ (pa / 2 ^ 47 % 2))

/-- The record of a frame (R129, R428): charged to the root and open where none is listed. -/
def State.frame (s : State) (f : Nat) : Frame := NMap.get {} s.xl.frames f
def State.updFrame (s : State) (f : Nat) (g : Frame → Frame) : State :=
  { s with xl := { s.xl with frames := NMap.set {} s.xl.frames f (g (s.frame f)) } }

/-- Send a core a drop for words of a line (R120, R122). -/
def sendDrop (s : State) (core line : Nat) (words : List Nat) : State :=
  if words = [] then s
  else
    let (id, s) := s.fresh
    s.updMM (fun m => { m with drops := NMap.insert m.drops id { core := core, line := line, words := words } })

/-- Owners of a line as (core, words) (R120). -/
def ownersOf (l : LlcLine) : List (Nat × List Nat) :=
  (l.owners.map (·.2)).eraseDups.map (fun c => (c, (l.owners.filter (fun o => o.2 = c)).map (·.1)))

/-- The LLC evicts a line (R120): its data stand in HBM, its owners are sent drops. -/
def llcEvict (s : State) (line : Nat) : State :=
  match s.mm.llc.find line with
  | none => s
  | some l =>
    let s := (ownersOf l).foldl (fun s o => sendDrop s o.1 line o.2) s
    s.updMM (fun m => { m with
      llc := m.llc.erase line
      hbmPoison := if l.dirty then m.hbmPoison.filter (fun g => g / 2 != line) ++ l.poison.map (fun g => line * 2 + g)
                   else m.hbmPoison })

/-- Bring a line into the LLC (R118): a full set gives up a line the part chooses (FREE VALUE, log entry 5). The frame's
heat rises (R129). -/
def llcEnsure (s : State) (line : Nat) : State :=
  match s.mm.llc.find line with
  | some _ => s
  | none =>
    let same := (s.mm.llc.map (·.1)).filter (fun k => k % 512 = line % 512 ∧ sliceOf s k = sliceOf s line)
    let s :=
      if 16 ≤ same.length then
        let (i, s) := s.pick same.length
        llcEvict s (same.getD i 0)
      else s
    let new : LlcLine := { poison := (s.mm.hbmPoison.filter (fun g => g / 2 = line)).map (fun g => g % 2) }
    let s := s.updMM (fun m => { m with llc := NMap.insert m.llc line new })
    s.updFrame (line / 512) (fun f => { f with heat := min (f.heat + 1) 255 })

/-- Whether the granule of an address is poisoned as the LLC and HBM hold it (R117). -/
def llcPoisoned (s : State) (pa : Nat) : Bool :=
  match s.mm.llc.find (pa / 128) with
  | some l => l.poison.contains (pa / 64 % 2)
  | none => s.mm.hbmPoison.contains (pa / 64)

/-- Bytes of a granule all written since it was poisoned clear it (R117). -/
def settlePoison (poison fresh : List Nat) : List Nat × List Nat :=
  let clear := poison.filter (fun g => (List.range 64).all (fun i => fresh.contains (g * 64 + i)))
  (poison.filter (fun g => !clear.contains g), fresh.filter (fun i => !clear.contains (i / 64) && poison.contains (i / 64)))

/-- Bytes of a line that a mask of a word's bytes names. -/
def maskBytes (i mask : Nat) : List Nat := ((List.range 4).filter (fun k => mask.testBit k)).map (fun k => i * 4 + k)

/-- Bytes of a line have been written as the LLC holds it: of a poisoned granule they count as new (R117). -/
def LlcLine.overwrite (l : LlcLine) (bytes : List Nat) : LlcLine :=
  let (p, f) := settlePoison l.poison ((bytes.filter (fun b => l.poison.contains (b / 64)) ++ l.fresh).eraseDups)
  { l with poison := p, fresh := f, dirty := true }

/-- Poison a granule as the LLC holds it, with the data (R117, R177). -/
def poisonGranule (s : State) (g : Nat) : State :=
  let s := llcEnsure s (g / 2)
  s.updMM (fun m => { m with llc := m.llc.upd (g / 2) (fun l => { l with
    poison := (g % 2 :: l.poison).eraseDups, fresh := l.fresh.filter (fun i => i / 64 != g % 2), dirty := true }) })

/-- A core's word is registered at the directory (R120): memory takes its value, the core owns it if it keeps the word, the owner
before is sent a drop. A word that a soft error has struck takes its poison with it (R465). -/
def regWord (s : State) (core line : Nat) (own : Bool) (w : DirWord) : State :=
  let s := llcEnsure s line
  let s := setMemBytes s (line * 128 + w.i * 4) (bytesOfNat 4 w.val.toNat)
  let old := (s.mm.llc.find line).bind (fun l => l.owners.find w.i)
  let s := match old with
    | some c => if c = core then s else sendDrop s c line [w.i]
    | none => s
  let s := s.updMM (fun m => { m with llc := m.llc.upd line (fun l => { l.overwrite (maskBytes w.i w.mask) with
    owners := if own then NMap.insert l.owners w.i core else l.owners.erase w.i }) })
  if w.lost then poisonGranule s (line * 2 + w.i / 16) else s

def l1Key (core line : Nat) : Nat := core * 2 ^ 41 + line
def l1Line (s : State) (core line : Nat) : L1Line := NMap.get {} s.mm.l1 (l1Key core line)
/-- A line with no valid word is not in the L1. -/
def normLine (x : L1Line) : L1Line := if x.words = [] then {} else x
def setL1 (s : State) (core line : Nat) (f : L1Line → L1Line) : State :=
  s.updMM (fun m => { m with l1 := NMap.set {} m.l1 (l1Key core line) (normLine (f (l1Line s core line))) })

/-- Count a request that reaches the LLC on a context's behalf (R130). -/
def countReq (s : State) (ctx page core : Nat) (write : Bool) : State :=
  s.updMM (fun m => { m with counted := m.counted ++ [{ ctx := ctx, page := page, die := dieOf core, write := write }] })

/-- A line is held by a claim (R122). -/
def held (s : State) (line : Nat) : Bool := s.mm.claims.any (fun c => c.line = line)

/-- The dirty words of an L1 line, those of a list or all, as they go to the directory. -/
def dirtyWords (l : L1Line) (only : Option (List Nat)) : List DirWord :=
  (l.words.filter (fun w => w.2.dirty && (only.all (fun o => o.contains w.1)))).map (fun w =>
    { i := w.1, val := w.2.val, mask := w.2.mask, lost := l.lost.contains w.1 })

/-- A word whose value the directory has registered: owned, not dirty (R120). -/
def L1Word.registered (w : L1Word) : L1Word := { w with dirty := false, owned := true, sent := [], same := false, mask := 0, writers := [] }

/-- Dirty words of a line, those of a list or all, are written back and registered at once (R120, R122): the line is not held. -/
def flushWords (s : State) (core line : Nat) (only : Option (List Nat)) : State :=
  let l := l1Line s core line
  let ws := dirtyWords l only
  if ws = [] then s
  else
    let s := countReq s l.ctx l.page core true
    let s := ws.foldl (fun s w => regWord s core line true w) s
    setL1 s core line (fun l => { l with
      words := l.words.map (fun w => if ws.any (fun x => x.i = w.1) then (w.1, w.2.registered) else w)
      lost := l.lost.filter (fun i => !ws.any (fun x => x.i = i)) })
def flushLine (s : State) (core line : Nat) : State := flushWords s core line none

/-- Dirty words that leave an L1 while an engine holds their line wait at the directory (R122). -/
def queueWords (s : State) (core line : Nat) (only : Option (List Nat)) : State :=
  let l := l1Line s core line
  let ws := dirtyWords l only
  if ws = [] then s
  else
    let (id, s) := s.fresh
    let s := countReq s l.ctx l.page core true
    s.updMM (fun m => { m with dirItems := NMap.insert m.dirItems id { core := core, line := line, words := ws, evicted := true } })

/-- Words of a line leave an L1, all or those of a list: dirty ones are written back, registered, and given up (R120, R122, R296). -/
def giveBack (s : State) (core line : Nat) (only : Option (List Nat)) : State :=
  let s := if held s line then queueWords s core line only else flushWords s core line only
  let gone := fun (i : Nat) => only.all (fun o => o.contains i)
  let s := s.updMM (fun m => { m with llc := m.llc.upd line (fun l => { l with owners := l.owners.filter (fun o => !(o.2 = core && gone o.1)) }) })
  setL1 s core line (fun l => { l with words := l.words.filter (fun w => !gone w.1), lost := l.lost.filter (fun i => !gone i) })

/-- The L1 evicts a line (R120). -/
def l1Evict (s : State) (core line : Nat) : State := giveBack s core line none

/-- The line that a full set gives up: lowest rank, then least recently used (R135). -/
def l1Victim : List (Nat × L1Line) → Option (Nat × L1Line)
  | [] => none
  | a :: l =>
    match l1Victim l with
    | none => some a
    | some b => if b.2.rank < a.2.rank ∨ (b.2.rank = a.2.rank ∧ b.2.used < a.2.used) then some b else some a

/-- Make room for a line in a core's L1 (R135). -/
def l1Room (s : State) (core line : Nat) : State :=
  match s.mm.l1.find (l1Key core line) with
  | some _ => s
  | none =>
    let same := s.mm.l1.filter (fun c => c.1 / 2 ^ 41 = core ∧ c.1 % 2 ^ 41 % 512 = line % 512)
    if 12 ≤ same.length then
      match l1Victim same with
      | some v => l1Evict s core (v.1 % 2 ^ 41)
      | none => s
    else s

/-- Rank that a hint gives a line (R135, R136). -/
def rankOf (hint : Nat) : Nat := if hint = 1 ∨ hint = 3 then 0 else if hint = 2 then 2 else 1

/-- A use of a line: it becomes the most recently used and takes the rank of its hint, that of a default access being 1 on a hit too
(R136; DESIGN CHOICE, log entry 20). -/
def l1Touch (s : State) (core line rank ctx page : Nat) : State :=
  let t := s.mm.l1Clock + 1
  let s := s.updMM (fun m => { m with l1Clock := t })
  setL1 s core line (fun l => { l with used := t, rank := rank, ctx := ctx, page := page })

/-- Words of this core that an eviction has sent on wait at the directory: its own accesses to them follow (R122, R158). -/
def evictWaits (s : State) (core line i : Nat) : Bool :=
  s.mm.dirItems.any (fun d => d.2.evicted && d.2.core = core && d.2.line = line && d.2.words.any (fun w => w.i = i))

/-- Index of the other word of a word's 8-byte unit. -/
def pairWord (i : Nat) : Nat := if i % 2 = 0 then i + 1 else i - 1

/-- Fill the words of a line that are not valid from the LLC (R136). The other word of an 8-byte unit, if it is neither owned nor
dirty, comes with it, so that no access sees half of a store (R156). -/
def l1Fill (s : State) (core line rank ctx page : Nat) : State :=
  let s := llcEnsure (countReq s ctx page core false) line
  let s := l1Room s core line
  let bad := (List.range 2).filter (fun g => llcPoisoned s (line * 128 + g * 64))
  let fromMem := fun (i : Nat) => BitVec.ofNat 32 (memNat s (line * 128 + i * 4) 4)
  let s := setL1 s core line (fun l => { l with
    words := (List.range 32).foldl (fun ws i =>
      match NMap.find l.words i with
      | some w => if w.owned || w.dirty || (NMap.find l.words (pairWord i)).isSome then ws else NMap.insert ws i { w with val := fromMem i }
      | none => if evictWaits s core line i then ws else NMap.insert ws i { val := fromMem i }) l.words
    poison := (l.poison ++ bad).eraseDups })
  l1Touch s core line rank ctx page

/-- The word of a line valid in a core's L1. -/
def l1Word (s : State) (core pa : Nat) : Option L1Word := (l1Line s core (pa / 128)).words.find (pa % 128 / 4)

/-- Whether an access that must read this word reaches a held line: the word is not valid in the L1. -/
def mustWait (s : State) (core pa : Nat) : Bool :=
  (l1Word s core pa).isNone && (held s (pa / 128) || evictWaits s core (pa / 128) (pa % 128 / 4))

/-- The words that an access reads are valid in the core's L1. -/
def l1Has (s : State) (core pa n : Nat) : Bool :=
  (List.range ((n + 3) / 4)).all (fun i => (l1Word s core (pa + 4 * i)).isSome)

/-- A load of 64 bits or more that does not fill finds a unit of which one word is valid, clean and unowned and the other not: it reads
both from the LLC (R136, R156). -/
def dropHalves (s : State) (core pa n : Nat) : State :=
  if n < 8 then s
  else
    setL1 s core (pa / 128) (fun l => { l with words := l.words.filter (fun w =>
      w.2.owned || w.2.dirty || (NMap.find l.words (pairWord w.1)).isSome || !(decide (pa % 128 / 4 ≤ w.1) && decide (w.1 < pa % 128 / 4 + n / 4))) })

/-- The byte at an address as a plain load on a core reads it now: its L1, else the LLC (R136). -/
def coreByte (s : State) (core pa : Nat) : Byte :=
  match l1Word s core pa with
  | some w => BitVec.ofNat 8 (w.val.toNat / 256 ^ (pa % 4))
  | none => memByte s pa

/-- Whether a load on a core meets poison there (R117). -/
def corePoisoned (s : State) (core pa : Nat) : Bool :=
  match l1Word s core pa with
  | some _ => (l1Line s core (pa / 128)).poison.contains (pa % 128 / 64)
  | none => llcPoisoned s pa

/-- Put a byte into a word. -/
def putByte (w : Word) (k : Nat) (b : Byte) : Word :=
  BitVec.ofNat 32 (w.toNat - w.toNat / 256 ^ k % 256 * 256 ^ k + b.toNat * 256 ^ k)

/-- Perform a store to one word in a core's L1 (R120, R136, R154): `bytes` are (place in the word, value, storing thread). A
word that is not valid and not stored whole is first filled from the LLC; the word becomes dirty. A granule poisoned there is
poisoned in the L1 until all its bytes have been stored (R117). -/
def l1StoreWord (s : State) (core ctx page rank wa : Nat) (bytes : List (Nat × Byte × Nat)) : State :=
  let line := wa / 32
  let i := wa % 32
  let whole := (List.range 4).all (fun k => bytes.any (fun b => b.1 = k))
  let mask := (List.range 4).foldl (fun m k => if bytes.any (fun b => b.1 = k) then m ||| 2 ^ k else m) 0
  let s := l1Room s core line
  let s :=
    match l1Word s core (wa * 4) with
    | some _ => s
    | none =>
      let s := if whole then s else llcEnsure (countReq s ctx page core false) line
      let old := if whole then 0 else BitVec.ofNat 32 (memNat s (wa * 4) 4)
      let bad := llcPoisoned s (wa * 4) && !(l1Line s core line).words.any (fun w => w.1 / 16 = i / 16)
      setL1 s core line (fun l => { l with
        words := NMap.insert l.words i { val := old }
        poison := if bad then (i / 16 :: l.poison).eraseDups else l.poison })
  let s := setL1 s core line (fun l =>
    let ws := l.words.upd i (fun w => { w with
      val := bytes.foldl (fun v b => putByte v b.1 b.2.1) w.val, dirty := true, same := false, mask := w.mask ||| mask,
      writers := (bytes.map (·.2.2) ++ w.writers).eraseDups })
    let (p, f) := settlePoison l.poison (if l.poison.contains (i / 16) then maskBytes i mask ++ l.fresh else l.fresh)
    { l with words := ws, poison := p, fresh := f.eraseDups, lost := if whole then l.lost.filter (fun k => k != i) else l.lost })
  l1Touch s core line rank ctx page

/-- A drop reaches a core (R120): each word loses owned, and loses valid unless it is dirty. -/
def applyDrop (s : State) (d : DropItem) : State :=
  setL1 s d.core d.line (fun l => { l with words :=
    (l.words.filter (fun w => !(d.words.contains w.1 && !w.2.dirty))).map (fun w =>
      if d.words.contains w.1 then (w.1, { w.2 with owned := false }) else w) })

/-- A core receives the drops that are on their way to it, of one line or of all (R120, R341). -/
def receiveDrops (s : State) (core : Nat) (line : Option Nat) : State :=
  (s.mm.drops.filter (fun d => d.2.core = core && line.all (fun l => d.2.line = l))).foldl (fun s d =>
    applyDrop (s.updMM (fun m => { m with drops := m.drops.erase d.1 })) d.2) s

/-- The acquire of R120 on a core's L1: the drops sent to it so far are received, so that what was registered before is seen by every
later load (R341, R343); then every valid word neither owned nor dirty loses valid. -/
def acquireL1 (s : State) (core : Nat) : State :=
  (receiveDrops s core none).updMM (fun m => { m with l1 := m.l1.filterMap (fun c =>
    if c.1 / 2 ^ 41 = core then
      let ws := c.2.words.filter (fun w => w.2.owned || w.2.dirty)
      if ws = [] then none else some (c.1, { c.2 with words := ws })
    else some c) })

/-- Send a line's dirty words to the directory (R120, R157). The words stay dirty until the acknowledgement. -/
def sendLine (s : State) (core line : Nat) (only : Option (List Nat)) (work : Option Nat) : List Nat × State :=
  let l := l1Line s core line
  let ws := dirtyWords l only
  if ws = [] then ([], s)
  else
    let (id, s) := s.fresh
    let s := countReq s l.ctx l.page core true
    let item : DirItem := { core := core, line := line, words := ws, work := work }
    let s := s.updMM (fun m => { m with dirItems := NMap.insert m.dirItems id item })
    ([id], setL1 s core line (fun l => { l with words := l.words.map (fun w =>
      if ws.any (fun x => x.i = w.1) then (w.1, { w.2 with sent := id :: w.2.sent, same := true }) else w) }))

/-- Send every dirty word of a core's L1 (R120). Answers the items to await, those that evictions have sent before among them. -/
def sendAll (s : State) (core : Nat) : List Nat × State :=
  let lines := (s.mm.l1.filter (fun c => c.1 / 2 ^ 41 = core)).map (fun c => c.1 % 2 ^ 41)
  let before := (s.mm.dirItems.filter (fun d => d.2.evicted && d.2.core = core)).map (·.1)
  lines.foldl (fun (acc : List Nat × State) line =>
    let (ids, s) := sendLine acc.2 core line none none
    (acc.1 ++ ids, s)) (before, s)

/-- Some L1 holds a dirty word of a line. -/
def lineDirty (s : State) (line : Nat) : Bool := s.mm.l1.any (fun c => c.1 % 2 ^ 41 = line && c.2.words.any (fun w => w.2.dirty))

/-- A claim of a line, of an engine or of the part, has to wait: a claim before it holds the line, and an L1 has words of it to
register first (R122). -/
def claimWaits (s : State) (line : Nat) : Bool := held s line && lineDirty s line

/-- Prepare a line for an engine or for the part (R122): dirty words of every L1 are registered, every L1 that holds the line has
received a drop for all of it before the claim is acknowledged (R346), and no core owns a word of it. -/
def takeLine (s : State) (line : Nat) : State :=
  let s := llcEnsure s line
  let cores := (s.mm.l1.filter (fun c => c.1 % 2 ^ 41 = line)).map (fun c => c.1 / 2 ^ 41)
  let s := cores.foldl (fun s c => flushLine s c line) s
  let s := cores.foldl (fun s c => applyDrop s { core := c, line := line, words := List.range 32 }) s
  s.updMM (fun m => { m with llc := m.llc.upd line (fun l => { l with owners := [], dirty := true }) })

/-- Write bytes as an engine does (R117, R122): a granule written whole at once loses its poison, in HBM too; one written in parts when
the last of its bytes is. -/
def engWrite (s : State) (pa : Nat) (l : List Byte) : State :=
  let addrs := (List.range l.length).map (fun i => pa + i)
  let lines := (addrs.map (fun a => a / 128)).eraseDups
  let s := lines.foldl (fun s n => llcEnsure s n) s
  let s := setMemBytes s pa l
  let whole := ((addrs.map (fun a => a / 64)).eraseDups).filter (fun g => decide (pa ≤ g * 64) && decide (g * 64 + 64 ≤ pa + l.length))
  s.updMM (fun m => { m with
    hbmPoison := m.hbmPoison.filter (fun g => !whole.contains g)
    llc := lines.foldl (fun c n => c.upd n (fun l => if l.poison = [] then l
      else { l.overwrite ((addrs.filter (fun a => a / 128 = n)).map (fun a => a % 128)) with dirty := l.dirty })) m.llc })

/-- Dirty words of a core that cannot be registered now: an engine holds their line, or they wait at the directory after an eviction
(R122). -/
def dirtyHeld (s : State) (core : Nat) : Bool :=
  s.mm.l1.any (fun c => c.1 / 2 ^ 41 = core && held s (c.1 % 2 ^ 41) && c.2.words.any (fun w => w.2.dirty)) ||
  s.mm.dirItems.any (fun d => d.2.evicted && d.2.core = core)

/-- Every dirty word of a core's L1 is registered. -/
def flushCore (s : State) (core : Nat) : State :=
  ((s.mm.l1.filter (fun c => c.1 / 2 ^ 41 = core && c.2.words.any (fun w => w.2.dirty))).map (fun c => c.1 % 2 ^ 41)).foldl
    (fun s line => flushLine s core line) s

/-- Lines that a range of bytes touches. -/
def linesOf (pa n : Nat) : List Nat := ((List.range n).map (fun i => (pa + i) / 128)).eraseDups

/-- A write that the part makes on its own behalf (R122): claim, write, release in one. -/
def partWrite (s : State) (pa : Nat) (l : List Byte) : State :=
  engWrite ((linesOf pa l.length).foldl (fun s n => takeLine s n) s) pa l

end Sys2Proof.Machine
end

