-- ==== Sys2Proof/Machine/Xlate.lean ====
section
/-!
DEFINITION. Address translation (chapter 04): table entries, the walk through every stage, the checks on frames (R428 to
R432, R476), the caches of translations, and TLBI.
-/
namespace Sys2Proof.Machine

def State.updXL (s : State) (f : XlSt → XlSt) : State := { s with xl := f s.xl }
def State.ctx (s : State) (id : Nat) : Ctx := (s.cx.ctxs.find id).getD {}
def State.updCtx (s : State) (id : Nat) (f : Ctx → Ctx) : State :=
  { s with cx := { s.cx with ctxs := s.cx.ctxs.upd id f } }
/-- A live context (R403): one that is listed and not removed. -/
def State.liveCtx (s : State) (id : Nat) : Bool := ((s.cx.ctxs.find id).map (fun c => !c.gone)).getD false

/-- A context and its ancestors, the root last. -/
def ctxChain (s : State) : Nat → Nat → List (Nat × Ctx)
  | 0, id => [(id, s.ctx id)]
  | fuel + 1, id => if id = 0 then [(0, s.ctx 0)] else (id, s.ctx id) :: ctxChain s fuel (s.ctx id).parent

/-- `a` is `b` or one of its ancestors (R3). -/
def isAncestor (s : State) (a b : Nat) : Bool := ((ctxChain s 3 b).map (·.1)).contains a

/-- PATH (R107): 16-bit ids from level 0 up, 0xFFFF beyond the context's level. -/
def pathOf (s : State) (id : Nat) : Nat :=
  let ids := ((ctxChain s 3 id).map (·.1)).reverse
  (List.range 4).foldl (fun acc i => acc + ids.getD i 0xFFFF * 2 ^ (16 * i)) 0

/-- End of the frames assignable to contexts (R93). -/
def hbmTop : Nat := 0x008C00000000

/-- What a table entry says (R95, R96): invalid, ill formed, a table, or a leaf (TYPE, log2 size, ATTR, W, X, FRAME, KEY). -/
inductive Ent where
  | invalid
  | bad
  | table (addr : Nat)
  | leaf (ty size attr : Nat) (w x : Bool) (frame key : Nat)
deriving DecidableEq, Repr

/-- Decode an entry found at a level of a stage (R93, R95, R96, R97, R123, R315). KEY of an ENC or ENCI leaf counts as used at every
stage, though only stage 0's is taken (R95, R100; DESIGN CHOICE, log entry 21). -/
def entOf (stage level e : Nat) : Ent :=
  let ty := e / 2 % 8
  let sz := e / 16 % 4
  let attr := e / 64 % 4
  let w := e / 256 % 2 = 1
  let x := e / 512 % 2 = 1
  let frame := e / 2 ^ 16 % 2 ^ 32
  let key := e / 2 ^ 48 % 2 ^ 8
  if e % 2 = 0 ∨ ty = 0 then .invalid
  else if ty = 7 ∨ e / 2 ^ 12 % 16 ≠ 0 ∨ e / 2 ^ 56 ≠ 0 then .bad
  else if ty = 1 then
    if level = 0 ∨ e % 2 ^ 16 ≠ 3 ∨ e / 2 ^ 48 ≠ 0 then .bad
    else if stage = 0 ∧ hbmTop ≤ frame * 2 ^ 16 then .bad
    else .table (frame * 2 ^ 16)
  else if level = 2 then .bad
  else if (level = 1 ∧ sz ≠ 2) ∨ (level = 0 ∧ sz ≠ 0 ∧ sz ≠ 1) then .bad
  else if attr = 3 ∨ (sz = 1 ∧ frame % 32 ≠ 0) ∨ (sz = 2 ∧ frame % 2 ^ 13 ≠ 0) then .bad
  else if stage ≠ 0 ∧ ty ≠ 2 then .bad
  else
    let size := if sz = 0 then 16 else if sz = 1 then 21 else 29
    let pa := frame * 2 ^ 16
    let ok : Bool :=
      match ty with
      | 2 => (stage ≠ 0 || decide (pa < hbmTop)) && (attr ≠ 0 || key = 0)
      | 3 => decide (pa < hbmTop) && key = 0 && sz = 0
      | 4 => w && !x && attr = 0 && decide (sz ≤ 1)
      | 5 => decide (pa < hbmTop)
      | _ => decide (0xFF0000000000 ≤ pa) && decide (pa < 0xFF0300000000) && key = 0
    if ok then .leaf ty size attr w x frame key else .bad

/-- What a walk gathers: table entries read, leaf entries of the translation being composed, stage addresses used. -/
structure WAcc where
  s : State
  die : Nat
  walker : Nat := 0
  reads : List WcEnt := []
  leaves : List Nat := []
  used : List (Nat × Nat × Nat) := []

/-- OR bits into a table entry at device scope (R98). -/
def orEntry (s : State) (pa bits : Nat) : State :=
  let old := memNat s pa 8
  let new := old ||| bits
  if new = old then s
  else
    let line := pa / 128
    let s := llcEnsure s line
    let i := pa % 128 / 4
    let s := match (s.mm.llc.find line).bind (fun l => l.owners.find i) with
      | some c => sendDrop s c line [i]
      | none => s
    let s := setMemBytes s pa (bytesOfNat 8 new)
    s.updMM (fun m => { m with llc := m.llc.upd line (fun l => { l with owners := l.owners.erase i, dirty := true }) })

/-- A, and D for a write (R98). -/
def usedBits (write : Bool) : Nat := if write then 0xC00 else 0x400
/-- Set them in the leaves of a formed translation (R98). -/
def markLeaves (s : State) (leaves : List Nat) (write : Bool) : State :=
  leaves.foldl (fun s pa => orEntry s pa (usedBits write)) s
/-- One of the leaves would change in a line that an engine holds: the update waits (R98, R122). -/
def markWaits (s : State) (leaves : List Nat) (write : Bool) : Bool :=
  leaves.any (fun pa => held s (pa / 128) && memNat s pa 8 ||| usedBits write != memNat s pa 8)

def AccKind.isWrite : AccKind → Bool
  | .write | .atomic | .engWrite | .arrive => true
  | .read | .fetch | .engRead => false

/-- Read the entry at `ea` of a stage's tables: translated through the stages below, then read from the LLC; an older value
that the walker's cache holds may be used instead (R99, R113; FREE VALUE, log entry 5). A stage-0 leaf of a window type gives its
output as any other does (DESIGN CHOICE, log entry 22). -/
def readEntry (tr : AccKind → Nat → WAcc → XRes × WAcc) (id stage level addr ea : Nat) (acc : WAcc) :
    Except XRes (Nat × Nat) × WAcc :=
  match tr .read ea { acc with leaves := [] } with
  | (.ok x, sub) =>
    let s := llcEnsure (markLeaves sub.s sub.leaves false) (x.pa / 128)
    let waits := markWaits sub.s sub.leaves false
    let acc := { sub with s := s, leaves := acc.leaves }
    if waits then (.error .busy, acc)
    else if llcPoisoned s x.pa then
      (.error (.fail { stage := stage, level := level, addr := addr, eaddr := ea, poison := true }), acc)
    else
      let now := memNat s x.pa 8
      let kept := (s.xl.wc.filter (fun c => c.die = acc.die ∧ c.walker = acc.walker ∧ c.ctx = id ∧ c.pa = x.pa ∧ c.val ≠ now)).map (·.val)
      let (k, s) := if kept = [] then (0, s) else s.pick (kept.length + 1)
      let val := (now :: kept).getD k now
      let entry : WcEnt := { die := acc.die, walker := acc.walker, ctx := id, addr := addr, level := level, pa := x.pa, val := val }
      (.ok (val, x.pa), { acc with s := s, reads := entry :: acc.reads })
  | (r, sub) => (.error r, { sub with leaves := acc.leaves })

/-- R124: the fields of a far record that ENTRY_FORMAT checks. -/
def farRecordOk (s : State) (rec_ : Nat) : Bool :=
  let b := fun (i : Nat) => (memByte s (rec_ + i)).toNat
  decide (b 0x0A < 16) && decide (b 0x0B ≤ 4) && b 0x0D = 0 && (List.range 8).all (fun i => b (0x18 + i) = 0) &&
  (List.range 16).all (fun i => b (0x30 + i) = 0)

/-- What a leaf gives a translation (R93 to R100): its type, size, attributes and permissions, its output and entry. -/
def useLeaf (tr : AccKind → Nat → WAcc → XRes × WAcc) (id stage level addr ea epa : Nat) (kind : AccKind)
    (ty size attr : Nat) (w x : Bool) (frame key : Nat) (acc : WAcc) : XRes × WAcc :=
  if (kind.isWrite && kind != .arrive && !w) || (kind = .fetch && !x) then
    (.fail { stage := stage, level := level, addr := addr, eaddr := ea, perm := true }, acc)
  else if ty = 3 then
    let rec_ := frame * 2 ^ 16 + 64 * (addr / 2 ^ 16 % 1024)
    let f : XFail := { stage := stage, level := level, addr := addr, eaddr := ea }
    if !farRecordOk acc.s rec_ then (.fail { f with format := true }, acc)
    else if (memByte acc.s (rec_ + 0x0B)).toNat = 4 then (.fail { f with code := 0x1A }, acc)
    else (.far epa rec_, acc)
  else
    let out := frame * 2 ^ 16 + addr % 2 ^ size
    let acc := { acc with leaves := epa :: acc.leaves, used := (id, addr, size) :: acc.used }
    if stage = 0 then
      let st := (acc.s.frame (out / 2 ^ 16)).state
      let onFrame := ty = 2 ∨ ty = 5
      if onFrame ∧ (st = 1 ∨ st = 3) then (.fail { stage := 0, level := level, addr := addr, eaddr := ea, code := 0x12 }, acc)
      else
        let lt : LeafTy := match ty with | 4 => .txWin | 5 => .rxWin | 6 => .onChip | _ => .page
        (.ok { pa := out, w := w, x := x, ty := lt, key := key, attr := attr, size := size }, acc)
    else
      match tr kind out acc with
      | (.ok t, acc) =>
        if attr ≠ 0 ∧ attr ≠ t.attr then (.fail { stage := stage, level := level, addr := addr, eaddr := ea, code := 0x16 }, acc)
        else (.ok { t with w := t.w && w, x := t.x && x, size := min t.size size }, acc)
      | r => r

/-- Walk the tables of one stage, the stages below standing in `tr` (R94, R95, R103, R469). -/
def stageWalk (tr : AccKind → Nat → WAcc → XRes × WAcc) (id stage xroot : Nat) (kind : AccKind) (addr : Nat) (acc : WAcc) :
    XRes × WAcc :=
  let bad := fun (level ea : Nat) (fmt : Bool) =>
    XRes.fail { stage := stage, level := level, addr := addr, eaddr := ea, format := fmt }
  let t2 := xroot / 2 ^ 16 % 2 ^ 32 * 2 ^ 16
  if xroot % 2 = 0 then (bad 3 0 false, acc)
  else if stage = 0 ∧ hbmTop ≤ t2 then (bad 3 0 true, acc)
  else
    let e2 := t2 + 8 * (addr / 2 ^ 42 % 2 ^ 13)
    match readEntry tr id stage 2 addr e2 acc with
    | (.error r, acc) => (r, acc)
    | (.ok (v2, _), acc) =>
      match entOf stage 2 v2 with
      | .invalid => (bad 2 e2 false, acc)
      | .bad | .leaf .. => (bad 2 e2 true, acc)
      | .table t1 =>
        let e1 := t1 + 8 * (addr / 2 ^ 29 % 2 ^ 13)
        match readEntry tr id stage 1 addr e1 acc with
        | (.error r, acc) => (r, acc)
        | (.ok (v1, p1), acc) =>
          match entOf stage 1 v1 with
          | .invalid => (bad 1 e1 false, acc)
          | .bad => (bad 1 e1 true, acc)
          | .leaf ty size attr w x frame key => useLeaf tr id stage 1 addr e1 p1 kind ty size attr w x frame key acc
          | .table t0 =>
            let e0 := t0 + 8 * (addr / 2 ^ 16 % 2 ^ 13)
            match readEntry tr id stage 0 addr e0 acc with
            | (.error r, acc) => (r, acc)
            | (.ok (v0, p0), acc) =>
              match entOf stage 0 v0 with
              | .invalid => (bad 0 e0 false, acc)
              | .bad | .table _ => (bad 0 e0 true, acc)
              | .leaf ty size attr w x frame key => useLeaf tr id stage 0 addr e0 p0 kind ty size attr w x frame key acc

/-- Translate an address of the first context's space through its stage and every ancestor's (R99). -/
def walkChain : List (Nat × Ctx) → AccKind → Nat → WAcc → XRes × WAcc
  | [], _, addr, acc => (.ok { pa := addr, w := true, x := true, size := 64 }, acc)
  | (id, c) :: rest, kind, addr, acc => stageWalk (walkChain rest) id rest.length c.xroot kind addr acc

/-- Bytes of metadata of an ENCI slot that covers `n` frames (R432): 8 KiB of MACs a frame, then the counter tree. -/
def treeBytes : Nat → Nat → Nat
  | 0, _ => 0
  | fuel + 1, n => if n ≤ 1 then 0 else 8 * n + treeBytes fuel ((n + 7) / 8)
def metadataFrame (s : State) (frame : Nat) : Bool :=
  s.pt.mkeys.any (fun k => k.2.loaded && k.2.enci && decide (0 < k.2.fcount) &&
    decide (k.2.mdbase ≤ frame * 2 ^ 16 + 65535) &&
    decide (frame * 2 ^ 16 < k.2.mdbase + 8192 * k.2.fcount + 8 * k.2.fcount + treeBytes 32 ((k.2.fcount + 7) / 8)))

/-- Byte `i` of a window-map entry (R316). -/
def wmByte (s : State) (entry i : Nat) : Nat := ((((s.fb.wmap.find entry).getD []).getD i 0 : Byte)).toNat
def wmField (s : State) (entry i n : Nat) : Nat :=
  (List.range n).foldl (fun acc j => acc + wmByte s entry (i + j) * 256 ^ j) 0

/-- Memory key slot of a translation: the leaf's KEY, or MKEY of the port entry of an RX window (R315, R430). -/
def keySlotOf (s : State) (t : Xl) : Nat := if t.ty = .rxWin then wmByte s t.key 0x0A else t.key

/-- The frame checks of a composed translation, in order (R476): the fault code, or none and the frame then bound (R431). -/
def frameCheck (s : State) (ctx : Nat) (t : Xl) : Option Nat × State :=
  if t.ty = .txWin ∨ t.ty = .onChip then (none, s)
  else
    let fr := t.pa / 2 ^ 16
    let f := s.frame fr
    let slot := keySlotOf s t
    let key := NMap.get {} s.pt.mkeys slot
    let k := if t.attr = 0 then 0 else slot
    if f.state = 1 ∨ f.state = 3 then (some 0x12, s)
    else if f.wt ≠ 0 ∧ f.wt ≠ (s.ctx ctx).world then (some 0x1B, s)
    else if t.attr ≠ 0 ∧ (!key.loaded ∨ (t.attr = 2 ∧ !key.enci)) then (some 0x16, s)
    else if t.attr = 2 ∧ ¬ (key.fbase ≤ fr ∧ fr < key.fbase + key.fcount) then (some 0x14, s)
    else if metadataFrame s fr then (some 0x16, s)
    else if f.bound then (if f.attr = t.attr ∧ f.key = k then none else some 0x16, s)
    else (none, s.updFrame fr (fun f => { f with bound := true, attr := t.attr, key := k }))

/-- Note a write's page for every dirty-page log on its path that has not logged it in the round (R424). -/
def noteDirty (s : State) (ctx : Nat) (used : List (Nat × Nat × Nat)) : State :=
  (ctxChain s 3 ctx).foldl (fun s c =>
    match c.2.dlog with
    | none => s
    | some d =>
      match used.find? (fun u => u.1 = d.issuer) with
      | none => s
      | some u =>
        let page := u.2.1 / 2 ^ 16 * 2 ^ 16
        if d.pages.contains page then s
        else
          let s := s.updCtx c.1 (fun x => { x with dlog := some { d with pages := page :: d.pages } })
          s.updXL (fun x => { x with logged := x.logged ++ [(c.1, page)] })) s

/-- The context whose stage k an address of context `ctx` goes through (R99). -/
def stageCtx (s : State) (ctx k : Nat) : Nat := ((ctxChain s 3 ctx).reverse.map (·.1)).getD k 0

/-- The table entries a walk that ended in this way may leave in its walker's cache (R397): all but the failing one, and no far
page leaf (R123). -/
def keptReads (s : State) (ctx : Nat) (r : XRes) (reads : List WcEnt) : List WcEnt :=
  match r with
  | .ok _ => reads
  | .fail f => reads.filter (fun e => !(e.ctx = stageCtx s ctx f.stage && e.addr = f.addr && e.level = f.level))
  | .far leaf _ => reads.filter (fun e => e.pa != leaf)
  | .busy => []

/-- A completed or failed walk, and the state after it: leaves marked, the walker's cache filled (R98, R101, R397). A walk that waits
at a held line changes nothing. -/
def runWalk (s : State) (walker core ctx va : Nat) (kind : AccKind) : XRes × State :=
  match walkChain (ctxChain s 3 ctx) kind va { s := s, die := dieOf core, walker := walker } with
  | (.ok t, acc) =>
    if markWaits acc.s acc.leaves kind.isWrite then (.busy, s)
    else
      match frameCheck acc.s ctx t with
      | (some code, s) => (.fail { stage := (s.ctx ctx).level, addr := va, code := code }, s)
      | (none, s) =>
        let s := markLeaves s acc.leaves kind.isWrite
        let s := s.updXL (fun x => { x with wc := (acc.reads ++ x.wc).eraseDups })
        let s := if kind.isWrite then noteDirty s ctx acc.used else s
        (.ok { t with w := t.w && kind.isWrite, used := acc.used }, s)
  | (.busy, _) => (.busy, s)
  | (r, acc) =>
    let (b, s) := acc.s.coin
    (r, if b then s.updXL (fun x => { x with wc := (keptReads s ctx r acc.reads ++ x.wc).eraseDups }) else s)

/-- Whether a cached translation serves an access kind: a write needs the permission that only a write's walk forms (R98). -/
def serves (t : Xl) (kind : AccKind) : Bool :=
  (!kind.isWrite || t.w) && (kind != .fetch || t.x)

/-- Two 64 KiB pages lie in one page of a size. -/
def samePage (size p q : Nat) : Bool := p / 2 ^ (size - 16) = q / 2 ^ (size - 16)

/-- What an entry gives for a 64 KiB page of the page it holds (R97, R100). -/
def TlbEnt.on (e : TlbEnt) (page : Nat) : Xl := { e.xl with pa := e.xl.pa + page * 2 ^ 16 - e.page * 2 ^ 16 }

/-- An entry serves an access to a page: it holds the page, with the permission, and, where the walk that formed it was of another
64 KiB of a larger page, the frame stands bound as the checks of R476 ask (else the page is walked; DESIGN CHOICE, log entry 31). -/
def TlbEnt.hits (s : State) (e : TlbEnt) (ctx page : Nat) (kind : AccKind) : Bool :=
  e.ctx = ctx && samePage e.xl.size e.page page && serves e.xl kind &&
  (e.page = page || ((frameCheck s ctx (e.on page)).1.isNone &&
    (e.xl.ty = .txWin || e.xl.ty = .onChip || (s.frame ((e.on page).pa / 2 ^ 16)).bound)))

/-- The composed translation that the caches of a core hold for a page: the micro-TLB's, else the cove TLB's, else the strata cache's
(R101); of a 2 MiB page, that of any entry of the run that was walked (R97). -/
def tlbFind (s : State) (core ctx page : Nat) (kind : AccKind) : Option Xl :=
  let look := fun (place unit : Nat) => (s.xl.tlb.find? (fun e => e.place = place && e.unit = unit && e.hits s ctx page kind)).map (fun e => e.on page)
  (look 0 core).or ((look 1 (coveOf core)).or (look 2 (dieOf core)))

/-- Put a translation into one cache, under its tag of context, page and size; a full one gives up an entry the part chooses (R101;
FREE VALUE, log entry 5). -/
def tlbPut (s : State) (place unit cap ctx page : Nat) (t : Xl) : State :=
  let rest := s.xl.tlb.filter (fun e =>
    !(e.place = place && e.unit = unit && e.ctx = ctx && e.xl.size = t.size && samePage t.size e.page page))
  let same := rest.filter (fun e => e.place = place ∧ e.unit = unit)
  let new : TlbEnt := { place := place, unit := unit, ctx := ctx, page := page, xl := t }
  if cap ≤ same.length then
    let (i, s) := s.pick same.length
    s.updXL (fun x => { x with tlb := new :: rest.filter (fun e => some e ≠ same[i]?) })
  else s.updXL (fun x => { x with tlb := new :: rest })

/-- A completed walk fills one entry in each of three places (R470). -/
def tlbFill (s : State) (core ctx page : Nat) (t : Xl) : State :=
  let s := tlbPut s 2 (dieOf core) 32768 ctx page t
  let s := tlbPut s 1 (coveOf core) 4096 ctx page t
  tlbPut s 0 core 256 ctx page t

/-- A composed translation of the page that holds `va`, at its base. -/
def pageBase (t : Xl) (va : Nat) : Xl := { t with pa := t.pa - va % 2 ^ 16 }

/-- Translate at once, as engines and the part do (R109, R478): from the caches, or by a walk of one of the die's walkers. The result
is for `va`. -/
def xlateNow (s : State) (core ctx va : Nat) (kind : AccKind) : XRes × State :=
  match tlbFind s core ctx (va / 2 ^ 16) kind with
  | some t => (.ok { t with pa := t.pa + va % 2 ^ 16 }, s)
  | none =>
    let (walker, s) := s.pick 64
    match runWalk s walker core ctx va kind with
    | (.ok t, s) => (.ok t, tlbFill s core ctx (va / 2 ^ 16) (pageBase t va))
    | r => r

/-- Cove queues and walkers (R102): the walks of a die that wait, and those a walker has taken. -/
def waitingWalks (s : State) (cove : Nat) : List (Nat × Walk) := s.xl.walks.filter (fun k => k.2.walker.isNone && coveOf k.2.core = cove)
def takenWalks (s : State) (die : Nat) : List (Nat × Walk) := s.xl.walks.filter (fun k => k.2.walker.isSome && dieOf k.2.core = die)

/-- A free walker of the die takes the oldest walk of the next cove, in round-robin order, among the coves whose queue holds one of a
context with fewer than 16 walkers of the die (R102). Walks are listed oldest first. -/
def takeWalk (s : State) (die : Nat) : Option State :=
  let taken := takenWalks s die
  match (List.range 64).find? (fun w => !taken.any (fun k => k.2.walker = some w)) with
  | none => none
  | some w =>
    let last := NMap.get 0 s.xl.lastCove die
    let fit := fun (cove : Nat) => (waitingWalks s cove).find? (fun k => decide ((taken.filter (fun t => t.2.ctx = k.2.ctx)).length < 16))
    match ((List.range 24).map (fun i => die * 24 + (last + 1 + i) % 24)).find? (fun c => (fit c).isSome) with
    | none => none
    | some c => (fit c).map (fun k => s.updXL (fun x => { x with
        walks := x.walks.upd k.1 (fun y => { y with walker := some w }), lastCove := NMap.set 0 x.lastCove die (c % 24) }))

/-- Free walkers take walks while there are both. -/
def takeWalks (s : State) (die : Nat) : Nat → State
  | 0 => s
  | fuel + 1 =>
    match takeWalk s die with
    | some s => takeWalks s die fuel
    | none => s

/-- The fault a failure is in the issuing context's own stage (R103), or of the walk itself. -/
def failCode (f : XFail) : Nat :=
  if f.code ≠ 0 then f.code
  else if f.poison then 0x15 else if f.format then 0x14 else if f.perm then 0x13 else 0x12

/-- A failure that the issuing context's own lanes take as a fault (R103). -/
def ownFailure (s : State) (ctx : Nat) (f : XFail) : Bool := f.code != 0 || f.stage = (s.ctx ctx).level

/-- A translation rests on entries of a target's stage that cover pages of a range (R112). -/
def Xl.restsOn (t : Xl) (target lo hi : Nat) (all : Bool) : Bool :=
  all || t.used.any (fun u => u.1 = target &&
    decide (u.2.1 / 2 ^ u.2.2 * 2 ^ u.2.2 < hi) && decide (lo < u.2.1 / 2 ^ u.2.2 * 2 ^ u.2.2 + 2 ^ u.2.2))

/-- Translations that parked warps' words have kept are dropped: by context and translation. -/
def dropFormed (s : State) (bad : Nat → Xl → Bool) : State :=
  { s with wk := { s.wk with warps := s.wk.warps.map (fun c =>
    (c.1, { c.2 with formed := c.2.formed.filter (fun f => match f.res with | .ok t => !bad (s.group c.2.gi).ctx t | _ => true) })) } }

/-- Translations that TLBI drops (R112): those of contexts below `target` whose walk used a leaf of its stage that covers a
page of the range. -/
def dropXl (s : State) (target lo hi : Nat) (all : Bool) : State :=
  let hit := fun (a size : Nat) => all || (decide (a < hi) && decide (lo < a + 2 ^ size))
  (dropFormed s (fun ctx t => isAncestor s target ctx && t.restsOn target lo hi all)).updXL (fun x => { x with
    tlb := x.tlb.filter (fun e => !(isAncestor s target e.ctx && e.xl.restsOn target lo hi all))
    wc := x.wc.filter (fun c => !(c.ctx = target &&
      hit (c.addr / 2 ^ (16 + 13 * c.level) * 2 ^ (16 + 13 * c.level)) (16 + 13 * c.level))) })

/-- Drop every cached translation of a frame (R428, R444). -/
def dropFrameXl (s : State) (frame : Nat) : State :=
  (dropFormed s (fun _ t => (t.ty = .page || t.ty = .rxWin) && t.pa / 2 ^ 16 = frame)).updXL (fun x => { x with
    tlb := x.tlb.filter (fun e => !((e.xl.ty = .page || e.xl.ty = .rxWin) && samePage e.xl.size (e.xl.pa / 2 ^ 16) frame)) })

/-- A park that has not finished is cancelled: the leaf and the record are as before (R126), but for a leaf that system software has
overwritten meanwhile. -/
def cancelPark (s : State) (p : Nat × ParkOp) : State :=
  let s := takeLine s (p.2.leafPa / 128)
  let mine := match entOf 0 0 (memNat s p.2.leafPa 8) with
    | .leaf 3 _ _ _ _ fr _ => decide (fr = p.2.recPa / 2 ^ 16)
    | _ => false
  let s := if mine then partWrite s p.2.leafPa (bytesOfNat 8 p.2.oldLeaf) else s
  let s := partWrite s (p.2.recPa + 0x0B) [0]
  s.updXL (fun x => { x with parks := x.parks.erase p.1 })

/-- A write that the part makes at these addresses has to wait for an engine's hold (R122). -/
def partWaits (s : State) (pas : List Nat) : Bool := pas.any (fun a => held s (a / 128))

/-- Join a recall in progress of a far page, or start one; a park that has not finished is cancelled, once no engine holds its leaf or
its record (R122, R126, R127). Where the leaf is a far page no longer, there is nothing to recall: the lanes replay. -/
def startRecall (s : State) (ctx leaf rec_ : Nat) : Option Nat × State :=
  match s.xl.parks.find? (fun p => p.2.leafPa = leaf) with
  | some p => (none, if partWaits s [leaf, p.2.recPa] then s else cancelPark s p)
  | none =>
    match s.xl.recalls.find? (fun r => r.2.leafPa = leaf) with
    | some r => (some r.1, s)
    | none =>
      match entOf 0 0 (memNat s leaf 8) with
      | .leaf 3 .. =>
        let (id, s) := s.fresh
        (some id, s.updXL (fun x => { x with recalls := NMap.insert x.recalls id { leafPa := leaf, recPa := rec_, ctx := ctx } }))
      | _ => (none, s)

end Sys2Proof.Machine
end

