-- ==== Sys2Proof/Machine/Rings.lean ====
section
/-!
DEFINITION. Records and rings (R105 to R107, R130 to R132, R390, R391, R429, R478): fault and page-request records, the
part's adds to barrier objects, notifications, and the pump that writes what waits.
-/
namespace Sys2Proof.Machine

def State.updPT (s : State) (f : PartSt → PartSt) : State := { s with pt := f s.pt }
def State.updCX (s : State) (f : CtxSt → CtxSt) : State := { s with cx := f s.cx }
def State.grid (s : State) (id : Nat) : Grid := (s.pt.grids.find id).getD {}

/-- A protected context's record goes to an ancestor of another world with fields zeroed (R429). -/
def veiled (s : State) (about reader : Nat) : Bool :=
  (s.ctx about).world != 0 && (s.ctx about).world != (s.ctx reader).world

/-- The GRID field of a group's records (R391). -/
def gridField (s : State) (gi : Nat) : Nat :=
  let g := s.grid (s.group gi).grid
  g.localQ * 2 ^ 26 + g.number % 2 ^ 26

/-- A fault record's bytes, SEQ and FLAGS[0] still zero (R391). -/
def recordBytes (s : State) (ctx kind core hwarp gid grid lanes fid : Nat) (f : FaultInfo) : List Byte :=
  let veil := veiled s ctx (s.ctx ctx).parent
  let z := fun (x : Nat) => if veil then 0 else x
  bytesOfNat 8 0 ++ bytesOfNat 1 f.code ++ bytesOfNat 1 kind ++ bytesOfNat 1 f.flags ++ bytesOfNat 1 f.opc ++
  bytesOfNat 2 core ++ bytesOfNat 1 hwarp ++ bytesOfNat 1 0 ++ bytesOfNat 8 (pathOf s ctx) ++
  bytesOfNat 8 (z f.pc.toNat) ++ bytesOfNat 4 lanes ++ bytesOfNat 4 fid ++ bytesOfNat 4 gid ++
  bytesOfNat 4 grid ++ bytesOfNat 8 (z f.addr.toNat) ++ bytesOfNat 8 (z f.detail.toNat)

/-- The record of a fault of a group's lanes or command (R391). -/
def faultBytes (s : State) (ctx kind core hwarp gi lanes fid : Nat) (f : FaultInfo) : List Byte :=
  recordBytes s ctx kind core hwarp (s.group gi).gid (gridField s gi) lanes fid f

/-- FREE VALUE (log entry 5): a field of `bits` bits to which no rule gives a content. -/
def State.openField (s : State) (bits : Nat) : Nat × State := s.pick (2 ^ bits)

/-- The record of an event, or of a fault that no word raised: its fields that no rule gives a content are open (R391). -/
def partRecord (s : State) (ctx kind : Nat) (f : FaultInfo) (addr : Option Nat) : List Byte × State :=
  let (core, s) := s.openField 16
  let (hw, s) := s.openField 8
  let (gid, s) := s.openField 32
  let (grid, s) := s.openField 32
  let (a, s) := match addr with
    | some a => (a, s)
    | none => s.openField 64
  let (opc, s) := if kind = 2 then (0, s) else s.openField 8
  let (pc, s) := if kind = 2 then (0, s) else s.openField 64
  (recordBytes s ctx kind core hw gid grid 0 0
    { f with opc := opc, pc := BitVec.ofNat 64 pc, addr := BitVec.ofNat 64 a }, s)

/-- Nothing more can be written to the ring now (R106, R390, R478). -/
def Ring.blocked (r : Ring) : Bool :=
  r.stuck || r.reqs != [] || decide (r.seq - r.head ≥ r.size)

/-- Put a record in line for a ring; an event beyond 64 waiting is dropped and counted (R390). -/
def Ring.enqueue (r : Ring) (x : RingRec) : Ring :=
  if x.event && r.blocked && decide (64 ≤ (r.waiting.filter (·.event)).length) then
    { r with lost := min (r.lost + 1) (2 ^ 32 - 1), lostFlag := true }
  else { r with waiting := r.waiting ++ [x] }

/-- Post a record about a context to its parent's handler queue, or to Headland for the root (R4, R390). -/
def postFault (s : State) (ctx : Nat) (event : Bool) (bytes : List Byte) : State :=
  if ctx = 0 then s.updPT (fun p => { p with headland := p.headland ++ [bytes] })
  else s.updCtx (s.ctx ctx).parent (fun c => { c with fq := c.fq.enqueue { event := event, bytes := bytes } })

/-- Post an event that names a context to its parent (R387, R390, R391). -/
def postEvent (s : State) (ctx code : Nat) (addr : Option Nat) (detail : Nat) : State :=
  let (bytes, s) := partRecord s ctx 2 { code := code, detail := BitVec.ofNat 64 detail } addr
  postFault s ctx true bytes

/-- Report a command fault of a group, or a fault that stops no lane (R389, R391). -/
def postCommand (s : State) (ctx core hwarp gi : Nat) (f : FaultInfo) : State :=
  postFault s ctx false (faultBytes s ctx 1 core hwarp gi 0 0 f)

/-- A page-request record's bytes, SEQ still zero (R107). -/
def requestBytes (s : State) (r : PageReq) : List Byte :=
  let reader := ((ctxChain s 3 r.ctx).find? (fun c => c.2.level = r.fail.stage)).map (·.1)
  let veil := veiled s r.ctx (reader.getD 0)
  let kind := match r.kind with | .read => 0 | .write => 1 | .fetch => 2 | .atomic => 3 | .engRead => 4 | .engWrite | .arrive => 5
  let flags := (if r.fail.perm then 1 else 0) + (if r.fail.format then 2 else 0) + (if r.fail.poison then 4 else 0)
  bytesOfNat 8 0 ++ bytesOfNat 8 (r.fail.addr / 2 ^ 16 * 2 ^ 16) ++ bytesOfNat 8 (if veil then 0 else r.origVa) ++
  bytesOfNat 8 (pathOf s r.ctx) ++ bytesOfNat 4 (r.gen * 2 ^ 24 + r.die * 2 ^ 23 + r.slot) ++
  bytesOfNat 1 r.fail.stage ++ bytesOfNat 1 r.fail.level ++ bytesOfNat 1 kind ++ bytesOfNat 1 (min r.lanes 255) ++
  bytesOfNat 2 r.core ++ bytesOfNat 1 flags ++ bytesOfNat 5 0 ++ bytesOfNat 8 r.fail.eaddr ++ bytesOfNat 8 0

/-- The context at the level above a failed stage on a path: the one whose queue takes the request (R103). -/
def queueCtx (s : State) (ctx stage : Nat) : Nat :=
  (((ctxChain s 3 ctx).find? (fun c => c.2.level = stage + 1)).map (·.1)).getD ctx

/-- The pending-table entry that a failure on a die attaches to (R105). -/
def reqFor (s : State) (ctx die : Nat) (f : XFail) : Option Nat :=
  (s.xl.reqs.find? (fun r => decide (r.2.ctx = ctx) && decide (r.2.die = die) && decide (r.2.fail.stage = f.stage) &&
    decide (r.2.fail.addr / 2 ^ 16 = f.addr / 2 ^ 16))).map (·.1)

/-- Free slots of a die's table (R105). -/
def freeSlots (used : List Nat) : List Nat := (List.range 1024).filter (fun i => !used.contains i)

/-- The generation after one (R105): 1 at first use, 255 followed by 1. -/
def nextGen (g : Nat) : Nat := if g = 0 ∨ g = 255 then 1 else g + 1

/-- Attach lanes to a page request, making one where the table has none; none when the table is full (R105). The record
is written once every lane of the instruction is attached (R468, `writeRequests`). -/
def attachReq (s : State) (ctx core va lanes : Nat) (kind : AccKind) (f : XFail) : Option (Nat × Bool) × State :=
  match reqFor s ctx (dieOf core) f with
  | some id => (some (id, false), s.updXL (fun x => { x with reqs := x.reqs.upd id (fun r => { r with lanes := r.lanes + lanes }) }))
  | none =>
    let die := dieOf core
    let used := ((s.xl.reqs.map (·.2)).filter (fun r => r.die = die)).map (·.slot)
    let free := freeSlots used
    if free = [] then (none, s)
    else
      let (i, s) := s.pick free.length
      let slot := free.getD i 0
      let gen := nextGen (NMap.get 0 s.xl.reqGens (die * 1024 + slot))
      let (id, s) := s.fresh
      let r : PageReq := { ctx := ctx, die := die, fail := f, kind := kind, origVa := va, core := core, lanes := lanes,
                           slot := slot, gen := gen }
      (some (id, true), s.updXL (fun x => { x with
        reqs := NMap.insert x.reqs id r, reqGens := NMap.set 0 x.reqGens (die * 1024 + slot) gen }))

/-- Put a new request's record in line; its bytes are formed when it is written (R107, R468). -/
def writeRequest (s : State) (id : Nat) : State :=
  match s.xl.reqs.find id with
  | none => s
  | some r => s.updCtx (queueCtx s r.ctx r.fail.stage) (fun c => { c with prq := c.prq.enqueue { req := some id } })

/-- A record's bytes as it is written: a page request's count every lane attached by then (R107, R468). -/
def recordNow (s : State) (x : RingRec) : List Byte :=
  ((x.req.bind (fun id => s.xl.reqs.find id)).map (requestBytes s)).getD x.bytes

/-- A page request for an engine command or for the part (R109, R478): no lane is attached. The part's own name core 0 and so die 0,
with LANES 0 (R107; DESIGN CHOICE, log entry 24). Answers the request. -/
def engineReq (s : State) (ctx core va : Nat) (kind : AccKind) (f : XFail) : Option Nat × State :=
  match attachReq s ctx core va 0 kind f with
  | (some (id, true), s) => (some id, writeRequest s id)
  | (some (id, false), s) => (some id, s)
  | (none, s) => (none, s)

/-- A leaf that a store of the part can use (R155, R478). -/
def storable (s : State) (t : Xl) : Bool :=
  t.ty = .page || (t.ty = .rxWin && wmByte s t.key 5 % 2 = 1)

/-- How a write of the part comes out (R478): the physical address, a wait, or a fault's code. -/
inductive PartRes where
  | ok (pa : Nat)
  | wait (req : Option Nat)
  | bad (code : Nat)
deriving DecidableEq, Repr

/-- Translate a write of the part for the owner of the address (R478), on core 0's behalf (DESIGN CHOICE, log entry 24). A far page is
recalled (R103). -/
def partXlate (s : State) (ctx va : Nat) : PartRes × State :=
  if 2 ^ 55 ≤ va then (.bad 0x10, s)
  else
    match xlateNow s 0 ctx va .engWrite with
    | (.ok t, s) =>
      if !storable s t then (.bad 0x17, s)
      else if held s (t.pa / 128) then (.wait none, s)
      else (.ok t.pa, s)
    | (.far leaf rec_, s) => (.wait none, (startRecall s ctx leaf rec_).2)
    | (.busy, s) => (.wait none, s)
    | (.fail f, s) =>
      if ownFailure s ctx f then (.bad (failCode f), s)
      else
        let (r, s) := engineReq s ctx 0 va .engWrite f
        (.wait r, s)

/-- An L1 that owns a word writes back its dirty bytes of it, gives it up, and is sent a drop (R296). -/
def recallWord (s : State) (line i : Nat) : State :=
  match (s.mm.llc.find line).bind (fun l => l.owners.find i) with
  | none => s
  | some c =>
    let s := sendDrop (flushWords s c line (some [i])) c line [i]
    s.updMM (fun m => { m with llc := m.llc.upd line (fun l => { l with owners := l.owners.erase i }) })

/-- Word indices in their line of an aligned access. -/
def wordIdx (pa bytes : Nat) : List Nat := (List.range (bytes / 4)).map (fun i => pa % 128 / 4 + i)

/-- The value that a service warp reads (R296). -/
def svcRead (s : State) (pa bytes : Nat) : Nat × State :=
  let line := pa / 128
  let s := (wordIdx pa bytes).foldl (fun s i => recallWord s line i) (llcEnsure s line)
  (memNat s pa bytes, s)

/-- A service warp writes a word (R296): waiters whose threshold the object then meets are released (R310). -/
def svcWrite (s : State) (pa bytes val : Nat) : State :=
  let line := pa / 128
  let s := setMemBytes s pa (bytesOfNat bytes val)
  let obj := pa / 8 * 8
  let now := memNat s obj 8
  s.updMM (fun m => { m with
    llc := m.llc.upd line (fun l => l.overwrite ((List.range bytes).map (fun i => pa % 128 + i)))
    svc := m.svc.filter (fun r => !(r.2.kind = .bwait && r.2.waiting && r.2.pa = obj && decide (r.2.data ≤ now))) })

/-- Perform an add on a 64-bit word at its service warp (R296, R308, R309): the word saturates. Answers whether it wrapped. -/
def addWord (s : State) (pa n : Nat) : Bool × State :=
  let (old, s) := svcRead s pa 8
  (decide (2 ^ 64 - 1 < old + n), svcWrite s pa 8 (min (old + n) (2 ^ 64 - 1)))

/-- Put an add of the part to a barrier object in line (R478). -/
def partAdd (s : State) (ctx addr n : Nat) : State :=
  s.updCX (fun c => { c with adds := c.adds ++ [(ctx, addr, n, [])] })

/-- Add 1 to a DONE, which names no barrier object where it is 0 (R89, R442, R444). -/
def partDone (s : State) (ctx addr : Nat) : State := if addr = 0 then s else partAdd s ctx addr 1

/-- The same for a barrier that is named or not named, whatever its address (R405). -/
def partBar (s : State) (ctx : Nat) (bar : Option Nat) : State :=
  match bar with
  | none => s
  | some a => partAdd s ctx a 1

/-- Report a failed write of the part about its owner (R478). -/
def reportWrite (s : State) (ctx code addr : Nat) : State :=
  let (bytes, s) := partRecord s ctx 1 { code := code } (some addr)
  postFault s ctx false bytes

/-- Try the adds that wait (R478): those whose requests have been answered. -/
def pumpAdds (s : State) : State :=
  let l := s.cx.adds
  let s := s.updCX (fun c => { c with adds := [] })
  l.foldl (fun s a =>
    let (ctx, addr, n, reqs) := a
    let keep := fun (s : State) (reqs : List Nat) => s.updCX (fun c => { c with adds := c.adds ++ [(ctx, addr, n, reqs)] })
    if !s.liveCtx ctx then s
    else if reqs.any (fun r => (s.xl.reqs.find r).isSome) then keep s reqs
    else if addr % 8 ≠ 0 then reportWrite s ctx 0x11 addr
    else
      match partXlate s ctx addr with
      | (.ok pa, s) =>
        if llcPoisoned s pa then reportWrite s ctx 0x15 addr
        else
          let (wrapped, s) := addWord s pa n
          if wrapped then reportWrite s ctx 0x30 addr
          else s
      | (.wait r, s) => keep s r.toList
      | (.bad code, s) => reportWrite s ctx code addr) s

/-- Which of a context's rings. -/
inductive RingSel where
  | prq | fq | nq
deriving DecidableEq, Repr

def Ctx.ring (c : Ctx) : RingSel → Ring
  | .prq => c.prq
  | .fq => c.fq
  | .nq => c.nq
def Ctx.setRing (c : Ctx) (sel : RingSel) (r : Ring) : Ctx :=
  match sel with
  | .prq => { c with prq := r }
  | .fq => { c with fq := r }
  | .nq => { c with nq := r }

/-- The context whose space a ring lies in: its own for the handler queue, the parent's for the others, the root's own for
the root (R106, R130, R390). -/
def ringOwner (s : State) (id : Nat) : RingSel → Nat
  | .fq => id
  | .prq | .nq => if id = 0 then 0 else (s.ctx id).parent

def recBytes : RingSel → Nat
  | .nq => 32
  | .prq | .fq => 64

/-- A record as it is written: SEQ set, and the events-lost flag (R390). -/
def stamp (seq : Nat) (lost : Bool) (b : List Byte) : List Byte :=
  let b := bytesOfNat 8 seq ++ b.drop 8
  if lost then b.set 0x0A ((b.getD 0x0A 0) ||| 1) else b

/-- Write the records that wait for a ring, as far as it has room (R106, R131, R390, R478). -/
def pumpRing : Nat → State → Nat → RingSel → State
  | 0, s, _, _ => s
  | fuel + 1, s, id, sel =>
    let r := (s.ctx id).ring sel
    match r.waiting with
    | [] => s
    | x :: rest =>
      if r.reqs.any (fun q => (s.xl.reqs.find q).isSome) then s
      else
        let r := { r with reqs := [] }
        if r.blocked then s.updCtx id (fun c => c.setRing sel r)
        else
          let owner := ringOwner s id sel
          let va := r.base + r.seq % r.size * recBytes sel
          match partXlate s owner va with
          | (.ok pa, s) =>
            let s := partWrite s pa (stamp r.seq (r.lostFlag && sel = .fq) (recordNow s x))
            let s := s.updCtx id (fun c => c.setRing sel { (c.ring sel) with
              seq := r.seq + 1, waiting := rest, lostFlag := if sel = .fq then false else r.lostFlag, reqs := [] })
            pumpRing fuel (partAdd s owner r.arrive 1) id sel
          | (.wait q, s) => s.updCtx id (fun c => c.setRing sel { (c.ring sel) with reqs := q.toList })
          | (.bad code, s) =>
            reportWrite (s.updCtx id (fun c => c.setRing sel { (c.ring sel) with stuck := true, reqs := [] })) owner code va

/-- Key of an access counter (R130): die, context, page. -/
def acntKey (die ctx page : Nat) : Nat := (die * 4096 + ctx) * 2 ^ 39 + page

/-- Whether a page's stage-0 leaf is a far page (R132), whatever its record says. -/
def farLeaf (s : State) (ctx page : Nat) : Bool :=
  let acc := (walkChain (ctxChain s 3 ctx) .read (page * 2 ^ 16) { s := s, die := 0 }).2
  -- one leaf of every stage above 0 stands in `leaves` once the walk has come to the page's own stage-0 leaf
  acc.leaves.length = (s.ctx ctx).level && acc.reads.head?.any (fun e =>
    match entOf 0 e.level e.val with
    | .leaf 3 .. => e.ctx = 0
    | .leaf .. | .invalid | .bad | .table _ => false)

/-- Post a page's notification (R131, R132). -/
def postNote (s : State) (die ctx page : Nat) : State :=
  let far := farLeaf s ctx page
  let seq := (s.ctx ctx).nq.seq + (s.ctx ctx).nq.waiting.length
  let b := bytesOfNat 8 0 ++ bytesOfNat 8 (page * 2 ^ 16) ++ bytesOfNat 2 ctx ++ bytesOfNat 1 (if far then 2 else 0) ++ bytesOfNat 13 0
  let s := s.updCtx ctx (fun c => { c with nq := c.nq.enqueue { bytes := b, note := some (die, page) } })
  s.updXL (fun x => { x with
    acnt := x.acnt.upd (acntKey die ctx page) (fun a => { a with count := 0, queued := some seq, held := none })
    farNotes := if far then x.farNotes ++ [(ctx, page)] else x.farNotes })

/-- Room in a notification ring for one more record (R131). -/
def noteRoom (r : Ring) : Bool := decide (r.seq + r.waiting.length - r.head < r.size)

/-- Count one request (R130, R131). -/
def countOne (s : State) (c : Counted) : State :=
  let x := s.ctx c.ctx
  if x.acntCtl % 2 = 0 ∨ (x.acntCtl / 2 % 2 = 1 ∧ !c.write) then s
  else
    let k := acntKey c.die c.ctx c.page
    let (known, s) : Bool × State :=
      match s.xl.acnt.find k with
      | some _ => (true, s)
      | none =>
        let same := s.xl.acnt.filter (fun a => a.1 / 2 ^ 51 = c.die)
        if same.length < 65536 then (true, s.updXL (fun y => { y with acnt := NMap.insert y.acnt k {} }))
        else
          let loose := same.filter (fun a => a.2.queued.isNone && a.2.held.isNone)
          let (b, s) := s.coin
          if loose = [] ∨ b then
            (false, s.updCtx c.ctx (fun y => { y with uncounted := min (y.uncounted + 1) (2 ^ 32 - 1) }))
          else
            let (i, s) := s.pick loose.length
            (true, s.updXL (fun y => { y with acnt := NMap.insert (y.acnt.erase ((loose.map (·.1)).getD i 0)) k {} }))
    if !known then s
    else
      let a := (s.xl.acnt.find k).getD {}
      if a.held.isSome then s
      else
        let n := min (a.count + 1) 65535
        let s := s.updXL (fun y => { y with acnt := y.acnt.upd k (fun a => { a with count := n }) })
        if x.acntThresh = 0 ∨ n < x.acntThresh then s
        else
          match a.queued with
          | some q =>
            let s := s.updXL (fun y => { y with acnt := y.acnt.upd k (fun a => { a with count := 0 }) })
            s.updXL (fun y => { y with again := (y.again ++ [(c.ctx, q)]).eraseDups })
          | none =>
            if noteRoom (s.ctx c.ctx).nq then postNote s c.die c.ctx c.page
            else
              let (order, s) := s.fresh
              let s := s.updXL (fun y => { y with acnt := y.acnt.upd k (fun a => { a with held := some order }) })
              s.updCtx c.ctx (fun y => { y with nq := { y.nq with lost := min (y.nq.lost + 1) (2 ^ 32 - 1) } })

/-- Set FLAGS[0] of a queued record by a one-byte store (R131): in the record where it still waits in the part, else in the ring, once
the write can be made. A record that HEAD has passed is queued no longer. -/
def markAgain (s : State) (e : Nat × Nat) : State :=
  let nq := (s.ctx e.1).nq
  if e.2 < nq.head ∨ nq.size = 0 then s
  else if nq.seq ≤ e.2 then
    s.updCtx e.1 (fun c => { c with nq := { c.nq with waiting := c.nq.waiting.modify (e.2 - nq.seq) (fun x =>
      { x with bytes := x.bytes.set 0x12 (x.bytes.getD 0x12 0 ||| 1) }) } })
  else
    match partXlate s (ringOwner s e.1 .nq) (nq.base + e.2 % nq.size * 32 + 0x12) with
    | (.ok pa, s) =>
      let s := takeLine s (pa / 128)
      partWrite s pa [memByte s pa ||| 1]
    | (.wait _, s) => s.updXL (fun y => { y with again := y.again ++ [e] })
    | (.bad _, s) => s
def pumpAgain (s : State) : State :=
  let l := s.xl.again
  l.foldl markAgain (s.updXL (fun y => { y with again := [] }))

/-- The held page of a context that was held first (R131). -/
def firstHeld (s : State) (ctx : Nat) : Option (Nat × Nat) :=
  ((s.xl.acnt.filter (fun a => a.1 / 2 ^ 39 % 4096 = ctx && a.2.held.isSome)).foldl
    (fun (best : Option (Nat × Nat)) a =>
      match best with
      | none => some (a.1, a.2.held.getD 0)
      | some b => if a.2.held.getD 0 < b.2 then some (a.1, a.2.held.getD 0) else some b) none)

/-- HEAD passes records: their queued bits clear, and held pages are posted as room allows (R131). -/
def pumpHeld : Nat → State → Nat → State
  | 0, s, _ => s
  | fuel + 1, s, ctx =>
    if !noteRoom (s.ctx ctx).nq then s
    else
      match firstHeld s ctx with
      | none => s
      | some (k, _) => pumpHeld fuel (postNote s (k / 2 ^ 51) ctx (k % 2 ^ 39)) ctx

def headMoved (s : State) (ctx : Nat) : State :=
  let head := (s.ctx ctx).nq.head
  let s := s.updXL (fun x => { x with acnt := x.acnt.map (fun a =>
    if a.1 / 2 ^ 39 % 4096 = ctx then
      match a.2.queued with
      | some q => if q < head then (a.1, { a.2 with queued := none }) else a
      | none => a
    else a) })
  pumpHeld 65536 s ctx

/-- One page that a dirty-page log notes is appended (R424): the entry, then STATE, then ARRIVE. It waits where a write must wait. -/
def appendLog (s : State) (e : Nat × Nat) : State :=
  match (s.ctx e.1).dlog with
  | none => s
  | some d =>
    let later := fun (s : State) => s.updXL (fun x => { x with logged := x.logged ++ [e] })
    let set := fun (s : State) (d : DirtyLog) => s.updCtx e.1 (fun c => { c with dlog := some d })
    if d.overflow then s
    else
      let full := decide (d.cap ≤ d.count)
      match partXlate s d.issuer (if full then d.stateAddr else d.log + 8 * d.count) with
      | (.wait _, s) => later s
      | (.bad code, s) => reportWrite s d.issuer code (if full then d.stateAddr else d.log + 8 * d.count)
      | (.ok pa, s) =>
        if full then partWrite (set s { d with overflow := true }) pa (bytesOfNat 8 (d.count + 2 ^ 32))
        else
          match partXlate s d.issuer d.stateAddr with
          | (.wait _, s) => later s
          | (.bad code, s) => reportWrite s d.issuer code d.stateAddr
          | (.ok st, s) =>
            let s := partWrite (partWrite s pa (bytesOfNat 8 e.2)) st (bytesOfNat 8 (d.count + 1))
            partAdd (set s { d with count := d.count + 1 }) d.issuer d.arrive 1

/-- Append the pages that dirty-page logs note (R424). -/
def pumpLogs (s : State) : State :=
  let l := s.xl.logged
  l.foldl appendLog (s.updXL (fun x => { x with logged := [] }))

/-- Headland pushes what it holds to the host's report ring (R454). -/
def pumpReports (s : State) : State :=
  match s.pt.report with
  | none => s
  | some r =>
    let l := s.pt.headland
    let n := l.length
    let out := ((List.range n).zip l).map (fun q =>
      HostOut.write r.qp (r.addr + (r.next + q.1) % max (r.size / 64) 1 * 64) r.rkey q.2)
    s.updPT (fun p => { p with headland := [], out := p.out ++ out, report := some { r with next := r.next + n } })

/-- Write what waits: counts, logs, rings, adds, reports. The rounds are bounded; what is left waits for the next step. -/
def pumpOnce (s : State) : State :=
  let l := s.mm.counted
  let s := s.updMM (fun m => { m with counted := [] })
  let s := l.foldl countOne s
  let s := pumpAgain (pumpLogs s)
  let ids := s.cx.ctxs.map (·.1)
  let s := ids.foldl (fun s id => pumpRing 128 (pumpRing 128 (pumpRing 128 s id .prq) id .fq) id .nq) s
  pumpReports (pumpAdds s)

def pump : Nat → State → State
  | 0, s => s
  | fuel + 1, s => pump fuel (pumpOnce s)

end Sys2Proof.Machine
end

