-- ==== Sys2Proof/Machine/Ops.lean ====
section
/-!
DEFINITION. The operations that instructions share: parking and splitting of issue warps, commit points, the end of a run,
taking a fault, resuming a stop, k masks, GSYNC, the end of threads and groups, weights and virtual time.
-/
namespace Sys2Proof.Machine

def State.updWK (s : State) (f : WorkSt → WorkSt) : State := { s with wk := f s.wk }
def State.updRG (s : State) (f : RegSt → RegSt) : State := { s with rg := f s.rg }
def State.updMD (s : State) (f : ModelSt → ModelSt) : State := { s with md := f s.md }
def State.updEN (s : State) (f : EngSt → EngSt) : State := { s with en := f s.en }
def State.updFB (s : State) (f : FabSt → FabSt) : State := { s with fb := f s.fb }

/-- The context that an issue warp runs for. -/
def ctxOf (s : State) (w : Warp) : Nat := (s.group w.gi).ctx

/-! ### Weights and virtual time (R379, R380) -/

def Ctx.share (c : Ctx) : Nat → Nat
  | 0 => c.shareV
  | 1 => c.shareC
  | 2 => c.shareM
  | _ => c.shareL

/-- G_x of the last context of a chain given from the root down (R379). -/
def gWeight (s : State) (cls id : Nat) : Nat :=
  ((ctxChain s 3 id).reverse.drop 1).foldl (fun g c => g * c.2.share cls / 65536) 65536

def children (s : State) (id : Nat) : List Nat :=
  (s.cx.ctxs.filter (fun c => c.1 != 0 && c.2.parent = id)).map (·.1)

/-- D_x, the dispatcher weight (R379). -/
def dWeight (s : State) (cls id : Nat) : Nat :=
  gWeight s cls id - ((children s id).map (gWeight s cls)).sum

def vtKey (cls place ctx : Nat) : Nat := cls * 2 ^ 40 + place * 2 ^ 12 + ctx
def vtOf (s : State) (cls place ctx : Nat) : Nat := NMap.get 0 s.pt.vt (vtKey cls place ctx)

/-- Charge a context for units served at a place (R380). -/
def charge (s : State) (cls place ctx units : Nat) : State :=
  let t := vtOf s cls place ctx + units * 65536 / max (dWeight s cls ctx) 1
  s.updPT (fun p => { p with vt := NMap.set 0 p.vt (vtKey cls place ctx) t })

/-! ### Parking, releasing the quarter, splitting (R61, R104, R365, R388) -/

/-- A warp leaves its quarter's slot: the vector class is charged for the run's cycles (R383). -/
def freeQuarter (s : State) (wid : Nat) : State :=
  let w := s.warp wid
  let q := w.core * 4 + w.quarter
  if ((s.wk.quarters.find q).getD {}).run = some wid then
    let s := charge s 0 q (ctxOf s w) (s.pt.cycle - w.since)
    s.updWK (fun k => { k with quarters := k.quarters.erase q })
  else s

/-- Park an issue warp at its PC. -/
def parkWarp (s : State) (wid : Nat) (p : Park) : State :=
  let s := freeQuarter s wid
  let (age, s) := s.fresh
  s.updWarp wid (fun w => { w with park := p, age := age })

/-- The issue warp whose word executes parks. -/
def parkHere (s : State) (p : Park) : State := parkWarp s s.md.cur p


/-! ### Works, counters, results (R64 to R66) -/

/-- One part of counted work is finished; with the last the home warp's counter falls (R66). -/
def finishWork (s : State) (id : Nat) : State :=
  match s.wk.works.find id with
  | none => s
  | some x =>
    if x.left ≤ 1 then
      let s := s.updWK (fun k => { k with works := k.works.erase id })
      match x.sbc with
      | some c => setSb s x.gi x.hwarp c (sbOf s x.gi x.hwarp c - 1)
      | none => s
    else s.updWK (fun k => { k with works := k.works.upd id (fun x => { x with left := x.left - 1 }) })

def finishWorks (s : State) (ids : List Nat) : State := ids.foldl finishWork s

/-- Home warps whose named counter is full (R66). -/
def fullCounters (s : State) (gi : Nat) (c : Option (Fin 6)) (hs : List Nat) : List Nat :=
  match c with
  | none => []
  | some c => hs.filter (fun h => decide (63 ≤ sbOf s gi h c.val))

/-- Start an instruction's work for home warps: the named counter rises by 1 in each (R66). Answers (home warp, work). -/
def startWorks (s : State) (gi : Nat) (c : Option (Fin 6)) (hs : List Nat) (parts : Nat) : List (Nat × Nat) × State :=
  hs.foldl (fun (acc : List (Nat × Nat) × State) h =>
    let (id, s) := acc.2.fresh
    let s := match c with
      | some c => setSb s gi h c.val (sbOf s gi h c.val + 1)
      | none => s
    let x : Work := { gi := gi, hwarp := h, sbc := c.map (·.val), left := parts }
    (acc.1 ++ [(h, id)], s.updWK (fun k => { k with works := NMap.insert k.works id x }))) ([], s)

/-- More parts for a work. -/
def addParts (s : State) (id n : Nat) : State :=
  s.updWK (fun k => { k with works := k.works.upd id (fun x => { x with left := x.left + n }) })

/-- A warp takes up the work of its word's lanes: it acts now for the home warps of `lanes`, and what is left for others is done
(R66). Answers (home warp, work). -/
def takeWorks (s : State) (wid : Nat) (lanes : List (Nat × LaneEnt)) : List (Nat × Nat) × State :=
  let hs := (lanes.map (fun q => q.2.hwarp)).eraseDups
  let l := (s.warp wid).works
  let s := s.updWarp wid (fun w => { w with works := [] })
  (l.filter (fun x => hs.contains x.1), finishWorks s ((l.filter (fun x => !hs.contains x.1)).map (·.2)))

/-- Counted work of a warp's word that no lane has taken up, or is left to do, is done (R66): of most words none. -/
def endCount (s : State) (wid : Nat) : State := finishWorks s ((s.warp wid).works.map (·.2))

/-- Remove an issue warp that has no active lane left. -/
def dropEmpty (s : State) (wid : Nat) : State :=
  if activeLanes (s.warp wid) = [] then (freeQuarter s wid).updWK (fun k => { k with warps := k.warps.erase wid }) else s

/-- The same where lanes have stopped: counted work of its word that no lane is left to do is done (R66). -/
def dropStopped (s : State) (wid : Nat) : State :=
  if activeLanes (s.warp wid) = [] then dropEmpty (endCount s wid) wid else s

/-- Lanes split off as they stand in a warp of their own: in it the other lanes of their quads are helpers, in the old warp
the lanes that left stand as helpers (log entry 12). -/
def splitLanes (w : Warp) (pl : List Nat) : List LaneEnt :=
  let quads := (pl.map (fun p => p / 4)).eraseDups
  ((List.range w.lanes.length).zip w.lanes).map (fun q =>
    if !quads.contains (q.1 / 4) then {}
    else if pl.contains q.1 then q.2
    else { q.2 with help := q.2.live })
def leaveLanes (w : Warp) (pl : List Nat) : List LaneEnt :=
  ((List.range w.lanes.length).zip w.lanes).map (fun q => if pl.contains q.1 then { q.2 with help := true } else q.2)

/-- Split physical lanes off into a parked sub-group at the same word (R104, R365, R388). Answers its identity. Lanes that carry the
word's counted work with them share it with the lanes of their home warp that stay (R66, R104); lanes that stop have none, and count
anew when they execute the word again. -/
def splitOff (s : State) (wid : Nat) (pl : List Nat) (p : Park) (carry : Bool) : Nat × State :=
  let w := s.warp wid
  let (id, s) := s.fresh
  let gone := homeWarps ((activeLanes w).filter (fun q => pl.contains q.1))
  let mine := if carry then w.works.filter (fun x => gone.contains x.1) else []
  let old : Warp := { w with lanes := leaveLanes w pl }
  let stay := homeWarps (activeLanes old)
  let s := (mine.filter (fun x => stay.contains x.1)).foldl (fun s x => addParts s x.2 1) s
  let new : Warp := { w with lanes := splitLanes w pl, park := p, age := id, formed := [], sSeen := [], works := mine }
  let s := s.updWK (fun k => { k with warps := NMap.insert k.warps id new })
  (id, s.updWarp wid (fun w => { w with
    lanes := leaveLanes w pl, works := w.works.filter (fun x => !mine.contains x || stay.contains x.1) }))

/-- Lanes split off with the word's work. -/
def split (s : State) (wid : Nat) (pl : List Nat) (p : Park) : Nat × State := splitOff s wid pl p true

/-! ### Results (R64, R65) -/

/-- Threads of a warp's active lanes, by key. -/
def warpThreads (w : Warp) : List Nat := (activeLanes w).map (fun q => thKey w.gi q.2.hwarp q.2.hlane)

/-- A result pending for a register of one of the threads (R64, R65). -/
def pendingFor (s : State) (gi : Nat) (threads : List Nat) : Bool :=
  s.wk.results.any (fun r => r.2.gi = gi && r.2.lanes.any (fun l =>
    l.help.isNone && threads.contains (thKey gi r.2.hwarp l.lane)))

/-- Values of the pending loads of these threads are settled: no later write can change them (R157, R339). -/
def fixResults (s : State) (gi : Nat) (threads : List Nat) : State :=
  s.updWK (fun k => { k with results := k.results.map (fun r =>
    if r.2.gi = gi && r.2.known then
      (r.1, { r.2 with lanes := r.2.lanes.map (fun l =>
        if threads.contains (thKey gi r.2.hwarp l.lane) then { l with src := .fixed } else l) })
    else r) })

/-- Lines held by engines that pending loads of these threads still have to read (R122). -/
def heldLoads (s : State) (gi : Nat) (threads : List Nat) : List Nat :=
  s.wk.results.flatMap (fun r =>
    if r.2.gi = gi && !r.2.known then
      r.2.lanes.filterMap (fun l =>
        match l.src with
        | .mem _ pa _ => if threads.contains (thKey gi r.2.hwarp l.lane) then some (pa / 128) else none
        | _ => none)
    else [])

/-! ### Commit points (R348, R368, R369) -/

/-- Where a thread stands: its warp, if an issue warp carries it as an active lane. -/
def warpOfThread (s : State) (gi h l : Nat) : Option (Nat × Warp) :=
  s.wk.warps.find? (fun c => c.2.gi = gi && (activeLanes c.2).any (fun q => q.2.hwarp = h && q.2.hlane = l))

/-- Physical lane that carries a thread. -/
def physOf (w : Warp) (h l : Nat) : Nat :=
  (((liveLanes w).find? (fun q => q.2.hwarp = h && q.2.hlane = l)).map (·.1)).getD 0

/-- The record of a thread at its position (R368), with the count and the names of the words before it (R58, R60): `after` lists
lanes that stand at the word after theirs; so does a warp whose word has acted and is only waited for. -/
def recordAt (s : State) (gi h l : Nat) (t : Thread) (wid : Nat) (after : List Nat) : RestartRec :=
  match warpOfThread s gi h l with
  | some (id, w) =>
    if w.tail then { isOpen := true, pc := t.pc, prio := t.prio, temps := List.replicate 8 0 }
    else
      let p := physOf w h l
      let temps := (List.range 8).map (fun i => NMap.get 0 w.temps (p * 8 + i))
      if (id = wid && after.contains l) || decide (2 ≤ w.phase) then
        { isOpen := true, pc := w.pc + 8, prio := t.prio, temps := temps, count := w.count + w.wordN, named := w.named ||| w.wordNamed,
          run := id }
      else { isOpen := true, pc := w.pc, prio := t.prio, temps := temps, count := w.count, named := w.named, run := id }
  | none => { isOpen := true, pc := t.pc, prio := t.prio, temps := List.replicate 8 0 }

/-- A commit point of a home warp: its FIFO entries become committed, records of open regions are rewritten. `after` lists
home lanes that the executing warp `wid` carries past its word. -/
def commitHW (s : State) (gi h wid : Nat) (after : List Nat) : State :=
  let s := s.updHWarp (hwKey gi h) (fun x => { x with fifo := x.fifo.map (fun e => { e with uncommitted := [] }) })
  (List.range 32).foldl (fun s l =>
    s.updThread (thKey gi h l) (fun t =>
      if t.restart.isOpen then { t with restart := recordAt s gi h l t wid after } else t)) s

/-- A commit point for the home warps of lanes of the issuing warp, whose threads then stand at the next word. -/
def commitLanes (s : State) (wid : Nat) (lanes : List (Nat × LaneEnt)) : State :=
  (homeWarps lanes).foldl (fun s h =>
    commitHW s (s.warp wid).gi h wid ((lanes.filter (fun q => q.2.hwarp = h)).map (fun q => q.2.hlane))) s

/-! ### Faults (R388 to R391) -/

/-- Slots of a die's fault table in use. -/
def stopSlots (s : State) (die : Nat) : List Nat :=
  (s.wk.stops.map (·.2)).filterMap (fun t => t.fid.bind (fun f => if f / 2 ^ 23 % 2 = die then some (f % 1024) else none))

/-- Give a stop an entry of its die's fault table and post its record, if a slot is free (R388, R391). -/
def enterStop (s : State) (id : Nat) : State :=
  match s.wk.stops.find id with
  | none => s
  | some t =>
    let w := s.warp t.warp
    let die := dieOf w.core
    let free := freeSlots (stopSlots s die)
    if free = [] then s
    else
      let (i, s) := s.pick free.length
      let slot := free.getD i 0
      let gen := nextGen (NMap.get 0 s.wk.stopGens (die * 1024 + slot))
      let fid := gen * 2 ^ 24 + die * 2 ^ 23 + slot
      let s := s.updWK (fun k => { k with
        stops := k.stops.upd id (fun t => { t with fid := some fid })
        stopGens := NMap.set 0 k.stopGens (die * 1024 + slot) gen })
      let mask := ((activeLanes w).map (fun q => 2 ^ q.2.hlane)).sum
      postFault s t.ctx false (faultBytes s t.ctx 0 w.core t.hwarp t.gi mask fid t.info)

/-- Stop lanes of one home warp at the word of a warp (R388): they split off, the home warp commits, a record is posted. -/
def stopHome (s : State) (wid h : Nat) (pl : List Nat) (info : FaultInfo) (commit : Bool) : State :=
  let w := s.warp wid
  let (sid, s) := s.fresh
  let (id, s) := splitOff s wid pl (.stopped sid) false
  let s := if commit then commitHW s w.gi h wid [] else s
  let stop : Stop := { warp := id, ctx := ctxOf s w, gi := w.gi, hwarp := h, info := { info with pc := w.pc } }
  enterStop (s.updWK (fun k => { k with stops := NMap.insert k.stops sid stop })) sid

/-- A fault raised by lanes: physical lane, its entry, code and address; none where the fault has no address, ADDR then
being open (R391). -/
structure LaneFault where
  pl : Nat
  ent : LaneEnt
  code : Nat
  addr : Option Nat := none
  detail : Nat := 0

/-- TAKING A FAULT (R388, R390, R391): the faulting lanes of the issuing warp stop, one stop for the lanes of each home warp
and code; ADDR is that of the lowest home lane. `flags` and `opc` are the record's. -/
def takeFaults (s : State) (wid : Nat) (opc flags : Nat) (fs : List LaneFault) (commit : Bool) : State :=
  let keys := (fs.map (fun f => (f.ent.hwarp, f.code))).eraseDups
  keys.foldl (fun s k =>
    let mine := fs.filter (fun f => f.ent.hwarp = k.1 ∧ f.code = k.2)
    let low := mine.foldl (fun (best : LaneFault) f => if f.ent.hlane < best.ent.hlane then f else best)
      (mine.headD ⟨0, {}, 0, none, 0⟩)
    let (a, s) := match low.addr with
      | some a => (a, s)
      | none => s.openField 64
    stopHome s wid k.1 (mine.map (·.pl))
      { code := k.2, flags := flags, opc := opc, addr := BitVec.ofNat 64 a, detail := BitVec.ofNat 64 low.detail } commit) s

/-- A fault raised at the word, whatever the guards: every non-helper lane stops (R388). -/
def faultWord (s : State) (wid opc flags code : Nat) (addr : Option Nat) : State :=
  let fs := (activeLanes (s.warp wid)).map (fun q => (⟨q.1, q.2, code, addr, 0⟩ : LaneFault))
  dropStopped (takeFaults s wid opc flags fs true) wid

/-! ### Ends of threads, groups and runs (R353, R361, R385, R474) -/

/-- Home lanes waiting at KWAIT on a mask (R364). -/
def kWaiters (s : State) (gi h k : Nat) : List Nat :=
  (s.wk.warps.filter (fun c => c.2.gi = gi && c.2.park = .kwait k false)).flatMap (fun c =>
    ((activeLanes c.2).filter (fun q => q.2.hwarp = h)).map (fun q => q.2.hlane))

/-- Every lane of a mask stands in a list. -/
def maskIn (m : Word) (l : List Nat) : Bool :=
  (List.range 32).all (fun j => !(m.getLsbD j) || l.contains j)

/-- All the threads waiting on a mask are released (R364). -/
def kRelease (s : State) (gi h k : Nat) : State :=
  s.updWK (fun x => { x with warps := x.warps.map (fun c =>
    if c.2.gi = gi && c.2.park = .kwait k false && (activeLanes c.2).any (fun q => q.2.hwarp = h) then
      (c.1, { c.2 with park := .kwait k true })
    else c) })

/-- The release condition of KWAIT on a mask, home lanes `more` counted as waiting (R364). -/
def kHolds (s : State) (gi h k : Nat) (more : List Nat) : Bool := maskIn (kMask s gi h k) (more ++ kWaiters s gi h k)

/-- Test the release condition of KWAIT on a mask (R364). -/
def kTest (s : State) (gi h k : Nat) : State := if kHolds s gi h k [] then kRelease s gi h k else s

/-- Keys of the threads of a group. -/
def groupThreads (s : State) (gi : Nat) : List (Nat × Thread) := s.rg.threads.filter (fun t => t.1 / 1024 = gi)

/-- Threads that have arrived at a GSYNC of a scope (R313); one of span scope counts once its request is performed. -/
def gsyncArrived (s : State) (gi : Nat) (span : Bool) : List Nat :=
  (s.wk.warps.filter (fun c => c.2.gi = gi && c.2.park = .gsync span false)).flatMap (fun c =>
    (warpThreads c.2).filter (fun t => !(s.mm.svc.any (fun r => r.2.kind = .gsync && thKey r.2.gi r.2.hwarp r.2.lane = t))))

/-- Groups that a GSYNC of a scope joins (R313). -/
def gsyncGroups (s : State) (gi : Nat) (span : Bool) : List Nat :=
  if span then ((s.wk.spans.find (s.group gi).span).getD {}).groups else [gi]

/-- GSYNC of a scope is complete, threads `more` of the group counted as arrived (R313). -/
def gsyncHolds (s : State) (gi : Nat) (span : Bool) (more : List Nat) : Bool :=
  (gsyncGroups s gi span).all (fun g =>
    let arr := gsyncArrived s g span ++ more
    (groupThreads s g).all (fun t => t.2.stat = .exited || arr.contains t.1))

/-- All arrived threads continue; at span scope continuing is an acquire at cove scope (R313). -/
def gsyncRelease (s : State) (gi : Nat) (span : Bool) : State :=
  let gs := gsyncGroups s gi span
  let s := s.updWK (fun x => { x with warps := x.warps.map (fun c =>
    if gs.contains c.2.gi && c.2.park = .gsync span false then (c.1, { c.2 with park := .gsync span true }) else c) })
  if span then (gs.map (fun g => (s.group g).core)).eraseDups.foldl acquireL1 s else s

/-- Test the completion of GSYNC of a scope for a group, or for its span (R313). -/
def gsyncTest (s : State) (gi : Nat) (span : Bool) : State :=
  if gsyncHolds s gi span [] && (gsyncGroups s gi span).any (fun g => gsyncArrived s g span != []) then gsyncRelease s gi span else s

/-- A pending result of which one lane's value is discarded (R361): with no lane left, and no service warp to answer it, there is
nothing to wait for but its return. -/
def Result.without (s : State) (id l : Nat) (r : Result) : Result :=
  let lanes := r.lanes.filter (fun x => x.lane != l)
  { r with lanes := lanes, known := r.known || (lanes = [] && !(s.mm.svc.any (fun x => x.2.result = some id))) }

/-- One thread ends (R361): it is exited, leaves every mask, its pending results are discarded. -/
def endThread (s : State) (gi h l : Nat) : State :=
  let s := s.updThread (thKey gi h l) (fun t => { t with stat := .exited, restart := {} })
  let s := s.updWK (fun k => { k with results := k.results.map (fun r =>
    if r.2.gi = gi && r.2.hwarp = h then (r.1, r.2.without s r.1 l) else r) })
  (List.range 12).foldl (fun s k =>
    let m := kMask s gi h k
    let s := setK s gi h k (m &&& ~~~(BitVec.ofNat 32 (2 ^ l)))
    kTest s gi h k) s

/-- Forget a group's registers and threads. -/
def clearGroup (s : State) (gi : Nat) : State :=
  let s := s.updRG (fun r => { r with
    threads := r.threads.filter (fun t => t.1 / 1024 != gi)
    v := r.v.filter (fun c => c.1 / (32 * 192 * 32) != gi)
    s := r.s.filter (fun c => c.1 / 64 != gi)
    p := r.p.filter (fun c => c.1 / (32 * 8 * 32) != gi)
    k := r.k.filter (fun c => c.1 / (32 * 16) != gi)
    sb := r.sb.filter (fun c => c.1 / (32 * 8) != gi)
    hwarps := r.hwarps.filter (fun c => c.1 / 32 != gi) })
  let g := s.group gi
  let lo := g.core * 4096 + g.spBase / 128
  let s := s.updMM (fun m => { m with presence := if g.resident || g.intact then m.presence.filter (fun c => !(decide (lo ≤ c.1) && decide (c.1 < lo + g.scratch / 128))) else m.presence })
  s.updWK (fun k => { k with
    groups := k.groups.erase gi
    warps := k.warps.filter (fun c => c.2.gi != gi)
    results := k.results.filter (fun c => c.2.gi != gi)
    works := k.works.filter (fun c => c.2.gi != gi)
    spans := (k.spans.upd g.span (fun x => { x with groups := x.groups.filter (fun i => i != gi) })).filter (fun c => c.2.groups != []) })

/-- Commands of a group still queued or in service (R181). -/
def groupBusy (s : State) (gi : Nat) : Bool :=
  s.en.cmds.any (fun c => c.2.gi = gi) || s.en.mqueues.any (fun q => q.2.cmds.any (fun c => c.gi = gi)) ||
  s.rg.hwarps.any (fun c => c.1 / 32 = gi && c.2.fifo != []) || s.mm.svc.any (fun r => r.2.gi = gi)

/-- The group ends when its last thread has exited and its commands are done (R181, R361). -/
def checkGroupEnd (s : State) (gi : Nat) : State :=
  match s.wk.groups.find gi with
  | none => s
  | some g =>
    if (groupThreads s gi).all (fun t => t.2.stat = .exited) && !groupBusy s gi then
      (clearGroup s gi).updPT (fun p => { p with grids := p.grids.upd g.grid (fun x => { x with ended := x.ended + 1 }) })
    else s

/-- Threads end as by EXIT (R361, R395): commit, end, GSYNC. -/
def exitLanes (s : State) (gi : Nat) (lanes : List (Nat × LaneEnt)) : State :=
  let s := lanes.foldl (fun s q => endThread s gi q.2.hwarp q.2.hlane) s
  checkGroupEnd (gsyncTest (gsyncTest s gi false) gi true) gi

/-- The eddy watch at the end of a run (R385). -/
def eddyRun (s : State) (w : Warp) : State :=
  let s := s.updGroup w.gi (fun g =>
    let lines := (w.loaded :: g.eddyLines).take 64
    match w.backTo with
    | some t =>
      if w.worked then { g with eddyN := 0, eddyLines := lines }
      else
        let n := if t = g.eddyPc then g.eddyN + 1 else 1
        if n = 16 then { g with eddyN := 0, eddyPc := t, eddyLines := lines, demoted := some s.pt.cycle }
        else { g with eddyN := n, eddyPc := t, eddyLines := lines }
    | none => { g with eddyN := 0, eddyLines := lines })
  if w.yields then
    let g := s.group w.gi
    let others := (s.wk.groups.filter (fun c => c.1 != w.gi && c.2.core = g.core && c.2.resident)).map (·.1)
    s.updGroup w.gi (fun g => { g with yielded :=
      (w.quarter, s.pt.cycle + 64, others) :: g.yielded.filter (fun y => y.1 != w.quarter) })
  else s

/-- A run is over and its warp gone (R353, R362, R385): its quarter is free; what it wrote may reach a run of the group in progress
late (R287). -/
def closeRun (s : State) (wid : Nat) : State :=
  let w := s.warp wid
  let s := freeQuarter (eddyRun s w) wid
  s.updWK (fun k => { k with warps := (k.warps.erase wid).map (fun c =>
    if c.2.gi = w.gi then
      (c.1, { c.2 with stale := w.wrote.foldl (fun m x => NMap.insert m x.1 (x.2 ++ NMap.get [] m x.1)) c.2.stale })
    else c) })

/-- THE END OF A RUN (R353): active lanes' threads go to the frontier, at the PC a branch set or at the next word. -/
def endRun (s : State) (wid : Nat) : State :=
  let w := s.warp wid
  closeRun ((activeLanes w).foldl (fun s q =>
    s.updThread (thKey w.gi q.2.hwarp q.2.hlane) (fun t =>
      { t with stat := .frontier, pc := if w.tail then t.pc else w.pc })) s) wid

/-- Move an issue warp past its word: the run's count and names take the word in (R58, R60). -/
def stepPast (s : State) (wid : Nat) : State :=
  s.updWarp wid (fun w => { w with
    pc := w.pc + 8, count := w.count + w.wordN, named := w.named ||| w.wordNamed, wordN := 0, wordNamed := 0, works := [], foundFull := false,
    phase := 0, donePl := 0, serVals := [], opLane := [], formed := [], shot := [], park := .none, sSeen := [], wMark := false })

/-- THE END OF A WORD (R42, R57, R65): the PC moves on; W parks the warp until its threads' results are written; B ends the
run. Lanes that left the warp during the word may have emptied it. -/
def finish (s : State) (b w : Bool) : State :=
  let wid := s.md.cur
  if activeLanes (s.warp wid) = [] then dropEmpty s wid
  else
    let s := stepPast s wid
    if w && pendingFor s (s.warp wid).gi (warpThreads (s.warp wid)) then
      parkWarp (s.updWarp wid (fun x => { x with ends := b })) wid .results
    else if b then endRun s wid
    else s

/-- The end of a word of which no lane goes on here: what it has counted for lanes that have stopped is done (R66). -/
def finishNone (s : State) (b w : Bool) : State := finish (takeWorks s s.md.cur []).2 b w

/-! ### Readiness of parked warps (R61) -/

/-- A scratchpad line of a group's range, by key. -/
def lineKey (gi line : Nat) : Nat := gi * 4096 + line

/-- A group's scratchpad range stands in the save area (R399). -/
def Group.saved (g : Group) : Bool := !g.resident && !g.intact

/-- A line of a live group's range, wherever the range stands (R140, R142, R399); of no meaning for a group that has ended (R181). -/
def groupLine (s : State) (gi line : Nat) : Presence :=
  match s.wk.groups.find gi with
  | none => {}
  | some g => NMap.get {} (if g.saved then g.savedLines else s.mm.presence) (if g.saved then line else g.core * 4096 + (g.spBase / 128 + line))

/-- A line is present or poisoned, or its group has ended (R140, R141, R181). -/
def lineReady (s : State) (key : Nat) : Bool :=
  let x := groupLine s (key / 4096) (key % 4096)
  x.p || x.q || (s.wk.groups.find (key / 4096)).isNone

/-- Batch `n` of a group and every earlier one are complete (R266, R281); commands carry their batch number. -/
def batchesDone (s : State) (gi o n : Nat) : Bool :=
  !(s.en.mqueues.any (fun q => q.2.cmds.any (fun c => c.gi = gi &&
    c.batch != o && (n = 0 || decide ((o + 2 ^ 32 - n) % 2 ^ 32 ≤ (o + 2 ^ 32 - c.batch) % 2 ^ 32)))))

/-- The park of a warp is over, its W marker apart. -/
def parkOver (s : State) (w : Warp) : Bool :=
  match w.park with
  | .none | .engine | .grant => true
  | .kwait _ r | .gsync _ r | .stwait _ r => r
  | .bwait items => items.all (fun i => (s.mm.svc.find i).isNone)
  | .waitsb c n hs => hs.all (fun h => decide (sbOf s w.gi h c ≤ n))
  | .lines l => l.all (lineReady s)
  | .walk l => l.all (fun i => (s.xl.walks.find i).isNone)
  | .walkRoom c => decide ((waitingWalks s c).length < 64)
  | .page l => l.all (fun i => (s.xl.reqs.find i).isNone)
  | .table die => freeSlots (((s.xl.reqs.map (·.2)).filter (fun r => r.die = die)).map (·.slot)) != []
  | .far l => l.all (fun i => (s.xl.recalls.find i).isNone)
  | .counter c hs => hs.all (fun h => decide (sbOf s w.gi h c < 63))
  | .results => !pendingFor s w.gi (warpThreads w)
  | .fifo hs => hs.all (fun h => (s.hwarp (hwKey w.gi h)).fifo.all (fun e => e.uncommitted != []))
  | .room hs => hs.all (fun h => decide ((s.hwarp (hwKey w.gi h)).fifo.length < 64))
  | .items l => l.all (fun i => (s.mm.dirItems.find i).isNone && (s.mm.svc.find i).isNone && (s.fb.packets.find i).isNone &&
      (s.en.cmds.find i).isNone && !(s.fb.packets.any (fun x => x.2.cmd = some i)))
  | .stores l => !(s.rg.hwarps.any (fun c => c.2.fifo.any (fun e => l.contains e.id)))
  | .queue q => decide (((s.pt.queues.find q).getD {}).recs.length < 64)
  | .batch n => batchesDone s w.gi (s.group w.gi).openBatch n
  | .oper l => l.all (fun i => (s.cx.opers.find i).isNone && !(s.cx.staged.any (fun x => x.id = i)) &&
      !(s.cx.ctxs.any (fun c => c.2.extQ.any (fun e => e.id = i))))
  | .held l => l.all (fun i => !held s i && !(s.mm.dirItems.any (fun d => d.2.evicted && d.2.core = w.core && d.2.line = i)))
  | .stopped _ => false

/-- The park of a warp is over (R61, R65). -/
def ready (s : State) (w : Warp) : Bool :=
  parkOver s w && !(w.wMark && pendingFor s w.gi (warpThreads w))

/-- Runs that were over but for their park end once it is over (R65, R365). -/
def endReady (s : State) : State :=
  (s.wk.warps.map (·.1)).foldl (fun s id =>
    let w := s.warp id
    if w.ends && ready s w && (s.group w.gi).resident then endRun s id else s) s

/-- Stops that found the fault table full take an entry when one is free (R388). -/
def pumpStops (s : State) : State :=
  (s.wk.stops.filter (fun t => t.2.fid.isNone)).foldl (fun s t => enterStop s t.1) s

/-! ### Resuming stops and requests (R108, R395, R397) -/

/-- A warp goes on at the next word, the run ending if the word it leaves ends it. -/
def skipWord (s : State) (wid : Nat) : State :=
  let last := (s.warp wid).curB
  let s := stepPast s wid
  if last then endRun s wid else s

/-- RETURNING FROM A FAULT (R395): retry re-executes the word (a TRAP or BREAK goes on after it), skip goes on at the next
word, end exits the threads. -/
def resolveStop (s : State) (sid : Nat) (r : Resolution) : State :=
  match s.wk.stops.find sid with
  | none => s
  | some t =>
    let s := s.updWK (fun k => { k with stops := k.stops.erase sid })
    match r with
    | .retry =>
      if t.info.code = 0x40 ∨ t.info.code = 0x41 then skipWord s t.warp
      else s.updWarp t.warp (fun w => { w with park := .none, phase := 0 })
    | .skip => skipWord s t.warp
    | .finish =>
      let lanes := activeLanes (s.warp t.warp)
      exitLanes (s.updWK (fun k => { k with warps := k.warps.erase t.warp })) t.gi lanes

/-- Home warps of all the active lanes of the issuing warp. -/
def warpHomes (w : Warp) : List Nat := homeWarps (activeLanes w)

/-- Requests of these threads that a service warp has still to perform: those that return a value, or all (R296, R311). -/
def ownRequests (s : State) (gi : Nat) (threads : List Nat) (loads : Bool) : List Nat :=
  (s.mm.svc.filter (fun r => r.2.gi = gi && r.2.kind != .gsync && (!loads || r.2.result.isSome) &&
    threads.contains (thKey gi r.2.hwarp r.2.lane))).map (·.1)

/-- Earlier loads of threads are performed before going on with `k` (R339, R344): those that wait for an engine's claim or at
a service warp first. -/
def withLoads (s : State) (gi : Nat) (threads : List Nat) (k : State → State) : State :=
  let lines := heldLoads s gi threads
  let reqs := ownRequests s gi threads true
  if lines ≠ [] then parkHere s (.held lines)
  else if reqs ≠ [] then parkHere s (.items reqs)
  else k (fixResults s gi threads)

/-- Earlier accesses of threads are performed before going on with `k` (R339): their atomics and adds first. -/
def withAccesses (s : State) (gi : Nat) (threads : List Nat) (k : State → State) : State :=
  let reqs := ownRequests s gi threads false
  if reqs ≠ [] then parkHere s (.items reqs) else withLoads s gi threads k

/-- The commit of a word that has stores drained before it is performed (R369): the FIFO entries of home warps become committed.
The records of threads at the word name the word itself until it has been performed: `commitLanes` then moves them on. -/
def commitHomes (s : State) (gi wid : Nat) (hs : List Nat) : State := hs.foldl (fun s h => commitHW s gi h wid []) s

/-- Home warps of a list whose store FIFOs hold entries. -/
def fullFifos (s : State) (gi : Nat) (hs : List Nat) : List Nat := hs.filter (fun h => (s.hwarp (hwKey gi h)).fifo != [])

/-- A release at cove scope or wider, for the whole issuing warp (R120, R157, R369): commit; drain the store FIFOs; send every
dirty word of the core's L1; await the acknowledgements; then go on with `k`. Phases 0 and 1 of the word are its own. -/
def withRelease (s : State) (k : State → State) : State :=
  let wid := s.md.cur
  let w := s.warp wid
  if w.phase = 0 then
    let s := commitHomes s w.gi wid (warpHomes w)
    let hs := fullFifos s w.gi (warpHomes w)
    if hs ≠ [] then parkHere s (.fifo hs)
    else
      withAccesses s w.gi (warpThreads w) (fun s =>
        let (ids, s) := sendAll s w.core
        let s := s.updWarp wid (fun w => { w with phase := 1 })
        if ids = [] then k s else parkHere s (.items ids))
  else k s

/-- A commit point, then the store FIFOs of the lanes' home warps drain, then `k` (R157, R304, R369). -/
def withDrain (s : State) (lanes : List (Nat × LaneEnt)) (k : State → State) : State :=
  let wid := s.md.cur
  let gi := (s.warp wid).gi
  let s := commitHomes s gi wid (homeWarps lanes)
  let hs := fullFifos s gi (homeWarps lanes)
  if hs ≠ [] then parkHere s (.fifo hs) else k s

/-- A release at group scope by lanes of the issuing warp (R157, R369): commit; drain the store FIFOs of their home warps;
their earlier loads are settled; then go on with `k`. -/
def withGroupRelease (s : State) (lanes : List (Nat × LaneEnt)) (k : State → State) : State :=
  let w := s.warp s.md.cur
  if w.phase = 0 && lanes != [] then
    withDrain s lanes (fun s => withAccesses s w.gi (lanes.map (fun q => thKey w.gi q.2.hwarp q.2.hlane)) k)
  else k s

end Sys2Proof.Machine
end

