-- ==== Sys2Proof/Machine/Issue.lean ====
section
/-!
DEFINITION. Issuing a word (R57 to R64, R69, R71, R104, R143, R197): what is pending settles, the word is fetched and decoded,
the rules of a run, roles and privilege are checked, and then it is ready to execute.
-/
namespace Sys2Proof.Machine

/-- Store the words of one pending register result (R64). A value that changes the register counts for the eddy watch. -/
def landLane (s : State) (gi h : Nat) (l : ResLane) : State :=
  match l.help with
  | some (wid, p) =>
    s.updWarp wid (fun w => { w with
      hv := (List.range l.vals.length).foldl (fun m i => NMap.insert m (p * 256 + l.reg + i) (l.vals.getD i 0)) w.hv })
  | none =>
  (List.range l.vals.length).foldl (fun s i =>
    let k := vKey gi h (l.reg + i) l.lane
    let v := l.vals.getD i 0
    let s := if NMap.get 0 s.rg.v k = v then s
      else
        let s := s.updGroup gi (fun g => { g with eddyN := 0 })
        match warpOfThread s gi h l.lane with
        | some (id, _) => s.updWarp id (fun w => { w with worked := true })
        | none => s
    let s := s.updRG (fun r => { r with v := NMap.set 0 r.v k v })
    s.updPT (fun p => { p with rowPoison := p.rowPoison.filter (fun x => x != k) })) s

/-- Before a word issues, each result that could have returned by now has done so or not (R64; FREE VALUE, log entry 5). -/
def settleResults (s : State) (gi : Nat) : State :=
  s.wk.results.foldl (fun s r =>
    if r.2.gi = gi && r.2.known then
      r.2.lanes.foldl (fun s l =>
        let (b, s) := s.coin
        if b then
          let s := landLane s gi r.2.hwarp l
          s.updWK (fun k => { k with results := k.results.upd r.1 (fun x => { x with lanes := x.lanes.filter (fun y => y != l) }) })
        else s) s
    else s) s

/-- Bytes of a copy land in a word of a register row of a live group; a word that they fill whole loses its poison (R146, R465). -/
def landRow (s : State) (x : Nat × List (Nat × Byte)) : State :=
  if (s.wk.groups.find (x.1 / (32 * 192 * 32))).isNone then s
  else
    let s := s.updRG (fun r => { r with v := NMap.set 0 r.v x.1 (x.2.foldl (fun w b => putByte w b.1 b.2) (NMap.get 0 r.v x.1)) })
    if (List.range 4).all (fun i => x.2.any (fun b => b.1 = i)) then
      s.updPT (fun p => { p with rowPoison := p.rowPoison.filter (fun k => k != x.1) })
    else s

/-- Before a word issues, each lane of a register row that a copy has written for the group reads new or old (R146; FREE VALUE, log
entry 5). -/
def settleRows (s : State) (gi : Nat) : State :=
  s.en.cmds.foldl (fun s c =>
    ((c.2.late.map (·.1)).eraseDups.filter (fun k => k / (32 * 192 * 32) = gi)).foldl (fun s k =>
      let (b, s) := s.coin
      if b then
        ((c.2.late.filter (fun x => x.1 = k)).foldl landRow s).updEN (fun e => { e with
          cmds := e.cmds.upd c.1 (fun y => { y with late := y.late.filter (fun x => x.1 != k) }) })
      else s) s) s

/-- Which writes of s registers by other runs the word sees (R197; FREE VALUE, log entry 5): of each write, newest first, it sees the
new value or the old. A register keeps what the newest write seen of it left; `done` lists those. -/
def unseen : List SUndo → List Nat → NMap Word → State → NMap Word × State
  | [], _, m, s => (m, s)
  | e :: l, done, m, s =>
    let (seen, s) := s.coin
    if seen then unseen l (e.map (·.1) ++ done) m s
    else unseen l done ((e.filter (fun x => !done.contains x.1)).foldl (fun m x => NMap.insert m x.1 x.2) m) s
def settleS (s : State) (wid : Nat) : State :=
  let u := (s.warp wid).sUndo
  if u = [] then s
  else
    let (m, s) := unseen u [] [] s
    s.updWarp wid (fun w => { w with sSeen := m })

/-- The translation that a warp's word has for an address: one formed for it, or one that the caches hold (R101, R104). -/
def xlFor (s : State) (w : Warp) (va : Nat) (kind : AccKind) : Option XRes :=
  match w.formed.find? (fun f => f.page = va / 2 ^ 16 ∧ f.kind = kind) with
  | some f =>
    match f.res with
    | .ok t => some (.ok { t with pa := t.pa + va % 2 ^ 16 })
    | r => some r
  | none => (tlbFind s w.core (ctxOf s w) (va / 2 ^ 16) kind).map (fun t => .ok { t with pa := t.pa + va % 2 ^ 16 })

/-- Ask for a walk, or join one of the same context and page that waits or is in progress on the die (R102); none where the cove's
queue holds 64. Walks of several kinds merge: lanes whose access the walk's translation does not serve walk again (DESIGN CHOICE, log
entry 32). -/
def startWalk (s : State) (ctx core page : Nat) (kind : AccKind) : Option Nat × State :=
  match s.xl.walks.find? (fun k => k.2.ctx = ctx ∧ k.2.page = page ∧ dieOf k.2.core = dieOf core) with
  | some k => (some k.1, s)
  | none =>
    if 64 ≤ (waitingWalks s (coveOf core)).length then (none, s)
    else
      let (id, s) := s.fresh
      let x : Walk := { ctx := ctx, page := page, kind := kind, core := core }
      (some id, takeWalks (s.updXL (fun y => { y with walks := NMap.insert y.walks id x })) (dieOf core) 64)

/-- Start or join the walks of pages, as far as the cove's queue takes them, and park the warp on them (R61, R102, R104). -/
def parkOnWalks (s : State) (wid : Nat) (kind : AccKind) (pages : List Nat) : State :=
  let w := s.warp wid
  let (ids, s) := pages.foldl (fun (acc : List Nat × State) p =>
    let (id, s) := startWalk acc.2 (ctxOf s w) w.core p kind
    (acc.1 ++ id.toList, s)) ([], s)
  parkWarp s wid (if ids = [] then .walkRoom (coveOf w.core) else .walk ids)

/-- What a fetch of the word at an address gives. -/
inductive FetchRes where
  | word (v : DWord)
  | miss
  | fault (code : Nat)
  | request (f : XFail)
  | far (leafPa rec : Nat)

/-- The code object of a warp's grid, for the caches of code and constants (R143). -/
def objOf (s : State) (w : Warp) : Nat := ctxOf s w * 2 ^ 56 + (s.grid (s.group w.gi).grid).code

/-- The line of a code object that a core's cache of code or constants holds (R143). -/
def codeLine (m : NMap CodeLine) (core obj vline : Nat) : Option CodeLine :=
  (m.find? (fun c => c.1 / 2 ^ 41 = core && c.2.obj = obj && c.2.vline = vline)).map (·.2)

/-- A cache of code or constants takes a line in (R143): a full one, of `cap` lines a core, gives up a line the part chooses (FREE
VALUE, log entry 5). -/
def codePut (m : NMap CodeLine) (cap core : Nat) (x : CodeLine) (s : State) : NMap CodeLine × State :=
  let (id, s) := s.fresh
  let rest := m.filter (fun c => !(c.1 / 2 ^ 41 = core && c.2.obj = x.obj && c.2.vline = x.vline))
  let same := rest.filter (fun c => c.1 / 2 ^ 41 = core)
  if cap ≤ same.length then
    let (i, s) := s.pick same.length
    (NMap.insert (NMap.erase rest ((same.map (·.1)).getD i 0)) (core * 2 ^ 41 + id) x, s)
  else (NMap.insert rest (core * 2 ^ 41 + id) x, s)

/-- The line of memory at a physical address, as a cache of code or constants takes it for a warp's object: a request to the LLC. -/
def codeFill (s : State) (w : Warp) (va pa : Nat) : CodeLine × State :=
  let s := llcEnsure (countReq s (ctxOf s w) (va / 2 ^ 16) w.core false) (pa / 128)
  ({ obj := objOf s w, vline := va / 128, line := pa / 128, bytes := memBytes s (pa / 128 * 128) 128 }, s)

/-- Read the word at a warp's PC, at a physical address, through the instruction cache of 128 KiB: as the cache holds it, or as the LLC
does (R143; where they differ, FREE VALUE, log entry 5). -/
def icRead (s : State) (w : Warp) (va pa : Nat) : FetchRes × State :=
  let ofLine := fun (l : CodeLine) => FetchRes.word (BitVec.ofNat 64 (natOfBytes ((l.bytes.drop (pa % 128)).take 8)))
  let fill := fun (s : State) =>
    if llcPoisoned s pa then (FetchRes.fault 0x15, s)
    else
      let (x, s) := codeFill s w va pa
      let (m, s) := codePut s.mm.icache 1024 w.core x s
      (ofLine x, s.updMM (fun y => { y with icache := m }))
  match codeLine s.mm.icache w.core (objOf s w) (va / 128) with
  | none => fill s
  | some l =>
    if l.bytes = memBytes s (pa / 128 * 128) 128 then (ofLine l, s)
    else
      let (b, s) := s.coin
      if b then fill s else (ofLine l, s)

/-- Fetch the word at an address for a warp (R103, R143). -/
def fetchWord (s : State) (w : Warp) (pc : Nat) : FetchRes × State :=
  if 2 ^ 55 ≤ pc then (.fault 0x10, s)
  else
    match xlFor s w pc .fetch with
    | none => (.miss, s)
    | some .busy => (.miss, s)
    | some (.ok t) => if t.ty = .page ∨ t.ty = .rxWin then icRead s w pc t.pa else (.fault 0x17, s)
    | some (.far leaf rec) => (.far leaf rec, s)
    | some (.fail f) => if ownFailure s (ctxOf s w) f then (.fault (failCode f), s) else (.request f, s)

/-- OP of a word for fault records: for a dual word HOP of its first half (R42, R391). -/
def opcOf (v : DWord) : Nat :=
  if v.getLsbD 61 then v.toNat / 2 ^ 55 % 64 else v.toNat / 2 ^ 53 % 256

/-- A word is the trailer (R62). -/
def isTrl (v : DWord) : Bool := !(v.getLsbD 61) && v.toNat / 2 ^ 53 % 256 = 0xFF

/-- Words that may stand only last in their run (R59). -/
def lastOnly : Instr → Bool
  | .bra .. | .brx .. | .call .. | .ret .. | .exit .. | .launch .. => true
  | _ => false

/-- Instructions that a word counts as (R58). -/
def weight : Instr → Nat
  | .trl .. => 0
  | .dualWord .. => 2
  | _ => 1

/-- Temporaries that a word reads, and those it names as destinations, as bits (R60). -/
def tempBits (l : List Nat) : Nat := l.foldl (fun acc i => acc ||| 2 ^ i) 0
def tempsRead (i : Instr) : Nat := tempBits ((((instrUses i).filter (·.src)).map RegUse.temps).flatten)
def tempsNamed (i : Instr) : Nat := tempBits ((((instrUses i).filter (·.dst)).map RegUse.temps).flatten)

/-- A word breaks the rules of its run (R58, R60, R62); `count` and `named` are those of the words before it. -/
def breaksRun (w : Warp) (i : Instr) : Bool :=
  match i with
  | .trl .. => w.count = 0
  | i => decide (24 < w.count + weight i) || (tempsRead i &&& w.named) != tempsRead i

/-- Bits of the roles a word needs (R70, R72, R73): 1 V, 2 C, 4 M. -/
def roleOf (v : DWord) : Nat :=
  let op := v.toNat / 2 ^ 53 % 256
  let half := fun (h : Nat) => if 0x10 ≤ h ∧ h ≤ 0x1B then 1 else 0
  if v.getLsbD 61 then half (v.toNat / 2 ^ 55 % 64) ||| half (v.toNat / 2 ^ 25 % 64)
  else if 0x40 ≤ op ∧ op < 0x80 then 1
  else if 0xB0 ≤ op ∧ op < 0xC0 then (if op = 0xB5 then 0 else 2)
  else if 0xC0 ≤ op ∧ op < 0xD0 then 4
  else 0

/-- Privileged words (R71, R377), and WMAP, which runs in the root alone (R318). -/
def privileged (v : DWord) : Bool :=
  let op := v.toNat / 2 ^ 53 % 256
  !(v.getLsbD 61) && (op = 0x0E || (decide (0xE0 ≤ op) && decide (op < 0xF0)))

/-- The group has the rights that a word needs (R71, R318, R402): the STEWARD flag of its launch for a privileged word; its
context's STEWARD right as well for SUBDEV and SHARE; the root's context for WMAP. -/
def mayRun (s : State) (g : Group) (v : DWord) : Bool :=
  let op := v.toNat / 2 ^ 53 % 256
  !(privileged v) || ((s.grid g.grid).steward && (!(op = 0xE2 || op = 0xEA) || (s.ctx g.ctx).grant.steward) &&
    (op != 0xE9 || g.ctx = 0))

/-- How a word's issue comes out: a state in which it is to execute, or a state in which its warp parked, faulted or split. -/
inductive Issued where
  | exec (i : Instr) (v : DWord) (s : State)
  | done (s : State)

/-- Lanes of a warp await a page request or a recall at addresses (R391). -/
def noteEas (s : State) (wid : Nat) (l : List (Nat × Nat)) : State :=
  s.updWarp wid (fun w => { w with eas := l.foldl (fun m q => NMap.insert m q.1 q.2) [] })

/-- A warp waits for the page request of lanes of its word (R104, R105, R468). A full table leaves it to walk again. -/
def requestAll (s : State) (wid : Nat) (lanes : List (Nat × LaneEnt)) (va : Nat) (kind : AccKind) (f : XFail) : State :=
  let w := s.warp wid
  let s := noteEas s wid (lanes.map (fun q => (q.1, va)))
  match attachReq s (ctxOf s w) w.core va lanes.length kind f with
  | (some (id, new), s) =>
    let s := if new then writeRequest s id else s
    parkWarp (s.updWarp wid (fun w => { w with formed := [] })) wid (.page [id])
  | (none, s) => parkWarp (s.updWarp wid (fun w => { w with formed := [] })) wid (.table (dieOf w.core))

/-- Fetch for a warp, or park or stop it (R61, R103, R104): a fault is precise at the word, ADDR the address fetched. -/
def fetchOr (s : State) (wid pc opc : Nat) (k : DWord → State → Issued) : Issued :=
  let w := s.warp wid
  match fetchWord s w pc with
  | (.word v, s) => k v s
  | (.miss, s) =>
    .done (parkOnWalks s wid .fetch [pc / 2 ^ 16])
  | (.fault code, s) => .done (faultWord s wid opc 0 code (some pc))
  | (.request f, s) => .done (requestAll s wid (activeLanes w) pc .fetch f)
  | (.far leaf rec, s) =>
    match startRecall s (ctxOf s w) leaf rec with
    | (some id, s) =>
      let s := noteEas s wid ((activeLanes w).map (fun q => (q.1, pc)))
      .done (parkWarp (s.updWarp wid (fun w => { w with formed := [] })) wid (.far [id]))
    | (none, s) => .done (s.updWarp wid (fun w => { w with formed := [] }))

/-- What the word at the PC adds to its run's count, and the temporaries it names, whether or not it faults (R58, R60, R61). -/
def note (s : State) (wid n named : Nat) : State := s.updWarp wid (fun w => { w with wordN := n, wordNamed := named })

/-- Temporaries that a word names, as far as its fields say what it is (R61). -/
def namedByWord (v : DWord) : Nat :=
  if v.getLsbD 61 then
    let half := fun (x : Option (Bool × Half)) =>
      (x.map (fun h => tempBits (((halfUses h.2).filter (·.dst)).map RegUse.temps).flatten)).getD 0
    half (decodeHalf (v.extractLsb' 31 30)) ||| half (decodeHalf (v.extractLsb' 1 30))
  else ((decodeFull (Raw.unpack v)).map (fun i => tempsNamed i.2)).getD 0

/-- The half of a dual word that a fault lies in, true for half Y: the first half that breaks the rule by itself; none where
the word breaks it as a whole (R69, R391). -/
def faultHalf (regs : Nat) (w : Warp) (v : DWord) (code : Nat) : Option Bool :=
  let pick := fun (x y : Bool) => if x then some false else if y then some true else none
  match decodeHalf (v.extractLsb' 31 30), decodeHalf (v.extractLsb' 1 30) with
  | some (okx, x), some (oky, y) =>
    let regsBad := fun (ok : Bool) (h : Half) => !(ok && (halfUses h).all (fun u => u.kind.accepts regs u.reg))
    let tempBad := fun (h : Half) =>
      let b := tempBits (((halfUses h).filter (·.src)).map RegUse.temps).flatten
      (b &&& w.named) != b
    match code with
    | 0x02 => pick (regsBad okx x) (regsBad oky y)
    | 0x04 => if w.count + 2 ≤ 24 then pick (tempBad x) (tempBad y) else none
    | 0x05 => pick (hopNeedsV x.op) (hopNeedsV y.op)
    | _ => none
  | x, y => pick x.isNone y.isNone

/-- OPC and FLAGS of a fault record for a word (R391): for a dual word HOP of the faulting half, FLAGS[1], and FLAGS[2] for
half Y. Where no half by itself is at fault, which one is named is open (FREE VALUE, log entry 5). -/
def opcFlags (s : State) (v : DWord) (y : Option Bool) : Nat × Nat × State :=
  if v.getLsbD 61 then
    let (b, s) := match y with
      | some b => (b, s)
      | none => s.coin
    if b then (v.toNat / 2 ^ 25 % 64, 6, s) else (v.toNat / 2 ^ 55 % 64, 2, s)
  else (opcOf v, 0, s)

/-- A fault of the word at decode or at the checks before it executes (R69, R71). The word still counts (R61). -/
def wordFault (s : State) (wid : Nat) (v : DWord) (n code : Nat) : Issued :=
  let w := s.warp wid
  let (opc, flags, s) := opcFlags s v (faultHalf (s.group w.gi).regs w v code)
  .done (faultWord (note s wid n (namedByWord v)) wid opc flags code none)

def decodeCode : DecodeFault → Nat
  | .illegalOp => 0x01
  | .regRange => 0x02
  | .illegalPair => 0x03
  | .illegalRun => 0x04

/-- Row of a v register of a home warp, from the key of one of its words (R191). -/
def rowOf (key : Nat) : Nat := key / 32

/-- The operands read, in a lane, a register row that a soft error has poisoned and no full overwrite has cleared (R465). -/
def readsPoison (s : State) (w : Warp) (e : LaneEnt) (l : List RegUse) : Bool :=
  l.any (fun u => u.src &&
    match u.reg with
    | .v n => (List.range u.kind.width).any (fun j =>
        s.pt.rowPoison.any (fun k => rowOf k = rowOf (vKey w.gi e.hwarp (n.val + j) e.hlane)))
    | _ => false)

/-- The parts of a word with the guard of each: a full word is one part, a dual word two (R44, R54). -/
def guardedParts (v : DWord) (i : Instr) : List (Hdr × List RegUse) :=
  match i with
  | .dualWord _ _ x y => [(⟨false, false, false, x.g⟩, halfUses x), (⟨false, false, false, y.g⟩, halfUses y)]
  | _ => [(⟨false, false, v.getLsbD 52, (v.extractLsb' 49 3).toFin⟩, instrUses i)]

/-- Taking lanes that read a poisoned register row (R465). -/
def poisonLanes (s : State) (w : Warp) (parts : List (Hdr × List RegUse)) : List LaneFault :=
  if s.pt.rowPoison = [] then []
  else
    (activeLanes w).filterMap (fun q =>
      if parts.any (fun x => guardOf s w x.1 q.1 q.2 && readsPoison s w q.2 x.2) then some ⟨q.1, q.2, 0x15, none, 0⟩ else none)

/-- ISSUING A WORD: settle, fetch, decode, check. -/
def issueWord (s : State) (wid : Nat) : Issued :=
  let s := settleS (settleRows (settleResults s (s.warp wid).gi) (s.warp wid).gi) wid
  let s := s.updWarp wid (fun w => { w with park := .none, curOp := 0, eas := [] })
  let pc := (s.warp wid).pc.toNat
  fetchOr s wid pc 0 (fun v s =>
    let w := s.warp wid
    let s := s.updWarp wid (fun w => { w with curB := v.getLsbD 63, curOp := opcOf v })
    let g := s.group w.gi
    match decodeWord g.regs v with
    | .error e => wordFault s wid v (if v.getLsbD 61 then 2 else if isTrl v then 0 else 1) (decodeCode e)
    | .ok i =>
      let go : DWord → State → Issued := fun next s =>
        if breaksRun w i || (lastOnly i && !(v.getLsbD 63) && !(isTrl next)) then wordFault s wid v (weight i) 0x04
        else
          let s := note s wid (weight i) (tempsNamed i)
          if (roleOf v &&& g.roles) != roleOf v then wordFault s wid v (weight i) 0x05
          else if !mayRun s g v then wordFault s wid v (weight i) 0x06
          else
            match poisonLanes s (s.warp wid) (guardedParts v i) with
            | [] => .exec i v s
            | fs =>
              let first := (guardedParts v i).take 1
              let (opc, flags, s) := opcFlags s v (some (poisonLanes s (s.warp wid) first = []))
              let s := takeFaults s wid opc flags fs true
              if activeLanes (s.warp wid) = [] then .done (dropStopped s wid) else .exec i v s
      if lastOnly i && !(v.getLsbD 63) then fetchOr s wid (pc + 8) (opcOf v) go else go v s)

/-- Words whose run did something for the eddy watch besides writing registers (R385). -/
def doesWork : Instr → Bool
  | .st .. | .sts .. | .stsc .. | .ldsc .. | .atom .. | .atomcas .. | .red .. | .bsig .. | .stflip .. | .cpy .. | .cpy2d ..
  | .cpyg .. | .cpys .. | .cpyf .. | .mxrun .. | .mxst .. | .xbulk .. | .xred .. | .xsig .. | .launch .. => true
  | _ => false

/-- A destination that is written when a result returns, not by the word itself (R64). -/
def writtenLater (i : Instr) (u : RegUse) : Bool :=
  match i with
  | .call .. => false
  | _ => !u.kind.s && !u.kind.t

/-- Poisoned words of register rows that a word of the issuing warp has overwritten (R465). -/
def clearPoison (before after : State) (wid : Nat) (v : DWord) (i : Instr) : State :=
  if before.pt.rowPoison = [] then after
  else
    let w := before.warp wid
    let still := (activeLanes (after.warp wid)).map (·.1)
    let keys := (guardedParts v i).flatMap (fun x =>
      ((takingLanes before w x.1).filter (fun q => after.wk.warps.find wid = none || still.contains q.1)).flatMap (fun q =>
        (x.2.filter (fun u => u.dst && !writtenLater i u)).flatMap (fun u =>
          match u.reg with
          | .v n => (List.range u.kind.width).map (fun j => vKey w.gi q.2.hwarp (n.val + j) q.2.hlane)
          | _ => [])))
    after.updPT (fun p => { p with rowPoison := p.rowPoison.filter (fun k => !keys.contains k) })

/-- Predicates that a word writes (R203, R288). -/
def predDsts : Instr → List Nat
  | .iadd64 _ _ _ _ p _ co => if co then (p.map (·.val)).toList else []
  | .icmp _ p _ _ _ _ | .plop _ p _ _ _ _ | .fcmp _ p _ _ _ _ _ _ _ => [p.val]
  | .shfl _ _ _ _ p _ _ _ | .shflx _ _ _ _ p _ => (p.map (·.val)).toList
  | .vote _ (.inr p) _ _ _ => [p.val]
  | _ => []

/-- Helper lanes raise no fault on a poisoned register row they read: their results are 0 (R195, R465), a result still pending too. -/
def zeroHelpers (before after : State) (wid : Nat) (v : DWord) (i : Instr) : State :=
  if before.pt.rowPoison = [] then after
  else
    let w := before.warp wid
    (guardedParts v i).foldl (fun s x =>
      ((guardedLanes before w x.1).filter (fun q => q.2.help && readsPoison before w q.2 x.2)).foldl (fun s q =>
        let s := (x.2.filter (fun u => u.dst)).foldl (fun s u => if writtenLater i u then s else writeLane s wid q.1 q.2 u.reg u.kind.width 0) s
        let s := (predDsts i).foldl (fun s p => writePred s wid q.1 q.2 p false) s
        s.updWK (fun k => { k with results := k.results.map (fun r =>
          if (before.wk.results.find r.1).isSome then r
          else (r.1, { r.2 with lanes := r.2.lanes.map (fun l =>
            if l.help = some (wid, q.1) then { l with vals := l.vals.map (fun _ => 0), src := .fixed } else l) })) })) s) after

/-- After a word: the eddy watch sees whether it changed a register or did work (R385), and the cycle is metered (R425). -/
def noteWork (before after : State) (wid : Nat) (i : Instr) : State :=
  let ctx := ctxOf before (before.warp wid)
  let changed := doesWork i || before.rg.v != after.rg.v || before.rg.s != after.rg.s || before.rg.p != after.rg.p ||
    before.rg.k != after.rg.k
  let s := if changed then after.updWarp wid (fun w => { w with worked := true }) else after
  s.updCtx ctx (fun c => { c with corecyc := (c.corecyc + 1) % 2 ^ 64 })

/-- A warp can issue: it is ready, on its quarter's slot, its group on a core. -/
def canIssue (s : State) (wid : Nat) : Bool :=
  match s.wk.warps.find wid with
  | none => false
  | some w =>
    ready s w && (s.group w.gi).resident &&
    (((s.wk.quarters.find (w.core * 4 + w.quarter)).getD {}).run = some wid)

/-- The rows that are events of the part or of the world outside it. -/
def isEvent : Instr → Bool
  | .powerSample .. | .softError .. | .portLinkChange .. | .layoutAbandon .. | .ckptTrigger .. | .migrationEpoch .. |
  .parkComplete .. | .recallComplete .. | .launchFrame .. | .recordAcceptance .. | .spanPlacement .. |
  .gridCompletion .. | .runSelection .. | .preemption .. | .eddyRestore .. | .matrixGrantSwitch .. |
  .resultReturn .. | .walkComplete .. | .storePerform .. | .directoryAck .. | .drop .. | .lineRetry .. |
  .serviceWarpRequest .. | .bwaitRetest .. | .copyGranule .. | .xbulkGranule .. | .mxstGranule .. |
  .matrixGranule .. | .rxPacket .. | .signalPacket .. | .packetAck .. | .flitReplay .. | .packetRetransmit .. |
  .enrolmentConfirm .. | .enrolmentLost .. | .freezeComplete .. | .checkpointImage .. | .backwashFrame .. |
  .receiptSigned .. | .hostWrite .. | .hostWriteImm .. | .hostReadRefused .. | .readview .. | .exportCmd .. |
  .keyload .. | .armckpt .. | .report .. | .health .. | .layout .. | .powercap .. | .bootstmt .. | .reset .. |
  .extensionApplied .. | .hostAcknowledgement .. | .powerOn | .resetLine | .powerLoss | .layoutTick | .framemsTick => true
  | _ => false

/-- Cycles pass (R201). -/
def passCycles (s : State) (n : Nat) : State := s.updPT (fun p => { p with cycle := (p.cycle + n) % 2 ^ 64 })

end Sys2Proof.Machine
end

