-- ==== Sys2Proof/Machine/Operands.lean ====
section
/-!
DEFINITION. Operand forms shared by the fixed-latency words (R44, R52, R53, R195, R197, R203, R204): every lane whose guard
is true reads all its sources as the word issues, and writes its destination before the next word.
-/
namespace Sys2Proof.Machine

/-- What a meaning answers. -/
abbrev Out := Host.Outcome State Fault Refusal

/-- The issue warp whose word executes. -/
def State.curWarp (s : State) : Warp := s.warp s.md.cur

/-- The value that each guarded lane forms from its own operands. -/
def laneVals {α : Type} (s : State) (h : Hdr) (f : Nat → LaneEnt → α) : List (Nat × LaneEnt × α) :=
  (guardedLanes s s.curWarp h).map (fun q => (q.1, q.2, f q.1 q.2))

/-- A source of `width` registers as a lane reads it. -/
def srcVal (s : State) (r : Reg) (width : Nat) (p : Nat) (e : LaneEnt) : Nat := readVal s s.curWarp p e r width

/-- Write a destination of `width` registers in every guarded lane, and end the word. -/
def putVals (s : State) (h : Hdr) (d : Reg) (width : Nat) (vals : List (Nat × LaneEnt × Nat)) : State :=
  finish (writeDst s s.md.cur d width vals) h.b h.w

/-- A word of one source. -/
def unaryWord (s : State) (h : Hdr) (d a : Reg) (wd wa : Nat) (f : Nat → Nat) : State :=
  putVals s h d wd (laneVals s h (fun p e => f (srcVal s a wa p e)))

/-- A word of two sources. -/
def binaryWord (s : State) (h : Hdr) (d a b : Reg) (wd wa wb : Nat) (f : Nat → Nat → Nat) : State :=
  putVals s h d wd (laneVals s h (fun p e => f (srcVal s a wa p e) (srcVal s b wb p e)))

/-- A word of three sources. -/
def ternaryWord (s : State) (h : Hdr) (d a b c : Reg) (wd wa wb wc : Nat) (f : Nat → Nat → Nat → Nat) : State :=
  putVals s h d wd (laneVals s h (fun p e => f (srcVal s a wa p e) (srcVal s b wb p e) (srcVal s c wc p e)))

/-- The generators of the lanes after a word that rounds stochastically (R21, R22, R195). -/
def setGens (s : State) (gi : Nat) (l : List (Nat × LaneEnt × Word)) : State :=
  l.foldl (fun s v => setGen s gi v.2.1 v.2.2) s

/-- A word whose results are rounded: each lane forms its result and its generator's next state from its operands and its
generator; the generators move under RM .rs alone (R19, R22). -/
def roundedWord (s : State) (h : Hdr) (d : Reg) (width : Nat) (rm : Rm) (f : Nat → LaneEnt → Word → Nat × Word) : State :=
  let w := s.curWarp
  let out := laneVals s h (fun p e => f p e (genOf s w e))
  let s := if rm = .rs then setGens s w.gi (out.map (fun v => (v.1, v.2.1, v.2.2.2))) else s
  putVals s h d width (out.map (fun v => (v.1, v.2.1, v.2.2.1)))

end Sys2Proof.Machine
end

