-- ==== Sys2Proof/Machine/Flags.lean ====
section
/-!
DEFINITION. Predicates as results (R196, R205, R214, R216, R231): the part keeps no flags register; a comparison, a carry or a
combination of predicates goes to one of p0 to p6 of each lane, and what is written to p7 is discarded.
-/
namespace Sys2Proof.Machine

/-- Write a predicate in every guarded lane, and end the word. -/
def putPreds (s : State) (h : Hdr) (p : Fin 8) (vals : List (Nat × LaneEnt × Bool)) : State :=
  finish (writePreds s s.md.cur p.val vals) h.b h.w

/-- A predicate as a guarded lane of the executing word reads it (R196). -/
def predVal (s : State) (i : Fin 8) (p : Nat) (e : LaneEnt) : Bool := readPred s s.curWarp p e i.val

/-- A comparison of two sources into a predicate. -/
def compareWord (s : State) (h : Hdr) (p : Fin 8) (a b : Reg) (width : Nat) (f : Nat → Nat → Bool) : State :=
  putPreds s h p (laneVals s h (fun q e => f (srcVal s a width q e) (srcVal s b width q e)))

/-- Write a destination and a predicate of the same lanes, and end the word. -/
def putBoth (s : State) (h : Hdr) (d : Reg) (width : Nat) (vals : List (Nat × LaneEnt × Nat)) (p : Nat)
    (preds : List (Nat × LaneEnt × Bool)) : State :=
  finish (writePreds (writeDst s s.md.cur d width vals) s.md.cur p preds) h.b h.w

end Sys2Proof.Machine
end

