-- ==== Sys2Proof/Machine/IntOps.lean ====
section
/-!
DEFINITION. Integer, shift, logic and bit-field functions on raw operand values (R18, R202 to R219). A raw value is the
natural number that the operand's 32 or 64 bits spell.
-/
namespace Sys2Proof.Machine

/-- n of a type (R203). -/
def tyBits : ITy → Nat
  | .i8 | .n8 => 8
  | .i16 | .n16 => 16
  | .i32 | .n32 => 32
  | .i64 | .n64 => 64

/-- The low `n` bits as a two's-complement number. -/
def toSigned (n u : Nat) : Int :=
  let x := u % 2 ^ n
  if 2 ^ (n - 1) ≤ x then (x : Int) - 2 ^ n else x

/-- The number congruent to `e` modulo 2^n, from 0 upward. -/
def wrapNat (n : Nat) (e : Int) : Nat := (e % (2 ^ n : Int)).toNat

/-- rd (R203). -/
def rdTy (ty : ITy) (raw : Nat) : Int :=
  if signedTy ty then toSigned (tyBits ty) raw else (raw % 2 ^ tyBits ty : Nat)

/-- lo and hi of a type (R18). -/
def tyLo (ty : ITy) : Int := if signedTy ty then -(2 ^ (tyBits ty - 1) : Int) else 0
def tyHi (ty : ITy) : Int := if signedTy ty then (2 ^ (tyBits ty - 1) : Int) - 1 else (2 ^ tyBits ty : Int) - 1

/-- Clamping into a range. -/
def clampInt (lo hi e : Int) : Int := min (max e lo) hi

/-- fit (R203). -/
def fitTy (ty : ITy) (sat : Bool) (e : Int) : Int :=
  if sat then clampInt (tyLo ty) (tyHi ty) e else rdTy ty (wrapNat 64 e)

/-- wr (R203): the raw bits written for a value of the type. -/
def wrTy (ty : ITy) (y : Int) : Nat := wrapNat (if tyBits ty = 64 then 64 else 32) y

/-- Two-source arithmetic of R206. -/
inductive IntBin where
  | add | sub | mul | mulh | min | max
deriving DecidableEq, Repr

/-- R206: IADD, ISUB, IMUL, IMULH, IMIN and IMAX. -/
def intBin (op : IntBin) (ty : ITy) (sat : Bool) (x y : Nat) : Nat :=
  let a := rdTy ty x
  let b := rdTy ty y
  match op with
  | .add => wrTy ty (fitTy ty sat (a + b))
  | .sub => wrTy ty (fitTy ty sat (a - b))
  | .mul => wrTy ty (fitTy ty sat (a * b))
  | .mulh => wrTy ty ((a * b) / (2 ^ tyBits ty : Int))
  | .min => wrTy ty (min a b)
  | .max => wrTy ty (max a b)

/-- R206: IMAD. -/
def intMad (ty : ITy) (sat : Bool) (x y z : Nat) : Nat :=
  wrTy ty (fitTy ty sat (rdTy ty x * rdTy ty y + rdTy ty z))

/-- R206: IABS and INEG. -/
def intAbs (ty : ITy) (sat : Bool) (x : Nat) : Nat := wrTy ty (fitTy ty sat ((rdTy ty x).natAbs : Int))
def intNeg (ty : ITy) (sat : Bool) (x : Nat) : Nat := wrTy ty (fitTy ty sat (-(rdTy ty x)))

/-- R207: IMADW. -/
def intMadw (signed sat : Bool) (x y z : Nat) : Nat :=
  let t32 := if signed then ITy.i32 else ITy.n32
  let t64 := if signed then ITy.i64 else ITy.n64
  wrTy t64 (fitTy t64 sat (rdTy t32 x * rdTy t32 y + rdTy t64 z))

/-- R208: the sum and the carry-out of IADD64. -/
def add64 (x y : Nat) (cin : Bool) : Nat × Bool :=
  let e := x + y + (if cin then 1 else 0)
  (e % 2 ^ 64, decide (2 ^ 64 ≤ e))

/-- R209: LEA. -/
def leaVal (ty : ITy) (base x : Nat) (k : Nat) : Nat :=
  let i : Int := match ty with
    | .i32 => toSigned 32 x
    | .n32 => ((x % 2 ^ 32 : Nat) : Int)
    | .i8 | .i16 | .i64 | .n8 | .n16 | .n64 => ((x % 2 ^ 64 : Nat) : Int)
  wrapNat 64 ((base : Int) + i * 2 ^ k)

/-- Shifts of R210. -/
inductive ShiftOp where
  | shl | ashr | lshr | rot
deriving DecidableEq, Repr

/-- R210: a shift of the low n bits of `x` by the amount `s`. -/
def shiftVal (op : ShiftOp) (ty : ITy) (x s : Nat) : Nat :=
  let n := tyBits ty
  let a := x % 2 ^ n
  match op with
  | .shl => if s < n then (a * 2 ^ s) % 2 ^ n else 0
  | .lshr => if s < n then a / 2 ^ s else 0
  | .ashr => wrapNat n (toSigned n a / (2 ^ (min s n) : Int))
  | .rot =>
    let r := s % n
    (a * 2 ^ r) % 2 ^ n + a / 2 ^ (n - r)

/-- R211: one bit of a truth table, the inputs' bits lowest first. -/
def ttBit (tt : BitVec 8) (a b c : Bool) : Bool :=
  tt.getLsbD ((if a then 1 else 0) + (if b then 2 else 0) + (if c then 4 else 0))

/-- R211: LOP3, bit by bit over 32 bits. -/
def lop3Val (tt : BitVec 8) (a b c : Nat) : Nat :=
  (List.range 32).foldl (fun acc i => acc + (if ttBit tt (a.testBit i) (b.testBit i) (c.testBit i) then 2 ^ i else 0)) 0

/-- Bitwise functions of R211. -/
inductive LogicOp where
  | and | or | xor
deriving DecidableEq, Repr

def logicVal (op : LogicOp) (ty : ITy) (x y : Nat) : Nat :=
  let n := tyBits ty
  match op with
  | .and => (x &&& y) % 2 ^ n
  | .or => (x ||| y) % 2 ^ n
  | .xor => (x ^^^ y) % 2 ^ n

def notVal (ty : ITy) (x : Nat) : Nat := 2 ^ tyBits ty - 1 - x % 2 ^ tyBits ty

/-- R212: POPC, CLZ and BREV over n bits. -/
def popcVal (ty : ITy) (x : Nat) : Nat :=
  ((List.range (tyBits ty)).filter (fun i => x.testBit i)).length

def clzVal (ty : ITy) (x : Nat) : Nat :=
  match (List.range (tyBits ty)).reverse.find? (fun i => x.testBit i) with
  | some i => tyBits ty - 1 - i
  | none => tyBits ty

def brevVal (ty : ITy) (x : Nat) : Nat :=
  let n := tyBits ty
  (List.range n).foldl (fun acc i => acc + (if x.testBit i then 2 ^ (n - 1 - i) else 0)) 0

/-- R213: position and length of a field. -/
def fieldPos (n ctl : Nat) : Nat := min (ctl % 256) n
def fieldLen (n ctl : Nat) : Nat := min (ctl / 256 % 256) (n - fieldPos n ctl)

/-- R213: BFX. -/
def bfxVal (ty : ITy) (x ctl : Nat) : Nat :=
  let n := tyBits ty
  let pos := fieldPos n ctl
  let len := fieldLen n ctl
  let f := x % 2 ^ n / 2 ^ pos % 2 ^ len
  if signedTy ty && decide (0 < len) then wrapNat n (toSigned len f) else f

/-- R213: BFI. -/
def bfiVal (ty : ITy) (x y ctl : Nat) : Nat :=
  let n := tyBits ty
  let a := x % 2 ^ n
  let pos := fieldPos n ctl
  let len := fieldLen n ctl
  a - (a / 2 ^ pos % 2 ^ len) * 2 ^ pos + (y % 2 ^ len) * 2 ^ pos

/-- R214: the conditions of ICMP. -/
def icmpVal (c : ICond) (ty : ITy) (x y : Nat) : Bool :=
  let a := rdTy ty x
  let b := rdTy ty y
  match c with
  | .eq => decide (a = b)
  | .ne => decide (a ≠ b)
  | .lt => decide (a < b)
  | .le => decide (a ≤ b)
  | .gt => decide (a > b)
  | .ge => decide (a ≥ b)
  | .any => decide ((x &&& y) % 2 ^ tyBits ty ≠ 0)
  | .none => decide ((x &&& y) % 2 ^ tyBits ty = 0)

/-- R219: IDOT4. -/
def idot4Val (signed mix sat : Bool) (x y z : Nat) : Nat :=
  let byteOf (s : Bool) (v i : Nat) : Int := if s then toSigned 8 (v / 256 ^ i) else ((v / 256 ^ i % 256 : Nat) : Int)
  let e := (List.range 4).foldl (fun acc i => acc + byteOf signed x i * byteOf (signed != mix) y i) (toSigned 32 z)
  wrTy .i32 (fitTy .i32 sat e)

/-- A value of a width-only or any type moved unchanged (R215, R217). -/
def copyVal (ty : ITy) (x : Nat) : Nat := x % 2 ^ tyBits ty

/-- R72, R222: the integer halves, of D and A or of D and the immediate. -/
def sext5 (m : BitVec 5) : Nat := wrapNat 32 m.toInt

end Sys2Proof.Machine
end

