-- ==== Sys2Proof/Machine/FloatOps.lean ====
section
/-!
DEFINITION. Floating-point values, rounding and the float functions (R14 to R22, R39, R225 to R240, R243). Values are
exact: every finite value is a natural number times a power of two with a sign, and each result is rounded once.
-/
namespace Sys2Proof.Machine

/-- A plain binary format: exponent bits, fraction bits, bias (R14). -/
structure FmtF where
  ebits : Nat
  mbits : Nat
  bias : Nat
deriving DecidableEq, Repr

def fmtF32 : FmtF := ⟨8, 23, 127⟩
def fmtF16 : FmtF := ⟨5, 10, 15⟩
def fmtBF16 : FmtF := ⟨8, 7, 127⟩

/-- The format of a float type (R46). -/
def fmtOf : FTy → FmtF
  | .f32 => fmtF32
  | .f16 => fmtF16
  | .bf16 => fmtBF16

/-- An exact floating-point value: (-1)^neg * m * 2^e when finite. -/
inductive FVal where
  | nan
  | inf (neg : Bool)
  | fin (neg : Bool) (m : Nat) (e : Int)
deriving DecidableEq, Repr

/-- Bits of an infinity without its sign, the sign bit, and the canonical NaN (R14, R16). -/
def FmtF.infBits (f : FmtF) : Nat := (2 ^ f.ebits - 1) * 2 ^ f.mbits
def FmtF.signBit (f : FmtF) : Nat := 2 ^ (f.ebits + f.mbits)
def FmtF.nanBits (f : FmtF) : Nat := f.infBits + 2 ^ (f.mbits - 1)
/-- Exponent of the least subnormal. -/
def FmtF.minE (f : FmtF) : Int := 1 - (f.bias : Int) - f.mbits
/-- Bits of 1.0. -/
def FmtF.oneBits (f : FmtF) : Nat := f.bias * 2 ^ f.mbits

/-- The value of a bit pattern (R14). -/
def decodeF (f : FmtF) (bits : Nat) : FVal :=
  let b := bits % 2 ^ (f.ebits + f.mbits + 1)
  let neg := b.testBit (f.ebits + f.mbits)
  let ex := b / 2 ^ f.mbits % 2 ^ f.ebits
  let fr := b % 2 ^ f.mbits
  if ex = 2 ^ f.ebits - 1 then (if fr = 0 then .inf neg else .nan)
  else if ex = 0 then .fin neg fr f.minE
  else .fin neg (2 ^ f.mbits + fr) (f.minE + (ex : Int) - 1)

def signed (f : FmtF) (neg : Bool) (mag : Nat) : Nat := if neg then f.signBit + mag else mag

/-- Round to nearest even, toward zero, down, up, or stochastically with the draw `u`: whether the magnitude `k` with
remainder `rem` of 2^sh goes up (R19, R22). -/
def roundsUp (rm : Rm) (u : Nat) (neg : Bool) (k rem sh : Nat) : Bool :=
  match rm with
  | .rn => decide (2 ^ sh < 2 * rem) || (decide (2 ^ sh = 2 * rem) && k % 2 == 1)
  | .rz => false
  | .rd => neg && decide (0 < rem)
  | .ru => !neg && decide (0 < rem)
  | .rs => decide (u < rem * 2 ^ 24 / 2 ^ sh)

/-- m * 2^e as an integer multiple of 2^q, rounded. -/
def roundTo (rm : Rm) (u : Nat) (neg : Bool) (m : Nat) (e q : Int) : Nat :=
  if q ≤ e then m * 2 ^ (e - q).toNat
  else
    let sh := (q - e).toNat
    let k := m / 2 ^ sh
    let rem := m % 2 ^ sh
    if roundsUp rm u neg k rem sh then k + 1 else k

/-- A finite magnitude above the format's range (R20). -/
def overflowBits (f : FmtF) (rm : Rm) (neg : Bool) : Nat :=
  let away := match rm with
    | .rn | .rs => true
    | .rz => false
    | .rd => neg
    | .ru => !neg
  signed f neg (if away then f.infBits else f.infBits - 1)

/-- round(e, f, RM) with the draw `u` (R19, R20, R22); a NaN is canonical (R16). -/
def roundF (f : FmtF) (rm : Rm) (u : Nat) : FVal → Nat
  | .nan => f.nanBits
  | .inf neg => signed f neg f.infBits
  | .fin neg m e =>
    if m = 0 then signed f neg 0
    else
      let top : Int := (Nat.log2 m : Int) + e
      let q := max (top - f.mbits) f.minE
      let k := roundTo rm u neg m e q
      let mag := (q - f.minE).toNat * 2 ^ f.mbits + k
      if f.infBits ≤ mag then overflowBits f rm neg else signed f neg mag

/-- One step of a stochastic generator (R22). -/
def stepGen (x : Word) : Word :=
  let a := x ^^^ (x <<< 13)
  let b := a ^^^ (a >>> 17)
  b ^^^ (b <<< 5)

/-- The draw of a generator's state (R22). -/
def drawOf (x : Word) : Nat := x.toNat / 256

/-- Fields of a bit pattern of the format. -/
def magOf (f : FmtF) (bits : Nat) : Nat := bits % f.signBit
def negOf (f : FmtF) (bits : Nat) : Bool := bits.testBit (f.ebits + f.mbits)
def isNanBits (f : FmtF) (bits : Nat) : Bool := decide (f.infBits < magOf f bits)
def isSubnormal (f : FmtF) (bits : Nat) : Bool := decide (0 < magOf f bits) && decide (magOf f bits < 2 ^ f.mbits)

/-- FTZ on an F32 pattern (R15); other formats keep their subnormals. -/
def flushBits (f : FmtF) (ftz : Bool) (bits : Nat) : Nat :=
  if ftz && f == fmtF32 && isSubnormal f bits then bits - magOf f bits else bits

/-- A source modifier on a bit pattern (R225). -/
def modBits (f : FmtF) (m : SMod) (bits : Nat) : Nat :=
  let mag := magOf f bits
  match m with
  | .none => bits
  | .neg => signed f (!negOf f bits) mag
  | .abs => mag
  | .negAbs => signed f true mag

/-- A float source as read: low bits of the format, flushed, modified (R225). -/
def readBits (f : FmtF) (ftz : Bool) (m : SMod) (raw : Nat) : Nat :=
  modBits f m (flushBits f ftz (raw % 2 ^ (f.ebits + f.mbits + 1)))

def readF (f : FmtF) (ftz : Bool) (m : SMod) (raw : Nat) : FVal := decodeF f (readBits f ftz m raw)

/-- SAT on a result (R226). -/
def satBits (f : FmtF) (sat : Bool) (bits : Nat) : Nat :=
  if !sat then bits
  else if isNanBits f bits || negOf f bits || magOf f bits == 0 then 0
  else if f.oneBits < bits then f.oneBits else bits

/-- R226 with a generator: the bits written and the generator afterwards. -/
def finishF (f : FmtF) (rm : Rm) (sat ftz : Bool) (v : FVal) (x : Word) : Nat × Word :=
  let x' := if rm = .rs then stepGen x else x
  (satBits f sat (flushBits f ftz (roundF f rm (drawOf x') v)), x')

-- exact arithmetic (R227)

def negF : FVal → FVal
  | .nan => .nan
  | .inf n => .inf (!n)
  | .fin n m e => .fin (!n) m e

def mulF : FVal → FVal → FVal
  | .nan, _ => .nan
  | _, .nan => .nan
  | .inf a, .inf b => .inf (a != b)
  | .inf a, .fin b m _ => if m = 0 then .nan else .inf (a != b)
  | .fin a m _, .inf b => if m = 0 then .nan else .inf (a != b)
  | .fin a m e, .fin b n e' => .fin (a != b) (m * n) (e + e')

/-- A finite value as an integer multiple of 2^q, for q at or below its exponent. -/
def scaledInt (neg : Bool) (m : Nat) (e q : Int) : Int :=
  let k : Int := (m * 2 ^ (e - q).toNat : Nat)
  if neg then -k else k

def isNanF : FVal → Bool
  | .nan => true
  | .inf _ | .fin .. => false

/-- The exact sum of terms; RM decides the sign of an exact zero that is not a sum of like zeros (R227, R239, R41). -/
def sumF (rm : Rm) (l : List FVal) : FVal :=
  if l.any isNanF then .nan
  else
    let pos := l.any (fun v => v == .inf false)
    let neg := l.any (fun v => v == .inf true)
    if pos && neg then .nan
    else if pos then .inf false
    else if neg then .inf true
    else
      let q : Int := l.foldl (fun acc v => match v with | .fin _ m e => if m = 0 then acc else min acc e | _ => acc) 0
      let s : Int := l.foldl (fun acc v => match v with
        | .fin n m e => if m = 0 then acc else acc + scaledInt n m e q
        | _ => acc) 0
      if s = 0 then
        let negZero := l.all (fun v => match v with | .fin n m _ => n && m == 0 | _ => false)
        let posZero := l.all (fun v => match v with | .fin n m _ => !n && m == 0 | _ => false)
        .fin (if negZero then true else if posZero then false else rm == .rd) 0 0
      else .fin (decide (s < 0)) s.natAbs q

/-- R229. -/
def addF (rm : Rm) (a b : FVal) : FVal := sumF rm [a, b]
def fmaF (rm : Rm) (a b c : FVal) : FVal := sumF rm [mulF a b, c]

/-- a < b of two values, false where either is a NaN. -/
def ltF (a b : FVal) : Bool :=
  match a, b with
  | .nan, _ => false
  | _, .nan => false
  | .inf x, .inf y => x && !y
  | .inf x, .fin .. => x
  | .fin .., .inf y => !y
  | .fin n m e, .fin n' m' e' => decide (scaledInt n m e (min e e') < scaledInt n' m' e' (min e e'))

/-- a = b of two values, zeros of either sign equal, false where either is a NaN. -/
def eqF (a b : FVal) : Bool := !isNanF a && !isNanF b && !ltF a b && !ltF b a

/-- minimumNumber and maximumNumber on bit patterns as read (R230). -/
def minBits (f : FmtF) (a b : Nat) : Nat :=
  if isNanBits f a then (if isNanBits f b then f.nanBits else b)
  else if isNanBits f b then a
  else if ltF (decodeF f b) (decodeF f a) || (eqF (decodeF f a) (decodeF f b) && negOf f b) then b else a

def maxBits (f : FmtF) (a b : Nat) : Nat :=
  if isNanBits f a then (if isNanBits f b then f.nanBits else b)
  else if isNanBits f b then a
  else if ltF (decodeF f a) (decodeF f b) || (eqF (decodeF f a) (decodeF f b) && negOf f a) then b else a

/-- R231: the conditions of FCMP. -/
def fcmpVal (c : FCond) (a b : FVal) : Bool :=
  let un := isNanF a || isNanF b
  match c with
  | .eq => !un && eqF a b
  | .ne => !un && !eqF a b
  | .lt => ltF a b
  | .le => !un && !ltF b a
  | .gt => ltF b a
  | .ge => !un && !ltF a b
  | .num => !un
  | .nan => un
  | .equ => un || eqF a b
  | .neu => un || !eqF a b
  | .ltu => un || ltF a b
  | .leu => un || !ltF b a
  | .gtu => un || ltF b a
  | .geu => un || !ltF a b

/-- R232: the class mask of a bit pattern. -/
def fclassVal (f : FmtF) (bits : Nat) : Nat :=
  let neg := negOf f bits
  let mag := magOf f bits
  if f.infBits < mag then 2 ^ 8
  else if mag = f.infBits then (if neg then 1 else 2 ^ 7)
  else if mag = 0 then (if neg then 2 ^ 3 else 2 ^ 4)
  else if mag < 2 ^ f.mbits then (if neg then 2 ^ 2 else 2 ^ 5)
  else if neg then 2 else 2 ^ 6

/-- R233: multiplication by 2^k. -/
def scaleF (v : FVal) (k : Int) : FVal :=
  match v with
  | .fin n m e => .fin n m (e + k)
  | .nan => .nan
  | .inf n => .inf n

/-- R234: the integral value of the format nearest `v` by RM. -/
def integralF (rm : Rm) (v : FVal) : FVal :=
  match v with
  | .fin n m e => if 0 ≤ e then .fin n m e else .fin n (roundTo rm 0 n m e 0) 0
  | .nan => .nan
  | .inf n => .inf n

/-- R39, R243: a float value as an integer of a type, with the draw `u`. -/
def floatToInt (ty : ITy) (rm : Rm) (u : Nat) (v : FVal) : Int :=
  match v with
  | .nan => 0
  | .inf n => if n then tyLo ty else tyHi ty
  | .fin n m e =>
    let k : Int := roundTo rm u n m e 0
    clampInt (tyLo ty) (tyHi ty) (if n then -k else k)

/-- An integer as an exact float value; zero is +0.0. -/
def intToF (i : Int) : FVal := .fin (decide (i < 0)) i.natAbs 0

-- special functions (R235 to R237)

/-- pi * 2^320, rounded down; ln 2 and log2 e times 2^192, rounded down. -/
def piFix : Int := 0x3243f6a8885a308d313198a2e03707344a4093822299f31d0082efa98ec4e6c89452821e638d01377
def ln2Fix : Int := 0xb17217f7d1cf79abc9e3b39803f2f6af40f343267298b62d
def log2eFix : Int := 0x171547652b82fe1777d0ffda0d23a7d11d6aef551bad2b4b1

/-- Ordinal of an F32 pattern among the values in order, zeros both 0. -/
def ordOf (bits : Nat) : Int := if negOf fmtF32 bits then -(magOf fmtF32 bits : Int) else magOf fmtF32 bits

/-- The pattern of an ordinal. -/
def bitsOfOrd (o : Int) : Nat := signed fmtF32 (decide (o < 0)) o.natAbs

/-- The least F32 ordinal at or above x * 2^-p, and the greatest at or below it; infinities excluded. -/
def ordUp (p : Nat) (x : Int) : Int :=
  min (ordOf (roundF fmtF32 .ru 0 (.fin (decide (x < 0)) x.natAbs (-(p : Int))))) 0x7F7FFFFF
def ordDown (p : Nat) (x : Int) : Int :=
  max (ordOf (roundF fmtF32 .rd 0 (.fin (decide (x < 0)) x.natAbs (-(p : Int))))) (-0x7F7FFFFF)

/-- FREE VALUE (log entry 6): one of the F32 results that lie within `bound` of every value from lo to hi (all times
2^p) and within [least, most]; the part's fixed choice for this function and operand (R235, R236). -/
def pickResult (p fn : Nat) (op : Nat) (ftz : Bool) (lo hi bound least most : Int) : Nat :=
  let a := ordUp p (max (hi - bound) least)
  let b := ordDown p (min (lo + bound) most)
  let n := (b - a).toNat + 1
  bitsOfOrd (a + ((Config.sfuPick fn (BitVec.ofNat 32 op) ftz % n : Nat) : Int))

/-- ulp of x * 2^-p, times 2^p (R235). -/
def ulpFix (p : Nat) (x : Int) : Int :=
  let t : Int := (Nat.log2 x.natAbs : Int) - p
  (2 : Int) ^ (max t (-126) - 23 + p).toNat

/-- A finite value times 2^p, rounded down in magnitude. -/
def fixOf (neg : Bool) (m : Nat) (e : Int) (p : Nat) : Int :=
  let sh := e + p
  let k : Int := if 0 ≤ sh then (m * 2 ^ sh.toNat : Nat) else (m / 2 ^ (-sh).toNat : Nat)
  if neg then -k else k

/-- Taylor sum of e^y for 0 <= y < 1, y times 2^192: terms from n on. -/
def expTaylor : Nat → Nat → Int → Int → Int
  | 0, _, _, _ => 0
  | fuel + 1, n, y, term => term + expTaylor fuel (n + 1) y (term * y / 2 ^ 192 / ((n : Int) + 1))

/-- 2^f for a fraction f times 2^192, as a number times 2^192 (below the exact value by less than 2^-180). -/
def exp2Frac (f : Int) : Int := expTaylor 64 0 (f * ln2Fix / 2 ^ 192) (2 ^ 192)

/-- 2^x for x times 2^192: the result times 2^192, with an error below 2^-100 of it or 2. -/
def exp2Fix (x : Int) : Int :=
  let i := x / 2 ^ 192
  let r := exp2Frac (x % 2 ^ 192)
  if 0 ≤ i then r * 2 ^ i.toNat else r / 2 ^ (-i).toNat

/-- Binary digits of log2 of a mantissa in [1, 2), times 2^160: `n` digits as a number. -/
def log2Digits : Nat → Nat → Nat → Nat
  | 0, _, acc => acc
  | n + 1, m, acc =>
    let sq := m * m / 2 ^ 160
    if 2 ^ 161 ≤ sq then log2Digits n (sq / 2) (2 * acc + 1) else log2Digits n sq (2 * acc)

/-- Taylor sums of sine and cosine, y times 2^128: terms alternate from n on. -/
def trigTaylor : Nat → Nat → Int → Int → Int
  | 0, _, _, _ => 0
  | fuel + 1, n, y2, term =>
    term - trigTaylor fuel (n + 2) y2 (term * y2 / 2 ^ 128 / (((n : Int) + 1) * ((n : Int) + 2)))

/-- sin (quarter 0) or cos (quarter 1) of m * 2^e, times 2^128. -/
def sinFix (neg : Bool) (m : Nat) (e : Int) (quarter : Int) : Int :=
  let x := fixOf neg m e 320
  let half := piFix / 2
  let q := (x + half / 2) / half
  let y := (x - q * half) / 2 ^ 192
  let y2 := y * y / 2 ^ 128
  let s := trigTaylor 24 1 y2 y
  let c := trigTaylor 24 0 y2 (2 ^ 128)
  match ((q + quarter) % 4).toNat with
  | 0 => s
  | 1 => c
  | 2 => -s
  | _ => -c

/-- The two F32 values nearest num/den * 2^e (num, den > 0), or the one that is exact (FRCP, FRSQ). `exact` says that
the quotient below has no remainder; k is its floor times 2^-q. -/
def neighbours (fn op : Nat) (ftz neg : Bool) (k : Nat) (rem : Bool) (q : Int) : Nat :=
  let down := roundF fmtF32 .rz 0 (.fin neg k q)
  if !rem && roundF fmtF32 .ru 0 (.fin false k q) == roundF fmtF32 .rz 0 (.fin false k q) then down
  else if fmtF32.infBits ≤ magOf fmtF32 down + 1 then signed fmtF32 neg fmtF32.infBits
  else if Config.sfuPick fn (BitVec.ofNat 32 op) ftz % 2 = 0 then down
  else down + 1

/-- FRCP of m * 2^e, m > 0. -/
def rcpBits (op : Nat) (ftz neg : Bool) (m : Nat) (e : Int) : Nat :=
  neighbours 0 op ftz neg (2 ^ 80 / m) (decide (2 ^ 80 % m ≠ 0)) (-80 - e)

/-- FRSQ of m * 2^e, m > 0: the root of 2^160 / m', with the exponent made even. -/
def rsqBits (op : Nat) (ftz : Bool) (m : Nat) (e : Int) : Nat :=
  let m' := if e % 2 = 0 then m else 2 * m
  let e' := if e % 2 = 0 then e else e - 1
  let k := Nat.sqrt (2 ^ 160 / m')
  neighbours 1 op ftz false k (decide (k * k * m' ≠ 2 ^ 160)) (-80 - e' / 2)

/-- FSQRT of m * 2^e, m > 0, correctly rounded. -/
def sqrtBits (rm : Rm) (m : Nat) (e : Int) : Nat :=
  let m' := (if e % 2 = 0 then m else 2 * m) * 2 ^ 80
  let e' := (if e % 2 = 0 then e else e - 1) - 80
  let k := Nat.sqrt m'
  roundF fmtF32 rm 0 (.fin false (2 * k + (if k * k = m' then 0 else 1)) (e' / 2 - 1))

/-- The functions of R236. -/
inductive Sfu where
  | rcp | rsq | exp2 | log2 | sin | cos | tanh | sigm
deriving DecidableEq, Repr

/-- e^-y for y = m * 2^e >= 0, as a number times 2^128. -/
def expNegFix (m : Nat) (e : Int) : Int := exp2Fix (-(fixOf false m e 192 * log2eFix / 2 ^ 192)) / 2 ^ 64

/-- The value as an integer, where it is one. -/
def wholeOf (neg : Bool) (m : Nat) (e : Int) : Option Int :=
  let k : Option Nat := if 0 ≤ e then some (m * 2 ^ e.toNat)
    else if m % 2 ^ (-e).toNat = 0 then some (m / 2 ^ (-e).toNat) else none
  k.map (fun n => if neg then -(n : Int) else n)

/-- The bits of a special function before the flush of its result (R236, R237); `bits` is the operand as read. -/
def sfuBits (fn : Sfu) (ftz : Bool) (bits : Nat) : Nat :=
  let nan := fmtF32.nanBits
  let inf := fmtF32.infBits
  let one := fmtF32.oneBits
  match decodeF fmtF32 bits with
  | .nan => nan
  | .inf neg =>
    match fn with
    | .rcp => signed fmtF32 neg 0
    | .rsq => if neg then nan else 0
    | .exp2 => if neg then 0 else inf
    | .log2 => if neg then nan else inf
    | .sin | .cos => nan
    | .tanh => signed fmtF32 neg one
    | .sigm => if neg then 0 else one
  | .fin neg m e =>
    if m = 0 then
      match fn with
      | .rcp | .rsq => signed fmtF32 neg inf
      | .exp2 => one
      | .log2 => signed fmtF32 true inf
      | .sin | .tanh => bits
      | .cos => one
      | .sigm => 0x3F000000
    else
      match fn with
      | .rcp => rcpBits bits ftz neg m e
      | .rsq => if neg then nan else rsqBits bits ftz m e
      | .exp2 =>
        if ltF (.fin neg m e) (.fin false 128 0) = false then inf
        else if ltF (.fin true 150 0) (.fin neg m e) = false then 0
        else
          match wholeOf neg m e with
          | some i => roundF fmtF32 .rn 0 (.fin false 1 i)
          | none =>
            let y := exp2Fix (fixOf neg m e 192)
            let lo := max (y - y / 2 ^ 96 - 4) 1
            let hi := y + y / 2 ^ 96 + 4
            pickResult 192 2 bits ftz lo hi (2 * ulpFix 192 lo) 0 (2 ^ 320 - 2 ^ 296)
      | .log2 =>
        if neg then nan
        else
          let l := Nat.log2 m
          let k : Int := e + l
          if m = 2 ^ l then roundF fmtF32 .rn 0 (intToF k)
          else
            let frac : Int := log2Digits 96 (m * 2 ^ 160 / 2 ^ l) 0
            let lo := k * 2 ^ 128 + frac * 2 ^ 32
            let hi := lo + 2 ^ 34
            let b : Int := if k = 0 ∨ k = -1 then 2 ^ 106 else 2 * ulpFix 128 (if 0 ≤ lo then lo else hi)
            pickResult 128 3 bits ftz lo hi b (-(2 ^ 140)) (2 ^ 140)
      | .sin | .cos =>
        let v := sinFix neg m e (if fn = .cos then 1 else 0)
        let mag := fixOf false m e 128
        let b : Int := if mag ≤ 2 ^ 143 then 2 ^ 107 else 2 ^ 107 + mag / 2 ^ 68
        pickResult 128 (if fn = .cos then 5 else 4) bits ftz (v - 2 ^ 40) (v + 2 ^ 40) b (-(2 ^ 128)) (2 ^ 128)
      | .tanh =>
        if ltF (.fin false m e) (.fin false 9 0) = false then signed fmtF32 neg one
        else
          let t := expNegFix m (e + 1)
          let v := (2 ^ 128 - t) * 2 ^ 128 / (2 ^ 128 + t)
          let w := if neg then -v else v
          pickResult 128 6 bits ftz (w - 2 ^ 30) (w + 2 ^ 30) (2 ^ 107) (-(2 ^ 140)) (2 ^ 140)
      | .sigm =>
        if neg then
          if ltF (.fin false m e) (.fin false 104 0) = false then 0
          else
            let t := expNegFix m e
            let v := t * 2 ^ 128 / (2 ^ 128 + t)
            pickResult 128 7 bits ftz (v - 2 ^ 30) (v + 2 ^ 30) (2 ^ 106) (-(2 ^ 140)) (2 ^ 140)
        else if ltF (.fin false m e) (.fin false 18 0) = false then one
        else
          let t := expNegFix m e
          let v := 2 ^ 256 / (2 ^ 128 + t)
          pickResult 128 7 bits ftz (v - 2 ^ 30) (v + 2 ^ 30) (2 ^ 106) (-(2 ^ 140)) (2 ^ 140)

/-- A special function of a raw operand, flushes included (R235). -/
def sfuVal (fn : Sfu) (ftz : Bool) (ma : SMod) (raw : Nat) : Nat :=
  flushBits fmtF32 ftz (sfuBits fn ftz (readBits fmtF32 ftz ma raw))

/-- FSQRT of a raw operand (R236, R237). -/
def fsqrtVal (rm : Rm) (ftz : Bool) (ma : SMod) (raw : Nat) : Nat :=
  let bits := readBits fmtF32 ftz ma raw
  flushBits fmtF32 ftz <|
    match decodeF fmtF32 bits with
    | .nan => fmtF32.nanBits
    | .inf neg => if neg then fmtF32.nanBits else fmtF32.infBits
    | .fin neg m e => if m = 0 then bits else if neg then fmtF32.nanBits else sqrtBits rm m e

end Sys2Proof.Machine
end

