-- ==== Sys2Proof/Machine/FloatWords.lean ====
section
/-!
DEFINITION. The float, special-function and packed words, and dual words (R54 to R56, R222 to R240, R244).
-/
namespace Sys2Proof.Machine

/-! ### Scalar words -/

/-- A scalar word of two float sources, rounded (R225, R226). -/
def fltBin (s : State) (h : Hdr) (d a b : Reg) (ty : FTy) (rm : Rm) (ma mb : SMod) (sat ftz : Bool)
    (op : Rm → FVal → FVal → FVal) : State :=
  let f := fmtOf ty
  roundedWord s h d 1 rm (fun p e x =>
    finishF f rm sat ftz (op rm (readF f ftz ma (srcVal s a 1 p e)) (readF f ftz mb (srcVal s b 1 p e))) x)

/-- R229. -/
def execFadd (h : Hdr) (d a b : Reg) (ty : FTy) (rm : Rm) (ma mb : SMod) (sat ftz : Bool) (s : State) : Out :=
  .next (fltBin s h d a b ty rm ma mb sat ftz addF)
/-- R229. -/
def execFsub (h : Hdr) (d a b : Reg) (ty : FTy) (rm : Rm) (ma mb : SMod) (sat ftz : Bool) (s : State) : Out :=
  .next (fltBin s h d a b ty rm ma mb sat ftz (fun rm x y => addF rm x (negF y)))
/-- R229. -/
def execFmul (h : Hdr) (d a b : Reg) (ty : FTy) (rm : Rm) (ma mb : SMod) (sat ftz : Bool) (s : State) : Out :=
  .next (fltBin s h d a b ty rm ma mb sat ftz (fun _ => mulF))

/-- The third source of a multiply-add: negated where NC is 1 (R224, R229). -/
def negIf (nc : Bool) (v : FVal) : FVal := if nc then negF v else v

/-- R229. -/
def execFfma (h : Hdr) (d a b c : Reg) (ty : FTy) (rm : Rm) (ma mb : SMod) (nc sat ftz : Bool) (s : State) : Out :=
  let f := fmtOf ty
  .next (roundedWord s h d 1 rm (fun p e x =>
    finishF f rm sat ftz (fmaF rm (readF f ftz ma (srcVal s a 1 p e)) (readF f ftz mb (srcVal s b 1 p e))
      (negIf nc (readF f ftz .none (srcVal s c 1 p e)))) x))

/-- R230. -/
def execFmin (h : Hdr) (d a b : Reg) (ty : FTy) (ma mb : SMod) (ftz : Bool) (s : State) : Out :=
  let f := fmtOf ty
  .next (binaryWord s h d a b 1 1 1 (fun x y => minBits f (readBits f ftz ma x) (readBits f ftz mb y)))
/-- R230. -/
def execFmax (h : Hdr) (d a b : Reg) (ty : FTy) (ma mb : SMod) (ftz : Bool) (s : State) : Out :=
  let f := fmtOf ty
  .next (binaryWord s h d a b 1 1 1 (fun x y => maxBits f (readBits f ftz ma x) (readBits f ftz mb y)))
/-- R230. -/
def execFmaxa (h : Hdr) (d a b : Reg) (ty : FTy) (ftz : Bool) (s : State) : Out :=
  let f := fmtOf ty
  .next (binaryWord s h d a b 1 1 1 (fun x y => maxBits f (readBits f ftz .abs x) (readBits f ftz .abs y)))
/-- R231. -/
def execFcmp (h : Hdr) (p : Fin 8) (a b : Reg) (ty : FTy) (ma mb : SMod) (ftz : Bool) (cond : FCond) (s : State) : Out :=
  let f := fmtOf ty
  .next (compareWord s h p a b 1 (fun x y => fcmpVal cond (readF f ftz ma x) (readF f ftz mb y)))
/-- R232. -/
def execFclass (h : Hdr) (d a : Reg) (ty : FTy) (ftz : Bool) (s : State) : Out :=
  let f := fmtOf ty
  .next (unaryWord s h d a 1 1 (fun x => fclassVal f (readBits f ftz .none x)))
/-- R233. -/
def execFscale (h : Hdr) (d a b : Reg) (ty : FTy) (rm : Rm) (ma : SMod) (ftz : Bool) (s : State) : Out :=
  let f := fmtOf ty
  .next (roundedWord s h d 1 rm (fun p e x =>
    finishF f rm false ftz (scaleF (readF f ftz ma (srcVal s a 1 p e)) (toSigned 32 (srcVal s b 1 p e))) x))
/-- R234. -/
def execFrint (h : Hdr) (d a : Reg) (ty : FTy) (rm : Rm) (ma : SMod) (ftz : Bool) (s : State) : Out :=
  let f := fmtOf ty
  .next (unaryWord s h d a 1 1 (fun x => flushBits f ftz (roundF f .rz 0 (integralF rm (readF f ftz ma x)))))

/-! ### Special functions -/

/-- R235 to R237. -/
def execFrcp (h : Hdr) (d a : Reg) (ma : SMod) (ftz : Bool) (s : State) : Out :=
  .next (unaryWord s h d a 1 1 (sfuVal .rcp ftz ma))
/-- R235 to R237. -/
def execFrsq (h : Hdr) (d a : Reg) (ma : SMod) (ftz : Bool) (s : State) : Out :=
  .next (unaryWord s h d a 1 1 (sfuVal .rsq ftz ma))
/-- R235 to R237. -/
def execFsqrt (h : Hdr) (d a : Reg) (rm : Rm) (ma : SMod) (ftz : Bool) (s : State) : Out :=
  .next (unaryWord s h d a 1 1 (fsqrtVal rm ftz ma))
/-- R235 to R237. -/
def execFexp2 (h : Hdr) (d a : Reg) (ma : SMod) (ftz : Bool) (s : State) : Out :=
  .next (unaryWord s h d a 1 1 (sfuVal .exp2 ftz ma))
/-- R235 to R237. -/
def execFlog2 (h : Hdr) (d a : Reg) (ma : SMod) (ftz : Bool) (s : State) : Out :=
  .next (unaryWord s h d a 1 1 (sfuVal .log2 ftz ma))
/-- R235 to R237. -/
def execFsin (h : Hdr) (d a : Reg) (ma : SMod) (ftz : Bool) (s : State) : Out :=
  .next (unaryWord s h d a 1 1 (sfuVal .sin ftz ma))
/-- R235 to R237. -/
def execFcos (h : Hdr) (d a : Reg) (ma : SMod) (ftz : Bool) (s : State) : Out :=
  .next (unaryWord s h d a 1 1 (sfuVal .cos ftz ma))
/-- R235 to R237. -/
def execFtanh (h : Hdr) (d a : Reg) (ma : SMod) (ftz : Bool) (s : State) : Out :=
  .next (unaryWord s h d a 1 1 (sfuVal .tanh ftz ma))
/-- R235 to R237. -/
def execFsigm (h : Hdr) (d a : Reg) (ma : SMod) (ftz : Bool) (s : State) : Out :=
  .next (unaryWord s h d a 1 1 (sfuVal .sigm ftz ma))

/-! ### Packed words (R238, R239) -/

/-- Element `i` of a packed register. -/
def elem16 (raw i : Nat) : Nat := raw / 2 ^ (16 * i) % 2 ^ 16

/-- A packed result: element 0 is rounded before element 1 (R22, R238). -/
def packTwo (f : Nat → Word → Nat × Word) (x : Word) : Nat × Word :=
  let r0 := f 0 x
  let r1 := f 1 r0.2
  (r0.1 + 2 ^ 16 * r1.1, r1.2)

/-- A packed word of two sources, rounded. -/
def packBin (s : State) (h : Hdr) (d a b : Reg) (f : FmtF) (rm : Rm) (ma mb : SMod) (sat : Bool)
    (op : Rm → FVal → FVal → FVal) : State :=
  roundedWord s h d 1 rm (fun p e x => packTwo (fun i x =>
    finishF f rm sat false (op rm (readF f false ma (elem16 (srcVal s a 1 p e) i))
      (readF f false mb (elem16 (srcVal s b 1 p e) i))) x) x)

/-- A packed multiply-add. -/
def packFma (s : State) (h : Hdr) (d a b c : Reg) (f : FmtF) (rm : Rm) (ma mb : SMod) (nc sat : Bool) : State :=
  roundedWord s h d 1 rm (fun p e x => packTwo (fun i x =>
    finishF f rm sat false (fmaF rm (readF f false ma (elem16 (srcVal s a 1 p e) i))
      (readF f false mb (elem16 (srcVal s b 1 p e) i)) (negIf nc (readF f false .none (elem16 (srcVal s c 1 p e) i)))) x) x)

/-- A packed minimum or maximum. -/
def packSel (s : State) (h : Hdr) (d a b : Reg) (f : FmtF) (ma mb : SMod) (op : FmtF → Nat → Nat → Nat) : State :=
  binaryWord s h d a b 1 1 1 (fun x y =>
    let el := fun i => op f (readBits f false ma (elem16 x i)) (readBits f false mb (elem16 y i))
    el 0 + 2 ^ 16 * el 1)

/-- R238. -/
def execHadd2 (h : Hdr) (d a b : Reg) (rm : Rm) (ma mb : SMod) (sat : Bool) (s : State) : Out :=
  .next (packBin s h d a b fmtF16 rm ma mb sat addF)
/-- R238. -/
def execHmul2 (h : Hdr) (d a b : Reg) (rm : Rm) (ma mb : SMod) (sat : Bool) (s : State) : Out :=
  .next (packBin s h d a b fmtF16 rm ma mb sat (fun _ => mulF))
/-- R238. -/
def execHfma2 (h : Hdr) (d a b c : Reg) (rm : Rm) (ma mb : SMod) (nc sat : Bool) (s : State) : Out :=
  .next (packFma s h d a b c fmtF16 rm ma mb nc sat)
/-- R238. -/
def execHmin2 (h : Hdr) (d a b : Reg) (ma mb : SMod) (s : State) : Out := .next (packSel s h d a b fmtF16 ma mb minBits)
/-- R238. -/
def execHmax2 (h : Hdr) (d a b : Reg) (ma mb : SMod) (s : State) : Out := .next (packSel s h d a b fmtF16 ma mb maxBits)
/-- R238. -/
def execBadd2 (h : Hdr) (d a b : Reg) (rm : Rm) (ma mb : SMod) (sat : Bool) (s : State) : Out :=
  .next (packBin s h d a b fmtBF16 rm ma mb sat addF)
/-- R238. -/
def execBmul2 (h : Hdr) (d a b : Reg) (rm : Rm) (ma mb : SMod) (sat : Bool) (s : State) : Out :=
  .next (packBin s h d a b fmtBF16 rm ma mb sat (fun _ => mulF))
/-- R238. -/
def execBfma2 (h : Hdr) (d a b c : Reg) (rm : Rm) (ma mb : SMod) (nc sat : Bool) (s : State) : Out :=
  .next (packFma s h d a b c fmtBF16 rm ma mb nc sat)
/-- R238. -/
def execBmin2 (h : Hdr) (d a b : Reg) (ma mb : SMod) (s : State) : Out := .next (packSel s h d a b fmtBF16 ma mb minBits)
/-- R238. -/
def execBmax2 (h : Hdr) (d a b : Reg) (ma mb : SMod) (s : State) : Out := .next (packSel s h d a b fmtBF16 ma mb maxBits)

/-- A two-term dot product into F32 (R239). -/
def dotWord (s : State) (h : Hdr) (d a b c : Reg) (f : FmtF) (rm : Rm) (ma mb : SMod) (nc sat : Bool) : State :=
  roundedWord s h d 1 rm (fun p e x =>
    let term := fun i => mulF (readF f false ma (elem16 (srcVal s a 1 p e) i)) (readF f false mb (elem16 (srcVal s b 1 p e) i))
    finishF fmtF32 rm sat false (sumF rm [negIf nc (readF fmtF32 false .none (srcVal s c 1 p e)), term 0, term 1]) x)

/-- R239. -/
def execHdot2 (h : Hdr) (d a b c : Reg) (rm : Rm) (ma mb : SMod) (nc sat : Bool) (s : State) : Out :=
  .next (dotWord s h d a b c fmtF16 rm ma mb nc sat)
/-- R239. -/
def execBdot2 (h : Hdr) (d a b c : Reg) (rm : Rm) (ma mb : SMod) (nc sat : Bool) (s : State) : Out :=
  .next (dotWord s h d a b c fmtBF16 rm ma mb nc sat)

/-! ### Dual words (R54, R55, R222, R240, R244) -/

/-- The modifier on A in M5 (R54). -/
def halfMod (m : BitVec 5) : SMod :=
  match m.toNat % 4 with
  | 0 => .none
  | 1 => .neg
  | 2 => .abs
  | _ => .negAbs

/-- FNEG and FABS of a dual word (R240). -/
def signF32 (m : SMod) (x : Nat) : Nat := if isNanBits fmtF32 x then fmtF32.nanBits else modBits fmtF32 m x

/-- What a half writes, from the values of D, of A and of M5 (R222, R240, R244). -/
def halfVal (op : HOp) (m : BitVec 5) (d a : Nat) : Nat :=
  let fl := fun (o : FVal → FVal → FVal) =>
    (finishF fmtF32 .rn false false (o (readF fmtF32 false .none d) (readF fmtF32 false (halfMod m) a)) 0).1
  let pk := fun (o : FVal → FVal → FVal) => (packTwo (fun i x =>
    finishF fmtF16 .rn false false (o (readF fmtF16 false .none (elem16 d i)) (readF fmtF16 false (halfMod m) (elem16 a i))) x) 0).1
  match op with
  | .mov => copyVal .n32 a
  | .iadd => intBin .add .i32 false d a
  | .isub => intBin .sub .i32 false d a
  | .and => logicVal .and .n32 d a
  | .or => logicVal .or .n32 d a
  | .xor => logicVal .xor .n32 d a
  | .ishl => shiftVal .shl .n32 d a
  | .ishr => shiftVal .ashr .n32 d a
  | .lshr => shiftVal .lshr .n32 d a
  | .imin => intBin .min .i32 false d a
  | .imax => intBin .max .i32 false d a
  | .iaddi => intBin .add .i32 false d (sext5 m)
  | .ishli => shiftVal .shl .n32 d m.toNat
  | .lshri => shiftVal .lshr .n32 d m.toNat
  | .movi5 => sext5 m
  | .fadd => fl (addF .rn)
  | .fmul => fl mulF
  | .fmin => minBits fmtF32 (readBits fmtF32 false .none d) (readBits fmtF32 false (halfMod m) a)
  | .fmax => maxBits fmtF32 (readBits fmtF32 false .none d) (readBits fmtF32 false (halfMod m) a)
  | .fneg => signF32 .neg a
  | .fabs => signF32 .abs a
  | .hadd2 => pk (addF .rn)
  | .hmul2 => pk mulF
  | .cvtF32I32 => (finishF fmtF32 .rn false false (intToF (toSigned 32 a)) 0).1
  | .cvtI32F32 => wrTy .i32 (floatToInt .i32 .rz 0 (readF fmtF32 false .none a))
  | .frcp => sfuVal .rcp false .none a
  | .fexp2 => sfuVal .exp2 false .none a

/-- The values that one half forms, in the lanes where its own guard is true. -/
def halfVals (s : State) (x : Half) : List (Nat × LaneEnt × Nat) :=
  laneVals s ⟨false, false, false, x.g⟩ (fun p e =>
    halfVal x.op x.m (srcVal s x.d 1 p e) (match x.a with | some r => srcVal s r 1 p e | none => 0))

/-- R54, R55: both halves read all their operands before either writes. -/
def execDualWord (b w : Bool) (x y : Half) (s : State) : Out :=
  let vx := halfVals s x
  let vy := halfVals s y
  let s := writeDst s s.md.cur x.d 1 vx
  .next (finish (writeDst s s.md.cur y.d 1 vy) b w)

end Sys2Proof.Machine
end

