-- ==== Sys2Proof/Machine/LaneMem.lean ====
section
/-!
DEFINITION. What the lanes of a memory word share (R103, R104, R122, R141, R149 to R158): effective addresses, checks,
translation and the splits it makes, reading bytes for a lane, pending results, and the store FIFOs.
-/
namespace Sys2Proof.Machine

/-- The low 32 bits as a two's-complement number. -/
def signed32 (x : Nat) : Int := if 2 ^ 31 ≤ x % 2 ^ 32 then ((x % 2 ^ 32 : Nat) : Int) - 2 ^ 32 else ((x % 2 ^ 32 : Nat) : Int)

/-- R149: the effective address of a lane, before truncation checks. -/
def eaOf (s : State) (base : Reg) (index : Option Reg) (scale bytes : Nat) (off : Int) (p : Nat) (e : LaneEnt) : Nat :=
  let b : Int := srcVal s base 2 p e
  let i : Int := match index with
    | some r => signed32 (srcVal s r 1 p e)
    | none => 0
  ((b + i * 2 ^ scale + off * bytes) % 2 ^ 64).toNat

/-- The effective address of a class-M operand. -/
def memEa (s : State) (m : MemOp) (bytes : Nat) (p : Nat) (e : LaneEnt) : Nat :=
  eaOf s m.base m.index m.scale.val bytes m.off.toInt p e

/-- The access of one lane: the address reported, the address translated, and the code of a check that failed before
translation (R150). -/
structure Acc where
  pl : Nat
  ent : LaneEnt
  ea : Nat
  va : Nat
  pre : Option Nat := none

/-- How the translation of a lane's access comes out (R103, R104). -/
inductive AccRes where
  | ok (t : Xl)
  | bad (code : Nat)
  | request (f : XFail)
  | far (leafPa rec : Nat)
  | miss

/-- R150: the checks of a global access in order; `check` is made on the translation. -/
def accRes (s : State) (w : Warp) (kind : AccKind) (bytes : Nat) (check : State → Xl → Option Nat) (a : Acc) : AccRes :=
  match a.pre with
  | some c => .bad c
  | none =>
    if 2 ^ 55 ≤ a.va then .bad 0x10
    else if a.va % bytes ≠ 0 then .bad 0x11
    else
      match xlFor s w a.va kind with
      | none | some .busy => .miss
      | some (.ok t) =>
        match check s t with
        | some c => .bad c
        | none => .ok t
      | some (.far l r) => .far l r
      | some (.fail f) => if ownFailure s (ctxOf s w) f then .bad (failCode f) else .request f

/-- A list in ascending order of a rank, home warp and home lane (R197, R468). -/
def putByHome {α : Type} (rank : α → Nat) (x : α) : List α → List α
  | [] => [x]
  | y :: m => if rank x ≤ rank y then x :: y :: m else y :: putByHome rank x m
def byHome {α : Type} (rank : α → Nat) (l : List α) : List α := l.foldr (putByHome rank) []

/-- Lanes that need page requests attach to them, every lane before any record is written (R104, R105, R468), and split into
sub-groups, each tied to its request; lanes that a full table turns away walk again later. -/
def splitRequests (s : State) (wid : Nat) (kind : AccKind) (l : List (Acc × XFail)) : State :=
  let w := s.warp wid
  let l := byHome (fun (x : Acc × XFail) => laneRank x.1.ent) l
  let key := fun (x : Acc × XFail) => (x.2.stage, x.2.addr / 2 ^ 16)
  let keys := (l.map key).eraseDups
  let (got, s) := keys.foldl (fun (acc : List (Option (Nat × Bool) × List Nat) × State) k =>
    let mine := l.filter (fun x => key x = k)
    match mine with
    | [] => acc
    | x :: _ =>
      let (r, s) := attachReq acc.2 (ctxOf acc.2 w) w.core x.1.va mine.length kind x.2
      (acc.1 ++ [(r, mine.map (·.1.pl))], s)) ([], s)
  let s := got.foldl (fun s g => match g.1 with
    | some (id, true) => writeRequest s id
    | _ => s) s
  got.foldl (fun s g =>
    let (id, s) := split s wid g.2 (match g.1 with | some r => .page [r.1] | none => .table (dieOf w.core))
    noteEas s id ((l.filter (fun x => g.2.contains x.1.pl)).map (fun x => (x.1.pl, x.1.ea)))) s

/-- Lanes that reach far pages split into sub-groups, each parked on its recall (R126, R127). -/
def splitFars (s : State) (wid : Nat) (l : List (Acc × Nat × Nat)) : State :=
  let w := s.warp wid
  (l.map (·.2)).eraseDups.foldl (fun s k =>
    let (id, s) := startRecall s (ctxOf s w) k.1 k.2
    let mine := l.filter (fun x => x.2 = k)
    let (wid2, s) := split s wid (mine.map (·.1.pl)) (.far id.toList)
    noteEas s wid2 (mine.map (fun x => (x.1.pl, x.1.ea)))) s

/-- Later accesses of a thread follow an acquire whose request a service warp has still to perform (R311, R339). BPOLL itself parks on
translation alone: its request follows at the service warp. -/
def withAcquired (s : State) (gi : Nat) (lanes : List (Nat × LaneEnt)) (k : State → State) : State :=
  let ids := (s.mm.svc.filter (fun r => r.2.acq && r.2.kind != .gsync && r.2.gi = gi && lanes.any (fun q => q.2.hwarp = r.2.hwarp && q.2.hlane = r.2.lane))).map (·.1)
  if ids ≠ [] then parkHere s (.items ids) else k s

/-- At issue the named counter rises in each home warp of the lanes, once for the word: lanes that wait and replay it carry the work
with them (R66, R104, R152). -/
def openWorks (s : State) (sbc : Option (Fin 6)) (lanes : List (Nat × LaneEnt)) : State :=
  let wid := s.md.cur
  if sbc.isNone || (s.warp wid).works != [] then s
  else
    let (l, s) := startWorks s (s.warp wid).gi sbc (homeWarps lanes) 1
    s.updWarp wid (fun w => { w with works := l })

/-- R103, R104, R150: translate the accesses of a word's taking lanes. Misses park the whole warp until every translation is
formed; then lanes fault, the word issues and its counter rises, for lanes `more` that need no translation too; lanes park on requests
or recalls, and the word goes on with the others. -/
def withXlate (s : State) (opc : Nat) (kind : AccKind) (bytes : Nat) (check : State → Xl → Option Nat) (sbc : Option (Fin 6))
    (more : List (Nat × LaneEnt)) (l : List Acc) (k : List (Acc × Xl) → State → State) : State :=
  let wid := s.md.cur
  let w := s.warp wid
  withAcquired s w.gi (if opc = 0x95 then [] else more ++ l.map (fun a => (a.pl, a.ent))) (fun s =>
    let rs := l.map (fun a => (a, accRes s w kind bytes check a))
    let pages := (rs.filterMap (fun r => match r.2 with | .miss => some (r.1.va / 2 ^ 16) | _ => none)).eraseDups
    if pages ≠ [] then parkOnWalks s wid kind pages
    else
      let bad := rs.filterMap (fun r => match r.2 with
        | .bad c => some (⟨r.1.pl, r.1.ent, c, some r.1.ea, 0⟩ : LaneFault) | _ => none)
      let reqs := rs.filterMap (fun r => match r.2 with | .request f => some (r.1, f) | _ => none)
      let fars := rs.filterMap (fun r => match r.2 with | .far x y => some (r.1, x, y) | _ => none)
      let oks := rs.filterMap (fun r => match r.2 with | .ok t => some (r.1, t) | _ => none)
      let s := takeFaults s wid opc 0 bad true
      let s := openWorks s sbc (more ++ (rs.filter (fun r => match r.2 with | .bad _ => false | _ => true)).map (fun r => (r.1.pl, r.1.ent)))
      let s := splitRequests s wid kind reqs
      let s := splitFars s wid fars
      k oks s)

/-- The lanes of accesses. -/
def accLanes (l : List (Acc × Xl)) : List (Nat × LaneEnt) := l.map (fun a => (a.1.pl, a.1.ent))

/-- R66: a full counter parks the warp before the word issues; else the word goes on. -/
def withCounter (s : State) (sbc : Option (Fin 6)) (lanes : List (Nat × LaneEnt)) (k : State → State) : State :=
  let gi := s.curWarp.gi
  let hs := homeWarps lanes
  match sbc with
  | some c => if s.curWarp.works = [] ∧ fullCounters s gi sbc hs ≠ [] then parkHere s (.counter c.val hs) else k s
  | none => k s

/-! ### Loads (R153, R157, R158) -/

/-- The byte that a thread's own stores still in its home warp's FIFO leave at a place, the newest first (R154, R158). -/
def ownByte (fifo : List FifoEntry) (lane : Nat) (hits : FWrite → Bool) : Option Byte :=
  match (fifo.reverse.find? (fun e => e.writes.any (fun x => x.lane = lane && hits x))) with
  | none => none
  | some e => (e.writes.reverse.find? hits).map (·.byte)

def memHit (pa : Nat) (x : FWrite) : Bool := match x.dest with | .mem _ _ => x.addr = pa | _ => false
def spadHit (addr : Nat) (x : FWrite) : Bool := x.dest = .spad && x.addr = addr

/-- Scratchpad bytes of a core. -/
def spadKey (core addr : Nat) : Nat := core * 2 ^ 19 + addr
def spadByte (s : State) (core addr : Nat) : Byte := NMap.get 0 s.mm.spad (spadKey core addr)
def setSpadByte (s : State) (core addr : Nat) (b : Byte) : State :=
  s.updMM (fun m => { m with spad := NMap.set 0 m.spad (spadKey core addr) b })

/-- A load at the directory takes a word from the L1 all the same (R153, R157): the core owns it, or the thread's own store stands in
it. A load of 64 bits or more takes both words of a unit or neither, where a store to the unit is in the L1 alone (R156). -/
def ownWord (s : State) (gi h lane core : Nat) (wide : Bool) (pa : Nat) : Bool :=
  let pair := if wide then (l1Line s core (pa / 128)).words.find (pairWord (pa % 128 / 4)) else none
  let mine := fun (w : L1Word) => w.writers.contains (thKey gi h lane)
  match l1Word s core pa with
  | none => false
  | some w => mine w || (w.owned && pair.all (fun p => p.owned || !p.dirty)) || (w.dirty && pair.any mine)

/-- A global byte as a lane's load reads it: own stores in the FIFO, else the L1 or the LLC; `dir` reads the directory but for the
words of `ownWord` (R153, R157); `wide` says that the load is of 64 bits or more. -/
def loadByte (s : State) (gi h lane core : Nat) (dir wide : Bool) (pa : Nat) : Byte :=
  match ownByte (s.hwarp (hwKey gi h)).fifo lane (memHit pa) with
  | some b => b
  | none => if dir && !ownWord s gi h lane core wide pa then memByte s pa else coreByte s core pa

/-- A scratchpad byte as a lane's load reads it (R158, R159). -/
def loadSpad (s : State) (gi h lane core : Nat) (addr : Nat) : Byte :=
  (ownByte (s.hwarp (hwKey gi h)).fifo lane (spadHit addr)).getD (spadByte s core addr)

/-- Registers of a loaded value, the low word first; narrow values are zero-extended (R148, R153). -/
def wordsOf (l : List Byte) : List Word :=
  (List.range ((l.length + 3) / 4)).map (fun i => BitVec.ofNat 32 (natOfBytes ((l.drop (4 * i)).take 4)))

/-- Index of a destination register in a result; none where a result is discarded. -/
def destReg : Reg → Option Nat
  | .v n => some n.val
  | _ => none

/-- Put a pending result in flight (R64, R66). -/
def addResult (s : State) (r : Result) : State :=
  let (id, s) := s.fresh
  s.updWK (fun k => { k with results := NMap.insert k.results id r })

/-- Two byte ranges meet. -/
def meets (a n b m : Nat) : Bool := decide (a < b + m) && decide (b < a + n)

/-- Pending loads of a thread that touch a range, of the scratchpad or of global memory, are settled now (R158, R339, R340). -/
def fixOver (s : State) (gi h lane : Nat) (sp : Bool) (addr n : Nat) : State :=
  s.updWK (fun k => { k with results := k.results.map (fun r =>
    if r.2.gi = gi && r.2.hwarp = h && r.2.known then
      (r.1, { r.2 with lanes := r.2.lanes.map (fun l =>
        let hit := match l.src with
          | .mem _ q _ => !sp && meets q l.nbytes addr n
          | .spad _ q => sp && meets q l.nbytes addr n
          | .fixed => false
        if l.lane = lane && hit then { l with src := .fixed } else l) })
    else r) })

/-- Lines of pending loads of these lanes that wait for a claim and touch the ranges: an access to them follows (R158). -/
def heldOver (s : State) (gi : Nat) (l : List (Nat × Nat × Nat × Nat)) : List Nat :=
  s.wk.results.flatMap (fun r =>
    if r.2.gi = gi && !r.2.known then
      r.2.lanes.filterMap (fun x =>
        match x.src with
        | .mem _ q _ =>
          if l.any (fun y => y.1 = r.2.hwarp && y.2.1 = x.lane && meets q x.nbytes y.2.2.1 y.2.2.2) then some (q / 128) else none
        | _ => none)
    else [])

/-- Requests of the same threads at service warps for words that the ranges touch: an access to them follows (R158, R304). -/
def svcOver (s : State) (gi : Nat) (l : List (Nat × Nat × Nat × Nat)) : List Nat :=
  (s.mm.svc.filter (fun r => r.2.gi = gi && r.2.kind != .gsync &&
    l.any (fun y => y.1 = r.2.hwarp && y.2.1 = r.2.lane && meets r.2.pa (r.2.bits / 8) y.2.2.1 y.2.2.2))).map (·.1)

/-- A word whose lanes touch ranges waits for earlier accesses of the same threads that are still to be made there, and settles
the loads. -/
def withOverlap (s : State) (gi : Nat) (l : List (Nat × Nat × Nat × Nat)) (k : State → State) : State :=
  let lines := heldOver s gi l
  let reqs := svcOver s gi l
  if lines ≠ [] then parkHere s (.held lines)
  else if reqs ≠ [] then parkHere s (.items reqs)
  else k (l.foldl (fun s y => fixOver s gi y.1 y.2.1 false y.2.2.1 y.2.2.2) s)

/-- The ranges of global accesses as (home warp, home lane, address, bytes). -/
def rangesOf (l : List (Acc × Xl)) (bytes : Nat) : List (Nat × Nat × Nat × Nat) :=
  l.map (fun a => (a.1.ent.hwarp, a.1.ent.hlane, a.2.pa, bytes))

/-- Sample a result of a line that an engine no longer holds (R122): its lanes read now. -/
def sampleLane (s : State) (gi h : Nat) (l : ResLane) : ResLane :=
  match l.src with
  | .mem core pa _ =>
    { l with vals := wordsOf ((List.range l.nbytes).map (fun i => loadByte s gi h l.lane core false (decide (8 ≤ l.nbytes)) (pa + i))) }
  | .spad core a => { l with vals := wordsOf ((List.range l.nbytes).map (fun i => loadSpad s gi h l.lane core (a + i))) }
  | .fixed => l

/-- The lanes of a result that read global memory, with their core and address. -/
def memSrcs (r : Result) : List (Nat × Nat × ResLane) :=
  r.lanes.filterMap (fun l => match l.src with | .mem c pa _ => some (c, pa, l) | _ => none)

/-- Words under an access. -/
def wordsUnder (pa n : Nat) : List Nat := (List.range ((n + 3) / 4)).map (fun i => pa + 4 * i)
/-- An access must read a word of a line that an engine holds (R122). -/
def loadWaits (s : State) (core pa n : Nat) : Bool := (wordsUnder pa n).any (mustWait s core)

/-- Fill the lines that a load reads, unless it bypasses (R136); a line it misses comes to the L1 with a rank. A bypass load that hits
is no use of the line (DESIGN CHOICE, log entry 28). -/
def fillFor (s : State) (core ctx page pa n rank : Nat) (bypass : Bool) : State :=
  if l1Has s core pa n then (if bypass then s else l1Touch s core (pa / 128) rank ctx page)
  else if bypass then dropHalves (llcEnsure (countReq s ctx page core false) (pa / 128)) core pa n
  else l1Fill s core (pa / 128) rank ctx page

/-- Results that waited for a claim are formed once their lines are free (R122). -/
def sampleHeld (s : State) : State :=
  s.wk.results.foldl (fun s r =>
    let srcs := memSrcs r.2
    if !r.2.known && srcs != [] && srcs.all (fun m => !loadWaits s m.1 m.2.1 m.2.2.nbytes) then
      let ctx := (s.group r.2.gi).ctx
      let s := srcs.foldl (fun s m => fillFor s m.1 ctx m.2.2.page m.2.1 m.2.2.nbytes m.2.2.rank (match m.2.2.src with | .mem _ _ b => b | _ => false)) s
      s.updWK (fun k => { k with results := k.results.upd r.1 (fun x => { x with
        known := true, lanes := x.lanes.map (sampleLane s x.gi x.hwarp) }) })
    else s) s

/-- Put the results of a load in flight (R64, R66, R122, R152): for each home warp one of the lanes whose values are formed and
one of the lanes that wait for a claim; the home warp's work counts both. A result to no register still counts. -/
def addLoads (s : State) (lanes : List (Nat × LaneEnt)) (res : List (Nat × Bool × ResLane)) : State :=
  let gi := s.curWarp.gi
  let (works, s) := takeWorks s s.md.cur (lanes.filter (fun q => !q.2.help))
  (homeWarps lanes).foldl (fun s h =>
    let known := (res.filter (fun r => r.1 = h && r.2.1)).map (·.2.2)
    let later := (res.filter (fun r => r.1 = h && !r.2.1)).map (·.2.2)
    let work := NMap.find works h
    let s := match work with
      | some id => if later ≠ [] then addParts s id 1 else s
      | none => s
    let s := if known = [] && work.isNone then s
      else addResult s { gi := gi, hwarp := h, lanes := known, known := true, work := work }
    if later = [] then s else addResult s { gi := gi, hwarp := h, lanes := later, known := false, work := work }) s

/-! ### Stores (R154, R158, R160) -/

/-- Put the stores of one word into the store FIFOs of its lanes' home warps, one entry each, which are performed together
(R138, R154, R158, R159). Stores inside an open region stay uncommitted (R369). The home warps' counted work goes with them (R152). -/
def pushStores (s : State) (lanes : List (Nat × LaneEnt)) (writes : Nat × LaneEnt → List FWrite) (hint : Nat) (rel : Bool) : State :=
  let gi := s.curWarp.gi
  let (works, s) := takeWorks s s.md.cur lanes
  let (id, s) := s.fresh
  let sync := if 2 ≤ (homeWarps lanes).length then some id else none
  (homeWarps lanes).foldl (fun s h =>
    let mine := sortLanes (lanes.filter (fun q => q.2.hwarp = h))
    let isOpen := (mine.map (·.2.hlane)).filter (fun l => (s.thread (thKey gi h l)).restart.isOpen)
    let (id, s) := s.fresh
    let e : FifoEntry := { id := id, writes := mine.flatMap writes, uncommitted := if rel then [] else isOpen,
                           work := NMap.find works h, hint := hint, rel := rel, sync := sync }
    s.updHWarp (hwKey gi h) (fun x => { x with fifo := x.fifo ++ [e] })) s

/-- A full store FIFO parks the warp before a store, and its home warp commits, so that entries can be performed (R158, R369). -/
def withRoom (s : State) (lanes : List (Nat × LaneEnt)) (k : State → State) : State :=
  let wid := s.md.cur
  let gi := s.curWarp.gi
  let full := (homeWarps lanes).filter (fun h => decide (64 ≤ (s.hwarp (hwKey gi h)).fifo.length))
  if full = [] then k s
  else parkHere ((commitHomes s gi wid full).updWarp wid (fun w => { w with foundFull := true })) (.room full)

/-- The commit point that a store word is: one that releases, or that found a FIFO full (R157, R369). Its threads then stand at the next
word, the store itself behind them. -/
def commitStore (s : State) (rel : Bool) (lanes : List (Nat × LaneEnt)) : State :=
  if rel || s.curWarp.foundFull then commitLanes s s.md.cur lanes else s

/-- Bytes of a data register or registers, low first. -/
def dataBytes (s : State) (r : Reg) (bytes p : Nat) (e : LaneEnt) : List Byte :=
  bytesOfNat bytes (srcVal s r ((bytes + 3) / 4) p e)

/-- R320: the checks of a send through a window-map entry; `red` asks for a reduction entry. -/
def txCheck (s : State) (ctx : Nat) (t : Xl) (red : Bool) : Option Nat :=
  let en := t.key
  let slot := (s.pt.fkeys.find (wmByte s en 2)).getD {}
  if wmByte s en 0 = 1 && ((wmByte s en 4 != 0) == red) && decide (t.pa < wmField s en 0x0C 4 * 2 ^ 16) &&
      isAncestor s (wmField s en 0x08 2) ctx && slot.loaded then none
  else some 0x17

/-! ### Scratchpad lines (R137 to R141) -/

/-- Physical lines of the core's scratchpad under bytes of a group's range. -/
def spadLines (base off n : Nat) : List Nat := ((List.range n).map (fun i => (base + off + i) / 128)).eraseDups
def presenceOf (s : State) (core line : Nat) : Presence := NMap.get {} s.mm.presence (core * 4096 + line)
def setPresence (s : State) (core line : Nat) (f : Presence → Presence) : State :=
  s.updMM (fun m => { m with presence := NMap.set {} m.presence (core * 4096 + line) (f (NMap.get {} m.presence (core * 4096 + line))) })

/-- R137, R141, R150: how a lane's scratchpad access meets its checks: a fault's code, lines of the group's range to wait for, or neither. -/
inductive SpadRes where
  | ok
  | bad (code : Nat)
  | absent (lines : List Nat)
deriving DecidableEq, Repr

def spadRes (s : State) (core base scratch bytes off : Nat) (load : Bool) : SpadRes :=
  if scratch < off + bytes then .bad 0x18
  else if off % bytes ≠ 0 then .bad 0x11
  else
    let lines := spadLines base off bytes
    if lines.any (fun l => (presenceOf s core l).q) then .bad 0x20
    else
      let away := lines.filter (fun l => !(presenceOf s core l).p)
      if away ≠ [] then .absent (away.map (fun l => l - base / 128))
      else if load && (List.range bytes).any (fun i => s.pt.spadPoison.contains (core * 2 ^ 17 + (base + off + i) / 4)) then .bad 0x15
      else .ok

end Sys2Proof.Machine
end

