-- ==== Sys2Proof/Machine/MemWords.lean ====
section
/-!
DEFINITION. The memory words (R147 to R166): loads, stores, constants, cache control, fences, presence.
-/
namespace Sys2Proof.Machine

/-- The hint of R48 as a number. -/
def hintNum : Hint → Nat
  | .default => 0
  | .stream => 1
  | .keep => 2
  | .bypass => 3

/-- R155: what a load asks of a leaf, and R117: its granule is not poisoned. -/
def ldCheck (core : Nat) (dir : Bool) (s : State) (t : Xl) : Option Nat :=
  if !(t.ty = .page || t.ty = .rxWin) then some 0x17
  else
    let own := match l1Word s core t.pa with
      | some w => w.owned
      | none => false
    if (if dir && !own then llcPoisoned s t.pa else corePoisoned s core t.pa) then some 0x15 else none

/-- R155, R320: what a store asks of a leaf. -/
def stCheck (ctx : Nat) (s : State) (t : Xl) : Option Nat :=
  if t.ty = .txWin then txCheck s ctx t false
  else if storable s t then none else some 0x17

/-- A global load of one lane at issue (R136, R153): its pending result, whether its value is formed, the state after. -/
def loadLane (s : State) (wid gi ctx core bytes : Nat) (dir ord bypass : Bool) (rank : Nat) (pl : Nat) (e : LaneEnt) (ea : Nat) (t : Xl) :
    Bool × ResLane × State :=
  let wait := loadWaits s core t.pa bytes &&
    (List.range bytes).any (fun i => (ownByte (s.hwarp (hwKey gi e.hwarp)).fifo e.hlane (memHit (t.pa + i))).isNone)
  let s := s.updWarp wid (fun w => { w with loaded := (t.pa / 128 :: w.loaded).eraseDups })
  let r : ResLane := { lane := e.hlane, src := if ord then .fixed else .mem core t.pa bypass, nbytes := bytes,
                       help := if e.help then some (wid, pl) else none, rank := rank, page := ea / 2 ^ 16 }
  if wait then (false, { r with src := .mem core t.pa bypass }, s)
  else
    let s := if dir then llcEnsure (countReq s ctx (ea / 2 ^ 16) core false) (t.pa / 128)
      else fillFor s core ctx (ea / 2 ^ 16) t.pa bytes rank bypass
    let vals := wordsOf ((List.range bytes).map (fun i => loadByte s gi e.hwarp e.hlane core dir (decide (8 ≤ bytes)) (t.pa + i)))
    (true, { r with vals := vals }, s)

/-- Lines that an acquire load finds held by an engine (R122, R157): at the directory where the core does not own the words, at group
scope where they are not in the L1. Later accesses follow it, so the warp waits. -/
def acquireWaits (s : State) (core pa n : Nat) (dir : Bool) : Bool :=
  (wordsUnder pa n).any (fun a => if dir then (held s (a / 128) && !((l1Word s core a).any (fun w => w.owned))) || evictWaits s core (a / 128) (a % 128 / 4)
    else mustWait s core a)

/-- A pending result of zeros, for a helper lane whose access a check would stop (R151). -/
def zeroLane (wid bytes pl : Nat) (e : LaneEnt) : ResLane :=
  { lane := e.hlane, vals := wordsOf (List.replicate bytes 0), help := if e.help then some (wid, pl) else none }

/-- Give results their destination register; none are kept for the zero byte. -/
def aimAt (d : Reg) (l : List (Nat × Bool × ResLane)) : List (Nat × Bool × ResLane) :=
  match destReg d with
  | some r => l.map (fun x => (x.1, x.2.1, { x.2.2 with reg := r }))
  | none => []

/-- R151, R153, R157: LD. A load at the directory comes after the drops already sent to its core (R341). -/
def ldWord (s : State) (h : Hdr) (d : Reg) (m : MemOp) : State :=
  let wid := s.md.cur
  let w := s.curWarp
  let bytes := widthBytes m.width
  let ctx := ctxOf s w
  let wide := m.ord && m.scope != .grp
  let bypass := m.hint == .bypass
  let rank := rankOf (hintNum m.hint)
  let acc := fun (q : Nat × LaneEnt) => (⟨q.1, q.2, memEa s m bytes q.1 q.2, memEa s m bytes q.1 q.2, none⟩ : Acc)
  let taking := takingLanes s w h
  let helpers := (guardedLanes s w h).filter (fun q => q.2.help)
  withCounter s m.sbc taking (fun s =>
    withXlate s 0x80 .read bytes (ldCheck w.core wide) m.sbc [] (taking.map acc) (fun oks s =>
      withOverlap s w.gi (rangesOf oks bytes) (fun s =>
        let s := if wide then oks.foldl (fun s a => receiveDrops s w.core (some (a.2.pa / 128))) s else s
        let claims := (oks.filter (fun a => acquireWaits s w.core a.2.pa bytes wide)).map (fun a => a.2.pa / 128)
        if m.ord && claims ≠ [] then parkHere s (.held claims)
        else
          let step := fun (acc : List (Nat × Bool × ResLane) × State) (pl : Nat) (e : LaneEnt) (ea : Nat) (t : Xl) =>
            let (known, r, s) := loadLane acc.2 wid w.gi ctx w.core bytes wide m.ord bypass rank pl e ea t
            (acc.1 ++ [(e.hwarp, known, r)], s)
          let out := oks.foldl (fun acc a => step acc a.1.pl a.1.ent a.1.ea a.2) ([], s)
          let out := helpers.foldl (fun acc2 q =>
            let a := acc q
            match accRes acc2.2 w .read bytes (ldCheck w.core wide) a with
            | .ok t => step acc2 q.1 q.2 a.ea t
            | _ => (acc2.1 ++ [(q.2.hwarp, true, zeroLane wid bytes q.1 q.2)], acc2.2)) out
          let s := addLoads out.2 (accLanes oks ++ helpers) (aimAt d out.1)
          let s := if wide && oks ≠ [] then acquireL1 s w.core else s
          finish s h.b h.w)))

/-- R153. -/
def execLd (h : Hdr) (d : Reg) (m : MemOp) (s : State) : Out := .next (ldWord s h d m)

/-- The bytes that a lane stores (R154, R158, R320). -/
def storeWrites (s : State) (ctx bytes : Nat) (d : Reg) (oks : List (Acc × Xl)) (q : Nat × LaneEnt) : List FWrite :=
  match oks.find? (fun a => a.1.pl = q.1) with
  | none => []
  | some (a, t) =>
    let dest : StoreDest := if t.ty = .txWin then .tx t.key else .mem ctx (a.ea / 2 ^ 16)
    let l := dataBytes s d bytes q.1 q.2
    (List.range bytes).map (fun i => { lane := q.2.hlane, dest := dest, addr := t.pa + i, byte := l.getD i 0 })

/-- R154, R157, R158: ST. -/
def stWord (s : State) (h : Hdr) (d : Reg) (m : MemOp) : State :=
  let w := s.curWarp
  let bytes := widthBytes m.width
  let ctx := ctxOf s w
  let taking := takingLanes s w h
  withCounter s m.sbc taking (fun s => withRoom s taking (fun s =>
    withXlate s 0x81 .write bytes (stCheck ctx) m.sbc []
      (taking.map (fun q => ⟨q.1, q.2, memEa s m bytes q.1 q.2, memEa s m bytes q.1 q.2, none⟩)) (fun oks s =>
      let lanes := accLanes oks
      let go := fun (s : State) =>
        withOverlap s w.gi (rangesOf (oks.filter (fun a => a.2.ty != .txWin)) bytes) (fun s =>
          let s := pushStores s lanes (storeWrites s ctx bytes d oks) (hintNum m.hint) (m.ord && m.scope != .grp)
          finish (commitStore s m.ord lanes) h.b h.w)
      if oks = [] then finishNone s h.b h.w
      else if !m.ord then go s
      else if m.scope = .grp then withAccesses s w.gi (lanes.map (fun q => thKey w.gi q.2.hwarp q.2.hlane)) go
      else withRelease s go)))

/-- R154. -/
def execSt (h : Hdr) (d : Reg) (m : MemOp) (s : State) : Out := .next (stWord s h d m)

/-! ### Scratchpad (R159, R160) -/

/-- Scratchpad accesses of taking lanes: faults stop theirs, the word issues and its counter rises, lanes on absent lines split off and
wait, the word goes on with the others (R66, R141, R150). -/
def withSpad (s : State) (opc bytes : Nat) (load : Bool) (sbc : Option (Fin 6)) (lanes : List (Nat × LaneEnt × Nat))
    (k : List (Nat × LaneEnt × Nat) → State → State) : State :=
  let wid := s.md.cur
  let w := s.curWarp
  let g := s.group w.gi
  withAcquired s w.gi (lanes.map (fun a => (a.1, a.2.1))) (fun s =>
    let rs := lanes.map (fun a => (a, spadRes s w.core g.spBase g.scratch bytes a.2.2 load))
    let bad := rs.filterMap (fun r => match r.2 with
      | .bad c => some (⟨r.1.1, r.1.2.1, c, some r.1.2.2, 0⟩ : LaneFault) | _ => none)
    let away := rs.filterMap (fun r => match r.2 with | .absent l => some (r.1.1, l.map (lineKey w.gi)) | _ => none)
    let oks := rs.filterMap (fun r => match r.2 with | .ok => some r.1 | _ => none)
    let s := takeFaults s wid opc 0 bad true
    let s := openWorks s sbc ((rs.filter (fun r => match r.2 with | .bad _ => false | _ => true)).map (fun r => (r.1.1, r.1.2.1)))
    let s := (away.map (·.2)).eraseDups.foldl (fun s l =>
      (split s wid ((away.filter (fun a => a.2 = l)).map (·.1)) (.lines l)).2) s
    k oks s)

/-- R159: LDS. -/
def ldsWord (s : State) (h : Hdr) (d : Reg) (m : MemOp) : State :=
  let wid := s.md.cur
  let w := s.curWarp
  let g := s.group w.gi
  let bytes := widthBytes m.width
  let taking := takingLanes s w h
  let helpers := (guardedLanes s w h).filter (fun q => q.2.help)
  let ea := fun (q : Nat × LaneEnt) => memEa s m bytes q.1 q.2
  withCounter s m.sbc taking (fun s =>
    withSpad s 0x82 bytes true m.sbc (taking.map (fun q => (q.1, q.2, ea q))) (fun oks s =>
      let s := oks.foldl (fun s a => fixOver s w.gi a.2.1.hwarp a.2.1.hlane true (g.spBase + a.2.2) bytes) s
      let read := fun (pl : Nat) (e : LaneEnt) (off : Nat) =>
        let addr := g.spBase + off
        let vals := wordsOf ((List.range bytes).map (fun i => loadSpad s w.gi e.hwarp e.hlane w.core (addr + i)))
        ((e.hwarp, true, { lane := e.hlane, vals := vals, src := if m.ord then .fixed else .spad w.core addr, nbytes := bytes,
                           help := if e.help then some (wid, pl) else none }) : Nat × Bool × ResLane)
      let res := oks.map (fun a => read a.1 a.2.1 a.2.2) ++ helpers.map (fun q =>
        match spadRes s w.core g.spBase g.scratch bytes (ea q) true with
        | .ok => read q.1 q.2 (ea q)
        | _ => (q.2.hwarp, true, zeroLane wid bytes q.1 q.2))
      let lanes := oks.map (fun a => (a.1, a.2.1))
      finish (addLoads s (lanes ++ helpers) (aimAt d res)) h.b h.w))

/-- R159. -/
def execLds (h : Hdr) (d : Reg) (m : MemOp) (s : State) : Out := .next (ldsWord s h d m)

/-- R159: STS; `data` gives a lane's bytes, so that LDSC stores by the same path (R162). -/
def stsGo (s : State) (h : Hdr) (bytes : Nat) (oks : List (Nat × LaneEnt × Nat)) (rel : Bool) (data : Nat × LaneEnt → List Byte) : State :=
  let w := s.curWarp
  let g := s.group w.gi
  let lanes := oks.map (fun a => (a.1, a.2.1))
  let s := oks.foldl (fun s a => fixOver s w.gi a.2.1.hwarp a.2.1.hlane true (g.spBase + a.2.2) bytes) s
  let writes := fun (q : Nat × LaneEnt) =>
    match oks.find? (fun a => a.1 = q.1) with
    | none => []
    | some a =>
      let l := data q
      (List.range bytes).map (fun i => ({ lane := q.2.hlane, dest := .spad, addr := g.spBase + a.2.2 + i, byte := l.getD i 0 } : FWrite))
  finish (commitStore (pushStores s lanes writes 0 false) rel lanes) h.b h.w

/-- R159. -/
def execSts (h : Hdr) (d : Reg) (m : MemOp) (s : State) : Out :=
  let w := s.curWarp
  let bytes := widthBytes m.width
  let taking := takingLanes s w h
  .next (withCounter s m.sbc taking (fun s => withRoom s taking (fun s =>
    withSpad s 0x83 bytes false m.sbc (taking.map (fun q => (q.1, q.2, memEa s m bytes q.1 q.2))) (fun oks s =>
      let go := fun (s : State) => stsGo s h bytes oks m.ord (fun q => dataBytes s d bytes q.1 q.2)
      if m.ord && oks ≠ [] then withAccesses s w.gi (oks.map (fun a => thKey w.gi a.2.1.hwarp a.2.1.hlane)) go
      else go s))))

/-- R160: STSC: one store for the issue warp, in the order of each taking lane's stores: entries of its home warps that are
performed together. -/
def execStsc (h : Hdr) (d : Reg) (m : MemOp) (s : State) : Out :=
  let wid := s.md.cur
  let w := s.curWarp
  let g := s.group w.gi
  let bytes := widthBytes m.width
  let taking := takingLanes s w h
  .next (withRoom s taking (fun s =>
    match taking with
    | [] => finish s h.b h.w
    | q0 :: _ =>
      withAcquired s w.gi taking (fun s =>
        let off := memEa s m bytes q0.1 q0.2
        match spadRes s w.core g.spBase g.scratch bytes off false with
        | .bad c => finish (takeFaults s wid 0x86 0 (taking.map (fun q => ⟨q.1, q.2, c, some off, 0⟩)) true) h.b h.w
        | .absent l => finish (split s wid (taking.map (·.1)) (.lines (l.map (lineKey w.gi)))).2 h.b h.w
        | .ok =>
          let l := dataBytes s d bytes q0.1 q0.2
          stsGo s h bytes (taking.map (fun q => (q.1, q.2, off))) false (fun _ => l))))

/-! ### Constants (R143, R161, R162) -/

/-- Bytes of the constant section, within one line: as the core's constant cache of 64 KiB holds them, or, of each 4-byte word that the
LLC holds otherwise, as either (R143; FREE VALUE, log entry 5). A missing line is filled from `pa` (R161). -/
def constBytes (s : State) (w : Warp) (va pa n : Nat) : List Byte × State :=
  let (x, s) := match codeLine s.mm.ccache w.core (objOf s w) (va / 128) with
    | some l => (l, s)
    | none =>
      let (l, s) := codeFill s w va pa
      let (m, s) := codePut s.mm.ccache 512 w.core l s
      (l, s.updMM (fun y => { y with ccache := m }))
  let first := va % 128 / 4
  let out := (List.range ((va % 128 + n - 1) / 4 + 1 - first)).foldl (fun (acc : List Byte × State) i =>
    let old := (x.bytes.drop ((first + i) * 4)).take 4
    let new := memBytes acc.2 (x.line * 128 + (first + i) * 4) 4
    if old = new then (acc.1 ++ old, acc.2)
    else
      let (b, s) := acc.2.coin
      (acc.1 ++ (if b then new else old), s)) ([], s)
  ((out.1.drop (va % 4)).take n, out.2)

/-- The access of a lane to the constant section (R150, R161): ea an offset, checked against CONSTBYTES and for alignment. -/
def constAcc (s : State) (m : MemOp) (bytes : Nat) (q : Nat × LaneEnt) : Acc :=
  let gr := s.grid (s.group s.curWarp.gi).grid
  let ea := memEa s m bytes q.1 q.2
  ⟨q.1, q.2, ea, (gr.const + ea) % 2 ^ 64,
    if gr.constBytes < ea + bytes then some 0x19 else if ea % bytes ≠ 0 then some 0x11 else none⟩

/-- What a read of constants asks of its leaf: memory, not poisoned in the LLC (R117, R161). -/
def constCheck (s : State) (t : Xl) : Option Nat :=
  if !(t.ty = .page || t.ty = .rxWin) then some 0x17 else if llcPoisoned s t.pa then some 0x15 else none

/-- The constant cache holds the line of a lane's access: it is not translated (R161). -/
def constHit (s : State) (w : Warp) (a : Acc) : Bool := a.pre.isNone && (codeLine s.mm.ccache w.core (objOf s w) (a.va / 128)).isSome

/-- R161: LDC. -/
def execLdc (h : Hdr) (d : Reg) (m : MemOp) (s : State) : Out :=
  let wid := s.md.cur
  let w := s.curWarp
  let bytes := widthBytes m.width
  let taking := takingLanes s w h
  let helpers := (guardedLanes s w h).filter (fun q => q.2.help)
  let accs := taking.map (constAcc s m bytes)
  let hits := accs.filter (constHit s w)
  .next (withCounter s m.sbc taking (fun s =>
    withXlate s 0x84 .read 1 constCheck m.sbc (hits.map (fun a => (a.pl, a.ent))) (accs.filter (fun a => !constHit s w a)) (fun oks s =>
      let read := fun (acc : List (Nat × Bool × ResLane) × State) (a : Acc) (pa : Nat) =>
        let (l, s) := constBytes acc.2 w a.va pa bytes
        (acc.1 ++ [(a.ent.hwarp, true, { lane := a.ent.hlane, vals := wordsOf l, nbytes := bytes,
                                         help := if a.ent.help then some (wid, a.pl) else none })], s)
      let out := hits.foldl (fun acc a => read acc a 0) ([], s)
      let out := oks.foldl (fun acc a => read acc a.1 a.2.pa) out
      let out := helpers.foldl (fun acc q =>
        let a := constAcc acc.2 m bytes q
        if constHit acc.2 w a then read acc a 0
        else match accRes acc.2 w .read 1 constCheck a with
          | .ok t => read acc a t.pa
          | _ => (acc.1 ++ [(q.2.hwarp, true, zeroLane wid bytes q.1 q.2)], acc.2)) out
      finish (addLoads out.2 (hits.map (fun a => (a.pl, a.ent)) ++ accLanes oks ++ helpers) (aimAt d out.1)) h.b h.w)))

/-- R162: LDSC: constants to the scratchpad, lane by lane. -/
def execLdsc (h : Hdr) (o : Reg) (m : MemOp) (s : State) : Out :=
  let w := s.curWarp
  let g := s.group w.gi
  let bytes := widthBytes m.width
  let taking := takingLanes s w h
  let off := fun (p : Nat) (e : LaneEnt) => srcVal s o 1 p e
  let acc := fun (q : Nat × LaneEnt) =>
    let a := constAcc s m bytes q
    if a.pre = some 0x19 then a
    else if g.scratch < off q.1 q.2 + bytes then { a with pre := some 0x18 }
    else if a.pre.isNone && off q.1 q.2 % bytes != 0 then { a with pre := some 0x11 }
    else a
  -- a poisoned constant is found after the line state (R150)
  let leaf := fun (_ : State) (t : Xl) => if t.ty = .page || t.ty = .rxWin then none else some 0x17
  let accs := taking.map acc
  let hits := accs.filter (constHit s w)
  .next (withCounter s m.sbc taking (fun s => withRoom s taking (fun s =>
    withXlate s 0x85 .read 1 leaf m.sbc (hits.map (fun a => (a.pl, a.ent))) (accs.filter (fun a => !constHit s w a)) (fun oks s =>
      let all := hits.map (fun a => (a, none)) ++ oks.map (fun a => (a.1, some a.2.pa))
      withSpad s 0x85 bytes false m.sbc (all.map (fun a => (a.1.pl, a.1.ent, off a.1.pl a.1.ent))) (fun ready s =>
        let mine := all.filter (fun a => ready.any (fun r => r.1 = a.1.pl))
        let poisoned := fun (a : Acc × Option Nat) => a.2.any (llcPoisoned s)
        let s := takeFaults s s.md.cur 0x85 0 ((mine.filter poisoned).map (fun a => ⟨a.1.pl, a.1.ent, 0x15, some a.1.ea, 0⟩)) true
        let good := mine.filter (fun a => !poisoned a)
        let (data, s) := good.foldl (fun (acc : List (Nat × List Byte) × State) a =>
          let (l, s) := constBytes acc.2 w a.1.va (a.2.getD 0) bytes
          (acc.1 ++ [(a.1.pl, l)], s)) ([], s)
        stsGo s h bytes (ready.filter (fun r => good.any (fun a => a.1.pl = r.1))) false
          (fun q => ((data.find? (fun x => x.1 = q.1)).map (·.2)).getD []))))))

/-! ### Cache control (R163, R164) -/

/-- R163: PREF. Lanes whose checks or walk fail are dropped; nothing waits and nothing is reported. A line that an engine holds is left
as it is too: the prefetch is dropped rather than waiting (DESIGN CHOICE, log entry 29). -/
def execPref (h : Hdr) (m : MemOp) (s : State) : Out :=
  let w := s.curWarp
  let s := (takingLanes s w h).foldl (fun s q =>
    let ea := memEa s m 1 q.1 q.2
    if 2 ^ 55 ≤ ea then s
    else
      let (r, s) := match xlFor s w ea .read with
        | some r => (r, s)
        | none => xlateNow s w.core (ctxOf s w) ea .read
      match r with
      | .ok t =>
        if t.ty ≠ .page || held s (t.pa / 128) then s
        else if m.hint = .bypass then llcEnsure (countReq s (ctxOf s w) (ea / 2 ^ 16) w.core false) (t.pa / 128)
        else l1Fill s w.core (t.pa / 128) (rankOf (hintNum m.hint)) (ctxOf s w) (ea / 2 ^ 16)
      | _ => s) s
  .next (finish s h.b h.w)

/-- R164: CCTL .wb: commit, drain, write the lines' dirty words back and await the directory. -/
def execCctlWb (h : Hdr) (m : MemOp) (s : State) : Out :=
  let w := s.curWarp
  .next (withXlate s 0x88 .read 1 (fun _ _ => none) none []
    ((takingLanes s w h).map (fun q => ⟨q.1, q.2, memEa s m 1 q.1 q.2, memEa s m 1 q.1 q.2, none⟩)) (fun oks s =>
      let lanes := accLanes oks
      let done := fun (s : State) => finish (commitLanes s s.md.cur lanes) h.b h.w
      if oks = [] then finish s h.b h.w
      else if w.phase ≠ 0 then done s
      else
        withDrain s lanes (fun s =>
          let lines := ((oks.filter (fun a => a.2.ty = .page || a.2.ty = .rxWin)).map (fun a => a.2.pa / 128)).eraseDups
          let before := (s.mm.dirItems.filter (fun d => d.2.evicted && d.2.core = w.core && lines.contains d.2.line)).map (·.1)
          let (ids, s) := lines.foldl (fun (acc : List Nat × State) l =>
            let (ids, s) := sendLine acc.2 w.core l none none
            (acc.1 ++ ids, s)) (before, s)
          let s := s.updWarp s.md.cur (fun x => { x with phase := 1 })
          if ids = [] then done s else parkHere s (.items ids))))

/-- R164: CCTL .inv: valid words of the line that are neither owned nor dirty lose valid. -/
def execCctlInv (h : Hdr) (m : MemOp) (s : State) : Out :=
  let w := s.curWarp
  .next (withXlate s 0x88 .read 1 (fun _ _ => none) none []
    ((takingLanes s w h).map (fun q => ⟨q.1, q.2, memEa s m 1 q.1 q.2, memEa s m 1 q.1 q.2, none⟩)) (fun oks s =>
      let s := (oks.filter (fun a => a.2.ty = .page || a.2.ty = .rxWin)).foldl (fun s a =>
        setL1 s w.core (a.2.pa / 128) (fun l => { l with words := l.words.filter (fun x => x.2.owned || x.2.dirty) })) s
      finish s h.b h.w))

/-- R164: CCTL .ivc: the constant-cache line of an offset is dropped. -/
def execCctlIvc (h : Hdr) (m : MemOp) (s : State) : Out :=
  let w := s.curWarp
  let accs := (takingLanes s w h).map (constAcc s m 1)
  let s := takeFaults s s.md.cur 0x88 0
    ((accs.filter (fun a => a.pre.isSome)).map (fun a => ⟨a.pl, a.ent, 0x19, some a.ea, 0⟩)) true
  let lines := (accs.filter (fun a => a.pre.isNone)).map (fun a => a.va / 128)
  let s := s.updMM (fun x => { x with ccache := x.ccache.filter (fun c =>
    !(c.1 / 2 ^ 41 = w.core && c.2.obj = objOf s w && lines.contains c.2.vline)) })
  .next (finish s h.b h.w)

/-- R164: CCTL .ivc.all. -/
def execCctlIvcAll (h : Hdr) (s : State) : Out :=
  let w := s.curWarp
  let s := if takingLanes s w h = [] then s
    else s.updMM (fun x => { x with ccache := x.ccache.filter (fun c => !(c.1 / 2 ^ 41 = w.core && c.2.obj = objOf s w)) })
  .next (finish s h.b h.w)

/-- R164: CCTL .ivi.all. -/
def execCctlIviAll (h : Hdr) (s : State) : Out :=
  let w := s.curWarp
  let s := if takingLanes s w h = [] then s
    else s.updMM (fun x => { x with icache := x.icache.filter (fun c => !(c.1 / 2 ^ 41 = w.core && c.2.obj = objOf s w)) })
  .next (finish s h.b h.w)

/-! ### FENCE (R165, R344) -/

/-- The acquire side: earlier loads are performed; at cove scope and wider the acquire of R120 is applied. FENCE of any kind is a commit
point (R369). -/
def fenceAcquire (s : State) (h : Hdr) (lanes : List (Nat × LaneEnt)) (sc : Scope) : State :=
  let w := s.curWarp
  withLoads s w.gi (lanes.map (fun q => thKey w.gi q.2.hwarp q.2.hlane)) (fun s =>
    let s := commitLanes s s.md.cur lanes
    finish (if sc = .grp then s else acquireL1 s w.core) h.b h.w)

/-- The release side, then `k` (R157, R165). -/
def fenceRelease (s : State) (lanes : List (Nat × LaneEnt)) (sc : Scope) (k : State → State) : State :=
  if sc = .grp then withGroupRelease s lanes k else withRelease s k

/-- R165. -/
def execFenceAcq (h : Hdr) (sc : Scope) (s : State) : Out :=
  let lanes := takingLanes s s.curWarp h
  .next (if lanes = [] then finish s h.b h.w else fenceAcquire s h lanes sc)
/-- R165. -/
def execFenceRel (h : Hdr) (sc : Scope) (s : State) : Out :=
  let lanes := takingLanes s s.curWarp h
  .next (if lanes = [] then finish s h.b h.w
    else fenceRelease s lanes sc (fun s => finish (commitLanes s s.md.cur lanes) h.b h.w))
/-- R165. -/
def execFenceAcqrel (h : Hdr) (sc : Scope) (s : State) : Out :=
  let lanes := takingLanes s s.curWarp h
  .next (if lanes = [] then finish s h.b h.w else fenceRelease s lanes sc (fun s => fenceAcquire s h lanes sc))

/-! ### Presence (R140, R166) -/

/-- The lines that taking lanes of a presence word name; lanes beyond SCRATCH fault. -/
def withLines (s : State) (h : Hdr) (opc : Nat) (m : MemOp) (k : List (Nat × LaneEnt × Nat) → State → State) : State :=
  let w := s.curWarp
  let g := s.group w.gi
  let lanes := (takingLanes s w h).map (fun q => (q.1, q.2, memEa s m 1 q.1 q.2))
  let bad := lanes.filter (fun a => decide (g.scratch < a.2.2 + 1))
  let good := lanes.filter (fun a => decide (a.2.2 < g.scratch))
  let s := takeFaults s s.md.cur opc 0 (bad.map (fun a => ⟨a.1, a.2.1, 0x18, some a.2.2, 0⟩)) true
  k (good.map (fun a => (a.1, a.2.1, (g.spBase + a.2.2) / 128))) s

/-- Entries of the store FIFOs that hold scratchpad stores of these lanes. -/
def spadEntries (s : State) (gi : Nat) (lanes : List (Nat × LaneEnt)) : List Nat :=
  (homeWarps lanes).flatMap (fun h =>
    let mine := (lanes.filter (fun q => q.2.hwarp = h)).map (·.2.hlane)
    ((s.hwarp (hwKey gi h)).fifo.filter (fun e => e.writes.any (fun x => x.dest = .spad && mine.contains x.lane))).map (·.id))

/-- A word that follows its threads' scratchpad stores in program order (R166, R175) waits until they have been performed. Where they
stand uncommitted in an open region, their home warps commit, at this word (DESIGN CHOICE, log entry 33). -/
def afterSpadStores (s : State) (lanes : List (Nat × LaneEnt)) (k : State → State) : State :=
  let gi := s.curWarp.gi
  let ids := spadEntries s gi lanes
  if ids = [] then k s else parkHere (commitHomes s gi s.md.cur (homeWarps lanes)) (.stores ids)

/-- PRSET and PRCLR (R140, R166), in program order with the thread's own loads and stores of the scratchpad. -/
def presenceWord (s : State) (h : Hdr) (opc : Nat) (m : MemOp) (f : Presence → Presence) : State :=
  let w := s.curWarp
  let taking := takingLanes s w h
  withAcquired s w.gi taking (fun s => afterSpadStores s taking (fun s =>
    withLines s h opc m (fun lanes s =>
      let s := lanes.foldl (fun s a => fixOver s w.gi a.2.1.hwarp a.2.1.hlane true (a.2.2 * 128) 128) s
      finish ((lanes.map (·.2.2)).eraseDups.foldl (fun s line => setPresence s w.core line f) s) h.b h.w)))

/-- R166. -/
def execPrset (h : Hdr) (m : MemOp) (s : State) : Out :=
  .next (presenceWord s h 0x8A m (fun x => { x with p := true, q := false }))
/-- R166. -/
def execPrclr (h : Hdr) (m : MemOp) (s : State) : Out :=
  .next (presenceWord s h 0x8B m (fun x => { x with p := false, q := false }))

/-- R166: P, Q and N of a line as one word. -/
def presenceVal (x : Presence) : Nat := (if x.p then 1 else 0) + (if x.q then 2 else 0) + x.n % 16 * 4

/-- R151, R166: PRTST. A helper lane beyond SCRATCH reads 0. -/
def execPrtst (h : Hdr) (d : Reg) (m : MemOp) (s : State) : Out :=
  let w := s.curWarp
  let g := s.group w.gi
  let helpers := ((guardedLanes s w h).filter (fun q => q.2.help)).map (fun q =>
    let ea := memEa s m 1 q.1 q.2
    (q.1, q.2, if ea < g.scratch then presenceVal (presenceOf s w.core ((g.spBase + ea) / 128)) else 0))
  .next (withLines s h 0x8C m (fun lanes s =>
    putVals s h d 1 (lanes.map (fun a => (a.1, a.2.1, presenceVal (presenceOf s w.core a.2.2))) ++ helpers)))

end Sys2Proof.Machine
end

