-- ==== Sys2Proof/Machine/AtomWords.lean ====
section
/-!
DEFINITION. Atomics, barrier objects and GSYNC (R296 to R313), and the service warps that perform them: the words send one
request a lane, and the events SERVICE_WARP_REQUEST and BWAIT_RETEST perform them.
-/
namespace Sys2Proof.Machine

/-- R299: the new value of an atomic over `n` bits. -/
def aopVal (op : AOp) (n x y : Nat) : Nat :=
  let flt := fun (f : FmtF) (a b : Nat) => roundF f .rn 0 (addF .rn (decodeF f a) (decodeF f b))
  let pair := fun (f : FmtF) => flt f (x % 2 ^ 16) (y % 2 ^ 16) + flt f (x / 2 ^ 16 % 2 ^ 16) (y / 2 ^ 16 % 2 ^ 16) * 2 ^ 16
  match op with
  | .add => (x + y) % 2 ^ n
  | .smin => if toSigned n x ≤ toSigned n y then x else y
  | .smax => if toSigned n x ≤ toSigned n y then y else x
  | .umin => min x y
  | .umax => max x y
  | .and => x &&& y
  | .or => x ||| y
  | .xor => x ^^^ y
  | .exch => y
  | .fadd => flt fmtF32 x y
  | .fmin => minBits fmtF32 x y
  | .fmax => maxBits fmtF32 x y
  | .hadd2 => pair fmtF16
  | .badd2 => pair fmtBF16

/-- R301, R302: the new value that a request leaves; none where it writes nothing. -/
def svcVal (k : SvcKind) (n x data : Nat) : Option Nat :=
  match k with
  | .atom op | .red op => some (aopVal op n x data)
  | .cas c => if x = c then some data else none
  | .bsig => some (min (x + data) (2 ^ 64 - 1))
  | .bwait | .bpoll | .gsync => none

/-! ### Sending requests (R296, R300, R304, R307) -/

/-- What an atomic or a barrier-object operation asks of a leaf (R300): as ST at the stage-0 leaf, TX windows excluded; then its
granule is not poisoned. -/
def atomCheck (s : State) (t : Xl) : Option Nat :=
  if !storable s t then some 0x17 else if llcPoisoned s t.pa then some 0x15 else none

/-- The cove whose service warp owns a word (R296). -/
def homeCove (pa : Nat) : Nat := pa / 2 ^ 12 % 2 ^ 9 % 48

/-- Entries of a service warp's queue in use; lanes that wait at a barrier object have left it (R296, R310). -/
def queueLen (s : State) (cove : Nat) : Nat :=
  (s.mm.svc.filter (fun r => r.2.cove = cove && !r.2.waiting && !r.2.beyond)).length

/-- Requests that fit their queues; the lanes of the others split off and try again (R296). -/
def splitFull (s : State) (l : List (Acc × Xl)) : List (Acc × Xl) × State :=
  let (fit, rest) := l.foldl (fun (acc : List (Acc × Xl) × List Nat) a =>
    let c := homeCove a.2.pa
    if queueLen s c + (acc.1.filter (fun x => homeCove x.2.pa = c)).length < 1024 then (acc.1 ++ [a], acc.2)
    else (acc.1, acc.2 ++ [a.1.pl])) ([], [])
  if rest = [] then (fit, s) else (fit, (split s s.md.cur rest .engine).2)

/-- Send one lane's request (R296): the issuing core's L1 gives the words up, dirty bytes written back first. A value returned goes to
register `d` when it returns; `acq` and `wide` ask for the acquire of BPOLL. -/
def sendRequest (s : State) (opc bytes : Nat) (kind : SvcKind) (data : Nat) (d : Option Nat) (acq wide : Bool) (work : Option Nat) (a : Acc) (t : Xl) :
    Nat × State :=
  let w := s.curWarp
  let s := giveBack s w.core (t.pa / 128) (some (wordIdx t.pa bytes))
  let (res, s) := match d with
    | none => (none, s)
    | some r =>
      let (id, s) := s.fresh
      let x : Result := { gi := w.gi, hwarp := a.ent.hwarp, lanes := [{ lane := a.ent.hlane, reg := r, vals := List.replicate (bytes / 4) 0 }],
                          known := false, work := work }
      (some id, s.updWK (fun k => { k with results := NMap.insert k.results id x }))
  let (id, s) := s.fresh
  let r : SvcReq := { kind := kind, cove := homeCove t.pa, ctx := ctxOf s w, pa := t.pa, bits := bytes * 8, data := data, gi := w.gi,
                      hwarp := a.ent.hwarp, lane := a.ent.hlane, core := w.core, result := res,
                      work := if res.isSome then none else work, acq := acq, wide := acq && wide, opc := opc, pc := w.pc, ea := a.ea }
  (id, s.updMM (fun m => { m with svc := NMap.insert m.svc id r }))

/-- Send the requests of lanes whose queues have room; each is a part of its home warp's counted work (R66, R302). Answers the requests
and the lanes sent. -/
def sendRequests (s : State) (opc bytes : Nat) (d : Option Nat) (acq wide : Bool) (mk : Acc → SvcKind × Nat) (l : List (Acc × Xl)) :
    List Nat × List (Nat × LaneEnt) × State :=
  let (fit, s) := splitFull s l
  let lanes := accLanes fit
  let (works, s) := takeWorks s s.md.cur lanes
  let s := works.foldl (fun s x => addParts s x.2 ((lanes.filter (fun q => q.2.hwarp = x.1)).length - 1)) s
  let (ids, s) := fit.foldl (fun (acc : List Nat × State) a =>
    let (id, s) := sendRequest acc.2 opc bytes (mk a.1).1 (mk a.1).2 d acq wide (NMap.find works a.1.ent.hwarp) a.1 a.2
    (acc.1 ++ [id], s)) ([], s)
  (ids, lanes, s)

/-- The release side of an atomic or a barrier-object operation, or the drain alone (R304). -/
def withOrder (s : State) (ord : Bool) (sc : Scope) (lanes : List (Nat × LaneEnt)) (k : State → State) : State :=
  if !ord then withDrain s lanes k
  else if sc = .grp then withGroupRelease s lanes k
  else withRelease s k

/-- The acquire side, once the requests have been performed, ends the word (R304, R310, R311). -/
def acquireEnd (s : State) (h : Hdr) (sc : Scope) : State :=
  finish (if sc = .grp then s else acquireL1 s s.curWarp.core) h.b h.w

/-- What a word that sends requests to service warps carries, and how it goes on. -/
structure SvcWord where
  opc : Nat
  bytes : Nat
  /-- bytes that ea must be a multiple of -/
  align : Nat
  sbc : Option (Fin 6)
  /-- the destination register of the values returned -/
  dest : Option Nat
  sc : Scope
  /-- release and drain come first (an atomic, BSIG) -/
  first : Bool
  ord : Bool
  /-- the warp waits until its requests have been performed, and then acquires -/
  acq : Bool
  /-- the park of that wait is BWAIT's -/
  bwait : Bool := false
  /-- BPOLL: nothing but translation parks it, and its acquire is applied as the request is performed (R311) -/
  poll : Bool := false

/-- Words that send requests: checked and translated as an atomic (R300); an atomic and BSIG commit as their requests are sent (R304, R308,
R369); in phase 2 the requests have been performed. -/
def svcWord (s : State) (h : Hdr) (x : SvcWord) (ea : Nat → LaneEnt → Nat) (mk : Nat → LaneEnt → SvcKind × Nat) : State :=
  let wid := s.md.cur
  let w := s.curWarp
  let taking := takingLanes s w h
  if w.phase = 2 then acquireEnd s h x.sc
  else
    withCounter s x.sbc taking (fun s =>
      withXlate s x.opc .atomic x.align atomCheck x.sbc [] (taking.map (fun q => ⟨q.1, q.2, ea q.1 q.2, ea q.1 q.2, none⟩)) (fun oks s =>
        let send := fun (s : State) =>
          let (ids, lanes, s) := sendRequests s x.opc x.bytes x.dest (x.poll && x.acq) (x.sc != .grp) (fun a => mk a.pl a.ent) oks
          let s := if x.first then commitLanes s wid lanes else s
          if x.acq && !x.poll && ids != [] then
            parkHere (s.updWarp wid (fun w => { w with phase := 2 })) (if x.bwait then .bwait ids else .items ids)
          else finish s h.b h.w
        let ranges := rangesOf oks x.bytes
        let go := fun (s : State) =>
          if x.poll then send (ranges.foldl (fun s y => fixOver s w.gi y.1 y.2.1 false y.2.2.1 y.2.2.2) s)
          else withOverlap s w.gi ranges send
        if oks = [] then finishNone s h.b h.w
        else if x.first then withOrder s x.ord x.sc (accLanes oks) go
        else go s))

/-- Helper lanes of ATOM, ATOMCAS and BPOLL: 0 to the destination, held for the run (R195, R300; of BPOLL, DESIGN CHOICE, log entry 35). -/
def helperZeros (s : State) (h : Hdr) (d : Option Nat) (words : Nat) : State :=
  let w := s.curWarp
  match d with
  | none => s
  | some r =>
    ((guardedLanes s w h).filter (fun q => q.2.help)).foldl (fun s q =>
      s.updWarp s.md.cur (fun w => { w with
        hv := (List.range words).foldl (fun m i => NMap.insert m (q.1 * 256 + r + i) 0) w.hv })) s

/-! ### Scratchpad atomics (R298, R303) -/

/-- A list in an order that the part does not report (R297; FREE VALUE, log entry 5). -/
def someOrder {α : Type} : Nat → List α → State → List α × State
  | 0, l, s => (l, s)
  | fuel + 1, l, s =>
    match l with
    | [] => ([], s)
    | _ =>
      let (i, s) := s.pick l.length
      let (rest, s) := someOrder fuel (l.eraseIdx i) s
      ((l[i]?).toList ++ rest, s)

/-- R149, R298: ea of a lane; with SPAD a 32-bit offset in place of the base pair. -/
def atomEa (s : State) (m : AtomMem) (p : Nat) (e : LaneEnt) : Nat :=
  let bytes := widthBytes m.width
  if m.spad then
    let i : Int := match m.index with
      | some r => signed32 (srcVal s r 1 p e)
      | none => 0
    (((srcVal s m.base 1 p e : Nat) + i * 2 ^ m.scale.val + m.off.toInt * bytes : Int) % 2 ^ 64).toNat
  else eaOf s m.base m.index m.scale.val bytes m.off.toInt p e

/-- One lane's operation in the scratchpad unit (R303): the old value. -/
def spadAtom (s : State) (core addr bytes : Nat) (k : SvcKind) (data : Nat) : Nat × State :=
  let old := natOfBytes ((List.range bytes).map (fun i => spadByte s core (addr + i)))
  match svcVal k (bytes * 8) old data with
  | some v => (old, ((List.range bytes).zip (bytesOfNat bytes v)).foldl (fun s q => setSpadByte s core (addr + q.1) q.2) s)
  | none => (old, s)

/-- Atomics of SPAD 1: release or drain, then each lane in turn (R303, R304). -/
def spadWord (s : State) (h : Hdr) (opc : Nat) (d : Option Nat) (m : AtomMem) (mk : Nat → LaneEnt → SvcKind × Nat) : State :=
  let w := s.curWarp
  let g := s.group w.gi
  let bytes := widthBytes m.width
  let taking := takingLanes s w h
  withCounter s m.sbc taking (fun s =>
    let go := fun (s : State) =>
      withSpad s opc bytes true m.sbc (taking.map (fun q => (q.1, q.2, atomEa s m q.1 q.2))) (fun oks s =>
        let s := oks.foldl (fun s a => fixOver s w.gi a.2.1.hwarp a.2.1.hlane true (g.spBase + a.2.2) bytes) s
        let (order, s) := someOrder oks.length oks s
        let (res, s) := order.foldl (fun (acc : List (Nat × Bool × ResLane) × State) a =>
          let (old, s) := spadAtom acc.2 w.core (g.spBase + a.2.2) bytes (mk a.1 a.2.1).1 (mk a.1 a.2.1).2
          (acc.1 ++ [(a.2.1.hwarp, true, { lane := a.2.1.hlane, reg := d.getD 0, vals := (List.range (bytes / 4)).map (wordOf old), nbytes := bytes })], s))
          ([], s)
        let lanes := oks.map (fun a => (a.1, a.2.1))
        finish (commitLanes (addLoads s lanes (if d.isSome then res else [])) s.md.cur lanes) h.b h.w)
    if taking = [] then finish s h.b h.w else withOrder s m.ord .grp taking go)

/-! ### The words -/

/-- ATOM, ATOMCAS and RED (R298 to R304). -/
def atomWord (s : State) (h : Hdr) (opc : Nat) (d : Option Nat) (m : AtomMem) (mk : Nat → LaneEnt → SvcKind × Nat) : State :=
  let bytes := widthBytes m.width
  let s := helperZeros s h d (bytes / 4)
  if m.spad then spadWord s h opc d m mk
  else
    let x : SvcWord := { opc := opc, bytes := bytes, align := bytes, sbc := m.sbc, dest := d, sc := m.scope, first := true, ord := m.ord,
                         acq := m.ord }
    svcWord s h x (atomEa s m) mk

/-- R301. -/
def execAtom (h : Hdr) (d : Reg) (y : Reg) (op : AOp) (m : AtomMem) (s : State) : Out :=
  let n := widthBytes m.width / 4
  .next (atomWord s h 0x90 (destReg d) m (fun p e => (.atom op, srcVal s y n p e)))

/-- R301: compare from SB, swap from the next register or pair. -/
def execAtomcas (h : Hdr) (d : Reg) (y : Reg) (m : AtomMem) (s : State) : Out :=
  let n := widthBytes m.width / 4
  .next (atomWord s h 0x91 (destReg d) m (fun p e =>
    let v := srcVal s y (2 * n) p e
    (.cas (v % 2 ^ (32 * n)), v / 2 ^ (32 * n))))

/-- R302. -/
def execRed (h : Hdr) (y : Reg) (op : AOp) (m : AtomMem) (s : State) : Out :=
  let n := widthBytes m.width / 4
  .next (atomWord s h 0x92 none m (fun p e => (.red op, srcVal s y n p e)))

/-- R308: the release at S, then the adds; the thread goes on. -/
def execBsig (h : Hdr) (y : Reg) (m : MemOp) (s : State) : Out :=
  let n := widthBytes m.width / 4
  let x : SvcWord := { opc := 0x93, bytes := 8, align := 8, sbc := m.sbc, dest := none, sc := m.scope, first := true, ord := true, acq := false }
  .next (svcWord s h x (memEa s m (4 * n)) (fun p e => (.bsig, srcVal s y n p e)))

/-- R310: the warp parks until every taking lane's object holds its threshold; the acquire at S follows. -/
def execBwait (h : Hdr) (y : Reg) (m : MemOp) (s : State) : Out :=
  let n := widthBytes m.width / 4
  let x : SvcWord := { opc := 0x94, bytes := 8, align := 8, sbc := none, dest := none, sc := m.scope, first := false, ord := true, acq := true,
                       bwait := true }
  .next (svcWord s h x (memEa s m (4 * n)) (fun p e => (.bwait, srcVal s y n p e)))

/-- R311. -/
def execBpoll (h : Hdr) (d : Reg) (m : MemOp) (s : State) : Out :=
  let x : SvcWord := { opc := 0x95, bytes := 8, align := 8, sbc := m.sbc, dest := destReg d, sc := m.scope, first := false, ord := m.ord,
                       acq := m.ord, poll := true }
  .next (svcWord (helperZeros s h (destReg d) 2) h x (memEa s m 8) (fun _ _ => (.bpoll, 0)))

/-- GSYNC at span scope: each lane's arrival goes to the service warp of the span's cove (R313). -/
def sendArrivals (s : State) (w : Warp) (lanes : List (Nat × LaneEnt)) : State :=
  lanes.foldl (fun s q =>
    let (id, s) := s.fresh
    let r : SvcReq := { kind := .gsync, cove := coveOf w.core, ctx := ctxOf s w, gi := w.gi, hwarp := q.2.hwarp, lane := q.2.hlane,
                        core := w.core, opc := 0x98, pc := w.pc }
    s.updMM (fun m => { m with svc := NMap.insert m.svc id r })) s

/-- R313: arrival is a release; the lanes then split off and wait past the word, unless all have arrived with them. -/
def execGsync (h : Hdr) (span : Bool) (s : State) : Out :=
  let w := s.curWarp
  let lanes := takingLanes s w h
  let arrive := fun (s : State) =>
    let s := commitLanes s s.md.cur lanes
    let threads := lanes.map (fun q => thKey w.gi q.2.hwarp q.2.hlane)
    if !span && gsyncHolds s w.gi false threads then finish (gsyncRelease s w.gi false) h.b h.w
    else
      let room := if span then 1024 - queueLen s (coveOf w.core) else lanes.length
      let s := if (lanes.drop room) = [] then s else (split s s.md.cur ((lanes.drop room).map (·.1)) .engine).2
      let mine := lanes.take room
      if mine = [] then finish s h.b h.w
      else
        let (id, s) := split s s.md.cur (mine.map (·.1)) .none
        let s := (stepPast s id).updWarp id (fun x => { x with park := .gsync span false, ends := h.b, wMark := h.w })
        let s := if span then sendArrivals s w mine else s
        finish s h.b h.w
  .next (if lanes = [] then finish s h.b h.w
    else if span then withRelease s arrive else withGroupRelease s lanes arrive)

/-! ### The service warps (R296, R297, R301, R308 to R311, R313) -/

/-- An earlier request of the same thread is still to be performed, to the same word (R297), or an acquire (R311, R339). -/
def earlierRequest (s : State) (id : Nat) (r : SvcReq) : Bool :=
  s.mm.svc.any (fun x => decide (x.1 < id) && x.2.gi = r.gi && x.2.hwarp = r.hwarp && x.2.lane = r.lane && x.2.kind != .gsync &&
    (meets x.2.pa (x.2.bits / 8) r.pa (r.bits / 8) || x.2.acq))

/-- A request stands behind an engine's claim, words that its core's L1 has given back to the held line, earlier requests of its thread,
or the thread's earlier loads there that wait for a claim (R122, R158, R297). -/
def requestWaits (s : State) (id : Nat) (r : SvcReq) : Bool :=
  held s (r.pa / 128) || earlierRequest s id r || (wordIdx r.pa (r.bits / 8)).any (fun i => evictWaits s r.core (r.pa / 128) i) ||
  heldOver s r.gi [(r.hwarp, r.lane, r.pa, r.bits / 8)] != []

/-- The value that a request's thread reads: its own stores that still stand in the FIFO are its latest (R158, R311). -/
def ownView (s : State) (r : SvcReq) (val : Nat) : Nat :=
  natOfBytes (((List.range (r.bits / 8)).zip (bytesOfNat (r.bits / 8) val)).map (fun q =>
    (ownByte (s.hwarp (hwKey r.gi r.hwarp)).fifo r.lane (memHit (r.pa + q.1))).getD q.2))

/-- Return a request's value to its thread's pending register (R296). -/
def answerRequest (s : State) (r : SvcReq) (val : Nat) : State :=
  match r.result with
  | none => s
  | some id => s.updWK (fun k => { k with results := k.results.upd id (fun x => { x with
      known := true, lanes := x.lanes.map (fun l => { l with vals := (List.range l.vals.length).map (wordOf val) }) }) })

/-- A request leaves its service warp: its counted work is done (R302, R308). -/
def endRequest (s : State) (id : Nat) (r : SvcReq) : State :=
  let s := s.updMM (fun m => { m with svc := m.svc.erase id })
  checkGroupEnd (finishWorks s r.work.toList) r.gi

/-- A BWAIT lane at its service warp (R310): released where its object holds the threshold; else recorded, up to 2,048. -/
def testWait (s : State) (id : Nat) (r : SvcReq) : State :=
  let (v, s) := svcRead s r.pa 8
  if r.data ≤ ownView s r v then endRequest s id r
  else if r.beyond then s
  else
    let room := (s.mm.svc.filter (fun x => x.2.cove = r.cove && x.2.waiting)).length < 2048
    s.updMM (fun m => { m with svc := m.svc.upd id (fun x => if room then { x with waiting := true } else { x with beyond := true }) })

/-- The core of a request has what it performs in no other copy of the words that it keeps (R158, R296, R340): drops on their way to it
are received, and clean words filled since the request was sent are dropped. -/
def dropStale (s : State) (r : SvcReq) : State :=
  let line := r.pa / 128
  setL1 (receiveDrops s r.core (some line)) r.core line (fun l => { l with words := l.words.filter (fun w =>
    w.2.dirty || !(wordIdx r.pa (r.bits / 8)).contains w.1) })

/-- Perform one request (R296 to R303, R308, R309). A word that has been poisoned since the request was sent is left as it is, and
what is returned is open (FREE VALUE, log entry 5). -/
def performRequest (s : State) (id : Nat) (r : SvcReq) : State :=
  let writes := match r.kind with | .bwait | .bpoll | .gsync => false | _ => true
  match r.kind with
  | .gsync => gsyncTest (endRequest s id r) r.gi true
  | _ =>
    let s := countReq s r.ctx (r.ea / 2 ^ 16) r.core writes
    if r.kind = .bwait then testWait s id r
    else if llcPoisoned s r.pa then
      let (v, s) := s.openField r.bits
      let s := endRequest (answerRequest s r v) id r
      if r.wide then acquireL1 s (s.group r.gi).core else s
    else
      let (old, s) := svcRead s r.pa (r.bits / 8)
      let s := match svcVal r.kind r.bits old r.data with
        | some v => svcWrite s r.pa (r.bits / 8) v
        | none => s
      let s := if r.kind = .bsig && decide (2 ^ 64 - 1 < old + r.data) then
          postCommand s r.ctx r.core r.hwarp r.gi { code := 0x30, opc := r.opc, pc := r.pc, addr := BitVec.ofNat 64 r.ea }
        else s
      let shown := if r.kind = .bpoll then ownView s r old else old
      let s := endRequest (answerRequest (dropStale s r) r shown) id r
      if r.wide then acquireL1 s (s.group r.gi).core else s

/-- R296: a service warp performs a queued request; one that an earlier request of the thread or an engine's claim precedes
stands (R122, R297). -/
def execServiceWarpRequest (cove item : Nat) (s : State) : Out :=
  match s.mm.svc.find item with
  | none => .next s
  | some r =>
    if r.cove != cove || r.waiting || r.beyond then .next s
    else if r.kind != .gsync && requestWaits s item r then .next s
    else .next (performRequest s item r)

/-- R310: a lane beyond the recorded 2,048 tests its object again. -/
def execBwaitRetest (cove item : Nat) (s : State) : Out :=
  match s.mm.svc.find item with
  | none => .next s
  | some r => if r.cove = cove && r.beyond && !held s (r.pa / 128) then .next (testWait s item r) else .next s

end Sys2Proof.Machine
end

