-- ==== Sys2Proof/Machine/ControlWords.lean ====
section
/-!
DEFINITION. The control words (R352 to R370) but LAUNCH, and the trailer (R62, R63).
-/
namespace Sys2Proof.Machine

/-- R362. -/
def execNop (h : Hdr) (s : State) : Out := .next (finish s h.b h.w)

/-- next(w): the word after the run's last instruction, or after its trailer (R353). -/
def nextRun (w : Warp) (h : Hdr) : DWord := if h.b then w.pc + 8 else w.pc + 16

/-- Threads of a warp's lanes branch: each listed lane to its target with PRIO, the other lanes to next(w) (R353, R359). -/
def branchTo (s : State) (h : Hdr) (prio : Nat) (go : List (Nat × LaneEnt × DWord)) : State :=
  let wid := s.md.cur
  let w := s.curWarp
  let next := nextRun w h
  let s := (activeLanes w).foldl (fun s q => s.updThread (thKey w.gi q.2.hwarp q.2.hlane) (fun t =>
    match go.find? (fun g => g.1 = q.1) with
    | some g => { t with pc := g.2.2, prio := prio }
    | none => { t with pc := next })) s
  s.updWarp wid (fun x => { x with tail := true })

/-- What the eddy watch sees of a BRA or BRX (R385): the target, no later than the word, that every branching lane takes. -/
def noteBack (s : State) (go : List (Nat × LaneEnt × DWord)) : State :=
  let pc := s.curWarp.pc
  match go with
  | [] => s
  | g :: rest =>
    if rest.all (fun x => x.2.2 = g.2.2) && decide (g.2.2.toNat ≤ pc.toNat) then
      s.updWarp s.md.cur (fun x => { x with backTo := some g.2.2 })
    else s

/-- The active lanes agree on the guard (R50, R358). -/
def guardsAgree (s : State) (h : Hdr) : Bool :=
  let t := takingLanes s s.curWarp h
  t = [] || t = activeLanes s.curWarp

/-- R359: the target of a relative branch. -/
def relTarget (w : Warp) (off : BitVec 32) : DWord := w.pc + 8 * off.signExtend 64

/-- R50, R359. -/
def execBra (h : Hdr) (u : Bool) (prio : Fin 16) (off : BitVec 32) (s : State) : Out :=
  if u && !guardsAgree s h then .next (faultWord s s.md.cur 0x01 0 0x07 none)
  else
    let go := (takingLanes s s.curWarp h).map (fun q => (q.1, q.2, relTarget s.curWarp off))
    .next (finish (noteBack (branchTo s h prio.val go) go) h.b h.w)

/-- R50, R359: the link pair takes next(w); helper lanes keep theirs for the run (R195). -/
def execCall (h : Hdr) (u : Bool) (prio : Fin 16) (link : Reg) (off : BitVec 32) (s : State) : Out :=
  if u && !guardsAgree s h then .next (faultWord s s.md.cur 0x03 0 0x07 none)
  else
    let go := (takingLanes s s.curWarp h).map (fun q => (q.1, q.2, relTarget s.curWarp off))
    let next := nextRun s.curWarp h
    let t := writeDst s s.md.cur link 2 (laneVals s h (fun _ _ => next.toNat))
    .next (finish (branchTo t h prio.val go) h.b h.w)

/-- BRX and RET (R50, R358, R360): targets from a register pair, each taking lane checked. -/
def branchReg (s : State) (h : Hdr) (u : Bool) (prio : Nat) (tgt : Reg) (opc : Nat) (brx : Bool) : State :=
  let lanes := takingLanes s s.curWarp h
  let all := lanes.map (fun q => (q.1, q.2, BitVec.ofNat 64 (srcVal s tgt 2 q.1 q.2)))
  let same := match all with
    | [] => true
    | g :: rest => rest.all (fun x => x.2.2 = g.2.2)
  if u && !(guardsAgree s h && same) then faultWord s s.md.cur opc 0 0x07 none
  else
    let bad := all.filterMap (fun g =>
      if 2 ^ 55 ≤ g.2.2.toNat then some (⟨g.1, g.2.1, 0x10, some g.2.2.toNat, 0⟩ : LaneFault)
      else if g.2.2.toNat % 8 ≠ 0 then some ⟨g.1, g.2.1, 0x11, some g.2.2.toNat, 0⟩
      else none)
    let go := all.filter (fun g => decide (g.2.2.toNat < 2 ^ 55) && g.2.2.toNat % 8 == 0)
    let s := takeFaults s s.md.cur opc 0 bad true
    let s := branchTo s h prio go
    finish (if brx then noteBack s go else s) h.b h.w

/-- R360. -/
def execBrx (h : Hdr) (u : Bool) (prio : Fin 16) (tgt : Reg) (s : State) : Out :=
  .next (branchReg s h u prio.val tgt 0x02 true)
/-- R360. -/
def execRet (h : Hdr) (u : Bool) (prio : Fin 16) (tgt : Reg) (s : State) : Out :=
  .next (branchReg s h u prio.val tgt 0x04 false)

/-- A trailer's registers are awaited by later runs with threads of these home warps (R63): v index, or 192 + s index. -/
def trailRegs (l : List (Option Reg)) : List Nat :=
  l.filterMap (fun r => match r with
    | some (.v n) => some n.val
    | some (.s n) => some (192 + n.val)
    | _ => none)
def awaitRegs (s : State) (gi : Nat) (hs regs : List Nat) : State :=
  hs.foldl (fun s h => s.updHWarp (hwKey gi h) (fun x => { x with awaited := (x.awaited ++ regs).eraseDups })) s

/-- R62, R63: the trailer ends its run. -/
def execTrl (w : Bool) (r0 r1 r2 r3 : Option Reg) (s : State) : Out :=
  let x := s.curWarp
  .next (finish (awaitRegs s x.gi (warpHomes x) (trailRegs [r0, r1, r2, r3])) true w)

/-- The registers that the trailer after an EXIT names, read before the threads leave the run (R62, R63). -/
def exitTrailer (s : State) (h : Hdr) : List Nat × State :=
  if h.b then ([], s)
  else
    let w := s.curWarp
    match fetchWord s w (w.pc.toNat + 8) with
    | (.word v, s) =>
      match decodeWord (s.group w.gi).regs v with
      | .ok (.trl _ r0 r1 r2 r3) => (trailRegs [r0, r1, r2, r3], s)
      | _ => ([], s)
    | (_, s) => ([], s)

/-- R361: EXIT ends each taking thread; lanes whose guard is false go on at next(w). -/
def execExit (h : Hdr) (s : State) : Out :=
  let w := s.curWarp
  let lanes := takingLanes s w h
  if lanes = [] then .next (finish s h.b h.w)
  else
    let (regs, s) := exitTrailer s h
    let s := awaitRegs s w.gi (warpHomes w) regs
    let s := commitLanes s s.md.cur lanes
    let s := s.updWarp s.md.cur (fun x => { x with lanes := leaveLanes x (lanes.map (·.1)) })
    let s := if activeLanes s.curWarp = [] then closeRun s s.md.cur else s
    let s := exitLanes s w.gi lanes
    .next (finish s h.b h.w)

/-- JOIN and LEAVE (R364): bits of the masks of the taking lanes' home warps; then the release condition is tested. -/
def joinLeave (s : State) (h : Hdr) (k : Nat) (f : Word → Nat → Word) : State :=
  let w := s.curWarp
  let lanes := takingLanes s w h
  let s := lanes.foldl (fun s q => setK s w.gi q.2.hwarp k (f (kMask s w.gi q.2.hwarp k) q.2.hlane)) s
  finish ((homeWarps lanes).foldl (fun s hw => kTest s w.gi hw k) s) h.b h.w

/-- R364. -/
def execJoin (h : Hdr) (k : Fin 12) (s : State) : Out :=
  .next (joinLeave s h k.val (fun m j => m ||| BitVec.ofNat 32 (2 ^ j)))
/-- R364. -/
def execLeave (h : Hdr) (k : Fin 12) (s : State) : Out :=
  .next (joinLeave s h k.val (fun m j => m &&& ~~~(BitVec.ofNat 32 (2 ^ j))))

/-- The lanes of one home warp arrive at KWAIT (R364, R365): they go on, the waiters released with them, where the condition
holds with them counted; else they split off and wait past the word. -/
def kArrive (s : State) (h : Hdr) (k : Nat) (lanes : List (Nat × LaneEnt)) (hw : Nat) : State :=
  let w := s.curWarp
  let mine := lanes.filter (fun q => q.2.hwarp = hw)
  if kHolds s w.gi hw k (mine.map (fun q => q.2.hlane)) then kRelease s w.gi hw k
  else
    let (id, s) := split s s.md.cur (mine.map (·.1)) .none
    (stepPast s id).updWarp id (fun x => { x with park := .kwait k false, ends := h.b, wMark := h.w })

/-- R364 to R366, R369: threads arrive at KWAIT once their release at group scope is done. -/
def execKwait (h : Hdr) (k : Fin 12) (s : State) : Out :=
  let lanes := takingLanes s s.curWarp h
  .next (withGroupRelease s lanes (fun s =>
    let s := commitLanes s s.md.cur lanes
    finish ((homeWarps lanes).foldl (fun s hw => kArrive s h k.val lanes hw) s) h.b h.w))

/-- R368: RGN opens a region and records the next word. -/
def execRgn (h : Hdr) (s : State) : Out :=
  let w := s.curWarp
  let lanes := takingLanes s w h
  let s := lanes.foldl (fun s q => s.updThread (thKey w.gi q.2.hwarp q.2.hlane) (fun t =>
    { t with restart := { t.restart with isOpen := true } })) s
  .next (finish (commitLanes s s.md.cur lanes) h.b h.w)

/-- R362. -/
def execYield (h : Hdr) (s : State) : Out :=
  let s := if takingLanes s s.curWarp h = [] then s else s.updWarp s.md.cur (fun x => { x with yields := true })
  .next (finish s h.b h.w)

/-- TRAP, and BRK where it raises BREAK (R363): a commit point that places records at the word after, then the fault. -/
def trapLanes (s : State) (h : Hdr) (opc code : Nat) (arg : BitVec 16) : State :=
  let lanes := takingLanes s s.curWarp h
  let s := commitLanes s s.md.cur lanes
  let s := takeFaults s s.md.cur opc 0 (lanes.map (fun q => ⟨q.1, q.2, code, none, arg.toNat⟩)) false
  finish s h.b h.w

/-- R363. -/
def execTrap (h : Hdr) (code : BitVec 16) (s : State) : Out := .next (trapLanes s h 0x0B 0x40 code)
/-- R363: BREAK where CTX.DEBUG.BRK is 1, else no effect. -/
def execBrk (h : Hdr) (code : BitVec 16) (s : State) : Out :=
  if (s.ctx (ctxOf s s.curWarp)).brk then .next (trapLanes s h 0x0C 0x41 code) else .next (finish s h.b h.w)

/-- R355, R367. -/
def execSpri (h : Hdr) (prio : Fin 16) (s : State) : Out :=
  let w := s.curWarp
  let s := (takingLanes s w h).foldl (fun s q =>
    s.updThread (thKey w.gi q.2.hwarp q.2.hlane) (fun t => { t with prio := prio.val })) s
  .next (finish s h.b h.w)

end Sys2Proof.Machine
end

