-- ==== Sys2Proof/Machine/BlockOps.lean ====
section
/-!
DEFINITION. Self-describing blocks (R23 to R39): headers, swizzles, element codes, encoding and decoding of one block.
-/
namespace Sys2Proof.Machine

/-- Element tag and class of a narrow format (R24). -/
def bfmtTag : BFmt → Nat
  | .e4m3 | .i4o => 0
  | .e5m2 | .e2m1 => 1
  | .i8 | .i4 => 2

/-- The format of a class and tag; none for reserved ones (R24). -/
def bfmtOfTag (cls tag : Nat) : Option BFmt :=
  match cls, tag with
  | 0, 0 => some .e4m3
  | 0, 1 => some .e5m2
  | 0, 2 => some .i8
  | 1, 0 => some .i4o
  | 1, 1 => some .e2m1
  | 1, 2 => some .i4
  | _, _ => none

/-- Slots of a block's class (R23). -/
def slotsOf (c4 : Bool) : Nat := if c4 then 124 else 62

/-- The format byte (R24). -/
def headerByte (f : BFmt) (z : Nat) (c : Bool) : Nat :=
  bfmtTag f * 64 + (if fmt4 f then 16 else 0) + z * 2 + (if c then 1 else 0)

/-- Fields of a format byte (R24). -/
def hdrTag (h : Nat) : Nat := h / 64 % 4
def hdrClass (h : Nat) : Nat := h / 16 % 4
def hdrZ (h : Nat) : Nat := h / 2 % 8
def hdrC (h : Nat) : Bool := h % 2 == 1

/-- R26, R34, R252: a header meets a consumer's declaration of class, compression and swizzle. -/
def headerOk (h : Nat) (c4 c : Bool) (z : Nat) : Bool :=
  hdrTag h != 3 && hdrClass h == (if c4 then 1 else 0) && hdrC h == c && hdrZ h == z

/-- The mask of BLKHDR.CHK (R253) for the low 16 bits of a register. -/
def headerMask (v : Nat) (c4 c : Bool) (z : Nat) : Nat :=
  let h := v % 256
  (if hdrTag h = 3 then 1 else 0) + (if hdrClass h ≠ (if c4 then 1 else 0) then 2 else 0) +
  (if hdrC h != c then 4 else 0) + (if hdrZ h ≠ z then 8 else 0) + (if v / 256 % 256 = 255 then 16 else 0)

/-- The slot of logical element j under swizzle z (R33). -/
def swizzle (z n j : Nat) : Nat :=
  match z with
  | 0 => j
  | 1 => n - 1 - j
  | 2 => j ^^^ 1
  | 3 => (j + n / 2) % n
  | 4 => if j < n / 2 then 2 * j else 2 * (j - n / 2) + 1
  | 5 => if j % 2 = 0 then j / 2 else n / 2 + (j - 1) / 2
  | 6 => if j < 4 * (n / 4) then 4 * (j / 4) + 3 - j % 4 else j
  | _ => (5 * j) % n

/-- The slot codes of a block's payload (R23). -/
def slotCodes (c4 : Bool) (payload : List Nat) : List Nat :=
  if c4 then payload.flatMap (fun b => [b % 16, b / 16 % 16]) else payload.map (· % 256)

/-- The payload bytes of slot codes (R23). -/
def packNibbles : List Nat → List Nat
  | a :: b :: l => (a + 16 * b) :: packNibbles l
  | [a] => [a]
  | [] => []

def payloadOf (c4 : Bool) (codes : List Nat) : List Nat := if c4 then packNibbles codes else codes

/-- The value of one code, I4O markers apart (R27 to R31). -/
def codeVal (f : BFmt) (c : Nat) : FVal :=
  match f with
  | .e4m3 =>
    let neg := c.testBit 7
    let ex := c / 8 % 16
    let m := c % 8
    if ex = 15 ∧ m = 7 then .nan
    else if ex = 0 then .fin neg m (-9)
    else .fin neg (8 + m) ((ex : Int) - 10)
  | .e5m2 => decodeF ⟨5, 2, 15⟩ c
  | .i8 => intToF (toSigned 8 c)
  | .i4 => intToF (toSigned 4 c)
  | .e2m1 =>
    let neg := c.testBit 3
    let ex := c / 2 % 4
    let m := c % 2
    if ex = 0 then .fin neg m (-1) else .fin neg (2 + m) ((ex : Int) - 2)
  | .i4o => if c % 8 = 0 then .fin false 0 0 else .fin (c.testBit 3) (c % 8) 0

/-- I4O slots in storage order (R31): `taken` says that the slot was consumed as a neighbour. -/
def i4oSlots : Bool → List Nat → List FVal
  | _, [] => []
  | true, _ :: l => .fin false 0 0 :: i4oSlots false l
  | false, c :: l =>
    if c = 8 then
      match l with
      | n :: _ => .fin (n.testBit 3) (8 * 2 ^ (n % 8)) 0 :: i4oSlots true l
      | [] => [.fin false 0 0]
    else codeVal .i4o c :: i4oSlots false l

/-- A marker stands in the last slot: the block is malformed (R31, R32). -/
def i4oMalformed : Bool → List Nat → Bool
  | _, [] => false
  | true, _ :: l => i4oMalformed false l
  | false, c :: l => if c = 8 then (match l with | [] => true | _ :: _ => i4oMalformed true l) else i4oMalformed false l

/-- The block sets BLKMAL when decoded (R32), whatever its scale. -/
def blockMalformed (block : List Nat) : Bool :=
  let h := block.headD 0
  hdrClass h == 1 && hdrTag h == 0 && i4oMalformed false (slotCodes true (block.drop 2))

/-- Scaled element values by slot (R25): every one a NaN under scale 0xFF. -/
def slotVals (block : List Nat) : List FVal :=
  let h := block.headD 0
  let s := (block.drop 1).headD 0
  let c4 := hdrClass h == 1
  let codes := slotCodes c4 (block.drop 2)
  match bfmtOfTag (hdrClass h) (hdrTag h) with
  | none => codes.map (fun _ => .nan)
  | some f =>
    let vals := match f with
      | .i4o => i4oSlots false codes
      | .e4m3 | .e5m2 | .i8 | .e2m1 | .i4 => codes.map (codeVal f)
    if s = 255 then vals.map (fun _ => .nan) else vals.map (fun v => scaleF v ((s : Int) - 127))

/-- Element j of a block, by its own header's class and swizzle `z`. -/
def blockElem (vals : List FVal) (z : Nat) (j : Nat) : FVal :=
  vals.getD (swizzle z vals.length j) .nan

-- encoding

/-- Round a magnitude into a narrow float format whose codes run to `top` (R20, R39). -/
def narrowCode (f : FmtF) (top : Nat) (rm : Rm) (u : Nat) (neg : Bool) (m : Nat) (e : Int) : Nat :=
  if m = 0 then 0
  else
    let q := max ((Nat.log2 m : Int) + e - f.mbits) f.minE
    min ((q - f.minE).toNat * 2 ^ f.mbits + roundTo rm u neg m e q) top

/-- The code of a scaled element in a format other than I4O; none makes the block a block NaN (R39, R249). -/
def elemCode (f : BFmt) (rm : Rm) (u : Nat) (v : FVal) : Option Nat :=
  let clampTo (n : Nat) (i : Int) : Nat := wrapNat n (clampInt (-(2 ^ (n - 1) : Int)) ((2 ^ (n - 1) : Int) - 1) i)
  let intCode (n : Nat) : Option Nat :=
    match v with
    | .nan => none
    | .inf neg => some (clampTo n (if neg then -(2 ^ n : Int) else 2 ^ n))
    | .fin neg m e => let k : Int := roundTo rm u neg m e 0; some (clampTo n (if neg then -k else k))
  match f with
  | .e4m3 =>
    match v with
    | .nan => some 0x7F
    | .inf neg => some (if neg then 0xFF else 0x7F)
    | .fin neg m e => some ((if neg then 128 else 0) + narrowCode ⟨4, 3, 7⟩ 0x7E rm u neg m e)
  | .e5m2 =>
    match v with
    | .nan => some 0x7E
    | .inf neg => some (if neg then 0xFC else 0x7C)
    | .fin neg m e => some (roundF ⟨5, 2, 15⟩ rm u (.fin neg m e))
  | .e2m1 =>
    match v with
    | .nan => none
    | .inf neg => some (if neg then 15 else 7)
    | .fin neg m e => some ((if neg then 8 else 0) + narrowCode ⟨2, 1, 1⟩ 7 rm u neg m e)
  | .i8 => intCode 8
  | .i4 => intCode 4
  | .i4o => none

/-- An I4O element: sign, magnitude rounded to an integer, and whether it is beyond every code, with its exact value. -/
def i4oRound (rm : Rm) (u : Nat) (v : FVal) : Bool × Nat :=
  match v with
  | .nan => (false, 0)
  | .inf neg => (neg, 1024)
  | .fin neg m e => (neg, roundTo rm u neg m e 0)

/-- The exponent of the outlier nearest a magnitude (R249). -/
def outlierExp (v : FVal) : Nat :=
  match v with
  | .nan | .inf _ => 7
  | .fin _ m e =>
    ((List.range 7).find? (fun k => !ltF (.fin false (12 * 2 ^ k) 0) (.fin false m e))).getD 7

/-- Placing I4O elements in storage order (R249); `taken` carries a neighbour's code. -/
def i4oPlace (rm : Rm) : Option Nat → List (FVal × Nat) → List Nat
  | _, [] => []
  | some n, _ :: l => n :: i4oPlace rm none l
  | none, (v, u) :: l =>
    let (neg, k) := i4oRound rm u v
    if k ≤ 7 then (if k = 0 then 0 else (if neg then 8 else 0) + k) :: i4oPlace rm none l
    else match l with
      | [] => [(if neg then 8 else 0) + 7]
      | _ :: _ => 8 :: i4oPlace rm (some ((if neg then 8 else 0) + outlierExp v)) l

/-- Greatest code magnitude of a format (R248). -/
def bfmtMax : BFmt → Nat
  | .e4m3 => 448 | .e5m2 => 57344 | .i8 => 127 | .e2m1 => 6 | .i4 => 7 | .i4o => 7

/-- Insert a finite magnitude into a list in falling order. -/
def insertMag (v : FVal) : List FVal → List FVal
  | [] => [v]
  | w :: l => if ltF v w then w :: insertMag v l else v :: w :: l

def absF : FVal → FVal
  | .nan => .nan
  | .inf _ => .inf false
  | .fin _ m e => .fin false m e

/-- The scale byte BLKENC chooses (R248). -/
def chooseScale (f : BFmt) (xs : List FVal) : Nat :=
  let fins := xs.filter (fun v => match v with | .fin .. => true | .nan | .inf _ => false)
  let sorted := fins.foldl (fun l v => insertMag (absF v) l) []
  let m := match f with
    | .i4o => sorted.getD 4 (sorted.headD (.fin false 0 0))
    | .e4m3 | .e5m2 | .i8 | .e2m1 | .i4 => sorted.headD (.fin false 0 0)
  match m with
  | .fin _ 0 _ => 127
  | _ => ((List.range 255).find? (fun (t : Nat) => !ltF (.fin false (bfmtMax f) ((t : Int) - 127)) m)).getD 254

/-- The element whose slot is q: the inverse of a swizzle. -/
def elemOfSlot (z n q : Nat) : Nat := ((List.range n).find? (fun j => swizzle z n j == q)).getD 0

/-- One encoded block (R248, R249): 64 bytes. Elements are F32 patterns as read, with their draws. -/
def encodeBlock (f : BFmt) (z : Nat) (rm : Rm) (scale : Option Nat) (xs : List Nat) (us : List Nat) : List Nat :=
  let n := slotsOf (fmt4 f)
  let vals := xs.map (decodeF fmtF32)
  let s : Nat := match scale with
    | some b => b
    | none => chooseScale f vals
  let scaled := vals.map (fun v => scaleF v (127 - (s : Int)))
  let slots := (List.range n).map (fun q => let j := elemOfSlot z n q; (scaled.getD j (.fin false 0 0), us.getD j 0))
  let nanBlock := headerByte f z false :: 255 :: List.replicate 62 0
  if s = 255 then nanBlock
  else match f with
    | .i4o =>
      if vals.any isNanF then nanBlock
      else headerByte f z false :: s :: payloadOf true (i4oPlace rm none slots)
    | .e4m3 | .e5m2 | .i8 | .e2m1 | .i4 =>
      match slots.mapM (fun p => elemCode f rm p.2 p.1) with
      | some codes => headerByte f z false :: s :: payloadOf (fmt4 f) codes
      | none => nanBlock

/-- The F32 elements of a dense block (R251): rounded to nearest even, flushed under FTZ. -/
def decodeBlock (z : Nat) (ftz : Bool) (block : List Nat) : List Nat :=
  let vals := slotVals block
  (List.range vals.length).map (fun j => flushBits fmtF32 ftz (roundF fmtF32 .rn 0 (blockElem vals z j)))

end Sys2Proof.Machine
end

