-- ==== Sys2Proof/Machine/ConvWords.lean ====
section
/-!
DEFINITION. The conversion and block words (R241 to R253).
-/
namespace Sys2Proof.Machine

/-- R243: one conversion: the raw value written and the generator afterwards. -/
def cvtVal (dt st : CvtTy) (rm : Rm) (ma : SMod) (sat ftz : Bool) (raw : Nat) (x : Word) : Nat × Word :=
  match st, dt with
  | .int st, .int dt => (wrTy dt (fitTy dt sat (rdTy st raw)), x)
  | .int st, .flt dt => finishF (fmtOf dt) rm sat ftz (intToF (rdTy st raw)) x
  | .flt st, .flt dt => finishF (fmtOf dt) rm sat ftz (readF (fmtOf st) ftz ma raw) x
  | .flt st, .int dt =>
    let x' := if rm = Rm.rs then stepGen x else x
    (wrTy dt (floatToInt dt rm (drawOf x') (readF (fmtOf st) ftz ma raw)), x')

/-- R242, R243. -/
def execCvt (h : Hdr) (d a : Reg) (dt st : CvtTy) (rm : Rm) (ma : SMod) (sat ftz : Bool) (s : State) : Out :=
  .next (roundedWord s h d (cvtRegs dt) rm (fun p e x => cvtVal dt st rm ma sat ftz (srcVal s a (cvtRegs st) p e) x))

/-- R245: one element of PACK2. -/
def packElem (kind : PackKind) (rm : Rm) (m : SMod) (sat ftz : Bool) (raw : Nat) (x : Word) : Nat × Word :=
  match kind with
  | .f16 => finishF fmtF16 rm sat false (readF fmtF32 ftz m raw) x
  | .bf16 => finishF fmtBF16 rm sat false (readF fmtF32 ftz m raw) x
  | .i16 => (wrapNat 16 (fitTy .i16 sat (rdTy .i32 raw)), x)
  | .n16 => (wrapNat 16 (fitTy .n16 sat (rdTy .n32 raw)), x)

/-- R245. -/
def execPack2 (h : Hdr) (d a b : Reg) (kind : PackKind) (rm : Rm) (ma mb : SMod) (sat ftz : Bool) (s : State) : Out :=
  .next (roundedWord s h d 1 rm (fun p e x => packTwo (fun i x =>
    if i = 0 then packElem kind rm ma sat ftz (srcVal s a 1 p e) x
    else packElem kind rm mb sat ftz (srcVal s b 1 p e) x) x))

/-- The guarded lane that supplies a home lane of a home warp (R246, R247). -/
def homeLane (l : List (Nat × LaneEnt)) (h j : Nat) : Option (Nat × LaneEnt) :=
  l.find? (fun q => q.2.hwarp = h ∧ q.2.hlane = j)

/-- Elements that each home lane holds: 2 or 4 (R246). -/
def elemsPerLane (c4 : Bool) : Nat := if c4 then 4 else 2

/-- Draws of a home lane's elements under RM .rs and its generator afterwards, one step per element (R22, R249). -/
def laneDraws (n : Nat) (x : Word) : List Nat × Word :=
  (List.range n).foldl (fun acc _ => let y := stepGen acc.2; (acc.1 ++ [drawOf y], y)) ([], x)

/-- R246 to R249: the block that BLKENC forms for one home warp. -/
def encHome (s : State) (lanes : List (Nat × LaneEnt)) (hw : Nat) (a : Reg) (scale : Option Reg) (f : BFmt) (z : Nat)
    (rm : Rm) (ftz : Bool) : List Nat :=
  let w := s.curWarp
  let n := elemsPerLane (fmt4 f)
  let per := (List.range 31).map (fun j =>
    match homeLane lanes hw j with
    | some q =>
      let u := if rm = Rm.rs then (laneDraws n (genOf s w q.2)).1 else List.replicate n 0
      ((List.range n).map (fun i => flushBits fmtF32 ftz (readWord s w q.1 q.2 a i).toNat), u)
    | none => (List.replicate n 0, List.replicate n 0))
  let sc := scale.map (fun r => (readWord s w 0 {} r 0).toNat % 256)
  encodeBlock f z rm sc (per.flatMap (·.1)) (per.flatMap (·.2))

/-- R248 to R250: each taking lane writes its two bytes of its home warp's block; generators step under RM .rs. -/
def execBlkenc (h : Hdr) (d a : Reg) (scale : Option Reg) (fmt : BFmt) (z : Fin 8) (rm : Rm) (ftz : Bool) (s : State) : Out :=
  let w := s.curWarp
  let lanes := guardedLanes s w h
  let blocks := (homeWarps lanes).map (fun hw => (hw, encHome s lanes hw a scale fmt z.val rm ftz))
  let vals := lanes.map (fun q =>
    let b := (NMap.find blocks q.2.hwarp).getD []
    (q.1, q.2, b.getD (2 * q.2.hlane) 0 + 256 * b.getD (2 * q.2.hlane + 1) 0))
  let t := if rm = Rm.rs then
      setGens s w.gi ((lanes.filter (fun q => q.2.hlane != 31)).map (fun q =>
        (q.1, q.2, (laneDraws (elemsPerLane (fmt4 fmt)) (genOf s w q.2)).2)))
    else s
  .next (putVals t h d 1 vals)

/-- R246, R247: the 64 bytes of the block that the lanes of a home warp hold. -/
def blockOfHome (s : State) (lanes : List (Nat × LaneEnt)) (hw : Nat) (a : Reg) : List Nat :=
  (List.range 32).flatMap (fun j =>
    match homeLane lanes hw j with
    | some q => let v := srcVal s a 1 q.1 q.2; [v % 256, v / 256 % 256]
    | none => [0, 0])

/-- A lane's elements as one value of its pair or quad, +0.0 for home lane 31 (R246, R251). -/
def elemsVal (elems : List Nat) (n j : Nat) : Nat :=
  if j = 31 then 0 else (List.range n).foldl (fun acc i => acc + elems.getD (n * j + i) 0 * 2 ^ (32 * i)) 0

/-- R251, R252: a home warp whose block fails its check faults in its taking lanes; helper lanes of it write 0 (R195). -/
def execBlkdec (h : Hdr) (d a : Reg) (c4 : Bool) (z : Fin 8) (ftz : Bool) (s : State) : Out :=
  let w := s.curWarp
  let lanes := guardedLanes s w h
  let n := elemsPerLane c4
  let blocks := (homeWarps lanes).map (fun hw => (hw, blockOfHome s lanes hw a))
  let good := fun (hw : Nat) => headerOk (((NMap.find blocks hw).getD []).headD 0) c4 false z.val
  let elems := blocks.map (fun b => (b.1, if good b.1 then decodeBlock z.val ftz b.2 else []))
  let mal := blocks.any (fun b => good b.1 && blockMalformed b.2 && lanes.any (fun q => q.2.hwarp = b.1 && !q.2.help))
  let bad := lanes.filter (fun q => !good q.2.hwarp && !q.2.help)
  let vals := (lanes.filter (fun q => good q.2.hwarp || q.2.help)).map (fun q =>
    (q.1, q.2, elemsVal ((NMap.find elems q.2.hwarp).getD []) n q.2.hlane))
  let t := if mal then s.updCtx (ctxOf s w) (fun c => { c with stat := true }) else s
  let t := takeFaults t s.md.cur 0x73 0 (bad.map (fun q => ⟨q.1, q.2, 0x28, none, 0⟩)) true
  .next (putVals t h d n vals)

/-- R253. -/
def execBlkhdrMake (h : Hdr) (d a : Reg) (fmt : BFmt) (c : Bool) (z : Fin 8) (s : State) : Out :=
  .next (unaryWord s h d a 1 1 (fun x => headerByte fmt z.val c + 256 * (x % 256)))
/-- R253. -/
def execBlkhdrChk (h : Hdr) (d a : Reg) (c4 : Bool) (c : Bool) (z : Fin 8) (s : State) : Out :=
  .next (unaryWord s h d a 1 1 (fun x => headerMask x c4 c z.val))

end Sys2Proof.Machine
end

