-- ==== Sys2Proof/Machine/Engines.lean ====
section
/-!
DEFINITION. What the copy engines and the arrays' store paths share (R145, R146, R167, R173 to R182, R185 to R189, R283): the element
sequence, granules, where an address leads, clears and claims, reading and writing a granule, completion, faults, reels.
-/
namespace Sys2Proof.Machine

def State.cmd (s : State) (id : Nat) : Cmd := (s.en.cmds.find id).getD {}
def State.updCmd (s : State) (id : Nat) (f : Cmd → Cmd) : State := s.updEN (fun e => { e with cmds := e.cmds.upd id f })

/-! ### The element sequence (R173) -/

/-- Consecutive moves: offsets from the bases, bytes. -/
structure Seg where
  src : Int
  dst : Int
  n : Nat
deriving DecidableEq, Repr

def Moves.segs : Moves → List Seg
  | .linear n | .fill _ n => [⟨0, 0, n / 4 * 4⟩]
  | .rows b m ss ds => (List.range m).map (fun (r : Nat) => ⟨(r : Int) * ss, (r : Int) * ds, b / 4 * 4⟩)
  | .gather b xs idx => ((List.range idx.length).zip idx).map (fun q => ⟨q.2 * xs, ((q.1 * b : Nat) : Int), b / 4 * 4⟩)
  | .scatter b xs idx => ((List.range idx.length).zip idx).map (fun q => ⟨((q.1 * b : Nat) : Int), q.2 * xs, b / 4 * 4⟩)
  | .tile n e stride elems =>
    (List.range (elems.length / max n 1)).map (fun r => ⟨((r * n * e : Nat) : Int), ((r * stride : Nat) : Int), n * e⟩)

/-- An address of the sequence: global addresses mod 2^64, scratchpad offsets as they are. -/
def absAddr (sp : Bool) (base : Nat) (off : Int) : Nat :=
  if sp then (base + off).toNat else ((base + off) % 2 ^ 64).toNat

/-- Moves whose destination lies in one line: the number of the first, its source offset, destination address, bytes. -/
structure Piece where
  first : Nat
  line : Nat
  src : Int
  dst : Nat
  n : Nat
deriving DecidableEq, Repr

/-- Cut a segment at lines: of the destination, or, for XBULK, of the source (R335). -/
def cutSeg (c : Cmd) (first : Nat) (g : Seg) : List Piece :=
  if g.n = 0 then []
  else
    let d := absAddr c.dsp c.dst g.dst
    let a := if c.bulk then absAddr c.ssp c.src g.src else d
    (List.range ((a + g.n - 1) / 128 + 1 - a / 128)).map (fun i =>
      let lo := max a ((a / 128 + i) * 128)
      let hi := min (a + g.n) ((a / 128 + i + 1) * 128)
      ⟨first + (lo - a) / 4, a / 128 + i, g.src + ((lo - a : Nat) : Int), d + (lo - a), hi - lo⟩)

/-- Consecutive pieces of one line are one granule (R173). -/
def joinPieces : List Piece → List (List Piece)
  | [] => []
  | p :: l =>
    match joinPieces l with
    | (q :: qs) :: rest => if p.line = q.line then (p :: q :: qs) :: rest else [p] :: (q :: qs) :: rest
    | r => [p] :: r

/-- The granules of a command, in sequence order. -/
def granules (c : Cmd) : List (List Piece) :=
  joinPieces ((c.moves.segs.foldl (fun (acc : List Piece × Nat) g => (acc.1 ++ cutSeg c acc.2 g, acc.2 + g.n / 4)) ([], 0)).1)

/-- Source offset of a move. -/
def moveSrc : List Seg → Nat → Option Int
  | [], _ => none
  | g :: l, k => if k < g.n / 4 then some (g.src + ((4 * k : Nat) : Int)) else moveSrc l (k - g.n / 4)

/-! ### Where an address leads (R144, R145, R176) -/

/-- A line that a command reads or writes: of memory by its physical address, of a group's scratchpad range, a register row. -/
inductive Place where
  | mem (pa : Nat)
  | spad (gi line : Nat)
  | row (gi h reg : Nat)
deriving DecidableEq, Repr

def spanGroups (s : State) (gi : Nat) : List Nat := ((s.wk.spans.find (s.group gi).span).getD {}).groups

/-- Home warps of a group (R190). -/
def homeCount (g : Group) : Nat := (g.gsize + 31) / 32

/-- The row or line of a group of the issuing group's span at an on-chip address (R144, R145). -/
def onchipPlace (s : State) (gi pa : Nat) : Option Place :=
  let o := pa - 0xFF0000000000
  let q := o % 2 ^ 25
  let gs := (spanGroups s gi).filter (fun i => (s.wk.groups.find i).isSome && (s.group i).core = o / 2 ^ 25)
  if q < 2 ^ 19 then
    let row := q / 128
    (gs.find? (fun i => decide ((s.group i).rb ≤ row) && decide (row < (s.group i).rb + homeCount (s.group i) * (s.group i).regs))).map
      (fun i => .row i ((row - (s.group i).rb) / (s.group i).regs) ((row - (s.group i).rb) % (s.group i).regs))
  else if 2 ^ 20 ≤ q ∧ q < 2 ^ 20 + 2 ^ 19 then
    let b := q - 2 ^ 20
    (gs.find? (fun i => decide ((s.group i).spBase ≤ b) && decide (b < (s.group i).spBase + (s.group i).scratch))).map
      (fun i => .spad i ((b - (s.group i).spBase) / 128))
  else none

/-- What an address of a command comes to. -/
inductive Reach where
  | at (p : Place)
  | busy
  | request (f : XFail)
  | far (leafPa rec : Nat)
  | bad (code : Nat)
deriving DecidableEq, Repr

/-- R176: translate a global address of a command as an engine's access. -/
def reach (s : State) (c : Cmd) (kind : AccKind) (va : Nat) : Reach × State :=
  match xlateNow s c.core c.ctx va kind with
  | (.ok t, s) =>
    match t.ty with
    | .page => (.at (.mem (t.pa / 128 * 128)), s)
    | .rxWin => (if kind.isWrite && !storable s t then .bad 0x17 else .at (.mem (t.pa / 128 * 128)), s)
    | .txWin => (.bad 0x17, s)
    | .onChip =>
      match onchipPlace s c.gi t.pa with
      | some p => (.at p, s)
      | none => (.bad 0x21, s)
  | (.busy, s) => (.busy, s)
  | (.far l r, s) => (.far l r, s)
  | (.fail f, s) => (if ownFailure s c.ctx f then .bad (failCode f) else .request f, s)

/-- The place of a source or destination address of a command. -/
def reachFor (s : State) (c : Cmd) (sp : Bool) (kind : AccKind) (a : Nat) : Reach × State :=
  if sp then (.at (.spad c.gi (a / 128)), s) else reach s c kind a

/-! ### Scratchpad lines of a group -/

/-- Change a line of a group's range, if the group has not ended (R140, R181). -/
def updLine (s : State) (gi line : Nat) (f : Presence → Presence) : State :=
  match s.wk.groups.find gi with
  | none => s
  | some g =>
    if g.saved then s.updGroup gi (fun g => { g with savedLines := NMap.set {} g.savedLines line (f (NMap.get {} g.savedLines line)) })
    else setPresence s g.core (g.spBase / 128 + line) f

/-- R140: a command takes its clear of a line. -/
def clearLine (s : State) (id gi line : Nat) : State :=
  let k := lineKey gi line
  let c := s.cmd id
  if c.lines.contains k then s
  else
    let was := groupLine s gi line
    let s := updLine s gi line (fun x => { p := false, q := false, n := x.n + 1 })
    let s := s.updEN (fun e => { e with clears := e.clears ++ [(k, id)] })
    s.updCmd id (fun c => { c with lines := c.lines ++ [k], srcLines := if was.p && !was.q then k :: c.srcLines else c.srcLines })

/-- R140: a command has written all its bytes of a line, or ends at a fault with the line not landed. -/
def leaveLine (s : State) (id k : Nat) (fault : Bool) : State :=
  let s := updLine s (k / 4096) (k % 4096) (fun x =>
    let n := x.n - 1
    if fault then { x with n := n, q := true } else { x with n := n, p := x.p || (n = 0 && !x.q) })
  let s := s.updEN (fun e => { e with clears := e.clears.erase (k, id) })
  s.updCmd id (fun c => { c with lines := c.lines.erase k })

/-! ### Clears and claims (R122, R175) -/

/-- The command's claim of a line is acknowledged, or on its way. -/
def claimed (s : State) (id line : Nat) : Bool := s.mm.claims.any (fun c => c.line = line && c.cmd = id)
def claiming (s : State) (id line : Nat) : Bool := s.mm.dirItems.any (fun d => d.2.line = line && d.2.claim = some id)

/-- Claim a line (R122). -/
def claimLine (s : State) (id core line : Nat) : State :=
  if claimed s id line || claiming s id line then s
  else
    let (item, s) := s.fresh
    let d : DirItem := { core := core, line := line, claim := some id }
    s.updMM (fun m => { m with dirItems := NMap.insert m.dirItems item d })

/-- Claims of a command still to be acknowledged. -/
def claimItems (s : State) (id : Nat) : List Nat := (s.mm.dirItems.filter (fun d => d.2.claim = some id)).map (·.1)

/-- R175 steps 3 and 4: clear and claim the destination lines of granules, up to a page that needs a request or faults; `hold` tells
that a line to be cleared already counts 15 commands (R140). -/
def prepare (s : State) (id : Nat) : List (List Piece) → Bool × State
  | [] => (false, s)
  | g :: rest =>
    match g with
    | [] => prepare s id rest
    | p :: _ =>
      let c := s.cmd id
      match reachFor s c c.dsp .engWrite p.dst with
      | (.at pl, s) =>
        let next := fun (s : State) => prepare (s.updCmd id (fun c => { c with prepared := c.prepared + 1 })) id rest
        match pl with
        | .mem pa => next (claimLine s id c.core (pa / 128))
        | .spad gi line =>
          if !c.lines.contains (lineKey gi line) && decide (15 ≤ (groupLine s gi line).n) then (true, s)
          else next (clearLine s id gi line)
        | .row .. => next s
      | (.busy, s) | (.request _, s) | (.far _ _, s) | (.bad _, s) => (false, s)

/-- A command that stops or ends holds no line it has not yet written (R122). -/
def dropClaims (s : State) (id : Nat) : State :=
  let s := s.updMM (fun m => { m with
    claims := m.claims.filter (fun c => c.cmd != id)
    dirItems := m.dirItems.filter (fun d => d.2.claim != some id) })
  let s := s.updCmd id (fun c => { c with prepared := c.done })
  sampleHeld s

/-- A granule boundary at which GRAN lets a command stop, so many granules being completed (R51, R182, R270). -/
def atBoundary (gran done : Nat) : Bool := decide (gran < 15) && done % 2 ^ gran = 0

/-- The words of register rows that a command has written land (R146). -/
def landLate (s : State) (id : Nat) : State := ((s.cmd id).late.foldl landRow s).updCmd id (fun c => { c with late := [] })

/-- A command stops where it stands (R109, R146, R176, R182). -/
def stopCmd (s : State) (id : Nat) (why : CmdStop) : State :=
  (dropClaims (landLate s id) id).updCmd id (fun c => { c with stop := why, service := false, asked := false })

/-! ### Completion, faults and FIN (R179, R180) -/

/-- A command is gone. -/
def removeCmd (s : State) (id : Nat) : State :=
  let gi := (s.cmd id).gi
  let s := s.updEN (fun e => { e with cmds := e.cmds.erase id, clears := e.clears.filter (fun x => x.2 != id) })
  checkGroupEnd s gi

/-- Report a fault of a command or of its FIN action; the group's sticky bit is set (R180, R184). -/
def reportCmd (s : State) (id code detail : Nat) (addr : Option Nat) : State :=
  let c := s.cmd id
  let (a, s) := match addr with
    | some a => (a, s)
    | none => s.openField 64
  let s := postCommand s c.ctx c.core c.hwarp c.gi
    { code := code, opc := c.opc, pc := c.pc, addr := BitVec.ofNat 64 a, detail := BitVec.ofNat 64 (detail % 2 ^ 32) }
  s.updGroup c.gi (fun g => { g with sticky := true })

/-- R180: a command ends at a fault. -/
def failCmd (s : State) (id code : Nat) (addr : Option Nat) : State :=
  let s := reportCmd (dropClaims (landLate s id) id) id code (s.cmd id).done addr
  let s := (s.cmd id).lines.foldl (fun s k => leaveLine s id k true) s
  removeCmd (finishWorks s (s.cmd id).works) id

/-- A FIN action faults (R180): the data stand. Which granule its record names is open (FREE VALUE, log entry 5). -/
def failFin (s : State) (id code : Nat) (addr : Option Nat) : State :=
  let (d, s) := if code = 0x30 then (0, s) else s.openField 32
  removeCmd (reportCmd s id code d addr) id

/-! ### Reels (R185, R186, R189) -/

/-- A reel header as a number of 128 bits. -/
def reelHeader (s : State) (gi hdr : Nat) : Nat :=
  natOfBytes ((List.range 16).map (fun i => spadByte s (s.group gi).core ((s.group gi).spBase + hdr + i)))

/-- R186. -/
def reelValid (h scratch stage : Nat) : Bool :=
  let stages := h % 2 ^ 16
  let ssize := h / 2 ^ 32 % 2 ^ 32
  let base := h / 2 ^ 64 % 2 ^ 32
  let phase := h / 2 ^ 96 % 2 ^ 16
  decide (2 ≤ stages) && decide (stages ≤ 16) && ssize != 0 && ssize % 128 = 0 && base % 128 = 0 &&
  decide (base + stages * ssize ≤ scratch) && h / 2 ^ 16 % 2 ^ 16 = 0 && h / 2 ^ 112 = 0 && decide (phase < 2 ^ stages) &&
  decide (stage < stages)

def reelPhase (h stage : Nat) : Bool := h.testBit (96 + stage)

/-- A reel's stage as STWAIT awaits it. -/
def stageKey (hdr stage : Nat) : Nat := hdr * 16 + stage

/-- R189: toggle a stage's phase; waiters for the phase it then has are released (R188). -/
def flipStage (s : State) (gi hdr stage : Nat) : State :=
  let h := reelHeader s gi hdr
  let now := !reelPhase h stage
  let phase := h / 2 ^ 96 % 2 ^ 16 ^^^ 2 ^ stage
  let g := s.group gi
  let s := setSpadByte s g.core (g.spBase + hdr + 12) (BitVec.ofNat 8 phase)
  let s := setSpadByte s g.core (g.spBase + hdr + 13) (BitVec.ofNat 8 (phase / 256))
  s.updWK (fun k => { k with warps := k.warps.map (fun c =>
    match c.2.park with
    | .stwait l false =>
      if c.2.gi = gi then
        let left := l.filter (fun x => x != (stageKey hdr stage, now))
        (c.1, { c.2 with park := .stwait left (left = []) })
      else c
    | _ => c) })

/-- A soft error has poisoned words under bytes of a group's range, which no store has overwritten (R465). -/
def rangePoison (s : State) (gi off n : Nat) : Bool :=
  let g := s.group gi
  s.pt.spadPoison.any (fun k => decide (g.core * 2 ^ 17 + (g.spBase + off) / 4 ≤ k) &&
    decide (k < g.core * 2 ^ 17 + (g.spBase + off + n + 3) / 4))

/-- Presence lines under a reel header. -/
def reelLines (hdr : Nat) : List Nat := ((List.range 16).map (fun i => (hdr + i) / 128)).eraseDups

/-- R179: take the FIN action of a command whose data are written. It waits for an absent header line, a page request, a recall or an
engine's claim. -/
def takeFin (s : State) (id : Nat) : State :=
  let c := s.cmd id
  let wait := fun (s : State) (reqs : List Nat) => s.updCmd id (fun c => { c with stop := .finWait reqs, service := false })
  match c.fin with
  | .none => removeCmd s id
  | .flip gi hdr stage =>
    let lines := (reelLines hdr).map (groupLine s gi)
    if (s.wk.groups.find gi).isNone then failFin s id 0x21 (some hdr)
    else if lines.any (·.q) then failFin s id 0x20 (some hdr)
    else if lines.any (fun x => !x.p) then wait s []
    else if rangePoison s gi hdr 16 then failFin s id 0x15 (some hdr)
    else if reelValid (reelHeader s gi hdr) (s.group gi).scratch stage then removeCmd (flipStage s gi hdr stage) id
    else failFin s id 0x23 (some hdr)
  | .add va =>
    match xlateNow s c.core c.ctx va .atomic with
    | (.ok t, s) =>
      if !storable s t then failFin s id 0x17 (some va)
      else if held s (t.pa / 128) then wait s []
      else if llcPoisoned s t.pa then failFin s id 0x15 (some va)
      else
        let (wrapped, s) := addWord s t.pa 1
        if wrapped then failFin s id 0x30 (some va) else removeCmd s id
    | (.busy, s) => wait s []
    | (.far leaf rec, s) => wait (startRecall s c.ctx leaf rec).2 []
    | (.fail f, s) =>
      if ownFailure s c.ctx f then failFin s id (failCode f) (some va)
      else
        let (r, s) := engineReq s c.ctx c.core va .atomic f
        wait s r.toList

/-- R179: every destination word is written and released: the counter falls, then FIN. -/
def completeCmd (s : State) (id : Nat) : State :=
  let works := (s.cmd id).works
  let s := landLate s id
  takeFin ((finishWorks s works).updCmd id (fun c => { c with works := [], service := false })) id

/-! ### Reading and writing a granule (R177, R178) -/

/-- What a source word comes to: a word, whether it is poisoned, the line of global addresses it was read from; or a wait, which names
what the granule waits for if that can take long; or a stop. -/
inductive Got where
  | ok (w : Word) (poison : Bool) (line : Option Nat)
  | wait (w : Option CmdWait)
  | request (f : XFail) (va : Nat)
  | far (leafPa rec va : Nat)
  | bad (code addr : Nat)
deriving DecidableEq, Repr

/-- A word of a place at an offset in its line. -/
def wordAt (s : State) (p : Place) (off : Nat) : Word :=
  match p with
  | .mem pa => BitVec.ofNat 32 (memNat s (pa + off) 4)
  | .spad gi line =>
    let g := s.group gi
    BitVec.ofNat 32 (natOfBytes ((List.range 4).map (fun i => spadByte s g.core (g.spBase + line * 128 + off + i))))
  | .row gi h reg => NMap.get 0 s.rg.v (vKey gi h reg (off / 4))

/-- Read a word at a place on a command's behalf (R177, R346, R465). -/
def placeGot (s : State) (id : Nat) (c : Cmd) (p : Place) (a : Nat) : Got :=
  let off := a % 128
  match p with
  | .mem pa =>
    if s.mm.claims.any (fun x => x.line = pa / 128 && x.cmd != id) then .wait (some (.source (pa / 128)))
    else .ok (wordAt s p off) (llcPoisoned s (pa + off)) (some (a / 128))
  | .spad gi line =>
    let x := groupLine s gi line
    let g := s.group gi
    if x.q then .bad 0x20 a
    else if !(x.p || c.srcLines.contains (lineKey gi line)) then .wait (some (.absent (lineKey gi line)))
    else if s.pt.spadPoison.contains (g.core * 2 ^ 17 + (g.spBase + line * 128 + off) / 4) then .bad 0x15 a
    else .ok (wordAt s p off) false none
  | .row gi h reg =>
    if s.pt.rowPoison.any (fun k => rowOf k = rowOf (vKey gi h reg 0)) then .bad 0x15 a else .ok (wordAt s p off) false none

/-- A source word of a command, read ahead or now. -/
def srcGot (s : State) (id move : Nat) (off : Int) : Got × State :=
  let c := s.cmd id
  match c.moves with
  | .fill w _ => (.ok w false none, s)
  | _ =>
    match c.early.find move with
    | some w => (.ok w false none, s)
    | none =>
      let a := absAddr c.ssp c.src off
      match reachFor s c c.ssp .engRead a with
      | (.at p, s) =>
        let s := match p with
          | .mem pa => llcEnsure s (pa / 128)
          | _ => s
        (placeGot s id c p a, s)
      | (.busy, s) => (.wait none, s)
      | (.request f, s) => (.request f a, s)
      | (.far l r, s) => (.far l r a, s)
      | (.bad code, s) => (.bad code a, s)

/-- The bytes of one piece, with the destination addresses of words that carry poison and the lines of global addresses read for it;
or what stops it. -/
structure PieceData where
  bytes : List Byte := []
  poison : List Nat := []
  lines : List Nat := []
  stop : Option Got := none
deriving DecidableEq, Repr

def pieceData (s : State) (id : Nat) (p : Piece) : PieceData × State :=
  match (s.cmd id).moves with
  | .tile _ e _ elems =>
    ({ bytes := ((List.range (p.n / max e 1)).map (fun i => bytesOfNat e (elems.getD (p.src.toNat / max e 1 + i) 0))).flatten }, s)
  | _ =>
    (List.range (p.n / 4)).foldl (fun (acc : PieceData × State) i =>
      match acc.1.stop with
      | some _ => acc
      | none =>
        match srcGot acc.2 id (p.first + i) (p.src + ((4 * i : Nat) : Int)) with
        | (.ok w bad line, s) =>
          ({ acc.1 with bytes := acc.1.bytes ++ bytesOfNat 4 w.toNat, lines := acc.1.lines ++ line.toList,
                        poison := if bad then acc.1.poison ++ [p.dst + 4 * i] else acc.1.poison }, s)
        | (r, s) => ({ acc.1 with stop := some r }, s)) ({}, s)

/-- The pieces of a granule with their data, as far as nothing stops them. -/
def granuleData (s : State) (id : Nat) : List Piece → List (Piece × PieceData) × Option Got × State
  | [] => ([], none, s)
  | p :: l =>
    match pieceData s id p with
    | (d, s) =>
      match d.stop with
      | some r => ([], some r, s)
      | none =>
        let (rest, stop, s) := granuleData s id l
        ((p, d) :: rest, stop, s)

/-- Scratchpad bytes that a command writes in a line of a group, from a place on, but for those which commands issued after it on its core
have written already; the commands issued before it that have still to write there come to skip them in turn (R142). -/
def spadWrite (s : State) (id gi line off : Nat) (l : List Byte) : State :=
  let g := s.group gi
  let c := s.cmd id
  let byteKey := fun (i : Nat) => lineKey gi line * 128 + off + i
  let base := g.spBase + line * 128 + off
  let mine := ((List.range l.length).zip l).filter (fun q => !c.later.contains (byteKey q.1))
  let s := mine.foldl (fun s q => setSpadByte s g.core (base + q.1) q.2) s
  let done := mine.map (fun q => base + q.1)
  let s := s.updPT (fun x => { x with spadPoison := x.spadPoison.filter (fun k =>
    !(k / 2 ^ 17 = g.core && (List.range 4).all (fun i => done.contains (k % 2 ^ 17 * 4 + i)))) })
  s.updEN (fun e => { e with cmds := e.cmds.map (fun x =>
    if x.1 < id && x.2.core = c.core && !x.2.bulk then
      (x.1, { x.2 with later := (mine.map (fun q => byteKey q.1) ++ x.2.later).eraseDups })
    else x) })

/-- Bytes of a register row as words of its lanes: v register word, bytes by place in it (R144, R146). -/
def rowWords (gi h reg off : Nat) (l : List Byte) : List (Nat × List (Nat × Byte)) :=
  let bytes := ((List.range l.length).zip l).map (fun q => (off + q.1, q.2))
  ((bytes.map (fun b => b.1 / 4)).eraseDups).map (fun w =>
    (vKey gi h reg w, (bytes.filter (fun b => b.1 / 4 = w)).map (fun b => (b.1 % 4, b.2))))

/-- Write bytes of a command at a place from an address on (R117, R142, R146, R465). Words of a register row land one by one, at the
latest when the command completes or stops. -/
def placeWrite (s : State) (id : Nat) (p : Place) (a : Nat) (l : List Byte) (poison : List Nat) : State :=
  let off := a % 128
  match p with
  | .mem pa => poison.foldl (fun s x => poisonGranule s ((pa + x % 128) / 64)) (engWrite s (pa + off) l)
  | .spad gi line => spadWrite s id gi line off l
  | .row gi h reg => s.updCmd id (fun c => { c with late := c.late ++ rowWords gi h reg off l })

/-- Bytes moved are metered (R425), and a line is charged to the copy class (R380). -/
def meterBytes (s : State) (ctx n : Nat) : State := s.updCtx ctx (fun c => { c with bytes := (c.bytes + n) % 2 ^ 64 })

/-- A page request, a recall or a fault that a command meets (R103, R109, R176). A full pending table leaves it to try again. -/
def meetStop (s : State) (id : Nat) (kind : AccKind) (r : Got) : State :=
  let c := s.cmd id
  match r with
  | .request f va =>
    match engineReq s c.ctx c.core va kind f with
    | (some q, s) => stopCmd s id (.request [q] va)
    | (none, s) => s
  | .far leaf rec va =>
    match startRecall s c.ctx leaf rec with
    | (some q, s) => stopCmd (s.updXL (fun x => { x with recalls := x.recalls.upd q (fun y => { y with cmds := y.cmds ++ [id] }) })) id (.recall [q] va)
    | (none, s) => s
  | .bad code a => failCmd s id code (some a)
  | .wait (some w) => if c.asked then stopCmd s id .preempted else s.updCmd id (fun c => { c with stop := .waits w, service := false })
  | .wait none | .ok .. => s

/-- A command's claim of a line is acknowledged and the oldest there; its clear of a line is the oldest there (R122, R142). -/
def memTurn (s : State) (id line : Nat) : Bool :=
  ((s.mm.claims.find? (fun c => decide (c.line = line))).map (fun c => decide (c.cmd = id))).getD false
def spadTurn (s : State) (id key : Nat) : Bool :=
  ((s.en.clears.find? (fun c => decide (c.1 = key))).map (fun c => decide (c.2 = id))).getD false

/-- What the place of a command's granule still has to wait for before it may be written. -/
def turnWait (s : State) (id : Nat) (p : Place) : Option CmdWait :=
  match p with
  | .mem pa => if memTurn s id (pa / 128) then none else some (.memTurn (pa / 128))
  | .spad gi line =>
    if !(s.cmd id).lines.contains (lineKey gi line) then some (.full (lineKey gi line))
    else if spadTurn s id (lineKey gi line) then none
    else some (.spadTurn (lineKey gi line))
  | .row .. => none

/-- A granule is written: claims of lines that no later granule writes are released, cleared lines land (R140, R178). -/
def landGranule (s : State) (id : Nat) (p : Place) (later : List Nat) (line : Nat) : State :=
  if later.contains line then s
  else
    match p with
    | .mem pa => sampleHeld (s.updMM (fun m => { m with claims := m.claims.filter (fun c => !(c.line = pa / 128 && c.cmd = id)) }))
    | .spad gi l => leaveLine s id (lineKey gi l) false
    | .row .. => s

/-- Requests that reads of lines of global addresses made to the LLC, one a line (R130). -/
def countReads (s : State) (c : Cmd) (lines : List Nat) : State :=
  lines.eraseDups.foldl (fun s l => countReq s c.ctx (l / 512) c.core false) s

/-- Write granule number `done` of a command whose destination stands at `pl`. -/
def writeGranule (s : State) (id : Nat) (pl : Place) (g : List Piece) (rest : List (List Piece)) (data : List (Piece × PieceData)) : State :=
  let c := s.cmd id
  let later := (rest.flatten).map (fun p => p.line)
  let s := data.foldl (fun s d => placeWrite s id pl d.1.dst d.2.bytes d.2.poison) s
  let n := (data.map (fun d => d.2.bytes.length)).sum
  let s := match pl with
    | .mem _ => countReq s c.ctx (((g.map (fun (p : Piece) => p.dst)).headD 0) / 2 ^ 16) c.core true
    | _ => s
  let s := countReads s c (data.flatMap (fun (d : Piece × PieceData) => d.2.lines))
  let s := charge (meterBytes s c.ctx n) 1 c.core c.ctx 1
  let s := landGranule s id pl later ((g.map (fun p => p.line)).headD 0)
  let s := s.updCmd id (fun c => { c with done := c.done + 1 })
  if rest = [] then completeCmd s id
  else if c.asked && atBoundary c.gran (c.done + 1) then stopCmd s id .preempted
  else s

/-- Serve the next granule of a command (R173, R176, R177). -/
def serveGranule (s : State) (id : Nat) : State :=
  let c := s.cmd id
  match (granules c).drop c.done with
  | [] => completeCmd s id
  | g :: rest =>
    let (_, s) := if c.prepared ≤ c.done then prepare s id (g :: rest) else (false, s)
    match g with
    | [] => s
    | p :: _ =>
      match reachFor s (s.cmd id) c.dsp .engWrite p.dst with
      | (.at pl, s) =>
        let s := match pl with
          | .mem pa => claimLine s id c.core (pa / 128)
          | _ => s
        match turnWait s id pl with
        | some w => meetStop s id .engWrite (.wait (some w))
        | none =>
          match granuleData s id g with
          | (data, none, s) =>
            let bad := match pl with
              | .mem _ => none
              | _ => data.find? (fun (d : Piece × PieceData) => d.2.poison != [])
            match bad with
            | some d => failCmd s id 0x15 (some (absAddr c.ssp c.src d.1.src))
            | none => writeGranule s id pl g rest data
          | (_, some r, s) => meetStop s id .engRead r
      | (.busy, s) => s
      | (.request f, s) => meetStop s id .engWrite (.request f p.dst)
      | (.far l r, s) => meetStop s id .engWrite (.far l r p.dst)
      | (.bad code, s) => failCmd s id code (some p.dst)

/-- Read source words of a command ahead of their granules (R177): each is read once; one that cannot be read now is left. -/
def readAhead (s : State) (id : Nat) (moves : List Nat) : State :=
  let c := s.cmd id
  match c.moves with
  | .fill .. | .tile .. => s
  | m =>
    let (lines, s) := moves.foldl (fun (acc : List Nat × State) k =>
      match moveSrc m.segs k with
      | none => acc
      | some off =>
        match srcGot acc.2 id k off with
        | (.ok w false line, s) => (acc.1 ++ line.toList, s.updCmd id (fun c => { c with early := NMap.insert c.early k w }))
        | _ => acc) ([], s)
    countReads s c lines

/-! ### Service (R167, R182, R380) -/

/-- Commands of a core's copy engine, XBULK among them; MXST takes no entry, nor does a command saved with its pre-empted group (R167,
R182, R283, R335). -/
def isTile (c : Cmd) : Bool := match c.moves with | .tile .. => true | _ => false
def engineCmds (s : State) (core : Nat) : List (Nat × Cmd) :=
  s.en.cmds.filter (fun c => c.2.core = core && !isTile c.2 && ((s.group c.2.gi).resident || c.2.asked))

/-- The context that a class serves first at a place among those ready (R379, R380). -/
def firstServed (s : State) (cls place : Nat) (ctxs : List Nat) : Option Nat :=
  let key := fun (c : Nat) => ((if dWeight s cls c = 0 then 1 else 0) * 2 ^ 100 + vtOf s cls place c) * 4096 + c
  ctxs.foldl (fun (best : Option Nat) c =>
    match best with
    | none => some c
    | some b => if key c < key b then some c else some b) none

/-- A context that becomes ready at a place rejoins at the lowest virtual time there (R380). -/
def rejoin (s : State) (cls place ctx : Nat) (others : List Nat) : State :=
  match others with
  | [] => s
  | o :: l =>
    let low := l.foldl (fun m c => min m (vtOf s cls place c)) (vtOf s cls place o)
    s.updPT (fun p => { p with vt := NMap.set 0 p.vt (vtKey cls place ctx) (max (vtOf s cls place ctx) low) })

/-- A command has nothing to wait for, or what it waited for is over (R108, R122, R127, R142, R177). -/
def mayGo (s : State) (id : Nat) (c : Cmd) : Bool :=
  match c.stop with
  | .running => true
  | .request l _ => !(l.any (fun r => (s.xl.reqs.find r).isSome))
  | .recall l _ => !(l.any (fun r => (s.xl.recalls.find r).isSome))
  | .waits (.absent k) => lineReady s k
  | .waits (.source line) => !(s.mm.claims.any (fun x => x.line = line && x.cmd != id))
  | .waits (.full k) => decide ((groupLine s (k / 4096) (k % 4096)).n < 15)
  | .waits (.memTurn line) => memTurn s id line || !(claimed s id line || claiming s id line)
  | .waits (.spadTurn k) => spadTurn s id k
  | .preempted | .finWait _ => false

/-- Commands that could enter service at an engine: not stopped, and first of their group of those that have not begun (R167). -/
def couldEnter (s : State) (l : List (Nat × Cmd)) (q : Nat × Cmd) : Bool :=
  !q.2.service && mayGo s q.1 q.2 && !(l.any (fun x => x.2.gi = q.2.gi && !x.2.begun && decide (x.1 < q.1)))

/-- The scheduler would take this command into service now. -/
def mayEnter (s : State) (id : Nat) : Bool :=
  let c := s.cmd id
  let l := engineCmds s c.core
  let open4 := decide ((l.filter (fun x => x.2.service)).length < 4)
  open4 && couldEnter s l (id, c) &&
    (firstServed s 1 c.core ((l.filter (couldEnter s l)).map (fun x => x.2.ctx)).eraseDups = some c.ctx)

/-- A command that was stopped or delayed goes on once nothing stands in its way. -/
def resumeCmd (s : State) (id : Nat) : State :=
  if mayGo s id (s.cmd id) then s.updCmd id (fun c => { c with stop := .running }) else s

/-- One turn of a command: FIN where only that is left; else into service, then `serve`. -/
def turnCmd (s : State) (id : Nat) (serve : State → State) : State :=
  match s.en.cmds.find id with
  | none => s
  | some c =>
    if !((s.group c.gi).resident || c.asked) then s
    else
      match c.stop with
      | .finWait l => if l.any (fun r => (s.xl.reqs.find r).isSome) then s else takeFin s id
      | .preempted => s
      | .running | .waits _ | .request .. | .recall .. =>
        let s := resumeCmd s id
        if (s.cmd id).stop != .running then s
        else if isTile c || c.service then serve s
        else if mayEnter s id then serve (s.updCmd id (fun c => { c with service := true, begun := true }))
        else s

/-! ### Issue (R174, R175) -/

/-- The taking lane of lowest home lane (R168); of several, that of the lowest home warp (DESIGN CHOICE, log entry 30). -/
def leaderOf (l : List (Nat × LaneEnt)) : Option (Nat × LaneEnt) :=
  let key := fun (q : Nat × LaneEnt) => q.2.hlane * 32 + q.2.hwarp
  l.foldl (fun (best : Option (Nat × LaneEnt)) q =>
    match best with
    | none => some q
    | some b => if key q < key b then some q else some b) none

/-- A fault at an engine word stops every taking lane (R174, R388). -/
def faultTaking (s : State) (h : Hdr) (opc code : Nat) (addr : Option Nat) : State :=
  let lanes := takingLanes s s.curWarp h
  finish (takeFaults s s.md.cur opc 0 (lanes.map (fun q => ⟨q.1, q.2, code, addr, 0⟩)) true) h.b h.w

/-- R175 steps 3 to 5: clear, claim, queue and count; the warp waits for its claims in phase 2. A line that 15 commands have cleared
parks the warp before the command. Once it is queued the word has been performed, and its home warps commit (R369). -/
def issueCmd (s : State) (h : Hdr) (lanes : List (Nat × LaneEnt)) (sbc : Option (Fin 6)) (c : Cmd) : State :=
  let (id, t) := s.fresh
  let t := t.updEN (fun e => { e with cmds := NMap.insert e.cmds id c })
  let (hold, t) := if c.bulk then (false, t) else prepare t id (granules c)
  if hold then parkHere s .engine
  else
    let others := ((engineCmds s c.core).map (fun x => x.2.ctx)).eraseDups
    let t := if isTile c || others.contains c.ctx then t else rejoin t 1 c.core c.ctx others
    let (works, t) := takeWorks (openWorks t sbc lanes) t.md.cur lanes
    let t := commitLanes (t.updCmd id (fun c => { c with works := works.map (·.2) })) t.md.cur lanes
    let items := claimItems t id
    let t := if c.moves.segs.all (fun g => g.n = 0) then completeCmd t id else t
    if items = [] then finish t h.b h.w
    else parkHere (t.updWarp t.md.cur (fun w => { w with phase := 2 })) (.items items)

end Sys2Proof.Machine
end

