-- ==== Sys2Proof/Machine/CopyWords.lean ====
section
/-!
DEFINITION. The copy words, WAITSB, CPYQ and the reel words (R167 to R189), and the event COPY_GRANULE.
-/
namespace Sys2Proof.Machine

/-- The five copy commands (R171, R173). -/
inductive CopyKind where
  | lin | fill | rows | gather | scatter
deriving DecidableEq, Repr

/-- Word `i` of the size quad as a number. -/
def quadWord (q i : Nat) : Nat := q / 2 ^ (32 * i) % 2 ^ 32

/-- The element sequence that the sizes give (R171, R173). -/
def copyMoves (k : CopyKind) (q : Nat) (pattern : Word) (idx : List Int) : Moves :=
  match k with
  | .lin => .linear (quadWord q 0)
  | .fill => .fill pattern (quadWord q 0)
  | .rows => .rows (quadWord q 0) (quadWord q 1) (signed32 (quadWord q 2)) (signed32 (quadWord q 3))
  | .gather => .gather (quadWord q 0) (signed32 (quadWord q 2)) idx
  | .scatter => .scatter (quadWord q 0) (signed32 (quadWord q 2)) idx

/-- R174 check 1: sizes and counts within R171. -/
def sizesOk (k : CopyKind) (q : Nat) : Bool :=
  let a := quadWord q 0
  let b := quadWord q 1
  match k with
  | .lin | .fill => decide (a ≤ 2 ^ 30)
  | .rows => decide (4 ≤ a) && decide (a ≤ 65536) && decide (b ≤ 65536) && decide (a * b ≤ 2 ^ 30)
  | .gather | .scatter => decide (4 ≤ a) && decide (a ≤ 4096) && decide (b ≤ 65536)

/-- Sizes and strides that must be multiples of 4 (R174 check 4). -/
def sizesAligned (k : CopyKind) (q : Nat) : Bool :=
  match k with
  | .lin | .fill => quadWord q 0 % 4 = 0
  | .rows => quadWord q 0 % 4 = 0 && quadWord q 2 % 4 = 0 && quadWord q 3 % 4 = 0
  | .gather | .scatter => quadWord q 0 % 4 = 0 && quadWord q 2 % 4 = 0

/-- How the checks of a command at issue come out. -/
inductive Checked where
  | ok (idx : List Int)
  | bad (code : Nat) (addr : Option Nat)
  | absent (lines : List Nat)
deriving DecidableEq, Repr

/-- Whether bytes of a group's range can be read by an engine word as it issues: lines to wait for, or a fault (R141, R465). -/
def rangeState (s : State) (gi off n : Nat) : Checked :=
  let g := s.group gi
  let lines := spadLines g.spBase off n
  if lines.any (fun l => (presenceOf s g.core l).q) then .bad 0x20 (some off)
  else
    let away := lines.filter (fun l => !(presenceOf s g.core l).p)
    if away ≠ [] then .absent (away.map (fun l => lineKey gi (l - g.spBase / 128)))
    else if rangePoison s gi off n then .bad 0x15 (some off)
    else .ok []

/-- The index list of CPYG and CPYS (R174): its extent, its alignment, its lines, its words. -/
def readList (s : State) (gi : Nat) (k : CopyKind) (q : Nat) : Checked :=
  match k with
  | .lin | .fill | .rows => .ok []
  | .gather | .scatter =>
    let n := quadWord q 1
    let x := quadWord q 3
    let g := s.group gi
    if g.scratch < x + 4 * n then .bad 0x18 (some x)
    else if x % 4 ≠ 0 then .bad 0x11 (some x)
    else
      match rangeState s gi x (4 * n) with
      | .ok _ => .ok ((List.range n).map (fun i =>
          signed32 (natOfBytes ((List.range 4).map (fun j => spadByte s g.core (g.spBase + x + 4 * i + j))))))
      | r => r

/-- A command as its word names it, before its sequence is known. -/
structure CopyArgs where
  kind : CopyKind
  q : Nat
  src : Nat
  dst : Nat
  ssp : Bool
  dsp : Bool
  fin : Fin3
  freg : Nat
deriving DecidableEq, Repr

/-- R174 check 2: the first address of the sequence with bits [63:55] set. -/
def highAddr (a : CopyArgs) (segs : List Seg) : Option Nat :=
  let ends := fun (sp : Bool) (base : Nat) (off : Int) (n : Nat) =>
    if sp || n = 0 then [] else [absAddr false base off, absAddr false base (off + ((n - 4 : Nat) : Int))]
  let l := segs.flatMap (fun g => (if a.kind = .fill then [] else ends a.ssp a.src g.src g.n) ++ ends a.dsp a.dst g.dst g.n)
  let fin := match a.fin with | .add _ => [a.freg] | _ => []
  (l ++ fin).find? (fun x => decide (2 ^ 55 ≤ x))

/-- R174 check 3: the first scratchpad offset beyond SCRATCH. -/
def outOfRange (a : CopyArgs) (scratch : Nat) (segs : List Seg) : Option Nat :=
  let one : Nat → Int → Nat → List Nat := fun base off n =>
    if n = 0 then []
    else if (base : Int) + off < 0 ∨ (scratch : Int) < (base : Int) + off + n then [(((base : Int) + off) % 2 ^ 64).toNat] else []
  (segs.flatMap (fun g => (if a.ssp && a.kind != .fill then one a.src g.src g.n else []) ++ (if a.dsp then one a.dst g.dst g.n else []))).head?

/-- R174: the checks in order; `rg` is the reel's group. -/
def checkCopy (s : State) (gi rg : Nat) (a : CopyArgs) : Checked :=
  if !sizesOk a.kind a.q then .bad 0x22 none
  else
    match readList s gi a.kind a.q with
    | .ok idx =>
      let segs := (copyMoves a.kind a.q 0 idx).segs
      let hdr := a.freg % 2 ^ 19
      let stage := a.freg / 2 ^ 20 % 16
      let flip := match a.fin with | .flip _ => true | _ => false
      let add := match a.fin with | .add _ => true | _ => false
      match highAddr a segs with
      | some x => .bad 0x10 (some x)
      | none =>
        match outOfRange a (s.group gi).scratch segs with
        | some x => .bad 0x18 (some x)
        | none =>
          if flip && decide ((s.group rg).scratch < hdr + 16) then .bad 0x18 (some hdr)
          else if a.dst % 4 ≠ 0 then .bad 0x11 (some a.dst)
          else if a.kind != .fill && a.src % 4 != 0 then .bad 0x11 (some a.src)
          else if !sizesAligned a.kind a.q then .bad 0x11 none
          else if flip && hdr % 16 != 0 then .bad 0x11 (some hdr)
          else if add && a.freg % 8 != 0 then .bad 0x11 (some a.freg)
          else if !flip then .ok idx
          else if a.freg.testBit 19 || a.freg / 2 ^ 24 != 0 then .bad 0x23 (some hdr)
          else
            match rangeState s rg hdr 16 with
            | .ok _ => if reelValid (reelHeader s rg hdr) (s.group rg).scratch stage then .ok idx else .bad 0x23 (some hdr)
            | r => r
    | r => r

/-- The command has no moves (R173, R179). -/
def CopyArgs.noMoves (a : CopyArgs) : Bool :=
  quadWord a.q 0 < 4 || (match a.kind with | .lin | .fill => false | .rows | .gather | .scatter => quadWord a.q 1 = 0)

/-- The reel's group (R174): the one whose rows or range hold the destination's first byte, where that byte is reached through the
on-chip map; else the issuing group. A failure of that translation parks the warp or faults. -/
def withReelGroup (s : State) (h : Hdr) (opc : Nat) (a : CopyArgs) (k : Nat → State → State) : State :=
  let wid := s.md.cur
  let w := s.curWarp
  let flip := match a.fin with | .flip _ => true | _ => false
  if !flip || a.dsp || decide (2 ^ 55 ≤ a.dst) || a.noMoves then k w.gi s
  else
    match xlateNow s w.core (ctxOf s w) a.dst .engWrite with
    | (.ok t, s) =>
      if t.ty != .onChip then k w.gi s
      else
        match onchipPlace s w.gi t.pa with
        | some (.row g _ _) | some (.spad g _) => k g s
        | _ => faultTaking s h opc 0x21 (some a.dst)
    | (.far l r, s) =>
      match startRecall s (ctxOf s w) l r with
      | (some id, s) => parkHere (noteEas s wid ((takingLanes s w h).map (fun q => (q.1, a.dst)))) (.far [id])
      | (none, s) => parkHere s .engine
    | (.busy, s) => parkHere s .engine
    | (.fail f, s) =>
      if ownFailure s (ctxOf s w) f then faultTaking s h opc (failCode f) (some a.dst) else requestAll s wid (takingLanes s w h) a.dst .engWrite f

/-- The engine holds 64 commands, or 16 of the group (R167). -/
def engineFull (s : State) (core gi : Nat) : Bool :=
  let l := engineCmds s core
  decide (64 ≤ l.length) || decide (16 ≤ (l.filter (fun c => c.2.gi = gi)).length)

/-- The five copy words (R168, R174, R175). -/
def copyWord (s : State) (h : Hdr) (opc : Nat) (c : CopyOp) (k : CopyKind) : State :=
  let w := s.curWarp
  let taking := takingLanes s w h
  match leaderOf taking with
  | none => finish s h.b h.w
  | some (p, e) =>
    if w.phase = 2 then finish s h.b h.w
    else
      let quad := match k with | .lin | .fill => 1 | _ => 4
      let freg := match c.fin with
        | .none => 0
        | .flip r => srcVal s r 1 p e
        | .add r => srcVal s r 2 p e
      let src := srcVal s c.src (if k = .fill || c.ssp then 1 else 2) p e
      let a : CopyArgs := ⟨k, srcVal s c.size quad p e, src, srcVal s c.dst (if c.dsp then 1 else 2) p e, c.ssp, c.dsp, c.fin, freg⟩
      withCounter s c.sbc taking (fun s =>
        if engineFull s w.core w.gi then parkHere s .engine
        else
          afterSpadStores s (activeLanes w) (fun s =>
            withReelGroup s h opc a (fun rg s =>
              match checkCopy s w.gi rg a with
              | .bad code addr => faultTaking s h opc code addr
              | .absent lines => parkHere s (.lines lines)
              | .ok idx =>
                let fin : FinAct := match c.fin with
                  | .none => .none
                  | .flip _ => .flip rg (freg % 2 ^ 19) (freg / 2 ^ 20 % 16)
                  | .add _ => .add freg
                let x : Cmd := { gi := w.gi, ctx := ctxOf s w, core := w.core, opc := opc, pc := w.pc,
                                 moves := copyMoves k a.q (BitVec.ofNat 32 src) idx, src := src, dst := a.dst, ssp := c.ssp, dsp := c.dsp,
                                 gran := c.gran.val, fin := fin, hwarp := e.hwarp }
                let go := fun (s : State) => issueCmd s h taking c.sbc x
                if c.rel then withRelease s go else go s)))

/-- R173. -/
def execCpy (h : Hdr) (c : CopyOp) (s : State) : Out := .next (copyWord s h 0xB0 c .lin)
/-- R173. -/
def execCpy2d (h : Hdr) (c : CopyOp) (s : State) : Out := .next (copyWord s h 0xB1 c .rows)
/-- R173. -/
def execCpyg (h : Hdr) (c : CopyOp) (s : State) : Out := .next (copyWord s h 0xB2 c .gather)
/-- R173. -/
def execCpys (h : Hdr) (c : CopyOp) (s : State) : Out := .next (copyWord s h 0xB3 c .scatter)
/-- R173. -/
def execCpyf (h : Hdr) (c : CopyOp) (s : State) : Out := .next (copyWord s h 0xB4 c .fill)

/-- R173, R176 to R180: the engine completes the next granule of a command, or reads source words ahead of theirs. -/
def execCopyGranule (cmd : Nat) (ahead : Option (List Nat)) (s : State) : Out :=
  let c := s.cmd cmd
  if isTile c || c.bulk then .next s
  else
    match ahead with
    | none => .next (turnCmd s cmd (fun s => serveGranule s cmd))
    | some l => .next (if c.stop = .running && (s.group c.gi).resident then readAhead s cmd l else s)

/-- R183, R199: the warp waits for counter `c` of every home warp that supplies a taking lane. -/
def execWaitsb (h : Hdr) (c : Fin 6) (n : Fin 64) (s : State) : Out :=
  let w := s.curWarp
  let hs := homeWarps (takingLanes s w h)
  if hs.any (fun x => decide (n.val < sbOf s w.gi x c.val)) then .next (parkHere s (.waitsb c.val n.val hs))
  else .next (finish s h.b h.w)

/-- R184. -/
def execCpyq (h : Hdr) (d : Reg) (clr : Bool) (s : State) : Out :=
  let w := s.curWarp
  let l := engineCmds s w.core
  let mine := (l.filter (fun c => c.2.gi = w.gi)).length
  let v := mine + (if (s.group w.gi).sticky then 128 else 0) + (64 - l.length) * 256
  let vals := laneVals s h (fun _ _ => v)
  let s := if clr && takingLanes s w h != [] then s.updGroup w.gi (fun g => { g with sticky := false }) else s
  .next (putVals s h d 1 vals)

/-! ### STWAIT and STFLIP (R187 to R189) -/

/-- A reel header as a lane reads it: its own stores still in the FIFO are its latest (R158). -/
def laneHeader (s : State) (gi h lane off : Nat) : Nat :=
  let g := s.group gi
  natOfBytes ((List.range 16).map (fun i => loadSpad s gi h lane g.core (g.spBase + off + i)))

/-- R188: the warp parks until every taking lane's stage has its wanted phase. -/
def execStwait (h : Hdr) (stage : Reg) (m : MemOp) (s : State) : Out :=
  let w := s.curWarp
  if w.phase = 2 then .next (finish s h.b h.w)
  else
    .next (withSpad s 0x96 16 true none ((takingLanes s w h).map (fun q => (q.1, q.2, memEa s m 16 q.1 q.2))) (fun oks s =>
      let look := oks.map (fun a =>
        let v := srcVal s stage 1 a.1 a.2.1
        (a, v, laneHeader s w.gi a.2.1.hwarp a.2.1.hlane a.2.2))
      let bad := look.filter (fun x => decide (32 ≤ x.2.1) || !reelValid x.2.2 (s.group w.gi).scratch (x.2.1 % 16))
      let good := look.filter (fun x => !(decide (32 ≤ x.2.1) || !reelValid x.2.2 (s.group w.gi).scratch (x.2.1 % 16)))
      let s := takeFaults s s.md.cur 0x96 0 (bad.map (fun x => ⟨x.1.1, x.1.2.1, 0x23, some x.1.2.2, 0⟩)) true
      let wait := (good.filter (fun x => reelPhase x.2.2 (x.2.1 % 16) != x.2.1.testBit 4)).map (fun x =>
        (stageKey x.1.2.2 (x.2.1 % 16), x.2.1.testBit 4))
      if wait = [] then finish s h.b h.w
      else parkHere (s.updWarp s.md.cur (fun w => { w with phase := 2 })) (.stwait wait.eraseDups false)))

/-- R189: lanes that name one header and stage toggle it once; every earlier access of theirs comes first, and they commit (R369). -/
def execStflip (h : Hdr) (stage : Reg) (m : MemOp) (s : State) : Out :=
  let w := s.curWarp
  let taking := takingLanes s w h
  .next (if taking = [] then finish s h.b h.w
    else
      withGroupRelease s taking (fun s =>
        withSpad s 0x97 16 true none (taking.map (fun q => (q.1, q.2, memEa s m 16 q.1 q.2))) (fun oks s =>
          let look := oks.map (fun a => (a, srcVal s stage 1 a.1 a.2.1, reelHeader s w.gi a.2.2))
          let isBad := fun (x : (Nat × LaneEnt × Nat) × Nat × Nat) =>
            decide (16 ≤ x.2.1) || !reelValid x.2.2 (s.group w.gi).scratch (x.2.1 % 16)
          let s := takeFaults s s.md.cur 0x97 0 ((look.filter isBad).map (fun x => ⟨x.1.1, x.1.2.1, 0x23, some x.1.2.2, 0⟩)) true
          let flips := ((look.filter (fun x => !isBad x)).map (fun x => (x.1.2.2, x.2.1 % 16))).eraseDups
          let s := flips.foldl (fun s f => flipStage s w.gi f.1 f.2) s
          finish (commitLanes s s.md.cur ((look.filter (fun x => !isBad x)).map (fun x => (x.1.1, x.1.2.1)))) h.b h.w)))

end Sys2Proof.Machine
end

