-- ==== Sys2Proof/Machine/CrossWords.lean ====
section
/-!
DEFINITION. The cross-lane words (R286 to R295).
-/
namespace Sys2Proof.Machine

/-- The physical lane of a warp that carries, or stands for, a thread (R287). -/
def laneOfThread (w : Warp) (h l : Nat) : Option (Nat × LaneEnt) :=
  (liveLanes w).find? (fun q => q.2.hwarp = h ∧ q.2.hlane = l)

/-- Values that a v register of a thread outside the issue warp may give: its row, or what the row held before a write of an
overlapping run (R287). -/
def rowChoices (s : State) (w : Warp) (h l i : Nat) : List Word :=
  let k := vKey w.gi h i l
  let other := match warpOfThread s w.gi h l with
    | some (_, x) => NMap.get [] x.wrote k
    | none => []
  NMap.get 0 s.rg.v k :: (other ++ NMap.get [] w.stale k)

/-- R287: a register of a thread of the group, read from its lane in the issue warp or from its row (FREE VALUE, log entry 5,
where an overlapping run has written the row). -/
def threadReg (s : State) (w : Warp) (h l : Nat) (r : Reg) (width : Nat) : Nat × State :=
  match laneOfThread w h l with
  | some q => (readVal s w q.1 q.2 r width, s)
  | none =>
    if (s.group w.gi).gsize ≤ h * 32 + l then (0, s)
    else
      match r with
      | .v n =>
        (List.range width).foldl (fun (acc : Nat × State) i =>
          let c := rowChoices acc.2 w h l (n.val + i)
          if c.length = 1 then (acc.1 + (c.headD 0).toNat * 2 ^ (32 * i), acc.2)
          else
            let (j, s) := acc.2.pick c.length
            (acc.1 + (c.getD j 0).toNat * 2 ^ (32 * i), s)) (0, s)
      | _ => (0, s)

/-- Exchange words: each guarded lane names a thread, reads it, and may write whether it was in range (R289 to R291). -/
def exchange (s : State) (h : Hdr) (d a : Reg) (width : Nat) (p : Option (Fin 8)) (f : Nat → LaneEnt → Nat × Nat × Bool) (post : Nat → Nat) : State :=
  let w := s.curWarp
  let asks := laneVals s h f
  let out := asks.foldl (fun (acc : List (Nat × LaneEnt × Nat) × State) q =>
    let (v, s) := threadReg acc.2 w q.2.2.1 q.2.2.2.1 a width
    (acc.1 ++ [(q.1, q.2.1, post v)], s)) ([], s)
  match p with
  | some i => putBoth out.2 h d width out.1 i.val (asks.map (fun q => (q.1, q.2.1, q.2.2.2.2)))
  | none => putVals out.2 h d width out.1

/-- R289: the home lane that a lane of SHFL reads, and whether its selector was in range. -/
def shflLane (mode : ShflMode) (seg hl b : Nat) : Nat × Bool :=
  let lo := hl - hl % seg
  let q := hl - lo
  match mode with
  | .at => if b < seg then (lo + b, true) else (hl, false)
  | .rot =>
    let t : Int := q + toSigned 32 b
    (lo + (t % seg).toNat, decide (0 ≤ t) && decide (t < seg))
  | .mir => if b < seg then (lo + (((seg : Int) - 1 - q + b) % seg).toNat, true) else (hl, false)
  | .xor => if b < seg then (hl ^^^ b, true) else (hl, false)

/-- R289. -/
def execShfl (h : Hdr) (d a b : Reg) (p : Option (Fin 8)) (ty : ITy) (mode : ShflMode) (seg : Fin 6) (s : State) : Out :=
  .next (exchange s h d a (tyRegs ty) p (fun q e =>
    let t := shflLane mode (2 ^ seg.val) e.hlane (srcVal s b 1 q e)
    (e.hwarp, t.1, t.2)) (copyVal ty))

/-- R290. -/
def execShflx (h : Hdr) (d a b : Reg) (p : Option (Fin 8)) (ty : ITy) (s : State) : Out :=
  let warps := ((s.group s.curWarp.gi).gsize + 31) / 32
  .next (exchange s h d a (tyRegs ty) p (fun q e =>
    let t := srcVal s b 1 q e
    if t < 32 * warps then (t / 32, t % 32, true) else (e.hwarp, e.hlane, false)) (copyVal ty))

/-- R291. -/
def execQxch (h : Hdr) (d a : Reg) (ty : ITy) (x : Fin 4) (s : State) : Out :=
  .next (exchange s h d a (tyRegs ty) none (fun _ e => (e.hwarp, e.hlane / 4 * 4 + ((e.hlane % 4) ^^^ x.val), true)) (copyVal ty))
/-- R291. -/
def execQbcst (h : Hdr) (d a : Reg) (ty : ITy) (q : Fin 4) (s : State) : Out :=
  .next (exchange s h d a (tyRegs ty) none (fun _ e => (e.hwarp, e.hlane / 4 * 4 + q.val, true)) (copyVal ty))

/-- Contributors of a home warp, by home lane, each with its value (R286). -/
def contributors {α : Type} (s : State) (h : Hdr) (hw : Nat) (f : Nat → LaneEnt → α) : List (Nat × α) :=
  (sortLanes ((takingLanes s s.curWarp h).filter (fun q => q.2.hwarp = hw))).map (fun q => (q.2.hlane, f q.1 q.2))

/-- R292: a vote over the contributors' predicates. -/
def voteVal (mode : VoteMode) (c : List (Nat × Bool)) : Nat :=
  match mode with
  | .all => if c.all (·.2) then 1 else 0
  | .any => if c.any (·.2) then 1 else 0
  | .uni => if c.all (·.2) || c.all (fun x => !x.2) then 1 else 0
  | .mask => c.foldl (fun acc x => if x.2 then acc ||| 2 ^ x.1 else acc) 0
  | .count => (c.filter (·.2)).length

/-- R292. -/
def execVote (h : Hdr) (d : Reg ⊕ Fin 8) (pa : Fin 8) (neg : Bool) (mode : VoteMode) (s : State) : Out :=
  let val := fun (hw : Nat) => voteVal mode (contributors s h hw (fun q e => predVal s pa q e != neg))
  match d with
  | .inl r => .next (putVals s h r 1 (laneVals s h (fun _ e => val e.hwarp)))
  | .inr p => .next (putPreds s h p (laneVals s h (fun _ e => val e.hwarp == 1)))

/-- R293: MATCH for one taker, from its own value. -/
def matchVal (mode : MatchMode) (c : List (Nat × Nat)) (own : Nat) : Nat :=
  let mask := fun (l : List (Nat × Nat)) => l.foldl (fun acc x => acc ||| 2 ^ x.1) 0
  let peers := c.filter (fun x => x.2 = own)
  match mode with
  | .peers => mask peers
  | .same =>
    match c with
    | [] => 0
    | x :: rest => if rest.all (fun y => y.2 = x.2) then mask c else 0
  | .lead =>
    match peers with
    | [] => 0xFFFFFFFF
    | x :: _ => x.1

/-- R293. -/
def execMatchLanes (h : Hdr) (d a : Reg) (ty : ITy) (mode : MatchMode) (s : State) : Out :=
  let v := fun (q : Nat) (e : LaneEnt) => copyVal ty (srcVal s a (tyRegs ty) q e)
  .next (putVals s h d 1 (laneVals s h (fun q e => matchVal mode (contributors s h e.hwarp v) (v q e))))

/-- The fixed pairwise tree of REDL (R294): one level. -/
def treeLevel {α : Type} (combine : α → α → α) : List (Option α) → List (Option α)
  | x :: y :: l => (match x, y with
    | some a, some b => some (combine a b)
    | some a, none => some a
    | none, y => y) :: treeLevel combine l
  | l => l

/-- The tree over 32 positions (R294). -/
def treeOf {α : Type} (combine : α → α → α) (slots : List (Option α)) : Option α :=
  (treeLevel combine (treeLevel combine (treeLevel combine (treeLevel combine (treeLevel combine slots))))).headD none

/-- Combining of integer values, exact for add (R294). -/
def redInt (op : RedOp) (ty : ITy) (x y : Int) : Int :=
  match op with
  | .add => x + y
  | .min => min x y
  | .max => max x y
  | .and => rdTy ty (wrTy ty x &&& wrTy ty y)
  | .or => rdTy ty (wrTy ty x ||| wrTy ty y)
  | .xor => rdTy ty (wrTy ty x ^^^ wrTy ty y)

/-- Combining of float values on bit patterns: each add rounded and flushed, SAT left to the end (R294). -/
def redFlt (op : RedOp) (f : FmtF) (rm : Rm) (ftz : Bool) (x y : Nat) : Nat :=
  match op with
  | .min => minBits f x y
  | .max => maxBits f x y
  | .add | .and | .or | .xor => (finishF f rm false ftz (addF rm (decodeF f x) (decodeF f y)) 0).1

/-- A float result as written: NaNs canonical, SAT applied once (R16, R294). -/
def redOut (f : FmtF) (sat : Bool) (x : Nat) : Nat := satBits f sat (if isNanBits f x then f.nanBits else x)

/-- Registers of a type of REDL and PRFX, and a source as read (R203, R225). -/
def redRead (ty : RedTy) (ftz : Bool) (raw : Nat) : Int :=
  match ty with
  | .int t => rdTy t raw
  | .flt t => readBits (fmtOf t) ftz .none raw

def redCombine (ty : RedTy) (op : RedOp) (rm : Rm) (ftz : Bool) (x y : Int) : Int :=
  match ty with
  | .int t => redInt op t x y
  | .flt t => redFlt op (fmtOf t) rm ftz x.toNat y.toNat

def redWrite (ty : RedTy) (sat : Bool) (x : Int) : Nat :=
  match ty with
  | .int t => wrTy t (fitTy t sat x)
  | .flt t => redOut (fmtOf t) sat x.toNat

/-- R294: REDL; a home warp without contributors writes nothing. -/
def execRedl (h : Hdr) (d a : Reg) (ty : RedTy) (op : RedOp) (rm : Rm) (sat ftz : Bool) (s : State) : Out :=
  let w := redRegs ty
  let res := (homeWarps (guardedLanes s s.curWarp h)).map (fun hw =>
    let c := contributors s h hw (fun q e => redRead ty ftz (srcVal s a w q e))
    (hw, treeOf (redCombine ty op rm ftz) ((List.range 32).map (fun j => NMap.find c j))))
  let vals := (laneVals s h (fun _ e => (res.find? (fun r => r.1 = e.hwarp)).bind (·.2))).filterMap (fun v =>
    v.2.2.map (fun x => (v.1, v.2.1, redWrite ty sat x)))
  .next (putVals s h d w vals)

/-- Running combinations of a list of contributors (R294). -/
def scanOf (combine : Int → Int → Int) : Option Int → List (Nat × Int) → List (Nat × Int)
  | _, [] => []
  | none, (j, x) :: l => (j, x) :: scanOf combine (some x) l
  | some p, (j, x) :: l => (j, combine p x) :: scanOf combine (some (combine p x)) l

/-- R294: PRFX. -/
def execPrfx (h : Hdr) (d a : Reg) (ty : RedTy) (op : RedOp) (excl : Bool) (rm : Rm) (sat ftz : Bool) (s : State) : Out :=
  let w := redRegs ty
  .next (putVals s h d w (laneVals s h (fun _ e =>
    let c := contributors s h e.hwarp (fun q e => redRead ty ftz (srcVal s a w q e))
    let sc := scanOf (redCombine ty op rm ftz) none c
    let below := sc.filter (fun x => decide (x.1 < e.hlane))
    let mine := if excl || e.help then none else sc.find? (fun x => x.1 = e.hlane)
    match mine with
    | some x => redWrite ty sat x.2
    | none =>
      match below.getLast? with
      | some x => redWrite ty sat x.2
      | none => 0)))

/-- One entry of the remap table as a word (R193, R295). -/
def entryWord (e : LaneEnt) : Nat :=
  (if e.live then 0x800 else 0) + (if e.help then 0x400 else 0) + e.hwarp * 32 + e.hlane

/-- R295. -/
def execLmap (h : Hdr) (d : Reg) (form : LmapForm) (s : State) : Out :=
  let w := s.curWarp
  .next (putVals s h d 1 (laneVals s h (fun p e =>
    match form with
    | .self => entryWord e
    | .phys a => entryWord (w.lanes.getD (srcVal s a 1 p e % 32) {})
    | .find a =>
      match laneOfThread w e.hwarp (srcVal s a 1 p e % 32) with
      | some q => q.1
      | none => 0xFFFFFFFF)))

end Sys2Proof.Machine
end

