-- ==== Sys2Proof/Machine/Fabric.lean ====
section
/-!
DEFINITION. The fabric (R314 to R336, R472, R473): sending packets, paths and seal counts, taking packets in, the jetties'
reductions and enrolments.
-/
namespace Sys2Proof.Machine

/-! ### The window map (R314, R316, R317) -/

/-- FAB.PORTp.JETTY (R314). -/
def portJetty (s : State) (p : Nat) : Nat := (s.fb.links.find p).getD (Config.portJetty p).toNat
def fabChip : Nat := Config.fabChip.toNat

/-- A receiver descriptor (R317). -/
structure Descr where
  port : Nat
  rxw : Nat
  jetty : Nat
  chip : Nat
deriving DecidableEq, Repr

def descrOf (s : State) (entry i : Nat) : Descr :=
  ⟨wmByte s entry (0x20 + 6 * i) % 16, wmByte s entry (0x21 + 6 * i), wmField s entry (0x22 + 6 * i) 2, wmField s entry (0x24 + 6 * i) 2⟩
def descrs (s : State) (entry : Nat) : List Descr := (List.range (wmByte s entry 1)).map (descrOf s entry)

/-- Bytes of an image. -/
def imField (l : List Byte) (i n : Nat) : Nat := natOfBytes ((l.drop i).take n)

/-- R317: descriptor `i` of a TX image is legal. -/
def descrOk (s : State) (l : List Byte) (i : Nat) : Bool :=
  let b := imField l (0x20 + 6 * i) 1
  if i < imField l 1 1 then b.testBit 7 && b / 16 % 8 = 0 && imField l (0x22 + 6 * i) 2 = portJetty s (b % 16)
  else imField l (0x20 + 6 * i) 6 = 0

/-- R316, R317: an image that WMAP.set takes. -/
def wmapOk (s : State) (l : List Byte) : Bool :=
  let f := imField l
  let rop := f 4 1
  let common := decide (f 2 1 < 64) && f 0x0B 1 = 0 && f 0x0C 4 != 0 && s.liveCtx (f 8 2) && f 5 1 / 4 = 0
  common &&
  (match f 0 1 with
    | 1 =>
      decide (1 ≤ f 1 1) && decide (f 1 1 ≤ 16) && decide (f 3 1 ≤ 3) && decide (rop ≤ 4) && f 5 1 % 2 = 0 &&
      (if rop = 0 then f 6 2 = 0 && f 0x18 8 = 0 else decide (1 ≤ f 6 2) && decide (f 6 2 ≤ 1024) && decide (f 0x18 8 < 2 ^ 16)) &&
      f 0x0A 1 = 0 && f 0x10 8 % 256 = 0 && (List.range 16).all (descrOk s l) &&
      (rop = 0 || (List.range (f 1 1)).all (fun i => f (0x22 + 6 * i) 2 = f 0x22 2))
    | 2 =>
      f 1 1 = 0 && f 3 1 = 0 && rop = 0 && f 6 2 = 0 && f 0x10 8 % 2 ^ 16 = 0 && f 0x18 8 % 8 = 0 && f 0x20 96 = 0
    | _ => false)

/-- The entry that an image becomes: ENROLLED is cleared (R316). -/
def wmapEntry (l : List Byte) : List Byte := l.set 5 (BitVec.ofNat 8 (imField l 5 1 % 2))

/-- Material of a fabric key slot; none of an empty slot. -/
def fkeyOf (s : State) (slot : Nat) : Option (List Byte) :=
  let k := (s.pt.fkeys.find slot).getD {}
  if k.loaded then some k.material else none

/-! ### Enrolments (R472) -/

/-- An entry's request to its jetty is withdrawn; an enrolment whose last request goes is closed. A jetty that holds a fabric key no
longer keeps no seal count for it (R323). -/
def withdraw (s : State) (entry : Nat) : State :=
  s.updFB (fun f =>
    let enrols := (f.enrols.map (fun e => (e.1, { e.2 with reqs := e.2.reqs.filter (fun r => r.entry != entry) }))).filter (fun e => e.2.reqs != [])
    { f with enrols := enrols
             jettySeals := f.jettySeals.filter (fun x => enrols.any (fun e => e.2.jetty = x.1.1 && e.2.material = x.1.2)) })

/-- The receivers of an entry as (chip, RXW). -/
def recvSet (s : State) (entry : Nat) : List (Nat × Nat) := (descrs s entry).map (fun d => (d.chip, d.rxw))

/-- An entry's enrolment request: it opens an enrolment, joins an equal one, or is refused. -/
def requestEnrol (s : State) (entry : Nat) : State :=
  let rop := wmByte s entry 4
  let jetty := (descrOf s entry 0).jetty
  match (if rop = 0 then none else fkeyOf s (wmByte s entry 2)) with
  | none => s
  | some key =>
    let rid := wmField s entry 0x18 2
    let contrib := wmField s entry 6 2
    let recvs := recvSet s entry
    match s.fb.enrols.find? (fun e => e.2.jetty = jetty && e.2.material = key && e.2.rid = rid) with
    | some e =>
      let same := e.2.rop = rop && e.2.contrib = contrib && recvs.all (fun r => e.2.recvs.contains r) && e.2.recvs.all (fun r => recvs.contains r)
      if same then s.updFB (fun f => { f with enrols := f.enrols.upd e.1 (fun x => { x with reqs := x.reqs ++ [{ entry := entry }] }) })
      else s
    | none =>
      let (id, s) := s.fresh
      let x : Enrol := { jetty := jetty, material := key, rid := rid, rop := rop, contrib := contrib, recvs := recvs.eraseDups,
                         reqs := [{ entry := entry }] }
      s.updFB (fun f => { f with enrols := NMap.insert f.enrols id x })

/-- Set or clear ENROLLED of an entry (R317). -/
def setEnrolled (s : State) (entry : Nat) (b : Bool) : State :=
  s.updFB (fun f => { f with wmap := f.wmap.upd entry (fun l =>
    l.set 5 (BitVec.ofNat 8 ((l.getD 5 0).toNat % 2 + (if b then 2 else 0)))) })

/-- WMAP changes an entry (R318, R472): `l` is its new contents, none for a free entry. -/
def changeEntry (s : State) (entry : Nat) (l : Option (List Byte)) : State :=
  let s := withdraw s entry
  match l with
  | none => s.updFB (fun f => { f with wmap := f.wmap.erase entry })
  | some l => requestEnrol (s.updFB (fun f => { f with wmap := NMap.insert f.wmap entry (wmapEntry l) })) entry

/-- Packets sent under an entry that are not acknowledged (R319). -/
def packetsOf (s : State) (entries : List Nat) : List Nat :=
  (s.fb.packets.filter (fun p => entries.contains p.2.entry && p.2.core != 65534)).map (·.1)

/-! ### Sending (R320 to R323, R328, R425) -/

/-- Next sequence number of a path (R321). -/
def nextSeq (s : State) (p : Path) : Nat × State :=
  let n := ((s.fb.pathSeqs.find? (fun x => x.1 = p)).map (·.2)).getD 0
  (n, s.updFB (fun f => { f with pathSeqs := (p, (n + 1) % 2 ^ 48) :: f.pathSeqs.filter (fun x => x.1 != p) }))

/-- Who sends a packet. -/
structure Sender where
  core : Nat
  ctx : Nat
  gi : Nat
  hwarp : Nat
  entry : Nat
  cmd : Option Nat := none

/-- Flits of a packet: the header and one for each 64-byte quarter that holds a sent byte (R321). -/
def flitCount (bytes : List (Nat × Byte)) : Nat := 1 + ((bytes.map (fun b => b.1 / 64)).eraseDups).length

/-- The nonce of a packet: chip and sending core, or jetty and 0xFFFE, and the seal count, each most significant byte first (R323). -/
def sealNonce (who core count : Nat) : List Byte :=
  (bytesOfNat 2 who).reverse ++ (bytesOfNat 2 core).reverse ++ (bytesOfNat 8 count).reverse

/-- What a header flit carries of a packet in clear: chip, RXW, CLASS, kind, ROP, RID, q, byte mask, sequence number (R321). -/
def headerFields (p : Packet) : List Nat :=
  [p.chip, p.rxw, p.cls, match p.kind with | .store => 0 | .reduction => 1 | .signal => 2, p.rop, p.rid, p.q,
   (p.bytes.map (fun b => 2 ^ (b.1 % 256))).sum, p.seq]

/-- Seal a packet with its seal count (R323). -/
def sealPacket (p : Packet) (who core count : Nat) : Packet :=
  let nonce := sealNonce who core count
  { p with sealNo := count, nonce := nonce,
           tag := Config.packetTag p.material nonce (headerFields p) (p.bytes.map (·.2) ++ bytesOfNat 8 p.addend) }

/-- Packets whose flits have still to leave through a port. -/
def portWaiting (s : State) (port : Nat) : List (Nat × Packet) := s.fb.packets.filter (fun p => p.2.port = port && !p.2.left)

/-- Put one packet on its way along a path (R321 to R323). A context that has no other packet of classes 1 to 3 ready at the port rejoins
there (R380). -/
def sendPacket (s : State) (x : Sender) (d : Descr) (kind : PktKind) (q : Nat) (bytes : List (Nat × Byte)) (addend : Nat) : Nat × State :=
  let slot := wmByte s x.entry 2
  let cls := wmByte s x.entry 3
  let (seq, s) := nextSeq s ⟨x.core, d.port, d.jetty, d.chip, d.rxw, 0⟩
  let sk := x.core * 64 + slot
  let n := NMap.get 0 s.fb.seals sk
  let (id, s) := s.fresh
  let p : Packet := { kind := kind, entry := x.entry, port := d.port, jetty := d.jetty, chip := d.chip, rxw := d.rxw, cls := cls,
                      rop := wmByte s x.entry 4, rid := wmField s x.entry 0x18 2, q := q, bytes := bytes, addend := addend, core := x.core,
                      seq := seq, fkey := slot, material := (fkeyOf s slot).getD [], ctx := x.ctx, gi := x.gi, hwarp := x.hwarp,
                      cmd := x.cmd }
  let others := (((portWaiting s d.port).filter (fun y => y.2.cls != 0)).map (fun y => y.2.ctx)).eraseDups
  let s := if cls = 0 || others.contains x.ctx then s else rejoin s 3 d.port x.ctx others
  (id, s.updFB (fun f => { f with
    seals := NMap.set 0 f.seals sk (n + 1), packets := NMap.insert f.packets id (sealPacket p fabChip x.core n) }))

/-- The packet that a port serves next (R328): class 0 first, oldest first; then of classes 1 to 3 the oldest of the context that the
link-class weights choose (R379, R380). -/
def portNext (s : State) (port : Nat) : Option (Nat × Packet) :=
  let l := portWaiting s port
  match l.find? (fun p => p.2.cls = 0) with
  | some p => some p
  | none => (firstServed s 3 port ((l.map (fun p => p.2.ctx)).eraseDups)).bind (fun c => l.find? (fun p => p.2.ctx = c))

/-- The port of a packet serves packets until this one has left; each flit of classes 1 to 3 charges its sender (R328, R380). -/
def portServe : Nat → State → Nat → Nat → State
  | 0, s, _, _ => s
  | fuel + 1, s, port, id =>
    if ((s.fb.packets.find id).map (·.left)).getD true then s
    else
      match portNext s port with
      | none => s
      | some (k, p) =>
        let s := s.updFB (fun f => { f with packets := f.packets.upd k (fun p => { p with left := true }) })
        portServe fuel (if p.cls = 0 then s else charge s 3 port p.ctx (flitCount p.bytes)) port id

/-- A packet leaves the chip, if it has not (R328). -/
def leavePort (s : State) (id : Nat) : State :=
  match s.fb.packets.find id with
  | none => s
  | some p => portServe (portWaiting s p.port).length s p.port id

/-- Sent bytes by receiver offset, the last write to a byte standing, cut at 256-byte blocks in rising order (R321). -/
def blocksOf (base : Nat) (writes : List (Nat × Byte)) : List (Nat × List (Nat × Byte)) :=
  let m : NMap Byte := writes.foldl (fun m w => NMap.insert m ((w.1 + base) % 2 ^ 64) w.2) []
  (m.map (fun b => b.1 / 256)).eraseDups.map (fun k => (k * 256, m.filter (fun b => b.1 / 256 = k)))

/-- Send the bytes of one instruction for one home warp through an entry, at window offsets (R321): a packet for each block and
receiver; a reduction goes to receiver 0's jetty (R330). Answers the packets. -/
def sendBytes (s : State) (x : Sender) (kind : PktKind) (writes : List (Nat × Byte)) : List Nat × State :=
  let ds := if kind = .reduction then (descrs s x.entry).take 1 else descrs s x.entry
  let s := s.updCtx x.ctx (fun c => { c with bytes := (c.bytes + writes.length) % 2 ^ 64 })
  (blocksOf (wmField s x.entry 0x10 8) writes).foldl (fun acc b =>
    ds.foldl (fun (acc : List Nat × State) d =>
      let (id, s) := sendPacket acc.2 x d kind b.1 b.2 0
      (acc.1 ++ [id], s)) acc) ([], s)

/-- A work that packets count down (R330, R332). -/
def tieWork (s : State) (ids : List Nat) (work : Nat) : State :=
  s.updFB (fun f => { f with packets := ids.foldl (fun m i => m.upd i (fun p => { p with works := work :: p.works })) f.packets })

/-! ### Taking packets in (R324, R326, R332) -/

/-- Consecutive bytes of a list in rising order. -/
def runsOf : List (Nat × Byte) → List (Nat × List Byte)
  | [] => []
  | (a, b) :: l =>
    match runsOf l with
    | (a', l') :: rest => if a + 1 = a' then (a, b :: l') :: rest else (a, [b]) :: (a', l') :: rest
    | [] => [(a, [b])]

/-- What becomes of a packet at a receive window. -/
inductive RxRes where
  | write (pa owner : Nat)
  | discard (reason : Nat)
  | hold
deriving DecidableEq, Repr

/-- R326: the tests in order. -/
def rxTest (s : State) (rxw q n : Nat) (opens : Bool) : RxRes × State :=
  if wmByte s rxw 0 ≠ 2 then (.discard 1, s)
  else if !opens then (.discard 0, s)
  else if wmField s rxw 0x0C 4 * 2 ^ 16 < q + n then (.discard 3, s)
  else
    let owner := wmField s rxw 8 2
    let va := (wmField s rxw 0x10 8 + q) % 2 ^ 64
    if 2 ^ 55 ≤ va then (.discard 2, s)
    else
      match xlateNow s 0 owner va .arrive with
      | (.ok t, s) =>
        if !(t.ty = .rxWin && t.key = rxw) then (.discard 2, s)
        else if held s (t.pa / 128) || held s ((t.pa + n - 1) / 128) then (.hold, s)
        else (.write t.pa owner, s)
      | (.busy, s) => (.hold, s)
      | (.far _ _, s) | (.fail _, s) => (.discard 2, s)

/-- R326: the report of a discarded packet. -/
def reportDiscard (s : State) (rxw chip q reason : Nat) : State :=
  let owner := wmField s rxw 8 2
  if reason = 0 then postEvent s owner 0x81 none chip else postEvent s owner 0x80 (some q) (rxw + reason * 2 ^ 16)

/-- What came of a packet at the receive side: dealt with, failed to open, and the count of its bytes on its way to ARRIVE. -/
structure Taken where
  dealt : Bool := true
  bad : Bool := false
  arrive : Option (Nat × Nat) := none
deriving DecidableEq, Repr, Inhabited

/-- Take a store or result packet in (R324, R325, R473). -/
def takeStore (s : State) (rxw chip q : Nat) (bytes : List (Nat × Byte)) (opens : Bool) : Taken × State :=
  let top := bytes.foldl (fun m b => max m (b.1 + 1)) q
  match rxTest s rxw q (top - q) opens with
  | (.hold, s) => ({ dealt := false }, s)
  | (.discard r, s) => ({ bad := decide (r = 0) }, reportDiscard s rxw chip q r)
  | (.write pa owner, s) =>
    let s := (runsOf bytes).foldl (fun s r => partWrite s (pa + (r.1 - q)) r.2) s
    let addr := wmField s rxw 0x18 8
    ({ arrive := some (owner, addr) }, partAdd s owner addr bytes.length)

/-- Take a signal packet in (R332). -/
def takeSignal (s : State) (rxw chip q addend : Nat) (opens : Bool) : Taken × State :=
  match rxTest s rxw q 8 opens with
  | (.hold, s) => ({ dealt := false }, s)
  | (.discard r, s) => ({ bad := decide (r = 0) }, reportDiscard s rxw chip q r)
  | (.write pa owner, s) =>
    let va := (wmField s rxw 0x10 8 + q) % 2 ^ 64
    if llcPoisoned s pa then ({}, reportWrite s owner 0x15 va)
    else
      let (wrapped, s) := addWord s pa addend
      ({}, if wrapped then reportWrite s owner 0x30 va else s)

/-- Earlier packets of a path have been dealt with (R322). -/
def firstOfPath (s : State) (id : Nat) (p : Packet) : Bool :=
  !(s.fb.packets.any (fun x => decide (x.1 < id) && !x.2.taken && x.2.core = p.core && x.2.port = p.port && x.2.jetty = p.jetty &&
    x.2.chip = p.chip && x.2.rxw = p.rxw))

/-- A packet from elsewhere is the next of its path (R322, R327): the first that comes of a path sets where its numbers stand (DESIGN
CHOICE, log entry 37). -/
def nextOfPath (s : State) (path : Path) (seq : Nat) : Bool :=
  (s.fb.seen.find? (fun x => x.1 = path)).all (fun x => seq = (x.2 + 1) % 2 ^ 48)

/-- A packet of this chip's at its own receive window (R325), or one from elsewhere: taken in once, in the order of its path (R322,
R327). -/
def takePacket (s : State) (signal : Bool) (x : RxSrc) : State :=
  match x with
  | .own id =>
    match s.fb.packets.find id with
    | none => s
    | some p =>
      if p.taken || p.chip != fabChip || p.kind != (if signal then PktKind.signal else PktKind.store) || !firstOfPath s id p then s
      else
        let s := leavePort s id
        let opens := fkeyOf s (wmByte s p.rxw 2) = some p.material
        let (t, s) := if signal then takeSignal s p.rxw p.chip p.q p.addend opens else takeStore s p.rxw p.chip p.q p.bytes opens
        if !t.dealt then s
        else if p.core = 65534 then s.updFB (fun f => { f with packets := f.packets.erase id })
        else s.updFB (fun f => { f with packets := f.packets.upd id (fun p => { p with taken := true, badAuth := t.bad, arrive := t.arrive }) })
  | .remote p =>
    let path : Path := ⟨p.core, p.port, p.jetty, p.chip, p.rxw, if p.core = 65534 then p.rid else 0⟩
    if s.fb.seen.contains (path, p.seq) || !nextOfPath s path p.seq then s
    else
      let (t, s) := if signal then takeSignal s p.rxw p.chip p.q p.addend p.opens
        else takeStore s p.rxw p.chip p.q (p.bytes.foldl (fun (m : NMap Byte) b => NMap.insert m b.1 b.2) []) p.opens
      if t.dealt then s.updFB (fun f => { f with seen := (path, p.seq) :: f.seen }) else s

/-! ### Reductions at a jetty (R330, R331, R473) -/

/-- Two BF16 values of a word. -/
def bf16Pair (f : Nat → Nat → Nat) (a b : Nat) : Nat := f (a % 2 ^ 16) (b % 2 ^ 16) + 2 ^ 16 * f (a / 2 ^ 16) (b / 2 ^ 16)
def canonF (f : FmtF) (x : Nat) : Nat := if isNanBits f x then f.nanBits else x
def addBits (f : FmtF) (a b : Nat) : Nat := roundF f .rn 0 (sumF .rn [decodeF f a, decodeF f b])

/-- R331: the first contribution of a word, and a later one combined with the slot. -/
def firstContrib (rop x : Nat) : Nat :=
  match rop with
  | 1 | 4 => canonF fmtF32 x
  | 2 => bf16Pair (fun a _ => canonF fmtBF16 a) x x
  | _ => x
def combine (rop a b : Nat) : Nat :=
  match rop with
  | 1 => addBits fmtF32 a b
  | 2 => bf16Pair (addBits fmtBF16) a b
  | 3 => (a + b) % 2 ^ 32
  | _ => canonF fmtF32 (maxBits fmtF32 a b)

/-- Send the results of words that complete together to a receiver on this chip (R473): they arrive as other packets do. -/
def sendResult (s : State) (id : Nat) (e : Enrol) (chip rxw : Nat) (words : List (Nat × Word)) : State :=
  if chip ≠ fabChip then s
  else
    let seq := ((e.seqs.find? (fun x => x.1 = (chip, rxw))).map (·.2)).getD 0
    let (pid, s) := s.fresh
    let port := (((e.reqs.head?).map (fun r => descrOf s r.entry 0)).map (·.port)).getD 0
    let p : Packet := { kind := .store, jetty := e.jetty, port := port, chip := chip, rxw := rxw, rid := e.rid,
                        q := ((words.map (·.1)).headD 0) * 4 / 256 * 256,
                        bytes := words.flatMap (fun w => (List.range 4).map (fun i => (w.1 * 4 + i, BitVec.ofNat 8 (w.2.toNat / 256 ^ i)))),
                        core := 65534, seq := seq, material := e.material, left := true }
    let key := (e.jetty, e.material)
    let n := ((s.fb.jettySeals.find? (fun x => x.1 = key)).map (·.2)).getD 0
    s.updFB (fun f => { f with
      packets := NMap.insert f.packets pid (sealPacket p e.jetty 0xFFFE n)
      jettySeals := (key, n + 1) :: f.jettySeals.filter (fun x => x.1 != key)
      enrols := f.enrols.upd id (fun x => { x with seqs := ((chip, rxw), (seq + 1) % 2 ^ 48) :: x.seqs.filter (fun y => y.1 != (chip, rxw)) }) })

/-- Contributions reach a jetty (R331): words of one block, by receiver offset word. -/
def contribute (s : State) (jetty : Nat) (key : List Byte) (rid : Nat) (words : List (Nat × Word)) : State :=
  match s.fb.enrols.find? (fun e => e.2.jetty = jetty && e.2.material = key && e.2.rid = rid) with
  | none => s
  | some (id, e) =>
    let (slots, full) := words.foldl (fun (acc : NMap Slot × List (Nat × Word)) w =>
      let old := NMap.get {} acc.1 w.1
      let v := BitVec.ofNat 32 (if old.count = 0 then firstContrib e.rop w.2.toNat else combine e.rop old.val.toNat w.2.toNat)
      if e.contrib ≤ old.count + 1 then (acc.1.erase w.1, acc.2 ++ [(w.1, v)])
      else (NMap.insert acc.1 w.1 { count := old.count + 1, val := v }, acc.2)) (e.slots, [])
    let s := s.updFB (fun f => { f with enrols := f.enrols.upd id (fun x => { x with slots := slots }) })
    (full.map (fun w => w.1 / 64)).eraseDups.foldl (fun s b =>
      e.recvs.foldl (fun s r =>
        sendResult s id ((s.fb.enrols.find id).getD e) r.1 r.2 (full.filter (fun w => w.1 / 64 = b))) s) s

/-- Words of a reduction packet. -/
def packetWords (p : Packet) : List (Nat × Word) :=
  ((p.bytes.map (fun b => b.1 / 4)).eraseDups).map (fun w => (w, BitVec.ofNat 32 (natOfBytes ((p.bytes.filter (fun b => b.1 / 4 = w)).map (·.2)))))

/-- A packet is acknowledged (R324, R330, R332, R335): what it counts down falls. -/
def ackPacket (s : State) (id : Nat) (p : Packet) (bad : Bool) : State :=
  let s := leavePort s id
  let s := if bad && s.liveCtx p.ctx then postEvent s p.ctx 0x81 none fabChip else s
  let s := if p.kind = .reduction then contribute s p.jetty p.material p.rid (packetWords p) else s
  let s := finishWorks (s.updFB (fun f => { f with packets := f.packets.erase id })) p.works
  match p.cmd with
  | none => s
  | some c =>
    let s := s.updCmd c (fun x => { x with packets := x.packets.filter (fun i => i != id) })
    let x := s.cmd c
    if (s.en.cmds.find c).isSome && x.packets = [] && decide ((granules x).length ≤ x.done) then completeCmd s c else s

/-- The acknowledgement of a packet may arrive: on this chip once it has been taken in and its bytes counted (R324); a packet for another
chip, or a reduction packet, once the other side has dealt with it and with those before it. -/
def ackable (s : State) (id : Nat) (p : Packet) : Bool :=
  p.core != 65534 && p.arrive.all (fun a => !(s.cx.adds.any (fun x => x.1 = a.1 && x.2.1 = a.2))) && (p.taken || ((p.kind = .reduction || p.chip != fabChip) && firstOfPath s id p))

end Sys2Proof.Machine
end

