-- ==== Sys2Proof/Machine/Serial.lean ====
section
/-!
DEFINITION. Words that act once per taking lane, in ascending (HWARP, HLANE) order (R319, R378, R394, R397, R404): the loop over
lanes, and the device-scope images that a lane reads or writes.
-/
namespace Sys2Proof.Machine

/-- How one lane of such a word comes out: done with a result for DST, stopped by a fault, or held back. -/
inductive LaneOut where
  | ok (v : Nat) (s : State)
  | bad (code : Nat) (addr : Option Nat) (s : State)
  | park (p : Park) (s : State)
  /-- the lane and every later one park (R378) -/
  | hold (p : Park) (s : State)
  | request (f : XFail) (va : Nat) (kind : AccKind) (s : State)
  | far (leafPa rec va : Nat) (s : State)

/-- Lanes act in order, each once; results stand in the warp until the word ends. A lane that needs a page request or a far page
splits off with every later lane; one that parks holds the warp. `done` follows the last lane. -/
def eachLane (opc : Nat) (act : State → Nat → LaneEnt → LaneOut) (done : State → State) : List (Nat × LaneEnt) → State → State
  | [], s => done s
  | q :: rest, s =>
    let wid := s.md.cur
    let w := s.curWarp
    if w.donePl.testBit q.1 then eachLane opc act done rest s
    else
      let held := (q :: rest).map (·.1)
      withAcquired s w.gi [q] (fun s =>
      match act s q.1 q.2 with
      | .ok v s => eachLane opc act done rest (s.updWarp wid (fun w => { w with
          donePl := w.donePl ||| 2 ^ q.1, serVals := NMap.insert w.serVals q.1 v }))
      | .bad code a s => eachLane opc act done rest (takeFaults s wid opc 0 [⟨q.1, q.2, code, a, 0⟩] true)
      | .park p s => parkHere s p
      | .hold p s => done (split s wid held p).2
      | .request f va kind s =>
        match attachReq s (ctxOf s w) w.core va 1 kind f with
        | (some (id, new), s) =>
          let (wid2, s) := split (if new then writeRequest s id else s) wid held (.page [id])
          done (noteEas s wid2 [(q.1, va)])
        | (none, s) => done (split s wid held (.table (dieOf w.core))).2
      | .far l r va s =>
        let (id, s) := startRecall s (ctxOf s w) l r
        let (wid2, s) := split s wid held (.far id.toList)
        done (noteEas s wid2 [(q.1, va)]))

/-- The results of the lanes of the issuing warp that have acted. -/
def serResults (s : State) : List (Nat × LaneEnt × Nat) :=
  let w := s.curWarp
  (activeLanes w).filterMap (fun q => (w.serVals.find q.1).map (fun v => (q.1, q.2, v)))

/-- The end of such a word: a commit point of the lanes that acted, and their results to DST. -/
def putSerial (s : State) (h : Hdr) (d : Reg) (width : Nat) : State :=
  let r := serResults s
  putVals (commitLanes s s.md.cur (r.map (fun x => (x.1, x.2.1)))) h d width r

/-- A word whose taking lanes act one after the other behind a release, a commit point, and write their results to DST (R197, R369). -/
def serialWord (s : State) (h : Hdr) (opc : Nat) (d : Reg) (width : Nat) (act : State → Nat → LaneEnt → LaneOut) : State :=
  eachLane opc act (fun s => putSerial s h d width) (sortLanes (takingLanes s s.curWarp h)) s

/-- How a lane's image comes out: its place, or what stops the lane. -/
inductive Image where
  | at (t : Xl) (s : State)
  | out (r : LaneOut)

/-- Translate the address of an aligned image that a lane names, and check its leaf (R150). -/
def imageAt (s : State) (pl : Nat) (e : LaneEnt) (kind : AccKind) (va align : Nat) (check : State → Xl → Option Nat) : Image :=
  let w := s.curWarp
  match accRes s w kind align check ⟨pl, e, va, va, none⟩ with
  | .ok t => .at t s
  | .bad c => .out (.bad c (some va) s)
  | .request f => .out (.request f va kind s)
  | .far l r => .out (.far l r va s)
  | .miss =>
    match startWalk s (ctxOf s w) w.core (va / 2 ^ 16) kind with
    | (some id, s) => .out (.park (.walk [id]) s)
    | (none, s) => .out (.park (.walkRoom (coveOf w.core)) s)

/-- What a lane's image access at `pa` still has to follow of the lane's own accesses to the same bytes (R158, R339): loads that wait for
a claim, requests at service warps and, for a write, stores in the FIFO. -/
def imageWaits (s : State) (e : LaneEnt) (pa n : Nat) (write : Bool) : Option (Park × State) :=
  let wid := s.md.cur
  let gi := s.curWarp.gi
  let range := [(e.hwarp, e.hlane, pa, n)]
  let stores := ((s.hwarp (hwKey gi e.hwarp)).fifo.filter (fun x => x.writes.any (fun y =>
    y.lane = e.hlane && (List.range n).any (fun i => memHit (pa + i) y)))).map (·.id)
  if heldOver s gi range ≠ [] then some (.held (heldOver s gi range), s)
  else if svcOver s gi range ≠ [] then some (.items (svcOver s gi range), s)
  else if write && stores ≠ [] then some (.stores stores, commitHomes s gi wid [e.hwarp])
  else none

/-- A lane reads an image with device-scope accesses (R153, R318): its bytes go to `k`. -/
def readImage (s : State) (pl : Nat) (e : LaneEnt) (va n align : Nat) (k : List Byte → State → LaneOut) : LaneOut :=
  let w := s.curWarp
  let ctx := ctxOf s w
  let check := fun (s : State) (t : Xl) =>
    (linesOf t.pa n).findSome? (fun l => (ldCheck w.core true s { t with pa := max t.pa (l * 128) }).orElse (fun _ =>
      ldCheck w.core true s { t with pa := min (t.pa + n - 1) (l * 128 + 64) }))
  match imageAt s pl e .read va align check with
  | .out r => r
  | .at t s =>
    let lines := linesOf t.pa n
    let claims := lines.filter (held s)
    match imageWaits s e t.pa n false with
    | some (p, s) => .park p s
    | none =>
      if claims ≠ [] then .park (.held claims) s
      else
        let s := fixOver s w.gi e.hwarp e.hlane false t.pa n
        let s := lines.foldl (fun s l => receiveDrops (llcEnsure (countReq s ctx (va / 2 ^ 16) w.core false) l) w.core (some l)) s
        k ((List.range n).map (fun i => loadByte s w.gi e.hwarp e.hlane w.core true true (t.pa + i))) s

/-- A lane writes an image with device-scope accesses: its place goes to `k`, which writes there. -/
def writeImage (s : State) (pl : Nat) (e : LaneEnt) (va n align : Nat) (k : Nat → State → LaneOut) : LaneOut :=
  match imageAt s pl e .write va align (fun s t => if storable s t then none else some 0x17) with
  | .out r => r
  | .at t s =>
    let claims := (linesOf t.pa n).filter (held s)
    match imageWaits s e t.pa n true with
    | some (p, s) => .park p s
    | none => if claims ≠ [] then .park (.held claims) s else k t.pa (fixOver s s.curWarp.gi e.hwarp e.hlane false t.pa n)

end Sys2Proof.Machine
end

