-- ==== Sys2Proof/Machine/FabricWords.lean ====
section
/-!
DEFINITION. XRED, XSIG, RFENCE, XBULK (R329 to R335), WMAP (R318, R319), and the fabric's events.
-/
namespace Sys2Proof.Machine

/-- R320, R329: what XRED and XSIG ask of a leaf. -/
def sendCheck (ctx : Nat) (red : Bool) (s : State) (t : Xl) : Option Nat :=
  if t.ty != .txWin then some 0x17
  else
    match txCheck s ctx t red with
    | some c => some c
    | none => if red && !((wmByte s t.key 5).testBit 1) then some 0x31 else none

/-- Put packets on their way for each home warp of lanes; the home warp's work counts their acknowledgements (R330, R332). -/
def sendHomes (s : State) (oks : List (Acc × Xl)) (send : State → Nat → List (Acc × Xl) → List Nat × State) : State :=
  let (works, s) := takeWorks s s.md.cur (accLanes oks)
  (homeWarps (accLanes oks)).foldl (fun s h =>
    let (ids, s) := send s h (oks.filter (fun a => a.1.ent.hwarp = h))
    match NMap.find works h with
    | none => s
    | some w => if ids = [] then finishWork s w else tieWork (addParts s w (ids.length - 1)) ids w) s

/-- XRED and XSIG (R329): they leave after the home warps' earlier stores, and commit (R322, R334). -/
def sendWord (s : State) (h : Hdr) (opc : Nat) (m : MemOp) (bytes align : Nat) (red : Bool)
    (send : State → Nat → List (Acc × Xl) → List Nat × State) : State :=
  let w := s.curWarp
  let taking := takingLanes s w h
  withCounter s m.sbc taking (fun s =>
    withXlate s opc .write align (sendCheck (ctxOf s w) red) m.sbc []
      (taking.map (fun q => let a := memEa s m bytes q.1 q.2; ⟨q.1, q.2, a, a, none⟩)) (fun oks s =>
      if oks = [] then finishNone s h.b h.w
      else withDrain s (accLanes oks) (fun s => finish (commitLanes (sendHomes s oks send) s.md.cur (accLanes oks)) h.b h.w)))

/-- A home warp's lanes in ascending order, with their window offsets. -/
def sortAccs (l : List (Acc × Xl)) : List (Acc × Xl) :=
  (sortLanes (accLanes l)).filterMap (fun q => l.find? (fun a => a.1.pl = q.1))

/-- Port entries that lanes reach. -/
def entriesOf (l : List (Acc × Xl)) : List Nat := (l.map (fun a => a.2.key)).eraseDups

/-- R329, R330. -/
def execXred (h : Hdr) (y : Reg) (m : MemOp) (s : State) : Out :=
  let w := s.curWarp
  let bytes := widthBytes m.width
  .next (sendWord s h 0xD1 m bytes bytes true (fun s hw l =>
    (entriesOf l).foldl (fun (acc : List Nat × State) en =>
      let writes := ((sortAccs l).filter (fun a => a.2.key = en)).flatMap (fun a =>
        let d := dataBytes acc.2 y bytes a.1.pl a.1.ent
        (List.range bytes).map (fun i => (a.2.pa + i, d.getD i 0)))
      let (ids, s) := sendBytes acc.2 { core := w.core, ctx := ctxOf acc.2 w, gi := w.gi, hwarp := hw, entry := en } .reduction writes
      (acc.1 ++ ids, s)) ([], s)))

/-- R329, R332. -/
def execXsig (h : Hdr) (y : Reg) (m : MemOp) (s : State) : Out :=
  let w := s.curWarp
  let bytes := widthBytes m.width
  .next (sendWord s h 0xD2 m bytes 8 false (fun s hw l =>
    (sortAccs l).foldl (fun (acc : List Nat × State) a =>
      let en := a.2.key
      let q := (a.2.pa + wmField acc.2 en 0x10 8) % 2 ^ 64
      (descrs acc.2 en).foldl (fun (acc : List Nat × State) d =>
        let (id, s) := sendPacket acc.2 { core := w.core, ctx := ctxOf acc.2 w, gi := w.gi, hwarp := hw, entry := en } d .signal q []
          (srcVal acc.2 y (if bytes = 8 then 2 else 1) a.1.pl a.1.ent)
        (acc.1 ++ [id], s)) acc) ([], s)))

/-- R333: packets and XBULK commands of home warps that RFENCE waits for. -/
def fabricWork (s : State) (gi : Nat) (hs : List Nat) : List Nat :=
  (s.fb.packets.filter (fun p => p.2.core != 65534 && p.2.gi = gi && hs.contains p.2.hwarp)).map (·.1) ++
  (s.en.cmds.filter (fun c => c.2.bulk && c.2.gi = gi && hs.contains c.2.hwarp)).map (·.1)

/-- R333. -/
def execRfence (h : Hdr) (s : State) : Out :=
  let w := s.curWarp
  let taking := takingLanes s w h
  .next (if taking = [] ∨ w.phase = 2 then finish s h.b h.w
    else
      withDrain s taking (fun s =>
        let l := fabricWork s w.gi (homeWarps taking)
        if l = [] then finish (commitLanes s s.md.cur taking) h.b h.w
        else parkHere (commitLanes (s.updWarp s.md.cur (fun w => { w with phase := 2 })) s.md.cur taking) (.items l)))

/-! ### XBULK (R335) -/

/-- R174, R335: the checks of the source and the count. -/
def checkBulk (scratch src n : Nat) (ssp : Bool) : Option (Nat × Option Nat) :=
  if 2 ^ 30 < n then some (0x22, none)
  else if !ssp && decide (4 ≤ n) && decide (2 ^ 55 < src + n) then some (0x10, some (max src (2 ^ 55)))
  else if ssp && decide (4 ≤ n) && decide (scratch < src + n) then some (0x18, some src)
  else if src % 4 ≠ 0 then some (0x11, some src)
  else if n % 4 ≠ 0 then some (0x11, none)
  else none

/-- The destination's first byte, translated at issue and checked (R320, R335): its entry and window offset. -/
def withBulkDest (s : State) (h : Hdr) (q : Nat × LaneEnt) (n va : Nat) (k : Nat → Nat → State → State) : State :=
  if n = 0 then k 0 0 s
  else withXlate s 0xD0 .write 1 (sendCheck (ctxOf s s.curWarp) false) none [] [⟨q.1, q.2, va, va, none⟩] (fun oks s =>
    match oks with
    | [] => finish s h.b h.w
    | a :: _ => k a.2.key a.2.pa s)

/-- R335. -/
def execXbulk (h : Hdr) (dst src size : Reg) (gran : Fin 16) (sbc : Option (Fin 6)) (ch : Fin 1024) (ssp rel : Bool) (s : State) : Out :=
  let w := s.curWarp
  let taking := (takingLanes s w h).filter (fun q => q.2.hwarp * 32 + q.2.hlane = ch.val)
  .next (match taking with
    | [] => finish s h.b h.w
    | q :: _ =>
      let a := srcVal s src (if ssp then 1 else 2) q.1 q.2
      let n := srcVal s size 1 q.1 q.2
      let va := srcVal s dst 2 q.1 q.2
      withCounter s sbc taking (fun s =>
        if engineFull s w.core w.gi then parkHere s .engine
        else
          match checkBulk (s.group w.gi).scratch a n ssp with
          | some (code, addr) =>
            finish (takeFaults s s.md.cur 0xD0 0 [⟨q.1, q.2, code, addr, 0⟩] true) h.b h.w
          | none =>
            withBulkDest s h q n va (fun entry o s =>
              let x : Cmd := { gi := w.gi, ctx := ctxOf s w, core := w.core, opc := 0xD0, pc := w.pc, moves := .linear n, src := a, dst := va,
                               ssp := ssp, gran := gran.val, bulk := true, entry := entry, winOff := o, hwarp := q.2.hwarp }
              let go := fun (s : State) => issueCmd s h taking sbc x
              let drain := fun (s : State) =>
                withDrain s (activeLanes w) (fun s => afterSpadStores s (activeLanes w) go)
              if rel then withRelease s drain else drain s)))

/-- A later page of the destination passes R320, or the command ends (R335); none while its walk meets a held line. -/
def bulkPageOk (s : State) (c : Cmd) (va : Nat) : Option Bool × State :=
  if va / 2 ^ 16 = c.dst / 2 ^ 16 then (some true, s)
  else if 2 ^ 55 ≤ va then (some false, s)
  else
    match xlateNow s c.core c.ctx va .engWrite with
    | (.ok t, s) => (some (sendCheck c.ctx false s t = none), s)
    | (.busy, s) => (none, s)
    | (.far _ _, s) | (.fail _, s) => (some false, s)

/-- Serve the next granule of an XBULK: a line of its source (R177, R182, R335). -/
def serveBulk (s : State) (id : Nat) : State :=
  let c := s.cmd id
  match (granules c).drop c.done with
  | [] => s
  | g :: rest =>
    match granuleData s id g with
    | (_, some r, s) => meetStop s id .engRead r
    | (data, none, s) =>
      let bad := data.find? (fun (d : Piece × PieceData) => d.2.poison != [])
      match bad with
      | some d => failCmd s id 0x15 (some (absAddr c.ssp c.src d.1.src))
      | none =>
        let vas := (data.flatMap (fun (d : Piece × PieceData) => [absAddr false d.1.dst 0, absAddr false (d.1.dst + d.1.n - 1) 0]))
        let (okAll, s) := vas.foldl (fun (acc : Option Bool × State) va =>
          if acc.1 = some true then bulkPageOk acc.2 c va else acc) (some true, s)
        let off := fun (d : Piece × PieceData) => c.winOff + d.1.src.toNat
        if okAll = none then s
        else if okAll = some false || data.any (fun d => decide (wmField s c.entry 0x0C 4 * 2 ^ 16 < off d + d.1.n)) then failCmd s id 0x17 (vas.head?)
        else
          let writes := data.flatMap (fun d => (List.range d.2.bytes.length).map (fun i => (off d + i, d.2.bytes.getD i 0)))
          let (ids, s) := sendBytes s { core := c.core, ctx := c.ctx, gi := c.gi, hwarp := c.hwarp, entry := c.entry, cmd := some id } .store writes
          let s := countReads s c (data.flatMap (fun (d : Piece × PieceData) => d.2.lines))
          let s := charge s 1 c.core c.ctx 1
          let s := s.updCmd id (fun c => { c with done := c.done + 1, packets := c.packets ++ ids })
          if rest = [] then (if (s.cmd id).packets = [] then completeCmd s id else s)
          else if c.asked && atBoundary c.gran (c.done + 1) then stopCmd s id .preempted
          else s

/-- R335: the engine completes the next granule of an XBULK, or reads source words ahead of theirs. -/
def execXbulkGranule (cmd : Nat) (ahead : Option (List Nat)) (s : State) : Out :=
  let c := s.cmd cmd
  if !c.bulk then .next s
  else
    match ahead with
    | none => .next (turnCmd s cmd (fun s => serveBulk s cmd))
    | some l => .next (if c.stop = .running && (s.group c.gi).resident then readAhead s cmd l else s)

/-! ### WMAP (R318, R319) -/

/-- Entries that the lanes of the word have changed; their packets are awaited. -/
def wmapDone (s : State) (h : Hdr) : State :=
  let l := packetsOf s ((serResults s).map (fun x => x.2.2))
  if l = [] then finish s h.b h.w
  else parkHere (s.updWarp s.md.cur (fun w => { w with phase := 2 })) (.items l)

/-- WMAP: each taking lane with a legal index acts in turn. -/
def wmapWord (s : State) (h : Hdr) (idx : Reg) (act : State → Nat → LaneEnt → Nat → LaneOut) : State :=
  if s.curWarp.phase = 2 then finish s h.b h.w
  else
    eachLane 0xE9 (fun s pl e =>
      let i := srcVal s idx 1 pl e
      if 256 ≤ i then .bad 0x32 none s else act s pl e i) (fun s => wmapDone s h) (sortLanes (takingLanes s s.curWarp h)) s

/-- R318. -/
def execWmapSet (h : Hdr) (idx addr : Reg) (s : State) : Out :=
  .next (wmapWord s h idx (fun s pl e i =>
    readImage s pl e (srcVal s addr 2 pl e) 128 128 (fun l s => if wmapOk s l then .ok i (changeEntry s i (some l)) else .bad 0x32 none s)))
/-- R318. -/
def execWmapClr (h : Hdr) (idx : Reg) (s : State) : Out :=
  .next (wmapWord s h idx (fun s _ _ i => .ok i (changeEntry s i none)))
/-- R318: the entry's bytes go out with device-scope accesses; nothing is awaited. -/
def execWmapGet (h : Hdr) (idx addr : Reg) (s : State) : Out :=
  .next (eachLane 0xE9 (fun s pl e =>
      let i := srcVal s idx 1 pl e
      if 256 ≤ i then .bad 0x32 none s
      else writeImage s pl e (srcVal s addr 2 pl e) 128 128 (fun pa s =>
        .ok i (partWrite s pa ((List.range 128).map (fun j => BitVec.ofNat 8 (wmByte s i j))))))
    (fun s => finish s h.b h.w) (sortLanes (takingLanes s s.curWarp h)) s)

/-! ### Events -/

/-- R324, R326: a store or result packet reaches its receive window. -/
def execRxPacket (p : RxSrc) (s : State) : Out := .next (takePacket s false p)
/-- R332: a signal packet reaches its receive window. -/
def execSignalPacket (p : RxSrc) (s : State) : Out := .next (takePacket s true p)
/-- R324, R330, R331: contributions of other chips reach their jetties, and a packet is acknowledged. -/
def execPacketAck (packet : Nat) (badAuth : Bool) (others : List JContrib) (s : State) : Out :=
  let s := others.foldl (fun s c => contribute s c.jetty c.key c.rid c.words) s
  .next (match s.fb.packets.find packet with
    | none => s
    | some p => if ackable s packet p then ackPacket s packet p (p.badAuth || (badAuth && !p.taken)) else s)
/-- R327: a flit that fails its CRC is sent again from the link buffer; the packet is the same. -/
def execFlitReplay (packet : Nat) (s : State) : Out := .next (leavePort s packet)
/-- R327: a packet blocked for 200 µs is sent again as it was sealed; it is taken in once. -/
def execPacketRetransmit (packet : Nat) (s : State) : Out :=
  .next ((leavePort s packet).updFB (fun f => { f with packets := f.packets.upd packet (fun p => { p with resent := p.resent + 1 }) }))
/-- R317, R472: the jetty confirms an entry's request. -/
def execEnrolmentConfirm (entry : Nat) (s : State) : Out :=
  .next (match s.fb.enrols.find? (fun e => e.2.reqs.any (fun r => r.entry = entry)) with
    | none => s
    | some e =>
      setEnrolled (s.updFB (fun f => { f with enrols := f.enrols.upd e.1 (fun x =>
        { x with reqs := x.reqs.map (fun r => if r.entry = entry then { r with confirmed := true } else r) }) })) entry true)
/-- R317: the jetty withdraws an enrolment; ENROLLED is cleared and OWNER's parent is told. -/
def execEnrolmentLost (entry : Nat) (s : State) : Out :=
  .next (if (wmByte s entry 5).testBit 1 then postEvent (withdraw (setEnrolled s entry false) entry) (wmField s entry 8 2) 0x82 none 0 else s)

end Sys2Proof.Machine
end

