-- ==== Sys2Proof/Machine/Sha.lean ====
section
/-!
DEFINITION. SHA-256 (FIPS 180-4), the digest of an object and the extension of a measurement chain (R435, R436).
-/
namespace Sys2Proof.Machine

/-- The first 64 primes: below 312 and not divisible by a smaller prime. -/
def shaPrimes : List Nat :=
  (List.range 312).filter (fun n => decide (2 ≤ n) && [2, 3, 5, 7, 11, 13, 17].all (fun d => n = d || n % d != 0))

/-- The greatest number of `bits` bits whose `k`-th power is at most `n`, found from its highest bit down. -/
def rootBelow (k n : Nat) : Nat → Nat → Nat
  | 0, acc => acc
  | bits + 1, acc => rootBelow k n bits (if (acc + 2 ^ bits) ^ k ≤ n then acc + 2 ^ bits else acc)

/-- The first 32 bits of the fraction of the `k`-th root of a number. -/
def rootFraction (k n : Nat) : Word := BitVec.ofNat 32 (rootBelow k (n * 2 ^ (32 * k)) 37 0)

/-- The round constants of SHA-256, from the cube roots of the primes, and its initial hash, from the square roots of the first eight. -/
def shaK : List Word := shaPrimes.map (rootFraction 3)
def shaInit : List Word := (shaPrimes.take 8).map (rootFraction 2)

/-- A big-endian word of four bytes. -/
def shaWord : List Byte → Word
  | [a, b, c, d] => a ++ b ++ c ++ d
  | _ => 0

/-- The exclusive or of rotations of a word by the amounts listed. -/
def rotations (x : Word) (l : List Nat) : Word := (l.map x.rotateRight).foldl (· ^^^ ·) 0

/-- The message schedule, newest word first, grown by `n` words. -/
def shaSchedule : Nat → List Word → List Word
  | 0, w => w
  | n + 1, w =>
    let near := w.getD 1 0
    let far := w.getD 14 0
    let next := (rotations near [17, 19] ^^^ (near >>> 10)) + w.getD 6 0 + (rotations far [7, 18] ^^^ (far >>> 3)) + w.getD 15 0
    shaSchedule n (next :: w)

/-- One round on the eight working variables. -/
def shaRound (v : List Word) (kw : Word × Word) : List Word :=
  match v with
  | [a, b, c, d, e, f, g, h] =>
    let choice := g ^^^ (e &&& (f ^^^ g))
    let majority := (a &&& b) ||| (c &&& (a ||| b))
    let add := kw.1 + kw.2 + h + choice + rotations e [6, 11, 25]
    [add + majority + rotations a [2, 13, 22], a, b, c, d + add, e, f, g]
  | v => v

/-- Compress one 64-byte block into a hash. -/
def shaBlock (h : List Word) (block : List Byte) : List Word :=
  let w := (List.range 16).map (fun i => shaWord ((block.drop (4 * i)).take 4))
  let ws := (shaSchedule 48 w.reverse).reverse
  let v := (shaK.zip ws).foldl shaRound h
  (h.zip v).map (fun x => x.1 + x.2)

/-- Padding of a message of `n` bytes. -/
def shaPad (n : Nat) : List Byte :=
  [0x80] ++ List.replicate ((119 - n % 64) % 64) 0 ++ (bytesOfNat 8 (8 * n)).reverse

/-- Blocks of a padded message, in order. -/
def shaBlocks : Nat → List Word → List Byte → List Word
  | 0, h, _ => h
  | n + 1, h, l => shaBlocks n (shaBlock h (l.take 64)) (l.drop 64)

/-- SHA-256 of a message. -/
def sha256 (msg : List Byte) : List Byte :=
  let l := msg ++ shaPad msg.length
  (shaBlocks (l.length / 64) shaInit l).flatMap (fun w => (bytesOfNat 4 w.toNat).reverse)

/-- Pieces of 64 KiB of an object (R435). -/
def chunks64k : Nat → List Byte → List (List Byte)
  | 0, _ => []
  | n + 1, l => l.take 65536 :: chunks64k n (l.drop 65536)

/-- One level of the tree of R435. -/
def digestLevel : List (List Byte) → List (List Byte)
  | a :: b :: l => sha256 ([1] ++ a ++ b) :: digestLevel l
  | l => l

/-- Levels up to the root. -/
def digestTree : Nat → List (List Byte) → List Byte
  | _, [] => []
  | _, [d] => d
  | 0, d :: _ => d
  | n + 1, l => digestTree n (digestLevel l)

/-- R435: the digest of an object. -/
def objDigest (l : List Byte) : List Byte :=
  let leaves := (chunks64k (max 1 ((l.length + 65535) / 65536)) l).map (fun c => sha256 ([0] ++ c))
  digestTree leaves.length leaves

/-- R436: the chain after an extension. -/
def extendChain (chain : List Byte) (tag len : Nat) (digest : List Byte) : List Byte :=
  sha256 (chain ++ bytesOfNat 1 tag ++ bytesOfNat 8 len ++ digest)

end Sys2Proof.Machine
end

