-- ==== Sys2Proof/Machine/MatrixWords.lean ====
section
/-!
DEFINITION. The matrix words (R272 to R285), the arrays, their accumulators, batches and grants (R254 to R271, R382), and the
events MATRIX_GRANULE, MXST_GRANULE and MATRIX_GRANT_SWITCH.
-/
namespace Sys2Proof.Machine

/-! ### Arrays, grants and queues (R255, R256, R258, R272, R284) -/

def halfKey (core half : Nat) : Nat := core * 2 + half
def mqKey (core half ctx : Nat) : Nat := halfKey core half * 4096 + ctx
def mqueue (s : State) (core half ctx : Nat) : MQueue := (s.en.mqueues.find (mqKey core half ctx)).getD {}
def setMqueue (s : State) (core half ctx : Nat) (q : MQueue) : State :=
  s.updEN (fun e => { e with mqueues := if q = {} then e.mqueues.erase (mqKey core half ctx) else NMap.insert e.mqueues (mqKey core half ctx) q })

/-- The array works in two halves (R255). -/
def splitMode (s : State) (core : Nat) : Bool := NMap.get 0 s.en.arrMode core = 1
/-- The context has bound the core's array to the next one's (R284). -/
def pairedOn (s : State) (ctx core : Nat) : Bool := s.en.pairs.contains (ctx * 512 + core)
def granted (s : State) (core half ctx : Nat) : Bool := s.en.grants.find (halfKey core half) = some ctx

/-- A change of the core's ARR.MODE is staged (R255, R460). -/
def modeChanging (s : State) (core : Nat) : Bool :=
  s.cx.staged.any (fun c => match c.change with
    | .modes l => l.any (fun x => x.1 = core && NMap.get 0 s.en.arrMode core != x.2)
    | _ => false)

/-- The array as a context's instructions on a core see it. -/
structure ArrView where
  core : Nat
  half : Nat
  paired : Bool
  split : Bool
deriving DecidableEq, Repr

def ArrView.rows (v : ArrView) : Nat := if v.split then 64 else 128
def ArrView.cols (v : ArrView) : Nat := if v.paired then 128 else 64

/-- The array or half granted to a context on a core; a bound pair is in force while both grants are held (R272, R284). A context
that holds both halves acts on half 0. -/
def arrayOf (s : State) (ctx core : Nat) : Option ArrView :=
  if splitMode s core then
    if granted s core 0 ctx then some ⟨core, 0, false, true⟩
    else if granted s core 1 ctx then some ⟨core, 1, false, true⟩
    else none
  else if !granted s core 0 ctx then none
  else if !pairedOn s ctx core then some ⟨core, 0, false, false⟩
  else if granted s (core + 1) 0 ctx then some ⟨core, 0, true, false⟩
  else none

/-- Contexts with matrix work ready at an array or half: commands queued, those of pre-empted groups apart, or warps that wait for a grant
or an array (R382). -/
def matrixReady (s : State) (core half : Nat) : List Nat :=
  let live := fun (c : MCmd) => (s.group c.gi).resident || c.asked
  let queued := (s.en.mqueues.filter (fun q => q.1 / 4096 = halfKey core half && q.2.cmds.any live)).map (fun q => q.1 % 4096)
  let near := fun (c : Nat) => c = core || (core % 2 = 1 && c + 1 = core)
  let waiting := (s.wk.warps.filter (fun c => c.2.park = .grant && near c.2.core && (s.group c.2.gi).resident)).map (fun c => ctxOf s c.2)
  let leads := (s.en.mqueues.filter (fun q => core % 2 = 1 && half = 0 && q.1 / 4096 = halfKey (core - 1) 0 && q.2.cmds.any (fun c => c.paired && live c))).map
    (fun q => q.1 % 4096)
  (queued ++ waiting ++ leads).eraseDups

/-- A context that was not ready at an array rejoins there (R380). -/
def rejoinArray (s : State) (core half ctx : Nat) : State :=
  let l := matrixReady s core half
  if l.contains ctx then s else rejoin s 2 (halfKey core half) ctx l

/-- The issuing warp waits for a grant (R272). -/
def parkGrant (s : State) (ctx core : Nat) : State :=
  parkHere (rejoinArray (if splitMode s core then rejoinArray s core 1 ctx else s) core 0 ctx) .grant

/-- Every matrix word: the taking lanes, their leader, the granted array (R272). -/
def withArray (s : State) (h : Hdr) (k : List (Nat × LaneEnt) → Nat → LaneEnt → ArrView → State → State) : State :=
  let w := s.curWarp
  let taking := takingLanes s w h
  match leaderOf taking with
  | none => finish s h.b h.w
  | some (p, e) =>
    match arrayOf s (ctxOf s w) w.core with
    | none => parkGrant s (ctxOf s w) w.core
    | some v => k taking p e v s

/-! ### Accumulators (R264, R267, R282) -/

def accBase (ctx core tile : Nat) : Nat := ((ctx * 384 + core) * 8 + tile) * 8192
/-- The key of an element of a tile as a view presents it (R256, R258). -/
def accKey (ctx : Nat) (v : ArrView) (tile m c : Nat) : Nat :=
  accBase ctx (if c < 64 then v.core else v.core + 1) tile + (m + 64 * v.half) * 64 + c % 64
def accOf (s : State) (key : Nat) : Word := NMap.get 0 s.en.accs key
/-- A full overwrite of an element clears its poison (R465). -/
def setAcc (s : State) (key : Nat) (x : Word) : State :=
  s.updEN (fun e => { e with accs := NMap.set 0 e.accs key x, accPoison := e.accPoison.filter (fun k => k != key) })
/-- The key lies in the tile that a view presents. -/
def inTile (ctx : Nat) (v : ArrView) (tile key : Nat) : Bool :=
  let at_ := fun (core : Nat) =>
    let lo := accBase ctx core tile + 4096 * v.half
    decide (lo ≤ key) && decide (key < lo + v.rows * 64)
  at_ v.core || (v.paired && at_ (v.core + 1))

/-- Incomplete commands that target a tile of this array, or of a pair that spans it (R267). -/
def tileCmds (s : State) (ctx : Nat) (v : ArrView) (tile : Nat) : List MCmd :=
  let here := (mqueue s v.core v.half ctx).cmds
  let next := if v.paired then (mqueue s (v.core + 1) 0 ctx).cmds else []
  let lead := if !v.split && v.core % 2 = 1 then (mqueue s (v.core - 1) 0 ctx).cmds.filter (·.paired) else []
  (here ++ next ++ lead).filter (fun c => c.acc = tile)

/-- R267: what an accumulator instruction meets first. -/
def withTile (s : State) (h : Hdr) (opc tile : Nat) (v : ArrView) (k : State → State) : State :=
  let busy := tileCmds s (ctxOf s s.curWarp) v tile
  if busy.any (fun c => c.batch = (s.group c.gi).openBatch) then faultTaking s h opc 0x2A none
  else if busy ≠ [] then parkHere s .engine
  else k s

/-! ### Staging (R274 to R277) -/

/-- A staging write: other runs in progress may see it or not (R197, R274). -/
def stageWrite (s : State) (f : Staging → Staging) : State :=
  let gi := s.curWarp.gi
  let old := (s.group gi).stg
  let s := s.updWK (fun k => { k with warps := k.warps.map (fun c =>
    if c.2.gi = gi then
      if c.1 = s.md.cur then (c.1, { c.2 with stgUndo := c.2.stgUndo.map f }) else (c.1, { c.2 with stgUndo := old :: c.2.stgUndo })
    else c) })
  s.updGroup gi (fun g => { g with stg := f g.stg })

/-- The staging as the word sees it (R197, R274; FREE VALUE, log entry 5): the newest few writes of other runs stay unseen. -/
def seenStaging (s : State) : Staging × State :=
  let u := s.curWarp.stgUndo
  if u = [] then ((s.group s.curWarp.gi).stg, s)
  else
    let (n, s) := s.pick (u.length + 1)
    if n = 0 then ((s.group s.curWarp.gi).stg, s) else (u.getD (n - 1) {}, s)

def mfmtNum : MFmt → Nat
  | .f16 => 0 | .bf16 => 1 | .b8 => 2 | .b4 => 3

/-- R275. -/
def stageOperand (s : State) (h : Hdr) (isB : Bool) (base stride : Reg) (sp : Bool) (fmt : MFmt) (c : Bool) (z : Nat) : State :=
  withArray s h (fun _ p e _ s =>
    let x : MStage := { set := true, base := srcVal s base (if sp then 1 else 2) p e, stride := srcVal s stride 1 p e, sp := sp,
                        fmt := mfmtNum fmt, c := c, z := z }
    finish (stageWrite s (fun g => if isB then { g with b := x } else { g with a := x })) h.b h.w)

/-- R275. -/
def execMxa (h : Hdr) (base stride : Reg) (sp : Bool) (fmt : MFmt) (c : Bool) (z : Fin 8) (s : State) : Out :=
  .next (stageOperand s h false base stride sp fmt c z.val)
/-- R275. -/
def execMxb (h : Hdr) (base stride : Reg) (sp : Bool) (fmt : MFmt) (z : Fin 8) (s : State) : Out :=
  .next (stageOperand s h true base stride sp fmt false z.val)

/-- R276: dimensions and K within their ranges. -/
def shapeOk (d k : Nat) : Bool :=
  d / 2 ^ 16 = 0 && decide (1 ≤ d % 256) && decide (d % 256 ≤ 128) && decide (1 ≤ d / 256) && decide (d / 256 ≤ 128) &&
  decide (1 ≤ k) && decide (k ≤ 1048576)

/-- R276. -/
def execMxshp (h : Hdr) (dims k : Reg) (s : State) : Out :=
  .next (withArray s h (fun _ p e _ s =>
    let d := srcVal s dims 1 p e
    let kk := srcVal s k 1 p e
    if shapeOk d kk then finish (stageWrite s (fun g => { g with shp := ⟨true, d % 256, d / 256, kk⟩ })) h.b h.w
    else faultTaking s h 0xC2 0x29 none))

/-- R277. -/
def execMxspm (h : Hdr) (bmap : Option (Reg × Bool)) (index : Option (Reg × Bool × Reg)) (s : State) : Out :=
  .next (withArray s h (fun _ p e _ s =>
    let addr := fun (r : Reg) (sp : Bool) => srcVal s r (if sp then 1 else 2) p e
    let x : MSparse := {
      ben := bmap.isSome
      bmap := (bmap.map (fun b => addr b.1 b.2)).getD 0
      bsp := (bmap.map (·.2)).getD false
      ien := index.isSome
      idx := (index.map (fun i => addr i.1 i.2.1)).getD 0
      isp := (index.map (·.2.1)).getD false
      istride := (index.map (fun i => srcVal s i.2.2 1 p e)).getD 0 }
    finish (stageWrite s (fun g => { g with spm := x })) h.b h.w))

/-! ### MXRUN (R278, R279) -/

def isNarrow (x : MStage) : Bool := decide (2 ≤ x.fmt)
/-- K units of one block of a narrow operand (R37). -/
def unitsPerBlock (x : MStage) : Nat := (if x.fmt = 3 then 2 else 1) * (if x.c then 2 else 1)
/-- Elements of K in a unit (R37, R51). -/
def unitK (x : MStage) : Nat := if isNarrow x then 62 else 64
/-- K units of a command. -/
def unitCount (t : Staging) : Nat := (t.shp.k + unitK t.a - 1) / unitK t.a
/-- Bytes of a row of A or a column of B. -/
def rowBytes (x : MStage) (k : Nat) : Nat := if isNarrow x then 64 * (k / (62 * unitsPerBlock x)) else 2 * k

/-- The extents of a command: scratchpad or not, address, bytes (R278). -/
def extents (t : Staging) : List (Bool × Nat × Nat) :=
  (List.range t.shp.m).map (fun m => (t.a.sp, t.a.base + m * t.a.stride, rowBytes t.a t.shp.k)) ++
  (List.range t.shp.n).map (fun n => (t.b.sp, t.b.base + n * t.b.stride, rowBytes t.b t.shp.k)) ++
  (if t.spm.ben then [(t.spm.bsp, t.spm.bmap, (2 * unitCount t + 7) / 8)] else []) ++
  (if t.spm.ien then (List.range t.shp.m).map (fun m => (t.spm.isp, t.spm.idx + m * t.spm.istride, (t.shp.k + 7) / 8)) else [])

/-- Bases and strides aligned (R278 check 5). -/
def stagingAligned (t : Staging) : Bool :=
  let al := if isNarrow t.a then 64 else 16
  t.a.base % al = 0 && t.a.stride % al = 0 && t.b.base % al = 0 && t.b.stride % al = 0 &&
  (!t.spm.ben || t.spm.bmap % 16 = 0) && (!t.spm.ien || (t.spm.idx % 16 = 0 && t.spm.istride % 16 = 0))

/-- R278: the checks in order. -/
def checkRun (s : State) (gi : Nat) (v : ArrView) (t : Staging) (reel : Option Nat) : Checked :=
  let scratch := (s.group gi).scratch
  let span := 62 * max (unitsPerBlock t.a) (unitsPerBlock t.b)
  if !(t.a.set && t.b.set && t.shp.set && decide (t.shp.m ≤ v.rows) && decide (t.shp.n ≤ v.cols) &&
      (!(isNarrow t.a && isNarrow t.b) || t.shp.k % span = 0)) then .bad 0x29 none
  else if isNarrow t.a != isNarrow t.b || (!isNarrow t.a && t.a.fmt != t.b.fmt) || (t.a.c && !t.spm.ien) then .bad 0x28 none
  else
    match (extents t).find? (fun x => !x.1 && decide (2 ^ 55 < x.2.1 + x.2.2)) with
    | some x => .bad 0x10 (some (max x.2.1 (2 ^ 55) % 2 ^ 64))
    | none =>
      match (extents t).find? (fun x => x.1 && decide (scratch < x.2.1 + x.2.2)) with
      | some x => .bad 0x18 (some x.2.1)
      | none =>
        let hdr := reel.map (· % 2 ^ 19)
        if (hdr.map (fun x => decide (scratch < x + 16))).getD false then .bad 0x18 hdr
        else if !stagingAligned t then .bad 0x11 none
        else
          match reel with
          | none => .ok []
          | some r =>
            if r % 16 ≠ 0 then .bad 0x11 hdr
            else if r.testBit 19 || r / 2 ^ 24 != 0 then .bad 0x23 hdr
            else
              match rangeState s gi (r % 2 ^ 19) 16 with
              | .ok _ => if reelValid (reelHeader s gi (r % 2 ^ 19)) scratch (r / 2 ^ 20 % 16) then .ok [] else .bad 0x23 hdr
              | x => x

/-- R278, R279. The home warps commit once the command stands in its queue (R369). -/
def execMxrun (h : Hdr) (reel : Option Reg) (gran : Fin 16) (sbc : Option (Fin 6)) (acc : Fin 8) (flip : Fin 4) (s : State) : Out :=
  .next (withArray s h (fun taking p e v s =>
    let w := s.curWarp
    let ctx := ctxOf s w
    withCounter s sbc taking (fun s =>
      afterSpadStores s (activeLanes w) (fun s =>
        let (t, s) := seenStaging s
        let rw := if flip = 0 then none else reel.map (fun r => srcVal s r 1 p e)
        match checkRun s w.gi v t rw with
        | .bad code addr => faultTaking s h 0xC4 code addr
        | .absent lines => parkHere s (.lines lines)
        | .ok _ =>
          let q := mqueue s v.core v.half ctx
          if decide (16 ≤ q.cmds.length) || modeChanging s v.core || (v.paired && modeChanging s (v.core + 1)) then parkHere s .engine
          else
            let s := rejoinArray s v.core v.half ctx
            let (works, s) := takeWorks (openWorks s sbc taking) s.md.cur taking
            let c : MCmd := { gi := w.gi, paired := v.paired, pc := w.pc, stg := t, acc := acc.val, flip := flip.val,
                              reelHdr := rw.getD 0 % 2 ^ 19, reelStage := rw.getD 0 / 2 ^ 20 % 16, gran := gran.val,
                              works := works.map (·.2), batch := (s.group w.gi).openBatch, hwarp := e.hwarp }
            finish (commitLanes (setMqueue s v.core v.half ctx { q with cmds := q.cmds ++ [c] }) s.md.cur taking) h.b h.w))))

/-! ### Batches (R266, R280, R281) -/

/-- The number after a batch number (R266). -/
def nextBatch (o : Nat) : Nat := if o = 0xFFFFFFFF then 1 else o + 1
/-- R280. -/
def execMxcmt (h : Hdr) (d : Reg) (s : State) : Out :=
  .next (withArray s h (fun _ _ _ _ s =>
    let gi := s.curWarp.gi
    let o := (s.group gi).openBatch
    putVals (s.updGroup gi (fun g => { g with openBatch := nextBatch o })) h d 1 (laneVals s h (fun _ _ => o))))

/-- R281. -/
def execMxwb (h : Hdr) (n : Reg) (s : State) : Out :=
  .next (withArray s h (fun _ p e _ s =>
    let w := s.curWarp
    let x := srcVal s n 1 p e
    let o := (s.group w.gi).openBatch
    let d := (o + 2 ^ 32 - x) % 2 ^ 32
    if w.phase = 2 then finish s h.b h.w
    else if x ≠ 0 ∧ ¬ (1 ≤ d ∧ d ≤ 2 ^ 31) then faultTaking s h 0xC6 0x2B none
    else if batchesDone s w.gi o x then finish s h.b h.w
    else parkHere (s.updWarp s.md.cur (fun w => { w with phase := 2 })) (.batch x)))

/-! ### Accumulator words (R282, R283) -/

/-- R282. -/
def execMxz (h : Hdr) (acc : Fin 8) (s : State) : Out :=
  .next (withArray s h (fun _ _ _ v s =>
    let ctx := ctxOf s s.curWarp
    withTile s h 0xC7 acc.val v (fun s =>
      finish (s.updEN (fun e => { e with
        accs := e.accs.filter (fun a => !inTile ctx v acc.val a.1)
        accPoison := e.accPoison.filter (fun k => !inTile ctx v acc.val k) })) h.b h.w)))

def cntNum : MCnt → Nat
  | .x1 => 1 | .x2 => 2 | .x4 => 4

/-- How a lane's index comes out: a fault's code, or the keys of its elements (R282). -/
def accIndex (ctx : Nat) (v : ArrView) (tile cnt x : Nat) : Nat ⊕ List Nat :=
  let m := x % 256
  let c := x / 256 % 256
  if x / 2 ^ 16 ≠ 0 ∨ v.rows ≤ m ∨ v.cols < c + cnt then .inl 0x29
  else if c % cnt ≠ 0 then .inl 0x11
  else .inr ((List.range cnt).map (fun i => accKey ctx v tile m (c + i)))

/-- R282, R465: MXRD. Helper lanes take part: one whose guard alone is true has its value, or 0 where a fault would fall. -/
def execMxrd (h : Hdr) (d index : Reg) (acc : Fin 8) (cnt : MCnt) (s : State) : Out :=
  let w := s.curWarp
  let ctx := ctxOf s w
  let lanes := guardedLanes s w h
  .next (if lanes = [] then finish s h.b h.w
    else
      match arrayOf s ctx w.core with
      | none => parkGrant s ctx w.core
      | some v =>
        let busy := tileCmds s ctx v acc.val
        let n := cntNum cnt
        if busy.any (fun c => c.batch = (s.group c.gi).openBatch) then
          faultTaking (writeDst s s.md.cur d n ((lanes.filter (fun q => q.2.help)).map (fun q => (q.1, q.2, 0)))) h 0xC8 0x2A none
        else if busy ≠ [] then parkHere s .engine
        else
          let look := lanes.map (fun q =>
            match accIndex ctx v acc.val n (srcVal s index 1 q.1 q.2) with
            | .inl code => (q, code, 0)
            | .inr keys =>
              if keys.any (fun k => s.en.accPoison.contains k) then (q, 0x15, 0)
              else (q, 0, ((List.range keys.length).map (fun i => (accOf s (keys.getD i 0)).toNat * 2 ^ (32 * i))).sum))
          let bad := look.filter (fun x => x.2.1 != 0 && !x.1.2.help)
          let good := look.filter (fun x => x.2.1 = 0 || x.1.2.help)
          let s := takeFaults s s.md.cur 0xC8 0 (bad.map (fun x => ⟨x.1.1, x.1.2, x.2.1, none, 0⟩)) true
          putVals s h d n (good.map (fun x => (x.1.1, x.1.2, x.2.2))))

/-- R282: MXWR: the lane of highest (HWARP, HLANE) stands. -/
def execMxwr (h : Hdr) (index y : Reg) (acc : Fin 8) (cnt : MCnt) (s : State) : Out :=
  .next (withArray s h (fun taking _ _ v s =>
    let ctx := ctxOf s s.curWarp
    withTile s h 0xC9 acc.val v (fun s =>
      let look := (sortLanes taking).map (fun q =>
        (q, accIndex ctx v acc.val (cntNum cnt) (srcVal s index 1 q.1 q.2), srcVal s y (cntNum cnt) q.1 q.2))
      let bad := look.filterMap (fun x => match x.2.1 with
        | .inl code => some (⟨x.1.1, x.1.2, code, none, 0⟩ : LaneFault)
        | .inr _ => none)
      let s := takeFaults s s.md.cur 0xC9 0 bad true
      finish (look.foldl (fun s x =>
        match x.2.1 with
        | .inl _ => s
        | .inr keys => (List.range keys.length).foldl (fun s i => setAcc s (keys.getD i 0) (wordOf x.2.2 i)) s) s) h.b h.w)))

/-- Element size of an MXST conversion, and the element converted (R283). -/
def convBytes : MConv → Nat
  | .f32 => 4
  | .f16 _ | .bf16 _ => 2
def convElem (cv : MConv) (x : Nat) : Nat :=
  match cv with
  | .f32 => x
  | .f16 rm => roundF fmtF16 rm 0 (decodeF fmtF32 x)
  | .bf16 rm => roundF fmtBF16 rm 0 (decodeF fmtF32 x)

/-- R283: MXST. A poisoned element faults the word (R465). -/
def execMxst (h : Hdr) (stride base : Reg) (sp : Bool) (acc : Fin 8) (cv : MConv) (gran : Fin 16) (sbc : Option (Fin 6)) (s : State) : Out :=
  .next (if s.curWarp.phase = 2 then finish s h.b h.w
    else
      withArray s h (fun taking p e v s =>
        let w := s.curWarp
        let ctx := ctxOf s w
        withCounter s sbc taking (fun s =>
          withTile s h 0xCA acc.val v (fun s =>
            afterSpadStores s (activeLanes w) (fun s =>
              let (t, s) := seenStaging s
              let n := t.shp.n
              let e1 := convBytes cv
              let b := srcVal s base (if sp then 1 else 2) p e
              let st := srcVal s stride 1 p e
              let top := b + (t.shp.m - 1) * st + n * e1
              let keys := (List.range t.shp.m).flatMap (fun m => (List.range n).map (fun c => accKey ctx v acc.val m c))
              if !t.shp.set || decide (v.rows < t.shp.m) || decide (v.cols < n) then faultTaking s h 0xCA 0x29 none
              else if !sp && decide (2 ^ 55 < top) then faultTaking s h 0xCA 0x10 (some (max b (2 ^ 55)))
              else if sp && decide ((s.group w.gi).scratch < top) then faultTaking s h 0xCA 0x18 (some b)
              else if b % e1 ≠ 0 ∨ st % 4 ≠ 0 then faultTaking s h 0xCA 0x11 (some b)
              else if keys.any (fun k => s.en.accPoison.contains k) then faultTaking s h 0xCA 0x15 none
              else
                issueCmd s h taking sbc
                  { gi := w.gi, ctx := ctx, core := w.core, opc := 0xCA, pc := w.pc,
                    moves := .tile n e1 st (keys.map (fun k => convElem cv (accOf s k).toNat)), dst := b, dsp := sp, gran := gran.val,
                    hwarp := e.hwarp })))))

/-- R283: the store path of the arrays completes the next granule of an MXST. -/
def execMxstGranule (cmd : Nat) (s : State) : Out :=
  .next (if isTile (s.cmd cmd) then turnCmd s cmd (fun s => serveGranule s cmd) else s)

/-! ### Pairs and progress (R271, R284, R285) -/

/-- R284: `.on`. -/
def execMxpairOn (h : Hdr) (s : State) : Out :=
  .next (withArray s h (fun _ _ _ v s =>
    let w := s.curWarp
    let ctx := ctxOf s w
    if v.paired then finish s h.b h.w
    else if w.core % 2 = 1 ∨ splitMode s w.core ∨ splitMode s (w.core + 1) then faultTaking s h 0xCB 0x2C none
    else if !granted s (w.core + 1) 0 ctx then parkGrant s ctx (w.core + 1)
    else finish (s.updEN (fun e => { e with pairs := e.pairs ++ [ctx * 512 + w.core] })) h.b h.w))

/-- R284: `.off`. -/
def execMxpairOff (h : Hdr) (s : State) : Out :=
  .next (withArray s h (fun _ _ _ v s =>
    let w := s.curWarp
    let ctx := ctxOf s w
    let busy := (mqueue s v.core v.half ctx).cmds.filter (·.paired)
    if !v.paired then finish s h.b h.w
    else if busy.any (fun c => c.batch = (s.group c.gi).openBatch) then faultTaking s h 0xCB 0x2A none
    else if busy ≠ [] then parkHere s .engine
    else finish (s.updEN (fun e => { e with pairs := e.pairs.filter (fun x => x != ctx * 512 + w.core) })) h.b h.w))

/-- R271: the progress register; with no granule of a later command added, a command that ended at a fault stays in it. -/
def progress (q : MQueue) : Nat :=
  match q.cmds with
  | [] => q.last
  | c :: _ =>
    let why := match c.stop with
      | .running | .waits _ => 0
      | .request _ _ | .recall _ _ | .finWait _ => 1
      | .preempted => 2
    if c.done = 0 && why = 0 && q.last != 0 then q.last
    else c.done % 2 ^ 16 + (if why = 0 then 0 else 2 ^ 16) + why * 2 ^ 17 + c.acc * 2 ^ 19

/-- R285: in taking lanes alone. -/
def execMxprog (h : Hdr) (d : Reg) (s : State) : Out :=
  .next (withArray s h (fun taking _ _ v s =>
    let x := progress (mqueue s v.core v.half (ctxOf s s.curWarp))
    putVals s h d 1 (taking.map (fun q => (q.1, q.2, x)))))

/-! ### Granules (R259 to R263, R268 to R271) -/

/-- R260: where an operand address leads. -/
def matReach (s : State) (core ctx gi : Nat) (sp : Bool) (a : Nat) : Reach × State :=
  if sp then (.at (.spad gi (a / 128)), s)
  else
    match xlateNow s core ctx a .engRead with
    | (.ok t, s) =>
      match t.ty with
      | .page | .rxWin => (.at (.mem (t.pa / 128 * 128)), s)
      | .txWin | .onChip => (.bad 0x17, s)
    | (.busy, s) => (.busy, s)
    | (.far l r, s) => (.far l r, s)
    | (.fail f, s) => (if ownFailure s ctx f then .bad (failCode f) else .request f, s)

/-- A word of an operand. -/
def opWord (s : State) (core ctx gi : Nat) (sp : Bool) (a : Nat) : Got × State :=
  match matReach s core ctx gi sp a with
  | (.at p, s) =>
    let s := match p with
      | .mem pa => llcEnsure s (pa / 128)
      | _ => s
    (match placeGot s 0 {} p a with
      | .ok _ true _ => .bad 0x15 a
      | r => r, s)
  | (.busy, s) => (.wait none, s)
  | (.request f, s) => (.request f a, s)
  | (.far l r, s) => (.far l r a, s)
  | (.bad code, s) => (.bad code a, s)

/-- Words of an operand from an address on, or what stops the read. -/
def opBytes (s : State) (core ctx gi : Nat) (sp : Bool) (a n : Nat) : List Byte × Option Got × State :=
  (List.range ((n + 3) / 4)).foldl (fun (acc : List Byte × Option Got × State) i =>
    match acc.2.1 with
    | some _ => acc
    | none =>
      match opWord acc.2.2 core ctx gi sp (a + 4 * i) with
      | (.ok w _ _, s) => (acc.1 ++ bytesOfNat 4 w.toNat, none, s)
      | (r, s) => ([], some r, s)) ([], none, s)

/-- What a granule reads, by key: 0 a row of A, 1 a column of B, 2 words of the bitmap, 3 index bytes of a row; then the row or
column; then the block, or the unit where the operand has no blocks. Answers whether it lies in the scratchpad, its address, its
bytes, and the last unit that needs it. -/
def itemAt (t : Staging) (k : Nat × Nat × Nat) : Option (Bool × Nat × Nat × Nat) :=
  let vec := fun (x : MStage) (count : Nat) =>
    let at_ := x.base + k.2.1 * x.stride
    if count ≤ k.2.1 then none
    else if isNarrow x then
      let ub := unitsPerBlock x
      if unitCount t ≤ k.2.2 * ub then none else some (x.sp, at_ + 64 * k.2.2, 64, k.2.2 * ub + ub - 1)
    else if unitCount t ≤ k.2.2 then none
    else some (x.sp, at_ + 128 * k.2.2, min 128 (2 * t.shp.k - 128 * k.2.2), k.2.2)
  match k.1 with
  | 0 => vec t.a t.shp.m
  | 1 => vec t.b t.shp.n
  | 2 => if !t.spm.ben ∨ k.2.1 ≠ 0 ∨ unitCount t ≤ 16 * k.2.2 then none else some (t.spm.bsp, t.spm.bmap + 4 * k.2.2, 4, 16 * k.2.2 + 15)
  | 3 =>
    if !t.a.c ∨ t.shp.m ≤ k.2.1 ∨ unitCount t ≤ k.2.2 then none
    else
      let lo := 62 * k.2.2 / 8 / 4 * 4
      let hi := (62 * k.2.2 + 61) / 8 + 1
      some (t.spm.isp, t.spm.idx + k.2.1 * t.spm.istride + lo, hi - lo, k.2.2)
  | _ => none

/-- Pieces of an item's bytes, cut at multiples of 16: number, address, bytes. A piece is read at once, so that a store of a thread or a
window is read whole or not at all (R268). -/
def piecesOf (a n : Nat) : List (Nat × Nat × Nat) :=
  if n = 0 then []
  else (List.range ((a + n - 1) / 16 + 1 - a / 16)).map (fun i =>
    let lo := max a ((a / 16 + i) * 16)
    (i, lo, min (a + n) ((a / 16 + i + 1) * 16) - lo))
def pieceKey (k : Nat × Nat × Nat) (i : Nat) : Nat × Nat × Nat := (k.1, k.2.1, k.2.2 * 16 + i)
def pieceOf (c : MCmd) (k : Nat × Nat × Nat) (i : Nat) : Option (List Byte) := (c.early.find? (fun x => x.1 = pieceKey k i)).map (·.2)

/-- Bytes of an item that the command has read. -/
def itemBytes (c : MCmd) (k : Nat × Nat × Nat) : List Byte :=
  match itemAt c.stg k with
  | none => []
  | some (_, a, n, _) => (piecesOf a n).flatMap (fun x => (pieceOf c k x.1).getD [])
def hasItem (c : MCmd) (k : Nat × Nat × Nat) : Bool :=
  match itemAt c.stg k with
  | none => false
  | some (_, a, n, _) => (piecesOf a n).all (fun x => (pieceOf c k x.1).isSome)

/-- Read pieces of an item of a command that are not read yet: all, or one. Lines they take from the LLC are counted (R130). -/
def readItem (s : State) (core ctx : Nat) (c : MCmd) (k : Nat × Nat × Nat) (only : Option Nat) : MCmd × Option Got × State :=
  match itemAt c.stg k with
  | none => (c, none, s)
  | some (sp, a, n, _) =>
    ((piecesOf a n).filter (fun x => only.all (fun i => i = x.1) && (pieceOf c k x.1).isNone)).foldl
      (fun (acc : MCmd × Option Got × State) x =>
        match acc.2.1 with
        | some _ => acc
        | none =>
          match opBytes acc.2.2 core ctx c.gi sp x.2.1 x.2.2 with
          | (l, none, s) =>
            let first := x.1 = 0 || x.2.1 % 128 = 0
            let s := if sp || !first then s else countReq s ctx (x.2.1 / 2 ^ 16) core false
            ({ acc.1 with early := acc.1.early ++ [(pieceKey k x.1, l)] }, none, s)
          | (_, some r, s) => (acc.1, some r, s)) (c, none, s)

def readItems (core ctx : Nat) : List (Nat × Nat × Nat) → MCmd → State → MCmd × Option Got × State
  | [], c, s => (c, none, s)
  | k :: l, c, s =>
    match readItem s core ctx c k none with
    | (c, none, s) => readItems core ctx l c s
    | r => r

/-- Block or unit number of a unit in an operand's keys. -/
def blockOf (x : MStage) (u : Nat) : Nat := if isNarrow x then u / unitsPerBlock x else u

/-- R262: halves of the rows whose vector is live in a unit. -/
def liveHalf (c : MCmd) (u h : Nat) : Bool :=
  if c.stg.spm.ben then (natOfBytes (itemBytes c (2, 0, u / 16))).testBit (2 * (u % 16) + h) else true
def liveRows (c : MCmd) (u : Nat) : List Nat := (List.range c.stg.shp.m).filter (fun m => liveHalf c u (m / 64))

/-- The rows, index bytes and columns of a granule; with no live vector nothing is read. -/
def granuleItems (c : MCmd) (u : Nat) : List (Nat × Nat × Nat) :=
  let rows := liveRows c u
  if rows = [] then []
  else
    rows.flatMap (fun m => (0, m, blockOf c.stg.a u) :: (if c.stg.a.c then [(3, m, u)] else [])) ++
    (List.range c.stg.shp.n).map (fun n => (1, n, blockOf c.stg.b u))

/-- The nibble of a group of four in a row's index bytes as read for a unit (R36). -/
def nibbleAt (c : MCmd) (m u g : Nat) : Nat :=
  let lo := 62 * u / 8 / 4 * 4
  ((itemBytes c (3, m, u)).getD (g / 2 - lo) 0).toNat / (if g % 2 = 0 then 1 else 16) % 16

/-- R26, R34, R261: a block read does not meet its operand's declaration. -/
def badBlock (c : MCmd) (x : MStage) (k : Nat × Nat × Nat) : Bool :=
  !headerOk (((itemBytes c k).headD 0).toNat) (x.fmt = 3) x.c x.z

/-- The address of the first item of a granule that raises FORMAT (R261, R263). -/
def granuleFormat (c : MCmd) (u : Nat) : Option Nat :=
  (granuleItems c u).findSome? (fun k =>
    let bad := match k.1 with
      | 0 => isNarrow c.stg.a && badBlock c c.stg.a k
      | 1 => isNarrow c.stg.b && badBlock c c.stg.b k
      | 3 => (List.range ((62 * u + 61) / 4 + 1 - 62 * u / 4)).any (fun i =>
          let x := nibbleAt c k.2.1 u (62 * u / 4 + i)
          decide (x / 4 ≤ x % 4))
      | _ => false
    if bad then (itemAt c.stg k).map (·.2.1) else none)

/-- Elements of a dense row or column over a unit, in K order (R37, R38, R259). -/
def unitVals (x : MStage) (bytes : List Byte) (u kl : Nat) : List FVal :=
  let nats := bytes.map (·.toNat)
  if isNarrow x then
    let vals := slotVals nats
    (List.range 62).map (fun i => blockElem vals x.z (62 * (u % unitsPerBlock x) + i))
  else
    let f := if x.fmt = 0 then fmtF16 else fmtBF16
    (List.range kl).map (fun i => decodeF f (natOfBytes ((bytes.drop (2 * i)).take 2)))

/-- Elements of a row of A over a unit: none where an element was pruned (R35, R36, R41). -/
def rowVals (c : MCmd) (m u kl : Nat) : List (Option FVal) :=
  let x := c.stg.a
  let bytes := itemBytes c (0, m, blockOf x u)
  if !x.c then (unitVals x bytes u kl).map some
  else
    let vals := slotVals (bytes.map (·.toNat))
    (List.range 62).map (fun i =>
      let k := 62 * u + i
      let g := k / 4
      let nib := nibbleAt c m u g
      let t := (62 * (u % unitsPerBlock x) + i) / 4
      if k % 4 = nib % 4 then some (blockElem vals x.z (2 * t))
      else if k % 4 = nib / 4 then some (blockElem vals x.z (2 * t + 1))
      else none)

/-- Cut a list into groups of `n`. -/
def chunk {α : Type} (n : Nat) : Nat → List α → List (List α)
  | 0, _ => []
  | fuel + 1, l => if l = [] then [] else l.take n :: chunk n fuel (l.drop n)

/-- R41: one output element over a granule. -/
def sumElem (nar : Bool) (a : List (Option FVal)) (b : List FVal) (acc : Nat) : Nat :=
  let prods := (a.zip b).map (fun p => p.1.map (fun x => mulF x p.2))
  (if nar then [prods] else chunk 8 8 prods).foldl (fun acc g =>
    let terms := g.filterMap id
    if terms = [] then acc else roundF fmtF32 .rn 0 (sumF .rn (decodeF fmtF32 acc :: terms))) acc

/-- Add a granule's products into the tile. -/
def addGranule (s : State) (ctx : Nat) (v : ArrView) (c : MCmd) (u : Nat) : State :=
  let kl := min (unitK c.stg.a) (c.stg.shp.k - unitK c.stg.a * u)
  let cols := (List.range c.stg.shp.n).map (fun n => (n, unitVals c.stg.b (itemBytes c (1, n, blockOf c.stg.b u)) u kl))
  (liveRows c u).foldl (fun s m =>
    let row := rowVals c m u kl
    cols.foldl (fun s col =>
      let key := accKey ctx v c.acc m col.1
      let x := BitVec.ofNat 32 (sumElem (isNarrow c.stg.a) row col.2 (accOf s key).toNat)
      s.updEN (fun e => { e with accs := NMap.set 0 e.accs key x })) s) s

/-- K elements each cell consumes per cycle (R254). -/
def cellRate (t : Staging) : Nat :=
  (if !isNarrow t.a then 1 else if t.a.fmt = 3 && t.b.fmt = 3 then 4 else 2) * (if t.a.c then 2 else 1)
/-- Cycles of a granule: those of the command so far less those before it (R254). -/
def granuleCycles (t : Staging) (u : Nat) : Nat :=
  let r := cellRate t
  let cyc := fun (k : Nat) => (min k t.shp.k + r - 1) / r
  cyc (unitK t.a * (u + 1)) - cyc (unitK t.a * u)

def updCount (s : State) (core half ctx : Nat) (f : MCount → MCount) : State :=
  s.updEN (fun e => { e with mcounts := NMap.set {} e.mcounts (mqKey core half ctx) (f (NMap.get {} e.mcounts (mqKey core half ctx))) })

/-- The first command of a queue changes. -/
def setHead (s : State) (core half ctx : Nat) (c : MCmd) : State :=
  let q := mqueue s core half ctx
  setMqueue s core half ctx { q with cmds := c :: q.cmds.drop 1 }

/-- The head of a queue completes or ends; `last` is what the progress register keeps of it (R257, R266, R271, R279). -/
def retireHead (s : State) (core half ctx : Nat) (c : MCmd) (last : Nat) : State :=
  let q := mqueue s core half ctx
  let s := setMqueue s core half ctx { cmds := q.cmds.drop 1, last := last }
  let s := updCount s core half ctx (fun x => { x with cmds := (x.cmds + 1) % 2 ^ 32 })
  checkGroupEnd (finishWorks s c.works) c.gi

/-- A fault record of a matrix command (R266, R389, R391). -/
def reportMatrix (s : State) (core ctx : Nat) (c : MCmd) (code addr : Nat) : State :=
  postCommand s ctx core c.hwarp c.gi { code := code, opc := 0xC4, pc := c.pc, addr := BitVec.ofNat 64 addr, detail := BitVec.ofNat 64 c.done }

/-- R266: a command ends at a fault; what it has added stays. -/
def failMatrix (s : State) (core half ctx : Nat) (c : MCmd) (code addr : Nat) : State :=
  let s := reportMatrix s core ctx c code addr
  let s := updCount s core half ctx (fun x => { x with faults := min (x.faults + 1) (2 ^ 32 - 1) })
  retireHead s core half ctx c (c.done % 2 ^ 16 + 3 * 2 ^ 17 + c.acc * 2 ^ 19)

/-- All of an operand is read: 0 A, 1 B. -/
def operandRead (c : MCmd) (kind : Nat) : Bool :=
  let t := c.stg
  let x := if kind = 0 then t.a else t.b
  (List.range (if kind = 0 then t.shp.m else t.shp.n)).all (fun i =>
    (List.range (unitCount t - c.done)).all (fun j =>
      hasItem c (kind, i, blockOf x (c.done + j)) && (kind = 1 || !x.c || hasItem c (3, i, c.done + j))))

/-- How a flip of a reel's stage may be taken now: none while the header's line is absent; else the code of its fault, 0 for a flip
(R186, R189, R465). -/
def flipCode (s : State) (c : MCmd) : Option Nat :=
  let lines := (reelLines c.reelHdr).map (groupLine s c.gi)
  if lines.any (·.q) then some 0x20
  else if lines.any (fun x => !x.p) then none
  else if rangePoison s c.gi c.reelHdr 16 then some 0x15
  else if reelValid (reelHeader s c.gi c.reelHdr) (s.group c.gi).scratch c.reelStage then some 0
  else some 0x23

/-- R269, R279: take the flip once the operands it awaits are read. -/
def takeMatrixFlip (s : State) (core ctx : Nat) (c : MCmd) (last_ : Bool) : MCmd × State :=
  if c.flip ≠ 0 ∧ (last_ ∨ ((c.flip = 2 ∨ operandRead c 0) ∧ (c.flip = 1 ∨ operandRead c 1))) then
    match flipCode s c with
    | none => (c, s)
    | some 0 => ({ c with flip := 0 }, flipStage s c.gi c.reelHdr c.reelStage)
    | some code => ({ c with flip := 0 }, reportMatrix s core ctx c code c.reelHdr)
  else (c, s)

/-- All granules of a command are added: it takes its flip, if it has still to, and retires. -/
def endMatrix (s : State) (ctx : Nat) (v : ArrView) (c : MCmd) : State :=
  let (c, s) := takeMatrixFlip s v.core ctx c true
  if c.flip = 0 then retireHead s v.core v.half ctx c 0
  else setHead s v.core v.half ctx (if c.asked then { c with stop := .preempted, asked := false } else c)

/-- A granule is added (R254, R257, R268, R270, R380, R425). BLKMAL is set for well-headed malformed blocks of granules that complete, not
of one that ends at a fault (R32; DESIGN CHOICE, log entry 26). -/
def doneGranule (s : State) (ctx : Nat) (v : ArrView) (c : MCmd) : State :=
  let u := c.done
  let cyc := granuleCycles c.stg u
  let s := addGranule s ctx v c u
  let mal := (granuleItems c u).any (fun k => (k.1 = 0 || k.1 = 1) && isNarrow c.stg.a && blockMalformed ((itemBytes c k).map (·.toNat)))
  let s := s.updCtx ctx (fun x => { x with
    stat := x.stat || mal
    arrcyc := (x.arrcyc + (if v.split then 1 else if v.paired then 4 else 2) * cyc) % 2 ^ 64 })
  let s := updCount s v.core v.half ctx (fun x => { x with cyc := (x.cyc + cyc) % 2 ^ 64 })
  let s := charge s 2 (halfKey v.core v.half) ctx cyc
  let s := if v.paired then charge s 2 (halfKey (v.core + 1) 0) ctx cyc else s
  let c := { c with done := u + 1, early := c.early.filter (fun x => ((itemAt c.stg (x.1.1, x.1.2.1, x.1.2.2 / 16)).map (fun i => decide (u < i.2.2.2))).getD false) }
  if unitCount c.stg ≤ u + 1 then endMatrix s ctx v c
  else
    let (c, s) := takeMatrixFlip s v.core ctx c false
    let c := if c.asked && atBoundary c.gran (u + 1) then { c with stop := .preempted, asked := false } else c
    let q := mqueue s v.core v.half ctx
    setMqueue s v.core v.half ctx { cmds := c :: q.cmds.drop 1, last := 0 }

/-- What stops a read of the head command: it waits, stops, or ends (R103, R109, R260, R271). -/
def stopMatrix (s : State) (ctx : Nat) (v : ArrView) (c : MCmd) (r : Got) : State :=
  let keep := fun (s : State) (c : MCmd) => setHead s v.core v.half ctx c
  match r with
  | .request f va =>
    match engineReq s ctx v.core va .engRead f with
    | (some q, s) => keep s { c with stop := .request [q] va, asked := false }
    | (none, s) => keep s c
  | .far leaf rec va =>
    match startRecall s ctx leaf rec with
    | (some q, s) => keep s { c with stop := .recall [q] va, asked := false }
    | (none, s) => keep s c
  | .bad code a => failMatrix (keep s c) v.core v.half ctx c code a
  | .wait (some (.absent _)) => keep s (if c.asked then { c with stop := .preempted, asked := false } else c)
  | .wait _ | .ok .. => keep s c

/-- The next granule of the head command. -/
def serveMatrix (s : State) (ctx : Nat) (v : ArrView) (c : MCmd) : State :=
  let u := c.done
  if unitCount c.stg ≤ u then endMatrix s ctx v c
  else
  match readItems v.core ctx (if c.stg.spm.ben then [(2, 0, u / 16)] else []) c s with
  | (c, some r, s) => stopMatrix s ctx v c r
  | (c, none, s) =>
    match readItems v.core ctx (granuleItems c u) c s with
    | (c, some r, s) => stopMatrix s ctx v c r
    | (c, none, s) =>
      match granuleFormat c u with
      | some a => failMatrix s v.core v.half ctx c 0x28 a
      | none =>
        let keys := (liveRows c u).flatMap (fun m => (List.range c.stg.shp.n).map (fun n => accKey ctx v c.acc m n))
        if s.en.accPoison ≠ [] ∧ keys.any (fun k => s.en.accPoison.contains k) then
          let (a, s) := s.openField 64
          failMatrix s v.core v.half ctx c 0x15 a
        else doneGranule s ctx v c

/-- An item may be read ahead: some unit that needs it is still to be added and has a live vector there, as far as the bitmap has been
read; a dead vector's rows and index bytes are not read (R262). -/
def mayRead (c : MCmd) (k : Nat × Nat × Nat) : Bool :=
  let units := match k.1 with
    | 0 => let n := if isNarrow c.stg.a then unitsPerBlock c.stg.a else 1; (List.range n).map (fun i => k.2.2 * n + i)
    | 1 => let n := if isNarrow c.stg.b then unitsPerBlock c.stg.b else 1; (List.range n).map (fun i => k.2.2 * n + i)
    | _ => [k.2.2]
  let known := fun (u : Nat) => !c.stg.spm.ben || hasItem c (2, 0, u / 16)
  match k.1 with
  | 0 | 3 => units.any (fun u => decide (c.done ≤ u) && known u && liveHalf c u (k.2.1 / 64))
  | 1 => units.any (fun u => decide (c.done ≤ u) && known u && liveRows c u != [])
  | _ => decide (c.done ≤ 16 * k.2.2 + 15)

/-- Bytes of operands of the command at place `at_` of its queue are read ahead of their granules, from its issue on (R268): pieces by
key; those that cannot be read now are left. -/
def readMatrixAhead (s : State) (ctx : Nat) (v : ArrView) (at_ : Nat) (l : List (Nat × Nat × Nat)) : State :=
  match (mqueue s v.core v.half ctx).cmds[at_]? with
  | none => s
  | some c =>
    if c.stop != .running || !(s.group c.gi).resident then s
    else
      let (c, s) := l.foldl (fun (acc : MCmd × State) k =>
        let item := (k.1 % 4, k.2.1, k.2.2 / 16)
        if !mayRead acc.1 item then acc
        else
          match readItem acc.2 v.core ctx acc.1 item (some (k.2.2 % 16)) with
          | (c, _, s) => (c, s)) (c, s)
      let (c, s) := takeMatrixFlip s v.core ctx c false
      let q := mqueue s v.core v.half ctx
      setMqueue s v.core v.half ctx { q with cmds := q.cmds.set at_ c }

/-- A head command that a request or recall stopped goes on once that is done. -/
def resumeMatrix (s : State) (c : MCmd) : MCmd :=
  match c.stop with
  | .request l _ => if l.any (fun r => (s.xl.reqs.find r).isSome) then c else { c with stop := .running }
  | .recall l _ => if l.any (fun r => (s.xl.recalls.find r).isSome) then c else { c with stop := .running }
  | .running | .waits _ | .preempted | .finWait _ => c

/-- A head command that may not start yet: a follower's waits behind paired commands, a paired one behind the follower's command
in service (R258). -/
def heldBack (s : State) (core ctx : Nat) (c : MCmd) : Bool :=
  c.done = 0 &&
  (if c.paired then ((mqueue s (core + 1) 0 ctx).cmds.head?.map (fun x => decide (0 < x.done))).getD false
   else !splitMode s core && core % 2 = 1 && s.en.mqueues.any (fun q => q.1 / 4096 = halfKey (core - 1) 0 && q.2.cmds.any (·.paired)))

/-- R259 to R271: the array or half completes the next granule of its head command, or reads operand bytes ahead: of each item of the
list the first number is its kind + 4 times the place of its command in the queue. -/
def execMatrixGranule (core half : Nat) (ahead : Option (List (Nat × Nat × Nat))) (s : State) : Out :=
  .next (match s.en.grants.find (halfKey core half) with
    | none => s
    | some ctx =>
      match (mqueue s core half ctx).cmds with
      | [] => s
      | c :: _ =>
        match ahead with
        | some l =>
          ((l.map (fun k => k.1 / 4)).eraseDups).foldl (fun s at_ =>
            readMatrixAhead s ctx ⟨core, half, c.paired, splitMode s core⟩ at_ (l.filter (fun k => k.1 / 4 = at_))) s
        | none =>
          let c := resumeMatrix s c
          if (!(s.group c.gi).resident && !c.asked) || c.stop != .running || (c.paired && !granted s (core + 1) 0 ctx) || heldBack s core ctx c then s
          else serveMatrix (setHead s core half ctx c) ctx ⟨core, half, c.paired, splitMode s core⟩ c)

/-- R264, R379, R380, R382: an array or half is granted to the context that its class serves first among the ready ones, the holder
apart; a holder's command in progress first comes to a granule its GRAN permits. -/
def execMatrixGrantSwitch (core half ctx : Nat) (s : State) : Out :=
  let place := halfKey core half
  let holder := s.en.grants.find place
  let ready := (matrixReady s core half).filter (fun c => holder != some c)
  let atRest := match holder with
    | none => true
    | some c =>
      ((mqueue s core half c).cmds.take 1 ++ (if core % 2 = 1 then ((mqueue s (core - 1) 0 c).cmds.take 1).filter (·.paired) else [])).all
        (fun x => x.done = 0 || x.stop != .running || atBoundary x.gran x.done)
  let there := decide (half = 0) || splitMode s core
  .next (if there && decide (core < 384) && atRest && firstServed s 2 place ready = some ctx then
      s.updEN (fun e => { e with grants := NMap.insert e.grants place ctx })
    else s)

end Sys2Proof.Machine
end

