-- ==== Sys2Proof/Machine/SysWords.lean ====
section
/-!
DEFINITION. SYSWR, PGREPLY and TLBI (R110 to R113, R392 to R397): selectors, targets, answers and resolutions.
-/
namespace Sys2Proof.Machine

/-! ### Selectors (R393, R394) -/

/-- The column "Target" of R393. -/
inductive SelView where
  | tenant | steward | root | port
deriving DecidableEq, Repr

def selView (sel : Nat) : SelView :=
  if 0x28 ≤ sel then .port
  else if 0x20 ≤ sel then .root
  else if sel = 0 ∨ (0x07 ≤ sel ∧ sel ≤ 0x0B) ∨ (0x14 ≤ sel ∧ sel ≤ 0x19) ∨ sel = 0x1B then .tenant
  else .steward

/-- R393, R394: a selector accepts a target value of an issuer. -/
def selTarget (s : State) (issuer sel t : Nat) : Bool :=
  match selView sel with
  | .port => issuer = 0 && decide (t < 4096)
  | .root => issuer = 0 && t = 0 && s.liveCtx 0
  | .tenant => decide (t < 4096) && s.liveCtx t && isAncestor s issuer t
  | .steward => decide (t < 4096) && s.liveCtx t && isAncestor s issuer t &&
      (t != issuer || issuer = 0 || ((sel = 0x01 || sel = 0x02) && (s.ctx t).world != 0))

/-- A protected descendant in another world (R394, R429). -/
def otherWorld (s : State) (issuer t : Nat) : Bool :=
  t != issuer && (s.ctx t).world != 0 && (s.ctx t).world != (s.ctx issuer).world

/-- R394: the selectors that act on a target. -/
def selVisible (s : State) (issuer sel t : Nat) : Bool :=
  match selView sel with
  | .port | .root => true
  | .tenant | .steward => !otherWorld s issuer t ||
      ((0x03 ≤ sel && sel ≤ 0x06) || (0x14 ≤ sel && sel ≤ 0x19) || sel = 0x1A || sel = 0x1B)

def tenantOf (s : State) (i : Nat) : Tenant := NMap.get {} s.pt.tenants i
def setTenant (s : State) (i : Nat) (f : Tenant → Tenant) : State :=
  s.updPT (fun p => { p with tenants := NMap.set {} p.tenants i (f (NMap.get {} p.tenants i)) })

/-- The value of a selector's field (R393). -/
def selRead (s : State) (sel t : Nat) : Nat :=
  let c := s.ctx t
  let p := tenantOf s t
  match sel with
  | 0x00 => if c.stat then 1 else 0
  | 0x01 => if c.brk then 1 else 0
  | 0x02 => c.xroot
  | 0x03 => c.prq.base
  | 0x04 => c.prq.size
  | 0x05 => c.prq.head
  | 0x06 => c.prq.arrive
  | 0x07 => c.fq.base
  | 0x08 => c.fq.size
  | 0x09 => c.fq.head
  | 0x0A => c.fq.arrive
  | 0x0B => c.fq.lost
  | 0x0C => c.acntCtl
  | 0x0D => c.acntThresh
  | 0x0E => c.nq.base
  | 0x0F => c.nq.size
  | 0x10 => c.nq.head
  | 0x11 => c.nq.arrive
  | 0x12 => c.nq.lost
  | 0x13 => c.uncounted
  | 0x14 => c.guar
  | 0x15 => c.burst
  | 0x16 => c.used
  | 0x17 => c.shareV
  | 0x18 => c.shareC
  | 0x19 => c.shareM
  | 0x1B => c.shareL
  | 0x20 => s.pt.migCtl
  | 0x21 => s.pt.migEpoch
  | 0x22 => s.pt.migFreeLow
  | 0x23 => s.pt.migFreeHigh
  | 0x24 => s.pt.migQDepth
  | 0x25 => s.pt.migBatch
  | 0x26 => s.xl.pool.length
  | 0x28 => if p.v then 1 else 0
  | 0x29 => p.src
  | 0x2A => p.qp
  | 0x2B => p.ctx
  | 0x2C => p.qmask
  | 0x2F => p.imm
  | _ => 0

/-- R106, R130, R390: the nearest lower legal size of a ring. -/
def legalSize (least v : Nat) : Nat := if v < least then 0 else if 65536 < v then 65536 else 2 ^ Nat.log2 v

/-- A ring's BASE, SIZE or HEAD is written: waiting records are tried again (R478). -/
def ringSet (s : State) (t : Nat) (sel : RingSel) (f : Ring → Ring) : State :=
  s.updCtx t (fun c => c.setRing sel { f (c.ring sel) with stuck := false })

/-- A port entry other than its V is written: V clears (R394). -/
def portSet (s : State) (i : Nat) (f : Tenant → Tenant) : State :=
  setTenant s i (fun p => { f p with v := false, standsOpen := false })

/-- Write a selector's field (R393): FAULT.RESOLVE and PT.CTL apart. R133 gives MIG.BATCH a range and a fate only for 0: a value above
4,096 is stored as written (DESIGN CHOICE, log entry 27). -/
def selWrite (s : State) (sel t v : Nat) : State :=
  match sel with
  | 0x00 => s.updCtx t (fun c => { c with stat := c.stat && v.testBit 0 })
  | 0x01 => s.updCtx t (fun c => { c with brk := v.testBit 0 })
  | 0x02 => s.updCtx t (fun c => { c with xroot := v % 2 + v / 2 ^ 16 % 2 ^ 32 * 2 ^ 16 })
  | 0x03 => ringSet s t .prq (fun r => { r with base := v / 64 * 64 })
  | 0x04 => ringSet s t .prq (fun r => { r with size := legalSize 64 v })
  | 0x05 => ringSet s t .prq (fun r => { r with head := v })
  | 0x06 => s.updCtx t (fun c => { c with prq := { c.prq with arrive := v / 8 * 8 } })
  | 0x07 => ringSet s t .fq (fun r => { r with base := v / 64 * 64 })
  | 0x08 => ringSet s t .fq (fun r => { r with size := legalSize 64 v })
  | 0x09 => ringSet s t .fq (fun r => { r with head := v })
  | 0x0A => s.updCtx t (fun c => { c with fq := { c.fq with arrive := v / 8 * 8 } })
  | 0x0C => if v / 4 ≠ 0 then s else s.updCtx t (fun c => { c with acntCtl := v })
  | 0x0D => s.updCtx t (fun c => { c with acntThresh := v % 2 ^ 16 })
  | 0x0E => ringSet s t .nq (fun r => { r with base := v % 2 ^ 55 / 32 * 32 })
  | 0x0F => ringSet s t .nq (fun r => { r with size := legalSize 16 v })
  | 0x10 => headMoved (ringSet s t .nq (fun r => { r with head := v })) t
  | 0x11 => s.updCtx t (fun c => { c with nq := { c.nq with arrive := v % 2 ^ 55 / 8 * 8 } })
  | 0x20 => if v / 4 ≠ 0 then s else s.updPT (fun p => { p with migCtl := v })
  | 0x21 => s.updPT (fun p => { p with migEpoch := min (max v 10) 100000 })
  | 0x22 => s.updPT (fun p => { p with migFreeLow := v })
  | 0x23 => s.updPT (fun p => { p with migFreeHigh := v })
  | 0x24 => s.updPT (fun p => { p with migQDepth := v })
  | 0x25 => s.updPT (fun p => { p with migBatch := max v 1 })
  | 0x29 => portSet s t (fun p => { p with src := v % 2 ^ 48 })
  | 0x2A => portSet s t (fun p => { p with qp := v % 2 ^ 24 })
  | 0x2B => portSet s t (fun p => { p with ctx := v % 2 ^ 12 })
  | 0x2C => portSet s t (fun p => { p with qmask := v })
  | 0x2D => portSet s t (fun p => { p with keyLo := v })
  | 0x2E => portSet s t (fun p => { p with keyHi := v })
  | 0x2F => portSet s t (fun p => { p with imm := v / 8 * 8 })
  | _ => s

/-! ### FAULT.RESOLVE (R395) -/

/-- R395: name a stop and an action. Answers the status. -/
def resolveFid (s : State) (t v : Nat) : Nat × State :=
  if v / 2 ^ 34 ≠ 0 ∨ v / 2 ^ 32 % 4 = 3 then (3, s)
  else
    match s.wk.stops.find? (fun x => x.2.ctx = t && x.2.fid = some (v % 2 ^ 32)) with
    | none => (1, s)
    | some x =>
      let r : Resolution := match v / 2 ^ 32 % 4 with | 0 => .retry | 1 => .skip | _ => .finish
      if (s.group x.2.gi).resident then (0, resolveStop s x.1 r)
      else
        (2, s.updWK (fun k => { k with stops := k.stops.upd x.1 (fun y => { y with held := some (y.held.getD r) }) }))

/-- R394: PT.CTL is written; V = 1 asks for a live PT.CTX. -/
def portCtl (s : State) (i v : Nat) : Option State :=
  if v % 2 = 0 then some (setTenant s i (fun p => { p with v := false }))
  else if s.liveCtx (tenantOf s i).ctx then some (setTenant s i (fun p => { p with v := true, lastSeq := 0 }))
  else none

/-- One lane of SYSWR (R392 to R395): its target, its value where it writes. -/
def syswrLane (s : State) (sel t : Nat) (v : Option Nat) : LaneOut :=
  let issuer := ctxOf s s.curWarp
  if !selTarget s issuer sel t then .bad 0x38 none s
  else if !selVisible s issuer sel t then .ok 0 s
  else
    match v with
    | none => .ok (selRead s sel t) s
    | some v =>
      if sel = 0x1A then let (st, s) := resolveFid s t v; .ok st s
      else if sel = 0x28 then
        match portCtl s t v with
        | some s' => .ok (selRead s sel t) s'
        | none => .bad 0x39 none (setTenant s t (fun p => { p with v := false }))
      else .ok (selRead s sel t) (selWrite s sel t v)

/-- SYSWR as a write (R392, R394). -/
def syswrWord (s : State) (h : Hdr) (d tgt : Reg) (val : Option Reg) (sel : Nat) : State :=
  withRelease s (fun s =>
    serialWord s h 0xE0 d (selRegs (BitVec.ofNat 8 sel)) (fun s pl e =>
      syswrLane s sel (srcVal s tgt 1 pl e) (val.map (fun r => srcVal s r (selRegs (BitVec.ofNat 8 sel)) pl e))))

/-- R392 to R394. -/
def execSyswrWrite (h : Hdr) (d tgt val : Reg) (sel : BitVec 8) (s : State) : Out := .next (syswrWord s h d tgt (some val) sel.toNat)
/-- R392 to R394. -/
def execSyswrRead (h : Hdr) (d tgt : Reg) (sel : BitVec 8) (s : State) : Out := .next (syswrWord s h d tgt none sel.toNat)
/-- R395. -/
def execFaultResolve (h : Hdr) (d tgt val : Reg) (s : State) : Out := .next (syswrWord s h d tgt (some val) 0x1A)
/-- R200, R393. -/
def execCtxStat (h : Hdr) (d tgt val : Reg) (s : State) : Out := .next (syswrWord s h d tgt (some val) 0x00)
/-- R106, R393. -/
def execCtxPrqHead (h : Hdr) (d tgt val : Reg) (s : State) : Out := .next (syswrWord s h d tgt (some val) 0x05)
/-- R390, R393. -/
def execCtxFqHead (h : Hdr) (d tgt val : Reg) (s : State) : Out := .next (syswrWord s h d tgt (some val) 0x09)
/-- R130, R131, R393. -/
def execCtxNqHead (h : Hdr) (d tgt val : Reg) (s : State) : Out := .next (syswrWord s h d tgt (some val) 0x10)
/-- R376, R393, R394. -/
def execPtCtl (h : Hdr) (d tgt val : Reg) (s : State) : Out := .next (syswrWord s h d tgt (some val) 0x28)
/-- R376, R393, R394. -/
def execPtEntryWrite (h : Hdr) (d tgt val : Reg) (sel : BitVec 8) (s : State) : Out :=
  .next (syswrWord s h d tgt (some val) sel.toNat)

/-! ### Answers to page requests (R105, R108, R397) -/

/-- Warps whose lanes wait for a page request. -/
def waitersOf (s : State) (id : Nat) : List (Nat × Warp) :=
  s.wk.warps.filter (fun c => match c.2.park with | .page l => l.contains id | _ => false)

/-- The lanes of a parked warp that await something at addresses take a fault there; lanes held behind them go on (R397). -/
def faultWaiting (s : State) (wid code : Nat) : State :=
  let w := s.warp wid
  let fs := (activeLanes w).filterMap (fun q => (w.eas.find q.1).map (fun a => (⟨q.1, q.2, code, some a, 0⟩ : LaneFault)))
  let s := s.updWarp wid (fun w => { w with park := .none, eas := [] })
  dropStopped (takeFaults s wid w.curOp 0 fs true) wid

/-- Copy, XBULK and MXST commands that a request stopped end at a fault; so do FIN actions (R109, R180, R397). -/
def faultCmds (s : State) (id code : Nat) : State :=
  s.en.cmds.foldl (fun s c =>
    match c.2.stop with
    | .request l a => if l.contains id then failCmd s c.1 code (some a) else s
    | .finWait l =>
      if l.contains id then failFin s c.1 code (match c.2.fin with | .add a => some a | .flip _ hdr _ => some hdr | .none => none) else s
    | .running | .waits _ | .recall .. | .preempted => s) s

/-- Matrix commands that a request stopped end at a fault (R109, R271, R397). -/
def faultMatrix (s : State) (hit : CmdStop → Option Nat) (code : Nat) : State :=
  s.en.mqueues.foldl (fun s q =>
    match q.2.cmds with
    | [] => s
    | c :: _ =>
      match hit c.stop with
      | some a => failMatrix s (q.1 / 8192) (q.1 / 4096 % 2) (q.1 % 4096) c code a
      | none => s) s

/-- Writes of the part that a request held fail as at the owner's own stage (R478). -/
def faultPart (s : State) (id code : Nat) : State :=
  let s := s.cx.ctxs.foldl (fun s c =>
    [RingSel.prq, .fq, .nq].foldl (fun s sel =>
      let r := (s.ctx c.1).ring sel
      if r.reqs.contains id then
        reportWrite (s.updCtx c.1 (fun x => x.setRing sel { r with stuck := true, reqs := [] })) (ringOwner s c.1 sel) code
          (r.base + r.seq % r.size * recBytes sel)
      else s) s) s
  let s := s.updPT (fun p => { p with
    queues := p.queues.map (fun q => (q.1, { q.2 with recs := q.2.recs.map (fun r =>
      if r.reqs.contains id then { r with reqs := [], deny := true } else r) }))
    grids := p.grids.map (fun g => if g.2.reqs.contains id then (g.1, { g.2 with reqs := [], deny := true }) else g)
    exps := p.exps.map (fun x => if x.2.reqs.contains id then (x.1, { x.2 with reqs := [], deny := true }) else x) })
  let s := s.updCX (fun c => { c with
    opers := c.opers.map (fun o => if o.2.reqs.contains id then (o.1, { o.2 with reqs := [], deny := true }) else o)
    receipts := c.receipts.map (fun r => if r.2.reqs.contains id then (r.1, { r.2 with reqs := [], deny := true }) else r) })
  let l := s.cx.adds
  let s := s.updCX (fun c => { c with adds := l.filter (fun a => !a.2.2.2.contains id) })
  (l.filter (fun a => a.2.2.2.contains id)).foldl (fun s a => reportWrite s a.1 code a.2.1) s

/-- R397: an answer acts, and the table entry frees. Lanes and commands that wait for the entry go on once it is gone; with UNMAPPED
or PERM they take that fault. -/
def answerReq (s : State) (id ans : Nat) : State :=
  let ws := waitersOf s id
  let s := s.updXL (fun x => { x with reqs := x.reqs.erase id })
  if ans = 0 then s
  else
    let code := if ans = 1 then 0x12 else 0x13
    let s := ws.foldl (fun s w => faultWaiting s w.1 code) s
    let s := faultCmds s id code
    let s := faultMatrix s (fun c => match c with | .request l a => if l.contains id then some a else none | _ => none) code
    faultPart s id code

/-- Lanes of a group that is on no core wait for the request (R108). A reply to a request of several groups is held whole until all of
them are on a core (DESIGN CHOICE, log entry 25). -/
def awayFor (s : State) (id : Nat) : Bool := (waitersOf s id).any (fun w => !(s.group w.2.gi).resident)

/-- R108, R400: held answers and resolutions of groups that are on a core again act. -/
def actHeld (s : State) : State :=
  let s := s.xl.reqs.foldl (fun s r =>
    match r.2.held with
    | some a => if awayFor s r.1 then s else answerReq s r.1 a
    | none => s) s
  s.wk.stops.foldl (fun s t =>
    match t.2.held with
    | some r => if (s.group t.2.gi).resident then resolveStop s t.1 r else s
    | none => s) s

/-- One lane of PGREPLY (R397). -/
def replyLane (s : State) (reqid ans : Nat) : LaneOut :=
  match s.xl.reqs.find? (fun r => r.2.gen * 2 ^ 24 + r.2.die * 2 ^ 23 + r.2.slot = reqid) with
  | none => if ans % 4 = 3 ∨ ans / 4 ≠ 0 then .ok 3 s else .ok 1 s
  | some r =>
    let owner := ((ctxChain s 3 r.2.ctx).find? (fun c => c.2.level = r.2.fail.stage)).map (·.1)
    if owner ≠ some (ctxOf s s.curWarp) then .bad 0x38 none s
    else if ans % 4 = 3 ∨ ans / 4 ≠ 0 then .ok 3 s
    else if awayFor s r.1 then
      .ok 2 (s.updXL (fun x => { x with reqs := x.reqs.upd r.1 (fun y => { y with held := some (y.held.getD ans) }) }))
    else .ok 0 (answerReq s r.1 ans)

/-- R396, R397. -/
def execPgreply (h : Hdr) (d req ans : Reg) (s : State) : Out :=
  .next (withRelease s (fun s =>
    serialWord s h 0xE3 d 1 (fun s pl e => replyLane s (srcVal s req 1 pl e) (srcVal s ans 1 pl e))))

/-! ### TLBI (R110 to R112) -/

/-- Drop translations of a target's stage over addresses (R112), and keep what has been dropped for the wait. -/
def shootDown (s : State) (t lo hi : Nat) (all : Bool) : State :=
  let s' := dropXl s t lo hi all
  let gone := s.xl.tlb.filter (fun e => !s'.xl.tlb.contains e)
  s'.updWarp s.md.cur (fun w => { w with shot := (w.shot ++ gone.map (fun (e : TlbEnt) => (e.ctx, e.page, e.xl.pa / 2 ^ 16, e.xl.size))).eraseDups })

/-- One lane of TLBI (R111): `range` is its address and the number of pages; none for `.ctx`. -/
def tlbiLane (s : State) (t : Nat) (range : Option (Nat × Nat)) : LaneOut :=
  let issuer := ctxOf s s.curWarp
  if 4096 ≤ t ∨ !s.liveCtx t ∨ !isAncestor s issuer t then .bad 0x38 none s
  else if otherWorld s issuer t then .bad 0x1B none s
  else
    match range with
    | none => .ok 0 (shootDown s t 0 0 true)
    | some (a, n) =>
      if 2 ^ 55 ≤ a then .bad 0x10 (some a) s
      else if n = 0 then .ok 0 s
      else if 65536 < n then .ok 0 (shootDown s t 0 0 true)
      else .ok 0 (shootDown s t (a / 2 ^ 16 * 2 ^ 16) (a / 2 ^ 16 * 2 ^ 16 + n * 2 ^ 16) false)

/-- An address lies in a frame of a dropped translation. -/
def shotAt (l : List (Nat × Nat × Nat × Nat)) (pa : Nat) : Bool := l.any (fun d => samePage d.2.2.2 d.2.2.1 (pa / 2 ^ 16))

/-- Stores in FIFOs that used a dropped translation (R112). -/
def shotStores (s : State) (l : List (Nat × Nat × Nat × Nat)) : List Nat :=
  s.rg.hwarps.flatMap (fun h => (h.2.fifo.filter (fun e => e.writes.any (fun x =>
    match x.dest with
    | .mem ctx page => l.any (fun d => d.1 = ctx && samePage d.2.2.2 d.2.1 page)
    | .spad | .tx _ => false))).map (·.id))

/-- Requests at service warps in frames of dropped translations. -/
def shotRequests (s : State) (l : List (Nat × Nat × Nat × Nat)) : List Nat :=
  (s.mm.svc.filter (fun r => r.2.kind != .gsync && !r.2.waiting && shotAt l r.2.pa)).map (·.1)

/-- Lines that pending loads have still to read, in frames of dropped translations (R112, R122). -/
def shotLoads (s : State) (l : List (Nat × Nat × Nat × Nat)) : List Nat :=
  (s.wk.results.flatMap (fun r => if r.2.known then [] else r.2.lanes.filterMap (fun x =>
    match x.src with
    | .mem _ pa _ => if shotAt l pa then some (pa / 128) else none
    | .fixed | .spad .. => none))).eraseDups

/-- Loads of dropped translations have their values: no later write of the frames can change them (R64, R112). -/
def shotFix (s : State) (l : List (Nat × Nat × Nat × Nat)) : State :=
  let fix := fun (x : ResLane) =>
    match x.src with
    | .mem _ pa _ => if shotAt l pa then { x with src := .fixed } else x
    | .fixed | .spad .. => x
  s.updWK (fun k => { k with results := k.results.map (fun r => (r.1, { r.2 with lanes := r.2.lanes.map fix })) })

/-- R112: wait until every access that used a dropped translation is performed at device scope, then `k`: loads that wait for an engine's
claim read, stores leave their FIFOs in phase 2, dirty words of the frames are registered and requests performed in phase 3. Translations
that a parked warp's word has kept are dropped with the others (`dropXl`): its lanes translate again. -/
def shotThen (s : State) (k : State → State) : State :=
  let w := s.curWarp
  let phase := fun (s : State) (n : Nat) => s.updWarp s.md.cur (fun w => { w with phase := n })
  if w.shot = [] ∨ w.phase = 3 then k s
  else
    let loads := shotLoads s w.shot
    let ids := if w.phase = 2 then [] else shotStores s w.shot
    if loads ≠ [] then parkHere s (.held loads)
    else if ids ≠ [] then parkHere (phase s 2) (.stores ids)
    else
      let s := shotFix s w.shot
      let lines := (s.mm.l1.filter (fun c => shotAt w.shot (c.1 % 2 ^ 41 * 128))).map (·.1)
      let (items, s) := lines.foldl (fun (acc : List Nat × State) k =>
        let (ids, s) := sendLine acc.2 (k / 2 ^ 41) (k % 2 ^ 41) none none
        (acc.1 ++ ids, s)) (shotRequests s w.shot, s)
      if items = [] then k s else parkHere (phase s 3) (.items items)

/-- The end of TLBI. -/
def shotWait (s : State) (h : Hdr) : State :=
  shotThen s (fun s => finish (commitLanes s s.md.cur (takingLanes s s.curWarp h)) h.b h.w)

/-- TLBI (R111, R112): a release, then each active lane acts. -/
def tlbiWord (s : State) (h : Hdr) (tgt : Reg) (range : State → Nat → LaneEnt → Option (Nat × Nat)) : State :=
  withRelease s (fun s =>
    eachLane 0xE1 (fun s pl e => tlbiLane s (srcVal s tgt 1 pl e) (range s pl e)) (fun s => shotWait s h)
      (sortLanes (takingLanes s s.curWarp h)) s)

/-- R110 to R112. -/
def execTlbiCtx (h : Hdr) (tgt : Reg) (s : State) : Out := .next (tlbiWord s h tgt (fun _ _ _ => none))
/-- R110 to R112. -/
def execTlbiPage (h : Hdr) (addr tgt : Reg) (s : State) : Out :=
  .next (tlbiWord s h tgt (fun s pl e => some (srcVal s addr 2 pl e, 1)))
/-- R110 to R112. -/
def execTlbiRange (h : Hdr) (addr tgt count : Reg) (s : State) : Out :=
  .next (tlbiWord s h tgt (fun s pl e => some (srcVal s addr 2 pl e, srcVal s count 1 pl e)))

end Sys2Proof.Machine
end

