-- ==== Sys2Proof/Machine/Launch.lean ====
section
/-!
DEFINITION. From launch record to grid (R84 to R89, R372 to R378, R435, R436, R453): queues, the checks of a record, acceptance,
refusal, LAUNCH, launch frames, the extensions of measurement chains.
-/
namespace Sys2Proof.Machine

/-! ### Queues (R372 to R375) -/

/-- A part queue has been handed to a child (R406). -/
def handedDown (s : State) (ctx q : Nat) : Bool :=
  (children s ctx).any (fun c => let g := (s.ctx c).grant; decide (g.qBase ≤ q) && decide (q < g.qBase + g.qCount))

/-- R372: the part queue that a local number names. -/
def localQueue (s : State) (ctx q : Nat) : Option Nat :=
  let g := (s.ctx ctx).grant
  if 64 ≤ q ∨ g.qCount ≤ q ∨ handedDown s ctx (g.qBase + q) then none else some (g.qBase + q)

def queueOf (s : State) (q : Nat) : LQueue := NMap.get {} s.pt.queues q
def setQueue (s : State) (q : Nat) (f : LQueue → LQueue) : State :=
  s.updPT (fun p => { p with queues := NMap.set {} p.queues q (f (NMap.get {} p.queues q)) })

/-- R453: a reply to a frame, with its tag; an entry that stands open has a tag of zeros (R458). -/
def sendReply (s : State) (entry code status seq : Nat) (payload : List Byte) : State :=
  let t := tenantOf s entry
  let msg := bytesOfNat 4 0x52504348 ++ bytesOfNat 1 code ++ bytesOfNat 1 status ++ bytesOfNat 8 seq ++ payload
  let tag := if t.standsOpen then List.replicate 16 0
    else Config.gmac (t.keyLo + t.keyHi * 2 ^ 64) (bytesOfNat 8 seq ++ bytesOfNat 4 0xFFFFFFFF) msg
  s.updPT (fun p => { p with out := p.out ++ [.reply t.qp code status seq payload tag] })

/-- R375, R453: the reply to a refused record of a frame. Its STATUS is open (FREE VALUE, log entry 5). -/
def replyRefused (s : State) (frame : Option (Nat × Nat × Nat)) (reason : Nat) : State :=
  match frame with
  | none => s
  | some (entry, seq, i) =>
    let (st, s) := s.openField 8
    sendReply s entry 0 st seq (bytesOfNat 1 i ++ bytesOfNat 1 reason)

/-- R374, R375: count a refusal of a queue. -/
def countRefused (s : State) (q reason : Nat) : State :=
  setQueue s q (fun l => { l with refused := min (l.refused + 1) (2 ^ 32 - 1), last := reason })

/-- R373: a record that is not yet accepted leaves its queue, refused. -/
def refuseRec (s : State) (q i reason : Nat) : State :=
  let r := (queueOf s q).recs.getD i {}
  let s := setQueue s q (fun l => { l with recs := l.recs.eraseIdx i })
  replyRefused (countRefused s q reason) r.frame reason

/-- R373 stage 1: a record enters a queue. -/
def enterQueue (s : State) (q : Nat) (r : QRec) : State := setQueue s q (fun l => { l with recs := l.recs ++ [r] })

/-! ### Reads of the part (R88, R89) -/

/-- How a read of the part comes out: its bytes, a wait, or a failure. -/
inductive SpanRes where
  | ok (l : List Byte)
  | wait (reqs : List Nat)
  | bad
deriving DecidableEq, Repr

/-- A read of the part as a load of a context (R88, R89, R117, R155): one page after another. A page request that it posts names core 0,
its die and KIND 0, which no rule gives it; `deny` says that the request it awaited was answered with UNMAPPED or PERM: it reads again, and
fails if an ancestor's stage still does (DESIGN CHOICE, log entry 23). -/
def readPages : Nat → State → Nat → Nat → Nat → Bool → List Byte → SpanRes × State
  | 0, s, _, _, _, _, acc => (.ok acc, s)
  | fuel + 1, s, ctx, va, n, deny, acc =>
    if n = 0 then (.ok acc, s)
    else if 2 ^ 55 ≤ va then (.bad, s)
    else
      match xlateNow s 0 ctx va .read with
      | (.ok t, s) =>
        let k := min n (2 ^ 16 - va % 2 ^ 16)
        if !(t.ty = .page || t.ty = .rxWin) || (List.range ((t.pa % 64 + k + 63) / 64)).any (fun i => llcPoisoned s (t.pa / 64 * 64 + 64 * i)) then
          (.bad, s)
        else if (linesOf t.pa k).any (held s) then (.wait [], s)
        else
          let s := (linesOf t.pa k).foldl (fun s l => llcEnsure (countReq s ctx (va / 2 ^ 16) 0 false) l) s
          readPages fuel s ctx (va + k) (n - k) deny (acc ++ memBytes s t.pa k)
      | (.busy, s) => (.wait [], s)
      | (.far leaf rec, s) => (.wait [], (startRecall s ctx leaf rec).2)
      | (.fail f, s) =>
        if ownFailure s ctx f ∨ deny then (.bad, s)
        else
          let (r, s) := engineReq s ctx 0 va .read f
          (.wait r.toList, s)

def readSpan (s : State) (ctx va n : Nat) (deny : Bool) : SpanRes × State := readPages (n / 65536 + 2) s ctx va n deny []

/-! ### Code objects and records (R84 to R88) -/

/-- A field of bytes, little-endian. -/
def fieldOf (b : List Byte) (o n : Nat) : Nat := natOfBytes ((b.drop o).take n)

/-- Ranges that do not overlap. -/
def disjointAll : List (Nat × Nat) → Bool
  | [] => true
  | a :: l => l.all (fun b => decide (a.1 + a.2 ≤ b.1) || decide (b.1 + b.2 ≤ a.1)) && disjointAll l

/-- R84: the header of a code object. -/
def objHeaderOk (h : List Byte) : Bool :=
  let f := fieldOf h
  let ob := f 0x08 4
  let parts := [(0, 64), (f 0x0C 4, 32 * f 0x06 2), (f 0x10 4, f 0x14 4), (f 0x18 4, f 0x1C 4), (f 0x20 4, f 0x24 4)]
  f 0x00 4 = 0x4B414E4F && f 0x04 2 = 1 && decide (1 ≤ f 0x06 2) && decide (f 0x06 2 ≤ 256) && ob != 0 && ob % 64 = 0 &&
  f 0x0C 4 % 32 = 0 && f 0x10 4 % 8 = 0 && f 0x14 4 % 8 = 0 && f 0x18 4 % 64 = 0 && decide (f 0x1C 4 ≤ 65536) && f 0x20 4 % 64 = 0 &&
  (List.range 24).all (fun i => f (0x28 + i) 1 = 0) && parts.all (fun p => decide (p.1 + p.2 ≤ ob)) &&
  disjointAll (parts.filter (fun p => p.2 != 0))

/-- R85: the entry of a kernel that a launch names, and the sum of the kernels' lengths. -/
def kernelOk (h tab : List Byte) (i : Nat) : Bool :=
  let f := fun (o n : Nat) => fieldOf tab (32 * i + o) n
  let len := fun (j : Nat) => fieldOf tab (32 * j + 4) 4
  let start := ((List.range i).map len).sum
  f 0 4 % 8 = 0 && decide (start ≤ f 0 4) && decide (f 0 4 + 8 ≤ start + len i) && len i % 8 = 0 && decide (8 ≤ len i) &&
  decide (((List.range (fieldOf h 0x06 2)).map len).sum ≤ fieldOf h 0x14 4) &&
  decide (8 ≤ f 8 1) && decide (f 8 1 ≤ 192) && f 8 1 % 8 = 0 && decide (f 9 1 < 8) && decide (f 10 1 < 16) && f 11 1 = 0 &&
  f 12 4 % 128 = 0 && decide (f 12 4 ≤ 524288)

/-- Roles of the groups of a span, by nibble (R87). -/
def roleNibble (b : List Byte) (i : Nat) : Nat := fieldOf b 0x20 4 / 16 ^ i % 16

/-- R87, R88: the first failing reason of a record's own fields against its kernel's entry, 0 for none. -/
def recordReason (s : State) (ctx : Nat) (b tab : List Byte) : Nat :=
  let f := fieldOf b
  let k := fun (o n : Nat) => fieldOf tab (32 * f 0x08 2 + o) n
  let c := s.ctx ctx
  let groups := f 0x10 4 * f 0x14 2 * f 0x16 2
  let span := f 0x1A 1
  let regs := f 0x1B 1
  let scr := f 0x1C 4
  let roles := f 0x20 4
  let hcount := f 0x34 1
  let badRoles := if span = 1 then roles != 0
    else (List.range span).any (fun i => let r := roleNibble b i; r = 0 || (r &&& k 9 1) != k 9 1) || roles / 16 ^ span != 0
  let checks : List (Bool × Nat) := [
    (f 0x0A 2 / 2 != 0 || (f 0x0A 2 % 2 = 1 && !c.grant.steward), 2),
    (groups = 0, 3),
    (f 0x18 2 = 0 || decide (1024 < f 0x18 2), 3),
    (span = 0 || decide (8 < span) || groups % max span 1 != 0, 3),
    (regs != 0 && (decide (regs < 8) || decide (192 < regs) || regs % 8 != 0 || decide (regs < k 8 1)), 3),
    (scr != 0 && (scr % 128 != 0 || decide (524288 < scr) || decide (scr < k 12 4)), 3),
    ((List.range 8).any (fun i => decide (8 ≤ roleNibble b i)), 4)] ++ [
    (f 0x24 1 != c.world || decide (3 < f 0x25 1) || f 0x26 2 != 0, 2),
    (f 0x28 8 % 8 != 0 || (f 0x30 4 = 0 && f 0x28 8 != 0) || decide (65536 < f 0x30 4), 3),
    (decide (3 < hcount) || f 0x35 3 != 0, 2),
    (f 0x38 8 % 8 != 0, 3),
    ((List.range 3).any (fun i => decide (hcount ≤ i) && f (0x40 + 16 * i) 16 != 0) || f 0x70 16 != 0, 2),
    (badRoles, 4),
    (decide (4096 < (f 0x18 2 + 31) / 32 * (if regs = 0 then k 8 1 else regs)), 3),
    (decide (2 ^ 32 < groups), 3)]
  ((checks.find? (·.1)).map (·.2)).getD 0

/-- The grid of an accepted record (R87, R89, R90). -/
def gridOf (b h tab : List Byte) (s : State) (ctx q lq number : Nat) : Grid :=
  let f := fieldOf b
  let k := fun (o n : Nat) => fieldOf tab (32 * f 0x08 2 + o) n
  let code := f 0x00 8
  { ctx := ctx, queue := q, localQ := lq, number := number, code := code, entry := code + fieldOf h 0x10 4 + k 0 4,
    text := code + fieldOf h 0x10 4, textEnd := code + fieldOf h 0x10 4 + fieldOf h 0x14 4, const := code + fieldOf h 0x18 4,
    constBytes := fieldOf h 0x1C 4, data := code + fieldOf h 0x20 4, steward := f 0x0A 2 % 2 = 1,
    lseed := BitVec.ofNat 32 (f 0x0C 4), gx := f 0x10 4, gy := f 0x14 2, gz := f 0x16 2, gsize := f 0x18 2, span := f 0x1A 1,
    regs := if f 0x1B 1 = 0 then k 8 1 else f 0x1B 1, scratch := if f 0x1C 4 = 0 then k 12 4 else f 0x1C 4,
    roles := f 0x20 4, prio := k 10 1, world := (s.ctx ctx).world, cls := f 0x25 1, args := f 0x28 8, argBytes := f 0x30 4,
    hbufs := (List.range (f 0x34 1)).map (fun i => (f (0x40 + 16 * i) 8, f (0x48 + 16 * i) 8)), done := f 0x38 8 }

/-- Put an extension in line at the command processor (R436). Answers its identity. -/
def putExt (s : State) (ctx tag len : Nat) (digest : List Byte) : Nat × State :=
  let (id, s) := s.fresh
  (id, s.updCtx ctx (fun c => { c with extQ := c.extQ ++ [{ id := id, tag := tag, len := len, digest := digest }] }))

/-- Extend with the bytes of an object (R435, R436). -/
def putObj (s : State) (ctx tag : Nat) (l : List Byte) : Nat × State := putExt s ctx tag l.length (objDigest l)

/-- R143: cores drop their cached lines of a code object. -/
def dropCode (s : State) (obj : Nat) : State :=
  s.updMM (fun m => { m with icache := m.icache.filter (fun l => l.2.obj != obj), ccache := m.ccache.filter (fun l => l.2.obj != obj) })

/-- R3, R403: a context that is frozen by its own flag or an ancestor's. -/
def isFrozen (s : State) (ctx : Nat) : Bool := (ctxChain s 3 ctx).any (fun c => c.2.frozen)
/-- A context that is being reset or revoked, itself or an ancestor (R403). -/
def isResetting (s : State) (ctx : Nat) : Bool := (ctxChain s 3 ctx).any (fun c => c.2.resetting)

/-- R373 stage 3, R89: accept the record that stands at index `i` of a queue. -/
def acceptRec (s : State) (q i : Nat) (r : QRec) (h tab obj args : List Byte) : State :=
  let (e1, s) := putObj s r.ctx 0x04 r.bytes
  let (e2, s) := putObj s r.ctx 0x01 obj
  let (e3, s) := if args = [] then ([], s) else let (e, s) := putObj s r.ctx 0x02 args; ([e], s)
  let number := ((queueOf s q).accepted + 1) % 2 ^ 32
  let (gid, s) := s.fresh
  let g := { gridOf r.bytes h tab s r.ctx q r.localQ (number % 2 ^ 26) with exts := [e1, e2] ++ e3 }
  let s := s.updPT (fun p => { p with grids := NMap.insert p.grids gid g })
  let s := setQueue s q (fun l => { l with
    accepted := number, recs := l.recs.set i { r with grid := some gid, reqs := [], deny := false } })
  let s := s.updCtx r.ctx (fun c => { c with trigCount := c.trigCount.map (fun t => { t with left := t.left - 1 }) })
  dropCode s (r.ctx * 2 ^ 56 + g.code)

/-- What one of the reads at acceptance gives: bytes for `k`, else the record waits or is refused (R88). -/
def acceptRead (s : State) (q i : Nat) (r : QRec) (va n reason : Nat) (k : List Byte → State → State) : State :=
  match readSpan s r.ctx va n r.deny with
  | (.ok l, s) => k l s
  | (.wait reqs, s) => setQueue s q (fun l => { l with recs := l.recs.set i { r with reqs := reqs, deny := false } })
  | (.bad, s) => refuseRec s q i reason

/-- R87 to R89: check the first record of a queue that is not yet accepted, and accept or refuse it. -/
def tryAccept (s : State) (q i : Nat) (r : QRec) : State :=
  let code := fieldOf r.bytes 0 8
  if !s.liveCtx r.ctx || isResetting s r.ctx then refuseRec s q i 7
  else if isFrozen s r.ctx || r.reqs.any (fun x => (s.xl.reqs.find x).isSome) then s
  else if code % 4096 ≠ 0 ∨ 2 ^ 55 ≤ code then refuseRec s q i 1
  else
    acceptRead s q i r code 64 1 (fun h s =>
      if !objHeaderOk h || decide (fieldOf h 0x06 2 ≤ fieldOf r.bytes 0x08 2) then refuseRec s q i 1
      else acceptRead s q i r (code + fieldOf h 0x0C 4) (32 * fieldOf h 0x06 2) 1 (fun tab s =>
        if !kernelOk h tab (fieldOf r.bytes 0x08 2) then refuseRec s q i 1
        else
          match recordReason s r.ctx r.bytes tab with
          | 0 =>
            acceptRead s q i r code (fieldOf h 0x08 4) 1 (fun obj s =>
              acceptRead s q i r (fieldOf r.bytes 0x28 8) (fieldOf r.bytes 0x30 4) 3 (fun args s => acceptRec s q i r h tab obj args))
          | n + 1 => refuseRec s q i (n + 1)))

/-- R373 stages 2 and 3: the command processor takes up the next record of a queue. -/
def execRecordAcceptance (queue : Nat) (s : State) : Out :=
  let recs := (queueOf s queue).recs
  let i := (recs.takeWhile (fun r => r.grid.isSome)).length
  .next (match recs[i]? with
    | none => s
    | some r => tryAccept s queue i r)

/-- An extension has not been applied yet. -/
def extPending (s : State) (id : Nat) : Bool := s.cx.ctxs.any (fun c => c.2.extQ.any (fun e => e.id = id))

/-- R442 step 1: receipts whose target's awaited extensions are all applied take H and E. -/
def takeChains (s : State) : State :=
  s.updCX (fun c => { c with receipts := c.receipts.map (fun r =>
    if r.2.taken.isNone && !r.2.waits.any (extPending s) then
      (r.1, { r.2 with taken := some ((s.ctx r.2.target).chain, (s.ctx r.2.target).exts) })
    else r) })

/-- R436: the command processor applies the oldest extension of a context. -/
def execExtensionApplied (ctx : Nat) (s : State) : Out :=
  .next (match (s.ctx ctx).extQ with
    | [] => s
    | e :: rest => takeChains (s.updCtx ctx (fun c => { c with
        extQ := rest, chain := extendChain c.chain e.tag e.len e.digest, exts := (c.exts + 1) % 2 ^ 64 })))

/-! ### LAUNCH (R377, R378) -/

/-- R378: one lane. -/
def launchLane (s : State) (h : Nat) (pl : Nat) (e : LaneEnt) (a : Nat) : LaneOut :=
  let ctx := ctxOf s s.curWarp
  if 2 ^ 55 ≤ a then .bad 0x10 (some a) s
  else if a % 128 ≠ 0 then .bad 0x11 (some a) s
  else
    match localQueue s ctx h with
    | none => .bad 0x38 none s
    | some q =>
      if 64 ≤ (queueOf s q).recs.length then .hold (.queue q) s
      else readImage s pl e a 128 128 (fun l s => .ok 0 (enterQueue s q { bytes := l, ctx := ctx, localQ := h }))

/-- R377, R378. -/
def execLaunch (h : Hdr) (rec : Reg) (q : Fin 64) (s : State) : Out :=
  let taking := takingLanes s s.curWarp h
  .next (if taking = [] then finish s h.b h.w
    else withRelease s (fun s =>
      eachLane 0x0E (fun s pl e => launchLane s q.val pl e (srcVal s rec 2 pl e))
        (fun s => finish (commitLanes s s.md.cur ((serResults s).map (fun x => (x.1, x.2.1)))) h.b h.w)
        (sortLanes (takingLanes s s.curWarp h)) s))

/-! ### Launch frames (R376, R451, R452) -/

/-- R376 check 1: the valid entry that matches a source and a queue pair; one that stands open matches any source (R458). Without a part
record that verifies, entry 0 alone (R457 step 4). -/
def matchEntry (s : State) (src qp : Nat) : Option Nat :=
  (s.pt.tenants.find? (fun t => (t.1 = 0 || Config.recordVerifies) && t.2.v && t.2.qp = qp && (t.2.standsOpen || t.2.src = src))).map (·.1)

/-- A launch frame with its records behind its header (R452). -/
def wholeFrame (h : FrameHdr) (recs : List (List Byte)) : FrameHdr := { h with bytes := h.bytes ++ recs.flatten }

/-- R452: the layout of a launch frame. -/
def launchForm (b : List Byte) : Bool :=
  let n := fieldOf b 4 1
  fieldOf b 0 4 = 0x4C4E4348 && decide (1 ≤ n) && decide (n ≤ 8) && fieldOf b 5 3 = 0 && fieldOf b 0x18 8 = 0 && b.length = 0x20 + 128 * n

/-- R452: the records of a launch frame. -/
def launchRecs (b : List Byte) : List FrameRec :=
  (List.range (fieldOf b 4 1)).map (fun i => { queue := fieldOf b (0x10 + i) 1, bytes := (b.drop (0x20 + 128 * i)).take 128 })

/-- R452: the layout of a command frame of a CODE. -/
def commandForm (code : Nat) (f : FrameHdr) : Bool :=
  let b := f.bytes
  fieldOf b 0 4 = 0x444D4348 && fieldOf b 4 1 = code && fieldOf b 5 1 = 0 && decide (fieldOf b 6 2 ≤ 8192) && b.length = 0x10 + fieldOf b 6 2 &&
  f.wellFormed

/-- R376 check 2, R452: the tag of a frame verifies under the key of its entry. -/
def tagHolds (t : Tenant) (f : FrameHdr) : Bool :=
  f.tag = Config.gmac (t.keyLo + t.keyHi * 2 ^ 64) (bytesOfNat 8 f.seq ++ bytesOfNat 4 t.qp) f.bytes

/-- R376, R452, R458: the checks of a frame in order; `form` says that its layout holds, `openOk` that it may come to an entry that
stands open. -/
def withEntry (s : State) (f : FrameHdr) (form openOk : Bool) (k : Nat → State → State) : State :=
  match matchEntry s f.src f.qp with
  | none => s.updPT (fun p => { p with noMatch := (p.noMatch + 1) % 2 ^ 32 })
  | some i =>
    let t := tenantOf s i
    let bad := fun (s : State) => s.updPT (fun p => { p with badFrame := (p.badFrame + 1) % 2 ^ 32 })
    if t.standsOpen then (if openOk && form then k i s else bad s)
    else if !tagHolds t f || decide (f.seq ≤ t.lastSeq) then s.updPT (fun p => { p with badTag := (p.badTag + 1) % 2 ^ 32 })
    else if !form then bad s
    else k i (setTenant s i (fun t => { t with lastSeq := f.seq }))

/-- R373, R376 checks 3 and 4: one record of a frame. A queue of a context that is gone is named by no pool: NO_CONTEXT, as R373 has it of
a revoked context, stands before BAD_QUEUE there (DEDUCED, log entry 39). -/
def frameRecord (s : State) (entry seq i : Nat) (r : FrameRec) : State :=
  let t := tenantOf s entry
  let frame := some (entry, seq, i)
  let refuse := fun (s : State) (q : Option Nat) (reason : Nat) =>
    replyRefused (match q with | some q => countRefused s q reason | none => s) frame reason
  if !s.liveCtx t.ctx then refuse s none 7
  else
    match localQueue s t.ctx r.queue with
    | none => refuse s none 5
    | some q =>
      if !t.qmask.testBit r.queue then refuse s (some q) 5
      else if isResetting s t.ctx then refuse s (some q) 7
      else if 64 ≤ (queueOf s q).recs.length then refuse s (some q) 6
      else enterQueue s q { bytes := r.bytes, frame := frame, ctx := t.ctx, localQ := r.queue }

end Sys2Proof.Machine
end

