-- ==== Sys2Proof/Machine/MemEvents.lean ====
section
/-!
DEFINITION. What completes inside the part (R64, R66, R102 to R104, R120 to R122, R140, R141, R157, R158, R320, R385): the events
RESULT_RETURN, WALK_COMPLETE, STORE_PERFORM, DIRECTORY_ACK, DROP, LINE_RETRY, EDDY_RESTORE.
-/
namespace Sys2Proof.Machine

/-- A lane of a pending load reads again as it returns (R64, R339): its value may be any between issue and return. All its words stand
in the L1, or none does (R156). -/
def resample (s : State) (gi h : Nat) (l : ResLane) : ResLane :=
  match l.src with
  | .mem core pa _ =>
    let none_ := (wordsUnder pa l.nbytes).all (fun a => (l1Word s core a).isNone)
    if loadWaits s core pa l.nbytes || corePoisoned s core pa || !(l1Has s core pa l.nbytes || none_) then l else sampleLane s gi h l
  | .spad core a =>
    if (List.range l.nbytes).all (fun i => (presenceOf s core ((a + i) / 128)).p) then sampleLane s gi h l else l
  | .fixed => l

/-- R64, R66, R152: a pending result is written; `late` says that its lanes read as they return. -/
def execResultReturn (result : Nat) (late : Bool) (s : State) : Out :=
  .next (match s.wk.results.find result with
    | none => s
    | some r =>
      if !r.known then s
      else
        let lanes := if late then r.lanes.map (resample s r.gi r.hwarp) else r.lanes
        let s := lanes.foldl (fun s l => landLane s r.gi r.hwarp l) s
        let s := s.updWK (fun k => { k with results := k.results.erase result })
        match r.work with
        | some w => finishWork s w
        | none => s)

/-- R102 to R104: a walk that a walker has taken completes: translations are filled, the warps that wait for it keep its outcome for
their word, and the walker takes another. One that meets a held line waits (R122). -/
def execWalkComplete (walk : Nat) (s : State) : Out :=
  .next (match s.xl.walks.find walk with
    | none => s
    | some x =>
      match x.walker with
      | none => s
      | some walker =>
        let gone := fun (s : State) => takeWalks (s.updXL (fun y => { y with walks := y.walks.erase walk })) (dieOf x.core) 64
        if !s.liveCtx x.ctx then gone s
        else
          let va := x.page * 2 ^ 16
          match runWalk s walker x.core x.ctx va x.kind with
          | (.busy, _) => s
          | (r, s) =>
            let (r, s) := match r with
              | .ok t => (XRes.ok (pageBase t va), tlbFill s x.core x.ctx x.page (pageBase t va))
              | r => (r, s)
            (gone s).updWK (fun k => { k with warps := k.warps.map (fun c =>
              match c.2.park with
              | .walk l =>
                if l.contains walk then (c.1, { c.2 with formed := c.2.formed ++ [{ page := x.page, kind := x.kind, res := r }] }) else c
              | _ => c) }))

/-! ### Stores (R138, R154, R157 to R160, R320) -/

/-- One byte of a store with its home warp. -/
abbrev HWrite := Nat × FWrite

/-- Lanes of one store that write the same byte: the one with the highest home lane stands (R138, R154); among equal home lanes that
of the higher home warp (DESIGN CHOICE, log entry 34). -/
def writeRank (x : HWrite) : Nat := x.2.lane * 64 + x.1
def samePlace (x y : HWrite) : Bool := x.2.addr = y.2.addr && (match x.2.dest, y.2.dest with
  | .mem _ _, .mem _ _ | .spad, .spad => true
  | .tx a, .tx b => a = b
  | _, _ => false)
def beaten (l : List HWrite) (x : HWrite) : Bool := l.any (fun y => samePlace x y && decide (writeRank x < writeRank y))
def writesOf (es : List (Nat × FifoEntry)) : List HWrite := es.flatMap (fun e => e.2.writes.map (fun x => (e.1, x)))

/-- Writes to global memory by word: word address, owner, and its bytes with the threads that store them. -/
def memWordsOf (gi : Nat) (l : List HWrite) : List (Nat × Nat × Nat × List (Nat × Byte × Nat)) :=
  let l := l.filterMap (fun x => match x.2.dest with
    | .mem ctx page => some (x.2.addr / 4, ctx, page, (x.2.addr % 4, x.2.byte, thKey gi x.1 x.2.lane))
    | _ => none)
  ((l.map (·.1)).eraseDups).filterMap (fun w =>
    (l.find? (fun x => x.1 = w)).map (fun x => (w, x.2.1, x.2.2.1, (l.filter (fun y => y.1 = w)).map (fun y => y.2.2.2))))

/-- A word is stored whole. -/
def storesWhole (b : List (Nat × Byte × Nat)) : Bool := (List.range 4).all (fun k => b.any (fun x => x.1 = k))

/-- A copy is outstanding in a scratchpad line that stores go to (R141). -/
def copyWaits (s : State) (core : Nat) (l : List HWrite) : Bool :=
  l.any (fun x => x.2.dest = .spad && (let p := presenceOf s core (x.2.addr / 128); !p.p && !p.q && decide (0 < p.n)))

/-- Stores cannot be performed yet: a line to be filled is held by an engine, or words of it that an eviction has sent on wait there
(R122), a copy is outstanding in a scratchpad line (R141), the group's range stands in the save area (R399). -/
def storeWaits (s : State) (gi : Nat) (l : List HWrite) : Bool :=
  let core := (s.group gi).core
  ((s.group gi).saved && l.any (fun x => x.2.dest = .spad)) ||
  (memWordsOf gi l).any (fun w => if storesWhole w.2.2.2 then evictWaits s core (w.1 / 32) (w.1 % 32) else mustWait s core (w.1 * 4)) ||
  copyWaits s core l

/-- The entries of other home warps that stand for the same store (R138, R154, R160): by home warp, its FIFO up to the entry and the entry. -/
def mates (s : State) (gi h : Nat) (e : FifoEntry) : List (Nat × List FifoEntry × FifoEntry) :=
  if e.sync.isNone then []
  else
    (s.rg.hwarps.filter (fun c => c.1 / 32 = gi && c.1 != hwKey gi h)).filterMap (fun c =>
      (c.2.fifo.find? (fun x => x.sync = e.sync)).map (fun x => (c.1 % 32, c.2.fifo.takeWhile (fun y => y.sync != e.sync), x)))

/-- The entries that are performed together with the oldest of a home warp's FIFO: it and those of its store that only committed entries
precede. None unless it is committed and they stand first in their FIFOs. -/
def storeTogether (s : State) (gi h : Nat) : Option (List (Nat × FifoEntry)) :=
  match (s.hwarp (hwKey gi h)).fifo with
  | [] => none
  | e :: _ =>
    let coming := (mates s gi h e).filter (fun m => (m.2.2 :: m.2.1).all (fun x => x.uncommitted = []))
    if e.uncommitted != [] || coming.any (fun m => m.2.1 != []) then none else some ((h, e) :: coming.map (fun m => (m.1, m.2.2)))

/-- Poison of scratchpad words that stores overwrite whole (R465). -/
def clearSpadPoison (s : State) (core : Nat) (l : List HWrite) : State :=
  if s.pt.spadPoison = [] then s
  else
    let bytes := (l.filter (fun x => x.2.dest = .spad)).map (·.2.addr)
    s.updPT (fun p => { p with spadPoison := p.spadPoison.filter (fun k =>
      !(k / 2 ^ 17 = core && (List.range 4).all (fun i => bytes.contains (k % 2 ^ 17 * 4 + i)))) })

/-- A release store's words go to the directory, one message a line (R156, R157); its counted work waits for them. -/
def sendStored (s : State) (gi core : Nat) (e : Nat × FifoEntry) : State :=
  let ws := (memWordsOf gi (writesOf [e])).map (·.1)
  let lines := (ws.map (fun w => w / 32)).eraseDups
  let (n, s) := lines.foldl (fun (acc : Nat × State) line =>
    let (ids, s) := sendLine acc.2 core line (some ((ws.filter (fun w => w / 32 = line)).map (fun w => w % 32))) e.2.work
    (acc.1 + ids.length, s)) (0, s)
  match e.2.work with
  | none => s
  | some x => if n = 0 then finishWork s x else addParts s x (n - 1)

/-- Perform the bytes of the entries of one store, all at once, and count their work down when it is complete (R138, R152, R154, R157). -/
def performStore (s : State) (gi : Nat) (es : List (Nat × FifoEntry)) : State :=
  let g := s.group gi
  let all := writesOf es
  let l := all.filter (fun x => !beaten all x)
  let hint := (es.map (fun e => e.2.hint)).headD 0
  let s := (memWordsOf gi l).foldl (fun s w => l1StoreWord s g.core w.2.1 w.2.2.1 (rankOf hint) w.1 w.2.2.2) s
  let s := l.foldl (fun s x => if x.2.dest = .spad then setSpadByte s g.core x.2.addr x.2.byte else s) s
  let s := clearSpadPoison s g.core l
  es.foldl (fun s e =>
    let mine := (l.filter (fun x => x.1 = e.1)).map (·.2)
    let ports := (mine.filterMap (fun x => match x.dest with | .tx n => some n | _ => none)).eraseDups
    let s := ports.foldl (fun s n =>
      (sendBytes s { core := g.core, ctx := g.ctx, gi := gi, hwarp := e.1, entry := n } .store
        ((mine.filter (fun x => x.dest = .tx n)).map (fun x => (x.addr, x.byte)))).2) s
    if e.2.rel then sendStored s gi g.core e else finishWorks s e.2.work.toList) s

/-- R138, R154, R158: the oldest entry of a home warp's store FIFO is performed, once it is committed, together with the entries of other
home warps that stand for the same store: those that only committed entries precede are awaited. One that stands behind uncommitted
stores of an open region is performed later, without the bytes in which a higher home lane has stored. -/
def execStorePerform (group hwarp : Nat) (s : State) : Out :=
  .next (match storeTogether s group hwarp with
    | none => s
    | some es =>
      if storeWaits s group (writesOf es) then s
      else
        let left := (es.flatMap (fun e => mates s group e.1 e.2)).filter (fun m => !es.any (fun e => e.1 = m.1))
        let s := es.foldl (fun s m => s.updHWarp (hwKey group m.1) (fun x => { x with fifo := x.fifo.drop 1 })) s
        let s := left.foldl (fun s m => s.updHWarp (hwKey group m.1) (fun x => { x with fifo := x.fifo.map (fun y =>
          if y.sync = m.2.2.sync then { y with writes := y.writes.filter (fun w => !beaten (writesOf es) (m.1, w)) } else y) })) s
        checkGroupEnd (performStore s group es) group)

/-! ### The directory (R120 to R122) -/

/-- A word that a core sent in message `id` is registered (R120, R121), unless a later value of it has been. The core owns it; it is clean
unless it has been stored to since. -/
def ackWord (s : State) (core line id : Nat) (w : DirWord) : State :=
  match (l1Line s core line).words.find w.i with
  | none => s
  | some x =>
    if !x.sent.contains id then s
    else
      let clean := x.sent.head? = some id && x.same
      setL1 (regWord s core line true w) core line (fun l => { l with
        words := l.words.upd w.i (fun x =>
          if clean then x.registered else { x with owned := true, sent := x.sent.takeWhile (fun y => y != id) })
        lost := if clean then l.lost.filter (fun i => i != w.i) else l.lost })

/-- Words that an eviction sent on are registered and given up, in the order of their evictions (R120, R122). -/
def evictTurn (s : State) (item : Nat) (d : DirItem) : Bool :=
  !(s.mm.dirItems.any (fun x => decide (x.1 < item) && x.2.evicted && x.2.core = d.core && x.2.line = d.line))

/-- R120, R122: the directory acknowledges a core's words, or a claim. One that reaches a line held by an engine waits; so does a claim
while an L1 has words of such a line to register first. -/
def execDirectoryAck (item : Nat) (s : State) : Out :=
  .next (match s.mm.dirItems.find item with
    | none => s
    | some d =>
      let gone := fun (s : State) => s.updMM (fun m => { m with dirItems := m.dirItems.erase item })
      match d.claim with
      | some c =>
        if claimWaits s d.line then s
        else
          let s := gone (takeLine s d.line)
          if (s.en.cmds.find c).isSome then s.updMM (fun m => { m with claims := m.claims ++ [{ line := d.line, cmd := c }] }) else s
      | none =>
        if held s d.line || (d.evicted && !evictTurn s item d) then s
        else
          let s := gone (d.words.foldl (fun s w =>
            if d.evicted then regWord s d.core d.line false w else ackWord s d.core d.line item w) s)
          finishWorks s d.work.toList)

/-- R120: a drop reaches an L1. -/
def execDrop (item : Nat) (s : State) : Out :=
  .next (match s.mm.drops.find item with
    | none => s
    | some d => applyDrop (s.updMM (fun m => { m with drops := m.drops.erase item })) d)

/-- R141: lanes that met an absent line try again once it is present or poisoned. -/
def execLineRetry (warp : Nat) (s : State) : Out :=
  .next (match (s.warp warp).park with
    | .lines _ => if (s.group (s.warp warp).gi).resident && parkOver s (s.warp warp) then s.updWarp warp (fun w => { w with park := .none }) else s
    | _ => s)

/-- R385: a demoted group is restored: by a drop, claim or write on a line of its filter, a false match, or 4,096 cycles. -/
def execEddyRestore (group : Nat) (s : State) : Out :=
  .next (s.updGroup group (fun g => { g with demoted := none }))

end Sys2Proof.Machine
end

