-- ==== Sys2Proof/Machine/Sched.lean ====
section
/-!
DEFINITION. Placement of spans, run selection, the end of grids, pre-emption (R88 to R90, R190 to R194, R352 to R355, R361, R379 to
R385, R398 to R401).
-/
namespace Sys2Proof.Machine

/-! ### What a core holds (R191, R381, R399) -/

/-- Commands or stores of a group have still to stop though it is pre-empted (R398 steps 3 and 4). A store that awaits the copies of a
stopped command waits in the save area with them (R141). -/
def unfinished (s : State) (gi : Nat) : Bool :=
  s.en.cmds.any (fun c => c.2.gi = gi && c.2.asked) ||
  s.en.mqueues.any (fun q => q.2.cmds.any (fun c => c.gi = gi && c.asked)) ||
  s.rg.hwarps.any (fun c => c.1 / 32 = gi &&
    (match storeTogether s gi (c.1 % 32) with
      | none => false
      | some es => !copyWaits s (s.group gi).core (writesOf es)))

/-- A pre-empted group's place is still in use: its span's commands, which may write to any group of the span, or stores run on (R145,
R146, R398). -/
def leaving (s : State) (gi : Nat) : Bool := (gi :: spanGroups s gi).any (unfinished s)

/-- Groups that occupy a core: resident ones, and those whose commands have still to stop. -/
def holders (s : State) (core : Nat) : List (Nat × Group) :=
  s.wk.groups.filter (fun g => g.2.core = core && (g.2.resident || leaving s g.1))

/-- A place of one group: core, first row, scratchpad base. -/
structure Alloc where
  core : Nat := 0
  rb : Nat := 0
  sp : Nat := 0
deriving DecidableEq, Repr, Inhabited

/-- What a group needs: rows, scratchpad bytes, threads, and where its own untouched ranges stand. -/
structure Need where
  rows : Nat := 0
  scratch : Nat := 0
  gsize : Nat := 0
  /-- its own place, while its ranges there are untouched (R399) -/
  keep : Option Alloc := none
  /-- it needs an even core and the next one in full mode, for its context's bound pair or its paired commands (R258, R284) -/
  pair : Bool := false
  /-- it needs a core of this ARR.MODE, for its matrix commands (R255, R271) -/
  mode : Option Nat := none
deriving DecidableEq, Repr, Inhabited

/-- Starts at multiples of `step` of a range of `n` that meets none of the ranges in use. -/
def freeStarts (cap step n : Nat) (used : List (Nat × Nat)) : List Nat :=
  if n = 0 then [0]
  else ((List.range (cap / step)).map (fun i => i * step)).filter (fun a =>
    decide (a + n ≤ cap) && used.all (fun u => u.2 = 0 || decide (a + n ≤ u.1) || decide (u.1 + u.2 ≤ a)))

/-- A core whose array serves what a group has there (log entry 38). -/
def arrayFits (s : State) (need : Need) (n : Nat) : Bool :=
  let mode := fun (n : Nat) => NMap.get 0 s.en.arrMode n
  (!need.pair || (n % 2 = 0 && mode n = 0 && mode (n + 1) = 0 && !modeChanging s (n + 1))) && need.mode.all (fun m => mode n = m)

/-- R381: starts of rows and of scratchpad where a group fits on a core beside groups already chosen; a core carries 64 home warps
(R190). -/
def fitsOn (s : State) (need : Need) (chosen : List (Alloc × Need)) (n : Nat) : Option (List Nat × List Nat) :=
  let hs := holders s n
  let mine := chosen.filter (fun a => a.1.core = n)
  let warps := fun (gsize : Nat) => (gsize + 31) / 32
  let w := warps need.gsize
  if 15 < hs.length + mine.length ∨ 2048 < (hs.map (fun g => g.2.gsize)).sum + (mine.map (fun a => a.2.gsize)).sum + 32 * w ∨
      64 < (hs.map (fun g => warps g.2.gsize)).sum + (mine.map (fun a => warps a.2.gsize)).sum + w ∨ !arrayFits s need n then none
  else
    let rows := freeStarts 4096 8 need.rows
      (hs.map (fun g => (g.2.rb, homeCount g.2 * g.2.regs)) ++ mine.map (fun a => (a.1.rb, a.2.rows)))
    let sp := freeStarts 524288 128 need.scratch
      (hs.map (fun g => (g.2.spBase, g.2.scratch)) ++ mine.map (fun a => (a.1.sp, a.2.scratch)))
    if rows = [] ∨ sp = [] then none else some (rows, sp)

/-- R381: within a cove each group in turn on the lowest-numbered core where it fits. Which free ranges it takes is open (FREE VALUE,
log entry 5); with `first` it takes the lowest. A group that comes back to its core takes its own untouched ranges (R399). -/
def fitCove (s : State) (cores : List Nat) (first : Bool) : List Need → List (Alloc × Need) → Option (List Alloc) × State
  | [], chosen => (some (chosen.map (·.1)), s)
  | need :: rest, chosen =>
    match cores.findSome? (fun n => (fitsOn s need chosen n).map (fun x => (n, x))) with
    | none => (none, s)
    | some (n, rows, sp) =>
      let own := need.keep.filter (fun a => a.core = n && rows.contains a.rb && sp.contains a.sp)
      let (i, s1) := if first || own.isSome then (0, s) else s.pick rows.length
      let (j, s2) := if first || own.isSome then (0, s1) else s1.pick sp.length
      let a : Alloc := own.getD { core := n, rb := rows.getD i 0, sp := sp.getD j 0 }
      match fitCove s2 cores first rest (chosen ++ [(a, need)]) with
      | (some l, s') => (some l, s')
      | (none, _) => (none, s)

/-- Free register rows of a cove. -/
def freeRows (s : State) (cove : Nat) : Nat :=
  ((List.range 8).map (fun i => 4096 - ((holders s (cove * 8 + i)).map (fun g => homeCount g.2 * g.2.regs)).sum)).sum

/-- R384: a context's entitlement in class V, in cores. -/
def entitlement (s : State) (ctx : Nat) : Nat := 384 * dWeight s 0 ctx / 65536

/-- A core in a context's partition that wear has not retired. -/
def ownCore (s : State) (ctx n : Nat) : Bool := (s.ctx ctx).grant.cores.testBit n && !s.pt.retired.contains (.core n)

/-- R384: a core that may be lent to a context: in the partition of another that is entitled to cores, and without work. -/
def lendable (s : State) (ctx n : Nat) : Bool :=
  !s.pt.retired.contains (.core n) && holders s n = [] &&
  s.cx.ctxs.any (fun c => c.1 != ctx && ownCore s c.1 n && decide (0 < entitlement s c.1))

/-- A staged layout change affects a core (R460). -/
def affected (s : State) (n : Nat) : Bool :=
  modeChanging s n || s.cx.staged.any (fun c => c.change = .retire (.core n))

/-- No matrix command is queued or stopped on a core (R255). -/
def arrayIdle (s : State) (n : Nat) : Bool := !(s.en.mqueues.any (fun q => q.1 / 8192 = n && q.2.cmds != []))

/-- R381, R447: a core's world latch equals a world, and no latch operation or layout change is under way on it. -/
def latchFits (s : State) (world n : Nat) : Bool :=
  NMap.get 0 s.cx.latch n = world && !affected s n &&
  !(s.cx.opers.any (fun o => match o.2.kind with | .latch c _ => c = n | _ => false))

/-- Coves in the order R381 tries them: fewest free rows first, ties to the lower number. -/
def coveOrder (s : State) : List Nat := byHome (fun c => freeRows s c * 64 + c) (List.range 48)

/-- R381: find a place for the groups of a span; with `lend`, cores without work may be lent (R384). -/
def findPlace (s : State) (ctx world : Nat) (needs : List Need) (lend : Bool) : Option (List Alloc) × State :=
  let ok := fun (n : Nat) => latchFits s world n && (ownCore s ctx n || s.pt.lent.find n = some ctx || (lend && lendable s ctx n))
  (coveOrder s).foldl (fun (acc : Option (List Alloc) × State) c =>
    match acc.1 with
    | some _ => acc
    | none =>
      let cores := ((List.range 8).map (fun i => c * 8 + i)).filter ok
      if cores = [] then acc
      else
        match fitCove acc.2 cores false needs [] with
        | (some l, s) => (some l, s)
        | (none, s) => fitCove s cores true needs []) (none, s)

/-- Find a place, the part choosing whether to lend cores when none of the context's own fits (FREE VALUE, log entry 5). -/
def placeFor (s : State) (ctx world : Nat) (needs : List Need) : Option (List Alloc) × State :=
  match findPlace s ctx world needs false with
  | (some l, s) => (some l, s)
  | (none, s) =>
    let (b, s) := s.coin
    if b then findPlace s ctx world needs true else (none, s)

/-- Cores outside the partition that a placement took are lent (R384). -/
def noteLent (s : State) (ctx : Nat) (l : List Alloc) : State :=
  l.foldl (fun s a => if ownCore s ctx a.core then s else s.updPT (fun p => { p with lent := NMap.insert p.lent a.core ctx })) s

/-! ### Ranges in the save area (R398, R399) -/

def poisonIn (core sp n k : Nat) : Bool :=
  k / 2 ^ 17 = core && decide (sp ≤ k % 2 ^ 17 * 4) && decide (k % 2 ^ 17 * 4 < sp + n)

/-- A pre-empted group's scratchpad range goes to the save area. -/
def saveRange (s : State) (gi : Nat) : State :=
  let g := s.group gi
  let lo := spadKey g.core g.spBase
  let bytes := (s.mm.spad.filter (fun c => decide (lo ≤ c.1) && decide (c.1 < lo + g.scratch))).map (fun c => (c.1 - lo, c.2))
  let l0 := g.core * 4096 + g.spBase / 128
  let lines := (s.mm.presence.filter (fun c => decide (l0 ≤ c.1) && decide (c.1 < l0 + g.scratch / 128))).map (fun c => (c.1 - l0, c.2))
  let (bad, rest) := s.pt.spadPoison.partition (poisonIn g.core g.spBase g.scratch)
  (s.updPT (fun p => { p with spadPoison := rest })).updGroup gi (fun g => { g with
    intact := false, savedSp := bytes, savedLines := lines, savedPoison := bad.map (fun k => k % 2 ^ 17 - g.spBase / 4) })

/-- A group's scratchpad range is loaded from the save area into a place. -/
def loadRange (s : State) (gi : Nat) (a : Alloc) : State :=
  let g := s.group gi
  let lo := spadKey a.core a.sp
  let l0 := a.core * 4096 + a.sp / 128
  let s := s.updMM (fun m => { m with
    spad := g.savedSp.foldl (fun m c => NMap.set 0 m (lo + c.1) c.2)
      (m.spad.filter (fun c => !(decide (lo ≤ c.1) && decide (c.1 < lo + g.scratch))))
    presence := g.savedLines.foldl (fun m c => NMap.set {} m (l0 + c.1) c.2)
      (m.presence.filter (fun c => !(decide (l0 ≤ c.1) && decide (c.1 < l0 + g.scratch / 128)))) })
  let bad := g.savedPoison.map (fun k => a.core * 2 ^ 17 + a.sp / 4 + k)
  let s := s.updPT (fun p => { p with spadPoison := bad ++ p.spadPoison.filter (fun k => !poisonIn a.core a.sp g.scratch k) })
  s.updGroup gi (fun g => { g with savedSp := [], savedLines := [], savedPoison := [] })

/-- R399: ranges of pre-empted groups that a placement overlaps are written to the save area. -/
def evictOver (s : State) (a : Alloc) (need : Need) : State :=
  let meet := fun (x n y m : Nat) => decide (x < y + m) && decide (y < x + n)
  (s.wk.groups.filter (fun g => g.2.core = a.core && !g.2.resident && g.2.intact &&
    (meet g.2.rb (homeCount g.2 * g.2.regs) a.rb need.rows || meet g.2.spBase g.2.scratch a.sp need.scratch))).foldl
    (fun s g => saveRange s g.1) s

/-! ### The start of a group (R21, R88, R90, R140, R191) -/

/-- R21: a thread's stochastic generator at launch. -/
def genStart (lseed : Word) (g : Nat) : Word :=
  let x := lseed ^^^ BitVec.ofNat 32 (g % 2 ^ 32 * 0x9E3779B9) ^^^ BitVec.ofNat 32 (g / 2 ^ 32 * 0x85EBCA6B)
  if x = 0 then 1 else x

/-- R90: the threads of a group; those beyond GSIZE in its last quad stand only as helper lanes (R88, R190). -/
def startThreads (s : State) (gi gid : Nat) (g : Grid) : State :=
  (List.range ((g.gsize + 3) / 4 * 4)).foldl (fun s t =>
    let x : Thread := { pc := BitVec.ofNat 64 g.entry, prio := g.prio, stat := if t < g.gsize then .frontier else .exited,
                        gen := genStart g.lseed (gid * 1024 + t) }
    s.updRG (fun r => { r with threads := NMap.insert r.threads (thKey gi (t / 32) (t % 32)) x })) s

/-- R90: s registers at entry. -/
def startS (s : State) (gi gid : Nat) (g : Grid) : State :=
  let l := [wordOf g.args 0, wordOf g.args 1, BitVec.ofNat 32 g.argBytes, BitVec.ofNat 32 gid, wordOf g.data 0, wordOf g.data 1]
  s.updRG (fun r => { r with s := ((List.range 6).zip l).foldl (fun m x => NMap.set 0 m (sKey gi x.1) x.2) r.s })

/-- R140: the lines of a starting group's range are present. -/
def startLines (s : State) (a : Alloc) (scratch : Nat) : State :=
  (List.range (scratch / 128)).foldl (fun s i => setPresence s a.core (a.sp / 128 + i) (fun _ => { p := true })) s

/-- A group of a span starts at its place. -/
def startGroup (s : State) (grid span number pos : Nat) (g : Grid) (a : Alloc) : State :=
  let (gi, s) := s.fresh
  let gid := number * g.span + pos
  let x : Group := { ctx := g.ctx, grid := grid, gid := gid, span := span, spanPos := pos, core := a.core,
                     roles := if g.span = 1 then 7 else g.roles / 16 ^ pos % 16, regs := g.regs, scratch := g.scratch,
                     gsize := g.gsize, rb := a.rb, spBase := a.sp }
  let s := s.updWK (fun k => { k with
    groups := NMap.insert k.groups gi x, spans := k.spans.upd span (fun y => { y with groups := y.groups ++ [gi] }) })
  startLines (startS (startThreads s gi gid g) gi gid g) a g.scratch

/-! ### Coming back after pre-emption (R399, R400) -/

/-- Arrays of a context whose state goes with a span from its old cores to its new ones, as (old, new): of a bound pair the follower's too.
A core takes one array's tiles, those of the first group in the span, and none where other groups of the context run (R264, R284, R399;
log entry 14). -/
def arrayMoves (s : State) (ctx : Nat) (l : List (Nat × Alloc)) : List (Nat × Nat) :=
  let all := l.flatMap (fun x =>
    let old := (s.group x.1).core
    if old = x.2.core then [] else (old, x.2.core) :: (if pairedOn s ctx old then [(old + 1, x.2.core + 1)] else []))
  let busy := fun (n : Nat) => s.wk.groups.any (fun g => g.2.ctx = ctx && g.2.core = n && g.2.resident)
  all.foldl (fun acc m => if busy m.2 || acc.any (fun x => x.2 = m.2) then acc else acc ++ [m]) []

/-- The tiles of a context, its bindings and poisoned elements go with a span, all at once; they stay as well where other groups of the
context run. -/
def moveTiles (s : State) (ctx : Nat) (moves : List (Nat × Nat)) : State :=
  let stays := fun (n : Nat) => s.wk.groups.any (fun g => g.2.ctx = ctx && g.2.core = n && g.2.resident)
  let arr := fun (key : Nat) => key / 65536 - ctx * 384
  let mine := fun (key : Nat) => key / 65536 / 384 = ctx
  let gone := fun (n : Nat) => moves.any (fun m => m.2 = n || (m.1 = n && !stays n))
  let went := fun (key : Nat) => (moves.filter (fun m => mine key && m.1 = arr key)).map (fun m => (ctx * 384 + m.2) * 65536 + key % 65536)
  s.updEN (fun e => { e with
    accs := e.accs.foldl (fun m c => (went c.1).foldl (fun m k => NMap.set 0 m k c.2) m) (e.accs.filter (fun c => !(mine c.1 && gone (arr c.1))))
    accPoison := (e.accPoison.filter (fun k => !(mine k && gone (arr k)))) ++ e.accPoison.flatMap went
    pairs := (e.pairs.filter (fun x => !(x / 512 = ctx && gone (x % 512)))) ++
      e.pairs.flatMap (fun x => (moves.filter (fun m => x / 512 = ctx && m.1 = x % 512)).map (fun m => ctx * 512 + m.2)) })

/-- Matrix commands of a group join the queue of its context on its new core, in the half they were queued for (R271). -/
def moveMatrix (s : State) (gi ctx new : Nat) : State :=
  let old := s.en.mqueues.filter (fun q => q.1 % 4096 = ctx && q.2.cmds.any (fun c => c.gi = gi) && q.1 / 8192 != new)
  old.foldl (fun s q =>
    let mine := q.2.cmds.filter (fun c => c.gi = gi)
    let half := q.1 / 4096 % 2
    let s := setMqueue s (q.1 / 8192) half ctx { q.2 with cmds := q.2.cmds.filter (fun c => c.gi != gi) }
    let x := mqueue s new half ctx
    setMqueue s new half ctx { x with cmds := x.cmds ++ mine }) s

/-- Threads go on at another core: what they have stored or read at the old one's L1 stands in the LLC, and the new one's L1 holds nothing
older (R339, R340). -/
def moveL1 (s : State) (old new : Nat) : State := if old = new then s else acquireL1 (flushCore s old) new

/-- A pre-empted group takes its place: its ranges are loaded, its commands go on (R182, R270, R399, R400). -/
def resumeGroup (s : State) (gi : Nat) (a : Alloc) : State :=
  let g := s.group gi
  let same := g.intact && decide (g.core = a.core) && decide (g.rb = a.rb) && decide (g.spBase = a.sp)
  let s := if same then s else loadRange (if g.intact then saveRange s gi else s) gi a
  let s := moveMatrix (moveL1 s g.core a.core) gi g.ctx a.core
  let move := fun (x : FWrite) => if x.dest = .spad then { x with addr := x.addr + a.sp - g.spBase } else x
  let s := s.updRG (fun r => { r with hwarps := r.hwarps.map (fun h =>
    if h.1 / 32 = gi then (h.1, { h.2 with fifo := h.2.fifo.map (fun e => { e with writes := e.writes.map move }) }) else h) })
  let s := s.updGroup gi (fun g => { g with core := a.core, rb := a.rb, spBase := a.sp, resident := true, intact := true })
  let s := s.updWK (fun k => { k with warps := k.warps.map (fun w => if w.2.gi = gi then (w.1, { w.2 with core := a.core }) else w) })
  s.updEN (fun e => { e with
    cmds := e.cmds.map (fun c => if c.2.gi = gi then
      (c.1, { c.2 with core := a.core, stop := if c.2.stop = .preempted then .running else c.2.stop, asked := false }) else c)
    mqueues := e.mqueues.map (fun q => (q.1, { q.2 with cmds := q.2.cmds.map (fun c =>
      if c.gi = gi then { c with stop := if c.stop = .preempted then .running else c.stop, asked := false } else c) })) })

/-! ### SPAN_PLACEMENT (R373 stage 4, R381, R401) -/

def needOf (g : Grid) : Need := { rows := (g.gsize + 31) / 32 * g.regs, scratch := g.scratch, gsize := g.gsize }

/-- The extensions that a grid must await are applied (R89). -/
def extsDone (s : State) (ctx : Nat) (l : List Nat) : Bool := !((s.ctx ctx).extQ.any (fun e => l.contains e.id))

/-- Take a place for the groups of a span: overlapped ranges are saved, cores are lent. -/
def takePlace (s : State) (ctx : Nat) (l : List Alloc) (need : Need) : State :=
  noteLent (l.foldl (fun s a => evictOver s a need) s) ctx l

/-- What a pre-empted group needs (R399; log entry 38): its own place suits while its ranges there are untouched; its context's bound pair
and its matrix commands need arrays like those of its old core. -/
def needAgain (s : State) (g : Grid) (gi : Nat) : Need :=
  let x := s.group gi
  let cmds := (s.en.mqueues.filter (fun q => q.1 % 4096 = x.ctx && q.1 / 8192 = x.core)).flatMap (fun q => q.2.cmds.filter (fun c => c.gi = gi))
  { needOf g with
    keep := if x.intact then some { core := x.core, rb := x.rb, sp := x.spBase } else none
    pair := pairedOn s x.ctx x.core || cmds.any (·.paired)
    mode := if cmds = [] then none else some (NMap.get 0 s.en.arrMode x.core) }

/-- A pre-empted span is placed again, whole (R399, R401), once the words its threads have stored at their cores can be registered. -/
def replaceSpan (s : State) (sp : Nat) : Option State :=
  let x := (s.wk.spans.find sp).getD {}
  let g := s.grid x.grid
  if isFrozen s g.ctx || isResetting s g.ctx || x.groups.any (leaving s) || x.groups.any (fun gi => dirtyHeld s (s.group gi).core) then none
  else
    match placeFor s g.ctx g.world (x.groups.map (needAgain s g)) with
    | (none, _) => none
    | (some l, s) =>
      let s := takePlace s g.ctx l (needOf g)
      let s := moveTiles s g.ctx (arrayMoves s g.ctx (x.groups.zip l))
      let s := (x.groups.zip l).foldl (fun s q => resumeGroup s q.1 q.2) s
      let s := s.updWK (fun k => { k with spans := k.spans.upd sp (fun y => { y with placed := true }) })
      some (actHeld (s.updPT (fun p => { p with grids := p.grids.upd x.grid (fun g => { g with cores := (g.cores ++ l.map (·.core)).eraseDups }) })))

/-- Groups of a grid. -/
def gridGroups (g : Grid) : Nat := g.gx * g.gy * g.gz

/-- The next span of a grid is placed (R381). -/
def placeNext (s : State) (gid : Nat) : Option State :=
  let g := s.grid gid
  if isFrozen s g.ctx || isResetting s g.ctx || !extsDone s g.ctx g.exts || decide (gridGroups g ≤ g.placed * g.span) then none
  else
    match placeFor s g.ctx g.world ((List.range g.span).map (fun _ => needOf g)) with
    | (none, _) => none
    | (some l, s) =>
      let s := takePlace s g.ctx l (needOf g)
      let (sp, s) := s.fresh
      let s := s.updWK (fun k => { k with spans := NMap.insert k.spans sp { grid := gid, number := g.placed } })
      let s := ((List.range l.length).zip l).foldl (fun s q => startGroup s gid sp g.placed q.1 g q.2) s
      some (s.updPT (fun p => { p with grids := p.grids.upd gid (fun g => { g with
        placed := g.placed + 1, cores := (g.cores ++ l.map (·.core)).eraseDups }) }))

/-- Records whose spans have all been placed leave a queue (R373, R374). -/
def leaveQueue (s : State) (q : Nat) : State :=
  setQueue s q (fun l => { l with recs := l.recs.dropWhile (fun r =>
    match r.grid with
    | some gid => let g := s.grid gid; decide (gridGroups g ≤ g.placed * g.span)
    | none => false) })

/-- R373 stage 4, R381: a span of a grid of the queue is placed: one that was pre-empted, else the next of the first record. -/
def execSpanPlacement (queue : Nat) (s : State) : Out :=
  let away := (s.wk.spans.filter (fun x => !x.2.placed && (s.grid x.2.grid).queue = queue && x.2.groups != [])).map (·.1)
  .next (match away.findSome? (replaceSpan s) with
    | some t => t
    | none =>
      match ((queueOf s queue).recs.head?).bind (·.grid) with
      | none => s
      | some gid =>
        match placeNext s gid with
        | some t => leaveQueue t queue
        | none => s)

/-! ### RUN_SELECTION (R192, R194, R354, R362, R380, R383, R385) -/

/-- Results pending for registers that a trailer named hold a home warp back (R63). -/
def awaitsResult (s : State) (gi h : Nat) : Bool :=
  (s.hwarp (hwKey gi h)).awaited.any (fun x => s.wk.results.any (fun r => r.2.gi = gi && r.2.hwarp = h &&
    r.2.lanes.any (fun l => l.help.isNone && decide (l.reg ≤ x) && decide (x < l.reg + max l.vals.length ((l.nbytes + 3) / 4)))))

/-- R192 steps 1 and 2: the frontier entry that a quarter issues first for a group, and its threads' quads there. -/
def frontierEntry (s : State) (gi q : Nat) : Option (Nat × DWord × List Nat) :=
  let ths := (groupThreads s gi).filter (fun t => t.2.stat = .frontier && t.1 / 32 % 32 % 4 = q)
  match topLane (fun (t : Nat × Thread) => t.2.prio * 2 ^ 64 + (2 ^ 64 - 1 - t.2.pc.toNat)) ths with
  | none => none
  | some b => some (b.2.prio, b.2.pc, (ths.filter (fun t => t.2.prio = b.2.prio && t.2.pc = b.2.pc)).map (·.1))

/-- Threads of an issue warp to be formed: the entry's threads in the first 8 quads (R192 step 3). -/
def quadsOf (keys : List Nat) : List Nat := ((keys.map (· / 4)).eraseDups).take 8

/-- R192 steps 4 and 5: the remap table; an active lane for each thread listed, helpers for the rest of its quad. -/
def lanesOf (s : State) (keys : List Nat) : List LaneEnt :=
  let quads := quadsOf keys
  let empty : LaneEnt := {}
  let l := quads.flatMap (fun qd => (List.range 4).map (fun j =>
    let k := qd * 4 + j
    if (s.rg.threads.find k).isSome then
      ({ live := true, help := !keys.contains k, hwarp := k / 32 % 32, hlane := k % 32 } : LaneEnt)
    else empty))
  l ++ List.replicate (32 - l.length) empty

/-- Issue warps of a group on a quarter whose park is over, the longest so first (R383 step 4). -/
def releasedWarps (s : State) (gi q : Nat) : List (Nat × Warp) :=
  byHome (fun (w : Nat × Warp) => w.2.age) (s.wk.warps.filter (fun w => w.2.gi = gi && w.2.quarter = q && !w.2.ends && ready s w.2))

/-- A group could issue a run on a quarter (R383 step 1, R63). -/
def candidate (s : State) (gi q : Nat) : Bool :=
  releasedWarps s gi q != [] ||
  (match frontierEntry s gi q with
    | none => false
    | some e => (quadsOf e.2.2).all (fun qd => !awaitsResult s gi (qd / 8 % 32)))

/-- A group stands under YIELD on a quarter (R362). -/
def underYield (s : State) (g : Group) (q : Nat) (cands : List Nat) : Bool :=
  g.yielded.any (fun y => y.1 = q && decide (s.pt.cycle < y.2.1) && y.2.2.any (fun o => cands.contains o))

/-- A group is demoted by the eddy watch (R385). -/
def isDemoted (s : State) (g : Group) : Bool :=
  match g.demoted with
  | some c => decide (s.pt.cycle < c + 4096)
  | none => false

/-- R380: contexts that have become ready at a quarter rejoin at the lowest virtual time there. -/
def rejoinQuarter (s : State) (place : Nat) (now : List Nat) : State :=
  let before := NMap.get [] s.pt.ready place
  let old := now.filter (fun c => before.contains c)
  let s := (now.filter (fun c => !before.contains c)).foldl (fun s c => rejoin s 0 place c old) s
  s.updPT (fun p => { p with ready := NMap.set [] p.ready place now })

/-- R383 step 3: the group that a quarter selects among candidates of one context; equal ones are open (FREE VALUE, log entry 5). -/
def chooseGroup (s : State) (q : Nat) (l : List (Nat × Group)) : Option Nat × State :=
  let sel := fun (g : Nat × Group) => ((g.2.lastSel.find? (fun x => x.1 = q)).map (·.2)).getD 0
  let key := fun (g : Nat × Group) => (s.grid g.2.grid).cls * 2 ^ 64 + sel g
  match topLane (fun g => 2 ^ 70 - key g) l with
  | none => (none, s)
  | some b =>
    let ties := l.filter (fun g => key g = key b)
    let (i, s) := s.pick ties.length
    ((ties[i]?).map (·.1), s)

/-- R194: a quarter that holds 16 issue warps spills its longest-parked one's temporaries. -/
def spillFor (s : State) (core q : Nat) : State :=
  let l := s.wk.warps.filter (fun w => w.2.core = core && w.2.quarter = q && !w.2.spilt && (s.group w.2.gi).resident)
  if l.length < 16 then s
  else
    match (byHome (fun (w : Nat × Warp) => w.2.age) l).head? with
    | some w => s.updWarp w.1 (fun w => { w with spilt := true })
    | none => s

/-- A new issue warp for threads of one key (R192 steps 4 to 6); its threads leave the frontier. -/
def formWarp (s : State) (gi core q : Nat) (prio : Nat) (pc : DWord) (keys : List Nat) : Nat × State :=
  let mine := keys.filter (fun k => (quadsOf keys).contains (k / 4))
  let (id, s) := s.fresh
  let w : Warp := { gi := gi, core := core, quarter := q, pc := pc, prio := prio, lanes := lanesOf s mine, age := id }
  let s := mine.foldl (fun s k => s.updThread k (fun t => { t with stat := .inWarp })) s
  (id, s.updWK (fun k => { k with warps := NMap.insert k.warps id w }))

/-- R383 steps 4 and 5: the chosen group's run takes the quarter. -/
def startRun (s : State) (core q gi : Nat) : State :=
  let (age, s) := s.fresh
  let s := s.updWK (fun k => { k with groups := k.groups.map (fun g =>
    let y := g.2.yielded.map (fun y => if y.1 = q then (y.1, y.2.1, y.2.2.filter (fun o => o != gi)) else y)
    if g.1 = gi then
      (g.1, { g.2 with lastSel := (q, age) :: g.2.lastSel.filter (fun x => x.1 != q), yielded := y.filter (fun y => y.1 != q) })
    else (g.1, { g.2 with yielded := y })) })
  let (wid, s) := match (releasedWarps s gi q).head? with
    | some w => (some w.1, s)
    | none =>
      match frontierEntry s gi q with
      | none => (none, s)
      | some e =>
        let hs := ((quadsOf e.2.2).map (fun qd => qd / 8 % 32)).eraseDups
        let s := hs.foldl (fun s h => s.updHWarp (hwKey gi h) (fun x => { x with awaited := [] })) s
        let (id, s) := formWarp (spillFor s core q) gi core q e.1 e.2.1 e.2.2
        (some id, s)
  match wid with
  | none => s
  | some id =>
    let s := s.updWarp id (fun w => { w with since := s.pt.cycle, spilt := false })
    s.updWK (fun k => { k with quarters := NMap.insert k.quarters (core * 4 + q) { run := some id } })

/-- R383: a quarter whose issue slot is free selects its next run. -/
def execRunSelection (core quarter : Nat) (s : State) : Out :=
  let place := core * 4 + quarter
  .next (if 384 ≤ core ∨ 4 ≤ quarter ∨ (s.wk.quarters.find place).isSome then s
    else
      let s := s.updWK (fun k => { k with groups := k.groups.map (fun g =>
        if g.2.core = core && g.2.demoted.isSome && !isDemoted s g.2 then (g.1, { g.2 with demoted := none }) else g) })
      let all := s.wk.groups.filter (fun g => g.2.core = core && g.2.resident && !isFrozen s g.2.ctx && !isResetting s g.2.ctx &&
        candidate s g.1 quarter)
      let ids := all.map (·.1)
      let rest := all.filter (fun g => !underYield s g.2 quarter (ids.filter (fun i => i != g.1)) && !isDemoted s g.2)
      let cands := if rest = [] then all else rest
      let s := rejoinQuarter s place ((all.map (fun g => g.2.ctx)).eraseDups)
      match firstServed s 0 place ((cands.map (fun g => g.2.ctx)).eraseDups) with
      | none => s
      | some ctx =>
        match chooseGroup s quarter (cands.filter (fun g => g.2.ctx = ctx)) with
        | (some gi, s) => startRun s core quarter gi
        | (none, s) => s)

/-! ### GRID_COMPLETION (R89, R181) -/

/-- Every store of a grid is performed at device scope: dirty words on the cores that have run it are registered (R89). -/
def performGrid (s : State) (g : Grid) : Option State :=
  if g.cores.any (dirtyHeld s) then none else some (g.cores.foldl flushCore s)

/-- R89: the result buffers are hashed in order; one that cannot be read whole is extended as lost. -/
def hashBuffers : List (Nat × Nat) → State → Nat → State
  | [], s, _ => s
  | b :: rest, s, gid =>
    let g := s.grid gid
    let set := fun (s : State) (f : Grid → Grid) => s.updPT (fun p => { p with grids := p.grids.upd gid f })
    let next := fun (e : Nat) (s : State) => hashBuffers rest (set s (fun g => { g with
      hashed := g.hashed + 1, exts := g.exts ++ [e], reqs := [], deny := false })) gid
    match readSpan s g.ctx b.1 b.2 g.deny with
    | (.ok l, s) => let (e, s) := putObj s g.ctx 0x03 l; next e s
    | (.bad, s) => let (e, s) := putExt s g.ctx 0x06 b.2 (List.replicate 32 0); next e s
    | (.wait reqs, s) => set s (fun g => { g with reqs := reqs, deny := false })

/-- R89: a grid all of whose groups have exited is hashed, and once its extensions are applied adds to DONE and is gone. -/
def execGridCompletion (grid : Nat) (s : State) : Out :=
  .next (match s.pt.grids.find grid with
    | none => s
    | some g =>
      if decide (g.ended < gridGroups g) || g.reqs.any (fun r => (s.xl.reqs.find r).isSome) || g.dropped then s
      else
        match performGrid s g with
        | none => s
        | some s =>
          let s := hashBuffers (g.hbufs.drop g.hashed) s grid
          let g := s.grid grid
          if g.hashed < g.hbufs.length ∨ !extsDone s g.ctx g.exts then s
          else partDone (s.updPT (fun p => { p with grids := p.grids.erase grid })) g.ctx g.done)

/-! ### PREEMPTION (R370, R398, R401) -/

/-- A thread drops its own uncommitted FIFO entries (R370); an entry left without lanes is gone and its work with it. -/
def dropStores (s : State) (gi h l : Nat) : State :=
  let key := hwKey gi h
  let fifo := (s.hwarp key).fifo
  let cut := fun (e : FifoEntry) => if e.uncommitted.contains l then
      { e with uncommitted := e.uncommitted.filter (fun x => x != l), writes := e.writes.filter (fun x => x.lane != l) } else e
  let gone := fifo.filter (fun e => e.uncommitted = [l] && e.writes.all (fun x => x.lane = l))
  let s := s.updHWarp key (fun x => { x with fifo := (fifo.filter (fun e => !gone.contains e)).map cut })
  finishWorks s (gone.filterMap (·.work))

/-- A thread's uncommitted entries are committed and its record rewritten where it stands (R398). -/
def keepWaiting (s : State) (gi h l : Nat) : State :=
  let key := hwKey gi h
  let s := s.updHWarp key (fun x => { x with fifo := x.fifo.map (fun e => { e with uncommitted := e.uncommitted.filter (fun y => y != l) }) })
  s.updThread (thKey gi h l) (fun t => { t with restart := recordAt s gi h l t 0 [] })

/-- R398 step 2: threads of a group with an open region that wait on a park or a stop; so do those whose word tries again what it waits
for, or has acted for some lanes. -/
def waitsNow (s : State) (gi h l : Nat) : Bool :=
  match warpOfThread s gi h l with
  | some (_, w) => (w.park != .none && !ready s w) || w.park = .engine || w.park = .grant || w.donePl != 0
  | none => false

/-- Cores where threads stand at a word that has acted and was waited for: what it acquires is acquired before they are restored past it
(R304, R370). -/
def acquiring (s : State) (gi : Nat) (keys : List Nat) : List Nat :=
  (keys.filterMap (fun k => (warpOfThread s gi (k / 32 % 32) (k % 32)).bind (fun w => if 2 ≤ w.2.phase then some w.2.core else none))).eraseDups

/-- Threads leave the issue warps that carry them. -/
def leaveWarps (s : State) (keys : List Nat) : State :=
  let s := s.updWK (fun k => { k with warps := k.warps.map (fun c =>
    let out := ((activeLanes c.2).filter (fun q => keys.contains (thKey c.2.gi q.2.hwarp q.2.hlane))).map (·.1)
    if out = [] then c else (c.1, { c.2 with lanes := leaveLanes c.2 out })) })
  (s.wk.warps.map (·.1)).foldl dropStopped s

/-- Threads restored from equal records of one run resume as one run (R353, R370). -/
def restoreAs : Nat → State → Nat → RestartRec → List Nat → State
  | 0, s, _, _, _ => s
  | fuel + 1, s, gi, r, keys =>
    match keys with
    | [] => s
    | k :: _ =>
      let q := k / 32 % 32 % 4
      let same := keys.filter (fun x => x / 32 % 32 % 4 = q)
      let now := same.filter (fun x => (quadsOf same).contains (x / 4))
      let temps := fun (s : State) (x : Nat) => (s.thread x).restart.temps
      let (id, s) := formWarp s gi (s.group gi).core q r.prio r.pc now
      let s := s.updWarp id (fun w => { w with
        count := r.count, named := r.named,
        temps := (activeLanes w).foldl (fun m p => ((List.range 8).zip (temps s (thKey gi p.2.hwarp p.2.hlane))).foldl (fun m t =>
          NMap.set 0 m (p.1 * 8 + t.1) t.2) m) [] })
      restoreAs fuel s gi r (keys.filter (fun x => !now.contains x))

/-- R370: threads are restored from their records: at a run boundary into the frontier, else as runs that go on. -/
def restoreThreads (s : State) (gi : Nat) (keys : List Nat) : State :=
  let s := (acquiring s gi keys).foldl acquireL1 s
  let s := keys.foldl (fun s k => dropStores s gi (k / 32 % 32) (k % 32)) s
  let s := leaveWarps s keys
  let s := keys.foldl (fun s k => s.updThread k (fun t => { t with stat := .frontier, pc := t.restart.pc, prio := t.restart.prio })) s
  let mid := keys.filter (fun k => let r := (s.thread k).restart; r.count != 0 || r.named != 0)
  let recs := (mid.map (fun k => { (s.thread k).restart with temps := [] })).eraseDups
  recs.foldl (fun s r => restoreAs 64 s gi r (mid.filter (fun k => { (s.thread k).restart with temps := [] } = r))) s

/-- R398 step 4: a group's commands stop: at once those that stand at a boundary their GRAN permits, are not in service, or are delayed
(log entry 36); the others are asked to. -/
def askStops (s : State) (gi : Nat) : State :=
  let s := s.en.cmds.foldl (fun s c =>
    if c.2.gi != gi then s
    else
      match c.2.stop with
      | .running =>
        if (c.2.service || isTile c.2) && !atBoundary c.2.gran c.2.done then s.updCmd c.1 (fun c => { c with asked := true })
        else stopCmd s c.1 .preempted
      | .waits _ => stopCmd s c.1 .preempted
      | .request .. | .recall .. | .preempted | .finWait _ => s) s
  let stop := fun (first : Bool) (c : MCmd) =>
    if c.gi != gi || c.stop != .running then c
    else if !first || c.done = 0 || atBoundary c.gran c.done then { c with stop := .preempted }
    else { c with asked := true }
  s.updEN (fun e => { e with mqueues := e.mqueues.map (fun q => (q.1, { q.2 with
    cmds := ((List.range q.2.cmds.length).zip q.2.cmds).map (fun c => stop (c.1 = 0) c.2) })) })

/-- R398: pre-empt one group. -/
def preemptGroup (s : State) (gi : Nat) : State :=
  let s := ((s.wk.warps.filter (fun w => w.2.gi = gi)).map (·.1)).foldl freeQuarter s
  let opened := (groupThreads s gi).filter (fun t => t.2.restart.isOpen && t.2.stat != .exited)
  let (waits, runs) := (opened.map (·.1)).partition (fun k => waitsNow s gi (k / 32 % 32) (k % 32))
  let s := waits.foldl (fun s k => keepWaiting s gi (k / 32 % 32) (k % 32)) s
  let s := restoreThreads s gi runs
  let fix := fun (l : ResLane) => match l.src with | .spad .. => { l with src := .fixed } | .mem .. | .fixed => l
  let s := s.updWK (fun k => { k with results := k.results.map (fun r =>
    if r.2.gi = gi then (r.1, { r.2 with lanes := r.2.lanes.map fix }) else r) })
  (askStops s gi).updGroup gi (fun g => { g with resident := false })

/-- Whether a span may be pre-empted for a reason now (R384, R398, R401, R447). -/
def mayPreempt (s : State) (x : Span) (why : PreemptWhy) : Bool :=
  let g := s.grid x.grid
  let cores := x.groups.map (fun i => (s.group i).core)
  match why with
  | .slice => true
  | .freeze => isFrozen s g.ctx || isResetting s g.ctx
  | .lent => cores.any (fun n => s.pt.lent.find n = some g.ctx && s.cx.ctxs.any (fun c => c.1 != g.ctx && ownCore s c.1 n))
  | .replace => cores.any (fun n => !(ownCore s g.ctx n || s.pt.lent.find n = some g.ctx) ||
      (!latchFits s g.world n && (!modeChanging s n || arrayIdle s n)))

/-- R398: pre-empt a span: every group of it leaves its core. Loans that it used end with a recall (R384). -/
def preemptSpan (s : State) (sp : Nat) (x : Span) (why : PreemptWhy) : State :=
  let cores := x.groups.map (fun i => (s.group i).core)
  let s := x.groups.foldl preemptGroup s
  let s := if why = .lent then s.updPT (fun p => { p with lent := p.lent.filter (fun l => !cores.contains l.1) }) else s
  s.updWK (fun k => { k with spans := k.spans.upd sp (fun y => { y with placed := false }) })

/-- R398. -/
def execPreemption (span : Nat) (why : PreemptWhy) (s : State) : Out :=
  .next (match s.wk.spans.find span with
    | none => s
    | some x => if x.placed && mayPreempt s x why then preemptSpan s span x why else s)

end Sys2Proof.Machine
end

