-- ==== Sys2Proof/Machine/Subtree.lean ====
section
/-!
DEFINITION. Operations on subtrees and what they share with keys, worlds and wear (R401 to R424, R428, R443 to R448, R460, R474 to
R476): frames and their charges, key slots, the clearing of cores, staged changes, operations in progress, reset.
-/
namespace Sys2Proof.Machine

/-- The contexts of a subtree, its top included. -/
def subtree (s : State) (t : Nat) : List Nat := (s.cx.ctxs.map (·.1)).filter (fun c => isAncestor s t c)
/-- Subtrees that overlap (R409). -/
def overlaps (s : State) (a b : Nat) : Bool := isAncestor s a b || isAncestor s b a
def State.oper (s : State) (id : Nat) : Oper := (s.cx.opers.find id).getD {}
def State.updOper (s : State) (id : Nat) (f : Oper → Oper) : State := s.updCX (fun c => { c with opers := c.opers.upd id f })
def State.job (s : State) (id : Nat) : Job := (s.cx.jobs.find id).getD { active := false }
def State.updJob (s : State) (id : Nat) (f : Job → Job) : State := s.updCX (fun c => { c with jobs := c.jobs.upd id f })

/-- A command fault posted to a context's own handler queue (R412, R442). -/
def postOwn (s : State) (ctx : Nat) (bytes : List Byte) : State :=
  s.updCtx ctx (fun c => { c with fq := c.fq.enqueue { bytes := bytes } })

/-! ### Frames and their charges (R128, R428, R445) -/

/-- CTX.FRAMES.USED changes by a number of frames. -/
def addUsed (s : State) (ctx n : Nat) : State := s.updCtx ctx (fun c => { c with used := c.used + n })
def dropUsed (s : State) (ctx n : Nat) : State := s.updCtx ctx (fun c => { c with used := c.used - n })

/-- A frame that no context holds is charged to one: its world tag becomes that of the context (R428, R445). -/
def giveFrame (s : State) (fr ctx : Nat) : State :=
  addUsed (s.updFrame fr (fun f => { f with bound := false, attr := 0, key := 0, state := 0, charge := ctx, wt := (s.ctx ctx).world })) ctx 1

/-- A frame's charge moves (R420): a change of its world tag first drops its translations (R428). -/
def moveCharge (s : State) (fr ctx : Nat) : State :=
  let f := s.frame fr
  if f.state ≠ 0 ∨ f.charge = ctx ∨ !s.liveCtx ctx then s
  else
    let s := if f.wt = (s.ctx ctx).world then s else dropFrameXl s fr
    addUsed (dropUsed (s.updFrame fr (fun f => { f with charge := ctx, wt := (s.ctx ctx).world })) f.charge 1) ctx 1

/-- The lines of a frame leave every cache without write-back, and its poison goes with them. -/
def discardFrame (s : State) (fr : Nat) : State :=
  s.updMM (fun m => { m with
    l1 := m.l1.filter (fun c => c.1 % 2 ^ 41 / 512 != fr)
    llc := m.llc.filter (fun c => c.1 / 512 != fr)
    hbmPoison := m.hbmPoison.filter (fun g => g / 1024 != fr) })

/-- Backwash writes every granule of a frame with zeros (R445). -/
def zeroFrame (s : State) (fr : Nat) : State :=
  (discardFrame s fr).updMM (fun m => { m with mem := m.mem.filter (fun c => c.1 / 2 ^ 16 != fr) })

/-- An access that used an older translation of a frame is still to be performed (R112, R125, R444): a store, a request at a service warp, a
load that waits for an engine's claim, an engine's claim. -/
def frameBusy (s : State) (fr : Nat) : Bool :=
  s.mm.claims.any (fun c => c.line / 512 = fr) || s.mm.dirItems.any (fun d => d.2.claim.isSome && d.2.line / 512 = fr) ||
  s.wk.results.any (fun r => !r.2.known && r.2.lanes.any (fun x =>
    match x.src with
    | .mem _ pa _ => decide (pa / 2 ^ 16 = fr)
    | .fixed | .spad .. => false)) ||
  s.rg.hwarps.any (fun h => h.2.fifo.any (fun e => e.writes.any (fun x =>
    match x.dest with
    | .mem .. => decide (x.addr / 2 ^ 16 = fr)
    | .spad | .tx _ => false))) ||
  s.mm.svc.any (fun r => r.2.kind != .gsync && !r.2.waiting && decide (r.2.pa / 2 ^ 16 = fr))

/-- Loads of a frame whose values are formed keep them: what comes to stand in the frame is later (R64, R125). -/
def fixFrame (s : State) (fr : Nat) : State :=
  let fix := fun (x : ResLane) =>
    match x.src with
    | .mem _ pa _ => if pa / 2 ^ 16 = fr then { x with src := .fixed } else x
    | .fixed | .spad .. => x
  s.updWK (fun k => { k with results := k.results.map (fun r => (r.1, { r.2 with lanes := r.2.lanes.map fix })) })

/-! ### Key slots (R406, R434, R443) -/

/-- A slot lies in a context's range. -/
def hasSlot (g : Grant) (fabric : Bool) (k : Nat) : Bool :=
  if fabric then decide (g.fkBase ≤ k) && decide (k < g.fkBase + g.fkCount) else decide (g.mkBase ≤ k) && decide (k < g.mkBase + g.mkCount)

/-- The context that holds a slot: it has been handed down from the root as far as it goes (R406). -/
def holderFrom : Nat → State → Bool → Nat → Nat → Nat
  | 0, _, _, _, ctx => ctx
  | fuel + 1, s, fabric, k, ctx =>
    match (children s ctx).find? (fun c => hasSlot (s.ctx c).grant fabric k) with
    | some c => holderFrom fuel s fabric k c
    | none => ctx
def slotHolder (s : State) (fabric : Bool) (k : Nat) : Nat := holderFrom 3 s fabric k 0

/-- Bytes of a frame under key material that is gone are open (FREE VALUE, log entry 5); under ENCI their MACs fail (R432). -/
def loseFrame (s : State) (fr attr : Nat) : State :=
  if attr = 2 then
    s.updMM (fun m => { m with hbmPoison := (List.range 1024).map (fun i => fr * 1024 + i) ++ m.hbmPoison.filter (fun g => g / 1024 != fr) })
  else
    let (n, s) := s.fresh
    setMemBytes s (fr * 2 ^ 16) ((List.range 65536).map (fun i => (Config.freeWord (n * 65536 + i)).setWidth 8))

/-- R443 steps 1 and 2: a slot is empty, and translations under it are dropped. Answers the translations. -/
def emptySlot (s : State) (fabric : Bool) (k : Nat) : List TlbEnt × State :=
  if fabric then ([], s.updPT (fun p => { p with fkeys := p.fkeys.filter (fun x => x.1 != k || x.2.gone) }))
  else
    let uses := fun (t : Xl) => t.attr != 0 && (t.ty = .page || t.ty = .rxWin) && keySlotOf s t = k
    let s' := dropFormed (s.updPT (fun p => { p with mkeys := p.mkeys.filter (fun x => x.1 != k || x.2.gone) })) (fun _ t => uses t)
    (s.xl.tlb.filter (fun e => uses e.xl), s'.updXL (fun x => { x with tlb := x.tlb.filter (fun e => !uses e.xl) }))

/-- R443 step 3: what the caches hold of the frames bound to a memory slot is discarded without write-back. -/
def forgetSlot (s : State) (k : Nat) : State :=
  (s.xl.frames.filter (fun f => f.2.bound && f.2.attr != 0 && f.2.key = k)).foldl (fun s f =>
    loseFrame (discardFrame s f.1) f.1 f.2.attr) s

/-- A slot is zeroised (R443). -/
def zeroSlot (s : State) (fabric : Bool) (k : Nat) : State :=
  let s := (emptySlot s fabric k).2
  if fabric then s else forgetSlot s k

/-- Slots in a range of a grant that another grant does not hold. -/
def lostSlots (a b : Grant) (fabric : Bool) : List Nat :=
  ((List.range 256).filter (fun k => hasSlot a fabric k && !hasSlot b fabric k))

/-! ### Clearing a core (R447) -/

/-- R447 steps 2, 4 and 5: ranges are saved, dirty words are registered, and what the core holds is set to zero. Tiles of contexts whose
groups were pre-empted there are in their save areas. -/
def clearCore (s : State) (n : Nat) : State :=
  let s := ((s.wk.groups.filter (fun g => g.2.core = n && !g.2.resident && g.2.intact)).map (·.1)).foldl saveRange s
  let keep := (s.wk.groups.filter (fun g => g.2.core = n)).map (fun g => g.2.ctx)
  let s := ((s.mm.l1.filter (fun c => c.1 / 2 ^ 41 = n)).map (fun c => c.1 % 2 ^ 41)).foldl (fun s l => l1Evict s n l) s
  let s := s.updMM (fun m => { m with
    icache := m.icache.filter (fun c => c.1 / 2 ^ 41 != n)
    ccache := m.ccache.filter (fun c => c.1 / 2 ^ 41 != n)
    spad := m.spad.filter (fun c => c.1 / 2 ^ 19 != n)
    presence := m.presence.filter (fun c => c.1 / 4096 != n) })
  let s := s.updXL (fun x => { x with tlb := x.tlb.filter (fun e => !(e.place = 0 && e.unit = n)) })
  let gone := fun (k : Nat) => k / 65536 % 384 = n && !keep.contains (k / 65536 / 384)
  let s := s.updEN (fun e => { e with
    accs := e.accs.filter (fun c => !gone c.1)
    accPoison := e.accPoison.filter (fun k => !gone k)
    grants := e.grants.filter (fun g => g.1 / 2 != n) })
  s.updPT (fun p => { p with spadPoison := p.spadPoison.filter (fun k => k / 2 ^ 17 != n) })

/-! ### Staged changes (R421, R422, R460) -/

/-- Places with spares (R463): the pool that a unit draws on, and its number of spares. -/
def sparePool : WearUnit → Nat
  | .core n => n / 192
  | .slice n => 16 + n / 128
  | .pchan stack _ => 32 + stack
  | .lane port => 64 + port
  | .keyRow fabric _ => if fabric then 97 else 96
def spareCount (u : WearUnit) : Nat :=
  if !Config.recordVerifies then 0
  else
    match u with
    | .core _ => 12
    | .slice _ => 4
    | .pchan .. => 8
    | .lane _ => 2
    | .keyRow .. => 8
def spareFloor : WearUnit → Nat
  | .core _ => 4
  | .slice _ => 1
  | .pchan .. => 2
  | .lane _ => 1
  | .keyRow .. => 2

/-- Where a byte of main memory lies (R115): its stack, its pseudo-channel there, its block of 256 bytes there. -/
def stackOf (pa : Nat) : Nat := pa / 2 ^ 8 % 12
def pchOf (pa : Nat) : Nat := pa / 2 ^ 8 / 12 % 64
def locOf (pa : Nat) : Nat := pa / 2 ^ 8 / 12 / 64

/-- A frame has a block in a pseudo-channel that is lost with no spare (R115, R463). -/
def frameLost (s : State) (fr : Nat) : Bool :=
  s.pt.retired.any (fun u =>
    match u with
    | .pchan stack n => (List.range 256).any (fun j => stackOf (fr * 2 ^ 16 + 256 * j) = stack && pchOf (fr * 2 ^ 16 + 256 * j) = n)
    | _ => false)

/-- Frames still assignable (R422): those of the 560 GiB with no block in a lost pseudo-channel. Which channels a frame meets depends on
its number mod 3 alone, 768 channels taking a block of 256 bytes each in turn (DEDUCED, log entry 40). -/
def assignable (s : State) : Nat :=
  ((List.range 3).map (fun r => if frameLost s r then 0 else (9175040 - r + 2) / 3)).sum

/-- A frame returns to the free pool (R125); one that meets a lost pseudo-channel does not (R463). -/
def poolPut (s : State) (fr : Nat) : State :=
  if frameLost s fr then s else s.updXL (fun x => { x with pool := x.pool ++ [fr] })

/-- A context's guarantee becomes a new value, with the event R422 asks for. -/
def cutGuar (s : State) (c new : Nat) : State :=
  if (s.ctx c).guar = new then s
  else
    let s := s.updCtx c (fun x => { x with guar := new, burst := max x.burst new })
    postEvent s c 0x83 none new

/-- R422: the children of a context receive floor(GUAR * F / S). -/
def cutChildren (s : State) (t f : Nat) : State :=
  let cs := children s t
  let sum := (cs.map (fun c => (s.ctx c).guar)).sum
  if sum ≤ f then s else cs.foldl (fun s c => cutGuar s c ((s.ctx c).guar * f / sum)) s

/-- R422: guarantees above what is left are cut from the top down. -/
def cutGuarantees (s : State) : State :=
  let s := cutChildren s 0 (assignable s)
  [1, 2].foldl (fun s lv =>
    ((s.cx.ctxs.filter (fun c => c.2.level = lv)).map (·.1)).foldl (fun s c => cutChildren s c (s.ctx c).guar) s) s

/-- R119: the host slice of a slice that wears out with no spare. -/
def hostSlice (s : State) (n : Nat) : Nat :=
  let live := fun (x : Nat) => x != n && !s.pt.retired.contains (.slice x)
  let order := (List.range 255).map (fun i => n ^^^ (i + 1))
  ((order.find? (fun x => live x && x / 128 = n / 128)).orElse (fun _ => order.find? live)).getD n

/-- R119: a slice's lines go to its host: dirty lines stand in HBM, owners are sent drops. -/
def retireSlice (s : State) (n : Nat) : State :=
  let s := ((s.mm.llc.map (·.1)).filter (fun l => sliceOf s l = n)).foldl llcEvict s
  let h := hostSlice s n
  let goes := fun (i : Nat) => let x := NMap.get i s.mm.sliceMap i; if x = n then h else x
  s.updMM (fun m => { m with sliceMap := ((List.range 256).filter (fun i => goes i != i)).map (fun i => (i, goes i)) })

/-- R464: HEALTH reads a worse state; the change waits for the host in a record whose bytes no rule gives (FREE VALUE, log entry 5). -/
def worsen (s : State) (n : Nat) : State :=
  if n ≤ s.pt.health then s
  else
    let (x, s) := s.openField 512
    s.updPT (fun p => { p with health := n, headland := p.headland ++ [bytesOfNat 64 x] })

/-- R463: what the loss of a unit does. -/
def loseUnit (s : State) (u : WearUnit) : State :=
  let s := s.updPT (fun p => { p with retired := p.retired ++ [u] })
  match u with
  | .core _ | .lane _ => s
  | .slice n => retireSlice s n
  | .pchan .. => cutGuarantees (s.updXL (fun x => { x with pool := x.pool.filter (fun f => !frameLost s f) }))
  | .keyRow fabric k =>
    let s := zeroSlot s fabric k
    let gone : KeySlot := { gone := true }
    s.updPT (fun p => if fabric then { p with fkeys := NMap.insert p.fkeys k gone } else { p with mkeys := NMap.insert p.mkeys k gone })

/-- R463: a unit is retired: a spare takes its place, or, with none left, it is lost. -/
def retireUnit (s : State) (u : WearUnit) : State :=
  let used := NMap.get 0 s.pt.sparesUsed (sparePool u)
  if used < spareCount u then
    let s := s.updPT (fun p => { p with sparesUsed := NMap.set 0 p.sparesUsed (sparePool u) (used + 1) })
    let s := worsen s (if spareCount u - (used + 1) < spareFloor u then 2 else 1)
    match u with
    | .slice n => ((s.mm.llc.map (·.1)).filter (fun l => sliceOf s l = n)).foldl llcEvict s
    | _ => s
  else loseUnit (worsen s 2) u

/-- R415, R416: contexts of a removed subtree are gone: frames still unmapped return to the parent, jobs and worlds are freed. -/
def removeCtx (s : State) (t : Nat) : State :=
  if !(s.cx.ctxs.find t).isSome then s
  else
    let ids := subtree s t
    let p := (s.ctx t).parent
    let frames := (s.xl.frames.filter (fun f => f.2.state = 3 && ids.contains f.2.charge)).map (·.1)
    let s := frames.foldl (fun s f => giveFrame s f p) s
    s.updCX (fun c => { c with
      ctxs := c.ctxs.filter (fun x => !ids.contains x.1)
      jobs := c.jobs.map (fun j => if ids.contains j.2.owner then (j.1, { j.2 with owner := p }) else j)
      worldOwner := c.worldOwner.filter (fun w => !ids.contains w.2) })

/-- A staged change takes effect. -/
def applyChange (s : State) (c : Change) : State :=
  match c with
  | .grant ctx g =>
    let old := (s.ctx ctx).grant
    let s := (lostSlots old g false).foldl (fun s k => zeroSlot s false k) s
    let s := (lostSlots old g true).foldl (fun s k => zeroSlot s true k) s
    s.updCtx ctx (fun x => { x with grant := g })
  | .remove ctx => removeCtx s ctx
  | .share ctx v cc m l guar burst =>
    s.updCtx ctx (fun x => { x with shareV := v, shareC := cc, shareM := m, shareL := l, guar := guar, burst := burst })
  | .charge frames ctx => frames.foldl (fun s f => moveCharge s f ctx) s
  | .modes l =>
    l.foldl (fun s x => s.updEN (fun e => { e with
      arrMode := NMap.set 0 e.arrMode x.1 x.2
      grants := if NMap.get 0 e.arrMode x.1 = x.2 then e.grants else e.grants.filter (fun g => g.1 / 2 != x.1) })) s
  | .retire u => retireUnit s u

/-- The tables as they will stand after the changes already staged (R421): those that earlier checks look at. -/
def planned (s : State) : State :=
  s.cx.staged.foldl (fun s c => match c.change with
    | .grant ctx g => s.updCtx ctx (fun x => { x with grant := g })
    | .modes _ | .retire _ => s
    | x => applyChange s x) s

/-- Stage a change for the next tick. Answers its identity. -/
def stage (s : State) (c : Change) (oper : Option Nat) (reply : Option (Nat × Nat)) : Nat × State :=
  let (id, s) := s.fresh
  (id, s.updCX (fun x => { x with staged := x.staged ++ [{ id := id, change := c, oper := oper, reply := reply }] }))

/-- The engines that a change affects are quiet (R460): no pair binds a core that is to be split, its queues are empty, its groups
have left. -/
def changeQuiet (s : State) (c : Change) : Bool :=
  let empty := fun (n : Nat) => holders s n = []
  match c with
  | .modes l => (l.filter (fun x => NMap.get 0 s.en.arrMode x.1 != x.2)).all (fun x =>
      empty x.1 && arrayIdle s x.1 && !(s.en.pairs.any (fun p => p % 512 = x.1 || p % 512 + 1 = x.1)))
  | .retire (.core n) => empty n
  | _ => true

/-! ### Operations in progress (R405, R409) -/

/-- An operation waits for an earlier one on an overlapping subtree (R409): a freeze joins a freeze or a checkpoint, a reset a reset
(R417). -/
def waitsFor (k before : OpKind) : Bool :=
  match k, before with
  | .latch .., _ | _, .latch .. => false
  | .freeze, .freeze | .freeze, .ckpt .. | .reset, .reset => false
  | _, _ => true

def isLatch (k : OpKind) : Bool := match k with | .latch .. => true | _ => false
def isResetOp (k : OpKind) : Bool := k = .reset || k = .revoke

/-- Earlier operations that one waits for. -/
def blockers (s : State) (id : Nat) (o : Oper) : List Nat :=
  (s.cx.opers.filter (fun x => decide (x.1 < id) && waitsFor o.kind x.2.kind && overlaps s x.2.target o.target)).map (·.1)

/-- A reset or revoke is in progress on an overlapping subtree (R409). -/
def inReset (s : State) (t : Nat) : Bool := s.cx.opers.any (fun x => isResetOp x.2.kind && overlaps s x.2.target t)

/-- Operations on overlapping subtrees in progress. -/
def opsOver (s : State) (t : Nat) : List Nat :=
  (s.cx.opers.filter (fun x => !isLatch x.2.kind && overlaps s x.2.target t)).map (·.1)

/-- An operation is done: its barrier receives 1 (R405). -/
def completeOper (s : State) (id : Nat) : State :=
  let o := s.oper id
  partBar (s.updCX (fun c => { c with opers := c.opers.erase id })) o.issuer o.bar

/-- R415 step 1: dispatch stops for contexts; records not yet accepted are refused, grids being placed place no further span. -/
def stopDispatch (s : State) (ids : List Nat) : State :=
  let s := ids.foldl (fun s c => s.updCtx c (fun x => { x with resetting := true })) s
  let s := (s.pt.queues.map (·.1)).foldl (fun s q =>
    let out := (queueOf s q).recs.filter (fun r => ids.contains r.ctx)
    let s := setQueue s q (fun l => { l with recs := l.recs.filter (fun r => !ids.contains r.ctx) })
    (out.filter (fun r => r.grid.isNone)).foldl (fun s r => replyRefused (countRefused s q 7) r.frame 7) s) s
  s.updPT (fun p => { p with grids := p.grids.map (fun g => if ids.contains g.2.ctx then (g.1, { g.2 with dropped := true }) else g) })

/-- R417: an arriving reset holds the jobs of the resets that it overlaps. -/
def holdJobs (s : State) (t : Nat) : State :=
  let js := (s.cx.opers.filter (fun x => isResetOp x.2.kind && overlaps s x.2.target t)).flatMap (fun x => x.2.jobs)
  js.foldl (fun s j => s.updJob j (fun x => { x with held := x.held || x.active })) s

/-- An operation that nothing holds back begins. A target that has been removed meanwhile leaves nothing to do. -/
def beginOper (s : State) (id : Nat) : State :=
  let o := s.oper id
  let drain := fun (s : State) => s.updOper id (fun o => { o with stage := .draining })
  if !isLatch o.kind && !s.liveCtx o.target then completeOper s id
  else
    match o.kind with
    | .freeze | .ckpt .. => drain (s.updCtx o.target (fun c => { c with frozen := true }))
    | .thaw => completeOper (s.updCtx o.target (fun c => { c with frozen := false })) id
    | .reset | .revoke => drain (stopDispatch (holdJobs s o.target) (subtree s o.target))
    | .latch .. => drain s

/-- Operations that waited begin, in their order. -/
def wakeOpers (s : State) : State :=
  (s.cx.opers.map (·.1)).foldl (fun s id =>
    match s.cx.opers.find id with
    | some o => if o.stage = .waiting && blockers s id o = [] then beginOper s id else s
    | none => s) s

/-- A new operation: it begins, or waits its turn. -/
def startOper (s : State) (o : Oper) : State :=
  let (id, s) := s.fresh
  wakeOpers (s.updCX (fun c => { c with opers := NMap.insert c.opers id { o with stage := .waiting } }))

/-- Spans, commands and outbound reflection of contexts have quiesced (R410 steps 2 to 4, R415 steps 2 to 4). -/
def quiesced (s : State) (ids : List Nat) : Bool :=
  (s.wk.groups.filter (fun g => ids.contains g.2.ctx)).all (fun g => !g.2.resident && !leaving s g.1) &&
  !(s.fb.packets.any (fun p => p.2.core != 65534 && ids.contains p.2.ctx))

/-! ### Reset (R415 to R417, R448, R474) -/

/-- R474: a group of a subtree under reset ends: nothing is committed, counted or extended. -/
def killGroup (s : State) (gi : Nat) : State :=
  let s := ((s.en.cmds.filter (fun c => c.2.gi = gi)).map (·.1)).foldl (fun s c => dropClaims s c) s
  let s := s.updEN (fun e => { e with
    cmds := e.cmds.filter (fun c => c.2.gi != gi)
    clears := e.clears.filter (fun x => (e.cmds.find x.2).isSome && ((e.cmds.find x.2).getD {}).gi != gi)
    mqueues := (e.mqueues.map (fun q => (q.1, { q.2 with cmds := q.2.cmds.filter (fun c => c.gi != gi) }))).filter (fun q => q.2 != {}) })
  let s := s.updMM (fun m => { m with svc := m.svc.filter (fun r => r.2.gi != gi) })
  clearGroup (s.updWK (fun k => { k with stops := k.stops.filter (fun t => t.2.gi != gi) })) gi

/-- The groups, grids and engine state of contexts are gone. -/
def killCtxs (s : State) (ids : List Nat) : State :=
  let s := ((s.wk.groups.filter (fun g => ids.contains g.2.ctx)).map (·.1)).foldl killGroup s
  let acc := fun (k : Nat) => ids.contains (k / 65536 / 384)
  let s := s.updEN (fun e => { e with
    mqueues := e.mqueues.filter (fun q => !ids.contains (q.1 % 4096))
    mcounts := e.mcounts.filter (fun q => !ids.contains (q.1 % 4096))
    grants := e.grants.filter (fun g => !ids.contains g.2)
    pairs := e.pairs.filter (fun p => !ids.contains (p / 512))
    accs := e.accs.filter (fun c => !acc c.1)
    accPoison := e.accPoison.filter (fun k => !acc k) })
  s.updPT (fun p => { p with
    grids := p.grids.filter (fun g => !ids.contains g.2.ctx)
    vt := p.vt.filter (fun c => !ids.contains (c.1 % 4096))
    lent := p.lent.filter (fun l => !ids.contains l.2) })

/-- R448: cores latched to a world that one of the contexts owns are cleared and latched to 0. -/
def freeWorldCores (s : State) (ids : List Nat) : State :=
  let ws := (s.cx.worldOwner.filter (fun w => ids.contains w.2)).map (·.1)
  ((s.cx.latch.filter (fun l => ws.contains l.2)).map (·.1)).foldl (fun s n =>
    (clearCore s n).updCX (fun c => { c with latch := NMap.set 0 c.latch n 0 })) s

/-- R415 step 5: translations go as by `tlbi.ctx`, page requests, stops and held answers are discarded. The record of
such a request that still waits in the part goes with it. -/
def dropTranslations (s : State) (ids : List Nat) : State :=
  let s := ids.foldl (fun s c => dropXl s c 0 0 true) s
  let gone := (s.xl.reqs.filter (fun r => ids.contains r.2.ctx)).map (·.1)
  let s := s.updCX (fun x => { x with ctxs := x.ctxs.map (fun c => (c.1, { c.2 with
    prq := { c.2.prq with waiting := c.2.prq.waiting.filter (fun w => !gone.any (fun g => w.req = some g)) } })) })
  s.updXL (fun x => { x with
    reqs := x.reqs.filter (fun r => !ids.contains r.2.ctx)
    walks := x.walks.filter (fun w => !ids.contains w.2.ctx)
    acnt := x.acnt.filter (fun a => !ids.contains (a.1 / 2 ^ 39 % 4096))
    farNotes := x.farNotes.filter (fun n => !ids.contains n.1)
    logged := x.logged.filter (fun l => !ids.contains l.1) })

/-- R415 step 6: the slots that a subtree holds are zeroised. -/
def zeroSlots (s : State) (t : Nat) : State :=
  let none_ : Grant := {}
  let s := (lostSlots (s.ctx t).grant none_ false).foldl (fun s k => zeroSlot s false k) s
  (lostSlots (s.ctx t).grant none_ true).foldl (fun s k => zeroSlot s true k) s

/-- R415 step 7: frames charged to contexts are unmapped. Answers them in ascending order. -/
def unmapFrames (s : State) (ids : List Nat) : List Nat × State :=
  let l := (s.xl.frames.filter (fun f => f.2.state = 0 && ids.contains f.2.charge)).map (·.1)
  (l, l.foldl (fun s f =>
    let s := (s.xl.parks.filter (fun p => p.2.frame = f)).foldl cancelPark s
    dropFrameXl (s.updFrame f (fun x => { x with state := 3 })) f) s)

/-- A context as R407 creates it, with its place, its grants and its share of the parent kept (R402, R415). -/
def freshCtx (c : Ctx) : Ctx :=
  { parent := c.parent, level := c.level, world := c.world, resetting := c.resetting, gone := c.gone, grant := c.grant,
    shareV := c.shareV, shareC := c.shareC, shareM := c.shareM, shareL := c.shareL, guar := c.guar, burst := c.burst, used := c.used }

/-- The free job records of Headland (R444). -/
def freeJobs (s : State) : List Nat := (List.range 4096).filter (fun i => !(s.job i).active)

/-- R475: the subtree's frames, in ascending order, join the job of a reset in progress, or form a job of the target's parent. -/
def scrubFor (s : State) (id : Nat) (o : Oper) (ids frames : List Nat) : State :=
  let others := (s.cx.opers.filter (fun x => x.1 != id && isResetOp x.2.kind && overlaps s x.2.target o.target)).flatMap (fun x => x.2.jobs)
  let live := (others.filter (fun j => (s.job j).active)).eraseDups
  let set := fun (s : State) (js : List Nat) => s.updOper id (fun o => { o with stage := .working, jobs := js })
  match live with
  | j :: _ =>
    set (s.updJob j (fun x => { x with
      left := x.left ++ frames, total := x.total + frames.length, ctxs := (x.ctxs ++ ids).eraseDups, held := true })) live
  | [] =>
    if frames = [] then set s []
    else
      let (i, s) := s.pick (freeJobs s).length
      let j := (freeJobs s).getD i 0
      let x : Job := { owner := (s.ctx o.target).parent, left := frames, total := frames.length, ofReset := true, ctxs := ids }
      set (s.updCX (fun c => { c with jobs := NMap.insert c.jobs j x })) [j]

/-- A reset whose frames are all scrubbed, and those of every reset that it overlaps (R417). -/
def resetReady (s : State) (o : Oper) : Bool :=
  (s.cx.opers.filter (fun x => isResetOp x.2.kind && overlaps s x.2.target o.target)).all (fun x =>
    match x.2.stage with
    | .waiting | .ticking => true
    | .draining => false
    | .working => x.2.jobs.all (fun j => !(s.job j).active))

/-- R415 step 9, R416: the frames return to the target's parent, those of a revocation at the next tick; the descendants, or the target
too, are removed at that tick. -/
def finishReset (s : State) (id : Nat) : State :=
  let o := s.oper id
  let t := o.target
  if !s.liveCtx t then completeOper s id
  else
    let ids := subtree s t
    let p := (s.ctx t).parent
    let s := ids.foldl (fun s c => s.updCtx c (fun x => { x with used := 0 })) s
    if o.kind = .revoke then
      (stage (s.updOper id (fun o => { o with stage := .ticking })) (.remove t) (some id) none).2
    else
      let frames := (s.xl.frames.filter (fun f => f.2.state = 3 && ids.contains f.2.charge)).map (·.1)
      let s := frames.foldl (fun s f => giveFrame s f p) s
      let s := (ids.filter (fun c => c != t)).foldl (fun s c => s.updCtx c (fun x => { x with gone := true })) s
      let s := (children s t).foldl (fun s c => (stage s (.remove c) none none).2) s
      completeOper (s.updCtx t (fun c => { c with resetting := false })) id

/-- Resets that have nothing left to scrub finish, outer ones first. -/
def finishResets (s : State) : State :=
  let ready := byHome (fun (x : Nat × Oper) => (s.ctx x.2.target).level)
    (s.cx.opers.filter (fun x => isResetOp x.2.kind && x.2.stage = .working && resetReady s x.2))
  wakeOpers (ready.foldl (fun s x => finishReset s x.1) s)

/-- Parks of frames charged to contexts whose leaf or record an engine holds (R122): their cancelling waits. -/
def parksHeld (s : State) (ids : List Nat) : Bool :=
  s.xl.parks.any (fun p => ids.contains (s.frame p.2.frame).charge && partWaits s [p.2.leafPa, p.2.recPa])

/-- R415 steps 5 to 8, once a subtree has drained. It waits for a job record. -/
def afterDrain (s : State) (id : Nat) (o : Oper) : State :=
  if freeJobs s = [] || parksHeld s (subtree s o.target) then s
  else
    let ids := subtree s o.target
    let s := freeWorldCores (killCtxs s ids) ids
    let s := zeroSlots (dropTranslations s ids) o.target
    let (frames, s) := unmapFrames s ids
    let s := ids.foldl (fun s c => s.updCtx c freshCtx) s
    finishResets (scrubFor s id o ids frames)

end Sys2Proof.Machine
end

