-- ==== Sys2Proof/Machine/Subdev.lean ====
section
/-!
DEFINITION. SUBDEV and SHARE (R402 to R426), and the events FREEZE_COMPLETE, CHECKPOINT_IMAGE, CKPT_TRIGGER, LAYOUT_TICK,
LAYOUT_ABANDON, FRAMEMS_TICK.
-/
namespace Sys2Proof.Machine

/-! ### What lanes of these words share (R405, R440) -/

/-- R405 check 1, the column "strict descendant". -/
def strictBelow (s : State) (issuer t : Nat) : Bool := decide (t < 4096) && s.liveCtx t && isAncestor s issuer t && t != issuer
/-- R405 check 1, the column "tenant": the issuer or a descendant. -/
def tenantTarget (s : State) (issuer t : Nat) : Bool := decide (t < 4096) && s.liveCtx t && isAncestor s issuer t

/-- R405 checks 2 and 3 of an address. -/
def addrFate (a align : Nat) : Option Nat := if 2 ^ 55 ≤ a then some 0x10 else if a % align ≠ 0 then some 0x11 else none

/-- Read bytes from an address on, page by page (R405, R440). -/
def readLong : Nat → State → Nat → LaneEnt → Nat → Nat → List Byte → (List Byte → State → LaneOut) → LaneOut
  | 0, s, _, _, _, _, acc, k => k acc s
  | fuel + 1, s, pl, e, va, n, acc, k =>
    if n = 0 then k acc s
    else
      let m := min n (2 ^ 16 - va % 2 ^ 16)
      readImage s pl e va m 1 (fun l s => readLong fuel s pl e (va + m) (n - m) (acc ++ l) k)
def readBytes (s : State) (pl : Nat) (e : LaneEnt) (va n : Nat) (k : List Byte → State → LaneOut) : LaneOut :=
  readLong (n / 65536 + 2) s pl e va n [] k

/-- The entries of a list of 64 KiB-aligned addresses: the frame of each that reaches a stage-0 page leaf, else the code that stands
against it (R420, R444, R476). A page request or a far page holds the lane; the whole list is then checked again. -/
def listFrames : List Nat → State → Nat → LaneEnt → List (Except Nat Nat) → (List (Except Nat Nat) → State → LaneOut) → LaneOut
  | [], s, _, _, acc, k => k acc s
  | a :: l, s, pl, e, acc, k =>
    if a % 2 ^ 16 ≠ 0 ∨ 2 ^ 55 ≤ a then listFrames l s pl e (acc ++ [.error 0x39]) k
    else
      match imageAt s pl e .read a 1 (fun _ _ => none) with
      | .at t s => listFrames l s pl e (acc ++ [if t.ty = .page then .ok (t.pa / 2 ^ 16) else .error 0x39]) k
      | .out (.bad c _ s) => listFrames l s pl e (acc ++ [.error c]) k
      | .out r => r

def okFrames (l : List (Except Nat Nat)) : List Nat := (l.filterMap (fun x => x.toOption)).eraseDups
def allOk (l : List (Except Nat Nat)) : Bool := l.all (fun x => match x with | .ok _ => true | .error _ => false)

/-- Addresses of a list as its bytes hold them. -/
def wordsOf8 (l : List Byte) : List Nat := (List.range (l.length / 8)).map (fun i => fieldOf l (8 * i) 8)

/-- The fields of an operation that the issuing lane supplies. -/
def operOf (s : State) (e : LaneEnt) (k : OpKind) (t : Nat) (bar : Option Nat) : Oper :=
  let w := s.curWarp
  { kind := k, issuer := ctxOf s w, target := t, bar := bar, core := w.core, hwarp := e.hwarp, gid := (s.group w.gi).gid,
    grid := gridField s w.gi, pc := w.pc }

/-- A lane whose operation ends later holds its word (R418, R441): `start` begins it, `value` is DST once it is over. -/
def untilDone (s : State) (pl : Nat) (live : State → Nat → Bool) (value : State → Nat) (start : State → LaneOut) : LaneOut :=
  match s.curWarp.opLane.find pl with
  | some id => if live s id then .park (.oper [id]) s else .ok (value s) s
  | none => start s

/-- The lane awaits an operation. -/
def awaitLane (s : State) (pl id : Nat) : LaneOut :=
  .park (.oper [id]) (s.updWarp s.md.cur (fun w => { w with opLane := NMap.insert w.opLane pl id }))

/-- SUBDEV and SHARE: a release, then each taking lane in order (R405). -/
def subdevWord (s : State) (h : Hdr) (opc : Nat) (d : Reg) (act : State → Nat → LaneEnt → LaneOut) : State :=
  withRelease s (fun s => serialWord s h opc d 1 act)

/-! ### Grants (R402, R406 to R408) -/

/-- R406: a grant descriptor against the parent's grants; none where a value lies outside its column. -/
def grantOf (d : List Byte) (p : Grant) : Option Grant :=
  let f := fieldOf d
  let ok := f 0 2 = 0 && f 0x0C 20 = 0 && f 0x50 48 = 0 && decide (f 3 1 < 64) && decide (f 2 1 + f 4 2 ≤ 256) &&
    decide (f 3 1 + f 6 1 ≤ 64) && decide (f 7 1 < 2) && decide (f 8 2 ≤ 1023) && decide (f 8 2 + f 0x0A 2 ≤ p.qCount)
  if ok then some { steward := f 7 1 = 1, cores := f 0x20 48, qBase := p.qBase + f 8 2, qCount := f 0x0A 2, mkBase := f 2 1,
                    mkCount := f 4 2, fkBase := f 3 1, fkCount := f 6 1 }
  else none

/-- A range of one grant lies in a range of another; ranges of siblings do not meet. -/
def rangeIn (a n b m : Nat) : Bool := n = 0 || (decide (b ≤ a) && decide (a + n ≤ b + m))
def rangeApart (a n b m : Nat) : Bool := n = 0 || m = 0 || decide (a + n ≤ b) || decide (b + m ≤ a)

/-- Grants that lie within others (R402, R408). -/
def grantWithin (g p : Grant) : Bool :=
  (g.cores &&& p.cores) = g.cores && rangeIn g.qBase g.qCount p.qBase p.qCount && rangeIn g.mkBase g.mkCount p.mkBase p.mkCount &&
  rangeIn g.fkBase g.fkCount p.fkBase p.fkCount && (!g.steward || p.steward)

/-- Exclusive grants that do not meet (R402). -/
def grantApart (a b : Grant) : Bool :=
  rangeApart a.qBase a.qCount b.qBase b.qCount && rangeApart a.mkBase a.mkCount b.mkBase b.mkCount &&
  rangeApart a.fkBase a.fkCount b.fkBase b.fkCount

/-- R406: the parent holds what is asked for, and no other child does. -/
def grantFree (s : State) (parent child : Nat) (g : Grant) : Bool :=
  grantWithin g (s.ctx parent).grant &&
  ((children s parent).filter (fun c => c != child)).all (fun c => grantApart g (s.ctx c).grant)

/-- R409: a create, resize or log waits for what is in progress on its subtree, or stops at a reset; else `k`. -/
def withTurn (s : State) (t : Nat) (k : State → LaneOut) : LaneOut :=
  if inReset s t then .bad 0x39 none s
  else
    match opsOver s t with
    | [] => k s
    | l => .park (.oper l) s

/-- The lowest free context id (R407). -/
def freeId (s : State) : Option Nat := ((List.range 4095).map (· + 1)).find? (fun i => (s.cx.ctxs.find i).isNone)

/-- R406, R407: one lane of `subdev.create`. -/
def createLane (s : State) (pl : Nat) (e : LaneEnt) (t va : Nat) : LaneOut :=
  if !tenantTarget s (ctxOf s s.curWarp) t || decide (2 < (s.ctx t).level) then .bad 0x38 none s
  else
    match addrFate va 64 with
    | some c => .bad c (some va) s
    | none =>
      withTurn s t (fun s => readBytes s pl e va 128 (fun d s =>
        let p := planned s
        match grantOf d (p.ctx t).grant with
        | none => .bad 0x39 none s
        | some g =>
          if !grantFree p t 4096 g then .bad 0x3A none s
          else
            match freeId s with
            | none => .bad 0x3A none s
            | some id =>
              let c : Ctx := { parent := t, level := (s.ctx t).level + 1, world := (s.ctx t).world }
              let s := s.updCX (fun x => { x with ctxs := NMap.insert x.ctxs id c })
              let s := (putObj (stage s (.grant id g) none none).2 t 0x05 (d ++ bytesOfNat 2 id)).2
              .ok id s))

/-- R408: one lane of `subdev.resize`. -/
def resizeLane (s : State) (pl : Nat) (e : LaneEnt) (t va : Nat) : LaneOut :=
  if !strictBelow s (ctxOf s s.curWarp) t then .bad 0x38 none s
  else
    match addrFate va 64 with
    | some c => .bad c (some va) s
    | none =>
      withTurn s t (fun s => readBytes s pl e va 128 (fun d s =>
        let p := planned s
        let parent := (s.ctx t).parent
        match grantOf d (p.ctx parent).grant with
        | none => .bad 0x39 none s
        | some g =>
          let old := (p.ctx t).grant
          let back := ((List.range old.qCount).map (· + old.qBase)).filter (fun q => !(decide (g.qBase ≤ q) && decide (q < g.qBase + g.qCount)))
          if back.any (fun q => (queueOf s q).recs != []) || !(children p t).all (fun c => grantWithin (p.ctx c).grant g) then
            .bad 0x39 none s
          else if !grantFree p parent t g then .bad 0x3A none s
          else .ok 0 (stage s (.grant t g) none none).2))

/-! ### Freeze, thaw, checkpoint, reset, revoke (R409 to R417) -/

/-- A thaw has something to clear, now or once an earlier operation has begun (R409). -/
def thawable (s : State) (t : Nat) : Bool :=
  (s.ctx t).frozen || s.cx.opers.any (fun o => o.2.target = t && o.2.stage = .waiting &&
    (match o.2.kind with | .freeze | .ckpt .. => true | _ => false))

/-- One lane of an operation that names a completion barrier in SB. -/
def barrierLane (s : State) (e : LaneEnt) (k : OpKind) (t : Nat) (bar : Option Nat) : LaneOut :=
  if !strictBelow s (ctxOf s s.curWarp) t then .bad 0x38 none s
  else
    match bar.bind (fun a => (addrFate a 8).map (fun c => (c, a))) with
    | some (c, a) => .bad c (some a) s
    | none =>
      if ((k = .freeze || k = .thaw) && inReset s t) || (k = .thaw && !thawable s t) then .bad 0x39 none s
      else .ok 0 (startOper s (operOf s e k t bar))

/-- R412: a checkpoint descriptor: AREA, AREABYTES, DONE, the thaw flag. -/
structure CkptDesc where
  area : Nat
  bytes : Nat
  done : Nat
  thaw : Bool
def ckptDesc (d : List Byte) : Option CkptDesc :=
  let f := fieldOf d
  if f 0x19 39 = 0 ∧ f 0x18 1 < 2 ∧ f 0 8 % 4096 = 0 then some ⟨f 0 8, f 8 8, f 0x10 8, f 0x18 1 = 1⟩ else none

/-- The barrier that a descriptor's DONE names: 0 names none. -/
def doneBar (a : Nat) : Option Nat := if a = 0 then none else some a

/-- One lane of `subdev.ckpt`. -/
def ckptLane (s : State) (pl : Nat) (e : LaneEnt) (t va : Nat) : LaneOut :=
  let issuer := ctxOf s s.curWarp
  if !strictBelow s issuer t then .bad 0x38 none s
  else
    match addrFate va 64 with
    | some c => .bad c (some va) s
    | none =>
      readBytes s pl e va 64 (fun d s =>
        let done := fieldOf d 0x10 8
        match addrFate done 8 with
        | some c => .bad c (some done) s
        | none =>
          if (subtree s t).any (otherWorld s issuer) then .bad 0x1B none s
          else if inReset s t then .bad 0x39 none s
          else
            match ckptDesc d with
            | none => .bad 0x39 none s
            | some x => .ok 0 (startOper s (operOf s e (.ckpt x.area x.bytes x.thaw) t (doneBar done))))

/-! ### The dirty-page log and metering (R423 to R426) -/

/-- R424: cached translations of a subtree lose their write permission; those that had it are kept for the wait. -/
def dropWrites (s : State) (ids : List Nat) : State :=
  let hit := fun (e : TlbEnt) => ids.contains e.ctx && e.xl.w
  let gone := s.xl.tlb.filter hit
  let s := (dropFormed s (fun ctx t => ids.contains ctx && t.w)).updXL (fun x => { x with
    tlb := x.tlb.map (fun e => if hit e then { e with xl := { e.xl with w := false } } else e) })
  s.updWarp s.md.cur (fun w => { w with
    shot := (w.shot ++ gone.map (fun (e : TlbEnt) => (e.ctx, e.page, e.xl.pa / 2 ^ 16, e.xl.size))).eraseDups })

/-- R423, R424: one lane of `subdev.dlog`. -/
def dlogLane (s : State) (pl : Nat) (e : LaneEnt) (t va : Nat) : LaneOut :=
  let issuer := ctxOf s s.curWarp
  if !strictBelow s issuer t then .bad 0x38 none s
  else
    match addrFate va 64 with
    | some c => .bad c (some va) s
    | none =>
      readBytes s pl e va 64 (fun d s =>
        let f := fieldOf d
        match addrFate (f 0x10 8) 8 with
        | some c => .bad c (some (f 0x10 8)) s
        | none =>
          if (subtree s t).any (otherWorld s issuer) then .bad 0x1B none s
          else withTurn s t (fun s =>
            if f 0 8 % 8 ≠ 0 ∨ f 8 4 = 0 ∨ 2 ^ 24 < f 8 4 ∨ 2 ≤ f 0x0C 4 ∨ f 0x20 32 ≠ 0 then .bad 0x39 none s
            else if f 0x0C 4 = 0 then .ok 0 ((pumpLogs s).updCtx t (fun c => { c with dlog := none }))
            else
              writeImage s pl e (va + 0x18) 8 8 (fun pa s =>
                let x : DirtyLog := { issuer := issuer, log := f 0 8, cap := f 8 4, arrive := f 0x10 8, stateAddr := va + 0x18 }
                let s := (pumpLogs s).updCtx t (fun c => { c with dlog := some x })
                .ok 0 (dropWrites (partWrite s pa (bytesOfNat 8 0)) (subtree s t)))))

/-- A dirty-page log's word ends once the accesses that used the old translations are performed (R424). -/
def dlogWord (s : State) (h : Hdr) (d tgt desc : Reg) : State :=
  withRelease s (fun s =>
    eachLane 0xE2 (fun s pl e => dlogLane s pl e (srcVal s tgt 1 pl e) (srcVal s desc 2 pl e))
      (fun s => shotThen s (fun s => putSerial s h d 1)) (sortLanes (takingLanes s s.curWarp h)) s)

/-- R426: one lane of `subdev.meter`. -/
def meterLane (s : State) (pl : Nat) (e : LaneEnt) (t va : Nat) : LaneOut :=
  if !tenantTarget s (ctxOf s s.curWarp) t then .bad 0x38 none s
  else
    match addrFate va 64 with
    | some c => .bad c (some va) s
    | none =>
      writeImage s pl e va 64 64 (fun pa s =>
        let c := s.ctx t
        .ok 0 (partWrite s pa (bytesOfNat 8 c.corecyc ++ bytesOfNat 8 c.arrcyc ++ bytesOfNat 8 c.bytes ++ bytesOfNat 8 c.framems ++
          bytesOfNat 8 s.pt.cycle ++ bytesOfNat 24 0)))

/-! ### The words of SUBDEV (R404) -/

/-- R406, R407. -/
def execSubdevCreate (h : Hdr) (d tgt desc : Reg) (s : State) : Out :=
  .next (subdevWord s h 0xE2 d (fun s pl e => createLane s pl e (srcVal s tgt 1 pl e) (srcVal s desc 2 pl e)))
/-- R408. -/
def execSubdevResize (h : Hdr) (d tgt desc : Reg) (s : State) : Out :=
  .next (subdevWord s h 0xE2 d (fun s pl e => resizeLane s pl e (srcVal s tgt 1 pl e) (srcVal s desc 2 pl e)))
/-- R410. -/
def execSubdevFreeze (h : Hdr) (d tgt : Reg) (bar : Option Reg) (s : State) : Out :=
  .next (subdevWord s h 0xE2 d (fun s pl e => barrierLane s e .freeze (srcVal s tgt 1 pl e) (bar.map (fun r => srcVal s r 2 pl e))))
/-- R411. -/
def execSubdevThaw (h : Hdr) (d tgt : Reg) (bar : Option Reg) (s : State) : Out :=
  .next (subdevWord s h 0xE2 d (fun s pl e => barrierLane s e .thaw (srcVal s tgt 1 pl e) (bar.map (fun r => srcVal s r 2 pl e))))
/-- R412. -/
def execSubdevCkpt (h : Hdr) (d tgt desc : Reg) (s : State) : Out :=
  .next (subdevWord s h 0xE2 d (fun s pl e => ckptLane s pl e (srcVal s tgt 1 pl e) (srcVal s desc 2 pl e)))
/-- R416. -/
def execSubdevRevoke (h : Hdr) (d tgt : Reg) (bar : Option Reg) (s : State) : Out :=
  .next (subdevWord s h 0xE2 d (fun s pl e => barrierLane s e .revoke (srcVal s tgt 1 pl e) (bar.map (fun r => srcVal s r 2 pl e))))
/-- R415. -/
def execSubdevReset (h : Hdr) (d tgt : Reg) (bar : Option Reg) (s : State) : Out :=
  .next (subdevWord s h 0xE2 d (fun s pl e => barrierLane s e .reset (srcVal s tgt 1 pl e) (bar.map (fun r => srcVal s r 2 pl e))))
/-- R423, R424. -/
def execSubdevDlog (h : Hdr) (d tgt desc : Reg) (s : State) : Out := .next (dlogWord s h d tgt desc)
/-- R426. -/
def execSubdevMeter (h : Hdr) (d tgt area : Reg) (s : State) : Out :=
  .next (subdevWord s h 0xE2 d (fun s pl e => meterLane s pl e (srcVal s tgt 1 pl e) (srcVal s area 2 pl e)))

/-! ### SHARE (R418 to R420) -/

/-- A staged change that a lane awaits. -/
def isStaged (s : State) (id : Nat) : Bool := s.cx.staged.any (fun x => x.id = id)

/-- A lane of SHARE: once its change is staged it awaits the tick (R418). -/
def stageLane (s : State) (pl : Nat) (c : Change) : LaneOut :=
  let (id, s) := stage s c none none
  awaitLane s pl id

/-- R419: one lane of `share.set`. -/
def shareSetLane (s : State) (pl : Nat) (e : LaneEnt) (t va : Nat) : LaneOut :=
  untilDone s pl isStaged (fun _ => 0) (fun s =>
    if !strictBelow s (ctxOf s s.curWarp) t then .bad 0x38 none s
    else
      match addrFate va 32 with
      | some c => .bad c (some va) s
      | none =>
        readBytes s pl e va 32 (fun d s =>
          let f := fieldOf d
          let p := planned s
          let parent := p.ctx (s.ctx t).parent
          let sibs := ((children p (s.ctx t).parent).filter (fun c => c != t)).map p.ctx
          let sum := fun (g : Ctx → Nat) => (sibs.map g).sum
          let guar := f 8 4
          if f 0x10 16 ≠ 0 then .bad 0x39 none s
          else if 65536 < f 0 2 + sum (·.shareV) ∨ 65536 < f 2 2 + sum (·.shareC) ∨ 65536 < f 4 2 + sum (·.shareM) ∨
              65536 < f 6 2 + sum (·.shareL) ∨ parent.guar < guar + sum (·.guar) ∨ guar < (((children p t).map p.ctx).map (·.guar)).sum then
            .bad 0x3A none s
          else stageLane s pl (.share t (f 0 2) (f 2 2) (f 4 2) (f 6 2) guar (min (max (f 0x0C 4) guar) parent.burst))))

/-- R420, R428: the frames of the list move, unless an entry stands against it. -/
def chargeFrames (s : State) (pl t dir : Nat) (l : List (Except Nat Nat)) : LaneOut :=
  let issuer := ctxOf s s.curWarp
  let p := planned s
  let giver := if dir = 0 then issuer else t
  let taker := if dir = 0 then t else issuer
  let frames := okFrames l
  let back := fun (x : Except Nat Nat) => match x with
    | .ok f => (p.frame f).wt != (s.ctx issuer).world
    | .error c => c = 0x1B
  if dir = 1 ∧ l.any back then .bad 0x1B none s
  else if !allOk l || frames.any (fun f => (p.frame f).state != 0 || (p.frame f).charge != giver) then .bad 0x39 none s
  else if dir = 0 ∧ (p.ctx t).burst < (p.ctx t).used + frames.length then .bad 0x3A none s
  else stageLane s pl (.charge frames taker)

/-- R420: one lane of `share.chg`. -/
def shareChgLane (s : State) (pl : Nat) (e : LaneEnt) (t va : Nat) : LaneOut :=
  untilDone s pl isStaged (fun _ => 0) (fun s =>
    if !strictBelow s (ctxOf s s.curWarp) t then .bad 0x38 none s
    else
      match addrFate va 16 with
      | some c => .bad c (some va) s
      | none =>
        readBytes s pl e va 16 (fun d s =>
          let f := fieldOf d
          if f 0 8 % 8 ≠ 0 ∨ 2 ^ 55 ≤ f 0 8 ∨ f 8 4 = 0 ∨ 65536 < f 8 4 ∨ 2 ≤ f 0x0C 1 ∨ f 0x0D 3 ≠ 0 then .bad 0x39 none s
          else
            readBytes s pl e (f 0 8) (8 * f 8 4) (fun l s =>
              listFrames (wordsOf8 l) s pl e [] (fun xs s => chargeFrames s pl t (f 0x0C 1) xs))))

/-- R418, R419. -/
def execShareSet (h : Hdr) (d tgt desc : Reg) (s : State) : Out :=
  .next (subdevWord s h 0xEA d (fun s pl e => shareSetLane s pl e (srcVal s tgt 1 pl e) (srcVal s desc 2 pl e)))
/-- R418, R420. -/
def execShareChg (h : Hdr) (d tgt desc : Reg) (s : State) : Out :=
  .next (subdevWord s h 0xEA d (fun s pl e => shareChgLane s pl e (srcVal s tgt 1 pl e) (srcVal s desc 2 pl e)))

/-! ### Events of operations in progress -/

/-- R447: a core is free of groups, and then cleared and latched. Latches of one core follow in their order. -/
def latchCore (s : State) (id n w : Nat) : State :=
  let before := s.cx.opers.any (fun o => decide (o.1 < id) && (match o.2.kind with | .latch c _ => c = n | _ => false))
  if holders s n != [] || before then s
  else completeOper ((clearCore s n).updCX (fun c => { c with latch := NMap.set 0 c.latch n w })) id

/-- An earlier freeze or checkpoint on an overlapping subtree is in progress: a freeze completes with it (R409). -/
def freezeBefore (s : State) (id : Nat) (t : Nat) : Bool :=
  s.cx.opers.any (fun x => decide (x.1 < id) && overlaps s x.2.target t &&
    (match x.2.kind with | .freeze | .ckpt .. => true | _ => false))

/-- R410, R412, R415, R447: what was draining has drained. -/
def execFreezeComplete (op : Nat) (s : State) : Out :=
  .next (match s.cx.opers.find op with
    | none => s
    | some o =>
      if o.stage != .draining then s
      else
        match o.kind with
        | .latch n w => wakeOpers (latchCore s op n w)
        | .thaw => s
        | .freeze =>
          if quiesced s (subtree s o.target) && !freezeBefore s op o.target then wakeOpers (completeOper s op) else s
        | .ckpt .. =>
          if quiesced s (subtree s o.target) then
            let ids := subtree s o.target
            let s := ((s.wk.groups.filter (fun g => ids.contains g.2.ctx && g.2.intact)).map (·.1)).foldl saveRange s
            s.updOper op (fun o => { o with stage := .working, ver := s.cx.layoutVer, chain := (s.ctx o.target).chain })
          else s
        | .reset | .revoke => if quiesced s (subtree s o.target) then afterDrain s op o else s)

/-! ### Checkpoint images (R412, R413) -/

/-- A list in an order that the part chooses (FREE VALUE, log entry 5). -/
def shuffle {α : Type} : Nat → State → List α → List α × State
  | 0, s, l => (l, s)
  | fuel + 1, s, l =>
    let (i, s) := s.pick l.length
    match l[i]? with
    | none => ([], s)
    | some x =>
      let (rest, s) := shuffle fuel s (l.eraseIdx i)
      (x :: rest, s)

def pad64 (l : List Byte) : List Byte := l ++ List.replicate ((64 - l.length % 64) % 64) 0

/-- How a thread stands, for its record. -/
def threadState (th : Thread) (w : Option Warp) : Nat :=
  let park := (w.map (·.park)).getD .none
  let stopped := match park with | .stopped _ => true | _ => false
  let request := match park with | .page _ => true | _ => false
  (if th.stat = .exited then 1 else 0) + (if th.restart.isOpen then 2 else 0) +
  (if park != .none && !stopped && !request then 4 else 0) + (if stopped then 8 else 0) + (if request then 16 else 0)

/-- A thread's record. Fields that mean nothing for it are open: where it has exited, has no open region, or stands in no run. -/
def threadBytes (s : State) (gi t : Nat) : List Byte × State :=
  let h := t / 32
  let l := t % 32
  let th := s.thread (thKey gi h l)
  let w := (warpOfThread s gi h l).map (·.2)
  let here := match w with | some x => if x.tail then th.pc else x.pc | none => th.pc
  let open_ := th.restart.isOpen
  let (pc, s) := if th.stat = .exited then s.openField 64 else (here.toNat, s)
  let (rpc, s) := if open_ then (th.restart.pc.toNat, s) else s.openField 64
  let (rprio, s) := if open_ then (th.restart.prio, s) else s.openField 8
  let (temps, s) := if open_ then (th.restart.temps.map (·.toNat), s)
    else match w with
      | some x => ((List.range 8).map (fun i => (NMap.get 0 x.temps (physOf x h l * 8 + i)).toNat), s)
      | none => let (n, s) := s.openField 256; ((List.range 8).map (fun i => n / 2 ^ (32 * i)), s)
  let p := ((List.range 7).map (fun i => if NMap.get false s.rg.p (pKey gi h i l) then 2 ^ i else 0)).sum
  (bytesOfNat 8 pc ++ bytesOfNat 8 rpc ++ bytesOfNat 1 th.prio ++ bytesOfNat 1 rprio ++ bytesOfNat 1 (threadState th w) ++ bytesOfNat 1 p ++
    bytesOfNat 4 th.gen.toNat ++ (List.range 8).flatMap (fun i => bytesOfNat 4 (temps.getD i 0)) ++ bytesOfNat 8 0, s)

/-- Fields of staging registers as numbers. -/
def stagingNats (t : Staging) : List Nat :=
  let m := fun (x : MStage) => [if x.set then 1 else 0, x.base, x.stride, if x.sp then 1 else 0, x.fmt, if x.c then 1 else 0, x.z]
  m t.a ++ m t.b ++ [if t.shp.set then 1 else 0, t.shp.m, t.shp.n, t.shp.k, if t.spm.ben then 1 else 0, t.spm.bmap,
    if t.spm.bsp then 1 else 0, if t.spm.ien then 1 else 0, t.spm.idx, if t.spm.isp then 1 else 0, t.spm.istride]

/-- A group's section: header, thread records, rows, scratchpad, presence, masks and counters, stopped commands. -/
def groupBytes (s : State) (gi : Nat) : List Byte × State :=
  let g := s.group gi
  let hw := homeCount g
  let head := bytesOfNat 512 (Config.imageHeader ([pathOf s g.ctx, g.gid, gridField s gi, g.gsize, g.regs, g.scratch, g.roles] ++
    (List.range 48).map (fun i => (NMap.get 0 s.rg.s (sKey gi i)).toNat) ++ stagingNats g.stg ++ [g.openBatch, if g.sticky then 1 else 0]))
  let (ths, s) := (List.range g.gsize).foldl (fun (acc : List Byte × State) t =>
    let (b, s) := threadBytes acc.2 gi t
    (acc.1 ++ b, s)) ([], s)
  let rows := (List.range hw).flatMap (fun h => (List.range g.regs).flatMap (fun i => (List.range 32).flatMap (fun l =>
    bytesOfNat 4 (NMap.get 0 s.rg.v (vKey gi h i l)).toNat)))
  let sp := (List.range g.scratch).map (fun i => NMap.get 0 g.savedSp i)
  let pres := (List.range (g.scratch / 128)).flatMap (fun i => bytesOfNat 1 (presenceVal (NMap.get {} g.savedLines i)))
  let masks := Config.imageMasks ((List.range hw).flatMap (fun h =>
    (List.range 12).map (fun k => (kMask s gi h k).toNat) ++ (List.range 6).map (fun c => sbOf s gi h c)))
  let n := (s.en.cmds.filter (fun c => c.2.gi = gi)).length + (s.en.mqueues.map (fun q => (q.2.cmds.filter (fun c => c.gi = gi)).length)).sum
  let (cmds, s) := s.openField (512 * n)
  (pad64 (head ++ ths ++ rows ++ sp ++ pres ++ masks ++ bytesOfNat (64 * n) cmds), s)

/-- The tiles of a context on an array or half that has served it (R144, R264). -/
def tileBytes (s : State) (ctx core half : Nat) : List Byte :=
  let rows := if splitMode s core then (List.range 64).map (· + 64 * half) else List.range 128
  (List.range 8).flatMap (fun a => rows.flatMap (fun m => (List.range 64).flatMap (fun c =>
    bytesOfNat 4 (NMap.get 0 s.en.accs (accBase ctx core a + m * 64 + c)).toNat)))

/-- Sections of contexts one after the other, with the offset of each context's first. -/
def placeSections : Nat → List (List (List Byte)) → List Nat × List Byte
  | _, [] => ([], [])
  | at_, x :: rest =>
    let b := x.flatten
    let (os, bs) := placeSections (at_ + b.length) rest
    (at_ :: os, b ++ bs)

/-- The header of an image. -/
def imageHead (o : Oper) (nctx status bytes need : Nat) : List Byte :=
  bytesOfNat 4 0x4B504348 ++ bytesOfNat 2 1 ++ bytesOfNat 2 nctx ++ bytesOfNat 4 status ++ bytesOfNat 4 o.ver ++ bytesOfNat 8 bytes ++
  bytesOfNat 8 need ++ o.chain

/-- The image after its header. -/
def imageBody (s : State) (o : Oper) : List Byte × State :=
  let (ids, s) := shuffle 4096 s (subtree s o.target)
  let (groups, s) := ids.foldl (fun (acc : List (List (List Byte)) × State) c =>
    let (gs, s) := shuffle 4096 acc.2 ((acc.2.wk.groups.filter (fun g => g.2.ctx = c)).map (·.1))
    let (bs, s) := gs.foldl (fun (a : List (List Byte) × State) gi => let (b, s) := groupBytes a.2 gi; (a.1 ++ [b], s)) ([], s)
    (acc.1 ++ [bs], s)) ([], s)
  let tiles := ids.map (fun c => (s.en.mcounts.filter (fun m => m.1 % 4096 = c)).map (fun m => tileBytes s c (m.1 / 8192) (m.1 / 4096 % 2)))
  let start := 64 + 64 * ids.length
  let (go, gb) := placeSections start groups
  let (to_, tb) := placeSections (start + gb.length) tiles
  let (table, s) := ((List.range ids.length).zip ids).foldl (fun (acc : List Byte × State) q =>
    let c := acc.2.ctx q.2
    let gs := groups.getD q.1 []
    let (o1, s) := if gs = [] then acc.2.openField 64 else (go.getD q.1 0, acc.2)
    let (o2, s) := if tiles.getD q.1 [] = [] then s.openField 64 else (to_.getD q.1 0, s)
    (acc.1 ++ bytesOfNat 2 q.2 ++ bytesOfNat 2 c.parent ++ bytesOfNat 1 c.level ++ bytesOfNat 1 (if c.frozen then 1 else 0) ++ bytesOfNat 2 0 ++
      bytesOfNat 4 gs.length ++ bytesOfNat 4 0 ++ bytesOfNat 8 o1 ++ bytesOfNat 8 o2 ++ bytesOfNat 32 0, s)) ([], s)
  (table ++ gb ++ tb, s)

/-- How a long write of the part comes out: done, a wait, or a failure after so many bytes. -/
inductive AreaRes where
  | ok
  | wait (reqs : List Nat)
  | bad (done code addr : Nat)
deriving DecidableEq, Repr

/-- The part writes bytes through a context's translation with device-scope stores, page by page (R412, R442). `deny` says that the request
it awaited was answered with a fault. -/
def writeArea : Nat → State → Nat → Nat → List Byte → Bool → Nat → AreaRes × State
  | 0, s, _, _, _, _, _ => (.ok, s)
  | fuel + 1, s, ctx, va, l, deny, done =>
    if l = [] then (.ok, s)
    else
      let n := min l.length (2 ^ 16 - va % 2 ^ 16)
      match partXlate s ctx va with
      | (.bad code, s) => (.bad done code va, s)
      | (.wait r, s) => (if deny && r.isSome then .bad done 0x12 va else .wait r.toList, s)
      | (.ok pa, s) =>
        if (linesOf pa n).any (held s) then (.wait [], s)
        else writeArea fuel (partWrite s pa (l.take n)) ctx (va + n) (l.drop n) deny (done + n)

/-- The target thaws after its image, unless a later freeze of it is in progress (R409, R412). -/
def thawAfter (s : State) (id t : Nat) : State :=
  if s.cx.opers.any (fun x => decide (id < x.1) && x.2.kind = .freeze && x.2.target = t) then s
  else s.updCtx t (fun c => { c with frozen := false })

/-- The record of an image that a failed store ended (R412). -/
def imageFault (s : State) (o : Oper) (code addr : Nat) : State :=
  let (x, s) := s.openField 32
  let f : FaultInfo := { code := code, opc := 0xE2, pc := o.pc, addr := BitVec.ofNat 64 addr, detail := BitVec.ofNat 64 x }
  if o.word then postOwn s o.issuer (recordBytes s o.issuer 1 o.core o.hwarp o.gid o.grid 0 0 f)
  else
    let (b, s) := partRecord s o.issuer 1 f (some addr)
    postOwn s o.issuer b

/-- R412, R413: the image is written, the target thaws if asked, DONE receives 1. -/
def execCheckpointImage (op : Nat) (s : State) : Out :=
  .next (match s.cx.opers.find op with
    | none => s
    | some o =>
      match o.kind with
      | .ckpt area n thaw =>
        if o.stage != .working || o.reqs.any (fun r => (s.xl.reqs.find r).isSome) then s
        else
          let (body, s) := imageBody s o
          let need := 64 + body.length
          let nctx := (subtree s o.target).length
          let small := decide (n < need)
          let img := if small then imageHead o nctx 1 64 need else imageHead o nctx 0 need need ++ body
          match writeArea (img.length / 65536 + 2) s o.issuer area img o.deny 0 with
          | (.wait reqs, s) => s.updOper op (fun o => { o with reqs := reqs, deny := false })
          | (.ok, s) => wakeOpers (completeOper (if thaw && !small then thawAfter s op o.target else s) op)
          | (.bad done code addr, s) =>
            let s := (writeArea 2 s o.issuer area (imageHead o nctx 2 done need) false 0).2
            let s := imageFault s o code addr
            wakeOpers (completeOper (if thaw then thawAfter s op o.target else s) op)
      | _ => s)

/-- R414: an armed trigger fires: a checkpoint as the parent would issue it, and the trigger arms again. -/
def execCkptTrigger (ctx : Nat) (onCount : Bool) (s : State) : Out :=
  .next (match (if onCount then (s.ctx ctx).trigCount else (s.ctx ctx).trigTime) with
    | none => s
    | some t =>
      if onCount && t.left != 0 then s
      else
        let again := some { t with left := t.value }
        let s := s.updCtx ctx (fun c => if onCount then { c with trigCount := again } else { c with trigTime := again })
        let issuer := (s.ctx ctx).parent
        let busy := s.cx.opers.any (fun x => x.2.target = ctx && (match x.2.kind with | .ckpt .. => true | _ => false))
        if busy || ctx = 0 || !s.liveCtx ctx || inReset s ctx || (subtree s ctx).any (otherWorld s issuer) then s
        else
          match ckptDesc t.desc with
          | none => s
          | some x =>
            if (addrFate x.done 8).isSome then s
            else startOper s { kind := .ckpt x.area x.bytes x.thaw, issuer := issuer, target := ctx, bar := doneBar x.done, word := false })

/-! ### Ticks (R421, R425, R460) -/

/-- R421, R460: every staged change whose engines are quiet takes effect at once, and LAYOUT.VER increments. -/
def execLayoutTick (s : State) : Out :=
  let now := s.cx.staged.filter (fun c => changeQuiet s c.change)
  .next (if now = [] then s
    else
      let s := s.updCX (fun c => { c with staged := c.staged.filter (fun x => !now.contains x), layoutVer := c.layoutVer + 1 })
      let s := now.foldl (fun s c => applyChange s c.change) s
      let s := (now.filterMap (·.oper)).foldl completeOper s
      let s := (now.filterMap (·.reply)).foldl (fun s r => sendReply s r.1 0x14 0 r.2 []) s
      wakeOpers s)

/-- R460: a layout change whose engines have not quiesced is abandoned; changes of R421 never are. -/
def execLayoutAbandon (change : Nat) (s : State) : Out :=
  .next (match s.cx.staged.find? (fun c => c.id = change) with
    | none => s
    | some c =>
      let may := match c.change with | .modes _ | .retire _ => true | _ => false
      if !may || changeQuiet s c.change then s
      else
        let s := s.updCX (fun x => { x with staged := x.staged.filter (fun y => y.id != change) })
        match c.reply with
        | some r => sendReply s r.1 0x14 1 r.2 []
        | none => s)

/-- R425: once a millisecond, USED is added to MTR.FRAMEMS. -/
def execFramemsTick (s : State) : Out :=
  .next (s.updCX (fun c => { c with ctxs := c.ctxs.map (fun x => (x.1, { x.2 with framems := (x.2.framems + x.2.used) % 2 ^ 64 })) }))

end Sys2Proof.Machine
end

