-- ==== Sys2Proof/Machine/Protect.lean ====
section
/-!
DEFINITION. MEAS, RCPT, SCRUB, KEYZ and WORLD (R427 to R448), and the events RECEIPT_SIGNED and BACKWASH_FRAME.
-/
namespace Sys2Proof.Machine

/-! ### MEAS and RCPT (R435 to R442) -/

/-- R441: one lane of MEAS. -/
def measLane (s : State) (pl : Nat) (e : LaneEnt) (tag va n : Nat) : LaneOut :=
  let ctx := ctxOf s s.curWarp
  untilDone s pl extPending (fun s => (s.ctx ctx).exts % 2 ^ 32) (fun s =>
    if 2 ^ 55 ≤ va then .bad 0x10 (some va) s
    else if 2 ^ 40 < n then .bad 0x39 none s
    else
      readBytes s pl e va n (fun l s =>
        let (id, s) := putObj s ctx tag l
        awaitLane s pl id))

/-- R439, R441. -/
def execMeas (h : Hdr) (d addr len : Reg) (tag : BitVec 5) (s : State) : Out :=
  .next (subdevWord s h 0xE4 d (fun s pl e => measLane s pl e tag.toNat (srcVal s addr 2 pl e) (srcVal s len 2 pl e)))

/-- R442: one lane of RCPT. -/
def rcptLane (s : State) (pl : Nat) (e : LaneEnt) (va t : Nat) : LaneOut :=
  let issuer := ctxOf s s.curWarp
  if !tenantTarget s issuer t then .bad 0x38 none s
  else
    match addrFate va 64 with
    | some c => .bad c (some va) s
    | none =>
      readBytes s pl e va 64 (fun d s =>
        let out := fieldOf d 0 8
        let done := fieldOf d 0x28 8
        match addrFate out 64, addrFate done 8 with
        | some c, _ => .bad c (some out) s
        | none, some c => .bad c (some done) s
        | none, none =>
          if otherWorld s issuer t then .bad 0x1B none s
          else if fieldOf d 0x30 16 ≠ 0 then .bad 0x39 none s
          else if 64 ≤ s.cx.receipts.length then .park .engine s
          else
            let w := s.curWarp
            let (id, s) := s.fresh
            let r : Receipt := { issuer := issuer, target := t, out := out, nonce := (d.drop 8).take 32, bar := done, path := pathOf s t,
                                 prot := (s.ctx t).world != 0, waits := (s.ctx t).extQ.map (·.id), core := w.core, hwarp := e.hwarp,
                                 gid := (s.group w.gi).gid, grid := gridField s w.gi, pc := w.pc }
            .ok 0 (takeChains (s.updCX (fun c => { c with receipts := NMap.insert c.receipts id r }))))

/-- R439, R442. -/
def execRcpt (h : Hdr) (d desc tgt : Reg) (s : State) : Out :=
  .next (subdevWord s h 0xE5 d (fun s pl e => rcptLane s pl e (srcVal s desc 2 pl e) (srcVal s tgt 1 pl e)))

/-- A value of the part's identity, in its place of so many bytes. -/
def fixLen (n : Nat) (l : List Byte) : List Byte := (l ++ List.replicate n 0).take n

/-- R437: the signed message of a receipt. -/
def receiptMessage (s : State) (r : Receipt) (chain : List Byte) (exts count : Nat) : List Byte :=
  bytesOfNat 4 0x54504352 ++ bytesOfNat 2 1 ++ bytesOfNat 2 (if r.prot then 1 else 0) ++ bytesOfNat 8 count ++ bytesOfNat 8 r.path ++
  bytesOfNat 8 exts ++ fixLen 32 chain ++ fixLen 32 r.nonce ++ fixLen 32 Config.partId ++ fixLen 32 Config.fwMeas ++
  fixLen 32 Config.receiptKey ++ fixLen 16 (Config.bootId s.pt.boots) ++ bytesOfNat 8 s.cx.layoutVer ++ bytesOfNat 8 s.pt.cycle ++
  bytesOfNat 32 0

/-- R437, R442: the receipt is signed, once. -/
def signNow (s : State) (id : Nat) (r : Receipt) : List Byte × State :=
  if r.image != [] then (r.image, s)
  else
    let count := s.cx.counter + 1
    let (chain, exts) := r.taken.getD ((s.ctx r.target).chain, (s.ctx r.target).exts)
    let m := receiptMessage s r chain exts count
    let img := m ++ fixLen 17088 (Config.signReceipt m)
    (img, s.updCX (fun c => { c with counter := count, receipts := c.receipts.upd id (fun x => { x with image := img }) }))

/-- R442: a receipt whose extensions are applied is signed and written to OUT; DONE receives 1. -/
def execReceiptSigned (receipt : Nat) (s : State) : Out :=
  .next (match s.cx.receipts.find receipt with
    | none => s
    | some r =>
      if r.waits.any (extPending s) || r.reqs.any (fun q => (s.xl.reqs.find q).isSome) then s
      else
        let (img, s) := signNow s receipt r
        let gone := fun (s : State) => s.updCX (fun c => { c with receipts := c.receipts.erase receipt })
        match writeArea 2 s r.issuer r.out img r.deny 0 with
        | (.ok, s) => partDone (gone s) r.issuer r.bar
        | (.wait reqs, s) => s.updCX (fun c => { c with receipts := c.receipts.upd receipt (fun x => { x with reqs := reqs, deny := false }) })
        | (.bad _ code addr, s) =>
          let (x, s) := s.openField 32
          postOwn (gone s) r.issuer (recordBytes s r.issuer 1 r.core r.hwarp r.gid r.grid 0 0
            { code := code, opc := 0xE5, pc := r.pc, addr := BitVec.ofNat 64 addr, detail := BitVec.ofNat 64 x }))

/-! ### SCRUB (R444 to R446, R475) -/

/-- R446: a job's progress register. -/
def progressOf (j : Job) : Nat :=
  j.done % 2 ^ 24 + j.total % 2 ^ 24 * 2 ^ 24 + (if j.active then 2 ^ 48 else 0) + (if j.held then 2 ^ 49 else 0) + j.owner % 2 ^ 12 * 2 ^ 50

/-- Lines that an engine holds, of leaves and records of parks of these frames: what cancels the parks waits for them (R122). -/
def heldParks (s : State) (frames : List Nat) : List Nat :=
  ((s.xl.parks.filter (fun p => frames.contains p.2.frame)).flatMap (fun p =>
    [p.2.leafPa / 128, p.2.recPa / 128])).filter (held s)

/-- R444: the frames of a list become a job's. -/
def startScrub (s : State) (issuer done : Nat) (l : List (Except Nat Nat)) : LaneOut :=
  let frames := okFrames l
  let parks := heldParks s frames
  if !allOk l || frames.any (fun f => (s.frame f).state != 0 || !s.liveCtx (s.frame f).charge || !isAncestor s issuer (s.frame f).charge) then
    .bad 0x39 none s
  else if freeJobs s = [] then .bad 0x3A none s
  else if parks ≠ [] then .park (.held parks) s
  else
    let ctxs := (frames.map (fun f => (s.frame f).charge)).eraseDups
    let s := frames.foldl (fun s f =>
      let s := (s.xl.parks.filter (fun p => p.2.frame = f)).foldl cancelPark s
      dropFrameXl ((dropUsed s (s.frame f).charge 1).updFrame f (fun x => { x with state := 1 })) f) s
    let (i, s) := s.pick (freeJobs s).length
    let id := (freeJobs s).getD i 0
    let j : Job := { owner := issuer, left := frames, total := frames.length, bar := done, ctxs := ctxs }
    .ok id (s.updCX (fun c => { c with jobs := NMap.insert c.jobs id j }))

/-- R444: one lane of `scrub.start`. -/
def scrubLane (s : State) (pl : Nat) (e : LaneEnt) (va : Nat) : LaneOut :=
  match addrFate va 64 with
  | some c => .bad c (some va) s
  | none =>
    readBytes s pl e va 64 (fun d s =>
      let f := fieldOf d
      match addrFate (f 0 8) 8, addrFate (f 0x10 8) 8 with
      | some c, _ => .bad c (some (f 0 8)) s
      | none, some c => .bad c (some (f 0x10 8)) s
      | none, none =>
        if f 8 4 = 0 ∨ 65536 < f 8 4 ∨ f 0x0C 4 ≠ 0 ∨ f 0x18 40 ≠ 0 then .bad 0x39 none s
        else
          readBytes s pl e (f 0 8) (8 * f 8 4) (fun l s =>
            listFrames (wordsOf8 l) s pl e [] (fun xs s => startScrub s (ctxOf s s.curWarp) (f 0x10 8) xs)))

/-- R439, R444. -/
def execScrubStart (h : Hdr) (d desc : Reg) (s : State) : Out :=
  .next (subdevWord s h 0xE6 d (fun s pl e => scrubLane s pl e (srcVal s desc 2 pl e)))

/-- A word of SCRUB that reads a progress register. -/
def progressWord (s : State) (h : Hdr) (d : Reg) (act : State → Nat → LaneEnt → LaneOut) : State :=
  withRelease s (fun s => serialWord s h 0xE6 d 2 act)

/-- R446. -/
def execScrubProg (h : Hdr) (d job : Reg) (s : State) : Out :=
  .next (progressWord s h d (fun s pl e =>
    match s.cx.jobs.find (srcVal s job 1 pl e) with
    | none => .bad 0x38 none s
    | some j => if isAncestor s (ctxOf s s.curWarp) j.owner then .ok (progressOf j) s else .bad 0x38 none s))

/-- R446, R475: of several jobs that scrub a context's frames the part shows one (FREE VALUE, log entry 5). -/
def execScrubCtx (h : Hdr) (d tgt : Reg) (s : State) : Out :=
  .next (progressWord s h d (fun s pl e =>
    let t := srcVal s tgt 1 pl e
    if !tenantTarget s (ctxOf s s.curWarp) t then .bad 0x38 none s
    else
      let l := s.cx.jobs.filter (fun j => j.2.active && j.2.ctxs.contains t)
      let (i, s) := s.pick l.length
      .ok (match l[i]? with | some j => progressOf j.2 | none => 0) s))

/-- R445, R475: backwash finishes a frame: zeros, unbound, charged to the job's owner, or kept for the end of a reset. -/
def execBackwashFrame (job : Nat) (s : State) : Out :=
  .next (match s.cx.jobs.find job with
    | none => s
    | some j =>
      match j.left with
      | [] => s
      | f :: rest =>
        if !j.active || frameBusy s f then s
        else
          let s := zeroFrame (fixFrame s f) f
          let s := if j.ofReset then s.updFrame f (fun x => { x with bound := false, attr := 0, key := 0 }) else giveFrame s f j.owner
          let s := s.updJob job (fun x => { x with left := rest, done := x.done + 1, active := rest != [], held := x.held && rest != [] })
          if rest != [] then s
          else if j.ofReset then finishResets s
          else partDone s j.owner j.bar)

/-! ### KEYZ (R443) -/

/-- R443: one lane of `keyz.m`: the slot is emptied at once, and forgotten when the accesses that used it are done. -/
def keyzLane (s : State) (pl k : Nat) : LaneOut :=
  if 256 ≤ k then .bad 0x38 none s
  else if !isAncestor s (ctxOf s s.curWarp) (slotHolder s false k) then .bad 0x38 none s
  else
    let s := match s.curWarp.opLane.find pl with
      | some _ => s
      | none =>
        let (gone, s) := emptySlot s false k
        s.updWarp s.md.cur (fun w => { w with
          opLane := NMap.insert w.opLane pl k
          shot := gone.map (fun (x : TlbEnt) => (x.ctx, x.page, x.xl.pa / 2 ^ 16, x.xl.size)) })
    let loads := shotLoads s s.curWarp.shot
    let stores := shotStores s s.curWarp.shot
    let reqs := shotRequests s s.curWarp.shot
    if loads != [] then .park (.held loads) s
    else if stores != [] then .park (.stores stores) s
    else if reqs != [] then .park (.items reqs) s
    else .ok 0 (forgetSlot ((shotFix s s.curWarp.shot).updWarp s.md.cur (fun w => { w with shot := [] })) k)

/-- R443. -/
def execKeyzM (h : Hdr) (d slot : Reg) (s : State) : Out :=
  .next (subdevWord s h 0xE7 d (fun s pl e => keyzLane s pl (srcVal s slot 1 pl e)))

/-- R443. -/
def execKeyzF (h : Hdr) (d slot : Reg) (s : State) : Out :=
  .next (subdevWord s h 0xE7 d (fun s pl e =>
    let k := srcVal s slot 1 pl e
    if decide (64 ≤ k) || !isAncestor s (ctxOf s s.curWarp) (slotHolder s true k) then .bad 0x38 none s
    else .ok 0 (zeroSlot s true k)))

/-! ### WORLD (R427, R447) -/

/-- R427: a context owns a world; the root owns world 0. -/
def ownsWorld (s : State) (ctx w : Nat) : Bool := if w = 0 then ctx = 0 else s.cx.worldOwner.find w = some ctx

/-- R447: one lane of `world.own`. -/
def ownLane (s : State) (t w : Nat) : LaneOut :=
  if ctxOf s s.curWarp ≠ 0 ∨ !tenantTarget s 0 t ∨ 256 ≤ w then .bad 0x38 none s
  else
    let c := s.ctx t
    let queues := (List.range c.grant.qCount).map (· + c.grant.qBase)
    if w = 0 ∨ (s.cx.worldOwner.find w).isSome ∨ c.level ≠ 1 ∨ c.world ≠ 0 ∨ (children s t).any s.liveCtx ∨
        queues.any (fun q => (queueOf s q).recs != []) ∨ s.wk.groups.any (fun g => g.2.ctx = t) ∨ c.used ≠ 0 then .bad 0x39 none s
    else .ok 0 ((s.updCX (fun x => { x with worldOwner := NMap.insert x.worldOwner w t })).updCtx t (fun x => { x with world := w }))

/-- R447. -/
def execWorldOwn (h : Hdr) (d tgt w : Reg) (s : State) : Out :=
  .next (subdevWord s h 0xE8 d (fun s pl e => ownLane s (srcVal s tgt 1 pl e) (srcVal s w 1 pl e)))

/-- R447: one lane of `world.latch`. -/
def latchLane (s : State) (e : LaneEnt) (n w : Nat) (bar : Option Nat) : LaneOut :=
  let issuer := ctxOf s s.curWarp
  let old := NMap.get 0 s.cx.latch n
  if 384 ≤ n ∨ 256 ≤ w then .bad 0x38 none s
  else
    match bar.bind (fun a => (addrFate a 8).map (fun c => (c, a))) with
    | some (c, a) => .bad c (some a) s
    | none =>
      if !ownsWorld s issuer w || !(old = 0 || ownsWorld s issuer old) then .bad 0x1B none s
      else if !ownCore s issuer n || n = s.curWarp.core then .bad 0x39 none s
      else .ok 0 (startOper s (operOf s e (.latch n w) issuer bar))

/-- R447. -/
def execWorldLatch (h : Hdr) (d core w : Reg) (bar : Option Reg) (s : State) : Out :=
  .next (subdevWord s h 0xE8 d (fun s pl e =>
    latchLane s e (srcVal s core 1 pl e) (srcVal s w 1 pl e) (bar.map (fun r => srcVal s r 2 pl e))))

/-- R447. -/
def execWorldFree (h : Hdr) (d w : Reg) (s : State) : Out :=
  .next (subdevWord s h 0xE8 d (fun s pl e =>
    let x := srcVal s w 1 pl e
    if ctxOf s s.curWarp ≠ 0 ∨ 256 ≤ x then .bad 0x38 none s
    else if s.cx.ctxs.any (fun c => !c.2.gone && c.2.world = x) ∨ s.cx.latch.any (fun l => l.2 = x) then .bad 0x39 none s
    else .ok 0 (s.updCX (fun c => { c with worldOwner := c.worldOwner.erase x }))))

end Sys2Proof.Machine
end

