-- ==== Sys2Proof/Machine/Migrate.lean ====
section
/-!
DEFINITION. The far tier (R123 to R129, R133, R134, R431): victims, parks, recalls, and the events MIGRATION_EPOCH, PARK_COMPLETE and
RECALL_COMPLETE.
-/
namespace Sys2Proof.Machine

/-! ### Pages of the root's space (R95, R97, R125) -/

/-- A stage-0 page leaf: its address, the root-space address it maps, its value, the frame. -/
structure PageLeaf where
  pa : Nat
  va : Nat
  ent : Nat
  frame : Nat
deriving DecidableEq, Repr

/-- The entries of a table of 64 KiB in which memory holds a byte: index and value. Every other entry is 0, which is invalid. -/
def tableEntries (s : State) (t : Nat) : List (Nat × Nat) :=
  let at_ := (s.mm.mem.filter (fun c => decide (t ≤ c.1) && decide (c.1 < t + 2 ^ 16))).map (fun c => (c.1 - t) / 8)
  at_.eraseDups.map (fun i => (i, memNat s (t + 8 * i) 8))

/-- The leaves of one L0 table. -/
def leavesOf (s : State) (va t0 : Nat) : List PageLeaf :=
  (tableEntries s t0).filterMap (fun e =>
    match entOf 0 0 e.2 with
    | .leaf 2 size _ _ _ fr _ =>
      some ⟨t0 + 8 * e.1, va + e.1 * 2 ^ 16, e.2, if size = 21 then fr + e.1 % 32 else fr⟩
    | _ => none)

/-- Every stage-0 leaf of TYPE page and SIZE 64 KiB or 2 MiB. -/
def pageLeaves (s : State) : List PageLeaf :=
  let xr := (s.ctx 0).xroot
  if xr % 2 = 0 then []
  else
    (tableEntries s (xr / 2 ^ 16 * 2 ^ 16)).flatMap (fun e2 =>
      match entOf 0 2 e2.2 with
      | .table t1 =>
        (tableEntries s t1).flatMap (fun e1 =>
          match entOf 0 1 e1.2 with
          | .table t0 => leavesOf s (e2.1 * 2 ^ 42 + e1.1 * 2 ^ 29) t0
          | _ => [])
      | _ => [])

/-- Leaves whose frames can be parked: charged to a context, mapped once, not being parked. -/
def parkable (s : State) : List PageLeaf :=
  let l := pageLeaves s
  l.filter (fun x => (s.frame x.frame).state = 0 && decide ((l.filter (fun y => y.frame = x.frame)).length = 1) &&
    !s.xl.parks.any (fun p => p.2.frame = x.frame))

/-- R129: the page of lowest heat; ties go to the lower frame number. -/
def coldest (s : State) : List PageLeaf → Option PageLeaf
  | [] => none
  | x :: l =>
    match coldest s l with
    | none => some x
    | some y =>
      let hx := (s.frame x.frame).heat
      let hy := (s.frame y.frame).heat
      if hx < hy ∨ (hx = hy ∧ x.frame ≤ y.frame) then some x else some y

/-- Frames by which a context exceeds its guarantee. -/
def excess (s : State) (c : Nat) : Nat := (s.ctx c).used - (s.ctx c).guar

/-- R129 rule 2: among contexts with pages in a list, the one above its guarantee by most; the lower id of equals. -/
def mostOver (s : State) (l : List PageLeaf) : Option Nat :=
  ((l.map (fun x => (s.frame x.frame).charge)).eraseDups.foldl (fun (b : Option Nat) c =>
    if excess s c = 0 then b
    else
      match b with
      | none => some c
      | some d => if excess s d < excess s c ∨ (excess s d = excess s c ∧ c < d) then some c else b) none)

/-- R129: the victim for a requester, or for a park ahead of demand. -/
def victimFor (s : State) (req : Option Nat) : Option PageLeaf :=
  let l := parkable s
  let own := fun (c : Nat) => coldest s (l.filter (fun x => (s.frame x.frame).charge = c))
  let rest := match req with
    | some c => own c
    | none => coldest s l
  if (req.map (fun c => decide ((s.ctx c).burst ≤ (s.ctx c).used))).getD false then rest
  else
    match mostOver s l with
    | some c => own c
    | none => rest

/-! ### Parks (R124 to R126) -/

/-- R125 step 1: a 2 MiB page is rewritten as 32 leaves of SIZE 0b00. -/
def splitLeaf (s : State) (x : PageLeaf) : State :=
  match entOf 0 0 x.ent with
  | .leaf _ 21 _ _ _ _ _ =>
    let base := x.pa - 8 * (x.va / 2 ^ 16 % 32)
    (List.range 32).foldl (fun s i =>
      let e := memNat s (base + 8 * i) 8
      match entOf 0 0 e with
      | .leaf 2 21 _ _ _ _ _ => partWrite s (base + 8 * i) (bytesOfNat 8 (e - 16 + i * 2 ^ 16))
      | _ => s) s
  | _ => s

/-- The lines of the entries that a park of a leaf rewrites. -/
def parkLines (x : PageLeaf) : List Nat := linesOf (x.pa - 8 * (x.va / 2 ^ 16 % 32)) 256

/-- A place in the jetty pool that holds no page of this part, at a jetty (FREE VALUE, log entry 5). -/
def poolPlace (s : State) (jetty : Nat) : Nat × State :=
  let (x, s) := s.openField 40
  let used := fun (p : Nat) => s.xl.poolPages.any (fun (q : Nat × FarPage) => q.1 = jetty * 2 ^ 64 + p * 2 ^ 16) ||
    s.xl.parks.any (fun (q : Nat × ParkOp) => memNat s (q.2.recPa + 8) 2 = jetty && memNat s q.2.recPa 8 = p * 2 ^ 16)
  if used x then
    let top := (s.xl.poolPages.map (fun (q : Nat × FarPage) => q.1 % 2 ^ 64 / 2 ^ 16) ++ s.xl.parks.map (fun (q : Nat × ParkOp) => memNat s q.2.recPa 8 / 2 ^ 16)).foldl max 0
    (top + 1, s)
  else (x, s)

/-- R125 steps 1 to 3: the leaf becomes a far page with a record of STATE 1, and its translations are dropped. The entries' lines are taken
first; a leaf that has changed since it was chosen abandons the park. None while an engine holds a line of the entries or of the record
(R122). -/
def startPark (s : State) (x : PageLeaf) (forRecall : Option Nat) : Option State :=
  let blk := Config.farBlock (x.va / 2 ^ 26) % (hbmTop / 2 ^ 16)
  let rec_ := blk * 2 ^ 16 + 64 * (x.va / 2 ^ 16 % 1024)
  if (parkLines x ++ linesOf rec_ 64).any (held s) then none
  else
  let s := (parkLines x).foldl takeLine s
  if memNat s x.pa 8 ≠ x.ent then some s
  else
  let s := splitLeaf s x
  let old := memNat s x.pa 8
  let (port, s) := s.pick 16
  let jetty := portJetty s port
  let (place, s) := poolPlace s jetty
  let seq := (memNat s (rec_ + 0x10) 8 + 1) % 2 ^ 64
  let image := bytesOfNat 8 (place * 2 ^ 16) ++ bytesOfNat 2 jetty ++ bytesOfNat 1 port ++ bytesOfNat 1 1 ++
    bytesOfNat 1 (old / 2 ^ 48) ++ bytesOfNat 1 0 ++ bytesOfNat 2 (s.frame x.frame).charge ++ bytesOfNat 8 seq ++ bytesOfNat 40 0
  let s := partWrite s rec_ image
  let far := 1 + 3 * 2 + old % 2 ^ 12 / 64 * 64 + blk * 2 ^ 16
  let s := dropXl (partWrite s x.pa (bytesOfNat 8 far)) 0 x.va (x.va + 2 ^ 16) false
  let (id, s) := s.fresh
  let op : ParkOp := { leafPa := x.pa, recPa := rec_, oldLeaf := old, va := x.va, frame := x.frame, forRecall := forRecall }
  some (s.updXL (fun y => { y with parks := NMap.insert y.parks id op }))

/-- Poisoned granules of a frame as memory holds it. -/
def framePoison (s : State) (fr : Nat) : List Nat := (List.range 1024).filter (fun i => llcPoisoned s (fr * 2 ^ 16 + 64 * i))

/-- Key material of a page's slot; none for CLEAR. -/
def sealMaterial (s : State) (attr key : Nat) : List Byte := if attr = 0 then [] else (NMap.get {} s.pt.mkeys key).material

/-- R125 steps 4 to 6: the frame is read and sent; the jetty acknowledges; the record takes STATE 2 and the frame is free. An access that
used the page's translations, or an engine that holds a line of it, is waited for. -/
def execParkComplete (park : Nat) (s : State) : Out :=
  .next (match s.xl.parks.find park with
    | none => s
    | some p =>
      let lines := (List.range 512).map (fun i => p.frame * 512 + i)
      if frameBusy s p.frame || lines.any (held s) || (linesOf p.recPa 64).any (held s) then s
      else
        let s := lines.foldl takeLine (fixFrame s p.frame)
        let f := s.frame p.frame
        let attr := p.oldLeaf / 64 % 4
        let bytes := memBytes s (p.frame * 2 ^ 16) 65536
        let material := sealMaterial s attr (p.oldLeaf / 2 ^ 48 % 2 ^ 8)
        let seq := memNat s (p.recPa + 0x10) 8
        let tag := if attr = 0 then List.replicate 16 0 else fixLen 16 (Config.pageTag material seq bytes)
        let page : FarPage := { bytes := bytes, poison := framePoison s p.frame, material := material, seq := seq, tag := tag }
        let place := memNat s (p.recPa + 8) 2 * 2 ^ 64 + memNat s p.recPa 8
        let s := partWrite (partWrite s (p.recPa + 0x20) tag) (p.recPa + 0x0B) [2]
        let s := dropUsed ((discardFrame s p.frame).updFrame p.frame (fun x => { x with state := 2, bound := false, attr := 0, key := 0 })) f.charge 1
        poolPut (s.updXL (fun x => { x with poolPages := NMap.insert x.poolPages place page, parks := x.parks.erase park })) p.frame)

/-! ### Recalls (R127 to R129) -/

/-- R127 step 1: a recall takes a frame of the pool. Its record takes STATE 3, and CHARGE the context whose access caused it (R128). -/
def takeFrame (s : State) (id : Nat) (r : RecallOp) : State :=
  let (i, s) := s.pick s.xl.pool.length
  let f := s.xl.pool.getD i 0
  let s := if s.liveCtx r.ctx then partWrite s (r.recPa + 0x0E) (bytesOfNat 2 r.ctx) else s
  (partWrite s (r.recPa + 0x0B) [3]).updXL (fun x => { x with
    pool := x.pool.filter (fun y => y != f), recalls := x.recalls.upd id (fun r => { r with frame := some f }) })

/-- R127 step 1, R129: recalls without a frame take one of the pool, or have one made. -/
def feedRecalls (s : State) : State :=
  s.xl.recalls.foldl (fun s x =>
    match x.2.frame with
    | some _ => s
    | none =>
      if (linesOf x.2.recPa 64).any (held s) then s
      else if s.xl.pool != [] then takeFrame s x.1 x.2
      else if s.xl.parks.any (fun p => p.2.forRecall = some x.1) then s
      else
        match victimFor s (some x.2.ctx) with
        | some v => (startPark s v (some x.1)).getD s
        | none => s) s

/-- The recalled page goes to its charge (R127). Frames of a context under reset are scrubbed with the others of it; those of a context
that is gone are zeroed and go to the root. -/
def chargeRecalled (s : State) (f charge : Nat) : State :=
  if !s.liveCtx charge then giveFrame (zeroFrame s f) f 0
  else
    match s.cx.jobs.find? (fun j => j.2.active && j.2.ofReset && j.2.ctxs.contains charge) with
    | some j =>
      (s.updFrame f (fun x => { x with state := 3, charge := charge, wt := (s.ctx charge).world })).updJob j.1 (fun x => { x with
        left := x.left ++ [f], total := x.total + 1 })
    | none => giveFrame s f charge

/-- R127: FAR_LOST: the record takes STATE 4; what is attached takes the fault; the frame returns to the pool. -/
def loseRecall (s : State) (id f : Nat) (r : RecallOp) : State :=
  let s := partWrite s (r.recPa + 0x0B) [4]
  let ws := s.wk.warps.filter (fun w => match w.2.park with | .far l => l.contains id | _ => false)
  let s := poolPut (s.updXL (fun x => { x with recalls := x.recalls.erase id })) f
  let s := ws.foldl (fun s w => faultWaiting s w.1 0x1A) s
  let s := s.en.cmds.foldl (fun s c =>
    match c.2.stop with
    | .recall l a => if l.contains id then failCmd s c.1 0x1A (some a) else s
    | .running | .waits _ | .request .. | .finWait _ | .preempted => s) s
  faultMatrix s (fun c => match c with | .recall l a => if l.contains id then some a else none | _ => none) 0x1A

/-- R127 step 3: the page stands in its frame: the leaf is a page again, bound to the record's values (R431). -/
def finishRecall (s : State) (id f : Nat) (r : RecallOp) (leaf : Nat) (page : FarPage) (place : Nat) : State :=
  let key := memNat s (r.recPa + 0x0C) 1
  let charge := memNat s (r.recPa + 0x0E) 2
  let attr := leaf / 64 % 4
  let s := setMemBytes (discardFrame s f) (f * 2 ^ 16) page.bytes
  let s := s.updMM (fun m => { m with hbmPoison := page.poison.map (fun g => f * 1024 + g) ++ m.hbmPoison })
  let new := 1 + 2 * 2 + leaf % 2 ^ 12 / 64 * 64 + (if leaf / 2 ^ 10 % 2 = 1 then 0 else 2 ^ 10) + f * 2 ^ 16 + (if attr = 0 then 0 else key * 2 ^ 48)
  let s := partWrite (partWrite s r.leafPa (bytesOfNat 8 new)) (r.recPa + 0x0B) [0]
  let s := chargeRecalled s f charge
  let s := s.updFrame f (fun x => { x with bound := true, attr := attr, key := if attr = 0 then 0 else key })
  s.updXL (fun x => { x with recalls := x.recalls.erase id, poolPages := x.poolPages.erase place })

/-- R127: a recall ends. A leaf that system software has overwritten is left as it is; the record keeps its STATE. -/
def execRecallComplete (id : Nat) (how : RecallEnd) (s : State) : Out :=
  .next (match s.xl.recalls.find id with
    | none => s
    | some r =>
      match r.frame with
      | none => s
      | some f =>
        let leaf := memNat s r.leafPa 8
        let place := memNat s (r.recPa + 8) 2 * 2 ^ 64 + memNat s r.recPa 8
        let mine := match entOf 0 0 leaf with
          | .leaf 3 _ _ _ _ fr _ => fr = r.recPa / 2 ^ 16
          | _ => false
        if (linesOf r.recPa 64 ++ linesOf r.leafPa 8).any (held s) then s
        else if !mine then poolPut (s.updXL (fun x => { x with recalls := x.recalls.erase id })) f
        else
          match s.xl.poolPages.find place with
          | none => loseRecall s id f r
          | some page =>
            let attr := leaf / 64 % 4
            let ok := decide (how = .ok) && (attr = 0 || (page.material = sealMaterial s attr (memNat s (r.recPa + 0x0C) 1) &&
              page.seq = memNat s (r.recPa + 0x10) 8 && page.tag = memBytes s (r.recPa + 0x20) 16))
            if ok then finishRecall s id f r leaf page place else loseRecall s id f r)

/-! ### Epochs (R133, R134) -/

/-- Parks ahead of demand: up to `n` victims. -/
def parkAhead : Nat → State → State
  | 0, s => s
  | n + 1, s =>
    match victimFor s none with
    | some v =>
      match startPark s v none with
      | some s => parkAhead n s
      | none => s
    | none => s

/-- Recalls on notifications: up to `n` pages that are still far, oldest first. -/
def recallNoted : List (Nat × Nat) → Nat → State → State
  | [], _, s => s.updXL (fun x => { x with farNotes := [] })
  | l, 0, s => s.updXL (fun x => { x with farNotes := l })
  | (ctx, page) :: l, n + 1, s =>
    if !s.liveCtx ctx then recallNoted l (n + 1) s
    else
      match xlateNow s 0 ctx (page * 2 ^ 16) .read with
      | (.far leaf rec_, s) => recallNoted l n (startRecall s (memNat s (rec_ + 0x0E) 2) leaf rec_).2
      | (_, s) => recallNoted l (n + 1) s

/-- Every frame's heat is halved (R129, R134). -/
def coolFrames (s : State) : State :=
  s.updXL (fun x => { x with frames := (x.frames.map (fun f => (f.1, { f.2 with heat := f.2.heat / 2 }))).filter (fun f => f.2 != {}) })

/-- R134. `queued` is d, the flits queued on the outbound ports. -/
def execMigrationEpoch (queued : Nat) (s : State) : Out :=
  let p := s.pt
  let n := min p.migBatch ((p.migQDepth - queued) / 1280)
  .next (if p.migCtl % 2 = 0 then s
    else
      let free := s.xl.pool.length
      let s :=
        if free < p.migFreeLow then (if p.migFreeLow < p.migFreeHigh then parkAhead n s else s)
        else if p.migFreeHigh < free ∧ p.migCtl / 2 % 2 = 1 then recallNoted s.xl.farNotes n s
        else s
      coolFrames s)

end Sys2Proof.Machine
end

