-- ==== Sys2Proof/Machine/HostPort.lean ====
section
/-!
DEFINITION. The host port (R449 to R456, R458 to R461, R464, R466, R467): WRITEs, frames, command frames, EXPORT, views, the order of
messages on a queue pair; what follows every step.
-/
namespace Sys2Proof.Machine

/-! ### Boot (R457, R466) -/

/-- The part loses all state (R10): what the world outside has been sent, the wear section in flash (R9), the number of the power-on and the
model's inputs stay. -/
def dark (s : State) : State :=
  { md := s.md, cx := { ctxs := [] },
    pt := { powered := false, boots := s.pt.boots, out := s.pt.out, sparesUsed := s.pt.sparesUsed, retired := s.pt.retired } }

/-- HEALTH as the wear section leaves it at boot (R464): 2 where some kind stands below its floor, 1 where a spare is in use. -/
def wornHealth (used : NMap Nat) (lost : List WearUnit) : Nat :=
  let low := fun (u : WearUnit) => decide (spareCount u - NMap.get 0 used (sparePool u) < spareFloor u)
  let kinds := [WearUnit.core 0, .core 192, .slice 0, .slice 128, .keyRow false 0, .keyRow true 0] ++
    (List.range 12).map (fun i => WearUnit.pchan i 0) ++ (List.range 16).map WearUnit.lane
  if lost != [] || kinds.any low then 2 else if used != [] then 1 else 0

/-- A power cycle (R466): everything is lost and the part boots again (R457). Spares are applied and lost units stay lost as the wear
section records them, in the order of their retirements, if the part record verifies (R9, R457 steps 4 and 5, R463). -/
def reboot (s : State) : State :=
  let b := State.boot (s.pt.boots + 1)
  let b := { b with md := s.md, pt := { b.pt with out := s.pt.out } }
  if (s.pt.sparesUsed = [] ∧ s.pt.retired = []) ∨ !Config.recordVerifies then b
  else
    let b := { b with pt := { b.pt with sparesUsed := s.pt.sparesUsed, health := wornHealth s.pt.sparesUsed s.pt.retired } }
    s.pt.retired.foldl loseUnit b

/-- R457. A part that has power does not boot again. -/
def execPowerOn (s : State) : Out := .next (if s.pt.powered then s else reboot s)
/-- R466. -/
def execResetLine (s : State) : Out := .next (reboot s)
/-- R10, R462. -/
def execPowerLoss (s : State) : Out := .next (dark s)

/-! ### WRITE (R449 to R451) -/

def send (s : State) (x : HostOut) : State := s.updPT (fun p => { p with out := p.out ++ [x] })

/-- What a message comes to: performed; it waits; performed but for the add to a context's barrier object. -/
inductive MsgRes where
  | done
  | wait
  | adding (ctx addr : Nat)
deriving DecidableEq, Repr

/-- How the range of a WRITE translates: the pieces to write, a wait, or a failure. -/
inductive WritePlan where
  | ok (l : List (Nat × List Byte))
  | wait
  | bad
deriving DecidableEq, Repr

/-- R450: the whole range is translated as a store would be; no page request is posted; a far page waits for its recall. -/
def planWrite : Nat → State → Nat → Nat → List Byte → List (Nat × List Byte) → WritePlan × State
  | 0, s, _, _, _, acc => (.ok acc, s)
  | fuel + 1, s, ctx, va, l, acc =>
    if l = [] then (.ok acc, s)
    else if 2 ^ 55 ≤ va then (.bad, s)
    else
      let n := min l.length (2 ^ 16 - va % 2 ^ 16)
      match xlateNow s 0 ctx va .write with
      | (.ok t, s) =>
        if !storable s t then (.bad, s)
        else if (linesOf t.pa n).any (held s) then (.wait, s)
        else planWrite fuel s ctx (va + n) (l.drop n) (acc ++ [(t.pa, l.take n)])
      | (.busy, s) => (.wait, s)
      | (.far leaf rec_, s) => (.wait, (startRecall s ctx leaf rec_).2)
      | (.fail _, s) => (.bad, s)

/-- R450: a WRITE, with its immediate or none. One on an entry that stands open is dropped (R458). -/
def doWrite (s : State) (m : HostMsg) (imm : Option Word) : MsgRes × State :=
  match matchEntry s m.src m.qp with
  | none => (.done, s.updPT (fun p => { p with noMatch := (p.noMatch + 1) % 2 ^ 32 }))
  | some i =>
    let t := tenantOf s i
    if t.standsOpen then (.done, s.updPT (fun p => { p with badFrame := (p.badFrame + 1) % 2 ^ 32 }))
    else if m.rkey ≠ t.ctx ∨ !s.liveCtx t.ctx then (.done, send s (.nak m.src m.qp true))
    else
      match planWrite (m.bytes.length / 65536 + 2) s t.ctx m.va m.bytes [] with
      | (.wait, s) => (.wait, s)
      | (.bad, s) => (.done, send s (.nak m.src m.qp true))
      | (.ok l, s) =>
        let s := l.foldl (fun s x => partWrite s x.1 x.2) s
        match imm with
        | none => (.done, s)
        | some v => if t.imm = 0 then (.done, s) else (.adding t.ctx t.imm, partAdd s t.ctx t.imm v.toNat)

/-- R449: a READ, compare-and-swap or fetch-and-add draws NAK. -/
def execHostReadRefused (src qp : Nat) (s : State) : Out := .next (send s (.nak src qp false))

/-! ### Frames (R376, R452 to R454) -/

/-- R376, R452: a launch frame. -/
def launchNow (s : State) (h : FrameHdr) : State :=
  let recs := launchRecs h.bytes
  withEntry s h (launchForm h.bytes) false (fun entry s =>
    ((List.range recs.length).zip recs).foldl (fun s r => frameRecord s entry h.seq r.1 r.2) s)

/-- R454: a command of tenant entry 0 alone: its STATUS and payload, or what it does by itself. -/
def rootCommand (s : State) (h : FrameHdr) (code : Nat) (openOk : Bool) (k : State → State) : State :=
  withEntry s h (commandForm code h) openOk (fun entry s => if entry ≠ 0 then sendReply s entry code 2 h.seq [] else k s)

/-- The reply to a command of entry 0. -/
def reply0 (s : State) (h : FrameHdr) (code status : Nat) (payload : List Byte) : State := sendReply s 0 code status h.seq payload

/-! ### READVIEW (R467) -/

/-- ARR.MODE of a core as its views show it: paired on the leader of a pair that is in force, its context holding both grants (R255,
R284). -/
def arrModeView (s : State) (core : Nat) : Nat :=
  match s.en.grants.find (halfKey core 0) with
  | some ctx => if ((arrayOf s ctx core).map (·.paired)).getD false then 2 else NMap.get 0 s.en.arrMode core
  | none => NMap.get 0 s.en.arrMode core

/-- The fields of a view's block, in the table's order. `steward` tells which view; a field that is not visible reads zero (R5). -/
def viewFields (s : State) (t : Nat) (steward : Bool) (block core : Nat) : List Nat :=
  let c := s.ctx t
  let count := fun (h : Nat) => NMap.get {} s.en.mcounts (mqKey core h t)
  match block with
  | 0 => [if c.stat then 1 else 0, c.fq.base, c.fq.size, c.fq.head, c.fq.arrive, c.fq.lost, c.shareV, c.shareC, c.shareM, c.shareL,
          c.guar, c.burst, c.used]
  | 1 =>
    let l := [c.xroot, c.prq.base, c.prq.size, c.prq.head, c.prq.arrive, c.acntCtl, c.acntThresh, c.nq.base, c.nq.size, c.nq.head,
              c.nq.arrive, c.nq.lost, c.uncounted, if c.brk then 1 else 0]
    if steward then l else l.map (fun _ => 0)
  | 2 => (List.range 64).flatMap (fun q =>
      match localQueue s t q with
      | some i => let x := queueOf s i; [q, x.recs.length, x.accepted, x.refused, x.last]
      | none => [])
  | 3 =>
    let h1 := [(count 1).cyc, (count 1).cmds, (count 1).faults]
    [(count 0).cyc, (count 0).cmds, (count 0).faults] ++ (if splitMode s core then h1 else h1.map (fun _ => 0))
  | 4 => [c.corecyc, c.arrcyc, c.bytes, c.framems]
  | 5 => [s.cx.layoutVer, fabChip] ++ (List.range 16).map (portJetty s) ++ [arrModeView s core]
  | _ =>
    let l := [s.pt.migCtl, s.pt.migEpoch, s.pt.migFreeLow, s.pt.migFreeHigh, s.pt.migQDepth, s.pt.migBatch, s.xl.pool.length,
              s.pt.noMatch, s.pt.badTag, s.pt.badFrame]
    if t = 0 then l else l.map (fun _ => 0)

/-- What a protected descendant in another world shows (R5, R394, R467). -/
def veiledFields (block : Nat) (l : List Nat) : List Nat :=
  let shown := if block = 0 then [6, 7, 8, 9, 10, 11, 12] else if block = 1 then [1, 2, 3, 4] else []
  ((List.range l.length).zip l).map (fun x => if shown.contains x.1 then x.2 else 0)

/-- R454, R467. The root has the steward view of itself (R393). -/
def readviewNow (s : State) (h : FrameHdr) (ctx block core : Nat) : State :=
  withEntry s h (commandForm 0x01 h) false (fun entry s =>
    let own := (tenantOf s entry).ctx
    if !s.liveCtx ctx || !s.liveCtx own || !isAncestor s own ctx then sendReply s entry 0x01 2 h.seq []
    else if 7 ≤ block ∨ ((block = 3 ∨ block = 5) ∧ 383 < core) then sendReply s entry 0x01 3 h.seq []
    else
      let l := viewFields s ctx (ctx != own || own = 0) block core
      sendReply s entry 0x01 0 h.seq (Config.replyLayout block (if otherWorld s own ctx then veiledFields block l else l)))

/-! ### EXPORT (R455) -/

/-- R454, R455: an EXPORT is taken up. -/
def exportNow (s : State) (h : FrameHdr) (r : ExportReq) : State :=
  withEntry s h (commandForm 0x02 h) false (fun entry s =>
    let own := (tenantOf s entry).ctx
    if !s.liveCtx r.ctx || !s.liveCtx own || !isAncestor s own r.ctx then sendReply s entry 0x02 2 h.seq []
    else if 2 ^ 31 < r.len then sendReply s entry 0x02 3 h.seq []
    else
      let (id, s) := s.fresh
      let x : Exp := { entry := entry, seq := h.seq, req := r }
      s.updPT (fun p => { p with exps := NMap.insert p.exps id x }))

/-- An EXPORT ends with a reply. -/
def endExport (s : State) (id : Nat) (x : Exp) (status : Nat) : State :=
  sendReply (s.updPT (fun p => { p with exps := p.exps.erase id })) x.entry 0x02 status x.seq []

/-- R455 steps 2 and 3: the range is translated and read as a load, and sent. -/
def exportRange (s : State) (id : Nat) (x : Exp) : State :=
  let r := x.req
  match readSpan s r.ctx r.addr r.len true with
  | (.wait _, s) => s
  | (.bad, s) => endExport s id x 3
  | (.ok l, s) =>
    let qp := (tenantOf s x.entry).qp
    let s := if l = [] then s else send s (.write qp r.hostAddr r.rkey l)
    let s := send s (.writeImm qp r.hostAddr r.rkey r.imm)
    s.updPT (fun p => { p with exps := p.exps.upd id (fun x => { x with sent := true }) })

/-- R455 step 1: wait until B is at least T, as a BWAIT at system scope. -/
def exportWait (s : State) (id : Nat) (x : Exp) : State :=
  let r := x.req
  let set := fun (s : State) (f : Exp → Exp) => s.updPT (fun p => { p with exps := p.exps.upd id f })
  if !s.liveCtx r.ctx then endExport s id x 3
  else if r.barrier = 0 then exportRange s id x
  else
    match x.pa with
    | some pa =>
      if r.threshold ≤ memNat s pa 8 then exportRange (set s (fun x => { x with req := { x.req with barrier := 0 } })) id x else s
    | none =>
      if x.reqs.any (fun q => (s.xl.reqs.find q).isSome) then s
      else if x.deny ∨ r.barrier % 8 ≠ 0 ∨ 2 ^ 55 ≤ r.barrier then endExport s id x 3
      else
        match xlateNow s 0 r.ctx r.barrier .atomic with
        | (.ok t, s) =>
          if (atomCheck s t).isSome then endExport s id x 3
          else if held s (t.pa / 128) then s
          else
            let (v, s) := svcRead s t.pa 8
            let s := set s (fun x => { x with pa := some t.pa, reqs := [] })
            if r.threshold ≤ v then exportRange (set s (fun x => { x with req := { x.req with barrier := 0 } })) id x else s
        | (.busy, s) => s
        | (.far leaf rec_, s) => (startRecall s r.ctx leaf rec_).2
        | (.fail f, s) =>
          if ownFailure s r.ctx f then endExport s id x 3
          else
            let (q, s) := engineReq s r.ctx 0 r.barrier .atomic f
            set s (fun x => { x with reqs := q.toList })

/-- EXPORTs that have not sent their range go on as far as they can. -/
def pumpExports (s : State) : State := s.pt.exps.foldl (fun s x => if x.2.sent then s else exportWait s x.1 x.2) s

/-- R455 step 4: every WRITE has been acknowledged. -/
def execHostAcknowledgement (exp : Nat) (s : State) : Out :=
  .next (match s.pt.exps.find exp with
    | none => s
    | some x => if x.sent then endExport s exp x 0 else s)

/-! ### KEYLOAD (R434, R456) -/

/-- R434, R456. A slot that wear has withdrawn takes no key. -/
def keyloadNow (s : State) (h : FrameHdr) (r : KeyReq) : State :=
  rootCommand s h 0x10 false (fun s =>
    let slots := if r.fabric then s.pt.fkeys else s.pt.mkeys
    let old := (slots.find r.slot).getD {}
    if (if r.fabric then 64 else 256) ≤ r.slot then reply0 s h 0x10 3 []
    else if old.loaded || old.gone || !s.liveCtx r.holder || decide (slotHolder s r.fabric r.slot ≠ r.holder) then reply0 s h 0x10 1 []
    else if !r.opens || decide (r.material.length ≠ if r.fabric then 32 else 96) then reply0 s h 0x10 3 []
    else
      let enci := r.enci && !r.fabric
      let z := fun (x : Nat) => if enci then x else 0
      let k : KeySlot := { loaded := true, enci := enci, fbase := z r.fbase, fcount := z r.fcount, mdbase := z r.mdbase, material := r.material }
      let s := s.updPT (fun p =>
        if r.fabric then { p with fkeys := NMap.insert p.fkeys r.slot k } else { p with mkeys := NMap.insert p.mkeys r.slot k })
      reply0 s h 0x10 0 [])

/-! ### The other commands of R454 -/

/-- R414, R454. The root has no parent that would issue its checkpoint. -/
def armckptNow (s : State) (h : FrameHdr) (ctx kind value : Nat) (desc : List Byte) : State :=
  rootCommand s h 0x11 false (fun s =>
    if ctx = 0 || !s.liveCtx ctx then reply0 s h 0x11 2 []
    else if 1 < kind ∨ desc.length ≠ 64 then reply0 s h 0x11 3 []
    else
      let t := if value = 0 then none else some { value := value, left := value, desc := desc }
      reply0 (s.updCtx ctx (fun c => if kind = 0 then { c with trigTime := t } else { c with trigCount := t })) h 0x11 0 [])

/-- R390, R454. -/
def reportTo (s : State) (h : FrameHdr) (addr rkey size : Nat) : State :=
  rootCommand s h 0x12 false (fun s =>
    if size < 64 then reply0 s h 0x12 3 []
    else reply0 (s.updPT (fun p => { p with report := some { qp := (tenantOf s 0).qp, addr := addr, rkey := rkey, size := size } })) h 0x12 0 [])

/-- The pools of spares by number (R463). -/
def sparePools : List Nat := [0, 1, 16, 17] ++ (List.range 12).map (· + 32) ++ (List.range 16).map (· + 64) ++ [96, 97]

/-- R464. -/
def healthNow (s : State) (h : FrameHdr) : State :=
  rootCommand s h 0x13 true (fun s =>
    reply0 s h 0x13 0 (Config.replyLayout 0x13 ([s.pt.health] ++ sparePools.map (NMap.get 0 s.pt.sparesUsed) ++
      (List.range 7).map (NMap.get 0 s.pt.errors) ++ [s.pt.watts, s.pt.maxTemp])))

/-- A unit that the part has. -/
def unitOk : WearUnit → Bool
  | .core n => decide (n < 384)
  | .slice n => decide (n < 256)
  | .pchan stack n => decide (stack < 12) && decide (n < 64)
  | .lane port => decide (port < 16)
  | .keyRow fabric slot => decide (slot < if fabric then 64 else 256)

/-- R454, R460: a change is staged and answered when it is done or abandoned. -/
def layoutNow (s : State) (h : FrameHdr) (r : LayoutReq) : State :=
  rootCommand s h 0x14 false (fun s =>
    match r with
    | .modes l =>
      if l.any (fun x => decide (383 < x.1) || decide (1 < x.2)) then reply0 s h 0x14 3 []
      else (stage s (.modes l) none (some (0, h.seq))).2
    | .retire u => if unitOk u then (stage s (.retire u) none (some (0, h.seq))).2 else reply0 s h 0x14 3 [])

/-- R461. -/
def powercapNow (s : State) (h : FrameHdr) (watts : Nat) : State :=
  rootCommand s h 0x15 false (fun s =>
    if watts < 600 ∨ 1700 < watts then reply0 s h 0x15 3 [] else reply0 (s.updPT (fun p => { p with powerCap := watts })) h 0x15 0 [])

/-- R459: the boot statement of this power-on. -/
def bootStatement (s : State) : List Byte :=
  let m := Config.bootLayout [fixLen 32 Config.partId, Config.identityKey, fixLen 32 Config.fwMeas, Config.fwVersion,
    fixLen 32 Config.receiptKey, fixLen 1184 Config.kemKey, fixLen 32 Config.recordDigest, fixLen 16 (Config.bootId s.pt.boots)]
  m ++ Config.signIdentity m

/-- R459. -/
def bootstmtNow (s : State) (h : FrameHdr) : State :=
  rootCommand s h 0x16 true (fun s => reply0 s h 0x16 0 (bootStatement s))

/-- R466. The reply has left the part. -/
def resetNow (s : State) (h : FrameHdr) : State := rootCommand s h 0x17 false (fun s => reboot (reply0 s h 0x17 0 []))

/-! ### The order of messages on a queue pair (R451) -/

/-- Perform a message of the host. -/
def performMsg (i : Instr) (s : State) : MsgRes × State :=
  match i with
  | .hostWrite m => doWrite s m none
  | .hostWriteImm m imm => doWrite s m (some imm)
  | .launchFrame h recs => (.done, launchNow s (wholeFrame h recs))
  | .readview h ctx block core => (.done, readviewNow s h ctx block core)
  | .exportCmd h r => (.done, exportNow s h r)
  | .keyload h r => (.done, keyloadNow s h r)
  | .armckpt h ctx kind value desc => (.done, armckptNow s h ctx kind value desc)
  | .report h a rkey size => (.done, reportTo s h a rkey size)
  | .health h => (.done, healthNow s h)
  | .layout h r => (.done, layoutNow s h r)
  | .powercap h watts => (.done, powercapNow s h watts)
  | .bootstmt h => (.done, bootstmtNow s h)
  | .reset h => (.done, resetNow s h)
  | _ => (.done, s)

/-- A message keeps its place in line. -/
def keepMsg (s : State) (m : InMsg) : State := s.updPT (fun p => { p with inbox := p.inbox ++ [m] })

/-- R451: a message is performed once those before it on its queue pair are; it waits where it must. -/
def takeMsg (s : State) (src qp : Nat) (i : Instr) : State :=
  if s.pt.inbox.any (fun m => m.src = src && m.qp = qp) then keepMsg s { src := src, qp := qp, msg := some i }
  else
    match performMsg i s with
    | (.done, s) => s
    | (.wait, s) => keepMsg s { src := src, qp := qp, msg := some i }
    | (.adding ctx addr, s) => keepMsg s { src := src, qp := qp, bar := (ctx, addr) }

/-- Messages that wait are tried again, in order. A reset loses the others. -/
def pumpInbox (s : State) : State :=
  let boots := s.pt.boots
  let l := s.pt.inbox
  l.foldl (fun s m =>
    if s.pt.boots ≠ boots then s
    else
      match m.msg with
      | some i => takeMsg s m.src m.qp i
      | none => if s.cx.adds.any (fun a => a.1 = m.bar.1 && a.2.1 = m.bar.2) then keepMsg s m else s)
    (s.updPT (fun p => { p with inbox := [] }))

/-- R450, R451. -/
def execHostWrite (m : HostMsg) (s : State) : Out := .next (takeMsg s m.src m.qp (.hostWrite m))
/-- R450, R451. -/
def execHostWriteImm (m : HostMsg) (imm : Word) (s : State) : Out := .next (takeMsg s m.src m.qp (.hostWriteImm m imm))
/-- R376, R451, R452. -/
def execLaunchFrame (h : FrameHdr) (recs : List (List Byte)) (s : State) : Out := .next (takeMsg s h.src h.qp (.launchFrame h recs))
/-- R454, R467. -/
def execReadview (h : FrameHdr) (ctx block core : Nat) (s : State) : Out := .next (takeMsg s h.src h.qp (.readview h ctx block core))
/-- R454, R455. -/
def execExportCmd (h : FrameHdr) (r : ExportReq) (s : State) : Out := .next (takeMsg s h.src h.qp (.exportCmd h r))
/-- R454, R456. -/
def execKeyload (h : FrameHdr) (r : KeyReq) (s : State) : Out := .next (takeMsg s h.src h.qp (.keyload h r))
/-- R414, R454. -/
def execArmckpt (h : FrameHdr) (ctx kind value : Nat) (desc : List Byte) (s : State) : Out :=
  .next (takeMsg s h.src h.qp (.armckpt h ctx kind value desc))
/-- R454. -/
def execReport (h : FrameHdr) (hostAddr rkey size : Nat) (s : State) : Out := .next (takeMsg s h.src h.qp (.report h hostAddr rkey size))
/-- R454, R464. -/
def execHealth (h : FrameHdr) (s : State) : Out := .next (takeMsg s h.src h.qp (.health h))
/-- R454, R460. -/
def execLayout (h : FrameHdr) (r : LayoutReq) (s : State) : Out := .next (takeMsg s h.src h.qp (.layout h r))
/-- R454, R461. -/
def execPowercap (h : FrameHdr) (watts : Nat) (s : State) : Out := .next (takeMsg s h.src h.qp (.powercap h watts))
/-- R454, R459. -/
def execBootstmt (h : FrameHdr) (s : State) : Out := .next (takeMsg s h.src h.qp (.bootstmt h))
/-- R454, R466. -/
def execReset (h : FrameHdr) (s : State) : Out := .next (takeMsg s h.src h.qp (.reset h))

/-! ### What follows every step -/

/-- Runs whose park is over end, stops take entries, recalls take frames, messages and EXPORTs go on, waiting records and adds are written. -/
def settleAfter (s : State) : State := pump 4 (pumpExports (pumpInbox (feedRecalls (pumpStops (endReady s)))))

end Sys2Proof.Machine
end

