-- ==== Sys2Proof/Machine/IntWords.lean ====
section
/-!
DEFINITION. The integer, address and predicate words (R202 to R221).
-/
namespace Sys2Proof.Machine

/-- R206. -/
def execIadd (h : Hdr) (d a b : Reg) (ty : ITy) (sat : Bool) (s : State) : Out :=
  .next (binaryWord s h d a b (tyRegs ty) (tyRegs ty) (tyRegs ty) (intBin .add ty sat))
/-- R206. -/
def execIsub (h : Hdr) (d a b : Reg) (ty : ITy) (sat : Bool) (s : State) : Out :=
  .next (binaryWord s h d a b (tyRegs ty) (tyRegs ty) (tyRegs ty) (intBin .sub ty sat))
/-- R206. -/
def execImul (h : Hdr) (d a b : Reg) (ty : ITy) (sat : Bool) (s : State) : Out :=
  .next (binaryWord s h d a b (tyRegs ty) (tyRegs ty) (tyRegs ty) (intBin .mul ty sat))
/-- R206. -/
def execImulh (h : Hdr) (d a b : Reg) (ty : ITy) (s : State) : Out :=
  .next (binaryWord s h d a b (tyRegs ty) (tyRegs ty) (tyRegs ty) (intBin .mulh ty false))
/-- R206. -/
def execImad (h : Hdr) (d a b c : Reg) (ty : ITy) (sat : Bool) (s : State) : Out :=
  .next (ternaryWord s h d a b c (tyRegs ty) (tyRegs ty) (tyRegs ty) (tyRegs ty) (intMad ty sat))
/-- R207. -/
def execImadw (h : Hdr) (d a b c : Reg) (signed sat : Bool) (s : State) : Out :=
  .next (ternaryWord s h d a b c 2 1 1 2 (intMadw signed sat))

/-- R208: the sum, with the carry in and out through one predicate. -/
def execIadd64 (h : Hdr) (d a b : Reg) (p : Option (Fin 8)) (ci co : Bool) (s : State) : Out :=
  let pr := p.getD 7
  let r := laneVals s h (fun q e => add64 (srcVal s a 2 q e) (srcVal s b 2 q e) (ci && predVal s pr q e))
  let sums := r.map (fun v => (v.1, v.2.1, v.2.2.1))
  if co then .next (putBoth s h d 2 sums pr.val (r.map (fun v => (v.1, v.2.1, v.2.2.2))))
  else .next (putVals s h d 2 sums)

/-- R209. -/
def execLea (h : Hdr) (d a b : Reg) (ty : ITy) (k : Fin 32) (s : State) : Out :=
  .next (binaryWord s h d a b 2 2 (tyRegs ty) (fun x y => leaVal ty x y k.val))
/-- R210. -/
def execIshl (h : Hdr) (d a b : Reg) (ty : ITy) (s : State) : Out :=
  .next (binaryWord s h d a b (tyRegs ty) (tyRegs ty) 1 (shiftVal .shl ty))
/-- R210. -/
def execIshr (h : Hdr) (d a b : Reg) (ty : ITy) (s : State) : Out :=
  .next (binaryWord s h d a b (tyRegs ty) (tyRegs ty) 1 (shiftVal .ashr ty))
/-- R210. -/
def execLshr (h : Hdr) (d a b : Reg) (ty : ITy) (s : State) : Out :=
  .next (binaryWord s h d a b (tyRegs ty) (tyRegs ty) 1 (shiftVal .lshr ty))
/-- R210. -/
def execRot (h : Hdr) (d a b : Reg) (ty : ITy) (s : State) : Out :=
  .next (binaryWord s h d a b (tyRegs ty) (tyRegs ty) 1 (shiftVal .rot ty))
/-- R211. -/
def execLop3 (h : Hdr) (d a b c : Reg) (tt : BitVec 8) (s : State) : Out :=
  .next (ternaryWord s h d a b c 1 1 1 1 (lop3Val tt))
/-- R211. -/
def execAnd (h : Hdr) (d a b : Reg) (ty : ITy) (s : State) : Out :=
  .next (binaryWord s h d a b (tyRegs ty) (tyRegs ty) (tyRegs ty) (logicVal .and ty))
/-- R211. -/
def execOr (h : Hdr) (d a b : Reg) (ty : ITy) (s : State) : Out :=
  .next (binaryWord s h d a b (tyRegs ty) (tyRegs ty) (tyRegs ty) (logicVal .or ty))
/-- R211. -/
def execXor (h : Hdr) (d a b : Reg) (ty : ITy) (s : State) : Out :=
  .next (binaryWord s h d a b (tyRegs ty) (tyRegs ty) (tyRegs ty) (logicVal .xor ty))
/-- R211. -/
def execNot (h : Hdr) (d a : Reg) (ty : ITy) (s : State) : Out :=
  .next (unaryWord s h d a (tyRegs ty) (tyRegs ty) (notVal ty))
/-- R206. -/
def execImin (h : Hdr) (d a b : Reg) (ty : ITy) (s : State) : Out :=
  .next (binaryWord s h d a b (tyRegs ty) (tyRegs ty) (tyRegs ty) (intBin .min ty false))
/-- R206. -/
def execImax (h : Hdr) (d a b : Reg) (ty : ITy) (s : State) : Out :=
  .next (binaryWord s h d a b (tyRegs ty) (tyRegs ty) (tyRegs ty) (intBin .max ty false))
/-- R206. -/
def execIabs (h : Hdr) (d a : Reg) (ty : ITy) (sat : Bool) (s : State) : Out :=
  .next (unaryWord s h d a (tyRegs ty) (tyRegs ty) (intAbs ty sat))
/-- R206. -/
def execIneg (h : Hdr) (d a : Reg) (ty : ITy) (sat : Bool) (s : State) : Out :=
  .next (unaryWord s h d a (tyRegs ty) (tyRegs ty) (intNeg ty sat))
/-- R212. -/
def execPopc (h : Hdr) (d a : Reg) (ty : ITy) (s : State) : Out :=
  .next (unaryWord s h d a 1 (tyRegs ty) (popcVal ty))
/-- R212. -/
def execClz (h : Hdr) (d a : Reg) (ty : ITy) (s : State) : Out :=
  .next (unaryWord s h d a 1 (tyRegs ty) (clzVal ty))
/-- R212. -/
def execBrev (h : Hdr) (d a : Reg) (ty : ITy) (s : State) : Out :=
  .next (unaryWord s h d a (tyRegs ty) (tyRegs ty) (brevVal ty))
/-- R213. -/
def execBfx (h : Hdr) (d a b : Reg) (ty : ITy) (s : State) : Out :=
  .next (binaryWord s h d a b (tyRegs ty) (tyRegs ty) 1 (bfxVal ty))
/-- R213. -/
def execBfi (h : Hdr) (d a b c : Reg) (ty : ITy) (s : State) : Out :=
  .next (ternaryWord s h d a b c (tyRegs ty) (tyRegs ty) (tyRegs ty) 1 (bfiVal ty))
/-- R214. -/
def execIcmp (h : Hdr) (p : Fin 8) (a b : Reg) (ty : ITy) (cond : ICond) (s : State) : Out :=
  .next (compareWord s h p a b (tyRegs ty) (icmpVal cond ty))
/-- R215. -/
def execSel (h : Hdr) (d a b : Reg) (p : Fin 8) (neg : Bool) (ty : ITy) (s : State) : Out :=
  .next (putVals s h d (tyRegs ty) (laneVals s h (fun q e =>
    copyVal ty (if predVal s p q e != neg then srcVal s a (tyRegs ty) q e else srcVal s b (tyRegs ty) q e))))
/-- R217. -/
def execMov (h : Hdr) (d a : Reg) (ty : ITy) (s : State) : Out :=
  .next (unaryWord s h d a (tyRegs ty) (tyRegs ty) (copyVal ty))
/-- R218, the 32-bit form. -/
def execMovi (h : Hdr) (d : Reg) (imm : Word) (s : State) : Out :=
  .next (putVals s h d 1 (laneVals s h (fun _ _ => imm.toNat)))
/-- R47, R218, the 64-bit form: the immediate sign-extended, or in the upper half. -/
def execMoviN64 (h : Hdr) (d : Reg) (hi : Bool) (imm : Word) (s : State) : Out :=
  .next (putVals s h d 2 (laneVals s h (fun _ _ => if hi then imm.toNat * 2 ^ 32 else (imm.signExtend 64).toNat)))
/-- R216. -/
def execPlop (h : Hdr) (p a b c : Fin 8) (tt : BitVec 8) (s : State) : Out :=
  .next (putPreds s h p (laneVals s h (fun q e => ttBit tt (predVal s a q e) (predVal s b q e) (predVal s c q e))))
/-- R219. -/
def execIdot4 (h : Hdr) (d a b c : Reg) (signed mix sat : Bool) (s : State) : Out :=
  .next (ternaryWord s h d a b c 1 1 1 1 (idot4Val signed mix sat))

/-- The lowest lane by (HWARP, HLANE). -/
def lowLane {α : Type} (rank : α → Nat) : List α → Option α
  | [] => none
  | a :: l =>
    match lowLane rank l with
    | none => some a
    | some b => if rank a ≤ rank b then some a else some b

/-- R220: one value of the warp's taking lanes into an s register; .uni faults the word where they differ (R388). -/
def execVtos (h : Hdr) (d a : Reg) (ty : ITy) (mode : VtosMode) (s : State) : Out :=
  let vals := (laneVals s h (fun p e => copyVal ty (srcVal s a (tyRegs ty) p e))).filter (fun v => !v.2.1.help)
  let rank : Nat × LaneEnt × Nat → Nat := fun v => laneRank v.2.1
  let pick := match mode with
    | .last => topLane rank vals
    | .first | .uni => lowLane rank vals
  match pick with
  | none => .next (finish s h.b h.w)
  | some v =>
    if mode = .uni ∧ vals.any (fun x => x.2.2 != v.2.2) then .next (faultWord s s.md.cur 0x30 0 0x07 none)
    else .next (finish (writeDst s s.md.cur d (tyRegs ty) [v]) h.b h.w)

/-- Bits of a list of physical lanes. -/
def laneBits (l : List (Nat × LaneEnt)) : Nat := l.foldl (fun acc q => acc ||| 2 ^ q.1) 0

/-- R201: the value of a selector in a lane. -/
def sysVal (s : State) (w : Warp) (sel : Nat) (p : Nat) (e : LaneEnt) : Nat :=
  let g := s.group w.gi
  let gr := s.grid g.grid
  let c := s.ctx g.ctx
  match sel with
  | 0x00 => e.hlane
  | 0x01 => e.hwarp
  | 0x02 => e.hwarp * 32 + e.hlane
  | 0x03 => g.gid
  | 0x04 => gr.gx
  | 0x05 => gr.gy
  | 0x06 => gr.gz
  | 0x07 => g.gsize
  | 0x08 => g.spanPos
  | 0x09 => gr.span
  | 0x0A => g.roles
  | 0x0B => w.core
  | 0x0C => coveOf w.core
  | 0x0D => w.quarter
  | 0x0E => p
  | 0x0F => laneBits (activeLanes w)
  | 0x10 => laneBits ((liveLanes w).filter (fun q => q.2.help))
  | 0x11 => g.ctx
  | 0x12 => c.level
  | 0x13 => NMap.get 0 s.cx.latch w.core
  | 0x14 => gr.cls
  | 0x15 => if c.stat then 1 else 0
  | 0x16 => s.pt.cycle % 2 ^ 32
  | 0x17 => (w.cycHi.getD (BitVec.ofNat 32 (s.pt.cycle / 2 ^ 32))).toNat
  | 0x18 => g.regs
  | 0x19 => g.scratch
  | 0x1A => gr.lseed.toNat
  | 0x1B => (genOf s w e).toNat
  | 0x1C => (s.thread (thKey w.gi e.hwarp e.hlane)).prio
  | 0x1D => g.rb
  | _ => g.spBase

/-- R201, R221: reading CYCLE.LO keeps CYCLE.HI as it stands for the run. -/
def execSysrd (h : Hdr) (d : Reg) (sel : Fin 31) (s : State) : Out :=
  let w := s.curWarp
  let vals := laneVals s h (fun p e => sysVal s w sel.val p e)
  let t := if sel.val = 0x16 then s.updWarp s.md.cur (fun x => { x with cycHi := some (BitVec.ofNat 32 (s.pt.cycle / 2 ^ 32)) }) else s
  .next (putVals t h d 1 vals)

end Sys2Proof.Machine
end

