-- ==== Sys2Proof/Machine/Wear.lean ====
section
/-!
DEFINITION. Power, heat, wear and links (R314, R433, R461 to R465): the events POWER_SAMPLE, SOFT_ERROR and PORT_LINK_CHANGE.
-/
namespace Sys2Proof.Machine

/-! ### Power and heat (R461, R462) -/

/-- The clock of an island in steps of 53.125 MHz: 16 is 850 MHz, the floor of 425 MHz is 8. -/
def clockOf (s : State) (island : Nat) : Nat := NMap.get 16 s.pt.clocks island
def setClock (s : State) (island n : Nat) : State := s.updPT (fun p => { p with clocks := NMap.set 16 p.clocks island n })

/-- R461: core and cove islands go down one step, not below the floor. -/
def throttle (s : State) : State := (List.range 432).foldl (fun s i => setClock s i (max 8 (clockOf s i - 1))) s

/-- Islands that neither the cap nor heat holds down may go up a step; when is open (FREE VALUE, log entry 5). -/
def relax (s : State) : State :=
  (s.pt.clocks.map (·.1)).foldl (fun s i =>
    let (b, s) := s.coin
    if b then setClock s i (min 16 (clockOf s i + 1)) else s) s

/-- R461, R462: power is sampled; over the cap, or with a junction above 105 °C, core and cove islands are lowered; at 110 °C the board
controller removes power. `temps` lists junctions as (island, °C). -/
def execPowerSample (watts : Nat) (temps : List (Nat × Nat)) (s : State) : Out :=
  let top := (temps.map (·.2)).foldl max 0
  .next (if 110 ≤ top then dark s
    else
      let s := s.updPT (fun p => { p with watts := watts, maxTemp := top })
      if s.pt.powerCap < watts ∨ 105 < top then throttle s else relax s)

/-! ### Soft errors (R433, R463, R465) -/

/-- R117: the granule at an address is poisoned where it is held. -/
def strikeGranule (s : State) (pa : Nat) : State :=
  let g := pa / 64
  match s.mm.llc.find (pa / 128) with
  | some _ => poisonGranule s g
  | none => s.updMM (fun m => { m with hbmPoison := if m.hbmPoison.contains g then m.hbmPoison else g :: m.hbmPoison })

/-- R117: a core's own copy of a granule is poisoned; dirty words take the poison with them when they are registered. -/
def strikeL1 (s : State) (core pa : Nat) : State :=
  let i := pa % 128 / 64
  setL1 s core (pa / 128) (fun l =>
    let hit := l.words.filter (fun w => w.1 / 16 = i)
    if hit = [] then l
    else { l with
      poison := (i :: l.poison).eraseDups
      fresh := l.fresh.filter (fun k => k / 16 != i)
      lost := (((hit.filter (fun w => w.2.dirty)).map (·.1)) ++ l.lost).eraseDups })

/-- R191, R465: the register of the group whose range holds a pool row. -/
def strikeRow (s : State) (core row : Nat) : State :=
  match s.wk.groups.find? (fun g => g.2.core = core && (g.2.resident || g.2.intact) && decide (g.2.rb ≤ row) &&
      decide (row < g.2.rb + (g.2.gsize + 31) / 32 * g.2.regs)) with
  | none => s
  | some g =>
    let x := row - g.2.rb
    let keys := (List.range 32).map (fun l => vKey g.1 (x / g.2.regs) (x % g.2.regs) l)
    s.updPT (fun p => { p with rowPoison := (keys ++ p.rowPoison).eraseDups })

/-- R465: an accumulator element of the context whose array the core serves. -/
def strikeAcc (s : State) (core tile m c : Nat) : State :=
  let half := if splitMode s core then m / 64 else 0
  match s.en.grants.find (halfKey core half) with
  | none => s
  | some ctx =>
    let key := accBase ctx core tile + m * 64 + c
    s.updEN (fun e => { e with accPoison := (key :: e.accPoison).eraseDups })

/-- R433: a node of an integrity tree: every granule of the frames beneath it is poisoned, and the parent of the slot's holder is told. -/
def strikeTree (s : State) (slot first last_ : Nat) : State :=
  let frames := (List.range (last_ + 1 - first)).map (· + first)
  let s := frames.foldl (fun s f => (List.range 1024).foldl (fun s i => strikeGranule s (f * 2 ^ 16 + 64 * i)) s) s
  postEvent s (slotHolder s false slot) 0x84 (some (first * 2 ^ 16)) 0

/-- The kind of an array, as its count of corrected errors is kept. -/
def siteKind : ErrSite → Nat
  | .granule _ => 0
  | .l1Granule _ _ => 1
  | .regRow _ _ => 2
  | .spadWord _ _ => 3
  | .accElem _ _ _ _ => 4
  | .tableEntry _ | .treeNode _ _ _ => 5
  | .headlandSram => 6

/-- R465: what an uncorrectable error does. -/
def strike (s : State) : ErrSite → State
  | .granule pa | .tableEntry pa => strikeGranule s pa
  | .l1Granule core pa => strikeL1 s core pa
  | .regRow core row => strikeRow s core row
  | .spadWord core word => s.updPT (fun p => { p with spadPoison := ((core * 2 ^ 17 + word) :: p.spadPoison).eraseDups })
  | .accElem core tile m c => strikeAcc s core tile m c
  | .treeNode slot first last_ => strikeTree s slot first last_
  | .headlandSram => worsen s 2

/-- R463, R465: a soft error is corrected and counted, or strikes; the unit may then be retired. -/
def execSoftError (site : ErrSite) (uncorrectable : Bool) (retire : Option WearUnit) (s : State) : Out :=
  let s := if uncorrectable then strike s site
    else s.updPT (fun p => { p with errors := NMap.set 0 p.errors (siteKind site) (NMap.get 0 p.errors (siteKind site) + 1) })
  .next (match retire with
    | none => s
    | some u => if unitOk u then (stage s (.retire u) none none).2 else s)

/-! ### Links (R314) -/

/-- R314: a port trains, or goes down and reads 0xFFFF. -/
def execPortLinkChange (port : Nat) (jetty : Option (BitVec 16)) (s : State) : Out :=
  let id := ((jetty.map (·.toNat)).getD 0xFFFF)
  .next (if 16 ≤ port then s else { s with fb := { s.fb with links := NMap.insert s.fb.links port id } })

end Sys2Proof.Machine
end

