-- ==== Sys2Proof/Machine/Dispatch.lean ====
section
/-!
DEFINITION. The dispatch of the part's steps to their meanings: one arm per constructor of Instr.
-/
namespace Sys2Proof.Machine

def exec (i : Instr) (s : State) : Host.Outcome State Fault Refusal :=
  match i with
  | .powerSample watts temps => Sys2Proof.Machine.execPowerSample watts temps s
  | .softError site uncorrectable retire => Sys2Proof.Machine.execSoftError site uncorrectable retire s
  | .portLinkChange port jetty => Sys2Proof.Machine.execPortLinkChange port jetty s
  | .layoutAbandon change => Sys2Proof.Machine.execLayoutAbandon change s
  | .ckptTrigger ctx onCount => Sys2Proof.Machine.execCkptTrigger ctx onCount s
  | .migrationEpoch queued => Sys2Proof.Machine.execMigrationEpoch queued s
  | .parkComplete park => Sys2Proof.Machine.execParkComplete park s
  | .recallComplete id how => Sys2Proof.Machine.execRecallComplete id how s
  | .launchFrame h recs => Sys2Proof.Machine.execLaunchFrame h recs s
  | .recordAcceptance queue => Sys2Proof.Machine.execRecordAcceptance queue s
  | .spanPlacement queue => Sys2Proof.Machine.execSpanPlacement queue s
  | .gridCompletion grid => Sys2Proof.Machine.execGridCompletion grid s
  | .runSelection core quarter => Sys2Proof.Machine.execRunSelection core quarter s
  | .preemption span why => Sys2Proof.Machine.execPreemption span why s
  | .eddyRestore group => Sys2Proof.Machine.execEddyRestore group s
  | .matrixGrantSwitch core half ctx => Sys2Proof.Machine.execMatrixGrantSwitch core half ctx s
  | .resultReturn result late => Sys2Proof.Machine.execResultReturn result late s
  | .walkComplete walk => Sys2Proof.Machine.execWalkComplete walk s
  | .storePerform group hwarp => Sys2Proof.Machine.execStorePerform group hwarp s
  | .directoryAck item => Sys2Proof.Machine.execDirectoryAck item s
  | .drop item => Sys2Proof.Machine.execDrop item s
  | .lineRetry warp => Sys2Proof.Machine.execLineRetry warp s
  | .serviceWarpRequest cove item => Sys2Proof.Machine.execServiceWarpRequest cove item s
  | .bwaitRetest cove item => Sys2Proof.Machine.execBwaitRetest cove item s
  | .copyGranule cmd ahead => Sys2Proof.Machine.execCopyGranule cmd ahead s
  | .xbulkGranule cmd ahead => Sys2Proof.Machine.execXbulkGranule cmd ahead s
  | .mxstGranule cmd => Sys2Proof.Machine.execMxstGranule cmd s
  | .matrixGranule core half ahead => Sys2Proof.Machine.execMatrixGranule core half ahead s
  | .rxPacket p => Sys2Proof.Machine.execRxPacket p s
  | .signalPacket p => Sys2Proof.Machine.execSignalPacket p s
  | .packetAck packet badAuth others => Sys2Proof.Machine.execPacketAck packet badAuth others s
  | .flitReplay packet => Sys2Proof.Machine.execFlitReplay packet s
  | .packetRetransmit packet => Sys2Proof.Machine.execPacketRetransmit packet s
  | .enrolmentConfirm entry => Sys2Proof.Machine.execEnrolmentConfirm entry s
  | .enrolmentLost entry => Sys2Proof.Machine.execEnrolmentLost entry s
  | .freezeComplete op => Sys2Proof.Machine.execFreezeComplete op s
  | .checkpointImage op => Sys2Proof.Machine.execCheckpointImage op s
  | .backwashFrame job => Sys2Proof.Machine.execBackwashFrame job s
  | .receiptSigned receipt => Sys2Proof.Machine.execReceiptSigned receipt s
  | .hostWrite m => Sys2Proof.Machine.execHostWrite m s
  | .hostWriteImm m imm => Sys2Proof.Machine.execHostWriteImm m imm s
  | .hostReadRefused src qp => Sys2Proof.Machine.execHostReadRefused src qp s
  | .readview h ctx block core => Sys2Proof.Machine.execReadview h ctx block core s
  | .exportCmd h r => Sys2Proof.Machine.execExportCmd h r s
  | .keyload h r => Sys2Proof.Machine.execKeyload h r s
  | .armckpt h ctx kind value desc => Sys2Proof.Machine.execArmckpt h ctx kind value desc s
  | .report h hostAddr rkey size => Sys2Proof.Machine.execReport h hostAddr rkey size s
  | .health h => Sys2Proof.Machine.execHealth h s
  | .layout h r => Sys2Proof.Machine.execLayout h r s
  | .powercap h watts => Sys2Proof.Machine.execPowercap h watts s
  | .bootstmt h => Sys2Proof.Machine.execBootstmt h s
  | .reset h => Sys2Proof.Machine.execReset h s
  | .nop h => Sys2Proof.Machine.execNop h s
  | .bra h u prio off => Sys2Proof.Machine.execBra h u prio off s
  | .brx h u prio tgt => Sys2Proof.Machine.execBrx h u prio tgt s
  | .call h u prio link off => Sys2Proof.Machine.execCall h u prio link off s
  | .ret h u prio tgt => Sys2Proof.Machine.execRet h u prio tgt s
  | .exit h => Sys2Proof.Machine.execExit h s
  | .join h k => Sys2Proof.Machine.execJoin h k s
  | .leave h k => Sys2Proof.Machine.execLeave h k s
  | .kwait h k => Sys2Proof.Machine.execKwait h k s
  | .rgn h => Sys2Proof.Machine.execRgn h s
  | .yield h => Sys2Proof.Machine.execYield h s
  | .trap h code => Sys2Proof.Machine.execTrap h code s
  | .brk h code => Sys2Proof.Machine.execBrk h code s
  | .spri h prio => Sys2Proof.Machine.execSpri h prio s
  | .launch h rec q => Sys2Proof.Machine.execLaunch h rec q s
  | .trl w r0 r1 r2 r3 => Sys2Proof.Machine.execTrl w r0 r1 r2 r3 s
  | .dualWord b w x y => Sys2Proof.Machine.execDualWord b w x y s
  | .iadd h d a b ty sat => Sys2Proof.Machine.execIadd h d a b ty sat s
  | .isub h d a b ty sat => Sys2Proof.Machine.execIsub h d a b ty sat s
  | .imul h d a b ty sat => Sys2Proof.Machine.execImul h d a b ty sat s
  | .imulh h d a b ty => Sys2Proof.Machine.execImulh h d a b ty s
  | .imad h d a b c ty sat => Sys2Proof.Machine.execImad h d a b c ty sat s
  | .imadw h d a b c signed sat => Sys2Proof.Machine.execImadw h d a b c signed sat s
  | .iadd64 h d a b p ci co => Sys2Proof.Machine.execIadd64 h d a b p ci co s
  | .lea h d a b ty k => Sys2Proof.Machine.execLea h d a b ty k s
  | .ishl h d a b ty => Sys2Proof.Machine.execIshl h d a b ty s
  | .ishr h d a b ty => Sys2Proof.Machine.execIshr h d a b ty s
  | .lshr h d a b ty => Sys2Proof.Machine.execLshr h d a b ty s
  | .rot h d a b ty => Sys2Proof.Machine.execRot h d a b ty s
  | .lop3 h d a b c tt => Sys2Proof.Machine.execLop3 h d a b c tt s
  | .and h d a b ty => Sys2Proof.Machine.execAnd h d a b ty s
  | .or h d a b ty => Sys2Proof.Machine.execOr h d a b ty s
  | .xor h d a b ty => Sys2Proof.Machine.execXor h d a b ty s
  | .not h d a ty => Sys2Proof.Machine.execNot h d a ty s
  | .imin h d a b ty => Sys2Proof.Machine.execImin h d a b ty s
  | .imax h d a b ty => Sys2Proof.Machine.execImax h d a b ty s
  | .iabs h d a ty sat => Sys2Proof.Machine.execIabs h d a ty sat s
  | .ineg h d a ty sat => Sys2Proof.Machine.execIneg h d a ty sat s
  | .popc h d a ty => Sys2Proof.Machine.execPopc h d a ty s
  | .clz h d a ty => Sys2Proof.Machine.execClz h d a ty s
  | .brev h d a ty => Sys2Proof.Machine.execBrev h d a ty s
  | .bfx h d a b ty => Sys2Proof.Machine.execBfx h d a b ty s
  | .bfi h d a b c ty => Sys2Proof.Machine.execBfi h d a b c ty s
  | .icmp h p a b ty cond => Sys2Proof.Machine.execIcmp h p a b ty cond s
  | .sel h d a b p neg ty => Sys2Proof.Machine.execSel h d a b p neg ty s
  | .mov h d a ty => Sys2Proof.Machine.execMov h d a ty s
  | .movi h d imm => Sys2Proof.Machine.execMovi h d imm s
  | .moviN64 h d hi imm => Sys2Proof.Machine.execMoviN64 h d hi imm s
  | .plop h p a b c tt => Sys2Proof.Machine.execPlop h p a b c tt s
  | .idot4 h d a b c signed mix sat => Sys2Proof.Machine.execIdot4 h d a b c signed mix sat s
  | .vtos h d a ty mode => Sys2Proof.Machine.execVtos h d a ty mode s
  | .sysrd h d sel => Sys2Proof.Machine.execSysrd h d sel s
  | .fadd h d a b ty rm ma mb sat ftz => Sys2Proof.Machine.execFadd h d a b ty rm ma mb sat ftz s
  | .fsub h d a b ty rm ma mb sat ftz => Sys2Proof.Machine.execFsub h d a b ty rm ma mb sat ftz s
  | .fmul h d a b ty rm ma mb sat ftz => Sys2Proof.Machine.execFmul h d a b ty rm ma mb sat ftz s
  | .ffma h d a b c ty rm ma mb nc sat ftz => Sys2Proof.Machine.execFfma h d a b c ty rm ma mb nc sat ftz s
  | .fmin h d a b ty ma mb ftz => Sys2Proof.Machine.execFmin h d a b ty ma mb ftz s
  | .fmax h d a b ty ma mb ftz => Sys2Proof.Machine.execFmax h d a b ty ma mb ftz s
  | .fcmp h p a b ty ma mb ftz cond => Sys2Proof.Machine.execFcmp h p a b ty ma mb ftz cond s
  | .fclass h d a ty ftz => Sys2Proof.Machine.execFclass h d a ty ftz s
  | .fscale h d a b ty rm ma ftz => Sys2Proof.Machine.execFscale h d a b ty rm ma ftz s
  | .frint h d a ty rm ma ftz => Sys2Proof.Machine.execFrint h d a ty rm ma ftz s
  | .fmaxa h d a b ty ftz => Sys2Proof.Machine.execFmaxa h d a b ty ftz s
  | .frcp h d a ma ftz => Sys2Proof.Machine.execFrcp h d a ma ftz s
  | .frsq h d a ma ftz => Sys2Proof.Machine.execFrsq h d a ma ftz s
  | .fsqrt h d a rm ma ftz => Sys2Proof.Machine.execFsqrt h d a rm ma ftz s
  | .fexp2 h d a ma ftz => Sys2Proof.Machine.execFexp2 h d a ma ftz s
  | .flog2 h d a ma ftz => Sys2Proof.Machine.execFlog2 h d a ma ftz s
  | .fsin h d a ma ftz => Sys2Proof.Machine.execFsin h d a ma ftz s
  | .fcos h d a ma ftz => Sys2Proof.Machine.execFcos h d a ma ftz s
  | .ftanh h d a ma ftz => Sys2Proof.Machine.execFtanh h d a ma ftz s
  | .fsigm h d a ma ftz => Sys2Proof.Machine.execFsigm h d a ma ftz s
  | .hadd2 h d a b rm ma mb sat => Sys2Proof.Machine.execHadd2 h d a b rm ma mb sat s
  | .hmul2 h d a b rm ma mb sat => Sys2Proof.Machine.execHmul2 h d a b rm ma mb sat s
  | .hfma2 h d a b c rm ma mb nc sat => Sys2Proof.Machine.execHfma2 h d a b c rm ma mb nc sat s
  | .hmin2 h d a b ma mb => Sys2Proof.Machine.execHmin2 h d a b ma mb s
  | .hmax2 h d a b ma mb => Sys2Proof.Machine.execHmax2 h d a b ma mb s
  | .badd2 h d a b rm ma mb sat => Sys2Proof.Machine.execBadd2 h d a b rm ma mb sat s
  | .bmul2 h d a b rm ma mb sat => Sys2Proof.Machine.execBmul2 h d a b rm ma mb sat s
  | .bfma2 h d a b c rm ma mb nc sat => Sys2Proof.Machine.execBfma2 h d a b c rm ma mb nc sat s
  | .bmin2 h d a b ma mb => Sys2Proof.Machine.execBmin2 h d a b ma mb s
  | .bmax2 h d a b ma mb => Sys2Proof.Machine.execBmax2 h d a b ma mb s
  | .hdot2 h d a b c rm ma mb nc sat => Sys2Proof.Machine.execHdot2 h d a b c rm ma mb nc sat s
  | .bdot2 h d a b c rm ma mb nc sat => Sys2Proof.Machine.execBdot2 h d a b c rm ma mb nc sat s
  | .cvt h d a dt st rm ma sat ftz => Sys2Proof.Machine.execCvt h d a dt st rm ma sat ftz s
  | .pack2 h d a b kind rm ma mb sat ftz => Sys2Proof.Machine.execPack2 h d a b kind rm ma mb sat ftz s
  | .blkenc h d a scale fmt z rm ftz => Sys2Proof.Machine.execBlkenc h d a scale fmt z rm ftz s
  | .blkdec h d a c4 z ftz => Sys2Proof.Machine.execBlkdec h d a c4 z ftz s
  | .blkhdrMake h d a fmt c z => Sys2Proof.Machine.execBlkhdrMake h d a fmt c z s
  | .blkhdrChk h d a c4 c z => Sys2Proof.Machine.execBlkhdrChk h d a c4 c z s
  | .ld h d m => Sys2Proof.Machine.execLd h d m s
  | .st h d m => Sys2Proof.Machine.execSt h d m s
  | .lds h d m => Sys2Proof.Machine.execLds h d m s
  | .sts h d m => Sys2Proof.Machine.execSts h d m s
  | .ldc h d m => Sys2Proof.Machine.execLdc h d m s
  | .ldsc h o m => Sys2Proof.Machine.execLdsc h o m s
  | .stsc h d m => Sys2Proof.Machine.execStsc h d m s
  | .pref h m => Sys2Proof.Machine.execPref h m s
  | .cctlWb h m => Sys2Proof.Machine.execCctlWb h m s
  | .cctlInv h m => Sys2Proof.Machine.execCctlInv h m s
  | .cctlIvc h m => Sys2Proof.Machine.execCctlIvc h m s
  | .cctlIvcAll h => Sys2Proof.Machine.execCctlIvcAll h s
  | .cctlIviAll h => Sys2Proof.Machine.execCctlIviAll h s
  | .fenceAcq h sc => Sys2Proof.Machine.execFenceAcq h sc s
  | .fenceRel h sc => Sys2Proof.Machine.execFenceRel h sc s
  | .fenceAcqrel h sc => Sys2Proof.Machine.execFenceAcqrel h sc s
  | .prset h m => Sys2Proof.Machine.execPrset h m s
  | .prclr h m => Sys2Proof.Machine.execPrclr h m s
  | .prtst h d m => Sys2Proof.Machine.execPrtst h d m s
  | .atom h d y op m => Sys2Proof.Machine.execAtom h d y op m s
  | .atomcas h d y m => Sys2Proof.Machine.execAtomcas h d y m s
  | .red h y op m => Sys2Proof.Machine.execRed h y op m s
  | .bsig h y m => Sys2Proof.Machine.execBsig h y m s
  | .bwait h y m => Sys2Proof.Machine.execBwait h y m s
  | .bpoll h d m => Sys2Proof.Machine.execBpoll h d m s
  | .stwait h stage m => Sys2Proof.Machine.execStwait h stage m s
  | .stflip h stage m => Sys2Proof.Machine.execStflip h stage m s
  | .gsync h span => Sys2Proof.Machine.execGsync h span s
  | .shfl h d a b p ty mode seg => Sys2Proof.Machine.execShfl h d a b p ty mode seg s
  | .shflx h d a b p ty => Sys2Proof.Machine.execShflx h d a b p ty s
  | .vote h d pa neg mode => Sys2Proof.Machine.execVote h d pa neg mode s
  | .redl h d a ty op rm sat ftz => Sys2Proof.Machine.execRedl h d a ty op rm sat ftz s
  | .prfx h d a ty op excl rm sat ftz => Sys2Proof.Machine.execPrfx h d a ty op excl rm sat ftz s
  | .matchLanes h d a ty mode => Sys2Proof.Machine.execMatchLanes h d a ty mode s
  | .qxch h d a ty x => Sys2Proof.Machine.execQxch h d a ty x s
  | .qbcst h d a ty q => Sys2Proof.Machine.execQbcst h d a ty q s
  | .lmap h d form => Sys2Proof.Machine.execLmap h d form s
  | .cpy h c => Sys2Proof.Machine.execCpy h c s
  | .cpy2d h c => Sys2Proof.Machine.execCpy2d h c s
  | .cpyg h c => Sys2Proof.Machine.execCpyg h c s
  | .cpys h c => Sys2Proof.Machine.execCpys h c s
  | .cpyf h c => Sys2Proof.Machine.execCpyf h c s
  | .waitsb h c n => Sys2Proof.Machine.execWaitsb h c n s
  | .cpyq h d clr => Sys2Proof.Machine.execCpyq h d clr s
  | .mxa h base stride sp fmt c z => Sys2Proof.Machine.execMxa h base stride sp fmt c z s
  | .mxb h base stride sp fmt z => Sys2Proof.Machine.execMxb h base stride sp fmt z s
  | .mxshp h dims k => Sys2Proof.Machine.execMxshp h dims k s
  | .mxspm h bmap index => Sys2Proof.Machine.execMxspm h bmap index s
  | .mxrun h reel gran sbc acc flip => Sys2Proof.Machine.execMxrun h reel gran sbc acc flip s
  | .mxcmt h d => Sys2Proof.Machine.execMxcmt h d s
  | .mxwb h n => Sys2Proof.Machine.execMxwb h n s
  | .mxz h acc => Sys2Proof.Machine.execMxz h acc s
  | .mxrd h d index acc cnt => Sys2Proof.Machine.execMxrd h d index acc cnt s
  | .mxwr h index y acc cnt => Sys2Proof.Machine.execMxwr h index y acc cnt s
  | .mxst h stride base sp acc cv gran sbc => Sys2Proof.Machine.execMxst h stride base sp acc cv gran sbc s
  | .mxpairOn h => Sys2Proof.Machine.execMxpairOn h s
  | .mxpairOff h => Sys2Proof.Machine.execMxpairOff h s
  | .mxprog h d => Sys2Proof.Machine.execMxprog h d s
  | .xbulk h dst src size gran sbc ch ssp rel => Sys2Proof.Machine.execXbulk h dst src size gran sbc ch ssp rel s
  | .xred h y m => Sys2Proof.Machine.execXred h y m s
  | .xsig h y m => Sys2Proof.Machine.execXsig h y m s
  | .rfence h => Sys2Proof.Machine.execRfence h s
  | .syswrWrite h d tgt val sel => Sys2Proof.Machine.execSyswrWrite h d tgt val sel s
  | .syswrRead h d tgt sel => Sys2Proof.Machine.execSyswrRead h d tgt sel s
  | .faultResolve h d tgt val => Sys2Proof.Machine.execFaultResolve h d tgt val s
  | .ctxStat h d tgt val => Sys2Proof.Machine.execCtxStat h d tgt val s
  | .ctxPrqHead h d tgt val => Sys2Proof.Machine.execCtxPrqHead h d tgt val s
  | .ctxFqHead h d tgt val => Sys2Proof.Machine.execCtxFqHead h d tgt val s
  | .ctxNqHead h d tgt val => Sys2Proof.Machine.execCtxNqHead h d tgt val s
  | .ptCtl h d tgt val => Sys2Proof.Machine.execPtCtl h d tgt val s
  | .ptEntryWrite h d tgt val sel => Sys2Proof.Machine.execPtEntryWrite h d tgt val sel s
  | .tlbiCtx h tgt => Sys2Proof.Machine.execTlbiCtx h tgt s
  | .tlbiPage h addr tgt => Sys2Proof.Machine.execTlbiPage h addr tgt s
  | .tlbiRange h addr tgt count => Sys2Proof.Machine.execTlbiRange h addr tgt count s
  | .subdevCreate h d tgt desc => Sys2Proof.Machine.execSubdevCreate h d tgt desc s
  | .subdevResize h d tgt desc => Sys2Proof.Machine.execSubdevResize h d tgt desc s
  | .subdevFreeze h d tgt bar => Sys2Proof.Machine.execSubdevFreeze h d tgt bar s
  | .subdevThaw h d tgt bar => Sys2Proof.Machine.execSubdevThaw h d tgt bar s
  | .subdevCkpt h d tgt desc => Sys2Proof.Machine.execSubdevCkpt h d tgt desc s
  | .subdevRevoke h d tgt bar => Sys2Proof.Machine.execSubdevRevoke h d tgt bar s
  | .subdevReset h d tgt bar => Sys2Proof.Machine.execSubdevReset h d tgt bar s
  | .subdevDlog h d tgt desc => Sys2Proof.Machine.execSubdevDlog h d tgt desc s
  | .subdevMeter h d tgt area => Sys2Proof.Machine.execSubdevMeter h d tgt area s
  | .shareSet h d tgt desc => Sys2Proof.Machine.execShareSet h d tgt desc s
  | .shareChg h d tgt desc => Sys2Proof.Machine.execShareChg h d tgt desc s
  | .pgreply h d req ans => Sys2Proof.Machine.execPgreply h d req ans s
  | .meas h d addr len tag => Sys2Proof.Machine.execMeas h d addr len tag s
  | .rcpt h d desc tgt => Sys2Proof.Machine.execRcpt h d desc tgt s
  | .scrubStart h d desc => Sys2Proof.Machine.execScrubStart h d desc s
  | .scrubProg h d job => Sys2Proof.Machine.execScrubProg h d job s
  | .scrubCtx h d tgt => Sys2Proof.Machine.execScrubCtx h d tgt s
  | .keyzM h d slot => Sys2Proof.Machine.execKeyzM h d slot s
  | .keyzF h d slot => Sys2Proof.Machine.execKeyzF h d slot s
  | .worldOwn h d tgt w => Sys2Proof.Machine.execWorldOwn h d tgt w s
  | .worldLatch h d core w bar => Sys2Proof.Machine.execWorldLatch h d core w bar s
  | .worldFree h d w => Sys2Proof.Machine.execWorldFree h d w s
  | .wmapSet h idx addr => Sys2Proof.Machine.execWmapSet h idx addr s
  | .wmapClr h idx => Sys2Proof.Machine.execWmapClr h idx s
  | .wmapGet h idx addr => Sys2Proof.Machine.execWmapGet h idx addr s
  | .extensionApplied ctx => Sys2Proof.Machine.execExtensionApplied ctx s
  | .hostAcknowledgement exp => Sys2Proof.Machine.execHostAcknowledgement exp s
  | .powerOn => Sys2Proof.Machine.execPowerOn s
  | .resetLine => Sys2Proof.Machine.execResetLine s
  | .powerLoss => Sys2Proof.Machine.execPowerLoss s
  | .layoutTick => Sys2Proof.Machine.execLayoutTick s
  | .framemsTick => Sys2Proof.Machine.execFramemsTick s

end Sys2Proof.Machine
end

