-- ==== Sys2Proof/Machine/Place.lean ====
section
/-!
DEFINITION. How a word is placed for the next step: stored where the current issue warp fetches, or, where no warp can issue,
as the first word of a group of one thread (log entry 13).
-/
namespace Sys2Proof.Machine

/-- A group of one thread of the root on core 0, its issue warp on quarter 0, and a translation of its code page. -/
def placeGroup (s : State) : State :=
  let (gid, s) := s.fresh
  let (wid, s) := s.fresh
  let (spid, s) := s.fresh
  let (grid, s) := s.fresh
  let ent : LaneEnt := { live := true }
  let help : Nat → LaneEnt := fun j => { live := true, help := true, hlane := j }
  let lanes : List LaneEnt := [ent, help 1, help 2, help 3] ++ List.replicate 28 {}
  let w : Warp := { gi := gid, lanes := lanes, since := s.pt.cycle }
  let g : Group := { grid := grid, span := spid, regs := 192, scratch := 524288 }
  let xl : Xl := { pa := 0, x := true }
  let te : TlbEnt := { xl := xl }
  let s := s.updWK (fun k => { k with
    warps := NMap.insert k.warps wid w
    groups := NMap.insert k.groups gid g
    spans := NMap.insert k.spans spid { grid := grid, groups := [gid] }
    quarters := NMap.insert k.quarters 0 { run := some wid } })
  let s := s.updRG (fun r => { r with threads := NMap.insert r.threads (thKey gid 0 0) { stat := .inWarp } })
  let s := s.updPT (fun p => { p with grids := NMap.insert p.grids grid { steward := true } })
  let s := s.updXL (fun x => { x with tlb := te :: x.tlb })
  s.updMD (fun m => { m with cur := wid })

/-- Store a word where a warp fetches, if its fetch translates. -/
def placeAt (s : State) (wid : Nat) (v : DWord) : State :=
  let w := s.warp wid
  match xlFor s w w.pc.toNat .fetch with
  | some (.ok t) =>
    let s := setMemBytes s t.pa (bytesOfNat 8 v.toNat)
    let stale := (s.mm.icache.filter (fun c => c.1 / 2 ^ 41 = w.core && c.2.obj = objOf s w && c.2.vline = w.pc.toNat / 128)).map (·.1)
    s.updMM (fun m => { m with icache := stale.foldl NMap.erase m.icache })
  | _ => s

/-- Place a word for the next step: the agenda is put aside, and the current warp fetches the word. -/
def placeWord (s : State) (v : DWord) : State :=
  let s := if canIssue s s.md.cur then s else placeGroup s
  placeAt (s.updMD (fun m => { m with agenda := [] })) s.md.cur v

end Sys2Proof.Machine
end

