-- ==== Sys2Proof/Machine/Step.lean ====
section
/-!
DEFINITION. One step of the machine: the next turn of the agenda, an event or the word of an issue warp; with the agenda
empty, the word of the current issue warp.
-/
namespace Sys2Proof.Machine

/-- After an event or a word has acted. -/
def after (o : Host.Outcome State Fault Refusal) (f : State → State) : Host.Outcome State Fault Refusal :=
  match o with
  | .next s => .next (settleAfter (f s))
  | .fault r => .fault r
  | .refused r => .refused r

/-- One word of an issue warp: issued, then executed. A warp that cannot issue does nothing. -/
def runWarp (s : State) (wid : Nat) : Host.Outcome State Fault Refusal :=
  if canIssue s wid then
    match issueWord (s.updMD (fun m => { m with cur := wid })) wid with
    | .done s => .next (settleAfter s)
    | .exec i v s => after (exec i s) (fun t => clearPoison s (zeroHelpers s (noteWork s t wid i) wid v i) wid v i)
  else .next s

/-- One event. A part without power acts on POWER_ON alone. -/
def runEvent (s : State) (i : Instr) : Host.Outcome State Fault Refusal :=
  if isEvent i then
    if s.pt.powered || i = .powerOn then after (exec i s) (fun t => t) else .next s
  else .fault .wordAsEvent

/-- One step. -/
def step (s : State) : Host.Outcome State Fault Refusal :=
  match s.md.agenda with
  | [] => if s.pt.powered then runWarp (passCycles s 1) s.md.cur else .next (passCycles s 1)
  | t :: rest =>
    let s := passCycles (s.updMD (fun m => { m with agenda := rest })) t.dt
    match t.who with
    | .event i => runEvent s i
    | .issue wid => if s.pt.powered then runWarp s wid else .next s

/-- The state with a word placed where the next step fetches (log entry 13). -/
def State.withFetchWord (s : State) (nbits w : Nat) : State := placeWord s (BitVec.ofNat 64 (w % 2 ^ nbits))

end Sys2Proof.Machine
end

