-- ==== Sys2Proof/Safety.lean ====
section
/-!
DEFINITION. What counts as a safe run, and the terms in which statements about single steps are made: what a word leaves as it
was, and what it writes.
-/
namespace Sys2Proof

/-- One step answers a next state. The part's own faults are taken, so they do not stop the model. -/
def safeStep (s : Machine.State) : Prop := ∃ t, Machine.step s = .next t

/-- No step of the first `n` stops. -/
def safeFor : Nat → Machine.State → Prop
  | 0, _ => True
  | n + 1, s => ∃ t, Machine.step s = .next t ∧ safeFor n t

namespace Say
open Machine

/-- A group, what the end of a run notes in it apart: YIELD marks (R362) and the eddy watch (R385). -/
def plainGroup (g : Group) : Group := { g with yielded := [], eddyN := 0, eddyPc := 0, eddyLines := [], demoted := none }

/-- An issue warp, what it notes of the register writes of other runs and the translations formed for its word apart (R104, R197, R287). -/
def plainWarp (w : Warp) : Warp := { w with sUndo := [], stale := [], formed := [] }

/-- A thread's priority, generator and restart record: where it stands apart (R353). -/
def seated (t : Thread) : Thread := { t with pc := 0, stat := .frontier }

/-- A thread's priority and restart record: where it stands and its generator apart. -/
def reseeded (t : Thread) : Thread := { t with pc := 0, stat := .frontier, gen := 0 }

/-- A thread's generator and restart record: where it stands and its priority apart. -/
def steered (t : Thread) : Thread := { t with pc := 0, stat := .frontier, prio := 0 }

/-- The part, virtual times apart (R380). -/
def plainPart (p : PartSt) : PartSt := { p with vt := [] }

/-- WHAT A WORD OF THE EXECUTING WARP LEAVES AS IT WAS: everything but the registers, the predicates, the executing warp itself,
where its own threads stand, and what `look` forgets of a thread. The warp, if its run goes on, keeps its lanes and stands at the
next word (R42, R353). -/
structure Kept (look : Thread → Thread) (s t : State) : Prop where
  memory : t.mm = s.mm
  translation : t.xl = s.xl
  engines : t.en = s.en
  fabric : t.fb = s.fb
  contexts : t.cx = s.cx
  part : plainPart t.pt = plainPart s.pt
  masks : t.rg.k = s.rg.k
  counters : t.rg.sb = s.rg.sb
  homes : t.rg.hwarps = s.rg.hwarps
  results : t.wk.results = s.wk.results
  works : t.wk.works = s.wk.works
  stops : t.wk.stops = s.wk.stops
  spans : t.wk.spans = s.wk.spans
  groups : ∀ g, (t.wk.groups.find g).map plainGroup = (s.wk.groups.find g).map plainGroup
  others : ∀ id, id ≠ s.md.cur → (t.wk.warps.find id).map plainWarp = (s.wk.warps.find id).map plainWarp
  threads : ∀ k, (t.rg.threads.find k).map look = (s.rg.threads.find k).map look
  away : ∀ k, (∀ q ∈ activeLanes s.curWarp, k ≠ thKey s.curWarp.gi q.2.hwarp q.2.hlane) →
    (t.rg.threads.find k).map (·.pc) = (s.rg.threads.find k).map (·.pc) ∧
      (t.rg.threads.find k).map (·.stat) = (s.rg.threads.find k).map (·.stat)
  self : ∀ w, t.wk.warps.find s.md.cur = some w →
    w.gi = s.curWarp.gi ∧ w.lanes = s.curWarp.lanes ∧ w.pc = s.curWarp.pc + 8
  agenda : t.md.agenda = s.md.agenda

/-- A lane of a list that alone writes the v registers `n` to `n + w - 1` of its thread. -/
def alone (gi n w : Nat) (l : List (Nat × LaneEnt)) (q : Nat × LaneEnt) : Prop :=
  ∀ r ∈ l, r.1 ≠ q.1 → ∀ i < w, ∀ j < w, vKey gi r.2.hwarp (n + i) r.2.hlane ≠ vKey gi q.2.hwarp (n + j) q.2.hlane

/-- The lane of a list that is highest by (HWARP, HLANE) (R197). -/
def highest (l : List (Nat × LaneEnt)) (q : Nat × LaneEnt) : Prop := ∀ r ∈ l, r.1 ≠ q.1 → laneRank r.2 < laneRank q.2

/-- WHAT A DESTINATION OF `w` REGISTERS HOLDS AFTER A WORD (R196, R197): a v register of each taking lane's thread its own value, an s
register the value of the highest taking lane, a temporary of the run each taking lane's value; nothing where the destination
is rz or rl. A value stands in the relation `R` with the lane's physical number and entry. No other register is written. -/
def Dest (s t : State) (h : Hdr) (d : Reg) (w : Nat) (R : Nat → LaneEnt → Nat → Prop) : Prop :=
  let x := s.curWarp
  let lanes := takingLanes s x h
  let sameV := t.rg.v = s.rg.v
  let sameS := t.rg.s = s.rg.s
  let sameT := ∀ y, t.wk.warps.find s.md.cur = some y → y.temps = x.temps
  match d with
  | .v n =>
    (∀ q ∈ lanes, alone x.gi n.val w lanes q →
      ∃ val, R q.1 q.2 val ∧ ∀ i < w, NMap.get 0 t.rg.v (vKey x.gi q.2.hwarp (n.val + i) q.2.hlane) = wordOf val i) ∧
    (∀ k, (∀ q ∈ lanes, ∀ i < w, k ≠ vKey x.gi q.2.hwarp (n.val + i) q.2.hlane) → NMap.get 0 t.rg.v k = NMap.get 0 s.rg.v k) ∧
    sameS ∧ sameT
  | .s n =>
    (∀ q ∈ lanes, highest lanes q → ∃ val, R q.1 q.2 val ∧ ∀ i < w, NMap.get 0 t.rg.s (sKey x.gi (n.val + i)) = wordOf val i) ∧
    (∀ k, (lanes ≠ [] → ∀ i < w, k ≠ sKey x.gi (n.val + i)) → NMap.get 0 t.rg.s k = NMap.get 0 s.rg.s k) ∧
    sameV ∧ sameT
  | .t n =>
    (∀ y, t.wk.warps.find s.md.cur = some y →
      (n.val + w ≤ 8 → ∀ q ∈ lanes, ∃ val, R q.1 q.2 val ∧ ∀ i < w, NMap.get 0 y.temps (q.1 * 8 + n.val + i) = wordOf val i) ∧
      (∀ k, (∀ q ∈ guardedLanes s x h, ∀ i < w, k ≠ q.1 * 8 + n.val + i) → NMap.get 0 y.temps k = NMap.get 0 x.temps k)) ∧
    sameV ∧ sameS
  | .zero | .lane => sameV ∧ sameS ∧ sameT

/-- What a predicate holds after a word (R196): each taking lane's own value, and nothing where it is p7. -/
def PredDest (s t : State) (h : Hdr) (p : Nat) (R : Nat → LaneEnt → Bool → Prop) : Prop :=
  let x := s.curWarp
  let lanes := takingLanes s x h
  if p = 7 then t.rg.p = s.rg.p
  else
    (∀ q ∈ lanes, (∀ r ∈ lanes, r.1 ≠ q.1 → pKey x.gi r.2.hwarp p r.2.hlane ≠ pKey x.gi q.2.hwarp p q.2.hlane) →
      ∃ b, R q.1 q.2 b ∧ NMap.get false t.rg.p (pKey x.gi q.2.hwarp p q.2.hlane) = b) ∧
    ∀ k, (∀ q ∈ lanes, k ≠ pKey x.gi q.2.hwarp p q.2.hlane) → NMap.get false t.rg.p k = NMap.get false s.rg.p k

/-- No general register has changed but the executing warp's own copies of its helper lanes (R195). -/
def SameRegs (s t : State) : Prop :=
  t.rg.v = s.rg.v ∧ t.rg.s = s.rg.s ∧ ∀ y, t.wk.warps.find s.md.cur = some y → y.temps = s.curWarp.temps

/-- A WORD THAT RUNS AND WRITES REGISTERS ONLY: `exec` answers a next state, in which the destination holds the values that `R`
allows, the predicates are as they were, and everything else is kept. -/
def RunsReg (i : Instr) (s : State) (h : Hdr) (d : Reg) (w : Nat) (R : Nat → LaneEnt → Nat → Prop) : Prop :=
  ∃ t, exec i s = .next t ∧ Kept seated s t ∧ t.rg.p = s.rg.p ∧ Dest s t h d w R

/-- A word that runs and writes a predicate only. -/
def RunsPred (i : Instr) (s : State) (h : Hdr) (p : Nat) (R : Nat → LaneEnt → Bool → Prop) : Prop :=
  ∃ t, exec i s = .next t ∧ Kept seated s t ∧ SameRegs s t ∧ PredDest s t h p R

/-- A word that runs and writes registers and a predicate. -/
def RunsBoth (i : Instr) (s : State) (h : Hdr) (d : Reg) (w : Nat) (R : Nat → LaneEnt → Nat → Prop) (p : Nat)
    (Q : Nat → LaneEnt → Bool → Prop) : Prop :=
  ∃ t, exec i s = .next t ∧ Kept seated s t ∧ Dest s t h d w R ∧ PredDest s t h p Q

/-- A word that runs and rounds (R21, R22): each taking lane's value, and its thread's generator, which moves under RM .rs alone. -/
def RunsRound (i : Instr) (s : State) (h : Hdr) (d : Reg) (w : Nat) (rm : Rm) (f : Nat → LaneEnt → Word → Nat × Word) : Prop :=
  let x := s.curWarp
  ∃ t, exec i s = .next t ∧ Kept reseeded s t ∧ t.rg.p = s.rg.p ∧
    Dest s t h d w (fun p e v => v = (f p e (genOf s x e)).1) ∧
    (rm ≠ .rs → ∀ k, (t.rg.threads.find k).map (·.gen) = (s.rg.threads.find k).map (·.gen)) ∧
    (∀ q ∈ guardedLanes s x h, rm = .rs → (∀ r ∈ guardedLanes s x h, r.1 ≠ q.1 →
        thKey x.gi r.2.hwarp r.2.hlane ≠ thKey x.gi q.2.hwarp q.2.hlane) →
      (t.rg.threads.find (thKey x.gi q.2.hwarp q.2.hlane)).map (·.gen) =
        (s.rg.threads.find (thKey x.gi q.2.hwarp q.2.hlane)).map (fun _ => (f q.1 q.2 (genOf s x q.2)).2))

/-- The word after a run: its last instruction's successor, or its trailer's (R353). -/
def afterRun (x : Warp) (h : Hdr) : DWord := if h.b then x.pc + 8 else x.pc + 16

/-- What a branch does to the threads of the warp's active lanes (R353, R359): the taking ones stand at their targets with the priority
given, the others at the word after the run, priority kept; everything else is kept. -/
def Steers (s t : State) (h : Hdr) (prio : Nat) (target : Nat × LaneEnt → DWord) : Prop :=
  let x := s.curWarp
  Kept steered s t ∧ ∀ q ∈ activeLanes x, ∀ th, s.rg.threads.find (thKey x.gi q.2.hwarp q.2.hlane) = some th →
    ∃ th', t.rg.threads.find (thKey x.gi q.2.hwarp q.2.hlane) = some th' ∧
      (q ∈ takingLanes s x h → th'.pc = target q ∧ th'.prio = prio) ∧
      (q ∉ takingLanes s x h → th'.pc = afterRun x h ∧ th'.prio = th.prio)

/-- What a word leaves alone that moves threads, masks or warps only: memory and every other component, registers, predicates, counters
and pending results. -/
structure Calm (s t : State) : Prop where
  memory : t.mm = s.mm
  translation : t.xl = s.xl
  engines : t.en = s.en
  fabric : t.fb = s.fb
  part : plainPart t.pt = plainPart s.pt
  vectors : t.rg.v = s.rg.v
  scalars : t.rg.s = s.rg.s
  predicates : t.rg.p = s.rg.p
  counters : t.rg.sb = s.rg.sb
  results : t.wk.results = s.wk.results
  works : t.wk.works = s.wk.works
  spans : t.wk.spans = s.wk.spans
  agenda : t.md.agenda = s.md.agenda

/-! ### Words that reach memory -/

/-- A thread's priority and generator: where it stands and its restart record apart. -/
def bare (t : Thread) : Thread := { t with pc := 0, stat := .frontier, restart := {} }

/-- What a word that only reads or writes memory, queues work or awaits it leaves alone: registers, predicates, masks, the
scratchpads, the engines, the fabric, contexts, and the part but for virtual times. -/
structure Quiet (s t : State) : Prop where
  vectors : t.rg.v = s.rg.v
  scalars : t.rg.s = s.rg.s
  predicates : t.rg.p = s.rg.p
  masks : t.rg.k = s.rg.k
  scratch : t.mm.spad = s.mm.spad
  engines : t.en = s.en
  fabric : t.fb = s.fb
  contexts : t.cx = s.cx
  part : plainPart t.pt = plainPart s.pt
  spans : t.wk.spans = s.wk.spans
  stops : t.wk.stops = s.wk.stops
  agenda : t.md.agenda = s.md.agenda

/-- The executing warp has gone on past its word, or its run has ended; other warps, groups and threads are as they were but for
what `look` forgets of a thread (R42, R353). -/
structure Onward (look : Thread → Thread) (s t : State) : Prop where
  groups : ∀ g, (t.wk.groups.find g).map plainGroup = (s.wk.groups.find g).map plainGroup
  others : ∀ id, id ≠ s.md.cur → (t.wk.warps.find id).map plainWarp = (s.wk.warps.find id).map plainWarp
  threads : ∀ k, (t.rg.threads.find k).map look = (s.rg.threads.find k).map look
  away : ∀ k, (∀ q ∈ activeLanes s.curWarp, k ≠ thKey s.curWarp.gi q.2.hwarp q.2.hlane) →
    (t.rg.threads.find k).map (fun x => (x.pc, x.stat)) = (s.rg.threads.find k).map (fun x => (x.pc, x.stat))
  self : ∀ w, t.wk.warps.find s.md.cur = some w →
    w.gi = s.curWarp.gi ∧ w.lanes = s.curWarp.lanes ∧ w.pc = s.curWarp.pc + 8

/-- An aligned access of a lane below 2^55 whose translation stands (R103, R150). -/
def Through (s : State) (x : Warp) (kind : AccKind) (bytes ea : Nat) (t : Xl) : Prop :=
  ea < 2 ^ 55 ∧ ea % bytes = 0 ∧ xlFor s x ea kind = some (.ok t)

/-- A lane's access to the scratchpad that nothing stops or delays: inside SCRATCH, aligned, on present lines that are not poisoned; a
load's bytes carry no poison either (R137, R141, R150). -/
def SpadReady (s : State) (x : Warp) (bytes off : Nat) (load : Bool) : Prop :=
  let g := s.group x.gi
  off + bytes ≤ g.scratch ∧ off % bytes = 0 ∧ ∀ i < bytes,
    (presenceOf s x.core ((g.spBase + off + i) / 128)).p = true ∧ (presenceOf s x.core ((g.spBase + off + i) / 128)).q = false ∧
    (load = true → (x.core * 2 ^ 17 + (g.spBase + off + i) / 4) ∉ s.pt.spadPoison)

/-- Threads with no access outstanding that a later one would have to follow: no request at a service warp, no load that waits for a line
an engine holds (R122, R158). -/
def Settled (s : State) (gi : Nat) (threads : List Nat) : Prop :=
  ownRequests s gi threads false = [] ∧ heldLoads s gi threads = []

/-- A core's accesses to a line wait for nothing: no engine holds it, and none of the core's words that an eviction has sent on waits at the
directory (R122). -/
def LineFree (s : State) (core line : Nat) : Prop :=
  held s line = false ∧ ∀ d ∈ s.mm.dirItems, ¬(d.2.evicted = true ∧ d.2.core = core ∧ d.2.line = line)

/-- No drop of the directory is on its way to a core's copy of a line (R120, R341). -/
def NoDrop (s : State) (core line : Nat) : Prop := ∀ d ∈ s.mm.drops, ¬(d.2.core = core ∧ d.2.line = line)

/-- A word of a core's L1 that memory has not yet, over an address (R120). -/
def DirtyAt (s : State) (core a : Nat) : Prop :=
  ∃ e ∈ s.mm.l1, e.1 / 2 ^ 41 = core ∧ ∃ w ∈ e.2.words, w.2.dirty = true ∧
    e.1 % 2 ^ 41 * 128 + w.1 * 4 ≤ a ∧ a < e.1 % 2 ^ 41 * 128 + w.1 * 4 + 4

/-- Memory holds what it held, but for dirty words of a core's L1, which may have been written back. -/
def MemKept (s t : State) (core : Nat) : Prop := ∀ a, ¬DirtyAt s core a → memByte t a = memByte s a

/-- No line of an L1 names a word twice or beyond its 32 (R120, R135). -/
def L1Rising (s : State) : Prop := ∀ c ∈ s.mm.l1, NMap.risingFrom none c.2.words = true ∧ ∀ w ∈ c.2.words, w.1 < 32

/-- A release at cove scope or wider that has nothing left to wait for: done already, or the store FIFOs of the warp's homes are empty,
its threads settled, no word of its core's L1 dirty and none that an eviction has sent on still at the directory (R157). -/
def Released (s : State) (x : Warp) : Prop :=
  x.phase ≠ 0 ∨ ((∀ hw ∈ warpHomes x, (s.hwarp (hwKey x.gi hw)).fifo = []) ∧ Settled s x.gi (warpThreads x) ∧
    (∀ e ∈ s.mm.l1, e.1 / 2 ^ 41 = x.core → ∀ w ∈ e.2.words, w.2.dirty = false) ∧
    ∀ d ∈ s.mm.dirItems, ¬(d.2.evicted = true ∧ d.2.core = x.core))

/-- The executing warp's word has counted no work yet, and no scoreboard counter that it names is full in these home warps (R66). -/
def CounterRoom (s : State) (gi : Nat) (sbc : Option (Fin 6)) (hs : List Nat) : Prop :=
  s.curWarp.works = [] ∧ ∀ c, sbc = some c → ∀ hw ∈ hs, sbOf s gi hw c.val < 63

/-- The counter that a word names has risen by 1 in these home warps, and no other has changed (R66). -/
def Counted (s t : State) (gi : Nat) (sbc : Option (Fin 6)) (hs : List Nat) : Prop :=
  (∀ c, sbc = some c → ∀ hw ∈ hs, sbOf t gi hw c.val = sbOf s gi hw c.val + 1) ∧
  ∀ k, (∀ c, sbc = some c → ∀ hw ∈ hs, k ≠ cKey gi hw c.val) → NMap.get 0 t.rg.sb k = NMap.get 0 s.rg.sb k

/-- A result in flight to a register of a thread, with its values (R64). -/
def InFlight (t : State) (gi hw hl reg : Nat) (vals : List Word) : Prop :=
  ∃ id r l, t.wk.results.find id = some r ∧ r.gi = gi ∧ r.hwarp = hw ∧ r.known = true ∧ l ∈ r.lanes ∧ l.lane = hl ∧ l.reg = reg ∧
    l.help = none ∧ l.vals = vals

/-- What an acquire at a scope leaves of a core's L1: all of it at group scope, else the words that are owned or dirty and that no drop
on its way to the core names (R120, R341). -/
def Acquired (s t : State) (core : Nat) (sc : Scope) : Prop :=
  (sc = .grp → t.mm.l1 = s.mm.l1) ∧
  (sc ≠ .grp →
    (∀ line < 2 ^ 41, ∀ w ∈ (l1Line t core line).words, w.2.owned = true ∨ w.2.dirty = true) ∧
    (∀ line, ∀ w ∈ (l1Line s core line).words, w.2.owned = true ∨ w.2.dirty = true →
      (∀ d ∈ s.mm.drops, d.2.core = core → d.2.line = line → w.1 ∉ d.2.words) → w ∈ (l1Line t core line).words) ∧
    ∀ k, k / 2 ^ 41 ≠ core → (∀ d ∈ s.mm.drops, d.2.core = core → k ≠ l1Key core d.2.line) →
      NMap.get {} t.mm.l1 k = NMap.get {} s.mm.l1 k)

/-- A lane's read of the constant section at `va` that nothing stops or delays: the core's constant cache holds the line, or its
translation stands, to memory that is not poisoned (R117, R161). -/
def ConstReady (s : State) (x : Warp) (va : Nat) (t : Xl) : Prop :=
  (codeLine s.mm.ccache x.core (objOf s x) (va / 128)).isSome = true ∨
  (Through s x .read 1 va t ∧ (t.ty = .page ∨ t.ty = .rxWin) ∧ llcPoisoned s t.pa = false ∧ t.pa % 128 = va % 128)

/-- Byte `i` of it: as the constant cache holds it, or memory there; memory's where the cache does not hold the line (R143, R161). -/
def ConstByte (s : State) (x : Warp) (va : Nat) (t : Xl) (i : Nat) (b : Byte) : Prop :=
  match codeLine s.mm.ccache x.core (objOf s x) (va / 128) with
  | some c => c.bytes.length = 128 → b = c.bytes.getD (va % 128 + i) 0 ∨ b = memByte s (c.line * 128 + va % 128 + i)
  | none => b = memByte s (t.pa + i)

/-- Byte `a` as a load of `bytes` bytes of one thread reads it (R136, R153, R156 to R158): the thread's own latest store, else the
core's L1 word, or memory. A load at the directory (`dir`) takes the L1's word only where `ownWord` says so; a load of 64 bits or more
takes no clean, unowned word of which the other half is absent. Memory as it stands but for dirty words of the core. -/
def LoadByte (s : State) (x : Warp) (hw hl bytes : Nat) (dir : Bool) (a : Nat) (b : Byte) : Prop :=
  let mem := ¬DirtyAt s x.core a → b = memByte s a
  let half := fun (w : L1Word) => 8 ≤ bytes ∧ w.owned = false ∧ w.dirty = false ∧
    ((l1Line s x.core (a / 128)).words.find (pairWord (a % 128 / 4))).isSome = false
  match ownByte (s.hwarp (hwKey x.gi hw)).fifo hl (memHit a) with
  | some o => b = o
  | none =>
    match l1Word s x.core a with
    | none => mem
    | some w =>
      let mine := b = BitVec.ofNat 8 (w.val.toNat / 256 ^ (a % 4))
      if dir = true then (if ownWord s x.gi hw hl x.core (decide (8 ≤ bytes)) a = true then mine else mem)
      else (half w → mem) ∧ (¬half w → mine)

/-- What must be over before a word of a release at a scope, or of none but the drain of its lanes' stores, goes on (R157, R304). -/
def Ordered (s : State) (x : Warp) (lanes : List (Nat × LaneEnt)) (ord : Bool) (sc : Scope) : Prop :=
  if ord = true ∧ sc ≠ .grp then Released s x
  else (ord = true ∧ x.phase ≠ 0) ∨ ∀ hw ∈ homeWarps lanes, (s.hwarp (hwKey x.gi hw)).fifo = []

/-- Lanes whose requests a service warp can take now: aligned accesses to memory that stand translated, not poisoned and not held, with
room in the queues and in the counters, after settled accesses (R296, R300). -/
def Askable (s : State) (x : Warp) (lanes : List (Nat × LaneEnt)) (bytes : Nat) (ea : Nat → LaneEnt → Nat) (tr : Nat → Xl)
    (sbc : Option (Fin 6)) : Prop :=
  CounterRoom s x.gi sbc (homeWarps lanes) ∧ Settled s x.gi (lanes.map (fun q => thKey x.gi q.2.hwarp q.2.hlane)) ∧
  ∀ q ∈ lanes, Through s x .atomic bytes (ea q.1 q.2) (tr q.1) ∧ storable s (tr q.1) = true ∧ llcPoisoned s (tr q.1).pa = false ∧
    held s ((tr q.1).pa / 128) = false ∧ queueLen s (homeCove (tr q.1).pa) + lanes.length ≤ 1024

/-- A lane's request stands at the service warp of the cove that owns its word (PA[20:12] mod 48), and its value, if one is returned, is
awaited for a register of its thread (R64, R296). -/
def Asked (t : State) (x : Warp) (q : Nat × LaneEnt) (pa bits : Nat) (kind : SvcKind) (data : Nat) (dest : Option Nat) (ids : List Nat) : Prop :=
  ∃ id ∈ ids, ∃ r, t.mm.svc.find id = some r ∧ r.kind = kind ∧ r.data = data ∧ r.pa = pa ∧ r.bits = bits ∧ r.cove = pa / 4096 % 512 % 48 ∧
    r.gi = x.gi ∧ r.hwarp = q.2.hwarp ∧ r.lane = q.2.hlane ∧ r.core = x.core ∧ r.waiting = false ∧ r.beyond = false ∧
    match dest with
    | none => r.result = none
    | some n => ∃ rid res l, r.result = some rid ∧ t.wk.results.find rid = some res ∧ res.known = false ∧ res.gi = x.gi ∧
        res.hwarp = q.2.hwarp ∧ res.lanes = [l] ∧ l.lane = q.2.hlane ∧ l.reg = n ∧ l.help = none

/-- The number that scratchpad bytes spell, the low byte first. -/
def spadNum (s : State) (core addr bytes : Nat) : Nat := natOfBytes ((List.range bytes).map (fun i => spadByte s core (addr + i)))

/-- The same, the scratchpads apart. -/
def QuietBut (s t : State) : Prop := Quiet s (t.updMM (fun x => { x with spad := s.mm.spad }))

/-- The memory pages, or the scratchpad lines with room in their counts of a group whose range is in place, that a command is about to
write (R140, R175). -/
def CmdReady (s : State) (cmd : Cmd) (pa : Nat → Nat) : Prop :=
  if cmd.dsp = true then (∃ g, s.wk.groups.find cmd.gi = some g ∧ g.saved = false) ∧ ∀ line, (groupLine s cmd.gi line).n < 15
  else ∀ g ∈ granules cmd, ∀ p ∈ g, ∃ tr, tlbFind s cmd.core cmd.ctx (p.dst / 2 ^ 16) .engWrite = some tr ∧ tr.ty = .page ∧
    pa p.dst = tr.pa + p.dst % 2 ^ 16

/-- A COMMAND IS ISSUED (R66, R122, R140, R175): it stands in its core's engine as its word names it; the counter has risen in each home
warp; each scratchpad line it writes is cleared and the warp goes on, or each line of memory is claimed and the warp waits for the
acknowledgements. The last holds of an identity that no old claim bears. -/
def CmdIssued (s t : State) (x : Warp) (lanes : List (Nat × LaneEnt)) (sbc : Option (Fin 6)) (cmd : Cmd) (pa : Nat → Nat) : Prop :=
  ∃ id, s.md.nextId ≤ id ∧ Counted s t x.gi sbc (homeWarps lanes) ∧
    (∃ y, t.en.cmds.find id = some y ∧ y.gi = cmd.gi ∧ y.ctx = cmd.ctx ∧ y.core = cmd.core ∧ y.opc = cmd.opc ∧ y.pc = cmd.pc ∧
      y.moves = cmd.moves ∧ y.src = cmd.src ∧ y.dst = cmd.dst ∧ y.ssp = cmd.ssp ∧ y.dsp = cmd.dsp ∧ y.gran = cmd.gran ∧ y.fin = cmd.fin ∧
      y.hwarp = cmd.hwarp ∧ y.done = 0 ∧ y.stop = .running ∧ y.service = false ∧ y.bulk = false) ∧
    (∀ k, k ≠ id → t.en.cmds.find k = s.en.cmds.find k) ∧
    (cmd.dsp = true → ∀ g ∈ granules cmd, ∀ p ∈ g, groupLine t cmd.gi (p.dst / 128) = ⟨false, false, (groupLine s cmd.gi (p.dst / 128)).n + 1⟩) ∧
    ((∀ y ∈ s.mm.claims, y.cmd ≠ id) → (∀ y ∈ s.mm.dirItems, y.2.claim ≠ some id) →
      if cmd.dsp = true then Onward bare s t
      else ∃ z ids, t.wk.warps.find s.md.cur = some z ∧ z.pc = x.pc ∧ z.phase = 2 ∧ z.park = .items ids ∧ ∀ g ∈ granules cmd, ∀ p, g.head? = some p →
        ∃ i ∈ ids, ∃ d, t.mm.dirItems.find i = some d ∧ d.line = pa p.dst / 128 ∧ d.core = x.core ∧ d.claim = some id)

/-- A word of one group's own state: the executing warp goes on; of the groups only its own has changed, by `f`; registers but for those
a statement names, memory and every other component are as they were. -/
def GroupOnly (f : Group → Group) (s t : State) : Prop :=
  t.mm = s.mm ∧ t.xl = s.xl ∧ t.fb = s.fb ∧ t.cx = s.cx ∧ plainPart t.pt = plainPart s.pt ∧ t.rg.v = s.rg.v ∧ t.rg.p = s.rg.p ∧ t.rg.k = s.rg.k ∧
  t.rg.sb = s.rg.sb ∧ t.rg.hwarps = s.rg.hwarps ∧ t.md.agenda = s.md.agenda ∧ t.wk.results = s.wk.results ∧
  (∀ k, (t.rg.threads.find k).map seated = (s.rg.threads.find k).map seated) ∧
  (∀ g, g ≠ s.curWarp.gi → (t.wk.groups.find g).map plainGroup = (s.wk.groups.find g).map plainGroup) ∧
  (t.wk.groups.find s.curWarp.gi).map plainGroup = (s.wk.groups.find s.curWarp.gi).map (fun g => plainGroup (f g)) ∧
  ∀ w, t.wk.warps.find s.md.cur = some w → w.gi = s.curWarp.gi ∧ w.lanes = s.curWarp.lanes ∧ w.pc = s.curWarp.pc + 8

/-! ### Words whose lanes act one after the other -/

/-- A word of one taking lane that has not begun, after a release with nothing left to wait for (R394, R397, R405). -/
structure Sole (s : State) (x : Warp) (h : Hdr) (q : Nat × LaneEnt) : Prop where
  lane : takingLanes s x h = [q]
  unbegun : x.donePl = 0
  noResults : x.serVals = []
  noShot : x.shot = []
  released : Released s x
  settled : Settled s x.gi [thKey x.gi q.2.hwarp q.2.hlane]
  drained : (s.hwarp (hwKey x.gi q.2.hwarp)).fifo = []

/-- What such a word leaves alone that has acted, its registers apart. -/
structure Served (s t : State) : Prop where
  predicates : t.rg.p = s.rg.p
  masks : t.rg.k = s.rg.k
  counters : t.rg.sb = s.rg.sb
  scratch : t.mm.spad = s.mm.spad
  engines : t.en = s.en
  spans : t.wk.spans = s.wk.spans
  agenda : t.md.agenda = s.md.agenda
  onward : Onward bare s t

/-- Such a word has acted: its result stands in DST. -/
def Gave (s t : State) (h : Hdr) (d : Reg) (w v : Nat) : Prop := Served s t ∧ Dest s t h d w (fun _ _ y => y = v)

/-- Bytes that a lane reads with device-scope accesses, from `va` on: each translated, in a line that no claim holds and no poison has
struck; memory's, the core having no word of its own there that differs (R153, R405). -/
def Image (s : State) (x : Warp) (q : Nat × LaneEnt) (va n : Nat) (l : List Byte) : Prop :=
  l.length = n ∧ ∀ i < n, ∃ t, Through s x .read 1 (va + i) t ∧ (t.ty = .page ∨ t.ty = .rxWin) ∧ held s (t.pa / 128) = false ∧ (∀ j < 128, llcPoisoned s (t.pa / 128 * 128 + j) = false ∧ corePoisoned s x.core (t.pa / 128 * 128 + j) = false ∧
      (t.pa / 128 * 128 + j) / 64 ∉ s.mm.hbmPoison) ∧
    (∀ w, l1Word s x.core t.pa = some w → w.owned = true ∨ w.dirty = true ∨ w.writers ≠ [] →
      BitVec.ofNat 8 (w.val.toNat / 256 ^ (t.pa % 4)) = memByte s t.pa) ∧
    l.getD i 0 = memByte s t.pa

/-- A place of `n` bytes that a lane can write with device-scope accesses. -/
def Place (s : State) (x : Warp) (va n : Nat) (t : Xl) : Prop :=
  Through s x .write n va t ∧ storable s t = true ∧ ∀ l ∈ linesOf t.pa n, held s l = false

/-- Memory holds what it held but for `n` bytes, and dirty words of L1s, which may have been written back. -/
def MemBut (s t : State) (pa n : Nat) : Prop :=
  ∀ a, (a < pa ∨ pa + n ≤ a) → (∀ core, ¬DirtyAt s core a) → memByte t a = memByte s a

/-- No access that used one of the translations is still to be performed: no store in a FIFO, no request, no load that waits for a claim,
no dirty word of an L1 (R112). -/
def NoUse (s : State) (gone : List TlbEnt) : Prop :=
  let l := gone.map (fun (e : TlbEnt) => (e.ctx, e.page, e.xl.pa / 2 ^ 16, e.xl.size))
  shotStores s l = [] ∧ shotRequests s l = [] ∧ shotLoads s l = [] ∧
  ∀ c ∈ s.mm.l1, shotAt l (c.1 % 2 ^ 41 * 128) = true → ∀ w ∈ c.2.words, w.2.dirty = false

/-- What a selector's field holds after a write (R393, with the rules it names), of the value `v`; `old` where it is read-only. -/
def selNew (sel v old : Nat) : Nat :=
  match sel with
  | 0x00 => if v % 2 = 1 then old else 0
  | 0x01 => v % 2
  | 0x02 => v % 2 + v / 2 ^ 16 % 2 ^ 32 * 2 ^ 16
  | 0x03 | 0x07 => v / 64 * 64
  | 0x04 | 0x08 => legalSize 64 v
  | 0x05 | 0x09 | 0x10 => v
  | 0x06 | 0x0A => v / 8 * 8
  | 0x0C | 0x20 => if v < 4 then v else old
  | 0x0D => v % 2 ^ 16
  | 0x0E => v % 2 ^ 55 / 32 * 32
  | 0x0F => legalSize 16 v
  | 0x11 => v % 2 ^ 55 / 8 * 8
  | 0x21 => min (max v 10) 100000
  | 0x22 | 0x23 | 0x24 | 0x2C => v
  | 0x25 => max v 1
  | 0x29 => v % 2 ^ 48
  | 0x2A => v % 2 ^ 24
  | 0x2B => v % 2 ^ 12
  | 0x2F => v / 8 * 8
  | _ => old

/-! ### Engines and events -/

/-- Byte `i` of a piece as the command with an identity reads it now (R173, R177, R283): of its pattern, its tile, its words read ahead, else
of a scratchpad line that is present, or was when the command cleared it, or of memory that no other engine holds; never poisoned. -/
def CopyByte (s : State) (id : Nat) (c : Cmd) (p : Piece) (i : Nat) (b : Byte) : Prop :=
  match c.moves with
  | .fill w _ => b = BitVec.ofNat 8 (w.toNat / 256 ^ (i % 4))
  | .tile _ e _ elems => b = BitVec.ofNat 8 (elems.getD (p.src.toNat / e + i / e) 0 / 256 ^ (i % e))
  | _ =>
    match c.early.find (p.first + i / 4) with
    | some w => b = BitVec.ofNat 8 (w.toNat / 256 ^ (i % 4))
    | none =>
      let a := absAddr c.ssp c.src (p.src + ((i / 4 * 4 : Nat) : Int))
      if c.ssp = true then
        let x := groupLine s c.gi (a / 128)
        let place := (s.group c.gi).spBase + a
        x.q = false ∧ (x.p = true ∨ lineKey c.gi (a / 128) ∈ c.srcLines) ∧ ((s.group c.gi).core * 2 ^ 17 + place / 4) ∉ s.pt.spadPoison ∧
          b = spadByte s (s.group c.gi).core (place + i % 4)
      else
        ∃ tr, tlbFind s c.core c.ctx (a / 2 ^ 16) .engRead = some tr ∧ tr.ty = .page ∧
          let pa := (tr.pa + a % 2 ^ 16) / 128 * 128 + a % 128
          (∀ x ∈ s.mm.claims, x.line = pa / 128 → x.cmd = id) ∧ llcPoisoned s pa = false ∧ pa / 64 ∉ s.mm.hbmPoison ∧ b = memByte s (pa + i % 4)

/-- A range of `n` bytes of a context's space that the part can write, or read, at once: translated for core 0, in no line that an engine
holds; `pa` says where each byte lies. -/
structure Area (s : State) (ctx va n : Nat) (kind : AccKind) (pa : Nat → Nat) : Prop where
  below : va + n ≤ 2 ^ 55
  place : ∀ i < n, ∃ t, tlbFind s 0 ctx ((va + i) / 2 ^ 16) kind = some t ∧ storable s t = true ∧ pa i = t.pa + (va + i) % 2 ^ 16
  open_ : ∀ i < n, held s (pa i / 128) = false
  apart : ∀ i < n, ∀ j < n, pa i = pa j → i = j
  lines : ∀ c ∈ s.mm.l1, ∀ w ∈ c.2.words, w.1 < 32

/-- Bytes that the part reads there, as memory holds them, in a part that no poison has struck (R117, R155). -/
structure Readable (s : State) (ctx va n : Nat) (l : List Byte) : Prop where
  below : va + n ≤ 2 ^ 55
  length : l.length = n
  clean : s.mm.hbmPoison = [] ∧ ∀ x ∈ s.mm.llc, x.2.poison = []
  bytes : ∀ i < n, ∃ t, tlbFind s 0 ctx ((va + i) / 2 ^ 16) .read = some t ∧ (t.ty = .page ∨ t.ty = .rxWin) ∧
    held s ((t.pa + (va + i) % 2 ^ 16) / 128) = false ∧ l.getD i 0 = memByte s (t.pa + (va + i) % 2 ^ 16)

/-! ### Messages of the host -/

/-- No message of its source and queue pair waits before it (R451). -/
def NextOnItsPair (s : State) (src qp : Nat) : Prop := ∀ m ∈ s.pt.inbox, ¬(m.src = src ∧ m.qp = qp)

/-- A frame that passes the checks of R376 and R452 at a tenant entry; `form` says that its layout holds. -/
structure Accepted (s : State) (h : FrameHdr) (form : Bool) (entry : Nat) : Prop where
  next : NextOnItsPair s h.src h.qp
  found : matchEntry s h.src h.qp = some entry
  provisioned : (tenantOf s entry).standsOpen = false
  tag : tagHolds (tenantOf s entry) h = true
  fresh : (tenantOf s entry).lastSeq < h.seq
  formed : form = true

/-- The part has sent one reply more (R453): to the entry's queue pair, under the entry's key, or with a tag of zeros where the entry
stands open (R458). -/
def Replied (s t : State) (entry code status seq : Nat) (payload : List Byte) : Prop :=
  let x := tenantOf s entry
  t.pt.out = s.pt.out ++ [.reply x.qp code status seq payload (if x.standsOpen = true then List.replicate 16 0
    else Config.gmac (x.keyLo + x.keyHi * 2 ^ 64) (bytesOfNat 8 seq ++ bytesOfNat 4 0xFFFFFFFF)
      (bytesOfNat 4 0x52504348 ++ bytesOfNat 1 code ++ bytesOfNat 1 status ++ bytesOfNat 8 seq ++ payload))]

/-- What a frame leaves alone that acts on the port, on contexts or on queues only. -/
def PortOnly (s t : State) : Prop :=
  t.rg = s.rg ∧ t.wk = s.wk ∧ t.mm = s.mm ∧ t.xl = s.xl ∧ t.en = s.en ∧ t.fb = s.fb

/-- The part has booted again (R457, R466): what reset leaves, with the next BOOTID and, where the part record verifies, with the spares
in use and the units lost that its wear section records (R9, R463). -/
def BootedAfter (s t : State) : Prop :=
  let b := State.boot (s.pt.boots + 1)
  ((s.pt.sparesUsed = [] ∧ s.pt.retired = []) ∨ Config.recordVerifies = false → t = { b with md := t.md, pt := { b.pt with out := t.pt.out } }) ∧
  (¬(s.pt.sparesUsed = [] ∧ s.pt.retired = []) → Config.recordVerifies = true →
    t.pt.powered = true ∧ t.pt.boots = s.pt.boots + 1 ∧ t.pt.sparesUsed = s.pt.sparesUsed ∧ t.pt.retired = s.pt.retired ∧
    t.pt.health = wornHealth s.pt.sparesUsed s.pt.retired ∧ t.rg = {} ∧ t.wk = {} ∧ t.mm.mem = [] ∧ t.cx.ctxs.map (·.1) = [0])

/-- THE MACHINE STAYS IN FORM: memory and the scratchpads are in their canonical form; every island's clock lies between its floor of 425 MHz
and 850 MHz, in steps of 53.125 MHz, and the power cap in its range (R461). -/
structure InForm (s : State) : Prop where
  memory : Memory.wf s.mm.mem = true
  scratch : NMap.wf 0 s.mm.spad = true
  clocks : ∀ c ∈ s.pt.clocks, 8 ≤ c.2 ∧ c.2 ≤ 16
  cap : 600 ≤ s.pt.powerCap ∧ s.pt.powerCap ≤ 1700

end Say
end Sys2Proof
end

