-- ==== Sys2Proof/WellFormed.lean ====
section
/-!
DEFINITION. Well-formed instruction words: the instructions that some 64-bit word encodes and that decode without fault in
a group with `regs` v registers (R45, R52, R53, R69). The checks themselves are the form tables of Machine/Forms.lean.
-/
namespace Sys2Proof

open Sys2Proof.Machine

/-- The row is an instruction word; the others are events. -/
def Instr.isWord (i : Instr) : Bool :=
  match i with
  | .trl .. => true
  | i => fieldsOk i

/-- A trailer has no field condition, a dual word also meets its pairing rules (R56); every other word meets its row's
fields and registers. -/
def Instr.wellFormed (regs : Nat) (i : Instr) : Bool :=
  i.isWord && regsOk regs i &&
  match i with
  | .dualWord _ _ x y => pairOk x y
  | _ => true

end Sys2Proof
end

