-- ==== Sys2Proof/Certificates/Slice0/Obligations.lean ====
section
/-!
DEFINITION. The statements for the provers. Each says what the rules of the spec give an instruction, an event or the machine; the
terms they share stand in Sys2Proof/Safety.lean and in the namespace Say below.
-/
namespace Sys2Proof

namespace Say
open Machine

/-! ### Integer values (R203) -/

/-- rd(x) of a type: the low n bits as two's complement for the signed types, as a natural number for the others. -/
def rd (ty : ITy) (x : Nat) : Int :=
  if signedTy ty then (BitVec.ofNat (tyBits ty) x).toInt else ((BitVec.ofNat (tyBits ty) x).toNat : Int)

/-- The least and the greatest value of a type. -/
def lo (ty : ITy) : Int := if signedTy ty then (BitVec.intMin (tyBits ty)).toInt else 0
def hi (ty : ITy) : Int := if signedTy ty then (BitVec.intMax (tyBits ty)).toInt else ((BitVec.allOnes (tyBits ty)).toNat : Int)

/-- fit(e): clamped, or the value of the type congruent to e modulo 2^n. -/
def fit (ty : ITy) (sat : Bool) (e : Int) : Int :=
  if sat then min (max e (lo ty)) (hi ty)
  else if signedTy ty then (BitVec.ofInt (tyBits ty) e).toInt else ((BitVec.ofInt (tyBits ty) e).toNat : Int)

/-- wr(d, y): what the one or two registers of the destination spell. -/
def wr (ty : ITy) (y : Int) : Nat := (BitVec.ofInt (32 * tyRegs ty) y).toNat

/-- A word of registers whose value each lane forms by a function. -/
def RunsVal (i : Instr) (s : State) (h : Hdr) (d : Reg) (w : Nat) (f : Nat → LaneEnt → Nat) : Prop :=
  RunsReg i s h d w (fun p e v => v = f p e)

/-- A finite float value as a rational number. -/
def ratOf (neg : Bool) (m : Nat) (e : Int) : ℚ := (if neg then -1 else 1) * m * (2 : ℚ) ^ e

/-- The value of F32 bits that are finite. -/
def valueAt (bits : Nat) : ℚ :=
  match decodeF fmtF32 bits with
  | .fin n m e => ratOf n m e
  | _ => 0

/-- R237: what a special function but FSQRT gives for an operand that is a NaN, an infinity or a zero, or below zero where no value is. -/
def Special (fn : Sfu) (bits v : Nat) : Prop :=
  match decodeF fmtF32 bits with
  | .nan => v = 0x7FC00000
  | .inf n => v = match fn with
    | .rcp => if n then 0x80000000 else 0
    | .rsq => if n then 0x7FC00000 else 0
    | .exp2 => if n then 0 else 0x7F800000
    | .log2 => if n then 0x7FC00000 else 0x7F800000
    | .sin | .cos => 0x7FC00000
    | .tanh => if n then 0xBF800000 else 0x3F800000
    | .sigm => if n then 0 else 0x3F800000
  | .fin n m _ =>
    (m = 0 → v = match fn with
      | .rcp | .rsq => if n then 0xFF800000 else 0x7F800000
      | .exp2 | .cos => 0x3F800000
      | .log2 => 0xFF800000
      | .sin | .tanh => if n then 0x80000000 else 0
      | .sigm => 0x3F000000) ∧
    (m ≠ 0 → n = true → fn = .rsq ∨ fn = .log2 → v = 0x7FC00000)

/-- What R287 lets a lane read of `w` registers from `r` on of a thread of its group: the lane of the issue warp that carries or
stands for the thread; else, in the group, the thread's row or what an overlapping run's write replaced, word by word; else 0. -/
def ThreadReg (s : State) (x : Warp) (hw hl : Nat) (r : Reg) (w v : Nat) : Prop :=
  match laneOfThread x hw hl with
  | some q => v = readVal s x q.1 q.2 r w
  | none =>
    match r with
    | .v n =>
      if (s.group x.gi).gsize ≤ hw * 32 + hl then v = 0
      else v < 2 ^ (32 * w) ∧ ∀ i < w, wordOf v i ∈ rowChoices s x hw hl (n.val + i)
    | _ => v = 0

/-- No two lanes of a list carry one thread, and home lanes are below 32 (R193). -/
def DistinctHomes (l : List (Nat × LaneEnt)) : Prop :=
  (l.map (fun q => (q.2.hwarp, q.2.hlane))).Nodup ∧ ∀ q ∈ l, q.2.hlane < 32

end Say
end Sys2Proof

section
open Sys2Proof Sys2Proof.Machine

/-! ### Integer words (chapter 10) -/

/-- R206: each instruction's exact result, fitted and written, in every taking lane; everything else is kept. -/
def Obligations.IntegerArithmeticWritesTheFittedExactResult : Prop :=
  ∀ (s : State) (h : Hdr) (d a b c : Reg) (ty : ITy) (sat : Bool),
    let n := tyRegs ty
    let x := fun p e => Say.rd ty (srcVal s a n p e)
    let y := fun p e => Say.rd ty (srcVal s b n p e)
    let z := fun p e => Say.rd ty (srcVal s c n p e)
    Say.RunsVal (.iadd h d a b ty sat) s h d n (fun p e => Say.wr ty (Say.fit ty sat (x p e + y p e))) ∧
    Say.RunsVal (.isub h d a b ty sat) s h d n (fun p e => Say.wr ty (Say.fit ty sat (x p e - y p e))) ∧
    Say.RunsVal (.imul h d a b ty sat) s h d n (fun p e => Say.wr ty (Say.fit ty sat (x p e * y p e))) ∧
    Say.RunsVal (.imad h d a b c ty sat) s h d n (fun p e => Say.wr ty (Say.fit ty sat (x p e * y p e + z p e))) ∧
    Say.RunsVal (.imulh h d a b ty) s h d n (fun p e => Say.wr ty ((x p e * y p e) / 2 ^ tyBits ty)) ∧
    Say.RunsVal (.imin h d a b ty) s h d n (fun p e => Say.wr ty (min (x p e) (y p e))) ∧
    Say.RunsVal (.imax h d a b ty) s h d n (fun p e => Say.wr ty (max (x p e) (y p e))) ∧
    Say.RunsVal (.iabs h d a ty sat) s h d n (fun p e => Say.wr ty (Say.fit ty sat |x p e|)) ∧
    Say.RunsVal (.ineg h d a ty sat) s h d n (fun p e => Say.wr ty (Say.fit ty sat (-(x p e))))

/-- R207 to R209: the 64-bit results of IMADW, IADD64 with its carries, and LEA. -/
def Obligations.WideIntegerWordsWriteThePair : Prop :=
  ∀ (s : State) (h : Hdr) (d a b c : Reg),
    (∀ sat, Say.RunsVal (.imadw h d a b c true sat) s h d 2 (fun p e =>
      Say.wr .i64 (Say.fit .i64 sat (Say.rd .i32 (srcVal s a 1 p e) * Say.rd .i32 (srcVal s b 1 p e) + Say.rd .i64 (srcVal s c 2 p e))))) ∧
    (∀ sat, Say.RunsVal (.imadw h d a b c false sat) s h d 2 (fun p e =>
      Say.wr .n64 (Say.fit .n64 sat (Say.rd .n32 (srcVal s a 1 p e) * Say.rd .n32 (srcVal s b 1 p e) + Say.rd .n64 (srcVal s c 2 p e))))) ∧
    (let sum := fun (cin : Bool) p e => (BitVec.ofNat 64 (srcVal s a 2 p e)).toNat + (BitVec.ofNat 64 (srcVal s b 2 p e)).toNat + cin.toNat
     Say.RunsVal (.iadd64 h d a b none false false) s h d 2 (fun p e => sum false p e % 2 ^ 64) ∧
     (∀ pc : Fin 8, Say.RunsVal (.iadd64 h d a b (some pc) true false) s h d 2 (fun p e => sum (predVal s pc p e) p e % 2 ^ 64)) ∧
     (∀ (pc : Fin 8) (ci : Bool), Say.RunsBoth (.iadd64 h d a b (some pc) ci true) s h d 2
       (fun p e v => v = sum (ci && predVal s pc p e) p e % 2 ^ 64) pc.val
       (fun p e carry => carry = decide (2 ^ 64 ≤ sum (ci && predVal s pc p e) p e)))) ∧
    (∀ k : Fin 32,
      Say.RunsVal (.lea h d a b .i32 k) s h d 2 (fun p e =>
        (BitVec.ofNat 64 (srcVal s a 2 p e) + (BitVec.ofNat 32 (srcVal s b 1 p e)).signExtend 64 <<< k.val).toNat) ∧
      Say.RunsVal (.lea h d a b .n32 k) s h d 2 (fun p e =>
        (BitVec.ofNat 64 (srcVal s a 2 p e) + (BitVec.ofNat 32 (srcVal s b 1 p e)).setWidth 64 <<< k.val).toNat) ∧
      ∀ ty, (ty = .i64 ∨ ty = .n64) → Say.RunsVal (.lea h d a b ty k) s h d 2 (fun p e =>
        (BitVec.ofNat 64 (srcVal s a 2 p e) + BitVec.ofNat 64 (srcVal s b 2 p e) <<< k.val).toNat))

/-- R210: shifts and rotations of n bits by any amount, for the width-only types. -/
def Obligations.ShiftsFollowTheAmount : Prop :=
  ∀ (s : State) (h : Hdr) (d a b : Reg) (ty : ITy), widthOnly ty = true →
    let n := tyBits ty
    let x := fun p e => BitVec.ofNat n (srcVal s a (tyRegs ty) p e)
    let k := fun p e => srcVal s b 1 p e
    Say.RunsVal (.ishl h d a b ty) s h d (tyRegs ty) (fun p e => (x p e <<< k p e).toNat) ∧
    Say.RunsVal (.ishr h d a b ty) s h d (tyRegs ty) (fun p e => ((x p e).sshiftRight (k p e)).toNat) ∧
    Say.RunsVal (.lshr h d a b ty) s h d (tyRegs ty) (fun p e => (x p e >>> k p e).toNat) ∧
    Say.RunsVal (.rot h d a b ty) s h d (tyRegs ty) (fun p e => ((x p e).rotateLeft (k p e % n)).toNat)

/-- R211 to R213: LOP3, AND, OR, XOR, NOT, POPC, CLZ and BREV, bit by bit; BFX and BFI on the field that the control register names. -/
def Obligations.BitwiseAndBitFieldWordsActOnTheirBits : Prop :=
  (∀ (s : State) (h : Hdr) (d a b c : Reg),
     (∀ tt, Say.RunsReg (.lop3 h d a b c tt) s h d 1 (fun p e v => ∀ i < 32, v.testBit i =
       tt.getLsbD (((srcVal s a 1 p e).testBit i).toNat + 2 * ((srcVal s b 1 p e).testBit i).toNat + 4 * ((srcVal s c 1 p e).testBit i).toNat))) ∧
     ∀ ty, widthOnly ty = true →
       let n := tyBits ty
       let x := fun p e => BitVec.ofNat n (srcVal s a (tyRegs ty) p e)
       let y := fun p e => BitVec.ofNat n (srcVal s b (tyRegs ty) p e)
       Say.RunsVal (.and h d a b ty) s h d (tyRegs ty) (fun p e => (x p e &&& y p e).toNat) ∧
       Say.RunsVal (.or h d a b ty) s h d (tyRegs ty) (fun p e => (x p e ||| y p e).toNat) ∧
       Say.RunsVal (.xor h d a b ty) s h d (tyRegs ty) (fun p e => (x p e ^^^ y p e).toNat) ∧
       Say.RunsVal (.not h d a ty) s h d (tyRegs ty) (fun p e => (~~~(x p e)).toNat) ∧
       Say.RunsReg (.popc h d a ty) s h d 1 (fun p e v => v = ((List.range n).countP (fun i => (x p e).getLsbD i))) ∧
       Say.RunsReg (.clz h d a ty) s h d 1 (fun p e v => v ≤ n ∧ (∀ i, n ≤ i + v → (x p e).getLsbD i = false) ∧
         (v < n → (x p e).getLsbD (n - 1 - v) = true)) ∧
       Say.RunsReg (.brev h d a ty) s h d (tyRegs ty) (fun p e v => v < 2 ^ n ∧ ∀ i < n, v.testBit i = (x p e).getLsbD (n - 1 - i))) ∧
  ∀ (s : State) (h : Hdr) (d a b c : Reg) (ty : ITy),
    let n := tyBits ty
    let pos := fun ctl => min (ctl % 256) n
    let len := fun ctl => min (ctl / 256 % 256) (n - pos ctl)
    let x := fun p e => BitVec.ofNat n (srcVal s a (tyRegs ty) p e)
    let y := fun p e => BitVec.ofNat n (srcVal s b (tyRegs ty) p e)
    (narrow ty = false → Say.RunsReg (.bfx h d a b ty) s h d (tyRegs ty) (fun p e v =>
      let ctl := srcVal s b 1 p e
      v < 2 ^ n ∧ ∀ i < n, v.testBit i =
        if i < len ctl then (x p e).getLsbD (pos ctl + i)
        else signedTy ty && decide (0 < len ctl) && (x p e).getLsbD (pos ctl + len ctl - 1))) ∧
    (widthOnly ty = true → Say.RunsReg (.bfi h d a b c ty) s h d (tyRegs ty) (fun p e v =>
      let ctl := srcVal s c 1 p e
      v < 2 ^ n ∧ ∀ i < n, v.testBit i =
        if pos ctl ≤ i ∧ i < pos ctl + len ctl then (y p e).getLsbD (i - pos ctl) else (x p e).getLsbD i))

/-- R214 and R216: ICMP and PLOP write one predicate; a write to p7 is discarded (R196). -/
def Obligations.ComparisonsWriteOnePredicate : Prop :=
  ∀ (s : State) (h : Hdr) (p : Fin 8),
    (∀ (a b : Reg) (ty : ITy),
      let x := fun q e => Say.rd ty (srcVal s a (tyRegs ty) q e)
      let y := fun q e => Say.rd ty (srcVal s b (tyRegs ty) q e)
      let bits := fun q e => BitVec.ofNat (tyBits ty) (srcVal s a (tyRegs ty) q e) &&& BitVec.ofNat (tyBits ty) (srcVal s b (tyRegs ty) q e)
      Say.RunsPred (.icmp h p a b ty .eq) s h p.val (fun q e r => r = decide (x q e = y q e)) ∧
      Say.RunsPred (.icmp h p a b ty .ne) s h p.val (fun q e r => r = decide (x q e ≠ y q e)) ∧
      Say.RunsPred (.icmp h p a b ty .lt) s h p.val (fun q e r => r = decide (x q e < y q e)) ∧
      Say.RunsPred (.icmp h p a b ty .le) s h p.val (fun q e r => r = decide (x q e ≤ y q e)) ∧
      Say.RunsPred (.icmp h p a b ty .gt) s h p.val (fun q e r => r = decide (y q e < x q e)) ∧
      Say.RunsPred (.icmp h p a b ty .ge) s h p.val (fun q e r => r = decide (y q e ≤ x q e)) ∧
      Say.RunsPred (.icmp h p a b ty .any) s h p.val (fun q e r => r = decide (bits q e ≠ 0)) ∧
      Say.RunsPred (.icmp h p a b ty .none) s h p.val (fun q e r => r = decide (bits q e = 0))) ∧
    ∀ (pa pb pc : Fin 8) (tt : BitVec 8), Say.RunsPred (.plop h p pa pb pc tt) s h p.val (fun q e r =>
      r = tt.getLsbD ((predVal s pa q e).toNat + 2 * (predVal s pb q e).toNat + 4 * (predVal s pc q e).toNat))

/-- R215, R217, R218: SEL, MOV and both forms of MOVI. -/
def Obligations.MovesCopyTheirValue : Prop :=
  ∀ (s : State) (h : Hdr) (d a b : Reg),
    (∀ ty, widthOnly ty = true → ∀ (p : Fin 8) (neg : Bool), Say.RunsVal (.sel h d a b p neg ty) s h d (tyRegs ty) (fun q e =>
      (BitVec.ofNat (tyBits ty) (if (predVal s p q e ^^ neg) then srcVal s a (tyRegs ty) q e else srcVal s b (tyRegs ty) q e)).toNat)) ∧
    (∀ ty, widthOnly ty = true → Say.RunsVal (.mov h d a ty) s h d (tyRegs ty) (fun q e =>
      (BitVec.ofNat (tyBits ty) (srcVal s a (tyRegs ty) q e)).toNat)) ∧
    (∀ imm, Say.RunsVal (.movi h d imm) s h d 1 (fun _ _ => imm.toNat)) ∧
    (∀ imm, Say.RunsVal (.moviN64 h d false imm) s h d 2 (fun _ _ => (imm.signExtend 64).toNat)) ∧
    (∀ imm, Say.RunsVal (.moviN64 h d true imm) s h d 2 (fun _ _ => (imm ++ (0 : Word)).toNat))

/-- R219 to R221: IDOT4's exact sum, VTOS from the chosen lane, SYSRD of any selector. -/
def Obligations.DotProductUniformAndSpecialReads : Prop :=
  ∀ (s : State) (h : Hdr) (d a b c : Reg),
    (∀ signed mix sat, Say.RunsVal (.idot4 h d a b c signed mix sat) s h d 1 (fun p e =>
      let byte := fun (sgn : Bool) (v i : Nat) =>
        let x := (BitVec.ofNat 32 v).extractLsb' (8 * i) 8
        if sgn then x.toInt else (x.toNat : Int)
      Say.wr .i32 (Say.fit .i32 sat ((BitVec.ofNat 32 (srcVal s c 1 p e)).toInt +
        ((List.range 4).map (fun i => byte signed (srcVal s a 1 p e) i * byte (signed ^^ mix) (srcVal s b 1 p e) i)).sum)))) ∧
    (∀ (n : Fin 48) (ty : ITy) (mode : VtosMode), widthOnly ty = true → d = .s n →
      let w := tyRegs ty
      let lanes := takingLanes s s.curWarp h
      let own := fun (q : Nat × LaneEnt) => srcVal s a w q.1 q.2
      (mode = .uni → ∀ q ∈ lanes, ∀ r ∈ lanes, own q = own r) →
      ∃ t, exec (.vtos h d a ty mode) s = .next t ∧ Say.Kept Say.seated s t ∧ t.rg.p = s.rg.p ∧ t.rg.v = s.rg.v ∧
        (∀ q ∈ lanes, (mode = .first → ∀ r ∈ lanes, r.1 ≠ q.1 → laneRank q.2 < laneRank r.2) →
          (mode = .last → ∀ r ∈ lanes, r.1 ≠ q.1 → laneRank r.2 < laneRank q.2) →
          ∀ i < w, NMap.get 0 t.rg.s (sKey s.curWarp.gi (n.val + i)) = wordOf (own q) i) ∧
        ∀ k, (lanes ≠ [] → ∀ i < w, k ≠ sKey s.curWarp.gi (n.val + i)) → NMap.get 0 t.rg.s k = NMap.get 0 s.rg.s k) ∧
    ∀ sel : Fin 31, Say.RunsVal (.sysrd h d sel) s h d 1 (fun p e => sysVal s s.curWarp sel.val p e)

/-! ### Float, conversion and block words (chapters 11 and 12) -/

/-- R227 and R229: sums and products are exact, in the rationals; their special values. -/
def Obligations.FloatSumsAndProductsAreExact : Prop :=
  (∀ rm n m e n' m' e', ∃ k x y, addF rm (.fin n m e) (.fin n' m' e') = .fin k x y ∧
    Say.ratOf k x y = Say.ratOf n m e + Say.ratOf n' m' e' ∧
    (x = 0 → m ≠ 0 ∨ m' ≠ 0 ∨ n ≠ n' → k = (rm == .rd)) ∧ (m = 0 → m' = 0 → n = n' → k = n)) ∧
  (∀ n m e n' m' e', ∃ x y, mulF (.fin n m e) (.fin n' m' e') = .fin (n ^^ n') x y ∧
    Say.ratOf (n ^^ n') x y = Say.ratOf n m e * Say.ratOf n' m' e') ∧
  (∀ rm v, addF rm .nan v = .nan ∧ addF rm v .nan = .nan ∧ mulF .nan v = .nan ∧ mulF v .nan = .nan) ∧
  (∀ rm n, addF rm (.inf n) (.inf (!n)) = .nan ∧ addF rm (.inf n) (.inf n) = .inf n ∧
    ∀ k m e, addF rm (.inf n) (.fin k m e) = .inf n ∧ addF rm (.fin k m e) (.inf n) = .inf n ∧
      (m = 0 → mulF (.inf n) (.fin k m e) = .nan) ∧ (m ≠ 0 → mulF (.inf n) (.fin k m e) = .inf (n ^^ k)))

/-- R19: the directed roundings and round to nearest of a value inside the format's range: no value of the format lies between it
and its image, which is on the side the mode names, or nearest. -/
def Obligations.RoundingTakesTheNeighbourItsModeNames : Prop :=
  ∀ (ty : FTy) (n : Bool) (m : Nat) (e : Int), m ≠ 0 →
    let f := fmtOf ty
    let v := Say.ratOf n m e
    let isVal := fun (bits : Nat) (x : ℚ) => bits < 2 ^ (f.ebits + f.mbits + 1) ∧ ∃ k a b, decodeF f bits = .fin k a b ∧ x = Say.ratOf k a b
    (∃ bits x, isVal bits x ∧ |v| ≤ |x|) →
    ∀ u, (∃ r, isVal (roundF f .rd u (.fin n m e)) r ∧ r ≤ v ∧ ∀ bits x, isVal bits x → x ≤ v → x ≤ r) ∧
      (∃ r, isVal (roundF f .ru u (.fin n m e)) r ∧ v ≤ r ∧ ∀ bits x, isVal bits x → v ≤ x → r ≤ x) ∧
      (∃ r, isVal (roundF f .rz u (.fin n m e)) r ∧ |r| ≤ |v| ∧ 0 ≤ r * v ∧ ∀ bits x, isVal bits x → |x| ≤ |v| → |x| ≤ |r|) ∧
      (∃ r, isVal (roundF f .rn u (.fin n m e)) r ∧ ∀ bits x, isVal bits x → |v - r| ≤ |v - x|)

/-- R226, R229, R233 and R235: FADD, FSUB, FMUL, FFMA and FSCALE round their exact value once and move the generator under RM .rs alone.
The special functions run, and leave what is not their destination. -/
def Obligations.ScalarFloatWordsRoundOnce : Prop :=
  ∀ (s : State) (h : Hdr) (d a b c : Reg) (ty : FTy) (rm : Rm) (ma mb : SMod) (nc sat ftz : Bool),
    let f := fmtOf ty
    let x := fun p e => readF f ftz ma (srcVal s a 1 p e)
    let y := fun p e => readF f ftz mb (srcVal s b 1 p e)
    let z := fun p e => readF f ftz .none (srcVal s c 1 p e)
    Say.RunsRound (.fadd h d a b ty rm ma mb sat ftz) s h d 1 rm (fun p e => finishF f rm sat ftz (addF rm (x p e) (y p e))) ∧
    Say.RunsRound (.fsub h d a b ty rm ma mb sat ftz) s h d 1 rm (fun p e => finishF f rm sat ftz (addF rm (x p e) (negF (y p e)))) ∧
    Say.RunsRound (.fmul h d a b ty rm ma mb sat ftz) s h d 1 rm (fun p e => finishF f rm sat ftz (mulF (x p e) (y p e))) ∧
    Say.RunsRound (.ffma h d a b c ty rm ma mb nc sat ftz) s h d 1 rm (fun p e =>
      finishF f rm sat ftz (addF rm (mulF (x p e) (y p e)) (if nc then negF (z p e) else z p e))) ∧
    Say.RunsRound (.fscale h d a b ty rm ma ftz) s h d 1 rm (fun p e =>
      finishF f rm false ftz (scaleF (x p e) (BitVec.ofNat 32 (srcVal s b 1 p e)).toInt)) ∧
    ∀ i, i = .frcp h d a ma ftz ∨ i = .frsq h d a ma ftz ∨ i = .fsqrt h d a rm ma ftz ∨ i = .fexp2 h d a ma ftz ∨ i = .flog2 h d a ma ftz ∨
      i = .fsin h d a ma ftz ∨ i = .fcos h d a ma ftz ∨ i = .ftanh h d a ma ftz ∨ i = .fsigm h d a ma ftz →
      ∃ t, exec i s = .next t ∧ Say.Kept Say.seated s t ∧ t.rg.p = s.rg.p

/-- R230, R231, R232 and R234: FMIN, FMAX and FMAXA by order and NaN rule, FCMP's ordered and unordered conditions, FCLASS's one bit,
FRINT. -/
def Obligations.FloatComparisonsAndClasses : Prop :=
  ∀ (s : State) (h : Hdr) (d a b : Reg) (ty : FTy) (ma mb : SMod) (ftz : Bool),
    let f := fmtOf ty
    let x := fun p e => readBits f ftz ma (srcVal s a 1 p e)
    let y := fun p e => readBits f ftz mb (srcVal s b 1 p e)
    let nan := fun v => decodeF f v = .nan
    let pick := fun (before : FVal → FVal → Bool) (u w v : Nat) =>
      (nan u → nan w → v = f.nanBits) ∧ (nan u → ¬nan w → v = w) ∧ (¬nan u → nan w → v = u) ∧
      (before (decodeF f u) (decodeF f w) = true → v = u) ∧ (before (decodeF f w) (decodeF f u) = true → v = w)
    Say.RunsReg (.fmin h d a b ty ma mb ftz) s h d 1 (fun p e v => pick ltF (x p e) (y p e) v ∧
      (eqF (decodeF f (x p e)) (decodeF f (y p e)) = true → v = if negOf f (y p e) then y p e else x p e)) ∧
    Say.RunsReg (.fmax h d a b ty ma mb ftz) s h d 1 (fun p e v => pick (fun u w => ltF w u) (x p e) (y p e) v ∧
      (eqF (decodeF f (x p e)) (decodeF f (y p e)) = true → v = if negOf f (x p e) then y p e else x p e)) ∧
    Say.RunsReg (.fmaxa h d a b ty ftz) s h d 1 (fun p e v =>
      pick (fun u w => ltF w u) (readBits f ftz .abs (srcVal s a 1 p e)) (readBits f ftz .abs (srcVal s b 1 p e)) v ∧ negOf f v = false) ∧
    (∀ (pr : Fin 8) (cond : FCond), Say.RunsPred (.fcmp h pr a b ty ma mb ftz cond) s h pr.val (fun p e r =>
      let u := decodeF f (x p e)
      let w := decodeF f (y p e)
      let unordered := nan (x p e) ∨ nan (y p e)
      match cond with
      | .eq => r = true ↔ ¬unordered ∧ eqF u w = true
      | .ne => r = true ↔ ¬unordered ∧ eqF u w = false
      | .lt => r = true ↔ ¬unordered ∧ ltF u w = true
      | .le => r = true ↔ ¬unordered ∧ ltF w u = false
      | .gt => r = true ↔ ¬unordered ∧ ltF w u = true
      | .ge => r = true ↔ ¬unordered ∧ ltF u w = false
      | .num => r = true ↔ ¬unordered
      | .nan => r = true ↔ unordered
      | .equ => r = true ↔ unordered ∨ eqF u w = true
      | .neu => r = true ↔ unordered ∨ eqF u w = false
      | .ltu => r = true ↔ unordered ∨ ltF u w = true
      | .leu => r = true ↔ unordered ∨ ltF w u = false
      | .gtu => r = true ↔ unordered ∨ ltF w u = true
      | .geu => r = true ↔ unordered ∨ ltF u w = false)) ∧
    Say.RunsReg (.fclass h d a ty ftz) s h d 1 (fun p e v =>
      let w := readBits f ftz .none (srcVal s a 1 p e)
      match decodeF f w with
      | .nan => v = 2 ^ 8
      | .inf n => v = if n then 1 else 2 ^ 7
      | .fin n m _ => v = if m = 0 then (if n then 2 ^ 3 else 2 ^ 4) else if m < 2 ^ f.mbits then (if n then 2 ^ 2 else 2 ^ 5)
          else (if n then 2 else 2 ^ 6)) ∧
    ∀ rm, Say.RunsVal (.frint h d a ty rm ma ftz) s h d 1 (fun p e =>
      flushBits f ftz (roundF f .rz 0 (integralF rm (readF f ftz ma (srcVal s a 1 p e)))))

/-- R235 to R237: each special function runs in every lane and writes what the table of R237 gives for NaNs, infinities, zeros and
numbers below zero; FSQRT rounds the root of a number above zero by its mode; the result of the others is a fixed function of the operand
as read and of FTZ. -/
def Obligations.SpecialFunctionsAreFixedFunctions : Prop :=
  (∀ (s : State) (h : Hdr) (d a : Reg) (ma : SMod) (ftz : Bool),
    let x := fun p e => readBits fmtF32 ftz ma (srcVal s a 1 p e)
    let runs := fun (i : Instr) (fn : Sfu) => Say.RunsReg i s h d 1 (fun p e v => Say.Special fn (x p e) v)
    runs (.frcp h d a ma ftz) .rcp ∧ runs (.frsq h d a ma ftz) .rsq ∧ runs (.fexp2 h d a ma ftz) .exp2 ∧ runs (.flog2 h d a ma ftz) .log2 ∧
    runs (.fsin h d a ma ftz) .sin ∧ runs (.fcos h d a ma ftz) .cos ∧ runs (.ftanh h d a ma ftz) .tanh ∧ runs (.fsigm h d a ma ftz) .sigm ∧
    ∀ rm, Say.RunsReg (.fsqrt h d a rm ma ftz) s h d 1 (fun p e v =>
      match decodeF fmtF32 (x p e) with
      | .nan => v = 0x7FC00000
      | .inf n => v = if n then 0x7FC00000 else 0x7F800000
      | .fin n m k => (m = 0 → v = x p e) ∧ (m ≠ 0 → n = true → v = 0x7FC00000) ∧
        (m ≠ 0 → n = false →
          let a := Say.ratOf false m k
          let y := Say.valueAt v
          (rm = .rz ∨ rm = .rd → y ^ 2 ≤ a ∧ a < Say.valueAt (v + 1) ^ 2) ∧ (rm = .ru → Say.valueAt (v - 1) ^ 2 < a ∧ a ≤ y ^ 2) ∧
          (rm = .rn → (Say.valueAt (v - 1) + y) ^ 2 ≤ 4 * a ∧ 4 * a ≤ (y + Say.valueAt (v + 1)) ^ 2)))) ∧
  ∃ g : Sfu → Bool → Nat → Nat, ∀ (s : State) (h : Hdr) (d a : Reg) (ma : SMod) (ftz : Bool),
    let x := fun p e => readBits fmtF32 ftz ma (srcVal s a 1 p e)
    let runs := fun (i : Instr) (fn : Sfu) => Say.RunsVal i s h d 1 (fun p e => g fn ftz (x p e))
    runs (.frcp h d a ma ftz) .rcp ∧ runs (.frsq h d a ma ftz) .rsq ∧ runs (.fexp2 h d a ma ftz) .exp2 ∧ runs (.flog2 h d a ma ftz) .log2 ∧
    runs (.fsin h d a ma ftz) .sin ∧ runs (.fcos h d a ma ftz) .cos ∧ runs (.ftanh h d a ma ftz) .tanh ∧ runs (.fsigm h d a ma ftz) .sigm

/-- R238 and R239: packed words form each element from the elements of the same place; a dot product is rounded once into F32. -/
def Obligations.PackedWordsActElementByElement : Prop :=
  ∀ (s : State) (h : Hdr) (d a b c : Reg) (rm : Rm) (ma mb : SMod) (nc sat : Bool),
    let half := fun (r : Reg) p e i => srcVal s r 1 p e / 2 ^ (16 * i) % 2 ^ 16
    let pair := fun (el : Nat → Nat → LaneEnt → Word → Nat × Word) p e x =>
      ((el 0 p e x).1 + 2 ^ 16 * (el 1 p e (el 0 p e x).2).1, (el 1 p e (el 0 p e x).2).2)
    let x := fun f p e i => readF f false ma (half a p e i)
    let y := fun f p e i => readF f false mb (half b p e i)
    let z := fun f p e i => (if nc then negF else id) (readF f false .none (half c p e i))
    let add := fun f => pair (fun i p e => finishF f rm sat false (addF rm (x f p e i) (y f p e i)))
    let mul := fun f => pair (fun i p e => finishF f rm sat false (mulF (x f p e i) (y f p e i)))
    let fma := fun f => pair (fun i p e => finishF f rm sat false (addF rm (mulF (x f p e i) (y f p e i)) (z f p e i)))
    let least := fun f p e i => minBits f (readBits f false ma (half a p e i)) (readBits f false mb (half b p e i))
    let most := fun f p e i => maxBits f (readBits f false ma (half a p e i)) (readBits f false mb (half b p e i))
    let dot := fun f p e => finishF fmtF32 rm sat false (sumF rm [(if nc then negF else id) (readF fmtF32 false .none (srcVal s c 1 p e)),
      mulF (x f p e 0) (y f p e 0), mulF (x f p e 1) (y f p e 1)])
    Say.RunsRound (.hadd2 h d a b rm ma mb sat) s h d 1 rm (add fmtF16) ∧
    Say.RunsRound (.badd2 h d a b rm ma mb sat) s h d 1 rm (add fmtBF16) ∧
    Say.RunsRound (.hmul2 h d a b rm ma mb sat) s h d 1 rm (mul fmtF16) ∧
    Say.RunsRound (.bmul2 h d a b rm ma mb sat) s h d 1 rm (mul fmtBF16) ∧
    Say.RunsRound (.hfma2 h d a b c rm ma mb nc sat) s h d 1 rm (fma fmtF16) ∧
    Say.RunsRound (.bfma2 h d a b c rm ma mb nc sat) s h d 1 rm (fma fmtBF16) ∧
    Say.RunsVal (.hmin2 h d a b ma mb) s h d 1 (fun p e => least fmtF16 p e 0 + 2 ^ 16 * least fmtF16 p e 1) ∧
    Say.RunsVal (.bmin2 h d a b ma mb) s h d 1 (fun p e => least fmtBF16 p e 0 + 2 ^ 16 * least fmtBF16 p e 1) ∧
    Say.RunsVal (.hmax2 h d a b ma mb) s h d 1 (fun p e => most fmtF16 p e 0 + 2 ^ 16 * most fmtF16 p e 1) ∧
    Say.RunsVal (.bmax2 h d a b ma mb) s h d 1 (fun p e => most fmtBF16 p e 0 + 2 ^ 16 * most fmtBF16 p e 1) ∧
    Say.RunsRound (.hdot2 h d a b c rm ma mb nc sat) s h d 1 rm (dot fmtF16) ∧
    Say.RunsRound (.bdot2 h d a b c rm ma mb nc sat) s h d 1 rm (dot fmtBF16)

/-- R243, R245 and R253: CVT by the pair of types, PACK2 element by element, BLKHDR's header and its check mask. -/
def Obligations.ConversionsFollowTheirTypes : Prop :=
  ∀ (s : State) (h : Hdr) (d a b : Reg) (rm : Rm) (ma mb : SMod) (sat ftz : Bool),
    (∀ st dt, Say.RunsVal (.cvt h d a (.int dt) (.int st) .rn .none sat false) s h d (tyRegs dt) (fun p e =>
      Say.wr dt (Say.fit dt sat (Say.rd st (srcVal s a (tyRegs st) p e))))) ∧
    (∀ st dt, Say.RunsRound (.cvt h d a (.flt dt) (.int st) rm .none sat ftz) s h d 1 rm (fun p e =>
      finishF (fmtOf dt) rm sat ftz (intToF (Say.rd st (srcVal s a (tyRegs st) p e))))) ∧
    (∀ st dt, Say.RunsRound (.cvt h d a (.flt dt) (.flt st) rm ma sat ftz) s h d 1 rm (fun p e =>
      finishF (fmtOf dt) rm sat ftz (readF (fmtOf st) ftz ma (srcVal s a 1 p e)))) ∧
    (∀ st dt, Say.RunsRound (.cvt h d a (.int dt) (.flt st) rm ma false ftz) s h d (tyRegs dt) rm (fun p e x =>
      let y := if rm = .rs then stepGen x else x
      (Say.wr dt (match readF (fmtOf st) ftz ma (srcVal s a 1 p e) with
        | .nan => 0
        | .inf n => if n then Say.lo dt else Say.hi dt
        | .fin n m ex =>
          let k : Int := roundTo rm (drawOf y) n m ex 0
          min (max (if n then -k else k) (Say.lo dt)) (Say.hi dt)), y))) ∧
    (∀ ty, (ty = .f16 ∨ ty = .bf16) →
      let f := fmtOf ty
      Say.RunsRound (.pack2 h d a b (if ty = .f16 then .f16 else .bf16) rm ma mb sat ftz) s h d 1 rm (fun p e x =>
        let lo := finishF f rm sat false (readF fmtF32 ftz ma (srcVal s a 1 p e)) x
        let hi := finishF f rm sat false (readF fmtF32 ftz mb (srcVal s b 1 p e)) lo.2
        (lo.1 + 2 ^ 16 * hi.1, hi.2))) ∧
    (let el := fun (ty src : ITy) (r : Reg) p e => (BitVec.ofInt 16 (Say.fit ty sat (Say.rd src (srcVal s r 1 p e)))).toNat
     Say.RunsVal (.pack2 h d a b .i16 .rn .none .none sat false) s h d 1 (fun p e => el .i16 .i32 a p e + 2 ^ 16 * el .i16 .i32 b p e) ∧
     Say.RunsVal (.pack2 h d a b .n16 .rn .none .none sat false) s h d 1 (fun p e => el .n16 .n32 a p e + 2 ^ 16 * el .n16 .n32 b p e)) ∧
    (∀ (fmt : BFmt) (c : Bool) (z : Fin 8), Say.RunsReg (.blkhdrMake h d a fmt c z) s h d 1 (fun p e v =>
      v < 2 ^ 16 ∧ v / 256 = srcVal s a 1 p e % 256 ∧ hdrTag v = bfmtTag fmt ∧ hdrClass v = (if fmt4 fmt then 1 else 0) ∧ hdrZ v = z.val ∧
        hdrC v = c)) ∧
    ∀ (c4 c : Bool) (z : Fin 8), Say.RunsReg (.blkhdrChk h d a c4 c z) s h d 1 (fun p e v =>
      let x := srcVal s a 1 p e
      v < 32 ∧ v.testBit 0 = decide (x / 64 % 4 = 3) ∧ v.testBit 1 = decide (x / 16 % 4 ≠ if c4 then 1 else 0) ∧
        v.testBit 2 = (x.testBit 0 != c) ∧ v.testBit 3 = decide (x / 2 % 8 ≠ z.val) ∧ v.testBit 4 = decide (x / 256 % 256 = 255))

/-- R246 to R252: BLKENC writes each taking lane its two bytes of its home warp's block, which decodes as well formed; BLKDEC, where
every taking lane's block passes its check, writes each lane its elements, +0.0 in home lane 31. -/
def Obligations.BlocksAreFormedByHomeWarp : Prop :=
  ∀ (s : State) (h : Hdr) (d a : Reg) (z : Fin 8) (ftz : Bool),
    (∀ (scale : Option Reg) (fmt : BFmt) (rm : Rm), ∃ t, exec (.blkenc h d a scale fmt z rm ftz) s = .next t ∧
      Say.Kept Say.reseeded s t ∧ t.rg.p = s.rg.p ∧ (rm ≠ .rs → ∀ k, (t.rg.threads.find k).map (·.gen) = (s.rg.threads.find k).map (·.gen)) ∧
      Say.Dest s t h d 1 (fun _ e v =>
        let block := encHome s (guardedLanes s s.curWarp h) e.hwarp a scale fmt z.val rm ftz
        v = block.getD (2 * e.hlane) 0 + 256 * block.getD (2 * e.hlane + 1) 0) ∧
      ∀ hw, let block := encHome s (guardedLanes s s.curWarp h) hw a scale fmt z.val rm ftz
        block.length = 64 ∧ headerOk (block.headD 0) (fmt4 fmt) false z.val = true ∧ blockMalformed block = false ∧
        bfmtOfTag (hdrClass (block.headD 0)) (hdrTag (block.headD 0)) = some fmt) ∧
    ∀ (c4 : Bool),
      let block := fun e => blockOfHome s (guardedLanes s s.curWarp h) (LaneEnt.hwarp e) a
      (∀ q ∈ takingLanes s s.curWarp h, headerOk ((block q.2).headD 0) c4 false z.val = true ∧ blockMalformed (block q.2) = false) →
      Say.RunsReg (.blkdec h d a c4 z ftz) s h d (elemsPerLane c4) (fun _ e v =>
        let elems := decodeBlock z.val ftz (block e)
        v = if e.hlane = 31 then 0 else (((List.range (elemsPerLane c4)).map (fun i => elems.getD (elemsPerLane c4 * e.hlane + i) 0 * 2 ^ (32 * i))).sum))

/-! ### Cross-lane words (chapter 15) -/

/-- R289 to R291: SHFL, SHFLX, QXCH and QBCST read a register of the thread that the lane names. -/
def Obligations.ExchangesReadTheThreadNamed : Prop :=
  ∀ (s : State) (h : Hdr) (d a b : Reg) (ty : ITy), widthOnly ty = true →
    let w := tyRegs ty
    let x := s.curWarp
    let reads := fun hw hl v => ∃ u, Say.ThreadReg s x hw hl a w u ∧ v = copyVal ty u
    let near := fun (seg : Nat) (e : LaneEnt) (k : Int) => e.hlane - e.hlane % seg + (k % seg).toNat
    (∀ (mode : ShflMode) (m : Fin 6) (p : Option (Fin 8)),
      let seg := 2 ^ m.val
      let k := fun q e => srcVal s b 1 q e
      let src : Nat → LaneEnt → Nat := fun q e =>
        let place := e.hlane % seg
        match mode with
        | .at => if k q e < seg then e.hlane - place + k q e else e.hlane
        | .rot => near seg e (place + (BitVec.ofNat 32 (k q e)).toInt)
        | .mir => if k q e < seg then near seg e (seg - 1 - place + k q e) else e.hlane
        | .xor => if k q e < seg then e.hlane ^^^ k q e else e.hlane
      let inside : Nat → LaneEnt → Prop := fun q e =>
        match mode with
        | .rot => 0 ≤ (e.hlane % seg : Nat) + (BitVec.ofNat 32 (k q e)).toInt ∧ (e.hlane % seg : Nat) + (BitVec.ofNat 32 (k q e)).toInt < seg
        | _ => k q e < seg
      match p with
      | none => Say.RunsReg (.shfl h d a b none ty mode m) s h d w (fun q e v => reads e.hwarp (src q e) v)
      | some i => Say.RunsBoth (.shfl h d a b (some i) ty mode m) s h d w (fun q e v => reads e.hwarp (src q e) v) i.val
          (fun q e r => r = true ↔ inside q e)) ∧
    (let last := 32 * (((s.group x.gi).gsize + 31) / 32)
     let src := fun q e v => let k := srcVal s b 1 q e
       if k < last then reads (k / 32) (k % 32) v else reads e.hwarp e.hlane v
     Say.RunsReg (.shflx h d a b none ty) s h d w src ∧
     ∀ i, Say.RunsBoth (.shflx h d a b (some i) ty) s h d w src i.val (fun q e r => r = decide (srcVal s b 1 q e < last))) ∧
    (∀ k, Say.RunsReg (.qxch h d a ty k) s h d w (fun _ e v => reads e.hwarp (4 * (e.hlane / 4) + ((e.hlane % 4) ^^^ k.val)) v)) ∧
    ∀ k, Say.RunsReg (.qbcst h d a ty k) s h d w (fun _ e v => reads e.hwarp (4 * (e.hlane / 4) + k.val) v)

/-- R292, R293 and R295: votes and matches over the contributors of a lane's home warp; LMAP reads the remap table. -/
def Obligations.VotesAndMatchesOverContributors : Prop :=
  ∀ (s : State) (h : Hdr),
    let x := s.curWarp
    let lanes := takingLanes s x h
    Say.DistinctHomes lanes →
    (∀ (pa : Fin 8) (neg : Bool),
      let val := fun (q : Nat × LaneEnt) => predVal s pa q.1 q.2 != neg
      (∀ p : Fin 8,
        Say.RunsPred (.vote h (.inr p) pa neg .all) s h p.val (fun _ e r => r = true ↔ ∀ q ∈ lanes, q.2.hwarp = e.hwarp → val q = true) ∧
        Say.RunsPred (.vote h (.inr p) pa neg .any) s h p.val (fun _ e r => r = true ↔ ∃ q ∈ lanes, q.2.hwarp = e.hwarp ∧ val q = true) ∧
        Say.RunsPred (.vote h (.inr p) pa neg .uni) s h p.val (fun _ e r => r = true ↔
          ∀ q ∈ lanes, ∀ q' ∈ lanes, q.2.hwarp = e.hwarp → q'.2.hwarp = e.hwarp → val q = val q')) ∧
      ∀ d : Reg,
        Say.RunsReg (.vote h (.inl d) pa neg .mask) s h d 1 (fun _ e v => ∀ j, v.testBit j = true ↔
          ∃ q ∈ lanes, q.2.hwarp = e.hwarp ∧ q.2.hlane = j ∧ val q = true) ∧
        Say.RunsReg (.vote h (.inl d) pa neg .count) s h d 1 (fun _ e v => v = (lanes.filter (fun q => q.2.hwarp == e.hwarp && val q)).length)) ∧
    (∀ (d a : Reg) (ty : ITy), widthOnly ty = true →
      let own := fun (q : Nat × LaneEnt) => srcVal s a (tyRegs ty) q.1 q.2
      Say.RunsReg (.matchLanes h d a ty .peers) s h d 1 (fun p e v => ∀ j, v.testBit j = true ↔
        ∃ q ∈ lanes, q.2.hwarp = e.hwarp ∧ q.2.hlane = j ∧ own q = own (p, e)) ∧
      Say.RunsReg (.matchLanes h d a ty .same) s h d 1 (fun p e v => ∀ j, v.testBit j = true ↔
        (∃ q ∈ lanes, q.2.hwarp = e.hwarp ∧ q.2.hlane = j) ∧ ∀ q ∈ lanes, q.2.hwarp = e.hwarp → own q = own (p, e)) ∧
      Say.RunsReg (.matchLanes h d a ty .lead) s h d 1 (fun p e v =>
        (∃ q ∈ lanes, q.2.hwarp = e.hwarp ∧ q.2.hlane = v ∧ own q = own (p, e)) ∧
        ∀ q ∈ lanes, q.2.hwarp = e.hwarp → own q = own (p, e) → v ≤ q.2.hlane)) ∧
    ∀ d : Reg,
      Say.RunsReg (.lmap h d .self) s h d 1 (fun _ e v => v = 0x800 + 32 * e.hwarp + e.hlane) ∧
      (∀ a, Say.RunsVal (.lmap h d (.phys a)) s h d 1 (fun p e => entryWord (x.lanes.getD (srcVal s a 1 p e % 32) {}))) ∧
      ∀ a, Say.RunsReg (.lmap h d (.find a)) s h d 1 (fun p e v =>
        (∃ q ∈ liveLanes x, q.1 = v ∧ q.2.hwarp = e.hwarp ∧ q.2.hlane = srcVal s a 1 p e % 32) ∨
        (v = 0xFFFFFFFF ∧ ∀ q ∈ liveLanes x, q.2.hwarp = e.hwarp → q.2.hlane ≠ srcVal s a 1 p e % 32))

/-- R294: REDL reduces over all contributors of a lane's home warp and PRFX over those up to the lane, by home lane: integer sums
exact and fitted once, the least, the greatest, or bit by bit; float words combine in their fixed order. -/
def Obligations.ReductionsAndScansOverContributors : Prop :=
  ∀ (s : State) (h : Hdr) (d a : Reg),
    let lanes := takingLanes s s.curWarp h
    Say.DistinctHomes lanes →
    (∀ (ty : ITy), narrow ty = false →
      let w := tyRegs ty
      let own := fun (q : Nat × LaneEnt) => Say.rd ty (srcVal s a w q.1 q.2)
      let bit := fun (q : Nat × LaneEnt) i => (srcVal s a w q.1 q.2).testBit i
      let peers := fun (e : LaneEnt) => lanes.filter (fun q => q.2.hwarp == e.hwarp)
      let below := fun (e : LaneEnt) => (peers e).filter (fun q => decide (q.2.hlane < e.hlane))
      let upto := fun (e : LaneEnt) => (peers e).filter (fun q => decide (q.2.hlane ≤ e.hlane))
      let sum := fun (l : List (Nat × LaneEnt)) sat v => v = Say.wr ty (Say.fit ty sat (l.map own).sum)
      let least := fun (l : List (Nat × LaneEnt)) v => ∃ q ∈ l, v = Say.wr ty (own q) ∧ ∀ r ∈ l, own q ≤ own r
      let most := fun (l : List (Nat × LaneEnt)) v => ∃ q ∈ l, v = Say.wr ty (own q) ∧ ∀ r ∈ l, own r ≤ own q
      let every := fun (l : List (Nat × LaneEnt)) (v : Nat) => v < 2 ^ tyBits ty ∧ ∀ i < tyBits ty, v.testBit i = l.all (fun q => bit q i)
      let some := fun (l : List (Nat × LaneEnt)) (v : Nat) => v < 2 ^ tyBits ty ∧ ∀ i < tyBits ty, v.testBit i = l.any (fun q => bit q i)
      let odd := fun (l : List (Nat × LaneEnt)) (v : Nat) => v < 2 ^ tyBits ty ∧ ∀ i < tyBits ty, v.testBit i = ((l.filter (fun q => bit q i)).length % 2 == 1)
      (∀ sat, Say.RunsReg (.redl h d a (.int ty) .add .rn sat false) s h d w (fun _ e v => sum (peers e) sat v)) ∧
      Say.RunsReg (.redl h d a (.int ty) .min .rn false false) s h d w (fun _ e v => least (peers e) v) ∧
      Say.RunsReg (.redl h d a (.int ty) .max .rn false false) s h d w (fun _ e v => most (peers e) v) ∧
      Say.RunsReg (.redl h d a (.int ty) .and .rn false false) s h d w (fun _ e v => every (peers e) v) ∧
      Say.RunsReg (.redl h d a (.int ty) .or .rn false false) s h d w (fun _ e v => some (peers e) v) ∧
      Say.RunsReg (.redl h d a (.int ty) .xor .rn false false) s h d w (fun _ e v => odd (peers e) v) ∧
      (∀ sat, Say.RunsReg (.prfx h d a (.int ty) .add false .rn sat false) s h d w (fun _ e v => sum (upto e) sat v)) ∧
      (∀ sat, Say.RunsReg (.prfx h d a (.int ty) .add true .rn sat false) s h d w (fun _ e v => sum (below e) sat v)) ∧
      Say.RunsReg (.prfx h d a (.int ty) .min false .rn false false) s h d w (fun _ e v => least (upto e) v) ∧
      Say.RunsReg (.prfx h d a (.int ty) .max false .rn false false) s h d w (fun _ e v => most (upto e) v) ∧
      Say.RunsReg (.prfx h d a (.int ty) .and false .rn false false) s h d w (fun _ e v => every (upto e) v) ∧
      Say.RunsReg (.prfx h d a (.int ty) .or false .rn false false) s h d w (fun _ e v => some (upto e) v) ∧
      Say.RunsReg (.prfx h d a (.int ty) .xor false .rn false false) s h d w (fun _ e v => odd (upto e) v)) ∧
    ∀ (ty : FTy) (op : RedOp) (rm : Rm) (sat ftz : Bool),
      let f := fmtOf ty
      let c := fun (e : LaneEnt) => contributors s h e.hwarp (fun q x => readBits f ftz .none (srcVal s a 1 q x))
      Say.RunsReg (.redl h d a (.flt ty) op rm sat ftz) s h d 1 (fun _ e v =>
        ∃ x, treeOf (redFlt op f rm ftz) ((List.range 32).map (fun j => NMap.find (c e) j)) = some x ∧ v = redOut f sat x) ∧
      Say.RunsReg (.prfx h d a (.flt ty) op false rm sat ftz) s h d 1 (fun _ e v =>
        ∃ x l, (c e).filter (fun q => decide (q.1 ≤ e.hlane)) = x :: l ∧ v = redOut f sat (l.foldl (fun acc q => redFlt op f rm ftz acc q.2) x.2))

/-! ### Control words (chapter 18) -/

/-- R362, R363 and R367: NOP does nothing, BRK nothing where its context has BREAK off, YIELD leaves its mark on the group when its run
ends, SPRI gives the taking lanes' threads their priority. R183, R184 and R364: JOIN, LEAVE and CPYQ always run, WAITSB where the counters
are low enough, KWAIT, once its release at group scope is done, where the masks are empty. -/
def Obligations.PlainControlWordsChangeOnlyWhatTheyName : Prop :=
  ∀ (s : State) (h : Hdr),
    let x := s.curWarp
    let lanes := takingLanes s x h
    (∃ t, exec (.nop h) s = .next t ∧ Say.Kept Say.seated s t ∧ Say.SameRegs s t ∧ t.rg.p = s.rg.p) ∧
    (∀ code, (s.ctx (ctxOf s x)).brk = false →
      ∃ t, exec (.brk h code) s = .next t ∧ Say.Kept Say.seated s t ∧ Say.SameRegs s t ∧ t.rg.p = s.rg.p) ∧
    (∃ t, exec (.yield h) s = .next t ∧ Say.Kept Say.seated s t ∧ Say.SameRegs s t ∧ t.rg.p = s.rg.p ∧
      (h.b = true → h.w = false → lanes ≠ [] → ∀ g, t.wk.groups.find x.gi = some g → x.quarter ∈ g.yielded.map (·.1))) ∧
    (∀ prio : Fin 16, ∃ t, exec (.spri h prio) s = .next t ∧ Say.Kept Say.steered s t ∧ Say.SameRegs s t ∧ t.rg.p = s.rg.p ∧
      (∀ q ∈ lanes, (t.rg.threads.find (thKey x.gi q.2.hwarp q.2.hlane)).map (·.prio) =
        (s.rg.threads.find (thKey x.gi q.2.hwarp q.2.hlane)).map (fun _ => prio.val)) ∧
      ∀ k, (∀ q ∈ lanes, k ≠ thKey x.gi q.2.hwarp q.2.hlane) → (t.rg.threads.find k).map (·.prio) = (s.rg.threads.find k).map (·.prio)) ∧
    (∀ k : Fin 12, (∃ t, exec (.join h k) s = .next t ∧ Say.Calm s t) ∧ (∃ t, exec (.leave h k) s = .next t ∧ Say.Calm s t) ∧
      let keys := lanes.map (fun q => thKey x.gi q.2.hwarp q.2.hlane)
      ((∀ hw ∈ homeWarps lanes, (s.hwarp (hwKey x.gi hw)).fifo = [] ∧ kMask s x.gi hw k.val = 0) → ownRequests s x.gi keys false = [] →
        heldLoads s x.gi keys = [] → ∃ t, exec (.kwait h k) s = .next t ∧ t.rg.v = s.rg.v ∧ t.rg.k = s.rg.k ∧
          ∀ w, t.wk.warps.find s.md.cur = some w → w.pc = x.pc + 8 ∧ ∀ q ∈ activeLanes x, q ∈ activeLanes w)) ∧
    (∀ (c : Fin 6) (n : Fin 64), (∀ q ∈ lanes, sbOf s x.gi q.2.hwarp c.val ≤ n.val) →
      ∃ t, exec (.waitsb h c n) s = .next t ∧ Say.Kept Say.seated s t) ∧
    ∀ d clr, ∃ t, exec (.cpyq h d clr) s = .next t ∧ t.rg.p = s.rg.p ∧ t.rg.k = s.rg.k ∧ t.mm = s.mm

/-- R42, R57, R65 and R353: how any word ends, shown on NOP: the warp stands at the next word, or awaits its threads' results, or its run
ends and its threads go to the frontier at the next word. -/
def Obligations.TheEndOfAWordMovesOnWaitsOrEndsTheRun : Prop :=
  ∀ (s : State) (h : Hdr) (x : Warp), s.wk.warps.find s.md.cur = some x → activeLanes x ≠ [] →
    let waits := h.w && pendingFor s x.gi (warpThreads x)
    ∃ t, exec (.nop h) s = .next t ∧
      (waits = false → h.b = false → ∃ y, t.wk.warps.find s.md.cur = some y ∧ y.pc = x.pc + 8 ∧ y.park = .none ∧ y.temps = x.temps ∧ y.count = x.count + x.wordN ∧
        y.named = x.named ||| x.wordNamed) ∧
      (waits = true → ∃ y, t.wk.warps.find s.md.cur = some y ∧ y.pc = x.pc + 8 ∧ y.park = .results ∧ y.ends = h.b ∧
        ∀ r, (t.wk.quarters.find (x.core * 4 + x.quarter)).map (·.run) = some r → r ≠ some s.md.cur) ∧
      (waits = false → h.b = true → t.wk.warps.find s.md.cur = none ∧
        (∀ r, (t.wk.quarters.find (x.core * 4 + x.quarter)).map (·.run) = some r → r ≠ some s.md.cur) ∧
        ∀ q ∈ activeLanes x, ∀ th, s.rg.threads.find (thKey x.gi q.2.hwarp q.2.hlane) = some th →
          ∃ th', t.rg.threads.find (thKey x.gi q.2.hwarp q.2.hlane) = some th' ∧ th'.stat = .frontier ∧
            th'.pc = if x.tail then th.pc else x.pc + 8)

/-- R358 to R360: BRA, CALL, BRX and RET send each taking lane's thread to its target at the priority given, the other active threads to
the word after the run; CALL leaves that address in its link pair. BRX and RET: where every target is an address of 55 bits and a
multiple of 8. The uniform forms: where the lanes agree. -/
def Obligations.BranchesSendEachThreadToItsTarget : Prop :=
  ∀ (s : State) (h : Hdr) (u : Bool) (prio : Fin 16),
    let x := s.curWarp
    let lanes := takingLanes s x h
    let agree := lanes = [] ∨ lanes = activeLanes x
    ((activeLanes x).map (fun q => thKey x.gi q.2.hwarp q.2.hlane)).Nodup →
    (u = true → agree) →
    (∀ off : BitVec 32,
      let target := x.pc + 8 * off.signExtend 64
      (∃ t, exec (.bra h u prio off) s = .next t ∧ Say.Steers s t h prio.val (fun _ => target) ∧ Say.SameRegs s t ∧ t.rg.p = s.rg.p) ∧
      ∀ link, ∃ t, exec (.call h u prio link off) s = .next t ∧ Say.Steers s t h prio.val (fun _ => target) ∧ t.rg.p = s.rg.p ∧
        Say.Dest s t h link 2 (fun _ _ v => v = (Say.afterRun x h).toNat)) ∧
    ∀ tgt : Reg,
      let target := fun (q : Nat × LaneEnt) => BitVec.ofNat 64 (srcVal s tgt 2 q.1 q.2)
      (∀ q ∈ lanes, (target q).toNat < 2 ^ 55 ∧ (target q).toNat % 8 = 0) → (u = true → ∀ q ∈ lanes, ∀ r ∈ lanes, target q = target r) →
      (∃ t, exec (.brx h u prio tgt) s = .next t ∧ Say.Steers s t h prio.val target ∧ Say.SameRegs s t ∧ t.rg.p = s.rg.p) ∧
      ∃ t, exec (.ret h u prio tgt) s = .next t ∧ Say.Steers s t h prio.val target ∧ Say.SameRegs s t ∧ t.rg.p = s.rg.p

/-- R361, R363 and R388: EXIT ends the taking lanes' threads: each is exited, or gone with its group; it stands in no k mask and in no lane of
the warp; memory, and every thread that the warp does not carry unless its group has ended, are as they were, but for records of open
regions, which EXIT may move on (R369). TRAP, and BRK where its
context has BREAK on, take their fault: for each home warp of taking lanes there is a stop with the code, the operand as DETAIL and the
word's address, which holds exactly those lanes at the word; no register changes. -/
def Obligations.ExitTrapAndBreakEndOrStopTheTakingLanes : Prop :=
  (∀ (s : State) (h : Hdr),
     let x := s.curWarp
     let lanes := takingLanes s x h
     let key := fun (q : Nat × LaneEnt) => thKey x.gi q.2.hwarp q.2.hlane
     lanes ≠ [] → ((activeLanes x).map key).Nodup →
     ∃ t, exec (.exit h) s = .next t ∧ t.mm.mem = s.mm.mem ∧ t.mm.spad = s.mm.spad ∧
       (∀ q ∈ lanes, (∀ th, t.rg.threads.find (key q) = some th → th.stat = .exited ∧ th.restart = {}) ∧
         (∀ k < 12, (kMask t x.gi q.2.hwarp k).getLsbD q.2.hlane = false) ∧
         ∀ y, t.wk.warps.find s.md.cur = some y → q ∉ activeLanes y) ∧
       (∀ k, (∀ q ∈ activeLanes x, k ≠ key q) → (k / 1024 = x.gi ∧ t.wk.groups.find x.gi = none) ∨
         (t.rg.threads.find k).map (fun y => ({ y with restart := {} }, y.restart.isOpen)) =
           (s.rg.threads.find k).map (fun y => ({ y with restart := {} }, y.restart.isOpen))) ∧
       ∀ k v, k / (32 * 192 * 32) ≠ x.gi → NMap.get v t.rg.v k = NMap.get v s.rg.v k) ∧
  ∀ (s : State) (h : Hdr) (code : BitVec 16),
    let x := s.curWarp
    let lanes := takingLanes s x h
    let stopped := fun (t : State) (c opc : Nat) => t.mm = s.mm ∧ t.rg.v = s.rg.v ∧ t.rg.s = s.rg.s ∧ t.rg.p = s.rg.p ∧ t.rg.k = s.rg.k ∧
      t.rg.sb = s.rg.sb ∧ ∀ hw ∈ homeWarps lanes,
        (t.hwarp (hwKey x.gi hw)).fifo = (s.hwarp (hwKey x.gi hw)).fifo.map (fun e => { e with uncommitted := [] }) ∧
        ∃ sid st y, t.wk.stops.find sid = some st ∧ st.gi = x.gi ∧ st.hwarp = hw ∧ st.info.code = c ∧ st.info.opc = opc ∧
          st.info.detail = code.setWidth 64 ∧ st.info.pc = x.pc ∧ t.wk.warps.find st.warp = some y ∧ y.park = .stopped sid ∧ y.pc = x.pc ∧
          activeLanes y = lanes.filter (fun q => q.2.hwarp = hw)
    (∃ t, exec (.trap h code) s = .next t ∧ stopped t 0x40 0x0B) ∧
    ((s.ctx (ctxOf s x)).brk = true → ∃ t, exec (.brk h code) s = .next t ∧ stopped t 0x41 0x0C)

/-- R364 to R366: JOIN and LEAVE set and clear the taking lanes' bits of mask k of their home warps; where the release condition then holds,
no warp of the group still waits on that mask. KWAIT, once its release at group scope is done: the arriving lanes of a home warp wait past
the word in a warp of their own while the mask is not covered; where it is, they go on and no warp of the group still waits on it. Lanes
that do not wait stay with the executing warp, which stands at the next word. -/
def Obligations.MaskWordsMoveBitsAndWaitUntilCovered : Prop :=
  (∀ (s : State) (h : Hdr) (k : Fin 12),
     let x := s.curWarp
     let lanes := takingLanes s x h
     let mine := fun (hw j : Nat) => lanes.any (fun q => q.2.hwarp == hw && q.2.hlane == j)
     let rest := fun (t : State) => Say.Calm s t ∧ t.cx = s.cx ∧ t.rg.hwarps = s.rg.hwarps ∧ t.wk.stops = s.wk.stops ∧
       (∀ c, (t.rg.threads.find c).map Say.seated = (s.rg.threads.find c).map Say.seated) ∧
       (∀ c, (∀ q ∈ lanes, c ≠ kKey x.gi q.2.hwarp k.val) → NMap.get 0 t.rg.k c = NMap.get 0 s.rg.k c) ∧
       ∀ hw ∈ homeWarps lanes, kHolds t x.gi hw k.val [] = true → ∀ id y, t.wk.warps.find id = some y → y.gi = x.gi →
         y.park = .kwait k.val false → ∀ q ∈ activeLanes y, q.2.hwarp ≠ hw
     (∃ t, exec (.join h k) s = .next t ∧ rest t ∧
       ∀ hw ∈ homeWarps lanes, ∀ j < 32, (kMask t x.gi hw k.val).getLsbD j = ((kMask s x.gi hw k.val).getLsbD j || mine hw j)) ∧
     ∃ t, exec (.leave h k) s = .next t ∧ rest t ∧
       ∀ hw ∈ homeWarps lanes, ∀ j < 32, (kMask t x.gi hw k.val).getLsbD j = ((kMask s x.gi hw k.val).getLsbD j && !mine hw j)) ∧
  ∀ (s : State) (h : Hdr) (k : Fin 12),
    let x := s.curWarp
    let lanes := takingLanes s x h
    let mine := fun hw => lanes.filter (fun q => q.2.hwarp = hw)
    let keys := lanes.map (fun q => thKey x.gi q.2.hwarp q.2.hlane)
    (∀ hw ∈ homeWarps lanes, (s.hwarp (hwKey x.gi hw)).fifo = []) → ownRequests s x.gi keys false = [] → heldLoads s x.gi keys = [] →
    ∃ t, exec (.kwait h k) s = .next t ∧ t.mm = s.mm ∧ t.xl = s.xl ∧ t.en = s.en ∧ t.fb = s.fb ∧ t.cx = s.cx ∧ Say.plainPart t.pt = Say.plainPart s.pt ∧
      t.rg.v = s.rg.v ∧ t.rg.s = s.rg.s ∧ t.rg.p = s.rg.p ∧ t.rg.k = s.rg.k ∧ t.rg.sb = s.rg.sb ∧
      (∀ w, t.wk.warps.find s.md.cur = some w → w.pc = x.pc + 8 ∧ ∀ q ∈ activeLanes x,
        (q ∈ lanes → ∀ id y, t.wk.warps.find id = some y → y.gi = x.gi → y.park = .kwait k.val false → q ∉ activeLanes y) →
        q ∈ activeLanes w) ∧
      ∀ hw ∈ homeWarps lanes,
        ((∃ id y, t.wk.warps.find id = some y ∧ y.park = .kwait k.val false ∧ activeLanes y = mine hw ∧ y.pc = x.pc + 8) ∧
          kHolds t x.gi hw k.val [] = false) ∨
        (kHolds s x.gi hw k.val ((mine hw).map (fun q => q.2.hlane)) = true ∧
          ∀ id y, t.wk.warps.find id = some y → y.gi = x.gi → y.park = .kwait k.val false → ∀ q ∈ activeLanes y, q.2.hwarp ≠ hw)

/-- R63 and R368: RGN opens a region in every taking lane's thread and records the word after it; TRL leaves its registers to be awaited
by later runs of its home warps and ends the run. -/
def Obligations.RegionsAndTrailers : Prop :=
  ∀ (s : State) (h : Hdr),
    let x := s.curWarp
    let lanes := takingLanes s x h
    ((∀ q ∈ lanes, warpOfThread s x.gi q.2.hwarp q.2.hlane = some (s.md.cur, x) ∧ q.2.hlane < 32) → x.tail = false →
      ∃ t, exec (.rgn h) s = .next t ∧ Say.Calm s t ∧ t.cx = s.cx ∧ t.rg.k = s.rg.k ∧ ∀ q ∈ lanes, ∀ th,
        t.rg.threads.find (thKey x.gi q.2.hwarp q.2.hlane) = some th →
          th.restart.isOpen = true ∧ th.restart.pc = x.pc + 8 ∧ th.restart.count = x.count + x.wordN ∧
            th.restart.named = x.named ||| x.wordNamed) ∧
    (∀ w r0 r1 r2 r3, ∃ t, exec (.trl w r0 r1 r2 r3) s = .next t ∧ Say.Calm s t ∧ t.cx = s.cx ∧ t.rg.k = s.rg.k ∧
      (∀ k, (t.rg.threads.find k).map Say.seated = (s.rg.threads.find k).map Say.seated) ∧
      (∀ hw ∈ homeWarps (activeLanes x), (t.hwarp (hwKey x.gi hw)).fifo = (s.hwarp (hwKey x.gi hw)).fifo ∧
        ∀ r, (r ∈ (t.hwarp (hwKey x.gi hw)).awaited ↔ r ∈ (s.hwarp (hwKey x.gi hw)).awaited ∨
          ∃ g ∈ [r0, r1, r2, r3], (∃ n : Fin 192, g = some (.v n) ∧ r = n.val) ∨ ∃ n : Fin 48, g = some (.s n) ∧ r = 192 + n.val)) ∧
      ((w && pendingFor s x.gi (warpThreads x)) = false → t.wk.warps.find s.md.cur = none))

/-- R54, R55, R222, R240 and R244: both halves of a dual word read before either writes; each taking lane of a half writes its value to the
half's destination. -/
def Obligations.DualWordsReadBothHalvesFirst : Prop :=
  ∀ (s : State) (b w : Bool) (hx hy : Half),
    let x := s.curWarp
    let lanes := fun (z : Half) => takingLanes s x ⟨false, false, false, z.g⟩
    let val := fun (z : Half) (q : Nat × LaneEnt) => wordOf (halfVal z.op z.m (srcVal s z.d 1 q.1 q.2)
      (match z.a with | some r => srcVal s r 1 q.1 q.2 | none => 0)) 0
    let free := fun (z : Half) (k : Nat) => ∀ n : Fin 192, z.d = .v n → ∀ q ∈ lanes z, k ≠ vKey x.gi q.2.hwarp n.val q.2.hlane
    let sole := fun (z : Half) (n : Fin 192) (q : Nat × LaneEnt) => ∀ r ∈ lanes z, r.1 ≠ q.1 →
      vKey x.gi r.2.hwarp n.val r.2.hlane ≠ vKey x.gi q.2.hwarp n.val q.2.hlane
    ∃ t, exec (.dualWord b w hx hy) s = .next t ∧ Say.Kept Say.seated s t ∧ t.rg.p = s.rg.p ∧
      (∀ n, hy.d = .v n → ∀ q ∈ lanes hy, sole hy n q → NMap.get 0 t.rg.v (vKey x.gi q.2.hwarp n.val q.2.hlane) = val hy q) ∧
      (∀ n, hx.d = .v n → ∀ q ∈ lanes hx, sole hx n q → free hy (vKey x.gi q.2.hwarp n.val q.2.hlane) →
        NMap.get 0 t.rg.v (vKey x.gi q.2.hwarp n.val q.2.hlane) = val hx q) ∧
      (∀ k, free hx k → free hy k → NMap.get 0 t.rg.v k = NMap.get 0 s.rg.v k) ∧
      (∀ n, hy.d = .s n → ∀ q ∈ lanes hy, Say.highest (lanes hy) q → NMap.get 0 t.rg.s (sKey x.gi n.val) = val hy q) ∧
      (∀ n, hx.d = .s n → hy.d ≠ .s n → ∀ q ∈ lanes hx, Say.highest (lanes hx) q → NMap.get 0 t.rg.s (sKey x.gi n.val) = val hx q) ∧
      (∀ k, (∀ n : Fin 48, (hx.d = .s n ∨ hy.d = .s n) → k ≠ sKey x.gi n.val) → NMap.get 0 t.rg.s k = NMap.get 0 s.rg.s k) ∧
      ∀ y, t.wk.warps.find s.md.cur = some y →
        (∀ n, hy.d = .t n → ∀ q ∈ lanes hy, NMap.get 0 y.temps (q.1 * 8 + n.val) = val hy q) ∧
        (∀ n, hx.d = .t n → hy.d ≠ .t n → ∀ q ∈ lanes hx, NMap.get 0 y.temps (q.1 * 8 + n.val) = val hx q)


/-! ### Memory words (chapter 06) -/

/-- R64, R66, R148, R153, R159, R161: LD, LDS and LDC, where no lane is stopped or delayed: each taking lane's value is in flight to its
thread's register, narrow values zero-extended, and the counter has risen once in each of their home warps. LDS reads each lane's
own latest store, else its scratchpad; LDC the constants' bytes in memory, or as the core's constant cache holds them; LD, shown for
a sole lane: its own latest store, else the L1's word, or memory's where the L1 has none or the load is made at a wider scope and
the word there is not the core's own. -/
def Obligations.LoadsPutTheirValuesInFlight : Prop :=
  ∀ (s : State) (h : Hdr) (d : Reg) (m : MemOp),
    let x := s.curWarp
    let lanes := takingLanes s x h
    let bytes := widthBytes m.width
    let ea := fun (q : Nat × LaneEnt) => memEa s m bytes q.1 q.2
    let homes := homeWarps lanes
    let wide := m.ord && m.scope != .grp
    let sent := fun (t : State) (q : Nat × LaneEnt) (byte : Nat → Byte → Prop) => ∀ n : Fin 192, d = .v n → ∃ l : List Byte,
      l.length = bytes ∧ (∀ i < bytes, byte i (l.getD i 0)) ∧ Say.InFlight t x.gi q.2.hwarp q.2.hlane n.val (wordsOf l)
    let rest := fun (t : State) => Say.Quiet s t ∧ Say.Onward Say.seated s t ∧ Say.Counted s t x.gi m.sbc homes ∧ t.rg.hwarps = s.rg.hwarps
    Say.CounterRoom s x.gi m.sbc homes → Say.Settled s x.gi (lanes.map (fun q => thKey x.gi q.2.hwarp q.2.hlane)) →
    (∀ tr : Nat → Xl, (∀ q ∈ lanes, Say.Through s x .read bytes (ea q) (tr q.1) ∧ ((tr q.1).ty = .page ∨ (tr q.1).ty = .rxWin) ∧
        (tr q.1).pa % 128 = ea q % 128 ∧ corePoisoned s x.core (tr q.1).pa = false ∧ llcPoisoned s (tr q.1).pa = false ∧
        Say.LineFree s x.core ((tr q.1).pa / 128) ∧ (wide = true → Say.NoDrop s x.core ((tr q.1).pa / 128))) →
      ∃ t, exec (.ld h d m) s = .next t ∧ rest t ∧ Say.MemKept s t x.core ∧ (∀ q ∈ lanes, sent t q (fun _ _ => True)) ∧
        ∀ q, guardedLanes s x h = [q] → lanes = [q] → sent t q (fun i b => Say.LoadByte s x q.2.hwarp q.2.hlane bytes wide ((tr q.1).pa + i) b)) ∧
    ((∀ q ∈ lanes, Say.SpadReady s x bytes (ea q) true) →
      ∃ t, exec (.lds h d m) s = .next t ∧ rest t ∧ t.mm = s.mm ∧ ∀ q ∈ lanes, sent t q (fun i b =>
        b = match ownByte (s.hwarp (hwKey x.gi q.2.hwarp)).fifo q.2.hlane (spadHit ((s.group x.gi).spBase + ea q + i)) with
          | some o => o
          | none => spadByte s x.core ((s.group x.gi).spBase + ea q + i))) ∧
    ∀ tr : Nat → Xl,
      let gr := s.grid (s.group x.gi).grid
      let va := fun (q : Nat × LaneEnt) => (gr.const + ea q) % 2 ^ 64
      gr.const % 64 = 0 → (∀ q ∈ lanes, ea q + bytes ≤ gr.constBytes ∧ ea q % bytes = 0 ∧ Say.ConstReady s x (va q) (tr q.1)) →
      ∃ t, exec (.ldc h d m) s = .next t ∧ rest t ∧ t.mm.mem = s.mm.mem ∧
        ∀ q ∈ lanes, sent t q (fun i b => Say.ConstByte s x (va q) (tr q.1) i b)

/-- R154, R157, R158 to R160, R162, R369: ST, STS, STSC and LDSC, where no lane is stopped or delayed, put one entry into the store FIFO
of each home warp that supplies a taking lane: every lane's bytes at its address, uncommitted for lanes inside an open region
unless the store is ordered or had found a FIFO full. Entries of several home warps share an identity, so that they are performed
together. STSC stores at the first taking lane's address, for every lane, that lane's data. Memory, scratchpad and registers are as they were. -/
def Obligations.StoresEnterTheStoreFifo : Prop :=
  ∀ (s : State) (h : Hdr) (d : Reg) (m : MemOp),
    let x := s.curWarp
    let g := s.group x.gi
    let lanes := takingLanes s x h
    let bytes := widthBytes m.width
    let wide := m.ord && m.scope != .grp
    let ea := fun (q : Nat × LaneEnt) => memEa s m bytes q.1 q.2
    let homes := homeWarps lanes
    let keys := lanes.map (fun q => thKey x.gi q.2.hwarp q.2.hlane)
    let data := fun (q : Nat × LaneEnt) (i : Nat) => BitVec.ofNat 8 (srcVal s d ((bytes + 3) / 4) q.1 q.2 / 256 ^ i)
    let openLanes := fun (hw : Nat) => (lanes.filter (fun q => q.2.hwarp = hw && (s.thread (thKey x.gi hw q.2.hlane)).restart.isOpen)).map
      (fun q => q.2.hlane)
    let entered := fun (t : State) (ord : Bool) (hint : Nat) (rel : Bool) (put : Nat × LaneEnt → Nat → FWrite) => ∃ sync : Option Nat,
      (sync.isSome = true ↔ 2 ≤ homes.length) ∧ ∀ hw ∈ homes, ∃ e l,
      (t.hwarp (hwKey x.gi hw)).fifo = l ++ [e] ∧ l.map (·.writes) = (s.hwarp (hwKey x.gi hw)).fifo.map (·.writes) ∧
      (∀ f, f ∈ e.writes ↔ ∃ q ∈ lanes, q.2.hwarp = hw ∧ ∃ i < bytes, f = put q i) ∧ e.hint = hint ∧ e.rel = rel ∧
      (ord = false → x.foundFull = false → (∀ j, j ∈ e.uncommitted ↔ j ∈ openLanes hw) ∧ l = (s.hwarp (hwKey x.gi hw)).fifo) ∧
      (ord = true ∨ x.foundFull = true → e.uncommitted = []) ∧ e.sync = sync
    let rest := fun (t : State) => Say.Quiet s t ∧ t.mm.mem = s.mm.mem ∧ Say.Onward Say.bare s t
    (∀ hw ∈ homes, (s.hwarp (hwKey x.gi hw)).fifo.length < 64) → Say.Settled s x.gi keys →
    (∀ tr : Nat → Xl, Say.CounterRoom s x.gi m.sbc homes → (∀ q ∈ lanes, Say.Through s x .write bytes (ea q) (tr q.1) ∧
        (if (tr q.1).ty = .txWin then txCheck s (ctxOf s x) (tr q.1) false = none else storable s (tr q.1) = true)) →
      (wide = true → Say.Released s x) →
      ∃ t, exec (.st h d m) s = .next t ∧ rest t ∧ Say.Counted s t x.gi m.sbc homes ∧
        entered t m.ord (hintNum m.hint) wide (fun q i =>
          ⟨q.2.hlane, if (tr q.1).ty = .txWin then .tx (tr q.1).key else .mem (ctxOf s x) (ea q / 2 ^ 16), (tr q.1).pa + i, data q i⟩)) ∧
    (Say.CounterRoom s x.gi m.sbc homes → (∀ q ∈ lanes, Say.SpadReady s x bytes (ea q) false) →
      ∃ t, exec (.sts h d m) s = .next t ∧ rest t ∧ Say.Counted s t x.gi m.sbc homes ∧
        entered t m.ord 0 false (fun q i => ⟨q.2.hlane, .spad, g.spBase + ea q + i, data q i⟩)) ∧
    (∀ q0 l, lanes = q0 :: l → Say.CounterRoom s x.gi none homes → Say.SpadReady s x bytes (ea q0) false →
      ∃ t, exec (.stsc h d m) s = .next t ∧ rest t ∧ t.rg.sb = s.rg.sb ∧
        entered t false 0 false (fun q i => ⟨q.2.hlane, .spad, g.spBase + ea q0 + i, data q0 i⟩)) ∧
    ∀ (o : Reg) (tr : Nat → Xl),
      let gr := s.grid g.grid
      let off := fun (q : Nat × LaneEnt) => srcVal s o 1 q.1 q.2
      let va := fun (q : Nat × LaneEnt) => (gr.const + ea q) % 2 ^ 64
      Say.CounterRoom s x.gi m.sbc homes → gr.const % 64 = 0 →
      (∀ q ∈ lanes, ea q + bytes ≤ gr.constBytes ∧ ea q % bytes = 0 ∧ Say.ConstReady s x (va q) (tr q.1) ∧ Say.SpadReady s x bytes (off q) false) →
      ∃ t, exec (.ldsc h o m) s = .next t ∧ rest t ∧ Say.Counted s t x.gi m.sbc homes ∧ ∃ byte : Nat × LaneEnt → Nat → Byte,
        entered t false 0 false (fun q i => ⟨q.2.hlane, .spad, g.spBase + off q + i, byte q i⟩) ∧
        ∀ q ∈ lanes, ∀ i < bytes, Say.ConstByte s x (va q) (tr q.1) i (byte q i)

/-- R163 and R164: PREF brings the line of a sole lane whose translation stands into its core's L1; the CCTL forms act on the lines that
their lanes name: .wb sends their dirty words to the directory and awaits them, .inv drops their words neither owned nor dirty,
.ivc, .ivc.all and .ivi.all drop lines of the core's constant and instruction caches. -/
def Obligations.CacheControlActsOnTheNamedLines : Prop :=
  ∀ (s : State) (h : Hdr) (m : MemOp),
    let x := s.curWarp
    let lanes := takingLanes s x h
    let ea := fun (q : Nat × LaneEnt) => memEa s m 1 q.1 q.2
    let rest := fun (t : State) => Say.Quiet s t ∧ t.rg.hwarps = s.rg.hwarps ∧ t.rg.sb = s.rg.sb ∧ Say.Onward Say.seated s t
    let code := fun (c : Nat × CodeLine) => c.1 / 2 ^ 41 = x.core ∧ c.2.obj = objOf s x
    (∃ t, exec (.pref h m) s = .next t ∧ rest t ∧ ∀ q tr, lanes = [q] → Say.Through s x .read 1 (ea q) tr → tr.ty = .page →
        Say.LineFree s x.core (tr.pa / 128) →
      Say.MemKept s t x.core ∧ (m.hint ≠ .bypass → ∀ i < 32, (l1Word t x.core (tr.pa / 128 * 128 + 4 * i)).isSome = true) ∧
        (m.hint = .bypass → (t.mm.llc.find (tr.pa / 128)).isSome = true)) ∧
    (∀ tr : Nat → Xl, (∀ q ∈ lanes, Say.Through s x .read 1 (ea q) (tr q.1)) →
      Say.Settled s x.gi (lanes.map (fun q => thKey x.gi q.2.hwarp q.2.hlane)) →
      let mine := fun (line : Nat) => ∃ q ∈ lanes, ((tr q.1).ty = .page ∨ (tr q.1).ty = .rxWin) ∧ line = (tr q.1).pa / 128
      let clean := ∀ line, mine line → ∀ w ∈ (l1Line s x.core line).words, w.2.dirty = false
      let apart := ∀ d ∈ s.mm.dirItems, ¬(d.2.evicted = true ∧ d.2.core = x.core ∧ mine d.2.line)
      let drained := ∀ hw ∈ homeWarps lanes, (s.hwarp (hwKey x.gi hw)).fifo = []
      (x.phase ≠ 0 ∨ (drained ∧ clean ∧ apart) → ∃ t, exec (.cctlWb h m) s = .next t ∧ Say.Quiet s t ∧ t.mm.mem = s.mm.mem ∧ t.mm.l1 = s.mm.l1 ∧
        t.rg.sb = s.rg.sb ∧ Say.Onward Say.bare s t) ∧
      (x.phase = 0 → drained → ¬clean → s.wk.warps.find s.md.cur = some x → ∃ t y ids, exec (.cctlWb h m) s = .next t ∧
        t.wk.warps.find s.md.cur = some y ∧ y.park = .items ids ∧ y.pc = x.pc ∧ t.mm.mem = s.mm.mem ∧
        ∀ line, mine line → ∀ w ∈ (l1Line s x.core line).words, w.2.dirty = true → ∃ id ∈ ids, ∃ it, t.mm.dirItems.find id = some it ∧
          it.core = x.core ∧ it.line = line ∧ ∃ dw ∈ it.words, dw.i = w.1 ∧ dw.val = w.2.val) ∧
      ∃ t, exec (.cctlInv h m) s = .next t ∧ rest t ∧ t.mm.mem = s.mm.mem ∧
        (∀ line, mine line → (∀ w ∈ (l1Line t x.core line).words, w.2.owned = true ∨ w.2.dirty = true) ∧
          ∀ w ∈ (l1Line s x.core line).words, (w.2.owned = true ∨ w.2.dirty = true) → w ∈ (l1Line t x.core line).words) ∧
        ∀ k, (∀ line, mine line → k ≠ l1Key x.core line) → NMap.get {} t.mm.l1 k = NMap.get {} s.mm.l1 k) ∧
    (let gr := s.grid (s.group x.gi).grid
     (∀ q ∈ lanes, ea q < gr.constBytes) → ∃ t, exec (.cctlIvc h m) s = .next t ∧ rest t ∧ t.mm.mem = s.mm.mem ∧ t.mm.l1 = s.mm.l1 ∧
       ∀ c, c ∈ t.mm.ccache ↔ c ∈ s.mm.ccache ∧ ¬(code c ∧ ∃ q ∈ lanes, c.2.vline = (gr.const + ea q) % 2 ^ 64 / 128)) ∧
    (∃ t, exec (.cctlIvcAll h) s = .next t ∧ rest t ∧ t.mm.mem = s.mm.mem ∧ t.mm.l1 = s.mm.l1 ∧ t.mm.icache = s.mm.icache ∧
      ∀ c, c ∈ t.mm.ccache ↔ c ∈ s.mm.ccache ∧ ¬(lanes ≠ [] ∧ code c)) ∧
    ∃ t, exec (.cctlIviAll h) s = .next t ∧ rest t ∧ t.mm.mem = s.mm.mem ∧ t.mm.l1 = s.mm.l1 ∧ t.mm.ccache = s.mm.ccache ∧
      ∀ c, c ∈ t.mm.icache ↔ c ∈ s.mm.icache ∧ ¬(lanes ≠ [] ∧ code c)

/-- R120, R157, R165 and R344: a FENCE with nothing left to wait for completes: a release changes no memory; an acquire settles the
lanes' pending loads and, at a scope wider than the group, drops every word of the core's L1 that is neither owned nor dirty, after
the drops on their way to the core. A
release whose home warps' store FIFOs are not empty commits and parks the warp at the fence. -/
def Obligations.FencesOrderEarlierAccesses : Prop :=
  ∀ (s : State) (h : Hdr) (sc : Scope),
    let x := s.curWarp
    let lanes := takingLanes s x h
    let keys := lanes.map (fun q => thKey x.gi q.2.hwarp q.2.hlane)
    let rest := fun (t : State) => Say.Quiet s t ∧ Say.Onward Say.bare s t ∧ t.rg.sb = s.rg.sb ∧ t.mm.mem = s.mm.mem ∧ t.mm.llc = s.mm.llc
    let acquired := fun (t : State) =>
      (∀ r ∈ t.wk.results, r.2.gi = x.gi → r.2.known = true → ∀ l ∈ r.2.lanes, thKey x.gi r.2.hwarp l.lane ∈ keys → l.src = .fixed) ∧
      (lanes ≠ [] → Say.Acquired s t x.core sc)
    let released := if sc = .grp then x.phase ≠ 0 ∨ ∀ hw ∈ homeWarps lanes, (s.hwarp (hwKey x.gi hw)).fifo = [] else Say.Released s x
    let busy := (if sc = .grp then homeWarps lanes else warpHomes x).filter (fun hw => (s.hwarp (hwKey x.gi hw)).fifo != [])
    let waits := fun (i : Instr) => ∃ t y, exec i s = .next t ∧ t.wk.warps.find s.md.cur = some y ∧ y.pc = x.pc ∧ y.park = .fifo busy ∧
      t.mm = s.mm ∧ ∀ hw ∈ homeWarps lanes, ∀ e ∈ (t.hwarp (hwKey x.gi hw)).fifo, e.uncommitted = []
    (Say.Settled s x.gi keys →
      (∃ t, exec (.fenceAcq h sc) s = .next t ∧ rest t ∧ acquired t) ∧
      (released → ∃ t, exec (.fenceRel h sc) s = .next t ∧ rest t ∧ t.mm.l1 = s.mm.l1) ∧
      (released → ∃ t, exec (.fenceAcqrel h sc) s = .next t ∧ rest t ∧ acquired t)) ∧
    (x.phase = 0 → lanes ≠ [] → busy ≠ [] → s.wk.warps.find s.md.cur = some x → waits (.fenceRel h sc) ∧ waits (.fenceAcqrel h sc))

/-- R140, R151 and R166: PRSET makes the lines that its lanes name present, PRCLR absent, their counts kept; PRTST reads a line's
state as P + 2Q + 4N. -/
def Obligations.PresenceWordsActOnTheirLines : Prop :=
  ∀ (s : State) (h : Hdr) (d : Reg) (m : MemOp),
    let x := s.curWarp
    let g := s.group x.gi
    let lanes := takingLanes s x h
    let ea := fun (q : Nat × LaneEnt) => memEa s m 1 q.1 q.2
    let line := fun (q : Nat × LaneEnt) => (g.spBase + ea q) / 128
    let rest := fun (t : State) => Say.Quiet s t ∧ t.rg.hwarps = s.rg.hwarps ∧ t.rg.sb = s.rg.sb ∧ Say.Onward Say.seated s t ∧
      t.mm.mem = s.mm.mem ∧ t.mm.l1 = s.mm.l1 ∧
      ∀ k, (∀ q ∈ lanes, k ≠ x.core * 4096 + line q) → NMap.get {} t.mm.presence k = NMap.get {} s.mm.presence k
    (∀ q ∈ lanes, ea q < g.scratch) →
    (spadEntries s x.gi lanes = [] → Say.Settled s x.gi (lanes.map (fun q => thKey x.gi q.2.hwarp q.2.hlane)) →
      (∃ t, exec (.prset h m) s = .next t ∧ rest t ∧ ∀ q ∈ lanes,
        presenceOf t x.core (line q) = { p := true, q := false, n := (presenceOf s x.core (line q)).n }) ∧
      ∃ t, exec (.prclr h m) s = .next t ∧ rest t ∧ ∀ q ∈ lanes,
        presenceOf t x.core (line q) = { p := false, q := false, n := (presenceOf s x.core (line q)).n }) ∧
    Say.RunsReg (.prtst h d m) s h d 1 (fun p e v =>
      let y := presenceOf s x.core (line (p, e))
      v = y.p.toNat + 2 * y.q.toNat + 4 * (y.n % 16))

/-! ### Atomics and barriers (chapters 15 and 08) -/

/-- R296, R298 to R304: ATOM, ATOMCAS and RED on global memory send each taking lane's request once their stores are drained, or their
release is done; with ORD the warp waits for its requests (phase 2) and then acquires. On the scratchpad each lane's operation is
performed at once: the word takes its new value, the old one is in flight to the lane's register. -/
def Obligations.AtomicsAreRequestedOrPerformed : Prop :=
  ∀ (s : State) (h : Hdr) (d y : Reg) (m : AtomMem),
    let x := s.curWarp
    let lanes := takingLanes s x h
    let bytes := widthBytes m.width
    let n := bytes / 4
    let dest := match d with | .v k => some k.val | _ => none
    let ea := atomEa s m
    let homes := homeWarps lanes
    let two := fun (p : Nat) (e : LaneEnt) => srcVal s y (2 * n) p e
    let each := fun (f : Instr → (Nat → LaneEnt → SvcKind × Nat) → Option Nat → Prop) =>
      (∀ op, f (.atom h d y op m) (fun p e => (.atom op, srcVal s y n p e)) dest) ∧
      f (.atomcas h d y m) (fun p e => (.cas (two p e % 2 ^ (32 * n)), two p e / 2 ^ (32 * n))) dest ∧
      ∀ op, f (.red h y op m) (fun p e => (.red op, srcVal s y n p e)) none
    (m.spad = false → x.phase = 2 → each (fun i _ _ => ∃ t, exec i s = .next t ∧ Say.Quiet s t ∧ Say.Onward Say.seated s t ∧
      t.mm.mem = s.mm.mem ∧ Say.Acquired s t x.core m.scope)) ∧
    (m.spad = false → x.phase ≠ 2 → s.wk.warps.find s.md.cur = some x → ∀ tr : Nat → Xl, Say.Askable s x lanes bytes ea tr m.sbc →
      Say.Ordered s x lanes m.ord m.scope → each (fun i mk dst => ∃ t ids, exec i s = .next t ∧ Say.Quiet s t ∧ Say.MemKept s t x.core ∧
        Say.Counted s t x.gi m.sbc homes ∧
        (∀ q ∈ lanes, Say.Asked t x q (tr q.1).pa (8 * bytes) (mk q.1 q.2).1 (mk q.1 q.2).2 dst ids) ∧
        if m.ord = true ∧ lanes ≠ [] then ∃ z, t.wk.warps.find s.md.cur = some z ∧ z.pc = x.pc ∧ z.phase = 2 ∧ z.park = .items ids
        else Say.Onward Say.bare s t)) ∧
    (m.spad = true → Say.CounterRoom s x.gi m.sbc homes → (∀ q ∈ lanes, Say.SpadReady s x bytes (ea q.1 q.2) true) →
      Say.Ordered s x lanes m.ord .grp → Say.Settled s x.gi (lanes.map (fun q => thKey x.gi q.2.hwarp q.2.hlane)) →
      each (fun i mk dst => ∃ t, exec i s = .next t ∧ Say.QuietBut s t ∧ t.mm.mem = s.mm.mem ∧ Say.Counted s t x.gi m.sbc homes ∧
        Say.Onward Say.bare s t ∧
        (∀ k, (∀ q ∈ lanes, ∀ i < bytes, k ≠ spadKey x.core ((s.group x.gi).spBase + ea q.1 q.2 + i)) →
          NMap.get 0 t.mm.spad k = NMap.get 0 s.mm.spad k) ∧
        ((∀ q ∈ lanes, ∀ r ∈ lanes, q.1 ≠ r.1 → ea q.1 q.2 ≠ ea r.1 r.2) → ∀ q ∈ lanes,
          let a := (s.group x.gi).spBase + ea q.1 q.2
          let old := Say.spadNum s x.core a bytes
          Say.spadNum t x.core a bytes = ((svcVal (mk q.1 q.2).1 (8 * bytes) old (mk q.1 q.2).2).getD old) % 2 ^ (8 * bytes) ∧
          ∀ k, dst = some k → Say.InFlight t x.gi q.2.hwarp q.2.hlane k ((List.range n).map (wordOf old)))))

/-- R296, R304, R308, R310, R311: BSIG, once its release is done, sends its lanes' adds and goes on; BWAIT sends its thresholds and parks
the warp until they are met, then acquires (phase 2); BPOLL asks for the objects' values and goes on, its request an acquire with ORD. -/
def Obligations.BarrierWordsAskTheirServiceWarps : Prop :=
  ∀ (s : State) (h : Hdr) (d y : Reg) (m : MemOp),
    let x := s.curWarp
    let lanes := takingLanes s x h
    let n := widthBytes m.width / 4
    let data := fun (q : Nat × LaneEnt) => srcVal s y n q.1 q.2
    let homes := homeWarps lanes
    let rest := fun (t : State) => Say.Quiet s t ∧ Say.MemKept s t x.core
    let wait := fun (t : State) (park : Park) => ∃ z, t.wk.warps.find s.md.cur = some z ∧ z.pc = x.pc ∧ z.phase = 2 ∧ z.park = park
    (x.phase = 2 → ∃ t, exec (.bwait h y m) s = .next t ∧ Say.Quiet s t ∧ Say.Onward Say.seated s t ∧
      t.mm.mem = s.mm.mem ∧ Say.Acquired s t x.core m.scope) ∧
    (x.phase ≠ 2 → s.wk.warps.find s.md.cur = some x → ∀ tr : Nat → Xl,
      (Say.Askable s x lanes 8 (memEa s m (4 * n)) tr m.sbc → Say.Ordered s x lanes true m.scope →
        ∃ t ids, exec (.bsig h y m) s = .next t ∧ rest t ∧ Say.Counted s t x.gi m.sbc homes ∧ Say.Onward Say.bare s t ∧
          ∀ q ∈ lanes, Say.Asked t x q (tr q.1).pa 64 .bsig (data q) none ids) ∧
      (Say.Askable s x lanes 8 (memEa s m (4 * n)) tr none →
        ∃ t ids, exec (.bwait h y m) s = .next t ∧ rest t ∧ t.rg.sb = s.rg.sb ∧
          (∀ q ∈ lanes, Say.Asked t x q (tr q.1).pa 64 .bwait (data q) none ids) ∧
          if lanes = [] then Say.Onward Say.seated s t else wait t (.bwait ids)) ∧
      (Say.Askable s x lanes 8 (memEa s m 8) tr m.sbc →
        ∃ t ids, exec (.bpoll h d m) s = .next t ∧ rest t ∧ Say.Counted s t x.gi m.sbc homes ∧
          (∀ q ∈ lanes, Say.Asked t x q (tr q.1).pa 64 .bpoll 0 (match d with | .v k => some k.val | _ => none) ids) ∧
          Say.Onward Say.seated s t ∧
          ∀ id ∈ ids, ∀ r, t.mm.svc.find id = some r → r.acq = m.ord ∧ r.wide = (m.ord && m.scope != .grp)))

/-- R188 and R189: STWAIT goes on where every taking lane's stage has its wanted phase, else parks the warp on the others; STFLIP, once
its release at group scope is done, toggles each header and stage that its lanes name, once, and lets warps go that wait for that
phase. Where their headers are valid and present. -/
def Obligations.ReelWordsWaitForAndFlipPhases : Prop :=
  ∀ (s : State) (h : Hdr) (stage : Reg) (m : MemOp),
    let x := s.curWarp
    let g := s.group x.gi
    let lanes := takingLanes s x h
    let off := fun (q : Nat × LaneEnt) => memEa s m 16 q.1 q.2
    let val := fun (q : Nat × LaneEnt) => srcVal s stage 1 q.1 q.2
    let header := fun (q : Nat × LaneEnt) => laneHeader s x.gi q.2.hwarp q.2.hlane (off q)
    (∀ q ∈ lanes, Say.SpadReady s x 16 (off q) true) →
    Say.Settled s x.gi (lanes.map (fun q => thKey x.gi q.2.hwarp q.2.hlane)) →
    (x.phase ≠ 2 → s.wk.warps.find s.md.cur = some x → (∀ q ∈ lanes, val q < 32 ∧ reelValid (header q) g.scratch (val q % 16) = true) →
      let meets := fun (q : Nat × LaneEnt) => reelPhase (header q) (val q % 16) = (val q).testBit 4
      ((∀ q ∈ lanes, meets q) → ∃ t, exec (.stwait h stage m) s = .next t ∧ Say.Quiet s t ∧ Say.Onward Say.seated s t ∧ t.mm = s.mm) ∧
      ((∃ q ∈ lanes, ¬meets q) → ∃ t z l, exec (.stwait h stage m) s = .next t ∧ Say.Quiet s t ∧ t.mm = s.mm ∧
        t.wk.warps.find s.md.cur = some z ∧ z.pc = x.pc ∧ z.phase = 2 ∧ z.park = .stwait l false ∧
        ∀ k, k ∈ l ↔ ∃ q ∈ lanes, ¬meets q ∧ k = (stageKey (off q) (val q % 16), (val q).testBit 4))) ∧
    (x.phase = 2 → ∃ t, exec (.stwait h stage m) s = .next t ∧ Say.Quiet s t ∧ Say.Onward Say.seated s t ∧ t.mm = s.mm) ∧
    (Say.Ordered s x lanes true .grp → (∀ q ∈ lanes, val q < 16 ∧ reelValid (reelHeader s x.gi (off q)) g.scratch (val q) = true) →
      let named := fun (hdr k : Nat) => ∃ q ∈ lanes, hdr = off q ∧ k = val q
      ∃ t, exec (.stflip h stage m) s = .next t ∧ Say.QuietBut s t ∧ t.mm.mem = s.mm.mem ∧
        (∀ hdr, (∃ k, named hdr k) → ∀ k < 16, (reelPhase (reelHeader t x.gi hdr) k ≠ reelPhase (reelHeader s x.gi hdr) k ↔ named hdr k)) ∧
        (∀ a, (∀ q ∈ lanes, a ≠ spadKey g.core (g.spBase + off q + 12) ∧ a ≠ spadKey g.core (g.spBase + off q + 13)) →
          NMap.get 0 t.mm.spad a = NMap.get 0 s.mm.spad a) ∧
        ∀ hdr k, named hdr k → ∀ id z l, t.wk.warps.find id = some z → z.gi = x.gi → z.park = .stwait l false →
          (stageKey hdr k, !reelPhase (reelHeader s x.gi hdr) k) ∉ l)

/-- R313: at GSYNC of group scope, once the release is done, the taking lanes go on with all that wait where every thread of the group has
exited, waits or arrives now; else they wait past the word in a warp of their own. At span scope each lane's arrival goes to the
service warp of the core's cove, and the lanes wait. -/
def Obligations.GsyncWaitsForEveryThread : Prop :=
  ∀ (s : State) (h : Hdr),
    let x := s.curWarp
    let lanes := takingLanes s x h
    let keys := lanes.map (fun q => thKey x.gi q.2.hwarp q.2.hlane)
    let complete := ∀ c ∈ s.rg.threads, c.1 / 1024 = x.gi → c.2.stat = .exited ∨ c.1 ∈ gsyncArrived s x.gi false ∨ c.1 ∈ keys
    let waits := fun (t : State) (span : Bool) => ∃ id y, t.wk.warps.find id = some y ∧ y.gi = x.gi ∧ y.park = .gsync span false ∧
      activeLanes y = lanes ∧ y.pc = x.pc + 8
    s.wk.warps.find s.md.cur = some x → lanes ≠ [] → Say.Settled s x.gi keys →
    (Say.Ordered s x lanes true .grp → ∃ t, exec (.gsync h false) s = .next t ∧ Say.Quiet s t ∧ t.mm = s.mm ∧
      (complete → ∀ w, t.wk.warps.find s.md.cur = some w → w.lanes = x.lanes ∧ w.pc = x.pc + 8) ∧
      (complete → ∀ id y, t.wk.warps.find id = some y → y.gi = x.gi → y.park ≠ .gsync false false) ∧ (¬complete → waits t false)) ∧
    (Say.Released s x → queueLen s (coveOf x.core) + lanes.length ≤ 1024 → ∃ t, exec (.gsync h true) s = .next t ∧ Say.Quiet s t ∧
      t.mm.mem = s.mm.mem ∧ t.mm.l1 = s.mm.l1 ∧ waits t true ∧ ∀ q ∈ lanes, ∃ id r, t.mm.svc.find id = some r ∧ r.kind = .gsync ∧
        r.cove = x.core / 8 ∧ r.gi = x.gi ∧ r.hwarp = q.2.hwarp ∧ r.lane = q.2.hlane)

/-! ### Copies (chapter 08) -/

/-- R168, R171, R173 to R175: a copy word whose checks pass, with room in the engine and nothing left to wait for, puts its command into
its core's engine with the operands of the taking lane of lowest home lane, and the counter rises once in each taking lane's home
warp. A scratchpad destination: each of its lines is cleared, and the warp goes on. A destination in memory: each of its lines is
claimed, and the warp waits for the acknowledgements (phase 2), then goes on. Shown for commands that move something. -/
def Obligations.CopyWordsQueueTheirCommand : Prop :=
  ∀ (s : State) (h : Hdr) (c : CopyOp) (k : CopyKind),
    let x := s.curWarp
    let lanes := takingLanes s x h
    let word : Instr := match k with
      | .lin => .cpy h c | .rows => .cpy2d h c | .gather => .cpyg h c | .scatter => .cpys h c | .fill => .cpyf h c
    let rest := fun (t : State) => Say.Quiet s { t with en := s.en } ∧ t.mm.mem = s.mm.mem
    (x.phase = 2 → lanes ≠ [] → ∃ t, exec word s = .next t ∧ rest t ∧ t.en = s.en ∧ Say.Onward Say.seated s t) ∧
    ∀ (q : Nat × LaneEnt) (rg : Nat) (idx : List Int), x.phase ≠ 2 → leaderOf lanes = some q → s.wk.warps.find s.md.cur = some x →
      let size := fun (i : Nat) => srcVal s c.size (if k = .lin ∨ k = .fill then 1 else 4) q.1 q.2 / 2 ^ (32 * i) % 2 ^ 32
      let src := srcVal s c.src (if k = .fill ∨ c.ssp = true then 1 else 2) q.1 q.2
      let dst := srcVal s c.dst (if c.dsp = true then 1 else 2) q.1 q.2
      let freg := match c.fin with
        | .none => 0
        | .flip r => srcVal s r 1 q.1 q.2
        | .add r => srcVal s r 2 q.1 q.2
      let fin : FinAct := match c.fin with
        | .none => .none
        | .flip _ => .flip rg (freg % 2 ^ 19) (freg / 2 ^ 20 % 16)
        | .add _ => .add freg
      let moves : Moves := match k with
        | .lin => .linear (size 0)
        | .fill => .fill (BitVec.ofNat 32 src) (size 0)
        | .rows => .rows (size 0) (size 1) (signed32 (size 2)) (signed32 (size 3))
        | .gather => .gather (size 0) (signed32 (size 2)) idx
        | .scatter => .scatter (size 0) (signed32 (size 2)) idx
      let opc := match k with | .lin => 0xB0 | .rows => 0xB1 | .gather => 0xB2 | .scatter => 0xB3 | .fill => 0xB4
      let cmd : Cmd := { gi := x.gi, ctx := ctxOf s x, core := x.core, opc := opc, pc := x.pc, moves := moves, src := src, dst := dst,
                         ssp := c.ssp, dsp := c.dsp, gran := c.gran.val, fin := fin, hwarp := q.2.hwarp }
      let quad := srcVal s c.size (if k = .lin ∨ k = .fill then 1 else 4) q.1 q.2
      Say.CounterRoom s x.gi c.sbc (homeWarps lanes) → engineFull s x.core x.gi = false →
      (∀ hw ∈ warpHomes x, ∀ e ∈ (s.hwarp (hwKey x.gi hw)).fifo, ∀ f ∈ e.writes, f.dest ≠ .spad) →
      (if (c.dsp || match c.fin with | .flip _ => false | _ => true) = true then rg = x.gi
       else dst < 2 ^ 55 ∧ ∃ tr, tlbFind s x.core (ctxOf s x) (dst / 2 ^ 16) .engWrite = some tr ∧
         (if tr.ty = .onChip then (∃ hw reg, onchipPlace s x.gi (tr.pa + dst % 2 ^ 16) = some (.row rg hw reg)) ∨
            ∃ line, onchipPlace s x.gi (tr.pa + dst % 2 ^ 16) = some (.spad rg line)
          else rg = x.gi)) →
      checkCopy s x.gi rg ⟨k, quad, src, dst, c.ssp, c.dsp, c.fin, freg⟩ = .ok idx →
      (c.rel = true → Say.Released s x) →
      (∃ g ∈ moves.segs, g.n ≠ 0) →
      ((k = .gather ∨ k = .scatter) → idx = (List.range (size 1)).map (fun i =>
        signed32 (Say.spadNum s (s.group x.gi).core ((s.group x.gi).spBase + size 3 + 4 * i) 4))) ∧
      ∀ pa, Say.CmdReady s cmd pa → ∃ t, exec word s = .next t ∧ rest t ∧ Say.CmdIssued s t x lanes c.sbc cmd pa

/-- R183 and R184: WAITSB goes on where the counter of every home warp that supplies a taking lane is at most n, else parks the warp at it
until they are; CPYQ reads the group's commands in the engine, the sticky fault bit and the room left, and clears the bit if asked. -/
def Obligations.CounterWaitsAndEngineStatus : Prop :=
  ∀ (s : State) (h : Hdr),
    let x := s.curWarp
    let lanes := takingLanes s x h
    (∀ (c : Fin 6) (n : Fin 64),
      ((∀ q ∈ lanes, sbOf s x.gi q.2.hwarp c.val ≤ n.val) → ∃ t, exec (.waitsb h c n) s = .next t ∧ Say.Kept Say.seated s t ∧
        Say.SameRegs s t ∧ t.rg.p = s.rg.p) ∧
      (s.wk.warps.find s.md.cur = some x → (∃ q ∈ lanes, n.val < sbOf s x.gi q.2.hwarp c.val) → ∃ t z, exec (.waitsb h c n) s = .next t ∧
        t.mm = s.mm ∧ t.rg = s.rg ∧ t.wk.warps.find s.md.cur = some z ∧ z.pc = x.pc ∧ z.park = .waitsb c.val n.val (homeWarps lanes) ∧
        ∀ y, (t.wk.quarters.find (x.core * 4 + x.quarter)).map (·.run) = some y → y ≠ some s.md.cur)) ∧
    ∀ (d : Reg) (clr : Bool),
      let all := (engineCmds s x.core).length
      let mine := (engineCmds s x.core).countP (fun c => c.2.gi = x.gi)
      ∃ t, exec (.cpyq h d clr) s = .next t ∧ Say.Quiet { s with rg := t.rg } t ∧ t.rg.p = s.rg.p ∧ t.rg.k = s.rg.k ∧ t.rg.hwarps = s.rg.hwarps ∧
        t.mm = s.mm ∧
        Say.Dest s t h d 1 (fun _ _ v => v = mine + 128 * (s.group x.gi).sticky.toNat + 256 * (64 - all)) ∧
        (t.wk.groups.find x.gi).map (·.sticky) = (s.wk.groups.find x.gi).map (fun g => g.sticky && !(clr && lanes != []))

/-! ### Matrix words (chapter 14) -/

/-- R274 to R277: MXA, MXB, MXSHP and MXSPM set their part of the group's staging from the leader lane's operands, where an array is
granted and a shape lies in its range; nothing else changes. -/
def Obligations.MatrixStagingTakesTheLeadersOperands : Prop :=
  ∀ (s : State) (h : Hdr) (q : Nat × LaneEnt) (v : ArrView) (base stride : Reg),
    let x := s.curWarp
    let val := fun (r : Reg) (n : Nat) => srcVal s r n q.1 q.2
    let addr := fun (r : Reg) (sp : Bool) => val r (if sp = true then 1 else 2)
    leaderOf (takingLanes s x h) = some q → arrayOf s (ctxOf s x) x.core = some v →
    let stages := fun (i : Instr) (f : Staging → Staging) => ∃ t, exec i s = .next t ∧ t.en = s.en ∧ t.rg.s = s.rg.s ∧
      Say.GroupOnly (fun g => { g with stg := f g.stg }) s t
    (∀ sp fmt c z, stages (.mxa h base stride sp fmt c z) (fun g => { g with
      a := ⟨true, addr base sp, val stride 1, sp, match fmt with | .f16 => 0 | .bf16 => 1 | .b8 => 2 | .b4 => 3, c, z.val⟩ })) ∧
    (∀ sp fmt z, stages (.mxb h base stride sp fmt z) (fun g => { g with
      b := ⟨true, addr base sp, val stride 1, sp, match fmt with | .f16 => 0 | .bf16 => 1 | .b8 => 2 | .b4 => 3, false, z.val⟩ })) ∧
    (∀ dims k : Reg, val dims 1 < 2 ^ 16 → 1 ≤ val dims 1 % 256 → val dims 1 % 256 ≤ 128 → 1 ≤ val dims 1 / 256 → val dims 1 / 256 ≤ 128 →
      1 ≤ val k 1 → val k 1 ≤ 1048576 →
      stages (.mxshp h dims k) (fun g => { g with shp := ⟨true, val dims 1 % 256, val dims 1 / 256, val k 1⟩ })) ∧
    ∀ (bm : Option (Reg × Bool)) (ix : Option (Reg × Bool × Reg)), stages (.mxspm h bm ix) (fun g => { g with spm :=
      ⟨bm.isSome, match bm with | some b => addr b.1 b.2 | none => 0, match bm with | some b => b.2 | none => false, ix.isSome,
        match ix with | some i => addr i.1 i.2.1 | none => 0, match ix with | some i => i.2.1 | none => false,
        match ix with | some i => val i.2.2 1 | none => 0⟩ })

/-- R278, R279 and R283: MXRUN whose checks pass, with room in its queue, appends its command, a snapshot of the staging as its run sees
it, to the queue of the array granted, a member of the group's open batch, and the warp goes on. MXST whose checks pass, on a tile
that no command targets, issues its tile's elements, converted, as a command of the array's store path. -/
def Obligations.MatrixRunsAndStoresAreQueued : Prop :=
  ∀ (s : State) (h : Hdr) (q : Nat × LaneEnt) (v : ArrView) (gran : Fin 16) (sbc : Option (Fin 6)) (acc : Fin 8),
    let x := s.curWarp
    let g := s.group x.gi
    let ctx := ctxOf s x
    let lanes := takingLanes s x h
    leaderOf lanes = some q → arrayOf s ctx x.core = some v → s.wk.warps.find s.md.cur = some x →
    let drained := ∀ hw ∈ warpHomes x, ∀ e ∈ (s.hwarp (hwKey x.gi hw)).fifo, ∀ f ∈ e.writes, f.dest ≠ .spad
    let rest := fun (t : State) => Say.Quiet s { t with en := s.en } ∧ t.mm.mem = s.mm.mem
    Say.CounterRoom s x.gi sbc (homeWarps lanes) → drained →
    (∀ (reel : Option Reg) (flip : Fin 4),
      let rw := if flip = 0 then none else reel.map (fun r => srcVal s r 1 q.1 q.2)
      let key := (v.core * 2 + v.half) * 4096 + ctx
      (∀ stg ∈ g.stg :: x.stgUndo, checkRun s x.gi v stg rw = .ok []) → (mqueue s v.core v.half ctx).cmds.length < 16 →
      modeChanging s v.core = false → (v.paired = true → modeChanging s (v.core + 1) = false) →
      ∃ t c, exec (.mxrun h reel gran sbc acc flip) s = .next t ∧ rest t ∧ t.mm = s.mm ∧ Say.Counted s t x.gi sbc (homeWarps lanes) ∧
        Say.Onward Say.bare s t ∧ t.en.mqueues.find key = some ⟨(mqueue s v.core v.half ctx).cmds ++ [c], (mqueue s v.core v.half ctx).last⟩ ∧
        (∀ k, k ≠ key → t.en.mqueues.find k = s.en.mqueues.find k) ∧ t.en.accs = s.en.accs ∧ t.en.grants = s.en.grants ∧
        c.stg ∈ g.stg :: x.stgUndo ∧ c.gi = x.gi ∧ c.paired = v.paired ∧ c.pc = x.pc ∧ c.acc = acc.val ∧ c.flip = flip.val ∧
        c.reelHdr = rw.getD 0 % 2 ^ 19 ∧ c.reelStage = rw.getD 0 / 2 ^ 20 % 16 ∧ c.gran = gran.val ∧ c.batch = g.openBatch ∧
        c.hwarp = q.2.hwarp ∧ c.done = 0 ∧ c.stop = .running ∧ c.early = []) ∧
    ∀ (stride base : Reg) (sp : Bool) (cv : MConv),
      let e1 := match cv with | .f32 => 4 | .f16 _ => 2 | .bf16 _ => 2
      let m := g.stg.shp.m
      let n := g.stg.shp.n
      let b := srcVal s base (if sp = true then 1 else 2) q.1 q.2
      let st := srcVal s stride 1 q.1 q.2
      let elem := fun (i j : Nat) => (accOf s (accKey ctx v acc.val i j)).toNat
      let tile := (List.range m).flatMap (fun i => (List.range n).map (fun j =>
          match cv with
          | .f32 => elem i j
          | .f16 rm => roundF fmtF16 rm 0 (decodeF fmtF32 (elem i j))
          | .bf16 rm => roundF fmtBF16 rm 0 (decodeF fmtF32 (elem i j))))
      let cmd : Cmd := { gi := x.gi, ctx := ctx, core := x.core, opc := 0xCA, pc := x.pc, moves := .tile n e1 st tile, dst := b, dsp := sp,
                         gran := gran.val, hwarp := q.2.hwarp }
      x.phase ≠ 2 → x.stgUndo = [] → tileCmds s ctx v acc.val = [] → g.stg.shp.set = true → 1 ≤ m → m ≤ v.rows → 1 ≤ n → n ≤ v.cols →
      b + (m - 1) * st + n * e1 ≤ (if sp = true then g.scratch else 2 ^ 55) → b % e1 = 0 → st % 4 = 0 →
      (∀ i < m, ∀ j < n, accKey ctx v acc.val i j ∉ s.en.accPoison) → ∀ pa, Say.CmdReady s cmd pa →
      ∃ t, exec (.mxst h stride base sp acc cv gran sbc) s = .next t ∧ rest t ∧ Say.CmdIssued s t x lanes sbc cmd pa

/-- R264, R265, R280 to R285: MXWB goes on where the batch its leader names, and every earlier one, is complete, and otherwise parks the warp
for it; a warp back from that wait, or from MXST's wait for its claims (phase 2), goes on. With an array granted and no command on the
tile: MXZ clears the tile's elements; MXRD reads each taking lane's elements and MXWR writes them, the highest lane's standing; MXCMT
gives the open batch's number and opens the next; MXPAIR binds and releases the next core's array; MXPROG reads the progress register. -/
def Obligations.MatrixWaitsAndAccumulatorBatchAndPairWords : Prop :=
  (∀ (s : State) (h : Hdr) (q : Nat × LaneEnt) (v : ArrView) (n : Reg),
     let x := s.curWarp
     let lanes := takingLanes s x h
     let i := srcVal s n 1 q.1 q.2
     let o := (s.group x.gi).openBatch
     let before := fun (k : Nat) => (o + 2 ^ 32 - k) % 2 ^ 32
     let goes := fun (i : Instr) => ∃ t, exec i s = .next t ∧ Say.Kept Say.seated s t ∧ Say.SameRegs s t ∧ t.rg.p = s.rg.p
     let done := ∀ mq ∈ s.en.mqueues, ∀ c ∈ mq.2.cmds, c.gi = x.gi → c.batch ≠ o → i ≠ 0 ∧ before c.batch < before i
     (x.phase = 2 → ∀ stride base sp acc cv gran sbc, goes (.mxst h stride base sp acc cv gran sbc)) ∧
     (leaderOf lanes = some q → arrayOf s (ctxOf s x) x.core = some v →
       (x.phase = 2 → goes (.mxwb h n)) ∧
       ((i = 0 ∨ (1 ≤ before i ∧ before i ≤ 2 ^ 31)) → (done → goes (.mxwb h n)) ∧
         (¬done → x.phase ≠ 2 → s.wk.warps.find s.md.cur = some x → ∃ t z, exec (.mxwb h n) s = .next t ∧ t.mm = s.mm ∧ t.rg = s.rg ∧ t.en = s.en ∧
           t.wk.warps.find s.md.cur = some z ∧ z.pc = x.pc ∧ z.phase = 2 ∧ z.park = .batch i)))) ∧
  ∀ (s : State) (h : Hdr) (q0 : Nat × LaneEnt) (v : ArrView) (acc : Fin 8) (cnt : MCnt) (d index y : Reg),
    let x := s.curWarp
    let ctx := ctxOf s x
    let lanes := takingLanes s x h
    let n := match cnt with | .x1 => 1 | .x2 => 2 | .x4 => 4
    let idx := fun (q : Nat × LaneEnt) => srcVal s index 1 q.1 q.2
    let key := fun (q : Nat × LaneEnt) (i : Nat) => accKey ctx v acc.val (idx q % 256) (idx q / 256 + i)
    let fits := ∀ q ∈ lanes, idx q < 2 ^ 16 ∧ idx q % 256 < v.rows ∧ idx q / 256 + n ≤ v.cols ∧ idx q / 256 % n = 0
    let rest := fun (t : State) => Say.Kept Say.seated s { t with en := s.en } ∧ Say.SameRegs s t ∧ t.rg.p = s.rg.p ∧ t.en.cmds = s.en.cmds ∧
      t.en.mqueues = s.en.mqueues ∧ t.en.grants = s.en.grants
    leaderOf lanes = some q0 → arrayOf s ctx x.core = some v →
    (tileCmds s ctx v acc.val = [] →
      (∃ t, exec (.mxz h acc) s = .next t ∧ rest t ∧ t.en.pairs = s.en.pairs ∧
        (∀ i < v.rows, ∀ j < v.cols, accOf t (accKey ctx v acc.val i j) = 0 ∧ accKey ctx v acc.val i j ∉ t.en.accPoison) ∧
        ∀ k, inTile ctx v acc.val k = false → accOf t k = accOf s k) ∧
      (fits → (∀ q ∈ lanes, ∀ i < n, key q i ∉ s.en.accPoison) →
        Say.RunsReg (.mxrd h d index acc cnt) s h d n (fun p e val => ∀ i < n, wordOf val i = accOf s (key (p, e) i))) ∧
      (fits → ∃ t, exec (.mxwr h index y acc cnt) s = .next t ∧ rest t ∧ t.en.pairs = s.en.pairs ∧
        (∀ q ∈ lanes, ∀ i < n, (∀ r ∈ lanes, r.1 ≠ q.1 → (∃ j < n, key r j = key q i) → laneRank r.2 < laneRank q.2) →
          accOf t (key q i) = wordOf (srcVal s y n q.1 q.2) i ∧ key q i ∉ t.en.accPoison) ∧
        ∀ k, (∀ q ∈ lanes, ∀ i < n, k ≠ key q i) → accOf t k = accOf s k)) ∧
    (let o := (s.group x.gi).openBatch
     ∃ t, exec (.mxcmt h d) s = .next t ∧ t.en = s.en ∧ t.rg.p = s.rg.p ∧ Say.Dest s t h d 1 (fun _ _ val => val = o) ∧
      Say.GroupOnly (fun g => { g with openBatch := if o = 2 ^ 32 - 1 then 1 else o + 1 }) s { t with rg := { t.rg with v := s.rg.v } }) ∧
    (v.paired = true → ∃ t, exec (.mxpairOn h) s = .next t ∧ rest t ∧ t.en = s.en) ∧
    (v.paired = false → x.core % 2 = 0 → splitMode s x.core = false → splitMode s (x.core + 1) = false → granted s (x.core + 1) 0 ctx = true →
      ∃ t, exec (.mxpairOn h) s = .next t ∧ rest t ∧ t.en.accs = s.en.accs ∧ pairedOn t ctx x.core = true ∧
        ∀ c k, k < 512 → (c, k) ≠ (ctx, x.core) → x.core < 512 → pairedOn t c k = pairedOn s c k) ∧
    (v.paired = false → ∃ t, exec (.mxpairOff h) s = .next t ∧ rest t ∧ t.en = s.en) ∧
    (v.paired = true → (∀ c ∈ (mqueue s v.core v.half ctx).cmds, c.paired = false) →
      ∃ t, exec (.mxpairOff h) s = .next t ∧ rest t ∧ t.en.accs = s.en.accs ∧ pairedOn t ctx x.core = false ∧
        ∀ c k, k < 512 → (c, k) ≠ (ctx, x.core) → x.core < 512 → pairedOn t c k = pairedOn s c k) ∧
    Say.RunsReg (.mxprog h d) s h d 1 (fun _ _ val => val = progress (mqueue s v.core v.half ctx))


/-! ### Fabric words (chapter 16) -/

/-- R320 to R323, R329, R330, R332, R333, R335: XRED and XSIG, once their homes' stores have left, put the packets of their lanes on their
way: each byte of a reduction that one lane alone sends, to receiver 0; each lane's addend, to every receiver; nothing is written at
the sender, and the counter rises in each home warp. RFENCE goes on where no packet or XBULK of its lanes' homes is outstanding, and
otherwise waits for them (phase 2). XBULK of thread CH stands in its core's engine. -/
def Obligations.FabricWordsSendAndAwaitPackets : Prop :=
  ∀ (s : State) (h : Hdr),
    let x := s.curWarp
    let ctx := ctxOf s x
    let lanes := takingLanes s x h
    let homes := homeWarps lanes
    let empty := fun (l : List (Nat × LaneEnt)) => ∀ hw ∈ homeWarps l, (s.hwarp (hwKey x.gi hw)).fifo = []
    let rest := fun (t : State) => Say.Quiet s { t with fb := s.fb, cx := s.cx } ∧ t.mm = s.mm ∧ Say.Onward Say.bare s t ∧
      t.fb.wmap = s.fb.wmap ∧ t.fb.enrols = s.fb.enrols ∧
      ∀ c, (t.cx.ctxs.find c).map (fun y => { y with bytes := 0 }) = (s.cx.ctxs.find c).map (fun y => { y with bytes := 0 })
    let from_ := fun (p : Packet) (q : Nat × LaneEnt) (entry : Nat) (d : Descr) => p.entry = entry ∧ p.port = d.port ∧ p.jetty = d.jetty ∧
      p.chip = d.chip ∧ p.rxw = d.rxw ∧ p.cls = wmByte s entry 3 ∧ p.core = x.core ∧ p.ctx = ctx ∧ p.gi = x.gi ∧ p.hwarp = q.2.hwarp ∧
      p.fkey = wmByte s entry 2 ∧ p.taken = false
    (∀ (y : Reg) (m : MemOp) (tr : Nat → Xl),
      let bytes := widthBytes m.width
      let base := fun (q : Nat × LaneEnt) => wmField s (tr q.1).key 0x10 8
      Say.CounterRoom s x.gi m.sbc homes → Say.Settled s x.gi (lanes.map (fun q => thKey x.gi q.2.hwarp q.2.hlane)) → empty lanes →
      ((∀ q ∈ lanes, Say.Through s x .write bytes (memEa s m bytes q.1 q.2) (tr q.1) ∧ (tr q.1).ty = .txWin ∧
          txCheck s ctx (tr q.1) true = none ∧ (wmByte s (tr q.1).key 5).testBit 1 = true ∧ 1 ≤ wmByte s (tr q.1).key 1) →
        ∃ t, exec (.xred h y m) s = .next t ∧ rest t ∧ Say.Counted s t x.gi m.sbc homes ∧ ∀ q ∈ lanes, ∀ i < bytes,
          let to_ := ((tr q.1).pa + i + base q) % 2 ^ 64
          (∀ r ∈ lanes, r.1 ≠ q.1 → r.2.hwarp = q.2.hwarp → (tr r.1).key = (tr q.1).key → ∀ j < bytes, ((tr r.1).pa + j + base r) % 2 ^ 64 ≠ to_) →
          ∃ id p, t.fb.packets.find id = some p ∧ p.kind = .reduction ∧ from_ p q (tr q.1).key (descrOf s (tr q.1).key 0) ∧
            p.rop = wmByte s (tr q.1).key 4 ∧ p.rid = wmField s (tr q.1).key 0x18 2 ∧ p.q = to_ / 256 * 256 ∧
            (to_, BitVec.ofNat 8 (srcVal s y ((bytes + 3) / 4) q.1 q.2 / 256 ^ i)) ∈ p.bytes) ∧
      ((∀ q ∈ lanes, Say.Through s x .write 8 (memEa s m bytes q.1 q.2) (tr q.1) ∧ (tr q.1).ty = .txWin ∧ txCheck s ctx (tr q.1) false = none) →
        ∃ t, exec (.xsig h y m) s = .next t ∧ rest t ∧ Say.Counted s t x.gi m.sbc homes ∧ t.cx = s.cx ∧
          ∀ q ∈ lanes, ∀ d ∈ descrs s (tr q.1).key, ∃ id p, t.fb.packets.find id = some p ∧ p.kind = .signal ∧ from_ p q (tr q.1).key d ∧
            p.q = ((tr q.1).pa + base q) % 2 ^ 64 ∧ p.addend = srcVal s y (if bytes = 8 then 2 else 1) q.1 q.2)) ∧
    (x.phase = 2 ∨ (empty lanes ∧ fabricWork s x.gi homes = []) → ∃ t, exec (.rfence h) s = .next t ∧ rest t ∧ t.fb = s.fb ∧ t.cx = s.cx) ∧
    (x.phase ≠ 2 → s.wk.warps.find s.md.cur = some x → lanes ≠ [] → empty lanes → fabricWork s x.gi homes ≠ [] →
      ∃ t z, exec (.rfence h) s = .next t ∧ t.mm = s.mm ∧ t.fb = s.fb ∧ t.wk.warps.find s.md.cur = some z ∧ z.pc = x.pc ∧ z.phase = 2 ∧
        z.park = .items (fabricWork s x.gi homes)) ∧
    ∀ (dst src size : Reg) (gran : Fin 16) (sbc : Option (Fin 6)) (ch : Fin 1024) (ssp rel : Bool),
      let mine := lanes.filter (fun q => q.2.hwarp * 32 + q.2.hlane = ch.val)
      let word : Instr := .xbulk h dst src size gran sbc ch ssp rel
      (mine = [] → ∃ t, exec word s = .next t ∧ rest t ∧ t.fb = s.fb ∧ t.cx = s.cx ∧ t.en = s.en ∧ t.rg.sb = s.rg.sb) ∧
      ∀ (q : Nat × LaneEnt) (tr : Xl),
        let a := srcVal s src (if ssp = true then 1 else 2) q.1 q.2
        let n := srcVal s size 1 q.1 q.2
        let va := srcVal s dst 2 q.1 q.2
        mine = [q] → Say.CounterRoom s x.gi sbc [q.2.hwarp] → Say.Settled s x.gi [thKey x.gi q.2.hwarp q.2.hlane] → engineFull s x.core x.gi = false → 4 ≤ n → n ≤ 2 ^ 30 → n % 4 = 0 → a % 4 = 0 →
        a + n ≤ (if ssp = true then (s.group x.gi).scratch else 2 ^ 55) → Say.Through s x .write 1 va tr → tr.ty = .txWin →
        txCheck s ctx tr false = none → (∀ hw ∈ warpHomes x, (s.hwarp (hwKey x.gi hw)).fifo = []) → (rel = true → Say.Released s x) →
        ∃ t id y, exec word s = .next t ∧ Say.Quiet s { t with en := s.en } ∧ t.mm = s.mm ∧ s.md.nextId ≤ id ∧
          Say.Counted s t x.gi sbc [q.2.hwarp] ∧ t.en.cmds.find id = some y ∧ (∀ k, k ≠ id → t.en.cmds.find k = s.en.cmds.find k) ∧
          y.bulk = true ∧ y.moves = .linear n ∧ y.src = a ∧ y.dst = va ∧ y.ssp = ssp ∧ y.gran = gran.val ∧ y.entry = tr.key ∧ y.winOff = tr.pa ∧
          y.gi = x.gi ∧ y.ctx = ctx ∧ y.core = x.core ∧ y.opc = 0xD0 ∧ y.pc = x.pc ∧ y.hwarp = q.2.hwarp ∧ y.done = 0 ∧ y.packets = [] ∧
          ((∀ d ∈ s.mm.dirItems, d.2.claim ≠ some id) → Say.Onward Say.bare s t)

/-! ### Words of the system (chapters 17 to 22) -/

/-- R392 to R394, for a word of one taking lane whose target its selector accepts: SYSWR reads a field, or writes it as the field's own
rule says and answers the value before. Of a protected descendant in another world, every selector but those of R394 reads 0 and
discards its write. A write to a port entry clears its V; PT.CTL sets it where PT.CTX is live. No other field changes; a write to
CTX.NQ.HEAD also lets held pages be posted. -/
def Obligations.SelectorsAreReadAndWritten : Prop :=
  ∀ (s : State) (h : Hdr) (d tgt val : Reg) (sel : BitVec 8) (q : Nat × LaneEnt),
    let x := s.curWarp
    let n := sel.toNat
    let t := srcVal s tgt 1 q.1 q.2
    let v := srcVal s val (selRegs sel) q.1 q.2
    let seen := selVisible s (ctxOf s x) n t
    let old := if seen = true then selRead s n t else 0
    Say.Sole s x h q → selTarget s (ctxOf s x) n t = true →
    (∃ u, exec (.syswrRead h d tgt sel) s = .next u ∧ Say.Gave s u h d (selRegs sel) old ∧ u.mm = s.mm ∧ u.xl = s.xl ∧ u.cx = s.cx ∧
      u.fb = s.fb ∧ Say.plainPart u.pt = Say.plainPart s.pt) ∧
    (∀ i, (i = .syswrWrite h d tgt val sel ∨ (n = 0x00 ∧ i = .ctxStat h d tgt val) ∨ (n = 0x05 ∧ i = .ctxPrqHead h d tgt val) ∨
        (n = 0x09 ∧ i = .ctxFqHead h d tgt val) ∨ (n = 0x10 ∧ i = .ctxNqHead h d tgt val) ∨
        (0x29 ≤ n ∧ n ≤ 0x2F ∧ i = .ptEntryWrite h d tgt val sel)) → n ≠ 0x1A → n ≠ 0x28 →
      ∃ u, exec i s = .next u ∧ Say.Gave s u h d (selRegs sel) old ∧ u.fb = s.fb ∧
        selRead u n t = (if seen = true then Say.selNew n v (selRead s n t) else selRead s n t) ∧
        (seen = true → (n = 0x2D → (tenantOf u t).keyLo = v) ∧ (n = 0x2E → (tenantOf u t).keyHi = v) ∧
          (0x29 ≤ n → n ≤ 0x2F → (tenantOf u t).v = false)) ∧
        ((n = 0x10 → ∀ a ∈ s.xl.acnt, a.2.held = none) → u.mm = s.mm ∧ (n ≠ 0x10 → u.xl = s.xl) ∧
          (∀ c, c ≠ t ∨ 0x20 ≤ n → u.cx.ctxs.find c = s.cx.ctxs.find c) ∧ (∀ p, p ≠ t ∨ n < 0x29 → tenantOf u p = tenantOf s p) ∧
          ∀ k, k ≠ n → (0x29 ≤ n → k ≠ 0x28) → selRead u k t = selRead s k t)) ∧
    (n = 0x28 → ∃ u, exec (.ptCtl h d tgt val) s = .next u ∧ u.mm.mem = s.mm.mem ∧ (∀ p, p ≠ t → tenantOf u p = tenantOf s p) ∧
      (v % 2 = 0 → Say.Gave s u h d 1 old ∧ tenantOf u t = { tenantOf s t with v := false }) ∧
      (v % 2 = 1 → s.liveCtx (tenantOf s t).ctx = true → Say.Gave s u h d 1 old ∧ tenantOf u t = { tenantOf s t with v := true, lastSeq := 0 }) ∧
      (v % 2 = 1 → s.liveCtx (tenantOf s t).ctx = false → (tenantOf u t).v = false))

/-- R395, R397 and R110 to R112, for a word of one taking lane whose target stands. FAULT.RESOLVE answers 3 for a malformed value, 1 where
no stop of the target has the FID, 2 where its group is away; else it ends the stop: retry leaves the stopped lanes at their word,
skip takes them past it, end makes their threads exited. PGREPLY frees the request's entry; lanes that await it then walk again,
or stop with the fault it names. TLBI drops the translations that used the target's leaves over the pages named. -/
def Obligations.StopsAndPageRequestsAreAnswered : Prop :=
  ∀ (s : State) (h : Hdr) (d : Reg) (q : Nat × LaneEnt),
    let x := s.curWarp
    Say.Sole s x h q →
    (∀ tgt val : Reg,
      let t := srcVal s tgt 1 q.1 q.2
      let v := srcVal s val 2 q.1 q.2
      let hit := s.wk.stops.find? (fun y => y.2.ctx = t && y.2.fid = some (v % 2 ^ 32))
      let bad := v / 2 ^ 34 ≠ 0 ∨ v / 2 ^ 32 % 4 = 3
      selTarget s (ctxOf s x) 0x1A t = true →
      (bad → ∃ u, exec (.faultResolve h d tgt val) s = .next u ∧ Say.Gave s u h d 2 3 ∧ u.wk.stops = s.wk.stops) ∧
      (¬bad → hit = none → ∃ u, exec (.faultResolve h d tgt val) s = .next u ∧ Say.Gave s u h d 2 1 ∧ u.wk.stops = s.wk.stops) ∧
      ∀ id y, ¬bad → hit = some (id, y) → s.wk.stops.find id = some y → y.warp ≠ s.md.cur →
        ((s.group y.gi).resident = false → ∃ u, exec (.faultResolve h d tgt val) s = .next u ∧ Say.Gave s u h d 2 2 ∧
          (u.wk.stops.find id).isSome = true) ∧
        ((s.group y.gi).resident = true → ∃ u, exec (.faultResolve h d tgt val) s = .next u ∧ u.wk.stops.find id = none ∧
          (∀ k, k ≠ id → u.wk.stops.find k = s.wk.stops.find k) ∧ u.mm.mem = s.mm.mem ∧
          (v / 2 ^ 32 % 4 ≠ 2 → u.rg.p = s.rg.p ∧ Say.Dest s u h d 2 (fun _ _ r => r = 0)) ∧
          (v / 2 ^ 32 % 4 = 0 → y.info.code ≠ 0x40 → y.info.code ≠ 0x41 →
            (u.wk.warps.find y.warp).map (fun z => (z.pc, z.phase, z.park)) = (s.wk.warps.find y.warp).map (fun z => (z.pc, 0, .none))) ∧
          ((v / 2 ^ 32 % 4 = 1 ∨ (v / 2 ^ 32 % 4 = 0 ∧ (y.info.code = 0x40 ∨ y.info.code = 0x41))) → ∀ z, u.wk.warps.find y.warp = some z →
            ∃ z', s.wk.warps.find y.warp = some z' ∧ z'.curB = false ∧ z.pc = z'.pc + 8 ∧ z.park = .none) ∧
          (v / 2 ^ 32 % 4 = 2 → u.wk.warps.find y.warp = none ∧ ∀ z, s.wk.warps.find y.warp = some z → ∀ l ∈ activeLanes z,
            let k := thKey y.gi l.2.hwarp l.2.hlane
            (∀ r ∈ activeLanes x, thKey x.gi r.2.hwarp r.2.hlane ≠ k) → ∀ th, u.rg.threads.find k = some th → th.stat = .exited))) ∧
    (∀ req ans : Reg,
      let rid := srcVal s req 1 q.1 q.2
      let a := srcVal s ans 1 q.1 q.2
      let hit := s.xl.reqs.find? (fun r => r.2.gen * 2 ^ 24 + r.2.die * 2 ^ 23 + r.2.slot = rid)
      (hit = none → ∃ u, exec (.pgreply h d req ans) s = .next u ∧ Say.Gave s u h d 1 (if 3 ≤ a then 3 else 1) ∧ u.xl = s.xl) ∧
      ∀ id r, hit = some (id, r) → ((ctxChain s 3 r.ctx).find? (fun c => c.2.level = r.fail.stage)).map (·.1) = some (ctxOf s x) →
        (3 ≤ a → ∃ u, exec (.pgreply h d req ans) s = .next u ∧ Say.Gave s u h d 1 3 ∧ u.xl = s.xl) ∧
        (a < 3 → awayFor s id = true → ∃ u, exec (.pgreply h d req ans) s = .next u ∧ Say.Gave s u h d 1 2 ∧ (u.xl.reqs.find id).isSome = true) ∧
        (a = 0 → awayFor s id = false → ∃ u, exec (.pgreply h d req ans) s = .next u ∧ Say.Gave s u h d 1 0 ∧ u.mm = s.mm ∧
          u.xl = { s.xl with reqs := s.xl.reqs.erase id }) ∧
        ((a = 1 ∨ a = 2) → awayFor s id = false → (∀ w ∈ s.wk.warps, w.1 < s.md.nextId) → ∃ u, exec (.pgreply h d req ans) s = .next u ∧ u.xl.reqs.find id = none ∧
          ∀ w ∈ waitersOf s id, w.1 ≠ s.md.cur → s.wk.warps.find w.1 = some w.2 → ∀ l ∈ activeLanes w.2, (w.2.eas.find l.1).isSome = true →
            ∃ st ∈ u.wk.stops, st.2.gi = w.2.gi ∧ st.2.hwarp = l.2.hwarp ∧ st.2.info.code = (if a = 1 then 0x12 else 0x13))) ∧
    ∀ (addr tgt count : Reg) (i : Instr) (n : Option Nat),
      let t := srcVal s tgt 1 q.1 q.2
      let a := srcVal s addr 2 q.1 q.2
      (n = none ∧ i = .tlbiCtx h tgt) ∨ (n = some 1 ∧ i = .tlbiPage h addr tgt) ∨
        (n = some (srcVal s count 1 q.1 q.2) ∧ i = .tlbiRange h addr tgt count) →
      t < 4096 → s.liveCtx t = true → isAncestor s (ctxOf s x) t = true → otherWorld s (ctxOf s x) t = false → (n ≠ none → a < 2 ^ 55) →
      let all := n = none ∨ ∃ k, n = some k ∧ 65536 < k
      let dropped := fun (e : TlbEnt) => isAncestor s t e.ctx = true ∧ (all ∨ ∃ l ∈ e.xl.used, l.1 = t ∧ ∃ k, n = some k ∧ k ≠ 0 ∧
        l.2.1 / 2 ^ l.2.2 * 2 ^ l.2.2 < a / 2 ^ 16 * 2 ^ 16 + k * 2 ^ 16 ∧ a / 2 ^ 16 * 2 ^ 16 < l.2.1 / 2 ^ l.2.2 * 2 ^ l.2.2 + 2 ^ l.2.2)
      ∃ u, exec i s = .next u ∧ Say.Quiet s u ∧ u.mm.mem = s.mm.mem ∧ u.rg.sb = s.rg.sb ∧ (∀ e, e ∈ u.xl.tlb ↔ e ∈ s.xl.tlb ∧ ¬dropped e) ∧
        ((x.phase = 3 ∨ ∀ gone : List TlbEnt, (∀ e ∈ gone, e ∈ s.xl.tlb ∧ dropped e) → Say.NoUse s gone) → Say.Onward Say.bare s u)

/-- R378, R405, R409 to R412, R415 and R416, for a word of one taking lane whose checks pass: LAUNCH puts a copy of the record's 128 bytes at
the end of its queue. An operation on a subtree answers 0 and is in progress, with its kind, target, issuer and barrier; where none
is in progress or waits, it begins: a freeze and a checkpoint freeze the target, a thaw thaws it and is done, a reset and a
revocation stop dispatch for its whole subtree. -/
def Obligations.LaunchesAndOperationsBegin : Prop :=
  ∀ (s : State) (h : Hdr) (d tgt desc : Reg) (bar : Option Reg) (q : Nat × LaneEnt),
    let x := s.curWarp
    let issuer := ctxOf s x
    let t := srcVal s tgt 1 q.1 q.2
    let a := srcVal s desc 2 q.1 q.2
    let place := bar.map (fun r => srcVal s r 2 q.1 q.2)
    let free := s.cx.opers = []
    let begun := fun (u : State) (k : OpKind) (b : Option Nat) (stage : OpStage) => ∃ id o, u.cx.opers.find id = some o ∧ o.kind = k ∧
      o.target = t ∧ o.issuer = issuer ∧ o.bar = b ∧ (free → o.stage = stage)
    Say.Sole s x h q →
    (∀ (qn : Fin 64) (n : Nat) (l : List Byte), a < 2 ^ 55 → a % 128 = 0 → localQueue s issuer qn.val = some n → (queueOf s n).recs.length < 64 →
      Say.Image s x q a 128 l → ∃ u, exec (.launch h desc qn) s = .next u ∧ Say.Served s u ∧ u.rg.v = s.rg.v ∧ u.rg.s = s.rg.s ∧
        u.mm.mem = s.mm.mem ∧ u.cx = s.cx ∧
        (queueOf u n) = { queueOf s n with recs := (queueOf s n).recs ++ [{ bytes := l, ctx := issuer, localQ := qn.val }] } ∧
        ∀ k, k ≠ n → queueOf u k = queueOf s k) ∧
    (strictBelow s issuer t = true → (∀ b, place = some b → addrFate b 8 = none) →
      (inReset s t = false → ∃ u, exec (.subdevFreeze h d tgt bar) s = .next u ∧ Say.Gave s u h d 1 0 ∧ begun u .freeze place .draining ∧
        (free → (u.ctx t).frozen = true)) ∧
      (inReset s t = false → thawable s t = true → ∃ u, exec (.subdevThaw h d tgt bar) s = .next u ∧ Say.Gave s u h d 1 0 ∧
        (free → (u.ctx t).frozen = false ∧ u.cx.opers = [] ∧ u.cx.adds = s.cx.adds ++ (place.map (fun b => (issuer, b, 1, []))).toList)) ∧
      (∃ u, exec (.subdevReset h d tgt bar) s = .next u ∧ Say.Gave s u h d 1 0 ∧ begun u .reset place .draining ∧
        (free → ∀ c ∈ subtree s t, (u.ctx c).resetting = true)) ∧
      ∃ u, exec (.subdevRevoke h d tgt bar) s = .next u ∧ Say.Gave s u h d 1 0 ∧ begun u .revoke place .draining ∧
        (free → ∀ c ∈ subtree s t, (u.ctx c).resetting = true)) ∧
    ∀ (l : List Byte) (y : CkptDesc), strictBelow s issuer t = true → addrFate a 64 = none → Say.Image s x q a 64 l →
      addrFate (fieldOf l 0x10 8) 8 = none → (∀ c ∈ subtree s t, otherWorld s issuer c = false) → inReset s t = false → ckptDesc l = some y →
      ∃ u, exec (.subdevCkpt h d tgt desc) s = .next u ∧ Say.Gave s u h d 1 0 ∧
        begun u (.ckpt y.area y.bytes y.thaw) (if y.done = 0 then none else some y.done) .draining ∧ (free → (u.ctx t).frozen = true)

/-- R402, R405 to R409, R418 to R421 and R423 to R426, for a word of one taking lane whose checks pass: SUBDEV.create makes a child, its id the lowest
free one, and stages its grants for the next tick; .resize stages new grants; .dlog starts a log, zeroes its STATE and takes write
permission from the subtree's cached translations, or ends the log; .meter writes the target's meters. SHARE stages its change and
holds the lane; it answers 0 once the change is in force. -/
def Obligations.GrantsLogsMetersAndShares : Prop :=
  ∀ (s : State) (h : Hdr) (d tgt desc : Reg) (q : Nat × LaneEnt) (l : List Byte),
    let x := s.curWarp
    let issuer := ctxOf s x
    let t := srcVal s tgt 1 q.1 q.2
    let a := srcVal s desc 2 q.1 q.2
    let p := planned s
    let f := fieldOf l
    let staged := fun (u : State) (c : Change) => ∃ id, u.cx.staged = s.cx.staged ++ [{ id := id, change := c }]
    let awaits := fun (u : State) (c : Change) => ∃ id z, u.cx.staged = s.cx.staged ++ [{ id := id, change := c }] ∧
      u.wk.warps.find s.md.cur = some z ∧ z.pc = x.pc ∧ z.park = .oper [id] ∧ z.opLane.find q.1 = some id
    Say.Sole s x h q →
    (tenantTarget s issuer t = true → (s.ctx t).level ≤ 2 → addrFate a 64 = none → inReset s t = false → opsOver s t = [] →
      Say.Image s x q a 128 l → ∀ g id, grantOf l (p.ctx t).grant = some g → grantFree p t 4096 g = true → freeId s = some id →
      ∃ u, exec (.subdevCreate h d tgt desc) s = .next u ∧ Say.Gave s u h d 1 id ∧ u.mm.mem = s.mm.mem ∧ staged u (.grant id g) ∧
        u.cx.ctxs.find id = some { parent := t, level := (s.ctx t).level + 1, world := (s.ctx t).world } ∧
        (∃ e, (u.ctx t).extQ = (s.ctx t).extQ ++ [e] ∧ e.tag = 0x05 ∧ e.len = 130 ∧ e.digest = objDigest (l ++ bytesOfNat 2 id)) ∧
        ∀ c, c ≠ id → c ≠ t → u.cx.ctxs.find c = s.cx.ctxs.find c) ∧
    (strictBelow s issuer t = true → addrFate a 64 = none → inReset s t = false → opsOver s t = [] → Say.Image s x q a 128 l →
      ∀ g, grantOf l (p.ctx (s.ctx t).parent).grant = some g → grantFree p (s.ctx t).parent t g = true →
      (∀ n, (p.ctx t).grant.qBase ≤ n → n < (p.ctx t).grant.qBase + (p.ctx t).grant.qCount → (n < g.qBase ∨ g.qBase + g.qCount ≤ n) →
        (queueOf s n).recs = []) →
      (∀ c ∈ children p t, grantWithin (p.ctx c).grant g = true) →
      ∃ u, exec (.subdevResize h d tgt desc) s = .next u ∧ Say.Gave s u h d 1 0 ∧ u.mm.mem = s.mm.mem ∧ staged u (.grant t g) ∧
        u.cx.ctxs = s.cx.ctxs) ∧
    (strictBelow s issuer t = true → addrFate a 64 = none → Say.Image s x q a 64 l → addrFate (f 0x10 8) 8 = none →
      (∀ c ∈ subtree s t, otherWorld s issuer c = false) → inReset s t = false → opsOver s t = [] → f 0 8 % 8 = 0 → f 8 4 ≠ 0 → f 8 4 ≤ 2 ^ 24 →
      f 0x20 32 = 0 → s.xl.logged = [] →
      (f 0x0C 4 = 0 → ∃ u, exec (.subdevDlog h d tgt desc) s = .next u ∧ Say.Gave s u h d 1 0 ∧ u.mm.mem = s.mm.mem ∧ (u.ctx t).dlog = none) ∧
      ∀ tr, f 0x0C 4 = 1 → Say.Place s x (a + 0x18) 8 tr →
        ∃ u, exec (.subdevDlog h d tgt desc) s = .next u ∧ memNat u tr.pa 8 = 0 ∧ Say.MemBut s u tr.pa 8 ∧
          (u.ctx t).dlog = some { issuer := issuer, log := f 0 8, cap := f 8 4, arrive := f 0x10 8, stateAddr := a + 0x18 } ∧
          (∀ e ∈ u.xl.tlb, e.ctx ∈ subtree s t → e.xl.w = false) ∧
          ((x.phase = 3 ∨ ∀ gone : List TlbEnt, (∀ e ∈ gone, e ∈ s.xl.tlb ∧ e.ctx ∈ subtree s t) → Say.NoUse s gone) → Say.Gave s u h d 1 0)) ∧
    (∀ tr, tenantTarget s issuer t = true → Say.Place s x a 64 tr →
      ∃ u, exec (.subdevMeter h d tgt desc) s = .next u ∧ Say.Gave s u h d 1 0 ∧ Say.MemBut s u tr.pa 64 ∧ u.cx = s.cx ∧
        memBytes u tr.pa 64 = bytesOfNat 8 (s.ctx t).corecyc ++ bytesOfNat 8 (s.ctx t).arrcyc ++ bytesOfNat 8 (s.ctx t).bytes ++
          bytesOfNat 8 (s.ctx t).framems ++ bytesOfNat 8 s.pt.cycle ++ List.replicate 24 0) ∧
    (x.opLane = [] → strictBelow s issuer t = true → addrFate a 32 = none → Say.Image s x q a 32 l → f 0x10 16 = 0 →
      let parent := p.ctx (s.ctx t).parent
      let sibs := ((children p (s.ctx t).parent).filter (fun c => c != t)).map p.ctx
      f 0 2 + (sibs.map (·.shareV)).sum ≤ 65536 → f 2 2 + (sibs.map (·.shareC)).sum ≤ 65536 → f 4 2 + (sibs.map (·.shareM)).sum ≤ 65536 →
      f 6 2 + (sibs.map (·.shareL)).sum ≤ 65536 → f 8 4 + (sibs.map (·.guar)).sum ≤ parent.guar →
      (((children p t).map p.ctx).map (·.guar)).sum ≤ f 8 4 →
      ∃ u, exec (.shareSet h d tgt desc) s = .next u ∧ u.cx.ctxs = s.cx.ctxs ∧
        awaits u (.share t (f 0 2) (f 2 2) (f 4 2) (f 6 2) (f 8 4) (min (max (f 0x0C 4) (f 8 4)) parent.burst))) ∧
    (∀ (m : List Byte) (tr : Nat → Xl), x.opLane = [] → strictBelow s issuer t = true → addrFate a 16 = none → Say.Image s x q a 16 l →
      f 0 8 % 8 = 0 → f 0 8 < 2 ^ 55 → f 8 4 ≠ 0 → f 8 4 ≤ 65536 → f 0x0C 1 < 2 → f 0x0D 3 = 0 → Say.Image s x q (f 0 8) (8 * f 8 4) m →
      (∀ e ∈ wordsOf8 m, e % 2 ^ 16 = 0 ∧ Say.Through s x .read 1 e (tr e) ∧ (tr e).ty = .page) →
      let frames := ((wordsOf8 m).map (fun e => (tr e).pa / 2 ^ 16)).eraseDups
      let back := f 0x0C 1 = 1
      (∀ fr ∈ frames, (p.frame fr).state = 0 ∧ (p.frame fr).charge = (if back then t else issuer) ∧
        (back → (p.frame fr).wt = (s.ctx issuer).world)) →
      (¬back → (p.ctx t).used + frames.length ≤ (p.ctx t).burst) →
      ∃ u, exec (.shareChg h d tgt desc) s = .next u ∧ u.cx.ctxs = s.cx.ctxs ∧ awaits u (.charge frames (if back then issuer else t))) ∧
    ∀ id i, (i = .shareSet h d tgt desc ∨ i = .shareChg h d tgt desc) → x.opLane.find q.1 = some id → (∀ c ∈ s.cx.staged, c.id ≠ id) →
      ∃ u, exec i s = .next u ∧ Say.Gave s u h d 1 0 ∧ u.mm = s.mm ∧ u.cx = s.cx

/-- R436, R439 to R442 and R444 to R446, for a word of one taking lane whose checks pass: MEAS puts an extension by the bytes named in line and holds
the lane, then answers the low half of the count of extensions; RCPT puts a receipt in signing; SCRUB.start unmaps the frames listed,
takes them from USED and answers the job that will zero them; .prog and .ctx read a job's progress register, 0 where the target has
no job. -/
def Obligations.MeasurementsReceiptsAndScrubs : Prop :=
  ∀ (s : State) (h : Hdr) (d r1 r2 : Reg) (q : Nat × LaneEnt) (l : List Byte),
    let x := s.curWarp
    let issuer := ctxOf s x
    let a := srcVal s r1 2 q.1 q.2
    let f := fieldOf l
    Say.Sole s x h q →
    (∀ tag : BitVec 5,
      (x.opLane = [] → a < 2 ^ 55 → srcVal s r2 2 q.1 q.2 ≤ 2 ^ 40 → Say.Image s x q a (srcVal s r2 2 q.1 q.2) l → s.cx.ctxs.find issuer ≠ none →
        ∃ u e z, exec (.meas h d r1 r2 tag) s = .next u ∧ (u.ctx issuer).extQ = (s.ctx issuer).extQ ++ [e] ∧ e.tag = tag.toNat ∧
          e.len = l.length ∧ e.digest = objDigest l ∧ u.wk.warps.find s.md.cur = some z ∧ z.pc = x.pc ∧ z.park = .oper [e.id] ∧
          z.opLane.find q.1 = some e.id ∧ u.mm.mem = s.mm.mem) ∧
      ∀ id, x.opLane.find q.1 = some id → extPending s id = false →
        ∃ u, exec (.meas h d r1 r2 tag) s = .next u ∧ Say.Gave s u h d 1 ((s.ctx issuer).exts % 2 ^ 32) ∧ u.mm = s.mm ∧ u.cx = s.cx) ∧
    (let t := srcVal s r2 1 q.1 q.2
     tenantTarget s issuer t = true → addrFate a 64 = none → Say.Image s x q a 64 l → addrFate (f 0 8) 64 = none → addrFate (f 0x28 8) 8 = none →
      otherWorld s issuer t = false → f 0x30 16 = 0 → s.cx.receipts.length < 64 →
      ∃ u id r, exec (.rcpt h d r1 r2) s = .next u ∧ Say.Gave s u h d 1 0 ∧ u.mm.mem = s.mm.mem ∧ u.cx.receipts.find id = some r ∧
        r.issuer = issuer ∧ r.target = t ∧ r.out = f 0 8 ∧ r.nonce = (l.drop 8).take 32 ∧ r.bar = f 0x28 8 ∧ r.path = pathOf s t ∧
        r.waits = (s.ctx t).extQ.map (·.id) ∧ u.cx.ctxs = s.cx.ctxs) ∧
    (∀ (m : List Byte) (tr : Nat → Xl), addrFate a 64 = none → Say.Image s x q a 64 l → addrFate (f 0 8) 8 = none →
      addrFate (f 0x10 8) 8 = none → f 8 4 ≠ 0 → f 8 4 ≤ 65536 → f 0x0C 4 = 0 → f 0x18 40 = 0 → Say.Image s x q (f 0 8) (8 * f 8 4) m →
      (∀ e ∈ wordsOf8 m, e % 2 ^ 16 = 0 ∧ Say.Through s x .read 1 e (tr e) ∧ (tr e).ty = .page) →
      let frames := ((wordsOf8 m).map (fun e => (tr e).pa / 2 ^ 16)).eraseDups
      (∀ fr ∈ frames, (s.frame fr).state = 0 ∧ s.liveCtx (s.frame fr).charge = true ∧ isAncestor s issuer (s.frame fr).charge = true) →
      freeJobs s ≠ [] → heldParks s frames = [] →
      ∃ u, ∃ id ∈ freeJobs s, exec (.scrubStart h d r1) s = .next u ∧ Say.Gave s u h d 1 id ∧ u.cx.jobs.find id = some
          { owner := issuer, left := frames, total := frames.length, bar := f 0x10 8, ctxs := (frames.map (fun fr => (s.frame fr).charge)).eraseDups } ∧
        (∀ fr ∈ frames, (u.frame fr).state = 1) ∧
        (∀ c, s.liveCtx c = true → (u.ctx c).used = (s.ctx c).used - frames.countP (fun fr => (s.frame fr).charge = c)) ∧
        ∀ e ∈ u.xl.tlb, (e.xl.ty = .page ∨ e.xl.ty = .rxWin) → e.xl.pa / 2 ^ 16 ∉ frames) ∧
    (∀ j, s.cx.jobs.find (srcVal s r1 1 q.1 q.2) = some j → isAncestor s issuer j.owner = true →
      ∃ u, exec (.scrubProg h d r1) s = .next u ∧ Say.Gave s u h d 2 (progressOf j) ∧ u.mm = s.mm ∧ u.cx = s.cx) ∧
    (let t := srcVal s r1 1 q.1 q.2
     tenantTarget s issuer t = true → ∃ u v, exec (.scrubCtx h d r1) s = .next u ∧ Say.Gave s u h d 2 v ∧ u.mm = s.mm ∧ u.cx = s.cx ∧
       (if s.cx.jobs.any (fun j => j.2.active && j.2.ctxs.contains t) = true then
          ∃ j ∈ s.cx.jobs, j.2.active = true ∧ t ∈ j.2.ctxs ∧ v = progressOf j.2
        else v = 0))

/-- R316 to R319, R427, R443 and R447, for a word of one taking lane whose checks pass: KEYZ empties its slot, drops the translations under a memory
slot's key and answers 0, other frames' memory as it was; WORLD.own gives a world to a context, .free takes it back, .latch is in
progress at once; WMAP.set makes an image its entry with ENROLLED clear, .clr frees the entry, each going on once no packet of the
entry is outstanding, and .get writes the entry's 128 bytes. -/
def Obligations.KeysWorldsAndWindows : Prop :=
  ∀ (s : State) (h : Hdr) (d r1 r2 : Reg) (q : Nat × LaneEnt),
    let x := s.curWarp
    let issuer := ctxOf s x
    let n := srcVal s r1 1 q.1 q.2
    let w := srcVal s r2 1 q.1 q.2
    let under := fun (e : TlbEnt) => e.xl.attr ≠ 0 ∧ (e.xl.ty = .page ∨ e.xl.ty = .rxWin) ∧ keySlotOf s e.xl = n
    Say.Sole s x h q →
    (n < 256 → isAncestor s issuer (slotHolder s false n) = true → x.opLane = [] →
      (∀ gone : List TlbEnt, (∀ e ∈ gone, e ∈ s.xl.tlb ∧ under e) → Say.NoUse s gone) →
      ∃ u, exec (.keyzM h d r1) s = .next u ∧ Say.Gave s u h d 1 0 ∧ (∀ k, k ∈ u.pt.mkeys ↔ k ∈ s.pt.mkeys ∧ (k.1 ≠ n ∨ k.2.gone = true)) ∧
        (∀ e, e ∈ u.xl.tlb ↔ e ∈ s.xl.tlb ∧ ¬under e) ∧
        ∀ a, (∀ f ∈ s.xl.frames, f.2.bound = true → f.2.attr ≠ 0 → f.2.key = n → a / 2 ^ 16 ≠ f.1) → memByte u a = memByte s a) ∧
    (n < 64 → isAncestor s issuer (slotHolder s true n) = true →
      ∃ u, exec (.keyzF h d r1) s = .next u ∧ Say.Gave s u h d 1 0 ∧ u.mm = s.mm ∧ u.xl = s.xl ∧
        ∀ k, k ∈ u.pt.fkeys ↔ k ∈ s.pt.fkeys ∧ (k.1 ≠ n ∨ k.2.gone = true)) ∧
    (issuer = 0 → tenantTarget s 0 n = true → w ≠ 0 → w < 256 → s.cx.worldOwner.find w = none → (s.ctx n).level = 1 → (s.ctx n).world = 0 →
      (∀ c ∈ children s n, s.liveCtx c = false) → (∀ g ∈ s.wk.groups, g.2.ctx ≠ n) → (s.ctx n).used = 0 →
      (∀ k, (s.ctx n).grant.qBase ≤ k → k < (s.ctx n).grant.qBase + (s.ctx n).grant.qCount → (queueOf s k).recs = []) →
      ∃ u, exec (.worldOwn h d r1 r2) s = .next u ∧ Say.Gave s u h d 1 0 ∧ u.mm = s.mm ∧ u.cx.worldOwner.find w = some n ∧
        u.cx.ctxs.find n = (s.cx.ctxs.find n).map (fun c => { c with world := w }) ∧ ∀ c, c ≠ n → u.cx.ctxs.find c = s.cx.ctxs.find c) ∧
    (∀ bar : Option Reg, n < 384 → w < 256 → (∀ b, bar = some b → addrFate (srcVal s b 2 q.1 q.2) 8 = none) → ownsWorld s issuer w = true →
      (NMap.get 0 s.cx.latch n = 0 ∨ ownsWorld s issuer (NMap.get 0 s.cx.latch n) = true) → ownCore s issuer n = true → n ≠ x.core →
      ∃ u id o, exec (.worldLatch h d r1 r2 bar) s = .next u ∧ Say.Gave s u h d 1 0 ∧ u.cx.opers.find id = some o ∧ o.kind = .latch n w ∧
        o.issuer = issuer ∧ o.bar = bar.map (fun b => srcVal s b 2 q.1 q.2) ∧ o.stage = .draining ∧ u.cx.latch = s.cx.latch) ∧
    (issuer = 0 → n < 256 → (∀ c ∈ s.cx.ctxs, c.2.gone = false → c.2.world ≠ n) → (∀ c ∈ s.cx.latch, c.2 ≠ n) →
      ∃ u, exec (.worldFree h d r1) s = .next u ∧ Say.Gave s u h d 1 0 ∧ u.mm = s.mm ∧ u.cx.worldOwner.find n = none ∧
        ∀ k, k ≠ n → u.cx.worldOwner.find k = s.cx.worldOwner.find k) ∧
    (n < 256 → x.phase ≠ 2 →
      let rest := fun (u : State) => u.mm.mem = s.mm.mem ∧ u.rg.v = s.rg.v ∧ u.rg.s = s.rg.s ∧ u.rg.p = s.rg.p ∧ u.cx = s.cx ∧
        (∀ k, k ≠ n → u.fb.wmap.find k = s.fb.wmap.find k) ∧
        ((∀ p ∈ s.fb.packets, p.2.entry = n → p.2.core = 65534) → Say.Onward Say.seated s u)
      (∀ l, srcVal s r2 2 q.1 q.2 % 128 = 0 → Say.Image s x q (srcVal s r2 2 q.1 q.2) 128 l → wmapOk s l = true →
        ∃ u, exec (.wmapSet h r1 r2) s = .next u ∧ rest u ∧ u.fb.wmap.find n = some (wmapEntry l)) ∧
      ∃ u, exec (.wmapClr h r1) s = .next u ∧ rest u ∧ u.fb.wmap.find n = none) ∧
    ∀ tr, n < 256 → Say.Place s x (srcVal s r2 2 q.1 q.2) 128 tr →
      ∃ u, exec (.wmapGet h r1 r2) s = .next u ∧ u.fb = s.fb ∧ u.cx = s.cx ∧ u.rg.v = s.rg.v ∧ u.rg.s = s.rg.s ∧ u.rg.p = s.rg.p ∧
        Say.MemBut s u tr.pa 128 ∧ Say.Onward Say.seated s u ∧ ∀ j < 128, (memByte u (tr.pa + j)).toNat = wmByte s n j

/-! ### Events inside the part (chapters 02, 04, 05, 07, 12) -/

/-- R64, R66, R102 to R104, R120, R122, R138, R141, R154, R158 and R346: a pending result is written to its registers and its counted work
ends; a walk that a walker has taken completes, fills the translation and frees the warps that await it, or waits at a held line; the
oldest entry of a store FIFO, committed and with nothing to wait for, is performed with the entries of its store: its bytes stand in
the scratchpad, or in the core's L1, or in packets to every receiver, the highest home lane's where several write one; the directory
registers the words sent to it, none of a held line, or grants an engine's claim, after which no L1 has a word of the line; a drop
takes words from an L1; a lane that met an absent line goes on once it is present. -/
def Obligations.MemoryEventsComplete : Prop :=
  (∀ (s : State) (id : Nat) (late : Bool) (r : Result), s.wk.results.find id = some r → r.known = true →
    ∃ t, exec (.resultReturn id late) s = .next t ∧ t.wk.results.find id = none ∧ t.mm = s.mm ∧ t.rg.s = s.rg.s ∧ t.rg.p = s.rg.p ∧
      (late = false → ∀ l ∈ r.lanes, l.help = none → ∀ i < l.vals.length,
        let key := vKey r.gi r.hwarp (l.reg + i) l.lane
        (∀ m ∈ r.lanes, m.help = none → ∀ j < m.vals.length, vKey r.gi r.hwarp (m.reg + j) m.lane = key → m.vals.getD j 0 = l.vals.getD i 0) →
          NMap.get 0 t.rg.v key = l.vals.getD i 0) ∧
      (∀ key, (∀ l ∈ r.lanes, l.help = none → ∀ i < l.vals.length, key ≠ vKey r.gi r.hwarp (l.reg + i) l.lane) →
        late = false → NMap.get 0 t.rg.v key = NMap.get 0 s.rg.v key) ∧
      ∀ w y c, r.work = some w → s.wk.works.find w = some y → y.left ≤ 1 → y.sbc = some c →
        sbOf t y.gi y.hwarp c = sbOf s y.gi y.hwarp c - 1) ∧
  (∀ (s : State) (id n : Nat) (k : Walk), s.xl.walks.find id = some k → k.walker = some n → s.liveCtx k.ctx = true →
    let va := k.page * 2 ^ 16
    let found := (runWalk s n k.core k.ctx va k.kind).1
    (found = .busy → exec (.walkComplete id) s = .next s) ∧
    (found ≠ .busy → ∃ t, exec (.walkComplete id) s = .next t ∧ t.xl.walks.find id = none ∧ t.rg = s.rg ∧
      (∀ tr, found = .ok tr → serves tr k.kind = true → tlbFind t k.core k.ctx k.page k.kind = some { tr with pa := tr.pa - va % 2 ^ 16 }) ∧
      ∀ wid w, s.wk.warps.find wid = some w → w.park = .walk [id] → ∃ z, t.wk.warps.find wid = some z ∧ parkOver t z = true ∧ z.pc = w.pc ∧
        ∃ f ∈ z.formed, f.page = k.page ∧ f.kind = k.kind)) ∧
  (∀ (s : State) (gi hw : Nat) (e : FifoEntry) (l : List FifoEntry) (es : List (Nat × FifoEntry)), (s.hwarp (hwKey gi hw)).fifo = e :: l →
    storeTogether s gi hw = some es → storeWaits s gi (writesOf es) = false → Say.L1Rising s →
    let core := (s.group gi).core
    ∃ t, exec (.storePerform gi hw) s = .next t ∧ ((∃ th ∈ groupThreads s gi, th.2.stat ≠ .exited) → t.rg.v = s.rg.v ∧ t.rg.s = s.rg.s) ∧
      (∀ x, t.rg.hwarps.find (hwKey gi hw) = some x → x.fifo = l) ∧
      (∀ f ∈ writesOf es, (∀ g ∈ writesOf es, g.2.addr % 2 ^ 64 = f.2.addr % 2 ^ 64 → g = f ∨ (samePlace g f = true ∧ writeRank g < writeRank f)) →
        match f.2.dest with
        | .spad => spadByte t core f.2.addr = f.2.byte
        | .mem _ _ => held s (f.2.addr / 128) = false → coreByte t core f.2.addr = f.2.byte
        | .tx n => ∀ d ∈ descrs s n, ∃ p ∈ t.fb.packets, p.2.kind = .store ∧ p.2.entry = n ∧ p.2.port = d.port ∧ p.2.jetty = d.jetty ∧
            p.2.chip = d.chip ∧ p.2.rxw = d.rxw ∧ p.2.gi = gi ∧ p.2.hwarp = f.1 ∧
            ((f.2.addr + wmField s n 0x10 8) % 2 ^ 64, f.2.byte) ∈ p.2.bytes) ∧
      ∀ c a, (∀ f ∈ writesOf es, f.2.dest = .spad → spadKey core f.2.addr ≠ spadKey c a) → spadByte t c a = spadByte s c a) ∧
  (∀ (s : State) (id : Nat) (d : DirItem), s.mm.dirItems.find id = some d → (∀ w ∈ d.words, w.i < 32) →
    (d.claim = none → held s d.line = false → (d.evicted = true → evictTurn s id d = true) →
      ∃ t, exec (.directoryAck id) s = .next t ∧ t.mm.dirItems.find id = none ∧ t.rg.v = s.rg.v ∧
        (∀ w ∈ d.words, (∀ w' ∈ d.words, w'.i = w.i → w' = w) →
          let own := (t.mm.llc.find d.line).bind (fun y => y.owners.find w.i)
          (d.evicted = true → memNat t (d.line * 128 + w.i * 4) 4 = w.val.toNat ∧ own = none) ∧
          (d.evicted = false → ∀ x, (l1Line s d.core d.line).words.find w.i = some x → id ∈ x.sent →
            memNat t (d.line * 128 + w.i * 4) 4 = w.val.toNat ∧ own = some d.core ∧
            ∃ y, (l1Line t d.core d.line).words.find w.i = some y ∧ y.val = x.val ∧ y.owned = true ∧
              y.dirty = (x.dirty && !(x.sent.head? = some id && x.same)))) ∧
        ∀ a, (∀ w ∈ d.words, a < d.line * 128 + w.i * 4 ∨ d.line * 128 + w.i * 4 + 4 ≤ a) → memByte t a = memByte s a) ∧
    (d.claim = none → held s d.line = true → exec (.directoryAck id) s = .next s) ∧
    ∀ c, d.claim = some c → (s.en.cmds.find c).isSome = true → if claimWaits s d.line = true then exec (.directoryAck id) s = .next s
      else ∃ t, exec (.directoryAck id) s = .next t ∧ t.mm.dirItems.find id = none ∧
        t.mm.claims = s.mm.claims ++ [{ line := d.line, cmd := c }] ∧ t.en = s.en ∧ t.rg = s.rg ∧
        (d.line < 2 ^ 41 → ∀ core, ∀ w ∈ (l1Line t core d.line).words, 32 ≤ w.1) ∧
        ∀ a, (∀ core, ¬Say.DirtyAt s core a) → memByte t a = memByte s a) ∧
  (∀ (s : State) (id : Nat) (d : DropItem), s.mm.drops.find id = some d → ∃ t, exec (.drop id) s = .next t ∧ t.mm.drops.find id = none ∧
    t.mm.mem = s.mm.mem ∧ t.rg = s.rg ∧ (∀ core line, (core, line) ≠ (d.core, d.line) → l1Key core line ≠ l1Key d.core d.line →
      l1Line t core line = l1Line s core line) ∧
    ∀ y, y ∈ (l1Line t d.core d.line).words ↔ ∃ w ∈ (l1Line s d.core d.line).words,
      if w.1 ∈ d.words then w.2.dirty = true ∧ y = (w.1, { w.2 with owned := false }) else y = w) ∧
  ∀ (s : State) (wid : Nat) (w : Warp) (lines : List Nat), s.wk.warps.find wid = some w → w.park = .lines lines → (s.group w.gi).resident = true →
    (∀ l ∈ lines, let x := groupLine s (l / 4096) (l % 4096); x.p = true ∨ x.q = true ∨ s.wk.groups.find (l / 4096) = none) →
    ∃ t, exec (.lineRetry wid) s = .next t ∧ t.rg = s.rg ∧ t.mm = s.mm ∧ t.wk.warps.find wid = some { w with park := .none } ∧
      ∀ k, k ≠ wid → t.wk.warps.find k = s.wk.warps.find k

/-- R296, R297, R299, R301, R302 and R308 to R310: a service warp performs a request on its word: an atomic's new value by its operation, a
compare-and-swap's where the old value matches, a signal's saturating sum; the old value stands in the result awaited, and no other
byte of memory changes but dirty words written back. A BPOLL reads its object; a BWAIT is over where the object holds its threshold,
else it is recorded and waits, and one beyond the recorded number is tested again. -/
def Obligations.ServiceWarpsPerformRequests : Prop :=
  (∀ (s : State) (cove id : Nat) (r : SvcReq), s.mm.svc.find id = some r → r.cove = cove → r.waiting = false → r.beyond = false →
    requestWaits s id r = false → llcPoisoned s r.pa = false → (r.bits = 32 ∨ r.bits = 64) → r.pa % (r.bits / 8) = 0 → r.pa < 2 ^ 48 →
    (∀ i < r.bits / 8, ∀ core, ¬Say.DirtyAt s core (r.pa + i)) →
    let old := memNat s r.pa (r.bits / 8)
    let rest := fun (t : State) => ((∃ th ∈ groupThreads s r.gi, th.2.stat ≠ .exited) → t.rg.v = s.rg.v ∧ t.rg.s = s.rg.s) ∧
      t.mm.svc.find id = none ∧ Say.MemBut s t r.pa (r.bits / 8)
    let answered := fun (t : State) (v : Nat) => ∀ rid res, r.result = some rid → t.wk.results.find rid = some res →
      res.known = true ∧ ∀ l ∈ res.lanes, ∀ i < l.vals.length, l.vals.getD i 0 = wordOf v i
    (∀ new, (match r.kind with
        | .atom op | .red op => new = aopVal op r.bits old r.data
        | .cas c => new = if old = c then r.data else old
        | .bsig => r.bits = 64 ∧ new = min (old + r.data) (2 ^ 64 - 1)
        | .bwait | .bpoll | .gsync => False) → new < 2 ^ r.bits →
      ∃ t, exec (.serviceWarpRequest cove id) s = .next t ∧ rest t ∧ memNat t r.pa (r.bits / 8) = new ∧ answered t old) ∧
    (r.kind = .bpoll → ∃ t, exec (.serviceWarpRequest cove id) s = .next t ∧ rest t ∧ memNat t r.pa (r.bits / 8) = old ∧
      answered t (ownView s r old)) ∧
    (r.kind = .bwait → r.bits = 64 → r.data ≤ ownView s r old → ∃ t, exec (.serviceWarpRequest cove id) s = .next t ∧ rest t ∧
      memNat t r.pa 8 = old) ∧
    (r.kind = .bwait → r.bits = 64 → ownView s r old < r.data → (s.mm.svc.filter (fun y => y.2.cove = cove && y.2.waiting)).length < 2048 →
      ∃ t, exec (.serviceWarpRequest cove id) s = .next t ∧ t.mm.svc.find id = some { r with waiting := true } ∧ memNat t r.pa 8 = old)) ∧
  (∀ (s : State) (cove id : Nat) (r : SvcReq), s.mm.svc.find id = some r → r.cove = cove → r.waiting = false → r.beyond = false →
    r.kind = .gsync → ∃ t, exec (.serviceWarpRequest cove id) s = .next t ∧ t.mm.svc.find id = none ∧ t.mm.mem = s.mm.mem ∧
      ((∃ th ∈ groupThreads s r.gi, th.2.stat ≠ .exited) → t.rg.v = s.rg.v)) ∧
  (∀ (s : State) (cove id : Nat) (r : SvcReq), s.mm.svc.find id = some r → r.cove = cove → r.beyond = true → held s (r.pa / 128) = false →
    (∀ i < 8, ∀ core, ¬Say.DirtyAt s core (r.pa + i)) → r.pa % 8 = 0 → r.pa < 2 ^ 48 →
    let v := ownView s r (memNat s r.pa 8)
    ∃ t, exec (.bwaitRetest cove id) s = .next t ∧ Say.MemBut s t r.pa 8 ∧
      ((∃ th ∈ groupThreads s r.gi, th.2.stat ≠ .exited) → t.rg.v = s.rg.v) ∧
      (r.data ≤ v → t.mm.svc.find id = none) ∧ (v < r.data → t.mm.svc.find id = some r)) ∧
  ∀ (n x y : Nat), (n = 32 ∨ n = 64) → x < 2 ^ n → y < 2 ^ n →
    let bx := BitVec.ofNat n x
    let b_y := BitVec.ofNat n y
    BitVec.ofNat n (aopVal .add n x y) = bx + b_y ∧ BitVec.ofNat n (aopVal .and n x y) = bx &&& b_y ∧
    BitVec.ofNat n (aopVal .or n x y) = bx ||| b_y ∧ BitVec.ofNat n (aopVal .xor n x y) = bx ^^^ b_y ∧ aopVal .exch n x y = y ∧
    aopVal .umin n x y = min x y ∧ aopVal .umax n x y = max x y ∧
    (BitVec.ofNat n (aopVal .smin n x y)).toInt = min bx.toInt b_y.toInt ∧ (BitVec.ofNat n (aopVal .smax n x y)).toInt = max bx.toInt b_y.toInt ∧
    ∀ op, op ≠ .fadd → op ≠ .fmin → op ≠ .fmax → op ≠ .hadd2 → op ≠ .badd2 → aopVal op n x y < 2 ^ n

/-! ### Events of the engines and the fabric (chapters 08, 13, 14, 16) -/

/-- R173, R177 to R179, R182, R259, R268, R272, R283, R335 and R382: a copy engine, or the arrays' store path, writes the bytes of the next granule of a
command in service, in order, and a command with none left and no FIN is gone; XBULK sends its granule's bytes to every receiver;
an array adds the products of a granule whose operands are read into the live elements of its tile, and no others, and goes on, or
retires the command at its last; operand bytes read ahead are those the scratchpad holds; an array is granted to the context its
class serves first once its holder's command stands where its GRAN permits. -/
def Obligations.EnginesCompleteGranules : Prop :=
  (∀ (s : State) (id : Nat) (c : Cmd) (p0 : Piece) (l : List Piece) (rest : List (List Piece)) (i : Instr) (byte : Piece → Nat → Byte),
    let g := p0 :: l
    let core := (s.group c.gi).core
    let base := (s.group c.gi).spBase
    let quiet := rest ≠ [] ∨ c.fin = .none
    let alone := fun (p : Piece) => ∀ p' ∈ g, p' ≠ p → p'.dst + p'.n ≤ p.dst ∨ p.dst + p.n ≤ p'.dst
    let byteKey := fun (p : Piece) (j : Nat) => lineKey c.gi (p0.dst / 128) * 128 + p.dst % 128 + j
    let clean := fun (a : Nat) => ∀ core, ¬Say.DirtyAt s core a
    let moved := fun (t : State) => (rest ≠ [] → ∃ y, t.en.cmds.find id = some y ∧ y.done = c.done + 1) ∧
      (rest = [] → c.fin = .none → t.en.cmds.find id = none)
    s.en.cmds.find id = some c → (granules c).drop c.done = g :: rest → c.stop = .running → c.done < c.prepared → c.bulk = false → (s.group c.gi).resident = true →
    ((i = .copyGranule id none ∧ isTile c = false ∧ c.service = true ∧ ∀ p ∈ g, p.n % 4 = 0) ∨
      (i = .mxstGranule id ∧ ∃ n e stride elems, c.moves = .tile n e stride elems ∧ 1 ≤ e ∧ ∀ p ∈ g, p.n % e = 0)) →
    (∀ p ∈ g, ∀ j < p.n, Say.CopyByte s id c p j (byte p j)) →
    (c.dsp = true → lineKey c.gi (p0.dst / 128) ∈ c.lines → spadTurn s id (lineKey c.gi (p0.dst / 128)) = true →
      ∃ t, exec i s = .next t ∧ moved t ∧ (quiet → (∀ a, clean a → memByte t a = memByte s a) ∧
        (∀ p ∈ g, alone p → ∀ j < p.n, spadByte t core (base + p.dst + j) =
          if byteKey p j ∈ c.later then spadByte s core (base + p.dst + j) else byte p j) ∧
        ∀ k a, (∀ p ∈ g, ∀ j < p.n, spadKey core (base + p.dst + j) ≠ spadKey k a) → spadByte t k a = spadByte s k a)) ∧
    ∀ tr, c.dsp = false → tlbFind s c.core c.ctx (p0.dst / 2 ^ 16) .engWrite = some tr → tr.ty = .page →
      let pa := (tr.pa + p0.dst % 2 ^ 16) / 128 * 128
      memTurn s id (pa / 128) = true →
      ∃ t, exec i s = .next t ∧ moved t ∧ (quiet → t.mm.spad = s.mm.spad ∧
        (∀ p ∈ g, alone p → ∀ j < p.n, clean (pa + p.dst % 128 + j) → memByte t (pa + p.dst % 128 + j) = byte p j) ∧
        ∀ a, clean a → (∀ p ∈ g, a < pa + p.dst % 128 ∨ pa + p.dst % 128 + p.n ≤ a) → memByte t a = memByte s a)) ∧
  (∀ (s : State) (id : Nat) (c : Cmd) (g : List Piece) (rest : List (List Piece)) (byte : Piece → Nat → Byte),
    s.en.cmds.find id = some c → (granules c).drop c.done = g :: rest → c.stop = .running → c.bulk = true → c.service = true → isTile c = false →
    (s.group c.gi).resident = true → (∀ p ∈ g, p.n % 4 = 0) → (∀ p ∈ g, ∀ j < p.n, Say.CopyByte s id c p j (byte p j)) →
    (∀ p ∈ g, c.winOff + p.src.toNat + p.n ≤ wmField s c.entry 0x0C 4 * 2 ^ 16) →
    (∀ p ∈ g, ∀ a, (a = p.dst ∨ a = p.dst + p.n - 1) → a < 2 ^ 55 ∧ (a / 2 ^ 16 = c.dst / 2 ^ 16 ∨
      ∃ tr, tlbFind s c.core c.ctx (a / 2 ^ 16) .engWrite = some tr ∧ sendCheck c.ctx false s { tr with pa := tr.pa + a % 2 ^ 16 } = none)) →
    ∃ t, exec (.xbulkGranule id none) s = .next t ∧ (rest ≠ [] ∨ c.fin = .none →
        (∀ a, (∀ core, ¬Say.DirtyAt s core a) → memByte t a = memByte s a) ∧ t.mm.spad = s.mm.spad) ∧
      (rest ≠ [] → ∃ y, t.en.cmds.find id = some y ∧ y.done = c.done + 1) ∧
      ∀ p ∈ g, (∀ p' ∈ g, p' ≠ p → p'.src.toNat + p'.n ≤ p.src.toNat ∨ p.src.toNat + p.n ≤ p'.src.toNat) → ∀ j < p.n, ∀ d ∈ descrs s c.entry,
        ∃ x ∈ t.fb.packets, x.2.kind = .store ∧ x.2.entry = c.entry ∧ x.2.port = d.port ∧ x.2.jetty = d.jetty ∧ x.2.chip = d.chip ∧
          x.2.rxw = d.rxw ∧ x.2.cmd = some id ∧ ((c.winOff + p.src.toNat + j + wmField s c.entry 0x10 8) % 2 ^ 64, byte p j) ∈ x.2.bytes) ∧
  (∀ (s : State) (core half ctx : Nat) (c : MCmd) (l : List MCmd),
    let v : ArrView := ⟨core, half, c.paired, splitMode s core⟩
    let u := c.done
    let kl := min (unitK c.stg.a) (c.stg.shp.k - unitK c.stg.a * u)
    let key := fun (m n : Nat) => accKey ctx v c.acc m n
    s.en.grants.find (halfKey core half) = some ctx → (mqueue s core half ctx).cmds = c :: l → c.stop = .running →
    (s.group c.gi).resident = true → (c.paired = true → granted s (core + 1) 0 ctx = true) → heldBack s core ctx c = false →
    (c.stg.shp.m ≤ 128 → c.stg.shp.n ≤ 128 → u < unitCount c.stg → (c.stg.spm.ben = true → hasItem c (2, 0, u / 16) = true) →
      (∀ k ∈ granuleItems c u, hasItem c k = true) → granuleFormat c u = none → s.en.accPoison = [] →
      ∃ t, exec (.matrixGranule core half none) s = .next t ∧ t.mm.mem = s.mm.mem ∧
        (∀ m ∈ liveRows c u, ∀ n < c.stg.shp.n, accOf t (key m n) = BitVec.ofNat 32 (sumElem (isNarrow c.stg.a) (rowVals c m u kl)
          (unitVals c.stg.b (itemBytes c (1, n, blockOf c.stg.b u)) u kl) (accOf s (key m n)).toNat)) ∧
        (∀ k, (∀ m ∈ liveRows c u, ∀ n < c.stg.shp.n, k ≠ key m n) → accOf t k = accOf s k) ∧
        (u + 1 < unitCount c.stg → ∃ y, (mqueue t core half ctx).cmds = y :: l ∧ y.done = u + 1 ∧ y.gi = c.gi ∧ y.acc = c.acc) ∧
        (unitCount c.stg ≤ u + 1 → (c.flip = 0 ∨ flipCode s c ≠ none) → (mqueue t core half ctx).cmds = l)) ∧
    ∀ (k : Nat × Nat × Nat) (a n last : Nat) (x : Nat × Nat × Nat), itemAt c.stg k = some (true, a, n, last) → x ∈ piecesOf a n → mayRead c k = true →
      pieceOf c k x.1 = none →
      (∀ j < (x.2.2 + 3) / 4, let b := x.2.1 + 4 * j
        let y := groupLine s c.gi (b / 128)
        y.p = true ∧ y.q = false ∧ ((s.group c.gi).core * 2 ^ 17 + ((s.group c.gi).spBase + b) / 4) ∉ s.pt.spadPoison) →
      ∃ t y bytes, exec (.matrixGranule core half (some [(k.1, k.2.1, k.2.2 * 16 + x.1)])) s = .next t ∧ (mqueue t core half ctx).cmds = y :: l ∧
        y.done = c.done ∧ t.en.accs = s.en.accs ∧ pieceOf y k x.1 = some bytes ∧
        ∀ j < x.2.2, bytes.getD j 0 = spadByte s (s.group c.gi).core ((s.group c.gi).spBase + x.2.1 + j)) ∧
  ∀ (s : State) (core half ctx : Nat),
    let place := halfKey core half
    let ready := (matrixReady s core half).filter (fun c => s.en.grants.find place != some c)
    let rests := fun (x : MCmd) => x.done = 0 ∨ x.stop ≠ .running ∨ (x.gran < 15 ∧ x.done % 2 ^ x.gran = 0)
    core < 384 → (half = 0 ∨ splitMode s core = true) → firstServed s 2 place ready = some ctx →
    (∀ holder, s.en.grants.find place = some holder → (∀ x, (mqueue s core half holder).cmds.head? = some x → rests x) ∧
      ∀ x, core % 2 = 1 → (mqueue s (core - 1) 0 holder).cmds.head? = some x → x.paired = true → rests x) →
    ∃ t, exec (.matrixGrantSwitch core half ctx) s = .next t ∧ t.en.grants.find place = some ctx ∧ (∀ k, k ≠ place →
      t.en.grants.find k = s.en.grants.find k) ∧ t.mm = s.mm ∧ t.rg = s.rg ∧ t.wk = s.wk ∧ t.en.accs = s.en.accs

/-- R314, R317, R324 to R327, R330 to R332, R461, R462, R465 and R472: a store packet at a receive window that opens it, inside its size, on a leaf of its entry, is
written there and its bytes are added to ARRIVE; a signal packet adds to its word, saturating; a packet from elsewhere is taken
in once. An acknowledgement removes the packet and ends its counted work, and a reduction packet reaches the jetty's slot.
A replay or a retransmission sends the packet again, which has then left its port. A confirmed enrolment sets ENROLLED, a lost one clears
it. A link change sets FAB.PORT.JETTY. Power above the cap, or a junction above 105 degrees, lowers the core and cove islands a step, not below
the floor, and 110 degrees remove power. A soft error is counted, or poisons what it strikes. -/
def Obligations.FabricAndPartEvents : Prop :=
  (∀ (s : State) (rxw q n owner : Nat) (tr : Xl) (x : RxSrc) (bytes : List (Nat × Byte)) (addend : Nat) (signal : Bool),
    let va := (wmField s rxw 0x10 8 + q) % 2 ^ 64
    let pa := tr.pa + va % 2 ^ 16
    let path := fun (p : RemotePkt) => (⟨p.core, p.port, p.jetty, p.chip, p.rxw, if p.core = 65534 then p.rid else 0⟩ : Path)
    (match x with
      | .own id => ∃ p, s.fb.packets.find id = some p ∧ p.taken = false ∧ p.chip = fabChip ∧ p.kind = (if signal = true then .signal else .store) ∧
          firstOfPath s id p = true ∧ fkeyOf s (wmByte s rxw 2) = some p.material ∧ p.rxw = rxw ∧ p.q = q ∧ p.bytes = bytes ∧ p.addend = addend
      | .remote p => (path p, p.seq) ∉ s.fb.seen ∧ nextOfPath s (path p) p.seq = true ∧ p.opens = true ∧ p.rxw = rxw ∧ p.q = q ∧ p.bytes = bytes ∧
          p.addend = addend) →
    wmByte s rxw 0 = 2 → owner = wmField s rxw 8 2 → n = (if signal = true then 8 else bytes.foldl (fun m b => max m (b.1 + 1)) q - q) →
    q + n ≤ wmField s rxw 0x0C 4 * 2 ^ 16 → va < 2 ^ 55 → tlbFind s 0 owner (va / 2 ^ 16) .arrive = some tr → tr.ty = .rxWin → tr.key = rxw →
    held s (pa / 128) = false → held s ((pa + n - 1) / 128) = false →
    (∀ c ∈ s.mm.l1, ∀ w ∈ c.2.words, w.1 < 32) →
    let gone := fun (t : State) => match x with
      | .own id => (∀ p, t.fb.packets.find id = some p → p.taken = true)
      | .remote p => (path p, p.seq) ∈ t.fb.seen
    (signal = false → (bytes.map (·.1)).Nodup → (∀ b ∈ bytes, q ≤ b.1) →
      ∃ t, exec (.rxPacket x) s = .next t ∧ gone t ∧ t.rg = s.rg ∧ (∀ b ∈ bytes, memByte t (pa + (b.1 - q)) = b.2) ∧
        (∀ a, (∀ b ∈ bytes, a ≠ pa + (b.1 - q)) → (∀ core, ¬Say.DirtyAt s core a) → memByte t a = memByte s a) ∧
        t.cx.adds = s.cx.adds ++ [(owner, wmField s rxw 0x18 8, bytes.length, [])]) ∧
    (signal = true → llcPoisoned s pa = false → pa % 8 = 0 → pa < 2 ^ 48 → (∀ j < 8, ∀ core, ¬Say.DirtyAt s core (pa + j)) →
      ∃ t, exec (.signalPacket x) s = .next t ∧ gone t ∧ t.rg = s.rg ∧ memNat t pa 8 = min (memNat s pa 8 + addend) (2 ^ 64 - 1) ∧
        Say.MemBut s t pa 8)) ∧
  (∀ (s : State) (id : Nat) (p : Packet), s.fb.packets.find id = some p → ackable s id p = true → p.cmd = none →
    ∃ t, exec (.packetAck id false []) s = .next t ∧ t.fb.packets.find id = none ∧ t.mm.mem = s.mm.mem ∧ t.rg.v = s.rg.v ∧
      (∀ w y c, p.works = [w] → s.wk.works.find w = some y → y.left ≤ 1 → y.sbc = some c → sbOf t y.gi y.hwarp c = sbOf s y.gi y.hwarp c - 1) ∧
      ∀ eid e off val, p.kind = .reduction → packetWords p = [(off, val)] →
        s.fb.enrols.find? (fun e => e.2.jetty = p.jetty && e.2.material = p.material && e.2.rid = p.rid) = some (eid, e) →
        s.fb.enrols.find eid = some e → id < s.md.nextId →
        let old := NMap.get {} e.slots off
        let v := BitVec.ofNat 32 (if old.count = 0 then firstContrib e.rop val.toNat else combine e.rop old.val.toNat val.toNat)
        (old.count + 1 < e.contrib → ∃ f, t.fb.enrols.find eid = some f ∧ f.slots.find off = some { count := old.count + 1, val := v }) ∧
        (e.contrib ≤ old.count + 1 → (∃ f, t.fb.enrols.find eid = some f ∧ f.slots.find off = none) ∧
          ∀ r ∈ e.recvs, r.1 = fabChip → ∃ x ∈ t.fb.packets, x.2.kind = .store ∧ x.2.rxw = r.2 ∧ x.2.chip = r.1 ∧
            x.2.bytes = (List.range 4).map (fun i => (off * 4 + i, BitVec.ofNat 8 (v.toNat / 256 ^ i))))) ∧
  (∀ (s : State) (id : Nat),
    let sent := fun (t : State) (more : Nat) => t.mm = s.mm ∧ t.rg = s.rg ∧ t.wk = s.wk ∧ t.en = s.en ∧ t.xl = s.xl ∧ t.cx = s.cx ∧
      Say.plainPart t.pt = Say.plainPart s.pt ∧ (∀ k, (t.fb.packets.find k).map (fun p => { p with left := true }) =
        (s.fb.packets.find k).map (fun p => { p with left := true, resent := p.resent + if k = id then more else 0 })) ∧
      (NMap.risingFrom none s.fb.packets = true → ∀ p, t.fb.packets.find id = some p → p.left = true)
    (∃ t, exec (.flitReplay id) s = .next t ∧ sent t 0) ∧ ∃ t, exec (.packetRetransmit id) s = .next t ∧ sent t 1) ∧
  (∀ (s : State) (entry : Nat), (∃ y, s.fb.wmap.find entry = some y ∧ 6 ≤ y.length) →
    let others := fun (t : State) => t.mm = s.mm ∧ t.rg = s.rg ∧ t.wk = s.wk ∧ ∀ k, k ≠ entry → t.fb.wmap.find k = s.fb.wmap.find k
    ((∃ e ∈ s.fb.enrols, ∃ r ∈ e.2.reqs, r.entry = entry) → ∃ t, exec (.enrolmentConfirm entry) s = .next t ∧ others t ∧
      (wmByte t entry 5).testBit 1 = true) ∧
    ((wmByte s entry 5).testBit 1 = true → ∃ t, exec (.enrolmentLost entry) s = .next t ∧ others t ∧ (wmByte t entry 5).testBit 1 = false ∧
      ∀ e ∈ t.fb.enrols, ∀ r ∈ e.2.reqs, r.entry ≠ entry)) ∧
  (∀ (s : State) (port : Nat) (j : Option (BitVec 16)), port < 16 → ∃ t, exec (.portLinkChange port j) s = .next t ∧
    portJetty t port = (match j with | some x => x.toNat | none => 0xFFFF) ∧ (∀ p, p ≠ port → portJetty t p = portJetty s p) ∧ t.mm = s.mm ∧
    t.rg = s.rg ∧ t.wk = s.wk ∧ t.en = s.en) ∧
  (∀ (s : State) (watts : Nat) (temps : List (Nat × Nat)), NMap.wf 16 s.pt.clocks = true → ∃ t, exec (.powerSample watts temps) s = .next t ∧
    ((∃ x ∈ temps, 110 ≤ x.2) → t.pt.powered = false) ∧
    ((∀ x ∈ temps, x.2 < 110) → t.rg = s.rg ∧ t.mm = s.mm ∧ t.wk = s.wk ∧ t.pt.powered = s.pt.powered ∧ t.pt.watts = watts ∧
      (s.pt.powerCap < watts ∨ (∃ x ∈ temps, 105 < x.2) → ∀ i, clockOf t i = if i < 432 then max 8 (clockOf s i - 1) else clockOf s i) ∧
      (watts ≤ s.pt.powerCap → (∀ x ∈ temps, x.2 ≤ 105) → ∀ i, clockOf t i = clockOf s i ∨ clockOf t i = min 16 (clockOf s i + 1)))) ∧
  ∀ (s : State) (site : ErrSite),
    (∃ t, exec (.softError site false none) s = .next t ∧ t.mm = s.mm ∧ t.rg = s.rg ∧ t.en = s.en ∧ t.wk = s.wk ∧
      NMap.get 0 t.pt.errors (siteKind site) = NMap.get 0 s.pt.errors (siteKind site) + 1) ∧
    ∃ t, exec (.softError site true none) s = .next t ∧ t.rg = s.rg ∧ t.wk = s.wk ∧ t.mm.mem = s.mm.mem ∧ t.mm.spad = s.mm.spad ∧ t.en.accs = s.en.accs ∧
      (∀ pa, (site = .granule pa ∨ site = .tableEntry pa) → llcPoisoned t pa = true) ∧
      (∀ core w, site = .spadWord core w → core * 2 ^ 17 + w ∈ t.pt.spadPoison)

/-! ### Events of operations on contexts, of the host's management and of memory's frames (chapters 05, 20 to 23) -/

/-- R405, R409 to R416, R436, R437, R442, R447 and R474, for the operation that stands alone: a freeze that has quiesced adds 1 to its barrier; a
checkpoint then takes the layout version and the chain and saves ranges; a latch clears its core once no group is on it; a reset then
leaves no group, grid, request or translation of the subtree, and finishes when no frame is left to scrub, with a job record free and
no park of such a frame that an engine's claim holds up. A checkpoint writes its
image, thaws and adds to DONE. A trigger starts a checkpoint for the parent and rearms. Extensions are applied in order; a receipt
is signed, counted and written. -/
def Obligations.OperationsRunToTheirEnd : Prop :=
  (∀ (s : State) (op : Nat) (o : Oper), s.cx.opers = [(op, o)] → o.stage = .draining →
    let ids := subtree s o.target
    let bar := (o.bar.map (fun b => (o.issuer, b, 1, ([] : List Nat)))).toList
    ((∀ n w, o.kind ≠ .latch n w) → quiesced s ids = false → exec (.freezeComplete op) s = .next s) ∧
    (o.kind = .freeze → quiesced s ids = true →
      exec (.freezeComplete op) s = .next { s with cx := { s.cx with opers := [], adds := s.cx.adds ++ bar } }) ∧
    (∀ a n thaw, o.kind = .ckpt a n thaw → quiesced s ids = true → ∃ t, exec (.freezeComplete op) s = .next t ∧ t.mm = s.mm ∧ t.rg = s.rg ∧
      t.cx = { s.cx with opers := [(op, { o with stage := .working, ver := s.cx.layoutVer, chain := (s.ctx o.target).chain })] } ∧
      ∀ gi g, s.wk.groups.find gi = some g → g.ctx ∈ ids → ∃ y, t.wk.groups.find gi = some y ∧ y.intact = false ∧
        (g.intact = true → ∀ i < g.scratch, NMap.get 0 y.savedSp i = spadByte s g.core (g.spBase + i))) ∧
    (∀ n w, o.kind = .latch n w →
      (holders s n ≠ [] → exec (.freezeComplete op) s = .next s) ∧
      (holders s n = [] → ∃ t, exec (.freezeComplete op) s = .next t ∧ t.cx.opers = [] ∧ t.cx.adds = s.cx.adds ++ bar ∧
        NMap.get 0 t.cx.latch n = w ∧ (∀ k, k ≠ n → NMap.get 0 t.cx.latch k = NMap.get 0 s.cx.latch k) ∧
        (∀ c ∈ t.mm.l1, c.1 / 2 ^ 41 ≠ n) ∧ (∀ c ∈ t.mm.icache, c.1 / 2 ^ 41 ≠ n) ∧ (∀ a < 2 ^ 19, spadByte t n a = 0) ∧
        (∀ e ∈ t.xl.tlb, ¬(e.place = 0 ∧ e.unit = n)) ∧ ∀ a, (∀ core, ¬Say.DirtyAt s core a) → memByte t a = memByte s a)) ∧
    ((o.kind = .reset ∨ o.kind = .revoke) → quiesced s ids = true → freeJobs s ≠ [] → parksHeld s ids = false → s.liveCtx o.target = true → 0 ∉ ids →
      (s.ctx o.target).parent ∉ ids →
      ∃ t, exec (.freezeComplete op) s = .next t ∧ (∀ g ∈ t.wk.groups, g.2.ctx ∉ ids) ∧ (∀ g ∈ t.pt.grids, g.2.ctx ∉ ids) ∧
        (∀ r ∈ t.xl.reqs, r.2.ctx ∉ ids) ∧ (∀ e ∈ t.xl.tlb, e.ctx ∉ ids) ∧ (∀ f, (t.frame f).state = 0 → (t.frame f).charge ∉ ids) ∧
        (∀ c ∈ ids, ∀ y, t.cx.ctxs.find c = some y → y.frozen = false ∧ y.xroot = 0 ∧ y.exts = 0) ∧
        (∀ f, (s.frame f).state = 0 → (s.frame f).charge ∈ ids → (t.frame f).state = 3 ∧ ∃ y, t.cx.opers.find op = some y ∧ y.stage = .working ∧
          ∃ j ∈ y.jobs, ∃ b, t.cx.jobs.find j = some b ∧ b.active = true ∧ b.owner = (s.ctx o.target).parent ∧ f ∈ b.left) ∧
        (o.kind = .reset → (∀ f ∈ s.xl.frames, f.2.charge ∉ ids) → t.cx.opers = [] ∧ (t.ctx o.target).resetting = false ∧
          ∀ b, o.bar = some b → (o.issuer, b, 1, []) ∈ t.cx.adds))) ∧
  (∀ (s : State) (op : Nat) (o : Oper) (area n : Nat) (thaw : Bool) (pa : Nat → Nat), s.cx.opers = [(op, o)] → o.kind = .ckpt area n thaw →
    o.stage = .working → o.reqs = [] →
    let body := (imageBody s o).1
    let need := 64 + body.length
    let head := fun (status bytes : Nat) => bytesOfNat 4 0x4B504348 ++ bytesOfNat 2 1 ++ bytesOfNat 2 (subtree s o.target).length ++
      bytesOfNat 4 status ++ bytesOfNat 4 o.ver ++ bytesOfNat 8 bytes ++ bytesOfNat 8 need ++ o.chain
    let img := if n < need then head 1 64 else head 0 need ++ body
    Say.Area s o.issuer area img.length .engWrite pa →
    ∃ t, exec (.checkpointImage op) s = .next t ∧ (∀ i < img.length, memByte t (pa i) = img.getD i 0) ∧ t.cx.opers = [] ∧
      (∀ b, o.bar = some b → (o.issuer, b, 1, []) ∈ t.cx.adds) ∧
      (∀ c, s.liveCtx c = true → (t.ctx c).frozen = if c = o.target ∧ thaw = true ∧ need ≤ n then false else (s.ctx c).frozen)) ∧
  (∀ (s : State) (ctx : Nat) (onCount : Bool) (g : Trigger), (if onCount = true then (s.ctx ctx).trigCount else (s.ctx ctx).trigTime) = some g →
    (onCount = true → g.left ≠ 0 → exec (.ckptTrigger ctx onCount) s = .next s) ∧
    ((onCount = true → g.left = 0) → ∃ t, exec (.ckptTrigger ctx onCount) s = .next t ∧ t.mm = s.mm ∧ t.rg = s.rg ∧
      (if onCount = true then (t.ctx ctx).trigCount else (t.ctx ctx).trigTime) = some { g with left := g.value } ∧
      (∀ y, ckptDesc g.desc = some y → ctx ≠ 0 → s.liveCtx ctx = true → s.cx.opers = [] → addrFate y.done 8 = none →
        (∀ c ∈ subtree s ctx, otherWorld s (s.ctx ctx).parent c = false) →
        ∃ id o, t.cx.opers = [(id, o)] ∧ o.kind = .ckpt y.area y.bytes y.thaw ∧ o.target = ctx ∧ o.issuer = (s.ctx ctx).parent ∧
          o.bar = (if y.done = 0 then none else some y.done) ∧ o.stage = .draining ∧ (t.ctx ctx).frozen = true) ∧
      ((∃ x ∈ s.cx.opers, x.2.target = ctx ∧ ∃ a n w, x.2.kind = .ckpt a n w) → t.cx.opers = s.cx.opers))) ∧
  (∀ (s : State) (ctx : Nat) (e : Ext) (l : List Ext), (s.ctx ctx).extQ = e :: l →
    ∃ t, exec (.extensionApplied ctx) s = .next t ∧ t.mm = s.mm ∧ t.rg = s.rg ∧ t.wk = s.wk ∧ (∀ c, c ≠ ctx → t.ctx c = s.ctx c) ∧
      t.ctx ctx = { s.ctx ctx with extQ := l, chain := sha256 ((s.ctx ctx).chain ++ bytesOfNat 1 e.tag ++ bytesOfNat 8 e.len ++ e.digest),
                                   exts := ((s.ctx ctx).exts + 1) % 2 ^ 64 }) ∧
  ∀ (s : State) (id : Nat) (r : Receipt) (chain : List Byte) (exts : Nat) (pa : Nat → Nat), s.cx.receipts.find id = some r →
    (∀ w ∈ r.waits, extPending s w = false) → r.reqs = [] → r.image = [] → r.taken = some (chain, exts) →
    let msg := bytesOfNat 4 0x54504352 ++ bytesOfNat 2 1 ++ bytesOfNat 2 (if r.prot = true then 1 else 0) ++ bytesOfNat 8 (s.cx.counter + 1) ++
      bytesOfNat 8 r.path ++ bytesOfNat 8 exts ++ fixLen 32 chain ++ fixLen 32 r.nonce ++ fixLen 32 Config.partId ++ fixLen 32 Config.fwMeas ++
      fixLen 32 Config.receiptKey ++ fixLen 16 (Config.bootId s.pt.boots) ++ bytesOfNat 8 s.cx.layoutVer ++ bytesOfNat 8 s.pt.cycle ++
      List.replicate 32 0
    let img := msg ++ fixLen 17088 (Config.signReceipt msg)
    Say.Area s r.issuer r.out 17344 .engWrite pa →
    ∃ t, exec (.receiptSigned id) s = .next t ∧ img.length = 17344 ∧ (∀ i < 17344, memByte t (pa i) = img.getD i 0) ∧ t.cx.receipts.find id = none ∧
      t.cx.counter = s.cx.counter + 1 ∧ t.rg = s.rg ∧ t.wk = s.wk ∧ (r.bar ≠ 0 → (r.issuer, r.bar, 1, []) ∈ t.cx.adds)

/-- R421, R422, R425, R445, R460 and R463: at a layout tick a staged change whose engines are quiet takes effect and LAYOUT.VER rises by 1;
one that is not quiet waits, or is abandoned if it is a change of modes or a retirement. A metering tick adds USED to FRAMEMS.
Backwash writes a frame with zeros and gives it to its owner. -/
def Obligations.TicksApplyChangesAndFramesAreZeroed : Prop :=
  (∀ (s : State) (c : Staged), s.cx.staged = [c] → s.cx.opers = [] →
    (changeQuiet s c.change = false → exec .layoutTick s = .next s) ∧
    (changeQuiet s c.change = true → ∃ t, exec .layoutTick s = .next t ∧ t.cx.layoutVer = s.cx.layoutVer + 1 ∧
      (∀ ctx g, c.change = .grant ctx g → t.cx.staged = [] ∧ t.cx.ctxs.find ctx = (s.cx.ctxs.find ctx).map (fun x => { x with grant := g })) ∧
      (∀ ctx v cc m l guar burst, c.change = .share ctx v cc m l guar burst → t.mm = s.mm ∧ t.cx.staged = [] ∧
        t.cx.ctxs.find ctx = (s.cx.ctxs.find ctx).map (fun x =>
          { x with shareV := v, shareC := cc, shareM := m, shareL := l, guar := guar, burst := burst }) ∧
        ∀ k, k ≠ ctx → t.cx.ctxs.find k = s.cx.ctxs.find k) ∧
      (∀ frames ctx, c.change = .charge frames ctx → s.liveCtx ctx = true → t.mm = s.mm ∧ t.cx.staged = [] ∧
        ∀ f ∈ frames, (s.frame f).state = 0 → (t.frame f).charge = ctx ∧ ((s.frame f).charge ≠ ctx → (t.frame f).wt = (s.ctx ctx).world)) ∧
      (∀ ctx, c.change = .remove ctx → s.cx.ctxs.find ctx ≠ none → t.mm = s.mm ∧ t.cx.staged = [] ∧
        ∀ k ∈ subtree s ctx, t.cx.ctxs.find k = none) ∧
      (∀ l, c.change = .modes l → (l.map (·.1)).Nodup → t.mm = s.mm ∧ t.cx.staged = [] ∧ ∀ x ∈ l, NMap.get 0 t.en.arrMode x.1 = x.2) ∧
      (∀ u, c.change = .retire u → t.cx.staged = [] ∧
        let used := NMap.get 0 s.pt.sparesUsed (sparePool u)
        (used < spareCount u → NMap.get 0 t.pt.sparesUsed (sparePool u) = used + 1 ∧ t.pt.retired = s.pt.retired) ∧
        (spareCount u ≤ used → t.pt.retired = s.pt.retired ++ [u])) ∧
      ∀ e seq, c.reply = some (e, seq) → ∃ tag, t.pt.out = s.pt.out ++ [.reply (tenantOf s e).qp 0x14 0 seq [] tag])) ∧
  (∀ (s : State), s.cx.staged = [] → exec .layoutTick s = .next s) ∧
  (∀ (s : State) (id : Nat) (c : Staged), s.cx.staged.find? (fun x => x.id = id) = some c →
    ((changeQuiet s c.change = true ∨ ((∀ l, c.change ≠ .modes l) ∧ ∀ u, c.change ≠ .retire u)) → exec (.layoutAbandon id) s = .next s) ∧
    (changeQuiet s c.change = false → ((∃ l, c.change = .modes l) ∨ ∃ u, c.change = .retire u) → ∃ t, exec (.layoutAbandon id) s = .next t ∧
      t.cx = { s.cx with staged := s.cx.staged.filter (fun x => x.id != id) } ∧ t.mm = s.mm ∧ t.rg = s.rg ∧ t.wk = s.wk ∧ t.en = s.en ∧
      (c.reply = none → t.pt = s.pt) ∧ ∀ e seq, c.reply = some (e, seq) → ∃ tag, t.pt.out = s.pt.out ++ [.reply (tenantOf s e).qp 0x14 1 seq [] tag])) ∧
  (∀ (s : State), ∃ t, exec .framemsTick s = .next t ∧ { t with cx := { t.cx with ctxs := s.cx.ctxs } } = s ∧
    ∀ c x, s.cx.ctxs.find c = some x → t.cx.ctxs.find c = some { x with framems := (x.framems + x.used) % 2 ^ 64 }) ∧
  ∀ (s : State) (id f : Nat) (l : List Nat) (j : Job), s.cx.jobs.find id = some j → j.left = f :: l → j.active = true → frameBusy s f = false →
    ∃ t, exec (.backwashFrame id) s = .next t ∧ (∀ a, a / 2 ^ 16 = f → memByte t a = 0) ∧ (∀ a, a / 2 ^ 16 ≠ f → memByte t a = memByte s a) ∧
      (∀ c ∈ t.mm.l1, c.1 % 2 ^ 41 / 512 ≠ f) ∧ t.rg = s.rg ∧ t.wk = { s.wk with results := t.wk.results } ∧ ∃ b, t.cx.jobs.find id = some b ∧
        (l ≠ [] → b = { j with left := l, done := j.done + 1 }) ∧ (l = [] → b.active = false ∧ b.done = j.done + 1) ∧
        (j.ofReset = false → (t.frame f).charge = j.owner ∧ (t.frame f).state = 0 ∧ (t.frame f).bound = false ∧
          (∀ x, s.cx.ctxs.find j.owner = some x → (t.ctx j.owner).used = x.used + 1) ∧
          (l = [] → j.bar ≠ 0 → t.cx.adds = s.cx.adds ++ [(j.owner, j.bar, 1, [])]))

/-- R123 to R129, R133 and R134: an epoch does nothing while MIG.CTL is off; with the pool between its marks it only halves heat, below FREELOW
it begins to park the victim of R129, above FREEHIGH it begins to recall a noted far page. A park that completes puts the frame's
bytes in the pool of its jetty, its record at STATE 2 and the frame among the free ones, unless it meets a lost pseudo-channel; a recall that completes puts a page's bytes
in its frame, rewrites the leaf and charges the context of the record; one that fails gives the frame back. -/
def Obligations.PagesMoveBetweenFramesAndThePool : Prop :=
  (∀ (s : State) (queued : Nat),
    let p := s.pt
    let free := s.xl.pool.length
    (p.migCtl % 2 = 0 → exec (.migrationEpoch queued) s = .next s) ∧
    (p.migCtl % 2 = 1 → p.migFreeLow ≤ free → (free ≤ p.migFreeHigh ∨ p.migCtl / 2 % 2 = 0) → NMap.wf {} s.xl.frames = true →
      ∃ t, exec (.migrationEpoch queued) s = .next t ∧ { t with xl := { t.xl with frames := s.xl.frames } } = s ∧
        ∀ f, t.frame f = { s.frame f with heat := (s.frame f).heat / 2 }) ∧
    (p.migCtl % 2 = 1 → 1 ≤ p.migBatch → queued + 1280 ≤ p.migQDepth →
      (∀ v, free < p.migFreeLow → p.migFreeLow < p.migFreeHigh → victimFor s none = some v →
        let rec_ := Config.farBlock (v.va / 2 ^ 26) % (hbmTop / 2 ^ 16) * 2 ^ 16 + 64 * (v.va / 2 ^ 16 % 1024)
        (∀ l ∈ parkLines v ++ linesOf rec_ 64, held s l = false) → (∀ i < 8, ∀ core, ¬Say.DirtyAt s core (v.pa + i)) →
        ∃ t, exec (.migrationEpoch queued) s = .next t ∧ ∃ y ∈ t.xl.parks, y.2.leafPa = v.pa ∧ y.2.frame = v.frame ∧ y.2.va = v.va) ∧
      ∀ ctx page leaf rec_, p.migFreeLow ≤ free → p.migFreeHigh < free → p.migCtl / 2 % 2 = 1 → s.xl.farNotes = [(ctx, page)] →
        s.liveCtx ctx = true → (xlateNow s 0 ctx (page * 2 ^ 16) .read).1 = .far leaf rec_ →
        (∃ size a w x fr k, entOf 0 0 (memNat s leaf 8) = .leaf 3 size a w x fr k) → (∀ y ∈ s.xl.parks, y.2.leafPa ≠ leaf) →
        ∃ t, exec (.migrationEpoch queued) s = .next t ∧ (∃ y ∈ t.xl.recalls, y.2.leafPa = leaf) ∧ t.xl.farNotes = [])) ∧
  (∀ (s : State) (id : Nat) (p : ParkOp), s.xl.parks.find id = some p → frameBusy s p.frame = false →
    (∀ i < 512, held s (p.frame * 512 + i) = false) → (∀ l ∈ linesOf p.recPa 64, held s l = false) →
    (∀ a, a / 2 ^ 16 = p.frame → ∀ core, ¬Say.DirtyAt s core a) → (∀ c ∈ s.mm.l1, ∀ w ∈ c.2.words, w.1 < 32) →
    let place := memNat s (p.recPa + 8) 2 * 2 ^ 64 + memNat s p.recPa 8
    let attr := p.oldLeaf / 64 % 4
    let holder := (s.frame p.frame).charge
    ∃ t page, exec (.parkComplete id) s = .next t ∧ t.xl.parks.find id = none ∧ t.xl.pool = (if frameLost s p.frame = true then s.xl.pool else s.xl.pool ++ [p.frame]) ∧
      t.xl.poolPages.find place = some page ∧ page.bytes = memBytes s (p.frame * 2 ^ 16) 65536 ∧ page.seq = memNat s (p.recPa + 0x10) 8 ∧
      (∀ k, k ≠ place → t.xl.poolPages.find k = s.xl.poolPages.find k) ∧ memByte t (p.recPa + 0x0B) = 2 ∧
      (attr = 0 → ∀ i < 16, memByte t (p.recPa + 0x20 + i) = 0) ∧ (t.frame p.frame).state = 2 ∧ (t.frame p.frame).bound = false ∧
      (∀ x, s.cx.ctxs.find holder = some x → (t.ctx holder).used = x.used - 1) ∧ (∀ c ∈ t.mm.l1, c.1 % 2 ^ 41 / 512 ≠ p.frame) ∧
      t.rg = s.rg ∧ t.wk = { s.wk with results := t.wk.results }) ∧
  ∀ (s : State) (id f : Nat) (r : RecallOp) (how : RecallEnd), s.xl.recalls.find id = some r → r.frame = some f →
    (∀ l ∈ linesOf r.recPa 64 ++ linesOf r.leafPa 8, held s l = false) →
    let leaf := memNat s r.leafPa 8
    let place := memNat s (r.recPa + 8) 2 * 2 ^ 64 + memNat s r.recPa 8
    let charge := memNat s (r.recPa + 0x0E) 2
    let key := memNat s (r.recPa + 0x0C) 1
    let attr := leaf / 64 % 4
    let mine := ∃ size a w x k, entOf 0 0 leaf = .leaf 3 size a w x (r.recPa / 2 ^ 16) k
    (¬mine → exec (.recallComplete id how) s =
      .next { s with xl := { s.xl with recalls := s.xl.recalls.erase id,
                                       pool := (if frameLost s f = true then s.xl.pool else s.xl.pool ++ [f]) } }) ∧
    (mine → how ≠ .ok → ∃ t, exec (.recallComplete id how) s = .next t ∧ t.xl.recalls.find id = none ∧ (frameLost s f = false → f ∈ t.xl.pool) ∧
      t.xl.poolPages = s.xl.poolPages) ∧
    ∀ page, mine → how = .ok → s.xl.poolPages.find place = some page → page.bytes.length = 65536 →
      (attr ≠ 0 → page.material = (NMap.get {} s.pt.mkeys key).material ∧ page.seq = memNat s (r.recPa + 0x10) 8 ∧
        page.tag = memBytes s (r.recPa + 0x20) 16) →
      s.liveCtx charge = true → (∀ j ∈ s.cx.jobs, j.2.active = true → j.2.ofReset = true → charge ∉ j.2.ctxs) →
      (∀ c ∈ s.mm.l1, ∀ w ∈ c.2.words, w.1 < 32) → (∀ i < 8, (r.leafPa + i) / 2 ^ 16 ≠ f ∧ r.leafPa + i ≠ r.recPa + 0x0B) →
      (r.recPa + 0x0B) / 2 ^ 16 ≠ f →
      ∃ t, exec (.recallComplete id how) s = .next t ∧ t.xl.recalls.find id = none ∧ t.xl.poolPages.find place = none ∧ t.xl.pool = s.xl.pool ∧
        (∀ i < 65536, memByte t (f * 2 ^ 16 + i) = page.bytes.getD i 0) ∧ memByte t (r.recPa + 0x0B) = 0 ∧
        memNat t r.leafPa 8 = (1 + 2 * 2 + leaf % 2 ^ 12 / 64 * 64 + (if leaf / 2 ^ 10 % 2 = 1 then 0 else 2 ^ 10) + f * 2 ^ 16 +
          (if attr = 0 then 0 else key * 2 ^ 48)) % 2 ^ 64 ∧
        (t.frame f).charge = charge ∧ (t.frame f).state = 0 ∧ (t.frame f).bound = true ∧ (t.frame f).attr = attr ∧
        (∀ x, s.cx.ctxs.find charge = some x → (t.ctx charge).used = x.used + 1) ∧ t.rg = s.rg ∧ t.wk = s.wk

/-- R87 to R90, R140, R191, R192, R373, R381, R383, R385, R398, R399 and R401: a record that passes its checks is accepted, one of a context
under reset or of a malformed object refused; a span is placed on the core it fits on, its threads at the entry; a span that was
pre-empted comes back to its own ranges; a free quarter forms an issue warp of the highest frontier entry; pre-emption takes the
groups of a span off their cores; a finished grid extends its result buffers and adds 1 to DONE. -/
def Obligations.GridsAreAcceptedPlacedRunAndCompleted : Prop :=
  (∀ (s : State) (q : Nat) (ahead rest : List QRec) (r : QRec), (queueOf s q).recs = ahead ++ r :: rest → (∀ x ∈ ahead, x.grid.isSome = true) →
    r.grid = none → r.reqs = [] →
    let f := fieldOf r.bytes
    let code := f 0 8
    let refused := fun (t : State) (why : Nat) => t.mm.mem = s.mm.mem ∧ t.rg = s.rg ∧ t.wk = s.wk ∧ (queueOf t q).recs = ahead ++ rest ∧
      (queueOf t q).refused = min ((queueOf s q).refused + 1) (2 ^ 32 - 1) ∧ (queueOf t q).last = why ∧ t.pt.grids = s.pt.grids
    ((s.liveCtx r.ctx = false ∨ isResetting s r.ctx = true) → ∃ t, exec (.recordAcceptance q) s = .next t ∧ refused t 7) ∧
    (s.liveCtx r.ctx = true → isResetting s r.ctx = false →
      (isFrozen s r.ctx = true → exec (.recordAcceptance q) s = .next s) ∧
      (isFrozen s r.ctx = false → (code % 4096 ≠ 0 ∨ 2 ^ 55 ≤ code) → ∃ t, exec (.recordAcceptance q) s = .next t ∧ refused t 1) ∧
      ∀ h : List Byte, isFrozen s r.ctx = false → code % 4096 = 0 → code < 2 ^ 55 → Say.Readable s r.ctx code 64 h →
        ((objHeaderOk h = false ∨ fieldOf h 6 2 ≤ f 8 2) → ∃ t, exec (.recordAcceptance q) s = .next t ∧ refused t 1) ∧
        ∀ tab obj args : List Byte, objHeaderOk h = true → f 8 2 < fieldOf h 6 2 →
          Say.Readable s r.ctx (code + fieldOf h 0x0C 4) (32 * fieldOf h 6 2) tab →
          (kernelOk h tab (f 8 2) = true → recordReason s r.ctx r.bytes tab ≠ 0 → ∃ t, exec (.recordAcceptance q) s = .next t ∧
            refused t (recordReason s r.ctx r.bytes tab)) ∧
          (kernelOk h tab (f 8 2) = true → recordReason s r.ctx r.bytes tab = 0 → Say.Readable s r.ctx code (fieldOf h 8 4) obj →
            Say.Readable s r.ctx (f 0x28 8) (f 0x30 4) args →
            ∃ t gid g, exec (.recordAcceptance q) s = .next t ∧ t.mm.mem = s.mm.mem ∧ t.rg = s.rg ∧ t.wk = s.wk ∧
              (queueOf t q).recs = ahead ++ { r with grid := some gid, reqs := [], deny := false } :: rest ∧
              (queueOf t q).accepted = ((queueOf s q).accepted + 1) % 2 ^ 32 ∧ t.pt.grids.find gid = some g ∧ g.ctx = r.ctx ∧
              g.entry = code + fieldOf h 0x10 4 + fieldOf tab (32 * f 8 2) 4 ∧ g.gx = f 0x10 4 ∧ g.gy = f 0x14 2 ∧ g.gz = f 0x16 2 ∧
              g.gsize = f 0x18 2 ∧ g.span = f 0x1A 1 ∧ g.placed = 0 ∧ g.ended = 0 ∧ g.done = f 0x38 8 ∧ g.args = f 0x28 8 ∧
              ∃ l : List Ext, (t.ctx r.ctx).extQ = (s.ctx r.ctx).extQ ++ l ∧ l.map (fun e => (e.tag, e.len, e.digest)) =
                [(4, r.bytes.length, objDigest r.bytes), (1, obj.length, objDigest obj)] ++
                  (if args = [] then [] else [(2, args.length, objDigest args)])))) ∧
  (∀ (s : State) (q gid n : Nat) (r : QRec) (rest : List QRec) (g : Grid),
    let w := (g.gsize + 31) / 32
    (∀ x ∈ s.wk.spans, x.2.placed = true ∨ (s.grid x.2.grid).queue ≠ q ∨ x.2.groups = []) → (queueOf s q).recs = r :: rest → r.grid = some gid →
    s.pt.grids.find gid = some g → isFrozen s g.ctx = false → isResetting s g.ctx = false → (∀ e ∈ (s.ctx g.ctx).extQ, e.id ∉ g.exts) →
    g.span = 1 → g.placed < g.gx * g.gy * g.gz → 1 ≤ g.gsize → g.gsize ≤ 1024 → w * g.regs ≤ 4096 → g.scratch ≤ 524288 →
    n < 384 → latchFits s g.world n = true → holders s n = [] → (∀ m, ownCore s g.ctx m = true ∨ s.pt.lent.find m = some g.ctx ↔ m = n) →
    ∃ t gi y, exec (.spanPlacement q) s = .next t ∧ t.wk.groups.find gi = some y ∧ y.core = n ∧ y.ctx = g.ctx ∧ y.grid = gid ∧ y.gid = g.placed ∧
      y.resident = true ∧ y.roles = 7 ∧ y.regs = g.regs ∧ y.scratch = g.scratch ∧ y.gsize = g.gsize ∧ y.rb % 8 = 0 ∧ y.rb + w * g.regs ≤ 4096 ∧
      y.spBase % 128 = 0 ∧ y.spBase + g.scratch ≤ 524288 ∧ (∃ z, t.wk.spans.find y.span = some z ∧ z.groups = [gi] ∧ z.placed = true) ∧
      (∀ i < g.gsize, ∃ th, t.rg.threads.find (thKey gi (i / 32) (i % 32)) = some th ∧ th.pc = BitVec.ofNat 64 g.entry ∧ th.prio = g.prio ∧
        th.stat = .frontier ∧ th.gen = genStart g.lseed (g.placed * 1024 + i)) ∧
      (∀ i < 6, NMap.get 0 t.rg.s (sKey gi i) =
        [wordOf g.args 0, wordOf g.args 1, BitVec.ofNat 32 g.argBytes, BitVec.ofNat 32 g.placed, wordOf g.data 0, wordOf g.data 1].getD i 0) ∧
      (∀ l < g.scratch / 128, (presenceOf t n (y.spBase / 128 + l)).p = true) ∧ t.rg.v = s.rg.v ∧ t.mm.mem = s.mm.mem ∧
      (∃ z, t.pt.grids.find gid = some z ∧ z.placed = g.placed + 1)) ∧
  (∀ (s : State) (q sp n gi : Nat) (x : Span) (y : Group) (g : Grid),
    let w := (g.gsize + 31) / 32
    s.wk.spans = [(sp, x)] → x.placed = false → x.groups = [gi] → s.pt.grids.find x.grid = some g → g.queue = q → s.wk.groups = [(gi, y)] →
    y.resident = false → y.intact = true → y.core = n → y.ctx = g.ctx → isFrozen s g.ctx = false → isResetting s g.ctx = false →
    leaving s gi = false → dirtyHeld s n = false → arrayFits s (needAgain s g gi) n = true → s.xl.reqs = [] → s.wk.stops = [] → s.en.mqueues = [] → n < 384 → latchFits s g.world n = true →
    (∀ m, ownCore s g.ctx m = true ∨ s.pt.lent.find m = some g.ctx ↔ m = n) → y.rb % 8 = 0 → 0 < w * g.regs → y.rb + w * g.regs ≤ 4096 →
    g.gsize ≤ 1024 → y.spBase % 128 = 0 → y.spBase + g.scratch ≤ 524288 → (g.scratch = 0 → y.spBase = 0) → NMap.wf 0 s.mm.spad = true →
    ∃ t z, exec (.spanPlacement q) s = .next t ∧ t.wk.groups.find gi = some z ∧ z.resident = true ∧ z.core = n ∧ z.rb = y.rb ∧ z.spBase = y.spBase ∧
      t.wk.spans.find sp = some { x with placed := true } ∧ t.rg.v = s.rg.v ∧ t.rg.s = s.rg.s ∧ t.rg.p = s.rg.p ∧ t.mm.mem = s.mm.mem ∧
      (∀ c a, spadByte t c a = spadByte s c a) ∧ ∀ k, (t.rg.threads.find k) = s.rg.threads.find k) ∧
  (∀ (s : State) (core quarter gi k : Nat) (g : Group) (th : Thread),
    let entry := (groupThreads s gi).filter (fun y => y.2.stat = .frontier && decide (y.1 / 32 % 32 % 4 = quarter) && y.2.prio = th.prio && y.2.pc = th.pc)
    core < 384 → quarter < 4 → s.wk.quarters.find (core * 4 + quarter) = none → s.wk.groups = [(gi, g)] → g.core = core → g.resident = true →
    isFrozen s g.ctx = false → isResetting s g.ctx = false → (∀ w ∈ s.wk.warps, ¬(w.2.gi = gi ∧ w.2.quarter = quarter)) →
    (∀ hw, (s.hwarp (hwKey gi hw)).awaited = []) → (s.rg.threads.map (·.1)).Nodup → (k, th) ∈ entry →
    (∀ y ∈ groupThreads s gi, y.2.stat = .frontier → y.1 / 32 % 32 % 4 = quarter → y.2.prio < th.prio ∨ (y.2.prio = th.prio ∧ th.pc.toNat ≤ y.2.pc.toNat)) →
    ∃ t id w, exec (.runSelection core quarter) s = .next t ∧ t.wk.quarters.find (core * 4 + quarter) = some { run := some id } ∧
      t.wk.warps.find id = some w ∧ w.gi = gi ∧ w.pc = th.pc ∧ w.prio = th.prio ∧ w.core = core ∧ w.quarter = quarter ∧ w.park = .none ∧ w.count = 0 ∧
      activeLanes w ≠ [] ∧ t.mm = s.mm ∧ t.rg.v = s.rg.v ∧ t.rg.s = s.rg.s ∧ t.rg.p = s.rg.p ∧
      (∀ q ∈ activeLanes w, ∃ y ∈ entry, y.1 = thKey gi q.2.hwarp q.2.hlane ∧ y.1 % 4 = q.1 % 4 ∧
        t.rg.threads.find y.1 = some { y.2 with stat := .inWarp }) ∧
      (((entry.map (fun y => y.1 / 4)).eraseDups).length ≤ 8 → ∀ y ∈ entry, ∃ q ∈ activeLanes w, y.1 = thKey gi q.2.hwarp q.2.hlane)) ∧
  (∀ (s : State) (sp gi : Nat) (x : Span) (why : PreemptWhy), s.wk.spans.find sp = some x → x.placed = true → x.groups = [gi] →
    (mayPreempt s x why = false → exec (.preemption sp why) s = .next s) ∧
    ∀ g, mayPreempt s x why = true → s.wk.groups.find gi = some g → (∀ c ∈ s.en.cmds, c.2.gi ≠ gi) →
      (∀ th ∈ groupThreads s gi, th.2.restart.isOpen = false) →
      ∃ t, exec (.preemption sp why) s = .next t ∧ t.wk.groups.find gi = some { g with resident := false } ∧
        t.wk.spans.find sp = some { x with placed := false } ∧ t.rg = s.rg ∧ t.mm = s.mm ∧
        (∀ id w, s.wk.warps.find id = some w → activeLanes w ≠ [] → t.wk.warps.find id = some w) ∧
        (∀ id w, s.wk.warps.find id = some w → w.gi = gi → ∀ z, t.wk.quarters.find (w.core * 4 + w.quarter) = some z → z.run ≠ some id) ∧
        ∀ mq ∈ t.en.mqueues, ∀ c ∈ mq.2.cmds, c.gi = gi → c.stop = .running → c.asked = true) ∧
  (∀ (s : State) (gi : Nat), ∃ t, exec (.eddyRestore gi) s = .next t ∧ { t with wk := { t.wk with groups := s.wk.groups } } = s ∧
    ∀ k, t.wk.groups.find k = if k = gi then (s.wk.groups.find k).map (fun g => { g with demoted := none }) else s.wk.groups.find k) ∧
  ∀ (s : State) (gid : Nat) (g : Grid), s.pt.grids.find gid = some g →
    (g.ended < g.gx * g.gy * g.gz → exec (.gridCompletion gid) s = .next s) ∧
    (g.gx * g.gy * g.gz ≤ g.ended → g.reqs = [] → g.dropped = false →
      (∀ c ∈ s.mm.l1, c.1 / 2 ^ 41 ∈ g.cores → ∀ w ∈ c.2.words, w.2.dirty = false) → (∀ n ∈ g.cores, dirtyHeld s n = false) →
      (g.hashed = g.hbufs.length → (∀ e ∈ (s.ctx g.ctx).extQ, e.id ∉ g.exts) → ∃ t, exec (.gridCompletion gid) s = .next t ∧
        t.pt.grids.find gid = none ∧ t.rg = s.rg ∧ t.mm = s.mm ∧ (g.done ≠ 0 → t.cx.adds = s.cx.adds ++ [(g.ctx, g.done, 1, [])])) ∧
      ∀ a n l, g.hbufs.drop g.hashed = [(a, n)] → s.cx.ctxs.find g.ctx ≠ none → Say.Readable s g.ctx a n l →
        ∃ t e z, exec (.gridCompletion gid) s = .next t ∧ (t.ctx g.ctx).extQ = (s.ctx g.ctx).extQ ++ [e] ∧ e.tag = 3 ∧ e.len = n ∧
          e.digest = objDigest l ∧ t.pt.grids.find gid = some z ∧ z.hashed = g.hashed + 1 ∧ e.id ∈ z.exts ∧ t.mm.mem = s.mm.mem ∧ t.rg = s.rg)

/-- R10, R376, R390, R414, R434, R449 to R461, R464, R466 and R467: a WRITE at a provisioned entry is performed in the tenant's space and its immediate
added; one that fails its checks is refused. A frame is checked in order, and one that passes moves the entry's SEQ and has its
effect: a launch frame's record enters its queue; a command has the effect and the reply that its rule gives; commands of the root
come from entry 0 alone. An acknowledged EXPORT is answered. Power-on, reset and power loss leave the state the rules give. -/
def Obligations.MessagesOfTheHostHaveTheirEffect : Prop :=
  (∀ (s : State) (m : HostMsg) (e : Nat) (pa : Nat → Nat) (imm : Word),
    let t0 := tenantOf s e
    let written := fun (t : State) => t.rg = s.rg ∧ t.wk = s.wk ∧ (∀ i < m.bytes.length, memByte t (pa i) = m.bytes.getD i 0) ∧
      (∀ a, (∀ i < m.bytes.length, a ≠ pa i) → (∀ core, ¬Say.DirtyAt s core a) → memByte t a = memByte s a)
    Say.NextOnItsPair s m.src m.qp → matchEntry s m.src m.qp = some e → t0.standsOpen = false →
    ((m.rkey ≠ t0.ctx ∨ s.liveCtx t0.ctx = false) → exec (.hostWrite m) s =
      .next { s with pt := { s.pt with out := s.pt.out ++ [.nak m.src m.qp true] } }) ∧
    (m.rkey = t0.ctx → s.liveCtx t0.ctx = true → Say.Area s t0.ctx m.va m.bytes.length .write pa →
      (∃ t, exec (.hostWrite m) s = .next t ∧ written t ∧ t.cx = s.cx ∧ t.pt = s.pt) ∧
      ∃ t, exec (.hostWriteImm m imm) s = .next t ∧ written t ∧
        t.cx.adds = (if t0.imm = 0 then s.cx.adds else s.cx.adds ++ [(t0.ctx, t0.imm, imm.toNat, [])]) ∧ t.pt.out = s.pt.out)) ∧
  (∀ (s : State) (m : HostMsg), Say.NextOnItsPair s m.src m.qp → matchEntry s m.src m.qp = none →
    exec (.hostWrite m) s = .next { s with pt := { s.pt with noMatch := (s.pt.noMatch + 1) % 2 ^ 32 } }) ∧
  (∀ (s : State) (src qp : Nat), exec (.hostReadRefused src qp) s = .next { s with pt := { s.pt with out := s.pt.out ++ [.nak src qp false] } }) ∧
  (∀ (s : State) (h : FrameHdr) (i : Instr) (form : Bool),
    ((∃ g l, i = .launchFrame g l ∧ h = wholeFrame g l) ∧ form = launchForm h.bytes) ∨ ((∃ c b n, i = .readview h c b n) ∧ form = commandForm 0x01 h) ∨
      ((∃ r, i = .exportCmd h r) ∧ form = commandForm 0x02 h) ∨ ((∃ r, i = .keyload h r) ∧ form = commandForm 0x10 h) ∨
      ((∃ c k v d, i = .armckpt h c k v d) ∧ form = commandForm 0x11 h) ∨ ((∃ a k n, i = .report h a k n) ∧ form = commandForm 0x12 h) ∨
      (i = .health h ∧ form = commandForm 0x13 h) ∨ ((∃ r, i = .layout h r) ∧ form = commandForm 0x14 h) ∨
      ((∃ w, i = .powercap h w) ∧ form = commandForm 0x15 h) ∨ (i = .bootstmt h ∧ form = commandForm 0x16 h) ∨
      (i = .reset h ∧ form = commandForm 0x17 h) →
    ((∃ m ∈ s.pt.inbox, m.src = h.src ∧ m.qp = h.qp) →
      exec i s = .next { s with pt := { s.pt with inbox := s.pt.inbox ++ [{ src := h.src, qp := h.qp, msg := some i }] } }) ∧
    (Say.NextOnItsPair s h.src h.qp →
      (matchEntry s h.src h.qp = none → exec i s = .next { s with pt := { s.pt with noMatch := (s.pt.noMatch + 1) % 2 ^ 32 } }) ∧
      ∀ e, matchEntry s h.src h.qp = some e →
        let bad := { s with pt := { s.pt with badFrame := (s.pt.badFrame + 1) % 2 ^ 32 } }
        ((tenantOf s e).standsOpen = true → (i ≠ .health h ∧ i ≠ .bootstmt h) ∨ form = false → exec i s = .next bad) ∧
        ((tenantOf s e).standsOpen = false → tagHolds (tenantOf s e) h = false ∨ h.seq ≤ (tenantOf s e).lastSeq →
          exec i s = .next { s with pt := { s.pt with badTag := (s.pt.badTag + 1) % 2 ^ 32 } }) ∧
        ((tenantOf s e).standsOpen = false → tagHolds (tenantOf s e) h = true → (tenantOf s e).lastSeq < h.seq → form = false →
          exec i s = .next bad))) ∧
  (∀ (s : State) (h : FrameHdr) (e : Nat) (form : Bool), Say.Accepted s h form e →
    let own := (tenantOf s e).ctx
    let seen := fun (t : State) => Say.PortOnly s t ∧ (tenantOf t e).lastSeq = h.seq ∧ ∀ k, k ≠ e → tenantOf t k = tenantOf s k
    let answered := fun (t : State) (code status : Nat) (payload : List Byte) => seen t ∧ Say.Replied s t e code status h.seq payload
    (∀ (g : FrameHdr) (l : List (List Byte)) (r : FrameRec) (q : Nat), h = wholeFrame g l → form = launchForm h.bytes → launchRecs h.bytes = [r] →
      s.liveCtx own = true → isResetting s own = false → localQueue s own r.queue = some q →
      (tenantOf s e).qmask.testBit r.queue = true → (queueOf s q).recs.length < 64 →
      ∃ t, exec (.launchFrame g l) s = .next t ∧ seen t ∧ t.cx = s.cx ∧ t.pt.out = s.pt.out ∧
        queueOf t q = { queueOf s q with recs := (queueOf s q).recs ++
          [{ bytes := r.bytes, frame := some (e, h.seq, 0), ctx := own, localQ := r.queue }] } ∧ ∀ k, k ≠ q → queueOf t k = queueOf s k) ∧
    (∀ ctx block core, form = commandForm 0x01 h → (s.liveCtx ctx = false ∨ s.liveCtx own = false ∨ isAncestor s own ctx = false) →
      ∃ t, exec (.readview h ctx block core) s = .next t ∧ answered t 0x01 2 []) ∧
    (∀ ctx block core, form = commandForm 0x01 h → s.liveCtx ctx = true → s.liveCtx own = true → isAncestor s own ctx = true →
      (7 ≤ block ∨ ((block = 3 ∨ block = 5) ∧ 384 ≤ core) → ∃ t, exec (.readview h ctx block core) s = .next t ∧ answered t 0x01 3 []) ∧
      (block < 7 → core < 384 → otherWorld s own ctx = false → ∃ t, exec (.readview h ctx block core) s = .next t ∧ t.cx = s.cx ∧
        answered t 0x01 0 (Config.replyLayout block (viewFields s ctx (ctx != own || own = 0) block core)))) ∧
    (∀ r : ExportReq, form = commandForm 0x02 h → s.liveCtx r.ctx = true → s.liveCtx own = true → isAncestor s own r.ctx = true → r.len ≤ 2 ^ 31 →
      ∃ t id, exec (.exportCmd h r) s = .next t ∧ seen t ∧ t.pt.out = s.pt.out ∧ t.pt.exps.find id = some { entry := e, seq := h.seq, req := r }) ∧
    (e ≠ 0 → ∀ i code, form = commandForm code h → (code = 0x10 ∧ ∃ r, i = .keyload h r) ∨ (code = 0x11 ∧ ∃ c k v d, i = .armckpt h c k v d) ∨
        (code = 0x12 ∧ ∃ a k n, i = .report h a k n) ∨ (code = 0x13 ∧ i = .health h) ∨ (code = 0x14 ∧ ∃ r, i = .layout h r) ∨
        (code = 0x15 ∧ ∃ w, i = .powercap h w) ∨ (code = 0x16 ∧ i = .bootstmt h) ∨ (code = 0x17 ∧ i = .reset h) →
      ∃ t, exec i s = .next t ∧ t.cx = s.cx ∧ answered t code 2 []) ∧
    (e = 0 →
      (∀ r : KeyReq, form = commandForm 0x10 h → r.slot < (if r.fabric = true then 64 else 256) →
        (if r.fabric = true then s.pt.fkeys else s.pt.mkeys).find r.slot = none → s.liveCtx r.holder = true → slotHolder s r.fabric r.slot = r.holder →
        (r.opens = false → ∃ t, exec (.keyload h r) s = .next t ∧ answered t 0x10 3 [] ∧ t.pt.mkeys = s.pt.mkeys ∧ t.pt.fkeys = s.pt.fkeys) ∧
        (r.opens = true → r.material.length = (if r.fabric = true then 32 else 96) → ∃ t y, exec (.keyload h r) s = .next t ∧ answered t 0x10 0 [] ∧
          (if r.fabric = true then t.pt.fkeys else t.pt.mkeys).find r.slot = some y ∧ y.loaded = true ∧ y.material = r.material ∧
          y.enci = (r.enci && !r.fabric) ∧ (y.enci = true → y.fbase = r.fbase ∧ y.fcount = r.fcount ∧ y.mdbase = r.mdbase))) ∧
      (∀ ctx kind value desc, form = commandForm 0x11 h → ctx ≠ 0 → s.liveCtx ctx = true → kind ≤ 1 → desc.length = 64 →
        let g : Option Trigger := if value = 0 then none else some { value := value, left := value, desc := desc }
        ∃ t, exec (.armckpt h ctx kind value desc) s = .next t ∧ answered t 0x11 0 [] ∧
          t.ctx ctx = (if kind = 0 then { s.ctx ctx with trigTime := g } else { s.ctx ctx with trigCount := g }) ∧
          ∀ c, c ≠ ctx → t.ctx c = s.ctx c) ∧
      (∀ addr rkey size, form = commandForm 0x12 h → 64 ≤ size → ∃ t, exec (.report h addr rkey size) s = .next t ∧ answered t 0x12 0 [] ∧ t.cx = s.cx ∧
        t.pt.report = some { qp := (tenantOf s 0).qp, addr := addr, rkey := rkey, size := size }) ∧
      (form = commandForm 0x13 h → ∃ t, exec (.health h) s = .next t ∧ t.cx = s.cx ∧ answered t 0x13 0 (Config.replyLayout 0x13 ([s.pt.health] ++
        ([0, 1, 16, 17] ++ (List.range 12).map (· + 32) ++ (List.range 16).map (· + 64) ++ [96, 97]).map (NMap.get 0 s.pt.sparesUsed) ++
        (List.range 7).map (NMap.get 0 s.pt.errors) ++ [s.pt.watts, s.pt.maxTemp]))) ∧
      (∀ l : List (Nat × Nat), form = commandForm 0x14 h → (∀ x ∈ l, x.1 < 384 ∧ x.2 ≤ 1) → ∃ t id, exec (.layout h (.modes l)) s = .next t ∧ seen t ∧ t.pt.out = s.pt.out ∧
        t.cx = { s.cx with staged := s.cx.staged ++ [{ id := id, change := .modes l, reply := some (0, h.seq) }] }) ∧
      (∀ u, form = commandForm 0x14 h → unitOk u = true → ∃ t id, exec (.layout h (.retire u)) s = .next t ∧ seen t ∧ t.pt.out = s.pt.out ∧
        t.cx = { s.cx with staged := s.cx.staged ++ [{ id := id, change := .retire u, reply := some (0, h.seq) }] }) ∧
      (∀ watts, form = commandForm 0x15 h → (600 ≤ watts ∧ watts ≤ 1700 → ∃ t, exec (.powercap h watts) s = .next t ∧ answered t 0x15 0 [] ∧ t.pt.powerCap = watts) ∧
        (watts < 600 ∨ 1700 < watts → ∃ t, exec (.powercap h watts) s = .next t ∧ answered t 0x15 3 [] ∧ t.pt.powerCap = s.pt.powerCap)) ∧
      (form = commandForm 0x16 h → ∃ t, exec (.bootstmt h) s = .next t ∧ t.cx = s.cx ∧ answered t 0x16 0 (bootStatement s)) ∧
      (form = commandForm 0x17 h → ∃ t, exec (.reset h) s = .next t ∧ Say.Replied s t 0 0x17 0 h.seq [] ∧ Say.BootedAfter s t))) ∧
  (∀ (s : State) (h : FrameHdr) (e : Nat), Say.NextOnItsPair s h.src h.qp → matchEntry s h.src h.qp = some e → e = 0 →
    (tenantOf s e).standsOpen = true →
    (commandForm 0x13 h = true → ∃ t p, exec (.health h) s = .next t ∧ Say.PortOnly s t ∧ Say.Replied s t 0 0x13 0 h.seq p) ∧
    (commandForm 0x16 h = true → ∃ t, exec (.bootstmt h) s = .next t ∧ Say.PortOnly s t ∧ Say.Replied s t 0 0x16 0 h.seq (bootStatement s))) ∧
  (∀ (s : State) (id : Nat) (x : Exp), s.pt.exps.find id = some x →
    (x.sent = true → ∃ t, exec (.hostAcknowledgement id) s = .next t ∧ Say.PortOnly s t ∧ Say.Replied s t x.entry 0x02 0 x.seq [] ∧
      t.pt.exps.find id = none) ∧
    (x.sent = false → exec (.hostAcknowledgement id) s = .next s)) ∧
  ∀ (s : State),
    (s.pt.powered = true → exec .powerOn s = .next s) ∧
    (s.pt.powered = false → ∃ t, exec .powerOn s = .next t ∧ t.pt.out = s.pt.out ∧ Say.BootedAfter s t) ∧
    (∃ t, exec .resetLine s = .next t ∧ t.pt.out = s.pt.out ∧ Say.BootedAfter s t) ∧
    ∃ t, exec .powerLoss s = .next t ∧ t.pt.powered = false ∧ t.rg = {} ∧ t.wk = {} ∧ t.mm = {} ∧ t.xl = {} ∧ t.en = {} ∧ t.fb = {} ∧
      t.cx.ctxs = [] ∧ t.pt.sparesUsed = s.pt.sparesUsed ∧ t.pt.retired = s.pt.retired

/-! ### Words, steps and the whole machine -/

/-- R45, R52 to R56 and R69, and the spec's own examples: the words that chapters 03, 04, 06, 08, 09, 10, 12, 18 and 21 write out decode to
the instructions they stand for there; a word with a reserved field, or with a register beyond the group's allocation, does not. -/
def Obligations.WordsOfTheSpecDecodeToTheirInstructions : Prop :=
  let h : Hdr := ⟨false, false, false, 7⟩
  let e : Hdr := ⟨true, false, false, 7⟩
  decodeWord 192 0x2170405023C24280 = .ok (.dualWord false false ⟨.iadd, 7, .v 4, some (.v 5), 0⟩ ⟨.fmul, 7, .v 9, some (.v 10), 0⟩) ∧
  decodeWord 192 0x8864081012140080 = .ok (.ffma ⟨true, false, false, 2⟩ (.v 4) (.v 8) (.v 9) (.v 10) .f32 .rn .none .neg false false false) ∧
  decodeWord 8 0x8864081012140080 = .error .regRange ∧
  decodeWord 192 0x8864081012154080 = .error .illegalOp ∧
  decodeWord 192 0x05AE03FE3F800000 = .ok (.movi h (.v 1) 0x3F800000) ∧
  decodeWord 192 0x1C2FFE0991FE0001 = .ok (.tlbiPage h (.v 4) (.s 8)) ∧
  decodeWord 192 0x100E0D8804640000 = .ok (.ld h (.v 6) ⟨.s 4, some (.v 2), 2, .w32, .grp, false, .default, some 1, 0⟩) ∧
  decodeWord 192 0x102E1189FFC74008 = .ok (.st h (.v 8) ⟨.s 4, none, 0, .w64, .dev, true, .default, none, 8⟩) ∧
  decodeWord 192 0x080E080A0DFE4100 = .ok (.fadd h (.v 4) (.v 5) (.v 6) .f32 .rz .none .abs false false) ∧
  decodeWord 192 0x0E0E0403FFFE4012 = .ok (.cvt h (.v 2) (.v 1) (.int .i32) (.flt .f32) .rz .none false false) ∧
  decodeWord 192 0x802FFF50FFFFFFFC = .ok (.bra e true 5 0xFFFFFFFC) ∧
  decodeWord 192 0x016FFE0000000042 = .ok (.trap h 0x42) ∧
  decodeWord 192 0x16AFFFFFFE080000 = .ok (.waitsb h 2 0) ∧
  decodeWord 192 0x1A0FA9ADB01C0000 = .ok (.xbulk h (.s 20) (.s 22) (.s 24) 0 none 0 false false) ∧
  decodeWord 192 0x1C4E059009FE0002 = .ok (.subdevFreeze h (.v 2) (.s 8) (some (.v 4)))

/-- R42 to R56 and R69: decoding and encoding agree. Every well-formed instruction word is what its encoding decodes to, with every operand
at every value; every word that decodes without fault is the encoding of what it decodes to, which is well formed. -/
def Obligations.DecodingAndEncodingAgree : Prop :=
  (∀ (regs : Nat) (i : Instr), i.wellFormed regs = true → decodeWord regs (encode i) = .ok i) ∧
  ∀ (regs : Nat) (v : BitVec 64) (i : Instr), decodeWord regs v = .ok i → i.wellFormed regs = true ∧ encode i = v

/-- R57 to R61, R69 to R71, R143 and R425: with no turn on the agenda, the word at the issue warp's PC that its core's instruction cache holds,
that decodes and that keeps the rules of its run, role and privilege is executed: the step is exec of it on the state in which the word
is noted, and then the cycle is metered and what waits goes on. An event of the agenda is exec of it. -/
def Obligations.AStepRunsTheDecodedWordOrTheEvent : Prop :=
  (∀ (s : State) (x : Warp) (t : Xl) (l : CodeLine) (v : BitVec 64) (i : Instr),
    let g := s.group x.gi
    let line := t.pa / 128
    let y : Warp := { x with
      wordN := weight i, wordNamed := tempsNamed i, park := .none, curB := bitAt v 63, curOp := opcOf v, eas := [] }
    let s' : State := { s with
      pt := { s.pt with cycle := (s.pt.cycle + 1) % 2 ^ 64 }, wk := { s.wk with warps := NMap.insert s.wk.warps s.md.cur y } }
    s.md.agenda = [] → s.pt.powered = true → s.wk.warps.find s.md.cur = some x → canIssue s s.md.cur = true →
    (∀ r ∈ s.wk.results, r.2.gi = x.gi → r.2.known = false) → (∀ c ∈ s.en.cmds, c.2.late = []) → x.sUndo = [] → x.pc.toNat < 2 ^ 55 →
    xlFor s { x with park := .none, curOp := 0, eas := [] } x.pc.toNat .fetch = some (.ok t) → (t.ty = .page ∨ t.ty = .rxWin) →
    codeLine s.mm.icache x.core (objOf s x) (x.pc.toNat / 128) = some l → l.bytes = memBytes s (line * 128) 128 →
    v = BitVec.ofNat 64 (natOfBytes ((l.bytes.drop (t.pa % 128)).take 8)) → decodeWord g.regs v = .ok i → breaksRun x i = false →
    (lastOnly i = true → bitAt v 63 = true) → roleOf v &&& g.roles = roleOf v → mayRun s g v = true → s.pt.rowPoison = [] →
    step s = match exec i s' with
      | .next u => .next (settleAfter (noteWork s' u s.md.cur i))
      | .fault f => .fault f
      | .refused r => .refused r) ∧
  ∀ (s : State) (dt : Nat) (i : Instr) (rest : List Turn), s.md.agenda = ⟨dt, .event i⟩ :: rest →
    let s' : State := { s with md := { s.md with agenda := rest }, pt := { s.pt with cycle := (s.pt.cycle + dt) % 2 ^ 64 } }
    (isEvent i = true → (s.pt.powered = true ∨ i = .powerOn) → step s = match exec i s' with
      | .next u => .next (settleAfter u)
      | .fault f => .fault f
      | .refused r => .refused r) ∧
    (isEvent i = true → s.pt.powered = false → i ≠ .powerOn → step s = .next s')

/-- The machine stays in form: from every state in form, whatever the step does, the next state is in form. Memory's canonical form is
the model's (log entry 3); the ranges of clocks and cap are R461. -/
def Obligations.EveryStepKeepsTheMachineInForm : Prop :=
  ∀ s t : State, Say.InForm s → step s = .next t → Say.InForm t

/-- R402, R427, R435, R436, R437, R457, R458 and R461: after reset the part has power, the root holds every core, queue, key slot and frame and the STEWARD
right, and no other context is; its H and E are zero; no receipt has been signed, LAYOUT.VER is 0, every world latch is 0; tenant
entry 0 alone is valid, for the root; no grid, group, warp, translation or cached line is; the cap is 1,700 W; the machine is in form. -/
def Obligations.ResetLeavesWhatTheRulesSay : Prop :=
  let s := State.reset
  Say.InForm s ∧ s.pt.powered = true ∧ s.cx.ctxs.map (·.1) = [0] ∧ (s.ctx 0).level = 0 ∧ (s.ctx 0).world = 0 ∧
  (s.ctx 0).grant.steward = true ∧ (∀ n < 384, (s.ctx 0).grant.cores.testBit n = true) ∧ (s.ctx 0).grant.qBase = 0 ∧ (s.ctx 0).grant.qCount = 1024 ∧
  (s.ctx 0).grant.mkCount = 256 ∧ (s.ctx 0).grant.fkCount = 64 ∧ (s.ctx 0).guar = 9175040 ∧ (s.ctx 0).chain = List.replicate 32 0 ∧
  (s.ctx 0).exts = 0 ∧ s.cx.counter = 0 ∧ s.cx.layoutVer = 0 ∧ (∀ n, NMap.get 0 s.cx.latch n = 0) ∧ (tenantOf s 0).v = true ∧ (tenantOf s 0).ctx = 0 ∧
  (∀ n, n ≠ 0 → (tenantOf s n).v = false) ∧ s.pt.grids = [] ∧ s.wk.groups = [] ∧ s.wk.warps = [] ∧ s.xl.tlb = [] ∧ s.mm.l1 = [] ∧ s.mm.llc = [] ∧
  s.pt.powerCap = 1700 ∧ ∀ n, memByte s n = 0

end
end

