-- ==== Sys2Proof/Laws/NMap.lean ====
section
/-!
SUPPORT. Laws of sparse maps and of memory: reading after writing, and the canonical form that every operation keeps.
-/
namespace Sys2Proof.Machine

theorem NMap.find_insert_self {α : Type} (m : NMap α) (k : Nat) (x : α) : NMap.find (NMap.insert m k x) k = some x := by
  induction m with
  | nil => simp [NMap.insert, NMap.find]
  | cons c m ih =>
    obtain ⟨a, v⟩ := c
    simp only [NMap.insert]
    split
    · simp [NMap.find]
    · split
      · simp [NMap.find]
      · rename_i h1 h2
        simp [NMap.find, Ne.symm h2, ih]

theorem NMap.find_insert_ne {α : Type} (m : NMap α) (k j : Nat) (x : α) (h : j ≠ k) :
    NMap.find (NMap.insert m k x) j = NMap.find m j := by
  induction m with
  | nil => simp [NMap.insert, NMap.find, Ne.symm h]
  | cons c m ih =>
    obtain ⟨a, v⟩ := c
    simp only [NMap.insert]
    split
    · simp [NMap.find, Ne.symm h]
    · split
      · rename_i h1 h2
        subst h2
        simp [NMap.find, Ne.symm h]
      · simp only [NMap.find, ih]

theorem NMap.find_erase_self {α : Type} (m : NMap α) (k : Nat) : NMap.find (NMap.erase m k) k = none := by
  induction m with
  | nil => rfl
  | cons c m ih =>
    obtain ⟨a, v⟩ := c
    by_cases h : a = k <;> simp [NMap.erase, NMap.find, h, ih]

theorem NMap.find_erase_ne {α : Type} (m : NMap α) (k j : Nat) (h : j ≠ k) : NMap.find (NMap.erase m k) j = NMap.find m j := by
  induction m with
  | nil => rfl
  | cons c m ih =>
    obtain ⟨a, v⟩ := c
    by_cases h1 : a = k
    · subst h1
      simp [NMap.erase, NMap.find, Ne.symm h, ih]
    · simp [NMap.erase, NMap.find, h1, ih]

/-- Reading is looking up, an unlisted key holding the default. -/
theorem NMap.get_eq_find {α : Type} (d : α) (m : NMap α) (k : Nat) : NMap.get d m k = (NMap.find m k).getD d := by
  induction m with
  | nil => rfl
  | cons c m ih =>
    obtain ⟨a, v⟩ := c
    by_cases h : a = k <;> simp [NMap.get, NMap.find, h, ih]

/-- A read after a write to the same key gives the value written. -/
theorem NMap.get_set_self {α : Type} [DecidableEq α] (d : α) (m : NMap α) (k : Nat) (v : α) : NMap.get d (NMap.set d m k v) k = v := by
  by_cases h : v = d
  · simp [NMap.set, h, NMap.get_eq_find, NMap.find_erase_self]
  · simp [NMap.set, h, NMap.get_eq_find, NMap.find_insert_self]

/-- A write leaves every other key alone. -/
theorem NMap.get_set_ne {α : Type} [DecidableEq α] (d : α) (m : NMap α) (k j : Nat) (v : α) (h : j ≠ k) :
    NMap.get d (NMap.set d m k v) j = NMap.get d m j := by
  by_cases hv : v = d
  · simp [NMap.set, hv, NMap.get_eq_find, NMap.find_erase_ne _ _ _ h]
  · simp [NMap.set, hv, NMap.get_eq_find, NMap.find_insert_ne _ _ _ _ h]

theorem NMap.get_insert_self {α : Type} (d : α) (m : NMap α) (k : Nat) (v : α) : NMap.get d (NMap.insert m k v) k = v := by
  simp [NMap.get_eq_find, NMap.find_insert_self]

theorem NMap.get_insert_ne {α : Type} (d : α) (m : NMap α) (k j : Nat) (v : α) (h : j ≠ k) :
    NMap.get d (NMap.insert m k v) j = NMap.get d m j := by
  simp [NMap.get_eq_find, NMap.find_insert_ne _ _ _ _ h]

theorem NMap.find_upd_self {α : Type} (m : NMap α) (k : Nat) (f : α → α) : NMap.find (NMap.upd m k f) k = (NMap.find m k).map f := by
  unfold NMap.upd
  cases h : NMap.find m k with
  | none => simp [h]
  | some x => simp [NMap.find_insert_self]

theorem NMap.find_upd_ne {α : Type} (m : NMap α) (k j : Nat) (f : α → α) (h : j ≠ k) : NMap.find (NMap.upd m k f) j = NMap.find m j := by
  unfold NMap.upd
  cases NMap.find m k with
  | none => rfl
  | some x => exact NMap.find_insert_ne _ _ _ _ h

/-- A map over the records of a list looks them up mapped. -/
theorem NMap.find_map {α β : Type} (m : NMap α) (f : Nat → α → β) (k : Nat) :
    NMap.find (m.map (fun c => (c.1, f c.1 c.2))) k = (NMap.find m k).map (f k) := by
  induction m with
  | nil => rfl
  | cons c m ih =>
    obtain ⟨a, v⟩ := c
    by_cases h : a = k
    · subst h
      simp [NMap.find]
    · simp [NMap.find, h, ih]

/-! ### The canonical form -/

/-- The keys rise strictly, all from `lo` on. -/
def NMap.Above {α : Type} (lo : Nat) (m : NMap α) : Prop := ∀ c ∈ m, lo ≤ c.1

theorem NMap.risingFrom_some {α : Type} (lo : Nat) (m : NMap α) :
    NMap.risingFrom (some lo) m = true ↔ NMap.risingFrom none m = true ∧ NMap.Above (lo + 1) m := by
  induction m generalizing lo with
  | nil => simp [NMap.risingFrom, NMap.Above]
  | cons c m ih =>
    obtain ⟨k, v⟩ := c
    simp only [NMap.risingFrom, Bool.and_eq_true, decide_eq_true_eq, NMap.Above, List.mem_cons, forall_eq_or_imp]
    constructor
    · intro ⟨h1, h2⟩
      refine ⟨h2, by omega, fun x hx => ?_⟩
      have := ((ih k).1 h2).2 x hx
      omega
    · intro ⟨h1, h2, _⟩
      exact ⟨by omega, h1⟩

theorem NMap.wf_cons {α : Type} [DecidableEq α] (d : α) (k : Nat) (v : α) (m : NMap α) :
    NMap.wf d ((k, v) :: m) = true ↔ v ≠ d ∧ NMap.Above (k + 1) m ∧ NMap.wf d m = true := by
  have h := NMap.risingFrom_some k m
  simp only [NMap.wf, NMap.risingFrom, List.all_cons, Bool.and_eq_true, decide_eq_true_eq, ne_eq]
  rw [h]
  tauto

theorem NMap.wf_nil {α : Type} [DecidableEq α] (d : α) : NMap.wf d ([] : NMap α) = true := rfl

theorem NMap.above_mono {α : Type} {a b : Nat} (h : a ≤ b) {m : NMap α} (hm : NMap.Above b m) : NMap.Above a m :=
  fun c hc => le_trans h (hm c hc)

theorem NMap.above_insert {α : Type} (lo k : Nat) (v : α) (m : NMap α) (hk : lo ≤ k) (hm : NMap.Above lo m) :
    NMap.Above lo (NMap.insert m k v) := by
  induction m with
  | nil => simpa [NMap.Above, NMap.insert] using hk
  | cons c m ih =>
    obtain ⟨a, x⟩ := c
    have h1 : lo ≤ a := hm (a, x) (by simp)
    have h2 : NMap.Above lo m := fun c hc => hm c (by simp [hc])
    simp only [NMap.insert]
    split
    · intro c hc
      simp only [List.mem_cons] at hc
      rcases hc with rfl | rfl | hc
      · exact hk
      · exact h1
      · exact h2 c hc
    · split
      · intro c hc
        simp only [List.mem_cons] at hc
        rcases hc with rfl | hc
        · exact hk
        · exact h2 c hc
      · intro c hc
        simp only [List.mem_cons] at hc
        rcases hc with rfl | hc
        · exact h1
        · exact ih h2 c hc

theorem NMap.wf_insert {α : Type} [DecidableEq α] (d : α) (m : NMap α) (k : Nat) (v : α) (hv : v ≠ d) (h : NMap.wf d m = true) :
    NMap.wf d (NMap.insert m k v) = true := by
  induction m with
  | nil => simp [NMap.insert, NMap.wf, NMap.risingFrom, hv]
  | cons c m ih =>
    obtain ⟨a, x⟩ := c
    obtain ⟨hx, ha, hm⟩ := (NMap.wf_cons d a x m).1 h
    simp only [NMap.insert]
    split
    · rename_i hlt
      refine (NMap.wf_cons ..).2 ⟨hv, ?_, h⟩
      intro c hc
      simp only [List.mem_cons] at hc
      rcases hc with rfl | hc
      · exact hlt
      · have := ha c hc
        omega
    · split
      · rename_i heq
        subst heq
        exact (NMap.wf_cons ..).2 ⟨hv, ha, hm⟩
      · rename_i h1 h2
        exact (NMap.wf_cons ..).2 ⟨hx, NMap.above_insert _ _ _ _ (by omega) ha, ih hm⟩

theorem NMap.above_erase {α : Type} (lo k : Nat) (m : NMap α) (hm : NMap.Above lo m) : NMap.Above lo (NMap.erase m k) := by
  induction m with
  | nil => exact hm
  | cons c m ih =>
    obtain ⟨a, x⟩ := c
    have h2 : NMap.Above lo m := fun c hc => hm c (by simp [hc])
    simp only [NMap.erase]
    split
    · exact ih h2
    · intro c hc
      simp only [List.mem_cons] at hc
      rcases hc with rfl | hc
      · exact hm _ (by simp)
      · exact ih h2 c hc

theorem NMap.wf_erase {α : Type} [DecidableEq α] (d : α) (m : NMap α) (k : Nat) (h : NMap.wf d m = true) :
    NMap.wf d (NMap.erase m k) = true := by
  induction m with
  | nil => rfl
  | cons c m ih =>
    obtain ⟨a, x⟩ := c
    obtain ⟨hx, ha, hm⟩ := (NMap.wf_cons d a x m).1 h
    simp only [NMap.erase]
    split
    · exact ih hm
    · exact (NMap.wf_cons ..).2 ⟨hx, NMap.above_erase _ _ _ ha, ih hm⟩

/-- A write keeps the canonical form. -/
theorem NMap.wf_set {α : Type} [DecidableEq α] (d : α) (m : NMap α) (k : Nat) (v : α) (h : NMap.wf d m = true) :
    NMap.wf d (NMap.set d m k v) = true := by
  unfold NMap.set
  split
  · exact NMap.wf_erase d m k h
  · rename_i hv
    exact NMap.wf_insert d m k v hv h

theorem NMap.wf_filter {α : Type} [DecidableEq α] (d : α) (m : NMap α) (p : Nat × α → Bool) (h : NMap.wf d m = true) :
    NMap.wf d (m.filter p) = true := by
  induction m with
  | nil => rfl
  | cons c m ih =>
    obtain ⟨a, x⟩ := c
    obtain ⟨hx, ha, hm⟩ := (NMap.wf_cons d a x m).1 h
    simp only [List.filter_cons]
    split
    · exact (NMap.wf_cons ..).2 ⟨hx, fun c hc => ha c (List.mem_of_mem_filter hc), ih hm⟩
    · exact ih hm

/-- Several writes keep the canonical form. -/
theorem NMap.wf_foldl_set {α β : Type} [DecidableEq α] (d : α) (l : List β) (k : β → Nat) (v : β → α) (m : NMap α)
    (h : NMap.wf d m = true) : NMap.wf d (l.foldl (fun m x => NMap.set d m (k x) (v x)) m) = true := by
  induction l generalizing m with
  | nil => exact h
  | cons x l ih => exact ih _ (NMap.wf_set d m _ _ h)

/-- What holds of the default and of every listed value holds of every value. -/
theorem NMap.get_all {α : Type} (p : α → Prop) (d : α) (m : NMap α) (hd : p d) (h : ∀ c ∈ m, p c.2) (k : Nat) : p (NMap.get d m k) := by
  induction m with
  | nil => exact hd
  | cons c l ih =>
    obtain ⟨q, v⟩ := c
    simp only [NMap.get]
    split
    · exact h (q, v) (by simp)
    · exact ih (fun c hc => h c (by simp [hc]))

end Sys2Proof.Machine
end

