-- ==== Sys2Proof/Laws/State.lean ====
section
/-!
SUPPORT. What each update of the state leaves in each of its parts, true by computation, so that no later proof unfolds an update.
-/
namespace Sys2Proof.Machine

@[simp] theorem State.updMD_md (s : State) (f : ModelSt → ModelSt) : (s.updMD f).md = f s.md := rfl
@[simp] theorem State.updMD_rg (s : State) (f : ModelSt → ModelSt) : (s.updMD f).rg = s.rg := rfl
@[simp] theorem State.updMD_wk (s : State) (f : ModelSt → ModelSt) : (s.updMD f).wk = s.wk := rfl
@[simp] theorem State.updMD_mm (s : State) (f : ModelSt → ModelSt) : (s.updMD f).mm = s.mm := rfl
@[simp] theorem State.updMD_xl (s : State) (f : ModelSt → ModelSt) : (s.updMD f).xl = s.xl := rfl
@[simp] theorem State.updMD_en (s : State) (f : ModelSt → ModelSt) : (s.updMD f).en = s.en := rfl
@[simp] theorem State.updMD_fb (s : State) (f : ModelSt → ModelSt) : (s.updMD f).fb = s.fb := rfl
@[simp] theorem State.updMD_cx (s : State) (f : ModelSt → ModelSt) : (s.updMD f).cx = s.cx := rfl
@[simp] theorem State.updMD_pt (s : State) (f : ModelSt → ModelSt) : (s.updMD f).pt = s.pt := rfl

@[simp] theorem State.updRG_md (s : State) (f : RegSt → RegSt) : (s.updRG f).md = s.md := rfl
@[simp] theorem State.updRG_rg (s : State) (f : RegSt → RegSt) : (s.updRG f).rg = f s.rg := rfl
@[simp] theorem State.updRG_wk (s : State) (f : RegSt → RegSt) : (s.updRG f).wk = s.wk := rfl
@[simp] theorem State.updRG_mm (s : State) (f : RegSt → RegSt) : (s.updRG f).mm = s.mm := rfl
@[simp] theorem State.updRG_xl (s : State) (f : RegSt → RegSt) : (s.updRG f).xl = s.xl := rfl
@[simp] theorem State.updRG_en (s : State) (f : RegSt → RegSt) : (s.updRG f).en = s.en := rfl
@[simp] theorem State.updRG_fb (s : State) (f : RegSt → RegSt) : (s.updRG f).fb = s.fb := rfl
@[simp] theorem State.updRG_cx (s : State) (f : RegSt → RegSt) : (s.updRG f).cx = s.cx := rfl
@[simp] theorem State.updRG_pt (s : State) (f : RegSt → RegSt) : (s.updRG f).pt = s.pt := rfl

@[simp] theorem State.updWK_md (s : State) (f : WorkSt → WorkSt) : (s.updWK f).md = s.md := rfl
@[simp] theorem State.updWK_rg (s : State) (f : WorkSt → WorkSt) : (s.updWK f).rg = s.rg := rfl
@[simp] theorem State.updWK_wk (s : State) (f : WorkSt → WorkSt) : (s.updWK f).wk = f s.wk := rfl
@[simp] theorem State.updWK_mm (s : State) (f : WorkSt → WorkSt) : (s.updWK f).mm = s.mm := rfl
@[simp] theorem State.updWK_xl (s : State) (f : WorkSt → WorkSt) : (s.updWK f).xl = s.xl := rfl
@[simp] theorem State.updWK_en (s : State) (f : WorkSt → WorkSt) : (s.updWK f).en = s.en := rfl
@[simp] theorem State.updWK_fb (s : State) (f : WorkSt → WorkSt) : (s.updWK f).fb = s.fb := rfl
@[simp] theorem State.updWK_cx (s : State) (f : WorkSt → WorkSt) : (s.updWK f).cx = s.cx := rfl
@[simp] theorem State.updWK_pt (s : State) (f : WorkSt → WorkSt) : (s.updWK f).pt = s.pt := rfl

@[simp] theorem State.updMM_md (s : State) (f : MemSt → MemSt) : (s.updMM f).md = s.md := rfl
@[simp] theorem State.updMM_rg (s : State) (f : MemSt → MemSt) : (s.updMM f).rg = s.rg := rfl
@[simp] theorem State.updMM_wk (s : State) (f : MemSt → MemSt) : (s.updMM f).wk = s.wk := rfl
@[simp] theorem State.updMM_mm (s : State) (f : MemSt → MemSt) : (s.updMM f).mm = f s.mm := rfl
@[simp] theorem State.updMM_xl (s : State) (f : MemSt → MemSt) : (s.updMM f).xl = s.xl := rfl
@[simp] theorem State.updMM_en (s : State) (f : MemSt → MemSt) : (s.updMM f).en = s.en := rfl
@[simp] theorem State.updMM_fb (s : State) (f : MemSt → MemSt) : (s.updMM f).fb = s.fb := rfl
@[simp] theorem State.updMM_cx (s : State) (f : MemSt → MemSt) : (s.updMM f).cx = s.cx := rfl
@[simp] theorem State.updMM_pt (s : State) (f : MemSt → MemSt) : (s.updMM f).pt = s.pt := rfl

@[simp] theorem State.updXL_md (s : State) (f : XlSt → XlSt) : (s.updXL f).md = s.md := rfl
@[simp] theorem State.updXL_rg (s : State) (f : XlSt → XlSt) : (s.updXL f).rg = s.rg := rfl
@[simp] theorem State.updXL_wk (s : State) (f : XlSt → XlSt) : (s.updXL f).wk = s.wk := rfl
@[simp] theorem State.updXL_mm (s : State) (f : XlSt → XlSt) : (s.updXL f).mm = s.mm := rfl
@[simp] theorem State.updXL_xl (s : State) (f : XlSt → XlSt) : (s.updXL f).xl = f s.xl := rfl
@[simp] theorem State.updXL_en (s : State) (f : XlSt → XlSt) : (s.updXL f).en = s.en := rfl
@[simp] theorem State.updXL_fb (s : State) (f : XlSt → XlSt) : (s.updXL f).fb = s.fb := rfl
@[simp] theorem State.updXL_cx (s : State) (f : XlSt → XlSt) : (s.updXL f).cx = s.cx := rfl
@[simp] theorem State.updXL_pt (s : State) (f : XlSt → XlSt) : (s.updXL f).pt = s.pt := rfl

@[simp] theorem State.updEN_md (s : State) (f : EngSt → EngSt) : (s.updEN f).md = s.md := rfl
@[simp] theorem State.updEN_rg (s : State) (f : EngSt → EngSt) : (s.updEN f).rg = s.rg := rfl
@[simp] theorem State.updEN_wk (s : State) (f : EngSt → EngSt) : (s.updEN f).wk = s.wk := rfl
@[simp] theorem State.updEN_mm (s : State) (f : EngSt → EngSt) : (s.updEN f).mm = s.mm := rfl
@[simp] theorem State.updEN_xl (s : State) (f : EngSt → EngSt) : (s.updEN f).xl = s.xl := rfl
@[simp] theorem State.updEN_en (s : State) (f : EngSt → EngSt) : (s.updEN f).en = f s.en := rfl
@[simp] theorem State.updEN_fb (s : State) (f : EngSt → EngSt) : (s.updEN f).fb = s.fb := rfl
@[simp] theorem State.updEN_cx (s : State) (f : EngSt → EngSt) : (s.updEN f).cx = s.cx := rfl
@[simp] theorem State.updEN_pt (s : State) (f : EngSt → EngSt) : (s.updEN f).pt = s.pt := rfl

@[simp] theorem State.updFB_md (s : State) (f : FabSt → FabSt) : (s.updFB f).md = s.md := rfl
@[simp] theorem State.updFB_rg (s : State) (f : FabSt → FabSt) : (s.updFB f).rg = s.rg := rfl
@[simp] theorem State.updFB_wk (s : State) (f : FabSt → FabSt) : (s.updFB f).wk = s.wk := rfl
@[simp] theorem State.updFB_mm (s : State) (f : FabSt → FabSt) : (s.updFB f).mm = s.mm := rfl
@[simp] theorem State.updFB_xl (s : State) (f : FabSt → FabSt) : (s.updFB f).xl = s.xl := rfl
@[simp] theorem State.updFB_en (s : State) (f : FabSt → FabSt) : (s.updFB f).en = s.en := rfl
@[simp] theorem State.updFB_fb (s : State) (f : FabSt → FabSt) : (s.updFB f).fb = f s.fb := rfl
@[simp] theorem State.updFB_cx (s : State) (f : FabSt → FabSt) : (s.updFB f).cx = s.cx := rfl
@[simp] theorem State.updFB_pt (s : State) (f : FabSt → FabSt) : (s.updFB f).pt = s.pt := rfl

@[simp] theorem State.updCX_md (s : State) (f : CtxSt → CtxSt) : (s.updCX f).md = s.md := rfl
@[simp] theorem State.updCX_rg (s : State) (f : CtxSt → CtxSt) : (s.updCX f).rg = s.rg := rfl
@[simp] theorem State.updCX_wk (s : State) (f : CtxSt → CtxSt) : (s.updCX f).wk = s.wk := rfl
@[simp] theorem State.updCX_mm (s : State) (f : CtxSt → CtxSt) : (s.updCX f).mm = s.mm := rfl
@[simp] theorem State.updCX_xl (s : State) (f : CtxSt → CtxSt) : (s.updCX f).xl = s.xl := rfl
@[simp] theorem State.updCX_en (s : State) (f : CtxSt → CtxSt) : (s.updCX f).en = s.en := rfl
@[simp] theorem State.updCX_fb (s : State) (f : CtxSt → CtxSt) : (s.updCX f).fb = s.fb := rfl
@[simp] theorem State.updCX_cx (s : State) (f : CtxSt → CtxSt) : (s.updCX f).cx = f s.cx := rfl
@[simp] theorem State.updCX_pt (s : State) (f : CtxSt → CtxSt) : (s.updCX f).pt = s.pt := rfl

@[simp] theorem State.updPT_md (s : State) (f : PartSt → PartSt) : (s.updPT f).md = s.md := rfl
@[simp] theorem State.updPT_rg (s : State) (f : PartSt → PartSt) : (s.updPT f).rg = s.rg := rfl
@[simp] theorem State.updPT_wk (s : State) (f : PartSt → PartSt) : (s.updPT f).wk = s.wk := rfl
@[simp] theorem State.updPT_mm (s : State) (f : PartSt → PartSt) : (s.updPT f).mm = s.mm := rfl
@[simp] theorem State.updPT_xl (s : State) (f : PartSt → PartSt) : (s.updPT f).xl = s.xl := rfl
@[simp] theorem State.updPT_en (s : State) (f : PartSt → PartSt) : (s.updPT f).en = s.en := rfl
@[simp] theorem State.updPT_fb (s : State) (f : PartSt → PartSt) : (s.updPT f).fb = s.fb := rfl
@[simp] theorem State.updPT_cx (s : State) (f : PartSt → PartSt) : (s.updPT f).cx = s.cx := rfl
@[simp] theorem State.updPT_pt (s : State) (f : PartSt → PartSt) : (s.updPT f).pt = f s.pt := rfl

@[simp] theorem State.updWarp_md (s : State) (id : Nat) (f : Warp → Warp) : (s.updWarp id f).md = s.md := rfl
@[simp] theorem State.updWarp_rg (s : State) (id : Nat) (f : Warp → Warp) : (s.updWarp id f).rg = s.rg := rfl
@[simp] theorem State.updWarp_wk (s : State) (id : Nat) (f : Warp → Warp) : (s.updWarp id f).wk = { s.wk with warps := s.wk.warps.upd id f } := rfl
@[simp] theorem State.updWarp_mm (s : State) (id : Nat) (f : Warp → Warp) : (s.updWarp id f).mm = s.mm := rfl
@[simp] theorem State.updWarp_xl (s : State) (id : Nat) (f : Warp → Warp) : (s.updWarp id f).xl = s.xl := rfl
@[simp] theorem State.updWarp_en (s : State) (id : Nat) (f : Warp → Warp) : (s.updWarp id f).en = s.en := rfl
@[simp] theorem State.updWarp_fb (s : State) (id : Nat) (f : Warp → Warp) : (s.updWarp id f).fb = s.fb := rfl
@[simp] theorem State.updWarp_cx (s : State) (id : Nat) (f : Warp → Warp) : (s.updWarp id f).cx = s.cx := rfl
@[simp] theorem State.updWarp_pt (s : State) (id : Nat) (f : Warp → Warp) : (s.updWarp id f).pt = s.pt := rfl

@[simp] theorem State.updGroup_md (s : State) (id : Nat) (f : Group → Group) : (s.updGroup id f).md = s.md := rfl
@[simp] theorem State.updGroup_rg (s : State) (id : Nat) (f : Group → Group) : (s.updGroup id f).rg = s.rg := rfl
@[simp] theorem State.updGroup_wk (s : State) (id : Nat) (f : Group → Group) : (s.updGroup id f).wk = { s.wk with groups := s.wk.groups.upd id f } := rfl
@[simp] theorem State.updGroup_mm (s : State) (id : Nat) (f : Group → Group) : (s.updGroup id f).mm = s.mm := rfl
@[simp] theorem State.updGroup_xl (s : State) (id : Nat) (f : Group → Group) : (s.updGroup id f).xl = s.xl := rfl
@[simp] theorem State.updGroup_en (s : State) (id : Nat) (f : Group → Group) : (s.updGroup id f).en = s.en := rfl
@[simp] theorem State.updGroup_fb (s : State) (id : Nat) (f : Group → Group) : (s.updGroup id f).fb = s.fb := rfl
@[simp] theorem State.updGroup_cx (s : State) (id : Nat) (f : Group → Group) : (s.updGroup id f).cx = s.cx := rfl
@[simp] theorem State.updGroup_pt (s : State) (id : Nat) (f : Group → Group) : (s.updGroup id f).pt = s.pt := rfl

@[simp] theorem State.updThread_md (s : State) (id : Nat) (f : Thread → Thread) : (s.updThread id f).md = s.md := rfl
@[simp] theorem State.updThread_rg (s : State) (id : Nat) (f : Thread → Thread) : (s.updThread id f).rg = { s.rg with threads := s.rg.threads.upd id f } := rfl
@[simp] theorem State.updThread_wk (s : State) (id : Nat) (f : Thread → Thread) : (s.updThread id f).wk = s.wk := rfl
@[simp] theorem State.updThread_mm (s : State) (id : Nat) (f : Thread → Thread) : (s.updThread id f).mm = s.mm := rfl
@[simp] theorem State.updThread_xl (s : State) (id : Nat) (f : Thread → Thread) : (s.updThread id f).xl = s.xl := rfl
@[simp] theorem State.updThread_en (s : State) (id : Nat) (f : Thread → Thread) : (s.updThread id f).en = s.en := rfl
@[simp] theorem State.updThread_fb (s : State) (id : Nat) (f : Thread → Thread) : (s.updThread id f).fb = s.fb := rfl
@[simp] theorem State.updThread_cx (s : State) (id : Nat) (f : Thread → Thread) : (s.updThread id f).cx = s.cx := rfl
@[simp] theorem State.updThread_pt (s : State) (id : Nat) (f : Thread → Thread) : (s.updThread id f).pt = s.pt := rfl

@[simp] theorem State.updHWarp_md (s : State) (id : Nat) (f : HWarp → HWarp) : (s.updHWarp id f).md = s.md := rfl
@[simp] theorem State.updHWarp_rg (s : State) (id : Nat) (f : HWarp → HWarp) : (s.updHWarp id f).rg = { s.rg with hwarps := NMap.set {} s.rg.hwarps id (f (NMap.get {} s.rg.hwarps id)) } := rfl
@[simp] theorem State.updHWarp_wk (s : State) (id : Nat) (f : HWarp → HWarp) : (s.updHWarp id f).wk = s.wk := rfl
@[simp] theorem State.updHWarp_mm (s : State) (id : Nat) (f : HWarp → HWarp) : (s.updHWarp id f).mm = s.mm := rfl
@[simp] theorem State.updHWarp_xl (s : State) (id : Nat) (f : HWarp → HWarp) : (s.updHWarp id f).xl = s.xl := rfl
@[simp] theorem State.updHWarp_en (s : State) (id : Nat) (f : HWarp → HWarp) : (s.updHWarp id f).en = s.en := rfl
@[simp] theorem State.updHWarp_fb (s : State) (id : Nat) (f : HWarp → HWarp) : (s.updHWarp id f).fb = s.fb := rfl
@[simp] theorem State.updHWarp_cx (s : State) (id : Nat) (f : HWarp → HWarp) : (s.updHWarp id f).cx = s.cx := rfl
@[simp] theorem State.updHWarp_pt (s : State) (id : Nat) (f : HWarp → HWarp) : (s.updHWarp id f).pt = s.pt := rfl

@[simp] theorem State.updCtx_md (s : State) (id : Nat) (f : Ctx → Ctx) : (s.updCtx id f).md = s.md := rfl
@[simp] theorem State.updCtx_rg (s : State) (id : Nat) (f : Ctx → Ctx) : (s.updCtx id f).rg = s.rg := rfl
@[simp] theorem State.updCtx_wk (s : State) (id : Nat) (f : Ctx → Ctx) : (s.updCtx id f).wk = s.wk := rfl
@[simp] theorem State.updCtx_mm (s : State) (id : Nat) (f : Ctx → Ctx) : (s.updCtx id f).mm = s.mm := rfl
@[simp] theorem State.updCtx_xl (s : State) (id : Nat) (f : Ctx → Ctx) : (s.updCtx id f).xl = s.xl := rfl
@[simp] theorem State.updCtx_en (s : State) (id : Nat) (f : Ctx → Ctx) : (s.updCtx id f).en = s.en := rfl
@[simp] theorem State.updCtx_fb (s : State) (id : Nat) (f : Ctx → Ctx) : (s.updCtx id f).fb = s.fb := rfl
@[simp] theorem State.updCtx_cx (s : State) (id : Nat) (f : Ctx → Ctx) : (s.updCtx id f).cx = { s.cx with ctxs := s.cx.ctxs.upd id f } := rfl
@[simp] theorem State.updCtx_pt (s : State) (id : Nat) (f : Ctx → Ctx) : (s.updCtx id f).pt = s.pt := rfl

@[simp] theorem State.updFrame_md (s : State) (id : Nat) (f : Frame → Frame) : (s.updFrame id f).md = s.md := rfl
@[simp] theorem State.updFrame_rg (s : State) (id : Nat) (f : Frame → Frame) : (s.updFrame id f).rg = s.rg := rfl
@[simp] theorem State.updFrame_wk (s : State) (id : Nat) (f : Frame → Frame) : (s.updFrame id f).wk = s.wk := rfl
@[simp] theorem State.updFrame_mm (s : State) (id : Nat) (f : Frame → Frame) : (s.updFrame id f).mm = s.mm := rfl
@[simp] theorem State.updFrame_xl (s : State) (id : Nat) (f : Frame → Frame) : (s.updFrame id f).xl = { s.xl with frames := NMap.set {} s.xl.frames id (f (s.frame id)) } := rfl
@[simp] theorem State.updFrame_en (s : State) (id : Nat) (f : Frame → Frame) : (s.updFrame id f).en = s.en := rfl
@[simp] theorem State.updFrame_fb (s : State) (id : Nat) (f : Frame → Frame) : (s.updFrame id f).fb = s.fb := rfl
@[simp] theorem State.updFrame_cx (s : State) (id : Nat) (f : Frame → Frame) : (s.updFrame id f).cx = s.cx := rfl
@[simp] theorem State.updFrame_pt (s : State) (id : Nat) (f : Frame → Frame) : (s.updFrame id f).pt = s.pt := rfl

@[simp] theorem State.updCmd_md (s : State) (id : Nat) (f : Cmd → Cmd) : (s.updCmd id f).md = s.md := rfl
@[simp] theorem State.updCmd_rg (s : State) (id : Nat) (f : Cmd → Cmd) : (s.updCmd id f).rg = s.rg := rfl
@[simp] theorem State.updCmd_wk (s : State) (id : Nat) (f : Cmd → Cmd) : (s.updCmd id f).wk = s.wk := rfl
@[simp] theorem State.updCmd_mm (s : State) (id : Nat) (f : Cmd → Cmd) : (s.updCmd id f).mm = s.mm := rfl
@[simp] theorem State.updCmd_xl (s : State) (id : Nat) (f : Cmd → Cmd) : (s.updCmd id f).xl = s.xl := rfl
@[simp] theorem State.updCmd_en (s : State) (id : Nat) (f : Cmd → Cmd) : (s.updCmd id f).en = { s.en with cmds := s.en.cmds.upd id f } := rfl
@[simp] theorem State.updCmd_fb (s : State) (id : Nat) (f : Cmd → Cmd) : (s.updCmd id f).fb = s.fb := rfl
@[simp] theorem State.updCmd_cx (s : State) (id : Nat) (f : Cmd → Cmd) : (s.updCmd id f).cx = s.cx := rfl
@[simp] theorem State.updCmd_pt (s : State) (id : Nat) (f : Cmd → Cmd) : (s.updCmd id f).pt = s.pt := rfl

@[simp] theorem State.updOper_md (s : State) (id : Nat) (f : Oper → Oper) : (s.updOper id f).md = s.md := rfl
@[simp] theorem State.updOper_rg (s : State) (id : Nat) (f : Oper → Oper) : (s.updOper id f).rg = s.rg := rfl
@[simp] theorem State.updOper_wk (s : State) (id : Nat) (f : Oper → Oper) : (s.updOper id f).wk = s.wk := rfl
@[simp] theorem State.updOper_mm (s : State) (id : Nat) (f : Oper → Oper) : (s.updOper id f).mm = s.mm := rfl
@[simp] theorem State.updOper_xl (s : State) (id : Nat) (f : Oper → Oper) : (s.updOper id f).xl = s.xl := rfl
@[simp] theorem State.updOper_en (s : State) (id : Nat) (f : Oper → Oper) : (s.updOper id f).en = s.en := rfl
@[simp] theorem State.updOper_fb (s : State) (id : Nat) (f : Oper → Oper) : (s.updOper id f).fb = s.fb := rfl
@[simp] theorem State.updOper_cx (s : State) (id : Nat) (f : Oper → Oper) : (s.updOper id f).cx = { s.cx with opers := s.cx.opers.upd id f } := rfl
@[simp] theorem State.updOper_pt (s : State) (id : Nat) (f : Oper → Oper) : (s.updOper id f).pt = s.pt := rfl

@[simp] theorem State.updJob_md (s : State) (id : Nat) (f : Job → Job) : (s.updJob id f).md = s.md := rfl
@[simp] theorem State.updJob_rg (s : State) (id : Nat) (f : Job → Job) : (s.updJob id f).rg = s.rg := rfl
@[simp] theorem State.updJob_wk (s : State) (id : Nat) (f : Job → Job) : (s.updJob id f).wk = s.wk := rfl
@[simp] theorem State.updJob_mm (s : State) (id : Nat) (f : Job → Job) : (s.updJob id f).mm = s.mm := rfl
@[simp] theorem State.updJob_xl (s : State) (id : Nat) (f : Job → Job) : (s.updJob id f).xl = s.xl := rfl
@[simp] theorem State.updJob_en (s : State) (id : Nat) (f : Job → Job) : (s.updJob id f).en = s.en := rfl
@[simp] theorem State.updJob_fb (s : State) (id : Nat) (f : Job → Job) : (s.updJob id f).fb = s.fb := rfl
@[simp] theorem State.updJob_cx (s : State) (id : Nat) (f : Job → Job) : (s.updJob id f).cx = { s.cx with jobs := s.cx.jobs.upd id f } := rfl
@[simp] theorem State.updJob_pt (s : State) (id : Nat) (f : Job → Job) : (s.updJob id f).pt = s.pt := rfl

@[simp] theorem setMemByte_md (s : State) (pa : Nat) (b : Byte) : (setMemByte s pa b).md = s.md := rfl
@[simp] theorem setMemByte_rg (s : State) (pa : Nat) (b : Byte) : (setMemByte s pa b).rg = s.rg := rfl
@[simp] theorem setMemByte_wk (s : State) (pa : Nat) (b : Byte) : (setMemByte s pa b).wk = s.wk := rfl
@[simp] theorem setMemByte_mm (s : State) (pa : Nat) (b : Byte) : (setMemByte s pa b).mm = { s.mm with mem := NMap.set 0 s.mm.mem pa b } := rfl
@[simp] theorem setMemByte_xl (s : State) (pa : Nat) (b : Byte) : (setMemByte s pa b).xl = s.xl := rfl
@[simp] theorem setMemByte_en (s : State) (pa : Nat) (b : Byte) : (setMemByte s pa b).en = s.en := rfl
@[simp] theorem setMemByte_fb (s : State) (pa : Nat) (b : Byte) : (setMemByte s pa b).fb = s.fb := rfl
@[simp] theorem setMemByte_cx (s : State) (pa : Nat) (b : Byte) : (setMemByte s pa b).cx = s.cx := rfl
@[simp] theorem setMemByte_pt (s : State) (pa : Nat) (b : Byte) : (setMemByte s pa b).pt = s.pt := rfl

@[simp] theorem setSpadByte_md (s : State) (core addr : Nat) (b : Byte) : (setSpadByte s core addr b).md = s.md := rfl
@[simp] theorem setSpadByte_rg (s : State) (core addr : Nat) (b : Byte) : (setSpadByte s core addr b).rg = s.rg := rfl
@[simp] theorem setSpadByte_wk (s : State) (core addr : Nat) (b : Byte) : (setSpadByte s core addr b).wk = s.wk := rfl
@[simp] theorem setSpadByte_mm (s : State) (core addr : Nat) (b : Byte) : (setSpadByte s core addr b).mm = { s.mm with spad := NMap.set 0 s.mm.spad (spadKey core addr) b } := rfl
@[simp] theorem setSpadByte_xl (s : State) (core addr : Nat) (b : Byte) : (setSpadByte s core addr b).xl = s.xl := rfl
@[simp] theorem setSpadByte_en (s : State) (core addr : Nat) (b : Byte) : (setSpadByte s core addr b).en = s.en := rfl
@[simp] theorem setSpadByte_fb (s : State) (core addr : Nat) (b : Byte) : (setSpadByte s core addr b).fb = s.fb := rfl
@[simp] theorem setSpadByte_cx (s : State) (core addr : Nat) (b : Byte) : (setSpadByte s core addr b).cx = s.cx := rfl
@[simp] theorem setSpadByte_pt (s : State) (core addr : Nat) (b : Byte) : (setSpadByte s core addr b).pt = s.pt := rfl

@[simp] theorem setPresence_md (s : State) (core line : Nat) (f : Presence → Presence) : (setPresence s core line f).md = s.md := rfl
@[simp] theorem setPresence_rg (s : State) (core line : Nat) (f : Presence → Presence) : (setPresence s core line f).rg = s.rg := rfl
@[simp] theorem setPresence_wk (s : State) (core line : Nat) (f : Presence → Presence) : (setPresence s core line f).wk = s.wk := rfl
@[simp] theorem setPresence_mm (s : State) (core line : Nat) (f : Presence → Presence) : (setPresence s core line f).mm = { s.mm with presence := NMap.set {} s.mm.presence (core * 4096 + line) (f (NMap.get {} s.mm.presence (core * 4096 + line))) } := rfl
@[simp] theorem setPresence_xl (s : State) (core line : Nat) (f : Presence → Presence) : (setPresence s core line f).xl = s.xl := rfl
@[simp] theorem setPresence_en (s : State) (core line : Nat) (f : Presence → Presence) : (setPresence s core line f).en = s.en := rfl
@[simp] theorem setPresence_fb (s : State) (core line : Nat) (f : Presence → Presence) : (setPresence s core line f).fb = s.fb := rfl
@[simp] theorem setPresence_cx (s : State) (core line : Nat) (f : Presence → Presence) : (setPresence s core line f).cx = s.cx := rfl
@[simp] theorem setPresence_pt (s : State) (core line : Nat) (f : Presence → Presence) : (setPresence s core line f).pt = s.pt := rfl

@[simp] theorem setL1_md (s : State) (core line : Nat) (f : L1Line → L1Line) : (setL1 s core line f).md = s.md := rfl
@[simp] theorem setL1_rg (s : State) (core line : Nat) (f : L1Line → L1Line) : (setL1 s core line f).rg = s.rg := rfl
@[simp] theorem setL1_wk (s : State) (core line : Nat) (f : L1Line → L1Line) : (setL1 s core line f).wk = s.wk := rfl
@[simp] theorem setL1_mm (s : State) (core line : Nat) (f : L1Line → L1Line) : (setL1 s core line f).mm = { s.mm with l1 := NMap.set {} s.mm.l1 (l1Key core line) (normLine (f (l1Line s core line))) } := rfl
@[simp] theorem setL1_xl (s : State) (core line : Nat) (f : L1Line → L1Line) : (setL1 s core line f).xl = s.xl := rfl
@[simp] theorem setL1_en (s : State) (core line : Nat) (f : L1Line → L1Line) : (setL1 s core line f).en = s.en := rfl
@[simp] theorem setL1_fb (s : State) (core line : Nat) (f : L1Line → L1Line) : (setL1 s core line f).fb = s.fb := rfl
@[simp] theorem setL1_cx (s : State) (core line : Nat) (f : L1Line → L1Line) : (setL1 s core line f).cx = s.cx := rfl
@[simp] theorem setL1_pt (s : State) (core line : Nat) (f : L1Line → L1Line) : (setL1 s core line f).pt = s.pt := rfl

@[simp] theorem setGen_md (s : State) (gi : Nat) (e : LaneEnt) (x : Word) : (setGen s gi e x).md = s.md := rfl
@[simp] theorem setGen_rg (s : State) (gi : Nat) (e : LaneEnt) (x : Word) : (setGen s gi e x).rg = { s.rg with threads := s.rg.threads.upd (thKey gi e.hwarp e.hlane) (fun t => { t with gen := x }) } := rfl
@[simp] theorem setGen_wk (s : State) (gi : Nat) (e : LaneEnt) (x : Word) : (setGen s gi e x).wk = s.wk := rfl
@[simp] theorem setGen_mm (s : State) (gi : Nat) (e : LaneEnt) (x : Word) : (setGen s gi e x).mm = s.mm := rfl
@[simp] theorem setGen_xl (s : State) (gi : Nat) (e : LaneEnt) (x : Word) : (setGen s gi e x).xl = s.xl := rfl
@[simp] theorem setGen_en (s : State) (gi : Nat) (e : LaneEnt) (x : Word) : (setGen s gi e x).en = s.en := rfl
@[simp] theorem setGen_fb (s : State) (gi : Nat) (e : LaneEnt) (x : Word) : (setGen s gi e x).fb = s.fb := rfl
@[simp] theorem setGen_cx (s : State) (gi : Nat) (e : LaneEnt) (x : Word) : (setGen s gi e x).cx = s.cx := rfl
@[simp] theorem setGen_pt (s : State) (gi : Nat) (e : LaneEnt) (x : Word) : (setGen s gi e x).pt = s.pt := rfl

@[simp] theorem setK_md (s : State) (gi h k : Nat) (v : Word) : (setK s gi h k v).md = s.md := rfl
@[simp] theorem setK_rg (s : State) (gi h k : Nat) (v : Word) : (setK s gi h k v).rg = { s.rg with k := NMap.set 0 s.rg.k (kKey gi h k) v } := rfl
@[simp] theorem setK_wk (s : State) (gi h k : Nat) (v : Word) : (setK s gi h k v).wk = s.wk := rfl
@[simp] theorem setK_mm (s : State) (gi h k : Nat) (v : Word) : (setK s gi h k v).mm = s.mm := rfl
@[simp] theorem setK_xl (s : State) (gi h k : Nat) (v : Word) : (setK s gi h k v).xl = s.xl := rfl
@[simp] theorem setK_en (s : State) (gi h k : Nat) (v : Word) : (setK s gi h k v).en = s.en := rfl
@[simp] theorem setK_fb (s : State) (gi h k : Nat) (v : Word) : (setK s gi h k v).fb = s.fb := rfl
@[simp] theorem setK_cx (s : State) (gi h k : Nat) (v : Word) : (setK s gi h k v).cx = s.cx := rfl
@[simp] theorem setK_pt (s : State) (gi h k : Nat) (v : Word) : (setK s gi h k v).pt = s.pt := rfl

@[simp] theorem setSb_md (s : State) (gi h c n : Nat) : (setSb s gi h c n).md = s.md := rfl
@[simp] theorem setSb_rg (s : State) (gi h c n : Nat) : (setSb s gi h c n).rg = { s.rg with sb := NMap.set 0 s.rg.sb (cKey gi h c) n } := rfl
@[simp] theorem setSb_wk (s : State) (gi h c n : Nat) : (setSb s gi h c n).wk = s.wk := rfl
@[simp] theorem setSb_mm (s : State) (gi h c n : Nat) : (setSb s gi h c n).mm = s.mm := rfl
@[simp] theorem setSb_xl (s : State) (gi h c n : Nat) : (setSb s gi h c n).xl = s.xl := rfl
@[simp] theorem setSb_en (s : State) (gi h c n : Nat) : (setSb s gi h c n).en = s.en := rfl
@[simp] theorem setSb_fb (s : State) (gi h c n : Nat) : (setSb s gi h c n).fb = s.fb := rfl
@[simp] theorem setSb_cx (s : State) (gi h c n : Nat) : (setSb s gi h c n).cx = s.cx := rfl
@[simp] theorem setSb_pt (s : State) (gi h c n : Nat) : (setSb s gi h c n).pt = s.pt := rfl

@[simp] theorem setTenant_md (s : State) (i : Nat) (f : Tenant → Tenant) : (setTenant s i f).md = s.md := rfl
@[simp] theorem setTenant_rg (s : State) (i : Nat) (f : Tenant → Tenant) : (setTenant s i f).rg = s.rg := rfl
@[simp] theorem setTenant_wk (s : State) (i : Nat) (f : Tenant → Tenant) : (setTenant s i f).wk = s.wk := rfl
@[simp] theorem setTenant_mm (s : State) (i : Nat) (f : Tenant → Tenant) : (setTenant s i f).mm = s.mm := rfl
@[simp] theorem setTenant_xl (s : State) (i : Nat) (f : Tenant → Tenant) : (setTenant s i f).xl = s.xl := rfl
@[simp] theorem setTenant_en (s : State) (i : Nat) (f : Tenant → Tenant) : (setTenant s i f).en = s.en := rfl
@[simp] theorem setTenant_fb (s : State) (i : Nat) (f : Tenant → Tenant) : (setTenant s i f).fb = s.fb := rfl
@[simp] theorem setTenant_cx (s : State) (i : Nat) (f : Tenant → Tenant) : (setTenant s i f).cx = s.cx := rfl
@[simp] theorem setTenant_pt (s : State) (i : Nat) (f : Tenant → Tenant) : (setTenant s i f).pt = { s.pt with tenants := NMap.set {} s.pt.tenants i (f (NMap.get {} s.pt.tenants i)) } := rfl

@[simp] theorem setQueue_md (s : State) (q : Nat) (f : LQueue → LQueue) : (setQueue s q f).md = s.md := rfl
@[simp] theorem setQueue_rg (s : State) (q : Nat) (f : LQueue → LQueue) : (setQueue s q f).rg = s.rg := rfl
@[simp] theorem setQueue_wk (s : State) (q : Nat) (f : LQueue → LQueue) : (setQueue s q f).wk = s.wk := rfl
@[simp] theorem setQueue_mm (s : State) (q : Nat) (f : LQueue → LQueue) : (setQueue s q f).mm = s.mm := rfl
@[simp] theorem setQueue_xl (s : State) (q : Nat) (f : LQueue → LQueue) : (setQueue s q f).xl = s.xl := rfl
@[simp] theorem setQueue_en (s : State) (q : Nat) (f : LQueue → LQueue) : (setQueue s q f).en = s.en := rfl
@[simp] theorem setQueue_fb (s : State) (q : Nat) (f : LQueue → LQueue) : (setQueue s q f).fb = s.fb := rfl
@[simp] theorem setQueue_cx (s : State) (q : Nat) (f : LQueue → LQueue) : (setQueue s q f).cx = s.cx := rfl
@[simp] theorem setQueue_pt (s : State) (q : Nat) (f : LQueue → LQueue) : (setQueue s q f).pt = { s.pt with queues := NMap.set {} s.pt.queues q (f (NMap.get {} s.pt.queues q)) } := rfl

@[simp] theorem State.fresh_rg (s : State) : s.fresh.2.rg = s.rg := rfl
@[simp] theorem State.fresh_wk (s : State) : s.fresh.2.wk = s.wk := rfl
@[simp] theorem State.fresh_mm (s : State) : s.fresh.2.mm = s.mm := rfl
@[simp] theorem State.fresh_xl (s : State) : s.fresh.2.xl = s.xl := rfl
@[simp] theorem State.fresh_en (s : State) : s.fresh.2.en = s.en := rfl
@[simp] theorem State.fresh_fb (s : State) : s.fresh.2.fb = s.fb := rfl
@[simp] theorem State.fresh_cx (s : State) : s.fresh.2.cx = s.cx := rfl
@[simp] theorem State.fresh_pt (s : State) : s.fresh.2.pt = s.pt := rfl
@[simp] theorem State.drawFree_rg (s : State) : s.drawFree.2.rg = s.rg := rfl
@[simp] theorem State.drawFree_wk (s : State) : s.drawFree.2.wk = s.wk := rfl
@[simp] theorem State.drawFree_mm (s : State) : s.drawFree.2.mm = s.mm := rfl
@[simp] theorem State.drawFree_xl (s : State) : s.drawFree.2.xl = s.xl := rfl
@[simp] theorem State.drawFree_en (s : State) : s.drawFree.2.en = s.en := rfl
@[simp] theorem State.drawFree_fb (s : State) : s.drawFree.2.fb = s.fb := rfl
@[simp] theorem State.drawFree_cx (s : State) : s.drawFree.2.cx = s.cx := rfl
@[simp] theorem State.drawFree_pt (s : State) : s.drawFree.2.pt = s.pt := rfl
@[simp] theorem State.pick_rg (s : State) (n : Nat) : (s.pick n).2.rg = s.rg := rfl
@[simp] theorem State.pick_wk (s : State) (n : Nat) : (s.pick n).2.wk = s.wk := rfl
@[simp] theorem State.pick_mm (s : State) (n : Nat) : (s.pick n).2.mm = s.mm := rfl
@[simp] theorem State.pick_xl (s : State) (n : Nat) : (s.pick n).2.xl = s.xl := rfl
@[simp] theorem State.pick_en (s : State) (n : Nat) : (s.pick n).2.en = s.en := rfl
@[simp] theorem State.pick_fb (s : State) (n : Nat) : (s.pick n).2.fb = s.fb := rfl
@[simp] theorem State.pick_cx (s : State) (n : Nat) : (s.pick n).2.cx = s.cx := rfl
@[simp] theorem State.pick_pt (s : State) (n : Nat) : (s.pick n).2.pt = s.pt := rfl
@[simp] theorem State.coin_rg (s : State)  : (s.coin).2.rg = s.rg := rfl
@[simp] theorem State.coin_wk (s : State)  : (s.coin).2.wk = s.wk := rfl
@[simp] theorem State.coin_mm (s : State)  : (s.coin).2.mm = s.mm := rfl
@[simp] theorem State.coin_xl (s : State)  : (s.coin).2.xl = s.xl := rfl
@[simp] theorem State.coin_en (s : State)  : (s.coin).2.en = s.en := rfl
@[simp] theorem State.coin_fb (s : State)  : (s.coin).2.fb = s.fb := rfl
@[simp] theorem State.coin_cx (s : State)  : (s.coin).2.cx = s.cx := rfl
@[simp] theorem State.coin_pt (s : State)  : (s.coin).2.pt = s.pt := rfl
@[simp] theorem State.openField_rg (s : State) (n : Nat) : (s.openField n).2.rg = s.rg := rfl
@[simp] theorem State.openField_wk (s : State) (n : Nat) : (s.openField n).2.wk = s.wk := rfl
@[simp] theorem State.openField_mm (s : State) (n : Nat) : (s.openField n).2.mm = s.mm := rfl
@[simp] theorem State.openField_xl (s : State) (n : Nat) : (s.openField n).2.xl = s.xl := rfl
@[simp] theorem State.openField_en (s : State) (n : Nat) : (s.openField n).2.en = s.en := rfl
@[simp] theorem State.openField_fb (s : State) (n : Nat) : (s.openField n).2.fb = s.fb := rfl
@[simp] theorem State.openField_cx (s : State) (n : Nat) : (s.openField n).2.cx = s.cx := rfl
@[simp] theorem State.openField_pt (s : State) (n : Nat) : (s.openField n).2.pt = s.pt := rfl

end Sys2Proof.Machine
end

