-- ==== Sys2Proof/Laws/Finish.lean ====
section
/-!
SUPPORT. What the end of a word can do, and what writing a destination can do: the shared operations that every word of fixed
latency ends with.
-/
namespace Sys2Proof.Machine

/-- A property that each step of a fold keeps holds of the fold. -/
theorem foldl_keep {σ β γ : Type} (P : σ → γ) (f : σ → β → σ) (h : ∀ s x, P (f s x) = P s) (l : List β) (s : σ) :
    P (l.foldl f s) = P s := by
  induction l generalizing s with
  | nil => rfl
  | cons x l ih => rw [List.foldl_cons, ih, h]

/-- All of a state but where threads and issue warps stand, the eddy watch, virtual time and the model's own counters: what the end
of a word leaves as it is. -/
def still (s : State) : (NMap Word × NMap Word × NMap Bool × NMap Word × NMap Nat × NMap HWarp) ×
    (NMap Span × NMap Result × NMap Work × NMap Stop × NMap Nat) × MemSt × XlSt × EngSt × FabSt × CtxSt × PartSt :=
  ((s.rg.v, s.rg.s, s.rg.p, s.rg.k, s.rg.sb, s.rg.hwarps), (s.wk.spans, s.wk.results, s.wk.works, s.wk.stops, s.wk.stopGens),
   s.mm, s.xl, s.en, s.fb, s.cx, { s.pt with vt := [] })

@[simp] theorem still_updWarp (s : State) (id : Nat) (f : Warp → Warp) : still (s.updWarp id f) = still s := rfl
@[simp] theorem still_updGroup (s : State) (id : Nat) (f : Group → Group) : still (s.updGroup id f) = still s := rfl
@[simp] theorem still_updThread (s : State) (id : Nat) (f : Thread → Thread) : still (s.updThread id f) = still s := rfl
@[simp] theorem still_fresh (s : State) : still s.fresh.2 = still s := rfl
@[simp] theorem still_charge (s : State) (cls place ctx units : Nat) : still (charge s cls place ctx units) = still s := rfl

@[simp] theorem still_freeQuarter (s : State) (wid : Nat) : still (freeQuarter s wid) = still s := by
  unfold freeQuarter
  simp only
  split <;> rfl

@[simp] theorem still_parkWarp (s : State) (wid : Nat) (p : Park) : still (parkWarp s wid p) = still s := by
  unfold parkWarp
  simp

@[simp] theorem still_parkHere (s : State) (p : Park) : still (parkHere s p) = still s := still_parkWarp ..

@[simp] theorem still_dropEmpty (s : State) (wid : Nat) : still (dropEmpty s wid) = still s := by
  unfold dropEmpty
  split
  · exact still_freeQuarter s wid
  · rfl

@[simp] theorem still_eddyRun (s : State) (w : Warp) : still (eddyRun s w) = still s := by
  unfold eddyRun
  simp only
  split <;> rfl

@[simp] theorem still_closeRun (s : State) (wid : Nat) : still (closeRun s wid) = still s :=
  (still_freeQuarter (eddyRun s (s.warp wid)) wid).trans (still_eddyRun ..)

@[simp] theorem still_endRun (s : State) (wid : Nat) : still (endRun s wid) = still s :=
  (still_closeRun ..).trans (foldl_keep still _ (fun _ _ => still_updThread ..) _ _)

@[simp] theorem still_stepPast (s : State) (wid : Nat) : still (stepPast s wid) = still s := rfl

/-- THE END OF A WORD moves the warp on, parks it or ends its run, and touches nothing else. -/
@[simp] theorem still_finish (s : State) (b w : Bool) : still (finish s b w) = still s := by
  unfold finish
  simp only
  split
  · exact still_dropEmpty ..
  · split
    · exact (still_parkWarp ..).trans rfl
    · split
      · exact (still_endRun ..).trans rfl
      · rfl

/-! ### Reading `still` apart -/

theorem still_v {s t : State} (h : still s = still t) : s.rg.v = t.rg.v := congrArg (fun x => x.1.1) h
theorem still_s {s t : State} (h : still s = still t) : s.rg.s = t.rg.s := congrArg (fun x => x.1.2.1) h
theorem still_p {s t : State} (h : still s = still t) : s.rg.p = t.rg.p := congrArg (fun x => x.1.2.2.1) h
theorem still_k {s t : State} (h : still s = still t) : s.rg.k = t.rg.k := congrArg (fun x => x.1.2.2.2.1) h
theorem still_sb {s t : State} (h : still s = still t) : s.rg.sb = t.rg.sb := congrArg (fun x => x.1.2.2.2.2.1) h
theorem still_hwarps {s t : State} (h : still s = still t) : s.rg.hwarps = t.rg.hwarps := congrArg (fun x => x.1.2.2.2.2.2) h
theorem still_results {s t : State} (h : still s = still t) : s.wk.results = t.wk.results := congrArg (fun x => x.2.1.2.1) h
theorem still_works {s t : State} (h : still s = still t) : s.wk.works = t.wk.works := congrArg (fun x => x.2.1.2.2.1) h
theorem still_stops {s t : State} (h : still s = still t) : s.wk.stops = t.wk.stops := congrArg (fun x => x.2.1.2.2.2.1) h
theorem still_mm {s t : State} (h : still s = still t) : s.mm = t.mm := congrArg (fun x => x.2.2.1) h
theorem still_xl {s t : State} (h : still s = still t) : s.xl = t.xl := congrArg (fun x => x.2.2.2.1) h
theorem still_en {s t : State} (h : still s = still t) : s.en = t.en := congrArg (fun x => x.2.2.2.2.1) h
theorem still_fb {s t : State} (h : still s = still t) : s.fb = t.fb := congrArg (fun x => x.2.2.2.2.2.1) h
theorem still_cx {s t : State} (h : still s = still t) : s.cx = t.cx := congrArg (fun x => x.2.2.2.2.2.2.1) h

/-! ### Writing a destination -/

/-- Keys of the v registers that a list of lanes writes: nothing where a helper lane writes, which keeps its own copy. -/
def laneKeys (gi n width : Nat) (l : List LaneEnt) : List Nat :=
  (l.filter (fun e => !e.help)).flatMap (fun e => (List.range width).map (fun i => vKey gi e.hwarp (n + i) e.hlane))

/-- All of a state but registers and issue warps. -/
def around (s : State) : ModelSt × (NMap Thread × NMap Word × NMap Nat × NMap HWarp) ×
    (NMap Group × NMap Span × NMap Quarter × NMap Result × NMap Work × NMap Stop × NMap Nat) × MemSt × XlSt × EngSt × FabSt × CtxSt × PartSt :=
  (s.md, (s.rg.threads, s.rg.k, s.rg.sb, s.rg.hwarps),
   (s.wk.groups, s.wk.spans, s.wk.quarters, s.wk.results, s.wk.works, s.wk.stops, s.wk.stopGens), s.mm, s.xl, s.en, s.fb, s.cx, s.pt)

@[simp] theorem around_updWarp (s : State) (id : Nat) (f : Warp → Warp) : around (s.updWarp id f) = around s := rfl

@[simp] theorem around_writeLane (s : State) (wid p : Nat) (e : LaneEnt) (r : Reg) (width val : Nat) :
    around (writeLane s wid p e r width val) = around s := by
  unfold writeLane
  split
  · simp only
    split <;> rfl
  all_goals rfl

@[simp] theorem around_writeS (s : State) (wid n width val : Nat) : around (writeS s wid n width val) = around s := rfl

/-- Writing a destination changes registers and the warps' own copies of them, and nothing else. -/
@[simp] theorem around_writeDst (s : State) (wid : Nat) (r : Reg) (width : Nat) (vals : List (Nat × LaneEnt × Nat)) :
    around (writeDst s wid r width vals) = around s := by
  unfold writeDst
  split
  · split
    · exact around_writeS ..
    · rfl
  all_goals exact foldl_keep around _ (fun _ _ => around_writeLane ..) _ _

@[simp] theorem around_writePred (s : State) (wid p : Nat) (e : LaneEnt) (i : Nat) (b : Bool) :
    around (writePred s wid p e i b) = around s := by
  unfold writePred
  split
  · rfl
  · split <;> rfl

@[simp] theorem around_writePreds (s : State) (wid i : Nat) (vals : List (Nat × LaneEnt × Bool)) :
    around (writePreds s wid i vals) = around s :=
  foldl_keep around _ (fun _ _ => around_writePred ..) _ _

theorem around_mm {s t : State} (h : around s = around t) : s.mm = t.mm := congrArg (fun x => x.2.2.2.1) h
theorem around_cx {s t : State} (h : around s = around t) : s.cx = t.cx := congrArg (fun x => x.2.2.2.2.2.2.2.1) h

end Sys2Proof.Machine
end

