-- ==== Sys2Proof/Laws/EndOfWord.lean ====
section
/-!
SUPPORT. What the end of a word does to issue warps, threads and groups, said once.
-/
namespace Sys2Proof.Machine

theorem find_erase_of_ne {α : Type} {m : NMap α} {a b : Nat} (h : b ≠ a) : NMap.find (NMap.erase m a) b = NMap.find m b :=
  NMap.find_erase_ne m a b h

@[simp] theorem charge_wk (s : State) (a b c d : Nat) : (charge s a b c d).wk = s.wk := rfl
@[simp] theorem charge_rg (s : State) (a b c d : Nat) : (charge s a b c d).rg = s.rg := rfl
@[simp] theorem charge_md (s : State) (a b c d : Nat) : (charge s a b c d).md = s.md := rfl

theorem freeQuarter_warps (s : State) (wid : Nat) : (freeQuarter s wid).wk.warps = s.wk.warps := by
  unfold freeQuarter
  simp only
  split <;> rfl
theorem freeQuarter_groups (s : State) (wid : Nat) : (freeQuarter s wid).wk.groups = s.wk.groups := by
  unfold freeQuarter
  simp only
  split <;> rfl
theorem freeQuarter_rg (s : State) (wid : Nat) : (freeQuarter s wid).rg = s.rg := by
  unfold freeQuarter
  simp only
  split <;> rfl
theorem freeQuarter_md (s : State) (wid : Nat) : (freeQuarter s wid).md = s.md := by
  unfold freeQuarter
  simp only
  split <;> rfl

theorem parkWarp_warps (s : State) (wid : Nat) (p : Park) :
    ∃ age, (parkWarp s wid p).wk.warps = s.wk.warps.upd wid (fun w => { w with park := p, age := age }) := by
  refine ⟨max (freeQuarter s wid).md.nextId ((freeQuarter s wid).md.cur + 1), ?_⟩
  have h := freeQuarter_warps s wid
  show NMap.upd (freeQuarter s wid).wk.warps wid _ = _
  rw [h]
theorem parkWarp_groups (s : State) (wid : Nat) (p : Park) : (parkWarp s wid p).wk.groups = s.wk.groups :=
  freeQuarter_groups s wid
theorem parkWarp_rg (s : State) (wid : Nat) (p : Park) : (parkWarp s wid p).rg = s.rg := freeQuarter_rg s wid
theorem parkWarp_cur (s : State) (wid : Nat) (p : Park) : (parkWarp s wid p).md.cur = s.md.cur := by
  show (freeQuarter s wid).md.cur = s.md.cur
  rw [freeQuarter_md]
theorem parkWarp_agenda (s : State) (wid : Nat) (p : Park) : (parkWarp s wid p).md.agenda = s.md.agenda := by
  show (freeQuarter s wid).md.agenda = s.md.agenda
  rw [freeQuarter_md]

/-- What one update leaves of every record, seen through `p`. -/
theorem find_upd_map {α β : Type} (m : NMap α) (k j : Nat) (f : α → α) (p : α → β) (h : ∀ x, p (f x) = p x) :
    (NMap.find (NMap.upd m k f) j).map p = (NMap.find m j).map p := by
  by_cases hj : j = k
  · subst hj
    rw [NMap.find_upd_self]
    cases NMap.find m j <;> simp [h]
  · rw [NMap.find_upd_ne _ _ _ _ hj]

theorem eddyRun_warps (s : State) (w : Warp) : (eddyRun s w).wk.warps = s.wk.warps := by
  unfold eddyRun
  simp only
  split <;> rfl
theorem eddyRun_rg (s : State) (w : Warp) : (eddyRun s w).rg = s.rg := by
  unfold eddyRun
  simp only
  split <;> rfl
theorem eddyRun_md (s : State) (w : Warp) : (eddyRun s w).md = s.md := by
  unfold eddyRun
  simp only
  split <;> rfl

/-- The eddy watch and YIELD marks are all that the end of a run notes in a group. -/
theorem eddyRun_groups (s : State) (w : Warp) (g : Nat) :
    ((eddyRun s w).wk.groups.find g).map Say.plainGroup = (s.wk.groups.find g).map Say.plainGroup := by
  have h1 : ∀ t : State, ∀ f : Group → Group, (∀ x, Say.plainGroup (f x) = Say.plainGroup x) →
      ((t.updGroup w.gi f).wk.groups.find g).map Say.plainGroup = (t.wk.groups.find g).map Say.plainGroup :=
    fun t f hf => find_upd_map t.wk.groups w.gi g f Say.plainGroup hf
  unfold eddyRun
  simp only
  split
  · refine (h1 _ _ ?_).trans (h1 _ _ (fun x => ?_))
    · intro x
      rfl
    repeat' split
    all_goals rfl
  · refine h1 _ _ (fun x => ?_)
    repeat' split
    all_goals rfl

/-- Threads that a fold seats: what `look` sees of a thread is kept where seating keeps it. -/
theorem seat_threads {γ : Type} (look : Thread → γ) (gi : Nat) (f : Thread → Thread) (hf : ∀ x, look (f x) = look x)
    (l : List (Nat × LaneEnt)) (s : State) (k : Nat) :
    ((l.foldl (fun s q => s.updThread (thKey gi q.2.hwarp q.2.hlane) f) s).rg.threads.find k).map look =
      (s.rg.threads.find k).map look := by
  induction l generalizing s with
  | nil => rfl
  | cons q l ih =>
    rw [List.foldl_cons, ih]
    exact find_upd_map _ _ _ _ _ hf

theorem seat_away (gi : Nat) (f : Thread → Thread) (l : List (Nat × LaneEnt)) (s : State) (k : Nat)
    (h : ∀ q ∈ l, k ≠ thKey gi q.2.hwarp q.2.hlane) :
    (l.foldl (fun s q => s.updThread (thKey gi q.2.hwarp q.2.hlane) f) s).rg.threads.find k = s.rg.threads.find k := by
  induction l generalizing s with
  | nil => rfl
  | cons q l ih =>
    rw [List.foldl_cons, ih _ (fun r hr => h r (List.mem_cons_of_mem _ hr))]
    exact NMap.find_upd_ne _ _ _ _ (h q (List.mem_cons_self ..))

theorem seat_wk (gi : Nat) (f : Thread → Thread) (l : List (Nat × LaneEnt)) (s : State) :
    (l.foldl (fun s q => s.updThread (thKey gi q.2.hwarp q.2.hlane) f) s).wk = s.wk := by
  induction l generalizing s with
  | nil => rfl
  | cons q l ih => rw [List.foldl_cons, ih, State.updThread_wk]
theorem seat_md (gi : Nat) (f : Thread → Thread) (l : List (Nat × LaneEnt)) (s : State) :
    (l.foldl (fun s q => s.updThread (thKey gi q.2.hwarp q.2.hlane) f) s).md = s.md := by
  induction l generalizing s with
  | nil => rfl
  | cons q l ih => rw [List.foldl_cons, ih, State.updThread_md]

/-- What seating does to a thread at the end of a run (R353). -/
def seatAt (w : Warp) (t : Thread) : Thread := { t with stat := .frontier, pc := if w.tail then t.pc else w.pc }

/-- The state while a run ends, threads seated. -/
def seatRun (s : State) (wid : Nat) : State :=
  (activeLanes (s.warp wid)).foldl (fun t q =>
    t.updThread (thKey (s.warp wid).gi q.2.hwarp q.2.hlane) (seatAt (s.warp wid))) s

/-- What the end of a run leaves in the records of the group's other warps: the values its writes replaced (R287). -/
def noteStale (w x : Warp) : Warp :=
  if x.gi = w.gi then { x with stale := w.wrote.foldl (fun m y => NMap.insert m y.1 (y.2 ++ NMap.get [] m y.1)) x.stale } else x

theorem noteStale_plain (w x : Warp) : Say.plainWarp (noteStale w x) = Say.plainWarp x := by
  unfold noteStale
  split <;> rfl

theorem endRun_eq (s : State) (wid : Nat) : ∃ u : State, u = freeQuarter (eddyRun (seatRun s wid) (s.warp wid)) wid ∧
    endRun s wid = u.updWK (fun k => { k with
      warps := (k.warps.erase wid).map (fun c => (c.1, noteStale (s.warp wid) c.2)) }) := by
  refine ⟨_, rfl, ?_⟩
  have hw : (seatRun s wid).warp wid = s.warp wid := congrArg (fun k : WorkSt => (k.warps.find wid).getD {}) (seat_wk ..)
  have h : ∀ (u : State) (f g : WorkSt → WorkSt), (∀ k, f k = g k) → u.updWK f = u.updWK g := fun u f g h => by
    rw [funext h]
  rw [← hw]
  change State.updWK (freeQuarter (eddyRun (seatRun s wid) ((seatRun s wid).warp wid)) wid) (fun k => { k with
    warps := (k.warps.erase wid).map (fun c =>
      if c.2.gi = ((seatRun s wid).warp wid).gi then
        (c.1, { c.2 with stale := ((seatRun s wid).warp wid).wrote.foldl (fun m x => NMap.insert m x.1 (x.2 ++ NMap.get [] m x.1)) c.2.stale })
      else c) }) = _
  refine h _ _ _ (fun k => ?_)
  congr 1
  refine List.map_congr_left (fun c _ => ?_)
  unfold noteStale
  split <;> rfl

theorem endRun_self (s : State) (wid : Nat) : (endRun s wid).wk.warps.find wid = none := by
  obtain ⟨u, -, he⟩ := endRun_eq s wid
  rw [he]
  refine (NMap.find_map (u.wk.warps.erase wid) (fun _ x => noteStale (s.warp wid) x) wid).trans ?_
  rw [NMap.find_erase_self]
  rfl

theorem endRun_others (s : State) (wid id : Nat) (h : id ≠ wid) :
    ((endRun s wid).wk.warps.find id).map Say.plainWarp = (s.wk.warps.find id).map Say.plainWarp := by
  obtain ⟨u, hu, he⟩ := endRun_eq s wid
  have hw : u.wk.warps = s.wk.warps := by
    rw [hu, freeQuarter_warps, eddyRun_warps]
    exact congrArg WorkSt.warps (seat_wk ..)
  rw [he]
  refine (congrArg _ (NMap.find_map (u.wk.warps.erase wid) (fun _ x => noteStale (s.warp wid) x) id)).trans ?_
  rw [NMap.find_erase_ne _ _ _ h, hw]
  cases NMap.find s.wk.warps id with
  | none => rfl
  | some x => exact congrArg some (noteStale_plain _ x)

theorem endRun_groups (s : State) (wid g : Nat) :
    ((endRun s wid).wk.groups.find g).map Say.plainGroup = (s.wk.groups.find g).map Say.plainGroup := by
  obtain ⟨u, hu, he⟩ := endRun_eq s wid
  rw [he]
  show (u.wk.groups.find g).map _ = _
  rw [hu, freeQuarter_groups, eddyRun_groups]
  exact congrArg (fun k : WorkSt => (k.groups.find g).map Say.plainGroup) (seat_wk ..)

theorem endRun_rg (s : State) (wid : Nat) : (endRun s wid).rg = (seatRun s wid).rg := by
  obtain ⟨u, hu, he⟩ := endRun_eq s wid
  rw [he]
  show u.rg = _
  rw [hu, freeQuarter_rg, eddyRun_rg]

theorem endRun_md (s : State) (wid : Nat) : (endRun s wid).md = s.md := by
  obtain ⟨u, hu, he⟩ := endRun_eq s wid
  rw [he]
  show u.md = _
  rw [hu, freeQuarter_md, eddyRun_md]
  exact seat_md ..

/-- How a word ends: its warp is gone for want of active lanes; or it stands at the next word, parked or not; or its run has ended. -/
inductive WordEnd (s t : State) : Prop where
  | empty (h : activeLanes (s.warp s.md.cur) = []) (e : t = dropEmpty s s.md.cur)
  | parked (b : Bool) (e : t = parkWarp ((stepPast s s.md.cur).updWarp s.md.cur (fun x => { x with ends := b })) s.md.cur .results)
  | ended (e : t = endRun (stepPast s s.md.cur) s.md.cur)
  | past (e : t = stepPast s s.md.cur)

theorem finish_cases (s : State) (b w : Bool) : WordEnd s (finish s b w) := by
  unfold finish
  simp only
  split
  · exact .empty ‹_› rfl
  · split
    · exact .parked b rfl
    · split
      · exact .ended rfl
      · exact .past rfl

theorem dropEmpty_others (s : State) (wid id : Nat) (h : id ≠ wid) : (dropEmpty s wid).wk.warps.find id = s.wk.warps.find id := by
  unfold dropEmpty
  split
  · show NMap.find (NMap.erase (freeQuarter s wid).wk.warps wid) id = _
    rw [NMap.find_erase_ne _ _ _ h, freeQuarter_warps]
  · rfl

theorem dropEmpty_groups (s : State) (wid : Nat) : (dropEmpty s wid).wk.groups = s.wk.groups := by
  unfold dropEmpty
  split
  · exact freeQuarter_groups s wid
  · rfl
theorem dropEmpty_rg (s : State) (wid : Nat) : (dropEmpty s wid).rg = s.rg := by
  unfold dropEmpty
  split
  · exact freeQuarter_rg s wid
  · rfl
theorem dropEmpty_md (s : State) (wid : Nat) : (dropEmpty s wid).md = s.md := by
  unfold dropEmpty
  split
  · exact freeQuarter_md s wid
  · rfl
theorem dropEmpty_self (s : State) (wid : Nat) (h : activeLanes (s.warp wid) = []) : (dropEmpty s wid).wk.warps.find wid = none := by
  unfold dropEmpty
  rw [if_pos h]
  exact NMap.find_erase_self ..

theorem stepPast_others (s : State) (wid id : Nat) (h : id ≠ wid) : (stepPast s wid).wk.warps.find id = s.wk.warps.find id :=
  NMap.find_upd_ne _ _ _ _ h

/-- The other warps after the end of a word. -/
theorem finish_others (s : State) (b w : Bool) (id : Nat) (h : id ≠ s.md.cur) :
    ((finish s b w).wk.warps.find id).map Say.plainWarp = (s.wk.warps.find id).map Say.plainWarp := by
  obtain ⟨_, e⟩ | ⟨b, e⟩ | e | e := finish_cases s b w <;> rw [e]
  · rw [dropEmpty_others _ _ _ h]
  · obtain ⟨a, ha⟩ := parkWarp_warps ((stepPast s s.md.cur).updWarp s.md.cur (fun x => { x with ends := b })) s.md.cur .results
    rw [ha, NMap.find_upd_ne _ _ _ _ h]
    show (NMap.find (NMap.upd _ _ _) id).map _ = _
    rw [NMap.find_upd_ne _ _ _ _ h, stepPast_others _ _ _ h]
  · rw [endRun_others _ _ _ h, stepPast_others _ _ _ h]
  · rw [stepPast_others _ _ _ h]

theorem finish_groups (s : State) (b w : Bool) (g : Nat) :
    ((finish s b w).wk.groups.find g).map Say.plainGroup = (s.wk.groups.find g).map Say.plainGroup := by
  obtain ⟨_, e⟩ | ⟨b, e⟩ | e | e := finish_cases s b w <;> rw [e]
  · rw [dropEmpty_groups]
  · rw [parkWarp_groups]
    rfl
  · rw [endRun_groups]
    rfl
  · rfl

theorem finish_agenda (s : State) (b w : Bool) : (finish s b w).md.agenda = s.md.agenda := by
  obtain ⟨_, e⟩ | ⟨b, e⟩ | e | e := finish_cases s b w <;> rw [e]
  · rw [dropEmpty_md]
  · rw [parkWarp_agenda]
    rfl
  · rw [endRun_md]
    rfl
  · rfl

/-- What a thread's seat does not touch is kept by the end of a word. -/
theorem finish_threads {γ : Type} (look : Thread → γ) (hl : ∀ w x, look (seatAt w x) = look x) (s : State) (b w : Bool) (k : Nat) :
    ((finish s b w).rg.threads.find k).map look = (s.rg.threads.find k).map look := by
  obtain ⟨_, e⟩ | ⟨b, e⟩ | e | e := finish_cases s b w <;> rw [e]
  · rw [dropEmpty_rg]
  · rw [parkWarp_rg]
    rfl
  · rw [endRun_rg]
    exact seat_threads look _ _ (hl _) _ _ _
  · rfl

/-- The executing warp, if its record is there, after stepping past its word. -/
def pastWord (w : Warp) : Warp :=
  { w with pc := w.pc + 8, count := w.count + w.wordN, named := w.named ||| w.wordNamed, wordN := 0, wordNamed := 0, works := [],
           foundFull := false, phase := 0, donePl := 0, serVals := [], opLane := [], formed := [], shot := [], park := .none,
           sSeen := [], wMark := false }

theorem stepPast_self (s : State) (wid : Nat) : (stepPast s wid).wk.warps.find wid = (s.wk.warps.find wid).map pastWord :=
  NMap.find_upd_self ..

theorem stepPast_warp (s : State) (wid : Nat) : activeLanes ((stepPast s wid).warp wid) = activeLanes (s.warp wid) := by
  unfold State.warp
  rw [stepPast_self]
  cases NMap.find s.wk.warps wid <;> rfl

theorem stepPast_gi (s : State) (wid : Nat) : ((stepPast s wid).warp wid).gi = (s.warp wid).gi := by
  unfold State.warp
  rw [stepPast_self]
  cases NMap.find s.wk.warps wid <;> rfl

/-- Threads that the executing warp does not carry are left where they stand. -/
theorem finish_away (s : State) (b w : Bool) (k : Nat)
    (h : ∀ q ∈ activeLanes (s.warp s.md.cur), k ≠ thKey (s.warp s.md.cur).gi q.2.hwarp q.2.hlane) :
    (finish s b w).rg.threads.find k = s.rg.threads.find k := by
  obtain ⟨_, e⟩ | ⟨b, e⟩ | e | e := finish_cases s b w <;> rw [e]
  · rw [dropEmpty_rg]
  · rw [parkWarp_rg]
    rfl
  · rw [endRun_rg]
    unfold seatRun
    rw [stepPast_warp, stepPast_gi]
    exact seat_away _ _ _ _ _ h
  · rfl

/-- The executing warp, if it is still there, is the one that stepped past its word, but for its park. -/
theorem finish_self (s : State) (b w : Bool) (y : Warp) (h : (finish s b w).wk.warps.find s.md.cur = some y) :
    ∃ x, s.wk.warps.find s.md.cur = some x ∧ ∃ p e a, y = { pastWord x with park := p, ends := e, age := a } := by
  obtain ⟨h0, e⟩ | ⟨b, e⟩ | e | e := finish_cases s b w <;> rw [e] at h
  · rw [dropEmpty_self _ _ h0] at h
    cases h
  · obtain ⟨a, ha⟩ := parkWarp_warps ((stepPast s s.md.cur).updWarp s.md.cur (fun x => { x with ends := b })) s.md.cur .results
    rw [ha, NMap.find_upd_self] at h
    have h2 : ((stepPast s s.md.cur).updWarp s.md.cur (fun x => { x with ends := b })).wk.warps.find s.md.cur =
        ((stepPast s s.md.cur).wk.warps.find s.md.cur).map (fun x => { x with ends := b }) := NMap.find_upd_self ..
    rw [h2, stepPast_self] at h
    cases hx : NMap.find s.wk.warps s.md.cur with
    | none => simp [hx] at h
    | some x =>
      simp only [hx, Option.map_some, Option.some.injEq] at h
      exact ⟨x, rfl, .results, b, a, h.symm⟩
  · rw [endRun_self] at h
    cases h
  · rw [stepPast_self] at h
    cases hx : NMap.find s.wk.warps s.md.cur with
    | none => simp [hx] at h
    | some x =>
      simp only [hx, Option.map_some, Option.some.injEq] at h
      exact ⟨x, rfl, .none, x.ends, x.age, h.symm⟩

end Sys2Proof.Machine
end

