-- ==== Sys2Proof/Laws/Words.lean ====
section
/-!
SUPPORT. What a word that writes registers only does: the destination's registers, the predicates, and the rest kept.
-/
namespace Sys2Proof.Machine
open Say

/-- The part of an issue warp that no write of a register touches. -/
def stem (w : Warp) : Nat × List LaneEnt × DWord := (w.gi, w.lanes, w.pc)

/-- A state that differs from another in registers, predicates and what `look` forgets of threads only: a word before its end. -/
structure Mid (look : Thread → Thread) (s m : State) : Prop where
  md : m.md = s.md
  mm : m.mm = s.mm
  xl : m.xl = s.xl
  en : m.en = s.en
  fb : m.fb = s.fb
  cx : m.cx = s.cx
  pt : m.pt = s.pt
  k : m.rg.k = s.rg.k
  sb : m.rg.sb = s.rg.sb
  hwarps : m.rg.hwarps = s.rg.hwarps
  groups : m.wk.groups = s.wk.groups
  spans : m.wk.spans = s.wk.spans
  results : m.wk.results = s.wk.results
  works : m.wk.works = s.wk.works
  stops : m.wk.stops = s.wk.stops
  others : ∀ id, id ≠ s.md.cur → (m.wk.warps.find id).map plainWarp = (s.wk.warps.find id).map plainWarp
  self : (m.wk.warps.find s.md.cur).map stem = (s.wk.warps.find s.md.cur).map stem
  threads : ∀ k, (m.rg.threads.find k).map look = (s.rg.threads.find k).map look
  seats : ∀ k, (m.rg.threads.find k).map (·.pc) = (s.rg.threads.find k).map (·.pc) ∧
    (m.rg.threads.find k).map (·.stat) = (s.rg.threads.find k).map (·.stat)

theorem Mid.refl (look : Thread → Thread) (s : State) : Mid look s s := by
  constructor <;> intros <;> first | rfl | exact ⟨rfl, rfl⟩

theorem Mid.trans {look : Thread → Thread} {s m t : State} (h : Mid look s m) (g : Mid look m t) : Mid look s t where
  md := g.md.trans h.md
  mm := g.mm.trans h.mm
  xl := g.xl.trans h.xl
  en := g.en.trans h.en
  fb := g.fb.trans h.fb
  cx := g.cx.trans h.cx
  pt := g.pt.trans h.pt
  k := g.k.trans h.k
  sb := g.sb.trans h.sb
  hwarps := g.hwarps.trans h.hwarps
  groups := g.groups.trans h.groups
  spans := g.spans.trans h.spans
  results := g.results.trans h.results
  works := g.works.trans h.works
  stops := g.stops.trans h.stops
  others id hi := (g.others id (by rw [h.md]; exact hi)).trans (h.others id hi)
  self := by
    have := g.self
    rw [h.md] at this
    exact this.trans h.self
  threads k := (g.threads k).trans (h.threads k)
  seats k := ⟨(g.seats k).1.trans (h.seats k).1, (g.seats k).2.trans (h.seats k).2⟩

theorem map_stem_warp {m s : State} {i : Nat} (h : (m.wk.warps.find i).map stem = (s.wk.warps.find i).map stem) :
    (m.warp i).gi = (s.warp i).gi ∧ (m.warp i).lanes = (s.warp i).lanes ∧ (m.warp i).pc = (s.warp i).pc := by
  unfold State.warp
  cases ha : NMap.find m.wk.warps i <;> cases hb : NMap.find s.wk.warps i <;> simp_all [stem]

theorem Mid.gi {look : Thread → Thread} {s m : State} (h : Mid look s m) : (m.warp s.md.cur).gi = s.curWarp.gi :=
  (map_stem_warp h.self).1
theorem Mid.lanes {look : Thread → Thread} {s m : State} (h : Mid look s m) : (m.warp s.md.cur).lanes = s.curWarp.lanes :=
  (map_stem_warp h.self).2.1

theorem Mid.cur {look : Thread → Thread} {s m : State} (h : Mid look s m) : m.md.cur = s.md.cur := by rw [h.md]

theorem activeLanes_congr {a b : Warp} (h : a.lanes = b.lanes) : activeLanes a = activeLanes b := by
  unfold activeLanes liveLanes
  rw [h]

/-- THE END OF A WORD AFTER REGISTER WRITES keeps all that `Kept` names. -/
theorem Mid.kept {look : Thread → Thread} {s m : State} (h : Mid look s m) (hl : ∀ w x, look (seatAt w x) = look x) (b w : Bool) :
    Kept look s (finish m b w) := by
  have st := still_finish m b w
  refine ⟨(still_mm st).trans h.mm, (still_xl st).trans h.xl, (still_en st).trans h.en, (still_fb st).trans h.fb,
    (still_cx st).trans h.cx, ?_, (still_k st).trans h.k, (still_sb st).trans h.sb, (still_hwarps st).trans h.hwarps,
    (still_results st).trans h.results, (still_works st).trans h.works, (still_stops st).trans h.stops, ?_, ?_, ?_, ?_, ?_, ?_, ?_⟩
  · have := congrArg (fun x => x.2.2.2.2.2.2.2) st
    refine Eq.trans this ?_
    show ({ m.pt with vt := [] } : PartSt) = plainPart s.pt
    rw [h.pt]
    rfl
  · have := congrArg (fun x => x.2.1.1) st
    exact Eq.trans this h.spans
  · intro g
    rw [finish_groups, h.groups]
  · intro id hi
    rw [finish_others _ _ _ _ (by rw [h.cur]; exact hi)]
    exact h.others id hi
  · intro k
    rw [finish_threads look hl]
    exact h.threads k
  · intro k hk
    have : (finish m b w).rg.threads.find k = m.rg.threads.find k := by
      apply finish_away
      intro q hq
      rw [h.cur] at hq ⊢
      rw [h.gi]
      rw [activeLanes_congr h.lanes] at hq
      exact hk q hq
    rw [this]
    exact h.seats k
  · intro y hy
    rw [← h.cur] at hy
    obtain ⟨x, hx, p, e, a, rfl⟩ := finish_self m b w y hy
    have := map_stem_warp (m := m) (s := s) (i := s.md.cur) h.self
    have hx2 : m.warp s.md.cur = x := by
      unfold State.warp
      rw [← h.cur, hx]
      rfl
    rw [hx2] at this
    obtain ⟨h1, h2, h3⟩ := this
    refine ⟨h1, h2, ?_⟩
    show x.pc + 8 = _
    rw [h3]
    rfl
  · rw [finish_agenda, h.md]

theorem seatAt_seated (w : Warp) (x : Thread) : seated (seatAt w x) = seated x := rfl
theorem seatAt_reseeded (w : Warp) (x : Thread) : reseeded (seatAt w x) = reseeded x := rfl

/-! ### Register writes -/

theorem Mid.of_updWarp (look : Thread → Thread) (s : State) (f : Warp → Warp) (hf : ∀ w, stem (f w) = stem w) :
    Mid look s (s.updWarp s.md.cur f) := by
  constructor <;> intros
  case others id hi => exact congrArg _ (NMap.find_upd_ne _ _ _ _ hi)
  case self => exact find_upd_map _ _ _ _ _ hf
  case seats => exact ⟨rfl, rfl⟩
  all_goals rfl

theorem Mid.of_rg (look : Thread → Thread) (s : State) (r : RegSt) (h1 : r.threads = s.rg.threads) (h2 : r.k = s.rg.k)
    (h3 : r.sb = s.rg.sb) (h4 : r.hwarps = s.rg.hwarps) : Mid look s { s with rg := r } := by
  constructor <;> intros
  case threads => exact congrArg (fun x => (NMap.find x _).map look) h1
  case seats => exact ⟨congrArg (fun x => (NMap.find x _).map _) h1, congrArg (fun x => (NMap.find x _).map _) h1⟩
  case k => exact h2
  case sb => exact h3
  case hwarps => exact h4
  all_goals rfl

theorem Mid.writeLane (look : Thread → Thread) (s : State) (p : Nat) (e : LaneEnt) (r : Reg) (w val : Nat) :
    Mid look s (writeLane s s.md.cur p e r w val) := by
  unfold Machine.writeLane
  split
  · simp only
    split
    · exact Mid.of_updWarp look s _ (fun _ => rfl)
    · refine Mid.trans (Mid.of_rg look s _ ?_ ?_ ?_ ?_) (Mid.of_updWarp look _ _ (fun _ => rfl)) <;> rfl
  · exact Mid.of_updWarp look s _ (fun _ => rfl)
  all_goals exact Mid.refl look s

theorem Mid.foldWrites (look : Thread → Thread) (r : Reg) (w : Nat) (vals : List (Nat × LaneEnt × Nat)) (s : State) :
    Mid look s (vals.foldl (fun t v => Machine.writeLane t s.md.cur v.1 v.2.1 r w v.2.2) s) := by
  suffices h : ∀ (vals : List (Nat × LaneEnt × Nat)) (t : State), Mid look s t →
      Mid look s (vals.foldl (fun t v => Machine.writeLane t s.md.cur v.1 v.2.1 r w v.2.2) t) from h vals s (Mid.refl look s)
  intro vals
  induction vals with
  | nil => exact fun t h => h
  | cons v vals ih =>
    intro t h
    refine ih _ (h.trans ?_)
    rw [← h.cur]
    exact Mid.writeLane look t _ _ _ _ _

theorem noteSWrite_find (gi wid : Nat) (idx : List Nat) (old : SUndo) (ws : NMap Warp) (id : Nat) :
    NMap.find (noteSWrite gi wid idx old ws) id = (NMap.find ws id).map (fun x =>
      if x.gi = gi then
        if id = wid then { x with sUndo := x.sUndo.map (fun u => u.filter (fun y => !idx.contains y.1)),
                                  sSeen := x.sSeen.filter (fun y => !idx.contains y.1) }
        else { x with sUndo := old :: x.sUndo }
      else x) := by
  rw [← NMap.find_map ws (fun i x => if x.gi = gi then
        if i = wid then { x with sUndo := x.sUndo.map (fun u => u.filter (fun y => !idx.contains y.1)),
                                  sSeen := x.sSeen.filter (fun y => !idx.contains y.1) }
        else { x with sUndo := old :: x.sUndo }
      else x) id]
  congr 1
  unfold noteSWrite
  refine List.map_congr_left (fun c _ => ?_)
  split
  · split <;> rfl
  · rfl

theorem Mid.writeS (look : Thread → Thread) (s : State) (n w val : Nat) : Mid look s (writeS s s.md.cur n w val) := by
  constructor <;> intros
  case others id hi =>
    refine (congrArg _ (noteSWrite_find ..)).trans ?_
    cases NMap.find s.wk.warps id with
    | none => rfl
    | some x =>
      simp only [Option.map_some, if_neg hi]
      split <;> rfl
  case self =>
    refine (congrArg _ (noteSWrite_find ..)).trans ?_
    cases NMap.find s.wk.warps s.md.cur with
    | none => rfl
    | some x =>
      simp only [Option.map_some]
      split
      · rw [if_pos trivial]
        rfl
      · rfl
  case seats => exact ⟨rfl, rfl⟩
  all_goals rfl

theorem Mid.writeDst (look : Thread → Thread) (s : State) (r : Reg) (w : Nat) (vals : List (Nat × LaneEnt × Nat)) :
    Mid look s (writeDst s s.md.cur r w vals) := by
  unfold Machine.writeDst
  split
  · split
    · exact Mid.writeS look s _ _ _
    · exact Mid.refl look s
  all_goals exact Mid.foldWrites look _ _ _ _

theorem Mid.writePred (look : Thread → Thread) (s : State) (p : Nat) (e : LaneEnt) (i : Nat) (b : Bool) :
    Mid look s (writePred s s.md.cur p e i b) := by
  unfold Machine.writePred
  split
  · exact Mid.refl look s
  · split
    · exact Mid.of_updWarp look s _ (fun _ => rfl)
    · refine Mid.of_rg look s _ ?_ ?_ ?_ ?_ <;> rfl

theorem Mid.writePreds (look : Thread → Thread) (i : Nat) (vals : List (Nat × LaneEnt × Bool)) (s : State) :
    Mid look s (writePreds s s.md.cur i vals) := by
  suffices h : ∀ (vals : List (Nat × LaneEnt × Bool)) (t : State), Mid look s t →
      Mid look s (vals.foldl (fun t v => Machine.writePred t s.md.cur v.1 v.2.1 i v.2.2) t) from h vals s (Mid.refl look s)
  intro vals
  induction vals with
  | nil => exact fun t h => h
  | cons v vals ih =>
    intro t h
    refine ih _ (h.trans ?_)
    rw [← h.cur]
    exact Mid.writePred look t _ _ _ _

/-- Generators move and nothing else (R21, R22). -/
theorem Mid.setGens (s : State) (gi : Nat) (l : List (Nat × LaneEnt × Word)) : Mid reseeded s (setGens s gi l) := by
  suffices h : ∀ (l : List (Nat × LaneEnt × Word)) (t : State), Mid reseeded s t →
      Mid reseeded s (l.foldl (fun s v => setGen s gi v.2.1 v.2.2) t) from h l s (Mid.refl reseeded s)
  intro l
  induction l with
  | nil => exact fun t h => h
  | cons v l ih =>
    intro t h
    refine ih _ (h.trans ?_)
    constructor <;> intros
    case threads => exact find_upd_map _ _ _ _ _ (fun _ => rfl)
    case seats => exact ⟨find_upd_map _ _ _ _ _ (fun _ => rfl), find_upd_map _ _ _ _ _ (fun _ => rfl)⟩
    all_goals rfl

/-! ### What the registers hold -/

/-- Writes over a range of keys leave every other key alone. -/
theorem get_foldl_set_ne {α : Type} [DecidableEq α] (d : α) (key : Nat → Nat) (val : Nat → α) (w : Nat) (m : NMap α) (k : Nat)
    (h : ∀ i < w, k ≠ key i) : NMap.get d ((List.range w).foldl (fun m i => NMap.set d m (key i) (val i)) m) k = NMap.get d m k := by
  induction w with
  | zero => rfl
  | succ w ih =>
    rw [List.range_succ, List.foldl_append, List.foldl_cons, List.foldl_nil, NMap.get_set_ne _ _ _ _ _ (h w (by omega))]
    exact ih (fun i hi => h i (by omega))

/-- Writes over a range of distinct keys are all read back. -/
theorem get_foldl_set {α : Type} [DecidableEq α] (d : α) (key : Nat → Nat) (val : Nat → α) (w : Nat) (m : NMap α)
    (hk : ∀ i j, key i = key j → i = j) (i : Nat) (hi : i < w) :
    NMap.get d ((List.range w).foldl (fun m i => NMap.set d m (key i) (val i)) m) (key i) = val i := by
  induction w with
  | zero => omega
  | succ w ih =>
    rw [List.range_succ, List.foldl_append, List.foldl_cons, List.foldl_nil]
    by_cases e : i = w
    · subst e
      exact NMap.get_set_self ..
    · rw [NMap.get_set_ne _ _ _ _ _ (fun h => e (hk _ _ h))]
      exact ih (by omega)

theorem vKey_inj (gi h n l i j : Nat) (e : vKey gi h (n + i) l = vKey gi h (n + j) l) : i = j := by
  unfold vKey at e
  omega

theorem sKey_inj (gi n i j : Nat) (e : sKey gi (n + i) = sKey gi (n + j)) : i = j := by
  unfold sKey at e
  omega

theorem updWarp_gi (s : State) (id : Nat) (f : Warp → Warp) (hf : ∀ w, (f w).gi = w.gi) : ((s.updWarp id f).warp id).gi = (s.warp id).gi := by
  have : (s.updWarp id f).wk.warps.find id = (s.wk.warps.find id).map f := NMap.find_upd_self ..
  unfold State.warp
  rw [this]
  cases NMap.find s.wk.warps id <;> simp [hf]

/-- Reading a v register after one lane has written its destination. -/
theorem writeLane_v_ne (s : State) (wid p : Nat) (e : LaneEnt) (n : Fin 192) (w val k : Nat)
    (h : e.help = false → ∀ i < w, k ≠ vKey (s.warp wid).gi e.hwarp (n.val + i) e.hlane) :
    NMap.get 0 (writeLane s wid p e (.v n) w val).rg.v k = NMap.get 0 s.rg.v k := by
  unfold writeLane
  simp only
  split
  · rfl
  · rename_i hh
    exact get_foldl_set_ne 0 (fun i => vKey (s.warp wid).gi e.hwarp (n.val + i) e.hlane) (wordOf val) w s.rg.v k
      (h (by simpa using hh))

theorem writeLane_v_self (s : State) (wid p : Nat) (e : LaneEnt) (n : Fin 192) (w val i : Nat) (hh : e.help = false) (hi : i < w) :
    NMap.get 0 (writeLane s wid p e (.v n) w val).rg.v (vKey (s.warp wid).gi e.hwarp (n.val + i) e.hlane) = wordOf val i := by
  unfold writeLane
  simp only [hh]
  exact get_foldl_set 0 (fun i => vKey (s.warp wid).gi e.hwarp (n.val + i) e.hlane) (wordOf val) w s.rg.v
    (fun i j => vKey_inj _ _ _ _ i j) i hi

theorem writeLane_gi (s : State) (wid p : Nat) (e : LaneEnt) (r : Reg) (w val : Nat) :
    ((writeLane s wid p e r w val).warp wid).gi = (s.warp wid).gi := by
  unfold writeLane
  split
  · simp only
    split
    · exact updWarp_gi _ _ _ (fun _ => rfl)
    · exact updWarp_gi _ _ _ (fun _ => rfl)
  · exact updWarp_gi _ _ _ (fun _ => rfl)
  all_goals rfl

theorem foldWrites_v_ne (wid : Nat) (n : Fin 192) (w : Nat) (vals : List (Nat × LaneEnt × Nat)) (s : State) (k : Nat)
    (h : ∀ v ∈ vals, v.2.1.help = false → ∀ i < w, k ≠ vKey (s.warp wid).gi v.2.1.hwarp (n.val + i) v.2.1.hlane) :
    NMap.get 0 (vals.foldl (fun s v => writeLane s wid v.1 v.2.1 (.v n) w v.2.2) s).rg.v k = NMap.get 0 s.rg.v k := by
  induction vals generalizing s with
  | nil => rfl
  | cons v vals ih =>
    rw [List.foldl_cons, ih]
    · exact writeLane_v_ne _ _ _ _ _ _ _ _ (h v (List.mem_cons_self ..))
    · intro v' hv'
      rw [writeLane_gi]
      exact h v' (List.mem_cons_of_mem _ hv')

theorem foldWrites_v_self (wid : Nat) (n : Fin 192) (w : Nat) (vals : List (Nat × LaneEnt × Nat)) (s : State)
    (v : Nat × LaneEnt × Nat) (hv : v ∈ vals) (hh : v.2.1.help = false)
    (h : ∀ r ∈ vals, r ≠ v → r.2.1.help = false → ∀ i < w, ∀ j < w,
      vKey (s.warp wid).gi r.2.1.hwarp (n.val + i) r.2.1.hlane ≠ vKey (s.warp wid).gi v.2.1.hwarp (n.val + j) v.2.1.hlane)
    (j : Nat) (hj : j < w) :
    NMap.get 0 (vals.foldl (fun s v => writeLane s wid v.1 v.2.1 (.v n) w v.2.2) s).rg.v
      (vKey (s.warp wid).gi v.2.1.hwarp (n.val + j) v.2.1.hlane) = wordOf v.2.2 j := by
  induction vals generalizing s with
  | nil => cases hv
  | cons a vals ih =>
    rw [List.foldl_cons]
    by_cases hm : v ∈ vals
    · have := ih (writeLane s wid a.1 a.2.1 (.v n) w a.2.2) hm (by
        intro r hr
        rw [writeLane_gi]
        exact h r (List.mem_cons_of_mem _ hr))
      rw [writeLane_gi] at this
      exact this
    · have ha : v = a := (List.mem_cons.1 hv).resolve_right hm
      subst ha
      rw [foldWrites_v_ne]
      · exact writeLane_v_self _ _ _ _ _ _ _ _ hh hj
      · intro r hr hrh i hi e
        rw [writeLane_gi] at e
        exact h r (List.mem_cons_of_mem _ hr) (fun hrv => hm (hrv ▸ hr)) hrh i hi j hj e.symm

/-! Temporaries of the executing warp. -/

/-- The temporaries of a warp, none where it is not there. -/
def tempsOf (s : State) (wid : Nat) : Option (NMap Word) := (s.wk.warps.find wid).map (·.temps)

theorem writeLane_other (s : State) (wid p : Nat) (e : LaneEnt) (r : Reg) (w val : Nat) (hr : ∀ n, r ≠ .t n) :
    tempsOf (writeLane s wid p e r w val) wid = tempsOf s wid := by
  unfold writeLane
  split
  · simp only
    split
    · exact find_upd_map _ _ _ _ _ (fun _ => rfl)
    · exact find_upd_map _ _ _ _ _ (fun _ => rfl)
  · rename_i n
    exact absurd rfl (hr n)
  all_goals rfl

theorem writeLane_t (s : State) (wid p : Nat) (e : LaneEnt) (n : Fin 8) (w val : Nat) :
    tempsOf (writeLane s wid p e (.t n) w val) wid =
      (tempsOf s wid).map (fun m => (List.range w).foldl (fun m i => NMap.set 0 m (p * 8 + n.val + i) (wordOf val i)) m) := by
  unfold tempsOf writeLane State.updWarp
  simp only [NMap.find_upd_self]
  cases NMap.find s.wk.warps wid <;> rfl

theorem foldWrites_other (wid : Nat) (r : Reg) (hr : ∀ n, r ≠ .t n) (w : Nat) (vals : List (Nat × LaneEnt × Nat)) (s : State) :
    tempsOf (vals.foldl (fun s v => writeLane s wid v.1 v.2.1 r w v.2.2) s) wid = tempsOf s wid := by
  induction vals generalizing s with
  | nil => rfl
  | cons v vals ih => rw [List.foldl_cons, ih, writeLane_other _ _ _ _ _ _ _ hr]

theorem foldWrites_t (wid : Nat) (n : Fin 8) (w : Nat) (vals : List (Nat × LaneEnt × Nat)) (s : State) :
    tempsOf (vals.foldl (fun s v => writeLane s wid v.1 v.2.1 (.t n) w v.2.2) s) wid =
      (tempsOf s wid).map (fun m => vals.foldl (fun m v =>
        (List.range w).foldl (fun m i => NMap.set 0 m (v.1 * 8 + n.val + i) (wordOf v.2.2 i)) m) m) := by
  induction vals generalizing s with
  | nil => simp
  | cons v vals ih =>
    rw [List.foldl_cons, ih, writeLane_t]
    cases tempsOf s wid <;> rfl

theorem temps_ne (n w : Nat) (vals : List (Nat × LaneEnt × Nat)) (m : NMap Word) (k : Nat)
    (h : ∀ v ∈ vals, ∀ i < w, k ≠ v.1 * 8 + n + i) :
    NMap.get 0 (vals.foldl (fun m v => (List.range w).foldl (fun m i => NMap.set 0 m (v.1 * 8 + n + i) (wordOf v.2.2 i)) m) m) k =
      NMap.get 0 m k := by
  induction vals generalizing m with
  | nil => rfl
  | cons v vals ih =>
    rw [List.foldl_cons, ih _ (fun r hr => h r (List.mem_cons_of_mem _ hr))]
    exact get_foldl_set_ne 0 (fun i => v.1 * 8 + n + i) (wordOf v.2.2) w m k (h v (List.mem_cons_self ..))

theorem temps_self (n w : Nat) (hw : n + w ≤ 8) (vals : List (Nat × LaneEnt × Nat)) (m : NMap Word) (v : Nat × LaneEnt × Nat)
    (hv : v ∈ vals) (h : ∀ r ∈ vals, r ≠ v → r.1 ≠ v.1) (j : Nat) (hj : j < w) :
    NMap.get 0 (vals.foldl (fun m v => (List.range w).foldl (fun m i => NMap.set 0 m (v.1 * 8 + n + i) (wordOf v.2.2 i)) m) m)
      (v.1 * 8 + n + j) = wordOf v.2.2 j := by
  induction vals generalizing m with
  | nil => cases hv
  | cons a vals ih =>
    rw [List.foldl_cons]
    by_cases hm : v ∈ vals
    · exact ih _ hm (fun r hr => h r (List.mem_cons_of_mem _ hr))
    · have ha : v = a := (List.mem_cons.1 hv).resolve_right hm
      subst ha
      rw [temps_ne]
      · exact get_foldl_set 0 (fun i => v.1 * 8 + n + i) (wordOf v.2.2) w m (fun i j e => by omega) j hj
      · intro r hr i hi e
        have := h r (List.mem_cons_of_mem _ hr) (fun hrv => hm (hrv ▸ hr))
        omega

/-! The highest lane. -/

theorem topLane_spec {α : Type} (rank : α → Nat) (l : List α) :
    (topLane rank l = none ↔ l = []) ∧ ∀ x, topLane rank l = some x → x ∈ l ∧ ∀ y ∈ l, rank y ≤ rank x := by
  induction l with
  | nil => simp [topLane]
  | cons a l ih =>
    obtain ⟨ih1, ih2⟩ := ih
    cases h : topLane rank l with
    | none =>
      have : l = [] := ih1.1 h
      subst this
      simp [topLane]
    | some b =>
      obtain ⟨hb, hle⟩ := ih2 b h
      constructor
      · simp only [topLane, h]
        constructor
        · intro e
          split at e <;> cases e
        · intro e
          cases e
      · intro x hx
        simp only [topLane, h] at hx
        split at hx <;> simp only [Option.some.injEq] at hx <;> subst hx
        · refine ⟨List.mem_cons_self .., fun y hy => ?_⟩
          rcases List.mem_cons.1 hy with rfl | hy
          · exact le_refl _
          · have := hle y hy
            omega
        · refine ⟨List.mem_cons_of_mem _ hb, fun y hy => ?_⟩
          rcases List.mem_cons.1 hy with rfl | hy
          · omega
          · exact hle y hy

/-- The values of a word: one for each of some guarded lanes, every taking lane among them. -/
structure Covers (s : State) (h : Hdr) (vals : List (Nat × LaneEnt × Nat)) : Prop where
  sub : ∀ v ∈ vals, (v.1, v.2.1) ∈ guardedLanes s s.curWarp h
  all : ∀ q ∈ takingLanes s s.curWarp h, ∃ v ∈ vals, (v.1, v.2.1) = q
  one : ∀ v ∈ vals, ∀ r ∈ vals, r.1 = v.1 → r = v

theorem liveLanes_unique (w : Warp) (a b : Nat × LaneEnt) (ha : a ∈ liveLanes w) (hb : b ∈ liveLanes w) (h : a.1 = b.1) : a = b := by
  have key : ∀ c ∈ liveLanes w, w.lanes[c.1]? = some c.2 := by
    intro c hc
    have hz := List.mem_of_mem_filter hc
    obtain ⟨i, hi, e⟩ := List.mem_iff_getElem.1 hz
    rw [List.getElem_zip] at e
    simp only [List.length_zip, List.length_range] at hi
    subst e
    simp only [List.getElem_range]
    rw [List.getElem?_eq_getElem (by omega)]
  have h1 := key a ha
  have h2 := key b hb
  rw [h] at h1
  rw [h1] at h2
  exact Prod.ext h (Option.some.inj h2)

theorem guarded_unique (s : State) (w : Warp) (h : Hdr) (a b : Nat × LaneEnt) (ha : a ∈ guardedLanes s w h) (hb : b ∈ guardedLanes s w h)
    (e : a.1 = b.1) : a = b :=
  liveLanes_unique w a b (List.mem_of_mem_filter ha) (List.mem_of_mem_filter hb) e

theorem taking_guarded {s : State} {w : Warp} {h : Hdr} {q : Nat × LaneEnt} (hq : q ∈ takingLanes s w h) :
    q ∈ guardedLanes s w h ∧ q.2.help = false := by
  have := List.mem_filter.1 hq
  exact ⟨this.1, by simpa using this.2⟩

theorem guarded_taking {s : State} {w : Warp} {h : Hdr} {q : Nat × LaneEnt} (hq : q ∈ guardedLanes s w h) (hh : q.2.help = false) :
    q ∈ takingLanes s w h := List.mem_filter.2 ⟨hq, by simp [hh]⟩

theorem Covers.laneVals (s : State) (h : Hdr) (f : Nat → LaneEnt → Nat) : Covers s h (laneVals s h f) where
  sub v hv := by
    obtain ⟨q, hq, rfl⟩ := List.mem_map.1 hv
    exact hq
  all q hq := ⟨_, List.mem_map_of_mem (taking_guarded hq).1, rfl⟩
  one v hv r hr e := by
    obtain ⟨a, ha, rfl⟩ := List.mem_map.1 hv
    obtain ⟨b, hb, rfl⟩ := List.mem_map.1 hr
    have : b = a := guarded_unique s _ h b a hb ha e
    rw [this]

theorem laneVals_val {s : State} {h : Hdr} {α : Type} {f : Nat → LaneEnt → α} {v : Nat × LaneEnt × α} (hv : v ∈ laneVals s h f) :
    v.2.2 = f v.1 v.2.1 := by
  obtain ⟨q, hq, rfl⟩ := List.mem_map.1 hv
  rfl

/-- No general register has moved yet. -/
structure Untouched (s m : State) : Prop where
  v : m.rg.v = s.rg.v
  sr : m.rg.s = s.rg.s
  t : tempsOf m s.md.cur = tempsOf s s.md.cur

theorem Untouched.refl (s : State) : Untouched s s := ⟨rfl, rfl, rfl⟩

theorem finish_temps (m : State) (b w : Bool) (y : Warp) (h : (finish m b w).wk.warps.find m.md.cur = some y) :
    tempsOf m m.md.cur = some y.temps := by
  obtain ⟨x, hx, p, e, a, rfl⟩ := finish_self m b w y h
  unfold tempsOf
  rw [hx]
  rfl

theorem temps_curWarp (s : State) {m : NMap Word} (h : tempsOf s s.md.cur = some m) : m = s.curWarp.temps := by
  unfold tempsOf at h
  unfold State.curWarp State.warp
  cases hx : NMap.find s.wk.warps s.md.cur with
  | none => simp [hx] at h
  | some x =>
    simp only [hx, Option.map_some, Option.some.injEq] at h
    exact h.symm

/-- WHAT A DESTINATION HOLDS: the shared write of a destination followed by the end of the word meets `Dest`. -/
theorem dest_of_write {look : Thread → Thread} {s m : State} (hm : Mid look s m) (hu : Untouched s m) (h : Hdr) (d : Reg) (w : Nat)
    (vals : List (Nat × LaneEnt × Nat)) (hc : Covers s h vals) (R : Nat → LaneEnt → Nat → Prop)
    (hR : ∀ v ∈ vals, v.2.1.help = false → R v.1 v.2.1 v.2.2) (m' : State) (hm' : Mid look (writeDst m s.md.cur d w vals) m')
    (hu' : Untouched (writeDst m s.md.cur d w vals) m') (b ww : Bool) :
    Dest s (finish m' b ww) h d w R := by
  have hcur : (writeDst m s.md.cur d w vals).md.cur = s.md.cur := by
    have := (Mid.writeDst look m d w vals).cur
    rw [hm.cur] at this
    exact this
  have hcur' : m'.md.cur = s.md.cur := hm'.cur.trans hcur
  have fv : (finish m' b ww).rg.v = (writeDst m s.md.cur d w vals).rg.v := (still_v (still_finish m' b ww)).trans hu'.v
  have fs : (finish m' b ww).rg.s = (writeDst m s.md.cur d w vals).rg.s := (still_s (still_finish m' b ww)).trans hu'.sr
  have ft : ∀ y, (finish m' b ww).wk.warps.find s.md.cur = some y → tempsOf (writeDst m s.md.cur d w vals) s.md.cur = some y.temps := by
    intro y hy
    rw [← hcur'] at hy
    have := finish_temps m' b ww y hy
    have e2 := hu'.t
    rw [hcur] at e2
    rw [hcur'] at this
    exact e2.symm.trans this
  have gi : (m.warp s.md.cur).gi = s.curWarp.gi := hm.gi
  unfold Dest
  cases d with
  | v n =>
    refine ⟨?_, ?_, ?_, ?_⟩
    · intro q hq ha
      obtain ⟨v, hv, rfl⟩ := hc.all q hq
      have hh := (taking_guarded hq).2
      refine ⟨v.2.2, hR v hv hh, fun i hi => ?_⟩
      rw [fv]
      have := foldWrites_v_self s.md.cur n w vals m v hv hh (by
        intro r hr hne hrh i hi j hj
        rw [gi]
        exact ha (r.1, r.2.1) (guarded_taking (hc.sub r hr) hrh) (fun e => hne (hc.one v hv r hr e)) i hi j hj) i hi
      rw [gi] at this
      exact this
    · intro k hk
      rw [fv]
      refine (foldWrites_v_ne s.md.cur n w vals m k ?_).trans (by rw [hu.v])
      intro v hv hh i hi
      rw [gi]
      exact hk (v.1, v.2.1) (guarded_taking (hc.sub v hv) hh) i hi
    · rw [fs]
      have : ∀ (l : List (Nat × LaneEnt × Nat)) (t : State),
          (l.foldl (fun s' v => writeLane s' s.md.cur v.1 v.2.1 (.v n) w v.2.2) t).rg.s = t.rg.s := by
        intro l
        induction l with
        | nil => exact fun t => rfl
        | cons v l ih =>
          intro t
          rw [List.foldl_cons, ih]
          unfold writeLane
          simp only
          split <;> rfl
      exact (this vals m).trans hu.sr
    · intro y hy
      have := ft y hy
      have e : tempsOf (writeDst m s.md.cur (.v n) w vals) s.md.cur = tempsOf m s.md.cur :=
        foldWrites_other s.md.cur (.v n) (fun _ => by simp) w vals m
      rw [e, hu.t] at this
      exact temps_curWarp s this
  | s n =>
    have hsame : ∀ z, (writeDst m s.md.cur (.s n) w vals).rg.v = z ↔ m.rg.v = z := by
      intro z
      unfold writeDst
      simp only
      split <;> exact Iff.rfl
    refine ⟨?_, ?_, ?_, ?_⟩
    · intro q hq ha
      obtain ⟨v, hv, rfl⟩ := hc.all q hq
      have hh := (taking_guarded hq).2
      refine ⟨v.2.2, hR v hv hh, fun i hi => ?_⟩
      rw [fs]
      unfold writeDst
      simp only
      have sp := topLane_spec (fun v : Nat × LaneEnt × Nat => laneRank v.2.1) (vals.filter (fun v => !v.2.1.help))
      have hin : v ∈ vals.filter (fun v => !v.2.1.help) := List.mem_filter.2 ⟨hv, by
        have : v.2.1.help = false := hh
        simp [this]⟩
      cases htop : topLane (fun v : Nat × LaneEnt × Nat => laneRank v.2.1) (vals.filter (fun v => !v.2.1.help)) with
      | none =>
        rw [sp.1.1 htop] at hin
        cases hin
      | some r =>
        obtain ⟨hr, hle⟩ := sp.2 r htop
        have hr' := List.mem_filter.1 hr
        have hre : r = v := by
          by_contra hne
          have h1 := ha (r.1, r.2.1) (guarded_taking (hc.sub r hr'.1) (by simpa using hr'.2)) (fun e => hne (hc.one v hv r hr'.1 e))
          have h2 := hle v hin
          exact absurd h1 (by simpa using h2)
        subst hre
        simp only
        rw [← gi]
        exact get_foldl_set 0 (fun i => sKey (m.warp s.md.cur).gi (n.val + i)) (wordOf r.2.2) w m.rg.s
          (fun i j => sKey_inj _ _ i j) i hi
    · intro k hk
      rw [fs, ← hu.sr]
      unfold writeDst
      simp only
      have sp := topLane_spec (fun v : Nat × LaneEnt × Nat => laneRank v.2.1) (vals.filter (fun v => !v.2.1.help))
      cases htop : topLane (fun v : Nat × LaneEnt × Nat => laneRank v.2.1) (vals.filter (fun v => !v.2.1.help)) with
      | none => rfl
      | some r =>
        obtain ⟨hr, hle⟩ := sp.2 r htop
        have hr' := List.mem_filter.1 hr
        have hne : takingLanes s s.curWarp h ≠ [] :=
          List.ne_nil_of_mem (guarded_taking (hc.sub r hr'.1) (by simpa using hr'.2))
        refine get_foldl_set_ne 0 (fun i => sKey (m.warp s.md.cur).gi (n.val + i)) (wordOf r.2.2) w m.rg.s k ?_
        intro i hi
        rw [gi]
        exact hk hne i hi
    · rw [fv]
      exact (hsame _).2 hu.v
    · intro y hy
      have := ft y hy
      have e : tempsOf (writeDst m s.md.cur (.s n) w vals) s.md.cur = tempsOf m s.md.cur := by
        unfold writeDst
        simp only
        split
        · unfold tempsOf
          refine (congrArg _ (noteSWrite_find ..)).trans ?_
          cases NMap.find m.wk.warps s.md.cur with
          | none => rfl
          | some x =>
            simp only [Option.map_some]
            split
            · rw [if_pos trivial]
            · rfl
        · rfl
      rw [e, hu.t] at this
      exact temps_curWarp s this
  | t n =>
    have keepv : ∀ (l : List (Nat × LaneEnt × Nat)) (t : State),
        (l.foldl (fun s' v => writeLane s' s.md.cur v.1 v.2.1 (.t n) w v.2.2) t).rg = t.rg := by
      intro l
      induction l with
      | nil => exact fun t => rfl
      | cons v l ih =>
        intro t
        rw [List.foldl_cons, ih]
        rfl
    refine ⟨?_, ?_, ?_⟩
    · intro y hy
      have := ft y hy
      have e := foldWrites_t s.md.cur n w vals m
      rw [hu.t] at e
      have e2 : tempsOf (writeDst m s.md.cur (.t n) w vals) s.md.cur = _ := e
      rw [e2] at this
      cases hx : tempsOf s s.md.cur with
      | none => simp [hx] at this
      | some tm =>
        have htm := temps_curWarp s hx
        simp only [hx, Option.map_some, Option.some.injEq] at this
        rw [← this, ← htm]
        refine ⟨?_, ?_⟩
        · intro hw q hq
          obtain ⟨v, hv, rfl⟩ := hc.all q hq
          have hh := (taking_guarded hq).2
          exact ⟨v.2.2, hR v hv hh, fun i hi =>
            temps_self n.val w hw vals tm v hv (fun r hr hne e => hne (hc.one v hv r hr e)) i hi⟩
        · intro k hk
          exact temps_ne n.val w vals tm k (fun v hv i hi => hk (v.1, v.2.1) (hc.sub v hv) i hi)
    · rw [fv]
      exact (congrArg RegSt.v (keepv vals m)).trans hu.v
    · rw [fs]
      exact (congrArg RegSt.s (keepv vals m)).trans hu.sr
  | zero =>
    have keep : writeDst m s.md.cur .zero w vals = m := foldl_keep id (fun s' v => writeLane s' s.md.cur v.1 v.2.1 .zero w v.2.2) (fun _ _ => rfl) vals m
    rw [keep] at fv fs ft
    exact ⟨fv.trans hu.v, fs.trans hu.sr, fun y hy => temps_curWarp s (hu.t ▸ ft y hy)⟩
  | lane =>
    have keep : writeDst m s.md.cur .lane w vals = m := foldl_keep id (fun s' v => writeLane s' s.md.cur v.1 v.2.1 .lane w v.2.2) (fun _ _ => rfl) vals m
    rw [keep] at fv fs ft
    exact ⟨fv.trans hu.v, fs.trans hu.sr, fun y hy => temps_curWarp s (hu.t ▸ ft y hy)⟩

/-! ### Predicates and generators -/

theorem preds_of_dst (s : State) (wid : Nat) (d : Reg) (w : Nat) (vals : List (Nat × LaneEnt × Nat)) :
    (writeDst s wid d w vals).rg.p = s.rg.p := by
  unfold writeDst
  split
  · split <;> rfl
  all_goals
    induction vals generalizing s with
    | nil => rfl
    | cons v vals ih =>
      rw [List.foldl_cons, ih]
      unfold writeLane
      simp only
      try rfl
      try (split <;> rfl)

theorem writePred_ne (s : State) (wid p : Nat) (e : LaneEnt) (i : Nat) (b : Bool) (k : Nat)
    (h : e.help = false → k ≠ pKey (s.warp wid).gi e.hwarp i e.hlane) :
    NMap.get false (writePred s wid p e i b).rg.p k = NMap.get false s.rg.p k := by
  unfold writePred
  split
  · rfl
  · split
    · rfl
    · rename_i hh
      exact NMap.get_set_ne _ _ _ _ _ (h (by simpa using hh))

theorem writePred_self (s : State) (wid p : Nat) (e : LaneEnt) (i : Nat) (b : Bool) (hi : i ≠ 7) (hh : e.help = false) :
    NMap.get false (writePred s wid p e i b).rg.p (pKey (s.warp wid).gi e.hwarp i e.hlane) = b := by
  unfold writePred
  rw [if_neg hi, hh]
  exact NMap.get_set_self ..

theorem writePred_gi (s : State) (wid p : Nat) (e : LaneEnt) (i : Nat) (b : Bool) :
    ((writePred s wid p e i b).warp wid).gi = (s.warp wid).gi := by
  unfold writePred
  split
  · rfl
  · split
    · exact updWarp_gi _ _ _ (fun _ => rfl)
    · rfl

theorem writePreds_ne (wid i : Nat) (vals : List (Nat × LaneEnt × Bool)) (s : State) (k : Nat)
    (h : ∀ v ∈ vals, v.2.1.help = false → k ≠ pKey (s.warp wid).gi v.2.1.hwarp i v.2.1.hlane) :
    NMap.get false (writePreds s wid i vals).rg.p k = NMap.get false s.rg.p k := by
  unfold writePreds
  induction vals generalizing s with
  | nil => rfl
  | cons v vals ih =>
    rw [List.foldl_cons, ih]
    · exact writePred_ne _ _ _ _ _ _ _ (h v (List.mem_cons_self ..))
    · intro r hr
      rw [writePred_gi]
      exact h r (List.mem_cons_of_mem _ hr)

theorem writePreds_self (wid i : Nat) (hi : i ≠ 7) (vals : List (Nat × LaneEnt × Bool)) (s : State) (v : Nat × LaneEnt × Bool) (hv : v ∈ vals)
    (hh : v.2.1.help = false) (h : ∀ r ∈ vals, r ≠ v → r.2.1.help = false →
      pKey (s.warp wid).gi r.2.1.hwarp i r.2.1.hlane ≠ pKey (s.warp wid).gi v.2.1.hwarp i v.2.1.hlane) :
    NMap.get false (writePreds s wid i vals).rg.p (pKey (s.warp wid).gi v.2.1.hwarp i v.2.1.hlane) = v.2.2 := by
  unfold writePreds
  induction vals generalizing s with
  | nil => cases hv
  | cons a vals ih =>
    rw [List.foldl_cons]
    by_cases hm : v ∈ vals
    · have := ih (writePred s wid a.1 a.2.1 i a.2.2) hm (by
        intro r hr
        rw [writePred_gi]
        exact h r (List.mem_cons_of_mem _ hr))
      rw [writePred_gi] at this
      exact this
    · have ha : v = a := (List.mem_cons.1 hv).resolve_right hm
      subst ha
      have := writePreds_ne wid i vals (writePred s wid v.1 v.2.1 i v.2.2) (pKey (s.warp wid).gi v.2.1.hwarp i v.2.1.hlane) (by
        intro r hr hrh e
        rw [writePred_gi] at e
        exact h r (List.mem_cons_of_mem _ hr) (fun hrv => hm (hrv ▸ hr)) hrh e.symm)
      exact Eq.trans this (writePred_self _ _ _ _ _ _ hi hh)

theorem writePreds_seven (wid : Nat) (vals : List (Nat × LaneEnt × Bool)) (s : State) : writePreds s wid 7 vals = s := by
  unfold writePreds
  induction vals generalizing s with
  | nil => rfl
  | cons v vals ih =>
    rw [List.foldl_cons, ih]
    rfl

theorem Untouched.writePred {s t : State} (h : Untouched s t) (p : Nat) (e : LaneEnt) (i : Nat) (b : Bool) :
    Untouched s (writePred t s.md.cur p e i b) := by
  unfold Machine.writePred
  split
  · exact h
  · split
    · exact ⟨h.v, h.sr, Eq.trans (find_upd_map _ _ _ _ _ (fun _ => rfl)) h.t⟩
    · exact ⟨h.v, h.sr, h.t⟩

theorem writePreds_untouched (wid i : Nat) (vals : List (Nat × LaneEnt × Bool)) (s : State) (hw : wid = s.md.cur) :
    Untouched s (writePreds s wid i vals) := by
  subst hw
  suffices h : ∀ (vals : List (Nat × LaneEnt × Bool)) (t : State), Untouched s t →
      Untouched s (vals.foldl (fun t v => Machine.writePred t s.md.cur v.1 v.2.1 i v.2.2) t) from h vals s (Untouched.refl s)
  intro vals
  induction vals with
  | nil => exact fun t h => h
  | cons v vals ih => exact fun t h => ih _ (h.writePred v.1 v.2.1 i v.2.2)

/-- What a predicate holds: the shared write of predicates followed by the end of the word meets `PredDest`. -/
theorem predDest_of_write {look : Thread → Thread} {s m : State} (hm : Mid look s m) (hp : m.rg.p = s.rg.p) (h : Hdr) (p : Nat)
    (vals : List (Nat × LaneEnt × Bool)) (sub : ∀ v ∈ vals, (v.1, v.2.1) ∈ guardedLanes s s.curWarp h)
    (all : ∀ q ∈ takingLanes s s.curWarp h, ∃ v ∈ vals, (v.1, v.2.1) = q) (one : ∀ v ∈ vals, ∀ r ∈ vals, r.1 = v.1 → r = v)
    (R : Nat → LaneEnt → Bool → Prop) (hR : ∀ v ∈ vals, v.2.1.help = false → R v.1 v.2.1 v.2.2) (b ww : Bool) :
    PredDest s (finish (writePreds m s.md.cur p vals) b ww) h p R := by
  have fp : (finish (writePreds m s.md.cur p vals) b ww).rg.p = (writePreds m s.md.cur p vals).rg.p := still_p (still_finish _ b ww)
  have gi : (m.warp s.md.cur).gi = s.curWarp.gi := hm.gi
  unfold PredDest
  by_cases h7 : p = 7
  · subst h7
    simp only [if_true]
    rw [fp, writePreds_seven, hp]
  · simp only [if_neg h7]
    refine ⟨?_, ?_⟩
    · intro q hq ha
      obtain ⟨v, hv, rfl⟩ := all q hq
      have hh := (taking_guarded hq).2
      refine ⟨v.2.2, hR v hv hh, ?_⟩
      rw [fp]
      have := writePreds_self s.md.cur p h7 vals m v hv hh (by
        intro r hr hne hrh
        rw [gi]
        exact ha (r.1, r.2.1) (guarded_taking (sub r hr) hrh) (fun e => hne (one v hv r hr e)))
      rw [gi] at this
      exact this
    · intro k hk
      rw [fp, ← hp]
      refine writePreds_ne s.md.cur p vals m k ?_
      intro v hv hh
      rw [gi]
      exact hk (v.1, v.2.1) (guarded_taking (sub v hv) hh)

theorem laneVals_cover {α : Type} (s : State) (h : Hdr) (f : Nat → LaneEnt → α) :
    (∀ v ∈ laneVals s h f, (v.1, v.2.1) ∈ guardedLanes s s.curWarp h) ∧
    (∀ q ∈ takingLanes s s.curWarp h, ∃ v ∈ laneVals s h f, (v.1, v.2.1) = q) ∧
    (∀ v ∈ laneVals s h f, ∀ r ∈ laneVals s h f, r.1 = v.1 → r = v) := by
  refine ⟨?_, ?_, ?_⟩
  · intro v hv
    obtain ⟨q, hq, rfl⟩ := List.mem_map.1 hv
    exact hq
  · intro q hq
    exact ⟨_, List.mem_map_of_mem (taking_guarded hq).1, rfl⟩
  · intro v hv r hr e
    obtain ⟨a, ha, rfl⟩ := List.mem_map.1 hv
    obtain ⟨b, hb, rfl⟩ := List.mem_map.1 hr
    have : b = a := guarded_unique s _ h b a hb ha e
    rw [this]

/-! ### Words by form -/

/-- A WORD THAT ENDS IN `putVals` runs and writes registers only. -/
theorem runsReg_of_put {i : Instr} {s : State} {h : Hdr} {d : Reg} {w : Nat} {vals : List (Nat × LaneEnt × Nat)}
    {R : Nat → LaneEnt → Nat → Prop} (he : exec i s = .next (putVals s h d w vals)) (hc : Covers s h vals)
    (hR : ∀ v ∈ vals, v.2.1.help = false → R v.1 v.2.1 v.2.2) : RunsReg i s h d w R :=
  ⟨_, he, (Mid.writeDst seated s d w vals).kept seatAt_seated h.b h.w,
    (still_p (still_finish _ _ _)).trans (preds_of_dst ..),
    dest_of_write (Mid.refl seated s) (Untouched.refl s) h d w vals hc R hR _ (Mid.refl seated _) (Untouched.refl _) h.b h.w⟩

/-- The same where each guarded lane forms its value on its own. -/
theorem runsReg_of_lanes {i : Instr} {s : State} {h : Hdr} {d : Reg} {w : Nat} {f : Nat → LaneEnt → Nat} {R : Nat → LaneEnt → Nat → Prop}
    (he : exec i s = .next (putVals s h d w (laneVals s h f))) (hR : ∀ q ∈ takingLanes s s.curWarp h, R q.1 q.2 (f q.1 q.2)) :
    RunsReg i s h d w R :=
  runsReg_of_put he (Covers.laneVals s h f) (fun v hv hh => by
    rw [laneVals_val hv]
    exact hR (v.1, v.2.1) (guarded_taking ((Covers.laneVals s h f).sub v hv) hh))

theorem sameRegs_of_untouched {s m : State} (hc : m.md.cur = s.md.cur) (hu : Untouched s m) (b w : Bool) : SameRegs s (finish m b w) := by
  refine ⟨(still_v (still_finish m b w)).trans hu.v, (still_s (still_finish m b w)).trans hu.sr, fun y hy => ?_⟩
  rw [← hc] at hy
  have := finish_temps m b w y hy
  rw [hc, hu.t] at this
  exact temps_curWarp s this

/-- A WORD THAT ENDS IN `putPreds` runs and writes a predicate only. -/
theorem runsPred_of_put {i : Instr} {s : State} {h : Hdr} {p : Fin 8} {f : Nat → LaneEnt → Bool} {R : Nat → LaneEnt → Bool → Prop}
    (he : exec i s = .next (putPreds s h p (laneVals s h f))) (hR : ∀ q ∈ takingLanes s s.curWarp h, R q.1 q.2 (f q.1 q.2)) :
    RunsPred i s h p.val R := by
  obtain ⟨sub, all, one⟩ := laneVals_cover s h f
  refine ⟨_, he, (Mid.writePreds seated p.val (laneVals s h f) s).kept seatAt_seated h.b h.w, ?_, ?_⟩
  · exact sameRegs_of_untouched (Mid.writePreds seated p.val (laneVals s h f) s).cur
      (writePreds_untouched s.md.cur p.val (laneVals s h f) s rfl) h.b h.w
  · refine predDest_of_write (Mid.refl seated s) rfl h p.val _ sub all one R ?_ h.b h.w
    intro v hv hh
    rw [laneVals_val hv]
    exact hR (v.1, v.2.1) (guarded_taking (sub v hv) hh)

/-- A WORD THAT ENDS IN `putBoth` runs and writes registers and a predicate, after what has touched no register. -/
theorem runsBoth_of_put {i : Instr} {s m : State} {h : Hdr} {d : Reg} {w p : Nat} {vals : List (Nat × LaneEnt × Nat)}
    {preds : List (Nat × LaneEnt × Bool)} {R : Nat → LaneEnt → Nat → Prop} {Q : Nat → LaneEnt → Bool → Prop}
    (hm : Mid seated s m) (hu : Untouched s m) (hpm : m.rg.p = s.rg.p)
    (he : exec i s = .next (putBoth m h d w vals p preds)) (hc : Covers s h vals)
    (sub : ∀ v ∈ preds, (v.1, v.2.1) ∈ guardedLanes s s.curWarp h)
    (all : ∀ q ∈ takingLanes s s.curWarp h, ∃ v ∈ preds, (v.1, v.2.1) = q) (one : ∀ v ∈ preds, ∀ r ∈ preds, r.1 = v.1 → r = v)
    (hR : ∀ v ∈ vals, v.2.1.help = false → R v.1 v.2.1 v.2.2) (hQ : ∀ v ∈ preds, v.2.1.help = false → Q v.1 v.2.1 v.2.2) :
    RunsBoth i s h d w R p Q := by
  have hmc := hm.cur
  have h1 : Mid seated s (writeDst m s.md.cur d w vals) := by
    have := Mid.writeDst seated m d w vals
    rw [hmc] at this
    exact hm.trans this
  have h2 : Mid seated (writeDst m s.md.cur d w vals) (writePreds (writeDst m s.md.cur d w vals) s.md.cur p preds) := by
    have := Mid.writePreds seated p preds (writeDst m s.md.cur d w vals)
    rw [h1.cur] at this
    exact this
  have hput : putBoth m h d w vals p preds = finish (writePreds (writeDst m s.md.cur d w vals) s.md.cur p preds) h.b h.w := by
    unfold putBoth
    rw [hmc]
  refine ⟨_, he, ?_, ?_, ?_⟩
  · rw [hput]
    exact (h1.trans h2).kept seatAt_seated h.b h.w
  · rw [hput]
    exact dest_of_write hm hu h d w vals hc R hR _ h2 (writePreds_untouched _ p preds _ h1.cur.symm) h.b h.w
  · rw [hput]
    exact predDest_of_write h1 ((preds_of_dst ..).trans hpm) h p preds sub all one Q hQ h.b h.w

/-! Rounding words. -/

theorem setGens_rg (s : State) (gi : Nat) (l : List (Nat × LaneEnt × Word)) :
    (setGens s gi l).rg.v = s.rg.v ∧ (setGens s gi l).rg.s = s.rg.s ∧ (setGens s gi l).rg.p = s.rg.p ∧ (setGens s gi l).wk = s.wk ∧
      (setGens s gi l).md = s.md := by
  unfold setGens
  induction l generalizing s with
  | nil => exact ⟨rfl, rfl, rfl, rfl, rfl⟩
  | cons v l ih =>
    rw [List.foldl_cons]
    exact ih (setGen s gi v.2.1 v.2.2)

theorem setGens_untouched (s : State) (gi : Nat) (l : List (Nat × LaneEnt × Word)) : Untouched s (setGens s gi l) := by
  obtain ⟨h1, h2, -, h4, h5⟩ := setGens_rg s gi l
  exact ⟨h1, h2, by unfold tempsOf; rw [h4]⟩

theorem setGens_ne (gi : Nat) (l : List (Nat × LaneEnt × Word)) (s : State) (k : Nat) (h : ∀ v ∈ l, k ≠ thKey gi v.2.1.hwarp v.2.1.hlane) :
    (setGens s gi l).rg.threads.find k = s.rg.threads.find k := by
  unfold setGens
  induction l generalizing s with
  | nil => rfl
  | cons v l ih =>
    rw [List.foldl_cons, ih _ (fun r hr => h r (List.mem_cons_of_mem _ hr))]
    exact NMap.find_upd_ne _ _ _ _ (h v (List.mem_cons_self ..))

theorem setGens_self (gi : Nat) (l : List (Nat × LaneEnt × Word)) (s : State) (v : Nat × LaneEnt × Word) (hv : v ∈ l)
    (h : ∀ r ∈ l, r ≠ v → thKey gi r.2.1.hwarp r.2.1.hlane ≠ thKey gi v.2.1.hwarp v.2.1.hlane) :
    ((setGens s gi l).rg.threads.find (thKey gi v.2.1.hwarp v.2.1.hlane)).map (·.gen) =
      (s.rg.threads.find (thKey gi v.2.1.hwarp v.2.1.hlane)).map (fun _ => v.2.2) := by
  unfold setGens
  induction l generalizing s with
  | nil => cases hv
  | cons a l ih =>
    rw [List.foldl_cons]
    have step : ∀ k, ((setGen s gi a.2.1 a.2.2).rg.threads.find k).map (fun _ => v.2.2) = (s.rg.threads.find k).map (fun _ => v.2.2) :=
      fun k => find_upd_map _ _ _ _ (fun _ => v.2.2) (fun _ => rfl)
    by_cases hm : v ∈ l
    · rw [ih _ hm (fun r hr => h r (List.mem_cons_of_mem _ hr)), step]
    · have ha : v = a := (List.mem_cons.1 hv).resolve_right hm
      subst ha
      have h2 := setGens_ne gi l (setGen s gi v.2.1 v.2.2) (thKey gi v.2.1.hwarp v.2.1.hlane)
        (fun r hr e => h r (List.mem_cons_of_mem _ hr) (fun hrv => hm (hrv ▸ hr)) e.symm)
      unfold setGens at h2
      rw [h2]
      have h3 : (setGen s gi v.2.1 v.2.2).rg.threads.find (thKey gi v.2.1.hwarp v.2.1.hlane) =
          (s.rg.threads.find (thKey gi v.2.1.hwarp v.2.1.hlane)).map (fun t => { t with gen := v.2.2 }) := NMap.find_upd_self ..
      rw [h3]
      cases NMap.find s.rg.threads (thKey gi v.2.1.hwarp v.2.1.hlane) <;> rfl

/-- A WORD THAT ROUNDS: `roundedWord` meets `RunsRound`. -/
theorem runsRound_of_word {i : Instr} {s : State} {h : Hdr} {d : Reg} {w : Nat} {rm : Rm} {f : Nat → LaneEnt → Word → Nat × Word}
    (he : exec i s = .next (roundedWord s h d w rm f)) : RunsRound i s h d w rm f := by
  let x := s.curWarp
  let out := laneVals s h (fun p e => f p e (genOf s x e))
  let gens := out.map (fun v => (v.1, v.2.1, v.2.2.2))
  let m := if rm = .rs then setGens s x.gi gens else s
  let vals := out.map (fun v => (v.1, v.2.1, v.2.2.1))
  have hm : Mid reseeded s m := by
    show Mid reseeded s (if rm = .rs then setGens s x.gi gens else s)
    split
    · exact Mid.setGens ..
    · exact Mid.refl ..
  have hu : Untouched s m := by
    show Untouched s (if rm = .rs then setGens s x.gi gens else s)
    split
    · exact setGens_untouched ..
    · exact Untouched.refl ..
  have hp : m.rg.p = s.rg.p := by
    show (if rm = .rs then setGens s x.gi gens else s).rg.p = _
    split
    · exact (setGens_rg s x.gi gens).2.2.1
    · rfl
  have hcur : m.md.cur = s.md.cur := hm.cur
  have hput : roundedWord s h d w rm f = finish (writeDst m s.md.cur d w vals) h.b h.w := by
    show finish (writeDst m m.md.cur d w vals) h.b h.w = _
    rw [hcur]
  obtain ⟨sub, all, one⟩ := laneVals_cover s h (fun p e => f p e (genOf s x e))
  have hc : Covers s h vals := by
    refine ⟨?_, ?_, ?_⟩
    · intro v hv
      obtain ⟨r, hr, rfl⟩ := List.mem_map.1 hv
      exact sub r hr
    · intro q hq
      obtain ⟨r, hr, e⟩ := all q hq
      exact ⟨_, List.mem_map_of_mem hr, e⟩
    · intro v hv r hr e
      obtain ⟨a, ha, rfl⟩ := List.mem_map.1 hv
      obtain ⟨c, hc, rfl⟩ := List.mem_map.1 hr
      rw [one a ha c hc e]
  have hw : Mid reseeded m (writeDst m s.md.cur d w vals) := by
    have := Mid.writeDst reseeded m d w vals
    rw [hcur] at this
    exact this
  have thr : (writeDst m s.md.cur d w vals).rg.threads = m.rg.threads :=
    congrArg (fun x => x.2.1.1) (around_writeDst m s.md.cur d w vals)
  refine ⟨_, he, ?_, ?_, ?_, ?_, ?_⟩
  · rw [hput]
    exact (hm.trans hw).kept seatAt_reseeded h.b h.w
  · rw [hput]
    exact (still_p (still_finish _ _ _)).trans ((preds_of_dst ..).trans hp)
  · rw [hput]
    refine dest_of_write hm hu h d w vals hc _ ?_ _ (Mid.refl reseeded _) (Untouched.refl _) h.b h.w
    intro v hv hh
    obtain ⟨r, hr, rfl⟩ := List.mem_map.1 hv
    show r.2.2.1 = _
    rw [laneVals_val hr]
  · intro hrm k
    rw [hput, finish_threads Thread.gen (fun _ _ => rfl), thr]
    show ((if rm = .rs then setGens s x.gi gens else s).rg.threads.find k).map _ = _
    rw [if_neg hrm]
  · intro q hq hrm ha
    rw [hput, finish_threads Thread.gen (fun _ _ => rfl), thr]
    show ((if rm = .rs then setGens s x.gi gens else s).rg.threads.find _).map _ = _
    rw [if_pos hrm]
    have hin : (q.1, q.2, f q.1 q.2 (genOf s x q.2)) ∈ out := List.mem_map_of_mem (f := fun q => (q.1, q.2, f q.1 q.2 (genOf s x q.2))) hq
    have hin2 : (q.1, q.2, (f q.1 q.2 (genOf s x q.2)).2) ∈ gens := List.mem_map_of_mem (f := fun v => (v.1, v.2.1, v.2.2.2)) hin
    have alone : ∀ r ∈ gens, r ≠ (q.1, q.2, (f q.1 q.2 (genOf s x q.2)).2) →
        thKey x.gi r.2.1.hwarp r.2.1.hlane ≠ thKey x.gi q.2.hwarp q.2.hlane := by
      intro r hr hne
      obtain ⟨r', hr', rfl⟩ := List.mem_map.1 hr
      refine ha (r'.1, r'.2.1) (sub r' hr') (fun e => hne ?_)
      rw [one _ hin r' hr' e]
    have g := setGens_self x.gi gens s (q.1, q.2, (f q.1 q.2 (genOf s x q.2)).2) hin2 alone
    clear_value gens
    exact g

end Sys2Proof.Machine
end

