-- ==== Sys2Proof/Laws/Ints.lean ====
section
/-!
SUPPORT. The integer functions of the model as bit-vector and integer arithmetic (R203).
-/
namespace Sys2Proof.Machine

theorem tyBits_pos (ty : ITy) : 0 < tyBits ty := by cases ty <;> decide

/-- A number and its bits: `toSigned` is the two's-complement reading. -/
theorem toSigned_eq (n u : Nat) (hn : 0 < n) : toSigned n u = (BitVec.ofNat n u).toInt := by
  unfold toSigned
  simp only
  have h2 : 2 ^ n = 2 * 2 ^ (n - 1) := by
    rw [← Nat.pow_succ']
    congr 1
    omega
  rw [BitVec.toInt_eq_toNat_cond, BitVec.toNat_ofNat]
  split <;> split <;> first | rfl | omega

theorem rdTy_eq (ty : ITy) (x : Nat) : rdTy ty x = Say.rd ty x := by
  unfold rdTy Say.rd
  split
  · exact toSigned_eq _ _ (tyBits_pos ty)
  · simp

theorem wrapNat_eq (n : Nat) (e : Int) : wrapNat n e = (BitVec.ofInt n e).toNat := by
  unfold wrapNat
  rw [BitVec.toNat_ofInt]
  push_cast
  rfl

theorem wrTy_eq (ty : ITy) (y : Int) : wrTy ty y = Say.wr ty y := by
  unfold wrTy Say.wr
  rw [wrapNat_eq]
  cases ty <;> rfl

theorem wrap_wrap (n : Nat) (hn : n ≤ 64) (e : Int) : BitVec.ofNat n (wrapNat 64 e) = BitVec.ofInt n e := by
  apply BitVec.eq_of_toNat_eq
  rw [BitVec.toNat_ofNat, BitVec.toNat_ofInt]
  unfold wrapNat
  have hd : (2 ^ n : Int) ∣ 2 ^ 64 := pow_dvd_pow 2 hn
  have h0 : 0 ≤ e % (2 ^ 64 : Int) := Int.emod_nonneg _ (by decide)
  have h1 : ((e % (2 ^ 64 : Int)).toNat : Int) % (2 ^ n : Int) = e % (2 ^ n : Int) := by
    rw [Int.toNat_of_nonneg h0, Int.emod_emod_of_dvd _ hd]
  have h2 : 0 ≤ e % (2 ^ n : Int) := Int.emod_nonneg _ (by positivity)
  have h3 : (((e % (2 ^ 64 : Int)).toNat % 2 ^ n : Nat) : Int) = e % (2 ^ n : Int) := by
    push_cast
    exact h1
  have h4 : ((2 ^ n : Nat) : Int) = 2 ^ n := by push_cast; rfl
  rw [h4, ← h3, Int.toNat_natCast]

theorem tyBits_le (ty : ITy) : tyBits ty ≤ 64 := by cases ty <;> decide

theorem fitTy_eq (ty : ITy) (sat : Bool) (e : Int) : fitTy ty sat e = Say.fit ty sat e := by
  unfold fitTy Say.fit
  split
  · unfold clampInt
    cases ty <;> rfl
  · rw [rdTy_eq]
    unfold Say.rd
    rw [wrap_wrap _ (tyBits_le ty)]

/-- Values of a word's lanes, seen through a function. -/
theorem laneVals_map {α β : Type} (s : State) (h : Hdr) (f : Nat → LaneEnt → α) (g : α → β) :
    (laneVals s h f).map (fun v => (v.1, v.2.1, g v.2.2)) = laneVals s h (fun p e => g (f p e)) := by
  unfold laneVals
  rw [List.map_map]
  rfl

/-- A source of `width` registers is a number of 32 * width bits. -/
theorem srcVal_lt (s : State) (r : Reg) (width p : Nat) (e : LaneEnt) : srcVal s r width p e < 2 ^ (32 * width) := by
  unfold srcVal readVal
  induction width with
  | zero => simp
  | succ w ih =>
    rw [List.range_succ, List.foldl_append, List.foldl_cons, List.foldl_nil]
    have h1 := (readWord s s.curWarp p e r w).isLt
    have h2 : 2 ^ (32 * (w + 1)) = 2 ^ 32 * 2 ^ (32 * w) := by rw [← pow_add]; congr 1; omega
    rw [h2]
    have h3 : (readWord s s.curWarp p e r w).toNat * 2 ^ (32 * w) ≤ (2 ^ 32 - 1) * 2 ^ (32 * w) :=
      Nat.mul_le_mul_right _ (by omega)
    have h4 : (2 ^ 32 - 1) * 2 ^ (32 * w) + 2 ^ (32 * w) = 2 ^ 32 * 2 ^ (32 * w) := by
      rw [← Nat.succ_mul]
      norm_num
    omega

end Sys2Proof.Machine
end

