-- ==== Sys2Proof/Tests/Slice0.lean ====
section
/-!
SUPPORT. The model's own tests: words written out from the encodings of the spec and what they decode to, ill-formed words and
the check that refuses each, a few single steps, and for each statement with hypotheses states and operands that meet them.
-/
namespace Sys2Proof.Tests

open Machine

set_option maxRecDepth 100000

/-! ### Decoding (R42 to R56, R69, and the field table of each chapter) -/

/-- An unguarded word with B = W = 0. -/
abbrev h0 : Hdr := ⟨false, false, false, 7⟩

/-- Each word decodes to the instruction beside it, in a group of 192 v registers. -/
def decodesTo (l : List (BitVec 64 × Instr)) : Bool := l.all (fun p => decide (decodeWord 192 p.1 = .ok p.2))

theorem test_decode_control : decodesTo [
    (0x4017FE0000000000, .nop ⟨false, true, true, 3⟩),
    (0x802FFF50FFFFFFFC, .bra ⟨true, false, false, 7⟩ true 5 0xFFFFFFFC),
    (0x804F8C9000000000, .brx ⟨true, false, false, 7⟩ false 9 (.s 6)),
    (0x80641C1000000014, .call ⟨true, false, false, 2⟩ false 1 (.v 14) 20),
    (0x808E1D0000000000, .ret ⟨true, false, false, 7⟩ true 0 (.v 14)),
    (0x80B9FE0000000000, .exit ⟨true, false, true, 4⟩),
    (0x00CE160000000000, .join h0 11),
    (0x00EE000000000000, .leave h0 0),
    (0x010E060000000000, .kwait h0 3),
    (0x012FFE0000000000, .rgn h0),
    (0x014FFE0000000000, .yield h0),
    (0x016FFE0000000042, .trap h0 0x42),
    (0x018FFE000000BEEF, .brk h0 0xBEEF),
    (0x01AFFEF000000000, .spri h0 15),
    (0x81CF940000000003, .launch ⟨true, false, false, 7⟩ (.s 10) 3),
    (0xDFEE13FF87FE0000, .trl true (some (.v 9)) none (some (.s 3)) none),
    (0xA6704FFEB0BC7140, .dualWord true false ⟨.iaddi, 7, .v 4, none, 29⟩ ⟨.cvtF32I32, 2, .t 1, some (.s 5), 0⟩)] = true := by decide

theorem test_decode_integer : decodesTo [
    (0x020E080B8DFE0040, .iadd h0 (.v 4) (.v 5) (.s 6) .i8 true),
    (0x022FE5F1F3FE2800, .isub h0 (.t 2) .zero .lane .n16 false),
    (0x024E0C1015FE1840, .imul h0 (.v 6) (.v 8) (.v 10) .i64 true),
    (0x026E0C1015FE3800, .imulh h0 (.v 6) (.v 8) (.v 10) .n64),
    (0x028E020407920840, .imad h0 (.v 1) (.v 2) (.v 3) (.s 9) .i16 true),
    (0x02AE04080A0C1040, .imadw h0 (.v 2) (.v 4) (.v 5) (.v 6) true true),
    (0x02CE04098C063802, .iadd64 h0 (.v 2) (.v 4) (.s 6) (some 3) false true),
    (0x02EE098807FE3002, .lea h0 (.v 4) (.s 4) (.v 3) .n32 2),
    (0x030E080A0DFE1000, .ishl h0 (.v 4) (.v 5) (.v 6) .i32),
    (0x032E080C11FE3800, .ishr h0 (.v 4) (.v 6) (.v 8) .n64),
    (0x034FE9EBEDFE3000, .lshr h0 (.t 4) (.t 5) (.t 6) .n32),
    (0x036F898B8DFE1000, .rot h0 (.s 4) (.s 5) (.s 6) .i32),
    (0x038E080A0C0F2C00, .lop3 h0 (.v 4) (.v 5) (.v 6) (.v 7) 0x96),
    (0x03AE080A0DFE3000, .and h0 (.v 4) (.v 5) (.v 6) .n32),
    (0x03CE080C11FE1800, .or h0 (.v 4) (.v 6) (.v 8) .i64),
    (0x03EE080A0DFE1000, .xor h0 (.v 4) (.v 5) (.v 6) .i32)] = true := by decide

theorem test_decode_integerOne : decodesTo [
    (0x040E080BFFFE3000, .not h0 (.v 4) (.v 5) .n32),
    (0x042E080A0DFE0800, .imin h0 (.v 4) (.v 5) (.v 6) .i16),
    (0x044E080A0DFE2000, .imax h0 (.v 4) (.v 5) (.v 6) .n8),
    (0x046E080BFFFE0040, .iabs h0 (.v 4) (.v 5) .i8 true),
    (0x048E080DFFFE3800, .ineg h0 (.v 4) (.v 6) .n64 false),
    (0x04AE0A0DFFFE3800, .popc h0 (.v 5) (.v 6) .n64),
    (0x04CE0A0DFFFE1000, .clz h0 (.v 5) (.v 6) .i32),
    (0x04EE080DFFFE1800, .brev h0 (.v 4) (.v 6) .i64),
    (0x050E080A0DFE3000, .bfx h0 (.v 4) (.v 5) (.v 6) .n32),
    (0x052E080A0DF01000, .bfi h0 (.v 4) (.v 5) (.v 6) .zero .i32),
    (0x054E06080DFE1806, .icmp h0 3 (.v 4) (.v 6) .i64 .any),
    (0x056E07F004063001, .sel h0 (.v 3) .zero (.v 2) 3 true .n32),
    (0x058E05F3FFFE3000, .mov h0 (.v 2) .lane .n32),
    (0x05AE03FE3F800000, .movi h0 (.v 1) 0x3F800000),
    (0x05AE09F100000001, .moviN64 h0 (.v 4) true 1),
    (0x05CE0602040FDC00, .plop h0 3 1 2 7 0xEE),
    (0x05EE020406082041, .idot4 h0 (.v 1) (.v 2) (.v 3) (.v 4) false true true),
    (0x060F880DFFFE1802, .vtos h0 (.s 4) (.v 6) .i64 .uni),
    (0x062E082DFFFE0000, .sysrd h0 (.v 4) 0x16)] = true := by decide

theorem test_decode_float : decodesTo [
    (0x080E080B8DFF06E0, .fadd h0 (.v 4) (.v 5) (.s 6) .f32 .rs .negAbs .neg true true),
    (0x082E080B8DFF06E0, .fsub h0 (.v 4) (.v 5) (.s 6) .f32 .rs .negAbs .neg true true),
    (0x084E080B8DFF06E0, .fmul h0 (.v 4) (.v 5) (.s 6) .f32 .rs .negAbs .neg true true),
    (0x8864081012140080, .ffma ⟨true, false, false, 2⟩ (.v 4) (.v 8) (.v 9) (.v 10) .f32 .rn .none .neg false false false),
    (0x088E080A0DFE0C00, .fmin h0 (.v 4) (.v 5) (.v 6) .f16 .abs .none false),
    (0x08AE080A0DFE1100, .fmax h0 (.v 4) (.v 5) (.v 6) .bf16 .none .abs false),
    (0x08CE020407FE000A, .fcmp h0 1 (.v 2) (.v 3) .f32 .none .none false .ltu),
    (0x08EE080BFFFE0020, .fclass h0 (.v 4) (.v 5) .f32 true),
    (0x090E080A0DFE9200, .fscale h0 (.v 4) (.v 5) (.v 6) .bf16 .rd .neg false),
    (0x092E080BFFFEC420, .frint h0 (.v 4) (.v 5) .f32 .ru .abs true),
    (0x094E080A0DFE0800, .fmaxa h0 (.v 4) (.v 5) (.v 6) .f16 false)] = true := by decide

theorem test_decode_special : decodesTo [
    (0x0A0E09EBFFFE0220, .frcp h0 (.v 4) (.t 5) .neg true),
    (0x0A2E09EBFFFE0220, .frsq h0 (.v 4) (.t 5) .neg true),
    (0x0A6E09EBFFFE0220, .fexp2 h0 (.v 4) (.t 5) .neg true),
    (0x0A8E09EBFFFE0220, .flog2 h0 (.v 4) (.t 5) .neg true),
    (0x0AAE09EBFFFE0220, .fsin h0 (.v 4) (.t 5) .neg true),
    (0x0ACE09EBFFFE0220, .fcos h0 (.v 4) (.t 5) .neg true),
    (0x0AEE09EBFFFE0220, .ftanh h0 (.v 4) (.t 5) .neg true),
    (0x0B0E09EBFFFE0220, .fsigm h0 (.v 4) (.t 5) .neg true),
    (0x0A4E080BFFFEC000, .fsqrt h0 (.v 4) (.v 5) .ru .none false)] = true := by decide

theorem test_decode_packed : decodesTo [
    (0x0C0E080A0DFE4340, .hadd2 h0 (.v 4) (.v 5) (.v 6) .rz .neg .abs true),
    (0x0C2E080A0DFE4340, .hmul2 h0 (.v 4) (.v 5) (.v 6) .rz .neg .abs true),
    (0x0CAE080A0DFE4340, .badd2 h0 (.v 4) (.v 5) (.v 6) .rz .neg .abs true),
    (0x0CCE080A0DFE4340, .bmul2 h0 (.v 4) (.v 5) (.v 6) .rz .neg .abs true),
    (0x0C4E080A0C0F0181, .hfma2 h0 (.v 4) (.v 5) (.v 6) (.v 7) .rs .none .negAbs true false),
    (0x0CEE080A0C0F0181, .bfma2 h0 (.v 4) (.v 5) (.v 6) (.v 7) .rs .none .negAbs true false),
    (0x0D4E080A0C0F0181, .hdot2 h0 (.v 4) (.v 5) (.v 6) (.v 7) .rs .none .negAbs true false),
    (0x0D6E080A0C0F0181, .bdot2 h0 (.v 4) (.v 5) (.v 6) (.v 7) .rs .none .negAbs true false),
    (0x0C6E080A0DFE0680, .hmin2 h0 (.v 4) (.v 5) (.v 6) .negAbs .neg),
    (0x0C8E080A0DFE0680, .hmax2 h0 (.v 4) (.v 5) (.v 6) .negAbs .neg),
    (0x0D0E080A0DFE0680, .bmin2 h0 (.v 4) (.v 5) (.v 6) .negAbs .neg),
    (0x0D2E080A0DFE0680, .bmax2 h0 (.v 4) (.v 5) (.v 6) .negAbs .neg)] = true := by decide

theorem test_decode_conversion : decodesTo [
    (0x0E0E0403FFFE4012, .cvt h0 (.v 2) (.v 1) (.int .i32) (.flt .f32) .rz .none false false),
    (0x0E0E0409FFFE9808, .cvt h0 (.v 2) (.v 4) (.flt .f32) (.int .i64) .rd .none false false),
    (0x0E2E080A0DFE40A1, .pack2 h0 (.v 4) (.v 5) (.v 6) .bf16 .rz .none .neg false true),
    (0x0E4E14098FFF02A4, .blkenc h0 (.v 10) (.v 4) (some (.s 7)) .i4o 5 .rs true),
    (0x0E6E0815FFFE0104, .blkdec h0 (.v 4) (.v 10) true 2 false),
    (0x0E8E080BFFFE008D, .blkhdrMake h0 (.v 4) (.v 5) .e2m1 true 1),
    (0x0E8E080BFFFE0194, .blkhdrChk h0 (.v 4) (.v 5) true false 3)] = true := by decide

theorem test_decode_memory : decodesTo [
    (0x100E11880468FFF0, .ld h0 (.v 8) ⟨.s 4, some (.v 2), 2, .w128, .cove, true, .bypass, some 1, 4080⟩),
    (0x102E1189FFC74008, .st h0 (.v 8) ⟨.s 4, none, 0, .w64, .dev, true, .default, none, 8⟩),
    (0x104E07F005644000, .lds h0 (.v 3) ⟨.zero, some (.v 2), 2, .w32, .grp, true, .default, some 5, 0⟩),
    (0x106FF3F0041207FF, .sts h0 .lane ⟨.zero, some (.v 2), 1, .w16, .grp, false, .default, some 0, 2047⟩),
    (0x108E080DFE800003, .ldc h0 (.v 4) ⟨.v 6, none, 0, .w8, .grp, false, .default, some 2, 3⟩),
    (0x10AFE58805380FFF, .ldsc h0 (.t 2) ⟨.s 4, some (.v 2), 3, .w128, .grp, false, .default, some 4, 4095⟩),
    (0x10CF8D8993E60001, .stsc h0 (.s 6) ⟨.s 4, some (.s 9), 2, .w64, .grp, false, .default, none, 1⟩),
    (0x10EFFF8803C02040, .pref h0 ⟨.s 4, some (.v 1), 0, .w8, .grp, false, .keep, none, 64⟩),
    (0x110E018805F00005, .cctlWb h0 ⟨.s 4, some (.v 2), 3, .w8, .grp, false, .default, none, 5⟩),
    (0x110E038805F00005, .cctlInv h0 ⟨.s 4, some (.v 2), 3, .w8, .grp, false, .default, none, 5⟩),
    (0x110E058805F00005, .cctlIvc h0 ⟨.s 4, some (.v 2), 3, .w8, .grp, false, .default, none, 5⟩),
    (0x110E07FFFFC00000, .cctlIvcAll h0),
    (0x110E09FFFFC00000, .cctlIviAll h0),
    (0x112E03FFFFC0C000, .fenceAcq h0 .cove),
    (0x112E05FFFFC1C000, .fenceRel h0 .sys),
    (0x112E07FFFFC14000, .fenceAcqrel h0 .dev),
    (0x114FFFF005D00000, .prset h0 ⟨.zero, some (.v 2), 1, .w8, .grp, false, .default, none, 0⟩),
    (0x116FFF89FFC00080, .prclr h0 ⟨.s 4, none, 0, .w8, .grp, false, .default, none, 128⟩),
    (0x118FE7F005C00000, .prtst h0 (.t 3) ⟨.zero, some (.v 2), 0, .w8, .grp, false, .default, none, 0⟩)] = true := by decide

theorem test_decode_atomic : decodesTo [
    (0x120E09880CC74840, .atom h0 (.v 4) (.v 6) .exch ⟨.s 4, none, 0, .w64, .dev, true, some 3, false, 64⟩),
    (0x122E098811C58005, .atomcas h0 (.v 4) (.v 8) ⟨.s 4, none, 0, .w32, .sys, false, none, false, 5⟩),
    (0x124F8E0604240DBF, .red h0 (.s 7) .badd2 ⟨.v 3, some (.v 2), 2, .w32, .grp, false, some 0, true, 63⟩),
    (0x126E0D89FE87C001, .bsig h0 (.v 6) ⟨.s 4, none, 0, .w64, .sys, true, .default, some 2, 1⟩),
    (0x128FF18805F4C000, .bwait h0 .zero ⟨.s 4, some (.v 2), 3, .w32, .cove, true, .default, none, 0⟩),
    (0x12AE0D89FE460FFE, .bpoll h0 (.v 6) ⟨.s 4, none, 0, .w64, .grp, false, .default, some 1, 4094⟩),
    (0x12CF93F1FFC80004, .stwait h0 (.s 9) ⟨.zero, none, 0, .w128, .grp, false, .default, none, 4⟩),
    (0x12EE138805D80000, .stflip h0 (.v 9) ⟨.s 4, some (.v 2), 1, .w128, .grp, false, .default, none, 0⟩),
    (0x130FFFFFFFC0C000, .gsync h0 true)] = true := by decide

theorem test_decode_crossLane : decodesTo [
    (0x140E04038A02300D, .shfl h0 (.v 2) (.v 1) (.s 5) (some 1) .n32 .rot 3),
    (0x142E0409F3FE1800, .shflx h0 (.v 2) (.v 4) .lane none .i64),
    (0x144E0403FFFE0202, .vote h0 (.inr 2) 1 true .uni),
    (0x144F8C0FFFFE0004, .vote h0 (.inl (.s 6)) 7 false .count),
    (0x146F8403FFFEC850, .redl h0 (.s 2) (.v 1) (.flt .f16) .add .ru true false),
    (0x148E05F3FFFE3008, .prfx h0 (.v 2) .lane (.int .n32) .add true .rn false false),
    (0x14AE0409FFFE3802, .matchLanes h0 (.v 2) (.v 4) .n64 .lead),
    (0x14CE0409FFFE1003, .qxch h0 (.v 2) (.v 4) .i32 3),
    (0x14EE0409FFFE1000, .qbcst h0 (.v 2) (.v 4) .i32 0),
    (0x150E05FFFFFE0000, .lmap h0 (.v 2) .self),
    (0x150E0407FFFE0001, .lmap h0 (.v 2) (.phys (.v 3))),
    (0x150E0587FFFE0002, .lmap h0 (.v 2) (.find (.s 3)))] = true := by decide

theorem test_decode_copy : decodesTo [
    (0x160F918994087F80, .cpy h0 ⟨.s 8, .s 4, .s 10, 0, some 2, false, .none, false, false⟩),
    (0x162E138819FF6340, .cpy2d h0 ⟨.v 9, .s 4, .v 12, 15, none, true, .add (.s 6), true, false⟩),
    (0x164F91F1986081A0, .cpyg h0 ⟨.s 8, .zero, .s 12, 3, some 0, false, .flip (.v 3), false, true⟩),
    (0x166E0C0A10347FA0, .cpys h0 ⟨.v 6, .v 5, .v 8, 1, some 5, false, .none, false, true⟩),
    (0x168F91F0141E7F80, .cpyf h0 ⟨.s 8, .zero, .v 10, 0, none, true, .none, false, false⟩),
    (0x16AFFFFFFE080000, .waitsb h0 2 0),
    (0x16CE09FFFE1C0001, .cpyq h0 (.v 4) true)] = true := by decide

theorem test_decode_matrix : decodesTo [
    (0x180FFF89941C8000, .mxa h0 (.s 4) (.s 10) false .b8 false 0),
    (0x180FFE0BF01EF400, .mxa h0 (.v 5) .zero true .b4 true 5),
    (0x182FFF8D921C4000, .mxb h0 (.s 6) (.s 9) false .bf16 0),
    (0x184FFF95E21C0000, .mxshp h0 (.s 10) (.t 1)),
    (0x186F93880A1D0000, .mxspm h0 (some (.s 4, false)) (some (.v 5, true, .s 9))),
    (0x186FFFFFFE1C0000, .mxspm h0 none none),
    (0x188F93FFFE654000, .mxrun h0 (some (.s 9)) 3 (some 1) 2 2),
    (0x18AF99FFFE1C0000, .mxcmt h0 (.s 12)),
    (0x18CFFF99FE1C0000, .mxwb h0 (.s 12)),
    (0x18EFFFFFFE1F8000, .mxz h0 7),
    (0x190E0805FE1CA000, .mxrd h0 (.v 4) (.v 2) 1 .x2),
    (0x192FFFE4101D4000, .mxwr h0 (.t 2) (.v 8) 2 .x4),
    (0x194F9F9DFE94AC00, .mxst h0 (.s 15) (.s 14) false 1 (.bf16 .ru) 4 (some 5)),
    (0x196FFFFFFE1E0000, .mxpairOn h0),
    (0x196FFFFFFE1C0000, .mxpairOff h0),
    (0x198E07FFFE1C0000, .mxprog h0 (.v 3))] = true := by decide

theorem test_decode_fabric : decodesTo [
    (0x1A0FA9ADB01C0000, .xbulk h0 (.s 20) (.s 22) (.s 24) 0 none 0 false false),
    (0x1A0FA9AFB04FFFC0, .xbulk h0 (.s 20) (.s 23) (.s 24) 2 (some 3) 1023 true true),
    (0x1A2E098804680000, .xred h0 (.v 4) ⟨.s 4, some (.v 2), 2, .w128, .grp, false, .default, some 1, 0⟩),
    (0x1A4E0989FFC60000, .xsig h0 (.v 4) ⟨.s 4, none, 0, .w64, .grp, false, .default, none, 0⟩),
    (0x1A6FFFFFFFC00000, .rfence h0)] = true := by decide

theorem test_decode_privileged : decodesTo [
    (0x1C0E09900DFE0400, .syswrWrite h0 (.v 4) (.s 8) (.v 6) 0x02),
    (0x1C0E09F1FFFE4C01, .syswrRead h0 (.v 4) .zero 0x26),
    (0x1C0E09900DFE3400, .faultResolve h0 (.v 4) (.s 8) (.v 6)),
    (0x1C0E07900DFE0000, .ctxStat h0 (.v 3) (.s 8) (.v 6)),
    (0x1C0E09900DFE0A00, .ctxPrqHead h0 (.v 4) (.s 8) (.v 6)),
    (0x1C0E09900DFE1200, .ctxFqHead h0 (.v 4) (.s 8) (.v 6)),
    (0x1C0E09900DFE2000, .ctxNqHead h0 (.v 4) (.s 8) (.v 6)),
    (0x1C0E07900FFE5000, .ptCtl h0 (.v 3) (.s 8) (.v 7)),
    (0x1C0E09900DFE5800, .ptEntryWrite h0 (.v 4) (.s 8) (.v 6) 0x2C),
    (0x1C2FFFFF91FE0000, .tlbiCtx h0 (.s 8)),
    (0x1C2FFE0991FE0001, .tlbiPage h0 (.v 4) (.s 8)),
    (0x1C2FFE09900C0002, .tlbiRange h0 (.v 4) (.s 8) (.v 6)),
    (0x1C4E059009FE0000, .subdevCreate h0 (.v 2) (.s 8) (.v 4)),
    (0x1C4E059009FE0001, .subdevResize h0 (.v 2) (.s 8) (.v 4)),
    (0x1C4E059009FE0002, .subdevFreeze h0 (.v 2) (.s 8) (some (.v 4))),
    (0x1C4E0591FFFE0003, .subdevThaw h0 (.v 2) (.s 8) none),
    (0x1C4E059009FE0004, .subdevCkpt h0 (.v 2) (.s 8) (.v 4)),
    (0x1C4E059009FE0005, .subdevRevoke h0 (.v 2) (.s 8) (some (.v 4))),
    (0x1C4E0591FFFE0006, .subdevReset h0 (.v 2) (.s 8) none),
    (0x1C4E059009FE0007, .subdevDlog h0 (.v 2) (.s 8) (.v 4)),
    (0x1C4E059009FE0008, .subdevMeter h0 (.v 2) (.s 8) (.v 4))] = true := by decide

theorem test_decode_privilegedMore : decodesTo [
    (0x1D4E059009FE0000, .shareSet h0 (.v 2) (.s 8) (.v 4)),
    (0x1D4E059009FE0001, .shareChg h0 (.v 2) (.s 8) (.v 4)),
    (0x1C6E040609FE0000, .pgreply h0 (.v 2) (.v 3) (.v 4)),
    (0x1C8E04080DFE0003, .meas h0 (.v 2) (.v 4) (.v 6) 3),
    (0x1CAE040991FE0000, .rcpt h0 (.v 2) (.v 4) (.s 8)),
    (0x1CCE0409FFFE0000, .scrubStart h0 (.v 2) (.v 4)),
    (0x1CCE040BFFFE0001, .scrubProg h0 (.v 2) (.v 5)),
    (0x1CCE05F1FFFE0002, .scrubCtx h0 (.v 2) .zero),
    (0x1CEE0591FFFE0000, .keyzM h0 (.v 2) (.s 8)),
    (0x1CEE0591FFFE0001, .keyzF h0 (.v 2) (.s 8)),
    (0x1D0E059193FE0000, .worldOwn h0 (.v 2) (.s 8) (.s 9)),
    (0x1D0E059192080001, .worldLatch h0 (.v 2) (.s 8) (.s 9) (some (.v 4))),
    (0x1D0E0593FFFE0002, .worldFree h0 (.v 2) (.s 9)),
    (0x1D2FFF9195FE0000, .wmapSet h0 (.s 8) (.s 10)),
    (0x1D2FFF91FFFE0001, .wmapClr h0 (.s 8)),
    (0x1D2FFF9195FE0002, .wmapGet h0 (.s 8) (.s 10))] = true := by decide

/-! ### Ill-formed words, one for each check (R45 to R56, R69) -/

/-- R52: a register beyond the group's allocation. -/
theorem test_wf_register_beyond_allocation : Instr.wellFormed 8 (.iadd h0 (.v 8) (.v 1) (.v 2) .i32 false) = false := by decide
/-- R52: the home-lane byte is no destination. -/
theorem test_wf_lane_destination : Instr.wellFormed 192 (.mov h0 .lane (.v 1) .n32) = false := by decide
/-- R53: a 64-bit operand names an even register. -/
theorem test_wf_odd_pair : Instr.wellFormed 192 (.iadd h0 (.v 5) (.v 2) (.v 4) .i64 false) = false := by decide
/-- R53: the pair's odd register lies in the allocation. -/
theorem test_wf_pair_at_the_end : Instr.wellFormed 7 (.iadd h0 (.v 6) (.v 2) (.v 4) .i64 false) = false ∧
    Instr.wellFormed 8 (.iadd h0 (.v 6) (.v 2) (.v 4) .i64 false) = true := by decide
/-- R52: a variable-latency destination is no temporary. -/
theorem test_wf_load_to_temporary : Instr.wellFormed 192 (.ld h0 (.t 0) ⟨.s 4, none, 0, .w32, .grp, false, .default, none, 0⟩) = false := by decide
/-- R48: a plain access has group scope. -/
theorem test_wf_plain_scope : Instr.wellFormed 192 (.ld h0 (.v 0) ⟨.s 4, none, 0, .w32, .dev, false, .default, none, 0⟩) = false := by decide
/-- R46: FTZ belongs to F32. -/
theorem test_wf_ftz : Instr.wellFormed 192 (.fadd h0 (.v 0) (.v 1) (.v 2) .f16 .rn .none .none false true) = false := by decide
/-- R205: a shift takes a width-only type. -/
theorem test_wf_shift_type : Instr.wellFormed 192 (.ishl h0 (.v 0) (.v 1) (.v 2) .i8) = false := by decide
/-- R243: SAT is 0 on a conversion from a float to an integer. -/
theorem test_wf_cvt_sat : Instr.wellFormed 192 (.cvt h0 (.v 0) (.v 1) (.int .i32) (.flt .f32) .rn .none true false) = false := by decide
/-- R299: a float atomic is 32 bits wide. -/
theorem test_wf_float_atomic : Instr.wellFormed 192 (.atom h0 (.v 0) (.v 2) .fadd ⟨.s 4, none, 0, .w64, .dev, false, none, false, 0⟩) = false := by decide
/-- R275: C is 0 with F16. -/
theorem test_wf_matrix_compressed : Instr.wellFormed 192 (.mxa h0 (.s 4) (.s 6) false .f16 true 0) = false := by decide
/-- R393: selector 27 is reserved. -/
theorem test_wf_reserved_selector : Instr.wellFormed 192 (.syswrRead h0 (.v 0) (.s 1) 0x27) = false := by decide
/-- R439: tag 4 belongs to the command processor. -/
theorem test_wf_meas_tag : Instr.wellFormed 192 (.meas h0 (.v 0) (.v 2) (.v 4) 4) = false := by decide
/-- R56: the two variants of the spec's example break rules 2 and 3. -/
theorem test_wf_pairing : Instr.wellFormed 192 (.dualWord false false ⟨.iadd, 7, .v 4, some (.v 5), 0⟩ ⟨.fmul, 7, .v 8, some (.v 12), 0⟩) = false ∧
    Instr.wellFormed 192 (.dualWord false false ⟨.iadd, 7, .v 4, some (.v 5), 0⟩ ⟨.fmul, 7, .v 9, some (.v 13), 0⟩) = false := by decide
/-- R54: a one-operand half takes no M5. -/
theorem test_wf_half_field : Instr.wellFormed 192 (.dualWord false false ⟨.mov, 7, .v 4, some (.v 5), 1⟩ ⟨.iadd, 7, .v 9, some (.v 10), 0⟩) = false := by decide
/-- An event is no word. -/
theorem test_wf_event : Instr.wellFormed 192 .powerOn = false := by decide

/-- R45, R46, R48, R49, R54, R56, R62, R69: what the fault of a refused word is. -/
theorem test_decode_faults :
    decodeWord 192 0x8864081012154080 = .error .illegalOp ∧      -- RM 0b101
    decodeWord 192 0x05AE03FE3F800000 = .ok (.movi h0 (.v 1) 0x3F800000) ∧
    decodeWord 192 0x05AE03FF3F800000 = .error .illegalOp ∧      -- MOVI, 32 bits, H = 1
    decodeWord 192 0x01EFFE0000000000 = .error .illegalOp ∧      -- OP 0x0F
    decodeWord 192 0x01EE000000000000 = .error .illegalOp ∧      -- OP 0x0F, whatever its other fields
    decodeWord 8 0x8864081012140080 = .error .regRange ∧         -- v8 of 8
    decodeWord 192 0x00CE180000000000 = .error .regRange ∧       -- JOIN k12
    decodeWord 192 0x188F93FFFE794000 = .error .regRange ∧       -- MXRUN with SBC 6
    decodeWord 192 0x2170405023C20300 = .error .illegalPair ∧    -- destinations v4 and v8
    decodeWord 192 0x7FEFFFFFFFFE0000 = .error .illegalOp ∧      -- a dual word with reserved HOPs
    decodeWord 192 0x1FEE13FF87FE0000 = .error .illegalRun := by decide   -- TRL with B = 0


/-! ### States for the witnesses -/

/-- Lane 0 of home warp 0, and lane 31 at its end. -/
def laneA : LaneEnt := { live := true }
def laneB : LaneEnt := { live := true, hlane := 31 }

/-- A page of memory at virtual address 0, for every access. -/
def pageA : TlbEnt := { xl := { pa := 0x10000, w := true, x := true } }

/-- A group of the root on core 0 whose issue warp 1 has the given lanes; 4 KiB of scratchpad, all of it present. -/
def groupState (lanes : List LaneEnt) : State :=
  { State.reset with
    md := { cur := 1, nextId := 9 }
    rg := { threads := (lanes.filter (fun l => !l.help)).map (fun l => (thKey 1 l.hwarp l.hlane, { stat := .inWarp })) }
    wk := { warps := [(1, { gi := 1, lanes := lanes })], quarters := [(0, { run := some 1 })], spans := [(1, { grid := 1, groups := [1] })],
            groups := [(1, { grid := 1, span := 1, regs := 192, scratch := 4096, gsize := 32 })] }
    mm := { presence := (List.range 32).map (fun i => (i, { p := true })) }
    xl := { tlb := [pageA] }
    pt := { State.reset.pt with grids := [(1, { steward := true, constBytes := 64 })] } }

def one : State := groupState [laneA]
def two : State := groupState [laneA, laneB]

/-- The state with registers of thread 0 of the group holding words. -/
def withV (l : List (Nat × Word)) (s : State) : State :=
  s.updRG (fun r => { r with v := l.foldl (fun m x => NMap.set 0 m (vKey 1 0 x.1 0) x.2) r.v })

/-- The state with the executing warp changed. -/
def withWarp (f : Warp → Warp) (s : State) : State := s.updWarp 1 f

/-! ### Witnesses: register words and control words -/

theorem witness_types : widthOnly .i32 = true ∧ widthOnly .n64 = true ∧ narrow .i32 = false ∧ narrow .n64 = false := by decide

/-- VTOS.UNI: the lanes agree on the operand. -/
theorem witness_DotProductUniformAndSpecialReads :
    takingLanes two two.curWarp h0 ≠ [] ∧ ∀ q ∈ takingLanes two two.curWarp h0, ∀ r ∈ takingLanes two two.curWarp h0,
      srcVal two (.v 2) 1 q.1 q.2 = srcVal two (.v 2) 1 r.1 r.2 := by decide

/-- 1.0 lies in F16's range. -/
theorem witness_RoundingTakesTheNeighbourItsModeNames : (1 : Nat) ≠ 0 ∧
    ∃ (bits : Nat) (x : ℚ), (bits < 2 ^ (fmtF16.ebits + fmtF16.mbits + 1) ∧ ∃ k a b, decodeF fmtF16 bits = .fin k a b ∧ x = Say.ratOf k a b) ∧
      |Say.ratOf false 1 0| ≤ |x| :=
  ⟨by decide, 0x3C00, Say.ratOf false 1024 (-10), ⟨by decide, false, 1024, -10, by decide, rfl⟩, by norm_num [Say.ratOf]⟩

/-- BLKDEC: home lane 0 holds an E4M3 header of swizzle 0 and scale 1. -/
theorem witness_BlocksAreFormedByHomeWarp :
    let s := withV [(1, 0x7F00)] one
    takingLanes s s.curWarp h0 ≠ [] ∧ ∀ q ∈ takingLanes s s.curWarp h0,
      headerOk ((blockOfHome s (guardedLanes s s.curWarp h0) q.2.hwarp (.v 1)).headD 0) false false 0 = true ∧
      blockMalformed (blockOfHome s (guardedLanes s s.curWarp h0) q.2.hwarp (.v 1)) = false := by decide

theorem witness_VotesAndMatchesOverContributors_and_ReductionsAndScansOverContributors :
    takingLanes two two.curWarp h0 ≠ [] ∧ Say.DistinctHomes (takingLanes two two.curWarp h0) := by
  unfold Say.DistinctHomes; decide

/-- The three ends of a word: it moves on, it awaits results, its run ends. -/
def loading : State := one.updWK (fun w => { w with results := [(1, { gi := 1, lanes := [{ }] })] })
theorem witness_TheEndOfAWordMovesOnWaitsOrEndsTheRun :
    one.wk.warps.find one.md.cur = some one.curWarp ∧ activeLanes one.curWarp ≠ [] ∧
    pendingFor one one.curWarp.gi (warpThreads one.curWarp) = false ∧
    loading.wk.warps.find loading.md.cur = some loading.curWarp ∧
    pendingFor loading loading.curWarp.gi (warpThreads loading.curWarp) = true := by decide

/-- A target at the top of the range, and one that all lanes name. -/
theorem witness_BranchesSendEachThreadToItsTarget :
    let s := withV [(2, 0xFFFFFFF8), (3, 0x007FFFFF)] one
    let x := s.curWarp
    let lanes := takingLanes s x h0
    ((activeLanes x).map (fun q => thKey x.gi q.2.hwarp q.2.hlane)).Nodup ∧ lanes = activeLanes x ∧ lanes ≠ [] ∧
    (∀ q ∈ lanes, (BitVec.ofNat 64 (srcVal s (.v 2) 2 q.1 q.2)).toNat = 2 ^ 55 - 8) ∧
    (∀ q ∈ lanes, ∀ r ∈ lanes, BitVec.ofNat 64 (srcVal s (.v 2) 2 q.1 q.2) = BitVec.ofNat 64 (srcVal s (.v 2) 2 r.1 r.2)) := by decide

/-- KWAIT's arrivals cover mask 11, and do not where a thread of the mask is missing. -/
def masked : State := two.updRG (fun r => { r with k := [(kKey 1 0 11, 0x00000003)] })
theorem witness_MaskWordsMoveBitsAndWaitUntilCovered :
    ∀ s ∈ [two, masked], let x := s.curWarp
      let lanes := takingLanes s x h0
      let keys := lanes.map (fun q => thKey x.gi q.2.hwarp q.2.hlane)
      lanes ≠ [] ∧ (∀ hw ∈ homeWarps lanes, (s.hwarp (hwKey x.gi hw)).fifo = []) ∧ ownRequests s x.gi keys false = [] ∧ heldLoads s x.gi keys = [] := by
  decide

theorem witness_PlainControlWordsChangeOnlyWhatTheyName :
    let x := two.curWarp
    let lanes := takingLanes two x h0
    lanes ≠ [] ∧ (∀ hw ∈ homeWarps lanes, (two.hwarp (hwKey x.gi hw)).fifo = [] ∧ kMask two x.gi hw 11 = 0) ∧
    ownRequests two x.gi (lanes.map (fun q => thKey x.gi q.2.hwarp q.2.hlane)) false = [] ∧
    heldLoads two x.gi (lanes.map (fun q => thKey x.gi q.2.hwarp q.2.hlane)) = [] ∧ (∀ q ∈ lanes, sbOf two x.gi q.2.hwarp 5 ≤ 0) ∧
    (two.ctx (ctxOf two x)).brk = false := by decide

theorem witness_ExitTrapAndBreakEndOrStopTheTakingLanes :
    let s := two.updCtx 0 (fun c => { c with brk := true })
    let x := s.curWarp
    takingLanes s x h0 ≠ [] ∧ ((activeLanes x).map (fun q => thKey x.gi q.2.hwarp q.2.hlane)).Nodup ∧ (s.ctx (ctxOf s x)).brk = true ∧
    (two.ctx (ctxOf two two.curWarp)).brk = false := by decide

theorem witness_RegionsAndTrailers :
    let x := two.curWarp
    takingLanes two x h0 ≠ [] ∧ (∀ q ∈ takingLanes two x h0, warpOfThread two x.gi q.2.hwarp q.2.hlane = some (two.md.cur, x) ∧ q.2.hlane < 32) ∧
    x.tail = false ∧ (pendingFor two x.gi (warpThreads x)) = false := by decide

/-! ### Witnesses: words that reach memory -/

/-- A memory operand at an address that the pair v2 holds, and one at zero. -/
def opAt (w : Width) (ord : Bool) (sc : Scope) : MemOp := ⟨.v 2, none, 0, w, sc, ord, .default, some 1, 0⟩
def opZero : MemOp := ⟨.zero, none, 0, .w32, .grp, false, .default, none, 0⟩

/-- The pair v2 holds the last 16 bytes of the page, or of the scratchpad range. -/
def pageEnd : State := withV [(2, 0xFFF0)] one
def spadEnd : State := withV [(2, 0xFF0)] one

def xlEnd : Xl := { pageA.xl with pa := 0x1FFF0 }

theorem witness_LoadsPutTheirValuesInFlight_ld :
    let x := pageEnd.curWarp
    let lanes := takingLanes pageEnd x h0
    lanes ≠ [] ∧ Say.CounterRoom pageEnd x.gi (some 1) (homeWarps lanes) ∧
    (∀ q ∈ lanes, Say.Through pageEnd x .read 16 (memEa pageEnd (opAt .w128 false .grp) 16 q.1 q.2) xlEnd ∧ (xlEnd.ty = .page ∨ xlEnd.ty = .rxWin) ∧
      xlEnd.pa % 128 = memEa pageEnd (opAt .w128 false .grp) 16 q.1 q.2 % 128 ∧
      corePoisoned pageEnd x.core xlEnd.pa = false ∧ llcPoisoned pageEnd xlEnd.pa = false ∧ Say.LineFree pageEnd x.core (xlEnd.pa / 128) ∧
      Say.NoDrop pageEnd x.core (xlEnd.pa / 128)) ∧
    Say.Settled pageEnd x.gi (lanes.map (fun q => thKey x.gi q.2.hwarp q.2.hlane)) ∧ guardedLanes pageEnd x h0 = lanes ∧ lanes.length = 1 := by
  unfold Say.CounterRoom Say.Through Say.Settled Say.LineFree Say.NoDrop; decide

theorem witness_LoadsPutTheirValuesInFlight_lds :
    let x := spadEnd.curWarp
    let lanes := takingLanes spadEnd x h0
    lanes ≠ [] ∧ Say.CounterRoom spadEnd x.gi (some 1) (homeWarps lanes) ∧
    ∀ q ∈ lanes, Say.SpadReady spadEnd x 16 (memEa spadEnd (opAt .w128 false .grp) 16 q.1 q.2) true := by
  unfold Say.CounterRoom Say.SpadReady; decide

/-- The last word of the constants. -/
def constEnd : State := withV [(2, 60)] one
theorem witness_LoadsPutTheirValuesInFlight_ldc :
    let x := constEnd.curWarp
    let lanes := takingLanes constEnd x h0
    let gr := constEnd.grid (constEnd.group x.gi).grid
    let ea := fun (q : Nat × LaneEnt) => memEa constEnd (opAt .w32 false .grp) 4 q.1 q.2
    let tr : Xl := { pageA.xl with pa := 0x1003C }
    lanes ≠ [] ∧ Say.CounterRoom constEnd x.gi (some 1) (homeWarps lanes) ∧ Say.CounterRoom constEnd x.gi none (homeWarps lanes) ∧ gr.const % 64 = 0 ∧
    ∀ q ∈ lanes, ea q + 4 = gr.constBytes ∧ ea q % 4 = 0 ∧ Say.ConstReady constEnd x ((gr.const + ea q) % 2 ^ 64) tr ∧
      Say.SpadReady constEnd x 4 (srcVal constEnd (.v 2) 1 q.1 q.2) false := by
  unfold Say.CounterRoom Say.ConstReady Say.Through Say.SpadReady; decide

/-- ST, plain and as a release at device scope; STS; STSC. LDSC: as LDC above. -/
theorem witness_StoresEnterTheStoreFifo :
    let x := pageEnd.curWarp
    let lanes := takingLanes pageEnd x h0
    let keys := lanes.map (fun q => thKey x.gi q.2.hwarp q.2.hlane)
    lanes ≠ [] ∧ (∀ hw ∈ homeWarps lanes, (pageEnd.hwarp (hwKey x.gi hw)).fifo.length < 64) ∧ Say.CounterRoom pageEnd x.gi (some 1) (homeWarps lanes) ∧
    (∀ q ∈ lanes, Say.Through pageEnd x .write 16 (memEa pageEnd (opAt .w128 true .dev) 16 q.1 q.2) xlEnd ∧ xlEnd.ty = .page ∧ storable pageEnd xlEnd = true) ∧
    Say.Settled pageEnd x.gi keys ∧ Say.Released pageEnd x ∧
    (∀ q ∈ takingLanes spadEnd spadEnd.curWarp h0, Say.SpadReady spadEnd spadEnd.curWarp 16 (memEa spadEnd (opAt .w128 true .grp) 16 q.1 q.2) false) ∧
    (∀ hw ∈ homeWarps (takingLanes spadEnd spadEnd.curWarp h0), (spadEnd.hwarp (hwKey 1 hw)).fifo.length < 64) := by
  unfold Say.CounterRoom Say.Through Say.Released Say.Settled Say.SpadReady; decide

theorem witness_StoresEnterTheStoreFifo_spad : Say.CounterRoom spadEnd 1 (some 1) [0] ∧ Say.CounterRoom spadEnd 1 none [0] ∧
    takingLanes spadEnd spadEnd.curWarp h0 = [(0, laneA)] ∧ Say.Settled spadEnd 1 [thKey 1 0 0] := by
  unfold Say.CounterRoom Say.Settled; decide

/-- A store to a window of the fabric: entry 3 is of KIND 1, held by the root, as large as its page. -/
def txBytes : List Byte := [1, 1, 0, 0, 0, 0, 0, 0, 0, 0, 0, 0, 1, 0, 0, 0] ++ List.replicate 112 0
def txXl : Xl := { pa := 0, w := true, ty := .txWin, key := 3 }
def windowed (l : List Byte) : State :=
  { one with xl := { tlb := [{ xl := txXl }] }, fb := { wmap := [(3, l)] },
             pt := { one.pt with fkeys := [(0, { loaded := true, material := List.replicate 32 1 })] } }
theorem witness_StoresEnterTheStoreFifo_window :
    let s := windowed txBytes
    let x := s.curWarp
    takingLanes s x h0 ≠ [] ∧ ∀ q ∈ takingLanes s x h0, Say.Through s x .write 4 (memEa s opZero 4 q.1 q.2) txXl ∧ txXl.ty = .txWin ∧
      txCheck s (ctxOf s x) txXl false = none := by
  unfold Say.Through; decide

/-- A line of the core's L1 with a word neither owned nor dirty, and one with a dirty word. -/
def cached (dirty : Bool) : State :=
  one.updMM (fun m => { m with l1 := [(l1Key 0 512, { words := [(0, { val := 7, dirty := dirty }), (1, { val := 8, owned := true })] })] })
theorem witness_CacheControlActsOnTheNamedLines :
    ∀ d ∈ [false, true], let s := cached d
      let x := s.curWarp
      let lanes := takingLanes s x h0
      lanes.length = 1 ∧ (∀ q ∈ lanes, Say.Through s x .read 1 (memEa s opZero 1 q.1 q.2) pageA.xl) ∧ pageA.xl.ty = .page ∧ Say.LineFree s x.core (pageA.xl.pa / 128) ∧
      Say.Settled s x.gi (lanes.map (fun q => thKey x.gi q.2.hwarp q.2.hlane)) ∧
      (∀ e ∈ s.mm.dirItems, ¬(e.2.evicted = true ∧ e.2.core = x.core ∧ e.2.line = 512)) ∧
      (∀ hw ∈ homeWarps lanes, (s.hwarp (hwKey x.gi hw)).fifo = []) ∧ x.phase = 0 ∧ s.wk.warps.find s.md.cur = some x ∧
      (∀ q ∈ lanes, memEa s opZero 1 q.1 q.2 < (s.grid (s.group x.gi).grid).constBytes) ∧
      ((∀ w ∈ (l1Line s x.core 512).words, w.2.dirty = false) ↔ d = false) := by
  unfold Say.Through Say.LineFree Say.Settled; decide

/-- A fence with nothing outstanding, and one whose home warp has a store in its FIFO. -/
def stored : State := one.updRG (fun r => { r with hwarps := [(hwKey 1 0, { fifo := [{ writes := [⟨0, .spad, 0, 5⟩], uncommitted := [0] }] })] })
theorem witness_FencesOrderEarlierAccesses :
    let lanes := takingLanes one one.curWarp h0
    lanes ≠ [] ∧ Say.Settled one one.curWarp.gi (lanes.map (fun q => thKey one.curWarp.gi q.2.hwarp q.2.hlane)) ∧ Say.Released one one.curWarp ∧
    (∀ hw ∈ homeWarps lanes, (one.hwarp (hwKey one.curWarp.gi hw)).fifo = []) ∧
    stored.curWarp.phase = 0 ∧ takingLanes stored stored.curWarp h0 ≠ [] ∧ stored.wk.warps.find stored.md.cur = some stored.curWarp ∧
    (homeWarps (takingLanes stored stored.curWarp h0)).filter (fun hw => (stored.hwarp (hwKey stored.curWarp.gi hw)).fifo != []) ≠ [] ∧
    (warpHomes stored.curWarp).filter (fun hw => (stored.hwarp (hwKey stored.curWarp.gi hw)).fifo != []) ≠ [] := by
  unfold Say.Released Say.Settled; decide

/-- The last line of the scratchpad range. -/
theorem witness_PresenceWordsActOnTheirLines :
    let s := withV [(2, 0xFFF)] one
    let lanes := takingLanes s s.curWarp h0
    lanes ≠ [] ∧ (∀ q ∈ lanes, memEa s (opAt .w8 false .grp) 1 q.1 q.2 < (s.group s.curWarp.gi).scratch) ∧ spadEntries s s.curWarp.gi lanes = [] ∧
    Say.Settled s s.curWarp.gi (lanes.map (fun q => thKey s.curWarp.gi q.2.hwarp q.2.hlane)) := by
  unfold Say.Settled; decide

/-! ### Witnesses: atomics, barriers, reels, GSYNC -/

def aop (spad ord : Bool) : AtomMem := ⟨.v 2, none, 0, .w64, .grp, ord, some 0, spad, 0⟩
def waited : State := withWarp (fun w => { w with phase := 2 }) one

theorem witness_AtomicsAreRequestedOrPerformed :
    let x := pageEnd.curWarp
    let lanes := takingLanes pageEnd x h0
    waited.curWarp.phase = 2 ∧ x.phase ≠ 2 ∧ lanes ≠ [] ∧ pageEnd.wk.warps.find pageEnd.md.cur = some x ∧
    Say.Askable pageEnd x lanes 8 (atomEa pageEnd (aop false true)) (fun _ => xlEnd) (some 0) ∧ Say.Ordered pageEnd x lanes true .sys ∧
    Say.Ordered pageEnd x lanes false .grp := by
  unfold Say.Askable Say.Ordered Say.Released Say.CounterRoom Say.Settled Say.Through; decide

theorem witness_AtomicsAreRequestedOrPerformed_spad :
    let x := spadEnd.curWarp
    let lanes := takingLanes spadEnd x h0
    lanes ≠ [] ∧ (∀ q ∈ lanes, Say.SpadReady spadEnd x 8 (atomEa spadEnd (aop true true) q.1 q.2) true) ∧
    Say.CounterRoom spadEnd x.gi (some 0) (homeWarps lanes) ∧ Say.Ordered spadEnd x lanes true .grp ∧
    Say.Settled spadEnd x.gi (lanes.map (fun q => thKey x.gi q.2.hwarp q.2.hlane)) := by
  unfold Say.Ordered Say.CounterRoom Say.SpadReady Say.Released Say.Settled; decide

theorem witness_BarrierWordsAskTheirServiceWarps :
    let x := pageEnd.curWarp
    let lanes := takingLanes pageEnd x h0
    waited.curWarp.phase = 2 ∧ x.phase ≠ 2 ∧ lanes ≠ [] ∧ pageEnd.wk.warps.find pageEnd.md.cur = some x ∧
    Say.Askable pageEnd x lanes 8 (memEa pageEnd (opAt .w64 true .sys) 8) (fun _ => xlEnd) (some 1) ∧
    Say.Askable pageEnd x lanes 8 (memEa pageEnd (opAt .w32 true .sys) 4) (fun _ => xlEnd) none ∧ Say.Ordered pageEnd x lanes true .sys := by
  unfold Say.Askable Say.Ordered Say.Released Say.CounterRoom Say.Settled Say.Through; decide

/-- A reel at the start of the range: two stages of 128 bytes from offset 128 on, both of phase 0. -/
def reel : State := one.updMM (fun m => { m with spad := [(spadKey 0 0, 2), (spadKey 0 4, 128), (spadKey 0 8, 128)] })
def reelOp : MemOp := ⟨.zero, none, 0, .w128, .grp, false, .default, none, 0⟩

/-- STWAIT for the phase that stage 0 has, and for the other; STFLIP of the last stage. -/
theorem witness_ReelWordsWaitForAndFlipPhases :
    (∀ s ∈ [reel, withV [(2, 0x10)] reel, withV [(2, 1)] reel], let x := s.curWarp
      let lanes := takingLanes s x h0
      lanes ≠ [] ∧ x.phase ≠ 2 ∧ s.wk.warps.find s.md.cur = some x ∧ Say.Ordered s x lanes true .grp ∧
      Say.Settled s x.gi (lanes.map (fun q => thKey x.gi q.2.hwarp q.2.hlane)) ∧
      ∀ q ∈ lanes, Say.SpadReady s x 16 (memEa s reelOp 16 q.1 q.2) true ∧ srcVal s (.v 2) 1 q.1 q.2 < 32 ∧
        reelValid (laneHeader s x.gi q.2.hwarp q.2.hlane 0) 4096 (srcVal s (.v 2) 1 q.1 q.2 % 16) = true ∧
        reelValid (reelHeader s x.gi 0) 4096 (srcVal s (.v 2) 1 q.1 q.2 % 16) = true) ∧
    reelPhase (laneHeader reel 1 0 0 0) 0 = false ∧ waited.curWarp.phase = 2 := by
  unfold Say.Ordered Say.Released Say.Settled Say.SpadReady; decide

theorem witness_GsyncWaitsForEveryThread :
    let x := one.curWarp
    let lanes := takingLanes one x h0
    let keys := lanes.map (fun q => thKey x.gi q.2.hwarp q.2.hlane)
    one.wk.warps.find one.md.cur = some x ∧ lanes ≠ [] ∧ Say.Settled one x.gi keys ∧ Say.Ordered one x lanes true .grp ∧ Say.Released one x ∧
    queueLen one (coveOf x.core) + lanes.length ≤ 1024 ∧
    (∀ c ∈ one.rg.threads, c.1 / 1024 = x.gi → c.2.stat = .exited ∨ c.1 ∈ gsyncArrived one x.gi false ∨ c.1 ∈ keys) ∧
    ¬(∀ c ∈ two.rg.threads, c.1 / 1024 = 1 → c.2.stat = .exited ∨ c.1 ∈ gsyncArrived two 1 false ∨ c.1 ∈ keys) := by
  unfold Say.Ordered Say.Released Say.Settled; decide

/-! ### Witnesses: engines and the fabric -/

theorem presence_room (s : State) (h : ∀ c ∈ s.mm.presence, c.2.n < 15) (gi : Nat) (hg : ∃ g, s.wk.groups.find gi = some g ∧ g.saved = false) :
    (∃ g, s.wk.groups.find gi = some g ∧ g.saved = false) ∧ ∀ line, (groupLine s gi line).n < 15 := by
  refine ⟨hg, fun line => ?_⟩
  obtain ⟨g, e, n⟩ := hg
  simp only [groupLine, e, n]
  exact NMap.get_all (fun x : Presence => x.n < 15) {} s.mm.presence (by decide) h _

/-- A fill of the last line of the scratchpad range, and a copy of 128 bytes from page 0's start to its last line. -/
def fillState : State := withV [(2, 0xF80), (4, 128)] one
def fillOp : CopyOp := ⟨.v 2, .zero, .v 4, 3, some 0, true, .none, true, false⟩
def fillCmd : Cmd := { gi := 1, opc := 0xB4, moves := .fill 0 128, dst := 0xF80, dsp := true, gran := 3 }
def copyState : State := withV [(2, 0xFF80), (4, 128)] one
def copyOp : CopyOp := ⟨.v 2, .v 6, .v 4, 15, none, false, .none, false, false⟩
def copyCmd : Cmd := { gi := 1, opc := 0xB0, moves := .linear 128, dst := 0xFF80, gran := 15 }

theorem witness_CopyWordsQueueTheirCommand_spad :
    let s := fillState
    let x := s.curWarp
    let lanes := takingLanes s x h0
    x.phase ≠ 2 ∧ leaderOf lanes = some (0, laneA) ∧ s.wk.warps.find s.md.cur = some x ∧ Say.CounterRoom s x.gi (some 0) (homeWarps lanes) ∧
    engineFull s x.core x.gi = false ∧ (∀ hw ∈ warpHomes x, ∀ e ∈ (s.hwarp (hwKey x.gi hw)).fifo, ∀ f ∈ e.writes, f.dest ≠ .spad) ∧
    checkCopy s x.gi x.gi ⟨.fill, srcVal s (.v 4) 1 0 laneA, 0, srcVal s (.v 2) 1 0 laneA, false, true, .none, 0⟩ = .ok [] ∧ Say.Released s x ∧
    (∃ g ∈ fillCmd.moves.segs, g.n ≠ 0) := by
  unfold Say.CounterRoom Say.Released Say.Settled; decide
theorem witness_CopyWordsQueueTheirCommand_spad_ready : Say.CmdReady fillState fillCmd (fun _ => 0) :=
  presence_room fillState (by decide) 1 ⟨_, rfl, by decide⟩

theorem witness_CopyWordsQueueTheirCommand_mem :
    let s := copyState
    let x := s.curWarp
    let lanes := takingLanes s x h0
    waited.curWarp.phase = 2 ∧ takingLanes waited waited.curWarp h0 ≠ [] ∧ x.phase ≠ 2 ∧ leaderOf lanes = some (0, laneA) ∧
    checkCopy s x.gi x.gi ⟨.lin, srcVal s (.v 4) 1 0 laneA, srcVal s (.v 6) 2 0 laneA, srcVal s (.v 2) 2 0 laneA, false, false, .none, 0⟩ = .ok [] ∧
    granules copyCmd ≠ [] ∧ (∃ g ∈ copyCmd.moves.segs, g.n ≠ 0) ∧ ∀ g ∈ granules copyCmd, ∀ p ∈ g,
      tlbFind s copyCmd.core copyCmd.ctx (p.dst / 2 ^ 16) .engWrite = some pageA.xl ∧ pageA.xl.ty = .page := by decide
theorem witness_CopyWordsQueueTheirCommand_mem_ready : Say.CmdReady copyState copyCmd (fun d => 0x10000 + d % 2 ^ 16) :=
  fun g hg p hp => ⟨pageA.xl, (witness_CopyWordsQueueTheirCommand_mem.2.2.2.2.2.2.2 g hg p hp).1, rfl, rfl⟩

/-- A gather of one row whose index stands in the last word of the scratchpad range. -/
theorem witness_CopyWordsQueueTheirCommand_gather :
    let s := withV [(2, 0), (4, 4), (5, 1), (6, 4), (7, 4092)] one
    let quad := srcVal s (.v 4) 4 0 laneA
    checkCopy s 1 1 ⟨.gather, quad, 0, 0, false, true, .none, 0⟩ = .ok [signed32 (Say.spadNum s 0 4092 4)] ∧
    (∃ g ∈ (Moves.gather 4 4 [signed32 (Say.spadNum s 0 4092 4)]).segs, g.n ≠ 0) := by decide

/-- WAITSB with the counter at its threshold, and one above it. -/
def counting : State := one.updRG (fun r => { r with sb := [(cKey 1 0 5, 3)] })
theorem witness_CounterWaitsAndEngineStatus :
    let lanes := takingLanes counting counting.curWarp h0
    lanes ≠ [] ∧ (∀ q ∈ lanes, sbOf counting 1 q.2.hwarp 5 ≤ 3) ∧ counting.wk.warps.find counting.md.cur = some counting.curWarp ∧
    ∃ q ∈ lanes, 2 < sbOf counting 1 q.2.hwarp 5 := by decide

/-- The array of core 0 is granted to the root; a product of 128 by 64 over K = 64 in F16 is staged. -/
def stagedProduct : Staging :=
  { a := { set := true, stride := 128 }, b := { set := true, base := 0x8000, stride := 128 }, shp := { set := true, m := 128, n := 64, k := 64 } }
def arrayState : State := { one with en := { grants := [(halfKey 0 0, 0), (halfKey 1 0, 0)] } }
def productState : State := arrayState.updGroup 1 (fun g => { g with stg := stagedProduct })
def fullView : ArrView := ⟨0, 0, false, false⟩
def pairState : State := arrayState.updEN (fun e => { e with pairs := [0] })

theorem witness_MatrixStagingTakesTheLeadersOperands :
    let s := withV [(2, 0x4080), (3, 1048576)] arrayState
    let lanes := takingLanes s s.curWarp h0
    leaderOf lanes = some (0, laneA) ∧ arrayOf s (ctxOf s s.curWarp) s.curWarp.core = some fullView ∧ srcVal s (.v 2) 1 0 laneA < 2 ^ 16 ∧
    srcVal s (.v 2) 1 0 laneA % 256 = 128 ∧ srcVal s (.v 2) 1 0 laneA / 256 = 64 ∧ srcVal s (.v 3) 1 0 laneA = 1048576 := by decide

theorem witness_MatrixRunsAndStoresAreQueued :
    let s := productState
    let x := s.curWarp
    let lanes := takingLanes s x h0
    leaderOf lanes = some (0, laneA) ∧ arrayOf s (ctxOf s x) x.core = some fullView ∧ s.wk.warps.find s.md.cur = some x ∧
    Say.CounterRoom s x.gi (some 5) (homeWarps lanes) ∧
    (∀ hw ∈ warpHomes x, ∀ e ∈ (s.hwarp (hwKey x.gi hw)).fifo, ∀ f ∈ e.writes, f.dest ≠ .spad) ∧
    (∀ stg ∈ (s.group x.gi).stg :: x.stgUndo, checkRun s x.gi fullView stg none = .ok []) ∧ (mqueue s 0 0 0).cmds.length < 16 ∧
    modeChanging s 0 = false ∧ modeChanging s 1 = false := by
  unfold Say.CounterRoom; decide

/-- MXST of 2 by 32 elements to the end of the scratchpad range. -/
def storeState : State := withV [(2, 0xF00), (4, 128)] (arrayState.updGroup 1 (fun g => { g with stg := { shp := { set := true, m := 2, n := 32, k := 1 } } }))
theorem witness_MatrixRunsAndStoresAreQueued_store :
    let s := storeState
    let x := s.curWarp
    leaderOf (takingLanes s x h0) = some (0, laneA) ∧ arrayOf s (ctxOf s x) x.core = some fullView ∧ x.phase ≠ 2 ∧ x.stgUndo = [] ∧
    tileCmds s 0 fullView 7 = [] ∧ (s.group x.gi).stg.shp.set = true ∧ (s.group x.gi).stg.shp.m ≤ fullView.rows ∧ (s.group x.gi).stg.shp.n ≤ fullView.cols ∧
    srcVal s (.v 2) 1 0 laneA + (2 - 1) * srcVal s (.v 4) 1 0 laneA + 32 * 4 = (s.group x.gi).scratch ∧ srcVal s (.v 2) 1 0 laneA % 4 = 0 ∧
    srcVal s (.v 4) 1 0 laneA % 4 = 0 ∧ s.en.accPoison = [] := by decide
theorem witness_MatrixRunsAndStoresAreQueued_ready (cmd : Cmd) (h : cmd.dsp = true) (hg : cmd.gi = 1) : Say.CmdReady storeState cmd (fun _ => 0) := by
  unfold Say.CmdReady
  rw [if_pos h, hg]
  exact presence_room storeState (by decide) 1 ⟨_, rfl, by decide⟩

/-- MXWB: batch 1 is closed and complete; a command of it is still queued. -/
def batchState (l : List MCmd) : State :=
  withV [(2, 1)] ((arrayState.updGroup 1 (fun g => { g with openBatch := 2 })).updEN (fun e => { e with mqueues := [(mqKey 0 0 0, { cmds := l })] }))
theorem witness_MatrixWaitsAndAccumulatorBatchAndPairWords :
    let before := fun k => (2 + 2 ^ 32 - k) % 2 ^ 32
    let done := fun (s : State) => ∀ mq ∈ s.en.mqueues, ∀ c ∈ mq.2.cmds, c.gi = 1 → c.batch ≠ 2 → (1 : Nat) ≠ 0 ∧ before c.batch < before 1
    (∀ l ∈ [[], [{ gi := 1 }]], let s := batchState l
      leaderOf (takingLanes s s.curWarp h0) = some (0, laneA) ∧ arrayOf s (ctxOf s s.curWarp) s.curWarp.core = some fullView ∧
      srcVal s (.v 2) 1 0 laneA = 1 ∧ (s.group 1).openBatch = 2 ∧ s.curWarp.phase ≠ 2 ∧ s.wk.warps.find s.md.cur = some s.curWarp) ∧
    (1 ≤ before 1 ∧ before 1 ≤ 2 ^ 31) ∧ done (batchState []) ∧ ¬done (batchState [{ gi := 1 }]) ∧ waited.curWarp.phase = 2 := by decide

/-- MXRD and MXWR of the last four elements of a tile's last row; pairs bound and not bound. -/
theorem witness_MatrixWaitsAndAccumulatorBatchAndPairWords_acc :
    let s := withV [(2, 0x3C7F)] arrayState
    let lanes := takingLanes s s.curWarp h0
    let idx := fun (q : Nat × LaneEnt) => srcVal s (.v 2) 1 q.1 q.2
    leaderOf lanes = some (0, laneA) ∧ arrayOf s (ctxOf s s.curWarp) s.curWarp.core = some fullView ∧ tileCmds s 0 fullView 7 = [] ∧
    (∀ q ∈ lanes, idx q < 2 ^ 16 ∧ idx q % 256 + 1 = fullView.rows ∧ idx q / 256 + 4 = fullView.cols ∧ idx q / 256 % 4 = 0) ∧ s.en.accPoison = [] ∧
    s.curWarp.core % 2 = 0 ∧ splitMode s 0 = false ∧ splitMode s 1 = false ∧ granted s 1 0 0 = true ∧
    arrayOf pairState 0 0 = some ⟨0, 0, true, false⟩ ∧ (∀ c ∈ (mqueue pairState 0 0 0).cmds, c.paired = false) := by decide

/-- XRED and XSIG through entry 3: one receiver, ENROLLED, ROP as the word needs it. -/
def rxBytes (rop : Byte) : List Byte := [1, 1, 0, 0, rop, 2, 0, 0, 0, 0, 0, 0, 1, 0, 0, 0] ++ List.replicate 112 0
theorem witness_FabricWordsSendAndAwaitPackets :
    let s := windowed (rxBytes 1)
    let u := windowed (rxBytes 0)
    (∀ t ∈ [s, u], let x := t.curWarp
      takingLanes t x h0 = [(0, laneA)] ∧ Say.CounterRoom t x.gi (some 2) (homeWarps (takingLanes t x h0)) ∧ Say.Settled t x.gi [thKey x.gi 0 0] ∧
      (∀ hw ∈ homeWarps (takingLanes t x h0), (t.hwarp (hwKey x.gi hw)).fifo = []) ∧
      ∀ q ∈ takingLanes t x h0, Say.Through t x .write 8 (memEa t opZero 4 q.1 q.2) txXl ∧ Say.Through t x .write 4 (memEa t opZero 4 q.1 q.2) txXl) ∧
    txXl.ty = .txWin ∧ txCheck s 0 txXl true = none ∧ (wmByte s 3 5).testBit 1 = true ∧ 1 ≤ wmByte s 3 1 ∧ txCheck u 0 txXl false = none := by
  unfold Say.CounterRoom Say.Through Say.Settled; decide

/-- RFENCE with a packet of its home warp outstanding, and with none. -/
theorem witness_FabricWordsSendAndAwaitPackets_rfence :
    let s := { one with fb := { packets := [(4, { gi := 1 })] } }
    s.curWarp.phase ≠ 2 ∧ s.wk.warps.find s.md.cur = some s.curWarp ∧ takingLanes s s.curWarp h0 ≠ [] ∧
    (∀ hw ∈ homeWarps (takingLanes s s.curWarp h0), (s.hwarp (hwKey s.curWarp.gi hw)).fifo = []) ∧ fabricWork s s.curWarp.gi [0] ≠ [] ∧
    homeWarps (takingLanes s s.curWarp h0) = [0] ∧ fabricWork one 1 [0] = [] ∧ waited.curWarp.phase = 2 := by decide

/-- XBULK by thread 0 of four bytes, the last of the scratchpad range, and of a word without a thread of its index. -/
theorem witness_FabricWordsSendAndAwaitPackets_xbulk :
    let s := (windowed (rxBytes 0)).updRG (fun r => { r with s := [(sKey 1 4, 4092), (sKey 1 6, 4)] })
    let x := s.curWarp
    (takingLanes s x h0).filter (fun q => q.2.hwarp * 32 + q.2.hlane = 0) = [(0, laneA)] ∧
    (takingLanes s x h0).filter (fun q => q.2.hwarp * 32 + q.2.hlane = 1023) = [] ∧
    Say.CounterRoom s x.gi (some 0) [0] ∧ engineFull s x.core x.gi = false ∧ srcVal s (.s 6) 1 0 laneA = 4 ∧
    srcVal s (.s 4) 1 0 laneA + srcVal s (.s 6) 1 0 laneA = (s.group x.gi).scratch ∧ srcVal s (.s 4) 1 0 laneA % 4 = 0 ∧
    Say.Through s x .write 1 (srcVal s (.s 8) 2 0 laneA) txXl ∧ txCheck s (ctxOf s x) txXl false = none ∧
    (∀ hw ∈ warpHomes x, (s.hwarp (hwKey x.gi hw)).fifo = []) ∧ Say.Released s x ∧ Say.Settled s x.gi [thKey x.gi 0 0] := by
  unfold Say.CounterRoom Say.Through Say.Released Say.Settled; decide

/-! ### Witnesses: words of the system -/

/-- Context 1 is a child of the root; memory holds bytes at virtual address `va` of the page. -/
def family (f : Ctx → Ctx) : State := one.updCX (fun c => { c with ctxs := c.ctxs ++ [(1, f { parent := 0, level := 1 })] })
def withBytes (va : Nat) (l : List Byte) (s : State) : State := setMemBytes s (0x10000 + va) l

/-- What a lane reads of the page, in a part whose caches are empty. -/
theorem image_of (s : State) (x : Warp) (q : Nat × LaneEnt) (va : Nat) (l : List Byte) (hf : x.formed = [])
    (ht : tlbFind s x.core (ctxOf s x) 0 .read = some pageA.xl) (hv : va + l.length ≤ 65536) (h1 : s.mm.l1 = []) (h2 : s.mm.llc = [])
    (h3 : s.mm.claims = []) (h4 : s.mm.hbmPoison = [])
    (hb : ∀ i < l.length, l.getD i 0 = memByte s (0x10000 + (va + i))) :
    Say.Image s x q va l.length l := by
  refine ⟨rfl, fun i hi => ⟨{ pageA.xl with pa := 0x10000 + (va + i) }, ⟨by omega, by omega, ?_⟩, .inl rfl, by simp [held, h3], fun j _ => ?_,
    by simp [l1Word, l1Line, h1, NMap.find, NMap.get], hb i hi⟩⟩
  · have e : (va + i) / 2 ^ 16 = 0 := by omega
    have m : (va + i) % 2 ^ 16 = va + i := by omega
    simp only [xlFor, hf, e, m, List.find?_nil, ht, Option.map_some]
    rfl
  · simp [llcPoisoned, corePoisoned, l1Word, l1Line, h1, h2, h4, NMap.find, NMap.get]

/-- What a word of one taking lane finds in each of the states below (R386). -/
abbrev Ready (s : State) : Prop := takingLanes s s.curWarp h0 = [(0, laneA)] ∧ s.curWarp.donePl = 0 ∧ s.curWarp.serVals = [] ∧ s.curWarp.shot = [] ∧
  s.curWarp.opLane = [] ∧ s.curWarp.phase = 0 ∧ (∀ hw ∈ warpHomes s.curWarp, (s.hwarp (hwKey s.curWarp.gi hw)).fifo = []) ∧
  (ownRequests s s.curWarp.gi (warpThreads s.curWarp) false = [] ∧ heldLoads s s.curWarp.gi (warpThreads s.curWarp) = []) ∧ s.mm.l1 = [] ∧
  s.mm.dirItems = [] ∧ (ownRequests s s.curWarp.gi [thKey s.curWarp.gi 0 0] false = [] ∧ heldLoads s s.curWarp.gi [thKey s.curWarp.gi 0 0] = []) ∧
  (s.hwarp (hwKey s.curWarp.gi 0)).fifo = []

theorem sole_of {s : State} (h : Ready s) : Say.Sole s s.curWarp h0 (0, laneA) :=
  let ⟨l, u, r, z, _, _, f, t, c, e, w, d⟩ := h
  ⟨l, u, r, z, .inr ⟨f, t, by simp [c], by simp [e]⟩, w, d⟩

/-- v2 names context 1 or another number, v4:v5 the descriptor at 0x80. -/
def aimed (n : Word) (s : State) : State := withV [(2, n), (4, 0x80)] s
def parentOf1 : State := aimed 1 (family id)

/-- Every selector of the root's own; entry 9 of the port, whose PT.CTX lives or does not. -/
def ported (ctx : Nat) : State := aimed 9 (one.updPT (fun p => { p with tenants := p.tenants ++ [(9, { ctx := ctx })] }))
theorem witness_SelectorsAreReadAndWritten :
    Ready one ∧ (∀ n < 0x30, selTarget one 0 n 0 = true) ∧ (∀ a ∈ one.xl.acnt, a.2.held = none) ∧
    Ready (ported 0) ∧ selTarget (ported 0) 0 0x28 9 = true ∧ (ported 0).liveCtx (tenantOf (ported 0) 9).ctx = true ∧
    (ported 7).liveCtx (tenantOf (ported 7) 9).ctx = false := by decide

/-- A stop of another warp of the root, with FID 5; v4:v5 hold a resolution. -/
def stopping (resident : Bool) (r : Word) : State :=
  (withV [(4, 5), (5, r)] one).updWK (fun w => { w with
    warps := w.warps ++ [(2, { gi := 2, lanes := [laneA] })], groups := w.groups ++ [(2, { grid := 1, span := 1, resident := resident })],
    stops := [(7, { warp := 2, ctx := 0, gi := 2, fid := some 5 })] })
def hitOf (s : State) : Option (Nat × Stop) := s.wk.stops.find? (fun y => y.2.ctx = 0 && y.2.fid = some (srcVal s (.v 4) 2 0 laneA % 2 ^ 32))
def stop7 : Stop := { warp := 2, ctx := 0, gi := 2, fid := some 5 }
theorem witness_StopsAndPageRequestsAreAnswered_stops :
    ∀ s ∈ [stopping true 0, stopping false 1, stopping true 2], Ready s ∧ selTarget s 0 0x1A (srcVal s (.v 2) 1 0 laneA) = true ∧
      srcVal s (.v 4) 2 0 laneA / 2 ^ 34 = 0 ∧ srcVal s (.v 4) 2 0 laneA / 2 ^ 32 % 4 ≠ 3 := by decide
theorem witness_StopsAndPageRequestsAreAnswered_found :
    ∀ s ∈ [stopping true 0, stopping false 1, stopping true 2], hitOf s = some (7, stop7) ∧ s.wk.stops.find 7 = some stop7 ∧ stop7.warp ≠ s.md.cur := by
  decide
theorem witness_StopsAndPageRequestsAreAnswered_fates :
    ((stopping true 0).group 2).resident = true ∧ ((stopping false 1).group 2).resident = false ∧
    srcVal (stopping true 3) (.v 4) 2 0 laneA / 2 ^ 32 % 4 = 3 ∧
    Ready (withV [(4, 6)] (stopping true 0)) ∧ hitOf (withV [(4, 6)] (stopping true 0)) = none := by decide

/-- A request for a page of the root in slot 5, which warp 2's lane awaits; v2 names it, v4 answers. -/
def asking (resident : Bool) (a : Word) : State :=
  ((withV [(2, 5), (4, a)] one).updWK (fun w => { w with
    warps := w.warps ++ [(2, { gi := 2, lanes := [laneA], park := .page [3], eas := [(0, 0x20000)] })],
    groups := w.groups ++ [(2, { grid := 1, span := 1, resident := resident })] })).updXL (fun x => { x with reqs := [(3, { slot := 5 })] })
def reqOf (s : State) : Option (Nat × PageReq) := s.xl.reqs.find? (fun r => r.2.gen * 2 ^ 24 + r.2.die * 2 ^ 23 + r.2.slot = srcVal s (.v 2) 1 0 laneA)
theorem witness_StopsAndPageRequestsAreAnswered_requests : ∀ a ∈ [(0 : Word), 1, 2, 3],
    Ready (asking true a) ∧ srcVal (asking true a) (.v 4) 1 0 laneA = a.toNat ∧ (∃ r, reqOf (asking true a) = some (3, r) ∧
      ((ctxChain (asking true a) 3 r.ctx).find? (fun c => c.2.level = r.fail.stage)).map (·.1) = some (ctxOf (asking true a) (asking true a).curWarp)) ∧
      awayFor (asking true a) 3 = false ∧ ∀ w ∈ (asking true a).wk.warps, w.1 < (asking true a).md.nextId := by
  intro a ha
  simp only [List.mem_cons, List.not_mem_nil, or_false] at ha
  rcases ha with rfl | rfl | rfl | rfl <;> exact ⟨by decide, by decide, ⟨_, rfl, by decide⟩, by decide, by decide⟩
theorem witness_StopsAndPageRequestsAreAnswered_others : Ready (asking false 0) ∧ awayFor (asking false 0) 3 = true ∧
    (waitersOf (asking true 1) 3).map (·.1) = [2] ∧ (reqOf (withV [(2, 6)] (asking true 1))).isNone = true := by decide

theorem noUse_of (s : State) (gone : List TlbEnt) (h1 : s.rg.hwarps = []) (h2 : s.mm.svc = []) (h3 : s.mm.l1 = []) (h4 : s.wk.results = []) :
    Say.NoUse s gone := by
  simp [Say.NoUse, shotStores, shotRequests, shotLoads, h1, h2, h3, h4]

/-- TLBI of context 1, by page and by 65,536 pages and by one more. -/
theorem witness_StopsAndPageRequestsAreAnswered_tlbi :
    Ready parentOf1 ∧ srcVal parentOf1 (.v 2) 1 0 laneA = 1 ∧ parentOf1.liveCtx 1 = true ∧ isAncestor parentOf1 (ctxOf parentOf1 parentOf1.curWarp) 1 = true ∧
    otherWorld parentOf1 0 1 = false ∧ srcVal parentOf1 (.v 4) 2 0 laneA < 2 ^ 55 ∧ ∀ gone, Say.NoUse parentOf1 gone :=
  ⟨by decide, by decide, by decide, by decide, by decide, by decide, fun gone => noUse_of parentOf1 gone rfl rfl rfl rfl⟩

/-! A launch record, a checkpoint's descriptor, grants, a log, a share and a charge at 0x80. -/

theorem witness_LaunchesAndOperationsBegin :
    (∀ q ∈ [0, 63], localQueue parentOf1 0 q = some q ∧ (queueOf parentOf1 q).recs.length < 64) ∧ srcVal parentOf1 (.v 4) 2 0 laneA % 128 = 0 ∧
    strictBelow parentOf1 0 1 = true ∧ inReset parentOf1 1 = false ∧ parentOf1.cx.opers = [] ∧ addrFate 0x80 64 = none ∧
    Ready (aimed 1 (family (fun c => { c with frozen := true }))) ∧ thawable (family (fun c => { c with frozen := true })) 1 = true ∧
    (∀ c ∈ subtree parentOf1 1, otherWorld parentOf1 0 c = false) := by decide
theorem witness_LaunchesAndOperationsBegin_record : Say.Image parentOf1 parentOf1.curWarp (0, laneA) 0x80 128 (List.replicate 128 0) :=
  image_of parentOf1 _ (0, laneA) 0x80 (List.replicate 128 0) rfl (by decide) (by decide) rfl rfl rfl rfl (by decide)
theorem witness_LaunchesAndOperationsBegin_ckpt : Say.Image parentOf1 parentOf1.curWarp (0, laneA) 0x80 64 (List.replicate 64 0) ∧
    ckptDesc (List.replicate 64 0) = some ⟨0, 0, 0, false⟩ ∧ addrFate (fieldOf (List.replicate 64 0) 0x10 8) 8 = none :=
  ⟨image_of parentOf1 _ (0, laneA) 0x80 (List.replicate 64 0) rfl (by decide) (by decide) rfl rfl rfl rfl (by decide), rfl, by decide⟩

/-- A grant of core 5 and queue 7, for a child of the root and for the child that is there. -/
def grantBytes : List Byte := List.replicate 8 0 ++ [7, 0, 1, 0] ++ List.replicate 20 0 ++ [0x20] ++ List.replicate 95 0
def granting (t : Word) : State := withBytes 0x80 grantBytes (aimed t (family id))
def grant7 : Grant := { cores := 32, qBase := 7, qCount := 1 }
theorem granting_image (t : Word) (h : t = 0 ∨ t = 1) : Say.Image (granting t) (granting t).curWarp (0, laneA) 0x80 128 grantBytes := by
  rcases h with rfl | rfl <;> exact image_of _ _ (0, laneA) 0x80 grantBytes rfl (by decide) (by decide) rfl rfl rfl rfl (by decide)
theorem witness_GrantsLogsMetersAndShares_create :
    let s := granting 0
    Ready s ∧ srcVal s (.v 2) 1 0 laneA = 0 ∧ srcVal s (.v 4) 2 0 laneA = 0x80 ∧ tenantTarget s 0 0 = true ∧ (s.ctx 0).level ≤ 2 ∧ inReset s 0 = false ∧
    opsOver s 0 = [] ∧ grantOf grantBytes ((planned s).ctx 0).grant = some grant7 ∧ grantFree (planned s) 0 4096 grant7 = true ∧ freeId s = some 2 := by
  decide
theorem witness_GrantsLogsMetersAndShares_resize :
    let s := granting 1
    Ready s ∧ srcVal s (.v 2) 1 0 laneA = 1 ∧ strictBelow s 0 1 = true ∧ inReset s 1 = false ∧ opsOver s 1 = [] ∧ (s.ctx 1).parent = 0 ∧
    grantOf grantBytes ((planned s).ctx 0).grant = some grant7 ∧ grantFree (planned s) 0 1 grant7 = true ∧ children (planned s) 1 = [] ∧
    ((planned s).ctx 1).grant.qCount = 0 := by decide

/-- A log of 16 words at 0x1000, started and ended; its STATE lies at 0x98. -/
def logBytes (on : Byte) : List Byte := [0, 0x10, 0, 0, 0, 0, 0, 0, 16, 0, 0, 0, on] ++ List.replicate 51 0
def logging (on : Byte) : State := withBytes 0x80 (logBytes on) parentOf1
theorem logging_image (on : Byte) (h : on = 0 ∨ on = 1) : Say.Image (logging on) (logging on).curWarp (0, laneA) 0x80 64 (logBytes on) := by
  rcases h with rfl | rfl <;> exact image_of _ _ (0, laneA) 0x80 (logBytes _) rfl (by decide) (by decide) rfl rfl rfl rfl (by decide)
theorem witness_GrantsLogsMetersAndShares_dlog : ∀ on ∈ [(0 : Byte), 1], let s := logging on
    let f := fieldOf (logBytes on)
    Ready s ∧ strictBelow s 0 1 = true ∧ addrFate 0x80 64 = none ∧ addrFate (f 0x10 8) 8 = none ∧ (∀ c ∈ subtree s 1, otherWorld s 0 c = false) ∧
    inReset s 1 = false ∧ opsOver s 1 = [] ∧ f 0 8 % 8 = 0 ∧ f 8 4 = 16 ∧ f 0x20 32 = 0 ∧ s.xl.logged = [] ∧ f 0x0C 4 = on.toNat ∧
    Say.Place s s.curWarp 0x98 8 { pageA.xl with pa := 0x10098 } := by
  unfold Say.Place Say.Through; decide
theorem witness_GrantsLogsMetersAndShares_meter : Ready parentOf1 ∧ tenantTarget parentOf1 0 1 = true ∧
    Say.Place parentOf1 parentOf1.curWarp 0x80 64 { pageA.xl with pa := 0x10080 } := by
  unfold Say.Place Say.Through; decide

/-- A share of zeros; a charge of page 0's frame to context 1, and back. -/
theorem witness_GrantsLogsMetersAndShares_share :
    let s := parentOf1
    let p := planned s
    Ready s ∧ strictBelow s 0 1 = true ∧ (s.ctx 1).parent = 0 ∧ (children p 0).filter (fun c => c != 1) = [] ∧ children p 1 = [] ∧
    addrFate 0x80 32 = none := by decide
theorem witness_GrantsLogsMetersAndShares_share_image : Say.Image parentOf1 parentOf1.curWarp (0, laneA) 0x80 32 (List.replicate 32 0) :=
  image_of parentOf1 _ (0, laneA) 0x80 (List.replicate 32 0) rfl (by decide) (by decide) rfl rfl rfl rfl (by decide)
def chargeBytes (back : Byte) : List Byte := [0, 1, 0, 0, 0, 0, 0, 0, 1, 0, 0, 0, back, 0, 0, 0]
def charging (back : Byte) : State :=
  (withBytes 0x80 (chargeBytes back) (aimed 1 (family (fun c => { c with burst := 1 })))).updXL (fun x => { x with
    frames := [(1, { state := 0, charge := back.toNat })] })
theorem charging_images (b : Byte) (h : b = 0 ∨ b = 1) :
    Say.Image (charging b) (charging b).curWarp (0, laneA) 0x80 16 (chargeBytes b) ∧
    Say.Image (charging b) (charging b).curWarp (0, laneA) 0x100 8 (List.replicate 8 0) := by
  rcases h with rfl | rfl <;> exact ⟨image_of _ _ (0, laneA) 0x80 (chargeBytes _) rfl (by decide) (by decide) rfl rfl rfl rfl (by decide),
    image_of _ _ (0, laneA) 0x100 (List.replicate 8 0) rfl (by decide) (by decide) rfl rfl rfl rfl (by decide)⟩
theorem witness_GrantsLogsMetersAndShares_charge : ∀ b ∈ [(0 : Byte), 1], let s := charging b
    let f := fieldOf (chargeBytes b)
    let p := planned s
    Ready s ∧ strictBelow s 0 1 = true ∧ addrFate 0x80 16 = none ∧ f 0 8 = 0x100 ∧ f 8 4 = 1 ∧ f 0x0C 1 = b.toNat ∧ f 0x0D 3 = 0 ∧
    wordsOf8 (List.replicate 8 0) = [0] ∧ Say.Through s s.curWarp .read 1 0 pageA.xl ∧ pageA.xl.ty = .page ∧ pageA.xl.pa / 2 ^ 16 = 1 ∧
    (p.frame 1).state = 0 ∧ (p.frame 1).charge = (if b = 1 then 1 else 0) ∧ (p.frame 1).wt = (s.ctx 0).world ∧ (p.ctx 1).used + 1 ≤ (p.ctx 1).burst := by
  unfold Say.Through; decide
def answered : State := (withWarp (fun w => { w with opLane := [(0, 5)] }) parentOf1)
theorem witness_GrantsLogsMetersAndShares_inForce : Say.Sole answered answered.curWarp h0 (0, laneA) ∧ answered.curWarp.opLane.find 0 = some 5 ∧
    (∀ c ∈ answered.cx.staged, c.id ≠ 5) ∧ extPending answered 5 = false :=
  ⟨⟨by decide, by decide, by decide, by decide, .inr ⟨by decide, by unfold Say.Settled; decide, by decide, by decide⟩, by unfold Say.Settled; decide, by decide⟩,
    by decide, by decide, by decide⟩

/-- MEAS of four bytes at 0x80, RCPT of context 1, SCRUB of page 0's frame, a job's progress. -/
def measuring : State := withV [(6, 4)] parentOf1
theorem witness_MeasurementsReceiptsAndScrubs_meas : Ready measuring ∧ srcVal measuring (.v 6) 2 0 laneA = 4 ∧ measuring.cx.ctxs.find 0 ≠ none := by decide
theorem witness_MeasurementsReceiptsAndScrubs_image : Say.Image measuring measuring.curWarp (0, laneA) 0x80 4 (List.replicate 4 0) :=
  image_of measuring _ (0, laneA) 0x80 (List.replicate 4 0) rfl (by decide) (by decide) rfl rfl rfl rfl (by decide)
theorem witness_MeasurementsReceiptsAndScrubs_rcpt : tenantTarget parentOf1 0 1 = true ∧ addrFate 0x80 64 = none ∧
    addrFate (fieldOf (List.replicate 64 0) 0 8) 64 = none ∧ addrFate (fieldOf (List.replicate 64 0) 0x28 8) 8 = none ∧ otherWorld parentOf1 0 1 = false ∧
    fieldOf (List.replicate 64 0) 0x30 16 = 0 ∧ parentOf1.cx.receipts.length < 64 := by decide
def scrubBytes : List Byte := [0, 1, 0, 0, 0, 0, 0, 0, 1] ++ List.replicate 55 0
def scrubbing : State := (withBytes 0x80 scrubBytes parentOf1).updXL (fun x => { x with frames := [(1, { state := 0, charge := 1 })] })
theorem scrubbing_images : Say.Image scrubbing scrubbing.curWarp (0, laneA) 0x80 64 scrubBytes ∧
    Say.Image scrubbing scrubbing.curWarp (0, laneA) 0x100 8 (List.replicate 8 0) :=
  ⟨image_of _ _ (0, laneA) 0x80 scrubBytes rfl (by decide) (by decide) rfl rfl rfl rfl (by decide),
    image_of _ _ (0, laneA) 0x100 (List.replicate 8 0) rfl (by decide) (by decide) rfl rfl rfl rfl (by decide)⟩
theorem witness_MeasurementsReceiptsAndScrubs_start :
    let s := scrubbing
    let f := fieldOf scrubBytes
    Ready s ∧ addrFate (f 0 8) 8 = none ∧ f 0 8 = 0x100 ∧ addrFate (f 0x10 8) 8 = none ∧ f 8 4 = 1 ∧ f 0x0C 4 = 0 ∧ f 0x18 40 = 0 ∧
    Say.Through s s.curWarp .read 1 0 pageA.xl ∧ (s.frame 1).state = 0 ∧ s.liveCtx (s.frame 1).charge = true ∧ isAncestor s 0 (s.frame 1).charge = true ∧
    heldParks s [1] = [] := by
  unfold Say.Through; decide
theorem witness_MeasurementsReceiptsAndScrubs_jobs : freeJobs scrubbing ≠ [] :=
  List.ne_nil_of_mem (a := 0) (List.mem_filter.2 ⟨by simp, by decide⟩)
def zeroing : State := aimed 3 ((family id).updCX (fun c => { c with jobs := [(3, { total := 1, left := [1], ctxs := [1] })] }))
theorem witness_MeasurementsReceiptsAndScrubs_progress : Ready zeroing ∧ (zeroing.cx.jobs.find 3).isSome = true ∧ isAncestor zeroing 0 0 = true ∧
    tenantTarget zeroing 0 1 = true ∧ zeroing.cx.jobs.any (fun j => j.2.active && j.2.ctxs.contains 1) = true ∧
    parentOf1.cx.jobs = [] := by decide

/-- Slot 1, context 1, core 1, world 128 and entry 1; a window for packets as an image at 0x80. -/
theorem witness_KeysWorldsAndWindows :
    let s := parentOf1
    Ready s ∧ srcVal s (.v 2) 1 0 laneA = 1 ∧ srcVal s (.v 4) 1 0 laneA = 128 ∧ isAncestor s 0 (slotHolder s false 1) = true ∧
    isAncestor s 0 (slotHolder s true 1) = true ∧ tenantTarget s 0 1 = true ∧ s.cx.worldOwner.find 128 = none ∧ (s.ctx 1).level = 1 ∧
    (s.ctx 1).world = 0 ∧ children s 1 = [] ∧ (∀ g ∈ s.wk.groups, g.2.ctx ≠ 1) ∧ (s.ctx 1).used = 0 ∧ (s.ctx 1).grant.qCount = 0 ∧
    ownsWorld s 0 0 = true ∧ NMap.get 0 s.cx.latch 1 = 0 ∧ ownCore s 0 1 = true ∧ s.curWarp.core = 0 ∧ (∀ c ∈ s.cx.ctxs, c.2.gone = false → c.2.world ≠ 1) ∧
    (∀ c ∈ s.cx.latch, c.2 ≠ 1) ∧ s.curWarp.phase ≠ 2 ∧ Say.Place s s.curWarp 0x80 128 { pageA.xl with pa := 0x10080 } := by
  unfold Say.Place Say.Through; decide
theorem witness_KeysWorldsAndWindows_noUse : ∀ gone, Say.NoUse parentOf1 gone := fun gone => noUse_of parentOf1 gone rfl rfl rfl rfl
def rxImage : List Byte := 2 :: List.replicate 11 0 ++ 1 :: List.replicate 115 0
def mapping : State := withBytes 0x80 rxImage parentOf1
theorem witness_KeysWorldsAndWindows_image : Say.Image mapping mapping.curWarp (0, laneA) 0x80 128 rxImage ∧ wmapOk mapping rxImage = true :=
  ⟨image_of mapping _ (0, laneA) 0x80 rxImage rfl (by decide) (by decide) rfl rfl rfl rfl (by decide), by decide⟩

/-! ### Witnesses: events inside the part -/

theorem clean_of {s : State} (h : s.mm.l1 = []) (core a : Nat) : ¬Say.DirtyAt s core a := by
  rintro ⟨e, he, -⟩; simp [h] at he

/-- A result with a value for the last v register, whose work is the last of its counter. -/
def arriving : State := one.updWK (fun w => { w with
  results := [(4, { gi := 1, lanes := [{ reg := 191, vals := [7] }], work := some 3 })], works := [(3, { gi := 1, sbc := some 5, left := 1 })] })
theorem witness_MemoryEventsComplete_result : arriving.wk.results.find 4 = some { gi := 1, lanes := [{ reg := 191, vals := [7] }], work := some 3 } ∧
    arriving.wk.works.find 3 = some { gi := 1, sbc := some 5, left := 1 } := by decide

/-- A walk of page 1 that walker 2 has taken and warp 1 awaits: through three levels to frame 1, its leaf's line free or held. -/
def walk4 : Walk := { page := 1, walker := some 2 }
def tables : State := [(0x20000, [3, 0, 3]), (0x30000, [3, 0, 4]), (0x40008, [5, 0, 1])].foldl (fun s x => setMemBytes s x.1 x.2)
  (one.updCtx 0 (fun c => { c with xroot := 0x20001 }))
def walking (l : List Claim) : State :=
  ((tables.updWarp 1 (fun w => { w with park := .walk [4] })).updXL (fun x => { x with walks := [(4, walk4)], frames := [(1, { state := 0 })] })).updMM (fun m =>
    { m with claims := l })
theorem witness_MemoryEventsComplete_walk : ∀ l ∈ [[], [{ line := 2048, cmd := 5 }]], (walking l).xl.walks.find 4 = some walk4 ∧
    (walking l).liveCtx walk4.ctx = true ∧ ((walking l).wk.warps.find 1).map (·.park) = some (.walk [4]) := by decide
theorem witness_MemoryEventsComplete_walk_found :
    (match (runWalk (walking []) 2 0 0 65536 .read).1 with | .ok t => serves t .read && t.pa = 0x10000 | _ => false) = true := by decide
theorem witness_MemoryEventsComplete_walk_held : (runWalk (walking [{ line := 2048, cmd := 5 }]) 2 0 0 65536 .read).1 = .busy := by decide

/-- Stores at the head of a FIFO: to the last byte of the range, to memory, to a window; and with a second home warp's entry of one store. -/
def storing (s : State) (w : FWrite) (sync : Option Nat) : State := s.updRG (fun r => { r with
  hwarps := [(hwKey 1 0, { fifo := [{ id := 7, writes := [w], sync := sync }] }), (hwKey 1 1, { fifo := [{ id := 7, writes := [{ w with byte := 9 }], sync := sync }] })] })
def spadWrite : FWrite := ⟨0, .spad, 4095, 5⟩
def memWrite : FWrite := ⟨0, .mem 0 0, 0x1FFFF, 5⟩
def txWrite : FWrite := ⟨0, .tx 3, 0xFFFF, 5⟩
theorem witness_MemoryEventsComplete_store : ∀ s ∈ [storing one spadWrite none, storing one memWrite none, storing (windowed txBytes) txWrite none],
    ∃ e, (s.hwarp (hwKey 1 0)).fifo = [e] ∧ storeTogether s 1 0 = some [(0, e)] ∧ storeWaits s 1 (writesOf [(0, e)]) = false ∧ s.mm.l1 = [] := by
  intro s hs
  simp only [List.mem_cons, List.not_mem_nil, or_false] at hs
  rcases hs with rfl | rfl | rfl <;> exact ⟨_, rfl, by decide, by decide, rfl⟩
theorem witness_MemoryEventsComplete_together :
    let s := storing one spadWrite (some 7)
    let es := [(0, ({ id := 7, writes := [spadWrite], sync := some 7 } : FifoEntry)), (1, { id := 7, writes := [{ spadWrite with byte := 9 }], sync := some 7 })]
    storeTogether s 1 0 = some es ∧ storeWaits s 1 (writesOf es) = false ∧ ∃ th ∈ groupThreads s 1, th.2.stat ≠ .exited := by decide
theorem witness_L1Rising (s : State) (h : s.mm.l1 = []) : Say.L1Rising s := by simp [Say.L1Rising, h]

/-- Words on their way to the directory, sent by the core or evicted; the line held; an engine's claim. -/
def dirState (d : DirItem) (l : List Claim) : State := (cached true).updMM (fun m => { m with
  l1 := [(l1Key 0 512, { words := [(31, { val := 7, dirty := true, sent := [4] })] })], dirItems := [(4, d)], claims := l })
def item (evicted : Bool) : DirItem := { line := 512, words := [{ i := 31, val := 7 }], evicted := evicted }
theorem witness_MemoryEventsComplete_directory : ∀ e ∈ [false, true], let s := dirState (item e) []
    s.mm.dirItems.find 4 = some (item e) ∧ (∀ w ∈ (item e).words, w.i < 32) ∧ held s 512 = false ∧ evictTurn s 4 (item e) = true ∧
    (l1Line s 0 512).words.find 31 = some { val := 7, dirty := true, sent := [4] } ∧ held (dirState (item e) [{ line := 512, cmd := 5 }]) 512 = true := by
  decide
theorem witness_MemoryEventsComplete_claim : ∀ l ∈ [[], [{ line := 512, cmd := 6 }]],
    let s := (dirState { line := 512, claim := some 5 } l).updEN (fun e => { e with cmds := [(5, copyCmd)] })
    s.mm.dirItems.find 4 = some { line := 512, claim := some 5 } ∧ (s.en.cmds.find 5).isSome = true ∧ (claimWaits s 512 = true ↔ l ≠ []) := by decide

def dropping : State := (cached false).updMM (fun m => { m with drops := [(4, { line := 512, words := [1, 31] })] })
theorem witness_MemoryEventsComplete_drop : dropping.mm.drops.find 4 = some { line := 512, words := [1, 31] } := by decide

/-- A warp that waits for the last line of its group's range. -/
def retrying : State := withWarp (fun w => { w with park := .lines [4096 + 31] }) one
theorem witness_MemoryEventsComplete_retry : (retrying.wk.warps.find 1).map (·.park) = some (.lines [4096 + 31]) ∧ (retrying.group 1).resident = true ∧
    (groupLine retrying 1 31).p = true := by decide

/-- A request of each kind at the service warp of cove 16, for the last word of a page whose object holds 5. -/
def asks (r : SvcReq) : State := setMemBytes ((one.updWK (fun w => { w with results := [(8, { gi := 1, known := false, lanes := [{ reg := 4, vals := [0, 0] }] })] })).updMM
  (fun m => { m with svc := [(4, r)] })) 0x10FF8 [5]
def request (k : SvcKind) (data : Nat) : SvcReq := { kind := k, cove := 16, pa := 0x10FF8, data := data, gi := 1, result := some 8 }
theorem witness_ServiceWarpsPerformRequests :
    ∀ r ∈ [request (.atom .add) 3, request (.cas 5) 6, request .bsig 3, request .bpoll 0, request .bwait 5, request .bwait 6, request .gsync 0],
      let s := asks r
      s.mm.svc.find 4 = some r ∧ r.waiting = false ∧ r.beyond = false ∧ requestWaits s 4 r = false ∧ llcPoisoned s r.pa = false ∧ r.pa % 8 = 0 ∧
      memNat s r.pa 8 = 5 ∧ ownView s r 5 = 5 ∧ (s.mm.svc.filter (fun y => y.2.cove = 16 && y.2.waiting)).length < 2048 ∧
      ∃ th ∈ groupThreads s 1, th.2.stat ≠ .exited := by decide
theorem witness_ServiceWarpsPerformRequests_clean (r : SvcReq) (core a : Nat) : ¬Say.DirtyAt (asks r) core a := clean_of rfl core a
theorem witness_ServiceWarpsPerformRequests_values : aopVal .add 64 5 3 < 2 ^ 64 ∧ min (5 + 3) (2 ^ 64 - 1) < 2 ^ 64 := by decide
theorem witness_ServiceWarpsPerformRequests_retest :
    let r := { request .bwait 6 with beyond := true }
    (asks r).mm.svc.find 4 = some r ∧ held (asks r) (r.pa / 128) = false := by decide

/-! ### Witnesses: engines, the fabric and the part -/

def inEngine (s : State) (c : Cmd) (clears : List (Nat × Nat)) (claims : List Claim) : State :=
  { s with en := { cmds := [(4, c)], clears := clears }, mm := { s.mm with claims := claims } }
/-- A fill of the last line of the range, whose line is cleared; a copy into the last line of the page, which it has claimed; MXST of two
elements. -/
def fillNow : Cmd := { fillCmd with service := true, prepared := 1, lines := [lineKey 1 31] }
def filling : State := inEngine fillState fillNow [(lineKey 1 31, 4)] []
theorem witness_EnginesCompleteGranules_fill : filling.en.cmds.find 4 = some fillNow ∧ (granules fillNow).drop fillNow.done = [⟨0, 31, 0, 0xF80, 128⟩] :: [] ∧
    fillNow.stop = .running ∧ fillNow.done < fillNow.prepared ∧ (filling.group 1).resident = true ∧ isTile fillNow = false ∧
    spadTurn filling 4 (lineKey 1 31) = true ∧ lineKey 1 (0xF80 / 128) ∈ fillNow.lines := by decide
theorem witness_EnginesCompleteGranules_fill_byte (p : Piece) (j : Nat) : Say.CopyByte filling 4 fillNow p j (BitVec.ofNat 8 (0 / 256 ^ (j % 4))) := rfl
def copyNow : Cmd := { copyCmd with service := true, prepared := 1 }
def copying : State := inEngine copyState copyNow [] [{ line := 1023, cmd := 4 }]
theorem witness_EnginesCompleteGranules_copy : copying.en.cmds.find 4 = some copyNow ∧ (granules copyNow).drop 0 = [⟨0, 511, 0, 0xFF80, 128⟩] :: [] ∧
    isTile copyNow = false ∧ tlbFind copying 0 0 0 .engWrite = some pageA.xl ∧ pageA.xl.ty = .page ∧ memTurn copying 4 1023 = true := by decide
theorem witness_EnginesCompleteGranules_copy_byte : ∀ j < 128,
    Say.CopyByte copying 4 copyNow ⟨0, 511, 0, 0xFF80, 128⟩ j (memByte copying (0x10000 + j)) := by
  intro j hj
  refine ⟨pageA.xl, ?_⟩
  revert j
  decide
def tileNow : Cmd := { gi := 1, opc := 0xCA, moves := .tile 1 2 4 [0x3C00, 0x4000], dst := 0xF80, dsp := true, prepared := 1, lines := [lineKey 1 31] }
def tiling : State := inEngine one tileNow [(lineKey 1 31, 4)] []
theorem witness_EnginesCompleteGranules_tile : tiling.en.cmds.find 4 = some tileNow ∧
    (granules tileNow).drop 0 = [⟨0, 31, 0, 0xF80, 2⟩, ⟨0, 31, 2, 0xF84, 2⟩] :: [] ∧ spadTurn tiling 4 (lineKey 1 31) = true ∧
    (tiling.group 1).resident = true := by decide
theorem witness_EnginesCompleteGranules_tile_byte (p : Piece) (j : Nat) : Say.CopyByte tiling 4 tileNow p j
    (BitVec.ofNat 8 (([0x3C00, 0x4000] : List Nat).getD (p.src.toNat / 2 + j / 2) 0 / 256 ^ (j % 2))) := rfl

/-- XBULK of the last word of the range. -/
def bulkNow : Cmd := { gi := 1, opc := 0xD0, moves := .linear 4, src := 4092, ssp := true, bulk := true, service := true, entry := 3 }
def bulking : State := inEngine (windowed txBytes) bulkNow [] []
theorem witness_EnginesCompleteGranules_bulk : bulking.en.cmds.find 4 = some bulkNow ∧ (granules bulkNow).drop 0 ≠ [] ∧ isTile bulkNow = false ∧
    (bulking.group 1).resident = true ∧ ∀ g ∈ granules bulkNow, ∀ p ∈ g, p.n % 4 = 0 ∧
      bulkNow.winOff + p.src.toNat + p.n ≤ wmField bulking bulkNow.entry 0x0C 4 * 2 ^ 16 ∧
      (∀ a, a = p.dst ∨ a = p.dst + p.n - 1 → a < 2 ^ 55 ∧ a / 2 ^ 16 = bulkNow.dst / 2 ^ 16) := by
  refine ⟨by decide, by decide, by decide, by decide, ?_⟩
  intro g hg p hp
  have e : granules bulkNow = [[⟨0, 31, 0, 0, 4⟩]] := by decide
  simp only [e, List.mem_singleton] at hg
  subst hg
  simp only [List.mem_singleton] at hp
  subst hp
  refine ⟨by decide, by decide, fun a h => ?_⟩
  rcases h with rfl | rfl <;> decide
theorem witness_EnginesCompleteGranules_bulk_byte : ∀ g ∈ granules bulkNow, ∀ p ∈ g, ∀ j < p.n, Say.CopyByte bulking 4 bulkNow p j 0 := by
  intro g hg p hp
  have e : granules bulkNow = [[⟨0, 31, 0, 0, 4⟩]] := by decide
  simp only [e, List.mem_singleton] at hg
  subst hg
  simp only [List.mem_singleton] at hp
  subst hp
  have n : ∀ k, bulkNow.early.find k = none := fun _ => rfl
  have m : bulkNow.moves = .linear 4 := rfl
  have q : bulkNow.ssp = true := rfl
  simp only [Say.CopyByte, m, n, q, if_true]
  decide

/-- A product of one element, its operands read, and still to be read; a context that waits for an array. -/
def unitRun (early : List ((Nat × Nat × Nat) × List Byte)) : MCmd := { gi := 1, early := early, stg := {
  a := { set := true, stride := 128, sp := true }, b := { set := true, base := 128, stride := 128, sp := true }, shp := { set := true, m := 1, n := 1, k := 1 } } }
def inQueue (c : MCmd) : State := arrayState.updEN (fun e => { e with mqueues := [(mqKey 0 0 0, { cmds := [c] })] })
def readRun : MCmd := unitRun [((0, 0, 0), [0, 0x3C]), ((1, 0, 0), [0, 0x3C])]
theorem witness_EnginesCompleteGranules_matrix : let s := inQueue readRun
    s.en.grants.find (halfKey 0 0) = some 0 ∧ (mqueue s 0 0 0).cmds = [readRun] ∧ heldBack s 0 0 readRun = false ∧ 0 < unitCount readRun.stg ∧
    (∀ k ∈ granuleItems readRun 0, hasItem readRun k = true) ∧ granuleItems readRun 0 ≠ [] ∧ granuleFormat readRun 0 = none ∧ s.en.accPoison = [] ∧
    readRun.flip = 0 := by decide
theorem witness_EnginesCompleteGranules_ahead : let s := inQueue (unitRun [])
    itemAt (unitRun []).stg (0, 0, 0) = some (true, 0, 2, 0) ∧ (0, 0, 2) ∈ piecesOf 0 2 ∧ mayRead (unitRun []) (0, 0, 0) = true ∧
    pieceOf (unitRun []) (0, 0, 0) 0 = none ∧ (groupLine s 1 0).p = true ∧ (groupLine s 1 0).q = false ∧ s.pt.spadPoison = [] := by decide
theorem witness_EnginesCompleteGranules_grant : ∀ h ∈ [[], [(halfKey 0 0, 1)]],
    let s := (inQueue readRun).updEN (fun e => { e with grants := h })
    firstServed s 2 (halfKey 0 0) ((matrixReady s 0 0).filter (fun c => s.en.grants.find (halfKey 0 0) != some c)) = some 0 ∧
    (mqueue s 0 0 1).cmds = [] := by decide

/-- Window 3 receives; a packet of this chip and one of another, at its last bytes. -/
def rxEntry : List Byte := [2, 0, 0, 0, 0, 0, 0, 0, 0, 0, 0, 0, 1, 0, 0, 0] ++ List.replicate 112 0
def rxXl : Xl := { pa := 0x10000, w := true, ty := .rxWin, key := 3 }
def receiving (ps : List (Nat × Packet)) : State :=
  { windowed rxEntry with xl := { tlb := [{ xl := rxXl }] }, fb := { wmap := [(3, rxEntry)], packets := ps } }
def ownPacket (k : PktKind) : Packet := { kind := k, chip := fabChip, rxw := 3, q := 0xFFF8, bytes := [(0xFFFF, 5)], addend := 5, material := List.replicate 32 1 }
def farPacket : RemotePkt := { port := 1, jetty := 2, chip := 3, core := 4, seq := 1, rxw := 3, q := 0xFFF8, bytes := [(0xFFFF, 5)], addend := 5, opens := true }
theorem witness_FabricAndPartEvents_own : ∀ k ∈ [PktKind.store, .signal],
    (receiving [(4, ownPacket k)]).fb.packets.find 4 = some (ownPacket k) ∧ firstOfPath (receiving [(4, ownPacket k)]) 4 (ownPacket k) = true ∧
    fkeyOf (receiving [(4, ownPacket k)]) (wmByte (receiving [(4, ownPacket k)]) 3 2) = some (ownPacket k).material := by
  intro k hk
  simp only [List.mem_cons, List.not_mem_nil, or_false] at hk
  rcases hk with rfl | rfl <;> refine ⟨rfl, ?_, by decide⟩ <;> simp [firstOfPath, receiving]
theorem witness_FabricAndPartEvents_remote : let s := receiving []
    (⟨farPacket.core, farPacket.port, farPacket.jetty, farPacket.chip, farPacket.rxw, 0⟩, farPacket.seq) ∉ s.fb.seen ∧
    nextOfPath s ⟨farPacket.core, farPacket.port, farPacket.jetty, farPacket.chip, farPacket.rxw, 0⟩ farPacket.seq = true ∧ wmByte s 3 0 = 2 ∧
    wmField s 3 8 2 = 0 ∧ 0xFFF8 + 8 = wmField s 3 0x0C 4 * 2 ^ 16 ∧ (wmField s 3 0x10 8 + 0xFFF8) % 2 ^ 64 / 2 ^ 16 = 0 ∧
    tlbFind s 0 0 0 .arrive = some rxXl ∧ held s (0x1FFF8 / 128) = false ∧ llcPoisoned s 0x1FFF8 = false ∧ s.mm.l1 = [] := by decide

/-- Acknowledgements: of a store's packet, the last of its counter; of a reduction's, the first and the last of two contributions. -/
def acking : State := (one.updFB (fun f => { f with packets := [(4, { works := [3], taken := true })] })).updWK
  (fun w => { w with works := [(3, { gi := 1, sbc := some 5, left := 1 })] })
theorem witness_FabricAndPartEvents_ack : ∃ p, acking.fb.packets.find 4 = some p ∧ ackable acking 4 p = true ∧ p.cmd = none ∧ p.works = [3] ∧
    (acking.wk.works.find 3).isSome = true := ⟨_, rfl, by decide, rfl, rfl, by decide⟩
def redPacket : Packet := { kind := .reduction, jetty := 7, rid := 1, rop := 2, bytes := [(0, 1), (1, 0), (2, 0), (3, 0)], material := List.replicate 32 1, left := true }
def slotted (n : Nat) : NMap Slot := if n = 0 then [] else [(0, { count := n, val := 5 })]
def jettyEnrol (n : Nat) : Enrol := { jetty := 7, material := List.replicate 32 1, rid := 1, rop := 2, contrib := 2, slots := slotted n }
def reducing (n : Nat) : State := one.updFB (fun f => { f with packets := [(4, redPacket)], enrols := [(2, jettyEnrol n)] })
theorem witness_FabricAndPartEvents_reduction : ∀ n ∈ [0, 1], let s := reducing n
    s.fb.packets.find 4 = some redPacket ∧ ackable s 4 redPacket = true ∧ packetWords redPacket = [(0, 1)] ∧ 4 < s.md.nextId ∧
    (s.fb.enrols.find? (fun e => e.2.jetty = redPacket.jetty && e.2.material = redPacket.material && e.2.rid = redPacket.rid)).map (·.1) = some 2 ∧
    (NMap.get {} ((s.fb.enrols.find 2).getD {}).slots 0).count = n := by decide
theorem witness_FabricAndPartEvents_enrolment :
    let s := { windowed (rxBytes 1) with fb := { wmap := [(3, rxBytes 1)], enrols := [(2, { reqs := [{ entry := 3 }] })] } }
    s.fb.wmap.find 3 = some (rxBytes 1) ∧ 6 ≤ (rxBytes 1).length ∧ (∃ e ∈ s.fb.enrols, ∃ r ∈ e.2.reqs, r.entry = 3) ∧ (wmByte s 3 5).testBit 1 = true := by
  decide
theorem witness_FabricAndPartEvents_power : NMap.wf 16 one.pt.clocks = true ∧ one.pt.powerCap < 1701 := by decide

/-! ### Witnesses: operations, ticks, pages and grids -/

/-- A range of page 0 of a context, clear of claims, for the part. -/
theorem area_of (s : State) (ctx va n : Nat) (kind : AccKind) (h : tlbFind s 0 ctx 0 kind = some pageA.xl) (hv : va + n ≤ 65536)
    (h1 : s.mm.l1 = []) (h2 : s.mm.claims = []) : Say.Area s ctx va n kind (fun i => 0x10000 + (va + i)) := by
  refine ⟨by omega, fun i hi => ⟨pageA.xl, ?_, rfl, ?_⟩, fun i _ => by simp [held, h2], fun i _ j _ e => by omega, by simp [h1]⟩
  · rw [Nat.div_eq_of_lt (by omega), h]
  · rw [Nat.mod_eq_of_lt (by omega)]; rfl

/-- Bytes of page 0 that the part reads. -/
theorem readable_of (s : State) (ctx va : Nat) (l : List Byte) (h : tlbFind s 0 ctx 0 .read = some pageA.xl) (hv : va + l.length ≤ 65536)
    (h1 : s.mm.llc = []) (h2 : s.mm.claims = []) (h3 : s.mm.hbmPoison = []) (hb : ∀ i < l.length, l.getD i 0 = memByte s (0x10000 + (va + i))) :
    Say.Readable s ctx va l.length l := by
  refine ⟨by omega, rfl, ⟨h3, by simp [h1]⟩, fun i hi => ⟨pageA.xl, ?_, .inl rfl, by simp [held, h2], ?_⟩⟩
  · rw [Nat.div_eq_of_lt (by omega), h]
  · rw [Nat.mod_eq_of_lt (by omega)]; exact hb i hi

/-- The one operation in progress, on context 1. -/
def operating (o : Oper) : State := (family id).updCX (fun c => { c with opers := [(5, { o with target := 1 })] })
theorem witness_OperationsRunToTheirEnd_drain :
    let s := operating { kind := .reset, stage := .draining }
    s.cx.opers.map (·.1) = [5] ∧ subtree s 1 = [1] ∧ quiesced s [1] = true ∧ parksHeld s [1] = false ∧ s.liveCtx 1 = true ∧ (s.ctx 1).parent = 0 ∧
    holders s 383 = [] ∧ holders s 0 ≠ [] ∧ (∀ f ∈ s.xl.frames, f.2.charge ≠ 1) ∧
    quiesced (operating { stage := .draining }) (subtree one 0) = false := by decide
theorem witness_OperationsRunToTheirEnd_jobs : freeJobs (operating { kind := .reset }) ≠ [] :=
  List.ne_nil_of_mem (a := 0) (List.mem_filter.2 ⟨by simp, by decide⟩)
def imaging (target n : Nat) : Oper := { kind := .ckpt 0x1000 n true, stage := .working, target := target, chain := List.replicate 32 7 }
def imaged (target n : Nat) : State := (family id).updCX (fun c => { c with opers := [(5, imaging target n)] })
/-- An image whose bytes do not fit, and one, of a subtree that has gone, that is all header. -/
theorem imaged_body : (imageBody (imaged 2 64) (imaging 2 64)).1 = [] := by
  have e : subtree (imaged 2 64) (imaging 2 64).target = [] := by decide
  have z : ∀ (m : Nat) (s : State), (shuffle m s ([] : List Nat)).1 = [] := fun m s => by cases m <;> rfl
  unfold imageBody
  rw [e]
  generalize hs : shuffle 4096 (imaged 2 64) [] = r
  have n : r.1 = [] := hs ▸ z _ _
  obtain ⟨ids, u⟩ := r
  subst n
  rfl
theorem witness_OperationsRunToTheirEnd_image :
    (∀ x ∈ [(1, 0), (2, 64)], (imaged x.1 x.2).cx.opers = [(5, imaging x.1 x.2)] ∧ (imaging x.1 x.2).kind = .ckpt 0x1000 x.2 true ∧
      (imaging x.1 x.2).stage = .working ∧ (imaging x.1 x.2).reqs = [] ∧ (imaging x.1 x.2).issuer = 0 ∧
      Say.Area (imaged x.1 x.2) 0 0x1000 64 .engWrite (fun i => 0x10000 + (0x1000 + i))) ∧
    64 + (imageBody (imaged 2 64) (imaging 2 64)).1.length = 64 := by
  refine ⟨fun x _ => ⟨rfl, rfl, rfl, rfl, rfl, area_of _ _ _ _ _ (by rfl) (by omega) rfl rfl⟩, by rw [imaged_body]; rfl⟩

/-- A trigger by count that has records to go, and one that has none; by time; with a checkpoint of the context in progress. -/
def armed (left : Nat) : Trigger := { value := 4, left := left, desc := List.replicate 64 0 }
def triggered (left : Nat) (o : NMap Oper) : State :=
  (family (fun c => { c with trigCount := some (armed left), trigTime := some (armed left) })).updCX (fun c => { c with opers := o })
theorem witness_OperationsRunToTheirEnd_trigger :
    (∀ left ∈ [0, 3], ((triggered left []).ctx 1).trigCount = some (armed left) ∧ ((triggered left []).ctx 1).trigTime = some (armed left)) ∧
    (ckptDesc (armed 0).desc).map (·.done) = some 0 ∧ (triggered 0 []).liveCtx 1 = true ∧ addrFate 0 8 = none ∧
    (∀ c ∈ subtree (triggered 0 []) 1, otherWorld (triggered 0 []) ((triggered 0 []).ctx 1).parent c = false) ∧
    ∃ x ∈ (triggered 0 [(5, imaging 1 0)]).cx.opers, x.2.target = 1 ∧ ∃ a n w, x.2.kind = .ckpt a n w :=
  ⟨by decide, by decide, by decide, by decide, by decide, _, List.mem_singleton.2 rfl, rfl, _, _, _, rfl⟩
theorem witness_OperationsRunToTheirEnd_extension : ((family (fun c => { c with extQ := [{ id := 3, tag := 2, len := 4 }] })).ctx 1).extQ =
    [{ id := 3, tag := 2, len := 4 }] := by decide

/-- A receipt with nothing to wait for, to an address of page 0. -/
def signing : Receipt := { target := 1, out := 0x2000, bar := 0x80, taken := some (List.replicate 32 0, 0) }
def signed : State := (family id).updCX (fun c => { c with receipts := [(3, signing)] })
theorem witness_OperationsRunToTheirEnd_receipt : signed.cx.receipts.find 3 = some signing ∧ (∀ w ∈ signing.waits, extPending signed w = false) ∧
    signing.reqs = [] ∧ signing.image = [] ∧ signing.taken = some (List.replicate 32 0, 0) ∧ signing.bar ≠ 0 := by decide
theorem witness_OperationsRunToTheirEnd_receipt_area : Say.Area signed 0 0x2000 17344 .engWrite (fun i => 0x10000 + (0x2000 + i)) :=
  area_of _ _ _ _ _ (by rfl) (by omega) rfl rfl

/-- Staged changes: a share; a mode of core 0, which a group holds; the retirement of core 383. A job's last frame. -/
def staging (c : Change) : State := (family id).updCX (fun x => { x with staged := [{ id := 7, change := c, reply := some (0, 4) }] })
theorem witness_TicksApplyChangesAndFramesAreZeroed :
    (∀ c ∈ [Change.grant 1 {}, .share 1 1 1 1 1 0 0, .charge [1] 1, .remove 1, .modes [(383, 1)], .retire (.core 383), .modes [(0, 0)]],
      (staging c).cx.staged = [{ id := 7, change := c, reply := some (0, 4) }] ∧ (staging c).cx.opers = [] ∧ changeQuiet (staging c) c = true) ∧
    (∀ c ∈ [Change.modes [(0, 1)], .retire (.core 0)], changeQuiet (staging c) c = false ∧
      (staging c).cx.staged.find? (fun x => x.id = 7) = some { id := 7, change := c, reply := some (0, 4) }) ∧
    (staging (.remove 1)).liveCtx 1 = true ∧ (staging (.remove 1)).cx.ctxs.find 1 ≠ none ∧ ((staging (.charge [1] 1)).frame 1).state = 0 := by decide
theorem witness_TicksApplyChangesAndFramesAreZeroed_job :
    (∀ l ∈ [[], [2]], let s := (family id).updCX (fun c => { c with jobs := [(3, { left := 1 :: l, bar := 0x80 })] })
      s.cx.jobs.find 3 = some { left := 1 :: l, bar := 0x80 } ∧ frameBusy s 1 = false ∧ s.cx.ctxs.find 0 ≠ none) := by decide

/-! ### Witnesses: pages and grids -/

/-- Page 2 of the root's space is far, with a record at 0x60080; page 1 stands in frame 1; migration is on. -/
def migrating (low high : Nat) (free : List Nat) : State :=
  (setMemBytes tables 0x40010 [7, 0, 6]).updPT (fun p => { p with migCtl := 3, migBatch := 1, migQDepth := 1280, migFreeLow := low, migFreeHigh := high }) |>.updXL
    (fun x => { x with pool := free, farNotes := [(0, 2)], frames := [(1, { heat := 4 })] })
theorem witness_PagesMoveBetweenFramesAndThePool_still : (migrating 1 2 [5]).pt.migCtl % 2 = 1 ∧ (migrating 1 2 [5]).pt.migFreeLow ≤ [5].length ∧
    [5].length ≤ (migrating 1 2 [5]).pt.migFreeHigh ∧ NMap.wf {} (migrating 1 2 [5]).xl.frames = true ∧ State.reset.pt.migCtl % 2 = 0 := by decide
theorem witness_PagesMoveBetweenFramesAndThePool_victim :
    let s := migrating 2 3 [5]
    s.xl.pool.length < s.pt.migFreeLow ∧ s.pt.migFreeLow < s.pt.migFreeHigh ∧ victimFor s none = some ⟨0x40008, 0x10000, 0x10005, 1⟩ ∧
    (∀ l, held s l = false) ∧ ∀ a core, ¬Say.DirtyAt s core a :=
  ⟨by decide, by decide, by decide, fun _ => rfl, fun a core => clean_of rfl core a⟩
theorem witness_PagesMoveBetweenFramesAndThePool_note :
    let s := migrating 1 2 [5, 6, 7]
    s.pt.migFreeHigh < s.xl.pool.length ∧ s.liveCtx 0 = true ∧ (xlateNow s 0 0 (2 * 2 ^ 16) .read).1 = .far 0x40010 0x60080 ∧
    entOf 0 0 (memNat s 0x40010 8) = .leaf 3 16 0 false false 6 0 ∧ s.xl.parks = [] := by decide

/-- A park of frame 1, its record at 0x60040; a recall of page 2 to frame 5, its leaf at 0x40010, with the page in the pool. -/
def parking : State := tables.updXL (fun x => { x with parks := [(4, { leafPa := 0x40008, recPa := 0x60040, oldLeaf := 0x10005, va := 0x10000, frame := 1 })] })
theorem witness_PagesMoveBetweenFramesAndThePool_park : parking.xl.parks.find 4 = some ⟨0x40008, 0x60040, 0x10005, 0x10000, 1, none⟩ ∧
    frameBusy parking 1 = false ∧ parking.mm.claims = [] ∧ parking.mm.l1 = [] ∧ 0x10005 / 64 % 4 = 0 := by decide
def recallNow : RecallOp := { leafPa := 0x40010, recPa := 0x60080, frame := some 5 }
def recalling (leaf : List Byte) : State :=
  (setMemBytes tables 0x40010 leaf).updXL (fun x => { x with recalls := [(4, recallNow)], poolPages := [(0, { bytes := List.replicate 65536 7 })] })
theorem witness_PagesMoveBetweenFramesAndThePool_recall : (∀ l ∈ [[7, 0, 6], [5, 0, 6]], (recalling l).xl.recalls.find 4 = some recallNow ∧
      (recalling l).mm.claims = [] ∧ (recalling l).mm.l1 = [] ∧ (recalling l).liveCtx (memNat (recalling l) 0x6008E 2) = true ∧ (recalling l).cx.jobs = []) ∧
    entOf 0 0 (memNat (recalling [7, 0, 6]) 0x40010 8) = .leaf 3 16 0 false false (0x60080 / 2 ^ 16) 0 ∧
    entOf 0 0 (memNat (recalling [5, 0, 6]) 0x40010 8) = .leaf 2 16 0 false false 6 0 ∧
    memNat (recalling [7, 0, 6]) 0x60088 2 * 2 ^ 64 + memNat (recalling [7, 0, 6]) 0x60080 8 = 0 ∧ memNat (recalling [7, 0, 6]) 0x40010 8 / 64 % 4 = 0 := by decide
theorem witness_PagesMoveBetweenFramesAndThePool_page : (List.replicate 65536 (7 : Byte)).length = 65536 := List.length_replicate ..

/-- An object of one kernel of one word at 0x1000; a launch record of one thread of it, and one of no thread. -/
def objBytes : List Byte := bytesOfNat 4 0x4B414E4F ++ bytesOfNat 2 1 ++ bytesOfNat 2 1 ++ bytesOfNat 4 192 ++ bytesOfNat 4 64 ++ bytesOfNat 4 128 ++
  bytesOfNat 4 8 ++ bytesOfNat 40 0 ++ (bytesOfNat 4 0 ++ bytesOfNat 4 8 ++ bytesOfNat 24 8) ++ bytesOfNat 32 0 ++ bytesOfNat 64 5
def recBytes (code gx : Nat) : List Byte := bytesOfNat 8 code ++ bytesOfNat 8 0 ++ bytesOfNat 4 gx ++ bytesOfNat 2 1 ++ bytesOfNat 2 1 ++ bytesOfNat 2 1 ++
  bytesOfNat 1 1 ++ bytesOfNat 101 0
def queued (code gx : Nat) (f : Ctx → Ctx) : State := ((withBytes 0x1000 objBytes one).updCtx 0 f).updPT (fun p => { p with queues := [(5, { recs := [{ bytes := recBytes code gx }] })] })
theorem witness_GridsAreAcceptedPlacedRunAndCompleted_accept :
    let s := queued 0x1000 1 id
    let f := fieldOf (recBytes 0x1000 1)
    (queueOf s 5).recs = [] ++ { bytes := recBytes 0x1000 1 } :: [] ∧ s.liveCtx 0 = true ∧ isResetting s 0 = false ∧ isFrozen s 0 = false ∧ f 0 8 = 0x1000 ∧
    objHeaderOk (objBytes.take 64) = true ∧ f 8 2 < fieldOf (objBytes.take 64) 6 2 ∧ kernelOk (objBytes.take 64) ((objBytes.drop 64).take 32) (f 8 2) = true ∧
    recordReason s 0 (recBytes 0x1000 1) ((objBytes.drop 64).take 32) = 0 ∧ f 0x30 4 = 0 ∧ objHeaderOk (List.replicate 64 0) = false ∧
    recordReason s 0 (recBytes 0x1000 0) ((objBytes.drop 64).take 32) = 3 ∧ fieldOf (objBytes.take 64) 8 4 = 192 ∧ fieldOf (objBytes.take 64) 0x0C 4 = 64 ∧
    isFrozen (queued 0x1000 1 (fun c => { c with frozen := true })) 0 = true ∧ isResetting (queued 0x1000 1 (fun c => { c with resetting := true })) 0 = true ∧
    fieldOf (recBytes 0x1001 1) 0 8 % 4096 ≠ 0 := by decide
theorem queued_reads (va n : Nat) (l : List Byte) (hn : l.length = n) (hv : va + n ≤ 65536)
    (h : ∀ i < n, l.getD i 0 = memByte (queued 0x1000 1 id) (0x10000 + (va + i))) : Say.Readable (queued 0x1000 1 id) 0 va n l := by
  subst hn; exact readable_of _ _ _ _ (by rfl) hv rfl rfl rfl h
theorem witness_GridsAreAcceptedPlacedRunAndCompleted_object : Say.Readable (queued 0x1000 1 id) 0 0x1000 64 (objBytes.take 64) ∧
    Say.Readable (queued 0x1000 1 id) 0 (0x1000 + 64) 32 ((objBytes.drop 64).take 32) ∧ Say.Readable (queued 0x1000 1 id) 0 0x1000 192 objBytes ∧
    Say.Readable (queued 0x1000 1 id) 0 0 0 [] ∧ Say.Readable (queued 0x1000 1 id) 0 0 64 (List.replicate 64 0) :=
  ⟨queued_reads _ _ _ (by decide) (by omega) (by decide), queued_reads _ _ _ (by decide) (by omega) (by decide),
    queued_reads _ _ _ (by decide) (by omega) (by decide), queued_reads _ _ _ rfl (by omega) (by decide), queued_reads _ _ _ rfl (by omega) (by decide)⟩

/-- The root holds core 5 alone; a grid of one group of 1,024 threads, the whole register file and the whole scratchpad. -/
def bigGrid : Grid := { queue := 5, gx := 1, gsize := 1024, regs := 128, scratch := 524288, entry := 0x1080 }
def onCore5 (gr : NMap Grid) (k : WorkSt) : State := { State.reset with
  cx := { State.reset.cx with ctxs := [(0, { grant := { cores := 32, qCount := 64 } })] }
  wk := k
  pt := { State.reset.pt with grids := gr, queues := [(5, { recs := [{ grid := some 2 }] })] } }
theorem own_core5 (gr : NMap Grid) (k : WorkSt) (m : Nat) : ownCore (onCore5 gr k) 0 m = true ∨ (onCore5 gr k).pt.lent.find m = some 0 ↔ m = 5 := by
  have l : (onCore5 gr k).pt.lent = [] := rfl
  have g : ((onCore5 gr k).ctx 0).grant.cores = 2 ^ 5 := rfl
  have r : (onCore5 gr k).pt.retired = [] := rfl
  rw [ownCore, l, g, r, Nat.testBit_two_pow]
  simp [NMap.find, eq_comm]
theorem witness_GridsAreAcceptedPlacedRunAndCompleted_place :
    let s := onCore5 [(2, bigGrid)] {}
    (queueOf s 5).recs = [{ grid := some 2 }] ∧ s.pt.grids.find 2 = some bigGrid ∧ isFrozen s 0 = false ∧ isResetting s 0 = false ∧
    (s.ctx 0).extQ = [] ∧ bigGrid.placed < bigGrid.gx * bigGrid.gy * bigGrid.gz ∧ latchFits s 0 5 = true ∧ holders s 5 = [] := by decide
def awayGroup : Group := { grid := 2, span := 3, core := 5, resident := false, regs := 128, scratch := 524288, gsize := 1024 }
theorem witness_GridsAreAcceptedPlacedRunAndCompleted_return :
    let s := onCore5 [(2, { bigGrid with placed := 1 })] { groups := [(1, awayGroup)], spans := [(3, { grid := 2, groups := [1], placed := false })] }
    s.pt.grids.find 2 = some { bigGrid with placed := 1 } ∧ isFrozen s 0 = false ∧ isResetting s 0 = false ∧ leaving s 1 = false ∧ dirtyHeld s 5 = false ∧
    arrayFits s (needAgain s { bigGrid with placed := 1 } 1) 5 = true ∧ s.xl.reqs = [] ∧ s.wk.stops = [] ∧ s.en.mqueues = [] ∧ latchFits s 0 5 = true ∧
    awayGroup.rb % 8 = 0 ∧ 32 * 128 = 4096 ∧ awayGroup.spBase % 128 = 0 ∧ NMap.wf 0 s.mm.spad = true := by decide

/-- A quarter with nothing to run, and two threads of a group at its frontier. -/
def atFrontier : State := (one.updWK (fun w => { w with warps := [], quarters := [] })).updRG (fun r => { r with
  threads := [(thKey 1 0 0, { pc := 8 }), (thKey 1 4 31, { pc := 8 })] })
theorem witness_GridsAreAcceptedPlacedRunAndCompleted_select :
    atFrontier.wk.quarters.find 0 = none ∧ atFrontier.wk.groups = [(1, atFrontier.group 1)] ∧ (atFrontier.group 1).core = 0 ∧
    (atFrontier.group 1).resident = true ∧ isFrozen atFrontier 0 = false ∧ isResetting atFrontier 0 = false ∧ atFrontier.rg.hwarps = [] ∧
    (atFrontier.rg.threads.map (·.1)).Nodup ∧ (thKey 1 4 31, ({ pc := 8 } : Thread)) ∈ (groupThreads atFrontier 1).filter (fun y =>
      y.2.stat = .frontier && decide (y.1 / 32 % 32 % 4 = 0) && y.2.prio = 0 && y.2.pc = 8) ∧
    ∀ y ∈ groupThreads atFrontier 1, y.2.prio = 0 ∧ (8 : DWord).toNat ≤ y.2.pc.toNat := by decide
theorem witness_GridsAreAcceptedPlacedRunAndCompleted_preempt :
    one.wk.spans.find 1 = some { grid := 1, groups := [1] } ∧ mayPreempt one { grid := 1, groups := [1] } .slice = true ∧
    mayPreempt one { grid := 1, groups := [1] } .freeze = false ∧ one.wk.groups.find 1 = some (one.group 1) ∧ one.en.cmds = [] ∧
    ∀ th ∈ groupThreads one 1, th.2.restart.isOpen = false := by decide
/-- A grid that has ended, and one that has not; one with a result buffer of eight bytes at 0x1000 to extend. -/
def ended (n : Nat) (l : List (Nat × Nat)) : State :=
  { queued 0x1000 1 id with pt := { one.pt with grids := [(2, { gx := 2, ended := n, done := 0x80, cores := [0], hbufs := l })] } }
theorem witness_GridsAreAcceptedPlacedRunAndCompleted_complete :
    (∀ n ∈ [1, 2], (ended n []).pt.grids.find 2 = some { gx := 2, ended := n, done := 0x80, cores := [0] }) ∧ (ended 2 []).mm.l1 = [] ∧
    dirtyHeld (ended 2 []) 0 = false ∧ ((ended 2 []).ctx 0).extQ = [] ∧ ((ended 2 [(0x1000, 8)]).grid 2).hbufs.drop 0 = [(0x1000, 8)] ∧
    (ended 2 [(0x1000, 8)]).cx.ctxs.find 0 ≠ none := by decide
theorem witness_GridsAreAcceptedPlacedRunAndCompleted_buffer : Say.Readable (ended 2 [(0x1000, 8)]) 0 0x1000 8 (objBytes.take 8) :=
  readable_of _ _ _ (objBytes.take 8) (by rfl) (by decide) rfl rfl rfl (by decide)

/-! ### Witnesses: the host's messages -/

/-- Entry 0 for the root on queue pair 3, provisioned or open; entry 9 on queue pair 4. -/
def porting (standsOpen : Bool) : State := one.updPT (fun p => { p with
  tenants := [(0, { v := true, src := 7, qp := 3, imm := 0x80, qmask := 1, lastSeq := 4, standsOpen := standsOpen })] })
def portedTo9 : State := one.updPT (fun p => { p with tenants := [(9, { v := true, src := 7, qp := 4 })] })
def hostMsg (rkey qp : Nat) : HostMsg := ⟨7, qp, rkey, 0x1000, [1, 2]⟩
theorem porting_next (b : Bool) (src qp : Nat) : Say.NextOnItsPair (porting b) src qp := fun m h => by cases h
theorem witness_MessagesOfTheHostHaveTheirEffect_write : matchEntry (porting false) 7 3 = some 0 ∧ (tenantOf (porting false) 0).standsOpen = false ∧
    (hostMsg 1 3).rkey ≠ (tenantOf (porting false) 0).ctx ∧ (hostMsg 0 3).rkey = (tenantOf (porting false) 0).ctx ∧ (porting false).liveCtx 0 = true ∧
    matchEntry (porting false) 7 5 = none ∧ matchEntry (porting true) 9 3 = some 0 ∧ (tenantOf (porting true) 0).standsOpen = true := by decide
theorem witness_MessagesOfTheHostHaveTheirEffect_area : Say.Area (porting false) 0 0x1000 2 .write (fun i => 0x10000 + (0x1000 + i)) :=
  area_of _ _ _ _ _ (by rfl) (by omega) rfl rfl

/-- A command frame, and a launch frame of one record for queue 0, each with SEQ 5 and the tag that the entry's key gives it. -/
def commandBytes (code : Nat) : List Byte := bytesOfNat 4 0x444D4348 ++ bytesOfNat 1 code ++ bytesOfNat 3 0 ++ bytesOfNat 8 5
def launchBytes : List Byte := bytesOfNat 4 0x4C4E4348 ++ bytesOfNat 4 1 ++ bytesOfNat 8 5 ++ bytesOfNat 16 0 ++ recBytes 0x1000 1
def frameOf (qp : Nat) (b : List Byte) : FrameHdr := ⟨7, qp, b, Config.gmac 0 (bytesOfNat 8 5 ++ bytesOfNat 4 qp) b, true⟩
theorem witness_MessagesOfTheHostHaveTheirEffect_form :
    (∀ code ∈ [0x01, 0x02, 0x10, 0x11, 0x12, 0x13, 0x14, 0x15, 0x16, 0x17], commandForm code (frameOf 3 (commandBytes code)) = true) ∧
    launchForm launchBytes = true ∧ launchRecs launchBytes = [{ queue := 0, bytes := recBytes 0x1000 1 }] ∧ (frameOf 3 launchBytes).seq = 5 ∧
    (frameOf 3 (commandBytes 0x13)).seq = 5 ∧ launchForm [] = false := by decide
/-- Entry 0 accepts such a frame; entry 9 does where the part record verifies (log entry 8). -/
theorem accepted_0 (b : List Byte) (form : Bool) (hs : (frameOf 3 b).seq = 5) (h : form = true) : Say.Accepted (porting false) (frameOf 3 b) form 0 :=
  ⟨porting_next _ _ _, by rfl, by decide, by unfold tagHolds; exact decide_eq_true (by rw [hs]; rfl), by rw [hs]; decide, h⟩
theorem witness_MessagesOfTheHostHaveTheirEffect_command : ∀ code ∈ [0x01, 0x02, 0x10, 0x11, 0x12, 0x13, 0x14, 0x15, 0x16, 0x17],
    Say.Accepted (porting false) (frameOf 3 (commandBytes code)) (commandForm code (frameOf 3 (commandBytes code))) 0 :=
  fun code h => accepted_0 _ _ (by revert h; revert code; decide) (witness_MessagesOfTheHostHaveTheirEffect_form.1 code h)
theorem witness_MessagesOfTheHostHaveTheirEffect_launch : Say.Accepted (porting false) (frameOf 3 launchBytes) (launchForm (frameOf 3 launchBytes).bytes) 0 ∧
    isResetting (porting false) 0 = false ∧ localQueue (porting false) 0 0 = some 0 ∧ (tenantOf (porting false) 0).qmask.testBit 0 = true ∧
    (queueOf (porting false) 0).recs.length < 64 :=
  ⟨accepted_0 _ _ (by decide) (by decide), by decide, by decide, by decide, by decide⟩
theorem witness_MessagesOfTheHostHaveTheirEffect_records :
    frameOf 3 launchBytes = wholeFrame { frameOf 3 launchBytes with bytes := launchBytes.take 32 } [recBytes 0x1000 1] := by
  have e : launchBytes.take 32 ++ [recBytes 0x1000 1].flatten = launchBytes := by decide
  simp only [wholeFrame, e]
  rfl
theorem witness_MessagesOfTheHostHaveTheirEffect_other (hv : Config.recordVerifies = true) :
    Say.Accepted portedTo9 (frameOf 4 (commandBytes 0x15)) (commandForm 0x15 (frameOf 4 (commandBytes 0x15))) 9 := by
  refine ⟨(fun _ h => nomatch h), ?_, by decide, ?_, by decide, by decide⟩
  · simp [matchEntry, portedTo9, frameOf, State.updPT, hv]
  · unfold tagHolds; exact decide_eq_true rfl
theorem witness_MessagesOfTheHostHaveTheirEffect_refused :
    ((porting false).updPT (fun p => { p with inbox := [{ src := 7, qp := 3 }] })).pt.inbox.any (fun m => m.src = 7 && m.qp = 3) = true ∧
    (frameOf 3 (commandBytes 0x13)).seq ≤ (tenantOf ((porting false).updPT (fun p => { p with tenants := [(0, { v := true, src := 7, qp := 3, lastSeq := 5 })] })) 0).lastSeq := by
  decide

/-- What the commands of the root find: a slot without a key, a context 1 to arm, cores 0 and 383. -/
theorem witness_MessagesOfTheHostHaveTheirEffect_root : (porting false).pt.mkeys.find 255 = none ∧ (porting false).pt.fkeys.find 63 = none ∧
    (∀ f k, (f, k) ∈ [(false, 255), (true, 63)] → slotHolder (porting false) f k = 0) ∧ (List.replicate 96 (1 : Byte)).length = 96 ∧
    (family id).liveCtx 1 = true ∧ unitOk (.core 383) = true ∧ otherWorld (porting false) 0 0 = false ∧ isAncestor (porting false) 0 0 = true ∧
    (porting false).liveCtx 5 = false := by
  refine ⟨rfl, rfl, ?_, by decide, by decide, by decide, by decide, by decide, by decide⟩
  intro f k h
  simp only [List.mem_cons, List.not_mem_nil, or_false, Prod.mk.injEq] at h
  rcases h with ⟨rfl, rfl⟩ | ⟨rfl, rfl⟩ <;> decide
def exporting (sent : Bool) : State := (porting false).updPT (fun p => { p with exps := [(4, { sent := sent })] })
theorem witness_MessagesOfTheHostHaveTheirEffect_export : ∀ b, (exporting b).pt.exps.find 4 = some { sent := b } := fun _ => rfl
theorem witness_MessagesOfTheHostHaveTheirEffect_power : State.reset.pt.powered = true ∧ (one.updPT (fun p => { p with powered := false })).pt.powered = false := by
  decide

/-! ### Witnesses: steps -/

/-- Warp 1 stands at MOVI v1, 1.0, the last word of its line, which its core's instruction cache holds. -/
def moviBytes : List Byte := bytesOfNat 8 0x05AE03FE3F800000
def ready : State := (withWarp (fun w => { w with pc := 0x78 }) (withBytes 0x78 moviBytes one)).updMM (fun m => { m with
  icache := [(0, { bytes := List.replicate 120 0 ++ moviBytes, line := 512 })] })
def moviLine : CodeLine := { bytes := List.replicate 120 0 ++ moviBytes, line := 512 }
theorem witness_AStepRunsTheDecodedWordOrTheEvent :
    let x := ready.curWarp
    ready.md.agenda = [] ∧ ready.pt.powered = true ∧ ready.wk.warps.find ready.md.cur = some x ∧ canIssue ready ready.md.cur = true ∧ ready.wk.results = [] ∧
    ready.en.cmds = [] ∧ x.sUndo = [] ∧ x.pc = 0x78 ∧
    xlFor ready { x with park := .none, curOp := 0, eas := [] } 0x78 .fetch = some (.ok { pageA.xl with pa := 0x10078 }) ∧
    codeLine ready.mm.icache 0 (objOf ready x) 0 = some moviLine ∧ moviLine.bytes = memBytes ready (512 * 128) 128 ∧
    BitVec.ofNat 64 (natOfBytes ((moviLine.bytes.drop (0x10078 % 128)).take 8)) = 0x05AE03FE3F800000 ∧
    decodeWord (ready.group 1).regs 0x05AE03FE3F800000 = .ok (.movi h0 (.v 1) 0x3F800000) ∧
    breaksRun x (.movi h0 (.v 1) 0x3F800000) = false ∧ lastOnly (.movi h0 (.v 1) 0x3F800000) = false ∧
    roleOf 0x05AE03FE3F800000 &&& (ready.group 1).roles = roleOf 0x05AE03FE3F800000 ∧ mayRun ready (ready.group 1) 0x05AE03FE3F800000 = true ∧
    ready.pt.rowPoison = [] := by decide
theorem witness_AStepRunsTheDecodedWordOrTheEvent_event : isEvent .powerOn = true ∧ isEvent .powerLoss = true ∧
    (one.updMD (fun m => { m with agenda := [⟨3, .event .powerLoss⟩] })).md.agenda = [⟨3, .event .powerLoss⟩] := by decide
theorem witness_EveryStepKeepsTheMachineInForm : Say.InForm State.reset := ⟨by decide, by decide, by decide, by decide⟩
theorem witness_DecodingAndEncodingAgree : (Instr.movi h0 (.v 191) 0xFFFFFFFF).wellFormed 192 = true := by decide

/-! ### Single steps, with the results that the spec's own examples give -/

/-- What a word leaves in register `n` of thread 0, in a state whose registers hold words. -/
def wrote (i : Instr) (l : List (Nat × Word)) (n : Nat) : Option Word :=
  match exec i (withV l one) with
  | .next t => some (NMap.get 0 t.rg.v (vKey 1 0 n 0))
  | _ => none
/-- R206: `iadd.i8` of 112 and 32, and saturating; the high half of a product by signedness. -/
theorem test_step_iadd : wrote (.iadd h0 (.v 4) (.v 5) (.v 6) .i8 false) [(5, 0x70), (6, 0x20)] 4 = some 0xFFFFFF90 ∧
    wrote (.iadd h0 (.v 4) (.v 5) (.v 6) .i8 true) [(5, 0x70), (6, 0x20)] 4 = some 0x7F ∧
    wrote (.iadd h0 (.v 4) (.v 5) (.v 6) .i8 true) [(5, 0xFFFFFF80), (6, 0x1FF)] 4 = some 0xFFFFFF80 := by decide
theorem test_step_imulh : wrote (.imulh h0 (.v 4) (.v 5) (.v 6) .i32) [(5, 0xFFFFFFFE), (6, 0x40000000)] 4 = some 0xFFFFFFFF ∧
    wrote (.imulh h0 (.v 4) (.v 5) (.v 6) .n32) [(5, 0xFFFFFFFE), (6, 0x40000000)] 4 = some 0x3FFFFFFF := by decide
theorem test_step_isub : wrote (.isub h0 (.v 4) (.v 5) (.v 6) .n16 false) [(5, 5), (6, 9)] 4 = some 0xFFFC ∧
    wrote (.isub h0 (.v 4) (.v 5) (.v 6) .n16 true) [(5, 5), (6, 9)] 4 = some 0 := by decide
/-- R243: conversions of 3.0e9, NaN and -2.5, and of 300. -/
theorem test_step_cvt : wrote (.cvt h0 (.v 2) (.v 1) (.int .i32) (.flt .f32) .rn .none false false) [(1, 0x4F32D05E)] 2 = some 0x7FFFFFFF ∧
    wrote (.cvt h0 (.v 2) (.v 1) (.int .i32) (.flt .f32) .rn .none false false) [(1, 0x7FC00000), (2, 5)] 2 = some 0 ∧
    wrote (.cvt h0 (.v 2) (.v 1) (.int .i32) (.flt .f32) .rd .none false false) [(1, 0xC0200000)] 2 = some 0xFFFFFFFD ∧
    wrote (.cvt h0 (.v 2) (.v 1) (.int .i8) (.int .n32) .rn .none true false) [(1, 300)] 2 = some 0x7F := by decide
/-- R245: 65,520 and -0.1, whose word is 0xBDCC_CCCD (the spec's own 0x3DCC_CCCD is 0.1); 65,520 rounds beyond F16's range, and to 65,504 under `.rz`. -/
theorem test_step_pack2 : wrote (.pack2 h0 (.v 4) (.v 5) (.v 6) .f16 .rn .none .none false false) [(5, 0x477FF000), (6, 0xBDCCCCCD)] 4 = some 0xAE667C00 ∧
    wrote (.pack2 h0 (.v 4) (.v 5) (.v 6) .f16 .rz .none .none false false) [(5, 0x477FF000), (6, 0xBDCCCCCD)] 4 = some 0xAE667BFF := by decide
/-- What a word leaves in predicate 1 of thread 0. -/
def predAfter (i : Instr) (l : List (Nat × Word)) : Option Bool :=
  match exec i (withV l one) with
  | .next t => some (NMap.get false t.rg.p (pKey 1 0 1 0))
  | _ => none
/-- R214: 0xFF is below 1 under `.i8` and not under `.n8`. R231: an unordered condition holds with NaN. -/
theorem test_step_icmp : predAfter (.icmp h0 1 (.v 2) (.v 3) .i8 .lt) [(2, 0xFF), (3, 1)] = some true ∧
    predAfter (.icmp h0 1 (.v 2) (.v 3) .n8 .lt) [(2, 0xFF), (3, 1)] = some false := by decide
theorem test_step_fcmp : predAfter (.fcmp h0 1 (.v 2) (.v 3) .f32 .none .none false .ltu) [(2, 0x7FC00000)] = some true ∧
    predAfter (.fcmp h0 1 (.v 2) (.v 3) .f32 .none .none false .eq) [(2, 0x80000000)] = some true := by decide
/-- R359: the offset of a branch counts words from its own word. R363: TRAP raises a fault, and its thread stands at the word. -/
theorem test_step_bra : (match exec (.bra ⟨true, false, false, 7⟩ false 0 2) one with
    | .next t => (t.rg.threads.find (thKey 1 0 0)).map (·.pc)
    | _ => none) = some 0x10 := by decide
theorem test_step_trap : (match exec (.trap h0 0x42) one with
    | .next t => t.wk.stops.map (·.2.gi)
    | _ => []) = [1] := by decide
/-- R466: power loss takes the registers and the tables. -/
theorem test_step_power_loss : (match step (one.updMD (fun m => { m with agenda := [⟨0, .event .powerLoss⟩] })) with
    | .next t => decide (t.pt.powered = false ∧ t.rg = {})
    | _ => false) = true := by decide
/-- A word placed at the fetch is the next that runs (log entry 13). -/
theorem test_step_placed : (match step (State.reset.withFetchWord 64 0x05AE03FE3F800000) with
    | .next t => t.rg.v.map (·.2)
    | _ => []) = [0x3F800000] := by decide

end Sys2Proof.Tests
end

section
/-!
SUPPORT. O59: every step keeps the machine in form. One rule per function of the model that answers a state: from a state in form
it leaves one in form. A rule's proof follows the function's own branches and cites the rules of the functions it calls; only the
rules of the first part, and those of the few functions that write memory, scratchpads, clocks or the cap, look at the state.
-/
namespace Sys2Proof.Machine

open Say

-- The rules are many and short: elaborated one after the other, they need one thread's stack and no more.
set_option Elab.async false

/-! ### What a change of state, a branch, a fold and an answer keep -/

theorem inForm_of_parts {s t : State} (h : InForm s) (hm : t.mm.mem = s.mm.mem := by rfl) (hs : t.mm.spad = s.mm.spad := by rfl)
    (hc : t.pt.clocks = s.pt.clocks := by rfl) (hp : t.pt.powerCap = s.pt.powerCap := by rfl) : InForm t :=
  ⟨by rw [hm]; exact h.memory, by rw [hs]; exact h.scratch, by rw [hc]; exact h.clocks, by rw [hp]; exact h.cap⟩

theorem inForm_of_still {s t : State} (h : InForm s) (hm : t.mm = s.mm := by rfl) (hp : t.pt = s.pt := by rfl) : InForm t :=
  inForm_of_parts h (by rw [hm]) (by rw [hm]) (by rw [hp]) (by rw [hp])

theorem inForm_updMD {s : State} {f : ModelSt → ModelSt} (h : InForm s) : InForm (s.updMD f) := inForm_of_still h
theorem inForm_updRG {s : State} {f : RegSt → RegSt} (h : InForm s) : InForm (s.updRG f) := inForm_of_still h
theorem inForm_updWK {s : State} {f : WorkSt → WorkSt} (h : InForm s) : InForm (s.updWK f) := inForm_of_still h
theorem inForm_updXL {s : State} {f : XlSt → XlSt} (h : InForm s) : InForm (s.updXL f) := inForm_of_still h
theorem inForm_updEN {s : State} {f : EngSt → EngSt} (h : InForm s) : InForm (s.updEN f) := inForm_of_still h
theorem inForm_updFB {s : State} {f : FabSt → FabSt} (h : InForm s) : InForm (s.updFB f) := inForm_of_still h
theorem inForm_updCX {s : State} {f : CtxSt → CtxSt} (h : InForm s) : InForm (s.updCX f) := inForm_of_still h

/-- A change of memory's other parts. -/
theorem inForm_updMM {s : State} {f : MemSt → MemSt} (h : InForm s) (hm : ∀ m, (f m).mem = m.mem := by intro; rfl)
    (hs : ∀ m, (f m).spad = m.spad := by intro; rfl) : InForm (s.updMM f) := inForm_of_parts h (hm s.mm) (hs s.mm)

/-- A change of memory and the scratchpads that keeps their canonical form. -/
theorem inForm_updMM_of {s : State} {f : MemSt → MemSt} (h : InForm s) (hm : ∀ m, Memory.wf m.mem = true → Memory.wf (f m).mem = true)
    (hs : ∀ m, NMap.wf 0 m.spad = true → NMap.wf 0 (f m).spad = true) : InForm (s.updMM f) :=
  ⟨hm s.mm h.memory, hs s.mm h.scratch, h.clocks, h.cap⟩

/-- A change of the part's other registers. -/
theorem inForm_updPT {s : State} {f : PartSt → PartSt} (h : InForm s) (hc : ∀ p, (f p).clocks = p.clocks := by intro; rfl)
    (hp : ∀ p, (f p).powerCap = p.powerCap := by intro; rfl) : InForm (s.updPT f) := inForm_of_parts h rfl rfl (hc s.pt) (hp s.pt)

theorem inForm_ite {c : Prop} {_ : Decidable c} {s t : State} (hs : InForm s) (ht : InForm t) : InForm (if c then s else t) := by
  split
  · exact hs
  · exact ht

theorem inForm_ite_snd {α : Type} {c : Prop} {_ : Decidable c} {p q : α × State} (hp : InForm p.2) (hq : InForm q.2) :
    InForm (if c then p else q).2 := by
  split
  · exact hp
  · exact hq

theorem inForm_ite_trd {α β : Type} {c : Prop} {_ : Decidable c} {p q : α × β × State} (hp : InForm p.2.2) (hq : InForm q.2.2) :
    InForm (if c then p else q).2.2 := by
  split
  · exact hp
  · exact hq

/-- A state that several branches start from is in form once for all of them. -/
theorem inForm_share {s : State} {p : Prop} (h : InForm s) (k : InForm s → p) : p := k h

theorem inForm_pair {α : Type} {a : α} {s : State} (h : InForm s) : InForm (a, s).2 := h

/-- The state of a pair that an operation answers. -/
theorem inForm_snd {α : Type} {p : α × State} {a : α} {s : State} (e : p = (a, s)) (h : InForm p.2) : InForm s := by
  subst e
  exact h

theorem inForm_trd {α β : Type} {p : α × β × State} {a : α} {b : β} {s : State} (e : p = (a, b, s)) (h : InForm p.2.2) : InForm s := by
  subst e
  exact h

theorem inForm_foldl {β : Type} {f : State → β → State} {l : List β} {s : State} (h : InForm s)
    (hf : ∀ s x, InForm s → InForm (f s x)) : InForm (l.foldl f s) := by
  induction l generalizing s with
  | nil => exact h
  | cons x l ih => exact ih (hf s x h)

theorem inForm_foldl_snd {α β : Type} {f : α × State → β → α × State} {l : List β} {p : α × State} (h : InForm p.2)
    (hf : ∀ p x, InForm p.2 → InForm (f p x).2) : InForm (l.foldl f p).2 := by
  induction l generalizing p with
  | nil => exact h
  | cons x l ih => exact ih (hf p x h)


theorem inForm_foldl_trd {α β γ : Type} {f : α × β × State → γ → α × β × State} {l : List γ} {p : α × β × State} (h : InForm p.2.2)
    (hf : ∀ p x, InForm p.2.2 → InForm (f p x).2.2) : InForm (l.foldl f p).2.2 := by
  induction l generalizing p with
  | nil => exact h
  | cons x l ih => exact ih (hf p x h)

/-- The state that a lane's answer leaves. -/
def LaneOut.state : LaneOut → State
  | .ok _ s | .bad _ _ s | .park _ s | .hold _ s | .request _ _ _ s | .far _ _ _ s => s

/-- The state that the translation of a lane's image leaves. -/
def Image.state : Image → State
  | .at _ s => s
  | .out r => r.state

/-- The state that a word's issue leaves. -/
def Issued.state : Issued → State
  | .exec _ _ s | .done s => s

theorem inForm_ok {v : Nat} {s : State} (h : InForm s) : InForm (LaneOut.ok v s).state := h
theorem inForm_bad {code : Nat} {a : Option Nat} {s : State} (h : InForm s) : InForm (LaneOut.bad code a s).state := h
theorem inForm_park {p : Park} {s : State} (h : InForm s) : InForm (LaneOut.park p s).state := h

theorem inForm_lane {o o' : LaneOut} (e : o = o') (h : InForm o.state) : InForm o'.state := e ▸ h
theorem inForm_image {o o' : Image} (e : o = o') (h : InForm o.state) : InForm o'.state := e ▸ h

theorem inForm_ite_lane {c : Prop} {_ : Decidable c} {p q : LaneOut} (hp : InForm p.state) (hq : InForm q.state) :
    InForm (if c then p else q).state := by
  split
  · exact hp
  · exact hq

theorem inForm_done {s : State} (h : InForm s) : InForm (Issued.done s).state := h
theorem inForm_issued {o o' : Issued} (e : o = o') (h : InForm o.state) : InForm o'.state := e ▸ h

theorem inForm_ite_issued {c : Prop} {_ : Decidable c} {p q : Issued} (hp : InForm p.state) (hq : InForm q.state) :
    InForm (if c then p else q).state := by
  split
  · exact hp
  · exact hq

/-- An outcome leaves the machine in form. -/
def FormOut (o : Out) : Prop := ∀ t, o = .next t → InForm t

theorem formOut_next {s : State} (h : InForm s) : FormOut (.next s) := by
  rintro _ ⟨⟩
  exact h

theorem formOut_ite {c : Prop} {_ : Decidable c} {o p : Out} (ho : FormOut o) (hp : FormOut p) : FormOut (if c then o else p) := by
  split
  · exact ho
  · exact hp

/-! ### Rules for the functions of Machine/Regs.lean -/

theorem inForm_updWarp {s : State} {id : Nat} {f : Warp → Warp} (h : InForm s) : InForm (s.updWarp id f) :=
  inForm_of_still h

theorem inForm_updGroup {s : State} {id : Nat} {f : Group → Group} (h : InForm s) : InForm (s.updGroup id f) :=
  inForm_of_still h

theorem inForm_updThread {s : State} {key : Nat} {f : Thread → Thread} (h : InForm s) : InForm (s.updThread key f) :=
  inForm_of_still h

theorem inForm_updHWarp {s : State} {key : Nat} {f : HWarp → HWarp} (h : InForm s) : InForm (s.updHWarp key f) :=
  inForm_of_still h

theorem inForm_fresh {s : State} (h : InForm s) : InForm (s.fresh).2 :=
  inForm_of_still h

theorem inForm_drawFree {s : State} (h : InForm s) : InForm (s.drawFree).2 :=
  inForm_of_still h

theorem inForm_pick {s : State} {n : Nat} (h : InForm s) : InForm (s.pick n).2 :=
  inForm_drawFree h

theorem inForm_coin {s : State} (h : InForm s) : InForm (s.coin).2 :=
  inForm_drawFree h

theorem inForm_writeLane {s : State} {wid p : Nat} {e : LaneEnt} {r : Reg} {width val : Nat} (h : InForm s) :
    InForm (writeLane s wid p e r width val) := by
  unfold writeLane
  split
  · exact inForm_ite (inForm_updWarp h) (inForm_updWarp (inForm_of_still h))
  · exact inForm_updWarp h
  · exact h
  · exact h
  · exact h

theorem inForm_writeS {s : State} {wid n width val : Nat} (h : InForm s) : InForm (writeS s wid n width val) :=
  inForm_of_still h

theorem inForm_writeDst {s : State} {wid : Nat} {r : Reg} {width : Nat} {vals : List (Nat × LaneEnt × Nat)} (h : InForm s) :
    InForm (writeDst s wid r width vals) := by
  unfold writeDst
  split
  · split
    · exact inForm_writeS h
    · exact h
  · exact inForm_foldl h fun _ _ h => inForm_writeLane h
  · exact inForm_foldl h fun _ _ h => inForm_writeLane h
  · exact inForm_foldl h fun _ _ h => inForm_writeLane h
  · exact inForm_foldl h fun _ _ h => inForm_writeLane h

theorem inForm_writePred {s : State} {wid p : Nat} {e : LaneEnt} {i : Nat} {b : Bool} (h : InForm s) : InForm (writePred s wid p e i b) :=
  inForm_ite h (inForm_ite (inForm_updWarp h) (inForm_of_still h))

theorem inForm_writePreds {s : State} {wid i : Nat} {vals : List (Nat × LaneEnt × Bool)} (h : InForm s) :
    InForm (writePreds s wid i vals) :=
  inForm_foldl h fun _ _ h => inForm_writePred h

theorem inForm_setGen {s : State} {gi : Nat} {e : LaneEnt} {x : Word} (h : InForm s) : InForm (setGen s gi e x) :=
  inForm_updThread h

theorem inForm_setK {s : State} {gi h k : Nat} {v : Word} (hs : InForm s) : InForm (setK s gi h k v) :=
  inForm_of_still hs

theorem inForm_setSb {s : State} {gi h c n : Nat} (hs : InForm s) : InForm (setSb s gi h c n) :=
  inForm_of_still hs

/-! ### Rules for the functions of Machine/Mem.lean -/

theorem inForm_setMemByte {s : State} {pa : Nat} {b : Byte} (h : InForm s) : InForm (setMemByte s pa b) :=
  ⟨NMap.wf_set 0 s.mm.mem pa b h.memory, h.scratch, h.clocks, h.cap⟩

theorem inForm_setMemBytes {s : State} {pa : Nat} {l : List Byte} (h : InForm s) : InForm (setMemBytes s pa l) :=
  inForm_foldl h fun _ _ h => inForm_setMemByte h

theorem inForm_updFrame {s : State} {f : Nat} {g : Frame → Frame} (h : InForm s) : InForm (State.updFrame s f g) :=
  inForm_of_still h

theorem inForm_sendDrop {s : State} {core line : Nat} {words : List Nat} (h : InForm s) : InForm (sendDrop s core line words) :=
  inForm_ite h (inForm_updMM (inForm_fresh h))

theorem inForm_llcEvict {s : State} {line : Nat} (h : InForm s) : InForm (llcEvict s line) := by
  unfold llcEvict
  split
  · exact h
  · exact inForm_updMM (inForm_foldl h fun _ _ h => inForm_sendDrop h)

theorem inForm_llcEnsure {s : State} {line : Nat} (h : InForm s) : InForm (llcEnsure s line) := by
  unfold llcEnsure
  dsimp only
  split
  · exact h
  · exact inForm_updFrame (inForm_updMM (inForm_ite (inForm_llcEvict (inForm_pick h)) h))

theorem inForm_poisonGranule {s : State} {g : Nat} (h : InForm s) : InForm (poisonGranule s g) := by
  unfold poisonGranule
  exact inForm_updMM (inForm_llcEnsure h)

theorem inForm_regWord {s : State} {core line : Nat} {own : Bool} {w : DirWord} (h : InForm s) : InForm (regWord s core line own w) := by
  unfold regWord
  refine inForm_share ?_ fun k => inForm_ite (inForm_poisonGranule (inForm_updMM k)) (inForm_updMM k)
  split
  · exact inForm_ite (inForm_setMemBytes (inForm_llcEnsure h)) (inForm_sendDrop (inForm_setMemBytes (inForm_llcEnsure h)))
  · exact inForm_setMemBytes (inForm_llcEnsure h)

theorem inForm_setL1 {s : State} {core line : Nat} {f : L1Line → L1Line} (h : InForm s) : InForm (setL1 s core line f) :=
  inForm_updMM h

theorem inForm_countReq {s : State} {ctx page core : Nat} {write : Bool} (h : InForm s) : InForm (countReq s ctx page core write) :=
  inForm_updMM h

theorem inForm_flushWords {s : State} {core line : Nat} {only : Option (List Nat)} (h : InForm s) : InForm (flushWords s core line only) :=
  inForm_ite h (inForm_setL1 (inForm_foldl (inForm_countReq h) fun _ _ h => inForm_regWord h))

theorem inForm_flushLine {s : State} {core line : Nat} (h : InForm s) : InForm (flushLine s core line) :=
  inForm_flushWords h

theorem inForm_queueWords {s : State} {core line : Nat} {only : Option (List Nat)} (h : InForm s) : InForm (queueWords s core line only) :=
  inForm_ite h (inForm_updMM (inForm_countReq (inForm_fresh h)))

theorem inForm_giveBack {s : State} {core line : Nat} {only : Option (List Nat)} (h : InForm s) : InForm (giveBack s core line only) := by
  unfold giveBack
  exact inForm_setL1 (inForm_updMM (inForm_ite (inForm_queueWords h) (inForm_flushWords h)))

theorem inForm_l1Evict {s : State} {core line : Nat} (h : InForm s) : InForm (l1Evict s core line) :=
  inForm_giveBack h

theorem inForm_l1Room {s : State} {core line : Nat} (h : InForm s) : InForm (l1Room s core line) := by
  unfold l1Room
  split
  · exact h
  · refine inForm_ite ?_ h
    split
    · exact inForm_l1Evict h
    · exact h

theorem inForm_l1Touch {s : State} {core line rank ctx page : Nat} (h : InForm s) : InForm (l1Touch s core line rank ctx page) := by
  unfold l1Touch
  exact inForm_setL1 (inForm_updMM h)

theorem inForm_l1Fill {s : State} {core line rank ctx page : Nat} (h : InForm s) : InForm (l1Fill s core line rank ctx page) :=
  inForm_l1Touch (inForm_setL1 (inForm_l1Room (inForm_llcEnsure (inForm_countReq h))))

theorem inForm_dropHalves {s : State} {core pa n : Nat} (h : InForm s) : InForm (dropHalves s core pa n) :=
  inForm_ite h (inForm_setL1 h)

theorem inForm_l1StoreWord {s : State} {core ctx page rank wa : Nat} {bytes : List (Nat × Byte × Nat)} (h : InForm s) :
    InForm (l1StoreWord s core ctx page rank wa bytes) := by
  unfold l1StoreWord
  refine inForm_l1Touch (inForm_setL1 ?_)
  split
  · exact inForm_l1Room h
  · exact inForm_setL1 (inForm_ite (inForm_l1Room h) (inForm_llcEnsure (inForm_countReq (inForm_l1Room h))))

theorem inForm_applyDrop {s : State} {d : DropItem} (h : InForm s) : InForm (applyDrop s d) :=
  inForm_setL1 h

theorem inForm_receiveDrops {s : State} {core : Nat} {line : Option Nat} (h : InForm s) : InForm (receiveDrops s core line) :=
  inForm_foldl h fun _ _ h => inForm_applyDrop (inForm_updMM h)

theorem inForm_acquireL1 {s : State} {core : Nat} (h : InForm s) : InForm (acquireL1 s core) :=
  inForm_updMM (inForm_receiveDrops h)

theorem inForm_sendLine {s : State} {core line : Nat} {only : Option (List Nat)} {work : Option Nat} (h : InForm s) :
    InForm (sendLine s core line only work).2 :=
  inForm_ite_snd (inForm_pair h) (inForm_pair (inForm_setL1 (inForm_updMM (inForm_countReq (inForm_fresh h)))))

theorem inForm_sendAll {s : State} {core : Nat} (h : InForm s) : InForm (sendAll s core).2 :=
  inForm_foldl_snd h fun _ _ h => inForm_sendLine h

theorem inForm_takeLine {s : State} {line : Nat} (h : InForm s) : InForm (takeLine s line) := by
  unfold takeLine
  exact inForm_updMM (inForm_foldl (inForm_foldl (inForm_llcEnsure h) fun _ _ h => inForm_flushLine h) fun _ _ h => inForm_applyDrop h)

theorem inForm_engWrite {s : State} {pa : Nat} {l : List Byte} (h : InForm s) : InForm (engWrite s pa l) := by
  unfold engWrite
  exact inForm_updMM (inForm_setMemBytes (inForm_foldl h fun _ _ h => inForm_llcEnsure h))

theorem inForm_flushCore {s : State} {core : Nat} (h : InForm s) : InForm (flushCore s core) :=
  inForm_foldl h fun _ _ h => inForm_flushLine h

theorem inForm_partWrite {s : State} {pa : Nat} {l : List Byte} (h : InForm s) : InForm (partWrite s pa l) :=
  inForm_engWrite (inForm_foldl h fun _ _ h => inForm_takeLine h)

/-! ### Rules for the functions of Machine/Xlate.lean -/

theorem inForm_updCtx {s : State} {id : Nat} {f : Ctx → Ctx} (h : InForm s) : InForm (s.updCtx id f) :=
  inForm_of_still h

theorem inForm_orEntry {s : State} {pa bits : Nat} (h : InForm s) : InForm (orEntry s pa bits) := by
  unfold orEntry
  refine inForm_ite h (inForm_updMM (inForm_setMemBytes ?_))
  split
  · exact inForm_sendDrop (inForm_llcEnsure h)
  · exact inForm_llcEnsure h

theorem inForm_markLeaves {s : State} {leaves : List Nat} {write : Bool} (h : InForm s) : InForm (markLeaves s leaves write) :=
  inForm_foldl h fun _ _ h => inForm_orEntry h

/-- What translating in the stages below must keep, for a stage's walk to keep it. -/
def WalksInForm (tr : AccKind → Nat → WAcc → XRes × WAcc) : Prop := ∀ k a acc, InForm acc.s → InForm (tr k a acc).2.s

theorem inForm_readEntry {tr : AccKind → Nat → WAcc → XRes × WAcc} {id stage level addr ea : Nat} {acc : WAcc}
    (htr : WalksInForm tr) (h : InForm acc.s) : InForm (readEntry tr id stage level addr ea acc).2.s := by
  have hsub := htr .read ea { acc with leaves := [] } h
  unfold readEntry
  split
  · rename_i x sub e
    rw [e] at hsub
    have hs : InForm (llcEnsure (markLeaves sub.s sub.leaves false) (x.pa / 128)) := inForm_llcEnsure (inForm_markLeaves hsub)
    dsimp only
    split
    · exact hs
    · split
      · exact hs
      · exact inForm_ite_snd hs (inForm_drawFree hs)
  · rename_i e
    rw [e] at hsub
    exact hsub

theorem inForm_useLeaf {tr : AccKind → Nat → WAcc → XRes × WAcc} {id stage level addr ea epa : Nat} {kind : AccKind}
    {ty size attr : Nat} {w x : Bool} {frame key : Nat} {acc : WAcc} (htr : WalksInForm tr) (h : InForm acc.s) :
    InForm (useLeaf tr id stage level addr ea epa kind ty size attr w x frame key acc).2.s := by
  unfold useLeaf
  split
  · exact h
  · split
    · dsimp only
      split
      · exact h
      · split <;> exact h
    · dsimp only
      split
      · split <;> exact h
      · have hout := htr kind (frame * 2 ^ 16 + addr % 2 ^ size)
          { acc with leaves := epa :: acc.leaves, used := (id, addr, size) :: acc.used } h
        split
        · rename_i e
          rw [e] at hout
          split <;> exact hout
        · exact hout

theorem inForm_stageWalk {tr : AccKind → Nat → WAcc → XRes × WAcc} {id stage xroot : Nat} {kind : AccKind} {addr : Nat} {acc : WAcc}
    (htr : WalksInForm tr) (h : InForm acc.s) : InForm (stageWalk tr id stage xroot kind addr acc).2.s := by
  have step : ∀ {level ea : Nat} {a b : WAcc} {r : Except XRes (Nat × Nat)}, InForm a.s →
      readEntry tr id stage level addr ea a = (r, b) → InForm b.s := by
    intro level ea a b r ha e
    have hb := inForm_readEntry (id := id) (stage := stage) (level := level) (addr := addr) (ea := ea) htr ha
    rwa [e] at hb
  unfold stageWalk
  dsimp only
  split
  · exact h
  split
  · exact h
  split
  · rename_i e2
    exact step h e2
  rename_i e2
  have h2 := step h e2
  split
  · exact h2
  · exact h2
  · exact h2
  split
  · rename_i e1
    exact step h2 e1
  rename_i e1
  have h1 := step h2 e1
  split
  · exact h1
  · exact h1
  · exact inForm_useLeaf htr h1
  split
  · rename_i e0
    exact step h1 e0
  rename_i e0
  have h0 := step h1 e0
  split
  · exact h0
  · exact h0
  · exact h0
  · exact inForm_useLeaf htr h0

/-- A walk through every stage of a chain of contexts. -/
theorem inForm_walkChain {l : List (Nat × Ctx)} : WalksInForm (walkChain l) := by
  induction l with
  | nil => exact fun _ _ _ h => h
  | cons c l ih => exact fun _ _ _ h => inForm_stageWalk ih h

theorem inForm_frameCheck {s : State} {ctx : Nat} {t : Xl} (h : InForm s) : InForm (frameCheck s ctx t).2 :=
  inForm_ite_snd (inForm_pair h) (inForm_ite_snd (inForm_pair h) (inForm_ite_snd (inForm_pair h)
      (inForm_ite_snd (inForm_pair h) (inForm_ite_snd (inForm_pair h) (inForm_ite_snd (inForm_pair h)
      (inForm_ite_snd (inForm_pair h) (inForm_pair (inForm_updFrame h))))))))

theorem inForm_noteDirty {s : State} {ctx : Nat} {used : List (Nat × Nat × Nat)} (h : InForm s) : InForm (noteDirty s ctx used) := by
  unfold noteDirty
  refine inForm_foldl h fun _ _ h => ?_
  split
  · exact h
  · split
    · exact h
    · exact inForm_ite h (inForm_updXL (inForm_updCtx h))

theorem inForm_runWalk {s : State} {walker core ctx va : Nat} {kind : AccKind} (h : InForm s) :
    InForm (runWalk s walker core ctx va kind).2 := by
  have hw := inForm_walkChain (l := ctxChain s 3 ctx) kind va { s := s, die := dieOf core, walker := walker } h
  unfold runWalk
  split
  · rename_i e
    rw [e] at hw
    split
    · exact h
    · split <;> rename_i e2 <;> have h1 := inForm_snd e2 (inForm_frameCheck hw)
      · exact h1
      · have hs := inForm_snd e2 (inForm_frameCheck hw)
        exact inForm_ite (inForm_noteDirty (inForm_updXL (inForm_markLeaves hs))) (inForm_updXL (inForm_markLeaves hs))
  · exact h
  · rename_i e
    rw [e] at hw
    exact inForm_ite (inForm_updXL (inForm_coin hw)) (inForm_coin hw)

theorem inForm_tlbPut {s : State} {place unit cap ctx page : Nat} {t : Xl} (h : InForm s) :
    InForm (tlbPut s place unit cap ctx page t) := by
  unfold tlbPut
  dsimp only
  exact inForm_ite (inForm_updXL (inForm_pick h)) (inForm_updXL h)

theorem inForm_tlbFill {s : State} {core ctx page : Nat} {t : Xl} (h : InForm s) : InForm (tlbFill s core ctx page t) :=
  inForm_tlbPut (inForm_tlbPut (inForm_tlbPut h))

theorem inForm_xlateNow {s : State} {core ctx va : Nat} {kind : AccKind} (h : InForm s) : InForm (xlateNow s core ctx va kind).2 := by
  unfold xlateNow
  split
  · exact inForm_pair h
  · split
    · rename_i e2
      split
      · rename_i e3
        exact inForm_pair (inForm_tlbFill (inForm_snd e3 (inForm_runWalk (inForm_snd e2 (inForm_drawFree h)))))
      · exact inForm_runWalk (inForm_snd e2 (inForm_drawFree h))

theorem inForm_takeWalk {s t : State} {die : Nat} (h : InForm s) (e : takeWalk s die = some t) : InForm t := by
  unfold takeWalk at e
  dsimp only at e
  split at e
  · cases e
  · split at e
    · cases e
    · obtain ⟨k, -, rfl⟩ := Option.map_eq_some_iff.1 e
      exact inForm_updXL h

theorem inForm_takeWalks {s : State} {die fuel : Nat} (h : InForm s) : InForm (takeWalks s die fuel) := by
  induction fuel generalizing s with
  | zero => exact h
  | succ n ih =>
    unfold takeWalks
    split
    · exact ih (inForm_takeWalk h ‹_›)
    · exact h

theorem inForm_dropFormed {s : State} {bad : Nat → Xl → Bool} (h : InForm s) : InForm (dropFormed s bad) :=
  inForm_of_still h

theorem inForm_dropXl {s : State} {target lo hi : Nat} {all : Bool} (h : InForm s) : InForm (dropXl s target lo hi all) := by
  unfold dropXl
  exact inForm_updXL (inForm_dropFormed h)

theorem inForm_dropFrameXl {s : State} {frame : Nat} (h : InForm s) : InForm (dropFrameXl s frame) :=
  inForm_updXL (inForm_dropFormed h)

theorem inForm_cancelPark {s : State} {p : Nat × ParkOp} (h : InForm s) : InForm (cancelPark s p) := by
  unfold cancelPark
  exact inForm_updXL (inForm_partWrite (inForm_ite (inForm_partWrite (inForm_takeLine h)) (inForm_takeLine h)))

theorem inForm_startRecall {s : State} {ctx leaf rec_ : Nat} (h : InForm s) : InForm (startRecall s ctx leaf rec_).2 := by
  unfold startRecall
  split
  · exact inForm_pair (inForm_ite h (inForm_cancelPark h))
  · split
    · exact inForm_pair h
    · split
      · exact inForm_pair (inForm_updXL (inForm_fresh h))
      · exact inForm_pair h

/-! ### Rules for the functions of Machine/Rings.lean -/

theorem inForm_openField {s : State} {bits : Nat} (h : InForm s) : InForm (State.openField s bits).2 :=
  inForm_pick h

theorem inForm_partRecord {s : State} {ctx kind : Nat} {f : FaultInfo} {addr : Option Nat} (h : InForm s) :
    InForm (partRecord s ctx kind f addr).2 := by
  unfold partRecord
  refine inForm_share ?_ fun k =>
    inForm_ite_snd (inForm_ite_snd k (inForm_drawFree k)) (inForm_drawFree (inForm_ite_snd k (inForm_drawFree k)))
  split
  · exact inForm_drawFree (inForm_drawFree (inForm_drawFree (inForm_drawFree h)))
  · exact inForm_drawFree (inForm_drawFree (inForm_drawFree (inForm_drawFree (inForm_drawFree h))))

theorem inForm_postFault {s : State} {ctx : Nat} {event : Bool} {bytes : List Byte} (h : InForm s) : InForm (postFault s ctx event bytes) :=
  inForm_ite (inForm_updPT h) (inForm_updCtx h)

theorem inForm_postEvent {s : State} {ctx code : Nat} {addr : Option Nat} {detail : Nat} (h : InForm s) :
    InForm (postEvent s ctx code addr detail) := by
  unfold postEvent
  dsimp only
  exact inForm_postFault (inForm_partRecord h)

theorem inForm_postCommand {s : State} {ctx core hwarp gi : Nat} {f : FaultInfo} (h : InForm s) :
    InForm (postCommand s ctx core hwarp gi f) :=
  inForm_postFault h

theorem inForm_attachReq {s : State} {ctx core va lanes : Nat} {kind : AccKind} {f : XFail} (h : InForm s) :
    InForm (attachReq s ctx core va lanes kind f).2 := by
  unfold attachReq
  split
  · exact inForm_pair (inForm_updXL h)
  · exact inForm_ite_snd (inForm_pair h) (inForm_pair (inForm_updXL (inForm_fresh (inForm_drawFree h))))

theorem inForm_writeRequest {s : State} {id : Nat} (h : InForm s) : InForm (writeRequest s id) := by
  unfold writeRequest
  split
  · exact h
  · exact inForm_updCtx h

theorem inForm_engineReq {s : State} {ctx core va : Nat} {kind : AccKind} {f : XFail} (h : InForm s) :
    InForm (engineReq s ctx core va kind f).2 := by
  unfold engineReq
  split <;> rename_i e1 <;> have hs := inForm_snd e1 (inForm_attachReq h)
  · exact inForm_writeRequest hs
  · exact hs
  · exact hs

theorem inForm_partXlate {s : State} {ctx va : Nat} (h : InForm s) : InForm (partXlate s ctx va).2 := by
  unfold partXlate
  refine inForm_ite_snd h ?_
  split <;> rename_i e1 <;> have hs := inForm_snd e1 (inForm_xlateNow h)
  · exact inForm_ite_snd hs (inForm_ite_snd hs hs)
  · exact inForm_startRecall hs
  · exact hs
  · exact inForm_ite_snd hs (inForm_engineReq hs)

theorem inForm_recallWord {s : State} {line i : Nat} (h : InForm s) : InForm (recallWord s line i) := by
  unfold recallWord
  split
  · exact h
  · exact inForm_updMM (inForm_sendDrop (inForm_flushWords h))

theorem inForm_svcRead {s : State} {pa bytes : Nat} (h : InForm s) : InForm (svcRead s pa bytes).2 :=
  inForm_foldl (inForm_llcEnsure h) fun _ _ h => inForm_recallWord h

theorem inForm_svcWrite {s : State} {pa bytes val : Nat} (h : InForm s) : InForm (svcWrite s pa bytes val) := by
  unfold svcWrite
  exact inForm_updMM (inForm_setMemBytes h)

theorem inForm_addWord {s : State} {pa n : Nat} (h : InForm s) : InForm (addWord s pa n).2 := by
  unfold addWord
  exact inForm_svcWrite (inForm_svcRead h)

theorem inForm_partAdd {s : State} {ctx addr n : Nat} (h : InForm s) : InForm (partAdd s ctx addr n) :=
  inForm_updCX h

theorem inForm_partDone {s : State} {ctx addr : Nat} (h : InForm s) : InForm (partDone s ctx addr) :=
  inForm_ite h (inForm_partAdd h)

theorem inForm_partBar {s : State} {ctx : Nat} {bar : Option Nat} (h : InForm s) : InForm (partBar s ctx bar) := by
  unfold partBar
  split
  · exact h
  · exact inForm_partAdd h

theorem inForm_reportWrite {s : State} {ctx code addr : Nat} (h : InForm s) : InForm (reportWrite s ctx code addr) := by
  unfold reportWrite
  dsimp only
  exact inForm_postFault (inForm_partRecord h)

theorem inForm_pumpAdds {s : State} (h : InForm s) : InForm (pumpAdds s) := by
  unfold pumpAdds
  refine inForm_foldl (inForm_updCX h) fun _ _ h => inForm_ite h (inForm_ite (inForm_updCX h) (inForm_ite (inForm_reportWrite h) ?_))
  split <;> rename_i e1 <;> have hs := inForm_snd e1 (inForm_partXlate h)
  · exact inForm_ite (inForm_reportWrite hs) (inForm_ite (inForm_reportWrite (inForm_addWord hs)) (inForm_addWord hs))
  · exact inForm_updCX hs
  · exact inForm_reportWrite hs

theorem inForm_pumpRing {fuel : Nat} {s : State} {id : Nat} {sel : RingSel} (h : InForm s) : InForm (pumpRing fuel s id sel) := by
  induction fuel generalizing s with
  | zero => exact h
  | succ n ih =>
    unfold pumpRing
    dsimp only
    split
    · exact h
    · refine inForm_ite h (inForm_ite (inForm_updCtx h) ?_)
      split <;> rename_i e <;> have hs := inForm_snd e (inForm_partXlate h)
      · exact ih (inForm_partAdd (inForm_updCtx (inForm_partWrite hs)))
      · exact inForm_updCtx hs
      · exact inForm_reportWrite (inForm_updCtx hs)

theorem inForm_postNote {s : State} {die ctx page : Nat} (h : InForm s) : InForm (postNote s die ctx page) := by
  unfold postNote
  exact inForm_updXL (inForm_updCtx h)

theorem inForm_countOne {s : State} {c : Counted} (h : InForm s) : InForm (countOne s c) := by
  unfold countOne
  refine inForm_ite h (inForm_share ?_ fun hu => inForm_ite hu (inForm_ite hu (inForm_ite (inForm_updXL hu) ?_)))
  · split
    · exact inForm_pair h
    · exact inForm_ite_snd (inForm_pair (inForm_updXL h)) (inForm_ite_snd (inForm_pair (inForm_updCtx (inForm_coin h)))
        (inForm_pair (inForm_updXL (inForm_drawFree (inForm_coin h)))))
  · split
    · exact inForm_updXL (inForm_updXL (inForm_updXL hu))
    · exact inForm_ite (inForm_postNote (inForm_updXL hu)) (inForm_updCtx (inForm_updXL (inForm_fresh (inForm_updXL hu))))

theorem inForm_markAgain {s : State} {e : Nat × Nat} (h : InForm s) : InForm (markAgain s e) := by
  unfold markAgain
  refine inForm_ite h (inForm_ite (inForm_updCtx h) ?_)
  split <;> rename_i e1 <;> have hs := inForm_snd e1 (inForm_partXlate h)
  · exact inForm_partWrite (inForm_takeLine hs)
  · exact inForm_updXL hs
  · exact hs

theorem inForm_pumpAgain {s : State} (h : InForm s) : InForm (pumpAgain s) :=
  inForm_foldl (inForm_updXL h) fun _ _ h => inForm_markAgain h

theorem inForm_pumpHeld {fuel : Nat} {s : State} {ctx : Nat} (h : InForm s) : InForm (pumpHeld fuel s ctx) := by
  induction fuel generalizing s with
  | zero => exact h
  | succ n ih =>
    unfold pumpHeld
    refine inForm_ite h ?_
    split
    · exact h
    · exact ih (inForm_postNote h)

theorem inForm_headMoved {s : State} {ctx : Nat} (h : InForm s) : InForm (headMoved s ctx) :=
  inForm_pumpHeld (inForm_updXL h)

theorem inForm_appendLog {s : State} {e : Nat × Nat} (h : InForm s) : InForm (appendLog s e) := by
  unfold appendLog
  split
  · exact h
  · refine inForm_ite h ?_
    dsimp only
    split <;> rename_i e2 <;> have hs := inForm_snd e2 (inForm_partXlate h)
    · exact inForm_updXL hs
    · exact inForm_reportWrite hs
    · refine inForm_ite (inForm_partWrite (inForm_updCtx hs)) ?_
      split <;> rename_i e3 <;> have h1 := inForm_snd e3 (inForm_partXlate hs)
      · exact inForm_updXL h1
      · exact inForm_reportWrite h1
      · exact inForm_partAdd (inForm_updCtx (inForm_partWrite (inForm_partWrite h1)))

theorem inForm_pumpLogs {s : State} (h : InForm s) : InForm (pumpLogs s) :=
  inForm_foldl (inForm_updXL h) fun _ _ h => inForm_appendLog h

theorem inForm_pumpReports {s : State} (h : InForm s) : InForm (pumpReports s) := by
  unfold pumpReports
  split
  · exact h
  · exact inForm_updPT h

theorem inForm_pumpOnce {s : State} (h : InForm s) : InForm (pumpOnce s) :=
  inForm_pumpReports (inForm_pumpAdds (inForm_foldl (inForm_pumpAgain (inForm_pumpLogs
      (inForm_foldl (inForm_updMM h) fun _ _ h => inForm_countOne h))) fun _ _ h => inForm_pumpRing (inForm_pumpRing (inForm_pumpRing h))))

theorem inForm_pump {fuel : Nat} {s : State} (h : InForm s) : InForm (pump fuel s) := by
  induction fuel generalizing s with
  | zero => exact h
  | succ n ih => exact ih (inForm_pumpOnce h)

/-! ### Rules for the functions of Machine/Ops.lean -/

theorem inForm_charge {s : State} {cls place ctx units : Nat} (h : InForm s) : InForm (charge s cls place ctx units) := by
  unfold charge
  exact inForm_updPT h

theorem inForm_freeQuarter {s : State} {wid : Nat} (h : InForm s) : InForm (freeQuarter s wid) :=
  inForm_ite (inForm_updWK (inForm_charge h)) h

theorem inForm_parkWarp {s : State} {wid : Nat} {p : Park} (h : InForm s) : InForm (parkWarp s wid p) :=
  inForm_updWarp (inForm_fresh (inForm_freeQuarter h))

theorem inForm_parkHere {s : State} {p : Park} (h : InForm s) : InForm (parkHere s p) :=
  inForm_parkWarp h

theorem inForm_finishWork {s : State} {id : Nat} (h : InForm s) : InForm (finishWork s id) := by
  unfold finishWork
  split
  · exact h
  · refine inForm_ite ?_ (inForm_updWK h)
    split
    · exact inForm_setSb (inForm_updWK h)
    · exact inForm_updWK h

theorem inForm_finishWorks {s : State} {ids : List Nat} (h : InForm s) : InForm (finishWorks s ids) :=
  inForm_foldl h fun _ _ h => inForm_finishWork h

theorem inForm_startWorks {s : State} {gi : Nat} {c : Option (Fin 6)} {hs : List Nat} {parts : Nat} (h : InForm s) :
    InForm (startWorks s gi c hs parts).2 := by
  unfold startWorks
  refine inForm_foldl_snd (inForm_pair h) fun _ _ h => inForm_pair (inForm_updWK ?_)
  split
  · exact inForm_setSb (inForm_fresh h)
  · exact inForm_fresh h

theorem inForm_addParts {s : State} {id n : Nat} (h : InForm s) : InForm (addParts s id n) :=
  inForm_updWK h

theorem inForm_takeWorks {s : State} {wid : Nat} {lanes : List (Nat × LaneEnt)} (h : InForm s) : InForm (takeWorks s wid lanes).2 :=
  inForm_finishWorks (inForm_updWarp h)

theorem inForm_endCount {s : State} {wid : Nat} (h : InForm s) : InForm (endCount s wid) :=
  inForm_finishWorks h

theorem inForm_dropEmpty {s : State} {wid : Nat} (h : InForm s) : InForm (dropEmpty s wid) :=
  inForm_ite (inForm_updWK (inForm_freeQuarter h)) h

theorem inForm_dropStopped {s : State} {wid : Nat} (h : InForm s) : InForm (dropStopped s wid) :=
  inForm_ite (inForm_dropEmpty (inForm_endCount h)) h

theorem inForm_splitOff {s : State} {wid : Nat} {pl : List Nat} {p : Park} {carry : Bool} (h : InForm s) :
    InForm (splitOff s wid pl p carry).2 :=
  inForm_updWarp (inForm_updWK (inForm_foldl (inForm_fresh h) fun _ _ h => inForm_addParts h))

theorem inForm_split {s : State} {wid : Nat} {pl : List Nat} {p : Park} (h : InForm s) : InForm (split s wid pl p).2 :=
  inForm_splitOff h

theorem inForm_fixResults {s : State} {gi : Nat} {threads : List Nat} (h : InForm s) : InForm (fixResults s gi threads) :=
  inForm_updWK h

theorem inForm_commitHW {s : State} {gi h wid : Nat} {after : List Nat} (hs : InForm s) : InForm (commitHW s gi h wid after) :=
  inForm_foldl (inForm_updHWarp hs) fun _ _ h => inForm_updThread h

theorem inForm_commitLanes {s : State} {wid : Nat} {lanes : List (Nat × LaneEnt)} (h : InForm s) : InForm (commitLanes s wid lanes) :=
  inForm_foldl h fun _ _ h => inForm_commitHW h

theorem inForm_enterStop {s : State} {id : Nat} (h : InForm s) : InForm (enterStop s id) := by
  unfold enterStop
  dsimp only
  split
  · exact h
  · exact inForm_ite h (inForm_postFault (inForm_updWK (inForm_pick h)))

theorem inForm_stopHome {s : State} {wid h : Nat} {pl : List Nat} {info : FaultInfo} {commit : Bool} (hs : InForm s) :
    InForm (stopHome s wid h pl info commit) :=
  inForm_enterStop (inForm_updWK (inForm_ite (inForm_commitHW (inForm_splitOff (inForm_fresh hs))) (inForm_splitOff (inForm_fresh hs))))

theorem inForm_takeFaults {s : State} {wid opc flags : Nat} {fs : List LaneFault} {commit : Bool} (h : InForm s) :
    InForm (takeFaults s wid opc flags fs commit) := by
  unfold takeFaults
  refine inForm_foldl h fun _ _ h => inForm_stopHome ?_
  split
  · exact h
  · exact inForm_openField h

theorem inForm_faultWord {s : State} {wid opc flags code : Nat} {addr : Option Nat} (h : InForm s) :
    InForm (faultWord s wid opc flags code addr) :=
  inForm_dropStopped (inForm_takeFaults h)

theorem inForm_kRelease {s : State} {gi h k : Nat} (hs : InForm s) : InForm (kRelease s gi h k) :=
  inForm_updWK hs

theorem inForm_kTest {s : State} {gi h k : Nat} (hs : InForm s) : InForm (kTest s gi h k) :=
  inForm_ite (inForm_kRelease hs) hs

theorem inForm_gsyncRelease {s : State} {gi : Nat} {span : Bool} (h : InForm s) : InForm (gsyncRelease s gi span) :=
  inForm_ite (inForm_foldl (inForm_updWK h) fun _ _ h => inForm_acquireL1 h) (inForm_updWK h)

theorem inForm_gsyncTest {s : State} {gi : Nat} {span : Bool} (h : InForm s) : InForm (gsyncTest s gi span) :=
  inForm_ite (inForm_gsyncRelease h) h

theorem inForm_endThread {s : State} {gi h l : Nat} (hs : InForm s) : InForm (endThread s gi h l) :=
  inForm_foldl (inForm_updWK (inForm_updThread hs)) fun _ _ h => inForm_kTest (inForm_setK h)

theorem inForm_clearGroup {s : State} {gi : Nat} (h : InForm s) : InForm (clearGroup s gi) := by
  unfold clearGroup
  exact inForm_updWK (inForm_updMM (inForm_updRG h))

theorem inForm_checkGroupEnd {s : State} {gi : Nat} (h : InForm s) : InForm (checkGroupEnd s gi) := by
  unfold checkGroupEnd
  split
  · exact h
  · exact inForm_ite (inForm_updPT (inForm_clearGroup h)) h

theorem inForm_exitLanes {s : State} {gi : Nat} {lanes : List (Nat × LaneEnt)} (h : InForm s) : InForm (exitLanes s gi lanes) :=
  inForm_checkGroupEnd (inForm_gsyncTest (inForm_gsyncTest (inForm_foldl h fun _ _ h => inForm_endThread h)))

theorem inForm_eddyRun {s : State} {w : Warp} (h : InForm s) : InForm (eddyRun s w) :=
  inForm_ite (inForm_updGroup (inForm_updGroup h)) (inForm_updGroup h)

theorem inForm_closeRun {s : State} {wid : Nat} (h : InForm s) : InForm (closeRun s wid) := by
  unfold closeRun
  exact inForm_updWK (inForm_freeQuarter (inForm_eddyRun h))

theorem inForm_endRun {s : State} {wid : Nat} (h : InForm s) : InForm (endRun s wid) :=
  inForm_closeRun (inForm_foldl h fun _ _ h => inForm_updThread h)

theorem inForm_stepPast {s : State} {wid : Nat} (h : InForm s) : InForm (stepPast s wid) :=
  inForm_updWarp h

theorem inForm_finish {s : State} {b w : Bool} (h : InForm s) : InForm (finish s b w) :=
  inForm_ite (inForm_dropEmpty h) (inForm_ite (inForm_parkWarp (inForm_updWarp (inForm_stepPast h)))
      (inForm_ite (inForm_endRun (inForm_stepPast h)) (inForm_stepPast h)))

theorem inForm_finishNone {s : State} {b w : Bool} (h : InForm s) : InForm (finishNone s b w) :=
  inForm_finish (inForm_takeWorks h)

theorem inForm_endReady {s : State} (h : InForm s) : InForm (endReady s) :=
  inForm_foldl h fun _ _ h => inForm_ite (inForm_endRun h) h

theorem inForm_pumpStops {s : State} (h : InForm s) : InForm (pumpStops s) :=
  inForm_foldl h fun _ _ h => inForm_enterStop h

theorem inForm_skipWord {s : State} {wid : Nat} (h : InForm s) : InForm (skipWord s wid) :=
  inForm_ite (inForm_endRun (inForm_stepPast h)) (inForm_stepPast h)

theorem inForm_resolveStop {s : State} {sid : Nat} {r : Resolution} (h : InForm s) : InForm (resolveStop s sid r) := by
  unfold resolveStop
  split
  · exact h
  · split
    · exact inForm_ite (inForm_skipWord (inForm_updWK h)) (inForm_updWarp (inForm_updWK h))
    · exact inForm_skipWord (inForm_updWK h)
    · exact inForm_exitLanes (inForm_updWK (inForm_updWK h))

theorem inForm_withLoads {s : State} {gi : Nat} {threads : List Nat} {k : State → State} (h : InForm s) (hk : ∀ s, InForm s → InForm (k s)) :
    InForm (withLoads s gi threads k) :=
  inForm_ite (inForm_parkHere h) (inForm_ite (inForm_parkHere h) (hk _ (inForm_fixResults h)))

theorem inForm_withAccesses {s : State} {gi : Nat} {threads : List Nat} {k : State → State} (h : InForm s)
    (hk : ∀ s, InForm s → InForm (k s)) : InForm (withAccesses s gi threads k) :=
  inForm_ite (inForm_parkHere h) (inForm_withLoads h fun _ h => hk _ h)

theorem inForm_commitHomes {s : State} {gi wid : Nat} {hs : List Nat} (h : InForm s) : InForm (commitHomes s gi wid hs) :=
  inForm_foldl h fun _ _ h => inForm_commitHW h

theorem inForm_withRelease {s : State} {k : State → State} (h : InForm s) (hk : ∀ s, InForm s → InForm (k s)) : InForm (withRelease s k) :=
  inForm_ite (inForm_ite (inForm_parkHere (inForm_commitHomes h)) (inForm_withAccesses (inForm_commitHomes h) fun _ h => inForm_ite
      (hk _ (inForm_updWarp (inForm_sendAll h))) (inForm_parkHere (inForm_updWarp (inForm_sendAll h))))) (hk _ h)

theorem inForm_withDrain {s : State} {lanes : List (Nat × LaneEnt)} {k : State → State} (h : InForm s) (hk : ∀ s, InForm s → InForm (k s)) :
    InForm (withDrain s lanes k) :=
  inForm_ite (inForm_parkHere (inForm_commitHomes h)) (hk _ (inForm_commitHomes h))

theorem inForm_withGroupRelease {s : State} {lanes : List (Nat × LaneEnt)} {k : State → State} (h : InForm s)
    (hk : ∀ s, InForm s → InForm (k s)) : InForm (withGroupRelease s lanes k) :=
  inForm_ite (inForm_withDrain h fun _ h => inForm_withAccesses h fun _ h => hk _ h) (hk _ h)

/-! ### Rules for the functions of Machine/Issue.lean -/

theorem inForm_landLane {s : State} {gi h : Nat} {l : ResLane} (hs : InForm s) : InForm (landLane s gi h l) := by
  unfold landLane
  split
  · exact inForm_updWarp hs
  · refine inForm_foldl hs fun _ _ h => inForm_updPT (inForm_updRG (inForm_ite h ?_))
    dsimp only
    split
    · exact inForm_updWarp (inForm_updGroup h)
    · exact inForm_updGroup h

theorem inForm_settleResults {s : State} {gi : Nat} (h : InForm s) : InForm (settleResults s gi) :=
  inForm_foldl h fun _ _ h => inForm_ite (inForm_foldl h fun _ _ h => inForm_ite (inForm_updWK (inForm_landLane (inForm_coin h)))
      (inForm_coin h)) h

theorem inForm_landRow {s : State} {x : Nat × List (Nat × Byte)} (h : InForm s) : InForm (landRow s x) :=
  inForm_ite h (inForm_ite (inForm_updPT (inForm_updRG h)) (inForm_updRG h))

theorem inForm_settleRows {s : State} {gi : Nat} (h : InForm s) : InForm (settleRows s gi) :=
  inForm_foldl h fun _ _ h => inForm_foldl h fun _ _ h => inForm_ite (inForm_updEN
      (inForm_foldl (inForm_coin h) fun _ _ h => inForm_landRow h)) (inForm_coin h)

theorem inForm_unseen {l : List SUndo} {done : List Nat} {m : NMap Word} {s : State} (h : InForm s) : InForm (unseen l done m s).2 := by
  induction l generalizing s done m with
  | nil => exact h
  | cons e l ih => exact inForm_ite_snd (ih (inForm_coin h)) (ih (inForm_coin h))

theorem inForm_settleS {s : State} {wid : Nat} (h : InForm s) : InForm (settleS s wid) :=
  inForm_ite h (inForm_updWarp (inForm_unseen h))

theorem inForm_startWalk {s : State} {ctx core page : Nat} {kind : AccKind} (h : InForm s) : InForm (startWalk s ctx core page kind).2 := by
  unfold startWalk
  split
  · exact h
  · exact inForm_ite_snd h (inForm_takeWalks (inForm_updXL (inForm_fresh h)))

theorem inForm_parkOnWalks {s : State} {wid : Nat} {kind : AccKind} {pages : List Nat} (h : InForm s) :
    InForm (parkOnWalks s wid kind pages) :=
  inForm_parkWarp (inForm_foldl_snd h fun _ _ h => inForm_startWalk h)

theorem inForm_codePut {m : NMap CodeLine} {cap core : Nat} {x : CodeLine} {s : State} (h : InForm s) : InForm (codePut m cap core x s).2 :=
  inForm_ite_snd (inForm_drawFree (inForm_fresh h)) (inForm_fresh h)

theorem inForm_codeFill {s : State} {w : Warp} {va pa : Nat} (h : InForm s) : InForm (codeFill s w va pa).2 :=
  inForm_llcEnsure (inForm_countReq h)

theorem inForm_icRead {s : State} {w : Warp} {va pa : Nat} (h : InForm s) : InForm (icRead s w va pa).2 := by
  unfold icRead
  split
  · exact inForm_ite_snd (inForm_pair h) (inForm_pair (inForm_updMM (inForm_codePut (inForm_codeFill h))))
  · exact inForm_ite_snd (inForm_pair h) (inForm_ite_snd (inForm_ite_snd (inForm_coin h)
        (inForm_pair (inForm_updMM (inForm_codePut (inForm_codeFill (inForm_coin h)))))) (inForm_coin h))

theorem inForm_fetchWord {s : State} {w : Warp} {pc : Nat} (h : InForm s) : InForm (fetchWord s w pc).2 := by
  unfold fetchWord
  refine inForm_ite_snd h ?_
  split
  · exact h
  · exact h
  · exact inForm_ite_snd (inForm_icRead h) h
  · exact h
  · exact inForm_ite_snd h h

theorem inForm_noteEas {s : State} {wid : Nat} {l : List (Nat × Nat)} (h : InForm s) : InForm (noteEas s wid l) :=
  inForm_updWarp h

theorem inForm_requestAll {s : State} {wid : Nat} {lanes : List (Nat × LaneEnt)} {va : Nat} {kind : AccKind} {f : XFail} (h : InForm s) :
    InForm (requestAll s wid lanes va kind f) := by
  unfold requestAll
  dsimp only
  split <;> rename_i e1 <;> have hs := inForm_snd e1 (inForm_attachReq (inForm_noteEas h))
  · exact inForm_parkWarp (inForm_updWarp (inForm_ite (inForm_writeRequest hs) hs))
  · exact inForm_parkWarp (inForm_updWarp hs)

theorem inForm_fetchOr {s : State} {wid pc opc : Nat} {k : DWord → State → Issued} (h : InForm s)
    (hk : ∀ v s, InForm s → InForm (k v s).state) : InForm (fetchOr s wid pc opc k).state := by
  unfold fetchOr
  dsimp only
  split <;> rename_i e <;> have hs := inForm_snd e (inForm_fetchWord h)
  · exact hk _ _ hs
  · exact inForm_done (inForm_parkOnWalks hs)
  · exact inForm_done (inForm_faultWord hs)
  · exact inForm_done (inForm_requestAll hs)
  · split <;> rename_i e2 <;> have hr := inForm_snd e2 (inForm_startRecall hs)
    · exact inForm_done (inForm_parkWarp (inForm_updWarp (inForm_noteEas hr)))
    · exact inForm_done (inForm_updWarp hr)

theorem inForm_note {s : State} {wid n named : Nat} (h : InForm s) : InForm (note s wid n named) :=
  inForm_updWarp h

theorem inForm_opcFlags {s : State} {v : DWord} {y : Option Bool} (h : InForm s) : InForm ((opcFlags s v y).2).2 := by
  unfold opcFlags
  split
  · split
    · rename_i e2
      split
      all_goals
        refine inForm_snd e2 ?_
        split
        · exact h
        · exact inForm_coin h
  · exact h

theorem inForm_wordFault {s : State} {wid : Nat} {v : DWord} {n code : Nat} (h : InForm s) : InForm (wordFault s wid v n code).state := by
  unfold wordFault
  exact inForm_done (inForm_faultWord (inForm_note (inForm_opcFlags h)))

theorem inForm_issueWord {s : State} {wid : Nat} (h : InForm s) : InForm (issueWord s wid).state := by
  unfold issueWord
  refine inForm_fetchOr (inForm_updWarp (inForm_settleS (inForm_settleRows (inForm_settleResults h)))) fun v s h => ?_
  extract_lets w s' g
  have hs : InForm s' := inForm_updWarp h
  split
  · exact inForm_wordFault hs
  · extract_lets first go
    have hgo : ∀ next s, InForm s → InForm (go next s).state := fun next s h => by
      unfold go
      dsimp only
      refine inForm_ite_issued (inForm_wordFault h) (inForm_ite_issued (inForm_wordFault (inForm_note h))
        (inForm_ite_issued (inForm_wordFault (inForm_note h)) ?_))
      split
      · exact inForm_note h
      · exact inForm_share (inForm_takeFaults (inForm_opcFlags (inForm_note h))) fun h => inForm_ite_issued (inForm_dropStopped h) h
    exact inForm_ite_issued (inForm_fetchOr hs hgo) (hgo _ _ hs)

theorem inForm_clearPoison {before after : State} {wid : Nat} {v : DWord} {i : Instr} (h : InForm after) :
    InForm (clearPoison before after wid v i) :=
  inForm_ite h (inForm_updPT h)

theorem inForm_zeroHelpers {before after : State} {wid : Nat} {v : DWord} {i : Instr} (h : InForm after) :
    InForm (zeroHelpers before after wid v i) :=
  inForm_ite h (inForm_foldl h fun _ _ h => inForm_foldl h fun _ _ h => inForm_updWK
      (inForm_foldl (inForm_foldl h fun _ _ h => inForm_ite h (inForm_writeLane h)) fun _ _ h => inForm_writePred h))

theorem inForm_noteWork {before after : State} {wid : Nat} {i : Instr} (h : InForm after) : InForm (noteWork before after wid i) :=
  inForm_updCtx (inForm_ite (inForm_updWarp h) h)

theorem inForm_passCycles {s : State} {n : Nat} (h : InForm s) : InForm (passCycles s n) :=
  inForm_updPT h

/-! ### Rules for the functions of Machine/Operands.lean -/

theorem inForm_putVals {s : State} {h : Hdr} {d : Reg} {width : Nat} {vals : List (Nat × LaneEnt × Nat)} (hs : InForm s) :
    InForm (putVals s h d width vals) :=
  inForm_finish (inForm_writeDst hs)

theorem inForm_unaryWord {s : State} {h : Hdr} {d a : Reg} {wd wa : Nat} {f : Nat → Nat} (hs : InForm s) :
    InForm (unaryWord s h d a wd wa f) :=
  inForm_putVals hs

theorem inForm_binaryWord {s : State} {h : Hdr} {d a b : Reg} {wd wa wb : Nat} {f : Nat → Nat → Nat} (hs : InForm s) :
    InForm (binaryWord s h d a b wd wa wb f) :=
  inForm_putVals hs

theorem inForm_ternaryWord {s : State} {h : Hdr} {d a b c : Reg} {wd wa wb wc : Nat} {f : Nat → Nat → Nat → Nat} (hs : InForm s) :
    InForm (ternaryWord s h d a b c wd wa wb wc f) :=
  inForm_putVals hs

theorem inForm_setGens {s : State} {gi : Nat} {l : List (Nat × LaneEnt × Word)} (h : InForm s) : InForm (setGens s gi l) :=
  inForm_foldl h fun _ _ h => inForm_setGen h

theorem inForm_roundedWord {s : State} {h : Hdr} {d : Reg} {width : Nat} {rm : Rm} {f : Nat → LaneEnt → Word → Nat × Word} (hs : InForm s) :
    InForm (roundedWord s h d width rm f) :=
  inForm_putVals (inForm_ite (inForm_setGens hs) hs)

/-! ### Rules for the functions of Machine/Flags.lean -/

theorem inForm_putPreds {s : State} {h : Hdr} {p : Fin 8} {vals : List (Nat × LaneEnt × Bool)} (hs : InForm s) :
    InForm (putPreds s h p vals) :=
  inForm_finish (inForm_writePreds hs)

theorem inForm_compareWord {s : State} {h : Hdr} {p : Fin 8} {a b : Reg} {width : Nat} {f : Nat → Nat → Bool} (hs : InForm s) :
    InForm (compareWord s h p a b width f) :=
  inForm_putPreds hs

theorem inForm_putBoth {s : State} {h : Hdr} {d : Reg} {width : Nat} {vals : List (Nat × LaneEnt × Nat)} {p : Nat}
    {preds : List (Nat × LaneEnt × Bool)} (hs : InForm s) : InForm (putBoth s h d width vals p preds) :=
  inForm_finish (inForm_writePreds (inForm_writeDst hs))

/-! ### Rules for the functions of Machine/FloatWords.lean -/

theorem inForm_fltBin {s : State} {h : Hdr} {d a b : Reg} {ty : FTy} {rm : Rm} {ma mb : SMod} {sat ftz : Bool}
    {op : Rm → FVal → FVal → FVal} (hs : InForm s) : InForm (fltBin s h d a b ty rm ma mb sat ftz op) :=
  inForm_roundedWord hs

theorem formOut_execFadd {h : Hdr} {d a b : Reg} {ty : FTy} {rm : Rm} {ma mb : SMod} {sat ftz : Bool} {s : State} (hs : InForm s) :
    FormOut (execFadd h d a b ty rm ma mb sat ftz s) :=
  formOut_next (inForm_fltBin hs)

theorem formOut_execFsub {h : Hdr} {d a b : Reg} {ty : FTy} {rm : Rm} {ma mb : SMod} {sat ftz : Bool} {s : State} (hs : InForm s) :
    FormOut (execFsub h d a b ty rm ma mb sat ftz s) :=
  formOut_next (inForm_fltBin hs)

theorem formOut_execFmul {h : Hdr} {d a b : Reg} {ty : FTy} {rm : Rm} {ma mb : SMod} {sat ftz : Bool} {s : State} (hs : InForm s) :
    FormOut (execFmul h d a b ty rm ma mb sat ftz s) :=
  formOut_next (inForm_fltBin hs)

theorem formOut_execFfma {h : Hdr} {d a b c : Reg} {ty : FTy} {rm : Rm} {ma mb : SMod} {nc sat ftz : Bool} {s : State} (hs : InForm s) :
    FormOut (execFfma h d a b c ty rm ma mb nc sat ftz s) :=
  formOut_next (inForm_roundedWord hs)

theorem formOut_execFmin {h : Hdr} {d a b : Reg} {ty : FTy} {ma mb : SMod} {ftz : Bool} {s : State} (hs : InForm s) :
    FormOut (execFmin h d a b ty ma mb ftz s) :=
  formOut_next (inForm_binaryWord hs)

theorem formOut_execFmax {h : Hdr} {d a b : Reg} {ty : FTy} {ma mb : SMod} {ftz : Bool} {s : State} (hs : InForm s) :
    FormOut (execFmax h d a b ty ma mb ftz s) :=
  formOut_next (inForm_binaryWord hs)

theorem formOut_execFmaxa {h : Hdr} {d a b : Reg} {ty : FTy} {ftz : Bool} {s : State} (hs : InForm s) :
    FormOut (execFmaxa h d a b ty ftz s) :=
  formOut_next (inForm_binaryWord hs)

theorem formOut_execFcmp {h : Hdr} {p : Fin 8} {a b : Reg} {ty : FTy} {ma mb : SMod} {ftz : Bool} {cond : FCond} {s : State} (hs : InForm s) :
    FormOut (execFcmp h p a b ty ma mb ftz cond s) :=
  formOut_next (inForm_compareWord hs)

theorem formOut_execFclass {h : Hdr} {d a : Reg} {ty : FTy} {ftz : Bool} {s : State} (hs : InForm s) :
    FormOut (execFclass h d a ty ftz s) :=
  formOut_next (inForm_unaryWord hs)

theorem formOut_execFscale {h : Hdr} {d a b : Reg} {ty : FTy} {rm : Rm} {ma : SMod} {ftz : Bool} {s : State} (hs : InForm s) :
    FormOut (execFscale h d a b ty rm ma ftz s) :=
  formOut_next (inForm_roundedWord hs)

theorem formOut_execFrint {h : Hdr} {d a : Reg} {ty : FTy} {rm : Rm} {ma : SMod} {ftz : Bool} {s : State} (hs : InForm s) :
    FormOut (execFrint h d a ty rm ma ftz s) :=
  formOut_next (inForm_unaryWord hs)

theorem formOut_execFrcp {h : Hdr} {d a : Reg} {ma : SMod} {ftz : Bool} {s : State} (hs : InForm s) : FormOut (execFrcp h d a ma ftz s) :=
  formOut_next (inForm_unaryWord hs)

theorem formOut_execFrsq {h : Hdr} {d a : Reg} {ma : SMod} {ftz : Bool} {s : State} (hs : InForm s) : FormOut (execFrsq h d a ma ftz s) :=
  formOut_next (inForm_unaryWord hs)

theorem formOut_execFsqrt {h : Hdr} {d a : Reg} {rm : Rm} {ma : SMod} {ftz : Bool} {s : State} (hs : InForm s) :
    FormOut (execFsqrt h d a rm ma ftz s) :=
  formOut_next (inForm_unaryWord hs)

theorem formOut_execFexp2 {h : Hdr} {d a : Reg} {ma : SMod} {ftz : Bool} {s : State} (hs : InForm s) : FormOut (execFexp2 h d a ma ftz s) :=
  formOut_next (inForm_unaryWord hs)

theorem formOut_execFlog2 {h : Hdr} {d a : Reg} {ma : SMod} {ftz : Bool} {s : State} (hs : InForm s) : FormOut (execFlog2 h d a ma ftz s) :=
  formOut_next (inForm_unaryWord hs)

theorem formOut_execFsin {h : Hdr} {d a : Reg} {ma : SMod} {ftz : Bool} {s : State} (hs : InForm s) : FormOut (execFsin h d a ma ftz s) :=
  formOut_next (inForm_unaryWord hs)

theorem formOut_execFcos {h : Hdr} {d a : Reg} {ma : SMod} {ftz : Bool} {s : State} (hs : InForm s) : FormOut (execFcos h d a ma ftz s) :=
  formOut_next (inForm_unaryWord hs)

theorem formOut_execFtanh {h : Hdr} {d a : Reg} {ma : SMod} {ftz : Bool} {s : State} (hs : InForm s) : FormOut (execFtanh h d a ma ftz s) :=
  formOut_next (inForm_unaryWord hs)

theorem formOut_execFsigm {h : Hdr} {d a : Reg} {ma : SMod} {ftz : Bool} {s : State} (hs : InForm s) : FormOut (execFsigm h d a ma ftz s) :=
  formOut_next (inForm_unaryWord hs)

theorem inForm_packBin {s : State} {h : Hdr} {d a b : Reg} {f : FmtF} {rm : Rm} {ma mb : SMod} {sat : Bool} {op : Rm → FVal → FVal → FVal}
    (hs : InForm s) : InForm (packBin s h d a b f rm ma mb sat op) :=
  inForm_roundedWord hs

theorem inForm_packFma {s : State} {h : Hdr} {d a b c : Reg} {f : FmtF} {rm : Rm} {ma mb : SMod} {nc sat : Bool} (hs : InForm s) :
    InForm (packFma s h d a b c f rm ma mb nc sat) :=
  inForm_roundedWord hs

theorem inForm_packSel {s : State} {h : Hdr} {d a b : Reg} {f : FmtF} {ma mb : SMod} {op : FmtF → Nat → Nat → Nat} (hs : InForm s) :
    InForm (packSel s h d a b f ma mb op) :=
  inForm_binaryWord hs

theorem formOut_execHadd2 {h : Hdr} {d a b : Reg} {rm : Rm} {ma mb : SMod} {sat : Bool} {s : State} (hs : InForm s) :
    FormOut (execHadd2 h d a b rm ma mb sat s) :=
  formOut_next (inForm_packBin hs)

theorem formOut_execHmul2 {h : Hdr} {d a b : Reg} {rm : Rm} {ma mb : SMod} {sat : Bool} {s : State} (hs : InForm s) :
    FormOut (execHmul2 h d a b rm ma mb sat s) :=
  formOut_next (inForm_packBin hs)

theorem formOut_execHfma2 {h : Hdr} {d a b c : Reg} {rm : Rm} {ma mb : SMod} {nc sat : Bool} {s : State} (hs : InForm s) :
    FormOut (execHfma2 h d a b c rm ma mb nc sat s) :=
  formOut_next (inForm_packFma hs)

theorem formOut_execHmin2 {h : Hdr} {d a b : Reg} {ma mb : SMod} {s : State} (hs : InForm s) : FormOut (execHmin2 h d a b ma mb s) :=
  formOut_next (inForm_packSel hs)

theorem formOut_execHmax2 {h : Hdr} {d a b : Reg} {ma mb : SMod} {s : State} (hs : InForm s) : FormOut (execHmax2 h d a b ma mb s) :=
  formOut_next (inForm_packSel hs)

theorem formOut_execBadd2 {h : Hdr} {d a b : Reg} {rm : Rm} {ma mb : SMod} {sat : Bool} {s : State} (hs : InForm s) :
    FormOut (execBadd2 h d a b rm ma mb sat s) :=
  formOut_next (inForm_packBin hs)

theorem formOut_execBmul2 {h : Hdr} {d a b : Reg} {rm : Rm} {ma mb : SMod} {sat : Bool} {s : State} (hs : InForm s) :
    FormOut (execBmul2 h d a b rm ma mb sat s) :=
  formOut_next (inForm_packBin hs)

theorem formOut_execBfma2 {h : Hdr} {d a b c : Reg} {rm : Rm} {ma mb : SMod} {nc sat : Bool} {s : State} (hs : InForm s) :
    FormOut (execBfma2 h d a b c rm ma mb nc sat s) :=
  formOut_next (inForm_packFma hs)

theorem formOut_execBmin2 {h : Hdr} {d a b : Reg} {ma mb : SMod} {s : State} (hs : InForm s) : FormOut (execBmin2 h d a b ma mb s) :=
  formOut_next (inForm_packSel hs)

theorem formOut_execBmax2 {h : Hdr} {d a b : Reg} {ma mb : SMod} {s : State} (hs : InForm s) : FormOut (execBmax2 h d a b ma mb s) :=
  formOut_next (inForm_packSel hs)

theorem inForm_dotWord {s : State} {h : Hdr} {d a b c : Reg} {f : FmtF} {rm : Rm} {ma mb : SMod} {nc sat : Bool} (hs : InForm s) :
    InForm (dotWord s h d a b c f rm ma mb nc sat) :=
  inForm_roundedWord hs

theorem formOut_execHdot2 {h : Hdr} {d a b c : Reg} {rm : Rm} {ma mb : SMod} {nc sat : Bool} {s : State} (hs : InForm s) :
    FormOut (execHdot2 h d a b c rm ma mb nc sat s) :=
  formOut_next (inForm_dotWord hs)

theorem formOut_execBdot2 {h : Hdr} {d a b c : Reg} {rm : Rm} {ma mb : SMod} {nc sat : Bool} {s : State} (hs : InForm s) :
    FormOut (execBdot2 h d a b c rm ma mb nc sat s) :=
  formOut_next (inForm_dotWord hs)

theorem formOut_execDualWord {b w : Bool} {x y : Half} {s : State} (h : InForm s) : FormOut (execDualWord b w x y s) :=
  formOut_next (inForm_finish (inForm_writeDst (inForm_writeDst h)))

/-! ### Rules for the functions of Machine/LaneMem.lean -/

theorem inForm_splitRequests {s : State} {wid : Nat} {kind : AccKind} {l : List (Acc × XFail)} (h : InForm s) :
    InForm (splitRequests s wid kind l) := by
  unfold splitRequests
  refine inForm_foldl (inForm_foldl (inForm_foldl_snd h fun _ _ h => ?_) fun _ _ h => ?_) fun _ _ h => inForm_noteEas (inForm_split h)
  · dsimp only
    split
    · exact h
    · exact inForm_attachReq h
  · split
    · exact inForm_writeRequest h
    · exact h

theorem inForm_splitFars {s : State} {wid : Nat} {l : List (Acc × Nat × Nat)} (h : InForm s) : InForm (splitFars s wid l) := by
  unfold splitFars
  dsimp only
  exact inForm_foldl h fun _ _ h => inForm_noteEas (inForm_split (inForm_startRecall h))

theorem inForm_withAcquired {s : State} {gi : Nat} {lanes : List (Nat × LaneEnt)} {k : State → State} (h : InForm s)
    (hk : ∀ s, InForm s → InForm (k s)) : InForm (withAcquired s gi lanes k) :=
  inForm_ite (inForm_parkHere h) (hk _ h)

theorem inForm_openWorks {s : State} {sbc : Option (Fin 6)} {lanes : List (Nat × LaneEnt)} (h : InForm s) :
    InForm (openWorks s sbc lanes) :=
  inForm_ite h (inForm_updWarp (inForm_startWorks h))

theorem inForm_withXlate {s : State} {opc : Nat} {kind : AccKind} {bytes : Nat} {check : State → Xl → Option Nat} {sbc : Option (Fin 6)}
    {more : List (Nat × LaneEnt)} {l : List Acc} {k : List (Acc × Xl) → State → State} (h : InForm s)
    (hk : ∀ a s, InForm s → InForm (k a s)) : InForm (withXlate s opc kind bytes check sbc more l k) :=
  inForm_withAcquired h fun _ h => inForm_ite (inForm_parkOnWalks h) (hk _ _
      (inForm_splitFars (inForm_splitRequests (inForm_openWorks (inForm_takeFaults h)))))

theorem inForm_withCounter {s : State} {sbc : Option (Fin 6)} {lanes : List (Nat × LaneEnt)} {k : State → State} (h : InForm s)
    (hk : ∀ s, InForm s → InForm (k s)) : InForm (withCounter s sbc lanes k) := by
  unfold withCounter
  split
  · exact inForm_ite (inForm_parkHere h) (hk _ h)
  · exact hk _ h

theorem inForm_setSpadByte {s : State} {core addr : Nat} {b : Byte} (h : InForm s) : InForm (setSpadByte s core addr b) :=
  ⟨h.memory, NMap.wf_set 0 s.mm.spad _ b h.scratch, h.clocks, h.cap⟩

theorem inForm_addResult {s : State} {r : Result} (h : InForm s) : InForm (addResult s r) := by
  unfold addResult
  exact inForm_updWK (inForm_fresh h)

theorem inForm_fixOver {s : State} {gi h lane : Nat} {sp : Bool} {addr n : Nat} (hs : InForm s) : InForm (fixOver s gi h lane sp addr n) :=
  inForm_updWK hs

theorem inForm_withOverlap {s : State} {gi : Nat} {l : List (Nat × Nat × Nat × Nat)} {k : State → State} (h : InForm s)
    (hk : ∀ s, InForm s → InForm (k s)) : InForm (withOverlap s gi l k) :=
  inForm_ite (inForm_parkHere h) (inForm_ite (inForm_parkHere h) (hk _ (inForm_foldl h fun _ _ h => inForm_fixOver h)))

theorem inForm_fillFor {s : State} {core ctx page pa n rank : Nat} {bypass : Bool} (h : InForm s) :
    InForm (fillFor s core ctx page pa n rank bypass) :=
  inForm_ite (inForm_ite h (inForm_l1Touch h)) (inForm_ite (inForm_dropHalves (inForm_llcEnsure (inForm_countReq h))) (inForm_l1Fill h))

theorem inForm_sampleHeld {s : State} (h : InForm s) : InForm (sampleHeld s) :=
  inForm_foldl h fun _ _ h => inForm_ite (inForm_updWK (inForm_foldl h fun _ _ h => inForm_fillFor h)) h

theorem inForm_addLoads {s : State} {lanes : List (Nat × LaneEnt)} {res : List (Nat × Bool × ResLane)} (h : InForm s) :
    InForm (addLoads s lanes res) := by
  unfold addLoads
  refine inForm_foldl (inForm_takeWorks h) fun _ _ h => inForm_share ?_ fun k =>
    inForm_ite (inForm_ite k (inForm_addResult k)) (inForm_addResult (inForm_ite k (inForm_addResult k)))
  split
  · exact inForm_ite (inForm_addParts h) h
  · exact h

theorem inForm_pushStores {s : State} {lanes : List (Nat × LaneEnt)} {writes : Nat × LaneEnt → List FWrite} {hint : Nat} {rel : Bool}
    (h : InForm s) : InForm (pushStores s lanes writes hint rel) :=
  inForm_foldl (inForm_fresh (inForm_takeWorks h)) fun _ _ h => inForm_updHWarp (inForm_fresh h)

theorem inForm_withRoom {s : State} {lanes : List (Nat × LaneEnt)} {k : State → State} (h : InForm s) (hk : ∀ s, InForm s → InForm (k s)) :
    InForm (withRoom s lanes k) :=
  inForm_ite (hk _ h) (inForm_parkHere (inForm_updWarp (inForm_commitHomes h)))

theorem inForm_commitStore {s : State} {rel : Bool} {lanes : List (Nat × LaneEnt)} (h : InForm s) : InForm (commitStore s rel lanes) :=
  inForm_ite (inForm_commitLanes h) h

theorem inForm_setPresence {s : State} {core line : Nat} {f : Presence → Presence} (h : InForm s) : InForm (setPresence s core line f) :=
  inForm_updMM h

/-! ### Rules for the functions of Machine/MemWords.lean -/

theorem inForm_loadLane {s : State} {wid gi ctx core bytes : Nat} {dir ord bypass : Bool} {rank pl : Nat} {e : LaneEnt} {ea : Nat} {t : Xl}
    (h : InForm s) : InForm (loadLane s wid gi ctx core bytes dir ord bypass rank pl e ea t).2.2 :=
  inForm_ite_trd (inForm_updWarp h) (inForm_ite (inForm_llcEnsure (inForm_countReq (inForm_updWarp h))) (inForm_fillFor (inForm_updWarp h)))

theorem inForm_ldWord {s : State} {h : Hdr} {d : Reg} {m : MemOp} (hs : InForm s) : InForm (ldWord s h d m) := by
  unfold ldWord
  refine inForm_withCounter hs fun _ h => inForm_withXlate h fun _ _ h => inForm_withOverlap h fun _ h => inForm_share
      (inForm_ite (inForm_foldl h fun _ _ h => inForm_receiveDrops h) h) fun k =>
    inForm_ite (inForm_parkHere k) (inForm_finish (inForm_ite (inForm_acquireL1
        (inForm_addLoads (inForm_foldl_snd (inForm_foldl_snd k fun _ _ h => inForm_loadLane h) fun _ _ h => ?_)))
        (inForm_addLoads (inForm_foldl_snd (inForm_foldl_snd k fun _ _ h => inForm_loadLane h) fun _ _ h => ?_))))
  · dsimp only
    split
    · exact inForm_loadLane h
    · exact h
  · dsimp only
    split
    · exact inForm_loadLane h
    · exact h

theorem formOut_execLd {h : Hdr} {d : Reg} {m : MemOp} {s : State} (hs : InForm s) : FormOut (execLd h d m s) :=
  formOut_next (inForm_ldWord hs)

theorem inForm_stWord {s : State} {h : Hdr} {d : Reg} {m : MemOp} (hs : InForm s) : InForm (stWord s h d m) := by
  unfold stWord
  exact inForm_withCounter hs fun _ h => inForm_withRoom h fun _ h => inForm_withXlate h fun _ _ h => inForm_ite (inForm_finishNone h)
      (inForm_ite (inForm_withOverlap h fun _ h => inForm_finish (inForm_commitStore (inForm_pushStores h)))
      (inForm_ite (inForm_withAccesses h fun _ h => inForm_withOverlap h fun _ h => inForm_finish
      (inForm_commitStore (inForm_pushStores h))) (inForm_withRelease h fun _ h => inForm_withOverlap h fun _ h => inForm_finish
      (inForm_commitStore (inForm_pushStores h)))))

theorem formOut_execSt {h : Hdr} {d : Reg} {m : MemOp} {s : State} (hs : InForm s) : FormOut (execSt h d m s) :=
  formOut_next (inForm_stWord hs)

theorem inForm_withSpad {s : State} {opc bytes : Nat} {load : Bool} {sbc : Option (Fin 6)} {lanes : List (Nat × LaneEnt × Nat)}
    {k : List (Nat × LaneEnt × Nat) → State → State} (h : InForm s) (hk : ∀ a s, InForm s → InForm (k a s)) :
    InForm (withSpad s opc bytes load sbc lanes k) := by
  unfold withSpad
  exact inForm_withAcquired h fun _ h => hk _ _ (inForm_foldl (inForm_openWorks (inForm_takeFaults h)) fun _ _ h => inForm_split h)

theorem inForm_ldsWord {s : State} {h : Hdr} {d : Reg} {m : MemOp} (hs : InForm s) : InForm (ldsWord s h d m) := by
  unfold ldsWord
  exact inForm_withCounter hs fun _ h => inForm_withSpad h fun _ _ h => inForm_finish
      (inForm_addLoads (inForm_foldl h fun _ _ h => inForm_fixOver h))

theorem formOut_execLds {h : Hdr} {d : Reg} {m : MemOp} {s : State} (hs : InForm s) : FormOut (execLds h d m s) :=
  formOut_next (inForm_ldsWord hs)

theorem inForm_stsGo {s : State} {h : Hdr} {bytes : Nat} {oks : List (Nat × LaneEnt × Nat)} {rel : Bool} {data : Nat × LaneEnt → List Byte}
    (hs : InForm s) : InForm (stsGo s h bytes oks rel data) :=
  inForm_finish (inForm_commitStore (inForm_pushStores (inForm_foldl hs fun _ _ h => inForm_fixOver h)))

theorem formOut_execSts {h : Hdr} {d : Reg} {m : MemOp} {s : State} (hs : InForm s) : FormOut (execSts h d m s) :=
  formOut_next (inForm_withCounter hs fun _ h => inForm_withRoom h fun _ h => inForm_withSpad h fun _ _ h => inForm_ite
      (inForm_withAccesses h fun _ h => inForm_stsGo h) (inForm_stsGo h))

theorem formOut_execStsc {h : Hdr} {d : Reg} {m : MemOp} {s : State} (hs : InForm s) : FormOut (execStsc h d m s) := by
  unfold execStsc
  refine formOut_next (inForm_withRoom hs fun _ h => ?_)
  split
  · exact inForm_finish h
  · refine inForm_withAcquired h fun _ h => ?_
    dsimp only
    split
    · exact inForm_finish (inForm_takeFaults h)
    · exact inForm_finish (inForm_split h)
    · exact inForm_stsGo h

theorem inForm_constBytes {s : State} {w : Warp} {va pa n : Nat} (h : InForm s) : InForm (constBytes s w va pa n).2 := by
  unfold constBytes
  dsimp only
  split <;> refine inForm_foldl_snd (inForm_pair ?_) fun p i hp => inForm_ite_snd hp (inForm_pair (inForm_coin hp))
  · exact h
  · exact inForm_pair (inForm_updMM (inForm_codePut (inForm_codeFill h)))

theorem formOut_execLdc {h : Hdr} {d : Reg} {m : MemOp} {s : State} (hs : InForm s) : FormOut (execLdc h d m s) := by
  unfold execLdc
  refine formOut_next (inForm_withCounter hs fun _ h => inForm_withXlate h fun _ _ h => inForm_finish
      (inForm_addLoads (inForm_foldl_snd (inForm_foldl_snd (inForm_foldl_snd h fun _ _ h => inForm_constBytes h)
      fun _ _ h => inForm_constBytes h) fun _ _ h => inForm_ite_snd (inForm_constBytes h) ?_)))
  split
  · exact inForm_constBytes h
  · exact h

theorem formOut_execLdsc {h : Hdr} {o : Reg} {m : MemOp} {s : State} (hs : InForm s) : FormOut (execLdsc h o m s) :=
  formOut_next (inForm_withCounter hs fun _ h => inForm_withRoom h fun _ h => inForm_withXlate h fun _ _ h => inForm_withSpad h
      fun _ _ h => inForm_stsGo (inForm_foldl_snd (inForm_pair (inForm_takeFaults h)) fun _ _ h => inForm_constBytes h))

theorem formOut_execPref {h : Hdr} {m : MemOp} {s : State} (hs : InForm s) : FormOut (execPref h m s) := by
  unfold execPref
  refine formOut_next (inForm_finish (inForm_foldl hs fun _ _ h => inForm_ite h ?_))
  split
  · rename_i e1
    split
    · refine inForm_share ?_ fun k =>
        inForm_ite (inForm_snd e1 k) (inForm_ite (inForm_llcEnsure (inForm_countReq (inForm_snd e1 k))) (inForm_l1Fill (inForm_snd e1 k)))
      split
      · exact h
      · exact inForm_xlateNow h
    · refine inForm_snd e1 ?_
      split
      · exact h
      · exact inForm_xlateNow h

theorem formOut_execCctlWb {h : Hdr} {m : MemOp} {s : State} (hs : InForm s) : FormOut (execCctlWb h m s) :=
  formOut_next (inForm_withXlate hs fun _ _ h => inForm_ite (inForm_finish h)
      (inForm_ite (inForm_finish (inForm_commitLanes h)) (inForm_withDrain h fun _ h => inForm_ite
      (inForm_finish (inForm_commitLanes (inForm_updWarp (inForm_foldl_snd h fun _ _ h => inForm_sendLine h))))
      (inForm_parkHere (inForm_updWarp (inForm_foldl_snd h fun _ _ h => inForm_sendLine h))))))

theorem formOut_execCctlInv {h : Hdr} {m : MemOp} {s : State} (hs : InForm s) : FormOut (execCctlInv h m s) :=
  formOut_next (inForm_withXlate hs fun _ _ h => inForm_finish (inForm_foldl h fun _ _ h => inForm_setL1 h))

theorem formOut_execCctlIvc {h : Hdr} {m : MemOp} {s : State} (hs : InForm s) : FormOut (execCctlIvc h m s) :=
  formOut_next (inForm_finish (inForm_updMM (inForm_takeFaults hs)))

theorem formOut_execCctlIvcAll {h : Hdr} {s : State} (hs : InForm s) : FormOut (execCctlIvcAll h s) :=
  formOut_next (inForm_finish (inForm_ite hs (inForm_updMM hs)))

theorem formOut_execCctlIviAll {h : Hdr} {s : State} (hs : InForm s) : FormOut (execCctlIviAll h s) :=
  formOut_next (inForm_finish (inForm_ite hs (inForm_updMM hs)))

theorem inForm_fenceAcquire {s : State} {h : Hdr} {lanes : List (Nat × LaneEnt)} {sc : Scope} (hs : InForm s) :
    InForm (fenceAcquire s h lanes sc) := by
  unfold fenceAcquire
  exact inForm_withLoads hs fun _ h => inForm_finish (inForm_ite (inForm_commitLanes h) (inForm_acquireL1 (inForm_commitLanes h)))

theorem inForm_fenceRelease {s : State} {lanes : List (Nat × LaneEnt)} {sc : Scope} {k : State → State} (h : InForm s)
    (hk : ∀ s, InForm s → InForm (k s)) : InForm (fenceRelease s lanes sc k) :=
  inForm_ite (inForm_withGroupRelease h fun _ h => hk _ h) (inForm_withRelease h fun _ h => hk _ h)

theorem formOut_execFenceAcq {h : Hdr} {sc : Scope} {s : State} (hs : InForm s) : FormOut (execFenceAcq h sc s) :=
  formOut_next (inForm_ite (inForm_finish hs) (inForm_fenceAcquire hs))

theorem formOut_execFenceRel {h : Hdr} {sc : Scope} {s : State} (hs : InForm s) : FormOut (execFenceRel h sc s) :=
  formOut_next (inForm_ite (inForm_finish hs) (inForm_fenceRelease hs fun _ h => inForm_finish (inForm_commitLanes h)))

theorem formOut_execFenceAcqrel {h : Hdr} {sc : Scope} {s : State} (hs : InForm s) : FormOut (execFenceAcqrel h sc s) :=
  formOut_next (inForm_ite (inForm_finish hs) (inForm_fenceRelease hs fun _ h => inForm_fenceAcquire h))

theorem inForm_withLines {s : State} {h : Hdr} {opc : Nat} {m : MemOp} {k : List (Nat × LaneEnt × Nat) → State → State} (hs : InForm s)
    (hk : ∀ a s, InForm s → InForm (k a s)) : InForm (withLines s h opc m k) :=
  hk _ _ (inForm_takeFaults hs)

theorem inForm_afterSpadStores {s : State} {lanes : List (Nat × LaneEnt)} {k : State → State} (h : InForm s)
    (hk : ∀ s, InForm s → InForm (k s)) : InForm (afterSpadStores s lanes k) :=
  inForm_ite (hk _ h) (inForm_parkHere (inForm_commitHomes h))

theorem inForm_presenceWord {s : State} {h : Hdr} {opc : Nat} {m : MemOp} {f : Presence → Presence} (hs : InForm s) :
    InForm (presenceWord s h opc m f) := by
  unfold presenceWord
  exact inForm_withAcquired hs fun _ h => inForm_afterSpadStores h fun _ h => inForm_withLines h fun _ _ h => inForm_finish
      (inForm_foldl (inForm_foldl h fun _ _ h => inForm_fixOver h) fun _ _ h => inForm_setPresence h)

theorem formOut_execPrset {h : Hdr} {m : MemOp} {s : State} (hs : InForm s) : FormOut (execPrset h m s) :=
  formOut_next (inForm_presenceWord hs)

theorem formOut_execPrclr {h : Hdr} {m : MemOp} {s : State} (hs : InForm s) : FormOut (execPrclr h m s) :=
  formOut_next (inForm_presenceWord hs)

theorem formOut_execPrtst {h : Hdr} {d : Reg} {m : MemOp} {s : State} (hs : InForm s) : FormOut (execPrtst h d m s) :=
  formOut_next (inForm_withLines hs fun _ _ h => inForm_putVals h)

/-! ### Rules for the functions of Machine/AtomWords.lean -/

theorem inForm_splitFull {s : State} {l : List (Acc × Xl)} (h : InForm s) : InForm (splitFull s l).2 :=
  inForm_ite_snd h (inForm_split h)

theorem inForm_sendRequest {s : State} {opc bytes : Nat} {kind : SvcKind} {data : Nat} {d : Option Nat} {acq wide : Bool}
    {work : Option Nat} {a : Acc} {t : Xl} (h : InForm s) : InForm (sendRequest s opc bytes kind data d acq wide work a t).2 := by
  unfold sendRequest
  refine inForm_pair (inForm_updMM (inForm_fresh ?_))
  split
  · exact inForm_pair (inForm_giveBack h)
  · exact inForm_pair (inForm_updWK (inForm_fresh (inForm_giveBack h)))

theorem inForm_sendRequests {s : State} {opc bytes : Nat} {d : Option Nat} {acq wide : Bool} {mk : Acc → SvcKind × Nat}
    {l : List (Acc × Xl)} (h : InForm s) : InForm ((sendRequests s opc bytes d acq wide mk l).2).2 := by
  unfold sendRequests
  exact inForm_foldl_snd (inForm_foldl (inForm_takeWorks (inForm_splitFull h)) fun _ _ h => inForm_addParts h)
      fun _ _ h => inForm_sendRequest h

theorem inForm_withOrder {s : State} {ord : Bool} {sc : Scope} {lanes : List (Nat × LaneEnt)} {k : State → State} (h : InForm s)
    (hk : ∀ s, InForm s → InForm (k s)) : InForm (withOrder s ord sc lanes k) :=
  inForm_ite (inForm_withDrain h fun _ h => hk _ h) (inForm_ite (inForm_withGroupRelease h fun _ h => hk _ h)
      (inForm_withRelease h fun _ h => hk _ h))

theorem inForm_acquireEnd {s : State} {h : Hdr} {sc : Scope} (hs : InForm s) : InForm (acquireEnd s h sc) :=
  inForm_finish (inForm_ite hs (inForm_acquireL1 hs))

theorem inForm_svcWord {s : State} {h : Hdr} {x : SvcWord} {ea : Nat → LaneEnt → Nat} {mk : Nat → LaneEnt → SvcKind × Nat}
    (hs : InForm s) : InForm (svcWord s h x ea mk) := by
  unfold svcWord
  refine inForm_ite (inForm_acquireEnd hs) (inForm_withCounter hs fun s hs => inForm_withXlate hs fun oks s hs => ?_)
  extract_lets send ranges go
  have hsend : ∀ s, InForm s → InForm (send s) := fun s hs => by
    unfold send
    split
    rename_i e
    have hr := inForm_trd e (inForm_sendRequests hs)
    exact inForm_ite (inForm_parkHere (inForm_updWarp (inForm_ite (inForm_commitLanes hr) hr)))
      (inForm_finish (inForm_ite (inForm_commitLanes hr) hr))
  have hgo : ∀ s, InForm s → InForm (go s) := fun s hs =>
    inForm_ite (hsend _ (inForm_foldl hs fun _ _ h => inForm_fixOver h)) (inForm_withOverlap hs hsend)
  exact inForm_ite (inForm_finishNone hs) (inForm_ite (inForm_withOrder hs hgo) (hgo s hs))

theorem inForm_helperZeros {s : State} {h : Hdr} {d : Option Nat} {words : Nat} (hs : InForm s) : InForm (helperZeros s h d words) := by
  unfold helperZeros
  split
  · exact hs
  · exact inForm_foldl hs fun _ _ h => inForm_updWarp h

theorem inForm_someOrder {α : Type} {fuel : Nat} {l : List α} {s : State} (h : InForm s) : InForm (someOrder fuel l s).2 := by
  induction fuel generalizing s l with
  | zero => exact h
  | succ n ih =>
    unfold someOrder
    split
    · exact h
    · exact ih (inForm_drawFree h)

theorem inForm_spadAtom {s : State} {core addr bytes : Nat} {k : SvcKind} {data : Nat} (h : InForm s) :
    InForm (spadAtom s core addr bytes k data).2 := by
  unfold spadAtom
  dsimp only
  split
  · exact inForm_foldl h fun _ _ h => inForm_setSpadByte h
  · exact h

theorem inForm_spadWord {s : State} {h : Hdr} {opc : Nat} {d : Option Nat} {m : AtomMem} {mk : Nat → LaneEnt → SvcKind × Nat}
    (hs : InForm s) : InForm (spadWord s h opc d m mk) := by
  unfold spadWord
  exact inForm_withCounter hs fun _ h => inForm_ite (inForm_finish h) (inForm_withOrder h fun _ h => inForm_withSpad h
      fun _ _ h => inForm_finish (inForm_commitLanes (inForm_addLoads (inForm_foldl_snd
      (inForm_someOrder (inForm_foldl h fun _ _ h => inForm_fixOver h)) fun _ _ h => inForm_spadAtom h))))

theorem inForm_atomWord {s : State} {h : Hdr} {opc : Nat} {d : Option Nat} {m : AtomMem} {mk : Nat → LaneEnt → SvcKind × Nat}
    (hs : InForm s) : InForm (atomWord s h opc d m mk) :=
  inForm_ite (inForm_spadWord (inForm_helperZeros hs)) (inForm_svcWord (inForm_helperZeros hs))

theorem formOut_execAtom {h : Hdr} {d y : Reg} {op : AOp} {m : AtomMem} {s : State} (hs : InForm s) : FormOut (execAtom h d y op m s) :=
  formOut_next (inForm_atomWord hs)

theorem formOut_execAtomcas {h : Hdr} {d y : Reg} {m : AtomMem} {s : State} (hs : InForm s) : FormOut (execAtomcas h d y m s) :=
  formOut_next (inForm_atomWord hs)

theorem formOut_execRed {h : Hdr} {y : Reg} {op : AOp} {m : AtomMem} {s : State} (hs : InForm s) : FormOut (execRed h y op m s) :=
  formOut_next (inForm_atomWord hs)

theorem formOut_execBsig {h : Hdr} {y : Reg} {m : MemOp} {s : State} (hs : InForm s) : FormOut (execBsig h y m s) :=
  formOut_next (inForm_svcWord hs)

theorem formOut_execBwait {h : Hdr} {y : Reg} {m : MemOp} {s : State} (hs : InForm s) : FormOut (execBwait h y m s) :=
  formOut_next (inForm_svcWord hs)

theorem formOut_execBpoll {h : Hdr} {d : Reg} {m : MemOp} {s : State} (hs : InForm s) : FormOut (execBpoll h d m s) :=
  formOut_next (inForm_svcWord (inForm_helperZeros hs))

theorem inForm_sendArrivals {s : State} {w : Warp} {lanes : List (Nat × LaneEnt)} (h : InForm s) : InForm (sendArrivals s w lanes) :=
  inForm_foldl h fun _ _ h => inForm_updMM (inForm_fresh h)

theorem formOut_execGsync {h : Hdr} {span : Bool} {s : State} (hs : InForm s) : FormOut (execGsync h span s) := by
  refine formOut_next (inForm_ite (inForm_finish hs) (inForm_ite (inForm_withRelease hs fun _ h => ?_)
    (inForm_withGroupRelease hs fun _ h => ?_)))
  all_goals
    refine inForm_ite (inForm_finish (inForm_gsyncRelease (inForm_commitLanes h)))
      (inForm_share (inForm_ite (inForm_commitLanes h) (inForm_split (inForm_commitLanes h))) fun h1 => inForm_ite (inForm_finish h1) ?_)
    exact inForm_share (inForm_updWarp (inForm_stepPast (inForm_split h1))) fun h2 =>
      inForm_finish (inForm_ite (inForm_sendArrivals h2) h2)

theorem inForm_answerRequest {s : State} {r : SvcReq} {val : Nat} (h : InForm s) : InForm (answerRequest s r val) := by
  unfold answerRequest
  split
  · exact h
  · exact inForm_updWK h

theorem inForm_endRequest {s : State} {id : Nat} {r : SvcReq} (h : InForm s) : InForm (endRequest s id r) :=
  inForm_checkGroupEnd (inForm_finishWorks (inForm_updMM h))

theorem inForm_testWait {s : State} {id : Nat} {r : SvcReq} (h : InForm s) : InForm (testWait s id r) := by
  unfold testWait
  dsimp only
  exact inForm_ite (inForm_endRequest (inForm_svcRead h)) (inForm_ite (inForm_svcRead h) (inForm_updMM (inForm_svcRead h)))

theorem inForm_dropStale {s : State} {r : SvcReq} (h : InForm s) : InForm (dropStale s r) := by
  unfold dropStale
  exact inForm_setL1 (inForm_receiveDrops h)

theorem inForm_performRequest {s : State} {id : Nat} {r : SvcReq} (h : InForm s) : InForm (performRequest s id r) := by
  unfold performRequest
  dsimp only
  split
  · exact inForm_gsyncTest (inForm_endRequest h)
  · refine inForm_share (inForm_endRequest (inForm_answerRequest (inForm_openField (inForm_countReq h)))) fun h1 =>
      inForm_share ?_ fun h2 =>
        inForm_share (inForm_endRequest (inForm_answerRequest (inForm_dropStale (inForm_ite (inForm_postCommand h2) h2)))) fun h3 =>
          inForm_ite (inForm_testWait (inForm_countReq h)) (inForm_ite (inForm_ite (inForm_acquireL1 h1) h1)
              (inForm_ite (inForm_acquireL1 h3) h3))
    split
    · exact inForm_svcWrite (inForm_svcRead (inForm_countReq h))
    · exact inForm_svcRead (inForm_countReq h)

theorem formOut_execServiceWarpRequest {cove item : Nat} {s : State} (h : InForm s) : FormOut (execServiceWarpRequest cove item s) := by
  unfold execServiceWarpRequest
  split
  · exact formOut_next h
  · exact formOut_ite (formOut_next h) (formOut_ite (formOut_next h) (formOut_next (inForm_performRequest h)))

theorem formOut_execBwaitRetest {cove item : Nat} {s : State} (h : InForm s) : FormOut (execBwaitRetest cove item s) := by
  unfold execBwaitRetest
  split
  · exact formOut_next h
  · exact formOut_ite (formOut_next (inForm_testWait h)) (formOut_next h)

/-! ### Rules for the functions of Machine/ControlWords.lean -/

theorem formOut_execNop {h : Hdr} {s : State} (hs : InForm s) : FormOut (execNop h s) :=
  formOut_next (inForm_finish hs)

theorem inForm_branchTo {s : State} {h : Hdr} {prio : Nat} {go : List (Nat × LaneEnt × DWord)} (hs : InForm s) :
    InForm (branchTo s h prio go) :=
  inForm_updWarp (inForm_foldl hs fun _ _ h => inForm_updThread h)

theorem inForm_noteBack {s : State} {go : List (Nat × LaneEnt × DWord)} (h : InForm s) : InForm (noteBack s go) := by
  unfold noteBack
  split
  · exact h
  · exact inForm_ite (inForm_updWarp h) h

theorem formOut_execBra {h : Hdr} {u : Bool} {prio : Fin 16} {off : BitVec 32} {s : State} (hs : InForm s) :
    FormOut (execBra h u prio off s) :=
  formOut_ite (formOut_next (inForm_faultWord hs)) (formOut_next (inForm_finish (inForm_noteBack (inForm_branchTo hs))))

theorem formOut_execCall {h : Hdr} {u : Bool} {prio : Fin 16} {link : Reg} {off : BitVec 32} {s : State} (hs : InForm s) :
    FormOut (execCall h u prio link off s) :=
  formOut_ite (formOut_next (inForm_faultWord hs)) (formOut_next (inForm_finish (inForm_branchTo (inForm_writeDst hs))))

theorem inForm_branchReg {s : State} {h : Hdr} {u : Bool} {prio : Nat} {tgt : Reg} {opc : Nat} {brx : Bool} (hs : InForm s) :
    InForm (branchReg s h u prio tgt opc brx) :=
  inForm_ite (inForm_faultWord hs) (inForm_finish (inForm_ite (inForm_noteBack (inForm_branchTo (inForm_takeFaults hs)))
      (inForm_branchTo (inForm_takeFaults hs))))

theorem formOut_execBrx {h : Hdr} {u : Bool} {prio : Fin 16} {tgt : Reg} {s : State} (hs : InForm s) : FormOut (execBrx h u prio tgt s) :=
  formOut_next (inForm_branchReg hs)

theorem formOut_execRet {h : Hdr} {u : Bool} {prio : Fin 16} {tgt : Reg} {s : State} (hs : InForm s) : FormOut (execRet h u prio tgt s) :=
  formOut_next (inForm_branchReg hs)

theorem inForm_awaitRegs {s : State} {gi : Nat} {hs regs : List Nat} (h : InForm s) : InForm (awaitRegs s gi hs regs) :=
  inForm_foldl h fun _ _ h => inForm_updHWarp h

theorem formOut_execTrl {w : Bool} {r0 r1 r2 r3 : Option Reg} {s : State} (h : InForm s) : FormOut (execTrl w r0 r1 r2 r3 s) :=
  formOut_next (inForm_finish (inForm_awaitRegs h))

theorem inForm_exitTrailer {s : State} {h : Hdr} (hs : InForm s) : InForm (exitTrailer s h).2 := by
  unfold exitTrailer
  refine inForm_ite_snd hs ?_
  dsimp only
  split <;> rename_i e1 <;> have h1 := inForm_snd e1 (inForm_fetchWord hs)
  · split <;> exact h1
  · exact h1

theorem formOut_execExit {h : Hdr} {s : State} (hs : InForm s) : FormOut (execExit h s) :=
  inForm_share (inForm_updWarp (inForm_commitLanes (inForm_awaitRegs (inForm_exitTrailer hs)))) fun k =>
    formOut_ite (formOut_next (inForm_finish hs)) (formOut_next (inForm_finish (inForm_exitLanes (inForm_ite (inForm_closeRun k) k))))

theorem inForm_joinLeave {s : State} {h : Hdr} {k : Nat} {f : Word → Nat → Word} (hs : InForm s) : InForm (joinLeave s h k f) :=
  inForm_finish (inForm_foldl (inForm_foldl hs fun _ _ h => inForm_setK h) fun _ _ h => inForm_kTest h)

theorem formOut_execJoin {h : Hdr} {k : Fin 12} {s : State} (hs : InForm s) : FormOut (execJoin h k s) :=
  formOut_next (inForm_joinLeave hs)

theorem formOut_execLeave {h : Hdr} {k : Fin 12} {s : State} (hs : InForm s) : FormOut (execLeave h k s) :=
  formOut_next (inForm_joinLeave hs)

theorem inForm_kArrive {s : State} {h : Hdr} {k : Nat} {lanes : List (Nat × LaneEnt)} {hw : Nat} (hs : InForm s) :
    InForm (kArrive s h k lanes hw) :=
  inForm_ite (inForm_kRelease hs) (inForm_updWarp (inForm_stepPast (inForm_split hs)))

theorem formOut_execKwait {h : Hdr} {k : Fin 12} {s : State} (hs : InForm s) : FormOut (execKwait h k s) :=
  formOut_next (inForm_withGroupRelease hs fun _ h => inForm_finish (inForm_foldl (inForm_commitLanes h) fun _ _ h => inForm_kArrive h))

theorem formOut_execRgn {h : Hdr} {s : State} (hs : InForm s) : FormOut (execRgn h s) :=
  formOut_next (inForm_finish (inForm_commitLanes (inForm_foldl hs fun _ _ h => inForm_updThread h)))

theorem formOut_execYield {h : Hdr} {s : State} (hs : InForm s) : FormOut (execYield h s) :=
  formOut_next (inForm_finish (inForm_ite hs (inForm_updWarp hs)))

theorem inForm_trapLanes {s : State} {h : Hdr} {opc code : Nat} {arg : BitVec 16} (hs : InForm s) :
    InForm (trapLanes s h opc code arg) := by
  unfold trapLanes
  exact inForm_finish (inForm_takeFaults (inForm_commitLanes hs))

theorem formOut_execTrap {h : Hdr} {code : BitVec 16} {s : State} (hs : InForm s) : FormOut (execTrap h code s) :=
  formOut_next (inForm_trapLanes hs)

theorem formOut_execBrk {h : Hdr} {code : BitVec 16} {s : State} (hs : InForm s) : FormOut (execBrk h code s) :=
  formOut_ite (formOut_next (inForm_trapLanes hs)) (formOut_next (inForm_finish hs))

theorem formOut_execSpri {h : Hdr} {prio : Fin 16} {s : State} (hs : InForm s) : FormOut (execSpri h prio s) :=
  formOut_next (inForm_finish (inForm_foldl hs fun _ _ h => inForm_updThread h))

/-! ### Rules for the functions of Machine/ConvWords.lean -/

theorem formOut_execCvt {h : Hdr} {d a : Reg} {dt st : CvtTy} {rm : Rm} {ma : SMod} {sat ftz : Bool} {s : State} (hs : InForm s) :
    FormOut (execCvt h d a dt st rm ma sat ftz s) :=
  formOut_next (inForm_roundedWord hs)

theorem formOut_execPack2 {h : Hdr} {d a b : Reg} {kind : PackKind} {rm : Rm} {ma mb : SMod} {sat ftz : Bool} {s : State} (hs : InForm s) :
    FormOut (execPack2 h d a b kind rm ma mb sat ftz s) :=
  formOut_next (inForm_roundedWord hs)

theorem formOut_execBlkenc {h : Hdr} {d a : Reg} {scale : Option Reg} {fmt : BFmt} {z : Fin 8} {rm : Rm} {ftz : Bool} {s : State}
    (hs : InForm s) : FormOut (execBlkenc h d a scale fmt z rm ftz s) :=
  formOut_next (inForm_putVals (inForm_ite (inForm_setGens hs) hs))

theorem formOut_execBlkdec {h : Hdr} {d a : Reg} {c4 : Bool} {z : Fin 8} {ftz : Bool} {s : State} (hs : InForm s) :
    FormOut (execBlkdec h d a c4 z ftz s) :=
  formOut_next (inForm_putVals (inForm_takeFaults (inForm_ite (inForm_updCtx hs) hs)))

theorem formOut_execBlkhdrMake {h : Hdr} {d a : Reg} {fmt : BFmt} {c : Bool} {z : Fin 8} {s : State} (hs : InForm s) :
    FormOut (execBlkhdrMake h d a fmt c z s) :=
  formOut_next (inForm_unaryWord hs)

theorem formOut_execBlkhdrChk {h : Hdr} {d a : Reg} {c4 c : Bool} {z : Fin 8} {s : State} (hs : InForm s) :
    FormOut (execBlkhdrChk h d a c4 c z s) :=
  formOut_next (inForm_unaryWord hs)

/-! ### Rules for the functions of Machine/Engines.lean -/

theorem inForm_updCmd {s : State} {id : Nat} {f : Cmd → Cmd} (h : InForm s) : InForm (s.updCmd id f) :=
  inForm_updEN h

theorem inForm_reach {s : State} {c : Cmd} {kind : AccKind} {va : Nat} (h : InForm s) : InForm (reach s c kind va).2 := by
  unfold reach
  split <;> rename_i e <;> have hs := inForm_snd e (inForm_xlateNow h)
  · clear e
    rename_i t s'
    generalize onchipPlace s' c.gi t.pa = o
    cases t.ty <;> cases o <;> exact hs
  all_goals exact hs

theorem inForm_reachFor {s : State} {c : Cmd} {sp : Bool} {kind : AccKind} {a : Nat} (h : InForm s) : InForm (reachFor s c sp kind a).2 :=
  inForm_ite_snd h (inForm_reach h)

theorem inForm_updLine {s : State} {gi line : Nat} {f : Presence → Presence} (h : InForm s) : InForm (updLine s gi line f) := by
  unfold updLine
  split
  · exact h
  · exact inForm_ite (inForm_updGroup h) (inForm_setPresence h)

theorem inForm_clearLine {s : State} {id gi line : Nat} (h : InForm s) : InForm (clearLine s id gi line) :=
  inForm_ite h (inForm_updCmd (inForm_updEN (inForm_updLine h)))

theorem inForm_leaveLine {s : State} {id k : Nat} {fault : Bool} (h : InForm s) : InForm (leaveLine s id k fault) :=
  inForm_updCmd (inForm_updEN (inForm_updLine h))

theorem inForm_claimLine {s : State} {id core line : Nat} (h : InForm s) : InForm (claimLine s id core line) :=
  inForm_ite h (inForm_updMM (inForm_fresh h))

theorem inForm_prepare {s : State} {id : Nat} {l : List (List Piece)} (h : InForm s) : InForm (prepare s id l).2 := by
  induction l generalizing s with
  | nil => exact h
  | cons g l ih =>
    unfold prepare
    split
    · exact ih h
    · dsimp only
      split <;> rename_i e <;> have hs := inForm_snd e (inForm_reachFor h)
      · split
        · exact ih (inForm_updCmd (inForm_claimLine hs))
        · exact inForm_ite_snd hs (ih (inForm_updCmd (inForm_clearLine hs)))
        · exact ih (inForm_updCmd hs)
      all_goals exact hs

theorem inForm_dropClaims {s : State} {id : Nat} (h : InForm s) : InForm (dropClaims s id) :=
  inForm_sampleHeld (inForm_updCmd (inForm_updMM h))

theorem inForm_landLate {s : State} {id : Nat} (h : InForm s) : InForm (landLate s id) :=
  inForm_updCmd (inForm_foldl h fun _ _ h => inForm_landRow h)

theorem inForm_stopCmd {s : State} {id : Nat} {why : CmdStop} (h : InForm s) : InForm (stopCmd s id why) :=
  inForm_updCmd (inForm_dropClaims (inForm_landLate h))

theorem inForm_removeCmd {s : State} {id : Nat} (h : InForm s) : InForm (removeCmd s id) :=
  inForm_checkGroupEnd (inForm_updEN h)

theorem inForm_reportCmd {s : State} {id code detail : Nat} {addr : Option Nat} (h : InForm s) :
    InForm (reportCmd s id code detail addr) := by
  unfold reportCmd
  refine inForm_updGroup (inForm_postCommand ?_)
  split
  · exact h
  · exact inForm_openField h

theorem inForm_failCmd {s : State} {id code : Nat} {addr : Option Nat} (h : InForm s) : InForm (failCmd s id code addr) :=
  inForm_removeCmd (inForm_finishWorks (inForm_foldl (inForm_reportCmd (inForm_dropClaims (inForm_landLate h)))
      fun _ _ h => inForm_leaveLine h))

theorem inForm_failFin {s : State} {id code : Nat} {addr : Option Nat} (h : InForm s) : InForm (failFin s id code addr) :=
  inForm_removeCmd (inForm_reportCmd (inForm_ite_snd h (inForm_openField h)))

theorem inForm_flipStage {s : State} {gi hdr stage : Nat} (h : InForm s) : InForm (flipStage s gi hdr stage) := by
  unfold flipStage
  exact inForm_updWK (inForm_setSpadByte (inForm_setSpadByte h))

theorem inForm_takeFin {s : State} {id : Nat} (h : InForm s) : InForm (takeFin s id) := by
  unfold takeFin
  dsimp only
  split
  · exact inForm_removeCmd h
  · exact inForm_ite (inForm_failFin h) (inForm_ite (inForm_failFin h) (inForm_ite (inForm_updCmd h)
        (inForm_ite (inForm_failFin h) (inForm_ite (inForm_removeCmd (inForm_flipStage h)) (inForm_failFin h)))))
  · split <;> rename_i e2 <;> have hs := inForm_snd e2 (inForm_xlateNow h)
    · exact inForm_ite (inForm_failFin hs) (inForm_ite (inForm_updCmd hs)
          (inForm_ite (inForm_failFin hs) (inForm_ite (inForm_failFin (inForm_addWord hs)) (inForm_removeCmd (inForm_addWord hs)))))
    · exact inForm_updCmd hs
    · exact inForm_updCmd (inForm_startRecall hs)
    · exact inForm_ite (inForm_failFin hs) (inForm_updCmd (inForm_engineReq hs))

theorem inForm_completeCmd {s : State} {id : Nat} (h : InForm s) : InForm (completeCmd s id) :=
  inForm_takeFin (inForm_updCmd (inForm_finishWorks (inForm_landLate h)))

theorem inForm_srcGot {s : State} {id move : Nat} {off : ℤ} (h : InForm s) : InForm (srcGot s id move off).2 := by
  unfold srcGot
  dsimp only
  split
  · exact h
  · split
    · exact h
    · split <;> rename_i e3 <;> have hs := inForm_snd e3 (inForm_reachFor h)
      · split
        · exact inForm_llcEnsure hs
        · exact hs
      · exact hs
      · exact hs
      · exact hs
      · exact hs

theorem inForm_pieceData {s : State} {id : Nat} {p : Piece} (h : InForm s) : InForm (pieceData s id p).2 := by
  unfold pieceData
  split
  · exact h
  · refine inForm_foldl_snd h fun _ _ h => ?_
    split
    · exact h
    · split <;> rename_i e3 <;> have hs := inForm_snd e3 (inForm_srcGot h)
      · exact hs
      · exact hs

theorem inForm_granuleData {s : State} {id : Nat} {l : List Piece} (h : InForm s) : InForm (granuleData s id l).2.2 := by
  induction l generalizing s with
  | nil => exact h
  | cons p l ih =>
    unfold granuleData
    split
    rename_i e
    have hs := inForm_snd e (inForm_pieceData h)
    split
    · exact hs
    · exact ih hs

theorem inForm_spadWrite {s : State} {id gi line off : Nat} {l : List Byte} (h : InForm s) : InForm (spadWrite s id gi line off l) := by
  unfold spadWrite
  exact inForm_updEN (inForm_updPT (inForm_foldl h fun _ _ h => inForm_setSpadByte h))

theorem inForm_placeWrite {s : State} {id : Nat} {p : Place} {a : Nat} {l : List Byte} {poison : List Nat} (h : InForm s) :
    InForm (placeWrite s id p a l poison) := by
  unfold placeWrite
  split
  · exact inForm_foldl (inForm_engWrite h) fun _ _ h => inForm_poisonGranule h
  · exact inForm_spadWrite h
  · exact inForm_updCmd h

theorem inForm_meterBytes {s : State} {ctx n : Nat} (h : InForm s) : InForm (meterBytes s ctx n) :=
  inForm_updCtx h

theorem inForm_meetStop {s : State} {id : Nat} {kind : AccKind} {r : Got} (h : InForm s) : InForm (meetStop s id kind r) := by
  unfold meetStop
  split
  · dsimp only
    split <;> rename_i e2 <;> have h1 := inForm_snd e2 (inForm_engineReq h)
    · exact inForm_stopCmd h1
    · exact h1
  · dsimp only
    split <;> rename_i e2 <;> have hs := inForm_snd e2 (inForm_startRecall h)
    · exact inForm_stopCmd (inForm_updXL hs)
    · exact hs
  · exact inForm_failCmd h
  · exact inForm_ite (inForm_stopCmd h) (inForm_updCmd h)
  · exact h
  · exact h

theorem inForm_landGranule {s : State} {id : Nat} {p : Place} {later : List Nat} {line : Nat} (h : InForm s) :
    InForm (landGranule s id p later line) := by
  unfold landGranule
  refine inForm_ite h ?_
  split
  · exact inForm_sampleHeld (inForm_updMM h)
  · exact inForm_leaveLine h
  · exact h

theorem inForm_countReads {s : State} {c : Cmd} {lines : List Nat} (h : InForm s) : InForm (countReads s c lines) :=
  inForm_foldl h fun _ _ h => inForm_countReq h

theorem inForm_writeGranule {s : State} {id : Nat} {pl : Place} {g : List Piece} {rest : List (List Piece)}
    {data : List (Piece × PieceData)} (h : InForm s) : InForm (writeGranule s id pl g rest data) := by
  unfold writeGranule
  refine inForm_share ?_ fun h1 =>
    inForm_share (inForm_updCmd (inForm_landGranule (inForm_charge (inForm_meterBytes (inForm_countReads h1))))) fun h2 =>
      inForm_ite (inForm_completeCmd h2) (inForm_ite (inForm_stopCmd h2) h2)
  split
  · exact inForm_countReq (inForm_foldl h fun _ _ h => inForm_placeWrite h)
  · exact inForm_foldl h fun _ _ h => inForm_placeWrite h

theorem inForm_serveGranule {s : State} {id : Nat} (h : InForm s) : InForm (serveGranule s id) := by
  unfold serveGranule
  dsimp only
  split
  · exact inForm_completeCmd h
  · split
    · exact inForm_ite_snd (inForm_prepare h) h
    · split <;> rename_i e3 <;> have hs := inForm_snd e3 (inForm_reachFor (inForm_ite_snd (inForm_prepare h) h))
      · split
        · refine inForm_meetStop ?_
          split
          · exact inForm_claimLine hs
          · exact hs
        · split
          · rename_i e5
            split
            · refine inForm_failCmd (inForm_trd e5 (inForm_granuleData ?_))
              split
              · exact inForm_claimLine hs
              · exact hs
            · refine inForm_writeGranule (inForm_trd e5 (inForm_granuleData ?_))
              split
              · exact inForm_claimLine hs
              · exact hs
          · rename_i e5
            refine inForm_meetStop (inForm_trd e5 (inForm_granuleData ?_))
            split
            · exact inForm_claimLine hs
            · exact hs
      · exact hs
      · exact inForm_meetStop hs
      · exact inForm_meetStop hs
      · exact inForm_failCmd hs

theorem inForm_readAhead {s : State} {id : Nat} {moves : List Nat} (h : InForm s) : InForm (readAhead s id moves) := by
  unfold readAhead
  dsimp only
  split
  · exact h
  · exact h
  · refine inForm_countReads (inForm_foldl_snd h fun _ _ h => ?_)
    split
    · exact h
    · split
      · rename_i e3
        exact inForm_updCmd (inForm_snd e3 (inForm_srcGot h))
      · exact h

theorem inForm_rejoin {s : State} {cls place ctx : Nat} {others : List Nat} (h : InForm s) : InForm (rejoin s cls place ctx others) := by
  unfold rejoin
  split
  · exact h
  · exact inForm_updPT h

theorem inForm_resumeCmd {s : State} {id : Nat} (h : InForm s) : InForm (resumeCmd s id) :=
  inForm_ite (inForm_updCmd h) h

theorem inForm_turnCmd {s : State} {id : Nat} {serve : State → State} (h : InForm s) (hserve : ∀ s, InForm s → InForm (serve s)) :
    InForm (turnCmd s id serve) := by
  unfold turnCmd
  split
  · exact h
  · refine inForm_ite h ?_
    split
    · exact inForm_ite h (inForm_takeFin h)
    · exact h
    · exact inForm_ite (inForm_resumeCmd h) (inForm_ite (hserve _ (inForm_resumeCmd h))
          (inForm_ite (hserve _ (inForm_updCmd (inForm_resumeCmd h))) (inForm_resumeCmd h)))
    · exact inForm_ite (inForm_resumeCmd h) (inForm_ite (hserve _ (inForm_resumeCmd h))
          (inForm_ite (hserve _ (inForm_updCmd (inForm_resumeCmd h))) (inForm_resumeCmd h)))
    · exact inForm_ite (inForm_resumeCmd h) (inForm_ite (hserve _ (inForm_resumeCmd h))
          (inForm_ite (hserve _ (inForm_updCmd (inForm_resumeCmd h))) (inForm_resumeCmd h)))
    · exact inForm_ite (inForm_resumeCmd h) (inForm_ite (hserve _ (inForm_resumeCmd h))
          (inForm_ite (hserve _ (inForm_updCmd (inForm_resumeCmd h))) (inForm_resumeCmd h)))

theorem inForm_faultTaking {s : State} {h : Hdr} {opc code : Nat} {addr : Option Nat} (hs : InForm s) :
    InForm (faultTaking s h opc code addr) := by
  unfold faultTaking
  exact inForm_finish (inForm_takeFaults hs)

theorem inForm_issueCmd {s : State} {h : Hdr} {lanes : List (Nat × LaneEnt)} {sbc : Option (Fin 6)} {c : Cmd} (hs : InForm s) :
    InForm (issueCmd s h lanes sbc c) := by
  have ht := inForm_updEN (f := fun e => { e with cmds := NMap.insert e.cmds s.fresh.1 c }) (inForm_fresh hs)
  unfold issueCmd
  dsimp only
  generalize hq : (if c.bulk = true then (false, _) else prepare _ _ _) = q
  have hu : InForm q.2 := hq ▸ inForm_ite_snd ht (inForm_prepare ht)
  generalize hv : commitLanes _ _ _ = v
  have hv : InForm v := hv ▸ inForm_commitLanes (inForm_updCmd (inForm_takeWorks (inForm_openWorks (inForm_ite hu (inForm_rejoin hu)))))
  exact inForm_ite (inForm_parkHere hs) (inForm_ite (inForm_finish (inForm_ite (inForm_completeCmd hv) hv))
    (inForm_parkHere (inForm_updWarp (inForm_ite (inForm_completeCmd hv) hv))))

/-! ### Rules for the functions of Machine/CopyWords.lean -/

theorem inForm_withReelGroup {s : State} {h : Hdr} {opc : Nat} {a : CopyArgs} {k : Nat → State → State} (hs : InForm s)
    (hk : ∀ a s, InForm s → InForm (k a s)) : InForm (withReelGroup s h opc a k) := by
  unfold withReelGroup
  refine inForm_ite (hk _ _ hs) ?_
  split <;> rename_i e1 <;> have h1 := inForm_snd e1 (inForm_xlateNow hs)
  · refine inForm_ite (hk _ _ h1) ?_
    split
    · exact hk _ _ h1
    · exact hk _ _ h1
    · exact inForm_faultTaking h1
  · split <;> rename_i e2 <;> have h2 := inForm_snd e2 (inForm_startRecall h1)
    · exact inForm_parkHere (inForm_noteEas h2)
    · exact inForm_parkHere h2
  · exact inForm_parkHere h1
  · exact inForm_ite (inForm_faultTaking h1) (inForm_requestAll h1)

theorem inForm_copyWord {s : State} {h : Hdr} {opc : Nat} {c : CopyOp} {k : CopyKind} (hs : InForm s) : InForm (copyWord s h opc c k) := by
  unfold copyWord
  extract_lets w taking
  split
  · exact inForm_finish hs
  · refine inForm_ite (inForm_finish hs) (inForm_withCounter hs fun _ h => inForm_ite (inForm_parkHere h) (inForm_afterSpadStores h
      fun _ h => inForm_withReelGroup h fun _ _ h => ?_))
    split
    · exact inForm_faultTaking h
    · exact inForm_parkHere h
    · exact inForm_ite (inForm_withRelease h fun _ h => inForm_issueCmd h) (inForm_issueCmd h)

theorem formOut_execCpy {h : Hdr} {c : CopyOp} {s : State} (hs : InForm s) : FormOut (execCpy h c s) :=
  formOut_next (inForm_copyWord hs)

theorem formOut_execCpy2d {h : Hdr} {c : CopyOp} {s : State} (hs : InForm s) : FormOut (execCpy2d h c s) :=
  formOut_next (inForm_copyWord hs)

theorem formOut_execCpyg {h : Hdr} {c : CopyOp} {s : State} (hs : InForm s) : FormOut (execCpyg h c s) :=
  formOut_next (inForm_copyWord hs)

theorem formOut_execCpys {h : Hdr} {c : CopyOp} {s : State} (hs : InForm s) : FormOut (execCpys h c s) :=
  formOut_next (inForm_copyWord hs)

theorem formOut_execCpyf {h : Hdr} {c : CopyOp} {s : State} (hs : InForm s) : FormOut (execCpyf h c s) :=
  formOut_next (inForm_copyWord hs)

theorem formOut_execCopyGranule {cmd : Nat} {ahead : Option (List Nat)} {s : State} (h : InForm s) :
    FormOut (execCopyGranule cmd ahead s) := by
  unfold execCopyGranule
  refine formOut_ite (formOut_next h) ?_
  split
  · exact formOut_next (inForm_turnCmd h fun _ h => inForm_serveGranule h)
  · exact formOut_next (inForm_ite (inForm_readAhead h) h)

theorem formOut_execWaitsb {h : Hdr} {c : Fin 6} {n : Fin 64} {s : State} (hs : InForm s) : FormOut (execWaitsb h c n s) :=
  formOut_ite (formOut_next (inForm_parkHere hs)) (formOut_next (inForm_finish hs))

theorem formOut_execCpyq {h : Hdr} {d : Reg} {clr : Bool} {s : State} (hs : InForm s) : FormOut (execCpyq h d clr s) :=
  formOut_next (inForm_putVals (inForm_ite (inForm_updGroup hs) hs))

theorem formOut_execStwait {h : Hdr} {stage : Reg} {m : MemOp} {s : State} (hs : InForm s) : FormOut (execStwait h stage m s) :=
  formOut_ite (formOut_next (inForm_finish hs)) (formOut_next (inForm_withSpad hs fun _ _ h => inForm_ite
      (inForm_finish (inForm_takeFaults h)) (inForm_parkHere (inForm_updWarp (inForm_takeFaults h)))))

theorem formOut_execStflip {h : Hdr} {stage : Reg} {m : MemOp} {s : State} (hs : InForm s) : FormOut (execStflip h stage m s) :=
  formOut_next (inForm_ite (inForm_finish hs) (inForm_withGroupRelease hs fun _ h => inForm_withSpad h fun _ _ h => inForm_finish
      (inForm_commitLanes (inForm_foldl (inForm_takeFaults h) fun _ _ h => inForm_flipStage h))))

/-! ### Rules for the functions of Machine/CrossWords.lean -/

theorem inForm_threadReg {s : State} {w : Warp} {h l : Nat} {r : Reg} {width : Nat} (hs : InForm s) :
    InForm (threadReg s w h l r width).2 := by
  unfold threadReg
  split
  · exact inForm_pair hs
  · refine inForm_ite_snd (inForm_pair hs) ?_
    split
    · exact inForm_foldl_snd (inForm_pair hs) fun _ _ h => inForm_ite_snd h (inForm_drawFree h)
    · exact inForm_pair hs

theorem inForm_exchange {s : State} {h : Hdr} {d a : Reg} {width : Nat} {p : Option (Fin 8)} {f : Nat → LaneEnt → Nat × Nat × Bool}
    {post : Nat → Nat} (hs : InForm s) : InForm (exchange s h d a width p f post) := by
  unfold exchange
  split
  · exact inForm_putBoth (inForm_foldl_snd hs fun _ _ h => inForm_threadReg h)
  · exact inForm_putVals (inForm_foldl_snd hs fun _ _ h => inForm_threadReg h)

theorem formOut_execShfl {h : Hdr} {d a b : Reg} {p : Option (Fin 8)} {ty : ITy} {mode : ShflMode} {seg : Fin 6} {s : State} (hs : InForm s) :
    FormOut (execShfl h d a b p ty mode seg s) :=
  formOut_next (inForm_exchange hs)

theorem formOut_execShflx {h : Hdr} {d a b : Reg} {p : Option (Fin 8)} {ty : ITy} {s : State} (hs : InForm s) :
    FormOut (execShflx h d a b p ty s) :=
  formOut_next (inForm_exchange hs)

theorem formOut_execQxch {h : Hdr} {d a : Reg} {ty : ITy} {x : Fin 4} {s : State} (hs : InForm s) : FormOut (execQxch h d a ty x s) :=
  formOut_next (inForm_exchange hs)

theorem formOut_execQbcst {h : Hdr} {d a : Reg} {ty : ITy} {q : Fin 4} {s : State} (hs : InForm s) : FormOut (execQbcst h d a ty q s) :=
  formOut_next (inForm_exchange hs)

theorem formOut_execVote {h : Hdr} {d : Reg ⊕ Fin 8} {pa : Fin 8} {neg : Bool} {mode : VoteMode} {s : State} (hs : InForm s) :
    FormOut (execVote h d pa neg mode s) := by
  unfold execVote
  split
  · exact formOut_next (inForm_putVals hs)
  · exact formOut_next (inForm_putPreds hs)

theorem formOut_execMatchLanes {h : Hdr} {d a : Reg} {ty : ITy} {mode : MatchMode} {s : State} (hs : InForm s) :
    FormOut (execMatchLanes h d a ty mode s) :=
  formOut_next (inForm_putVals hs)

theorem formOut_execRedl {h : Hdr} {d a : Reg} {ty : RedTy} {op : RedOp} {rm : Rm} {sat ftz : Bool} {s : State} (hs : InForm s) :
    FormOut (execRedl h d a ty op rm sat ftz s) :=
  formOut_next (inForm_putVals hs)

theorem formOut_execPrfx {h : Hdr} {d a : Reg} {ty : RedTy} {op : RedOp} {excl : Bool} {rm : Rm} {sat ftz : Bool} {s : State}
    (hs : InForm s) : FormOut (execPrfx h d a ty op excl rm sat ftz s) :=
  formOut_next (inForm_putVals hs)

theorem formOut_execLmap {h : Hdr} {d : Reg} {form : LmapForm} {s : State} (hs : InForm s) : FormOut (execLmap h d form s) :=
  formOut_next (inForm_putVals hs)

/-! ### Rules for the functions of Machine/Fabric.lean -/

theorem inForm_withdraw {s : State} {entry : Nat} (h : InForm s) : InForm (withdraw s entry) :=
  inForm_updFB h

theorem inForm_requestEnrol {s : State} {entry : Nat} (h : InForm s) : InForm (requestEnrol s entry) := by
  unfold requestEnrol
  split
  · rename_i e1
    dsimp only
    split
    · exact h
    · split
      · exact inForm_ite (inForm_updFB h) h
      · exact inForm_updFB (inForm_snd e1 (inForm_fresh h))

theorem inForm_setEnrolled {s : State} {entry : Nat} {b : Bool} (h : InForm s) : InForm (setEnrolled s entry b) :=
  inForm_updFB h

theorem inForm_changeEntry {s : State} {entry : Nat} {l : Option (List Byte)} (h : InForm s) : InForm (changeEntry s entry l) := by
  unfold changeEntry
  split
  · exact inForm_updFB (inForm_withdraw h)
  · exact inForm_requestEnrol (inForm_updFB (inForm_withdraw h))

theorem inForm_nextSeq {s : State} {p : Path} (h : InForm s) : InForm (nextSeq s p).2 := by
  unfold nextSeq
  dsimp only
  exact inForm_updFB h

theorem inForm_sendPacket {s : State} {x : Sender} {d : Descr} {kind : PktKind} {q : Nat} {bytes : List (Nat × Byte)} {addend : Nat}
    (h : InForm s) : InForm (sendPacket s x d kind q bytes addend).2 := by
  unfold sendPacket
  dsimp only
  exact inForm_updFB (inForm_ite (inForm_fresh (inForm_nextSeq h)) (inForm_rejoin (inForm_fresh (inForm_nextSeq h))))

theorem inForm_portServe {fuel : Nat} {s : State} {port id : Nat} (h : InForm s) : InForm (portServe fuel s port id) := by
  induction fuel generalizing s with
  | zero => exact h
  | succ n ih =>
    unfold portServe
    refine inForm_ite h ?_
    split
    · exact h
    · exact ih (inForm_ite (inForm_updFB h) (inForm_charge (inForm_updFB h)))

theorem inForm_leavePort {s : State} {id : Nat} (h : InForm s) : InForm (leavePort s id) := by
  unfold leavePort
  split
  · exact h
  · exact inForm_portServe h

theorem inForm_sendBytes {s : State} {x : Sender} {kind : PktKind} {writes : List (Nat × Byte)} (h : InForm s) :
    InForm (sendBytes s x kind writes).2 :=
  inForm_foldl_snd (inForm_updCtx h) fun _ _ h => inForm_foldl_snd h fun _ _ h => inForm_sendPacket h

theorem inForm_tieWork {s : State} {ids : List Nat} {work : Nat} (h : InForm s) : InForm (tieWork s ids work) :=
  inForm_updFB h

theorem inForm_rxTest {s : State} {rxw q n : Nat} {opens : Bool} (h : InForm s) : InForm (rxTest s rxw q n opens).2 := by
  unfold rxTest
  dsimp only
  refine inForm_ite_snd h (inForm_ite_snd h (inForm_ite_snd h (inForm_ite_snd h ?_)))
  split <;> rename_i e1 <;> have hs := inForm_snd e1 (inForm_xlateNow h)
  · exact inForm_ite_snd hs (inForm_ite_snd hs hs)
  · exact hs
  · exact hs
  · exact hs

theorem inForm_reportDiscard {s : State} {rxw chip q reason : Nat} (h : InForm s) : InForm (reportDiscard s rxw chip q reason) :=
  inForm_ite (inForm_postEvent h) (inForm_postEvent h)

theorem inForm_takeStore {s : State} {rxw chip q : Nat} {bytes : List (Nat × Byte)} {opens : Bool} (h : InForm s) :
    InForm (takeStore s rxw chip q bytes opens).2 := by
  unfold takeStore
  dsimp only
  split <;> rename_i e1 <;> have hs := inForm_snd e1 (inForm_rxTest h)
  · exact hs
  · exact inForm_reportDiscard hs
  · exact inForm_partAdd (inForm_foldl hs fun _ _ h => inForm_partWrite h)

theorem inForm_takeSignal {s : State} {rxw chip q addend : Nat} {opens : Bool} (h : InForm s) :
    InForm (takeSignal s rxw chip q addend opens).2 := by
  unfold takeSignal
  split <;> rename_i e1 <;> have hs := inForm_snd e1 (inForm_rxTest h)
  · exact hs
  · exact inForm_reportDiscard hs
  · exact inForm_ite_snd (inForm_reportWrite hs) (inForm_ite (inForm_reportWrite (inForm_addWord hs)) (inForm_addWord hs))

theorem inForm_takePacket {s : State} {signal : Bool} {x : RxSrc} (h : InForm s) : InForm (takePacket s signal x) := by
  unfold takePacket
  split
  · split
    · exact h
    · exact inForm_share (inForm_ite_snd (inForm_takeSignal (inForm_leavePort h)) (inForm_takeStore (inForm_leavePort h))) fun h1 =>
        inForm_ite h (inForm_ite h1 (inForm_ite (inForm_updFB h1) (inForm_updFB h1)))
  · exact inForm_share (inForm_ite_snd (inForm_takeSignal h) (inForm_takeStore h)) fun h2 => inForm_ite h (inForm_ite (inForm_updFB h2) h2)

theorem inForm_sendResult {s : State} {id : Nat} {e : Enrol} {chip rxw : Nat} {words : List (Nat × Word)} (h : InForm s) :
    InForm (sendResult s id e chip rxw words) :=
  inForm_ite h (inForm_updFB (inForm_fresh h))

theorem inForm_contribute {s : State} {jetty : Nat} {key : List Byte} {rid : Nat} {words : List (Nat × Word)} (h : InForm s) :
    InForm (contribute s jetty key rid words) := by
  unfold contribute
  split
  · exact h
  · exact inForm_foldl (inForm_updFB h) fun _ _ h => inForm_foldl h fun _ _ h => inForm_sendResult h

theorem inForm_ackPacket {s : State} {id : Nat} {p : Packet} {bad : Bool} (h : InForm s) : InForm (ackPacket s id p bad) := by
  unfold ackPacket
  split
  · split
    · exact inForm_finishWorks (inForm_updFB (inForm_contribute (inForm_ite (inForm_postEvent (inForm_leavePort h)) (inForm_leavePort h))))
    · exact inForm_share (inForm_updCmd (inForm_finishWorks (inForm_updFB
          (inForm_contribute (inForm_ite (inForm_postEvent (inForm_leavePort h)) (inForm_leavePort h)))))) fun h1 =>
        inForm_ite (inForm_completeCmd h1) h1
  · split
    · exact inForm_finishWorks (inForm_updFB (inForm_ite (inForm_postEvent (inForm_leavePort h)) (inForm_leavePort h)))
    · exact inForm_share (inForm_updCmd (inForm_finishWorks (inForm_updFB
          (inForm_ite (inForm_postEvent (inForm_leavePort h)) (inForm_leavePort h))))) fun h2 =>
        inForm_ite (inForm_completeCmd h2) h2

/-! ### Rules for the functions of Machine/Serial.lean -/

theorem inForm_eachLane {opc : Nat} {act : State → Nat → LaneEnt → LaneOut} {done : State → State} {l : List (Nat × LaneEnt)} {s : State}
    (hact : ∀ p e s, InForm s → InForm (act s p e).state) (hdone : ∀ s, InForm s → InForm (done s)) (h : InForm s) :
    InForm (eachLane opc act done l s) := by
  induction l generalizing s with
  | nil => exact hdone _ h
  | cons q l ih =>
    unfold eachLane
    dsimp only
    refine inForm_ite (ih h) (inForm_withAcquired h fun s h => ?_)
    split <;> rename_i e <;> have hs := inForm_lane e (hact _ _ _ h)
    · exact ih (inForm_updWarp hs)
    · exact ih (inForm_takeFaults hs)
    · exact inForm_parkHere hs
    · exact hdone _ (inForm_split hs)
    · split <;> rename_i e2 <;> have hq := inForm_snd e2 (inForm_attachReq hs)
      · exact hdone _ (inForm_noteEas (inForm_split (inForm_ite (inForm_writeRequest hq) hq)))
      · exact hdone _ (inForm_split hq)
    · exact hdone _ (inForm_noteEas (inForm_split (inForm_startRecall hs)))

theorem inForm_putSerial {s : State} {h : Hdr} {d : Reg} {width : Nat} (hs : InForm s) : InForm (putSerial s h d width) :=
  inForm_putVals (inForm_commitLanes hs)

theorem inForm_serialWord {s : State} {h : Hdr} {opc : Nat} {d : Reg} {width : Nat} {act : State → Nat → LaneEnt → LaneOut} (hs : InForm s)
    (hact : ∀ s a b, InForm s → InForm (act s a b).state) : InForm (serialWord s h opc d width act) :=
  inForm_eachLane (fun _ _ _ h => hact _ _ _ h) (fun _ h => inForm_putSerial h) hs

theorem inForm_imageAt {s : State} {pl : Nat} {e : LaneEnt} {kind : AccKind} {va align : Nat} {check : State → Xl → Option Nat}
    (h : InForm s) : InForm (imageAt s pl e kind va align check).state := by
  unfold imageAt
  dsimp only
  split
  · exact h
  · exact h
  · exact h
  · exact h
  · split <;> rename_i e2 <;> have hs := inForm_snd e2 (inForm_startWalk h)
    · exact hs
    · exact hs

theorem inForm_imageWaits {s t : State} {e : LaneEnt} {pa n : Nat} {write : Bool} {p : Park} (h : InForm s)
    (hw : imageWaits s e pa n write = some (p, t)) : InForm t := by
  unfold imageWaits at hw
  dsimp only at hw
  split at hw
  · cases hw
    exact h
  · split at hw
    · cases hw
      exact h
    · split at hw
      · cases hw
        exact inForm_commitHomes h
      · cases hw

theorem inForm_readImage {s : State} {pl : Nat} {e : LaneEnt} {va n align : Nat} {k : List Byte → State → LaneOut} (h : InForm s)
    (hk : ∀ l s, InForm s → InForm (k l s).state) : InForm (readImage s pl e va n align k).state := by
  unfold readImage
  dsimp only
  split <;> rename_i e <;> have hs := inForm_image e (inForm_imageAt h)
  · exact hs
  · split
    · exact inForm_imageWaits hs ‹_›
    · exact inForm_ite_lane hs (hk _ _ (inForm_foldl (inForm_fixOver hs) fun _ _ h =>
        inForm_receiveDrops (inForm_llcEnsure (inForm_countReq h))))

theorem inForm_writeImage {s : State} {pl : Nat} {e : LaneEnt} {va n align : Nat} {k : Nat → State → LaneOut} (h : InForm s)
    (hk : ∀ a s, InForm s → InForm (k a s).state) : InForm (writeImage s pl e va n align k).state := by
  unfold writeImage
  split <;> rename_i e <;> have hs := inForm_image e (inForm_imageAt h)
  · exact hs
  · split
    · exact inForm_imageWaits hs ‹_›
    · exact inForm_ite_lane hs (hk _ _ (inForm_fixOver hs))

/-! ### Rules for the functions of Machine/FabricWords.lean -/

theorem inForm_sendHomes {s : State} {oks : List (Acc × Xl)} {send : State → Nat → List (Acc × Xl) → List Nat × State} (h : InForm s)
    (hsend : ∀ s a b, InForm s → InForm (send s a b).2) : InForm (sendHomes s oks send) := by
  unfold sendHomes
  refine inForm_foldl (inForm_takeWorks h) fun _ _ h => ?_
  split
  · rename_i e1
    split
    · exact inForm_snd e1 (hsend _ _ _ h)
    · exact inForm_ite (inForm_finishWork (inForm_snd e1 (hsend _ _ _ h)))
          (inForm_tieWork (inForm_addParts (inForm_snd e1 (hsend _ _ _ h))))

theorem inForm_sendWord {s : State} {h : Hdr} {opc : Nat} {m : MemOp} {bytes align : Nat} {red : Bool}
    {send : State → Nat → List (Acc × Xl) → List Nat × State} (hs : InForm s) (hsend : ∀ s a b, InForm s → InForm (send s a b).2) :
    InForm (sendWord s h opc m bytes align red send) := by
  unfold sendWord
  exact inForm_withCounter hs fun _ h => inForm_withXlate h fun _ _ h => inForm_ite (inForm_finishNone h)
      (inForm_withDrain h fun _ h => inForm_finish (inForm_commitLanes (inForm_sendHomes h fun _ _ _ h => hsend _ _ _ h)))

theorem formOut_execXred {h : Hdr} {y : Reg} {m : MemOp} {s : State} (hs : InForm s) : FormOut (execXred h y m s) :=
  formOut_next (inForm_sendWord hs fun _ _ _ h => inForm_foldl_snd h fun _ _ h => inForm_sendBytes h)

theorem formOut_execXsig {h : Hdr} {y : Reg} {m : MemOp} {s : State} (hs : InForm s) : FormOut (execXsig h y m s) :=
  formOut_next (inForm_sendWord hs fun _ _ _ h => inForm_foldl_snd h fun _ _ h => inForm_foldl_snd h fun _ _ h => inForm_sendPacket h)

theorem formOut_execRfence {h : Hdr} {s : State} (hs : InForm s) : FormOut (execRfence h s) :=
  formOut_next (inForm_ite (inForm_finish hs) (inForm_withDrain hs fun _ h => inForm_ite (inForm_finish (inForm_commitLanes h))
      (inForm_parkHere (inForm_commitLanes (inForm_updWarp h)))))

theorem inForm_withBulkDest {s : State} {h : Hdr} {q : Nat × LaneEnt} {n va : Nat} {k : Nat → Nat → State → State} (hs : InForm s)
    (hk : ∀ a b s, InForm s → InForm (k a b s)) : InForm (withBulkDest s h q n va k) := by
  unfold withBulkDest
  refine inForm_ite (hk _ _ _ hs) (inForm_withXlate hs fun _ _ h => ?_)
  split
  · exact inForm_finish h
  · exact hk _ _ _ h

theorem formOut_execXbulk {h : Hdr} {dst src size : Reg} {gran : Fin 16} {sbc : Option (Fin 6)} {ch : Fin 1024} {ssp rel : Bool} {s : State}
    (hs : InForm s) : FormOut (execXbulk h dst src size gran sbc ch ssp rel s) := by
  unfold execXbulk
  refine formOut_next ?_
  split
  · exact inForm_finish hs
  · refine inForm_withCounter hs fun _ h => inForm_ite (inForm_parkHere h) ?_
    split
    · exact inForm_finish (inForm_takeFaults h)
    · exact inForm_withBulkDest h fun _ _ _ h => inForm_ite (inForm_withRelease h fun _ h => inForm_withDrain h
          fun _ h => inForm_afterSpadStores h fun _ h => inForm_issueCmd h)
          (inForm_withDrain h fun _ h => inForm_afterSpadStores h fun _ h => inForm_issueCmd h)

theorem inForm_bulkPageOk {s : State} {c : Cmd} {va : Nat} (h : InForm s) : InForm (bulkPageOk s c va).2 := by
  unfold bulkPageOk
  refine inForm_ite_snd h (inForm_ite_snd h ?_)
  split <;> rename_i e1 <;> have hs := inForm_snd e1 (inForm_xlateNow h)
  · exact hs
  · exact hs
  · exact hs
  · exact hs

theorem inForm_serveBulk {s : State} {id : Nat} (h : InForm s) : InForm (serveBulk s id) := by
  unfold serveBulk
  dsimp only
  split
  · exact h
  · split <;> rename_i e <;> have hs := inForm_trd e (inForm_granuleData h)
    · exact inForm_meetStop hs
    · split
      · exact inForm_failCmd hs
      · generalize hu : List.foldl _ _ _ = u
        have hu : InForm u.2 := hu ▸ inForm_foldl_snd hs fun _ _ h => inForm_ite_snd (inForm_bulkPageOk h) h
        generalize hv : State.updCmd _ _ _ = v
        have hv : InForm v := hv ▸ inForm_updCmd (inForm_charge (inForm_countReads (inForm_sendBytes hu)))
        exact inForm_ite hu (inForm_ite (inForm_failCmd hu) (inForm_ite (inForm_ite (inForm_completeCmd hv) hv)
          (inForm_ite (inForm_stopCmd hv) hv)))

theorem formOut_execXbulkGranule {cmd : Nat} {ahead : Option (List Nat)} {s : State} (h : InForm s) :
    FormOut (execXbulkGranule cmd ahead s) := by
  unfold execXbulkGranule
  refine formOut_ite (formOut_next h) ?_
  split
  · exact formOut_next (inForm_turnCmd h fun _ h => inForm_serveBulk h)
  · exact formOut_next (inForm_ite (inForm_readAhead h) h)

theorem inForm_wmapDone {s : State} {h : Hdr} (hs : InForm s) : InForm (wmapDone s h) :=
  inForm_ite (inForm_finish hs) (inForm_parkHere (inForm_updWarp hs))

theorem inForm_wmapWord {s : State} {h : Hdr} {idx : Reg} {act : State → Nat → LaneEnt → Nat → LaneOut} (hs : InForm s)
    (hact : ∀ s a b c, InForm s → InForm (act s a b c).state) : InForm (wmapWord s h idx act) :=
  inForm_ite (inForm_finish hs) (inForm_eachLane (fun _ _ _ h => inForm_ite_lane (inForm_bad h) (hact _ _ _ _ h))
      (fun _ h => inForm_wmapDone h) hs)

theorem formOut_execWmapSet {h : Hdr} {idx addr : Reg} {s : State} (hs : InForm s) : FormOut (execWmapSet h idx addr s) :=
  formOut_next (inForm_wmapWord hs fun _ _ _ _ h => inForm_readImage h fun _ _ h => inForm_ite_lane (inForm_ok (inForm_changeEntry h))
      (inForm_bad h))

theorem formOut_execWmapClr {h : Hdr} {idx : Reg} {s : State} (hs : InForm s) : FormOut (execWmapClr h idx s) :=
  formOut_next (inForm_wmapWord hs fun _ _ _ _ h => inForm_ok (inForm_changeEntry h))

theorem formOut_execWmapGet {h : Hdr} {idx addr : Reg} {s : State} (hs : InForm s) : FormOut (execWmapGet h idx addr s) :=
  formOut_next (inForm_eachLane (fun _ _ _ h => inForm_ite_lane (inForm_bad h)
      (inForm_writeImage h fun _ _ h => inForm_ok (inForm_partWrite h))) (fun _ h => inForm_finish h) hs)

theorem formOut_execRxPacket {p : RxSrc} {s : State} (h : InForm s) : FormOut (execRxPacket p s) :=
  formOut_next (inForm_takePacket h)

theorem formOut_execSignalPacket {p : RxSrc} {s : State} (h : InForm s) : FormOut (execSignalPacket p s) :=
  formOut_next (inForm_takePacket h)

theorem formOut_execPacketAck {packet : Nat} {badAuth : Bool} {others : List JContrib} {s : State} (h : InForm s) :
    FormOut (execPacketAck packet badAuth others s) := by
  unfold execPacketAck
  refine formOut_next ?_
  split
  · exact inForm_foldl h fun _ _ h => inForm_contribute h
  · exact inForm_share (inForm_foldl h fun _ _ h => inForm_contribute h) fun k => inForm_ite (inForm_ackPacket k) k

theorem formOut_execFlitReplay {packet : Nat} {s : State} (h : InForm s) : FormOut (execFlitReplay packet s) :=
  formOut_next (inForm_leavePort h)

theorem formOut_execPacketRetransmit {packet : Nat} {s : State} (h : InForm s) : FormOut (execPacketRetransmit packet s) :=
  formOut_next (inForm_updFB (inForm_leavePort h))

theorem formOut_execEnrolmentConfirm {entry : Nat} {s : State} (h : InForm s) : FormOut (execEnrolmentConfirm entry s) := by
  unfold execEnrolmentConfirm
  refine formOut_next ?_
  split
  · exact h
  · exact inForm_setEnrolled (inForm_updFB h)

theorem formOut_execEnrolmentLost {entry : Nat} {s : State} (h : InForm s) : FormOut (execEnrolmentLost entry s) :=
  formOut_next (inForm_ite (inForm_postEvent (inForm_withdraw (inForm_setEnrolled h))) h)

/-! ### Rules for the functions of Machine/MatrixWords.lean -/

theorem inForm_setMqueue {s : State} {core half ctx : Nat} {q : MQueue} (h : InForm s) : InForm (setMqueue s core half ctx q) :=
  inForm_updEN h

theorem inForm_rejoinArray {s : State} {core half ctx : Nat} (h : InForm s) : InForm (rejoinArray s core half ctx) :=
  inForm_ite h (inForm_rejoin h)

theorem inForm_parkGrant {s : State} {ctx core : Nat} (h : InForm s) : InForm (parkGrant s ctx core) :=
  inForm_parkHere (inForm_rejoinArray (inForm_ite (inForm_rejoinArray h) h))

theorem inForm_withArray {s : State} {h : Hdr} {k : List (Nat × LaneEnt) → Nat → LaneEnt → ArrView → State → State} (hs : InForm s)
    (hk : ∀ a b c d s, InForm s → InForm (k a b c d s)) : InForm (withArray s h k) := by
  unfold withArray
  dsimp only
  split
  · exact inForm_finish hs
  · split
    · exact inForm_parkGrant hs
    · exact hk _ _ _ _ _ hs

theorem inForm_setAcc {s : State} {key : Nat} {x : Word} (h : InForm s) : InForm (setAcc s key x) :=
  inForm_updEN h

theorem inForm_withTile {s : State} {h : Hdr} {opc tile : Nat} {v : ArrView} {k : State → State} (hs : InForm s)
    (hk : ∀ s, InForm s → InForm (k s)) : InForm (withTile s h opc tile v k) :=
  inForm_ite (inForm_faultTaking hs) (inForm_ite (inForm_parkHere hs) (hk _ hs))

theorem inForm_stageWrite {s : State} {f : Staging → Staging} (h : InForm s) : InForm (stageWrite s f) :=
  inForm_updGroup (inForm_updWK h)

theorem inForm_seenStaging {s : State} (h : InForm s) : InForm (seenStaging s).2 :=
  inForm_ite_snd (inForm_pair h) (inForm_ite_snd (inForm_drawFree h) (inForm_drawFree h))

theorem inForm_stageOperand {s : State} {h : Hdr} {isB : Bool} {base stride : Reg} {sp : Bool} {fmt : MFmt} {c : Bool} {z : Nat}
    (hs : InForm s) : InForm (stageOperand s h isB base stride sp fmt c z) :=
  inForm_withArray hs fun _ _ _ _ _ h => inForm_finish (inForm_stageWrite h)

theorem formOut_execMxa {h : Hdr} {base stride : Reg} {sp : Bool} {fmt : MFmt} {c : Bool} {z : Fin 8} {s : State} (hs : InForm s) :
    FormOut (execMxa h base stride sp fmt c z s) :=
  formOut_next (inForm_stageOperand hs)

theorem formOut_execMxb {h : Hdr} {base stride : Reg} {sp : Bool} {fmt : MFmt} {z : Fin 8} {s : State} (hs : InForm s) :
    FormOut (execMxb h base stride sp fmt z s) :=
  formOut_next (inForm_stageOperand hs)

theorem formOut_execMxshp {h : Hdr} {dims k : Reg} {s : State} (hs : InForm s) : FormOut (execMxshp h dims k s) :=
  formOut_next (inForm_withArray hs fun _ _ _ _ _ h => inForm_ite (inForm_finish (inForm_stageWrite h)) (inForm_faultTaking h))

theorem formOut_execMxspm {h : Hdr} {bmap : Option (Reg × Bool)} {index : Option (Reg × Bool × Reg)} {s : State} (hs : InForm s) :
    FormOut (execMxspm h bmap index s) :=
  formOut_next (inForm_withArray hs fun _ _ _ _ _ h => inForm_finish (inForm_stageWrite h))

theorem formOut_execMxrun {h : Hdr} {reel : Option Reg} {gran : Fin 16} {sbc : Option (Fin 6)} {acc : Fin 8} {flip : Fin 4} {s : State}
    (hs : InForm s) : FormOut (execMxrun h reel gran sbc acc flip s) := by
  unfold execMxrun
  refine formOut_next (inForm_withArray hs fun _ _ _ _ _ h => inForm_withCounter h fun _ h => inForm_afterSpadStores h fun _ h => ?_)
  split
  · rename_i e1
    split
    all_goals
      dsimp only
      split
      · exact inForm_faultTaking (inForm_snd e1 (inForm_seenStaging h))
      · exact inForm_parkHere (inForm_snd e1 (inForm_seenStaging h))
      · exact inForm_ite (inForm_parkHere (inForm_snd e1 (inForm_seenStaging h)))
            (inForm_finish (inForm_commitLanes (inForm_setMqueue (inForm_takeWorks
            (inForm_openWorks (inForm_rejoinArray (inForm_snd e1 (inForm_seenStaging h))))))))

theorem formOut_execMxcmt {h : Hdr} {d : Reg} {s : State} (hs : InForm s) : FormOut (execMxcmt h d s) :=
  formOut_next (inForm_withArray hs fun _ _ _ _ _ h => inForm_putVals (inForm_updGroup h))

theorem formOut_execMxwb {h : Hdr} {n : Reg} {s : State} (hs : InForm s) : FormOut (execMxwb h n s) :=
  formOut_next (inForm_withArray hs fun _ _ _ _ _ h => inForm_ite (inForm_finish h)
      (inForm_ite (inForm_faultTaking h) (inForm_ite (inForm_finish h) (inForm_parkHere (inForm_updWarp h)))))

theorem formOut_execMxz {h : Hdr} {acc : Fin 8} {s : State} (hs : InForm s) : FormOut (execMxz h acc s) :=
  formOut_next (inForm_withArray hs fun _ _ _ _ _ h => inForm_withTile h fun _ h => inForm_finish (inForm_updEN h))

theorem formOut_execMxrd {h : Hdr} {d index : Reg} {acc : Fin 8} {cnt : MCnt} {s : State} (hs : InForm s) :
    FormOut (execMxrd h d index acc cnt s) := by
  unfold execMxrd
  refine formOut_next (inForm_ite (inForm_finish hs) ?_)
  split
  · exact inForm_parkGrant hs
  · exact inForm_ite (inForm_faultTaking (inForm_writeDst hs)) (inForm_ite (inForm_parkHere hs) (inForm_putVals (inForm_takeFaults hs)))

theorem formOut_execMxwr {h : Hdr} {index y : Reg} {acc : Fin 8} {cnt : MCnt} {s : State} (hs : InForm s) :
    FormOut (execMxwr h index y acc cnt s) := by
  unfold execMxwr
  refine formOut_next (inForm_withArray hs fun _ _ _ _ _ h => inForm_withTile h fun _ h => inForm_finish
      (inForm_foldl (inForm_takeFaults h) fun _ _ h => ?_))
  split
  · exact h
  · exact inForm_foldl h fun _ _ h => inForm_setAcc h

theorem formOut_execMxst {h : Hdr} {stride base : Reg} {sp : Bool} {acc : Fin 8} {cv : MConv} {gran : Fin 16} {sbc : Option (Fin 6)}
    {s : State} (hs : InForm s) : FormOut (execMxst h stride base sp acc cv gran sbc s) :=
  formOut_next (inForm_ite (inForm_finish hs) (inForm_withArray hs fun _ _ _ _ _ h => inForm_withCounter h fun _ h => inForm_withTile h
      fun _ h => inForm_afterSpadStores h fun _ h => inForm_ite (inForm_faultTaking (inForm_seenStaging h))
      (inForm_ite (inForm_faultTaking (inForm_seenStaging h)) (inForm_ite (inForm_faultTaking (inForm_seenStaging h))
      (inForm_ite (inForm_faultTaking (inForm_seenStaging h)) (inForm_ite (inForm_faultTaking (inForm_seenStaging h))
      (inForm_issueCmd (inForm_seenStaging h))))))))

theorem formOut_execMxstGranule {cmd : Nat} {s : State} (h : InForm s) : FormOut (execMxstGranule cmd s) :=
  formOut_next (inForm_ite (inForm_turnCmd h fun _ h => inForm_serveGranule h) h)

theorem formOut_execMxpairOn {h : Hdr} {s : State} (hs : InForm s) : FormOut (execMxpairOn h s) :=
  formOut_next (inForm_withArray hs fun _ _ _ _ _ h => inForm_ite (inForm_finish h)
      (inForm_ite (inForm_faultTaking h) (inForm_ite (inForm_parkGrant h) (inForm_finish (inForm_updEN h)))))

theorem formOut_execMxpairOff {h : Hdr} {s : State} (hs : InForm s) : FormOut (execMxpairOff h s) :=
  formOut_next (inForm_withArray hs fun _ _ _ _ _ h => inForm_ite (inForm_finish h)
      (inForm_ite (inForm_faultTaking h) (inForm_ite (inForm_parkHere h) (inForm_finish (inForm_updEN h)))))

theorem formOut_execMxprog {h : Hdr} {d : Reg} {s : State} (hs : InForm s) : FormOut (execMxprog h d s) :=
  formOut_next (inForm_withArray hs fun _ _ _ _ _ h => inForm_putVals h)

theorem inForm_matReach {s : State} {core ctx gi : Nat} {sp : Bool} {a : Nat} (h : InForm s) : InForm (matReach s core ctx gi sp a).2 := by
  unfold matReach
  refine inForm_ite_snd h ?_
  split <;> rename_i e1 <;> have hs := inForm_snd e1 (inForm_xlateNow h)
  · split <;> exact hs
  · exact hs
  · exact hs
  · exact hs

theorem inForm_opWord {s : State} {core ctx gi : Nat} {sp : Bool} {a : Nat} (h : InForm s) : InForm (opWord s core ctx gi sp a).2 := by
  unfold opWord
  split <;> rename_i e1 <;> have hs := inForm_snd e1 (inForm_matReach h)
  · split
    · exact inForm_llcEnsure hs
    · exact hs
  · exact hs
  · exact hs
  · exact hs
  · exact hs

theorem inForm_opBytes {s : State} {core ctx gi : Nat} {sp : Bool} {a n : Nat} (h : InForm s) :
    InForm (opBytes s core ctx gi sp a n).2.2 := by
  refine inForm_foldl_trd h fun p i hp => ?_
  split
  · exact hp
  · split <;> rename_i e <;> exact inForm_snd e (inForm_opWord hp)

theorem inForm_readItem {s : State} {core ctx : Nat} {c : MCmd} {k : Nat × Nat × Nat} {only : Option Nat} (h : InForm s) :
    InForm (readItem s core ctx c k only).2.2 := by
  unfold readItem
  split
  · exact h
  · refine inForm_foldl_trd h fun p x hp => ?_
    split
    · exact hp
    · split <;> rename_i e <;> have hs := inForm_trd e (inForm_opBytes hp)
      · exact inForm_ite hs (inForm_countReq hs)
      · exact hs

theorem inForm_readItems {core ctx : Nat} {l : List (Nat × Nat × Nat)} {c : MCmd} {s : State} (h : InForm s) :
    InForm (readItems core ctx l c s).2.2 := by
  induction l generalizing c s with
  | nil => exact h
  | cons k l ih =>
    unfold readItems
    split
    · rename_i e
      exact ih (inForm_trd e (inForm_readItem h))
    · exact inForm_readItem h

theorem inForm_addGranule {s : State} {ctx : Nat} {v : ArrView} {c : MCmd} {u : Nat} (h : InForm s) : InForm (addGranule s ctx v c u) :=
  inForm_foldl h fun _ _ h => inForm_foldl h fun _ _ h => inForm_updEN h

theorem inForm_updCount {s : State} {core half ctx : Nat} {f : MCount → MCount} (h : InForm s) : InForm (updCount s core half ctx f) :=
  inForm_updEN h

theorem inForm_setHead {s : State} {core half ctx : Nat} {c : MCmd} (h : InForm s) : InForm (setHead s core half ctx c) :=
  inForm_setMqueue h

theorem inForm_retireHead {s : State} {core half ctx : Nat} {c : MCmd} {last : Nat} (h : InForm s) :
    InForm (retireHead s core half ctx c last) :=
  inForm_checkGroupEnd (inForm_finishWorks (inForm_updCount (inForm_setMqueue h)))

theorem inForm_reportMatrix {s : State} {core ctx : Nat} {c : MCmd} {code addr : Nat} (h : InForm s) :
    InForm (reportMatrix s core ctx c code addr) :=
  inForm_postCommand h

theorem inForm_failMatrix {s : State} {core half ctx : Nat} {c : MCmd} {code addr : Nat} (h : InForm s) :
    InForm (failMatrix s core half ctx c code addr) :=
  inForm_retireHead (inForm_updCount (inForm_reportMatrix h))

theorem inForm_takeMatrixFlip {s : State} {core ctx : Nat} {c : MCmd} {last_ : Bool} (h : InForm s) :
    InForm (takeMatrixFlip s core ctx c last_).2 := by
  unfold takeMatrixFlip
  refine inForm_ite_snd ?_ h
  split
  · exact h
  · exact inForm_flipStage h
  · exact inForm_reportMatrix h

theorem inForm_endMatrix {s : State} {ctx : Nat} {v : ArrView} {c : MCmd} (h : InForm s) : InForm (endMatrix s ctx v c) :=
  inForm_ite (inForm_retireHead (inForm_takeMatrixFlip h)) (inForm_setHead (inForm_takeMatrixFlip h))

theorem inForm_doneGranule {s : State} {ctx : Nat} {v : ArrView} {c : MCmd} (h : InForm s) : InForm (doneGranule s ctx v c) :=
  inForm_share (inForm_charge (inForm_updCount (inForm_updCtx (inForm_addGranule h)))) fun k =>
    inForm_ite (inForm_endMatrix (inForm_ite (inForm_charge k) k)) (inForm_setMqueue
        (inForm_takeMatrixFlip (inForm_ite (inForm_charge k) k)))

theorem inForm_stopMatrix {s : State} {ctx : Nat} {v : ArrView} {c : MCmd} {r : Got} (h : InForm s) : InForm (stopMatrix s ctx v c r) := by
  unfold stopMatrix
  split
  · split <;> rename_i e2 <;> have h1 := inForm_snd e2 (inForm_engineReq h)
    · exact inForm_setHead h1
    · exact inForm_setHead h1
  · split <;> rename_i e2 <;> have hs := inForm_snd e2 (inForm_startRecall h)
    · exact inForm_setHead hs
    · exact inForm_setHead hs
  · exact inForm_failMatrix (inForm_setHead h)
  · exact inForm_setHead h
  · exact inForm_setHead h
  · exact inForm_setHead h

theorem inForm_serveMatrix {s : State} {ctx : Nat} {v : ArrView} {c : MCmd} (h : InForm s) : InForm (serveMatrix s ctx v c) := by
  unfold serveMatrix
  dsimp only
  refine inForm_ite (inForm_endMatrix h) ?_
  split <;> rename_i e1 <;> have h1 := inForm_trd e1 (inForm_readItems h)
  · exact inForm_stopMatrix h1
  · split <;> rename_i e2 <;> have hs := inForm_trd e2 (inForm_readItems h1)
    · exact inForm_stopMatrix hs
    · split
      · exact inForm_failMatrix hs
      · exact inForm_ite (inForm_failMatrix (inForm_openField hs)) (inForm_doneGranule hs)

theorem inForm_readMatrixAhead {s : State} {ctx : Nat} {v : ArrView} {at_ : Nat} {l : List (Nat × Nat × Nat)} (h : InForm s) :
    InForm (readMatrixAhead s ctx v at_ l) := by
  unfold readMatrixAhead
  split
  · exact h
  · exact inForm_ite h (inForm_setMqueue (inForm_takeMatrixFlip (inForm_foldl_snd h fun _ _ h => inForm_ite_snd h (inForm_readItem h))))

theorem formOut_execMatrixGranule {core half : Nat} {ahead : Option (List (Nat × Nat × Nat))} {s : State} (h : InForm s) :
    FormOut (execMatrixGranule core half ahead s) := by
  unfold execMatrixGranule
  refine formOut_next ?_
  split
  · exact h
  · split
    · exact h
    · split
      · exact inForm_foldl h fun _ _ h => inForm_readMatrixAhead h
      · exact inForm_ite h (inForm_serveMatrix (inForm_setHead h))

theorem formOut_execMatrixGrantSwitch {core half ctx : Nat} {s : State} (h : InForm s) : FormOut (execMatrixGrantSwitch core half ctx s) :=
  formOut_next (inForm_ite (inForm_updEN h) h)

/-! ### Rules for the functions of Machine/SysWords.lean -/

theorem inForm_setTenant {s : State} {i : Nat} {f : Tenant → Tenant} (h : InForm s) : InForm (setTenant s i f) :=
  inForm_updPT h

theorem inForm_ringSet {s : State} {t : Nat} {sel : RingSel} {f : Ring → Ring} (h : InForm s) : InForm (ringSet s t sel f) :=
  inForm_updCtx h

theorem inForm_portSet {s : State} {i : Nat} {f : Tenant → Tenant} (h : InForm s) : InForm (portSet s i f) :=
  inForm_setTenant h

theorem inForm_selWrite {s : State} {sel t v : Nat} (h : InForm s) : InForm (selWrite s sel t v) := by
  unfold selWrite
  split
  · exact inForm_updCtx h
  · exact inForm_updCtx h
  · exact inForm_updCtx h
  · exact inForm_ringSet h
  · exact inForm_ringSet h
  · exact inForm_ringSet h
  · exact inForm_updCtx h
  · exact inForm_ringSet h
  · exact inForm_ringSet h
  · exact inForm_ringSet h
  · exact inForm_updCtx h
  · exact inForm_ite h (inForm_updCtx h)
  · exact inForm_updCtx h
  · exact inForm_ringSet h
  · exact inForm_ringSet h
  · exact inForm_headMoved (inForm_ringSet h)
  · exact inForm_updCtx h
  · exact inForm_ite h (inForm_updPT h)
  · exact inForm_updPT h
  · exact inForm_updPT h
  · exact inForm_updPT h
  · exact inForm_updPT h
  · exact inForm_updPT h
  · exact inForm_portSet h
  · exact inForm_portSet h
  · exact inForm_portSet h
  · exact inForm_portSet h
  · exact inForm_portSet h
  · exact inForm_portSet h
  · exact inForm_portSet h
  · exact h

theorem inForm_resolveFid {s : State} {t v : Nat} (h : InForm s) : InForm (resolveFid s t v).2 := by
  unfold resolveFid
  refine inForm_ite_snd (inForm_pair h) ?_
  split
  · exact inForm_pair h
  · exact inForm_ite_snd (inForm_pair (inForm_resolveStop h)) (inForm_pair (inForm_updWK h))

theorem inForm_portCtl {s t : State} {i v : Nat} (h : InForm s) (e : portCtl s i v = some t) : InForm t := by
  unfold portCtl at e
  split at e
  · cases e
    exact inForm_setTenant h
  · split at e
    · cases e
      exact inForm_setTenant h
    · cases e

theorem inForm_syswrLane {s : State} {sel t : Nat} {v : Option Nat} (h : InForm s) : InForm (syswrLane s sel t v).state := by
  unfold syswrLane
  refine inForm_ite_lane (inForm_bad h) (inForm_ite_lane (inForm_ok h) ?_)
  split
  · exact inForm_ok h
  · refine inForm_ite_lane (inForm_ok (inForm_resolveFid h)) (inForm_ite_lane ?_ (inForm_ok (inForm_selWrite h)))
    split
    · rename_i e2
      exact inForm_ok (inForm_portCtl h e2)
    · exact inForm_bad (inForm_setTenant h)

theorem inForm_syswrWord {s : State} {h : Hdr} {d tgt : Reg} {val : Option Reg} {sel : Nat} (hs : InForm s) :
    InForm (syswrWord s h d tgt val sel) :=
  inForm_withRelease hs fun _ h => inForm_serialWord h fun _ _ _ h => inForm_syswrLane h

theorem formOut_execSyswrWrite {h : Hdr} {d tgt val : Reg} {sel : BitVec 8} {s : State} (hs : InForm s) :
    FormOut (execSyswrWrite h d tgt val sel s) :=
  formOut_next (inForm_syswrWord hs)

theorem formOut_execSyswrRead {h : Hdr} {d tgt : Reg} {sel : BitVec 8} {s : State} (hs : InForm s) :
    FormOut (execSyswrRead h d tgt sel s) :=
  formOut_next (inForm_syswrWord hs)

theorem formOut_execFaultResolve {h : Hdr} {d tgt val : Reg} {s : State} (hs : InForm s) : FormOut (execFaultResolve h d tgt val s) :=
  formOut_next (inForm_syswrWord hs)

theorem formOut_execCtxStat {h : Hdr} {d tgt val : Reg} {s : State} (hs : InForm s) : FormOut (execCtxStat h d tgt val s) :=
  formOut_next (inForm_syswrWord hs)

theorem formOut_execCtxPrqHead {h : Hdr} {d tgt val : Reg} {s : State} (hs : InForm s) : FormOut (execCtxPrqHead h d tgt val s) :=
  formOut_next (inForm_syswrWord hs)

theorem formOut_execCtxFqHead {h : Hdr} {d tgt val : Reg} {s : State} (hs : InForm s) : FormOut (execCtxFqHead h d tgt val s) :=
  formOut_next (inForm_syswrWord hs)

theorem formOut_execCtxNqHead {h : Hdr} {d tgt val : Reg} {s : State} (hs : InForm s) : FormOut (execCtxNqHead h d tgt val s) :=
  formOut_next (inForm_syswrWord hs)

theorem formOut_execPtCtl {h : Hdr} {d tgt val : Reg} {s : State} (hs : InForm s) : FormOut (execPtCtl h d tgt val s) :=
  formOut_next (inForm_syswrWord hs)

theorem formOut_execPtEntryWrite {h : Hdr} {d tgt val : Reg} {sel : BitVec 8} {s : State} (hs : InForm s) :
    FormOut (execPtEntryWrite h d tgt val sel s) :=
  formOut_next (inForm_syswrWord hs)

theorem inForm_faultWaiting {s : State} {wid code : Nat} (h : InForm s) : InForm (faultWaiting s wid code) :=
  inForm_dropStopped (inForm_takeFaults (inForm_updWarp h))

theorem inForm_faultCmds {s : State} {id code : Nat} (h : InForm s) : InForm (faultCmds s id code) := by
  unfold faultCmds
  refine inForm_foldl h fun _ _ h => ?_
  split
  · exact inForm_ite (inForm_failCmd h) h
  · exact inForm_ite (inForm_failFin h) h
  · exact h
  · exact h
  · exact h
  · exact h

theorem inForm_faultMatrix {s : State} {hit : CmdStop → Option Nat} {code : Nat} (h : InForm s) : InForm (faultMatrix s hit code) := by
  unfold faultMatrix
  refine inForm_foldl h fun _ _ h => ?_
  split
  · exact h
  · split
    · exact inForm_failMatrix h
    · exact h

theorem inForm_faultPart {s : State} {id code : Nat} (h : InForm s) : InForm (faultPart s id code) :=
  inForm_foldl (inForm_updCX (inForm_updCX (inForm_updPT (inForm_foldl h fun _ _ h => inForm_foldl h fun _ _ h => inForm_ite
      (inForm_reportWrite (inForm_updCtx h)) h)))) fun _ _ h => inForm_reportWrite h

theorem inForm_answerReq {s : State} {id ans : Nat} (h : InForm s) : InForm (answerReq s id ans) :=
  inForm_ite (inForm_updXL h) (inForm_faultPart (inForm_faultMatrix (inForm_faultCmds
      (inForm_foldl (inForm_updXL h) fun _ _ h => inForm_faultWaiting h))))

theorem inForm_actHeld {s : State} (h : InForm s) : InForm (actHeld s) := by
  unfold actHeld
  refine inForm_foldl (inForm_foldl h fun _ _ h => ?_) fun _ _ h => ?_
  · split
    · exact inForm_ite h (inForm_answerReq h)
    · exact h
  · split
    · exact inForm_ite (inForm_resolveStop h) h
    · exact h

theorem inForm_replyLane {s : State} {reqid ans : Nat} (h : InForm s) : InForm (replyLane s reqid ans).state := by
  unfold replyLane
  split
  · exact inForm_ite_lane (inForm_ok h) (inForm_ok h)
  · exact inForm_ite_lane (inForm_bad h) (inForm_ite_lane (inForm_ok h)
        (inForm_ite_lane (inForm_ok (inForm_updXL h)) (inForm_ok (inForm_answerReq h))))

theorem formOut_execPgreply {h : Hdr} {d req ans : Reg} {s : State} (hs : InForm s) : FormOut (execPgreply h d req ans s) :=
  formOut_next (inForm_withRelease hs fun _ h => inForm_serialWord h fun _ _ _ h => inForm_replyLane h)

theorem inForm_shootDown {s : State} {t lo hi : Nat} {all : Bool} (h : InForm s) : InForm (shootDown s t lo hi all) :=
  inForm_updWarp (inForm_dropXl h)

theorem inForm_tlbiLane {s : State} {t : Nat} {range : Option (Nat × Nat)} (h : InForm s) : InForm (tlbiLane s t range).state := by
  unfold tlbiLane
  refine inForm_ite_lane h (inForm_ite_lane h ?_)
  split
  · exact inForm_shootDown h
  · exact inForm_ite_lane h (inForm_ite_lane h (inForm_ite_lane (inForm_shootDown h) (inForm_shootDown h)))

theorem inForm_shotFix {s : State} {l : List (Nat × Nat × Nat × Nat)} (h : InForm s) : InForm (shotFix s l) := by
  unfold shotFix
  exact inForm_updWK h

theorem inForm_shotThen {s : State} {k : State → State} (h : InForm s) (hk : ∀ s, InForm s → InForm (k s)) : InForm (shotThen s k) :=
  inForm_ite (hk _ h) (inForm_ite (inForm_parkHere h) (inForm_ite (inForm_parkHere (inForm_updWarp h))
      (inForm_ite (hk _ (inForm_foldl_snd (inForm_shotFix h) fun _ _ h => inForm_sendLine h))
      (inForm_parkHere (inForm_updWarp (inForm_foldl_snd (inForm_shotFix h) fun _ _ h => inForm_sendLine h))))))

theorem inForm_shotWait {s : State} {h : Hdr} (hs : InForm s) : InForm (shotWait s h) :=
  inForm_shotThen hs fun _ h => inForm_finish (inForm_commitLanes h)

theorem inForm_tlbiWord {s : State} {h : Hdr} {tgt : Reg} {range : State → Nat → LaneEnt → Option (Nat × Nat)} (hs : InForm s) :
    InForm (tlbiWord s h tgt range) :=
  inForm_withRelease hs fun _ h => inForm_eachLane (fun _ _ _ h => inForm_tlbiLane h) (fun _ h => inForm_shotWait h) h

theorem formOut_execTlbiCtx {h : Hdr} {tgt : Reg} {s : State} (hs : InForm s) : FormOut (execTlbiCtx h tgt s) :=
  formOut_next (inForm_tlbiWord hs)

theorem formOut_execTlbiPage {h : Hdr} {addr tgt : Reg} {s : State} (hs : InForm s) : FormOut (execTlbiPage h addr tgt s) :=
  formOut_next (inForm_tlbiWord hs)

theorem formOut_execTlbiRange {h : Hdr} {addr tgt count : Reg} {s : State} (hs : InForm s) : FormOut (execTlbiRange h addr tgt count s) :=
  formOut_next (inForm_tlbiWord hs)

/-! ### Rules for the functions of Machine/Launch.lean -/

theorem inForm_setQueue {s : State} {q : Nat} {f : LQueue → LQueue} (h : InForm s) : InForm (setQueue s q f) :=
  inForm_updPT h

theorem inForm_sendReply {s : State} {entry code status seq : Nat} {payload : List Byte} (h : InForm s) :
    InForm (sendReply s entry code status seq payload) := by
  unfold sendReply
  exact inForm_updPT h

theorem inForm_replyRefused {s : State} {frame : Option (Nat × Nat × Nat)} {reason : Nat} (h : InForm s) :
    InForm (replyRefused s frame reason) := by
  unfold replyRefused
  dsimp only
  split
  · exact h
  · exact inForm_sendReply (inForm_openField h)

theorem inForm_countRefused {s : State} {q reason : Nat} (h : InForm s) : InForm (countRefused s q reason) :=
  inForm_setQueue h

theorem inForm_refuseRec {s : State} {q i reason : Nat} (h : InForm s) : InForm (refuseRec s q i reason) :=
  inForm_replyRefused (inForm_countRefused (inForm_setQueue h))

theorem inForm_enterQueue {s : State} {q : Nat} {r : QRec} (h : InForm s) : InForm (enterQueue s q r) :=
  inForm_setQueue h

theorem inForm_readPages {fuel : Nat} {s : State} {ctx va n : Nat} {deny : Bool} {acc : List Byte} (h : InForm s) :
    InForm (readPages fuel s ctx va n deny acc).2 := by
  induction fuel generalizing s va n acc with
  | zero => exact h
  | succ m ih =>
    unfold readPages
    refine inForm_ite_snd h (inForm_ite_snd h ?_)
    split <;> rename_i e <;> have hs := inForm_snd e (inForm_xlateNow h)
    · exact inForm_ite_snd hs (inForm_ite_snd hs (ih (inForm_foldl hs fun _ _ h => inForm_llcEnsure (inForm_countReq h))))
    · exact hs
    · exact inForm_startRecall hs
    · exact inForm_ite_snd hs (inForm_engineReq hs)

theorem inForm_readSpan {s : State} {ctx va n : Nat} {deny : Bool} (h : InForm s) : InForm (readSpan s ctx va n deny).2 :=
  inForm_readPages h

theorem inForm_putExt {s : State} {ctx tag len : Nat} {digest : List Byte} (h : InForm s) : InForm (putExt s ctx tag len digest).2 :=
  inForm_updCtx (inForm_fresh h)

theorem inForm_putObj {s : State} {ctx tag : Nat} {l : List Byte} (h : InForm s) : InForm (putObj s ctx tag l).2 :=
  inForm_putExt h

theorem inForm_dropCode {s : State} {obj : Nat} (h : InForm s) : InForm (dropCode s obj) :=
  inForm_updMM h

theorem inForm_acceptRec {s : State} {q i : Nat} {r : QRec} {h tab obj args : List Byte} (hs : InForm s) :
    InForm (acceptRec s q i r h tab obj args) :=
  inForm_dropCode (inForm_updCtx (inForm_setQueue (inForm_updPT (inForm_fresh
      (inForm_ite_snd (inForm_putObj (inForm_putObj hs)) (inForm_putObj (inForm_putObj (inForm_putObj hs))))))))

theorem inForm_acceptRead {s : State} {q i : Nat} {r : QRec} {va n reason : Nat} {k : List Byte → State → State} (h : InForm s)
    (hk : ∀ a s, InForm s → InForm (k a s)) : InForm (acceptRead s q i r va n reason k) := by
  unfold acceptRead
  split <;> rename_i e1 <;> have hs := inForm_snd e1 (inForm_readSpan h)
  · exact hk _ _ hs
  · exact inForm_setQueue hs
  · exact inForm_refuseRec hs

theorem inForm_tryAccept {s : State} {q i : Nat} {r : QRec} (h : InForm s) : InForm (tryAccept s q i r) := by
  unfold tryAccept
  refine inForm_ite (inForm_refuseRec h) (inForm_ite h (inForm_ite (inForm_refuseRec h)
      (inForm_acceptRead h fun _ _ h => inForm_ite (inForm_refuseRec h)
      (inForm_acceptRead h fun _ _ h => inForm_ite (inForm_refuseRec h) ?_))))
  split
  · exact inForm_acceptRead h fun _ _ h => inForm_acceptRead h fun _ _ h => inForm_acceptRec h
  · exact inForm_refuseRec h

theorem formOut_execRecordAcceptance {queue : Nat} {s : State} (h : InForm s) : FormOut (execRecordAcceptance queue s) := by
  unfold execRecordAcceptance
  refine formOut_next ?_
  split
  · exact h
  · exact inForm_tryAccept h

theorem inForm_takeChains {s : State} (h : InForm s) : InForm (takeChains s) :=
  inForm_updCX h

theorem formOut_execExtensionApplied {ctx : Nat} {s : State} (h : InForm s) : FormOut (execExtensionApplied ctx s) := by
  unfold execExtensionApplied
  refine formOut_next ?_
  split
  · exact h
  · exact inForm_takeChains (inForm_updCtx h)

theorem inForm_launchLane {s : State} {h pl : Nat} {e : LaneEnt} {a : Nat} (hs : InForm s) : InForm (launchLane s h pl e a).state := by
  unfold launchLane
  refine inForm_ite_lane hs (inForm_ite_lane hs ?_)
  split
  · exact hs
  · exact inForm_ite_lane hs (inForm_readImage hs fun _ _ h => inForm_enterQueue h)

theorem formOut_execLaunch {h : Hdr} {rec : Reg} {q : Fin 64} {s : State} (hs : InForm s) : FormOut (execLaunch h rec q s) :=
  formOut_next (inForm_ite (inForm_finish hs) (inForm_withRelease hs fun _ h => inForm_eachLane (fun _ _ _ h => inForm_launchLane h)
      (fun _ h => inForm_finish (inForm_commitLanes h)) h))

theorem inForm_withEntry {s : State} {f : FrameHdr} {form openOk : Bool} {k : Nat → State → State} (h : InForm s)
    (hk : ∀ a s, InForm s → InForm (k a s)) : InForm (withEntry s f form openOk k) := by
  unfold withEntry
  split
  · exact inForm_updPT h
  · exact inForm_ite (inForm_ite (hk _ _ h) (inForm_updPT h)) (inForm_ite (inForm_updPT h)
        (inForm_ite (inForm_updPT h) (hk _ _ (inForm_setTenant h))))

theorem inForm_frameRecord {s : State} {entry seq i : Nat} {r : FrameRec} (h : InForm s) : InForm (frameRecord s entry seq i r) := by
  unfold frameRecord
  refine inForm_ite (inForm_replyRefused h) ?_
  split
  · exact inForm_replyRefused h
  · exact inForm_ite (inForm_replyRefused (inForm_countRefused h)) (inForm_ite (inForm_replyRefused (inForm_countRefused h))
        (inForm_ite (inForm_replyRefused (inForm_countRefused h)) (inForm_enterQueue h)))

/-! ### Rules for the functions of Machine/MemEvents.lean -/

theorem formOut_execResultReturn {result : Nat} {late : Bool} {s : State} (h : InForm s) : FormOut (execResultReturn result late s) := by
  unfold execResultReturn
  refine formOut_next ?_
  split
  · exact h
  · refine inForm_ite h ?_
    split
    all_goals
      split
      · exact inForm_finishWork (inForm_updWK (inForm_foldl h fun _ _ h => inForm_landLane h))
      · exact inForm_updWK (inForm_foldl h fun _ _ h => inForm_landLane h)

theorem formOut_execWalkComplete {walk : Nat} {s : State} (h : InForm s) : FormOut (execWalkComplete walk s) := by
  unfold execWalkComplete
  refine formOut_next ?_
  split
  · exact h
  · split
    · exact h
    · refine inForm_ite (inForm_takeWalks (inForm_updXL h)) ?_
      dsimp only
      split
      · exact h
      · rename_i e3
        refine inForm_updWK (inForm_takeWalks (inForm_updXL ?_))
        split
        · exact inForm_pair (inForm_tlbFill (inForm_snd e3 (inForm_runWalk h)))
        · exact inForm_pair (inForm_snd e3 (inForm_runWalk h))

theorem inForm_clearSpadPoison {s : State} {core : Nat} {l : List HWrite} (h : InForm s) : InForm (clearSpadPoison s core l) :=
  inForm_ite h (inForm_updPT h)

theorem inForm_sendStored {s : State} {gi core : Nat} {e : Nat × FifoEntry} (h : InForm s) : InForm (sendStored s gi core e) := by
  unfold sendStored
  split
  · exact inForm_foldl_snd h fun _ _ h => inForm_sendLine h
  · exact inForm_ite (inForm_finishWork (inForm_foldl_snd h fun _ _ h => inForm_sendLine h))
        (inForm_addParts (inForm_foldl_snd h fun _ _ h => inForm_sendLine h))

theorem inForm_performStore {s : State} {gi : Nat} {es : List (Nat × FifoEntry)} (h : InForm s) : InForm (performStore s gi es) :=
  inForm_foldl (inForm_clearSpadPoison (inForm_foldl (inForm_foldl h fun _ _ h => inForm_l1StoreWord h) fun _ _ h => inForm_ite
      (inForm_setSpadByte h) h)) fun _ _ h => inForm_share (inForm_foldl h fun _ _ h => inForm_sendBytes h) fun k =>
    inForm_ite (inForm_sendStored k) (inForm_finishWorks k)

theorem formOut_execStorePerform {group hwarp : Nat} {s : State} (h : InForm s) : FormOut (execStorePerform group hwarp s) := by
  unfold execStorePerform
  refine formOut_next ?_
  split
  · exact h
  · exact inForm_ite h (inForm_checkGroupEnd (inForm_performStore (inForm_foldl (inForm_foldl h fun _ _ h => inForm_updHWarp h)
        fun _ _ h => inForm_updHWarp h)))

theorem inForm_ackWord {s : State} {core line id : Nat} {w : DirWord} (h : InForm s) : InForm (ackWord s core line id w) := by
  unfold ackWord
  split
  · exact h
  · exact inForm_ite h (inForm_setL1 (inForm_regWord h))

theorem formOut_execDirectoryAck {item : Nat} {s : State} (h : InForm s) : FormOut (execDirectoryAck item s) := by
  unfold execDirectoryAck
  refine formOut_next ?_
  split
  · exact h
  · split
    · exact inForm_ite h (inForm_ite (inForm_updMM (inForm_updMM (inForm_takeLine h))) (inForm_updMM (inForm_takeLine h)))
    · exact inForm_ite h (inForm_finishWorks (inForm_updMM (inForm_foldl h fun _ _ h => inForm_ite (inForm_regWord h) (inForm_ackWord h))))

theorem formOut_execDrop {item : Nat} {s : State} (h : InForm s) : FormOut (execDrop item s) := by
  unfold execDrop
  refine formOut_next ?_
  split
  · exact h
  · exact inForm_applyDrop (inForm_updMM h)

theorem formOut_execLineRetry {warp : Nat} {s : State} (h : InForm s) : FormOut (execLineRetry warp s) := by
  unfold execLineRetry
  refine formOut_next ?_
  split
  · exact inForm_ite (inForm_updWarp h) h
  · exact h

theorem formOut_execEddyRestore {group : Nat} {s : State} (h : InForm s) : FormOut (execEddyRestore group s) :=
  formOut_next (inForm_updGroup h)

/-! ### Rules for the functions of Machine/Sched.lean -/

theorem inForm_fitCove {s : State} {cores : List Nat} {first : Bool} {l : List Need} {chosen : List (Alloc × Need)} (h : InForm s) :
    InForm (fitCove s cores first l chosen).2 := by
  induction l generalizing s chosen with
  | nil => exact h
  | cons need l ih =>
    unfold fitCove
    split
    · exact h
    · dsimp only
      split
      · rename_i e
        exact inForm_snd e (ih (inForm_ite_snd (inForm_pair (inForm_ite_snd (inForm_pair h) (inForm_drawFree h)))
          (inForm_drawFree (inForm_ite_snd (inForm_pair h) (inForm_drawFree h)))))
      · exact h

theorem inForm_findPlace {s : State} {ctx world : Nat} {needs : List Need} {lend : Bool} (h : InForm s) :
    InForm (findPlace s ctx world needs lend).2 := by
  unfold findPlace
  refine inForm_foldl_snd h fun _ _ h => ?_
  split
  · exact h
  · refine inForm_ite_snd h ?_
    split <;> rename_i e2 <;> have hs := inForm_snd e2 (inForm_fitCove h)
    · exact hs
    · exact inForm_fitCove hs

theorem inForm_placeFor {s : State} {ctx world : Nat} {needs : List Need} (h : InForm s) : InForm (placeFor s ctx world needs).2 := by
  unfold placeFor
  split <;> rename_i e1 <;> have hs := inForm_snd e1 (inForm_findPlace h)
  · exact hs
  · exact inForm_ite_snd (inForm_findPlace (inForm_coin hs)) (inForm_coin hs)

theorem inForm_noteLent {s : State} {ctx : Nat} {l : List Alloc} (h : InForm s) : InForm (noteLent s ctx l) :=
  inForm_foldl h fun _ _ h => inForm_ite h (inForm_updPT h)

theorem inForm_saveRange {s : State} {gi : Nat} (h : InForm s) : InForm (saveRange s gi) :=
  inForm_updGroup (inForm_updPT h)

theorem inForm_loadRange {s : State} {gi : Nat} {a : Alloc} (h : InForm s) : InForm (loadRange s gi a) :=
  inForm_updGroup (inForm_updPT (inForm_updMM_of h (fun _ h => h) fun _ h => NMap.wf_foldl_set 0 _ _ _ _ (NMap.wf_filter 0 _ _ h)))

theorem inForm_evictOver {s : State} {a : Alloc} {need : Need} (h : InForm s) : InForm (evictOver s a need) :=
  inForm_foldl h fun _ _ h => inForm_saveRange h

theorem inForm_startThreads {s : State} {gi gid : Nat} {g : Grid} (h : InForm s) : InForm (startThreads s gi gid g) :=
  inForm_foldl h fun _ _ h => inForm_updRG h

theorem inForm_startS {s : State} {gi gid : Nat} {g : Grid} (h : InForm s) : InForm (startS s gi gid g) := by
  unfold startS
  exact inForm_updRG h

theorem inForm_startLines {s : State} {a : Alloc} {scratch : Nat} (h : InForm s) : InForm (startLines s a scratch) :=
  inForm_foldl h fun _ _ h => inForm_setPresence h

theorem inForm_startGroup {s : State} {grid span number pos : Nat} {g : Grid} {a : Alloc} (h : InForm s) :
    InForm (startGroup s grid span number pos g a) :=
  inForm_startLines (inForm_startS (inForm_startThreads (inForm_updWK (inForm_fresh h))))

theorem inForm_moveTiles {s : State} {ctx : Nat} {moves : List (Nat × Nat)} (h : InForm s) : InForm (moveTiles s ctx moves) := by
  unfold moveTiles
  exact inForm_updEN h

theorem inForm_moveMatrix {s : State} {gi ctx new : Nat} (h : InForm s) : InForm (moveMatrix s gi ctx new) :=
  inForm_foldl h fun _ _ h => inForm_setMqueue (inForm_setMqueue h)

theorem inForm_moveL1 {s : State} {old new : Nat} (h : InForm s) : InForm (moveL1 s old new) :=
  inForm_ite h (inForm_acquireL1 (inForm_flushCore h))

theorem inForm_resumeGroup {s : State} {gi : Nat} {a : Alloc} (h : InForm s) : InForm (resumeGroup s gi a) := by
  unfold resumeGroup
  exact inForm_updEN (inForm_updWK (inForm_updGroup (inForm_updRG (inForm_moveMatrix
      (inForm_moveL1 (inForm_ite h (inForm_loadRange (inForm_ite (inForm_saveRange h) h))))))))

theorem inForm_takePlace {s : State} {ctx : Nat} {l : List Alloc} {need : Need} (h : InForm s) : InForm (takePlace s ctx l need) :=
  inForm_noteLent (inForm_foldl h fun _ _ h => inForm_evictOver h)

theorem inForm_replaceSpan {s t : State} {sp : Nat} (h : InForm s) (e : replaceSpan s sp = some t) : InForm t := by
  unfold replaceSpan at e
  dsimp only at e
  split at e
  · cases e
  · split at e
    · cases e
    · rename_i e2
      cases e
      exact inForm_actHeld (inForm_updPT (inForm_updWK (inForm_foldl (inForm_moveTiles
          (inForm_takePlace (inForm_snd e2 (inForm_placeFor h))))
        fun _ _ h => inForm_resumeGroup h)))

theorem inForm_placeNext {s t : State} {gid : Nat} (h : InForm s) (e : placeNext s gid = some t) : InForm t := by
  unfold placeNext at e
  dsimp only at e
  split at e
  · cases e
  · split at e
    · cases e
    · rename_i e2
      cases e
      exact inForm_updPT (inForm_foldl (inForm_updWK (inForm_fresh (inForm_takePlace (inForm_snd e2 (inForm_placeFor h)))))
        fun _ _ h => inForm_startGroup h)

theorem inForm_leaveQueue {s : State} {q : Nat} (h : InForm s) : InForm (leaveQueue s q) :=
  inForm_setQueue h

theorem formOut_execSpanPlacement {queue : Nat} {s : State} (h : InForm s) : FormOut (execSpanPlacement queue s) := by
  refine formOut_next ?_
  split
  · rename_i e
    obtain ⟨_, -, e⟩ := List.exists_of_findSome?_eq_some e
    exact inForm_replaceSpan h e
  · split
    · exact h
    · split
      · exact inForm_leaveQueue (inForm_placeNext h ‹_›)
      · exact h

theorem inForm_rejoinQuarter {s : State} {place : Nat} {now : List Nat} (h : InForm s) : InForm (rejoinQuarter s place now) := by
  unfold rejoinQuarter
  exact inForm_updPT (inForm_foldl h fun _ _ h => inForm_rejoin h)

theorem inForm_chooseGroup {s : State} {q : Nat} {l : List (Nat × Group)} (h : InForm s) : InForm (chooseGroup s q l).2 := by
  unfold chooseGroup
  dsimp only
  split
  · exact inForm_pair h
  · exact inForm_drawFree h

theorem inForm_spillFor {s : State} {core q : Nat} (h : InForm s) : InForm (spillFor s core q) := by
  unfold spillFor
  refine inForm_ite h ?_
  split
  · exact inForm_updWarp h
  · exact h

theorem inForm_formWarp {s : State} {gi core q prio : Nat} {pc : DWord} {keys : List Nat} (h : InForm s) :
    InForm (formWarp s gi core q prio pc keys).2 := by
  unfold formWarp
  dsimp only
  exact inForm_updWK (inForm_foldl (inForm_fresh h) fun _ _ h => inForm_updThread h)

theorem inForm_startRun {s : State} {core q gi : Nat} (h : InForm s) : InForm (startRun s core q gi) := by
  unfold startRun
  dsimp only
  split
  on_goal 2 => refine inForm_updWK (inForm_updWarp ?_)
  all_goals
    split
    · exact inForm_pair (inForm_updWK (inForm_fresh h))
    · split
      · exact inForm_pair (inForm_updWK (inForm_fresh h))
      · exact inForm_pair (inForm_formWarp (inForm_spillFor (inForm_foldl (inForm_updWK (inForm_fresh h)) fun _ _ h => inForm_updHWarp h)))

theorem formOut_execRunSelection {core quarter : Nat} {s : State} (h : InForm s) : FormOut (execRunSelection core quarter s) := by
  unfold execRunSelection
  refine formOut_next (inForm_ite h ?_)
  dsimp only
  split
  · exact inForm_rejoinQuarter (inForm_updWK h)
  · split <;> rename_i e2 <;> have hs := inForm_snd e2 (inForm_chooseGroup (inForm_rejoinQuarter (inForm_updWK h)))
    · exact inForm_startRun hs
    · exact hs

theorem inForm_performGrid {s t : State} {g : Grid} (h : InForm s) (e : performGrid s g = some t) : InForm t := by
  unfold performGrid at e
  split at e
  · cases e
  · cases e
    exact inForm_foldl h fun _ _ h => inForm_flushCore h

theorem inForm_hashBuffers {l : List (Nat × Nat)} {s : State} {gid : Nat} (h : InForm s) : InForm (hashBuffers l s gid) := by
  induction l generalizing s with
  | nil => exact h
  | cons b l ih =>
    unfold hashBuffers
    dsimp only
    split <;> rename_i e <;> have hs := inForm_snd e (inForm_readSpan h)
    · exact ih (inForm_updPT (inForm_putObj hs))
    · exact ih (inForm_updPT (inForm_putExt hs))
    · exact inForm_updPT hs

theorem formOut_execGridCompletion {grid : Nat} {s : State} (h : InForm s) : FormOut (execGridCompletion grid s) := by
  unfold execGridCompletion
  refine formOut_next ?_
  split
  · exact h
  · refine inForm_ite h ?_
    split
    · exact h
    · rename_i e2
      exact inForm_share (inForm_hashBuffers (inForm_performGrid h e2)) fun k => inForm_ite k (inForm_partDone (inForm_updPT k))

theorem inForm_dropStores {s : State} {gi h l : Nat} (hs : InForm s) : InForm (dropStores s gi h l) :=
  inForm_finishWorks (inForm_updHWarp hs)

theorem inForm_keepWaiting {s : State} {gi h l : Nat} (hs : InForm s) : InForm (keepWaiting s gi h l) :=
  inForm_updThread (inForm_updHWarp hs)

theorem inForm_leaveWarps {s : State} {keys : List Nat} (h : InForm s) : InForm (leaveWarps s keys) :=
  inForm_foldl (inForm_updWK h) fun _ _ h => inForm_dropStopped h

theorem inForm_restoreAs {fuel : Nat} {s : State} {gi : Nat} {r : RestartRec} {keys : List Nat} (h : InForm s) :
    InForm (restoreAs fuel s gi r keys) := by
  induction fuel generalizing s keys with
  | zero => exact h
  | succ n ih =>
    unfold restoreAs
    split
    · exact h
    · exact ih (inForm_updWarp (inForm_formWarp h))

theorem inForm_restoreThreads {s : State} {gi : Nat} {keys : List Nat} (h : InForm s) : InForm (restoreThreads s gi keys) :=
  inForm_foldl (inForm_foldl (inForm_leaveWarps (inForm_foldl (inForm_foldl h fun _ _ h => inForm_acquireL1 h)
      fun _ _ h => inForm_dropStores h)) fun _ _ h => inForm_updThread h) fun _ _ h => inForm_restoreAs h

theorem inForm_askStops {s : State} {gi : Nat} (h : InForm s) : InForm (askStops s gi) := by
  unfold askStops
  refine inForm_updEN (inForm_foldl h fun _ _ h => inForm_ite h ?_)
  split
  · exact inForm_ite (inForm_updCmd h) (inForm_stopCmd h)
  · exact inForm_stopCmd h
  · exact h
  · exact h
  · exact h
  · exact h

theorem inForm_preemptGroup {s : State} {gi : Nat} (h : InForm s) : InForm (preemptGroup s gi) :=
  inForm_updGroup (inForm_askStops (inForm_updWK (inForm_restoreThreads
      (inForm_foldl (inForm_foldl h fun _ _ h => inForm_freeQuarter h) fun _ _ h => inForm_keepWaiting h))))

theorem inForm_preemptSpan {s : State} {sp : Nat} {x : Span} {why : PreemptWhy} (h : InForm s) : InForm (preemptSpan s sp x why) := by
  unfold preemptSpan
  exact inForm_share (inForm_foldl h fun _ _ h => inForm_preemptGroup h) fun k => inForm_updWK (inForm_ite (inForm_updPT k) k)

theorem formOut_execPreemption {span : Nat} {why : PreemptWhy} {s : State} (h : InForm s) : FormOut (execPreemption span why s) := by
  unfold execPreemption
  refine formOut_next ?_
  split
  · exact h
  · exact inForm_ite (inForm_preemptSpan h) h

/-! ### Rules for the functions of Machine/Subtree.lean -/

theorem inForm_updOper {s : State} {id : Nat} {f : Oper → Oper} (h : InForm s) : InForm (State.updOper s id f) :=
  inForm_updCX h

theorem inForm_updJob {s : State} {id : Nat} {f : Job → Job} (h : InForm s) : InForm (State.updJob s id f) :=
  inForm_updCX h

theorem inForm_postOwn {s : State} {ctx : Nat} {bytes : List Byte} (h : InForm s) : InForm (postOwn s ctx bytes) :=
  inForm_updCtx h

theorem inForm_addUsed {s : State} {ctx n : Nat} (h : InForm s) : InForm (addUsed s ctx n) :=
  inForm_updCtx h

theorem inForm_dropUsed {s : State} {ctx n : Nat} (h : InForm s) : InForm (dropUsed s ctx n) :=
  inForm_updCtx h

theorem inForm_giveFrame {s : State} {fr ctx : Nat} (h : InForm s) : InForm (giveFrame s fr ctx) :=
  inForm_addUsed (inForm_updFrame h)

theorem inForm_moveCharge {s : State} {fr ctx : Nat} (h : InForm s) : InForm (moveCharge s fr ctx) :=
  inForm_ite h (inForm_addUsed (inForm_dropUsed (inForm_updFrame (inForm_ite h (inForm_dropFrameXl h)))))

theorem inForm_discardFrame {s : State} {fr : Nat} (h : InForm s) : InForm (discardFrame s fr) :=
  inForm_updMM h

theorem inForm_zeroFrame {s : State} {fr : Nat} (h : InForm s) : InForm (zeroFrame s fr) :=
  inForm_updMM_of (inForm_discardFrame h) (fun _ h => NMap.wf_filter 0 _ _ h) fun _ h => h

theorem inForm_fixFrame {s : State} {fr : Nat} (h : InForm s) : InForm (fixFrame s fr) := by
  unfold fixFrame
  exact inForm_updWK h

theorem inForm_loseFrame {s : State} {fr attr : Nat} (h : InForm s) : InForm (loseFrame s fr attr) :=
  inForm_ite (inForm_updMM h) (inForm_setMemBytes (inForm_fresh h))

theorem inForm_emptySlot {s : State} {fabric : Bool} {k : Nat} (h : InForm s) : InForm (emptySlot s fabric k).2 :=
  inForm_ite_snd (inForm_pair (inForm_updPT h)) (inForm_pair (inForm_updXL (inForm_dropFormed (inForm_updPT h))))

theorem inForm_forgetSlot {s : State} {k : Nat} (h : InForm s) : InForm (forgetSlot s k) :=
  inForm_foldl h fun _ _ h => inForm_loseFrame (inForm_discardFrame h)

theorem inForm_zeroSlot {s : State} {fabric : Bool} {k : Nat} (h : InForm s) : InForm (zeroSlot s fabric k) :=
  inForm_ite (inForm_emptySlot h) (inForm_forgetSlot (inForm_emptySlot h))

theorem inForm_clearCore {s : State} {n : Nat} (h : InForm s) : InForm (clearCore s n) := by
  unfold clearCore
  exact inForm_updPT (inForm_updEN (inForm_updXL (inForm_updMM_of
    (inForm_foldl (inForm_foldl h fun _ _ h => inForm_saveRange h) fun _ _ h => inForm_l1Evict h)
    (fun _ h => h) fun _ h => NMap.wf_filter 0 _ _ h)))

theorem inForm_poolPut {s : State} {fr : Nat} (h : InForm s) : InForm (poolPut s fr) :=
  inForm_ite h (inForm_updXL h)

theorem inForm_cutGuar {s : State} {c new : Nat} (h : InForm s) : InForm (cutGuar s c new) :=
  inForm_ite h (inForm_postEvent (inForm_updCtx h))

theorem inForm_cutChildren {s : State} {t f : Nat} (h : InForm s) : InForm (cutChildren s t f) :=
  inForm_ite h (inForm_foldl h fun _ _ h => inForm_cutGuar h)

theorem inForm_cutGuarantees {s : State} (h : InForm s) : InForm (cutGuarantees s) :=
  inForm_foldl (inForm_cutChildren h) fun _ _ h => inForm_foldl h fun _ _ h => inForm_cutChildren h

theorem inForm_retireSlice {s : State} {n : Nat} (h : InForm s) : InForm (retireSlice s n) := by
  unfold retireSlice
  exact inForm_updMM (inForm_foldl h fun _ _ h => inForm_llcEvict h)

theorem inForm_worsen {s : State} {n : Nat} (h : InForm s) : InForm (worsen s n) := by
  unfold worsen
  dsimp only
  exact inForm_ite h (inForm_updPT (inForm_openField h))

theorem inForm_loseUnit {s : State} {u : WearUnit} (h : InForm s) : InForm (loseUnit s u) := by
  unfold loseUnit
  split
  · exact inForm_updPT h
  · exact inForm_updPT h
  · exact inForm_retireSlice (inForm_updPT h)
  · exact inForm_cutGuarantees (inForm_updXL (inForm_updPT h))
  · refine inForm_updPT (inForm_zeroSlot (inForm_updPT h)) ?_ ?_ <;> intro p <;> split <;> rfl

theorem inForm_retireUnit {s : State} {u : WearUnit} (h : InForm s) : InForm (retireUnit s u) := by
  unfold retireUnit
  refine inForm_ite ?_ (inForm_loseUnit (inForm_worsen h))
  split
  all_goals
    split
    · exact inForm_foldl (inForm_worsen (inForm_updPT h)) fun _ _ h => inForm_llcEvict h
    · exact inForm_worsen (inForm_updPT h)

theorem inForm_removeCtx {s : State} {t : Nat} (h : InForm s) : InForm (removeCtx s t) :=
  inForm_ite h (inForm_updCX (inForm_foldl h fun _ _ h => inForm_giveFrame h))

theorem inForm_applyChange {s : State} {c : Change} (h : InForm s) : InForm (applyChange s c) := by
  unfold applyChange
  split
  · exact inForm_updCtx (inForm_foldl (inForm_foldl h fun _ _ h => inForm_zeroSlot h) fun _ _ h => inForm_zeroSlot h)
  · exact inForm_removeCtx h
  · exact inForm_updCtx h
  · exact inForm_foldl h fun _ _ h => inForm_moveCharge h
  · exact inForm_foldl h fun _ _ h => inForm_updEN h
  · exact inForm_retireUnit h

theorem inForm_stage {s : State} {c : Change} {oper : Option Nat} {reply : Option (Nat × Nat)} (h : InForm s) :
    InForm (stage s c oper reply).2 := by
  unfold stage
  dsimp only
  exact inForm_updCX (inForm_fresh h)

theorem inForm_completeOper {s : State} {id : Nat} (h : InForm s) : InForm (completeOper s id) :=
  inForm_partBar (inForm_updCX h)

theorem inForm_stopDispatch {s : State} {ids : List Nat} (h : InForm s) : InForm (stopDispatch s ids) := by
  unfold stopDispatch
  exact inForm_updPT (inForm_foldl (inForm_foldl h fun _ _ h => inForm_updCtx h) fun _ _ h => inForm_foldl (inForm_setQueue h)
      fun _ _ h => inForm_replyRefused (inForm_countRefused h))

theorem inForm_holdJobs {s : State} {t : Nat} (h : InForm s) : InForm (holdJobs s t) :=
  inForm_foldl h fun _ _ h => inForm_updJob h

theorem inForm_beginOper {s : State} {id : Nat} (h : InForm s) : InForm (beginOper s id) := by
  unfold beginOper
  refine inForm_ite (inForm_completeOper h) ?_
  split
  · exact inForm_updOper (inForm_updCtx h)
  · exact inForm_updOper (inForm_updCtx h)
  · exact inForm_completeOper (inForm_updCtx h)
  · exact inForm_updOper (inForm_stopDispatch (inForm_holdJobs h))
  · exact inForm_updOper (inForm_stopDispatch (inForm_holdJobs h))
  · exact inForm_updOper h

theorem inForm_wakeOpers {s : State} (h : InForm s) : InForm (wakeOpers s) := by
  unfold wakeOpers
  refine inForm_foldl h fun _ _ h => ?_
  split
  · exact inForm_ite (inForm_beginOper h) h
  · exact h

theorem inForm_startOper {s : State} {o : Oper} (h : InForm s) : InForm (startOper s o) :=
  inForm_wakeOpers (inForm_updCX (inForm_fresh h))

theorem inForm_killGroup {s : State} {gi : Nat} (h : InForm s) : InForm (killGroup s gi) :=
  inForm_clearGroup (inForm_updWK (inForm_updMM (inForm_updEN (inForm_foldl h fun _ _ h => inForm_dropClaims h))))

theorem inForm_killCtxs {s : State} {ids : List Nat} (h : InForm s) : InForm (killCtxs s ids) := by
  unfold killCtxs
  exact inForm_updPT (inForm_updEN (inForm_foldl h fun _ _ h => inForm_killGroup h))

theorem inForm_freeWorldCores {s : State} {ids : List Nat} (h : InForm s) : InForm (freeWorldCores s ids) :=
  inForm_foldl h fun _ _ h => inForm_updCX (inForm_clearCore h)

theorem inForm_dropTranslations {s : State} {ids : List Nat} (h : InForm s) : InForm (dropTranslations s ids) := by
  unfold dropTranslations
  exact inForm_updXL (inForm_updCX (inForm_foldl h fun _ _ h => inForm_dropXl h))

theorem inForm_zeroSlots {s : State} {t : Nat} (h : InForm s) : InForm (zeroSlots s t) :=
  inForm_foldl (inForm_foldl h fun _ _ h => inForm_zeroSlot h) fun _ _ h => inForm_zeroSlot h

theorem inForm_unmapFrames {s : State} {ids : List Nat} (h : InForm s) : InForm (unmapFrames s ids).2 :=
  inForm_foldl h fun _ _ h => inForm_dropFrameXl (inForm_updFrame (inForm_foldl h fun _ _ h => inForm_cancelPark h))

theorem inForm_scrubFor {s : State} {id : Nat} {o : Oper} {ids frames : List Nat} (h : InForm s) : InForm (scrubFor s id o ids frames) := by
  unfold scrubFor
  split
  · dsimp only
    split
    · exact inForm_updOper (inForm_updJob h)
    · exact inForm_updOper h
  · split
    · rename_i e2
      dsimp only
      split
      · exact inForm_updOper (inForm_updJob h)
      · exact inForm_updOper (inForm_updCX (inForm_snd e2 (inForm_pick h)))

theorem inForm_finishReset {s : State} {id : Nat} (h : InForm s) : InForm (finishReset s id) :=
  inForm_share (inForm_foldl h fun _ _ h => inForm_updCtx h) fun k =>
    inForm_ite (inForm_completeOper h) (inForm_ite (inForm_stage (inForm_updOper k))
        (inForm_completeOper (inForm_updCtx (inForm_foldl (inForm_foldl (inForm_foldl k fun _ _ h => inForm_giveFrame h)
        fun _ _ h => inForm_updCtx h) fun _ _ h => inForm_stage h))))

theorem inForm_finishResets {s : State} (h : InForm s) : InForm (finishResets s) :=
  inForm_wakeOpers (inForm_foldl h fun _ _ h => inForm_finishReset h)

theorem inForm_afterDrain {s : State} {id : Nat} {o : Oper} (h : InForm s) : InForm (afterDrain s id o) := by
  unfold afterDrain
  dsimp only
  exact inForm_ite h (inForm_finishResets (inForm_scrubFor (inForm_foldl
      (inForm_unmapFrames (inForm_zeroSlots (inForm_dropTranslations (inForm_freeWorldCores (inForm_killCtxs h)))))
      fun _ _ h => inForm_updCtx h)))

/-! ### Rules for the functions of Machine/Subdev.lean -/

theorem inForm_readLong {fuel : Nat} {s : State} {pl : Nat} {e : LaneEnt} {va n : Nat} {acc : List Byte} {k : List Byte → State → LaneOut}
    (h : InForm s) (hk : ∀ l s, InForm s → InForm (k l s).state) : InForm (readLong fuel s pl e va n acc k).state := by
  induction fuel generalizing s va n acc with
  | zero => exact hk _ _ h
  | succ m ih => exact inForm_ite_lane (hk _ _ h) (inForm_readImage h fun _ _ h => ih h)

theorem inForm_readBytes {s : State} {pl : Nat} {e : LaneEnt} {va n : Nat} {k : List Byte → State → LaneOut} (h : InForm s)
    (hk : ∀ a s, InForm s → InForm (k a s).state) : InForm (readBytes s pl e va n k).state :=
  inForm_readLong h fun _ _ h => hk _ _ h

theorem inForm_listFrames {l : List Nat} {s : State} {pl : Nat} {e : LaneEnt} {acc : List (Except Nat Nat)}
    {k : List (Except Nat Nat) → State → LaneOut} (h : InForm s) (hk : ∀ l s, InForm s → InForm (k l s).state) :
    InForm (listFrames l s pl e acc k).state := by
  induction l generalizing s acc with
  | nil => exact hk _ _ h
  | cons a l ih =>
    unfold listFrames
    refine inForm_ite_lane (ih h) ?_
    split <;> rename_i e <;> have hs := inForm_image e (inForm_imageAt h)
    · exact ih hs
    · exact ih hs
    · exact hs

theorem inForm_untilDone {s : State} {pl : Nat} {live : State → Nat → Bool} {value : State → Nat} {start : State → LaneOut} (h : InForm s)
    (hstart : ∀ s, InForm s → InForm (start s).state) : InForm (untilDone s pl live value start).state := by
  unfold untilDone
  split
  · exact inForm_ite_lane h h
  · exact hstart _ h

theorem inForm_awaitLane {s : State} {pl id : Nat} (h : InForm s) : InForm (awaitLane s pl id).state :=
  inForm_updWarp h

theorem inForm_subdevWord {s : State} {h : Hdr} {opc : Nat} {d : Reg} {act : State → Nat → LaneEnt → LaneOut} (hs : InForm s)
    (hact : ∀ s a b, InForm s → InForm (act s a b).state) : InForm (subdevWord s h opc d act) :=
  inForm_withRelease hs fun _ h => inForm_serialWord h fun _ _ _ h => hact _ _ _ h

theorem inForm_withTurn {s : State} {t : Nat} {k : State → LaneOut} (h : InForm s) (hk : ∀ s, InForm s → InForm (k s).state) :
    InForm (withTurn s t k).state := by
  unfold withTurn
  refine inForm_ite_lane h ?_
  split
  · exact hk _ h
  · exact h

theorem inForm_createLane {s : State} {pl : Nat} {e : LaneEnt} {t va : Nat} (h : InForm s) : InForm (createLane s pl e t va).state := by
  unfold createLane
  refine inForm_ite_lane h ?_
  split
  · exact h
  · refine inForm_withTurn h fun _ h => inForm_readBytes h fun _ _ h => ?_
    split
    · dsimp only
      split
      · exact h
      · exact inForm_ite_lane h h
    · dsimp only
      split
      · exact h
      · exact inForm_ite_lane h (inForm_putObj (inForm_stage (inForm_updCX h)))

theorem inForm_resizeLane {s : State} {pl : Nat} {e : LaneEnt} {t va : Nat} (h : InForm s) : InForm (resizeLane s pl e t va).state := by
  unfold resizeLane
  refine inForm_ite_lane h ?_
  split
  · exact h
  · refine inForm_withTurn h fun _ h => inForm_readBytes h fun _ _ h => ?_
    dsimp only
    split
    · exact h
    · exact inForm_ite_lane h (inForm_ite_lane h (inForm_stage h))

theorem inForm_barrierLane {s : State} {e : LaneEnt} {k : OpKind} {t : Nat} {bar : Option Nat} (h : InForm s) :
    InForm (barrierLane s e k t bar).state := by
  unfold barrierLane
  refine inForm_ite_lane h ?_
  split
  · exact h
  · exact inForm_ite_lane h (inForm_startOper h)

theorem inForm_ckptLane {s : State} {pl : Nat} {e : LaneEnt} {t va : Nat} (h : InForm s) : InForm (ckptLane s pl e t va).state := by
  unfold ckptLane
  refine inForm_ite_lane h ?_
  split
  · exact h
  · refine inForm_readBytes h fun _ _ h => ?_
    split
    · dsimp only
      split <;> exact h
    · split
      · dsimp only
        split <;> exact h
      · split
        · dsimp only
          split <;> exact h
        · dsimp only
          split
          · exact h
          · exact inForm_startOper h

theorem inForm_dropWrites {s : State} {ids : List Nat} (h : InForm s) : InForm (dropWrites s ids) :=
  inForm_updWarp (inForm_updXL (inForm_dropFormed h))

theorem inForm_dlogLane {s : State} {pl : Nat} {e : LaneEnt} {t va : Nat} (h : InForm s) : InForm (dlogLane s pl e t va).state := by
  unfold dlogLane
  refine inForm_ite_lane h ?_
  split
  · exact h
  · refine inForm_readBytes h fun _ _ h => ?_
    split
    · dsimp only
      split <;> exact h
    · dsimp only
      split
      · exact h
      · exact inForm_withTurn h fun _ h => inForm_ite_lane h (inForm_ite_lane (inForm_updCtx (inForm_pumpLogs h))
            (inForm_writeImage h fun _ _ h => inForm_dropWrites (inForm_partWrite (inForm_updCtx (inForm_pumpLogs h)))))

theorem inForm_dlogWord {s : State} {h : Hdr} {d tgt desc : Reg} (hs : InForm s) : InForm (dlogWord s h d tgt desc) :=
  inForm_withRelease hs fun _ h => inForm_eachLane (fun _ _ _ h => inForm_dlogLane h)
      (fun _ h => inForm_shotThen h fun _ h => inForm_putSerial h) h

theorem inForm_meterLane {s : State} {pl : Nat} {e : LaneEnt} {t va : Nat} (h : InForm s) : InForm (meterLane s pl e t va).state := by
  unfold meterLane
  refine inForm_ite_lane h ?_
  split
  · exact h
  · exact inForm_writeImage h fun _ _ h => inForm_partWrite h

theorem formOut_execSubdevCreate {h : Hdr} {d tgt desc : Reg} {s : State} (hs : InForm s) : FormOut (execSubdevCreate h d tgt desc s) :=
  formOut_next (inForm_subdevWord hs fun _ _ _ h => inForm_createLane h)

theorem formOut_execSubdevResize {h : Hdr} {d tgt desc : Reg} {s : State} (hs : InForm s) : FormOut (execSubdevResize h d tgt desc s) :=
  formOut_next (inForm_subdevWord hs fun _ _ _ h => inForm_resizeLane h)

theorem formOut_execSubdevFreeze {h : Hdr} {d tgt : Reg} {bar : Option Reg} {s : State} (hs : InForm s) :
    FormOut (execSubdevFreeze h d tgt bar s) :=
  formOut_next (inForm_subdevWord hs fun _ _ _ h => inForm_barrierLane h)

theorem formOut_execSubdevThaw {h : Hdr} {d tgt : Reg} {bar : Option Reg} {s : State} (hs : InForm s) :
    FormOut (execSubdevThaw h d tgt bar s) :=
  formOut_next (inForm_subdevWord hs fun _ _ _ h => inForm_barrierLane h)

theorem formOut_execSubdevCkpt {h : Hdr} {d tgt desc : Reg} {s : State} (hs : InForm s) : FormOut (execSubdevCkpt h d tgt desc s) :=
  formOut_next (inForm_subdevWord hs fun _ _ _ h => inForm_ckptLane h)

theorem formOut_execSubdevRevoke {h : Hdr} {d tgt : Reg} {bar : Option Reg} {s : State} (hs : InForm s) :
    FormOut (execSubdevRevoke h d tgt bar s) :=
  formOut_next (inForm_subdevWord hs fun _ _ _ h => inForm_barrierLane h)

theorem formOut_execSubdevReset {h : Hdr} {d tgt : Reg} {bar : Option Reg} {s : State} (hs : InForm s) :
    FormOut (execSubdevReset h d tgt bar s) :=
  formOut_next (inForm_subdevWord hs fun _ _ _ h => inForm_barrierLane h)

theorem formOut_execSubdevDlog {h : Hdr} {d tgt desc : Reg} {s : State} (hs : InForm s) : FormOut (execSubdevDlog h d tgt desc s) :=
  formOut_next (inForm_dlogWord hs)

theorem formOut_execSubdevMeter {h : Hdr} {d tgt area : Reg} {s : State} (hs : InForm s) : FormOut (execSubdevMeter h d tgt area s) :=
  formOut_next (inForm_subdevWord hs fun _ _ _ h => inForm_meterLane h)

theorem inForm_stageLane {s : State} {pl : Nat} {c : Change} (h : InForm s) : InForm (stageLane s pl c).state :=
  inForm_awaitLane (inForm_stage h)

theorem inForm_shareSetLane {s : State} {pl : Nat} {e : LaneEnt} {t va : Nat} (h : InForm s) : InForm (shareSetLane s pl e t va).state := by
  unfold shareSetLane
  refine inForm_untilDone h fun _ h => inForm_ite_lane h ?_
  split
  · exact h
  · exact inForm_readBytes h fun _ _ h => inForm_ite_lane h (inForm_ite_lane h (inForm_stageLane h))

theorem inForm_chargeFrames {s : State} {pl t dir : Nat} {l : List (Except Nat Nat)} (h : InForm s) :
    InForm (chargeFrames s pl t dir l).state :=
  inForm_ite_lane h (inForm_ite_lane h (inForm_ite_lane h (inForm_stageLane h)))

theorem inForm_shareChgLane {s : State} {pl : Nat} {e : LaneEnt} {t va : Nat} (h : InForm s) : InForm (shareChgLane s pl e t va).state := by
  unfold shareChgLane
  refine inForm_untilDone h fun _ h => inForm_ite_lane h ?_
  split
  · exact h
  · exact inForm_readBytes h fun _ _ h => inForm_ite_lane h (inForm_readBytes h fun _ _ h => inForm_listFrames h
        fun _ _ h => inForm_chargeFrames h)

theorem formOut_execShareSet {h : Hdr} {d tgt desc : Reg} {s : State} (hs : InForm s) : FormOut (execShareSet h d tgt desc s) :=
  formOut_next (inForm_subdevWord hs fun _ _ _ h => inForm_shareSetLane h)

theorem formOut_execShareChg {h : Hdr} {d tgt desc : Reg} {s : State} (hs : InForm s) : FormOut (execShareChg h d tgt desc s) :=
  formOut_next (inForm_subdevWord hs fun _ _ _ h => inForm_shareChgLane h)

theorem inForm_latchCore {s : State} {id n w : Nat} (h : InForm s) : InForm (latchCore s id n w) :=
  inForm_ite h (inForm_completeOper (inForm_updCX (inForm_clearCore h)))

theorem formOut_execFreezeComplete {op : Nat} {s : State} (h : InForm s) : FormOut (execFreezeComplete op s) := by
  unfold execFreezeComplete
  refine formOut_next ?_
  split
  · exact h
  · refine inForm_ite h ?_
    split
    · exact inForm_wakeOpers (inForm_latchCore h)
    · exact h
    · exact inForm_ite (inForm_wakeOpers (inForm_completeOper h)) h
    · exact inForm_ite (inForm_updOper (inForm_foldl h fun _ _ h => inForm_saveRange h)) h
    · exact inForm_ite (inForm_afterDrain h) h
    · exact inForm_ite (inForm_afterDrain h) h

theorem inForm_shuffle {α : Type} {fuel : Nat} {s : State} {l : List α} (h : InForm s) : InForm (shuffle fuel s l).2 := by
  induction fuel generalizing s l with
  | zero => exact h
  | succ n ih =>
    unfold shuffle
    dsimp only
    split
    · exact inForm_drawFree h
    · exact ih (inForm_drawFree h)

theorem inForm_threadBytes {s : State} {gi t : Nat} (h : InForm s) : InForm (threadBytes s gi t).2 := by
  unfold threadBytes
  refine inForm_ite_snd (inForm_ite_snd (inForm_ite_snd (inForm_ite_snd (inForm_drawFree h) (inForm_pair h))
      (inForm_drawFree (inForm_ite_snd (inForm_drawFree h) (inForm_pair h))))
      (inForm_drawFree (inForm_ite_snd (inForm_ite_snd (inForm_drawFree h) (inForm_pair h))
      (inForm_drawFree (inForm_ite_snd (inForm_drawFree h) (inForm_pair h)))))) ?_
  split
  · exact inForm_ite_snd (inForm_ite_snd (inForm_ite_snd (inForm_drawFree h) (inForm_pair h))
        (inForm_drawFree (inForm_ite_snd (inForm_drawFree h) (inForm_pair h))))
        (inForm_drawFree (inForm_ite_snd (inForm_ite_snd (inForm_drawFree h) (inForm_pair h))
        (inForm_drawFree (inForm_ite_snd (inForm_drawFree h) (inForm_pair h)))))
  · exact inForm_drawFree (inForm_ite_snd (inForm_ite_snd (inForm_ite_snd (inForm_drawFree h) (inForm_pair h))
        (inForm_drawFree (inForm_ite_snd (inForm_drawFree h) (inForm_pair h))))
        (inForm_drawFree (inForm_ite_snd (inForm_ite_snd (inForm_drawFree h) (inForm_pair h))
        (inForm_drawFree (inForm_ite_snd (inForm_drawFree h) (inForm_pair h))))))

theorem inForm_groupBytes {s : State} {gi : Nat} (h : InForm s) : InForm (groupBytes s gi).2 := by
  unfold groupBytes
  dsimp only
  exact inForm_openField (inForm_foldl_snd h fun _ _ h => inForm_threadBytes h)

theorem inForm_openIf {c : Prop} {_ : Decidable c} {s : State} {v n : Nat} (h : InForm s) :
    InForm (if c then s.openField n else (v, s)).2 := inForm_ite_snd (inForm_drawFree h) h

theorem inForm_imageBody {s : State} {o : Oper} (h : InForm s) : InForm (imageBody s o).2 := by
  unfold imageBody
  dsimp only
  refine inForm_foldl_snd (inForm_pair (inForm_foldl_snd (inForm_pair (inForm_shuffle h)) fun p c hp => ?_)) fun p q hp => ?_
  · exact inForm_pair (inForm_foldl_snd (inForm_pair (inForm_shuffle hp)) fun a gi ha => inForm_pair (inForm_groupBytes ha))
  · exact inForm_pair (inForm_openIf (inForm_openIf hp))

theorem inForm_writeArea {fuel : Nat} {s : State} {ctx va : Nat} {l : List Byte} {deny : Bool} {done : Nat} (h : InForm s) :
    InForm (writeArea fuel s ctx va l deny done).2 := by
  induction fuel generalizing s va l done with
  | zero => exact h
  | succ n ih =>
    unfold writeArea
    refine inForm_ite_snd h ?_
    dsimp only
    split <;> rename_i e <;> have hs := inForm_snd e (inForm_partXlate h)
    · exact hs
    · exact hs
    · exact inForm_ite_snd hs (ih (inForm_partWrite hs))

theorem inForm_thawAfter {s : State} {id t : Nat} (h : InForm s) : InForm (thawAfter s id t) :=
  inForm_ite h (inForm_updCtx h)

theorem inForm_imageFault {s : State} {o : Oper} {code addr : Nat} (h : InForm s) : InForm (imageFault s o code addr) := by
  unfold imageFault
  dsimp only
  exact inForm_ite (inForm_postOwn (inForm_openField h)) (inForm_postOwn (inForm_partRecord (inForm_openField h)))

theorem formOut_execCheckpointImage {op : Nat} {s : State} (h : InForm s) : FormOut (execCheckpointImage op s) := by
  unfold execCheckpointImage
  refine formOut_next ?_
  split
  · exact h
  · split
    · refine inForm_ite h ?_
      generalize hb : imageBody _ _ = b
      have hb : InForm b.2 := hb ▸ inForm_imageBody h
      dsimp only
      split <;> rename_i e <;> have hs := inForm_snd e (inForm_writeArea hb)
      · exact inForm_updOper hs
      · exact inForm_wakeOpers (inForm_completeOper (inForm_ite (inForm_thawAfter hs) hs))
      · generalize hv : imageFault _ _ _ _ = v
        have hv : InForm v := hv ▸ inForm_imageFault (inForm_writeArea hs)
        exact inForm_wakeOpers (inForm_completeOper (inForm_ite (inForm_thawAfter hv) hv))
    · exact h

theorem formOut_execCkptTrigger {ctx : Nat} {onCount : Bool} {s : State} (h : InForm s) : FormOut (execCkptTrigger ctx onCount s) := by
  unfold execCkptTrigger
  refine formOut_next ?_
  split
  · exact h
  · refine inForm_ite h (inForm_ite (inForm_updCtx h) ?_)
    split
    · exact inForm_updCtx h
    · exact inForm_ite (inForm_updCtx h) (inForm_startOper (inForm_updCtx h))

theorem formOut_execLayoutTick {s : State} (h : InForm s) : FormOut (execLayoutTick s) :=
  formOut_next (inForm_ite h (inForm_wakeOpers (inForm_foldl (inForm_foldl (inForm_foldl (inForm_updCX h) fun _ _ h => inForm_applyChange h)
      fun _ _ h => inForm_completeOper h) fun _ _ h => inForm_sendReply h)))

theorem formOut_execLayoutAbandon {change : Nat} {s : State} (h : InForm s) : FormOut (execLayoutAbandon change s) := by
  unfold execLayoutAbandon
  refine formOut_next ?_
  split
  · exact h
  · refine inForm_ite h ?_
    split
    · exact inForm_sendReply (inForm_updCX h)
    · exact inForm_updCX h

theorem formOut_execFramemsTick {s : State} (h : InForm s) : FormOut (execFramemsTick s) :=
  formOut_next (inForm_updCX h)

/-! ### Rules for the functions of Machine/Protect.lean -/

theorem inForm_measLane {s : State} {pl : Nat} {e : LaneEnt} {tag va n : Nat} (h : InForm s) : InForm (measLane s pl e tag va n).state := by
  unfold measLane
  exact inForm_untilDone h fun _ h => inForm_ite_lane h (inForm_ite_lane h
      (inForm_readBytes h fun _ _ h => inForm_awaitLane (inForm_putObj h)))

theorem formOut_execMeas {h : Hdr} {d addr len : Reg} {tag : BitVec 5} {s : State} (hs : InForm s) :
    FormOut (execMeas h d addr len tag s) :=
  formOut_next (inForm_subdevWord hs fun _ _ _ h => inForm_measLane h)

theorem inForm_rcptLane {s : State} {pl : Nat} {e : LaneEnt} {va t : Nat} (h : InForm s) : InForm (rcptLane s pl e va t).state := by
  unfold rcptLane
  refine inForm_ite_lane h ?_
  split
  · exact h
  · refine inForm_readBytes h fun _ _ h => ?_
    split
    · dsimp only
      split <;> exact h
    · split
      · dsimp only
        split <;> exact h
      · split
        · dsimp only
          split <;> exact h
        · split
          · rename_i e5
            dsimp only
            split
            · exact h
            · exact h
            · exact inForm_takeChains (inForm_updCX (inForm_snd e5 (inForm_fresh h)))

theorem formOut_execRcpt {h : Hdr} {d desc tgt : Reg} {s : State} (hs : InForm s) : FormOut (execRcpt h d desc tgt s) :=
  formOut_next (inForm_subdevWord hs fun _ _ _ h => inForm_rcptLane h)

theorem inForm_signNow {s : State} {id : Nat} {r : Receipt} (h : InForm s) : InForm (signNow s id r).2 :=
  inForm_ite_snd (inForm_pair h) (inForm_pair (inForm_updCX h))

theorem formOut_execReceiptSigned {receipt : Nat} {s : State} (h : InForm s) : FormOut (execReceiptSigned receipt s) := by
  unfold execReceiptSigned
  dsimp only
  refine formOut_next ?_
  split
  · exact h
  · refine inForm_ite h ?_
    split <;> rename_i e2 <;> have hs := inForm_snd e2 (inForm_writeArea (inForm_signNow h))
    · exact inForm_partDone (inForm_updCX hs)
    · exact inForm_updCX hs
    · exact inForm_postOwn (inForm_updCX (inForm_openField hs))

theorem inForm_startScrub {s : State} {issuer done : Nat} {l : List (Except Nat Nat)} (h : InForm s) :
    InForm (startScrub s issuer done l).state :=
  inForm_ite_lane (inForm_bad h) (inForm_ite_lane (inForm_bad h) (inForm_ite_lane (inForm_park h)
      (inForm_ok (inForm_updCX (inForm_drawFree (inForm_foldl h fun _ _ h => inForm_dropFrameXl
      (inForm_updFrame (inForm_dropUsed (inForm_foldl h fun _ _ h => inForm_cancelPark h)))))))))

theorem inForm_scrubLane {s : State} {pl : Nat} {e : LaneEnt} {va : Nat} (h : InForm s) : InForm (scrubLane s pl e va).state := by
  unfold scrubLane
  split
  · exact h
  · refine inForm_readBytes h fun _ _ h => ?_
    dsimp only
    split
    · exact h
    · exact h
    · exact inForm_ite_lane h (inForm_readBytes h fun _ _ h => inForm_listFrames h fun _ _ h => inForm_startScrub h)

theorem formOut_execScrubStart {h : Hdr} {d desc : Reg} {s : State} (hs : InForm s) : FormOut (execScrubStart h d desc s) :=
  formOut_next (inForm_subdevWord hs fun _ _ _ h => inForm_scrubLane h)

theorem inForm_progressWord {s : State} {h : Hdr} {d : Reg} {act : State → Nat → LaneEnt → LaneOut} (hs : InForm s)
    (hact : ∀ s a b, InForm s → InForm (act s a b).state) : InForm (progressWord s h d act) :=
  inForm_withRelease hs fun _ h => inForm_serialWord h fun _ _ _ h => hact _ _ _ h

theorem formOut_execScrubProg {h : Hdr} {d job : Reg} {s : State} (hs : InForm s) : FormOut (execScrubProg h d job s) := by
  unfold execScrubProg
  refine formOut_next (inForm_progressWord hs fun _ _ _ h => ?_)
  split
  · exact h
  · exact inForm_ite_lane h h

theorem formOut_execScrubCtx {h : Hdr} {d tgt : Reg} {s : State} (hs : InForm s) : FormOut (execScrubCtx h d tgt s) := by
  unfold execScrubCtx
  dsimp only
  exact formOut_next (inForm_progressWord hs fun _ _ _ h => inForm_ite_lane h (inForm_pick h))

theorem formOut_execBackwashFrame {job : Nat} {s : State} (h : InForm s) : FormOut (execBackwashFrame job s) := by
  unfold execBackwashFrame
  refine formOut_next ?_
  split
  · exact h
  · split
    · exact h
    · exact inForm_share (inForm_updJob (inForm_ite (inForm_updFrame (inForm_zeroFrame (inForm_fixFrame h)))
          (inForm_giveFrame (inForm_zeroFrame (inForm_fixFrame h))))) fun k =>
        inForm_ite h (inForm_ite k (inForm_ite (inForm_finishResets k) (inForm_partDone k)))

theorem inForm_keyzLane {s : State} {pl k : Nat} (h : InForm s) : InForm (keyzLane s pl k).state := by
  unfold keyzLane
  dsimp only
  refine inForm_share ?_ fun k =>
    inForm_ite_lane h (inForm_ite_lane h (inForm_ite_lane k (inForm_ite_lane k
        (inForm_ite_lane k (inForm_forgetSlot (inForm_updWarp (inForm_shotFix k)))))))
  split
  · exact h
  · exact inForm_updWarp (inForm_emptySlot h)

theorem formOut_execKeyzM {h : Hdr} {d slot : Reg} {s : State} (hs : InForm s) : FormOut (execKeyzM h d slot s) :=
  formOut_next (inForm_subdevWord hs fun _ _ _ h => inForm_keyzLane h)

theorem formOut_execKeyzF {h : Hdr} {d slot : Reg} {s : State} (hs : InForm s) : FormOut (execKeyzF h d slot s) :=
  formOut_next (inForm_subdevWord hs fun _ _ _ h => inForm_ite_lane (inForm_bad h) (inForm_ok (inForm_zeroSlot h)))

theorem inForm_ownLane {s : State} {t w : Nat} (h : InForm s) : InForm (ownLane s t w).state :=
  inForm_ite_lane h (inForm_ite_lane h (inForm_updCtx (inForm_updCX h)))

theorem formOut_execWorldOwn {h : Hdr} {d tgt w : Reg} {s : State} (hs : InForm s) : FormOut (execWorldOwn h d tgt w s) :=
  formOut_next (inForm_subdevWord hs fun _ _ _ h => inForm_ownLane h)

theorem inForm_latchLane {s : State} {e : LaneEnt} {n w : Nat} {bar : Option Nat} (h : InForm s) :
    InForm (latchLane s e n w bar).state := by
  unfold latchLane
  refine inForm_ite_lane h ?_
  split
  · exact h
  · exact inForm_ite_lane h (inForm_ite_lane h (inForm_startOper h))

theorem formOut_execWorldLatch {h : Hdr} {d core w : Reg} {bar : Option Reg} {s : State} (hs : InForm s) :
    FormOut (execWorldLatch h d core w bar s) :=
  formOut_next (inForm_subdevWord hs fun _ _ _ h => inForm_latchLane h)

theorem formOut_execWorldFree {h : Hdr} {d w : Reg} {s : State} (hs : InForm s) : FormOut (execWorldFree h d w s) :=
  formOut_next (inForm_subdevWord hs fun _ _ _ h => inForm_ite_lane (inForm_bad h)
      (inForm_ite_lane (inForm_bad h) (inForm_ok (inForm_updCX h))))

/-! ### Rules for the functions of Machine/Migrate.lean -/

theorem inForm_splitLeaf {s : State} {x : PageLeaf} (h : InForm s) : InForm (splitLeaf s x) := by
  unfold splitLeaf
  split
  · refine inForm_foldl h fun _ _ h => ?_
    dsimp only
    split
    · exact inForm_partWrite h
    · exact h
  · exact h

theorem inForm_poolPlace {s : State} {jetty : Nat} (h : InForm s) : InForm (poolPlace s jetty).2 :=
  inForm_ite_snd (inForm_drawFree h) (inForm_drawFree h)

theorem inForm_startPark {s t : State} {x : PageLeaf} {forRecall : Option Nat} (h : InForm s) (e : startPark s x forRecall = some t) :
    InForm t := by
  have ht : InForm ((parkLines x).foldl takeLine s) := inForm_foldl h fun _ _ h => inForm_takeLine h
  unfold startPark at e
  dsimp only at e
  split at e
  · cases e
  · split at e
    · cases e
      exact ht
    · cases e
      exact inForm_updXL (inForm_fresh (inForm_dropXl (inForm_partWrite (inForm_partWrite (inForm_poolPlace (inForm_drawFree
        (inForm_splitLeaf ht)))))))

theorem formOut_execParkComplete {park : Nat} {s : State} (h : InForm s) : FormOut (execParkComplete park s) := by
  unfold execParkComplete
  refine formOut_next ?_
  split
  · exact h
  · exact inForm_ite h (inForm_poolPut (inForm_updXL (inForm_dropUsed (inForm_updFrame
        (inForm_discardFrame (inForm_partWrite (inForm_partWrite (inForm_foldl (inForm_fixFrame h) fun _ _ h => inForm_takeLine h))))))))

theorem inForm_takeFrame {s : State} {id : Nat} {r : RecallOp} (h : InForm s) : InForm (takeFrame s id r) := by
  unfold takeFrame
  dsimp only
  exact inForm_updXL (inForm_partWrite (inForm_ite (inForm_partWrite (inForm_pick h)) (inForm_pick h)))

theorem inForm_feedRecalls {s : State} (h : InForm s) : InForm (feedRecalls s) := by
  refine inForm_foldl h fun s x h => ?_
  split
  · exact h
  · refine inForm_ite h (inForm_ite (inForm_takeFrame h) (inForm_ite h ?_))
    split
    · rename_i v _
      cases e : startPark s v (some x.1) with
      | none => exact h
      | some t => exact inForm_startPark h e
    · exact h

theorem inForm_chargeRecalled {s : State} {f charge : Nat} (h : InForm s) : InForm (chargeRecalled s f charge) := by
  unfold chargeRecalled
  refine inForm_ite (inForm_giveFrame (inForm_zeroFrame h)) ?_
  split
  · exact inForm_updJob (inForm_updFrame h)
  · exact inForm_giveFrame h

theorem inForm_loseRecall {s : State} {id f : Nat} {r : RecallOp} (h : InForm s) : InForm (loseRecall s id f r) := by
  unfold loseRecall
  refine inForm_faultMatrix (inForm_foldl (inForm_foldl (inForm_poolPut (inForm_updXL (inForm_partWrite h)))
      fun _ _ h => inForm_faultWaiting h) fun _ _ h => ?_)
  split
  · exact inForm_ite (inForm_failCmd h) h
  · exact h
  · exact h
  · exact h
  · exact h
  · exact h

theorem inForm_finishRecall {s : State} {id f : Nat} {r : RecallOp} {leaf : Nat} {page : FarPage} {place : Nat} (h : InForm s) :
    InForm (finishRecall s id f r leaf page place) := by
  unfold finishRecall
  exact inForm_updXL (inForm_updFrame (inForm_chargeRecalled (inForm_partWrite
      (inForm_partWrite (inForm_updMM (inForm_setMemBytes (inForm_discardFrame h)))))))

theorem formOut_execRecallComplete {id : Nat} {how : RecallEnd} {s : State} (h : InForm s) : FormOut (execRecallComplete id how s) := by
  unfold execRecallComplete
  refine formOut_next ?_
  split
  · exact h
  · split
    · exact h
    · refine inForm_ite h (inForm_ite (inForm_poolPut (inForm_updXL h)) ?_)
      split
      · exact inForm_loseRecall h
      · exact inForm_ite (inForm_finishRecall h) (inForm_loseRecall h)

theorem inForm_parkAhead {n : Nat} {s : State} (h : InForm s) : InForm (parkAhead n s) := by
  induction n generalizing s with
  | zero => exact h
  | succ n ih =>
    unfold parkAhead
    split
    · split
      · exact ih (inForm_startPark h ‹_›)
      · exact h
    · exact h

theorem inForm_recallNoted {l : List (Nat × Nat)} {n : Nat} {s : State} (h : InForm s) : InForm (recallNoted l n s) := by
  induction l generalizing n s with
  | nil => exact inForm_updXL h
  | cons p l ih =>
    cases n with
    | zero => exact inForm_updXL h
    | succ n =>
      unfold recallNoted
      refine inForm_ite (ih h) ?_
      split <;> rename_i e <;> have hs := inForm_snd e (inForm_xlateNow h)
      · exact ih (inForm_startRecall hs)
      · exact ih hs

theorem inForm_coolFrames {s : State} (h : InForm s) : InForm (coolFrames s) :=
  inForm_updXL h

theorem formOut_execMigrationEpoch {queued : Nat} {s : State} (h : InForm s) : FormOut (execMigrationEpoch queued s) :=
  formOut_next (inForm_ite h (inForm_coolFrames (inForm_ite (inForm_ite (inForm_parkAhead h) h) (inForm_ite (inForm_recallNoted h) h))))

/-! ### Rules for the functions of Machine/HostPort.lean -/

theorem inForm_dark {s : State} : InForm (dark s) := ⟨rfl, rfl, nofun, by simp [dark]⟩

/-! ### Rules for the functions of Machine/State.lean -/

/-- The part as a boot leaves it. -/
theorem inForm_boot {n : Nat} : InForm (State.boot n) := ⟨rfl, rfl, nofun, by simp [State.boot]⟩

/-! ### Rules for the functions of Machine/HostPort.lean -/

theorem inForm_reboot {s : State} : InForm (reboot s) := by
  have h := inForm_boot (n := s.pt.boots + 1)
  refine inForm_ite ?_ (inForm_foldl ?_ fun _ _ h => inForm_loseUnit h)
  · exact inForm_of_parts h
  · exact inForm_of_parts h

theorem formOut_execPowerOn {s : State} (h : InForm s) : FormOut (execPowerOn s) :=
  formOut_next (inForm_ite h inForm_reboot)

theorem formOut_execResetLine {s : State} : FormOut (execResetLine s) :=
  formOut_next inForm_reboot

theorem formOut_execPowerLoss {s : State} : FormOut (execPowerLoss s) :=
  formOut_next inForm_dark

theorem inForm_send {s : State} {x : HostOut} (h : InForm s) : InForm (send s x) :=
  inForm_updPT h

theorem inForm_planWrite {fuel : Nat} {s : State} {ctx va : Nat} {l : List Byte} {acc : List (Nat × List Byte)} (h : InForm s) :
    InForm (planWrite fuel s ctx va l acc).2 := by
  induction fuel generalizing s va l acc with
  | zero => exact h
  | succ n ih =>
    unfold planWrite
    refine inForm_ite_snd h (inForm_ite_snd h ?_)
    dsimp only
    split <;> rename_i e <;> have hs := inForm_snd e (inForm_xlateNow h)
    · exact inForm_ite_snd hs (inForm_ite_snd hs (ih hs))
    · exact hs
    · exact inForm_startRecall hs
    · exact hs

theorem inForm_doWrite {s : State} {m : HostMsg} {imm : Option Word} (h : InForm s) : InForm (doWrite s m imm).2 := by
  unfold doWrite
  split
  · exact inForm_pair (inForm_updPT h)
  · refine inForm_ite_snd (inForm_pair (inForm_updPT h)) (inForm_ite_snd (inForm_pair (inForm_send h)) ?_)
    split <;> rename_i e2 <;> have hs := inForm_snd e2 (inForm_planWrite h)
    · exact inForm_pair hs
    · exact inForm_pair (inForm_send hs)
    · split
      · exact inForm_pair (inForm_foldl hs fun _ _ h => inForm_partWrite h)
      · exact inForm_share (inForm_foldl hs fun _ _ h => inForm_partWrite h) fun k =>
          inForm_ite_snd (inForm_pair k) (inForm_pair (inForm_partAdd k))

theorem formOut_execHostReadRefused {src qp : Nat} {s : State} (h : InForm s) : FormOut (execHostReadRefused src qp s) :=
  formOut_next (inForm_send h)

theorem inForm_launchNow {s : State} {h : FrameHdr} (hs : InForm s) : InForm (launchNow s h) := by
  unfold launchNow
  exact inForm_withEntry hs fun _ _ h => inForm_foldl h fun _ _ h => inForm_frameRecord h

theorem inForm_rootCommand {s : State} {h : FrameHdr} {code : Nat} {openOk : Bool} {k : State → State} (hs : InForm s)
    (hk : ∀ s, InForm s → InForm (k s)) : InForm (rootCommand s h code openOk k) :=
  inForm_withEntry hs fun _ _ h => inForm_ite (inForm_sendReply h) (hk _ h)

theorem inForm_reply0 {s : State} {h : FrameHdr} {code status : Nat} {payload : List Byte} (hs : InForm s) :
    InForm (reply0 s h code status payload) :=
  inForm_sendReply hs

theorem inForm_readviewNow {s : State} {h : FrameHdr} {ctx block core : Nat} (hs : InForm s) : InForm (readviewNow s h ctx block core) :=
  inForm_withEntry hs fun _ _ h => inForm_ite (inForm_sendReply h) (inForm_ite (inForm_sendReply h) (inForm_sendReply h))

theorem inForm_exportNow {s : State} {h : FrameHdr} {r : ExportReq} (hs : InForm s) : InForm (exportNow s h r) :=
  inForm_withEntry hs fun _ _ h => inForm_ite (inForm_sendReply h) (inForm_ite (inForm_sendReply h) (inForm_updPT (inForm_fresh h)))

theorem inForm_endExport {s : State} {id : Nat} {x : Exp} {status : Nat} (h : InForm s) : InForm (endExport s id x status) :=
  inForm_sendReply (inForm_updPT h)

theorem inForm_exportRange {s : State} {id : Nat} {x : Exp} (h : InForm s) : InForm (exportRange s id x) := by
  unfold exportRange
  dsimp only
  split <;> rename_i e1 <;> have hs := inForm_snd e1 (inForm_readSpan h)
  · exact hs
  · exact inForm_endExport hs
  · exact inForm_updPT (inForm_send (inForm_ite hs (inForm_send hs)))

theorem inForm_exportWait {s : State} {id : Nat} {x : Exp} (h : InForm s) : InForm (exportWait s id x) := by
  unfold exportWait
  dsimp only
  refine inForm_ite (inForm_endExport h) (inForm_ite (inForm_exportRange h) ?_)
  split
  · exact inForm_ite (inForm_exportRange (inForm_updPT h)) h
  · refine inForm_ite h (inForm_ite (inForm_endExport h) ?_)
    split <;> rename_i e2 <;> have hs := inForm_snd e2 (inForm_xlateNow h)
    · exact inForm_ite (inForm_endExport hs) (inForm_ite hs (inForm_ite
          (inForm_exportRange (inForm_updPT (inForm_updPT (inForm_svcRead hs)))) (inForm_updPT (inForm_svcRead hs))))
    · exact hs
    · exact inForm_startRecall hs
    · exact inForm_ite (inForm_endExport hs) (inForm_updPT (inForm_engineReq hs))

theorem inForm_pumpExports {s : State} (h : InForm s) : InForm (pumpExports s) :=
  inForm_foldl h fun _ _ h => inForm_ite h (inForm_exportWait h)

theorem formOut_execHostAcknowledgement {exp : Nat} {s : State} (h : InForm s) : FormOut (execHostAcknowledgement exp s) := by
  unfold execHostAcknowledgement
  refine formOut_next ?_
  split
  · exact h
  · exact inForm_ite (inForm_endExport h) h

theorem inForm_keyloadNow {s : State} {h : FrameHdr} {r : KeyReq} (hs : InForm s) : InForm (keyloadNow s h r) := by
  refine inForm_rootCommand hs fun s hs => ?_
  refine inForm_ite (inForm_reply0 hs) (inForm_ite (inForm_reply0 hs) (inForm_ite (inForm_reply0 hs)
      (inForm_reply0 (inForm_updPT hs ?_ ?_))))
    <;> intro p <;> split <;> rfl

theorem inForm_armckptNow {s : State} {h : FrameHdr} {ctx kind value : Nat} {desc : List Byte} (hs : InForm s) :
    InForm (armckptNow s h ctx kind value desc) :=
  inForm_rootCommand hs fun _ h => inForm_ite (inForm_reply0 h) (inForm_ite (inForm_reply0 h) (inForm_reply0 (inForm_updCtx h)))

theorem inForm_reportTo {s : State} {h : FrameHdr} {addr rkey size : Nat} (hs : InForm s) : InForm (reportTo s h addr rkey size) :=
  inForm_rootCommand hs fun _ h => inForm_ite (inForm_reply0 h) (inForm_reply0 (inForm_updPT h))

theorem inForm_healthNow {s : State} {h : FrameHdr} (hs : InForm s) : InForm (healthNow s h) :=
  inForm_rootCommand hs fun _ h => inForm_reply0 h

theorem inForm_layoutNow {s : State} {h : FrameHdr} {r : LayoutReq} (hs : InForm s) : InForm (layoutNow s h r) := by
  unfold layoutNow
  refine inForm_rootCommand hs fun _ h => ?_
  split
  · exact inForm_ite (inForm_reply0 h) (inForm_stage h)
  · exact inForm_ite (inForm_stage h) (inForm_reply0 h)

theorem inForm_powercapNow {s : State} {h : FrameHdr} {watts : Nat} (hs : InForm s) : InForm (powercapNow s h watts) := by
  refine inForm_rootCommand hs fun s hs => ?_
  split
  · exact inForm_reply0 hs
  · exact inForm_reply0 ⟨hs.memory, hs.scratch, hs.clocks, by
      show 600 ≤ watts ∧ watts ≤ 1700
      omega⟩

theorem inForm_bootstmtNow {s : State} {h : FrameHdr} (hs : InForm s) : InForm (bootstmtNow s h) :=
  inForm_rootCommand hs fun _ h => inForm_reply0 h

theorem inForm_resetNow {s : State} {h : FrameHdr} (hs : InForm s) : InForm (resetNow s h) :=
  inForm_rootCommand hs fun _ _ => inForm_reboot

theorem inForm_performMsg {i : Instr} {s : State} (h : InForm s) : InForm (performMsg i s).2 := by
  unfold performMsg
  split
  · exact inForm_doWrite h
  · exact inForm_doWrite h
  · exact inForm_launchNow h
  · exact inForm_readviewNow h
  · exact inForm_exportNow h
  · exact inForm_keyloadNow h
  · exact inForm_armckptNow h
  · exact inForm_reportTo h
  · exact inForm_healthNow h
  · exact inForm_layoutNow h
  · exact inForm_powercapNow h
  · exact inForm_bootstmtNow h
  · exact inForm_resetNow h
  · exact h

theorem inForm_keepMsg {s : State} {m : InMsg} (h : InForm s) : InForm (keepMsg s m) :=
  inForm_updPT h

theorem inForm_takeMsg {s : State} {src qp : Nat} {i : Instr} (h : InForm s) : InForm (takeMsg s src qp i) := by
  unfold takeMsg
  refine inForm_ite (inForm_keepMsg h) ?_
  split <;> rename_i e1 <;> have hs := inForm_snd e1 (inForm_performMsg h)
  · exact hs
  · exact inForm_keepMsg hs
  · exact inForm_keepMsg hs

theorem inForm_pumpInbox {s : State} (h : InForm s) : InForm (pumpInbox s) := by
  unfold pumpInbox
  refine inForm_foldl (inForm_updPT h) fun _ _ h => inForm_ite h ?_
  split
  · exact inForm_takeMsg h
  · exact inForm_ite (inForm_keepMsg h) h

theorem formOut_execHostWrite {m : HostMsg} {s : State} (h : InForm s) : FormOut (execHostWrite m s) :=
  formOut_next (inForm_takeMsg h)

theorem formOut_execHostWriteImm {m : HostMsg} {imm : Word} {s : State} (h : InForm s) : FormOut (execHostWriteImm m imm s) :=
  formOut_next (inForm_takeMsg h)

theorem formOut_execLaunchFrame {h : FrameHdr} {recs : List (List Byte)} {s : State} (hs : InForm s) : FormOut (execLaunchFrame h recs s) :=
  formOut_next (inForm_takeMsg hs)

theorem formOut_execReadview {h : FrameHdr} {ctx block core : Nat} {s : State} (hs : InForm s) :
    FormOut (execReadview h ctx block core s) :=
  formOut_next (inForm_takeMsg hs)

theorem formOut_execExportCmd {h : FrameHdr} {r : ExportReq} {s : State} (hs : InForm s) : FormOut (execExportCmd h r s) :=
  formOut_next (inForm_takeMsg hs)

theorem formOut_execKeyload {h : FrameHdr} {r : KeyReq} {s : State} (hs : InForm s) : FormOut (execKeyload h r s) :=
  formOut_next (inForm_takeMsg hs)

theorem formOut_execArmckpt {h : FrameHdr} {ctx kind value : Nat} {desc : List Byte} {s : State} (hs : InForm s) :
    FormOut (execArmckpt h ctx kind value desc s) :=
  formOut_next (inForm_takeMsg hs)

theorem formOut_execReport {h : FrameHdr} {hostAddr rkey size : Nat} {s : State} (hs : InForm s) :
    FormOut (execReport h hostAddr rkey size s) :=
  formOut_next (inForm_takeMsg hs)

theorem formOut_execHealth {h : FrameHdr} {s : State} (hs : InForm s) : FormOut (execHealth h s) :=
  formOut_next (inForm_takeMsg hs)

theorem formOut_execLayout {h : FrameHdr} {r : LayoutReq} {s : State} (hs : InForm s) : FormOut (execLayout h r s) :=
  formOut_next (inForm_takeMsg hs)

theorem formOut_execPowercap {h : FrameHdr} {watts : Nat} {s : State} (hs : InForm s) : FormOut (execPowercap h watts s) :=
  formOut_next (inForm_takeMsg hs)

theorem formOut_execBootstmt {h : FrameHdr} {s : State} (hs : InForm s) : FormOut (execBootstmt h s) :=
  formOut_next (inForm_takeMsg hs)

theorem formOut_execReset {h : FrameHdr} {s : State} (hs : InForm s) : FormOut (execReset h s) :=
  formOut_next (inForm_takeMsg hs)

theorem inForm_settleAfter {s : State} (h : InForm s) : InForm (settleAfter s) :=
  inForm_pump (inForm_pumpExports (inForm_pumpInbox (inForm_feedRecalls (inForm_pumpStops (inForm_endReady h)))))

/-! ### Rules for the functions of Machine/IntWords.lean -/

theorem formOut_execIadd {h : Hdr} {d a b : Reg} {ty : ITy} {sat : Bool} {s : State} (hs : InForm s) :
    FormOut (execIadd h d a b ty sat s) :=
  formOut_next (inForm_binaryWord hs)

theorem formOut_execIsub {h : Hdr} {d a b : Reg} {ty : ITy} {sat : Bool} {s : State} (hs : InForm s) :
    FormOut (execIsub h d a b ty sat s) :=
  formOut_next (inForm_binaryWord hs)

theorem formOut_execImul {h : Hdr} {d a b : Reg} {ty : ITy} {sat : Bool} {s : State} (hs : InForm s) :
    FormOut (execImul h d a b ty sat s) :=
  formOut_next (inForm_binaryWord hs)

theorem formOut_execImulh {h : Hdr} {d a b : Reg} {ty : ITy} {s : State} (hs : InForm s) : FormOut (execImulh h d a b ty s) :=
  formOut_next (inForm_binaryWord hs)

theorem formOut_execImad {h : Hdr} {d a b c : Reg} {ty : ITy} {sat : Bool} {s : State} (hs : InForm s) :
    FormOut (execImad h d a b c ty sat s) :=
  formOut_next (inForm_ternaryWord hs)

theorem formOut_execImadw {h : Hdr} {d a b c : Reg} {signed sat : Bool} {s : State} (hs : InForm s) :
    FormOut (execImadw h d a b c signed sat s) :=
  formOut_next (inForm_ternaryWord hs)

theorem formOut_execIadd64 {h : Hdr} {d a b : Reg} {p : Option (Fin 8)} {ci co : Bool} {s : State} (hs : InForm s) :
    FormOut (execIadd64 h d a b p ci co s) :=
  formOut_ite (formOut_next (inForm_putBoth hs)) (formOut_next (inForm_putVals hs))

theorem formOut_execLea {h : Hdr} {d a b : Reg} {ty : ITy} {k : Fin 32} {s : State} (hs : InForm s) : FormOut (execLea h d a b ty k s) :=
  formOut_next (inForm_binaryWord hs)

theorem formOut_execIshl {h : Hdr} {d a b : Reg} {ty : ITy} {s : State} (hs : InForm s) : FormOut (execIshl h d a b ty s) :=
  formOut_next (inForm_binaryWord hs)

theorem formOut_execIshr {h : Hdr} {d a b : Reg} {ty : ITy} {s : State} (hs : InForm s) : FormOut (execIshr h d a b ty s) :=
  formOut_next (inForm_binaryWord hs)

theorem formOut_execLshr {h : Hdr} {d a b : Reg} {ty : ITy} {s : State} (hs : InForm s) : FormOut (execLshr h d a b ty s) :=
  formOut_next (inForm_binaryWord hs)

theorem formOut_execRot {h : Hdr} {d a b : Reg} {ty : ITy} {s : State} (hs : InForm s) : FormOut (execRot h d a b ty s) :=
  formOut_next (inForm_binaryWord hs)

theorem formOut_execLop3 {h : Hdr} {d a b c : Reg} {tt : BitVec 8} {s : State} (hs : InForm s) : FormOut (execLop3 h d a b c tt s) :=
  formOut_next (inForm_ternaryWord hs)

theorem formOut_execAnd {h : Hdr} {d a b : Reg} {ty : ITy} {s : State} (hs : InForm s) : FormOut (execAnd h d a b ty s) :=
  formOut_next (inForm_binaryWord hs)

theorem formOut_execOr {h : Hdr} {d a b : Reg} {ty : ITy} {s : State} (hs : InForm s) : FormOut (execOr h d a b ty s) :=
  formOut_next (inForm_binaryWord hs)

theorem formOut_execXor {h : Hdr} {d a b : Reg} {ty : ITy} {s : State} (hs : InForm s) : FormOut (execXor h d a b ty s) :=
  formOut_next (inForm_binaryWord hs)

theorem formOut_execNot {h : Hdr} {d a : Reg} {ty : ITy} {s : State} (hs : InForm s) : FormOut (execNot h d a ty s) :=
  formOut_next (inForm_unaryWord hs)

theorem formOut_execImin {h : Hdr} {d a b : Reg} {ty : ITy} {s : State} (hs : InForm s) : FormOut (execImin h d a b ty s) :=
  formOut_next (inForm_binaryWord hs)

theorem formOut_execImax {h : Hdr} {d a b : Reg} {ty : ITy} {s : State} (hs : InForm s) : FormOut (execImax h d a b ty s) :=
  formOut_next (inForm_binaryWord hs)

theorem formOut_execIabs {h : Hdr} {d a : Reg} {ty : ITy} {sat : Bool} {s : State} (hs : InForm s) : FormOut (execIabs h d a ty sat s) :=
  formOut_next (inForm_unaryWord hs)

theorem formOut_execIneg {h : Hdr} {d a : Reg} {ty : ITy} {sat : Bool} {s : State} (hs : InForm s) : FormOut (execIneg h d a ty sat s) :=
  formOut_next (inForm_unaryWord hs)

theorem formOut_execPopc {h : Hdr} {d a : Reg} {ty : ITy} {s : State} (hs : InForm s) : FormOut (execPopc h d a ty s) :=
  formOut_next (inForm_unaryWord hs)

theorem formOut_execClz {h : Hdr} {d a : Reg} {ty : ITy} {s : State} (hs : InForm s) : FormOut (execClz h d a ty s) :=
  formOut_next (inForm_unaryWord hs)

theorem formOut_execBrev {h : Hdr} {d a : Reg} {ty : ITy} {s : State} (hs : InForm s) : FormOut (execBrev h d a ty s) :=
  formOut_next (inForm_unaryWord hs)

theorem formOut_execBfx {h : Hdr} {d a b : Reg} {ty : ITy} {s : State} (hs : InForm s) : FormOut (execBfx h d a b ty s) :=
  formOut_next (inForm_binaryWord hs)

theorem formOut_execBfi {h : Hdr} {d a b c : Reg} {ty : ITy} {s : State} (hs : InForm s) : FormOut (execBfi h d a b c ty s) :=
  formOut_next (inForm_ternaryWord hs)

theorem formOut_execIcmp {h : Hdr} {p : Fin 8} {a b : Reg} {ty : ITy} {cond : ICond} {s : State} (hs : InForm s) :
    FormOut (execIcmp h p a b ty cond s) :=
  formOut_next (inForm_compareWord hs)

theorem formOut_execSel {h : Hdr} {d a b : Reg} {p : Fin 8} {neg : Bool} {ty : ITy} {s : State} (hs : InForm s) :
    FormOut (execSel h d a b p neg ty s) :=
  formOut_next (inForm_putVals hs)

theorem formOut_execMov {h : Hdr} {d a : Reg} {ty : ITy} {s : State} (hs : InForm s) : FormOut (execMov h d a ty s) :=
  formOut_next (inForm_unaryWord hs)

theorem formOut_execMovi {h : Hdr} {d : Reg} {imm : Word} {s : State} (hs : InForm s) : FormOut (execMovi h d imm s) :=
  formOut_next (inForm_putVals hs)

theorem formOut_execMoviN64 {h : Hdr} {d : Reg} {hi : Bool} {imm : Word} {s : State} (hs : InForm s) : FormOut (execMoviN64 h d hi imm s) :=
  formOut_next (inForm_putVals hs)

theorem formOut_execPlop {h : Hdr} {p a b c : Fin 8} {tt : BitVec 8} {s : State} (hs : InForm s) : FormOut (execPlop h p a b c tt s) :=
  formOut_next (inForm_putPreds hs)

theorem formOut_execIdot4 {h : Hdr} {d a b c : Reg} {signed mix sat : Bool} {s : State} (hs : InForm s) :
    FormOut (execIdot4 h d a b c signed mix sat s) :=
  formOut_next (inForm_ternaryWord hs)

theorem formOut_execVtos {h : Hdr} {d a : Reg} {ty : ITy} {mode : VtosMode} {s : State} (hs : InForm s) :
    FormOut (execVtos h d a ty mode s) := by
  unfold execVtos
  split
  all_goals
    dsimp only
    split
    · exact formOut_next (inForm_finish hs)
    · exact formOut_ite (formOut_next (inForm_faultWord hs)) (formOut_next (inForm_finish (inForm_writeDst hs)))

theorem formOut_execSysrd {h : Hdr} {d : Reg} {sel : Fin 31} {s : State} (hs : InForm s) : FormOut (execSysrd h d sel s) :=
  formOut_next (inForm_putVals (inForm_ite (inForm_updWarp hs) hs))

/-! ### Rules for the functions of Machine/Wear.lean -/

theorem NMap.forall_insert {α : Type} {p : α → Prop} {m : NMap α} {k : Nat} {v : α} (hm : ∀ c ∈ m, p c.2) (hv : p v) :
    ∀ c ∈ NMap.insert m k v, p c.2 := by
  induction m with
  | nil => simpa [NMap.insert] using hv
  | cons a m ih =>
    obtain ⟨ha, hm⟩ := List.forall_mem_cons.1 hm
    unfold NMap.insert
    split
    · exact List.forall_mem_cons.2 ⟨hv, List.forall_mem_cons.2 ⟨ha, hm⟩⟩
    · split
      · exact List.forall_mem_cons.2 ⟨hv, hm⟩
      · exact List.forall_mem_cons.2 ⟨ha, ih hm⟩

theorem NMap.forall_erase {α : Type} {p : α → Prop} {m : NMap α} {k : Nat} (hm : ∀ c ∈ m, p c.2) : ∀ c ∈ NMap.erase m k, p c.2 := by
  induction m with
  | nil => exact hm
  | cons a m ih =>
    obtain ⟨ha, hm⟩ := List.forall_mem_cons.1 hm
    unfold NMap.erase
    split
    · exact ih hm
    · exact List.forall_mem_cons.2 ⟨ha, ih hm⟩

theorem NMap.forall_set {α : Type} [DecidableEq α] {p : α → Prop} {d : α} {m : NMap α} {k : Nat} {v : α} (hm : ∀ c ∈ m, p c.2)
    (hv : p v) : ∀ c ∈ NMap.set d m k v, p c.2 := by
  unfold NMap.set
  split
  · exact NMap.forall_erase hm
  · exact NMap.forall_insert hm hv

theorem inForm_setClock {s : State} {island n : Nat} (h : InForm s) (hn : 8 ≤ n ∧ n ≤ 16) : InForm (setClock s island n) :=
  ⟨h.memory, h.scratch, NMap.forall_set (p := fun n => 8 ≤ n ∧ n ≤ 16) h.clocks hn, h.cap⟩

/-- Every island's clock lies in its range, a clock that is not listed being the full one (R461). -/
theorem clockOf_range {s : State} (h : InForm s) (island : Nat) : 8 ≤ clockOf s island ∧ clockOf s island ≤ 16 :=
  NMap.get_all (fun n => 8 ≤ n ∧ n ≤ 16) 16 s.pt.clocks (by omega) h.clocks island

theorem inForm_throttle {s : State} (h : InForm s) : InForm (throttle s) :=
  inForm_foldl h fun _ i h => inForm_setClock h (by have := clockOf_range h i; omega)

theorem stepUp_range {n : Nat} (h : 8 ≤ n ∧ n ≤ 16) : 8 ≤ min 16 (n + 1) ∧ min 16 (n + 1) ≤ 16 := by omega

theorem inForm_relax {s : State} (h : InForm s) : InForm (relax s) :=
  inForm_foldl h fun _ i h => inForm_ite (inForm_setClock (inForm_coin h) (stepUp_range (clockOf_range (inForm_coin h) i))) (inForm_coin h)

theorem formOut_execPowerSample {watts : Nat} {temps : List (Nat × Nat)} {s : State} (h : InForm s) :
    FormOut (execPowerSample watts temps s) :=
  formOut_next (inForm_ite inForm_dark (inForm_ite (inForm_throttle (inForm_updPT h)) (inForm_relax (inForm_updPT h))))

theorem inForm_strikeGranule {s : State} {pa : Nat} (h : InForm s) : InForm (strikeGranule s pa) := by
  unfold strikeGranule
  split
  · exact inForm_poisonGranule h
  · exact inForm_updMM h

theorem inForm_strikeL1 {s : State} {core pa : Nat} (h : InForm s) : InForm (strikeL1 s core pa) := by
  unfold strikeL1
  exact inForm_setL1 h

theorem inForm_strikeRow {s : State} {core row : Nat} (h : InForm s) : InForm (strikeRow s core row) := by
  unfold strikeRow
  split
  · exact h
  · exact inForm_updPT h

theorem inForm_strikeAcc {s : State} {core tile m c : Nat} (h : InForm s) : InForm (strikeAcc s core tile m c) := by
  unfold strikeAcc
  split
  all_goals
    dsimp only
    split
    · exact h
    · exact inForm_updEN h

theorem inForm_strikeTree {s : State} {slot first last_ : Nat} (h : InForm s) : InForm (strikeTree s slot first last_) := by
  unfold strikeTree
  exact inForm_postEvent (inForm_foldl h fun _ _ h => inForm_foldl h fun _ _ h => inForm_strikeGranule h)

theorem inForm_strike {s : State} {x1 : ErrSite} (h : InForm s) : InForm (strike s x1) := by
  unfold strike
  split
  · exact inForm_strikeGranule h
  · exact inForm_strikeGranule h
  · exact inForm_strikeL1 h
  · exact inForm_strikeRow h
  · exact inForm_updPT h
  · exact inForm_strikeAcc h
  · exact inForm_strikeTree h
  · exact inForm_worsen h

theorem formOut_execSoftError {site : ErrSite} {uncorrectable : Bool} {retire : Option WearUnit} {s : State} (h : InForm s) :
    FormOut (execSoftError site uncorrectable retire s) := by
  unfold execSoftError
  refine formOut_next ?_
  split
  · exact inForm_ite (inForm_strike h) (inForm_updPT h)
  · exact inForm_share (inForm_ite (inForm_strike h) (inForm_updPT h)) fun k => inForm_ite (inForm_stage k) k

theorem formOut_execPortLinkChange {port : Nat} {jetty : Option (BitVec 16)} {s : State} (h : InForm s) :
    FormOut (execPortLinkChange port jetty s) :=
  formOut_next (inForm_ite h (inForm_of_still h))

/-! ### Rules for the functions of Machine/Dispatch.lean -/

theorem formOut_exec {i : Instr} {s : State} (h : InForm s) : FormOut (exec i s) := by
  unfold exec
  split
  · exact formOut_execPowerSample h
  · exact formOut_execSoftError h
  · exact formOut_execPortLinkChange h
  · exact formOut_execLayoutAbandon h
  · exact formOut_execCkptTrigger h
  · exact formOut_execMigrationEpoch h
  · exact formOut_execParkComplete h
  · exact formOut_execRecallComplete h
  · exact formOut_execLaunchFrame h
  · exact formOut_execRecordAcceptance h
  · exact formOut_execSpanPlacement h
  · exact formOut_execGridCompletion h
  · exact formOut_execRunSelection h
  · exact formOut_execPreemption h
  · exact formOut_execEddyRestore h
  · exact formOut_execMatrixGrantSwitch h
  · exact formOut_execResultReturn h
  · exact formOut_execWalkComplete h
  · exact formOut_execStorePerform h
  · exact formOut_execDirectoryAck h
  · exact formOut_execDrop h
  · exact formOut_execLineRetry h
  · exact formOut_execServiceWarpRequest h
  · exact formOut_execBwaitRetest h
  · exact formOut_execCopyGranule h
  · exact formOut_execXbulkGranule h
  · exact formOut_execMxstGranule h
  · exact formOut_execMatrixGranule h
  · exact formOut_execRxPacket h
  · exact formOut_execSignalPacket h
  · exact formOut_execPacketAck h
  · exact formOut_execFlitReplay h
  · exact formOut_execPacketRetransmit h
  · exact formOut_execEnrolmentConfirm h
  · exact formOut_execEnrolmentLost h
  · exact formOut_execFreezeComplete h
  · exact formOut_execCheckpointImage h
  · exact formOut_execBackwashFrame h
  · exact formOut_execReceiptSigned h
  · exact formOut_execHostWrite h
  · exact formOut_execHostWriteImm h
  · exact formOut_execHostReadRefused h
  · exact formOut_execReadview h
  · exact formOut_execExportCmd h
  · exact formOut_execKeyload h
  · exact formOut_execArmckpt h
  · exact formOut_execReport h
  · exact formOut_execHealth h
  · exact formOut_execLayout h
  · exact formOut_execPowercap h
  · exact formOut_execBootstmt h
  · exact formOut_execReset h
  · exact formOut_execNop h
  · exact formOut_execBra h
  · exact formOut_execBrx h
  · exact formOut_execCall h
  · exact formOut_execRet h
  · exact formOut_execExit h
  · exact formOut_execJoin h
  · exact formOut_execLeave h
  · exact formOut_execKwait h
  · exact formOut_execRgn h
  · exact formOut_execYield h
  · exact formOut_execTrap h
  · exact formOut_execBrk h
  · exact formOut_execSpri h
  · exact formOut_execLaunch h
  · exact formOut_execTrl h
  · exact formOut_execDualWord h
  · exact formOut_execIadd h
  · exact formOut_execIsub h
  · exact formOut_execImul h
  · exact formOut_execImulh h
  · exact formOut_execImad h
  · exact formOut_execImadw h
  · exact formOut_execIadd64 h
  · exact formOut_execLea h
  · exact formOut_execIshl h
  · exact formOut_execIshr h
  · exact formOut_execLshr h
  · exact formOut_execRot h
  · exact formOut_execLop3 h
  · exact formOut_execAnd h
  · exact formOut_execOr h
  · exact formOut_execXor h
  · exact formOut_execNot h
  · exact formOut_execImin h
  · exact formOut_execImax h
  · exact formOut_execIabs h
  · exact formOut_execIneg h
  · exact formOut_execPopc h
  · exact formOut_execClz h
  · exact formOut_execBrev h
  · exact formOut_execBfx h
  · exact formOut_execBfi h
  · exact formOut_execIcmp h
  · exact formOut_execSel h
  · exact formOut_execMov h
  · exact formOut_execMovi h
  · exact formOut_execMoviN64 h
  · exact formOut_execPlop h
  · exact formOut_execIdot4 h
  · exact formOut_execVtos h
  · exact formOut_execSysrd h
  · exact formOut_execFadd h
  · exact formOut_execFsub h
  · exact formOut_execFmul h
  · exact formOut_execFfma h
  · exact formOut_execFmin h
  · exact formOut_execFmax h
  · exact formOut_execFcmp h
  · exact formOut_execFclass h
  · exact formOut_execFscale h
  · exact formOut_execFrint h
  · exact formOut_execFmaxa h
  · exact formOut_execFrcp h
  · exact formOut_execFrsq h
  · exact formOut_execFsqrt h
  · exact formOut_execFexp2 h
  · exact formOut_execFlog2 h
  · exact formOut_execFsin h
  · exact formOut_execFcos h
  · exact formOut_execFtanh h
  · exact formOut_execFsigm h
  · exact formOut_execHadd2 h
  · exact formOut_execHmul2 h
  · exact formOut_execHfma2 h
  · exact formOut_execHmin2 h
  · exact formOut_execHmax2 h
  · exact formOut_execBadd2 h
  · exact formOut_execBmul2 h
  · exact formOut_execBfma2 h
  · exact formOut_execBmin2 h
  · exact formOut_execBmax2 h
  · exact formOut_execHdot2 h
  · exact formOut_execBdot2 h
  · exact formOut_execCvt h
  · exact formOut_execPack2 h
  · exact formOut_execBlkenc h
  · exact formOut_execBlkdec h
  · exact formOut_execBlkhdrMake h
  · exact formOut_execBlkhdrChk h
  · exact formOut_execLd h
  · exact formOut_execSt h
  · exact formOut_execLds h
  · exact formOut_execSts h
  · exact formOut_execLdc h
  · exact formOut_execLdsc h
  · exact formOut_execStsc h
  · exact formOut_execPref h
  · exact formOut_execCctlWb h
  · exact formOut_execCctlInv h
  · exact formOut_execCctlIvc h
  · exact formOut_execCctlIvcAll h
  · exact formOut_execCctlIviAll h
  · exact formOut_execFenceAcq h
  · exact formOut_execFenceRel h
  · exact formOut_execFenceAcqrel h
  · exact formOut_execPrset h
  · exact formOut_execPrclr h
  · exact formOut_execPrtst h
  · exact formOut_execAtom h
  · exact formOut_execAtomcas h
  · exact formOut_execRed h
  · exact formOut_execBsig h
  · exact formOut_execBwait h
  · exact formOut_execBpoll h
  · exact formOut_execStwait h
  · exact formOut_execStflip h
  · exact formOut_execGsync h
  · exact formOut_execShfl h
  · exact formOut_execShflx h
  · exact formOut_execVote h
  · exact formOut_execRedl h
  · exact formOut_execPrfx h
  · exact formOut_execMatchLanes h
  · exact formOut_execQxch h
  · exact formOut_execQbcst h
  · exact formOut_execLmap h
  · exact formOut_execCpy h
  · exact formOut_execCpy2d h
  · exact formOut_execCpyg h
  · exact formOut_execCpys h
  · exact formOut_execCpyf h
  · exact formOut_execWaitsb h
  · exact formOut_execCpyq h
  · exact formOut_execMxa h
  · exact formOut_execMxb h
  · exact formOut_execMxshp h
  · exact formOut_execMxspm h
  · exact formOut_execMxrun h
  · exact formOut_execMxcmt h
  · exact formOut_execMxwb h
  · exact formOut_execMxz h
  · exact formOut_execMxrd h
  · exact formOut_execMxwr h
  · exact formOut_execMxst h
  · exact formOut_execMxpairOn h
  · exact formOut_execMxpairOff h
  · exact formOut_execMxprog h
  · exact formOut_execXbulk h
  · exact formOut_execXred h
  · exact formOut_execXsig h
  · exact formOut_execRfence h
  · exact formOut_execSyswrWrite h
  · exact formOut_execSyswrRead h
  · exact formOut_execFaultResolve h
  · exact formOut_execCtxStat h
  · exact formOut_execCtxPrqHead h
  · exact formOut_execCtxFqHead h
  · exact formOut_execCtxNqHead h
  · exact formOut_execPtCtl h
  · exact formOut_execPtEntryWrite h
  · exact formOut_execTlbiCtx h
  · exact formOut_execTlbiPage h
  · exact formOut_execTlbiRange h
  · exact formOut_execSubdevCreate h
  · exact formOut_execSubdevResize h
  · exact formOut_execSubdevFreeze h
  · exact formOut_execSubdevThaw h
  · exact formOut_execSubdevCkpt h
  · exact formOut_execSubdevRevoke h
  · exact formOut_execSubdevReset h
  · exact formOut_execSubdevDlog h
  · exact formOut_execSubdevMeter h
  · exact formOut_execShareSet h
  · exact formOut_execShareChg h
  · exact formOut_execPgreply h
  · exact formOut_execMeas h
  · exact formOut_execRcpt h
  · exact formOut_execScrubStart h
  · exact formOut_execScrubProg h
  · exact formOut_execScrubCtx h
  · exact formOut_execKeyzM h
  · exact formOut_execKeyzF h
  · exact formOut_execWorldOwn h
  · exact formOut_execWorldLatch h
  · exact formOut_execWorldFree h
  · exact formOut_execWmapSet h
  · exact formOut_execWmapClr h
  · exact formOut_execWmapGet h
  · exact formOut_execExtensionApplied h
  · exact formOut_execHostAcknowledgement h
  · exact formOut_execPowerOn h
  · exact formOut_execResetLine
  · exact formOut_execPowerLoss
  · exact formOut_execLayoutTick h
  · exact formOut_execFramemsTick h

/-! ### Rules for the functions of Machine/Step.lean -/

theorem formOut_after {o : Out} {f : State → State} (h : FormOut o) (hf : ∀ s, InForm s → InForm (f s)) : FormOut (after o f) := by
  cases o with
  | next s => exact formOut_next (inForm_settleAfter (hf s (h s rfl)))
  | fault r => exact nofun
  | refused r => exact nofun

theorem formOut_runWarp {s : State} {wid : Nat} (h : InForm s) : FormOut (runWarp s wid) := by
  unfold runWarp
  refine formOut_ite ?_ (formOut_next h)
  split <;> rename_i e <;> have hs := inForm_issued e (inForm_issueWord (inForm_updMD h))
  · exact formOut_next (inForm_settleAfter hs)
  · exact formOut_after (formOut_exec hs) fun _ h => inForm_clearPoison (inForm_zeroHelpers (inForm_noteWork h))

theorem formOut_runEvent {s : State} {i : Instr} (h : InForm s) : FormOut (runEvent s i) :=
  formOut_ite (formOut_ite (formOut_after (formOut_exec h) fun _ h => h) (formOut_next h)) nofun

theorem formOut_step {s : State} (h : InForm s) : FormOut (step s) := by
  unfold step
  split
  · exact formOut_ite (formOut_runWarp (inForm_passCycles h)) (formOut_next (inForm_passCycles h))
  · have hs : ∀ {n rest}, InForm (passCycles (s.updMD fun m => { m with agenda := rest }) n) := inForm_passCycles (inForm_updMD h)
    split
    · exact formOut_runEvent hs
    · exact formOut_ite (formOut_runWarp hs) (formOut_next hs)

/-- Settles O59: a step is a warp's turn or an event, and every function that either calls keeps the form. -/
theorem everyStepKeepsTheMachineInForm : Obligations.EveryStepKeepsTheMachineInForm :=
  fun _ t h e => formOut_step h t e

end Sys2Proof.Machine
end


section
/-!
SUPPORT. O55: messages of the host. The order on a queue pair, the checks of a frame, the replies, and what each command does.
-/
namespace Sys2Proof.Machine

open Say

/-! ### The order on a queue pair (R451) -/

theorem takeMsg_of_waiting {s : State} {src qp : Nat} {i : Instr} (h : ∃ m ∈ s.pt.inbox, m.src = src ∧ m.qp = qp) :
    takeMsg s src qp i = keepMsg s { src := src, qp := qp, msg := some i } :=
  if_pos (by simpa using h)

theorem takeMsg_of_done {s t : State} {src qp : Nat} {i : Instr} (h : NextOnItsPair s src qp) (e : performMsg i s = (.done, t)) :
    takeMsg s src qp i = t := by
  rw [takeMsg, if_neg (by simpa [NextOnItsPair] using h), e]

/-- A message that has come to its add stays in line until the add is made. -/
theorem takeMsg_of_adding {s t : State} {src qp ctx addr : Nat} {i : Instr} (h : NextOnItsPair s src qp)
    (e : performMsg i s = (.adding ctx addr, t)) : takeMsg s src qp i = keepMsg t { src := src, qp := qp, bar := (ctx, addr) } := by
  rw [takeMsg, if_neg (by simpa [NextOnItsPair] using h), e]

/-! ### The checks of a frame (R376, R452, R458) -/

section
variable {s : State} {h : FrameHdr} {form openOk : Bool} {e : Nat} {k : Nat → State → State}

theorem withEntry_of_none (hm : matchEntry s h.src h.qp = none) :
    withEntry s h form openOk k = s.updPT (fun p => { p with noMatch := (p.noMatch + 1) % 2 ^ 32 }) := by
  simp [withEntry, hm]

theorem withEntry_of_open (hm : matchEntry s h.src h.qp = some e) (ho : (tenantOf s e).standsOpen = true) :
    withEntry s h form openOk k =
      if openOk && form then k e s else s.updPT (fun p => { p with badFrame := (p.badFrame + 1) % 2 ^ 32 }) := by
  simp [withEntry, hm, ho]

theorem withEntry_of_badTag (hm : matchEntry s h.src h.qp = some e) (ho : (tenantOf s e).standsOpen = false)
    (ht : tagHolds (tenantOf s e) h = false ∨ h.seq ≤ (tenantOf s e).lastSeq) :
    withEntry s h form openOk k = s.updPT (fun p => { p with badTag := (p.badTag + 1) % 2 ^ 32 }) := by
  simp [withEntry, hm, ho, ht]

/-- The state in which an entry has taken a frame: its SEQ has moved on. -/
def seqMoved (s : State) (e seq : Nat) : State := setTenant s e (fun t => { t with lastSeq := seq })

theorem withEntry_of_fresh (hm : matchEntry s h.src h.qp = some e) (ho : (tenantOf s e).standsOpen = false)
    (ht : tagHolds (tenantOf s e) h = true) (hq : (tenantOf s e).lastSeq < h.seq) :
    withEntry s h form openOk k =
      if form then k e (seqMoved s e h.seq) else s.updPT (fun p => { p with badFrame := (p.badFrame + 1) % 2 ^ 32 }) := by
  cases form <;> simp [withEntry, hm, ho, ht, Nat.not_le.2 hq, seqMoved]

theorem withEntry_of_accepted (h' : Accepted s h form e) : withEntry s h form openOk k = k e (seqMoved s e h.seq) := by
  rw [withEntry_of_fresh h'.found h'.provisioned h'.tag h'.fresh, if_pos h'.formed]

end

/-- An instruction that brings a frame: it is taken in its order, and performed through the checks of a frame; only HEALTH and BOOTSTMT may come
to an entry that stands open. -/
structure Brings (i : Instr) (h : FrameHdr) (form : Bool) (openOk : Bool) (k : Nat → State → State) : Prop where
  taken : ∀ s, exec i s = .next (takeMsg s h.src h.qp i)
  checked : ∀ s, performMsg i s = (.done, withEntry s h form openOk k)

section
variable {i : Instr} {s : State} {h : FrameHdr} {form openOk : Bool} {e : Nat} {k : Nat → State → State}

theorem Brings.waits (b : Brings i h form openOk k) (hw : ∃ m ∈ s.pt.inbox, m.src = h.src ∧ m.qp = h.qp) :
    exec i s = .next { s with pt := { s.pt with inbox := s.pt.inbox ++ [{ src := h.src, qp := h.qp, msg := some i }] } } := by
  rw [b.taken, takeMsg_of_waiting hw]
  rfl

theorem Brings.performed (b : Brings i h form openOk k) (hn : NextOnItsPair s h.src h.qp) :
    exec i s = .next (withEntry s h form openOk k) := by
  rw [b.taken, takeMsg_of_done hn (b.checked s)]

theorem Brings.accepted (b : Brings i h form openOk k) (ha : Accepted s h form e) : exec i s = .next (k e (seqMoved s e h.seq)) := by
  rw [b.performed ha.next, withEntry_of_accepted ha]

end

/-- The instructions that bring frames, each with the form of its frame (R452). -/
theorem brings_of_frame {i : Instr} {h : FrameHdr} {form : Bool}
    (hi : ((∃ g l, i = .launchFrame g l ∧ h = wholeFrame g l) ∧ form = launchForm h.bytes) ∨
      ((∃ c b n, i = .readview h c b n) ∧ form = commandForm 0x01 h) ∨ ((∃ r, i = .exportCmd h r) ∧ form = commandForm 0x02 h) ∨
      ((∃ r, i = .keyload h r) ∧ form = commandForm 0x10 h) ∨ ((∃ c k v d, i = .armckpt h c k v d) ∧ form = commandForm 0x11 h) ∨
      ((∃ a k n, i = .report h a k n) ∧ form = commandForm 0x12 h) ∨ (i = .health h ∧ form = commandForm 0x13 h) ∨
      ((∃ r, i = .layout h r) ∧ form = commandForm 0x14 h) ∨ ((∃ w, i = .powercap h w) ∧ form = commandForm 0x15 h) ∨
      (i = .bootstmt h ∧ form = commandForm 0x16 h) ∨ (i = .reset h ∧ form = commandForm 0x17 h)) :
    ∃ openOk k, Brings i h form openOk k ∧ (openOk = true → i = .health h ∨ i = .bootstmt h) := by
  obtain ⟨⟨g, l, rfl, rfl⟩, rfl⟩ | ⟨⟨c, b, n, rfl⟩, rfl⟩ | ⟨⟨r, rfl⟩, rfl⟩ | ⟨⟨r, rfl⟩, rfl⟩ | ⟨⟨c, k, v, d, rfl⟩, rfl⟩ |
    ⟨⟨a, k, n, rfl⟩, rfl⟩ | ⟨rfl, rfl⟩ | ⟨⟨r, rfl⟩, rfl⟩ | ⟨⟨w, rfl⟩, rfl⟩ | ⟨rfl, rfl⟩ | ⟨rfl, rfl⟩ := hi
  · exact ⟨false, _, ⟨fun _ => rfl, fun _ => rfl⟩, nofun⟩
  · exact ⟨false, _, ⟨fun _ => rfl, fun _ => rfl⟩, nofun⟩
  · exact ⟨false, _, ⟨fun _ => rfl, fun _ => rfl⟩, nofun⟩
  · exact ⟨false, _, ⟨fun _ => rfl, fun _ => rfl⟩, nofun⟩
  · exact ⟨false, _, ⟨fun _ => rfl, fun _ => rfl⟩, nofun⟩
  · exact ⟨false, _, ⟨fun _ => rfl, fun _ => rfl⟩, nofun⟩
  · exact ⟨true, _, ⟨fun _ => rfl, fun _ => rfl⟩, fun _ => .inl rfl⟩
  · exact ⟨false, _, ⟨fun _ => rfl, fun _ => rfl⟩, nofun⟩
  · exact ⟨false, _, ⟨fun _ => rfl, fun _ => rfl⟩, nofun⟩
  · exact ⟨true, _, ⟨fun _ => rfl, fun _ => rfl⟩, fun _ => .inr rfl⟩
  · exact ⟨false, _, ⟨fun _ => rfl, fun _ => rfl⟩, nofun⟩

/-- R376, R451, R452, R458: what becomes of a frame that is not taken. -/
theorem frame_untaken {s : State} {h : FrameHdr} {i : Instr} {form openOk : Bool} {k : Nat → State → State} (b : Brings i h form openOk k)
    (hk : openOk = true → i = .health h ∨ i = .bootstmt h) :
    ((∃ m ∈ s.pt.inbox, m.src = h.src ∧ m.qp = h.qp) →
      exec i s = .next { s with pt := { s.pt with inbox := s.pt.inbox ++ [{ src := h.src, qp := h.qp, msg := some i }] } }) ∧
    (NextOnItsPair s h.src h.qp →
      (matchEntry s h.src h.qp = none → exec i s = .next { s with pt := { s.pt with noMatch := (s.pt.noMatch + 1) % 2 ^ 32 } }) ∧
      ∀ e, matchEntry s h.src h.qp = some e →
        let bad := { s with pt := { s.pt with badFrame := (s.pt.badFrame + 1) % 2 ^ 32 } }
        ((tenantOf s e).standsOpen = true → (i ≠ .health h ∧ i ≠ .bootstmt h) ∨ form = false → exec i s = .next bad) ∧
        ((tenantOf s e).standsOpen = false → tagHolds (tenantOf s e) h = false ∨ h.seq ≤ (tenantOf s e).lastSeq →
          exec i s = .next { s with pt := { s.pt with badTag := (s.pt.badTag + 1) % 2 ^ 32 } }) ∧
        ((tenantOf s e).standsOpen = false → tagHolds (tenantOf s e) h = true → (tenantOf s e).lastSeq < h.seq → form = false →
          exec i s = .next bad)) := by
  refine ⟨b.waits, fun hn => ?_⟩
  rw [b.performed hn]
  refine ⟨fun hm => congrArg _ (withEntry_of_none hm), fun e hm => ⟨fun ho hc => ?_, fun ho ht => congrArg _ (withEntry_of_badTag hm ho ht),
    fun ho ht hq hf => ?_⟩⟩
  · have hc : (openOk && form) = false := by
      rcases hc with ⟨h1, h2⟩ | hf
      · cases openOk
        · rfl
        · exact ((hk rfl).elim h1 h2).elim
      · simp [hf]
    rw [withEntry_of_open hm ho, hc]
    rfl
  · rw [withEntry_of_fresh hm ho ht hq, hf]
    rfl

/-! ### Frames that are taken, and replies (R376, R453) -/

/-- A frame has moved its entry's SEQ and acted on the port, on contexts or on queues only. -/
def Seen (s t : State) (e seq : Nat) : Prop :=
  PortOnly s t ∧ (tenantOf t e).lastSeq = seq ∧ ∀ k, k ≠ e → tenantOf t k = tenantOf s k

def Answered (s t : State) (e code status seq : Nat) (payload : List Byte) : Prop :=
  Seen s t e seq ∧ Replied s t e code status seq payload

section
variable {s u : State} {e seq : Nat}

theorem tenantOf_seqMoved_self : tenantOf (seqMoved s e seq) e = { tenantOf s e with lastSeq := seq } := by
  simp [tenantOf, seqMoved, NMap.get_set_self]

theorem tenantOf_seqMoved_ne {k : Nat} (hk : k ≠ e) : tenantOf (seqMoved s e seq) k = tenantOf s k := by
  simp [tenantOf, seqMoved, NMap.get_set_ne _ _ _ _ _ hk]

theorem seen_of_tenants (hp : PortOnly s u) (ht : u.pt.tenants = (seqMoved s e seq).pt.tenants) : Seen s u e seq := by
  have hu : ∀ k, tenantOf u k = tenantOf (seqMoved s e seq) k := fun k => by rw [tenantOf, ht, tenantOf]
  refine ⟨hp, ?_, fun k hk => ?_⟩
  · rw [hu, tenantOf_seqMoved_self]
  · rw [hu, tenantOf_seqMoved_ne hk]

/-- A reply goes to the queue pair and under the key of its entry. -/
theorem replied_sendReply {code status n : Nat} {payload : List Byte} (ho : u.pt.out = s.pt.out)
    (ht : ∃ q, tenantOf u e = { tenantOf s e with lastSeq := q }) :
    Replied s (sendReply u e code status n payload) e code status n payload := by
  obtain ⟨q, ht⟩ := ht
  simp only [Replied, sendReply, State.updPT_pt, ho, ht]

/-- The reply to a frame that was taken, after the command's own effect. -/
theorem answered_sendReply {code status : Nat} {payload : List Byte} (hp : PortOnly s u)
    (ht : u.pt.tenants = (seqMoved s e seq).pt.tenants) (ho : u.pt.out = s.pt.out) :
    Answered s (sendReply u e code status seq payload) e code status seq payload :=
  ⟨seen_of_tenants hp ht, replied_sendReply ho ⟨seq, by rw [tenantOf, ht, ← tenantOf, tenantOf_seqMoved_self]⟩⟩

/-- The reply to a frame that has no effect of its own. -/
theorem answered_seqMoved {code status : Nat} {payload : List Byte} :
    Answered s (sendReply (seqMoved s e seq) e code status seq payload) e code status seq payload :=
  answered_sendReply ⟨rfl, rfl, rfl, rfl, rfl, rfl⟩ rfl rfl

end
end Sys2Proof.Machine
end

section
/-!
SUPPORT. O55: what each command of the host does, and the reply that its rule gives.
-/
namespace Sys2Proof.Machine

open Say

/-! ### A frame's SEQ and the rest of the state -/

section
variable {s : State} {e seq : Nat}

@[simp] theorem liveCtx_seqMoved (c : Nat) : (seqMoved s e seq).liveCtx c = s.liveCtx c := rfl
@[simp] theorem isAncestor_seqMoved (a c : Nat) : isAncestor (seqMoved s e seq) a c = isAncestor s a c := rfl
@[simp] theorem otherWorld_seqMoved (a c : Nat) : otherWorld (seqMoved s e seq) a c = otherWorld s a c := rfl
@[simp] theorem slotHolder_seqMoved (b : Bool) (k : Nat) : slotHolder (seqMoved s e seq) b k = slotHolder s b k := rfl
@[simp] theorem bootStatement_seqMoved : bootStatement (seqMoved s e seq) = bootStatement s := rfl

theorem viewFields_seqMoved {t : Nat} {steward : Bool} {block core : Nat} :
    viewFields (seqMoved s e seq) t steward block core = viewFields s t steward block core := rfl

end

/-! ### READVIEW (R467) and EXPORT (R455) -/

section
variable {s : State} {h : FrameHdr} {e : Nat}

theorem exec_readview {ctx block core : Nat} (hn : NextOnItsPair s h.src h.qp) :
    exec (.readview h ctx block core) s = .next (readviewNow s h ctx block core) := congrArg Host.Outcome.next (takeMsg_of_done hn rfl)

/-- READVIEW as an accepted frame's entry performs it. -/
theorem readviewNow_of_accepted {ctx block core : Nat} (ha : Accepted s h (commandForm 0x01 h) e) :
    readviewNow s h ctx block core =
      if !s.liveCtx ctx || !s.liveCtx (tenantOf s e).ctx || !isAncestor s (tenantOf s e).ctx ctx then
        sendReply (seqMoved s e h.seq) e 0x01 2 h.seq []
      else if 7 ≤ block ∨ ((block = 3 ∨ block = 5) ∧ 383 < core) then sendReply (seqMoved s e h.seq) e 0x01 3 h.seq []
      else
        let l := viewFields s ctx (ctx != (tenantOf s e).ctx || (tenantOf s e).ctx = 0) block core
        sendReply (seqMoved s e h.seq) e 0x01 0 h.seq
          (Config.replyLayout block (if otherWorld s (tenantOf s e).ctx ctx then veiledFields block l else l)) := by
  rw [readviewNow, withEntry_of_accepted ha]
  simp only [tenantOf_seqMoved_self, liveCtx_seqMoved, isAncestor_seqMoved, otherWorld_seqMoved, viewFields_seqMoved]

theorem readview_hidden {ctx block core : Nat} (ha : Accepted s h (commandForm 0x01 h) e)
    (hc : s.liveCtx ctx = false ∨ s.liveCtx (tenantOf s e).ctx = false ∨ isAncestor s (tenantOf s e).ctx ctx = false) :
    ∃ t, exec (.readview h ctx block core) s = .next t ∧ Answered s t e 0x01 2 h.seq [] := by
  refine ⟨_, exec_readview ha.next, ?_⟩
  rw [readviewNow_of_accepted ha, if_pos (by rcases hc with hc | hc | hc <;> simp [hc])]
  exact answered_seqMoved

theorem readview_badBlock {ctx block core : Nat} (ha : Accepted s h (commandForm 0x01 h) e) (hl : s.liveCtx ctx = true)
    (ho : s.liveCtx (tenantOf s e).ctx = true) (hc : isAncestor s (tenantOf s e).ctx ctx = true)
    (hb : 7 ≤ block ∨ ((block = 3 ∨ block = 5) ∧ 384 ≤ core)) :
    ∃ t, exec (.readview h ctx block core) s = .next t ∧ Answered s t e 0x01 3 h.seq [] := by
  refine ⟨_, exec_readview ha.next, ?_⟩
  rw [readviewNow_of_accepted ha, if_neg (by simp [hl, ho, hc]), if_pos (by omega)]
  exact answered_seqMoved

theorem readview_shown {ctx block core : Nat} (ha : Accepted s h (commandForm 0x01 h) e) (hl : s.liveCtx ctx = true)
    (ho : s.liveCtx (tenantOf s e).ctx = true) (hc : isAncestor s (tenantOf s e).ctx ctx = true) (hb : block < 7) (hn : core < 384)
    (hw : otherWorld s (tenantOf s e).ctx ctx = false) :
    ∃ t, exec (.readview h ctx block core) s = .next t ∧ t.cx = s.cx ∧ Answered s t e 0x01 0 h.seq
      (Config.replyLayout block (viewFields s ctx (ctx != (tenantOf s e).ctx || (tenantOf s e).ctx = 0) block core)) := by
  refine ⟨_, exec_readview ha.next, ?_⟩
  rw [readviewNow_of_accepted ha, if_neg (by simp [hl, ho, hc]), if_neg (by omega), hw]
  exact ⟨rfl, answered_seqMoved⟩

theorem exec_exportCmd {r : ExportReq} (hn : NextOnItsPair s h.src h.qp) : exec (.exportCmd h r) s = .next (exportNow s h r) :=
  congrArg Host.Outcome.next (takeMsg_of_done hn rfl)

theorem export_taken {r : ExportReq} (ha : Accepted s h (commandForm 0x02 h) e) (hl : s.liveCtx r.ctx = true)
    (ho : s.liveCtx (tenantOf s e).ctx = true) (hc : isAncestor s (tenantOf s e).ctx r.ctx = true) (hn : r.len ≤ 2 ^ 31) :
    ∃ t id, exec (.exportCmd h r) s = .next t ∧ Seen s t e h.seq ∧ t.pt.out = s.pt.out ∧
      t.pt.exps.find id = some { entry := e, seq := h.seq, req := r } := by
  refine ⟨_, (seqMoved s e h.seq).fresh.1, exec_exportCmd ha.next, ?_⟩
  rw [exportNow, withEntry_of_accepted ha]
  simp only [tenantOf_seqMoved_self, liveCtx_seqMoved, isAncestor_seqMoved, hl, ho, hc, Bool.not_true, Bool.or_self, Bool.false_eq_true,
    if_false, if_neg (Nat.not_lt.2 hn)]
  exact ⟨seen_of_tenants ⟨rfl, rfl, rfl, rfl, rfl, rfl⟩ rfl, rfl, NMap.find_insert_self ..⟩

theorem exec_hostAcknowledgement {id : Nat} : exec (.hostAcknowledgement id) s = execHostAcknowledgement id s := rfl

/-- R455 step 4: an EXPORT whose WRITEs have all been acknowledged is answered and ends. -/
theorem hostAcknowledgement_sent {id : Nat} {x : Exp} (hx : s.pt.exps.find id = some x) (hs : x.sent = true) :
    ∃ t, exec (.hostAcknowledgement id) s = .next t ∧ PortOnly s t ∧ Replied s t x.entry 0x02 0 x.seq [] ∧ t.pt.exps.find id = none := by
  have he : exec (.hostAcknowledgement id) s = .next (endExport s id x 0) := by
    rw [exec_hostAcknowledgement, execHostAcknowledgement]
    simp only [hx, hs, if_true]
  exact ⟨_, he, ⟨rfl, rfl, rfl, rfl, rfl, rfl⟩, replied_sendReply rfl ⟨_, rfl⟩, NMap.find_erase_self ..⟩

theorem hostAcknowledgement_unsent {id : Nat} {x : Exp} (hx : s.pt.exps.find id = some x) (hs : x.sent = false) :
    exec (.hostAcknowledgement id) s = .next s := by
  rw [exec_hostAcknowledgement, execHostAcknowledgement]
  simp only [hx, hs, Bool.false_eq_true, if_false]

/-! ### Launch frames (R376) -/

theorem exec_launchFrame {g : FrameHdr} {l : List (List Byte)} (hn : NextOnItsPair s g.src g.qp) :
    exec (.launchFrame g l) s = .next (launchNow s (wholeFrame g l)) := congrArg Host.Outcome.next (takeMsg_of_done hn rfl)

/-- R373, R376: a record whose queue is the tenant's and has room enters it. -/
theorem frameRecord_enters {seq i q : Nat} {r : FrameRec} (hl : s.liveCtx (tenantOf s e).ctx = true)
    (hr : isResetting s (tenantOf s e).ctx = false) (hq : localQueue s (tenantOf s e).ctx r.queue = some q)
    (hm : (tenantOf s e).qmask.testBit r.queue = true) (hn : (queueOf s q).recs.length < 64) :
    frameRecord s e seq i r =
      enterQueue s q { bytes := r.bytes, frame := some (e, seq, i), ctx := (tenantOf s e).ctx, localQ := r.queue } := by
  simp [frameRecord, hl, hq, hm, hr, Nat.not_le.2 hn]

theorem launch_entered {g : FrameHdr} {l : List (List Byte)} {r : FrameRec} {q : Nat} (hh : h = wholeFrame g l)
    (ha : Accepted s h (launchForm h.bytes) e) (h1 : launchRecs h.bytes = [r]) (hl : s.liveCtx (tenantOf s e).ctx = true)
    (hr : isResetting s (tenantOf s e).ctx = false) (hq : localQueue s (tenantOf s e).ctx r.queue = some q)
    (hm : (tenantOf s e).qmask.testBit r.queue = true) (hn : (queueOf s q).recs.length < 64) :
    ∃ t, exec (.launchFrame g l) s = .next t ∧ Seen s t e h.seq ∧ t.cx = s.cx ∧ t.pt.out = s.pt.out ∧
      queueOf t q = { queueOf s q with recs := (queueOf s q).recs ++
        [{ bytes := r.bytes, frame := some (e, h.seq, 0), ctx := (tenantOf s e).ctx, localQ := r.queue }] } ∧
      ∀ k, k ≠ q → queueOf t k = queueOf s k := by
  have hk := tenantOf_seqMoved_self (s := s) (e := e) (seq := h.seq)
  have ht : launchNow s h = enterQueue (seqMoved s e h.seq) q
      { bytes := r.bytes, frame := some (e, h.seq, 0), ctx := (tenantOf s e).ctx, localQ := r.queue } := by
    rw [launchNow, withEntry_of_accepted ha, h1]
    have hf := frameRecord_enters (s := seqMoved s e h.seq) (e := e) (seq := h.seq) (i := 0) (r := r) (q := q)
    rw [hk] at hf
    exact hf hl hr hq hm hn
  refine ⟨launchNow s h, ?_, ?_⟩
  · subst hh
    exact exec_launchFrame ha.next
  · rw [ht]
    refine ⟨seen_of_tenants ⟨rfl, rfl, rfl, rfl, rfl, rfl⟩ rfl, rfl, rfl, ?_, fun k hk => ?_⟩
    · simp [enterQueue, queueOf, NMap.get_set_self, seqMoved]
    · simp [enterQueue, queueOf, NMap.get_set_ne _ _ _ _ _ hk, seqMoved]

end

/-! ### Commands of the root (R454) -/

section
variable {s : State} {h : FrameHdr} {e : Nat}

theorem rootCommand_of_accepted {code : Nat} {openOk : Bool} {k : State → State} (ha : Accepted s h (commandForm code h) e) :
    rootCommand s h code openOk k =
      if e ≠ 0 then sendReply (seqMoved s e h.seq) e code 2 h.seq [] else k (seqMoved s e h.seq) := by
  rw [rootCommand, withEntry_of_accepted ha]

theorem rootCommand_of_root {code : Nat} {openOk : Bool} {k : State → State} (ha : Accepted s h (commandForm code h) 0) :
    rootCommand s h code openOk k = k (seqMoved s 0 h.seq) := rootCommand_of_accepted ha

theorem rootCommand_of_open {code : Nat} {k : State → State} (hm : matchEntry s h.src h.qp = some 0)
    (ho : (tenantOf s 0).standsOpen = true) (hf : commandForm code h = true) : rootCommand s h code true k = k s := by
  rw [rootCommand, withEntry_of_open hm ho, hf]
  rfl

/-- The commands that come from entry 0 alone, each with its CODE. -/
theorem exec_rootCommand {i : Instr} {code : Nat}
    (hi : (code = 0x10 ∧ ∃ r, i = .keyload h r) ∨ (code = 0x11 ∧ ∃ c k v d, i = .armckpt h c k v d) ∨
      (code = 0x12 ∧ ∃ a k n, i = .report h a k n) ∨ (code = 0x13 ∧ i = .health h) ∨ (code = 0x14 ∧ ∃ r, i = .layout h r) ∨
      (code = 0x15 ∧ ∃ w, i = .powercap h w) ∨ (code = 0x16 ∧ i = .bootstmt h) ∨ (code = 0x17 ∧ i = .reset h))
    (hn : NextOnItsPair s h.src h.qp) : ∃ openOk k, exec i s = .next (rootCommand s h code openOk k) := by
  obtain ⟨rfl, r, rfl⟩ | ⟨rfl, c, k, v, d, rfl⟩ | ⟨rfl, a, k, n, rfl⟩ | ⟨rfl, rfl⟩ | ⟨rfl, r, rfl⟩ | ⟨rfl, w, rfl⟩ | ⟨rfl, rfl⟩ |
    ⟨rfl, rfl⟩ := hi <;> exact ⟨_, _, congrArg Host.Outcome.next (takeMsg_of_done hn rfl)⟩

/-- R454: a command of the root from another entry has STATUS 2. -/
theorem rootCommand_denied {i : Instr} {code : Nat} (ha : Accepted s h (commandForm code h) e) (he : e ≠ 0)
    (hi : (code = 0x10 ∧ ∃ r, i = .keyload h r) ∨ (code = 0x11 ∧ ∃ c k v d, i = .armckpt h c k v d) ∨
      (code = 0x12 ∧ ∃ a k n, i = .report h a k n) ∨ (code = 0x13 ∧ i = .health h) ∨ (code = 0x14 ∧ ∃ r, i = .layout h r) ∨
      (code = 0x15 ∧ ∃ w, i = .powercap h w) ∨ (code = 0x16 ∧ i = .bootstmt h) ∨ (code = 0x17 ∧ i = .reset h)) :
    ∃ t, exec i s = .next t ∧ t.cx = s.cx ∧ Answered s t e code 2 h.seq [] := by
  obtain ⟨openOk, k, hx⟩ := exec_rootCommand hi ha.next
  rw [rootCommand_of_accepted ha, if_pos he] at hx
  exact ⟨_, hx, rfl, answered_seqMoved⟩

/-! ### KEYLOAD (R434, R456) -/

theorem exec_keyload {r : KeyReq} (hn : NextOnItsPair s h.src h.qp) : exec (.keyload h r) s = .next (keyloadNow s h r) :=
  congrArg Host.Outcome.next (takeMsg_of_done hn rfl)

/-- The key slot that a KEYLOAD fills. -/
def slotOf (r : KeyReq) : KeySlot :=
  let enci := r.enci && !r.fabric
  let z := fun (x : Nat) => if enci then x else 0
  { loaded := true, enci := enci, fbase := z r.fbase, fcount := z r.fcount, mdbase := z r.mdbase, material := r.material }

/-- A KEYLOAD into an empty slot that its holder owns: its key opens and fits, or STATUS 3. -/
theorem keyloadNow_of_empty {r : KeyReq} (ha : Accepted s h (commandForm 0x10 h) 0) (hk : r.slot < (if r.fabric = true then 64 else 256))
    (he : (if r.fabric = true then s.pt.fkeys else s.pt.mkeys).find r.slot = none) (hl : s.liveCtx r.holder = true)
    (hs : slotHolder s r.fabric r.slot = r.holder) :
    keyloadNow s h r =
      if !r.opens || decide (r.material.length ≠ if r.fabric then 32 else 96) then sendReply (seqMoved s 0 h.seq) 0 0x10 3 h.seq []
      else sendReply ((seqMoved s 0 h.seq).updPT (fun p =>
        if r.fabric then { p with fkeys := NMap.insert p.fkeys r.slot (slotOf r) } else { p with mkeys := NMap.insert p.mkeys r.slot (slotOf r) }))
        0 0x10 0 h.seq [] := by
  have he' : (if r.fabric = true then (seqMoved s 0 h.seq).pt.fkeys else (seqMoved s 0 h.seq).pt.mkeys).find r.slot = none := he
  rw [keyloadNow, rootCommand_of_root ha]
  simp only [he', liveCtx_seqMoved, slotHolder_seqMoved, hl, hs, if_neg (Nat.not_le.2 hk)]
  refine (if_neg (by simp)).trans ?_
  rfl

theorem keyload_refused {r : KeyReq} (ha : Accepted s h (commandForm 0x10 h) 0) (hk : r.slot < (if r.fabric = true then 64 else 256))
    (he : (if r.fabric = true then s.pt.fkeys else s.pt.mkeys).find r.slot = none) (hl : s.liveCtx r.holder = true)
    (hs : slotHolder s r.fabric r.slot = r.holder) (ho : r.opens = false) :
    ∃ t, exec (.keyload h r) s = .next t ∧ Answered s t 0 0x10 3 h.seq [] ∧ t.pt.mkeys = s.pt.mkeys ∧ t.pt.fkeys = s.pt.fkeys := by
  refine ⟨_, exec_keyload ha.next, ?_⟩
  rw [keyloadNow_of_empty ha hk he hl hs, if_pos (by simp [ho])]
  exact ⟨answered_seqMoved, rfl, rfl⟩

theorem keyload_loaded {r : KeyReq} (ha : Accepted s h (commandForm 0x10 h) 0) (hk : r.slot < (if r.fabric = true then 64 else 256))
    (he : (if r.fabric = true then s.pt.fkeys else s.pt.mkeys).find r.slot = none) (hl : s.liveCtx r.holder = true)
    (hs : slotHolder s r.fabric r.slot = r.holder) (ho : r.opens = true) (hm : r.material.length = (if r.fabric = true then 32 else 96)) :
    ∃ t y, exec (.keyload h r) s = .next t ∧ Answered s t 0 0x10 0 h.seq [] ∧
      (if r.fabric = true then t.pt.fkeys else t.pt.mkeys).find r.slot = some y ∧ y.loaded = true ∧ y.material = r.material ∧
      y.enci = (r.enci && !r.fabric) ∧ (y.enci = true → y.fbase = r.fbase ∧ y.fcount = r.fcount ∧ y.mdbase = r.mdbase) := by
  refine ⟨_, slotOf r, exec_keyload ha.next, ?_⟩
  rw [keyloadNow_of_empty ha hk he hl hs, if_neg (by simp [ho, hm])]
  refine ⟨?_, ?_, rfl, rfl, rfl, fun hy => ?_⟩
  · cases r.fabric
    · exact answered_sendReply ⟨rfl, rfl, rfl, rfl, rfl, rfl⟩ rfl rfl
    · exact answered_sendReply ⟨rfl, rfl, rfl, rfl, rfl, rfl⟩ rfl rfl
  · cases r.fabric
    · exact NMap.find_insert_self ..
    · exact NMap.find_insert_self ..
  · have hz : (r.enci && !r.fabric) = true := hy
    simp [slotOf, hz]

/-! ### The other commands of the root (R390, R414, R459 to R461, R464) -/

theorem armckpt_armed {ctx kind value : Nat} {desc : List Byte} (ha : Accepted s h (commandForm 0x11 h) 0) (hc : ctx ≠ 0)
    (hl : s.liveCtx ctx = true) (hk : kind ≤ 1) (hd : desc.length = 64) :
    let g : Option Trigger := if value = 0 then none else some { value := value, left := value, desc := desc }
    ∃ t, exec (.armckpt h ctx kind value desc) s = .next t ∧ Answered s t 0 0x11 0 h.seq [] ∧
      t.ctx ctx = (if kind = 0 then { s.ctx ctx with trigTime := g } else { s.ctx ctx with trigCount := g }) ∧
      ∀ c, c ≠ ctx → t.ctx c = s.ctx c := by
  intro g
  have he : exec (.armckpt h ctx kind value desc) s = .next (armckptNow s h ctx kind value desc) :=
    congrArg Host.Outcome.next (takeMsg_of_done ha.next rfl)
  have hx : armckptNow s h ctx kind value desc = reply0 ((seqMoved s 0 h.seq).updCtx ctx (fun c =>
      if kind = 0 then { c with trigTime := g } else { c with trigCount := g })) h 0x11 0 [] := by
    rw [armckptNow, rootCommand_of_root ha, if_neg (by simp [hc, hl]), if_neg (by omega)]
  refine ⟨_, he, ?_⟩
  rw [hx]
  refine ⟨answered_sendReply ⟨rfl, rfl, rfl, rfl, rfl, rfl⟩ rfl rfl, ?_, fun c hn => ?_⟩
  · obtain ⟨x, hf⟩ : ∃ x, s.cx.ctxs.find ctx = some x := by
      cases hf : s.cx.ctxs.find ctx with
      | none => simp [State.liveCtx, hf] at hl
      | some x => exact ⟨x, rfl⟩
    show ((NMap.upd s.cx.ctxs ctx _).find ctx).getD {} = _
    rw [NMap.find_upd_self, State.ctx, hf]
    rfl
  · show ((NMap.upd s.cx.ctxs ctx _).find c).getD {} = _
    rw [NMap.find_upd_ne _ _ _ _ hn, State.ctx]

theorem report_set {addr rkey size : Nat} (ha : Accepted s h (commandForm 0x12 h) 0) (hn : 64 ≤ size) :
    ∃ t, exec (.report h addr rkey size) s = .next t ∧ Answered s t 0 0x12 0 h.seq [] ∧ t.cx = s.cx ∧
      t.pt.report = some { qp := (tenantOf s 0).qp, addr := addr, rkey := rkey, size := size } := by
  have he : exec (.report h addr rkey size) s = .next (reportTo s h addr rkey size) :=
    congrArg Host.Outcome.next (takeMsg_of_done ha.next rfl)
  refine ⟨_, he, ?_⟩
  rw [reportTo, rootCommand_of_root ha, if_neg (by omega), tenantOf_seqMoved_self]
  exact ⟨answered_sendReply ⟨rfl, rfl, rfl, rfl, rfl, rfl⟩ rfl rfl, rfl, rfl⟩

theorem exec_health (hn : NextOnItsPair s h.src h.qp) : exec (.health h) s = .next (healthNow s h) :=
  congrArg Host.Outcome.next (takeMsg_of_done hn rfl)

/-- The payload of the reply to HEALTH (R464). -/
def healthReport (s : State) : List Byte :=
  Config.replyLayout 0x13 ([s.pt.health] ++ sparePools.map (NMap.get 0 s.pt.sparesUsed) ++ (List.range 7).map (NMap.get 0 s.pt.errors) ++
    [s.pt.watts, s.pt.maxTemp])

theorem health_answered (ha : Accepted s h (commandForm 0x13 h) 0) :
    ∃ t, exec (.health h) s = .next t ∧ t.cx = s.cx ∧ Answered s t 0 0x13 0 h.seq (healthReport s) := by
  refine ⟨_, exec_health ha.next, ?_⟩
  rw [healthNow, rootCommand_of_root ha]
  exact ⟨rfl, answered_seqMoved⟩

theorem health_answered_open (hn : NextOnItsPair s h.src h.qp) (hm : matchEntry s h.src h.qp = some 0)
    (ho : (tenantOf s 0).standsOpen = true) (hf : commandForm 0x13 h = true) :
    ∃ t, exec (.health h) s = .next t ∧ PortOnly s t ∧ Replied s t 0 0x13 0 h.seq (healthReport s) := by
  refine ⟨_, exec_health hn, ?_⟩
  rw [healthNow, rootCommand_of_open hm ho hf]
  exact ⟨⟨rfl, rfl, rfl, rfl, rfl, rfl⟩, replied_sendReply rfl ⟨_, rfl⟩⟩

theorem exec_bootstmt (hn : NextOnItsPair s h.src h.qp) : exec (.bootstmt h) s = .next (bootstmtNow s h) :=
  congrArg Host.Outcome.next (takeMsg_of_done hn rfl)

theorem bootstmt_answered (ha : Accepted s h (commandForm 0x16 h) 0) :
    ∃ t, exec (.bootstmt h) s = .next t ∧ t.cx = s.cx ∧ Answered s t 0 0x16 0 h.seq (bootStatement s) := by
  refine ⟨_, exec_bootstmt ha.next, ?_⟩
  rw [bootstmtNow, rootCommand_of_root ha, bootStatement_seqMoved]
  exact ⟨rfl, answered_seqMoved⟩

theorem bootstmt_answered_open (hn : NextOnItsPair s h.src h.qp) (hm : matchEntry s h.src h.qp = some 0)
    (ho : (tenantOf s 0).standsOpen = true) (hf : commandForm 0x16 h = true) :
    ∃ t, exec (.bootstmt h) s = .next t ∧ PortOnly s t ∧ Replied s t 0 0x16 0 h.seq (bootStatement s) := by
  refine ⟨_, exec_bootstmt hn, ?_⟩
  rw [bootstmtNow, rootCommand_of_open hm ho hf]
  exact ⟨⟨rfl, rfl, rfl, rfl, rfl, rfl⟩, replied_sendReply rfl ⟨_, rfl⟩⟩

theorem exec_layout {r : LayoutReq} (hn : NextOnItsPair s h.src h.qp) : exec (.layout h r) s = .next (layoutNow s h r) :=
  congrArg Host.Outcome.next (takeMsg_of_done hn rfl)

/-- A change is staged for the reply to come (R460). -/
theorem stage_seen {c : Change} {q : Nat} : ∃ id, Seen s (stage (seqMoved s 0 h.seq) c none (some (0, q))).2 0 h.seq ∧
    (stage (seqMoved s 0 h.seq) c none (some (0, q))).2.pt.out = s.pt.out ∧
    (stage (seqMoved s 0 h.seq) c none (some (0, q))).2.cx =
      { s.cx with staged := s.cx.staged ++ [{ id := id, change := c, reply := some (0, q) }] } :=
  ⟨_, seen_of_tenants ⟨rfl, rfl, rfl, rfl, rfl, rfl⟩ rfl, rfl, rfl⟩

theorem layout_modes {l : List (Nat × Nat)} (ha : Accepted s h (commandForm 0x14 h) 0) (hl : ∀ x ∈ l, x.1 < 384 ∧ x.2 ≤ 1) :
    ∃ t id, exec (.layout h (.modes l)) s = .next t ∧ Seen s t 0 h.seq ∧ t.pt.out = s.pt.out ∧
      t.cx = { s.cx with staged := s.cx.staged ++ [{ id := id, change := .modes l, reply := some (0, h.seq) }] } := by
  have hx : layoutNow s h (.modes l) = (stage (seqMoved s 0 h.seq) (.modes l) none (some (0, h.seq))).2 := by
    rw [layoutNow, rootCommand_of_root ha]
    refine if_neg ?_
    simp only [List.any_eq_true, Bool.or_eq_true, decide_eq_true_eq, not_exists, not_and]
    intro x hx
    have := hl x hx
    omega
  obtain ⟨id, hs⟩ := stage_seen (s := s) (h := h) (c := .modes l) (q := h.seq)
  exact ⟨_, id, hx ▸ exec_layout ha.next, hs⟩

theorem layout_retire {u : WearUnit} (ha : Accepted s h (commandForm 0x14 h) 0) (hu : unitOk u = true) :
    ∃ t id, exec (.layout h (.retire u)) s = .next t ∧ Seen s t 0 h.seq ∧ t.pt.out = s.pt.out ∧
      t.cx = { s.cx with staged := s.cx.staged ++ [{ id := id, change := .retire u, reply := some (0, h.seq) }] } := by
  have hx : layoutNow s h (.retire u) = (stage (seqMoved s 0 h.seq) (.retire u) none (some (0, h.seq))).2 := by
    rw [layoutNow, rootCommand_of_root ha]
    exact if_pos hu
  obtain ⟨id, hs⟩ := stage_seen (s := s) (h := h) (c := .retire u) (q := h.seq)
  exact ⟨_, id, hx ▸ exec_layout ha.next, hs⟩

theorem exec_powercap {w : Nat} (hn : NextOnItsPair s h.src h.qp) : exec (.powercap h w) s = .next (powercapNow s h w) :=
  congrArg Host.Outcome.next (takeMsg_of_done hn rfl)

theorem powercap_set {w : Nat} (ha : Accepted s h (commandForm 0x15 h) 0) (hw : 600 ≤ w ∧ w ≤ 1700) :
    ∃ t, exec (.powercap h w) s = .next t ∧ Answered s t 0 0x15 0 h.seq [] ∧ t.pt.powerCap = w := by
  refine ⟨_, exec_powercap ha.next, ?_⟩
  rw [powercapNow, rootCommand_of_root ha, if_neg (by omega)]
  exact ⟨answered_sendReply ⟨rfl, rfl, rfl, rfl, rfl, rfl⟩ rfl rfl, rfl⟩

theorem powercap_refused {w : Nat} (ha : Accepted s h (commandForm 0x15 h) 0) (hw : w < 600 ∨ 1700 < w) :
    ∃ t, exec (.powercap h w) s = .next t ∧ Answered s t 0 0x15 3 h.seq [] ∧ t.pt.powerCap = s.pt.powerCap := by
  refine ⟨_, exec_powercap ha.next, ?_⟩
  rw [powercapNow, rootCommand_of_root ha, if_pos hw]
  exact ⟨answered_seqMoved, rfl⟩

end

end Sys2Proof.Machine
end

section
/-!
SUPPORT. O55: what a boot leaves (R457, R463, R466): the units that the wear section names as lost are lost again, one after the other,
in a part that holds nothing else yet.
-/
namespace Sys2Proof.Machine

open Say

/-- The part holds what a boot leaves: no work, no memory, the root alone. -/
structure AsBooted (t : State) : Prop where
  rg : t.rg = {}
  wk : t.wk = {}
  mem : t.mm.mem = []
  llc : t.mm.llc = []
  frames : t.xl.frames = []
  ctxs : t.cx.ctxs = [(0, rootCtx)]

/-- What the loss of units leaves alone in the part's own registers. -/
def WearKept (s t : State) : Prop :=
  t.pt.powered = s.pt.powered ∧ t.pt.boots = s.pt.boots ∧ t.pt.out = s.pt.out ∧ t.pt.sparesUsed = s.pt.sparesUsed ∧ t.pt.health = s.pt.health

theorem WearKept.trans {s t u : State} (h : WearKept s t) (h' : WearKept t u) : WearKept s u := by
  obtain ⟨h1, h2, h3, h4, h5⟩ := h
  obtain ⟨g1, g2, g3, g4, g5⟩ := h'
  exact ⟨g1.trans h1, g2.trans h2, g3.trans h3, g4.trans h4, g5.trans h5⟩

/-- The root alone has no children whose guarantees could be cut. -/
theorem cutChildren_of_asBooted {t : State} (h : AsBooted t) (c f : Nat) : cutChildren t c f = t := by
  have hc : children t c = [] := by simp [children, h.ctxs]
  simp [cutChildren, hc]

theorem cutGuarantees_of_asBooted {t : State} (h : AsBooted t) : cutGuarantees t = t := by
  have hl : ∀ lv ∈ [1, 2], (t.cx.ctxs.filter (fun c => c.2.level = lv)).map (·.1) = [] := by
    intro lv hlv
    rw [h.ctxs]
    simp only [List.mem_cons, List.not_mem_nil, or_false] at hlv
    rcases hlv with rfl | rfl <;> rfl
  simp only [cutGuarantees, cutChildren_of_asBooted h, List.foldl_cons, List.foldl_nil, hl 1 (by simp), hl 2 (by simp)]

/-- The frames of a slot's key are forgotten; a part that has just booted has bound none. -/
theorem forgetSlot_of_no_frames {t : State} (h : t.xl.frames = []) (k : Nat) : forgetSlot t k = t := by simp [forgetSlot, h]

theorem zeroSlot_asBooted {t : State} (h : AsBooted t) (fabric : Bool) (k : Nat) :
    AsBooted (zeroSlot t fabric k) ∧ WearKept t (zeroSlot t fabric k) ∧ (zeroSlot t fabric k).pt.retired = t.pt.retired := by
  have same : WearKept t t := ⟨rfl, rfl, rfl, rfl, rfl⟩
  cases fabric with
  | true => exact ⟨⟨h.rg, h.wk, h.mem, h.llc, h.frames, h.ctxs⟩, same, rfl⟩
  | false =>
    have e : zeroSlot t false k = (emptySlot t false k).2 := forgetSlot_of_no_frames (t := (emptySlot t false k).2) h.frames k
    have hw : (emptySlot t false k).2.wk = {} := by
      show ({ t.wk with warps := t.wk.warps.map _ } : WorkSt) = {}
      rw [h.wk]
      rfl
    rw [e]
    exact ⟨⟨h.rg, hw, h.mem, h.llc, h.frames, h.ctxs⟩, same, rfl⟩

/-- A slice that is lost hosts no line. -/
theorem retireSlice_of_no_lines {t : State} (h : t.mm.llc = []) (n : Nat) :
    ∃ m, retireSlice t n = t.updMM (fun x => { x with sliceMap := m }) := by
  unfold retireSlice
  simp only [h, List.map_nil, List.filter_nil, List.foldl_nil]
  exact ⟨_, rfl⟩

theorem loseUnit_asBooted {t : State} (h : AsBooted t) (u : WearUnit) :
    AsBooted (loseUnit t u) ∧ WearKept t (loseUnit t u) ∧ (loseUnit t u).pt.retired = t.pt.retired ++ [u] := by
  have hr : AsBooted (t.updPT (fun p => { p with retired := p.retired ++ [u] })) := ⟨h.rg, h.wk, h.mem, h.llc, h.frames, h.ctxs⟩
  have same : WearKept t t := ⟨rfl, rfl, rfl, rfl, rfl⟩
  cases u with
  | core n => exact ⟨hr, same, rfl⟩
  | lane p => exact ⟨hr, same, rfl⟩
  | slice n =>
    obtain ⟨m, hm⟩ := retireSlice_of_no_lines hr.llc n
    rw [loseUnit, hm]
    exact ⟨⟨h.rg, h.wk, h.mem, h.llc, h.frames, h.ctxs⟩, same, rfl⟩
  | pchan stack n =>
    rw [loseUnit, cutGuarantees_of_asBooted]
    · exact ⟨⟨h.rg, h.wk, h.mem, h.llc, h.frames, h.ctxs⟩, same, rfl⟩
    · exact ⟨h.rg, h.wk, h.mem, h.llc, h.frames, h.ctxs⟩
  | keyRow fabric k =>
    obtain ⟨hz, hk, hz'⟩ := zeroSlot_asBooted hr fabric k
    cases fabric <;> exact ⟨⟨hz.rg, hz.wk, hz.mem, hz.llc, hz.frames, hz.ctxs⟩, same.trans hk, hz'⟩

theorem loseUnits_asBooted {t : State} (h : AsBooted t) (l : List WearUnit) :
    AsBooted (l.foldl loseUnit t) ∧ WearKept t (l.foldl loseUnit t) ∧ (l.foldl loseUnit t).pt.retired = t.pt.retired ++ l := by
  induction l generalizing t with
  | nil => exact ⟨h, ⟨rfl, rfl, rfl, rfl, rfl⟩, (List.append_nil _).symm⟩
  | cons u l ih =>
    obtain ⟨h1, k1, r1⟩ := loseUnit_asBooted h u
    obtain ⟨h2, k2, r2⟩ := ih h1
    exact ⟨h2, k1.trans k2, by rw [List.foldl_cons, r2, r1, List.append_assoc, List.singleton_append]⟩

/-- R457, R466: what a reboot leaves, and what it has sent. -/
theorem reboot_booted (s : State) : (reboot s).pt.out = s.pt.out ∧ BootedAfter s (reboot s) := by
  unfold reboot
  split
  · rename_i hw
    refine ⟨rfl, fun _ => rfl, fun h1 h2 => ?_⟩
    rw [h2] at hw
    simp only [Bool.not_true, Bool.false_eq_true, or_false] at hw
    exact absurd hw h1
  · rename_i hw
    have hb : ∀ (m : ModelSt) (p : PartSt), AsBooted { State.boot (s.pt.boots + 1) with md := m, pt := p } :=
      fun m p => ⟨rfl, rfl, rfl, rfl, rfl, rfl⟩
    obtain ⟨h, ⟨k1, k2, k3, k4, k5⟩, r⟩ := loseUnits_asBooted (hb s.md { (State.boot (s.pt.boots + 1)).pt with
      out := s.pt.out, sparesUsed := s.pt.sparesUsed, health := wornHealth s.pt.sparesUsed s.pt.retired }) s.pt.retired
    refine ⟨k3, fun h1 => ?_, fun _ _ => ⟨k1, k2, k4, r, k5, h.rg, h.wk, h.mem, ?_⟩⟩
    · exact absurd (h1.imp_right fun h2 => by simp [h2]) hw
    · rw [h.ctxs]
      rfl

/-! ### The commands and the events of power -/

/-- R466: the reply to RESET leaves before the part boots again. -/
theorem reset_done {s : State} {h : FrameHdr} (ha : Accepted s h (commandForm 0x17 h) 0) :
    ∃ t, exec (.reset h) s = .next t ∧ Replied s t 0 0x17 0 h.seq [] ∧ BootedAfter s t := by
  have he : exec (.reset h) s = .next (resetNow s h) := congrArg Host.Outcome.next (takeMsg_of_done ha.next rfl)
  have hx : resetNow s h = reboot (reply0 (seqMoved s 0 h.seq) h 0x17 0 []) := by
    rw [resetNow, rootCommand_of_root ha]
  obtain ⟨ho, hb⟩ := reboot_booted (reply0 (seqMoved s 0 h.seq) h 0x17 0 [])
  have hr : Answered s (reply0 (seqMoved s 0 h.seq) h 0x17 0 []) 0 0x17 0 h.seq [] := answered_seqMoved
  refine ⟨_, he, ?_⟩
  rw [hx]
  exact ⟨ho.trans hr.2, hb⟩

theorem powerOn_powered {s : State} (h : s.pt.powered = true) : exec .powerOn s = .next s := congrArg Host.Outcome.next (if_pos h)

theorem powerOn_dark {s : State} (h : s.pt.powered = false) :
    ∃ t, exec .powerOn s = .next t ∧ t.pt.out = s.pt.out ∧ BootedAfter s t :=
  ⟨reboot s, congrArg Host.Outcome.next (if_neg (by simp [h])), reboot_booted s⟩

theorem resetLine_done (s : State) : ∃ t, exec .resetLine s = .next t ∧ t.pt.out = s.pt.out ∧ BootedAfter s t :=
  ⟨reboot s, rfl, reboot_booted s⟩

/-- R10: nothing is left but what the wear section and the outside hold. -/
theorem powerLoss_done (s : State) : ∃ t, exec .powerLoss s = .next t ∧ t.pt.powered = false ∧ t.rg = {} ∧ t.wk = {} ∧ t.mm = {} ∧
    t.xl = {} ∧ t.en = {} ∧ t.fb = {} ∧ t.cx.ctxs = [] ∧ t.pt.sparesUsed = s.pt.sparesUsed ∧ t.pt.retired = s.pt.retired :=
  ⟨dark s, rfl, rfl, rfl, rfl, rfl, rfl, rfl, rfl, rfl, rfl, rfl⟩

end Sys2Proof.Machine
end

section
/-!
SUPPORT. What a write of the part does to memory (R115, R120, R450): the dirty words that the L1s hold of its lines are written back
first, then its own bytes.
-/
namespace Sys2Proof.Machine

open Say

/-! ### Bytes of memory -/

theorem NMap.get_mem {α : Type} (d : α) (m : NMap α) (k : Nat) : NMap.get d m k = d ∨ (k, NMap.get d m k) ∈ m := by
  induction m with
  | nil => exact .inl rfl
  | cons c m ih =>
    obtain ⟨a, v⟩ := c
    by_cases h : a = k
    · simp [NMap.get, h]
    · simp only [NMap.get, h, if_false, List.mem_cons]
      exact ih.imp_right .inr

theorem memByte_setMemByte (s : State) (pa a : Nat) (b : Byte) : memByte (setMemByte s pa b) a = if a = pa then b else memByte s a := by
  split
  · rename_i h
    rw [h, memByte, setMemByte_mm, NMap.get_set_self]
  · rename_i h
    rw [memByte, setMemByte_mm, NMap.get_set_ne _ _ _ _ _ h, memByte]

theorem setMemBytes_append (s : State) (pa : Nat) (l : List Byte) (b : Byte) :
    setMemBytes s pa (l ++ [b]) = setMemByte (setMemBytes s pa l) (pa + l.length) b := by
  simp [setMemBytes, List.range_succ, List.zip_append]

theorem memByte_setMemBytes (s : State) (pa a : Nat) (l : List Byte) :
    memByte (setMemBytes s pa l) a = if pa ≤ a ∧ a < pa + l.length then l.getD (a - pa) 0 else memByte s a := by
  induction l using List.reverseRecOn with
  | nil => simp [setMemBytes]
  | append_singleton l b ih =>
    rw [setMemBytes_append, memByte_setMemByte, ih]
    by_cases h : a = pa + l.length
    · subst h
      simp
    · rw [if_neg h]
      by_cases hr : pa ≤ a ∧ a < pa + l.length
      · rw [if_pos hr, if_pos (by simp; omega), List.getD_append _ _ _ _ (by omega)]
      · rw [if_neg hr, if_neg (by simp; omega)]

/-! ### What caching a line leaves alone -/

/-- What no operation on memory's lines changes. -/
def outside (s : State) : RegSt × WorkSt × EngSt × FabSt × CtxSt × PartSt := (s.rg, s.wk, s.en, s.fb, s.cx, s.pt)

/-- What the LLC leaves alone: memory's bytes and the cores' L1s besides. -/
def beside (s : State) : (RegSt × WorkSt × EngSt × FabSt × CtxSt × PartSt) × List Host.Cell × NMap L1Line :=
  (outside s, s.mm.mem, s.mm.l1)

@[simp] theorem beside_sendDrop (s : State) (core line : Nat) (words : List Nat) : beside (sendDrop s core line words) = beside s := by
  unfold sendDrop
  split <;> rfl

@[simp] theorem beside_llcEvict (s : State) (line : Nat) : beside (llcEvict s line) = beside s := by
  unfold llcEvict
  split
  · rfl
  · exact foldl_keep beside _ (fun _ _ => beside_sendDrop ..) _ _

@[simp] theorem beside_llcEnsure (s : State) (line : Nat) : beside (llcEnsure s line) = beside s := by
  unfold llcEnsure
  split
  · rfl
  · dsimp only
    split
    · exact (beside_llcEvict ..).trans rfl
    · rfl

@[simp] theorem beside_poisonGranule (s : State) (g : Nat) : beside (poisonGranule s g) = beside s := beside_llcEnsure s (g / 2)

theorem outside_of_beside {s t : State} (h : beside s = beside t) : outside s = outside t := congrArg (·.1) h
theorem mem_of_beside {s t : State} (h : beside s = beside t) : s.mm.mem = t.mm.mem := congrArg (·.2.1) h
theorem l1_of_beside {s t : State} (h : beside s = beside t) : s.mm.l1 = t.mm.l1 := congrArg (·.2.2) h

theorem memByte_of_beside {s t : State} (h : beside s = beside t) (a : Nat) : memByte s a = memByte t a := by
  rw [memByte, mem_of_beside h, memByte]

theorem outside_setMemBytes (s : State) (pa : Nat) (l : List Byte) : outside (setMemBytes s pa l) = outside s := by
  unfold setMemBytes
  refine foldl_keep outside _ (fun _ _ => ?_) _ _
  rfl

theorem l1_setMemBytes (s : State) (pa : Nat) (l : List Byte) : (setMemBytes s pa l).mm.l1 = s.mm.l1 := by
  unfold setMemBytes
  refine foldl_keep (fun s : State => s.mm.l1) _ (fun _ _ => ?_) _ _
  rfl

/-! ### Dirty words of the L1s -/

/-- A dirty word that a core's L1 holds, of a line of memory, over an address. -/
def DirtyOver (s : State) (a : Nat) : Prop :=
  ∃ core line, line < 2 ^ 41 ∧ ∃ w ∈ (l1Line s core line).words, w.2.dirty = true ∧ line * 128 + w.1 * 4 ≤ a ∧ a < line * 128 + w.1 * 4 + 4

/-- Words of the L1s have become clean, and none dirty. -/
def NoMoreDirty (s t : State) : Prop :=
  ∀ core line, ∀ w ∈ (l1Line t core line).words, w.2.dirty = true → ∃ v ∈ (l1Line s core line).words, v.1 = w.1 ∧ v.2.dirty = true

/-- Dirty words lie in their lines. -/
def DirtyInLine (s : State) : Prop := ∀ core line, ∀ w ∈ (l1Line s core line).words, w.2.dirty = true → w.1 < 32

theorem dirtyAt_of_dirtyOver {s : State} {a : Nat} (h : DirtyOver s a) : ∃ core, DirtyAt s core a := by
  obtain ⟨core, line, hl, w, hw, hd, ha⟩ := h
  rcases NMap.get_mem {} s.mm.l1 (l1Key core line) with hn | hm
  · rw [l1Line, hn] at hw
    exact absurd hw (List.not_mem_nil)
  · have h1 : l1Key core line / 2 ^ 41 = core := by simp only [l1Key]; omega
    have h2 : l1Key core line % 2 ^ 41 = line := by simp only [l1Key]; omega
    exact ⟨core, _, hm, h1, w, hw, hd, by rw [h2]; exact ha⟩

theorem dirtyInLine_of_listed {s : State} (h : ∀ c ∈ s.mm.l1, ∀ w ∈ c.2.words, w.1 < 32) : DirtyInLine s := fun core line w hw _ => by
  rcases NMap.get_mem {} s.mm.l1 (l1Key core line) with hn | hm
  · rw [l1Line, hn] at hw
    exact absurd hw (List.not_mem_nil)
  · exact h _ hm w hw

theorem NoMoreDirty.refl (s : State) : NoMoreDirty s s := fun _ _ w hw hd => ⟨w, hw, rfl, hd⟩

theorem NoMoreDirty.trans {s t u : State} (h : NoMoreDirty s t) (h' : NoMoreDirty t u) : NoMoreDirty s u := fun core line w hw hd => by
  obtain ⟨v, hv, e, hd⟩ := h' core line w hw hd
  obtain ⟨x, hx, e', hd⟩ := h core line v hv hd
  exact ⟨x, hx, e'.trans e, hd⟩

theorem NoMoreDirty.of_l1 {s t : State} (h : t.mm.l1 = s.mm.l1) : NoMoreDirty s t := fun core line w hw hd => by
  rw [l1Line, h] at hw
  exact ⟨w, hw, rfl, hd⟩

theorem NoMoreDirty.dirtyOver {s t : State} (h : NoMoreDirty s t) {a : Nat} (hd : DirtyOver t a) : DirtyOver s a := by
  obtain ⟨core, line, hl, w, hw, hd, ha⟩ := hd
  obtain ⟨v, hv, e, hd⟩ := h core line w hw hd
  exact ⟨core, line, hl, v, hv, hd, by rw [e]; exact ha⟩

theorem NoMoreDirty.dirtyInLine {s t : State} (h : NoMoreDirty s t) (hs : DirtyInLine s) : DirtyInLine t := fun core line w hw hd => by
  obtain ⟨v, hv, e, hd⟩ := h core line w hw hd
  exact e ▸ hs core line v hv hd

/-- No dirty word of a line is in any L1. -/
def CleanLine (s : State) (line : Nat) : Prop := ∀ core, ∀ w ∈ (l1Line s core line).words, w.2.dirty = false

theorem NoMoreDirty.cleanLine {s t : State} (h : NoMoreDirty s t) {line : Nat} (hs : CleanLine s line) : CleanLine t line :=
  fun core w hw => by
    by_contra hd
    obtain ⟨v, hv, _, hd⟩ := h core line w hw (by simpa using hd)
    simp [hs core v hv] at hd

/-! ### Writing back (R120) -/

/-- A change that at most writes dirty words of the L1s back. -/
structure WritesBack (s t : State) : Prop where
  outside : outside t = outside s
  dirty : NoMoreDirty s t
  mem : ∀ a, ¬DirtyOver s a → memByte t a = memByte s a

theorem WritesBack.refl (s : State) : WritesBack s s := ⟨rfl, .refl s, fun _ _ => rfl⟩

theorem WritesBack.trans {s t u : State} (h : WritesBack s t) (h' : WritesBack t u) : WritesBack s u :=
  ⟨h'.outside.trans h.outside, h.dirty.trans h'.dirty, fun a ha =>
    (h'.mem a fun hd => ha (h.dirty.dirtyOver hd)).trans (h.mem a ha)⟩

theorem WritesBack.of_beside {s t : State} (h : beside t = beside s) : WritesBack s t :=
  ⟨outside_of_beside h, .of_l1 (l1_of_beside h), fun a _ => memByte_of_beside h a⟩

theorem WritesBack.foldl {β : Type} {f : State → β → State} {l : List β} {s : State} (hf : ∀ s, ∀ x ∈ l, WritesBack s (f s x)) :
    WritesBack s (l.foldl f s) := by
  induction l generalizing s with
  | nil => exact .refl s
  | cons x l ih => exact (hf s x (by simp)).trans (ih fun s y hy => hf s y (by simp [hy]))

theorem words_normLine (x : L1Line) : (normLine x).words = x.words := by
  unfold normLine
  split
  · rename_i h
    exact h.symm
  · rfl

theorem l1Line_setL1_self (s : State) (core line : Nat) (f : L1Line → L1Line) :
    l1Line (setL1 s core line f) core line = normLine (f (l1Line s core line)) := by
  rw [l1Line, setL1_mm, NMap.get_set_self]

theorem l1Line_setL1_ne {s : State} {core line c l : Nat} {f : L1Line → L1Line} (h : l1Key c l ≠ l1Key core line) :
    l1Line (setL1 s core line f) c l = l1Line s c l := by
  rw [l1Line, setL1_mm, NMap.get_set_ne _ _ _ _ _ h, l1Line]

theorem l1Line_congr {s : State} {core line c l : Nat} (h : l1Key c l = l1Key core line) : l1Line s c l = l1Line s core line := by
  rw [l1Line, h, l1Line]

/-- An L1 line changes; its dirty words were dirty before. -/
theorem writesBack_setL1 {s : State} {core line : Nat} {f : L1Line → L1Line}
    (hf : ∀ w ∈ (f (l1Line s core line)).words, w.2.dirty = true → ∃ v ∈ (l1Line s core line).words, v.1 = w.1 ∧ v.2.dirty = true) :
    WritesBack s (setL1 s core line f) := by
  refine ⟨rfl, fun c l w hw hd => ?_, fun _ _ => rfl⟩
  by_cases h : l1Key c l = l1Key core line
  · rw [l1Line_congr h, l1Line_setL1_self, words_normLine] at hw
    rw [l1Line_congr h]
    exact hf w hw hd
  · rw [l1Line_setL1_ne h] at hw
    exact ⟨w, hw, rfl, hd⟩

theorem writesBack_applyDrop (s : State) (d : DropItem) : WritesBack s (applyDrop s d) := by
  refine writesBack_setL1 fun w hw hd => ?_
  obtain ⟨v, hv, rfl⟩ := List.mem_map.1 hw
  refine ⟨v, List.mem_of_mem_filter hv, ?_⟩
  by_cases hc : d.words.contains v.1 = true
  · rw [if_pos hc] at hd ⊢
    exact ⟨rfl, hd⟩
  · rw [if_neg hc] at hd ⊢
    exact ⟨rfl, hd⟩

/-- A word that is registered at the directory reaches memory; the rest is the LLC's. -/
theorem beside_regWord (s : State) (core line : Nat) (own : Bool) (w : DirWord) : beside (regWord s core line own w) =
    beside (setMemBytes (llcEnsure s line) (line * 128 + w.i * 4) (bytesOfNat 4 w.val.toNat)) := by
  unfold regWord
  dsimp only
  have hd : ∀ (o : Option Nat) (s : State), beside (match o with
      | some c => if c = core then s else sendDrop s c line [w.i]
      | none => s) = beside s := fun o s => by
    cases o with
    | none => rfl
    | some c =>
      dsimp only
      split
      · rfl
      · exact beside_sendDrop ..
  split
  · exact (beside_poisonGranule ..).trans (hd _ _)
  · exact hd _ _

theorem outside_regWord (s : State) (core line : Nat) (own : Bool) (w : DirWord) : outside (regWord s core line own w) = outside s := by
  rw [outside_of_beside (beside_regWord ..), outside_setMemBytes, outside_of_beside (beside_llcEnsure ..)]

theorem l1_regWord (s : State) (core line : Nat) (own : Bool) (w : DirWord) : (regWord s core line own w).mm.l1 = s.mm.l1 := by
  rw [l1_of_beside (beside_regWord ..), l1_setMemBytes, l1_of_beside (beside_llcEnsure ..)]

theorem memByte_regWord {s : State} {core line : Nat} {own : Bool} {w : DirWord} {a : Nat}
    (ha : ¬(line * 128 + w.i * 4 ≤ a ∧ a < line * 128 + w.i * 4 + 4)) : memByte (regWord s core line own w) a = memByte s a := by
  have hn : (bytesOfNat 4 w.val.toNat).length = 4 := by simp [bytesOfNat]
  rw [memByte_of_beside (beside_regWord ..), memByte_setMemBytes, hn, if_neg ha, memByte_of_beside (beside_llcEnsure ..)]

/-- Words of a core's line that are dirty are registered one after the other. -/
theorem writesBack_regWords {core line : Nat} (hl : line < 2 ^ 41) {ws : List DirWord} {s : State}
    (hw : ∀ w ∈ ws, ∃ v ∈ (l1Line s core line).words, v.1 = w.i ∧ v.2.dirty = true) :
    WritesBack s (ws.foldl (fun s w => regWord s core line true w) s) ∧
      (ws.foldl (fun s w => regWord s core line true w) s).mm.l1 = s.mm.l1 := by
  have h1 := foldl_keep (fun s : State => s.mm.l1) (fun s w => regWord s core line true w) (fun s w => l1_regWord s core line true w) ws s
  refine ⟨⟨foldl_keep outside _ (fun s w => outside_regWord s core line true w) _ _, .of_l1 h1, fun a ha => ?_⟩, h1⟩
  clear h1
  induction ws generalizing s with
  | nil => rfl
  | cons w ws ih =>
    obtain ⟨v, hv, e, hd⟩ := hw w (by simp)
    have hk : NoMoreDirty s (regWord s core line true w) := .of_l1 (l1_regWord ..)
    rw [List.foldl_cons, ih (s := regWord s core line true w), memByte_regWord fun hc => ha ⟨core, line, hl, v, hv, hd, by rwa [e]⟩]
    · intro x hx
      obtain ⟨y, hy⟩ := hw x (by simp [hx])
      exact ⟨y, by rwa [l1Line, l1_regWord]⟩
    · exact fun hc => ha (hk.dirtyOver hc)

/-- A core writes the dirty words of a line back; they are clean then. -/
theorem writesBack_flushLine (s : State) {core line : Nat} (hl : line < 2 ^ 41) :
    WritesBack s (flushLine s core line) ∧ ∀ w ∈ (l1Line (flushLine s core line) core line).words, w.2.dirty = false := by
  have hws : ∀ v ∈ (l1Line s core line).words, v.2.dirty = true → (dirtyWords (l1Line s core line) none).any (fun x => x.i = v.1) = true := by
    intro v hv hd
    rw [List.any_eq_true]
    exact ⟨_, List.mem_map.2 ⟨v, List.mem_filter.2 ⟨hv, by simp [hd]⟩, rfl⟩, by simp⟩
  unfold flushLine flushWords
  dsimp only
  split
  · rename_i h0
    refine ⟨.refl s, fun w hw => ?_⟩
    by_contra hd
    have := hws w hw (by simpa using hd)
    simp [h0] at this
  · obtain ⟨hb, h1⟩ := writesBack_regWords (core := core) hl (s := countReq s (l1Line s core line).ctx (l1Line s core line).page core true)
      (ws := dirtyWords (l1Line s core line) none) (fun w hw => by
        obtain ⟨v, hv, rfl⟩ := List.mem_map.1 hw
        obtain ⟨hv, hd⟩ := List.mem_filter.1 hv
        exact ⟨v, hv, rfl, by simpa using hd⟩)
    have hu : ∀ u : State, u.mm.l1 = s.mm.l1 → l1Line u core line = l1Line s core line := fun u hu => by rw [l1Line, hu, l1Line]
    have h0 : WritesBack s (countReq s (l1Line s core line).ctx (l1Line s core line).page core true) := .of_beside rfl
    refine ⟨(h0.trans hb).trans (writesBack_setL1 fun w hw hd => ?_), fun w hw => ?_⟩
    · obtain ⟨v, hv, rfl⟩ := List.mem_map.1 hw
      split at hd
      · cases hd
      · rename_i hc
        rw [if_neg hc]
        exact ⟨v, hv, rfl, hd⟩
    · rw [l1Line_setL1_self, words_normLine, hu _ h1] at hw
      obtain ⟨v, hv, rfl⟩ := List.mem_map.1 hw
      split
      · rfl
      · rename_i hc
        by_contra hd
        exact hc (hws v hv (by simpa using hd))

/-- The cores whose L1 holds a line. -/
def lineCores (s : State) (line : Nat) : List Nat := (s.mm.l1.filter (fun c => c.1 % 2 ^ 41 = line)).map (fun c => c.1 / 2 ^ 41)

theorem line_lt_of_mem_lineCores {s : State} {line c : Nat} (h : c ∈ lineCores s line) : line < 2 ^ 41 := by
  obtain ⟨e, he, -⟩ := List.mem_map.1 h
  have := (List.mem_filter.1 he).2
  simp only [decide_eq_true_eq] at this
  omega

theorem words_of_not_mem_lineCores {s : State} {line core : Nat} (hl : line < 2 ^ 41) (h : core ∉ lineCores s line) :
    (l1Line s core line).words = [] := by
  rcases NMap.get_mem {} s.mm.l1 (l1Key core line) with hn | hm
  · rw [l1Line, hn]
  · have h1 : l1Key core line / 2 ^ 41 = core := by simp only [l1Key]; omega
    have h2 : l1Key core line % 2 ^ 41 = line := by simp only [l1Key]; omega
    exact absurd (List.mem_map.2 ⟨_, List.mem_filter.2 ⟨hm, decide_eq_true h2⟩, h1⟩) h

/-- Every core that holds dirty words of a line writes them back. -/
theorem cleanLine_flushLines {line : Nat} (hl : line < 2 ^ 41) {cores : List Nat} {s : State}
    (hc : ∀ core, core ∉ cores → ∀ w ∈ (l1Line s core line).words, w.2.dirty = false) :
    CleanLine (cores.foldl (fun s c => flushLine s c line) s) line := by
  induction cores generalizing s with
  | nil => exact fun core => hc core (by simp)
  | cons c cs ih =>
    obtain ⟨hb, hf⟩ := writesBack_flushLine s (core := c) hl
    refine ih fun core hn w hw => ?_
    by_cases h : core = c
    · subst h
      exact hf w hw
    · by_contra hd
      obtain ⟨v, hv, _, hd⟩ := hb.dirty core line w hw (by simpa using hd)
      have hn' : core ∉ c :: cs := by simp [h, hn]
      rw [hc core hn' v hv] at hd
      cases hd

/-- An engine takes a line: its dirty words are written back, and no L1 holds one more (R122). -/
theorem writesBack_takeLine (s : State) (line : Nat) : WritesBack s (takeLine s line) ∧ (line < 2 ^ 41 → CleanLine (takeLine s line) line) := by
  have hf : ∀ u, WritesBack u ((lineCores u line).foldl (fun s c => flushLine s c line) u) := fun u =>
    .foldl fun s c hc => (writesBack_flushLine s (line_lt_of_mem_lineCores hc)).1
  have hd : ∀ (cs : List Nat) u, WritesBack u (cs.foldl (fun s c => applyDrop s { core := c, line := line, words := List.range 32 }) u) :=
    fun cs u => .foldl fun s c _ => writesBack_applyDrop s _
  have hc : ∀ u, line < 2 ^ 41 → CleanLine ((lineCores u line).foldl (fun s c => flushLine s c line) u) line := fun u hl =>
    cleanLine_flushLines hl fun core hn w hw => by simp [words_of_not_mem_lineCores hl hn] at hw
  have h0 : WritesBack s (llcEnsure s line) := .of_beside (beside_llcEnsure s line)
  unfold takeLine
  exact ⟨((h0.trans (hf _)).trans (hd _ _)).trans (.of_beside rfl), fun hl => ((hd _ _).trans (.of_beside rfl)).dirty.cleanLine (hc _ hl)⟩

/-! ### Writes of the part (R450) -/

theorem writesBack_takeLines (s : State) (ls : List Nat) : WritesBack s (ls.foldl (fun s n => takeLine s n) s) :=
  .foldl fun s n _ => (writesBack_takeLine s n).1

theorem cleanLine_takeLines {ls : List Nat} {line : Nat} (hm : line ∈ ls) (hl : line < 2 ^ 41) (s : State) :
    CleanLine (ls.foldl (fun s n => takeLine s n) s) line := by
  induction ls generalizing s with
  | nil => cases hm
  | cons n ls ih =>
    rcases List.mem_cons.1 hm with rfl | hm
    · exact (writesBack_takeLines _ ls).dirty.cleanLine ((writesBack_takeLine s _).2 hl)
    · exact ih hm _

/-- A write of the part as its state, the lines taken, the LLC and the bytes. -/
theorem beside_partWrite (s : State) (pa : Nat) (l : List Byte) : ∃ u,
    beside u = beside ((linesOf pa l.length).foldl (fun s n => takeLine s n) s) ∧ beside (partWrite s pa l) = beside (setMemBytes u pa l) := by
  have hk : ∀ (ls : List Nat) (s : State), beside (ls.foldl (fun s n => llcEnsure s n) s) = beside s := fun ls s =>
    foldl_keep beside _ (fun s n => beside_llcEnsure s n) ls s
  exact ⟨_, hk _ _, rfl⟩

section
variable {s : State} {pa : Nat} {l : List Byte}

theorem outside_partWrite : outside (partWrite s pa l) = outside s := by
  obtain ⟨u, hu, h⟩ := beside_partWrite s pa l
  rw [outside_of_beside h, outside_setMemBytes, outside_of_beside hu, (writesBack_takeLines _ _).outside]

theorem l1_partWrite : (partWrite s pa l).mm.l1 = ((linesOf pa l.length).foldl (fun s n => takeLine s n) s).mm.l1 := by
  obtain ⟨u, hu, h⟩ := beside_partWrite s pa l
  rw [l1_of_beside h, l1_setMemBytes, l1_of_beside hu]

theorem noMoreDirty_partWrite : NoMoreDirty s (partWrite s pa l) :=
  (writesBack_takeLines s _).dirty.trans (.of_l1 l1_partWrite)

theorem memByte_partWrite_self {i : Nat} (hi : i < l.length) : memByte (partWrite s pa l) (pa + i) = l.getD i 0 := by
  obtain ⟨u, hu, h⟩ := beside_partWrite s pa l
  rw [memByte_of_beside h, memByte_setMemBytes, if_pos (by omega), Nat.add_sub_cancel_left]

theorem memByte_partWrite_ne {a : Nat} (ha : ∀ i < l.length, a ≠ pa + i) (hd : ¬DirtyOver s a) :
    memByte (partWrite s pa l) a = memByte s a := by
  obtain ⟨u, hu, h⟩ := beside_partWrite s pa l
  have hn : ¬(pa ≤ a ∧ a < pa + l.length) := fun hr => ha (a - pa) (by omega) (by omega)
  rw [memByte_of_beside h, memByte_setMemBytes, if_neg hn, memByte_of_beside hu, (writesBack_takeLines _ _).mem a hd]

/-- No L1 holds a dirty word over what the part has just written. -/
theorem not_dirtyOver_partWrite (hs : DirtyInLine s) {i : Nat} (hi : i < l.length) : ¬DirtyOver (partWrite s pa l) (pa + i) := fun hd => by
  obtain ⟨_, line, hl, w, hw, hd', ha⟩ := hd
  have h32 := noMoreDirty_partWrite.dirtyInLine hs _ _ w hw hd'
  have he : (pa + i) / 128 = line := by omega
  have hm : line ∈ linesOf pa l.length := by
    rw [linesOf, List.mem_eraseDups, List.mem_map]
    exact ⟨i, List.mem_range.2 hi, he⟩
  rw [l1Line, l1_partWrite, ← l1Line] at hw
  simp [cleanLine_takeLines hm hl s _ w hw] at hd'

end

/-- Writes of the part to places that are apart: each byte is there at the end, and no other byte has changed but under dirty words. -/
theorem partWrites_effect {ps : List (Nat × List Byte)} {s : State} (hs : DirtyInLine s)
    (hp : ps.Pairwise fun p q => ∀ i < p.2.length, ∀ j < q.2.length, p.1 + i ≠ q.1 + j) :
    outside (ps.foldl (fun s x => partWrite s x.1 x.2) s) = outside s ∧
    (∀ p ∈ ps, ∀ i < p.2.length, memByte (ps.foldl (fun s x => partWrite s x.1 x.2) s) (p.1 + i) = p.2.getD i 0) ∧
    ∀ a, (∀ p ∈ ps, ∀ i < p.2.length, a ≠ p.1 + i) → ¬DirtyOver s a →
      memByte (ps.foldl (fun s x => partWrite s x.1 x.2) s) a = memByte s a := by
  induction ps generalizing s with
  | nil => exact ⟨rfl, nofun, fun _ _ _ => rfl⟩
  | cons p ps ih =>
    obtain ⟨hd, hp⟩ := List.pairwise_cons.1 hp
    obtain ⟨ho, hw, hk⟩ := ih (s := partWrite s p.1 p.2) (noMoreDirty_partWrite.dirtyInLine hs) hp
    refine ⟨ho.trans outside_partWrite, fun q hq i hi => ?_, fun a ha hn => ?_⟩
    · rcases List.mem_cons.1 hq with rfl | hq
      · exact (hk _ (fun r hr j hj => hd r hr i hi j hj) (not_dirtyOver_partWrite hs hi)).trans (memByte_partWrite_self hi)
      · exact hw q hq i hi
    · have ha' := List.forall_mem_cons.1 ha
      exact (hk a ha'.2 fun h => hn (noMoreDirty_partWrite.dirtyOver h)).trans (memByte_partWrite_ne ha'.1 hn)

end Sys2Proof.Machine
end

section
/-!
SUPPORT. O55: a WRITE at a provisioned entry (R449 to R451): the range is translated page by page, and each piece is written.
-/
namespace Sys2Proof.Machine

open Say

/-! ### The pieces of a range -/

/-- Bytes from offset `o` of a range lie piece by piece where `pa` says. -/
inductive Pieces (pa : Nat → Nat) : Nat → List Byte → List (Nat × List Byte) → Prop
  | nil (o : Nat) : Pieces pa o [] []
  | cons {o n q : Nat} {l : List Byte} {ps : List (Nat × List Byte)} (hn : n ≤ l.length) (hq : ∀ i < n, pa (o + i) = q + i)
      (h : Pieces pa (o + n) (l.drop n) ps) : Pieces pa o l ((q, l.take n) :: ps)

section
variable {pa : Nat → Nat} {o : Nat} {l : List Byte} {ps : List (Nat × List Byte)}

/-- Every byte of a piece is one of the range's. -/
theorem Pieces.within (h : Pieces pa o l ps) : ∀ p ∈ ps, ∀ i < p.2.length, ∃ j < l.length, p.1 + i = pa (o + j) := by
  induction h with
  | nil => exact nofun
  | @cons o n q l ps hn hq h ih =>
    intro p hp i hi
    rcases List.mem_cons.1 hp with rfl | hp
    · have hi : i < n := by simpa [Nat.min_eq_left hn] using hi
      exact ⟨i, by omega, (hq i hi).symm⟩
    · obtain ⟨j, hj, e⟩ := ih p hp i hi
      rw [List.length_drop] at hj
      exact ⟨n + j, by omega, by rw [e, Nat.add_assoc]⟩

/-- Every byte of the range is in a piece. -/
theorem Pieces.covers (h : Pieces pa o l ps) : ∀ j < l.length, ∃ p ∈ ps, ∃ i < p.2.length, pa (o + j) = p.1 + i ∧ p.2.getD i 0 = l.getD j 0 := by
  induction h with
  | nil => exact nofun
  | @cons o n q l ps hn hq h ih =>
    intro j hj
    by_cases hjn : j < n
    · refine ⟨_, List.mem_cons_self, j, by simp; omega, hq j hjn, ?_⟩
      simp [List.getD_eq_getElem?_getD, hjn]
    · obtain ⟨p, hp, i, hi, e, eb⟩ := ih (j - n) (by rw [List.length_drop]; omega)
      refine ⟨p, List.mem_cons_of_mem _ hp, i, hi, ?_, ?_⟩
      · rw [← e, Nat.add_assoc, Nat.add_sub_cancel' (by omega)]
      · rw [eb, List.getD_eq_getElem?_getD, List.getElem?_drop, Nat.add_sub_cancel' (by omega), List.getD_eq_getElem?_getD]

/-- Pieces of a range whose bytes are apart are apart. -/
theorem Pieces.apart (h : Pieces pa o l ps) (ha : ∀ i < l.length, ∀ j < l.length, pa (o + i) = pa (o + j) → i = j) :
    ps.Pairwise fun p q => ∀ i < p.2.length, ∀ j < q.2.length, p.1 + i ≠ q.1 + j := by
  induction h with
  | nil => exact .nil
  | @cons o n q l ps hn hq h ih =>
    refine List.pairwise_cons.2 ⟨fun p hp i hi j hj e => ?_, ih fun i hi j hj e => ?_⟩
    · have hi : i < n := by simpa [Nat.min_eq_left hn] using hi
      obtain ⟨k, hk, e'⟩ := h.within p hp j hj
      rw [List.length_drop] at hk
      have := ha i (by omega) (n + k) (by omega) (by rw [hq i hi, ← Nat.add_assoc, ← e', e])
      omega
    · rw [List.length_drop] at hi hj
      have := ha (n + i) (by omega) (n + j) (by omega) (by rw [← Nat.add_assoc, e, Nat.add_assoc])
      omega

end

/-! ### Translating a range (R450) -/

/-- A translation that the TLB of a core holds. -/
theorem xlateNow_of_found {s : State} {core ctx va : Nat} {kind : AccKind} {t : Xl} (h : tlbFind s core ctx (va / 2 ^ 16) kind = some t) :
    xlateNow s core ctx va kind = (.ok { t with pa := t.pa + va % 2 ^ 16 }, s) := by
  rw [xlateNow, h]

theorem planWrite_nil {s : State} {ctx va : Nat} {acc : List (Nat × List Byte)} (fuel : Nat) :
    planWrite fuel s ctx va [] acc = (.ok acc, s) := by
  cases fuel with
  | zero => rfl
  | succ fuel => exact if_pos rfl

/-- One page of a range that the part can write at once. -/
theorem planWrite_page {s : State} {ctx va n : Nat} {l : List Byte} {acc : List (Nat × List Byte)} {fuel : Nat} {t : Xl} (hl : l ≠ [])
    (hv : va < 2 ^ 55) (ht : tlbFind s 0 ctx (va / 2 ^ 16) .write = some t) (hs : storable s t = true)
    (hn : n = min l.length (2 ^ 16 - va % 2 ^ 16)) (ho : ∀ i < n, held s ((t.pa + va % 2 ^ 16 + i) / 128) = false) :
    planWrite (fuel + 1) s ctx va l acc =
      planWrite fuel s ctx (va + n) (l.drop n) (acc ++ [(t.pa + va % 2 ^ 16, l.take n)]) := by
  have hh : (linesOf (t.pa + va % 2 ^ 16) n).any (held s) = false := by
    rw [List.any_eq_false]
    intro x hx
    rw [linesOf, List.mem_eraseDups, List.mem_map] at hx
    obtain ⟨i, hi, rfl⟩ := hx
    rw [ho i (List.mem_range.1 hi)]
    exact Bool.false_ne_true
  have hs' : storable s { t with pa := t.pa + va % 2 ^ 16 } = true := hs
  rw [planWrite, if_neg hl, if_neg (by omega), xlateNow_of_found ht]
  simp only [hs', ← hn, hh, Bool.not_true, Bool.false_eq_true, if_false]

/-- A range that the part can write at once is planned piece by piece, and the state stays. -/
theorem planWrite_of_area {s : State} {ctx va : Nat} {l : List Byte} {pa : Nat → Nat} (ha : Area s ctx va l.length .write pa) (fuel o : Nat)
    (acc : List (Nat × List Byte)) (hf : l.drop o = [] ∨ (l.length - o) + (va + o) % 2 ^ 16 ≤ fuel * 2 ^ 16) :
    ∃ ps, planWrite fuel s ctx (va + o) (l.drop o) acc = (.ok (acc ++ ps), s) ∧ Pieces pa o (l.drop o) ps := by
  have done : ∀ fuel (acc : List (Nat × List Byte)) o, l.drop o = [] →
      ∃ ps, planWrite fuel s ctx (va + o) (l.drop o) acc = (.ok (acc ++ ps), s) ∧ Pieces pa o (l.drop o) ps := fun fuel acc o hl => by
    rw [hl, planWrite_nil]
    exact ⟨[], by simp, .nil o⟩
  induction fuel generalizing o acc with
  | zero => exact done 0 acc o (hf.elim id fun h => List.drop_eq_nil_of_le (by omega))
  | succ fuel ih =>
    by_cases hl : l.drop o = []
    · exact done _ acc o hl
    have hf := hf.resolve_left hl
    have ho : o < l.length := by simpa using hl
    obtain ⟨t, ht, hs, -⟩ := ha.place o ho
    have hv := ha.below
    obtain ⟨n, hn⟩ : ∃ n, n = min (l.drop o).length (2 ^ 16 - (va + o) % 2 ^ 16) := ⟨_, rfl⟩
    have hn' : n = min (l.length - o) (2 ^ 16 - (va + o) % 2 ^ 16) := by rw [hn, List.length_drop]
    have hq : ∀ i < n, pa (o + i) = t.pa + (va + o) % 2 ^ 16 + i := by
      intro i hi
      obtain ⟨t', ht', -, hp⟩ := ha.place (o + i) (by omega)
      have hpage : (va + (o + i)) / 2 ^ 16 = (va + o) / 2 ^ 16 := by omega
      rw [hpage, ht] at ht'
      cases ht'
      omega
    have hp := planWrite_page (s := s) (acc := acc) (fuel := fuel) hl (by omega) ht hs hn fun i hi => by
      rw [← hq i hi]
      exact ha.open_ _ (by omega)
    have hrest : l.drop (o + n) = [] ∨ (l.length - (o + n)) + (va + (o + n)) % 2 ^ 16 ≤ fuel * 2 ^ 16 := by
      by_cases he : n = l.length - o
      · exact .inl (List.drop_eq_nil_of_le (by omega))
      · exact .inr (by omega)
    obtain ⟨ps, hps, hpc⟩ := ih (o + n) (acc ++ [(t.pa + (va + o) % 2 ^ 16, (l.drop o).take n)]) hrest
    refine ⟨(t.pa + (va + o) % 2 ^ 16, (l.drop o).take n) :: ps, ?_, .cons (by omega) hq (by rwa [List.drop_drop])⟩
    rw [hp, List.drop_drop, Nat.add_assoc, hps, List.append_assoc, List.singleton_append]

/-! ### WRITE (R449, R450) -/

section
variable {s : State} {m : HostMsg} {e : Nat} {pa : Nat → Nat}

/-- What a WRITE leaves of the machine: the bytes are there, and no others have changed but under dirty words of an L1. -/
def Written (s : State) (m : HostMsg) (pa : Nat → Nat) (t : State) : Prop :=
  t.rg = s.rg ∧ t.wk = s.wk ∧ (∀ i < m.bytes.length, memByte t (pa i) = m.bytes.getD i 0) ∧
    (∀ a, (∀ i < m.bytes.length, a ≠ pa i) → (∀ core, ¬DirtyAt s core a) → memByte t a = memByte s a)

theorem doWrite_of_none {imm : Option Word} (hm : matchEntry s m.src m.qp = none) :
    doWrite s m imm = (.done, s.updPT (fun p => { p with noMatch := (p.noMatch + 1) % 2 ^ 32 })) := by
  simp only [doWrite, hm]

/-- R450: a WRITE that names another key, or a context that is not live, draws NAK. -/
theorem doWrite_of_badKey {imm : Option Word} (hm : matchEntry s m.src m.qp = some e) (ho : (tenantOf s e).standsOpen = false)
    (hk : m.rkey ≠ (tenantOf s e).ctx ∨ s.liveCtx (tenantOf s e).ctx = false) :
    doWrite s m imm = (.done, send s (.nak m.src m.qp true)) := by
  have hk : m.rkey ≠ (tenantOf s e).ctx ∨ !s.liveCtx (tenantOf s e).ctx := by simpa using hk
  simp only [doWrite, hm, ho, Bool.false_eq_true, if_false, if_pos hk]

/-- R450: a WRITE that passes its checks is performed, piece by piece; then its immediate is added. -/
theorem doWrite_of_area (hm : matchEntry s m.src m.qp = some e) (ho : (tenantOf s e).standsOpen = false)
    (hk : m.rkey = (tenantOf s e).ctx) (hl : s.liveCtx (tenantOf s e).ctx = true)
    (ha : Area s (tenantOf s e).ctx m.va m.bytes.length .write pa) :
    ∃ t, Written s m pa t ∧ outside t = outside s ∧ doWrite s m none = (.done, t) ∧
      ∀ imm, doWrite s m (some imm) = if (tenantOf s e).imm = 0 then (.done, t)
        else (.adding (tenantOf s e).ctx (tenantOf s e).imm, partAdd t (tenantOf s e).ctx (tenantOf s e).imm imm.toNat) := by
  obtain ⟨ps, hps, hpc⟩ := planWrite_of_area ha (m.bytes.length / 65536 + 2) 0 [] (.inr (by omega))
  simp only [Nat.add_zero, List.drop_zero, List.nil_append] at hps
  rw [List.drop_zero] at hpc
  have hap := hpc.apart fun i hi j hj h => ha.apart i hi j hj (by simpa using h)
  obtain ⟨hout, hin, hkeep⟩ := partWrites_effect (dirtyInLine_of_listed ha.lines) hap
  have hk : ¬(m.rkey ≠ (tenantOf s e).ctx ∨ !s.liveCtx (tenantOf s e).ctx) := by simp [hk, hl]
  refine ⟨_, ⟨congrArg (·.1) hout, congrArg (·.2.1) hout, fun j hj => ?_, fun a hn hd => ?_⟩, hout, ?_, fun imm => ?_⟩
  · obtain ⟨p, hp, i, hi, e1, e2⟩ := hpc.covers j hj
    rw [Nat.zero_add] at e1
    rw [e1, hin p hp i hi, e2]
  · refine hkeep a (fun p hp i hi e => ?_) fun hc => ?_
    · obtain ⟨j, hj, e1⟩ := hpc.within p hp i hi
      rw [Nat.zero_add] at e1
      exact hn j hj (e.trans e1)
    · obtain ⟨core, hc⟩ := dirtyAt_of_dirtyOver hc
      exact hd core hc
  · simp only [doWrite, hm, ho, Bool.false_eq_true, if_false, if_neg hk, hps]
  · simp only [doWrite, hm, ho, Bool.false_eq_true, if_false, if_neg hk, hps]

theorem exec_hostWrite {t : State} (hn : NextOnItsPair s m.src m.qp) (hd : doWrite s m none = (.done, t)) :
    exec (.hostWrite m) s = .next t := congrArg Host.Outcome.next (takeMsg_of_done (i := .hostWrite m) hn hd)

theorem hostWrite_refused (hn : NextOnItsPair s m.src m.qp) (hm : matchEntry s m.src m.qp = some e)
    (ho : (tenantOf s e).standsOpen = false) (hk : m.rkey ≠ (tenantOf s e).ctx ∨ s.liveCtx (tenantOf s e).ctx = false) :
    exec (.hostWrite m) s = .next { s with pt := { s.pt with out := s.pt.out ++ [.nak m.src m.qp true] } } :=
  exec_hostWrite hn (doWrite_of_badKey hm ho hk)

theorem hostWrite_unmatched (hn : NextOnItsPair s m.src m.qp) (hm : matchEntry s m.src m.qp = none) :
    exec (.hostWrite m) s = .next { s with pt := { s.pt with noMatch := (s.pt.noMatch + 1) % 2 ^ 32 } } :=
  exec_hostWrite hn (doWrite_of_none hm)

theorem hostWrite_performed (hn : NextOnItsPair s m.src m.qp) (hm : matchEntry s m.src m.qp = some e)
    (ho : (tenantOf s e).standsOpen = false) (hk : m.rkey = (tenantOf s e).ctx) (hl : s.liveCtx (tenantOf s e).ctx = true)
    (ha : Area s (tenantOf s e).ctx m.va m.bytes.length .write pa) :
    ∃ t, exec (.hostWrite m) s = .next t ∧ Written s m pa t ∧ t.cx = s.cx ∧ t.pt = s.pt := by
  obtain ⟨t, hw, hout, hd, -⟩ := doWrite_of_area hm ho hk hl ha
  exact ⟨t, exec_hostWrite hn hd, hw, congrArg (·.2.2.2.2.1) hout, congrArg (·.2.2.2.2.2) hout⟩

theorem hostWriteImm_performed {imm : Word} (hn : NextOnItsPair s m.src m.qp) (hm : matchEntry s m.src m.qp = some e)
    (ho : (tenantOf s e).standsOpen = false) (hk : m.rkey = (tenantOf s e).ctx) (hl : s.liveCtx (tenantOf s e).ctx = true)
    (ha : Area s (tenantOf s e).ctx m.va m.bytes.length .write pa) :
    ∃ t, exec (.hostWriteImm m imm) s = .next t ∧ Written s m pa t ∧ t.cx.adds = (if (tenantOf s e).imm = 0 then s.cx.adds
      else s.cx.adds ++ [((tenantOf s e).ctx, (tenantOf s e).imm, imm.toNat, [])]) ∧ t.pt.out = s.pt.out := by
  obtain ⟨t, hw, hout, -, hd⟩ := doWrite_of_area hm ho hk hl ha
  have hcx : t.cx = s.cx := congrArg (·.2.2.2.2.1) hout
  have hpt : t.pt = s.pt := congrArg (·.2.2.2.2.2) hout
  have hp : performMsg (.hostWriteImm m imm) s = doWrite s m (some imm) := rfl
  have he : exec (.hostWriteImm m imm) s = .next (takeMsg s m.src m.qp (.hostWriteImm m imm)) := rfl
  by_cases hi : (tenantOf s e).imm = 0
  · have ht := takeMsg_of_done hn (hp.trans ((hd imm).trans (if_pos hi)))
    exact ⟨t, by rw [he, ht], hw, by rw [if_pos hi, hcx], by rw [hpt]⟩
  · have ht := takeMsg_of_adding hn (hp.trans ((hd imm).trans (if_neg hi)))
    refine ⟨_, he.trans (congrArg _ ht), hw, ?_, ?_⟩
    · rw [if_neg hi, ← hcx]
      rfl
    · rw [← hpt]
      rfl

theorem hostReadRefused_done {src qp : Nat} :
    exec (.hostReadRefused src qp) s = .next { s with pt := { s.pt with out := s.pt.out ++ [.nak src qp false] } } := rfl

end

end Sys2Proof.Machine
end

section
/-!
SUPPORT. O55, settled: messages of the host have their effect.
-/
namespace Sys2Proof.Machine

open Say

/-- Settles O55: each part is the lemma about its message. -/
theorem messagesOfTheHostHaveTheirEffect : Obligations.MessagesOfTheHostHaveTheirEffect := by
  refine ⟨?_, fun s m => hostWrite_unmatched, fun s src qp => hostReadRefused_done, fun s h i form hi => ?_, fun s h e form ha => ?_,
    fun s h e hn hm he ho => ?_, fun s id x hx => ⟨hostAcknowledgement_sent hx, hostAcknowledgement_unsent hx⟩,
    fun s => ⟨powerOn_powered, powerOn_dark, resetLine_done s, powerLoss_done s⟩⟩
  · intro s m e pa imm t0 written hn hm ho
    exact ⟨hostWrite_refused hn hm ho, fun hk hl ha => ⟨hostWrite_performed hn hm ho hk hl ha, hostWriteImm_performed hn hm ho hk hl ha⟩⟩
  · obtain ⟨openOk, k, hb, hk⟩ := brings_of_frame hi
    exact frame_untaken hb hk
  · intro own seen answered
    refine ⟨?_, ?_, ?_, ?_, ?_, ?_⟩
    · rintro g l r q hh rfl h1 hl hr hq hm hn
      exact launch_entered hh ha h1 hl hr hq hm hn
    · rintro ctx block core rfl hc
      exact readview_hidden ha hc
    · rintro ctx block core rfl hl ho hc
      exact ⟨readview_badBlock ha hl ho hc, readview_shown ha hl ho hc⟩
    · rintro r rfl hl ho hc hn
      exact export_taken ha hl ho hc hn
    · rintro he i code rfl hi
      exact rootCommand_denied ha he hi
    · rintro rfl
      refine ⟨?_, ?_, ?_, ?_, ?_, ?_, ?_, ?_, ?_⟩
      · rintro r rfl hk hf hl hs
        exact ⟨keyload_refused ha hk hf hl hs, keyload_loaded ha hk hf hl hs⟩
      · rintro ctx kind value desc rfl hc hl hk hd
        exact armckpt_armed ha hc hl hk hd
      · rintro addr rkey size rfl hn
        exact report_set ha hn
      · rintro rfl
        exact health_answered ha
      · rintro l rfl hl
        exact layout_modes ha hl
      · rintro u rfl hu
        exact layout_retire ha hu
      · rintro watts rfl
        exact ⟨powercap_set ha, powercap_refused ha⟩
      · rintro rfl
        exact bootstmt_answered ha
      · rintro rfl
        exact reset_done ha
  · subst he
    exact ⟨fun hf => (health_answered_open hn hm ho hf).imp fun t ht => ⟨_, ht⟩, bootstmt_answered_open hn hm ho⟩

end Sys2Proof.Machine
end

section
/-!
SUPPORT. O9: rounding to a plain binary format (R14, R19, R20). The patterns without a sign bit are in the order of their values, so a
magnitude lies at a pattern or between it and the next, and a mode only says which of the two.
-/
namespace Sys2Proof.Machine

open Say

variable {f : FmtF}

/-! ### The values of a format (R14) -/

/-- The value of a pattern without its sign bit. The first two binades have the same exponent. -/
def magVal (f : FmtF) (g : Nat) : ℚ :=
  ((g - (g / 2 ^ f.mbits - 1) * 2 ^ f.mbits : ℕ) : ℚ) * 2 ^ (f.minE + (g / 2 ^ f.mbits - 1 : ℕ))

/-- A finite bit pattern of the format and its value. -/
def FiniteVal (f : FmtF) (bits : Nat) (x : ℚ) : Prop :=
  bits < 2 ^ (f.ebits + f.mbits + 1) ∧ ∃ k a b, decodeF f bits = .fin k a b ∧ x = ratOf k a b

/-- A significand `k` at `d` binades above the least one, up to the first of the next binade. -/
theorem magVal_binade {d k : Nat} (hk : k ≤ 2 * 2 ^ f.mbits) (hd : d = 0 ∨ 2 ^ f.mbits ≤ k) :
    magVal f (d * 2 ^ f.mbits + k) = k * 2 ^ (f.minE + d) := by
  have hp : 0 < 2 ^ f.mbits := by positivity
  have hdiv : (d * 2 ^ f.mbits + k) / 2 ^ f.mbits = d + k / 2 ^ f.mbits := by
    rw [Nat.add_comm, Nat.add_mul_div_right _ _ hp, Nat.add_comm]
  rw [magVal, hdiv]
  rcases lt_or_ge k (2 ^ f.mbits) with hlow | hlow
  · obtain rfl := hd.resolve_right (by omega)
    simp [Nat.div_eq_of_lt hlow]
  rcases hk.lt_or_eq with hhigh | rfl
  · have h1 : k / 2 ^ f.mbits = 1 := Nat.div_eq_of_lt_le (by omega) (by omega)
    simp [h1]
  · have h2 : d + 2 * 2 ^ f.mbits / 2 ^ f.mbits - 1 = d + 1 := by rw [Nat.mul_div_cancel _ hp]; omega
    have hsub : d * 2 ^ f.mbits + 2 * 2 ^ f.mbits - (d + 1) * 2 ^ f.mbits = 2 ^ f.mbits := by
      rw [Nat.add_mul]; omega
    rw [h2, hsub]
    push_cast
    rw [← add_assoc, zpow_add_one₀ two_ne_zero]
    ring

/-- Every pattern is a significand of its binade. -/
theorem exists_binade (f : FmtF) (g : Nat) :
    ∃ d k, g = d * 2 ^ f.mbits + k ∧ k < 2 * 2 ^ f.mbits ∧ (d = 0 ∨ 2 ^ f.mbits ≤ k) := by
  have hp : 0 < 2 ^ f.mbits := by positivity
  have hsplit := Nat.div_add_mod' g (2 ^ f.mbits)
  have hmod := Nat.mod_lt g hp
  rcases h : g / 2 ^ f.mbits with _ | d
  · exact ⟨0, g, by omega, by rw [h] at hsplit; omega, .inl rfl⟩
  · refine ⟨d, 2 ^ f.mbits + g % 2 ^ f.mbits, ?_, by omega, .inr (by omega)⟩
    rw [h, Nat.add_mul] at hsplit
    omega

theorem magVal_strictMono (f : FmtF) : StrictMono (magVal f) := by
  refine strictMono_nat_of_lt_succ fun g => ?_
  obtain ⟨d, k, rfl, hk, hd⟩ := exists_binade f g
  rw [add_assoc, magVal_binade hk.le hd, magVal_binade hk (hd.imp_right Nat.le_succ_of_le)]
  gcongr
  exact k.lt_succ_self

theorem magVal_nonneg (g : Nat) : 0 ≤ magVal f g := by
  unfold magVal
  positivity

theorem ratOf_eq (n : Bool) (m : Nat) (e : Int) : ratOf n m e = (if n then -1 else 1) * (m * 2 ^ e) := mul_assoc _ _ _

theorem abs_ratOf (n : Bool) (m : Nat) (e : Int) : |ratOf n m e| = m * 2 ^ e := by
  have h : (0 : ℚ) ≤ m * 2 ^ e := by positivity
  cases n <;> simp [ratOf_eq, abs_of_nonneg h]

/-! ### Reading a pattern -/

theorem infBits_le_iff {g : Nat} : f.infBits ≤ g ↔ 2 ^ f.ebits - 1 ≤ g / 2 ^ f.mbits :=
  (Nat.le_div_iff_mul_le (by positivity)).symm

theorem infBits_le_signBit : f.infBits ≤ f.signBit := by
  rw [FmtF.infBits, FmtF.signBit, pow_add]
  exact Nat.mul_le_mul_right _ (Nat.sub_le _ _)

theorem signed_lt {n : Bool} {g : Nat} (hg : g < f.signBit) : signed f n g < 2 ^ (f.ebits + f.mbits + 1) := by
  have h2 : 2 ^ (f.ebits + f.mbits + 1) = 2 * f.signBit := pow_succ' _ _
  cases n <;> simp only [signed, Bool.false_eq_true, if_true, if_false] <;> omega

theorem exists_signed {bits : Nat} (h : bits < 2 ^ (f.ebits + f.mbits + 1)) : ∃ n, ∃ g < f.signBit, bits = signed f n g := by
  have h2 : 2 ^ (f.ebits + f.mbits + 1) = 2 * f.signBit := pow_succ' _ _
  rcases lt_or_ge bits f.signBit with hlt | hge
  · exact ⟨false, bits, hlt, rfl⟩
  · exact ⟨true, bits - f.signBit, by omega, (Nat.add_sub_cancel' hge).symm⟩

/-- The fields of a pattern: sign, exponent and fraction. -/
theorem decodeF_signed {n : Bool} {g : Nat} (hg : g < f.signBit) :
    decodeF f (signed f n g) =
      if g / 2 ^ f.mbits = 2 ^ f.ebits - 1 then (if g % 2 ^ f.mbits = 0 then .inf n else .nan)
      else if g / 2 ^ f.mbits = 0 then .fin n (g % 2 ^ f.mbits) f.minE
      else .fin n (2 ^ f.mbits + g % 2 ^ f.mbits) (f.minE + (g / 2 ^ f.mbits : ℕ) - 1) := by
  have hp : 0 < 2 ^ f.mbits := by positivity
  have hs : f.signBit = 2 ^ f.ebits * 2 ^ f.mbits := pow_add _ _ _
  have hex : g / 2 ^ f.mbits % 2 ^ f.ebits = g / 2 ^ f.mbits := Nat.mod_eq_of_lt (by rw [Nat.div_lt_iff_lt_mul hp, ← hs]; exact hg)
  have hsign : (signed f n g).testBit (f.ebits + f.mbits) = n := by
    cases n
    · exact Nat.testBit_lt_two_pow hg
    · exact (Nat.testBit_two_pow_add_eq _ _).trans (by rw [Nat.testBit_lt_two_pow hg]; rfl)
  have hexp : signed f n g / 2 ^ f.mbits % 2 ^ f.ebits = g / 2 ^ f.mbits := by
    cases n
    · exact hex
    · rw [signed, if_pos rfl, hs, Nat.add_comm, Nat.add_mul_div_right _ _ hp, Nat.add_mod_right, hex]
  have hfrac : signed f n g % 2 ^ f.mbits = g % 2 ^ f.mbits := by
    cases n
    · rfl
    · rw [signed, if_pos rfl, hs, Nat.mul_add_mod_self_right]
  simp only [decodeF, Nat.mod_eq_of_lt (signed_lt hg), hsign, hexp, hfrac]

/-- A pattern below the infinity is finite and has its magnitude's value under its sign. -/
theorem decodeF_signed_of_lt {n : Bool} {g : Nat} (hg : g < f.infBits) :
    ∃ a b, decodeF f (signed f n g) = .fin n a b ∧ ratOf n a b = (if n then -1 else 1) * magVal f g := by
  have hex : ¬g / 2 ^ f.mbits = 2 ^ f.ebits - 1 := fun h => hg.not_ge (infBits_le_iff.2 h.ge)
  have hsplit := Nat.div_add_mod' g (2 ^ f.mbits)
  rw [decodeF_signed (hg.trans_le infBits_le_signBit), if_neg hex]
  rcases h : g / 2 ^ f.mbits with _ | d
  · refine ⟨_, _, if_pos rfl, ?_⟩
    rw [ratOf_eq, magVal, h]
    rw [h, Nat.zero_mul, Nat.zero_add] at hsplit
    simp [hsplit]
  · refine ⟨_, _, if_neg d.succ_ne_zero, ?_⟩
    have hsig : g - d * 2 ^ f.mbits = 2 ^ f.mbits + g % 2 ^ f.mbits := by
      rw [h, Nat.add_mul] at hsplit
      omega
    rw [ratOf_eq, magVal, h, Nat.add_sub_cancel, hsig, Nat.cast_succ, ← add_assoc, add_sub_cancel_right]

theorem decodeF_signed_ne_fin {n : Bool} {g : Nat} (hg : g < f.signBit) (h : f.infBits ≤ g) (k : Bool) (a : Nat) (b : Int) :
    decodeF f (signed f n g) ≠ .fin k a b := by
  have hex : g / 2 ^ f.mbits = 2 ^ f.ebits - 1 := by
    have hlt : g / 2 ^ f.mbits < 2 ^ f.ebits := by rwa [Nat.div_lt_iff_lt_mul (by positivity), ← pow_add]
    have := infBits_le_iff.1 h
    omega
  rw [decodeF_signed hg, if_pos hex]
  split <;> simp

theorem finiteVal_signed {n : Bool} {g : Nat} (hg : g < f.infBits) : FiniteVal f (signed f n g) ((if n then -1 else 1) * magVal f g) := by
  obtain ⟨a, b, hd, hv⟩ := decodeF_signed_of_lt (n := n) hg
  exact ⟨signed_lt (hg.trans_le infBits_le_signBit), n, a, b, hd, hv.symm⟩

/-- The magnitude of a finite value is that of a pattern below the infinity. -/
theorem FiniteVal.abs_eq {bits : Nat} {x : ℚ} (h : FiniteVal f bits x) : ∃ g < f.infBits, |x| = magVal f g := by
  obtain ⟨hb, k, a, b, hd, rfl⟩ := h
  obtain ⟨n, g, hg, rfl⟩ := exists_signed hb
  by_cases hi : f.infBits ≤ g
  · exact absurd hd (decodeF_signed_ne_fin hg hi k a b)
  · obtain ⟨a', b', hd', hv⟩ := decodeF_signed_of_lt (n := n) (not_le.1 hi)
    obtain ⟨rfl, rfl, rfl⟩ := FVal.fin.inj (hd.symm.trans hd')
    refine ⟨g, not_le.1 hi, ?_⟩
    rw [hv]
    cases k <;> simp [abs_of_nonneg (magVal_nonneg g)]

/-- No value of the format lies between two patterns that follow each other. -/
theorem FiniteVal.abs_le_or_le {bits : Nat} {x : ℚ} (hx : FiniteVal f bits x) (g : Nat) : |x| ≤ magVal f g ∨ magVal f (g + 1) ≤ |x| := by
  obtain ⟨t, -, ht⟩ := hx.abs_eq
  rw [ht, (magVal_strictMono f).le_iff_le, (magVal_strictMono f).le_iff_le]
  exact le_or_gt t g

/-! ### The two neighbours of a magnitude (R19) -/

/-- A magnitude as a multiple of 2^q: the integer below it, the remainder, and what each mode makes of them. -/
theorem roundTo_split (m : Nat) (e q : Int) : ∃ k rem sh : ℕ, rem < 2 ^ sh ∧ (m : ℚ) * 2 ^ e = (k + rem / 2 ^ sh) * 2 ^ q ∧
    ∀ rm u n, roundTo rm u n m e q = if roundsUp rm u n k rem sh then k + 1 else k := by
  rcases le_or_gt q e with h | h
  · obtain ⟨d, rfl⟩ : ∃ d : ℕ, e = q + d := ⟨(e - q).toNat, by omega⟩
    refine ⟨m * 2 ^ d, 0, 0, by simp, ?_, fun rm u n => ?_⟩
    · rw [zpow_add₀ two_ne_zero, zpow_natCast]
      push_cast
      ring
    · rw [roundTo, if_pos h, add_sub_cancel_left, Int.toNat_natCast]
      cases rm <;> simp [roundsUp]
  · obtain ⟨sh, rfl⟩ : ∃ sh : ℕ, q = e + sh := ⟨(q - e).toNat, by omega⟩
    refine ⟨m / 2 ^ sh, m % 2 ^ sh, sh, Nat.mod_lt _ (by positivity), ?_, fun rm u n => ?_⟩
    · have hm : (m : ℚ) = ((m / 2 ^ sh : ℕ) : ℚ) * 2 ^ sh + ((m % 2 ^ sh : ℕ) : ℚ) := by
        exact_mod_cast (Nat.div_add_mod' m (2 ^ sh)).symm
      rw [zpow_add₀ two_ne_zero, zpow_natCast]
      conv_lhs => rw [hm]
      field_simp
    · rw [roundTo, if_neg h.not_ge, add_sub_cancel_left, Int.toNat_natCast]

theorem rem_pos_of_roundsUp {rm : Rm} {u k rem sh : Nat} {n : Bool} (h : roundsUp rm u n k rem sh = true) : 0 < rem := by
  refine Nat.pos_of_ne_zero fun h0 => ?_
  subst h0
  cases rm <;> simp [roundsUp] at h

/-- `m * 2^e` lies from pattern `g` on toward the next by `rem` parts in 2^sh, and rounding picks one of the two. -/
structure Brackets (f : FmtF) (m : Nat) (e : Int) (g k rem sh : Nat) : Prop where
  rem_lt : rem < 2 ^ sh
  between : (m : ℚ) * 2 ^ e = magVal f g + rem / 2 ^ sh * (magVal f (g + 1) - magVal f g)
  round : ∀ rm u n mag, mag = (if roundsUp rm u n k rem sh then g + 1 else g) →
    roundF f rm u (.fin n m e) = if f.infBits ≤ mag then overflowBits f rm n else signed f n mag

theorem zpow_log2_le {m : Nat} (e : Int) (hm : m ≠ 0) : (2 : ℚ) ^ ((Nat.log2 m : Int) + e) ≤ m * 2 ^ e := by
  rw [zpow_add₀ two_ne_zero, zpow_natCast]
  gcongr
  exact_mod_cast Nat.log2_self_le hm

theorem lt_zpow_log2 {m : Nat} (e : Int) : (m : ℚ) * 2 ^ e < 2 ^ ((Nat.log2 m : Int) + e + 1) := by
  rw [add_right_comm, zpow_add₀ two_ne_zero]
  gcongr
  exact_mod_cast Nat.lt_log2_self

/-- Where the last place is `p` binary places or fewer below the leading bit, the integer below has at most `p + 1` bits. -/
theorem quotient_lt_binade {m k p : Nat} {e q : Int} {t : ℚ} (h0 : 0 ≤ t) (hval : (m : ℚ) * 2 ^ e = (k + t) * 2 ^ q)
    (hq : (Nat.log2 m : Int) + e ≤ p + q) : k < 2 * 2 ^ p := by
  have h : (k : ℚ) * 2 ^ q < (2 * 2 ^ p) * 2 ^ q := calc
    (k : ℚ) * 2 ^ q ≤ m * 2 ^ e := by rw [hval]; gcongr; exact le_add_of_nonneg_right h0
    _ < 2 ^ ((Nat.log2 m : Int) + e + 1) := lt_zpow_log2 e
    _ ≤ 2 ^ (1 + (p : Int) + q) := zpow_le_zpow_right₀ one_le_two (by omega)
    _ = (2 * 2 ^ p) * 2 ^ q := by rw [zpow_add₀ two_ne_zero, zpow_add₀ two_ne_zero, zpow_one, zpow_natCast]
  exact_mod_cast lt_of_mul_lt_mul_right h (by positivity)

/-- Where it is `p` places or more below, the integer below has at least `p + 1` bits. -/
theorem binade_le_quotient {m k p : Nat} {e q : Int} {t : ℚ} (hm : m ≠ 0) (h1 : t < 1) (hval : (m : ℚ) * 2 ^ e = (k + t) * 2 ^ q)
    (hq : p + q ≤ (Nat.log2 m : Int) + e) : 2 ^ p ≤ k := by
  have h : (2 ^ p : ℚ) * 2 ^ q < (k + 1) * 2 ^ q := calc
    (2 ^ p : ℚ) * 2 ^ q = 2 ^ ((p : Int) + q) := by rw [zpow_add₀ two_ne_zero, zpow_natCast]
    _ ≤ 2 ^ ((Nat.log2 m : Int) + e) := zpow_le_zpow_right₀ one_le_two hq
    _ ≤ m * 2 ^ e := zpow_log2_le e hm
    _ < (k + 1) * 2 ^ q := by rw [hval]; gcongr
  have hlt : (2 ^ p : ℚ) < k + 1 := lt_of_mul_lt_mul_right h (by positivity)
  exact Nat.lt_succ_iff.1 (by exact_mod_cast hlt)

/-- The exponent of the last place that rounding chooses keeps the integer below within one binade. -/
theorem exists_brackets {m : Nat} (e : Int) (hm : m ≠ 0) : ∃ g k rem sh, Brackets f m e g k rem sh := by
  obtain ⟨q, hq⟩ : ∃ q, q = max ((Nat.log2 m : Int) + e - f.mbits) f.minE := ⟨_, rfl⟩
  obtain ⟨d, hd⟩ : ∃ d : ℕ, q = f.minE + d := ⟨(q - f.minE).toNat, by omega⟩
  obtain ⟨k, rem, sh, hrem, hval, hround⟩ := roundTo_split m e q
  have hfrac : (rem : ℚ) / 2 ^ sh < 1 := by
    rw [div_lt_one (by positivity)]
    exact_mod_cast hrem
  have hk : k < 2 * 2 ^ f.mbits := quotient_lt_binade (by positivity) hval (by omega)
  have hlow : d = 0 ∨ 2 ^ f.mbits ≤ k := or_iff_not_imp_left.2 fun hd0 => binade_le_quotient hm hfrac hval (by omega)
  have hlo : magVal f (d * 2 ^ f.mbits + k) = k * 2 ^ q := by rw [hd, magVal_binade hk.le hlow]
  have hhi : magVal f (d * 2 ^ f.mbits + k + 1) = (k + 1) * 2 ^ q := by
    rw [hd, add_assoc, magVal_binade hk (hlow.imp_right Nat.le_succ_of_le), Nat.cast_succ]
  refine ⟨d * 2 ^ f.mbits + k, k, rem, sh, hrem, ?_, fun rm u n mag hmag => ?_⟩
  · rw [hlo, hhi, hval]
    ring
  · have hmag' : (q - f.minE).toNat * 2 ^ f.mbits + roundTo rm u n m e q = mag := by
      rw [hround, hmag, show (q - f.minE).toNat = d by omega]
      split <;> rfl
    rw [roundF, if_neg hm]
    simp only [← hq, hmag']

section
variable {m g k rem sh : Nat} {e : Int} (b : Brackets f m e g k rem sh)
include b

theorem Brackets.lo_le : magVal f g ≤ m * 2 ^ e := by
  have hstep := sub_pos.2 (magVal_strictMono f g.lt_succ_self)
  rw [b.between]
  exact le_add_of_nonneg_right (by positivity)

theorem Brackets.lt_hi : (m : ℚ) * 2 ^ e < magVal f (g + 1) := by
  have hstep := sub_pos.2 (magVal_strictMono f g.lt_succ_self)
  have hfrac : (rem : ℚ) / 2 ^ sh < 1 := by
    rw [div_lt_one (by positivity)]
    exact_mod_cast b.rem_lt
  rw [b.between]
  nlinarith

theorem Brackets.lo_lt (h : 0 < rem) : magVal f g < m * 2 ^ e := by
  have hstep := sub_pos.2 (magVal_strictMono f g.lt_succ_self)
  rw [b.between]
  exact lt_add_of_pos_right _ (by positivity)

theorem Brackets.eq_lo (h : rem = 0) : (m : ℚ) * 2 ^ e = magVal f g := by
  rw [b.between, h]
  simp

/-- At most half the way up, the lower neighbour is no farther. -/
theorem Brackets.lo_closer (h : 2 * rem ≤ 2 ^ sh) : m * 2 ^ e - magVal f g ≤ magVal f (g + 1) - m * 2 ^ e := by
  have hstep := sub_pos.2 (magVal_strictMono f g.lt_succ_self)
  have hfrac : (rem : ℚ) / 2 ^ sh ≤ 1 / 2 := by
    rw [div_le_div_iff₀ (by positivity) two_pos, mul_comm, one_mul]
    exact_mod_cast h
  have hmid := mul_le_mul_of_nonneg_right hfrac hstep.le
  have := b.between
  linarith

/-- At least half the way up, the upper neighbour is no farther. -/
theorem Brackets.hi_closer (h : 2 ^ sh ≤ 2 * rem) : magVal f (g + 1) - m * 2 ^ e ≤ m * 2 ^ e - magVal f g := by
  have hstep := sub_pos.2 (magVal_strictMono f g.lt_succ_self)
  have hfrac : 1 / 2 ≤ (rem : ℚ) / 2 ^ sh := by
    rw [div_le_div_iff₀ two_pos (by positivity), one_mul, mul_comm]
    exact_mod_cast h
  have hmid := mul_le_mul_of_nonneg_right hfrac hstep.le
  have := b.between
  linarith

/-! ### Which values lie on which side -/

theorem Brackets.abs_le_lo {bits : Nat} {x : ℚ} (hx : FiniteVal f bits x) (h : |x| ≤ m * 2 ^ e) : |x| ≤ magVal f g :=
  (hx.abs_le_or_le g).resolve_right (h.trans_lt b.lt_hi).not_ge

/-- A value or its negation, `y`, that is not above the magnitude is not above the lower neighbour. -/
theorem Brackets.le_lo {bits : Nat} {x y : ℚ} (hx : FiniteVal f bits x) (hy : |y| = |x|) (h : y ≤ m * 2 ^ e) : y ≤ magVal f g := by
  rcases le_total 0 y with h0 | h0
  · rw [abs_of_nonneg h0] at hy
    exact hy.trans_le (b.abs_le_lo hx (hy ▸ h))
  · exact h0.trans (magVal_nonneg g)

theorem Brackets.le_above : (m : ℚ) * 2 ^ e ≤ magVal f (if 0 < rem then g + 1 else g) := by
  split
  next => exact b.lt_hi.le
  next h => exact (b.eq_lo (by omega)).le

/-- A value or its negation, `y`, that is not below the magnitude is not below the pattern at or above it. -/
theorem Brackets.above_le {bits : Nat} {x y : ℚ} (hx : FiniteVal f bits x) (hy : |y| = |x|) (h : m * 2 ^ e ≤ y) :
    magVal f (if 0 < rem then g + 1 else g) ≤ y := by
  rw [abs_of_nonneg (le_trans (by positivity) h)] at hy
  split
  next hrem => exact hy ▸ (hx.abs_le_or_le g).resolve_left (hy ▸ (b.lo_lt hrem).trans_le h).not_ge
  next => exact b.lo_le.trans h

/-- Of the two neighbours, one on whose side of the middle the magnitude lies is nearest of all values. -/
theorem Brackets.nearest {p bits : Nat} {x : ℚ} (hp : p = g ∧ 2 * rem ≤ 2 ^ sh ∨ p = g + 1 ∧ 2 ^ sh ≤ 2 * rem) (hx : FiniteVal f bits x) :
    |m * 2 ^ e - magVal f p| ≤ |m * 2 ^ e - (|x|)| := by
  have hlo := b.lo_le
  have hhi := b.lt_hi
  have hdist : |m * 2 ^ e - magVal f p| ≤ m * 2 ^ e - magVal f g ∧ |m * 2 ^ e - magVal f p| ≤ magVal f (g + 1) - m * 2 ^ e := by
    obtain ⟨rfl, h⟩ | ⟨rfl, h⟩ := hp
    · rw [abs_of_nonneg (by linarith)]
      exact ⟨le_rfl, b.lo_closer h⟩
    · rw [abs_sub_comm, abs_of_nonneg (by linarith)]
      exact ⟨b.hi_closer h, le_rfl⟩
  obtain h | h := hx.abs_le_or_le g
  · exact le_abs.2 (.inl (by linarith))
  · exact le_abs.2 (.inr (by linarith))

/-! ### What each mode gives, within the format's range -/

/-- The pattern that the mode picks is finite: it passes no pattern above the magnitude. -/
theorem Brackets.finiteVal {rm : Rm} {u p : Nat} {n : Bool} (hr : ∃ t < f.infBits, (m : ℚ) * 2 ^ e ≤ magVal f t)
    (hp : (if roundsUp rm u n k rem sh then g + 1 else g) = p) :
    FiniteVal f (roundF f rm u (.fin n m e)) ((if n then -1 else 1) * magVal f p) := by
  obtain ⟨t, ht, hmt⟩ := hr
  have hpt : p ≤ t := by
    subst hp
    split
    next h => exact (magVal_strictMono f).lt_iff_lt.1 ((b.lo_lt (rem_pos_of_roundsUp h)).trans_le hmt)
    next => exact (magVal_strictMono f).le_iff_le.1 (b.lo_le.trans hmt)
  rw [b.round rm u n p hp.symm, if_neg (hpt.trans_lt ht).not_ge]
  exact finiteVal_signed (hpt.trans_lt ht)

variable {n : Bool} (u : Nat) (hr : ∃ t < f.infBits, (m : ℚ) * 2 ^ e ≤ magVal f t)
include hr

theorem Brackets.roundF_rz : ∃ r, FiniteVal f (roundF f .rz u (.fin n m e)) r ∧ |r| ≤ |ratOf n m e| ∧ 0 ≤ r * ratOf n m e ∧
    ∀ bits x, FiniteVal f bits x → |x| ≤ |ratOf n m e| → |x| ≤ |r| := by
  have hpos := magVal_nonneg (f := f) g
  have habs : |(if n then -1 else 1) * magVal f g| = magVal f g := by cases n <;> simp [abs_of_nonneg hpos]
  refine ⟨_, b.finiteVal hr rfl, ?_⟩
  simp only [roundsUp, Bool.false_eq_true, if_false, habs, abs_ratOf]
  refine ⟨b.lo_le, ?_, fun bits x => b.abs_le_lo⟩
  have h : 0 ≤ magVal f g * (m * 2 ^ e) := by positivity
  cases n <;> simpa [ratOf_eq] using h

theorem Brackets.roundF_rd : ∃ r, FiniteVal f (roundF f .rd u (.fin n m e)) r ∧ r ≤ ratOf n m e ∧
    ∀ bits x, FiniteVal f bits x → x ≤ ratOf n m e → x ≤ r := by
  refine ⟨_, b.finiteVal hr rfl, ?_⟩
  cases n with
  | false =>
    simp only [roundsUp, Bool.false_and, ratOf_eq, Bool.false_eq_true, if_false, one_mul]
    exact ⟨b.lo_le, fun bits x hx => b.le_lo hx rfl⟩
  | true =>
    simp only [roundsUp, Bool.true_and, decide_eq_true_eq, ratOf_eq, if_true, neg_one_mul]
    exact ⟨neg_le_neg b.le_above, fun bits x hx h => le_neg_of_le_neg (b.above_le hx (abs_neg x) (le_neg_of_le_neg h))⟩

theorem Brackets.roundF_ru : ∃ r, FiniteVal f (roundF f .ru u (.fin n m e)) r ∧ ratOf n m e ≤ r ∧
    ∀ bits x, FiniteVal f bits x → ratOf n m e ≤ x → r ≤ x := by
  refine ⟨_, b.finiteVal hr rfl, ?_⟩
  cases n with
  | false =>
    simp only [roundsUp, Bool.not_false, Bool.true_and, decide_eq_true_eq, ratOf_eq, Bool.false_eq_true, if_false, one_mul]
    exact ⟨b.le_above, fun bits x hx => b.above_le hx rfl⟩
  | true =>
    simp only [roundsUp, Bool.not_true, Bool.false_and, ratOf_eq, Bool.false_eq_true, if_true, if_false, neg_one_mul]
    exact ⟨neg_le_neg b.lo_le, fun bits x hx h => neg_le_of_neg_le (b.le_lo hx (abs_neg x) (neg_le_of_neg_le h))⟩

theorem Brackets.roundF_rn : ∃ r, FiniteVal f (roundF f .rn u (.fin n m e)) r ∧
    ∀ bits x, FiniteVal f bits x → |ratOf n m e - r| ≤ |ratOf n m e - x| := by
  refine ⟨_, b.finiteVal hr rfl, fun bits x hx => ?_⟩
  obtain ⟨p, hp⟩ : ∃ p, (if roundsUp .rn u n k rem sh then g + 1 else g) = p := ⟨_, rfl⟩
  have hside : p = g ∧ 2 * rem ≤ 2 ^ sh ∨ p = g + 1 ∧ 2 ^ sh ≤ 2 * rem := by
    subst hp
    simp only [roundsUp, Bool.or_eq_true, Bool.and_eq_true, decide_eq_true_eq]
    split
    next h => exact .inr ⟨rfl, h.elim le_of_lt fun h => h.1.le⟩
    next h => exact .inl ⟨rfl, not_lt.1 fun h' => h (.inl h')⟩
  rw [hp]
  calc |ratOf n m e - (if n then -1 else 1) * magVal f p| = |m * 2 ^ e - magVal f p| := by
        cases n
        · simp [ratOf_eq]
        · simp [ratOf_eq, abs_sub_comm, neg_add_eq_sub]
    _ ≤ |m * 2 ^ e - (|x|)| := b.nearest hside hx
    _ = |(|ratOf n m e| - |x|)| := by rw [abs_ratOf]
    _ ≤ |ratOf n m e - x| := abs_abs_sub_abs_le _ _

end

/-- Settles O9: the value lies between two neighbours of the format, and each mode gives the one that R19 names. -/
theorem roundingTakesTheNeighbourItsModeNames : Obligations.RoundingTakesTheNeighbourItsModeNames := by
  intro ty n m e hm f v isVal hin u
  obtain ⟨bits, x, hx, hvx⟩ := hin
  obtain ⟨t, ht, hxt⟩ := FiniteVal.abs_eq hx
  have hr : ∃ t < f.infBits, (m : ℚ) * 2 ^ e ≤ magVal f t := ⟨t, ht, by rwa [← hxt, ← abs_ratOf n]⟩
  obtain ⟨g, k, rem, sh, b⟩ := exists_brackets (f := f) e hm
  exact ⟨b.roundF_rd u hr, b.roundF_ru u hr, b.roundF_rz u hr, b.roundF_rn u hr⟩

end Sys2Proof.Machine
end

section
/-!
SUPPORT. The fields of a word and the word they make up (R42 to R51): each layout of bits is joined and cut the same way, every code of a
field names one value, and every operand byte one operand (R48, R49, R52, R202).
-/
namespace Sys2Proof
open Sys2Proof.Machine

theorem bitAt_eq_extract {n : Nat} (v : BitVec n) (i : Nat) : bitAt v i = (v.extractLsb' i 1).getLsbD 0 := by
  simp [bitAt]

theorem ofBool_bitAt {n : Nat} (v : BitVec n) (i : Nat) : BitVec.ofBool (bitAt v i) = v.extractLsb' i 1 := by
  ext j hj
  obtain rfl : j = 0 := by omega
  simp [bitAt]

theorem bitAt_append_high {m n : Nat} (x : BitVec m) (y : BitVec n) {i : Nat} (h : n ≤ i) :
    bitAt (x ++ y) i = bitAt x (i - n) := by
  simp [bitAt, BitVec.getLsbD_append, Nat.not_lt.2 h]

theorem bitAt_append_low {m n : Nat} (x : BitVec m) (y : BitVec n) {i : Nat} (h : i < n) :
    bitAt (x ++ y) i = bitAt y i := by
  simp [bitAt, BitVec.getLsbD_append, h]

@[simp] theorem bitAt_ofBool (b : Bool) : bitAt (BitVec.ofBool b) 0 = b := by simp [bitAt]

theorem AX.extract_pack (a : AX) (i n : Nat) : a.pack.extractLsb' i n =
    (a.sc ++ a.rm ++ a.ty ++ a.ma ++ a.mb ++ BitVec.ofBool a.sat ++ BitVec.ofBool a.ftz ++ a.sub).extractLsb' i n := rfl
theorem AX.bitAt_pack (a : AX) (i : Nat) : bitAt a.pack i =
    bitAt (a.sc ++ a.rm ++ a.ty ++ a.ma ++ a.mb ++ BitVec.ofBool a.sat ++ BitVec.ofBool a.ftz ++ a.sub) i := rfl

@[simp] theorem AX.unpack_pack (a : AX) : AX.unpack a.pack = a := by
  simp [AX.unpack, AX.extract_pack, AX.bitAt_pack, BitVec.extractLsb'_append_eq_of_le, BitVec.extractLsb'_append_eq_of_add_le,
    bitAt_append_high, bitAt_append_low, -Nat.reduceAdd]

theorem AX.pack_unpack (x : BitVec 25) : (AX.unpack x).pack = x := by
  simp only [AX.unpack, AX.pack, ofBool_bitAt]
  simp (disch := rfl) only [BitVec.extractLsb'_append_extractLsb'_eq_extractLsb', -Nat.reduceAdd]
  exact BitVec.extractLsb'_eq_self

theorem Raw.extract_pack (r : Raw) (i n : Nat) : r.pack.extractLsb' i n =
    (BitVec.ofBool r.b ++ BitVec.ofBool r.w ++ 0#1 ++ r.op ++ BitVec.ofBool r.n ++ r.g ++ r.dst ++ r.sa ++ r.sb ++ r.x).extractLsb' i n := rfl
theorem Raw.bitAt_pack (r : Raw) (i : Nat) : bitAt r.pack i =
    bitAt (BitVec.ofBool r.b ++ BitVec.ofBool r.w ++ 0#1 ++ r.op ++ BitVec.ofBool r.n ++ r.g ++ r.dst ++ r.sa ++ r.sb ++ r.x) i := rfl

@[simp] theorem Raw.unpack_pack (r : Raw) : Raw.unpack r.pack = r := by
  simp [Raw.unpack, Raw.extract_pack, Raw.bitAt_pack, BitVec.extractLsb'_append_eq_of_le, BitVec.extractLsb'_append_eq_of_add_le,
    bitAt_append_high, bitAt_append_low, -Nat.reduceAdd]

theorem Raw.pack_unpack (v : BitVec 64) (h : bitAt v 61 = false) : (Raw.unpack v).pack = v := by
  have h0 : 0#1 = v.extractLsb' 61 1 := by rw [← ofBool_bitAt, h]; rfl
  simp only [Raw.unpack, Raw.pack, ofBool_bitAt, h0]
  simp (disch := rfl) only [BitVec.extractLsb'_append_extractLsb'_eq_extractLsb', -Nat.reduceAdd]
  exact BitVec.extractLsb'_eq_self

theorem MX.extract_pack (m : MX) (i n : Nat) : m.pack.extractLsb' i n =
    (m.sbc ++ m.scale ++ m.width ++ m.scope ++ BitVec.ofBool m.ord ++ m.hint ++ m.off).extractLsb' i n := rfl
theorem MX.bitAt_pack (m : MX) (i : Nat) : bitAt m.pack i =
    bitAt (m.sbc ++ m.scale ++ m.width ++ m.scope ++ BitVec.ofBool m.ord ++ m.hint ++ m.off) i := rfl

@[simp] theorem MX.unpack_pack (m : MX) : MX.unpack m.pack = m := by
  simp [MX.unpack, MX.extract_pack, MX.bitAt_pack, BitVec.extractLsb'_append_eq_of_le, BitVec.extractLsb'_append_eq_of_add_le,
    bitAt_append_high, bitAt_append_low, -Nat.reduceAdd]

theorem MX.pack_unpack (x : BitVec 25) : (MX.unpack x).pack = x := by
  simp only [MX.unpack, MX.pack, ofBool_bitAt]
  simp (disch := rfl) only [BitVec.extractLsb'_append_extractLsb'_eq_extractLsb', -Nat.reduceAdd]
  exact BitVec.extractLsb'_eq_self

theorem EX.extract_pack (e : EX) (i n : Nat) : e.pack.extractLsb' i n = (e.gran ++ e.sbc ++ e.rest).extractLsb' i n := rfl

@[simp] theorem EX.unpack_pack (e : EX) : EX.unpack e.pack = e := by
  simp [EX.unpack, EX.extract_pack, BitVec.extractLsb'_append_eq_of_le, BitVec.extractLsb'_append_eq_of_add_le, -Nat.reduceAdd]

theorem EX.pack_unpack (x : BitVec 25) : (EX.unpack x).pack = x := by
  simp only [EX.unpack, EX.pack]
  simp (disch := rfl) only [BitVec.extractLsb'_append_extractLsb'_eq_extractLsb', -Nat.reduceAdd]
  exact BitVec.extractLsb'_eq_self

theorem CX.extract_pack (c : CX) (i n : Nat) : c.pack.extractLsb' i n = (BitVec.ofBool c.u ++ c.prio ++ c.res ++ c.off).extractLsb' i n := rfl
theorem CX.bitAt_pack (c : CX) (i : Nat) : bitAt c.pack i = bitAt (BitVec.ofBool c.u ++ c.prio ++ c.res ++ c.off) i := rfl

@[simp] theorem CX.unpack_pack (c : CX) : CX.unpack c.pack = c := by
  simp [CX.unpack, CX.extract_pack, CX.bitAt_pack, BitVec.extractLsb'_append_eq_of_le, BitVec.extractLsb'_append_eq_of_add_le,
    bitAt_append_high, -Nat.reduceAdd]

theorem CX.pack_unpack (x : BitVec 41) : (CX.unpack x).pack = x := by
  simp only [CX.unpack, CX.pack, ofBool_bitAt]
  simp (disch := rfl) only [BitVec.extractLsb'_append_extractLsb'_eq_extractLsb', -Nat.reduceAdd]
  exact BitVec.extractLsb'_eq_self

/-- SA, SB and X of a low field make it up again. -/
@[simp] theorem low_parts (v : BitVec 41) : lowSa v ++ lowSb v ++ lowX v = v := by
  simp only [lowSa, lowSb, lowX]
  simp (disch := rfl) only [BitVec.extractLsb'_append_extractLsb'_eq_extractLsb', -Nat.reduceAdd]
  exact BitVec.extractLsb'_eq_self

theorem Raw.extract_low (r : Raw) (i n : Nat) : r.low.extractLsb' i n = (r.sa ++ r.sb ++ r.x).extractLsb' i n := rfl
@[simp] theorem Raw.lowSa_low (r : Raw) : lowSa r.low = r.sa := by
  simp [lowSa, Raw.extract_low, BitVec.extractLsb'_append_eq_of_le, -Nat.reduceAdd]
@[simp] theorem Raw.lowSb_low (r : Raw) : lowSb r.low = r.sb := by
  simp [lowSb, Raw.extract_low, BitVec.extractLsb'_append_eq_of_le, BitVec.extractLsb'_append_eq_of_add_le, -Nat.reduceAdd]
@[simp] theorem Raw.lowX_low (r : Raw) : lowX r.low = r.x := by
  simp [lowX, Raw.extract_low, BitVec.extractLsb'_append_eq_of_add_le, -Nat.reduceAdd]

/-! ### Codes of the fields' values -/
@[simp] theorem ityOf_ityCode (t) : ityOf (ityCode t) = t := by cases t <;> rfl
@[simp] theorem ityCode_ityOf : ∀ b, ityCode (ityOf b) = b := by decide
@[simp] theorem smodOf_smodCode (t) : smodOf (smodCode t) = t := by cases t <;> rfl
@[simp] theorem smodCode_smodOf : ∀ b, smodCode (smodOf b) = b := by decide
@[simp] theorem scopeOf_scopeCode (t) : scopeOf (scopeCode t) = t := by cases t <;> rfl
@[simp] theorem scopeCode_scopeOf : ∀ b, scopeCode (scopeOf b) = b := by decide
@[simp] theorem hintOf_hintCode (t) : hintOf (hintCode t) = t := by cases t <;> rfl
@[simp] theorem hintCode_hintOf : ∀ b, hintCode (hintOf b) = b := by decide
@[simp] theorem shflOf_shflCode (t) : shflOf (shflCode t) = t := by cases t <;> rfl
@[simp] theorem shflCode_shflOf : ∀ b, shflCode (shflOf b) = b := by decide
theorem ftyOf_eq_some (b t) : ftyOf b = some t ↔ ftyCode t = b := by cases t <;> revert b <;> decide
@[simp] theorem ftyOf_ftyCode (t) : ftyOf (ftyCode t) = some t := (ftyOf_eq_some _ t).2 rfl
theorem rmOf_eq_some (b t) : rmOf b = some t ↔ rmCode t = b := by cases t <;> revert b <;> decide
@[simp] theorem rmOf_rmCode (t) : rmOf (rmCode t) = some t := (rmOf_eq_some _ t).2 rfl
theorem icondOf_eq_some (b t) : icondOf b = some t ↔ icondCode t = b := by cases t <;> revert b <;> decide
@[simp] theorem icondOf_icondCode (t) : icondOf (icondCode t) = some t := (icondOf_eq_some _ t).2 rfl
theorem fcondOf_eq_some (b t) : fcondOf b = some t ↔ fcondCode t = b := by cases t <;> revert b <;> decide
@[simp] theorem fcondOf_fcondCode (t) : fcondOf (fcondCode t) = some t := (fcondOf_eq_some _ t).2 rfl
theorem widthOf_eq_some (b t) : widthOf b = some t ↔ widthCode t = b := by cases t <;> revert b <;> decide
@[simp] theorem widthOf_widthCode (t) : widthOf (widthCode t) = some t := (widthOf_eq_some _ t).2 rfl
theorem aopOf_eq_some (b t) : aopOf b = some t ↔ aopCode t = b := by cases t <;> revert b <;> decide
@[simp] theorem aopOf_aopCode (t) : aopOf (aopCode t) = some t := (aopOf_eq_some _ t).2 rfl
theorem redOpOf_eq_some (b t) : redOpOf b = some t ↔ redOpCode t = b := by cases t <;> revert b <;> decide
@[simp] theorem redOpOf_redOpCode (t) : redOpOf (redOpCode t) = some t := (redOpOf_eq_some _ t).2 rfl
theorem cvtDstOf_eq_some (b t) : cvtDstOf b = some t ↔ cvtDstCode t = b := by
  obtain t | t := t <;> cases t <;> revert b <;> decide
@[simp] theorem cvtDstOf_cvtDstCode (t) : cvtDstOf (cvtDstCode t) = some t := (cvtDstOf_eq_some _ t).2 rfl
theorem packKindOf_eq_some (b t) : packKindOf b = some t ↔ packKindCode t = b := by cases t <;> revert b <;> decide
@[simp] theorem packKindOf_packKindCode (t) : packKindOf (packKindCode t) = some t := (packKindOf_eq_some _ t).2 rfl
theorem bfmtOf_eq_some (b t) : bfmtOf b = some t ↔ bfmtCode t = b := by cases t <;> revert b <;> decide
@[simp] theorem bfmtOf_bfmtCode (t) : bfmtOf (bfmtCode t) = some t := (bfmtOf_eq_some _ t).2 rfl
theorem voteOf_eq_some (b t) : voteOf b = some t ↔ voteCode t = b := by cases t <;> revert b <;> decide
@[simp] theorem voteOf_voteCode (t) : voteOf (voteCode t) = some t := (voteOf_eq_some _ t).2 rfl
theorem matchOf_eq_some (b t) : matchOf b = some t ↔ matchCode t = b := by cases t <;> revert b <;> decide
@[simp] theorem matchOf_matchCode (t) : matchOf (matchCode t) = some t := (matchOf_eq_some _ t).2 rfl
theorem vtosOf_eq_some (b t) : vtosOf b = some t ↔ vtosCode t = b := by cases t <;> revert b <;> decide
@[simp] theorem vtosOf_vtosCode (t) : vtosOf (vtosCode t) = some t := (vtosOf_eq_some _ t).2 rfl
theorem mfmtOf_eq_some (b t) : mfmtOf b = some t ↔ mfmtCode t = b := by cases t <;> revert b <;> decide
@[simp] theorem mfmtOf_mfmtCode (t) : mfmtOf (mfmtCode t) = some t := (mfmtOf_eq_some _ t).2 rfl
theorem mcntOf_eq_some (b t) : mcntOf b = some t ↔ mcntCode t = b := by cases t <;> revert b <;> decide
@[simp] theorem mcntOf_mcntCode (t) : mcntOf (mcntCode t) = some t := (mcntOf_eq_some _ t).2 rfl
theorem hopOf_eq_some (b t) : hopOf b = some t ↔ hopCode t = b := by cases t <;> revert b <;> decide
@[simp] theorem hopOf_hopCode (t) : hopOf (hopCode t) = some t := (hopOf_eq_some _ t).2 rfl

/-! ### Operands (R52, R53) -/

@[simp] theorem regOfByte_regByte (r : Reg) : regOfByte (regByte r) = some r := by
  cases r with
  | v n =>
    have h : (BitVec.ofNat 8 n.val).toNat = n.val := by simp; omega
    simp [regOfByte, regByte, h]
  | s n =>
    have h : (BitVec.ofNat 8 (0xC0 + n.val)).toNat = 0xC0 + n.val := by simp; omega
    have : 0xC0 + n.val < 0xF0 := by omega
    simp [regOfByte, regByte, *]
  | t n =>
    have h : (BitVec.ofNat 8 (0xF0 + n.val)).toNat = 0xF0 + n.val := by simp; omega
    have : 0xF0 + n.val < 0xF8 := by omega
    have : 0xC0 ≤ 0xF0 + n.val := by omega
    simp [regOfByte, regByte, *]
  | zero => rfl
  | lane => rfl

theorem regOfByte_eq_some (b : BitVec 8) (r : Reg) : regOfByte b = some r ↔ b = regByte r := by
  constructor
  · intro h
    unfold regOfByte at h
    split_ifs at h with h1 h2 h3 h4 h5 <;> cases h
    · simp [regByte]
    · simp only [regByte]; bv_omega
    · simp only [regByte]; bv_omega
    · simp only [regByte]; bv_omega
    · simp only [regByte]; bv_omega
  · rintro rfl
    exact regOfByte_regByte r

theorem regByte_inj {r q : Reg} : regByte r = regByte q ↔ r = q :=
  ⟨fun h => Option.some.inj (by rw [← regOfByte_regByte r, h, regOfByte_regByte]), congrArg _⟩

@[simp] theorem regByte_ne_none (r : Reg) : regByte r ≠ 0xFF#8 := by
  intro h
  have := regOfByte_regByte r
  rw [h] at this
  simp [regOfByte] at this

@[simp] theorem rd_regByte (r : Reg) : rd (regByte r) = r := by simp [rd]
@[simp] theorem okb_regByte (r : Reg) : okb (regByte r) = true := by simp [okb]
theorem okb_iff (b : BitVec 8) : okb b = true ↔ ∃ r, b = regByte r := by
  simp [okb, Option.isSome_iff_exists, regOfByte_eq_some]

@[simp] theorem ro_optByte (o : Option Reg) : ro (optByte o) = o := by cases o <;> simp [ro, optByte]
@[simp] theorem oko_optByte (o : Option Reg) : oko (optByte o) = true := by cases o <;> simp [oko, optByte]
theorem oko_iff (b : BitVec 8) : oko b = true ↔ ∃ o, b = optByte o := by
  simp only [oko, Bool.or_eq_true, beq_iff_eq, okb_iff, Option.exists, optByte]

@[simp] theorem pr_predByte : ∀ p, pr (predByte p) = p := by decide
@[simp] theorem okp_predByte : ∀ p, okp (predByte p) = true := by decide
@[simp] theorem predByte_ne_none : ∀ p, predByte p ≠ 0xFF#8 := by decide
theorem okp_iff (b : BitVec 8) : okp b = true ↔ ∃ p, b = predByte p := by
  constructor
  · intro h
    refine ⟨⟨b.toNat, of_decide_eq_true h⟩, ?_⟩
    simp [predByte]
  · rintro ⟨p, rfl⟩
    exact okp_predByte p

@[simp] theorem po_optPred (o : Option (Fin 8)) : po (optPred o) = o := by cases o <;> simp [po, optPred]
@[simp] theorem okpo_optPred (o : Option (Fin 8)) : okpo (optPred o) = true := by cases o <;> simp [okpo, optPred]
theorem okpo_iff (b : BitVec 8) : okpo b = true ↔ ∃ o, b = optPred o := by
  simp only [okpo, Bool.or_eq_true, beq_iff_eq, okp_iff, Option.exists, optPred]

@[simp] theorem sbcOf_sbcCode : ∀ o, sbcOf (sbcCode o) = o := by
  rintro (_ | c)
  · rfl
  · revert c; decide
@[simp] theorem okc_sbcCode : ∀ o, okc (sbcCode o) = true := by
  rintro (_ | c)
  · rfl
  · revert c; decide
theorem okc_iff : ∀ b, okc b = true ↔ ∃ o, b = sbcCode o := by
  intro b
  constructor
  · intro h
    refine ⟨sbcOf b, ?_⟩
    revert b
    decide
  · rintro ⟨o, rfl⟩
    exact okc_sbcCode o
theorem sbcCode_eq_seven : ∀ o, sbcCode o = 7#3 ↔ o = none := by
  rintro (_ | c)
  · simp [sbcCode]
  · revert c; decide
theorem sbcCode_ne_six : ∀ o, sbcCode o ≠ 6#3 := by
  rintro (_ | c)
  · decide
  · revert c; decide

@[simp] theorem kOf_kByte : ∀ k, kOf (kByte k) = k := by decide
@[simp] theorem okk_kByte : ∀ k, okk (kByte k) = true := by decide
theorem okk_iff (b : BitVec 8) : okk b = true ↔ ∃ k, b = kByte k := by
  constructor
  · intro h
    refine ⟨⟨b.toNat, of_decide_eq_true h⟩, ?_⟩
    simp [kByte]
  · rintro ⟨k, rfl⟩
    exact okk_kByte k

end Sys2Proof
end

section
/-!
O57, decoding. Whatever the decoder reads from a full word or a half, the encoder writes as the very word that was read: one lemma per
chapter's table of fields, by its opcodes.
-/
namespace Sys2Proof
open Sys2Proof.Machine

@[simp] theorem req_eq_some {c : Bool} {x y : Bool × Instr} : req c x = some y ↔ c = true ∧ x = y := by
  cases c <;> simp [req]

theorem regByte_rd {b : BitVec 8} (h : okb b = true) : regByte (rd b) = b := by
  obtain ⟨r, rfl⟩ := (okb_iff b).1 h; simp
theorem predByte_pr {b : BitVec 8} (h : okp b = true) : predByte (pr b) = b := by
  obtain ⟨r, rfl⟩ := (okp_iff b).1 h; simp
theorem optByte_ro {b : BitVec 8} (h : oko b = true) : optByte (ro b) = b := by
  obtain ⟨r, rfl⟩ := (oko_iff b).1 h; simp
theorem optPred_po {b : BitVec 8} (h : okpo b = true) : optPred (po b) = b := by
  obtain ⟨r, rfl⟩ := (okpo_iff b).1 h; simp
theorem sbcCode_sbcOf {b : BitVec 3} (h : okc b = true) : sbcCode (sbcOf b) = b := by
  obtain ⟨r, rfl⟩ := (okc_iff b).1 h; simp
theorem kByte_kOf {b : BitVec 8} (h : okk b = true) : kByte (kOf b) = b := by
  obtain ⟨r, rfl⟩ := (okk_iff b).1 h; simp

@[simp] theorem rmCode_rn : rmCode .rn = 0#3 := rfl
@[simp] theorem sbcOf_seven : sbcOf 7#3 = none := rfl
@[simp] theorem sbcCode_none : sbcCode none = 7#3 := rfl
@[simp] theorem smodCode_none : smodCode .none = 0#2 := rfl
theorem subBit_zero : ∀ {u : BitVec 5}, u.extractLsb' 1 4 = 0#4 → subBit (bitAt u 0) 0 = u := by decide
theorem subBits_low : ∀ {u : BitVec 5}, u.extractLsb' 2 3 = 0#3 → subBit (bitAt u 0) 0 ||| subBit (bitAt u 1) 1 = u := by decide

@[simp] theorem axTt_append (rm ty : BitVec 3) (ma : BitVec 2) (sc : BitVec 8) : axTt (rm ++ ty ++ ma) sc =
    { sc := sc, rm := rm, ty := ty, ma := ma, mb := 0, sat := false, ftz := false, sub := 0 } := by
  have h : ∀ i n, BitVec.extractLsb' (n := 8) i n (rm ++ ty ++ ma) = (rm ++ ty ++ ma).extractLsb' i n := fun _ _ => rfl
  simp [axTt, h, BitVec.extractLsb'_append_eq_of_le, BitVec.extractLsb'_append_eq_of_add_le, -Nat.reduceAdd]

@[simp] theorem axSel_append (rm ty : BitVec 3) (ma : BitVec 2) (u : BitVec 5) : axSel (rm ++ ty ++ ma) u =
    { sc := 0xFF, rm := rm, ty := ty, ma := ma, mb := 0, sat := false, ftz := false, sub := u } := by
  have h : ∀ i n, BitVec.extractLsb' (n := 8) i n (rm ++ ty ++ ma) = (rm ++ ty ++ ma).extractLsb' i n := fun _ _ => rfl
  simp [axSel, h, BitVec.extractLsb'_append_eq_of_le, BitVec.extractLsb'_append_eq_of_add_le, -Nat.reduceAdd]

/-- Every write of a system register has one form, whichever row its selector names (R392). -/
theorem encodeRaw_syswr (h : Hdr) (d t v : Reg) (sel : BitVec 8) :
    encodeRaw (if sel = 0x1A then .faultResolve h d t v
        else if sel = 0x00 then .ctxStat h d t v
        else if sel = 0x05 then .ctxPrqHead h d t v
        else if sel = 0x09 then .ctxFqHead h d t v
        else if sel = 0x10 then .ctxNqHead h d t v
        else if sel = 0x28 then .ptCtl h d t v
        else if 0x29 ≤ sel.toNat ∧ sel.toNat ≤ 0x2F then .ptEntryWrite h d t v sel
        else .syswrWrite h d t v sel) = fullA 0xE0 h (regByte d) (regByte t) (regByte v) (axSel sel 0) := by
  split_ifs <;> simp [encodeRaw, *]

theorem ityCode_imadw : ∀ {b : BitVec 3}, b = 2#3 ∨ b = 6#3 → (if b = 2#3 then 2#3 else 6#3) = b := by decide
theorem ityCode_idot4 : ∀ {b : BitVec 3}, b = 0#3 ∨ b = 4#3 → (if b = 0#3 then 0#3 else 4#3) = b := by decide

theorem low_of_high16 {v : BitVec 32} (h : v.extractLsb' 16 16 = 0#16) : 0#16 ++ v.extractLsb' 0 16 = v := by
  rw [← h]
  exact (BitVec.extractLsb'_append_extractLsb'_eq_extractLsb' rfl).trans BitVec.extractLsb'_eq_self
theorem low_of_high26 {v : BitVec 32} (h : v.extractLsb' 6 26 = 0#26) : 0#26 ++ v.extractLsb' 0 6 = v := by
  rw [← h]
  exact (BitVec.extractLsb'_append_extractLsb'_eq_extractLsb' rfl).trans BitVec.extractLsb'_eq_self

@[simp] theorem imm_high (a : BitVec 7) (b : BitVec 25) : BitVec.extractLsb' (n := 32) 25 7 (a ++ b) = a :=
  BitVec.extractLsb'_append_eq_left
@[simp] theorem imm_low (a : BitVec 7) (b : BitVec 25) : BitVec.extractLsb' (n := 32) 0 25 (a ++ b) = b :=
  BitVec.extractLsb'_append_eq_right
theorem imm_parts {v : BitVec 32} : v.extractLsb' 25 7 ++ v.extractLsb' 0 25 = v :=
  (BitVec.extractLsb'_append_extractLsb'_eq_extractLsb' rfl).trans BitVec.extractLsb'_eq_self
theorem byte_top (v : BitVec 8) : BitVec.ofBool (bitAt v 7) ++ v.extractLsb' 0 7 = v := by
  rw [ofBool_bitAt]
  exact (BitVec.extractLsb'_append_extractLsb'_eq_extractLsb' rfl).trans BitVec.extractLsb'_eq_self
theorem byte_top_clear {v : BitVec 8} (h : bitAt v 7 = false) : 0#1 ++ v.extractLsb' 0 7 = v := by
  have := byte_top v
  rwa [h] at this

theorem encodeRaw_of_decodeInt {op : Nat} {r : Raw} {a : AX} {i : Instr} (hop : r.op = BitVec.ofNat 8 op) (hx : r.x = a.pack)
    (h : decodeInt op r a = some (true, i)) : encodeRaw i = r := by
  obtain ⟨b, w, _, n, g, dst, sa, sb, _⟩ := r
  obtain ⟨sc, rm, ty, ma, mb, sat, ftz, sub⟩ := a
  simp only at hop hx
  subst hop hx
  unfold decodeInt at h
  split at h
  case h_6 | h_32 =>
    simp only [req_eq_some, Prod.mk.injEq] at h
    obtain ⟨hc, hok, rfl⟩ := h
    simp [AX.plain] at hc hok
    simp [encodeRaw, fullA, full, Raw.hdr, axInt, *, regByte_rd, subBit_zero, ityCode_imadw, ityCode_idot4]
  case h_7 =>
    simp only [req_eq_some, Prod.mk.injEq] at h
    obtain ⟨hc, hok, rfl⟩ := h
    simp at hc hok
    by_cases hs : sub = 0#5 <;> simp [hs] at hc hok
    all_goals simp [encodeRaw, fullA, full, Raw.hdr, axInt, *, regByte_rd, predByte_pr, subBits_low, optPred]
  case h_27 | h_33 =>
    simp only [Option.bind_eq_some_iff, icondOf_eq_some, vtosOf_eq_some, req_eq_some, Prod.mk.injEq] at h
    obtain ⟨c, rfl, hc, hok, rfl⟩ := h
    simp at hc hok
    simp [encodeRaw, fullA, full, Raw.hdr, axInt, *, regByte_rd, predByte_pr]
  case h_30 =>
    simp only at h
    split_ifs at h
    all_goals
      simp only [req_eq_some, Prod.mk.injEq] at h
      obtain ⟨hc, hok, rfl⟩ := h
      simp at hc hok
      simp [encodeRaw, full, Raw.hdr, *, regByte_rd, byte_top, byte_top_clear]
  case h_34 =>
    split at h
    next =>
      simp only [req_eq_some, Prod.mk.injEq] at h
      obtain ⟨hc, hok, rfl⟩ := h
      simp at hc hok
      simp [encodeRaw, fullA, full, Raw.hdr, axInt, *, regByte_rd]
    next => simp at h
  case h_35 => simp at h
  all_goals
    simp only [req_eq_some, Prod.mk.injEq] at h
    obtain ⟨hc, hok, rfl⟩ := h
    simp [AX.plain] at hc hok
    simp [encodeRaw, fullA, full, Raw.hdr, axInt, *, regByte_rd, predByte_pr, subBit_zero]

theorem encodeRaw_of_decodeControl {op : Nat} {r : Raw} {c : CX} {i : Instr} (hop : r.op = BitVec.ofNat 8 op) (hc : r.low = c.pack)
    (h : decodeControl op r c = some (true, i)) : encodeRaw i = r := by
  obtain ⟨b, w, _, n, g, dst, _, _, _⟩ := r
  obtain ⟨rfl, rfl, rfl⟩ := And.intro ((congrArg lowSa hc).symm.trans (Raw.lowSa_low _))
    (And.intro ((congrArg lowSb hc).symm.trans (Raw.lowSb_low _)) ((congrArg lowX hc).symm.trans (Raw.lowX_low _)))
  obtain ⟨u, prio, res, off⟩ := c
  simp only at hop
  subst hop
  clear hc
  unfold decodeControl at h
  split at h
  case h_16 => simp at h
  all_goals
    simp only [req_eq_some, Prod.mk.injEq] at h
    obtain ⟨hc, hok, rfl⟩ := h
    simp at hc hok
    simp [encodeRaw, fullC, full, Raw.hdr, cx, *, regByte_rd, kByte_kOf, low_of_high16, low_of_high26, -BitVec.toFin_extractLsb']


theorem encodeRaw_of_decodeFloat {op : Nat} {r : Raw} {a : AX} {i : Instr} (hop : r.op = BitVec.ofNat 8 op) (hx : r.x = a.pack)
    (h : decodeFloat op r a = some (true, i)) : encodeRaw i = r := by
  obtain ⟨b, w, _, n, g, dst, sa, sb, _⟩ := r
  obtain ⟨sc, _, _, ma, mb, sat, ftz, sub⟩ := a
  simp only at hop hx
  subst hop hx
  simp only [decodeFloat, Option.bind_eq_some_iff, rmOf_eq_some, ftyOf_eq_some] at h
  obtain ⟨rm, rfl, ty, rfl, h⟩ := h
  split at h
  case h_33 => simp at h
  case h_7 =>
    simp [Option.bind_eq_some_iff, fcondOf_eq_some] at h
    obtain ⟨c, rfl, hc, hok, rfl⟩ := h
    simp [encodeRaw, fullA, full, Raw.hdr, axFlt, hc, hok, regByte_rd, predByte_pr]
  all_goals
    simp [-Bool.not_eq_true] at h
    obtain ⟨hc, hok, rfl⟩ := h
    simp [encodeRaw, fullA, full, Raw.hdr, axFlt, hc, hok, regByte_rd, subBit_zero]


theorem sub_cvt : ∀ {u : BitVec 5}, BitVec.ofBool (bitAt u 4) ++ u.extractLsb' 0 4 = u := by decide
theorem sub_blkenc : ∀ {u : BitVec 5}, u.extractLsb' 3 2 = 0#2 → 0#2 ++ u.extractLsb' 0 3 = u := by decide
theorem sub_blkdec : ∀ {u : BitVec 5}, u.extractLsb' 3 2 = 0#2 → u.extractLsb' 0 2 = 0#2 → subBit (bitAt u 2) 2 = u := by decide
theorem sub_blkhdrChk : ∀ {u : BitVec 5}, bitAt u 4 = true → u.extractLsb' 0 2 = 0#2 →
    1#1 ++ BitVec.ofBool (bitAt u 3) ++ BitVec.ofBool (bitAt u 2) ++ 0#2 = u := by decide
theorem sub_blkhdrMake : ∀ {u : BitVec 5}, bitAt u 4 = false → 0#1 ++ BitVec.ofBool (bitAt u 3) ++ u.extractLsb' 0 3 = u := by decide
theorem sub_redl : ∀ {u : BitVec 5}, bitAt u 3 = false → BitVec.ofBool (bitAt u 4) ++ 0#1 ++ u.extractLsb' 0 3 = u := by decide
theorem sub_prfx : ∀ {u : BitVec 5}, BitVec.ofBool (bitAt u 4) ++ BitVec.ofBool (bitAt u 3) ++ u.extractLsb' 0 3 = u := by decide
theorem sub_shfl : ∀ {u : BitVec 5}, u.extractLsb' 2 3 ++ u.extractLsb' 0 2 = u := by decide
theorem sub_quad : ∀ {u : BitVec 5}, u.extractLsb' 2 3 = 0#3 → 0#3 ++ u.extractLsb' 0 2 = u := by decide

theorem off_atom {v : BitVec 12} :
    v.extractLsb' 8 4 ++ BitVec.ofBool (bitAt v 7) ++ v.extractLsb' 0 7 = v := by
  simp only [ofBool_bitAt]
  simp (disch := rfl) only [BitVec.extractLsb'_append_extractLsb'_eq_extractLsb', -Nat.reduceAdd]
  exact BitVec.extractLsb'_eq_self

theorem off_atom_zero {v : BitVec 12} (h : v.extractLsb' 8 4 = 0#4) : 0#4 ++ BitVec.ofBool (bitAt v 7) ++ v.extractLsb' 0 7 = v := by
  rw [← h]
  exact off_atom
theorem smodCode_vote : ∀ {b : BitVec 2}, b = 0#2 ∨ b = 1#2 → smodCode (if b = 1#2 then .neg else .none) = b := by decide
theorem scopeCode_gsync : ∀ {b : BitVec 2}, b = 0#2 ∨ b = 1#2 → scopeCode (if b = 1#2 then .cove else .grp) = b := by decide
@[simp] theorem scopeCode_grp : scopeCode .grp = 0#2 := rfl

theorem rest_copy {v : BitVec 18} (h0 : v.extractLsb' 0 5 = 0#5) :
    BitVec.ofBool (bitAt v 17) ++ v.extractLsb' 15 2 ++ v.extractLsb' 7 8 ++ BitVec.ofBool (bitAt v 6) ++ BitVec.ofBool (bitAt v 5) ++ 0#5 = v := by
  rw [← h0]
  simp only [ofBool_bitAt]
  simp (disch := rfl) only [BitVec.extractLsb'_append_extractLsb'_eq_extractLsb', -Nat.reduceAdd]
  exact BitVec.extractLsb'_eq_self

theorem rest_waitsb {v : BitVec 18} (h0 : v.extractLsb' 6 12 = 0#12) :
    0#12 ++ v.extractLsb' 0 6 = v := by
  rw [← h0]
  simp (disch := rfl) only [BitVec.extractLsb'_append_extractLsb'_eq_extractLsb', -Nat.reduceAdd]
  exact BitVec.extractLsb'_eq_self

theorem rest_cpyq {v : BitVec 18} (h0 : v.extractLsb' 1 17 = 0#17) :
    0#17 ++ BitVec.ofBool (bitAt v 0) = v := by
  rw [← h0]
  simp only [ofBool_bitAt]
  simp (disch := rfl) only [BitVec.extractLsb'_append_extractLsb'_eq_extractLsb', -Nat.reduceAdd]
  exact BitVec.extractLsb'_eq_self

theorem rest_mxa {v : BitVec 18} (h0 : v.extractLsb' 0 10 = 0#10) :
    BitVec.ofBool (bitAt v 17) ++ v.extractLsb' 14 3 ++ BitVec.ofBool (bitAt v 13) ++ v.extractLsb' 10 3 ++ 0#10 = v := by
  rw [← h0]
  simp only [ofBool_bitAt]
  simp (disch := rfl) only [BitVec.extractLsb'_append_extractLsb'_eq_extractLsb', -Nat.reduceAdd]
  exact BitVec.extractLsb'_eq_self

theorem rest_mxb {v : BitVec 18} (h0 : v.extractLsb' 0 10 = 0#10) (h1 : bitAt v 13 = false) :
    BitVec.ofBool (bitAt v 17) ++ v.extractLsb' 14 3 ++ 0#1 ++ v.extractLsb' 10 3 ++ 0#10 = v := by
  have := rest_mxa h0
  rwa [h1] at this

theorem rest_mxspm {v : BitVec 18} (h0 : v.extractLsb' 0 16 = 0#16) :
    BitVec.ofBool (bitAt v 17) ++ BitVec.ofBool (bitAt v 16) ++ 0#16 = v := by
  rw [← h0]
  simp only [ofBool_bitAt]
  simp (disch := rfl) only [BitVec.extractLsb'_append_extractLsb'_eq_extractLsb', -Nat.reduceAdd]
  exact BitVec.extractLsb'_eq_self

theorem rest_mxrun {v : BitVec 18} (h0 : v.extractLsb' 0 13 = 0#13) :
    v.extractLsb' 15 3 ++ v.extractLsb' 13 2 ++ 0#13 = v := by
  rw [← h0]
  simp (disch := rfl) only [BitVec.extractLsb'_append_extractLsb'_eq_extractLsb', -Nat.reduceAdd]
  exact BitVec.extractLsb'_eq_self

theorem rest_mxz {v : BitVec 18} (h0 : v.extractLsb' 0 15 = 0#15) :
    v.extractLsb' 15 3 ++ 0#15 = v := by
  rw [← h0]
  simp (disch := rfl) only [BitVec.extractLsb'_append_extractLsb'_eq_extractLsb', -Nat.reduceAdd]
  exact BitVec.extractLsb'_eq_self

theorem rest_mxst {v : BitVec 18} (h0 : v.extractLsb' 0 10 = 0#10) :
    v.extractLsb' 15 3 ++ BitVec.ofBool (bitAt v 14) ++ v.extractLsb' 12 2 ++ v.extractLsb' 10 2 ++ 0#10 = v := by
  rw [← h0]
  simp only [ofBool_bitAt]
  simp (disch := rfl) only [BitVec.extractLsb'_append_extractLsb'_eq_extractLsb', -Nat.reduceAdd]
  exact BitVec.extractLsb'_eq_self

theorem rest_mxpair {v : BitVec 18} (h0 : v.extractLsb' 0 17 = 0#17) :
    BitVec.ofBool (bitAt v 17) ++ 0#17 = v := by
  rw [← h0]
  simp only [ofBool_bitAt]
  simp (disch := rfl) only [BitVec.extractLsb'_append_extractLsb'_eq_extractLsb', -Nat.reduceAdd]
  exact BitVec.extractLsb'_eq_self

theorem rest_xbulk {v : BitVec 18} (h0 : v.extractLsb' 0 6 = 0#6) :
    v.extractLsb' 8 10 ++ BitVec.ofBool (bitAt v 7) ++ BitVec.ofBool (bitAt v 6) ++ 0#6 = v := by
  rw [← h0]
  simp only [ofBool_bitAt]
  simp (disch := rfl) only [BitVec.extractLsb'_append_extractLsb'_eq_extractLsb', -Nat.reduceAdd]
  exact BitVec.extractLsb'_eq_self

theorem swizzle_high : ∀ {ma mb : BitVec 2}, bitAt ma 1 = false → 0#1 ++ (ma.extractLsb' 0 1 ++ mb : BitVec 3).extractLsb' 2 1 = ma := by decide
theorem swizzle_low : ∀ {ma mb : BitVec 2}, (ma.extractLsb' 0 1 ++ mb : BitVec 3).extractLsb' 0 2 = mb := by decide

theorem ityOf_eq_iff (b t) : ityOf b = t ↔ ityCode t = b := ⟨fun h => h ▸ ityCode_ityOf b, fun h => h ▸ ityOf_ityCode t⟩

theorem cvtSrcOf_eq_some (f : Bool) (b : BitVec 3) (t : CvtTy) : cvtSrcOf f b = some t ↔ cvtSrcFlt t = f ∧ cvtSrcCode t = b := by
  cases f <;> cases t <;> simp [cvtSrcOf, cvtSrcFlt, cvtSrcCode, ftyOf_eq_some, ityOf_eq_iff]

theorem redTyOf_eq_some (f : Bool) (b : BitVec 3) (t : RedTy) : redTyOf f b = some t ↔ redTyFlt t = f ∧ redTyCode t = b := by
  cases f <;> cases t <;> simp [redTyOf, redTyFlt, redTyCode, ftyOf_eq_some, ityOf_eq_iff]

theorem encodeRaw_of_decodeConv {op : Nat} {r : Raw} {a : AX} {i : Instr} (hop : r.op = BitVec.ofNat 8 op) (hx : r.x = a.pack)
    (h : decodeConv op r a = some (true, i)) : encodeRaw i = r := by
  obtain ⟨b, w, _, n, g, dst, sa, sb, _⟩ := r
  obtain ⟨sc, _, ty, ma, mb, sat, ftz, sub⟩ := a
  simp only at hop hx
  subst hop hx
  simp only [decodeConv, Option.bind_eq_some_iff, rmOf_eq_some] at h
  obtain ⟨rm, rfl, h⟩ := h
  split at h
  case h_1 =>
    simp only [Option.bind_eq_some_iff, cvtDstOf_eq_some, cvtSrcOf_eq_some, req_eq_some, Prod.mk.injEq] at h
    obtain ⟨dt, hdt, st, ⟨hf, rfl⟩, hc, hok, rfl⟩ := h
    simp at hc hok
    simp [encodeRaw, fullA, full, Raw.hdr, axFlt, *, regByte_rd, sub_cvt]
  case h_2 =>
    simp only [Option.bind_eq_some_iff, packKindOf_eq_some, req_eq_some, Prod.mk.injEq] at h
    obtain ⟨k, rfl, hc, hok, rfl⟩ := h
    simp at hc hok
    simp [encodeRaw, fullA, full, Raw.hdr, axFlt, *, regByte_rd]
  case h_3 =>
    simp only [Option.bind_eq_some_iff, bfmtOf_eq_some, req_eq_some, Prod.mk.injEq] at h
    obtain ⟨k, hk, hc, hok, rfl⟩ := h
    simp at hc hok
    simp [encodeRaw, fullA, full, Raw.hdr, axBlk, *, regByte_rd, optByte_ro, swizzle_low, swizzle_high, sub_blkenc]
  case h_4 =>
    simp only [req_eq_some, Prod.mk.injEq] at h
    obtain ⟨hc, hok, rfl⟩ := h
    simp at hc hok
    simp [encodeRaw, fullA, full, Raw.hdr, axBlk, *, regByte_rd, swizzle_low, swizzle_high, sub_blkdec]
  case h_5 =>
    split at h
    next hs =>
      simp only [req_eq_some, Prod.mk.injEq] at h
      obtain ⟨hc, hok, rfl⟩ := h
      simp at hc hok
      simp [encodeRaw, fullA, full, Raw.hdr, axBlk, *, regByte_rd, swizzle_low, swizzle_high, sub_blkhdrChk]
    next hs =>
      simp only [Option.bind_eq_some_iff, bfmtOf_eq_some, req_eq_some, Prod.mk.injEq] at h
      obtain ⟨k, hk, hc, hok, rfl⟩ := h
      simp at hs hc hok
      simp [encodeRaw, fullA, full, Raw.hdr, axBlk, *, regByte_rd, swizzle_low, swizzle_high, sub_blkhdrMake]
  case h_6 => simp at h

theorem encodeRaw_of_decodeMem {op : Nat} {r : Raw} {m : MX} {i : Instr} (hop : r.op = BitVec.ofNat 8 op) (hx : r.x = m.pack)
    (h : decodeMem op r m = some (true, i)) : encodeRaw i = r := by
  obtain ⟨b, w, _, n, g, dst, sa, sb, _⟩ := r
  obtain ⟨sbc, scale, _, scope, ord, hint, off⟩ := m
  simp only at hop hx
  subst hop hx
  simp only [decodeMem, Option.bind_eq_some_iff, widthOf_eq_some] at h
  obtain ⟨width, rfl, h⟩ := h
  split at h
  case h_9 =>
    split_ifs at h
    all_goals
      simp only [req_eq_some, Prod.mk.injEq] at h
      obtain ⟨hc, hok, rfl⟩ := h
      simp [okc] at hok
      simp [hok] at hc
      simp [encodeRaw, fullM, fullBare, full, Raw.hdr, MX.mem, *, regByte_rd, optByte_ro]
  case h_10 =>
    split_ifs at h
    all_goals
      simp only [req_eq_some, Prod.mk.injEq] at h
      obtain ⟨hc, hok, rfl⟩ := h
      simp [okc] at hok
      simp [hok] at hc
      simp [encodeRaw, fullBare, full, Raw.hdr, *]
  case h_14 | h_16 =>
    simp only [Option.bind_eq_some_iff, aopOf_eq_some, req_eq_some, Prod.mk.injEq] at h
    obtain ⟨k, hk, hc, hok, rfl⟩ := h
    simp at hc hok
    simp [encodeRaw, fullAtom, full, Raw.hdr, MX.atom, *, regByte_rd, optByte_ro, sbcCode_sbcOf, off_atom]
  case h_15 =>
    simp only [req_eq_some, Prod.mk.injEq] at h
    obtain ⟨hc, hok, rfl⟩ := h
    simp at hc hok
    simp [encodeRaw, fullAtom, full, Raw.hdr, MX.atom, *, regByte_rd, sbcCode_sbcOf, off_atom_zero]
  case h_22 | h_25 =>
    simp only [req_eq_some, Prod.mk.injEq] at h
    obtain ⟨hc, hok, rfl⟩ := h
    simp [okc] at hok
    simp [hok] at hc
    simp [encodeRaw, fullBare, full, Raw.hdr, scopeCode_gsync, *]
  case h_26 => simp at h
  all_goals
    simp only [req_eq_some, Prod.mk.injEq] at h
    obtain ⟨hc, hok, rfl⟩ := h
    simp [-Bool.or_eq_true, -bne_iff_ne] at hc hok
    simp [encodeRaw, fullM, full, Raw.hdr, MX.mem, *, regByte_rd, optByte_ro, sbcCode_sbcOf]
theorem encodeRaw_of_decodeCross {op : Nat} {r : Raw} {a : AX} {i : Instr} (hop : r.op = BitVec.ofNat 8 op) (hx : r.x = a.pack)
    (h : decodeCross op r a = some (true, i)) : encodeRaw i = r := by
  obtain ⟨b, w, _, n, g, dst, sa, sb, _⟩ := r
  obtain ⟨sc, rm, ty, ma, mb, sat, ftz, sub⟩ := a
  simp only at hop hx
  subst hop hx
  unfold decodeCross at h
  split at h
  case h_1 =>
    split at h
    next hs =>
      simp only [req_eq_some, Prod.mk.injEq] at h
      obtain ⟨hc, hok, rfl⟩ := h
      simp at hc hok
      simp [encodeRaw, fullA, full, Raw.hdr, axInt, *, regByte_rd, optPred_po, sub_shfl, -BitVec.extractLsb'_toNat]
    next => simp at h
  case h_2 =>
    simp only [req_eq_some, Prod.mk.injEq] at h
    obtain ⟨hc, hok, rfl⟩ := h
    simp at hc hok
    simp [encodeRaw, fullA, full, Raw.hdr, axInt, *, regByte_rd, optPred_po]
  case h_3 =>
    simp only [Option.bind_eq_some_iff, voteOf_eq_some, req_eq_some] at h
    obtain ⟨m, rfl, hc, h⟩ := h
    split at h
    all_goals
      simp only [Prod.mk.injEq] at h
      obtain ⟨hok, rfl⟩ := h
      simp at hc hok
      simp [encodeRaw, fullA, full, Raw.hdr, axFlt, *, regByte_rd, predByte_pr, smodCode_vote]
  case h_4 | h_5 =>
    simp only [Option.bind_eq_some_iff, redTyOf_eq_some, redOpOf_eq_some, rmOf_eq_some, req_eq_some, Prod.mk.injEq] at h
    obtain ⟨t, ⟨ht, rfl⟩, o, ho, rm, rfl, hc, hok, rfl⟩ := h
    simp at hc hok
    simp [encodeRaw, fullA, full, Raw.hdr, axFlt, *, regByte_rd, sub_redl, sub_prfx]
  case h_6 =>
    simp only [Option.bind_eq_some_iff, matchOf_eq_some, req_eq_some, Prod.mk.injEq] at h
    obtain ⟨m, rfl, hc, hok, rfl⟩ := h
    simp at hc hok
    simp [encodeRaw, fullA, full, Raw.hdr, axInt, *, regByte_rd]
  case h_9 =>
    simp only at h
    split_ifs at h
    all_goals
      simp only [req_eq_some, Prod.mk.injEq] at h
      obtain ⟨hc, hok, rfl⟩ := h
      simp at hc hok
      simp [encodeRaw, fullA, full, Raw.hdr, axInt, *, regByte_rd]
  case h_10 => simp at h
  all_goals
    simp only [req_eq_some, Prod.mk.injEq] at h
    obtain ⟨hc, hok, rfl⟩ := h
    simp at hc hok
    simp [encodeRaw, fullA, full, Raw.hdr, axInt, *, regByte_rd, sub_quad, -BitVec.toFin_extractLsb']

theorem encodeRaw_of_decodePriv {op : Nat} {r : Raw} {a : AX} {i : Instr} (hop : r.op = BitVec.ofNat 8 op) (hx : r.x = a.pack)
    (h : decodePriv op r a = some (true, i)) : encodeRaw i = r := by
  obtain ⟨b, w, _, n, g, dst, sa, sb, _⟩ := r
  obtain ⟨sc, rm, ty, ma, mb, sat, ftz, sub⟩ := a
  simp only at hop hx
  subst hop hx
  unfold decodePriv at h
  split at h
  case h_12 => simp at h
  case h_1 =>
    by_cases h0 : sub = 0
    · simp only [h0, if_true, req_eq_some, Prod.mk.injEq] at h
      obtain ⟨hc, hok, rfl⟩ := h
      rw [encodeRaw_syswr]
      simp at hc hok
      simp [fullA, full, Raw.hdr, *, regByte_rd]
    · simp only [h0, if_false] at h
      split_ifs at h
      simp only [req_eq_some, Prod.mk.injEq] at h
      obtain ⟨hc, hok, rfl⟩ := h
      simp at hc hok
      simp [encodeRaw, fullA, full, Raw.hdr, *, regByte_rd]
  all_goals
    simp only at h
    try split_ifs at h
    all_goals
      simp only [req_eq_some, Prod.mk.injEq] at h
      obtain ⟨hc, hok, rfl⟩ := h
      simp at hc hok
      simp [encodeRaw, fullA, full, Raw.hdr, axInt, *, regByte_rd, optByte_ro]
theorem mconvOf_eq_some (cv rm : BitVec 2) (c : MConv) : mconvOf cv rm = some c ↔ mconvCv c = cv ∧ mconvRm c = rm ∧ c ≠ .f16 .rs ∧ c ≠ .bf16 .rs := by
  rcases c with _ | r | r
  · revert cv rm; decide
  · cases r <;> revert cv rm <;> decide
  · cases r <;> revert cv rm <;> decide

theorem sbcCode_waitsb : ∀ {b : BitVec 3}, okc b = true → b ≠ 7#3 → sbcCode (some ((sbcOf b).getD 0)) = b := by decide

theorem eq_of_ne_three : ∀ b : BitVec 2, b ≠ 3#2 → b = 0#2 ∨ b = 1#2 ∨ b = 2#2 := by decide

theorem exCopy_copyOf {r : Raw} {e : EX} (h3 : e.rest.extractLsb' 15 2 ≠ 3#2) (h0 : e.rest.extractLsb' 0 5 = 0#5)
    (hn : e.rest.extractLsb' 15 2 ≠ 0#2 ∨ e.rest.extractLsb' 7 8 = 0xFF#8)
    (hr : e.rest.extractLsb' 15 2 = 0#2 ∨ okb (e.rest.extractLsb' 7 8) = true) (hc : okc e.sbc = true) : exCopy (copyOf r e) = e := by
  obtain ⟨gran, sbc, rest⟩ := e
  simp only at h3 h0 hn hr hc
  have hrest := rest_copy h0
  rcases eq_of_ne_three _ h3 with hf | hf | hf
  all_goals
    simp only [hf] at hn hr hrest
    simp at hn hr
    simp [exCopy, copyOf, hf, hr, regByte_rd, sbcCode_sbcOf hc]
    simpa [hn] using hrest

@[simp] theorem copyOf_dst (r : Raw) (e : EX) : (copyOf r e).dst = rd r.dst := rfl
@[simp] theorem copyOf_src (r : Raw) (e : EX) : (copyOf r e).src = rd r.sa := rfl
@[simp] theorem copyOf_size (r : Raw) (e : EX) : (copyOf r e).size = rd r.sb := rfl

theorem encodeRaw_of_decodeEngine {op : Nat} {r : Raw} {e : EX} {i : Instr} (hop : r.op = BitVec.ofNat 8 op) (hx : r.x = e.pack)
    (h : decodeEngine op r e = some (true, i)) : encodeRaw i = r := by
  obtain ⟨b, w, _, n, g, dst, sa, sb, _⟩ := r
  obtain ⟨gran, sbc, rest⟩ := e
  simp only at hop hx
  subst hop hx
  unfold decodeEngine at h
  split at h
  case h_1 | h_2 | h_3 | h_4 | h_5 =>
    simp only [req_eq_some, Prod.mk.injEq] at h
    obtain ⟨hc, hok, rfl⟩ := h
    simp at hc hok
    obtain ⟨⟨h3, h0⟩, hn⟩ := hc
    obtain ⟨hreg, hr⟩ := hok
    simp [encodeRaw, encodeCopy, exCopy_copyOf (e := ⟨gran, sbc, rest⟩) h3 h0 hn hr hreg.2, fullE, full, Raw.hdr, hreg, regByte_rd]
  case h_6 =>
    simp only [req_eq_some, Prod.mk.injEq] at h
    obtain ⟨hc, hok, rfl⟩ := h
    simp at hc hok
    simp [encodeRaw, fullE, full, Raw.hdr, *, sbcCode_waitsb, rest_waitsb, -BitVec.toFin_extractLsb']
  case h_7 =>
    simp only [req_eq_some, Prod.mk.injEq] at h
    obtain ⟨hc, hok, rfl⟩ := h
    simp [okc] at hc hok
    simp [encodeRaw, fullE, full, Raw.hdr, exIdle, *, regByte_rd, rest_cpyq]
  case h_8 | h_9 =>
    simp only [Option.bind_eq_some_iff, mfmtOf_eq_some, req_eq_some, Prod.mk.injEq] at h
    obtain ⟨f, hf, hc, hok, rfl⟩ := h
    simp [okc] at hok
    simp [hok] at hc
    simp [encodeRaw, fullE, full, Raw.hdr, exIdle, *, regByte_rd, rest_mxa, rest_mxb, -BitVec.toFin_extractLsb']
  case h_11 =>
    simp only [req_eq_some, Prod.mk.injEq] at h
    obtain ⟨hc, hok, rfl⟩ := h
    simp [okc] at hok
    simp [hok] at hc
    obtain ⟨⟨⟨hidle, hlow⟩, ha⟩, hb⟩ := hc
    have hrest := rest_mxspm hlow
    by_cases hsa : sa = 255#8 <;> by_cases hsb : sb = 255#8 <;> simp [hsa, hsb, oko] at ha hb hok
    all_goals
      simp [ha, hb] at hrest
      simp [encodeRaw, fullE, full, Raw.hdr, exIdle, *, regByte_rd]
  case h_12 =>
    simp only [req_eq_some, Prod.mk.injEq] at h
    obtain ⟨hc, hok, rfl⟩ := h
    simp at hc hok
    obtain ⟨⟨hbytes, hlow⟩, hd⟩ := hc
    have hrest := rest_mxrun hlow
    by_cases hf : rest.extractLsb' 13 2 = 0#2 <;> simp [hf] at hd hok
    all_goals
      simp [hf] at hrest
      simp [encodeRaw, fullE, full, Raw.hdr, *, regByte_rd, sbcCode_sbcOf, optByte, -BitVec.toFin_extractLsb']
  case h_16 | h_17 =>
    simp only [Option.bind_eq_some_iff, mcntOf_eq_some, req_eq_some, Prod.mk.injEq] at h
    obtain ⟨f, hf, hc, hok, rfl⟩ := h
    simp [okc] at hok
    simp [hok] at hc
    simp [encodeRaw, fullE, full, Raw.hdr, exIdle, *, regByte_rd, rest_mxrun, -BitVec.toFin_extractLsb']
  case h_18 =>
    simp only [Option.bind_eq_some_iff, mconvOf_eq_some, req_eq_some, Prod.mk.injEq] at h
    obtain ⟨f, ⟨hcv, hrm, -⟩, hc, hok, rfl⟩ := h
    simp at hc hok
    simp [encodeRaw, fullE, full, Raw.hdr, *, regByte_rd, sbcCode_sbcOf, rest_mxst, -BitVec.toFin_extractLsb']
  case h_19 =>
    simp only [req_eq_some, Prod.mk.injEq] at h
    obtain ⟨hc, hok, rfl⟩ := h
    simp [okc] at hok
    simp [hok] at hc
    have hrest := rest_mxpair hc.2
    split
    next hb =>
      simp [hb] at hrest
      simp [encodeRaw, fullE, full, Raw.hdr, exIdle, hc, ← hrest]
    next hb =>
      simp [hb] at hrest
      simp [encodeRaw, fullE, full, Raw.hdr, exIdle, hc, ← hrest]
  case h_21 =>
    simp only [req_eq_some, Prod.mk.injEq] at h
    obtain ⟨hc, hok, rfl⟩ := h
    simp at hc hok
    simp [encodeRaw, fullE, full, Raw.hdr, *, regByte_rd, sbcCode_sbcOf, rest_xbulk, -BitVec.toFin_extractLsb']
  case h_22 => simp at h
  all_goals
    simp only [req_eq_some, Prod.mk.injEq] at h
    obtain ⟨hc, hok, rfl⟩ := h
    simp [okc] at hok
    simp [hok] at hc
    simp [encodeRaw, fullE, full, Raw.hdr, exIdle, *, regByte_rd, rest_mxz, -BitVec.toFin_extractLsb']

theorem trl_x {v : BitVec 25} (h : v.extractLsb' 0 17 = 0#17) : v.extractLsb' 17 8 ++ 0#17 = v := by
  rw [← h]
  exact (BitVec.extractLsb'_append_extractLsb'_eq_extractLsb' rfl).trans BitVec.extractLsb'_eq_self

/-- THE DECODER READS ONLY WORDS IT CAN WRITE: a full word that is read whole is the encoding of what is read; a trailer's B, which the
decoder judges apart, is 1. -/
theorem encodeRaw_of_decodeFull {r : Raw} {i : Instr} (h : decodeFull r = some (true, i)) (hb : r.op = 0xFF → r.b = true) :
    encodeRaw i = r := by
  have hop : r.op = BitVec.ofNat 8 r.op.toNat := by simp
  unfold decodeFull at h
  simp only at h
  split_ifs at h with _ _ _ _ _ _ _ _ _ hff
  · exact encodeRaw_of_decodeControl hop (CX.pack_unpack _).symm h
  · exact encodeRaw_of_decodeInt hop (AX.pack_unpack _).symm h
  · exact encodeRaw_of_decodeFloat hop (AX.pack_unpack _).symm h
  · exact encodeRaw_of_decodeConv hop (AX.pack_unpack _).symm h
  · exact encodeRaw_of_decodeMem hop (MX.pack_unpack _).symm h
  · exact encodeRaw_of_decodeCross hop (AX.pack_unpack _).symm h
  · exact encodeRaw_of_decodeEngine hop (EX.pack_unpack _).symm h
  · exact encodeRaw_of_decodeMem hop (MX.pack_unpack _).symm h
  · exact encodeRaw_of_decodePriv hop (AX.pack_unpack _).symm h
  · rw [hff] at hop
    have hb := hb hop
    obtain ⟨b, w, op, n, g, dst, sa, sb, x⟩ := r
    simp only [req_eq_some, Prod.mk.injEq] at h hb hop
    obtain ⟨hc, hok, rfl⟩ := h
    simp at hc hok
    simp [encodeRaw, *, optByte_ro, trl_x]

/-! ### Halves of a dual word (R54, R55) -/

theorem half_parts (v : BitVec 30) :
    v.extractLsb' 24 6 ++ v.extractLsb' 21 3 ++ v.extractLsb' 13 8 ++ v.extractLsb' 5 8 ++ v.extractLsb' 0 5 = v := by
  simp (disch := rfl) only [BitVec.extractLsb'_append_extractLsb'_eq_extractLsb', -Nat.reduceAdd]
  exact BitVec.extractLsb'_eq_self

theorem encodeHalf_of_decodeHalf {v : BitVec 30} {x : Half} (h : decodeHalf v = some (true, x)) : encodeHalf x = v := by
  simp only [decodeHalf, Option.bind_eq_some_iff, hopOf_eq_some] at h
  obtain ⟨op, hop, h⟩ := h
  split_ifs at h with hc ha
  all_goals
    simp only [Option.some.injEq, Prod.mk.injEq] at h
    obtain ⟨hr, rfl⟩ := h
    simp_all [-BitVec.toFin_extractLsb']
    refine Eq.trans ?_ (half_parts v)
    simp [encodeHalf, *, regByte_rd, optByte, -BitVec.toFin_extractLsb']

theorem halfOk_takesA {x : Half} (h : halfOk x = true) : x.a.isSome = hopTakesA x.op := by
  simp [halfOk] at h
  exact h.1

theorem encodeHalf_extract (x : Half) (i n : Nat) : (encodeHalf x).extractLsb' i n =
    (hopCode x.op ++ (BitVec.ofFin x.g : BitVec 3) ++ regByte x.d ++ optByte x.a ++ x.m).extractLsb' i n := rfl

theorem decodeHalf_encodeHalf {x : Half} (h : halfOk x = true) : decodeHalf (encodeHalf x) = some (true, x) := by
  have ha := halfOk_takesA h
  obtain ⟨op, g, d, a, m⟩ := x
  simp only at ha
  cases a with
  | none =>
    simp only [Option.isSome_none] at ha
    simp [decodeHalf, encodeHalf_extract, BitVec.extractLsb'_append_eq_of_le, BitVec.extractLsb'_append_eq_of_add_le, -Nat.reduceAdd,
      ← ha, h, optByte, -BitVec.toFin_extractLsb']
  | some q =>
    simp only [Option.isSome_some] at ha
    simp [decodeHalf, encodeHalf_extract, BitVec.extractLsb'_append_eq_of_le, BitVec.extractLsb'_append_eq_of_add_le, -Nat.reduceAdd,
      ← ha, h, optByte, -BitVec.toFin_extractLsb']

end Sys2Proof
end

section
/-!
O57, encoding. Whatever row the encoder writes, the decoder reads back: one lemma per chapter's table of fields, by its rows; and then
both directions for the 64-bit word.
-/
namespace Sys2Proof
open Sys2Proof.Machine

@[simp] theorem rmOf_zero : rmOf 0#3 = some .rn := rfl
@[simp] theorem ftyOf_zero : ftyOf 0#3 = some .f32 := rfl
@[simp] theorem smodOf_zero : smodOf 0#2 = .none := rfl
@[simp] theorem scopeOf_zero : scopeOf 0#2 = .grp := rfl
@[simp] theorem widthOf_zero : widthOf 0#3 = some .w8 := rfl
@[simp] theorem okc_seven : okc 7#3 = true := rfl
@[simp] theorem tt_parts (v : BitVec 8) : v.extractLsb' 5 3 ++ v.extractLsb' 2 3 ++ v.extractLsb' 0 2 = v := by
  simp (disch := rfl) only [BitVec.extractLsb'_append_extractLsb'_eq_extractLsb', -Nat.reduceAdd]
  exact BitVec.extractLsb'_eq_self
@[simp] theorem high16_append (a b : BitVec 16) : BitVec.extractLsb' (n := 32) 16 16 (a ++ b) = a := BitVec.extractLsb'_append_eq_left
@[simp] theorem low16_append (a b : BitVec 16) : BitVec.extractLsb' (n := 32) 0 16 (a ++ b) = b := BitVec.extractLsb'_append_eq_right
@[simp] theorem high26_append (a : BitVec 26) (b : BitVec 6) : BitVec.extractLsb' (n := 32) 6 26 (a ++ b) = a := BitVec.extractLsb'_append_eq_left
@[simp] theorem low6_append (a : BitVec 26) (b : BitVec 6) : BitVec.extractLsb' (n := 32) 0 6 (a ++ b) = b := BitVec.extractLsb'_append_eq_right

@[simp] theorem bitAt_ofNat (n k i : Nat) : bitAt (BitVec.ofNat n k) i = (decide (i < n) && decide (k / 2 ^ i % 2 = 1)) := by
  simp [bitAt, BitVec.getLsbD_ofNat, Nat.testBit_eq_decide_div_mod_eq]
@[simp] theorem oko_regByte (r : Reg) : oko (regByte r) = true := by simp [oko]
theorem ofFin_eq_zero : ∀ f : Fin 4, (BitVec.ofFin f : BitVec 2) = 0#2 ↔ f = 0 := by decide
@[simp] theorem oko_none : oko 0xFF#8 = true := rfl

theorem off_atom_fields (a : BitVec 4) (o : BitVec 7) (p : Bool) :
    (a ++ BitVec.ofBool p ++ o).extractLsb' 8 4 = a ∧
    bitAt (a ++ BitVec.ofBool p ++ o) 7 = p ∧
    (a ++ BitVec.ofBool p ++ o).extractLsb' 0 7 = o := by
  simp [BitVec.extractLsb'_append_eq_of_le, BitVec.extractLsb'_append_eq_of_add_le, bitAt_append_high, bitAt_append_low, -Nat.reduceAdd]

theorem rest_copy_fields (f : BitVec 2) (g : BitVec 8) (r d s : Bool) :
    bitAt (BitVec.ofBool r ++ f ++ g ++ BitVec.ofBool d ++ BitVec.ofBool s ++ 0#5) 17 = r ∧
    (BitVec.ofBool r ++ f ++ g ++ BitVec.ofBool d ++ BitVec.ofBool s ++ 0#5).extractLsb' 15 2 = f ∧
    (BitVec.ofBool r ++ f ++ g ++ BitVec.ofBool d ++ BitVec.ofBool s ++ 0#5).extractLsb' 7 8 = g ∧
    bitAt (BitVec.ofBool r ++ f ++ g ++ BitVec.ofBool d ++ BitVec.ofBool s ++ 0#5) 6 = d ∧
    bitAt (BitVec.ofBool r ++ f ++ g ++ BitVec.ofBool d ++ BitVec.ofBool s ++ 0#5) 5 = s ∧
    (BitVec.ofBool r ++ f ++ g ++ BitVec.ofBool d ++ BitVec.ofBool s ++ 0#5).extractLsb' 0 5 = 0#5 := by
  simp [BitVec.extractLsb'_append_eq_of_le, BitVec.extractLsb'_append_eq_of_add_le, bitAt_append_high, bitAt_append_low, -Nat.reduceAdd]

theorem rest_waitsb_fields (n : BitVec 6) :
    (0#12 ++ n).extractLsb' 6 12 = 0#12 ∧
    (0#12 ++ n).extractLsb' 0 6 = n := by
  simp [BitVec.extractLsb'_append_eq_of_le, BitVec.extractLsb'_append_eq_of_add_le, -Nat.reduceAdd]

theorem rest_cpyq_fields (c : Bool) :
    (0#17 ++ BitVec.ofBool c).extractLsb' 1 17 = 0#17 ∧
    bitAt (0#17 ++ BitVec.ofBool c) 0 = c := by
  simp [BitVec.extractLsb'_append_eq_of_le, bitAt_append_low, -Nat.reduceAdd]

theorem rest_mxa_fields (f : BitVec 3) (z : BitVec 3) (s c : Bool) :
    bitAt (BitVec.ofBool s ++ f ++ BitVec.ofBool c ++ z ++ 0#10) 17 = s ∧
    (BitVec.ofBool s ++ f ++ BitVec.ofBool c ++ z ++ 0#10).extractLsb' 14 3 = f ∧
    bitAt (BitVec.ofBool s ++ f ++ BitVec.ofBool c ++ z ++ 0#10) 13 = c ∧
    (BitVec.ofBool s ++ f ++ BitVec.ofBool c ++ z ++ 0#10).extractLsb' 10 3 = z ∧
    (BitVec.ofBool s ++ f ++ BitVec.ofBool c ++ z ++ 0#10).extractLsb' 0 10 = 0#10 := by
  simp [BitVec.extractLsb'_append_eq_of_le, BitVec.extractLsb'_append_eq_of_add_le, bitAt_append_high, bitAt_append_low, -Nat.reduceAdd]

theorem rest_mxb_fields (f : BitVec 3) (z : BitVec 3) (s : Bool) :
    bitAt (BitVec.ofBool s ++ f ++ 0#1 ++ z ++ 0#10) 17 = s ∧
    (BitVec.ofBool s ++ f ++ 0#1 ++ z ++ 0#10).extractLsb' 14 3 = f ∧
    bitAt (BitVec.ofBool s ++ f ++ 0#1 ++ z ++ 0#10) 13 = false ∧
    (BitVec.ofBool s ++ f ++ 0#1 ++ z ++ 0#10).extractLsb' 10 3 = z ∧
    (BitVec.ofBool s ++ f ++ 0#1 ++ z ++ 0#10).extractLsb' 0 10 = 0#10 := by
  simp [BitVec.extractLsb'_append_eq_of_le, BitVec.extractLsb'_append_eq_of_add_le, bitAt_append_high, bitAt_append_low, -Nat.reduceAdd]

theorem rest_mxspm_fields (a b : Bool) :
    bitAt (BitVec.ofBool a ++ BitVec.ofBool b ++ 0#16) 17 = a ∧
    bitAt (BitVec.ofBool a ++ BitVec.ofBool b ++ 0#16) 16 = b ∧
    (BitVec.ofBool a ++ BitVec.ofBool b ++ 0#16).extractLsb' 0 16 = 0#16 := by
  simp [BitVec.extractLsb'_append_eq_of_add_le, bitAt_append_high, bitAt_append_low, -Nat.reduceAdd]

theorem rest_mxspm_index (b : Bool) : bitAt (0#1 ++ BitVec.ofBool b ++ 0#16) 17 = false ∧
    bitAt (0#1 ++ BitVec.ofBool b ++ 0#16) 16 = b ∧ (0#1 ++ BitVec.ofBool b ++ 0#16).extractLsb' 0 16 = 0#16 := rest_mxspm_fields false b
theorem rest_mxspm_bmap (a : Bool) : bitAt (BitVec.ofBool a ++ 0#1 ++ 0#16) 17 = a ∧
    bitAt (BitVec.ofBool a ++ 0#1 ++ 0#16) 16 = false ∧ (BitVec.ofBool a ++ 0#1 ++ 0#16).extractLsb' 0 16 = 0#16 := rest_mxspm_fields a false

theorem rest_mxrun_fields (a : BitVec 3) (f : BitVec 2) :
    (a ++ f ++ 0#13).extractLsb' 15 3 = a ∧
    (a ++ f ++ 0#13).extractLsb' 13 2 = f ∧
    (a ++ f ++ 0#13).extractLsb' 0 13 = 0#13 := by
  simp [BitVec.extractLsb'_append_eq_of_le, BitVec.extractLsb'_append_eq_of_add_le, -Nat.reduceAdd]

theorem rest_mxz_fields (a : BitVec 3) :
    (a ++ 0#15).extractLsb' 15 3 = a ∧
    (a ++ 0#15).extractLsb' 0 15 = 0#15 := by
  simp [BitVec.extractLsb'_append_eq_of_le, BitVec.extractLsb'_append_eq_of_add_le, -Nat.reduceAdd]

theorem rest_mxst_fields (a : BitVec 3) (c : BitVec 2) (r : BitVec 2) (s : Bool) :
    (a ++ BitVec.ofBool s ++ c ++ r ++ 0#10).extractLsb' 15 3 = a ∧
    bitAt (a ++ BitVec.ofBool s ++ c ++ r ++ 0#10) 14 = s ∧
    (a ++ BitVec.ofBool s ++ c ++ r ++ 0#10).extractLsb' 12 2 = c ∧
    (a ++ BitVec.ofBool s ++ c ++ r ++ 0#10).extractLsb' 10 2 = r ∧
    (a ++ BitVec.ofBool s ++ c ++ r ++ 0#10).extractLsb' 0 10 = 0#10 := by
  simp [BitVec.extractLsb'_append_eq_of_le, BitVec.extractLsb'_append_eq_of_add_le, bitAt_append_high, bitAt_append_low, -Nat.reduceAdd]

theorem rest_xbulk_fields (c : BitVec 10) (s r : Bool) :
    (c ++ BitVec.ofBool s ++ BitVec.ofBool r ++ 0#6).extractLsb' 8 10 = c ∧
    bitAt (c ++ BitVec.ofBool s ++ BitVec.ofBool r ++ 0#6) 7 = s ∧
    bitAt (c ++ BitVec.ofBool s ++ BitVec.ofBool r ++ 0#6) 6 = r ∧
    (c ++ BitVec.ofBool s ++ BitVec.ofBool r ++ 0#6).extractLsb' 0 6 = 0#6 := by
  simp [BitVec.extractLsb'_append_eq_of_le, BitVec.extractLsb'_append_eq_of_add_le, bitAt_append_high, bitAt_append_low, -Nat.reduceAdd]

theorem byte_top_fields (p : Bool) (b : BitVec 7) :
    bitAt (n := 8) (BitVec.ofBool p ++ b) 7 = p ∧ BitVec.extractLsb' (n := 8) 0 7 (BitVec.ofBool p ++ b) = b :=
  ⟨(bitAt_append_high _ _ le_rfl).trans (bitAt_ofBool p), BitVec.extractLsb'_append_eq_right⟩
theorem byte_top_fields_clear (b : BitVec 7) :
    bitAt (n := 8) (0#1 ++ b) 7 = false ∧ BitVec.extractLsb' (n := 8) 0 7 (0#1 ++ b) = b := byte_top_fields false b
theorem trl_x_fields (b : BitVec 8) :
    BitVec.extractLsb' (n := 25) 17 8 (b ++ 0#17) = b ∧ BitVec.extractLsb' (n := 25) 0 17 (b ++ 0#17) = 0#17 :=
  ⟨BitVec.extractLsb'_append_eq_left, BitVec.extractLsb'_append_eq_right⟩

theorem low3_quad (x : BitVec 2) : BitVec.extractLsb' (n := 5) 2 3 (0#3 ++ x) = 0#3 ∧ BitVec.extractLsb' (n := 5) 0 2 (0#3 ++ x) = x := by
  revert x; decide
theorem sub_shfl_fields (a : BitVec 3) (b : BitVec 2) :
    BitVec.extractLsb' (n := 5) 2 3 (a ++ b) = a ∧ BitVec.extractLsb' (n := 5) 0 2 (a ++ b) = b := by
  revert a b; decide
theorem sub_cvt_fields (f : Bool) (b : BitVec 4) :
    bitAt (n := 5) (BitVec.ofBool f ++ b) 4 = f ∧ BitVec.extractLsb' (n := 5) 0 4 (BitVec.ofBool f ++ b) = b := by
  revert f b; decide
theorem sub_blkenc_fields (b : BitVec 3) :
    BitVec.extractLsb' (n := 5) 3 2 (0#2 ++ b) = 0#2 ∧ BitVec.extractLsb' (n := 5) 0 3 (0#2 ++ b) = b := by
  revert b; decide
theorem sub_flags_fields (p q : Bool) (b : BitVec 3) :
    bitAt (n := 5) (BitVec.ofBool p ++ BitVec.ofBool q ++ b) 4 = p ∧ bitAt (n := 5) (BitVec.ofBool p ++ BitVec.ofBool q ++ b) 3 = q ∧
    BitVec.extractLsb' (n := 5) 0 3 (BitVec.ofBool p ++ BitVec.ofBool q ++ b) = b := by
  revert p q b; decide
theorem sub_redl_fields (p : Bool) (b : BitVec 3) :
    bitAt (n := 5) (BitVec.ofBool p ++ 0#1 ++ b) 4 = p ∧ bitAt (n := 5) (BitVec.ofBool p ++ 0#1 ++ b) 3 = false ∧
    BitVec.extractLsb' (n := 5) 0 3 (BitVec.ofBool p ++ 0#1 ++ b) = b := by
  revert p b; decide
theorem sub_make_fields (q : Bool) (b : BitVec 3) :
    bitAt (n := 5) (0#1 ++ BitVec.ofBool q ++ b) 4 = false ∧ bitAt (n := 5) (0#1 ++ BitVec.ofBool q ++ b) 3 = q ∧
    BitVec.extractLsb' (n := 5) 0 3 (0#1 ++ BitVec.ofBool q ++ b) = b := by
  revert q b; decide
theorem swizzle_fields (z : BitVec 3) : bitAt (n := 2) (0#1 ++ z.extractLsb' 2 1) 1 = false ∧
    (BitVec.extractLsb' (n := 2) 0 1 (0#1 ++ z.extractLsb' 2 1) ++ z.extractLsb' 0 2 : BitVec 3) = z := by
  revert z; decide

@[simp] theorem cvtSrcOf_code (t : CvtTy) : cvtSrcOf (cvtSrcFlt t) (cvtSrcCode t) = some t := (cvtSrcOf_eq_some ..).2 ⟨rfl, rfl⟩
@[simp] theorem redTyOf_code (t : RedTy) : redTyOf (redTyFlt t) (redTyCode t) = some t := (redTyOf_eq_some ..).2 ⟨rfl, rfl⟩

/-- The chapters' forms of words: which table of fields a word's class bits follow (R43 to R51). -/
inductive WordForm where
  | control | int | float | conv | mem | cross | engine | priv | trailer | dual | event

/-- The form of each instruction's word. -/
def wordForm : Instr → WordForm
  | .nop .. | .bra .. | .brx .. | .call .. | .ret .. | .exit .. | .join .. | .leave .. | .kwait .. | .rgn .. | .yield .. | .trap .. |
  .brk .. | .spri .. | .launch .. => .control
  | .iadd .. | .isub .. | .imul .. | .imulh .. | .imad .. | .lea .. | .ishl .. | .ishr .. | .lshr .. | .rot .. | .lop3 .. | .and .. | .or ..
  | .xor .. | .not .. | .imin .. | .imax .. | .iabs .. | .ineg .. | .popc .. | .clz .. | .brev .. | .bfx .. | .bfi .. | .icmp .. | .mov ..
  | .plop .. | .vtos .. | .sysrd .. | .imadw .. | .iadd64 .. | .sel .. | .idot4 .. | .movi .. | .moviN64 .. => .int
  | .fadd .. | .fsub .. | .fmul .. | .fmin .. | .fmax .. | .fcmp .. | .fclass .. | .fscale .. | .frint .. | .fmaxa .. | .frcp .. | .frsq ..
  | .fsqrt .. | .fexp2 .. | .flog2 .. | .fsin .. | .fcos .. | .ftanh .. | .fsigm .. | .hadd2 .. | .hmul2 .. | .hmin2 .. | .hmax2 .. |
  .badd2 .. | .bmul2 .. | .bmin2 .. | .bmax2 .. | .ffma .. | .hfma2 .. | .bfma2 .. | .hdot2 .. | .bdot2 .. => .float
  | .cvt .. | .pack2 .. | .blkenc .. | .blkhdrMake .. | .blkdec .. | .blkhdrChk .. => .conv
  | .ld .. | .st .. | .lds .. | .sts .. | .ldc .. | .ldsc .. | .bsig .. | .bpoll .. | .xred .. | .xsig .. | .pref .. | .cctlWb .. |
  .cctlInv .. | .cctlIvc .. | .prset .. | .prclr .. | .prtst .. | .stsc .. | .bwait .. | .stwait .. | .stflip .. | .cctlIvcAll .. |
  .cctlIviAll ..
  | .fenceAcq .. | .fenceRel .. | .fenceAcqrel .. | .rfence .. | .gsync .. | .atom .. | .atomcas .. | .red .. => .mem
  | .shflx .. | .matchLanes .. | .qxch .. | .qbcst .. | .shfl .. | .vote .. | .redl .. | .prfx .. | .lmap .. => .cross
  | .cpy .. | .cpy2d .. | .cpyg .. | .cpys .. | .cpyf .. | .waitsb .. | .cpyq .. | .mxa .. | .mxb .. | .mxshp .. | .mxcmt .. | .mxwb .. |
  .mxz .. | .mxrd .. | .mxwr .. | .mxpairOn .. | .mxpairOff .. | .mxprog .. | .xbulk .. | .mxst .. | .mxspm .. | .mxrun .. => .engine
  | .syswrRead .. | .ptEntryWrite .. | .syswrWrite .. | .faultResolve .. | .ctxStat .. | .ctxPrqHead .. | .ctxFqHead .. | .ctxNqHead .. |
  .ptCtl .. | .tlbiCtx .. | .tlbiPage .. | .tlbiRange .. | .subdevCreate .. | .subdevResize .. | .subdevFreeze .. | .subdevThaw .. |
  .subdevCkpt .. | .subdevRevoke .. | .subdevReset .. | .subdevDlog .. | .subdevMeter .. | .shareSet .. | .shareChg .. | .pgreply .. |
  .meas .. | .rcpt .. | .scrubStart .. | .scrubProg .. | .scrubCtx .. | .keyzM .. | .keyzF .. | .worldOwn .. | .worldLatch .. |
  .worldFree .. | .wmapSet .. | .wmapClr .. | .wmapGet .. => .priv
  | .trl .. => .trailer
  | .dualWord .. => .dual
  | _ => .event

theorem decodeFull_control {i : Instr} (hf : wordForm i = .control) : decodeFull (encodeRaw i) = some (true, i) := by
  cases i with
  | nop | bra | brx | call | ret | exit | join | leave | kwait | rgn | yield | trap | brk | spri | launch =>
    simp [encodeRaw, fullC, full, decodeFull, Raw.low, decodeControl, cx, Raw.hdr, req, -BitVec.toFin_extractLsb']
  | _ => cases hf

theorem decodeFull_int {i : Instr} (hw : i.isWord = true) (hf : wordForm i = .int) : decodeFull (encodeRaw i) = some (true, i) := by
  cases i with
  | iadd | isub | imul | imulh | imad | lea | ishl | ishr | lshr | rot | lop3 | and | or | xor | not | imin | imax | iabs | ineg | popc
  | clz | brev | bfx | bfi | icmp | mov | plop | vtos =>
    simp [encodeRaw, fullA, full, decodeFull, decodeInt, axInt, axTt, AX.plain, Raw.hdr, req]
  | sysrd h d sel =>
    have hs : sel.val % 256 = sel.val := by omega
    simp [encodeRaw, fullA, full, decodeFull, decodeInt, axInt, Raw.hdr, req, hs]
  | imadw h d a b c sg sat =>
    cases sg <;> simp [encodeRaw, fullA, full, decodeFull, decodeInt, axInt, AX.plain, Raw.hdr, req]
  | iadd64 h d a b p ci co =>
    cases p with
    | none => 
      simp [Instr.isWord, fieldsOk] at hw
      simp [encodeRaw, fullA, full, decodeFull, decodeInt, axInt, Raw.hdr, req, hw, optPred, subBit]
    | some p => 
      simp [Instr.isWord, fieldsOk] at hw
      cases ci <;> cases co <;> simp at hw <;>
      simp [encodeRaw, fullA, full, decodeFull, decodeInt, axInt, Raw.hdr, req, optPred, subBit]
  | sel h d a b p ng ty => 
    cases ng <;> simp [encodeRaw, fullA, full, decodeFull, decodeInt, axInt, Raw.hdr, req, subBit]
  | idot4 h d a b c sg mix sat =>
    cases sg <;> cases mix <;> simp [encodeRaw, fullA, full, decodeFull, decodeInt, axInt, Raw.hdr, req, subBit]
  | movi | moviN64 =>
    simp [encodeRaw, full, decodeFull, decodeInt, Raw.hdr, req, imm_parts, byte_top_fields, byte_top_fields_clear]
  | _ => cases hf

theorem decodeFull_float {i : Instr} (hf : wordForm i = .float) : decodeFull (encodeRaw i) = some (true, i) := by
  cases i with
  | fadd | fsub | fmul | fmin | fmax | fcmp | fclass | fscale | frint | fmaxa | frcp | frsq | fsqrt | fexp2 | flog2 | fsin
  | fcos | ftanh | fsigm | hadd2 | hmul2 | hmin2 | hmax2 | badd2 | bmul2 | bmin2 | bmax2 =>
    simp [encodeRaw, fullA, full, decodeFull, decodeFloat, axFlt, Raw.hdr, req]
  | ffma h d a b c ty rm ma mb nc =>
    cases nc <;> simp [encodeRaw, fullA, full, decodeFull, decodeFloat, axFlt, Raw.hdr, req, subBit]
  | hfma2 h d a b c rm ma mb nc | bfma2 h d a b c rm ma mb nc | hdot2 h d a b c rm ma mb nc | bdot2 h d a b c rm ma mb nc =>
    cases nc <;> simp [encodeRaw, fullA, full, decodeFull, decodeFloat, axFlt, Raw.hdr, req, subBit]
  | _ => cases hf

theorem decodeFull_conv {i : Instr} (hf : wordForm i = .conv) : decodeFull (encodeRaw i) = some (true, i) := by
  cases i with
  | cvt | pack2 =>
    simp [encodeRaw, fullA, full, decodeFull, decodeConv, axFlt, Raw.hdr, req, sub_cvt_fields]
  | blkenc | blkhdrMake =>
    simp [encodeRaw, fullA, full, decodeFull, decodeConv, axBlk, Raw.hdr, req, swizzle_fields, sub_blkenc_fields, sub_make_fields]
  | blkdec h d a c4 =>
    cases c4 <;> simp [encodeRaw, fullA, full, decodeFull, decodeConv, axBlk, Raw.hdr, req, swizzle_fields, subBit]
  | blkhdrChk h d a c4 c =>
    cases c4 <;> cases c <;> simp [encodeRaw, fullA, full, decodeFull, decodeConv, axBlk, Raw.hdr, req, swizzle_fields]
  | _ => cases hf

theorem decodeFull_mem {i : Instr} (hw : i.isWord = true) (hf : wordForm i = .mem) : decodeFull (encodeRaw i) = some (true, i) := by
  cases i with
  | ld | st | lds | sts | ldc | ldsc  | bsig | bpoll | xred | xsig =>
    simp [encodeRaw, fullM, full, decodeFull, decodeMem, MX.mem, Raw.hdr, req]
  | pref h m | cctlWb h m | cctlInv h m | cctlIvc h m | prset h m | prclr h m | prtst h d m | stsc h d m | bwait h d m
  | stwait h d m | stflip h d m =>
    obtain ⟨base, index, scale, width, scope, ord, hint, sbc, off⟩ := m
    simp [Instr.isWord, fieldsOk] at hw
    simp [encodeRaw, fullM, full, decodeFull, decodeMem, MX.mem, Raw.hdr, req, hw]
  | cctlIvcAll | cctlIviAll | fenceAcq | fenceRel | fenceAcqrel | rfence =>
    simp [encodeRaw, fullBare, full, decodeFull, decodeMem, Raw.hdr, req]
  | gsync h sp =>
    cases sp <;> simp [encodeRaw, fullBare, full, decodeFull, decodeMem, Raw.hdr, req, scopeCode]
  | atom h d y op m | atomcas h d y m | red h d op m =>
    obtain ⟨base, index, scale, width, scope, ord, sbc, spad, off⟩ := m
    simp [Instr.isWord, fieldsOk] at hw
    simp [encodeRaw, fullAtom, full, decodeFull, decodeMem, MX.atom, Raw.hdr, req, hw, off_atom_fields]
  | _ => cases hf

theorem decodeFull_cross {i : Instr} (hw : i.isWord = true) (hf : wordForm i = .cross) : decodeFull (encodeRaw i) = some (true, i) := by
  cases i with
  | shflx | matchLanes | qxch | qbcst =>
    simp [encodeRaw, fullA, full, decodeFull, decodeCross, axInt, Raw.hdr, req, low3_quad, -BitVec.toFin_extractLsb']
  | shfl h d a b p ty m seg =>
    have hs : seg.val % 8 = seg.val := by omega
    simp [encodeRaw, fullA, full, decodeFull, decodeCross, axInt, Raw.hdr, req, sub_shfl_fields, hs, -BitVec.extractLsb'_toNat]
  | vote h d p ng m =>
    simp [Instr.isWord, fieldsOk] at hw
    cases d <;> cases ng <;> cases m <;> simp at hw <;>
      simp [encodeRaw, fullA, full, decodeFull, decodeCross, axFlt, Raw.hdr, req, smodCode]
  | redl | prfx =>
    simp [encodeRaw, fullA, full, decodeFull, decodeCross, axFlt, Raw.hdr, req, sub_redl_fields, sub_flags_fields]
  | lmap h d f =>
    cases f <;> simp [encodeRaw, fullA, full, decodeFull, decodeCross, axInt, Raw.hdr, req]
  | _ => cases hf

theorem decodeFull_engine {i : Instr} (hw : i.isWord = true) (hf : wordForm i = .engine) : decodeFull (encodeRaw i) = some (true, i) := by
  cases i with
  | cpy h c | cpy2d h c | cpyg h c | cpys h c | cpyf h c =>
    obtain ⟨dst, src, size, gran, sbc, rel, fin, dsp, ssp⟩ := c
    cases fin <;>
      simp [encodeRaw, encodeCopy, exCopy, copyOf, fullE, full, decodeFull, decodeEngine, Raw.hdr, req, rest_copy_fields, -BitVec.toFin_extractLsb']
  | waitsb h c n =>
    simp [encodeRaw, fullE, full, decodeFull, decodeEngine, Raw.hdr, req, rest_waitsb_fields, sbcCode_eq_seven, -BitVec.toFin_extractLsb']
  | cpyq | mxa | mxb | mxshp | mxcmt | mxwb | mxz | mxrd | mxwr | mxpairOn | mxpairOff | mxprog | xbulk =>
    simp [encodeRaw, fullE, full, decodeFull, decodeEngine, Raw.hdr, req, exIdle, rest_cpyq_fields, rest_mxa_fields, rest_mxb_fields,
      rest_mxz_fields, rest_mxrun_fields, rest_xbulk_fields, -BitVec.toFin_extractLsb']
  | mxst h st b sp a cv g c =>
    have hcv : mconvOf (mconvCv cv) (mconvRm cv) = some cv := (mconvOf_eq_some ..).2 (by cases cv <;> simp_all [Instr.isWord, fieldsOk])
    simp [encodeRaw, fullE, full, decodeFull, decodeEngine, Raw.hdr, req, rest_mxst_fields, hcv, -BitVec.toFin_extractLsb']
  | mxspm h bm ix =>
    rcases bm with _ | ⟨r, p⟩ <;> rcases ix with _ | ⟨q, o, st⟩ <;>
      simp [encodeRaw, fullE, full, decodeFull, decodeEngine, Raw.hdr, req, exIdle, rest_mxspm_fields, rest_mxspm_index, rest_mxspm_bmap]
  | mxrun h reel g c acc f =>
    simp [Instr.isWord, fieldsOk] at hw
    cases reel <;> simp at hw <;>
      simp [encodeRaw, fullE, full, decodeFull, decodeEngine, Raw.hdr, req, rest_mxrun_fields, optByte, ofFin_eq_zero, hw, -BitVec.toFin_extractLsb']
  | _ => cases hf

theorem decodeFull_priv {i : Instr} (hw : i.isWord = true) (hf : wordForm i = .priv) : decodeFull (encodeRaw i) = some (true, i) := by
  cases i with
  | syswrRead =>
    simp [encodeRaw, fullA, full, decodeFull, decodePriv, axSel, Raw.hdr, req]
  | ptEntryWrite h d t v sel =>
    simp [Instr.isWord, fieldsOk] at hw
    have hne : ∀ n, n < 0x29 → sel ≠ BitVec.ofNat 8 n := by rintro n hn rfl; simp at hw; omega
    simp [encodeRaw, fullA, full, decodeFull, decodePriv, axSel, Raw.hdr, req, hw, hne]
  | syswrWrite h d t v sel =>
    simp [Instr.isWord, fieldsOk, selOwnRow] at hw
    have hr : ¬(0x29 ≤ sel.toNat ∧ sel.toNat ≤ 0x2F) := by omega
    simp [encodeRaw, fullA, full, decodeFull, decodePriv, axSel, Raw.hdr, req, hw, hr, ← BitVec.toNat_inj]
  | faultResolve | ctxStat | ctxPrqHead | ctxFqHead | ctxNqHead | ptCtl =>
    simp [encodeRaw, fullA, full, decodeFull, decodePriv, axSel, Raw.hdr, req]
  | tlbiCtx | tlbiPage | tlbiRange | subdevCreate | subdevResize | subdevFreeze | subdevThaw | subdevCkpt | subdevRevoke | subdevReset
  | subdevDlog | subdevMeter | shareSet | shareChg | pgreply | meas | rcpt | scrubStart | scrubProg | scrubCtx | keyzM | keyzF
  | worldOwn | worldLatch | worldFree | wmapSet | wmapClr | wmapGet =>
    simp [encodeRaw, fullA, full, decodeFull, decodePriv, axInt, Raw.hdr, req]
  | _ => cases hf

theorem decodeFull_trailer {i : Instr} (hf : wordForm i = .trailer) : decodeFull (encodeRaw i) = some (true, i) := by
  cases i with
  | trl =>
    simp [encodeRaw, decodeFull, req, trl_x_fields]
  | _ => cases hf

theorem isWord_event {i : Instr} (hf : wordForm i = .event) : i.isWord = false := by
  cases i <;> cases hf <;> rfl

/-- THE ENCODER WRITES ONLY WORDS THAT THE DECODER READS. -/
theorem decodeFull_encodeRaw {i : Instr} (hw : i.isWord = true) (hd : wordForm i ≠ .dual) : decodeFull (encodeRaw i) = some (true, i) := by
  cases hf : wordForm i with
  | dual => exact absurd hf hd
  | event => simp [isWord_event hf] at hw
  | control => exact decodeFull_control hf
  | int => exact decodeFull_int hw hf
  | float => exact decodeFull_float hf
  | conv => exact decodeFull_conv hf
  | mem => exact decodeFull_mem hw hf
  | cross => exact decodeFull_cross hw hf
  | engine => exact decodeFull_engine hw hf
  | priv => exact decodeFull_priv hw hf
  | trailer => exact decodeFull_trailer hf

/-! ### Whole words -/

theorem dual_unfold (b w : Bool) (x y : Half) : encode (.dualWord b w x y) =
    BitVec.ofBool b ++ BitVec.ofBool w ++ 1#1 ++ encodeHalf x ++ encodeHalf y ++ 0#1 := rfl

theorem encode_of_not_dual {i : Instr} (h : wordForm i ≠ .dual) : encode i = (encodeRaw i).pack := by
  cases i with
  | dualWord => exact absurd rfl h
  | _ => rfl

theorem bitAt_pack_61 (r : Raw) : bitAt r.pack 61 = false := by
  simp [Raw.bitAt_pack, bitAt_append_high, bitAt_append_low, -Nat.reduceAdd]

theorem dual_fields (b w : Bool) (x y : BitVec 30) :
    let v : BitVec 64 := BitVec.ofBool b ++ BitVec.ofBool w ++ 1#1 ++ x ++ y ++ 0#1
    bitAt v 63 = b ∧ bitAt v 62 = w ∧ bitAt v 61 = true ∧ bitAt v 0 = false ∧ v.extractLsb' 31 30 = x ∧ v.extractLsb' 1 30 = y := by
  have h : ∀ i n, BitVec.extractLsb' (n := 64) i n (BitVec.ofBool b ++ BitVec.ofBool w ++ 1#1 ++ x ++ y ++ 0#1) =
    (BitVec.ofBool b ++ BitVec.ofBool w ++ 1#1 ++ x ++ y ++ 0#1).extractLsb' i n := fun _ _ => rfl
  have h' : ∀ i, bitAt (n := 64) (BitVec.ofBool b ++ BitVec.ofBool w ++ 1#1 ++ x ++ y ++ 0#1) i =
    bitAt (BitVec.ofBool b ++ BitVec.ofBool w ++ 1#1 ++ x ++ y ++ 0#1) i := fun _ => rfl
  simp [h, h', BitVec.extractLsb'_append_eq_of_le, BitVec.extractLsb'_append_eq_of_add_le, bitAt_append_high, bitAt_append_low, -Nat.reduceAdd]

theorem dual_parts {v : BitVec 64} (h1 : bitAt v 61 = true) (h0 : bitAt v 0 = false) :
    BitVec.ofBool (bitAt v 63) ++ BitVec.ofBool (bitAt v 62) ++ 1#1 ++ v.extractLsb' 31 30 ++ v.extractLsb' 1 30 ++ 0#1 = v := by
  have e1 : 1#1 = v.extractLsb' 61 1 := by rw [← ofBool_bitAt, h1]; rfl
  have e0 : 0#1 = v.extractLsb' 0 1 := by rw [← ofBool_bitAt, h0]; rfl
  simp only [ofBool_bitAt, e1, e0]
  simp (disch := rfl) only [BitVec.extractLsb'_append_extractLsb'_eq_extractLsb', -Nat.reduceAdd]
  exact BitVec.extractLsb'_eq_self

theorem wellFormed_of_not_dual {regs : Nat} {i : Instr} (h : wordForm i ≠ .dual) :
    i.wellFormed regs = (i.isWord && regsOk regs i) := by
  cases i with
  | dualWord => exact absurd rfl h
  | _ => simp [Instr.wellFormed]

theorem wellFormed_dual {regs : Nat} {b w : Bool} {x y : Half} : (Instr.dualWord b w x y).wellFormed regs = true ↔
    halfOk x = true ∧ halfOk y = true ∧ regsOk regs (.dualWord b w x y) = true ∧ pairOk x y = true := by
  simp [Instr.wellFormed, Instr.isWord, fieldsOk, and_assoc]

theorem fieldsOk_of_isWord {i : Instr} (h : i.isWord = true) : fieldsOk i = true := by
  cases i with
  | trl => rfl
  | _ => exact h

theorem isWord_of_fieldsOk {i : Instr} (h : fieldsOk i = true) : i.isWord = true := by
  cases i with
  | trl => rfl
  | _ => exact h

theorem eq_trl_of_decodeFull {r : Raw} {x : Bool × Instr} (h : decodeFull r = some x) (hop : r.op = 0xFF) :
    ∃ w a b c d, x.2 = .trl w a b c d := by
  simp [decodeFull, hop] at h
  exact ⟨_, _, _, _, _, (congrArg Prod.snd h.2).symm⟩

theorem decode_encode {regs : Nat} {i : Instr} (h : i.wellFormed regs = true) : decodeWord regs (encode i) = .ok i := by
  by_cases hd : wordForm i = .dual
  · obtain ⟨b, w, x, y, rfl⟩ : ∃ b w x y, i = .dualWord b w x y := by
      cases i with
      | dualWord b w x y => exact ⟨b, w, x, y, rfl⟩
      | _ => cases hd
    obtain ⟨hx, hy, hr, hp⟩ := wellFormed_dual.1 h
    obtain ⟨h63, h62, h61, h0, hhi, hlo⟩ := dual_fields b w (encodeHalf x) (encodeHalf y)
    rw [dual_unfold]
    simp only [decodeWord, h63, h62, h61, h0, hhi, hlo, decodeHalf_encodeHalf hx, decodeHalf_encodeHalf hy]
    simp [hr, hp]
  · rw [wellFormed_of_not_dual hd, Bool.and_eq_true] at h
    obtain ⟨hw, hr⟩ := h
    rw [encode_of_not_dual hd]
    simp [decodeWord, bitAt_pack_61, decodeFull_encodeRaw hw hd, fieldsOk_of_isWord hw, hr]
    intro hop
    obtain ⟨w, a, b, c, d, rfl⟩ := eq_trl_of_decodeFull (decodeFull_encodeRaw hw hd) hop
    rfl

theorem decodeFull_not_dual {r : Raw} {i : Instr} (h : decodeFull r = some (true, i)) (he : encodeRaw i = r) : wordForm i ≠ .dual := by
  intro hf
  cases i with
  | dualWord b w x y =>
    subst he
    cases h
  | _ => cases hf

theorem halfOk_of_decodeHalf {v : BitVec 30} {ok : Bool} {x : Half} (h : decodeHalf v = some (ok, x)) : halfOk x = true := by
  simp only [decodeHalf, Option.bind_eq_some_iff] at h
  obtain ⟨op, -, h⟩ := h
  split at h <;> split at h <;> cases h
  all_goals exact (Bool.and_eq_true_iff.1 ‹_›).1

theorem encode_decode {regs : Nat} {v : BitVec 64} {i : Instr} (h : decodeWord regs v = .ok i) : i.wellFormed regs = true ∧ encode i = v := by
  unfold decodeWord at h
  by_cases h61 : bitAt v 61 = true
  · rw [if_pos h61] at h
    split_ifs at h with h0
    split at h
    next okx x oky y hx hy =>
      dsimp only at h
      split at h
      next => cases h
      next hr =>
      split at h
      next => cases h
      next hp =>
      cases h
      simp only [Bool.not_eq_true', Bool.not_eq_false, Bool.and_eq_true] at hr hp
      obtain ⟨⟨rfl, rfl⟩, hr⟩ := hr
      refine ⟨wellFormed_dual.2 ⟨halfOk_of_decodeHalf hx, halfOk_of_decodeHalf hy, hr, hp⟩, ?_⟩
      rw [dual_unfold, encodeHalf_of_decodeHalf hx, encodeHalf_of_decodeHalf hy]
      exact dual_parts h61 (by simpa using h0)
    next => cases h
  · rw [if_neg h61] at h
    simp only at h
    split at h
    next => cases h
    next readable i' hfull =>
      split_ifs at h with hf hr hb
      cases h
      simp only [Bool.not_eq_true', Bool.not_eq_false, Bool.and_eq_true, decide_eq_true_eq, not_and] at hf hr hb
      obtain ⟨rfl, hr⟩ := hr
      have he := encodeRaw_of_decodeFull hfull hb
      have hd := decodeFull_not_dual hfull he
      rw [wellFormed_of_not_dual hd, encode_of_not_dual hd, he]
      simp [isWord_of_fieldsOk hf, hr, Raw.pack_unpack v (by simpa using h61)]

/-- Settles O57, by the two directions: the decoder reads back every well-formed word, and reads nothing else. -/
theorem decodingAndEncodingAgree : Obligations.DecodingAndEncodingAgree :=
  ⟨fun _ _ h => decode_encode h, fun _ _ _ h => encode_decode h⟩

end Sys2Proof
end

section
/-! ### The words the spec writes out -/
namespace Sys2Proof.Machine

/-- Settles O56: every word of the list is decoded as it stands. -/
theorem wordsOfTheSpecDecodeToTheirInstructions : Obligations.WordsOfTheSpecDecodeToTheirInstructions := by
  unfold Obligations.WordsOfTheSpecDecodeToTheirInstructions
  intro h e
  refine ⟨?_, ?_, ?_, ?_, ?_, ?_, ?_, ?_, ?_, ?_, ?_, ?_, ?_, ?_, ?_⟩ <;> decide

end Sys2Proof.Machine
end

section
/-!
SUPPORT. Issuing a word with nothing pending (R57 to R61, R69 to R71): what settles beforehand leaves the state as it is, and each of the
checks that issue makes passes.
-/
namespace Sys2Proof.Machine

/-- The later of two insertions at a key stands. -/
theorem NMap.insert_insert {α : Type} (m : NMap α) (k : Nat) (a b : α) : NMap.insert (NMap.insert m k a) k b = NMap.insert m k b := by
  induction m with
  | nil => simp [NMap.insert]
  | cons c m ih =>
    obtain ⟨j, v⟩ := c
    simp only [NMap.insert]
    by_cases h1 : k < j
    · simp [h1, NMap.insert]
    · by_cases h2 : k = j
      · simp [h2, NMap.insert]
      · simp [h1, h2, NMap.insert, ih]

/-- The state with an issue warp listed anew. -/
def putWarp (s : State) (wid : Nat) (w : Warp) : State := { s with wk := { s.wk with warps := NMap.insert s.wk.warps wid w } }

theorem updWarp_eq_putWarp {s : State} {wid : Nat} {w : Warp} (h : s.wk.warps.find wid = some w) (f : Warp → Warp) :
    s.updWarp wid f = putWarp s wid (f w) := by
  simp [State.updWarp, putWarp, NMap.upd, h]

@[simp] theorem warp_putWarp (s : State) (wid : Nat) (w : Warp) : (putWarp s wid w).warp wid = w := by
  simp [State.warp, putWarp, NMap.find_insert_self]

@[simp] theorem updWarp_putWarp (s : State) (wid : Nat) (w : Warp) (f : Warp → Warp) :
    (putWarp s wid w).updWarp wid f = putWarp s wid (f w) := by
  rw [updWarp_eq_putWarp (w := w) (by simp [putWarp, NMap.find_insert_self])]
  simp [putWarp, NMap.insert_insert]

/-- With no known result of the group pending, none is settled. -/
theorem settleResults_of_unknown {s : State} {gi : Nat} (h : ∀ r ∈ s.wk.results, r.2.gi = gi → r.2.known = false) :
    settleResults s gi = s := by
  refine List.foldlRecOn (motive := fun t => t = s) _ _ rfl fun t ht r hr => ?_
  rw [if_neg, ht]
  simpa using h r hr

/-- With no late bytes of a copy, no row is settled. -/
theorem settleRows_of_none_late {s : State} {gi : Nat} (h : ∀ c ∈ s.en.cmds, c.2.late = []) : settleRows s gi = s := by
  refine List.foldlRecOn (motive := fun t => t = s) _ _ rfl fun t ht c hc => ?_
  simp [h c hc, ht]

theorem settleS_of_nil {s : State} {wid : Nat} (h : (s.warp wid).sUndo = []) : settleS s wid = s := by simp [settleS, h]

/-- A fetch that translates to a page or a receive window, and whose line the instruction cache holds as memory does, gives the word
there and changes nothing. -/
theorem fetchWord_of_cached {s : State} {w : Warp} {pc : Nat} {t : Xl} {l : CodeLine} (hpc : pc < 2 ^ 55)
    (hx : xlFor s w pc .fetch = some (.ok t)) (hty : t.ty = .page ∨ t.ty = .rxWin)
    (hl : codeLine s.mm.icache w.core (objOf s w) (pc / 128) = some l) (hb : l.bytes = memBytes s (t.pa / 128 * 128) 128) :
    fetchWord s w pc = (.word (BitVec.ofNat 64 (natOfBytes ((l.bytes.drop (t.pa % 128)).take 8))), s) := by
  simp only [fetchWord, Nat.not_le.2 hpc, if_false, hx, hty, if_true, icRead, hl]
  rw [if_pos hb]

/-- Noting a warp and letting cycles pass moves no translation. -/
theorem frameCheck_putWarp_passCycles (s : State) (n wid ctx : Nat) (w : Warp) (t : Xl) :
    (frameCheck (putWarp (passCycles s n) wid w) ctx t).1 = (frameCheck s ctx t).1 := by
  have hk : keySlotOf (putWarp (passCycles s n) wid w) t = keySlotOf s t := rfl
  have hm : ∀ f, metadataFrame (putWarp (passCycles s n) wid w) f = metadataFrame s f := fun _ => rfl
  have hf : ∀ f, (putWarp (passCycles s n) wid w).frame f = s.frame f := fun _ => rfl
  have hc : ∀ c, (putWarp (passCycles s n) wid w).ctx c = s.ctx c := fun _ => rfl
  have hp : (putWarp (passCycles s n) wid w).pt.mkeys = s.pt.mkeys := rfl
  simp only [frameCheck, hk, hm, hf, hc, hp]
  split_ifs <;> rfl

theorem xlFor_putWarp_passCycles (s : State) (n wid va : Nat) (y w : Warp) (kind : AccKind) :
    xlFor (putWarp (passCycles s n) wid y) w va kind = xlFor s w va kind := by
  have hc : ctxOf (putWarp (passCycles s n) wid y) w = ctxOf s w := rfl
  have hh : ∀ (e : TlbEnt) c p, e.hits (putWarp (passCycles s n) wid y) c p kind = e.hits s c p kind := fun e c p => by
    simp only [TlbEnt.hits, frameCheck_putWarp_passCycles]
    rfl
  have hx : (putWarp (passCycles s n) wid y).xl = s.xl := rfl
  simp only [xlFor, tlbFind, hc, hh, hx]

/-- A fetch that gives a word goes on with it. -/
theorem fetchOr_of_word {s : State} {wid pc opc : Nat} {v : DWord} {k : DWord → State → Issued}
    (h : fetchWord s (s.warp wid) pc = (.word v, s)) : fetchOr s wid pc opc k = k v s := by
  simp only [fetchOr, h]

/-- A warp as its word's fetch begins, and as its word is noted. -/
def readied (x : Warp) : Warp := { x with park := .none, curOp := 0, eas := [] }
def noted (x : Warp) (v : DWord) (i : Instr) : Warp :=
  { x with wordN := weight i, wordNamed := tempsNamed i, park := .none, curB := bitAt v 63, curOp := opcOf v, eas := [] }

/-- Where the word is fetched and every check passes, it is issued on the state in which it is noted. -/
theorem issueWord_eq_exec {s : State} {wid : Nat} {x : Warp} {v : DWord} {i : Instr} (hw : s.wk.warps.find wid = some x)
    (hres : ∀ r ∈ s.wk.results, r.2.gi = x.gi → r.2.known = false) (hlate : ∀ c ∈ s.en.cmds, c.2.late = []) (hundo : x.sUndo = [])
    (hf : fetchWord (putWarp s wid (readied x)) (readied x) x.pc.toNat = (.word v, putWarp s wid (readied x)))
    (hd : decodeWord (s.group x.gi).regs v = .ok i) (hrun : breaksRun x i = false) (hlast : lastOnly i = true → bitAt v 63 = true)
    (hrole : roleOf v &&& (s.group x.gi).roles = roleOf v) (hmay : mayRun s (s.group x.gi) v = true) (hrow : s.pt.rowPoison = []) :
    issueWord s wid = .exec i v (putWarp s wid (noted x v i)) := by
  have hx : s.warp wid = x := by simp [State.warp, hw]
  have hl : (lastOnly i && !v.getLsbD 63) = false := by
    cases h : lastOnly i
    · rfl
    · simpa [bitAt] using hlast h
  have hr : breaksRun { x with park := .none, curOp := 0, eas := [] } i = false := hrun
  have hp : ∀ w parts, poisonLanes (putWarp s wid w) w parts = [] := fun w parts => if_pos hrow
  have hg : ∀ w gi, (putWarp s wid w).group gi = s.group gi := fun _ _ => rfl
  have hm : ∀ w g, mayRun (putWarp s wid w) g v = mayRun s g v := fun _ _ => rfl
  unfold issueWord
  simp only [hx, settleResults_of_unknown hres, settleRows_of_none_late hlate]
  rw [settleS_of_nil (hx ▸ hundo), updWarp_eq_putWarp hw, fetchOr_of_word (by simpa [readied] using hf)]
  simp only [warp_putWarp, updWarp_putWarp, hg, hm, hd, hl, hr, hp, hrole, hmay, note, noted, bitAt, bne_self_eq_false, Bool.or_false,
    Bool.false_and, Bool.not_true, Bool.false_eq_true, if_false]

/-- Settles O58: the word at the PC is issued on the state in which it is noted, and run; an event acts on the state past its turn. -/
theorem aStepRunsTheDecodedWordOrTheEvent : Obligations.AStepRunsTheDecodedWordOrTheEvent := by
  constructor
  · intro s x t l v i g line y s' hag hpow hw hcan hres hlate hundo hpc hxl hty hcl hb hv hd hrun hlast hrole hmay hrow
    have hissue : issueWord (passCycles s 1) s.md.cur = .exec i v s' := by
      subst hv
      exact issueWord_eq_exec (s := passCycles s 1) hw hres hlate hundo
        (fetchWord_of_cached hpc ((xlFor_putWarp_passCycles ..).trans hxl) hty hcl hb) hd hrun hlast hrole hmay hrow
    have hpoison : ∀ u, clearPoison s' (zeroHelpers s' u s.md.cur v i) s.md.cur v i = u := fun u => by
      rw [clearPoison, zeroHelpers, if_pos hrow, if_pos hrow]
    have hstep : step s = runWarp (passCycles s 1) s.md.cur := by simp [step, hag, hpow]
    have hcan' : canIssue (passCycles s 1) s.md.cur = true := hcan
    have hcur : (passCycles s 1).updMD (fun m => { m with cur := s.md.cur }) = passCycles s 1 := rfl
    rw [hstep, runWarp, if_pos hcan', hcur, hissue]
    simp only [after]
    cases exec i s' with
    | next u => simp only [hpoison]
    | fault f => rfl
    | refused r => rfl
  · intro s dt i rest hag s'
    have hstep : step s = runEvent s' i := by simp only [step, hag]; rfl
    have hs' : s'.pt.powered = s.pt.powered := rfl
    constructor
    · intro hev hpw
      rw [hstep, runEvent, if_pos hev, if_pos (by simpa [hs'] using hpw)]
      rfl
    · intro hev hoff hi
      rw [hstep, runEvent, if_pos hev, if_neg (by simp [hs', hoff, hi])]

end Sys2Proof.Machine
end

section
/-!
SUPPORT. The end of a word case by case (R57, R65, R353): which way it goes, and what it leaves in the quarter of the executing warp.
-/
namespace Sys2Proof.Machine

theorem curWarp_eq {s : State} {x : Warp} (h : s.wk.warps.find s.md.cur = some x) : s.curWarp = x := by simp [State.curWarp, State.warp, h]

/-- The executing warp as it stands past its word. -/
theorem stepPast_eq_putWarp {s : State} {x : Warp} (h : s.wk.warps.find s.md.cur = some x) :
    stepPast s s.md.cur = putWarp s s.md.cur (pastWord x) := updWarp_eq_putWarp h _

/-- The end of a word of a warp with an active lane. -/
theorem finish_eq {s : State} {x : Warp} (hx : s.wk.warps.find s.md.cur = some x) (ha : activeLanes x ≠ []) (b w : Bool) :
    finish s b w = if w && pendingFor s x.gi (warpThreads x) then
        parkWarp (putWarp s s.md.cur { pastWord x with ends := b }) s.md.cur .results
      else if b then endRun (putWarp s s.md.cur (pastWord x)) s.md.cur else putWarp s s.md.cur (pastWord x) := by
  have hw : s.warp s.md.cur = x := curWarp_eq hx
  unfold finish
  simp only [hw, ha, if_false, stepPast_eq_putWarp hx, warp_putWarp, updWarp_putWarp]
  rfl

/-- A warp that gives its quarter up does not run there. -/
theorem freeQuarter_run_ne (s : State) (wid : Nat) {r : Option Nat}
    (h : ((freeQuarter s wid).wk.quarters.find ((s.warp wid).core * 4 + (s.warp wid).quarter)).map (·.run) = some r) : r ≠ some wid := by
  rintro rfl
  unfold freeQuarter at h
  by_cases hr : ((s.wk.quarters.find ((s.warp wid).core * 4 + (s.warp wid).quarter)).getD {}).run = some wid
  · simp [hr, NMap.find_erase_self] at h
  · obtain ⟨y, hy, hyr⟩ := Option.map_eq_some_iff.1 (by simpa [hr] using h)
    simp [hy, hyr] at hr

theorem eddyRun_quarters (s : State) (w : Warp) : (eddyRun s w).wk.quarters = s.wk.quarters := by
  unfold eddyRun
  simp only
  split <;> rfl

theorem warp_congr {s t : State} (h : t.wk.warps = s.wk.warps) (id : Nat) : t.warp id = s.warp id := by simp [State.warp, h]

theorem endRun_run_ne (s : State) (wid : Nat) {r : Option Nat}
    (h : ((endRun s wid).wk.quarters.find ((s.warp wid).core * 4 + (s.warp wid).quarter)).map (·.run) = some r) : r ≠ some wid := by
  obtain ⟨u, rfl, he⟩ := endRun_eq s wid
  have hw : (eddyRun (seatRun s wid) (s.warp wid)).warp wid = s.warp wid :=
    warp_congr ((eddyRun_warps ..).trans (congrArg WorkSt.warps (seat_wk ..))) wid
  simp only [he, State.updWK_wk] at h
  exact freeQuarter_run_ne (eddyRun (seatRun s wid) (s.warp wid)) wid (by rwa [hw])

/-- A fold whose steps each leave a thread as it is or change it in one idempotent way, warps as they were. -/
theorem find_foldl_of_hits {β : Type} {step : State → β → State} {f : Thread → Thread} {k : Nat} {hit : β → Prop} {W : WorkSt}
    (hf : ∀ y, f (f y) = f y) (hit_step : ∀ s b, s.wk = W → hit b → (step s b).rg.threads.find k = (s.rg.threads.find k).map f)
    (miss_step : ∀ s b, s.wk = W → ¬hit b → (step s b).rg.threads.find k = s.rg.threads.find k)
    (hW : ∀ s b, (step s b).wk = s.wk) (l : List β) (s : State) (hs : s.wk = W) (hl : ∃ b ∈ l, hit b) :
    (l.foldl step s).rg.threads.find k = (s.rg.threads.find k).map f := by
  have hmiss : ∀ (l : List β) (s : State), s.wk = W → (∀ b ∈ l, ¬hit b) → (l.foldl step s).rg.threads.find k = s.rg.threads.find k := by
    intro l
    induction l with
    | nil => exact fun _ _ _ => rfl
    | cons a l ih =>
      intro s hs hl
      rw [List.foldl_cons, ih _ ((hW s a).trans hs) fun b hb => hl b (List.mem_cons_of_mem _ hb), miss_step s a hs (hl a List.mem_cons_self)]
  induction l generalizing s with
  | nil => simp at hl
  | cons a l ih =>
    rw [List.foldl_cons]
    by_cases hr : ∃ b ∈ l, hit b
    · rw [ih _ ((hW s a).trans hs) hr]
      by_cases ha : hit a
      · simp [hit_step s a hs ha, Function.comp_def, hf]
      · rw [miss_step s a hs ha]
    · obtain ⟨b, hb, hhit⟩ := hl
      obtain rfl : b = a := (List.mem_cons.1 hb).resolve_right fun h => hr ⟨b, h, hhit⟩
      rw [hmiss _ _ ((hW s b).trans hs) fun c hc h => hr ⟨c, hc, h⟩, hit_step s b hs hhit]

/-- Each lane's thread is seated, however often its lane is listed. -/
theorem seat_find {gi : Nat} {f : Thread → Thread} (hf : ∀ y, f (f y) = f y) (l : List (Nat × LaneEnt)) (s : State) (k : Nat)
    (hk : ∃ q ∈ l, k = thKey gi q.2.hwarp q.2.hlane) :
    (l.foldl (fun s q => s.updThread (thKey gi q.2.hwarp q.2.hlane) f) s).rg.threads.find k = (s.rg.threads.find k).map f := by
  refine find_foldl_of_hits (step := fun (s : State) (q : Nat × LaneEnt) => s.updThread (thKey gi q.2.hwarp q.2.hlane) f) (W := s.wk) hf ?_ ?_ ?_ l s rfl hk
  · rintro t b - hb
    rw [State.updThread_rg, hb]
    exact NMap.find_upd_self ..
  · intro t b _ hb
    exact NMap.find_upd_ne _ _ _ _ hb
  · intro t b
    exact State.updThread_wk ..

/-- The end of a run seats the threads of its active lanes at the frontier. -/
theorem endRun_seats (s : State) (wid : Nat) {k : Nat} {th : Thread} (hk : ∃ q ∈ activeLanes (s.warp wid), k = thKey (s.warp wid).gi q.2.hwarp q.2.hlane)
    (h : s.rg.threads.find k = some th) : (endRun s wid).rg.threads.find k = some (seatAt (s.warp wid) th) := by
  have hf : ∀ y, seatAt (s.warp wid) (seatAt (s.warp wid) y) = seatAt (s.warp wid) y := fun y => by
    by_cases ht : (s.warp wid).tail <;> simp [seatAt, ht]
  rw [endRun_rg, seatRun, seat_find hf _ _ _ hk, h]
  rfl

end Sys2Proof.Machine
end

section
namespace Sys2Proof.Machine

/-- Settles O20: NOP is the end of a word alone. -/
theorem theEndOfAWordMovesOnWaitsOrEndsTheRun : Obligations.TheEndOfAWordMovesOnWaitsOrEndsTheRun := by
  intro s h x hx ha waits
  refine ⟨finish s h.b h.w, rfl, ?_⟩
  have hself : ∀ w, (putWarp s s.md.cur w).wk.warps.find s.md.cur = some w := fun w => NMap.find_insert_self ..
  rw [finish_eq hx ha]
  refine ⟨fun hw hb => ?_, fun hw => ?_, fun hw hb => ?_⟩
  · rw [show (h.w && pendingFor s x.gi (warpThreads x)) = false from hw, hb]
    exact ⟨pastWord x, hself _, rfl, rfl, rfl, rfl, rfl⟩
  · rw [show (h.w && pendingFor s x.gi (warpThreads x)) = true from hw, if_pos rfl]
    obtain ⟨age, hage⟩ := parkWarp_warps (putWarp s s.md.cur { pastWord x with ends := h.b }) s.md.cur .results
    refine ⟨_, by rw [hage, NMap.find_upd_self, hself, Option.map_some], rfl, rfl, rfl, fun r hr => ?_⟩
    refine freeQuarter_run_ne (putWarp s s.md.cur { pastWord x with ends := h.b }) s.md.cur ?_
    rw [warp_putWarp]
    exact hr
  · rw [show (h.w && pendingFor s x.gi (warpThreads x)) = false from hw, hb]
    have hp : (putWarp s s.md.cur (pastWord x)).warp s.md.cur = pastWord x := warp_putWarp ..
    refine ⟨endRun_self _ _, fun r hr => endRun_run_ne (putWarp s s.md.cur (pastWord x)) s.md.cur (by rwa [hp]), fun q hq th hth => ?_⟩
    exact ⟨_, endRun_seats _ _ (by rw [hp]; exact ⟨q, hq, rfl⟩) hth, rfl, by rw [hp]; rfl⟩

end Sys2Proof.Machine
end

section
/-!
SUPPORT. Commit points (R348, R368, R369): what they rewrite of a home warp's FIFO and of the records of its threads.
-/
namespace Sys2Proof.Machine

/-- All of a state but threads, home warps and where issue warps and groups stand: what commit points, regions and the end of a word
leave as it is. -/
def calmPart (s : State) : (NMap Word × NMap Word × NMap Bool × NMap Word × NMap Nat) ×
    (NMap Span × NMap Result × NMap Work) × MemSt × XlSt × EngSt × FabSt × CtxSt × PartSt × List Turn :=
  ((s.rg.v, s.rg.s, s.rg.p, s.rg.k, s.rg.sb), (s.wk.spans, s.wk.results, s.wk.works), s.mm, s.xl, s.en, s.fb, s.cx,
    Say.plainPart s.pt, s.md.agenda)

theorem calm_of_calmPart {s t : State} (h : calmPart t = calmPart s) : Say.Calm s t ∧ t.cx = s.cx ∧ t.rg.k = s.rg.k := by
  simp only [calmPart, Prod.mk.injEq] at h
  obtain ⟨⟨hv, hs, hp, hk, hsb⟩, ⟨hspans, hres, hworks⟩, hmm, hxl, hen, hfb, hcx, hpt, hag⟩ := h
  exact ⟨⟨hmm, hxl, hen, hfb, hpt, hv, hs, hp, hsb, hres, hworks, hspans, hag⟩, hcx, hk⟩

theorem calmPart_finish (s : State) (b w : Bool) : calmPart (finish s b w) = calmPart s := by
  have h := still_finish s b w
  simp only [still, Prod.mk.injEq] at h
  obtain ⟨⟨hv, hs, hp, hk, hsb, -⟩, ⟨hspans, hres, hworks, -, -⟩, hmm, hxl, hen, hfb, hcx, hpt⟩ := h
  simp only [calmPart, Say.plainPart, hv, hs, hp, hk, hsb, hspans, hres, hworks, hmm, hxl, hen, hfb, hcx, hpt, finish_agenda]

theorem calmPart_commitHW (s : State) (gi h wid : Nat) (after : List Nat) : calmPart (commitHW s gi h wid after) = calmPart s := by
  unfold commitHW
  exact (foldl_keep calmPart _ (fun t l => by rfl) _ _).trans (by rfl)

theorem commitHW_wk (s : State) (gi h wid : Nat) (after : List Nat) : (commitHW s gi h wid after).wk = s.wk := by
  unfold commitHW
  exact (foldl_keep State.wk _ (fun t l => by rfl) _ _).trans (by rfl)

theorem calmPart_commitLanes (s : State) (wid : Nat) (lanes : List (Nat × LaneEnt)) : calmPart (commitLanes s wid lanes) = calmPart s :=
  foldl_keep calmPart _ (fun _ _ => calmPart_commitHW ..) _ _

theorem recordAt_congr {s t : State} (hw : t.wk = s.wk) : recordAt t = recordAt s := by
  funext gi h l y wid after
  simp only [recordAt, warpOfThread, hw]

/-- A thread at a commit point: the record of an open region is placed where the thread stands. -/
def recorded (s : State) (gi h l wid : Nat) (after : List Nat) (t : Thread) : Thread :=
  if t.restart.isOpen then { t with restart := recordAt s gi h l t wid after } else t

theorem recordAt_isOpen (s : State) (gi h l : Nat) (t : Thread) (wid : Nat) (after : List Nat) :
    (recordAt s gi h l t wid after).isOpen = true := by
  unfold recordAt
  repeat' split
  all_goals rfl

theorem recorded_recorded (s : State) (gi h l wid : Nat) (after : List Nat) (t : Thread) :
    recorded s gi h l wid after (recorded s gi h l wid after t) = recorded s gi h l wid after t := by
  by_cases ht : t.restart.isOpen = true
  · have hr : recordAt s gi h l { t with restart := recordAt s gi h l t wid after } wid after = recordAt s gi h l t wid after := rfl
    simp [recorded, ht, recordAt_isOpen, hr]
  · simp [recorded, ht]

theorem thKey_inj {gi h h' l l' : Nat} (hl : l < 32) (hl' : l' < 32) (e : thKey gi h l = thKey gi h' l') : h = h' ∧ l = l' := by
  simp only [thKey, hwKey] at e
  omega

theorem commitHW_eq (s : State) (gi h wid : Nat) (after : List Nat) : ∃ l, l = List.range 32 ∧ commitHW s gi h wid after =
    l.foldl (fun t j => t.updThread (thKey gi h j) (recorded t gi h j wid after))
      (s.updHWarp (hwKey gi h) (fun x => { x with fifo := x.fifo.map (fun e => { e with uncommitted := [] }) })) := ⟨_, rfl, rfl⟩

/-- A commit point of a home warp rewrites the records of its threads. -/
theorem commitHW_find_self {s : State} {gi h l wid : Nat} {after : List Nat} (hl : l < 32) :
    (commitHW s gi h wid after).rg.threads.find (thKey gi h l) =
      (s.rg.threads.find (thKey gi h l)).map (recorded s gi h l wid after) := by
  obtain ⟨r, hr, he⟩ := commitHW_eq s gi h wid after
  rw [he]
  refine (find_foldl_of_hits (step := fun (t : State) (j : Nat) => t.updThread (thKey gi h j) (recorded t gi h j wid after)) (W := s.wk)
    (hit := fun j => j = l) (recorded_recorded s gi h l wid after) ?_ ?_ (fun t _ => State.updThread_wk ..) r _ (State.updHWarp_wk ..)
    ⟨l, hr ▸ List.mem_range.2 hl, rfl⟩).trans ?_
  · rintro t _ ht rfl
    rw [State.updThread_rg, NMap.find_upd_self]
    unfold recorded
    rw [recordAt_congr ht]
  · intro t j _ hj
    exact NMap.find_upd_ne _ _ _ _ fun e => hj (by simp only [thKey] at e; omega)
  · rw [State.updHWarp_rg]

/-- It leaves the threads of other home warps alone. -/
theorem commitHW_find_ne {s : State} {gi h h' l wid : Nat} {after : List Nat} (hl : l < 32) (hh : h' ≠ h) :
    (commitHW s gi h' wid after).rg.threads.find (thKey gi h l) = s.rg.threads.find (thKey gi h l) := by
  refine List.foldlRecOn (motive := fun t : State => t.rg.threads.find (thKey gi h l) = s.rg.threads.find (thKey gi h l)) _ _ rfl
    fun t ht j hj => ?_
  rw [State.updThread_rg, NMap.find_upd_ne _ _ _ _ fun e => hh (thKey_inj hl (List.mem_range.1 hj) e).1.symm, ht]

/-- The home lanes of a home warp among some lanes. -/
def lanesOfHome (lanes : List (Nat × LaneEnt)) (h : Nat) : List Nat := (lanes.filter (fun q => q.2.hwarp = h)).map (fun q => q.2.hlane)

theorem mem_homeWarps {lanes : List (Nat × LaneEnt)} {q : Nat × LaneEnt} (hq : q ∈ lanes) : q.2.hwarp ∈ homeWarps lanes :=
  List.mem_eraseDups.2 (List.mem_map_of_mem hq)

/-- A commit point of lanes rewrites the records of their home warps' threads. -/
theorem commitLanes_find {s : State} {wid h l : Nat} {lanes : List (Nat × LaneEnt)} (hl : l < 32) (hh : h ∈ homeWarps lanes) :
    (commitLanes s wid lanes).rg.threads.find (thKey (s.warp wid).gi h l) =
      (s.rg.threads.find (thKey (s.warp wid).gi h l)).map (recorded s (s.warp wid).gi h l wid (lanesOfHome lanes h)) := by
  refine find_foldl_of_hits (W := s.wk) (hit := fun h' => h' = h) (recorded_recorded s (s.warp wid).gi h l wid (lanesOfHome lanes h)) ?_ ?_
    (fun _ _ => commitHW_wk ..) _ _ rfl ⟨h, hh, rfl⟩
  · rintro t _ ht rfl
    have hw : t.warp wid = s.warp wid := warp_congr (by rw [ht]) wid
    rw [hw, commitHW_find_self hl]
    unfold recorded
    rw [recordAt_congr ht]
    rfl
  · intro t h' ht hne
    have hw : t.warp wid = s.warp wid := warp_congr (by rw [ht]) wid
    rw [hw, commitHW_find_ne hl hne]

/-- The record of a lane that its warp carries past its word. -/
theorem recordAt_past {s : State} {gi h l id : Nat} {t : Thread} {after : List Nat} {x : Warp} (hx : warpOfThread s gi h l = some (id, x))
    (ht : x.tail = false) (ha : l ∈ after) :
    ∃ temps, recordAt s gi h l t id after =
      { isOpen := true, pc := x.pc + 8, prio := t.prio, temps := temps, count := x.count + x.wordN, named := x.named ||| x.wordNamed, run := id } := by
  refine ⟨(List.range 8).map (fun i => NMap.get 0 x.temps (physOf x h l * 8 + i)), ?_⟩
  simp [recordAt, hx, ht, ha]


theorem awaitRegs_wk (s : State) (gi : Nat) (hs regs : List Nat) : (awaitRegs s gi hs regs).wk = s.wk :=
  foldl_keep State.wk _ (fun _ _ => State.updHWarp_wk ..) _ _

theorem calmPart_awaitRegs (s : State) (gi : Nat) (hs regs : List Nat) : calmPart (awaitRegs s gi hs regs) = calmPart s := by
  unfold awaitRegs
  exact foldl_keep calmPart _ (fun _ _ => by rfl) _ _

theorem awaitRegs_threads (s : State) (gi : Nat) (hs regs : List Nat) : (awaitRegs s gi hs regs).rg.threads = s.rg.threads := by
  unfold awaitRegs
  exact foldl_keep (fun t : State => t.rg.threads) _ (fun _ _ => by rfl) _ _

theorem awaitRegs_md (s : State) (gi : Nat) (hs regs : List Nat) : (awaitRegs s gi hs regs).md = s.md :=
  foldl_keep State.md _ (fun _ _ => State.updHWarp_md ..) _ _

/-- Reading a home warp's record after an update of one. -/
theorem hwarp_updHWarp (s : State) (k j : Nat) (f : HWarp → HWarp) : (s.updHWarp k f).hwarp j = if j = k then f (s.hwarp k) else s.hwarp j := by
  unfold State.hwarp
  rw [State.updHWarp_rg]
  split
  next h => rw [h, NMap.get_set_self]
  next h => rw [NMap.get_set_ne _ _ _ _ _ h]

theorem hwKey_inj {gi h h' : Nat} (e : hwKey gi h = hwKey gi h') : h = h' := by
  simp only [hwKey] at e
  omega

/-- Registers awaited join those of the home warps named, whose FIFOs are as they were. -/
theorem awaitRegs_hwarp (s : State) (gi : Nat) (hs regs : List Nat) (h : Nat) :
    ((awaitRegs s gi hs regs).hwarp (hwKey gi h)).fifo = (s.hwarp (hwKey gi h)).fifo ∧
      ∀ r, r ∈ ((awaitRegs s gi hs regs).hwarp (hwKey gi h)).awaited ↔ r ∈ (s.hwarp (hwKey gi h)).awaited ∨ (h ∈ hs ∧ r ∈ regs) := by
  unfold awaitRegs
  induction hs generalizing s with
  | nil => simp
  | cons a hs ih =>
    rw [List.foldl_cons]
    obtain ⟨ihf, iha⟩ := ih (s.updHWarp (hwKey gi a) (fun x => { x with awaited := (x.awaited ++ regs).eraseDups }))
    rw [hwarp_updHWarp] at ihf iha
    by_cases e : h = a
    · subst e
      refine ⟨by simpa using ihf, fun r => ?_⟩
      rw [iha r]
      simp [List.mem_eraseDups]
      tauto
    · rw [if_neg fun e' => e (hwKey_inj e')] at ihf iha
      refine ⟨ihf, fun r => ?_⟩
      rw [iha r]
      simp [e]

theorem mem_trailRegs (l : List (Option Reg)) (r : Nat) : r ∈ trailRegs l ↔
    ∃ g ∈ l, (∃ n : Fin 192, g = some (.v n) ∧ r = n.val) ∨ ∃ n : Fin 48, g = some (.s n) ∧ r = 192 + n.val := by
  unfold trailRegs
  rw [List.mem_filterMap]
  refine exists_congr fun g => and_congr Iff.rfl ?_
  rcases g with _ | (n | n | n | _ | _)
  case none => simp
  case some.v => simp [eq_comm]
  case some.s => simp [eq_comm]
  all_goals simp

/-- Where no result is awaited, the warp is gone when its run has ended. -/
theorem finish_end_self (s : State) (w : Bool) (hw : (w && pendingFor s s.curWarp.gi (warpThreads s.curWarp)) = false) :
    (finish s true w).wk.warps.find s.md.cur = none := by
  cases hx : s.wk.warps.find s.md.cur with
  | none =>
    by_contra hne
    obtain ⟨y, hy⟩ := Option.ne_none_iff_exists'.1 hne
    obtain ⟨x, hx', -⟩ := finish_self s true w y hy
    simp [hx] at hx'
  | some x =>
    rw [curWarp_eq hx] at hw
    by_cases ha : activeLanes x = []
    · have hc : activeLanes (s.warp s.md.cur) = [] := by rw [← ha]; exact congrArg activeLanes (curWarp_eq hx)
      rw [finish, if_pos hc]
      exact dropEmpty_self _ _ hc
    · rw [finish_eq hx ha, hw]
      exact endRun_self _ _

end Sys2Proof.Machine
end

section
namespace Sys2Proof.Machine

/-- A thread whose region RGN has opened. -/
def opened (t : Thread) : Thread := { t with restart := { t.restart with isOpen := true } }

/-- The threads of a list of lanes with their regions opened. -/
def openLanes (s : State) (gi : Nat) (lanes : List (Nat × LaneEnt)) : State :=
  lanes.foldl (fun s q => s.updThread (thKey gi q.2.hwarp q.2.hlane) opened) s

theorem calmPart_openLanes (s : State) (gi : Nat) (lanes : List (Nat × LaneEnt)) : calmPart (openLanes s gi lanes) = calmPart s := by
  unfold openLanes
  exact foldl_keep calmPart _ (fun _ _ => by rfl) _ _

theorem exec_rgn (h : Hdr) (s : State) : exec (.rgn h) s =
    .next (finish (commitLanes (openLanes s s.curWarp.gi (takingLanes s s.curWarp h)) s.md.cur (takingLanes s s.curWarp h)) h.b h.w) := by
  have hcur : (openLanes s s.curWarp.gi (takingLanes s s.curWarp h)).md = s.md := seat_md ..
  rw [← hcur]
  rfl

/-- The record that RGN leaves in the thread of a taking lane. -/
theorem rgn_restart {s : State} {x : Warp} {lanes : List (Nat × LaneEnt)} {b w : Bool} (hx : s.curWarp = x) (ht : x.tail = false)
    {q : Nat × LaneEnt} (hq : q ∈ lanes) (hl : q.2.hlane < 32) (hw : warpOfThread s x.gi q.2.hwarp q.2.hlane = some (s.md.cur, x)) {th : Thread}
    (hth : (finish (commitLanes (openLanes s x.gi lanes) s.md.cur lanes) b w).rg.threads.find (thKey x.gi q.2.hwarp q.2.hlane) = some th) :
    th.restart.isOpen = true ∧ th.restart.pc = x.pc + 8 ∧ th.restart.count = x.count + x.wordN ∧
      th.restart.named = x.named ||| x.wordNamed := by
  have hwk : (openLanes s x.gi lanes).wk = s.wk := seat_wk ..
  have hxo : (openLanes s x.gi lanes).warp s.md.cur = x := (warp_congr (by rw [hwk]) _).trans hx
  have hopen : (openLanes s x.gi lanes).rg.threads.find (thKey x.gi q.2.hwarp q.2.hlane) =
      (s.rg.threads.find (thKey x.gi q.2.hwarp q.2.hlane)).map opened :=
    seat_find (f := opened) (fun _ => rfl) _ _ _ ⟨q, hq, rfl⟩
  have hcommit := commitLanes_find (s := openLanes s x.gi lanes) (wid := s.md.cur) hl (mem_homeWarps hq)
  rw [hxo, hopen] at hcommit
  have hkeep := finish_threads (·.restart) (fun _ _ => rfl) (commitLanes (openLanes s x.gi lanes) s.md.cur lanes) b w
    (thKey x.gi q.2.hwarp q.2.hlane)
  rw [hth, hcommit] at hkeep
  obtain ⟨y, hy, hr⟩ := Option.map_eq_some_iff.1 hkeep.symm
  obtain ⟨z, hz, rfl⟩ := Option.map_eq_some_iff.1 hy
  obtain ⟨z', -, rfl⟩ := Option.map_eq_some_iff.1 hz
  obtain ⟨temps, hrec⟩ := recordAt_past (t := opened z') hw ht
    (show q.2.hlane ∈ lanesOfHome lanes q.2.hwarp from List.mem_map_of_mem (List.mem_filter.2 ⟨hq, by simp⟩))
  have hopened : (opened z').restart.isOpen = true := rfl
  rw [recorded, if_pos hopened, recordAt_congr hwk, hrec] at hr
  replace hr : th.restart = _ := hr.symm
  rw [hr]
  exact ⟨rfl, rfl, rfl, rfl⟩

/-- Settles O24: RGN is a commit point that places its lanes' records past the word; TRL notes its registers and ends the run. -/
theorem regionsAndTrailers : Obligations.RegionsAndTrailers := by
  intro s h x lanes
  constructor
  · intro hlanes htail
    obtain ⟨t, ht⟩ : ∃ t, finish (commitLanes (openLanes s x.gi lanes) s.md.cur lanes) h.b h.w = t := ⟨_, rfl⟩
    have hexec : exec (.rgn h) s = .next t := (exec_rgn h s).trans (congrArg _ ht)
    obtain ⟨hcalm, hcx, hk⟩ := calm_of_calmPart (s := s) (t := t)
      (by rw [← ht, calmPart_finish, calmPart_commitLanes, calmPart_openLanes])
    refine ⟨t, hexec, hcalm, hcx, hk, fun q hq th hth => ?_⟩
    exact rgn_restart rfl htail hq (hlanes q hq).2 (hlanes q hq).1 (ht ▸ hth)
  · intro w r0 r1 r2 r3
    obtain ⟨m, hm⟩ : ∃ m, awaitRegs s x.gi (warpHomes x) (trailRegs [r0, r1, r2, r3]) = m := ⟨_, rfl⟩
    have hexec : exec (.trl w r0 r1 r2 r3) s = .next (finish m true w) := by rw [← hm]; rfl
    have hwk : m.wk = s.wk := hm ▸ awaitRegs_wk ..
    have hcur : m.md = s.md := hm ▸ awaitRegs_md ..
    have hx : m.curWarp = x := by rw [State.curWarp, hcur]; exact warp_congr (by rw [hwk]) _
    obtain ⟨hcalm, hcx, hk⟩ := calm_of_calmPart (s := s) (t := finish m true w)
      (by rw [calmPart_finish, ← hm, calmPart_awaitRegs])
    refine ⟨_, hexec, hcalm, hcx, hk, fun k => ?_, fun hw hhw => ?_, fun hwait => ?_⟩
    · rw [finish_threads Say.seated (fun _ _ => rfl), ← hm, awaitRegs_threads]
    · have hhome : (finish m true w).hwarp (hwKey x.gi hw) = m.hwarp (hwKey x.gi hw) := by
        unfold State.hwarp
        rw [still_hwarps (still_finish m true w)]
      rw [hhome, ← hm]
      obtain ⟨hf, ha⟩ := awaitRegs_hwarp s x.gi (warpHomes x) (trailRegs [r0, r1, r2, r3]) hw
      refine ⟨hf, fun r => (ha r).trans (or_congr Iff.rfl ?_)⟩
      rw [and_iff_right (show hw ∈ warpHomes x from hhw), mem_trailRegs]
    · rw [← hcur]
      refine finish_end_self m w ?_
      rw [hx, pendingFor, hwk]
      exact hwait

end Sys2Proof.Machine
end

section
/-!
SUPPORT. Two writes of registers by one word (R54, R55): the first leaves the second's lanes as they were, and what one destination of one
register leaves alone.
-/
namespace Sys2Proof.Machine
open Say

/-- The part of an issue warp that says which lanes a guard takes. -/
def guardPart (w : Warp) : Nat × List LaneEnt × NMap Bool := (w.gi, w.lanes, w.hp)

theorem guardPart_writeLane (s : State) (wid id p : Nat) (e : LaneEnt) (r : Reg) (w val : Nat) :
    ((writeLane s wid p e r w val).wk.warps.find id).map guardPart = (s.wk.warps.find id).map guardPart := by
  unfold writeLane
  split
  · simp only
    split
    · exact find_upd_map _ _ _ _ _ (fun _ => rfl)
    · exact find_upd_map _ _ _ _ _ (fun _ => rfl)
  · exact find_upd_map _ _ _ _ _ (fun _ => rfl)
  all_goals rfl

theorem guardPart_writeS (s : State) (wid id n w val : Nat) :
    ((writeS s wid n w val).wk.warps.find id).map guardPart = (s.wk.warps.find id).map guardPart := by
  refine (congrArg _ (noteSWrite_find ..)).trans ?_
  cases NMap.find s.wk.warps id with
  | none => rfl
  | some x =>
    simp only [Option.map_some]
    split_ifs <;> rfl

theorem guardPart_writeDst (s : State) (wid id : Nat) (d : Reg) (w : Nat) (vals : List (Nat × LaneEnt × Nat)) :
    ((writeDst s wid d w vals).wk.warps.find id).map guardPart = (s.wk.warps.find id).map guardPart := by
  unfold writeDst
  split
  · split
    · exact guardPart_writeS ..
    · rfl
  all_goals exact foldl_keep (fun t : State => (t.wk.warps.find id).map guardPart) _ (fun _ _ => guardPart_writeLane ..) _ _

/-- A write of registers changes no guard. -/
theorem guardedLanes_writeDst (s : State) (wid id : Nat) (d : Reg) (w : Nat) (vals : List (Nat × LaneEnt × Nat)) (h : Hdr) :
    guardedLanes (writeDst s wid d w vals) ((writeDst s wid d w vals).warp id) h = guardedLanes s (s.warp id) h := by
  obtain ⟨m, hm⟩ : ∃ m, writeDst s wid d w vals = m := ⟨_, rfl⟩
  have hpart : guardPart (m.warp id) = guardPart (s.warp id) := by
    have := guardPart_writeDst s wid id d w vals
    rw [hm] at this
    unfold State.warp
    cases hn : NMap.find s.wk.warps id <;> cases hn' : NMap.find m.wk.warps id <;> simp_all
  simp only [guardPart, Prod.mk.injEq] at hpart
  obtain ⟨hgi, hlanes, hhp⟩ := hpart
  have hp : m.rg.p = s.rg.p := hm ▸ preds_of_dst ..
  have hth : m.rg.threads = s.rg.threads := congrArg (fun x => x.2.1.1) (hm ▸ around_writeDst s wid d w vals)
  rw [hm]
  simp only [guardedLanes, liveLanes, guardOf, readPred, helperThread, hgi, hlanes, hhp, hp, hth]

theorem dest_v_other {s t : State} {h : Hdr} {d : Reg} {R : Nat → LaneEnt → Nat → Prop} (hd : Dest s t h d 1 R) {k : Nat}
    (hk : ∀ n : Fin 192, d = .v n → ∀ q ∈ takingLanes s s.curWarp h, k ≠ vKey s.curWarp.gi q.2.hwarp n.val q.2.hlane) :
    NMap.get 0 t.rg.v k = NMap.get 0 s.rg.v k := by
  cases d with
  | v n =>
    refine hd.2.1 k fun q hq i hi => ?_
    obtain rfl : i = 0 := by omega
    exact hk n rfl q hq
  | s n => exact congrArg (NMap.get 0 · k) hd.2.2.1
  | t n => exact congrArg (NMap.get 0 · k) hd.2.1
  | zero => exact congrArg (NMap.get 0 · k) hd.1
  | lane => exact congrArg (NMap.get 0 · k) hd.1

theorem dest_s_other {s t : State} {h : Hdr} {d : Reg} {R : Nat → LaneEnt → Nat → Prop} (hd : Dest s t h d 1 R) {k : Nat}
    (hk : ∀ n : Fin 48, d = .s n → k ≠ sKey s.curWarp.gi n.val) : NMap.get 0 t.rg.s k = NMap.get 0 s.rg.s k := by
  cases d with
  | v n => exact congrArg (NMap.get 0 · k) hd.2.2.1
  | s n =>
    refine hd.2.1 k fun _ i hi => ?_
    obtain rfl : i = 0 := by omega
    exact hk n rfl
  | t n => exact congrArg (NMap.get 0 · k) hd.2.2
  | zero => exact congrArg (NMap.get 0 · k) hd.2.1
  | lane => exact congrArg (NMap.get 0 · k) hd.2.1

theorem dest_t_other {s t : State} {h : Hdr} {d : Reg} {R : Nat → LaneEnt → Nat → Prop} (hd : Dest s t h d 1 R) {y : Warp}
    (hy : t.wk.warps.find s.md.cur = some y) {k : Nat} (hk : ∀ n : Fin 8, d = .t n → ∀ p, k ≠ p * 8 + n.val) :
    NMap.get 0 y.temps k = NMap.get 0 s.curWarp.temps k := by
  cases d with
  | v n => exact congrArg (NMap.get 0 · k) (hd.2.2.2 y hy)
  | s n => exact congrArg (NMap.get 0 · k) (hd.2.2.2 y hy)
  | t n =>
    refine (hd.1 y hy).2 k fun q _ i hi => ?_
    obtain rfl : i = 0 := by omega
    exact hk n rfl q.1
  | zero => exact congrArg (NMap.get 0 · k) (hd.2.2 y hy)
  | lane => exact congrArg (NMap.get 0 · k) (hd.2.2 y hy)

theorem dest_v_self {s t : State} {h : Hdr} {n : Fin 192} {f : Nat → LaneEnt → Nat} (hd : Dest s t h (.v n) 1 (fun p e v => v = f p e))
    {q : Nat × LaneEnt} (hq : q ∈ takingLanes s s.curWarp h)
    (hs : ∀ r ∈ takingLanes s s.curWarp h, r.1 ≠ q.1 →
      vKey s.curWarp.gi r.2.hwarp n.val r.2.hlane ≠ vKey s.curWarp.gi q.2.hwarp n.val q.2.hlane) :
    NMap.get 0 t.rg.v (vKey s.curWarp.gi q.2.hwarp n.val q.2.hlane) = wordOf (f q.1 q.2) 0 := by
  obtain ⟨val, rfl, hv⟩ := hd.1 q hq fun r hr hne i hi j hj => by
    obtain rfl : i = 0 := by omega
    obtain rfl : j = 0 := by omega
    exact hs r hr hne
  exact hv 0 (by omega)

theorem dest_s_self {s t : State} {h : Hdr} {n : Fin 48} {f : Nat → LaneEnt → Nat} (hd : Dest s t h (.s n) 1 (fun p e v => v = f p e))
    {q : Nat × LaneEnt} (hq : q ∈ takingLanes s s.curWarp h) (hs : highest (takingLanes s s.curWarp h) q) :
    NMap.get 0 t.rg.s (sKey s.curWarp.gi n.val) = wordOf (f q.1 q.2) 0 := by
  obtain ⟨val, rfl, hv⟩ := hd.1 q hq hs
  exact hv 0 (by omega)

theorem dest_t_self {s t : State} {h : Hdr} {n : Fin 8} {f : Nat → LaneEnt → Nat} (hd : Dest s t h (.t n) 1 (fun p e v => v = f p e))
    {y : Warp} (hy : t.wk.warps.find s.md.cur = some y) {q : Nat × LaneEnt} (hq : q ∈ takingLanes s s.curWarp h) :
    NMap.get 0 y.temps (q.1 * 8 + n.val) = wordOf (f q.1 q.2) 0 := by
  obtain ⟨val, rfl, hv⟩ := (hd.1 y hy).1 (by omega) q hq
  exact hv 0 (by omega)

end Sys2Proof.Machine
end

section
namespace Sys2Proof.Machine
open Say

/-- A half's own guard, as a header. -/
def halfHdr (z : Half) : Hdr := ⟨false, false, false, z.g⟩

/-- The value a half forms in a lane, of its operands as the word issues. -/
def halfLane (s : State) (z : Half) (p : Nat) (e : LaneEnt) : Nat :=
  halfVal z.op z.m (srcVal s z.d 1 p e) (match z.a with | some r => srcVal s r 1 p e | none => 0)

/-- The state between the writes of a dual word's halves, and the one after both. -/
def firstHalf (s : State) (hx : Half) : State := writeDst s s.md.cur hx.d 1 (halfVals s hx)
def bothHalves (s : State) (hx hy : Half) : State := writeDst (firstHalf s hx) (firstHalf s hx).md.cur hy.d 1 (halfVals s hy)

theorem mid_firstHalf (s : State) (hx : Half) : Mid seated s (firstHalf s hx) := Mid.writeDst ..

theorem guardedLanes_firstHalf (s : State) (hx : Half) (h : Hdr) :
    guardedLanes (firstHalf s hx) (firstHalf s hx).curWarp h = guardedLanes s s.curWarp h := by
  rw [State.curWarp, (mid_firstHalf s hx).cur]
  exact guardedLanes_writeDst ..

theorem takingLanes_firstHalf (s : State) (hx : Half) (h : Hdr) :
    takingLanes (firstHalf s hx) (firstHalf s hx).curWarp h = takingLanes s s.curWarp h :=
  congrArg (List.filter _) (guardedLanes_firstHalf s hx h)

/-- What the first half's destination holds, at the end of a word that were its alone. -/
theorem dest_firstHalf (s : State) (hx : Half) :
    Dest s (finish (firstHalf s hx) false false) (halfHdr hx) hx.d 1 (fun p e v => v = halfLane s hx p e) :=
  dest_of_write (Mid.refl seated s) (Untouched.refl s) (halfHdr hx) hx.d 1 _ (Covers.laneVals s (halfHdr hx) _) _
    (fun _ hv _ => laneVals_val hv) _ (Mid.refl seated _) (Untouched.refl _) false false

/-- What the second half's destination holds, against the state between the writes: its values are of the word's own operands. -/
theorem dest_bothHalves (s : State) (b w : Bool) (hx hy : Half) :
    Dest (firstHalf s hx) (finish (bothHalves s hx hy) b w) (halfHdr hy) hy.d 1 (fun p e v => v = halfLane s hy p e) := by
  have hc := Covers.laneVals s (halfHdr hy) (halfLane s hy)
  have hc' : Covers (firstHalf s hx) (halfHdr hy) (halfVals s hy) := by
    refine ⟨fun v hv => ?_, fun q hq => hc.all q ?_, hc.one⟩
    · rw [guardedLanes_firstHalf]
      exact hc.sub v hv
    · rwa [← takingLanes_firstHalf s hx]
  exact dest_of_write (Mid.refl seated _) (Untouched.refl _) (halfHdr hy) hy.d 1 _ hc' _ (fun _ hv _ => laneVals_val hv) _
    (Mid.refl seated _) (Untouched.refl _) b w

theorem mid_bothHalves (s : State) (hx hy : Half) : Mid seated s (bothHalves s hx hy) := (mid_firstHalf s hx).trans (Mid.writeDst ..)

/-- A warp with an active lane that neither waits nor ends its run is there after its word, its temporaries as they were. -/
theorem finish_go_temps {m : State} {x : Warp} (hx : m.wk.warps.find m.md.cur = some x) (ha : activeLanes x ≠ []) :
    ∃ z, (finish m false false).wk.warps.find m.md.cur = some z ∧ z.temps = m.curWarp.temps := by
  rw [finish_eq hx ha, curWarp_eq hx]
  exact ⟨pastWord x, NMap.find_insert_self .., rfl⟩

theorem taking_active {s : State} {w : Warp} {h : Hdr} {q : Nat × LaneEnt} (hq : q ∈ takingLanes s w h) : q ∈ activeLanes w :=
  List.mem_filter.2 ⟨List.mem_of_mem_filter (taking_guarded hq).1, by simp [(taking_guarded hq).2]⟩

/-- The executing warp is there between the writes where it is there after its word. -/
theorem firstHalf_warp {s : State} {b w : Bool} {hx hy : Half} {y : Warp}
    (h : (finish (bothHalves s hx hy) b w).wk.warps.find s.md.cur = some y) : ∃ z, (firstHalf s hx).wk.warps.find (firstHalf s hx).md.cur = some z := by
  rw [← (mid_bothHalves s hx hy).cur] at h
  obtain ⟨z, hz, -⟩ := finish_self _ b w y h
  rw [(mid_bothHalves s hx hy).cur, ← (mid_firstHalf s hx).cur] at hz
  have hmid : Mid seated (firstHalf s hx) (bothHalves s hx hy) := Mid.writeDst ..
  have hself := hmid.self
  rw [hz] at hself
  obtain ⟨z', hz', -⟩ := Option.map_eq_some_iff.1 hself.symm
  exact ⟨z', hz'⟩

/-- Settles O25: the second half writes over the first, of values formed before either. -/
theorem dualWordsReadBothHalvesFirst : Obligations.DualWordsReadBothHalvesFirst := by
  intro s b w hx hy x lanes val free sole
  have hexec : exec (.dualWord b w hx hy) s = .next (finish (bothHalves s hx hy) b w) := rfl
  obtain ⟨m, hm⟩ : ∃ m, firstHalf s hx = m := ⟨_, rfl⟩
  obtain ⟨t, ht⟩ : ∃ t, finish (bothHalves s hx hy) b w = t := ⟨_, rfl⟩
  have dx := dest_firstHalf s hx
  have dy := dest_bothHalves s b w hx hy
  have mx := mid_firstHalf s hx
  have hlanes := takingLanes_firstHalf s hx
  have hv : (finish (firstHalf s hx) false false).rg.v = (firstHalf s hx).rg.v := still_v (still_finish ..)
  have hs : (finish (firstHalf s hx) false false).rg.s = (firstHalf s hx).rg.s := still_s (still_finish ..)
  have hp : t.rg.p = s.rg.p := by
    rw [← ht, still_p (still_finish ..), bothHalves, preds_of_dst, firstHalf, preds_of_dst]
  have hkept : Kept seated s t := ht ▸ (mid_bothHalves s hx hy).kept seatAt_seated b w
  rw [ht] at hexec dy
  rw [hm] at dx dy mx hlanes hv hs
  have hgi : m.curWarp.gi = x.gi := by rw [State.curWarp, mx.cur]; exact mx.gi
  refine ⟨t, hexec, hkept, hp, ?_, ?_, ?_, ?_, ?_, ?_, ?_⟩
  · intro n hn q hq hq1
    rw [hn] at dy
    have := dest_v_self dy (q := q) (by rw [hlanes]; exact hq) (by rw [hlanes, hgi]; exact hq1)
    rwa [hgi] at this
  · intro n hn q hq hq1 hfree
    rw [hn] at dx
    rw [dest_v_other dy (by rw [hlanes, hgi]; exact hfree), ← hv]
    exact dest_v_self dx hq hq1
  · intro k hkx hky
    rw [dest_v_other dy (by rw [hlanes, hgi]; exact hky), ← hv]
    exact dest_v_other dx hkx
  · intro n hn q hq hq1
    rw [hn] at dy
    have := dest_s_self dy (q := q) (by rw [hlanes]; exact hq) (by rw [hlanes]; exact hq1)
    rwa [hgi] at this
  · intro n hn hne q hq hq1
    rw [hn] at dx
    rw [dest_s_other dy fun n' hn' e => hne ?_, ← hs]
    · exact dest_s_self dx hq hq1
    · have : n' = n := Fin.ext (by simp only [sKey, hgi, x] at e; omega)
      rw [← this, hn']
  · intro k hk
    rw [dest_s_other dy fun n hn => hgi ▸ hk n (.inr hn), ← hs]
    exact dest_s_other dx fun n hn => hk n (.inl hn)
  · intro y hy
    have hcur : m.md.cur = s.md.cur := mx.cur
    refine ⟨fun n hn q hq => ?_, fun n hn hne q hq => ?_⟩
    · rw [hn] at dy
      exact dest_t_self dy (by rw [hcur]; exact hy) (by rw [hlanes]; exact hq)
    · rw [hn] at dx
      rw [dest_t_other dy (by rw [hcur]; exact hy) fun n' hn' p e => hne ?_]
      · obtain ⟨z, hz⟩ := firstHalf_warp (ht ▸ hy)
        rw [hm] at hz
        have ha : activeLanes z ≠ [] := by
          have : q ∈ activeLanes m.curWarp := taking_active (h := halfHdr hx) (by rw [hlanes]; exact hq)
          rw [curWarp_eq hz] at this
          exact List.ne_nil_of_mem this
        obtain ⟨z', hz', hzt⟩ := finish_go_temps hz ha
        rw [← hzt]
        exact dest_t_self dx (hcur ▸ hz') hq
      · have : n' = n := Fin.ext (by omega)
        rw [← this, hn']

end Sys2Proof.Machine
end

section
/-!
SUPPORT. A load that bypasses an L1 line which names a word twice, once clean and unowned and once owned: of the pair of words that it asks
for it drops the first and reads the second, where the directory's word would be memory's (R136, R156).
-/
namespace Sys2Proof.Machine

/-- Word 0 of line 0 stands twice in core 0's L1, the second time owned with the value 1; memory reads 0. -/
def twiceNamed : State :=
  { md := { cur := 1 }
    wk := { warps := [(1, { lanes := [{ live := true }] })] }
    mm := { l1 := [(0, { words := [(0, {}), (0, { val := 1, owned := true })] })] }
    xl := { tlb := [{}] } }

/-- LD.w64 of address 0, with the bypass hint. -/
def bypassLoad : MemOp := ⟨.zero, none, 0, .w64, .grp, false, .bypass, none, 0⟩

def afterLoad : State := match exec (.ld ⟨false, false, false, 7⟩ (.v 0) bypassLoad) twiceNamed with
  | .next t => t
  | _ => {}

theorem exec_bypassLoad : exec (.ld ⟨false, false, false, 7⟩ (.v 0) bypassLoad) twiceNamed = .next afterLoad := rfl

theorem NMap.mem_of_find {α : Type} {m : NMap α} {k : Nat} {x : α} (h : NMap.find m k = some x) : (k, x) ∈ m := by
  induction m with
  | nil => simp [NMap.find] at h
  | cons c m ih =>
    obtain ⟨j, v⟩ := c
    by_cases hj : j = k
    · simp_all [NMap.find]
    · rw [NMap.find, if_neg hj] at h
      exact List.mem_cons_of_mem _ (ih h)

/-- The one value in flight after it. -/
theorem afterLoad_vals : ∀ r ∈ afterLoad.wk.results, ∀ l ∈ r.2.lanes, l.vals = [1, 0] := by decide

theorem twiceNamed_lanes : takingLanes twiceNamed twiceNamed.curWarp ⟨false, false, false, 7⟩ = [(0, { live := true })] := by decide

/-- No L1 holds a dirty word. -/
theorem twiceNamed_clean (core a : Nat) : ¬Say.DirtyAt twiceNamed core a := by
  rintro ⟨e, he, -, w, hw, hd, -⟩
  have : ∀ e ∈ twiceNamed.mm.l1, ∀ w ∈ e.2.words, w.2.dirty = false := by decide
  simp [this e he w hw] at hd

/-- What the statement says each byte of the load reads: memory's, which is 0. -/
theorem twiceNamed_loadByte {i : Nat} (hi : i < 8) {b : Byte} (h : Say.LoadByte twiceNamed twiceNamed.curWarp 0 0 8 false i b) : b = 0 := by
  have hmem : ∀ a, memByte twiceNamed a = 0 := fun _ => rfl
  have hown : ownByte (twiceNamed.hwarp (hwKey twiceNamed.curWarp.gi 0)).fifo 0 (memHit i) = none := rfl
  have hclean := twiceNamed_clean 0 i
  by_cases h4 : i < 4
  · have hword : l1Word twiceNamed twiceNamed.curWarp.core i = some {} := by interval_cases i <;> rfl
    have hpair : (l1Line twiceNamed twiceNamed.curWarp.core (i / 128)).words.find (pairWord (i % 128 / 4)) = none := by
      interval_cases i <;> rfl
    simp only [Say.LoadByte, hown, hword, hpair, Bool.false_eq_true, if_false] at h
    exact h.1 (by simp) hclean
  · have hi4 : 4 ≤ i := by omega
    have hword : l1Word twiceNamed twiceNamed.curWarp.core i = none := by interval_cases i <;> rfl
    simp only [Say.LoadByte, hown, hword] at h
    exact h hclean

/-- Refutes O26: at `twiceNamed` the load of `bypassLoad` puts the L1's second word of that name in flight, 1, and not memory's 0. -/
theorem not_loadsPutTheirValuesInFlight : ¬ Obligations.LoadsPutTheirValuesInFlight := by
  intro h
  obtain ⟨hld, -⟩ := h twiceNamed ⟨false, false, false, 7⟩ (.v 0) bypassLoad ⟨rfl, by simp [bypassLoad]⟩ ⟨by decide, by decide⟩
  obtain ⟨t, ht, -, -, -, hsole⟩ := hld (fun _ => {}) fun q hq => by
    obtain rfl : q = (0, { live := true }) := by simpa [twiceNamed_lanes] using hq
    exact ⟨⟨by decide, by decide, by decide⟩, .inl rfl, by decide, rfl, rfl, ⟨rfl, by decide⟩, fun h => absurd h (by decide)⟩
  obtain rfl : t = afterLoad := by
    rw [exec_bypassLoad] at ht
    exact (Host.Outcome.next.inj ht).symm
  obtain ⟨l, hlen, hbytes, id, r, x, hfind, -, -, -, hx, -, -, -, hvals⟩ := hsole (0, { live := true }) (by decide) (by decide) 0 rfl
  have hx1 := afterLoad_vals _ (NMap.mem_of_find hfind) x hx
  replace hlen : l.length = 8 := hlen
  have hl : l = List.replicate 8 0 := by
    refine List.ext_getElem (by simpa using hlen) fun i hi _ => ?_
    have hi8 : i < 8 := hlen ▸ hi
    have hread : Say.LoadByte twiceNamed twiceNamed.curWarp 0 0 8 false (0 + i) (l.getD i 0) := hbytes i hi8
    rw [Nat.zero_add] at hread
    have hb := twiceNamed_loadByte hi8 hread
    rw [List.getElem_replicate, ← hb, List.getD_eq_getElem]
  rw [hvals, hl] at hx1
  exact absurd hx1 (by decide)

end Sys2Proof.Machine
end

section
/-!
SUPPORT. What returns (R64, R66): the writes of a pending result's lanes, one after the other, and the work that they finish.
-/
namespace Sys2Proof.Machine

/-! ### A list of writes to a map -/

/-- A fold that meets an item which turns a state of one kind into one of another, which every item keeps. -/
theorem foldl_reaches {σ β : Type} {f : σ → β → σ} {p q : σ → Prop} {w : β} {l : List β} (hw : w ∈ l)
    (hp : ∀ s, ∀ x ∈ l, x ≠ w → p s → p (f s x)) (hpq : ∀ s, p s → q (f s w)) (hq : ∀ s, ∀ x ∈ l, q s → q (f s x)) {s : σ} (h : p s) :
    q (l.foldl f s) := by
  induction l generalizing s with
  | nil => cases hw
  | cons x l ih =>
    have hend : q (f s x) → q (l.foldl f (f s x)) := fun h =>
      List.foldlRecOn l f h fun s h y hy => hq s y (List.mem_cons_of_mem _ hy) h
    by_cases hx : x = w
    · subst hx
      exact hend (hpq s h)
    · refine ih ((List.mem_cons.1 hw).resolve_left (Ne.symm hx)) (fun s y hy => hp s y (List.mem_cons_of_mem _ hy))
        (fun s y hy => hq s y (List.mem_cons_of_mem _ hy)) (hp s x List.mem_cons_self hx h)

/-- A map after a list of writes, the first of the list first. -/
def NMap.writes {α : Type} [DecidableEq α] (d : α) (m : NMap α) (ws : List (Nat × α)) : NMap α :=
  ws.foldl (fun m w => NMap.set d m w.1 w.2) m

theorem NMap.get_writes_ne {α : Type} [DecidableEq α] {d : α} {m : NMap α} {ws : List (Nat × α)} {k : Nat} (h : ∀ w ∈ ws, w.1 ≠ k) :
    NMap.get d (NMap.writes d m ws) k = NMap.get d m k := by
  induction ws generalizing m with
  | nil => rfl
  | cons w ws ih =>
    obtain ⟨hw, hws⟩ := List.forall_mem_cons.1 h
    exact (ih hws).trans (NMap.get_set_ne _ _ _ _ _ hw.symm)

theorem NMap.get_writes_self {α : Type} [DecidableEq α] {d : α} {m : NMap α} {ws : List (Nat × α)} {k : Nat} {x : α}
    (hk : ∃ w ∈ ws, w.1 = k) (h : ∀ w ∈ ws, w.1 = k → w.2 = x) : NMap.get d (NMap.writes d m ws) k = x := by
  obtain ⟨w, hw, rfl⟩ := hk
  refine foldl_reaches (p := fun _ => True) (q := fun m => NMap.get d m w.1 = x) hw (fun _ _ _ _ _ => trivial) (fun m _ => ?_) (fun m v hv hm => ?_)
    trivial
  · rw [NMap.get_set_self, h w hw rfl]
  · by_cases e : w.1 = v.1
    · rw [e, NMap.get_set_self, h v hv e.symm]
    · rwa [NMap.get_set_ne _ _ _ _ _ e]

/-! ### Lanes of a result -/

/-- What one lane's values write to the registers: a helper lane's own copy is not among them. -/
def laneWrites (gi h : Nat) (l : ResLane) : List (Nat × Word) :=
  match l.help with
  | some _ => []
  | none => (List.range l.vals.length).map (fun i => (vKey gi h (l.reg + i) l.lane, l.vals.getD i 0))

theorem mem_laneWrites {gi h : Nat} {l : ResLane} {w : Nat × Word} : w ∈ laneWrites gi h l ↔
    l.help = none ∧ ∃ i < l.vals.length, w = (vKey gi h (l.reg + i) l.lane, l.vals.getD i 0) := by
  unfold laneWrites
  cases l.help with
  | some _ => simp
  | none => simp [eq_comm]

/-- What a landing leaves alone. -/
def offResult (s : State) : NMap Word × NMap Bool × NMap Nat × NMap Result × NMap Work × MemSt :=
  (s.rg.s, s.rg.p, s.rg.sb, s.wk.results, s.wk.works, s.mm)

theorem landLane_v (s : State) (gi h : Nat) (l : ResLane) : (landLane s gi h l).rg.v = NMap.writes 0 s.rg.v (laneWrites gi h l) := by
  unfold landLane laneWrites
  cases l.help with
  | some _ => rfl
  | none =>
    rw [NMap.writes, List.foldl_map]
    refine (List.foldl_hom (fun s : State => s.rg.v) fun s i => ?_).symm
    dsimp only
    split
    · rfl
    · split <;> rfl

theorem offResult_landLane (s : State) (gi h : Nat) (l : ResLane) : offResult (landLane s gi h l) = offResult s := by
  unfold landLane
  cases l.help with
  | some _ => rfl
  | none =>
    refine foldl_keep offResult _ (fun s i => ?_) _ _
    dsimp only
    split
    · rfl
    · split <;> rfl

theorem landLanes_v (s : State) (gi h : Nat) (ls : List ResLane) :
    (ls.foldl (fun s l => landLane s gi h l) s).rg.v = NMap.writes 0 s.rg.v (ls.flatMap (laneWrites gi h)) := by
  rw [NMap.writes, List.flatMap_def, List.foldl_flatten, List.foldl_map]
  exact (List.foldl_hom (fun s : State => s.rg.v) fun s l => (landLane_v s gi h l).symm).symm

/-! ### Work finished -/

/-- What finished work leaves alone: all but counters and works. -/
def offWork (s : State) : (NMap Word × NMap Word × NMap Bool × NMap HWarp × NMap Thread) × (NMap Result × NMap Warp × NMap Group) × MemSt × XlSt ×
    EngSt × FabSt × ModelSt :=
  ((s.rg.v, s.rg.s, s.rg.p, s.rg.hwarps, s.rg.threads), (s.wk.results, s.wk.warps, s.wk.groups), s.mm, s.xl, s.en, s.fb, s.md)

theorem offWork_finishWork (s : State) (id : Nat) : offWork (finishWork s id) = offWork s := by
  unfold finishWork
  split
  · rfl
  · split
    · dsimp only
      split <;> rfl
    · rfl

theorem offWork_finishWorks (s : State) (ids : List Nat) : offWork (finishWorks s ids) = offWork s :=
  foldl_keep offWork _ (fun s id => offWork_finishWork s id) _ _

/-- The last part of counted work lowers its home warp's counter. -/
theorem finishWork_sbOf {s : State} {id c : Nat} {y : Work} (h : s.wk.works.find id = some y) (hl : y.left ≤ 1) (hc : y.sbc = some c) :
    sbOf (finishWork s id) y.gi y.hwarp c = sbOf s y.gi y.hwarp c - 1 := by
  simp only [finishWork, h, hl, if_true, hc]
  exact NMap.get_set_self ..

/-! ### A result returns -/

theorem exec_resultReturn {s : State} {id : Nat} {r : Result} (hr : s.wk.results.find id = some r) (hk : r.known = true) (late : Bool) :
    ∃ u : State, u.rg.v = NMap.writes 0 s.rg.v ((if late then r.lanes.map (resample s r.gi r.hwarp) else r.lanes).flatMap (laneWrites r.gi r.hwarp)) ∧
      (u.rg.s = s.rg.s ∧ u.rg.p = s.rg.p ∧ u.rg.sb = s.rg.sb) ∧ u.wk.results = s.wk.results.erase id ∧ u.wk.works = s.wk.works ∧ u.mm = s.mm ∧
      exec (.resultReturn id late) s = .next (match r.work with | some w => finishWork u w | none => u) := by
  let ls := if late then r.lanes.map (resample s r.gi r.hwarp) else r.lanes
  let m := ls.foldl (fun s l => landLane s r.gi r.hwarp l) s
  have ho : offResult m = offResult s := foldl_keep offResult _ (fun s l => offResult_landLane s _ _ l) _ _
  simp only [offResult, Prod.mk.injEq] at ho
  obtain ⟨hs, hp, hsb, hres, hwk, hmm⟩ := ho
  refine ⟨m.updWK (fun k => { k with results := k.results.erase id }), landLanes_v .., ⟨hs, hp, hsb⟩, ?_, hwk, hmm, ?_⟩
  · exact congrArg (fun m : NMap Result => m.erase id) hres
  · show Host.Outcome.next _ = _
    simp only [hr, hk]
    rfl

theorem resultReturn_done {s : State} {id : Nat} {late : Bool} {r : Result} (hr : s.wk.results.find id = some r) (hk : r.known = true) :
    ∃ t, exec (.resultReturn id late) s = .next t ∧ t.wk.results.find id = none ∧ t.mm = s.mm ∧ t.rg.s = s.rg.s ∧ t.rg.p = s.rg.p ∧
      (late = false → ∀ l ∈ r.lanes, l.help = none → ∀ i < l.vals.length,
        let key := vKey r.gi r.hwarp (l.reg + i) l.lane
        (∀ m ∈ r.lanes, m.help = none → ∀ j < m.vals.length, vKey r.gi r.hwarp (m.reg + j) m.lane = key → m.vals.getD j 0 = l.vals.getD i 0) →
          NMap.get 0 t.rg.v key = l.vals.getD i 0) ∧
      (∀ key, (∀ l ∈ r.lanes, l.help = none → ∀ i < l.vals.length, key ≠ vKey r.gi r.hwarp (l.reg + i) l.lane) →
        late = false → NMap.get 0 t.rg.v key = NMap.get 0 s.rg.v key) ∧
      ∀ w y c, r.work = some w → s.wk.works.find w = some y → y.left ≤ 1 → y.sbc = some c →
        sbOf t y.gi y.hwarp c = sbOf s y.gi y.hwarp c - 1 := by
  obtain ⟨u, hv, ⟨hs, hp, hsb⟩, hres, hwk, hmm, he⟩ := exec_resultReturn hr hk late
  let t := match r.work with | some w => finishWork u w | none => u
  have ho : offWork t = offWork u := by
    show offWork (match r.work with | some w => finishWork u w | none => u) = _
    split
    · exact offWork_finishWork ..
    · rfl
  simp only [offWork, Prod.mk.injEq] at ho
  obtain ⟨⟨hv', hs', hp', -⟩, ⟨hres', -⟩, hmm', -⟩ := ho
  refine ⟨t, he, ?_, hmm'.trans hmm, hs'.trans hs, hp'.trans hp, ?_, ?_, ?_⟩
  · rw [hres', hres, NMap.find_erase_self]
  · rintro rfl l hl hh i hi key hsame
    rw [hv', hv]
    refine NMap.get_writes_self ⟨_, List.mem_flatMap.2 ⟨l, hl, mem_laneWrites.2 ⟨hh, i, hi, rfl⟩⟩, rfl⟩ fun w hw e => ?_
    obtain ⟨m, hm, hw⟩ := List.mem_flatMap.1 hw
    obtain ⟨hmh, j, hj, rfl⟩ := mem_laneWrites.1 hw
    exact hsame m hm hmh j hj e
  · rintro key hn rfl
    rw [hv', hv]
    refine NMap.get_writes_ne fun w hw e => ?_
    obtain ⟨l, hl, hw⟩ := List.mem_flatMap.1 hw
    obtain ⟨hh, i, hi, rfl⟩ := mem_laneWrites.1 hw
    exact hn l hl hh i hi e.symm
  · intro w y c hw hy hl hc
    have ht : t = finishWork u w := by simp only [t, hw]
    rw [ht, finishWork_sbOf (hwk ▸ hy) hl hc]
    simp only [sbOf, hsb]

/-! ### A drop (R120) -/

theorem drop_done {s : State} {id : Nat} {d : DropItem} (hd : s.mm.drops.find id = some d) :
    ∃ t, exec (.drop id) s = .next t ∧ t.mm.drops.find id = none ∧ t.mm.mem = s.mm.mem ∧ t.rg = s.rg ∧
      (∀ core line, (core, line) ≠ (d.core, d.line) → l1Key core line ≠ l1Key d.core d.line → l1Line t core line = l1Line s core line) ∧
      ∀ y, y ∈ (l1Line t d.core d.line).words ↔ ∃ w ∈ (l1Line s d.core d.line).words,
        if w.1 ∈ d.words then w.2.dirty = true ∧ y = (w.1, { w.2 with owned := false }) else y = w := by
  let u := s.updMM (fun m => { m with drops := m.drops.erase id })
  refine ⟨applyDrop u d, ?_, ?_, rfl, rfl, fun core line _ hk => l1Line_setL1_ne hk, fun y => ?_⟩
  · show Host.Outcome.next _ = _
    simp only [hd]
    rfl
  · exact NMap.find_erase_self ..
  · rw [applyDrop, l1Line_setL1_self, words_normLine]
    show y ∈ List.map _ (List.filter _ (l1Line s d.core d.line).words) ↔ _
    simp only [List.mem_map, List.mem_filter]
    constructor
    · rintro ⟨w, ⟨hw, hf⟩, rfl⟩
      refine ⟨w, hw, ?_⟩
      by_cases hm : w.1 ∈ d.words
      · simp only [hm, List.contains_eq_mem, decide_true, if_true, Bool.true_and, Bool.not_not] at hf ⊢
        exact ⟨hf, trivial⟩
      · simp [hm]
    · rintro ⟨w, hw, h⟩
      by_cases hm : w.1 ∈ d.words
      · rw [if_pos hm] at h
        exact ⟨w, ⟨hw, by simp [h.1]⟩, by simp [hm, h.2]⟩
      · rw [if_neg hm] at h
        exact ⟨w, ⟨hw, by simp [hm]⟩, by simp [hm, h]⟩

/-! ### A lane tries an absent line again (R141) -/

theorem lineRetry_done {s : State} {wid : Nat} {w : Warp} {lines : List Nat} (hw : s.wk.warps.find wid = some w) (hp : w.park = .lines lines)
    (hg : (s.group w.gi).resident = true)
    (hl : ∀ l ∈ lines, let x := groupLine s (l / 4096) (l % 4096); x.p = true ∨ x.q = true ∨ s.wk.groups.find (l / 4096) = none) :
    ∃ t, exec (.lineRetry wid) s = .next t ∧ t.rg = s.rg ∧ t.mm = s.mm ∧ t.wk.warps.find wid = some { w with park := .none } ∧
      ∀ k, k ≠ wid → t.wk.warps.find k = s.wk.warps.find k := by
  have hws : s.warp wid = w := by simp [State.warp, hw]
  have hover : parkOver s w = true := by
    simp only [parkOver, hp, List.all_eq_true]
    intro l hm
    simpa [lineReady, or_assoc] using hl l hm
  refine ⟨s.updWarp wid (fun w => { w with park := .none }), ?_, rfl, rfl, ?_, fun k hk => NMap.find_upd_ne _ _ _ _ hk⟩
  · show Host.Outcome.next _ = _
    simp only [hws, hp, hg, hover, Bool.and_self, if_true]
  · show NMap.find (NMap.upd _ _ _) _ = _
    rw [NMap.find_upd_self, hw]
    rfl

end Sys2Proof.Machine
end

section
/-!
SUPPORT. A walk completes (R101 to R104): what walking leaves alone, the entry that it fills, the warps that await it.
-/
namespace Sys2Proof.Machine

/-! ### What walking leaves alone -/

/-- What no walk of the tables changes. -/
def offWalk (s : State) : RegSt × WorkSt × NMap Walk := (s.rg, s.wk, s.xl.walks)

theorem offWalk_sendDrop (s : State) (core line : Nat) (words : List Nat) : offWalk (sendDrop s core line words) = offWalk s := by
  unfold sendDrop
  split <;> rfl

theorem offWalk_llcEvict (s : State) (line : Nat) : offWalk (llcEvict s line) = offWalk s := by
  unfold llcEvict
  split
  · rfl
  · exact foldl_keep offWalk _ (fun _ _ => offWalk_sendDrop ..) _ _

theorem offWalk_llcEnsure (s : State) (line : Nat) : offWalk (llcEnsure s line) = offWalk s := by
  unfold llcEnsure
  split
  · rfl
  · dsimp only
    split
    · exact (offWalk_llcEvict ..).trans rfl
    · rfl

theorem offWalk_setMemBytes (s : State) (pa : Nat) (l : List Byte) : offWalk (setMemBytes s pa l) = offWalk s := by
  unfold setMemBytes
  refine foldl_keep offWalk _ (fun _ _ => ?_) _ _
  rfl

theorem offWalk_orEntry (s : State) (pa bits : Nat) : offWalk (orEntry s pa bits) = offWalk s := by
  unfold orEntry
  dsimp only
  split
  · rfl
  · refine (offWalk_setMemBytes ..).trans ?_
    split
    · exact (offWalk_sendDrop ..).trans (offWalk_llcEnsure ..)
    · exact offWalk_llcEnsure ..

theorem offWalk_markLeaves (s : State) (leaves : List Nat) (write : Bool) : offWalk (markLeaves s leaves write) = offWalk s :=
  foldl_keep offWalk _ (fun _ _ => offWalk_orEntry ..) _ _

/-- Translating in the stages below leaves the same alone, as a stage's walk then does. -/
def WalksApart (tr : AccKind → Nat → WAcc → XRes × WAcc) : Prop := ∀ k a acc, offWalk (tr k a acc).2.s = offWalk acc.s

section
variable {tr : AccKind → Nat → WAcc → XRes × WAcc}

theorem offWalk_readEntry (htr : WalksApart tr) (id stage level addr ea : Nat) (acc : WAcc) :
    offWalk (readEntry tr id stage level addr ea acc).2.s = offWalk acc.s := by
  have hsub := htr .read ea { acc with leaves := [] }
  unfold readEntry
  split
  · rename_i x sub e
    rw [e] at hsub
    have hs := ((offWalk_llcEnsure _ (x.pa / 128)).trans (offWalk_markLeaves sub.s sub.leaves false)).trans hsub
    dsimp only
    split
    · exact hs
    · split
      · exact hs
      · dsimp only
        split
        · exact hs
        · exact hs
  · rename_i e
    rw [e] at hsub
    exact hsub

theorem offWalk_readEntry_eq (htr : WalksApart tr) {id stage level addr ea : Nat} {acc b : WAcc} {r : Except XRes (Nat × Nat)}
    (e : readEntry tr id stage level addr ea acc = (r, b)) : offWalk b.s = offWalk acc.s := by
  simpa [e] using offWalk_readEntry htr id stage level addr ea acc

theorem offWalk_useLeaf (htr : WalksApart tr) (id stage level addr ea epa : Nat) (kind : AccKind) (ty size attr : Nat) (w x : Bool)
    (frame key : Nat) (acc : WAcc) : offWalk (useLeaf tr id stage level addr ea epa kind ty size attr w x frame key acc).2.s = offWalk acc.s := by
  unfold useLeaf
  split
  · rfl
  · split
    · dsimp only
      split
      · rfl
      · split <;> rfl
    · dsimp only
      split
      · split <;> rfl
      · have hout := htr kind (frame * 2 ^ 16 + addr % 2 ^ size) { acc with leaves := epa :: acc.leaves, used := (id, addr, size) :: acc.used }
        split
        · rename_i e
          rw [e] at hout
          split <;> exact hout
        · exact hout

theorem offWalk_stageWalk (htr : WalksApart tr) (id stage xroot : Nat) (kind : AccKind) (addr : Nat) (acc : WAcc) :
    offWalk (stageWalk tr id stage xroot kind addr acc).2.s = offWalk acc.s := by
  unfold stageWalk
  dsimp only
  split
  · rfl
  split
  · rfl
  split
  · rename_i e2
    exact offWalk_readEntry_eq htr e2
  rename_i e2
  have h2 := offWalk_readEntry_eq htr e2
  split
  · exact h2
  · exact h2
  · exact h2
  split
  · rename_i e1
    exact (offWalk_readEntry_eq htr e1).trans h2
  rename_i e1
  have h1 := (offWalk_readEntry_eq htr e1).trans h2
  split
  · exact h1
  · exact h1
  · exact (offWalk_useLeaf htr ..).trans h1
  split
  · rename_i e0
    exact (offWalk_readEntry_eq htr e0).trans h1
  rename_i e0
  have h0 := (offWalk_readEntry_eq htr e0).trans h1
  split
  · exact h0
  · exact h0
  · exact h0
  · exact (offWalk_useLeaf htr ..).trans h0

end

theorem offWalk_walkChain (l : List (Nat × Ctx)) : WalksApart (walkChain l) := by
  induction l with
  | nil => exact fun _ _ _ => rfl
  | cons c l ih => exact fun _ _ _ => offWalk_stageWalk ih ..

theorem offWalk_frameCheck (s : State) (ctx : Nat) (t : Xl) : offWalk (frameCheck s ctx t).2 = offWalk s := by
  simp only [frameCheck, apply_ite Prod.snd, apply_ite offWalk]
  simp only [ite_self, State.updFrame, offWalk]

theorem offWalk_noteDirty (s : State) (ctx : Nat) (used : List (Nat × Nat × Nat)) : offWalk (noteDirty s ctx used) = offWalk s := by
  refine foldl_keep offWalk _ (fun s c => ?_) _ _
  dsimp only
  split
  · rfl
  · split
    · rfl
    · split <;> rfl

theorem offWalk_runWalk (s : State) (walker core ctx va : Nat) (kind : AccKind) : offWalk (runWalk s walker core ctx va kind).2 = offWalk s := by
  have hw := offWalk_walkChain (ctxChain s 3 ctx) kind va { s := s, die := dieOf core, walker := walker }
  unfold runWalk
  split
  · rename_i t acc e
    rw [e] at hw
    have hc := (offWalk_frameCheck acc.s ctx t).trans hw
    split
    · rfl
    · split
      · rename_i e2
        rwa [e2] at hc
      · rename_i e2
        rw [e2] at hc
        dsimp only
        split
        · exact (offWalk_noteDirty ..).trans ((offWalk_markLeaves ..).trans hc)
        · exact (offWalk_markLeaves ..).trans hc
  · rfl
  · rename_i e
    rw [e] at hw
    dsimp only
    split <;> exact hw

/-! ### The entry that a walk fills (R101, R470) -/

/-- What the caches of translations leave alone. -/
theorem offWalk_tlbPut (s : State) (place unit cap ctx page : Nat) (t : Xl) : offWalk (tlbPut s place unit cap ctx page t) = offWalk s := by
  unfold tlbPut
  dsimp only
  split <;> rfl

theorem offWalk_tlbFill (s : State) (core ctx page : Nat) (t : Xl) : offWalk (tlbFill s core ctx page t) = offWalk s :=
  (offWalk_tlbPut ..).trans ((offWalk_tlbPut ..).trans (offWalk_tlbPut ..))

/-- A full cache gives an entry up, but the new one stands first. -/
theorem tlbPut_head (s : State) (place unit cap ctx page : Nat) (t : Xl) :
    ∃ rest, (tlbPut s place unit cap ctx page t).xl.tlb = { place := place, unit := unit, ctx := ctx, page := page, xl := t } :: rest := by
  unfold tlbPut
  dsimp only
  split <;> exact ⟨_, rfl⟩

/-- The first entry of a core's own cache serves its page. -/
theorem tlbFind_head {s : State} {core ctx page : Nat} {kind : AccKind} {t : Xl} {rest : List TlbEnt}
    (h : s.xl.tlb = { place := 0, unit := core, ctx := ctx, page := page, xl := t } :: rest) (hs : serves t kind = true) :
    tlbFind s core ctx page kind = some t := by
  have hh : TlbEnt.hits s { place := 0, unit := core, ctx := ctx, page := page, xl := t } ctx page kind = true := by
    simp [TlbEnt.hits, samePage, hs]
  simp [tlbFind, h, hh, TlbEnt.on]

/-! ### Walkers take walks (R102) -/

theorem takeWalk_keeps {s t : State} {die : Nat} (e : takeWalk s die = some t) :
    t.rg = s.rg ∧ t.wk = s.wk ∧ t.xl.tlb = s.xl.tlb ∧ ∀ id, s.xl.walks.find id = none → t.xl.walks.find id = none := by
  unfold takeWalk at e
  dsimp only at e
  split at e
  · cases e
  · split at e
    · cases e
    · obtain ⟨k, -, rfl⟩ := Option.map_eq_some_iff.1 e
      refine ⟨rfl, rfl, rfl, fun id h => ?_⟩
      show NMap.find (NMap.upd s.xl.walks k.1 _) id = none
      by_cases hk : id = k.1
      · subst hk
        rw [NMap.find_upd_self, h]
        rfl
      · rwa [NMap.find_upd_ne _ _ _ _ hk]

theorem takeWalks_keeps (s : State) (die fuel : Nat) : (takeWalks s die fuel).rg = s.rg ∧ (takeWalks s die fuel).wk = s.wk ∧
    (takeWalks s die fuel).xl.tlb = s.xl.tlb ∧ ∀ id, s.xl.walks.find id = none → (takeWalks s die fuel).xl.walks.find id = none := by
  induction fuel generalizing s with
  | zero => exact ⟨rfl, rfl, rfl, fun _ h => h⟩
  | succ n ih =>
    unfold takeWalks
    split
    · rename_i t e
      obtain ⟨h1, h2, h3, h4⟩ := takeWalk_keeps e
      obtain ⟨i1, i2, i3, i4⟩ := ih t
      exact ⟨i1.trans h1, i2.trans h2, i3.trans h3, fun id h => i4 id (h4 id h)⟩
    · exact ⟨rfl, rfl, rfl, fun _ h => h⟩

/-! ### A walk completes -/

/-- The state after a walk that did not wait: the translation filled where there is one. -/
def filled (u : State) (k : Walk) (r : XRes) : State :=
  match r with
  | .ok t => tlbFill u k.core k.ctx k.page (pageBase t (k.page * 2 ^ 16))
  | _ => u

/-- What the warps that await the walk keep of it. -/
def keptRes (k : Walk) (r : XRes) : XRes :=
  match r with
  | .ok t => .ok (pageBase t (k.page * 2 ^ 16))
  | r => r

/-- A warp that awaits a walk keeps its outcome. -/
def heard (walk : Nat) (k : Walk) (r : XRes) (w : Warp) : Warp :=
  match w.park with
  | .walk l => if l.contains walk then { w with formed := w.formed ++ [{ page := k.page, kind := k.kind, res := r }] } else w
  | _ => w

/-- The walk has gone, and a walker of its die may take others. -/
def walkGone (s : State) (walk : Nat) (k : Walk) : State :=
  takeWalks (s.updXL (fun y => { y with walks := y.walks.erase walk })) (dieOf k.core) 64

theorem exec_walkComplete {s : State} {id n : Nat} {k : Walk} (hk : s.xl.walks.find id = some k) (hn : k.walker = some n)
    (hl : s.liveCtx k.ctx = true) (hb : (runWalk s n k.core k.ctx (k.page * 2 ^ 16) k.kind).1 ≠ .busy) :
    let rw := runWalk s n k.core k.ctx (k.page * 2 ^ 16) k.kind
    exec (.walkComplete id) s = .next ((walkGone (filled rw.2 k rw.1) id k).updWK (fun x => { x with
      warps := x.warps.map (fun c => (c.1, heard id k (keptRes k rw.1) c.2)) })) := by
  intro rw
  have hrw : runWalk s n k.core k.ctx (k.page * 2 ^ 16) k.kind = rw := rfl
  clear_value rw
  have hh : ∀ r, (fun c : Nat × Warp => match c.2.park with
      | .walk l => if l.contains id then (c.1, { c.2 with formed := c.2.formed ++ [{ page := k.page, kind := k.kind, res := r }] }) else c
      | _ => c) = fun c => (c.1, heard id k r c.2) := by
    intro r
    funext c
    unfold heard
    split
    · split <;> rfl
    · rfl
  obtain ⟨r, u⟩ := rw
  show Host.Outcome.next _ = _
  cases r with
  | busy => exact absurd (congrArg Prod.fst hrw) hb
  | ok t => simp only [hk, hn, hl, hrw, filled, keptRes, walkGone, ← hh]; rfl
  | fail f => simp only [hk, hn, hl, hrw, filled, keptRes, walkGone, ← hh]; rfl
  | far a b => simp only [hk, hn, hl, hrw, filled, keptRes, walkGone, ← hh]; rfl

theorem offWalk_filled (u : State) (k : Walk) (r : XRes) : offWalk (filled u k r) = offWalk u := by
  unfold filled
  split
  · exact offWalk_tlbFill ..
  · rfl

theorem walkGone_keeps (s : State) (walk : Nat) (k : Walk) : (walkGone s walk k).rg = s.rg ∧ (walkGone s walk k).wk = s.wk ∧
    (walkGone s walk k).xl.tlb = s.xl.tlb ∧ (walkGone s walk k).xl.walks.find walk = none := by
  obtain ⟨hrg, hwk, htlb, hwalks⟩ := takeWalks_keeps (s.updXL (fun y => { y with walks := y.walks.erase walk })) (dieOf k.core) 64
  exact ⟨hrg, hwk, htlb, hwalks walk (NMap.find_erase_self ..)⟩

theorem walkComplete_busy {s : State} {id n : Nat} {k : Walk} (hk : s.xl.walks.find id = some k) (hn : k.walker = some n)
    (hl : s.liveCtx k.ctx = true) (hb : (runWalk s n k.core k.ctx (k.page * 2 ^ 16) k.kind).1 = .busy) :
    exec (.walkComplete id) s = .next s := by
  generalize h : runWalk s n k.core k.ctx (k.page * 2 ^ 16) k.kind = rw at hb
  obtain ⟨r, u⟩ := rw
  obtain rfl : r = .busy := hb
  show Host.Outcome.next _ = _
  simp only [hk, hn, hl, h]
  rfl

theorem walkComplete_done {s : State} {id n : Nat} {k : Walk} (hk : s.xl.walks.find id = some k) (hn : k.walker = some n)
    (hl : s.liveCtx k.ctx = true) (hb : (runWalk s n k.core k.ctx (k.page * 2 ^ 16) k.kind).1 ≠ .busy) :
    ∃ t, exec (.walkComplete id) s = .next t ∧ t.xl.walks.find id = none ∧ t.rg = s.rg ∧
      (∀ tr, (runWalk s n k.core k.ctx (k.page * 2 ^ 16) k.kind).1 = .ok tr → serves tr k.kind = true →
        tlbFind t k.core k.ctx k.page k.kind = some { tr with pa := tr.pa - k.page * 2 ^ 16 % 2 ^ 16 }) ∧
      ∀ wid w, s.wk.warps.find wid = some w → w.park = .walk [id] → ∃ z, t.wk.warps.find wid = some z ∧ parkOver t z = true ∧ z.pc = w.pc ∧
        ∃ f ∈ z.formed, f.page = k.page ∧ f.kind = k.kind := by
  have he := exec_walkComplete hk hn hl hb
  have hw := offWalk_runWalk s n k.core k.ctx (k.page * 2 ^ 16) k.kind
  dsimp only at he
  generalize runWalk s n k.core k.ctx (k.page * 2 ^ 16) k.kind = rw at he hw
  obtain ⟨r, u⟩ := rw
  have hf := (offWalk_filled u k r).trans hw
  simp only [offWalk, Prod.mk.injEq] at hf
  obtain ⟨hrg, hwk, -⟩ := hf
  obtain ⟨grg, gwk, gtlb, hgone⟩ := walkGone_keeps (filled u k r) id k
  generalize walkGone (filled u k r) id k = g at he grg gwk gtlb hgone
  refine ⟨_, he, hgone, grg.trans hrg, ?_, fun wid w hwid hp => ?_⟩
  · rintro tr rfl hs
    obtain ⟨rest, hrest⟩ := tlbPut_head (tlbPut (tlbPut u 2 (dieOf k.core) 32768 k.ctx k.page (pageBase tr (k.page * 2 ^ 16))) 1
      (coveOf k.core) 4096 k.ctx k.page (pageBase tr (k.page * 2 ^ 16))) 0 k.core 256 k.ctx k.page (pageBase tr (k.page * 2 ^ 16))
    exact tlbFind_head (gtlb.trans hrest) hs
  · refine ⟨heard id k (keptRes k r) w, ?_, ?_, ?_⟩
    · show NMap.find (g.wk.warps.map _) wid = _
      rw [NMap.find_map _ (fun _ => heard id k (keptRes k r)), gwk, hwk, hwid]
      rfl
    · simp only [heard, hp, List.contains_cons, beq_self_eq_true, Bool.true_or, if_true, parkOver, List.all_cons, List.all_nil, Bool.and_true]
      exact Option.isNone_iff_eq_none.2 hgone
    · simp [heard, hp]

end Sys2Proof.Machine
end

section
/-!
SUPPORT. What the directory registers (R120 to R122): the word that reaches memory and its owner, the line that a claim takes.
-/
namespace Sys2Proof.Machine

open Say

/-! ### What registering a word does -/

/-- What registering words leaves alone of memory: claims, the messages to the directory, the scratchpads. -/
def dirPart (s : State) : List Claim × NMap DirItem × List Host.Cell := (s.mm.claims, s.mm.dirItems, s.mm.spad)

/-- The core that owns a word, as the directory has it (R120). -/
def ownerOf (s : State) (line i : Nat) : Option Nat := (s.mm.llc.find line).bind (fun l => l.owners.find i)

theorem sendDrop_keeps (s : State) (core line : Nat) (words : List Nat) :
    dirPart (sendDrop s core line words) = dirPart s ∧ (sendDrop s core line words).mm.llc = s.mm.llc := by
  unfold sendDrop
  split <;> exact ⟨rfl, rfl⟩

theorem dirPart_llcEvict (s : State) (line : Nat) : dirPart (llcEvict s line) = dirPart s := by
  unfold llcEvict
  split
  · rfl
  · exact foldl_keep dirPart _ (fun _ _ => (sendDrop_keeps ..).1) _ _

theorem dirPart_llcEnsure (s : State) (line : Nat) : dirPart (llcEnsure s line) = dirPart s := by
  unfold llcEnsure
  split
  · rfl
  · dsimp only
    split
    · exact (dirPart_llcEvict ..).trans rfl
    · rfl

theorem setMemBytes_keeps (s : State) (pa : Nat) (l : List Byte) :
    dirPart (setMemBytes s pa l) = dirPart s ∧ (setMemBytes s pa l).mm.llc = s.mm.llc := by
  have h : (fun s : State => (dirPart s, s.mm.llc)) (setMemBytes s pa l) = (dirPart s, s.mm.llc) := by
    unfold setMemBytes
    refine foldl_keep (fun s : State => (dirPart s, s.mm.llc)) _ (fun _ _ => ?_) _ _
    rfl
  exact ⟨congrArg Prod.fst h, congrArg Prod.snd h⟩

/-- A line that is brought in has no owner. -/
theorem ownerOf_llcEnsure (s : State) (line i : Nat) : ownerOf (llcEnsure s line) line i = ownerOf s line i := by
  cases h : s.mm.llc.find line with
  | some x => simp only [llcEnsure, h]
  | none =>
    have hn : ∃ new : LlcLine, new.owners = [] ∧ (llcEnsure s line).mm.llc.find line = some new := by
      simp only [llcEnsure, h]
      split <;> exact ⟨_, rfl, NMap.find_insert_self ..⟩
    obtain ⟨new, ho, hf⟩ := hn
    simp only [ownerOf, hf, h, Option.bind_some, ho, Option.bind_none]
    rfl

theorem find_llcEnsure (s : State) (line : Nat) : ∃ x, (llcEnsure s line).mm.llc.find line = some x := by
  cases h : s.mm.llc.find line with
  | some x => exact ⟨x, by simp only [llcEnsure, h]⟩
  | none =>
    simp only [llcEnsure, h]
    split <;> exact ⟨_, NMap.find_insert_self ..⟩

theorem ownerOf_congr {s t : State} (h : t.mm.llc = s.mm.llc) (line i : Nat) : ownerOf t line i = ownerOf s line i := by
  simp only [ownerOf, h]

theorem poisonGranule_keeps (s : State) (g : Nat) :
    dirPart (poisonGranule s g) = dirPart s ∧ ∀ i, ownerOf (poisonGranule s g) (g / 2) i = ownerOf s (g / 2) i := by
  refine ⟨dirPart_llcEnsure s (g / 2), fun i => ?_⟩
  obtain ⟨x, hx⟩ := find_llcEnsure s (g / 2)
  rw [← ownerOf_llcEnsure s (g / 2) i]
  simp only [poisonGranule, ownerOf, State.updMM, NMap.find_upd_self, hx, Option.map_some, Option.bind_some]

/-- The owner of a word before is sent a drop for it, where it is another core. -/
def toldOwner (s : State) (core line i : Nat) (old : Option Nat) : State :=
  match old with
  | some c => if c = core then s else sendDrop s c line [i]
  | none => s

theorem toldOwner_keeps (s : State) (core line i : Nat) (old : Option Nat) :
    dirPart (toldOwner s core line i old) = dirPart s ∧ (toldOwner s core line i old).mm.llc = s.mm.llc := by
  unfold toldOwner
  split
  · split
    · exact ⟨rfl, rfl⟩
    · exact sendDrop_keeps ..
  · exact ⟨rfl, rfl⟩

/-- Registering a word as its stages: the bytes, the drop to the owner before, the owner. -/
theorem regWord_stages (s : State) (core line : Nat) (own : Bool) (w : DirWord) : ∃ u v : State,
    (dirPart u = dirPart s ∧ ∃ x, u.mm.llc.find line = some x ∧ ∀ i, x.owners.find i = ownerOf s line i) ∧
    v = u.updMM (fun m => { m with llc := m.llc.upd line (fun l => { l.overwrite (maskBytes w.i w.mask) with
      owners := if own then NMap.insert l.owners w.i core else l.owners.erase w.i }) }) ∧
    regWord s core line own w = if w.lost then poisonGranule v (line * 2 + w.i / 16) else v := by
  let m := setMemBytes (llcEnsure s line) (line * 128 + w.i * 4) (bytesOfNat 4 w.val.toNat)
  obtain ⟨hmd, hml⟩ := setMemBytes_keeps (llcEnsure s line) (line * 128 + w.i * 4) (bytesOfNat 4 w.val.toNat)
  obtain ⟨hud, hul⟩ := toldOwner_keeps m core line w.i ((m.mm.llc.find line).bind (fun l => l.owners.find w.i))
  obtain ⟨x, hx⟩ := find_llcEnsure s line
  refine ⟨toldOwner m core line w.i _, _, ⟨hud.trans (hmd.trans (dirPart_llcEnsure ..)), x, by rw [hul, hml, hx], fun i => ?_⟩, rfl, rfl⟩
  rw [← ownerOf_llcEnsure, ownerOf, hx, Option.bind_some]

theorem dirPart_regWord (s : State) (core line : Nat) (own : Bool) (w : DirWord) : dirPart (regWord s core line own w) = dirPart s := by
  obtain ⟨u, v, ⟨hu, -⟩, rfl, h⟩ := regWord_stages s core line own w
  rw [h]
  split
  · exact (poisonGranule_keeps ..).1.trans hu
  · exact hu

/-- The owner of a word after one has been registered. -/
theorem ownerOf_regWord (s : State) (core line : Nat) (own : Bool) {w : DirWord} (hw : w.i < 32) (i : Nat) :
    ownerOf (regWord s core line own w) line i = if i = w.i then (if own then some core else none) else ownerOf s line i := by
  obtain ⟨u, v, ⟨-, x, hx, ho⟩, hv, h⟩ := regWord_stages s core line own w
  have hvo : ownerOf v line i = if i = w.i then (if own then some core else none) else ownerOf s line i := by
    rw [hv, ← ho i]
    simp only [ownerOf, State.updMM, NMap.find_upd_self, hx, Option.map_some, Option.bind_some]
    by_cases hi : i = w.i
    · subst hi
      cases own
      · simp [NMap.find_erase_self]
      · simp [NMap.find_insert_self]
    · cases own
      · simp [hi, NMap.find_erase_ne _ _ _ hi]
      · simp [hi, NMap.find_insert_ne _ _ _ _ hi]
  rw [h]
  split
  · have hg : (line * 2 + w.i / 16) / 2 = line := by omega
    have hp := (poisonGranule_keeps v (line * 2 + w.i / 16)).2 i
    rw [hg] at hp
    exact hp.trans hvo
  · exact hvo

theorem bytesOfNat_length (n v : Nat) : (bytesOfNat n v).length = n := by simp [bytesOfNat]

theorem memByte_regWord_self (s : State) (core line : Nat) (own : Bool) (w : DirWord) {j : Nat} (hj : j < 4) :
    memByte (regWord s core line own w) (line * 128 + w.i * 4 + j) = BitVec.ofNat 8 (w.val.toNat / 256 ^ j) := by
  rw [memByte_of_beside (beside_regWord ..), memByte_setMemBytes, bytesOfNat_length, if_pos (by omega), Nat.add_sub_cancel_left]
  simp [bytesOfNat, hj]

/-- Four bytes of memory spell a word. -/
theorem memNat_of_bytes {s : State} {pa : Nat} {v : Word} (h : ∀ j < 4, memByte s (pa + j) = BitVec.ofNat 8 (v.toNat / 256 ^ j)) :
    memNat s pa 4 = v.toNat := by
  have hv := v.isLt
  have h0 := h 0 (by omega)
  have h1 := h 1 (by omega)
  have h2 := h 2 (by omega)
  have h3 := h 3 (by omega)
  simp only [memNat, memBytes, List.range_succ, List.range_zero, List.nil_append, List.cons_append, List.map_cons, List.map_nil, natOfBytes,
    List.foldr_cons, List.foldr_nil, h0, h1, h2, h3, BitVec.toNat_ofNat]
  omega

theorem bytes_of_memNat_congr {s t : State} {pa n : Nat} (h : ∀ j < n, memByte t (pa + j) = memByte s (pa + j)) : memNat t pa n = memNat s pa n := by
  simp only [memNat, memBytes]
  refine congrArg natOfBytes (List.map_congr_left fun j hj => h j (List.mem_range.1 hj))

/-- What memory and the directory hold of a word that has been registered. -/
def WordAt (t : State) (line : Nat) (w : DirWord) (own : Option Nat) : Prop :=
  memNat t (line * 128 + w.i * 4) 4 = w.val.toNat ∧ ownerOf t line w.i = own

theorem wordAt_regWord (s : State) (core line : Nat) (own : Bool) {w : DirWord} (hw : w.i < 32) :
    WordAt (regWord s core line own w) line w (if own then some core else none) :=
  ⟨memNat_of_bytes fun _ hj => memByte_regWord_self s core line own w hj, by rw [ownerOf_regWord s core line own hw, if_pos rfl]⟩

theorem WordAt.regWord_ne {s : State} {core line : Nat} {own : Bool} {w x : DirWord} {o : Option Nat} (h : WordAt s line w o) (hx : x.i < 32)
    (hn : x.i ≠ w.i) : WordAt (regWord s core line own x) line w o := by
  refine ⟨(bytes_of_memNat_congr fun j hj => memByte_regWord (by omega)).trans h.1, ?_⟩
  rw [ownerOf_regWord s core line own hx, if_neg hn.symm]
  exact h.2

theorem WordAt.congr {s t : State} {line : Nat} {w : DirWord} {o : Option Nat} (h : WordAt s line w o) (hm : t.mm.mem = s.mm.mem)
    (hl : t.mm.llc = s.mm.llc) : WordAt t line w o := by
  refine ⟨(bytes_of_memNat_congr fun j _ => ?_).trans h.1, (ownerOf_congr hl ..).trans h.2⟩
  rw [memByte, hm, memByte]

/-! ### A word is acknowledged -/

/-- What an acknowledged word becomes: clean, unless it has been stored to since its message left. -/
def acked (id : Nat) (x : L1Word) : L1Word :=
  if x.sent.head? = some id && x.same then x.registered else { x with owned := true, sent := x.sent.takeWhile (fun y => y != id) }

theorem acked_val (id : Nat) (x : L1Word) : (acked id x).val = x.val := by
  unfold acked
  split <;> rfl

theorem acked_owned (id : Nat) (x : L1Word) : (acked id x).owned = true := by
  unfold acked
  split <;> rfl

theorem acked_dirty (id : Nat) (x : L1Word) : (acked id x).dirty = (x.dirty && !(x.sent.head? = some id && x.same)) := by
  unfold acked
  split
  · rename_i h
    rw [h]
    simp [L1Word.registered]
  · rename_i h
    rw [Bool.not_eq_true] at h
    rw [h]
    simp

/-- The message is not awaited twice. -/
theorem not_mem_acked_sent (id : Nat) (x : L1Word) : id ∉ (acked id x).sent := by
  unfold acked
  split
  · exact List.not_mem_nil
  · intro h
    simpa using List.mem_takeWhile_imp h

/-- The word of a core's line. -/
def wordIn (s : State) (core line i : Nat) : Option L1Word := (l1Line s core line).words.find i

theorem wordIn_congr {s t : State} (h : t.mm.l1 = s.mm.l1) (core line i : Nat) : wordIn t core line i = wordIn s core line i := by
  simp only [wordIn, l1Line, h]

theorem ackWord_of_not_sent {s : State} {core line id : Nat} {w : DirWord} (h : ∀ x, wordIn s core line w.i = some x → id ∉ x.sent) :
    ackWord s core line id w = s := by
  unfold ackWord
  split
  · rfl
  · rename_i x hx
    simp [h x hx]

theorem ackWord_of_sent {s : State} {core line id : Nat} {w : DirWord} {x : L1Word} (hx : wordIn s core line w.i = some x) (hid : id ∈ x.sent) :
    ∃ f : L1Line → L1Line, (f (l1Line s core line)).words = NMap.insert (l1Line s core line).words w.i (acked id x) ∧
      ackWord s core line id w = setL1 (regWord s core line true w) core line f := by
  have hx' : (l1Line s core line).words.find w.i = some x := hx
  have hc : x.sent.contains id = true := by simpa using hid
  have he : ∃ f : L1Line → L1Line, ackWord s core line id w = setL1 (regWord s core line true w) core line f ∧
      (f (l1Line s core line)).words = NMap.insert (l1Line s core line).words w.i (acked id x) := by
    simp only [ackWord, hx', hc, Bool.not_true, Bool.false_eq_true, if_false]
    refine ⟨_, rfl, ?_⟩
    simp only [NMap.upd, hx', acked]
  exact he.imp fun f h => h.symm

theorem wordIn_setL1_self (s : State) (core line i : Nat) (f : L1Line → L1Line) :
    wordIn (setL1 s core line f) core line i = (f (l1Line s core line)).words.find i := by
  rw [wordIn, l1Line_setL1_self, words_normLine]

theorem l1Line_of_l1 {s t : State} (h : t.mm.l1 = s.mm.l1) (core line : Nat) : l1Line t core line = l1Line s core line := by
  simp only [l1Line, h]

/-- The words of a line after one message of it has been acknowledged. -/
theorem wordIn_ackWord {s : State} {core line id : Nat} {w : DirWord} {x : L1Word} (hx : wordIn s core line w.i = some x) (hid : id ∈ x.sent)
    (i : Nat) : wordIn (ackWord s core line id w) core line i = if i = w.i then some (acked id x) else wordIn s core line i := by
  obtain ⟨f, hf, he⟩ := ackWord_of_sent hx hid
  rw [he, wordIn_setL1_self, l1Line_of_l1 (l1_regWord ..), hf]
  by_cases hi : i = w.i
  · subst hi
    rw [if_pos rfl, NMap.find_insert_self]
  · rw [if_neg hi, NMap.find_insert_ne _ _ _ _ hi, wordIn]

/-- An acknowledged word is registered, or nothing is done. -/
theorem ackWord_cases (s : State) (core line id : Nat) (w : DirWord) : ackWord s core line id w = s ∨
    ∃ f, ackWord s core line id w = setL1 (regWord s core line true w) core line f := by
  by_cases h : ∃ x, wordIn s core line w.i = some x ∧ id ∈ x.sent
  · obtain ⟨x, hx, hid⟩ := h
    obtain ⟨f, -, he⟩ := ackWord_of_sent hx hid
    exact .inr ⟨f, he⟩
  · exact .inl (ackWord_of_not_sent fun x hx hid => h ⟨x, hx, hid⟩)

theorem WordAt.ackWord_ne {s : State} {core line id : Nat} {w x : DirWord} {o : Option Nat} (h : WordAt s line w o) (hx : x.i < 32)
    (hn : x.i ≠ w.i) : WordAt (ackWord s core line id x) line w o := by
  rcases ackWord_cases s core line id x with he | ⟨f, he⟩
  · rwa [he]
  · rw [he]
    exact (h.regWord_ne hx hn).congr rfl rfl

theorem wordIn_ackWord_ne {s : State} {core line id i : Nat} {w : DirWord} (hn : w.i ≠ i) :
    wordIn (ackWord s core line id w) core line i = wordIn s core line i := by
  by_cases h : ∃ x, wordIn s core line w.i = some x ∧ id ∈ x.sent
  · obtain ⟨x, hx, hid⟩ := h
    rw [wordIn_ackWord hx hid, if_neg hn.symm]
  · rw [ackWord_of_not_sent fun x hx hid => h ⟨x, hx, hid⟩]

/-! ### The words of one message -/

section
variable {s : State} {core line id : Nat} {ws : List DirWord} {w : DirWord}

/-- Words that an eviction gave up: memory has their values and no core owns them. -/
theorem wordAt_evicted (h32 : ∀ x ∈ ws, x.i < 32) (hw : w ∈ ws) (hu : ∀ x ∈ ws, x.i = w.i → x = w) :
    WordAt (ws.foldl (fun s x => regWord s core line false x) s) line w none := by
  refine foldl_reaches (p := fun _ => True) (q := fun t => WordAt t line w none) hw (fun _ _ _ _ _ => trivial)
    (fun s _ => wordAt_regWord s core line false (h32 w hw)) (fun s x hx h => ?_) trivial
  by_cases hi : x.i = w.i
  · obtain rfl := hu x hx hi
    exact wordAt_regWord s core line false (h32 x hx)
  · exact h.regWord_ne (h32 x hx) hi

/-- Words that a core keeps: memory has their values, the core owns them. -/
theorem wordAt_acked (h32 : ∀ x ∈ ws, x.i < 32) (hw : w ∈ ws) (hu : ∀ x ∈ ws, x.i = w.i → x = w) {x : L1Word}
    (hx : wordIn s core line w.i = some x) (hid : id ∈ x.sent) :
    WordAt (ws.foldl (fun s x => ackWord s core line id x) s) line w (some core) ∧
      wordIn (ws.foldl (fun s x => ackWord s core line id x) s) core line w.i = some (acked id x) := by
  refine foldl_reaches (p := fun t => wordIn t core line w.i = some x)
    (q := fun t => WordAt t line w (some core) ∧ wordIn t core line w.i = some (acked id x)) hw (fun s y hy hn h => ?_) (fun s h => ?_)
    (fun s y hy h => ?_) hx
  · rwa [wordIn_ackWord_ne fun e => hn (hu y hy e)]
  · obtain ⟨f, -, he⟩ := ackWord_of_sent h hid
    refine ⟨?_, by rw [wordIn_ackWord h hid, if_pos rfl]⟩
    rw [he]
    exact (wordAt_regWord s core line true (h32 w hw)).congr rfl rfl
  · obtain ⟨ha, hy'⟩ := h
    by_cases hi : y.i = w.i
    · rw [ackWord_of_not_sent fun z hz hm => not_mem_acked_sent id x (by rw [hi, hy'] at hz; cases hz; exact hm)]
      exact ⟨ha, hy'⟩
    · exact ⟨ha.ackWord_ne (h32 y hy) hi, by rwa [wordIn_ackWord_ne hi]⟩

end

/-- What the directory does with one word of a message. -/
def takeWord (d : DirItem) (id : Nat) (s : State) (w : DirWord) : State :=
  if d.evicted then regWord s d.core d.line false w else ackWord s d.core d.line id w

theorem outside_takeWord (d : DirItem) (id : Nat) (s : State) (w : DirWord) : outside (takeWord d id s w) = outside s := by
  unfold takeWord
  split
  · exact outside_regWord ..
  · rcases ackWord_cases s d.core d.line id w with he | ⟨f, he⟩
    · rw [he]
    · rw [he]
      exact outside_regWord s d.core d.line true w

theorem memByte_takeWord {d : DirItem} {id : Nat} {s : State} {w : DirWord} {a : Nat}
    (ha : a < d.line * 128 + w.i * 4 ∨ d.line * 128 + w.i * 4 + 4 ≤ a) : memByte (takeWord d id s w) a = memByte s a := by
  have hr : ∀ own, memByte (regWord s d.core d.line own w) a = memByte s a := fun own => memByte_regWord (by omega)
  unfold takeWord
  split
  · exact hr false
  · rcases ackWord_cases s d.core d.line id w with he | ⟨f, he⟩
    · rw [he]
    · rw [he]
      exact hr true

theorem exec_directoryAck_words {s : State} {id : Nat} {d : DirItem} (hd : s.mm.dirItems.find id = some d) (hc : d.claim = none)
    (hh : held s d.line = false) (he : d.evicted = true → evictTurn s id d = true) :
    exec (.directoryAck id) s = .next (finishWorks ((d.words.foldl (takeWord d id) s).updMM (fun m => { m with dirItems := m.dirItems.erase id }))
      d.work.toList) := by
  have hw : (held s d.line || (d.evicted && !evictTurn s id d)) = false := by
    cases hev : d.evicted
    · simp [hh]
    · simp [hh, he hev]
  show Host.Outcome.next _ = _
  simp only [hd, hc, hw, Bool.false_eq_true, if_false]
  rfl

theorem directoryAck_words {s : State} {id : Nat} {d : DirItem} (hd : s.mm.dirItems.find id = some d) (h32 : ∀ w ∈ d.words, w.i < 32)
    (hc : d.claim = none) (hh : held s d.line = false) (he : d.evicted = true → evictTurn s id d = true) :
    ∃ t, exec (.directoryAck id) s = .next t ∧ t.mm.dirItems.find id = none ∧ t.rg.v = s.rg.v ∧
      (∀ w ∈ d.words, (∀ w' ∈ d.words, w'.i = w.i → w' = w) →
        let own := (t.mm.llc.find d.line).bind (fun y => y.owners.find w.i)
        (d.evicted = true → memNat t (d.line * 128 + w.i * 4) 4 = w.val.toNat ∧ own = none) ∧
        (d.evicted = false → ∀ x, (l1Line s d.core d.line).words.find w.i = some x → id ∈ x.sent →
          memNat t (d.line * 128 + w.i * 4) 4 = w.val.toNat ∧ own = some d.core ∧
          ∃ y, (l1Line t d.core d.line).words.find w.i = some y ∧ y.val = x.val ∧ y.owned = true ∧
            y.dirty = (x.dirty && !(x.sent.head? = some id && x.same)))) ∧
      ∀ a, (∀ w ∈ d.words, a < d.line * 128 + w.i * 4 ∨ d.line * 128 + w.i * 4 + 4 ≤ a) → memByte t a = memByte s a := by
  let u := d.words.foldl (takeWord d id) s
  let v := u.updMM (fun m => { m with dirItems := m.dirItems.erase id })
  have ho := offWork_finishWorks v d.work.toList
  simp only [offWork, Prod.mk.injEq] at ho
  obtain ⟨⟨hv, -⟩, -, hmm, -⟩ := ho
  have hat : ∀ w o, WordAt u d.line w o → WordAt (finishWorks v d.work.toList) d.line w o := fun w o h =>
    h.congr (by rw [hmm]; rfl) (by rw [hmm]; rfl)
  refine ⟨_, exec_directoryAck_words hd hc hh he, by rw [hmm]; exact NMap.find_erase_self .., hv.trans ?_, fun w hw hu => ⟨fun hev => ?_, ?_⟩, ?_⟩
  · exact congrArg (fun o => o.1.v) (foldl_keep outside _ (fun s w => outside_takeWord d id s w) d.words s)
  · have hf : takeWord d id = fun s w => regWord s d.core d.line false w := by
      funext s w
      simp [takeWord, hev]
    have h := wordAt_evicted (s := s) (core := d.core) (line := d.line) h32 hw hu
    rw [← hf] at h
    exact hat w none h
  · intro hev x hx hid
    have hf : takeWord d id = fun s w => ackWord s d.core d.line id w := by
      funext s w
      simp [takeWord, hev]
    obtain ⟨h, hy⟩ := wordAt_acked h32 hw hu hx hid
    rw [← hf] at h hy
    obtain ⟨hm, hown⟩ := hat w _ h
    refine ⟨hm, hown, acked id x, ?_, acked_val id x, acked_owned id x, acked_dirty id x⟩
    rw [l1Line, hmm]
    exact hy
  · intro a ha
    rw [memByte, hmm]
    show memByte u a = _
    refine List.foldlRecOn (motive := fun t => memByte t a = memByte s a) d.words _ rfl fun t h w hw => ?_
    rw [memByte_takeWord (ha w hw), h]

theorem directoryAck_held {s : State} {id : Nat} {d : DirItem} (hd : s.mm.dirItems.find id = some d) (hc : d.claim = none)
    (hh : held s d.line = true) : exec (.directoryAck id) s = .next s := by
  show Host.Outcome.next _ = _
  simp only [hd, hc, hh, Bool.true_or, if_true]

end Sys2Proof.Machine
end

section
/-!
SUPPORT. What a claim takes (R122, R346): the dirty words of the line are registered, no L1 has a word of it, and the claim is listed.
-/
namespace Sys2Proof.Machine

open Say

/-! ### What writing a line back leaves alone -/

theorem dirPart_regWords (s : State) (core line : Nat) (ws : List DirWord) :
    dirPart (ws.foldl (fun s w => regWord s core line true w) s) = dirPart s :=
  foldl_keep dirPart _ (fun s w => dirPart_regWord s core line true w) _ _

theorem dirPart_flushWords (s : State) (core line : Nat) (only : Option (List Nat)) : dirPart (flushWords s core line only) = dirPart s := by
  unfold flushWords
  dsimp only
  split
  · rfl
  · exact (dirPart_regWords (countReq s _ _ core true) core line _).trans rfl

theorem l1_regWords (s : State) (core line : Nat) (ws : List DirWord) :
    (ws.foldl (fun s w => regWord s core line true w) s).mm.l1 = s.mm.l1 :=
  foldl_keep (fun s : State => s.mm.l1) _ (fun s w => l1_regWord s core line true w) _ _

theorem l1Line_flushWords_ne {s : State} {core line c l : Nat} {only : Option (List Nat)} (h : l1Key c l ≠ l1Key core line) :
    l1Line (flushWords s core line only) c l = l1Line s c l := by
  unfold flushWords
  dsimp only
  split
  · rfl
  · rw [l1Line_setL1_ne h]
    exact l1Line_of_l1 (l1_regWords (countReq s _ _ core true) core line _) c l

theorem l1Key_core_inj {c core line : Nat} (h : l1Key c line = l1Key core line) : c = core := by
  simp only [l1Key] at h
  omega

/-! ### No L1 has a word of a line that a claim has taken -/

/-- A core's L1 has no word of a line. -/
def Emptied (s : State) (line core : Nat) : Prop := ∀ w ∈ (l1Line s core line).words, 32 ≤ w.1

theorem emptied_drop_self {s : State} {d : DropItem} (hd : ∀ i < 32, i ∈ d.words) (h : CleanLine s d.line) :
    Emptied (applyDrop s d) d.line d.core := by
  intro w hw
  rw [applyDrop, l1Line_setL1_self, words_normLine] at hw
  obtain ⟨v, hv, rfl⟩ := List.mem_map.1 hw
  obtain ⟨hv, hf⟩ := List.mem_filter.1 hv
  have hn : ¬v.1 < 32 := fun hlt => by simp [hd v.1 hlt, h d.core v hv] at hf
  split
  · exact Nat.le_of_not_lt hn
  · exact Nat.le_of_not_lt hn

theorem Emptied.drop {s : State} {core line : Nat} (h : Emptied s line core) (d : DropItem) : Emptied (applyDrop s d) line core := by
  intro w hw
  by_cases hk : l1Key core line = l1Key d.core d.line
  · rw [l1Line_congr hk, applyDrop, l1Line_setL1_self, words_normLine] at hw
    obtain ⟨v, hv, rfl⟩ := List.mem_map.1 hw
    have hv' : 32 ≤ v.1 := by
      refine h v ?_
      rw [l1Line_congr hk]
      exact (List.mem_filter.1 hv).1
    split
    · exact hv'
    · exact hv'
  · rw [applyDrop, l1Line_setL1_ne hk] at hw
    exact h w hw

/-- The drop of a whole line to each core that may hold it. -/
def dropLine (line : Nat) (ws cores : List Nat) (s : State) : State :=
  cores.foldl (fun s c => applyDrop s { core := c, line := line, words := ws }) s

theorem emptied_dropLine {s : State} {line : Nat} {ws cores : List Nat} (hws : ∀ i < 32, i ∈ ws) (hc : CleanLine s line)
    (hn : ∀ core, core ∉ cores → Emptied s line core) (core : Nat) : Emptied (dropLine line ws cores s) line core := by
  by_cases hm : core ∈ cores
  · refine foldl_reaches (p := fun t => CleanLine t line) (q := fun t => Emptied t line core) hm
      (fun s x _ _ h => ?_) (fun s h => ?_) (fun s x _ h => ?_) hc
    · exact (writesBack_applyDrop s _).dirty.cleanLine h
    · exact emptied_drop_self (d := { core := core, line := line, words := ws }) hws h
    · exact Emptied.drop h _
  · exact List.foldlRecOn (motive := fun t => Emptied t line core) cores _ (hn core hm) fun t h c _ => h.drop _

theorem words_flushLines {s : State} {line core : Nat} {cores : List Nat} (hm : core ∉ cores) :
    l1Line (cores.foldl (fun s c => flushLine s c line) s) core line = l1Line s core line :=
  List.foldlRecOn (motive := fun t => l1Line t core line = l1Line s core line) cores _ rfl fun t h c hc => by
    rw [flushLine, l1Line_flushWords_ne fun e => hm ?_, h]
    rwa [l1Key_core_inj e]

theorem takeLine_stages (s : State) (line : Nat) : ∃ cores ws u, cores = lineCores (llcEnsure s line) line ∧ ws = List.range 32 ∧
    u = cores.foldl (fun s c => flushLine s c line) (llcEnsure s line) ∧
    (takeLine s line).mm.l1 = (dropLine line ws cores u).mm.l1 ∧ dirPart (takeLine s line) = dirPart (dropLine line ws cores u) :=
  ⟨_, _, _, rfl, rfl, rfl, rfl, rfl⟩

theorem dirPart_takeLine (s : State) (line : Nat) : dirPart (takeLine s line) = dirPart s := by
  obtain ⟨cores, ws, u, -, -, rfl, -, h⟩ := takeLine_stages s line
  rw [h]
  refine (foldl_keep dirPart (fun s c => applyDrop s _) (fun _ _ => rfl) _ _).trans ?_
  exact (foldl_keep dirPart _ (fun s c => dirPart_flushWords s c line none) _ _).trans (dirPart_llcEnsure ..)

theorem emptied_takeLine (s : State) {line : Nat} (hl : line < 2 ^ 41) (core : Nat) : Emptied (takeLine s line) line core := by
  obtain ⟨cores, ws, u, hcores, hws, hu, h, -⟩ := takeLine_stages s line
  have hnone : ∀ c, c ∉ cores → (l1Line (llcEnsure s line) c line).words = [] := fun c hn => words_of_not_mem_lineCores hl (hcores ▸ hn)
  have hclean : CleanLine u line := by
    rw [hu]
    exact cleanLine_flushLines hl fun c hn w hw => by simp [hnone c hn] at hw
  have he := emptied_dropLine (cores := cores) (fun i hi => hws ▸ List.mem_range.2 hi) hclean (fun c hn w hw => by
    rw [hu, words_flushLines hn, hnone c hn] at hw
    cases hw) core
  rw [Emptied, l1Line_of_l1 h]
  exact he

/-! ### A claim reaches the directory -/

theorem directoryAck_claim {s : State} {id c : Nat} {d : DirItem} (hd : s.mm.dirItems.find id = some d) (hc : d.claim = some c)
    (hcmd : (s.en.cmds.find c).isSome = true) : if claimWaits s d.line = true then exec (.directoryAck id) s = .next s
      else ∃ t, exec (.directoryAck id) s = .next t ∧ t.mm.dirItems.find id = none ∧
        t.mm.claims = s.mm.claims ++ [{ line := d.line, cmd := c }] ∧ t.en = s.en ∧ t.rg = s.rg ∧
        (d.line < 2 ^ 41 → ∀ core, ∀ w ∈ (l1Line t core d.line).words, 32 ≤ w.1) ∧
        ∀ a, (∀ core, ¬Say.DirtyAt s core a) → memByte t a = memByte s a := by
  split
  · rename_i hw
    show Host.Outcome.next _ = _
    simp only [hd, hc, hw, if_true]
  · rename_i hw
    obtain ⟨hb, -⟩ := writesBack_takeLine s d.line
    have hp := dirPart_takeLine s d.line
    have hempty := emptied_takeLine s (line := d.line)
    have he : exec (.directoryAck id) s = .next (if ((takeLine s d.line).en.cmds.find c).isSome then
        ((takeLine s d.line).updMM (fun m => { m with dirItems := m.dirItems.erase id })).updMM (fun m => { m with
          claims := m.claims ++ [{ line := d.line, cmd := c }] })
        else (takeLine s d.line).updMM (fun m => { m with dirItems := m.dirItems.erase id })) := by
      show Host.Outcome.next _ = _
      simp only [hd, hc, hw, Bool.false_eq_true, if_false]
      rfl
    generalize takeLine s d.line = u at hb hp hempty he
    have ho := hb.outside
    simp only [outside, Prod.mk.injEq] at ho
    obtain ⟨hrg, -, hen, -⟩ := ho
    rw [hen, if_pos hcmd] at he
    refine ⟨_, he, NMap.find_erase_self .., congrArg (· ++ _) (congrArg Prod.fst hp), hen, hrg, fun hl core => hempty hl core, fun a ha => ?_⟩
    exact hb.mem a fun hd => by
      obtain ⟨core, h⟩ := dirtyAt_of_dirtyOver hd
      exact ha core h

end Sys2Proof.Machine
end

section
/-!
SUPPORT. What an L1 does with a store (R120, R135, R136): the lines' form, words given back, room made, a word stored.
-/
namespace Sys2Proof.Machine

open Say

/-! ### Lines that name no word twice -/

/-- A line's words rise in their places, all of the line's 32. -/
def LineOk (x : L1Line) : Prop := x.words.Pairwise (fun a b => a.1 < b.1) ∧ ∀ w ∈ x.words, w.1 < 32

/-- Every line of every L1 is such a line. -/
def LinesOk (s : State) : Prop := ∀ core line, LineOk (l1Line s core line)

theorem pairwise_of_risingFrom {α : Type} {m : NMap α} (h : NMap.risingFrom none m = true) : m.Pairwise (fun a b => a.1 < b.1) := by
  induction m with
  | nil => exact .nil
  | cons c m ih =>
    obtain ⟨hm, ha⟩ := (NMap.risingFrom_some c.1 m).1 h
    exact .cons (fun b hb => ha b hb) (ih hm)

theorem lineOk_nil {x : L1Line} (h : x.words = []) : LineOk x := by
  rw [LineOk, h]
  exact ⟨.nil, nofun⟩

theorem LinesOk.of_l1Rising {s : State} (h : L1Rising s) : LinesOk s := fun core line => by
  rcases NMap.get_mem {} s.mm.l1 (l1Key core line) with hn | hm
  · exact lineOk_nil (by rw [l1Line, hn])
  · obtain ⟨hr, h32⟩ := h _ hm
    exact ⟨pairwise_of_risingFrom hr, h32⟩

theorem LinesOk.of_l1 {s t : State} (h : LinesOk s) (e : t.mm.l1 = s.mm.l1) : LinesOk t := fun core line => by
  rw [l1Line_of_l1 e]
  exact h core line

theorem LinesOk.setL1 {s : State} {core line : Nat} {f : L1Line → L1Line} (h : LinesOk s) (hf : LineOk (f (l1Line s core line))) :
    LinesOk (setL1 s core line f) := fun c l => by
  by_cases hk : l1Key c l = l1Key core line
  · rw [l1Line_congr hk, l1Line_setL1_self, LineOk, words_normLine]
    exact hf
  · rw [l1Line_setL1_ne hk]
    exact h c l

theorem pairwise_insert {α : Type} {m : NMap α} (h : m.Pairwise (fun a b => a.1 < b.1)) (k : Nat) (v : α) :
    (NMap.insert m k v).Pairwise (fun a b => a.1 < b.1) := by
  induction m with
  | nil => exact .cons nofun .nil
  | cons c m ih =>
    obtain ⟨hc, hm⟩ := List.pairwise_cons.1 h
    simp only [NMap.insert]
    split
    · rename_i hlt
      refine .cons (fun b hb => ?_) h
      rcases List.mem_cons.1 hb with rfl | hb
      · exact hlt
      · exact hlt.trans (hc b hb)
    · split
      · rename_i heq
        refine .cons (fun b hb => ?_) hm
        rw [heq]
        exact hc b hb
      · rename_i hle hne
        refine .cons (fun b hb => ?_) (ih hm)
        exact NMap.above_insert (c.1 + 1) k v m (by omega) hc b hb

theorem NMap.mem_of_mem_insert {α : Type} {m : NMap α} {k : Nat} {v : α} {c : Nat × α} (h : c ∈ NMap.insert m k v) : c = (k, v) ∨ c ∈ m := by
  induction m with
  | nil => exact .inl (List.mem_singleton.1 h)
  | cons a m ih =>
    simp only [NMap.insert] at h
    split at h
    · exact List.mem_cons.1 h
    · split at h
      · exact (List.mem_cons.1 h).imp_right (List.mem_cons_of_mem _)
      · rcases List.mem_cons.1 h with rfl | h
        · exact .inr List.mem_cons_self
        · exact (ih h).imp_right (List.mem_cons_of_mem _)

theorem LineOk.insert {x y : L1Line} (h : LineOk x) {k : Nat} (hk : k < 32) {v : L1Word} (e : y.words = NMap.insert x.words k v) : LineOk y := by
  obtain ⟨hp, h32⟩ := h
  rw [LineOk, e]
  refine ⟨pairwise_insert hp k v, fun w hw => ?_⟩
  rcases NMap.mem_of_mem_insert hw with rfl | hw
  · exact hk
  · exact h32 w hw

theorem find_of_mem_pairwise {α : Type} {m : NMap α} (h : m.Pairwise (fun a b => a.1 < b.1)) {c : Nat × α} (hc : c ∈ m) :
    NMap.find m c.1 = some c.2 := by
  induction m with
  | nil => cases hc
  | cons a m ih =>
    obtain ⟨ha, hm⟩ := List.pairwise_cons.1 h
    rcases List.mem_cons.1 hc with rfl | hc
    · exact if_pos rfl
    · exact (if_neg (ha c hc).ne).trans (ih hm hc)

/-! ### A byte that stands in a core's L1, or in memory once its word has left -/

/-- Byte `k` of a word. -/
def byteOf (v : Word) (k : Nat) : Byte := BitVec.ofNat 8 (v.toNat / 256 ^ k)

/-- A core's latest store to an address: dirty in its L1, or in memory where the L1 has not the word. -/
def Stored (s : State) (core pa : Nat) (b : Byte) : Prop :=
  (∀ x, wordIn s core (pa / 128) (pa % 128 / 4) = some x → x.dirty = true ∧ byteOf x.val (pa % 4) = b) ∧
  (wordIn s core (pa / 128) (pa % 128 / 4) = none → memByte s pa = b)

theorem Stored.coreByte {s : State} {core pa : Nat} {b : Byte} (h : Stored s core pa b) : coreByte s core pa = b := by
  obtain ⟨hs, hn⟩ := h
  show (match wordIn s core (pa / 128) (pa % 128 / 4) with | some w => byteOf w.val (pa % 4) | none => memByte s pa) = b
  split
  · rename_i x hx
    exact (hs x hx).2
  · rename_i hx
    exact hn hx

theorem Stored.congr {s t : State} {core pa : Nat} {b : Byte} (h : Stored s core pa b)
    (hw : wordIn t core (pa / 128) (pa % 128 / 4) = wordIn s core (pa / 128) (pa % 128 / 4)) (hm : memByte t pa = memByte s pa) :
    Stored t core pa b := by
  rw [Stored, hw, hm]
  exact h

/-! ### Words registered one after the other -/

theorem memByte_regWords_ne {s : State} {core line a : Nat} {ws : List DirWord}
    (h : ∀ w ∈ ws, ¬(line * 128 + w.i * 4 ≤ a ∧ a < line * 128 + w.i * 4 + 4)) :
    memByte (ws.foldl (fun s w => regWord s core line true w) s) a = memByte s a :=
  List.foldlRecOn (motive := fun t => memByte t a = memByte s a) ws _ rfl fun t ht w hw => by rw [memByte_regWord (h w hw), ht]

theorem memByte_regWords_self {s : State} {core line j : Nat} {ws : List DirWord} {w : DirWord} (hw : w ∈ ws)
    (hu : ∀ x ∈ ws, x.i = w.i → x = w) (hj : j < 4) :
    memByte (ws.foldl (fun s w => regWord s core line true w) s) (line * 128 + w.i * 4 + j) = byteOf w.val j := by
  refine foldl_reaches (p := fun _ => True) (q := fun t => memByte t (line * 128 + w.i * 4 + j) = byteOf w.val j) hw
    (fun _ _ _ _ _ => trivial) (fun s _ => memByte_regWord_self s core line true w hj) (fun s x hx h => ?_) trivial
  by_cases hi : x.i = w.i
  · obtain rfl := hu x hx hi
    exact memByte_regWord_self s core line true x hj
  · exact (memByte_regWord (by omega)).trans h

theorem mem_dirtyWords {l : L1Line} {w : DirWord} (h : w ∈ dirtyWords l none) :
    ∃ v ∈ l.words, v.2.dirty = true ∧ w = { i := v.1, val := v.2.val, mask := v.2.mask, lost := l.lost.contains v.1 } := by
  obtain ⟨v, hv, rfl⟩ := List.mem_map.1 h
  obtain ⟨hv, hd⟩ := List.mem_filter.1 hv
  exact ⟨v, hv, by simpa using hd, rfl⟩

theorem dirtyWords_mem {l : L1Line} {v : Nat × L1Word} (hv : v ∈ l.words) (hd : v.2.dirty = true) :
    { i := v.1, val := v.2.val, mask := v.2.mask, lost := l.lost.contains v.1 } ∈ dirtyWords l none :=
  List.mem_map.2 ⟨v, List.mem_filter.2 ⟨hv, by simp [hd]⟩, rfl⟩

/-- A line that names no word twice sends each dirty word once. -/
theorem dirtyWords_unique {l : L1Line} (h : LineOk l) : ∀ x ∈ dirtyWords l none, ∀ y ∈ dirtyWords l none, x.i = y.i → x = y := by
  intro x hx y hy e
  obtain ⟨v, hv, -, rfl⟩ := mem_dirtyWords hx
  obtain ⟨w, hw, -, rfl⟩ := mem_dirtyWords hy
  have hf := find_of_mem_pairwise h.1 hv
  have e' : v.1 = w.1 := e
  rw [e', find_of_mem_pairwise h.1 hw] at hf
  obtain rfl : v = w := Prod.ext e' (Option.some.inj hf).symm
  rfl

/-! ### A line written back -/

theorem flushWords_eq (s : State) (core line : Nat) : ∃ u : State, u.mm.mem = s.mm.mem ∧ ∃ f,
    flushWords s core line none = s ∧ dirtyWords (l1Line s core line) none = [] ∨
    flushWords s core line none = setL1 ((dirtyWords (l1Line s core line) none).foldl (fun s w => regWord s core line true w) u) core line f := by
  refine ⟨countReq s (l1Line s core line).ctx (l1Line s core line).page core true, rfl, ?_⟩
  unfold flushWords
  dsimp only
  split
  · rename_i h
    exact ⟨id, .inl ⟨rfl, h⟩⟩
  · exact ⟨_, .inr rfl⟩

theorem memByte_flushWords (s : State) (core line a : Nat) : ∃ u : State, u.mm.mem = s.mm.mem ∧ memByte (flushWords s core line none) a =
    memByte ((dirtyWords (l1Line s core line) none).foldl (fun s w => regWord s core line true w) u) a := by
  obtain ⟨u, hu, f, ⟨h, h0⟩ | h⟩ := flushWords_eq s core line
  · exact ⟨s, rfl, by rw [h, h0]; rfl⟩
  · exact ⟨u, hu, by rw [h]; rfl⟩

theorem memByte_flushWords_ne {s : State} {core line a : Nat} (h : LineOk (l1Line s core line)) (ha : a / 128 ≠ line) :
    memByte (flushWords s core line none) a = memByte s a := by
  obtain ⟨u, hu, he⟩ := memByte_flushWords s core line a
  rw [he, memByte_regWords_ne fun w hw => ?_, memByte, hu, memByte]
  obtain ⟨v, hv, -, rfl⟩ := mem_dirtyWords hw
  have := h.2 v hv
  dsimp only
  omega

/-- What a core has stored reaches memory when its line is written back. -/
theorem Stored.flush {s : State} {core pa : Nat} {b : Byte} (h : Stored s core pa b) (hl : LineOk (l1Line s core (pa / 128))) :
    memByte (flushWords s core (pa / 128) none) pa = b := by
  obtain ⟨u, hu, he⟩ := memByte_flushWords s core (pa / 128) pa
  obtain ⟨hs, hn⟩ := h
  rw [he]
  cases hw : wordIn s core (pa / 128) (pa % 128 / 4) with
  | some x =>
    obtain ⟨hd, rfl⟩ := hs x hw
    have hm := dirtyWords_mem (NMap.mem_of_find hw) hd
    have ha : pa / 128 * 128 + pa % 128 / 4 * 4 + pa % 4 = pa := by omega
    have hb := memByte_regWords_self (s := u) (core := core) (line := pa / 128) (j := pa % 4) hm (fun x hx => dirtyWords_unique hl x hx _ hm) (by omega)
    simpa only [ha] using hb
  | none =>
    rw [memByte_regWords_ne fun w hw' => ?_, memByte, hu]
    · exact hn hw
    · obtain ⟨v, hv, -, rfl⟩ := mem_dirtyWords hw'
      dsimp only
      intro hc
      have hi : v.1 = pa % 128 / 4 := by omega
      have hf := find_of_mem_pairwise hl.1 hv
      rw [hi] at hf
      rw [wordIn, hf] at hw
      cases hw

/-! ### Lines given back and room made (R120, R135) -/

/-- What storing a word leaves alone. -/
def offStore (s : State) : (RegSt × WorkSt × EngSt × FabSt × CtxSt × PartSt) × List Claim × List Host.Cell :=
  (outside s, s.mm.claims, s.mm.spad)

theorem offStore_of {s t : State} (ho : outside t = outside s) (hp : dirPart t = dirPart s) : offStore t = offStore s := by
  simp only [dirPart, Prod.mk.injEq] at hp
  obtain ⟨hc, -, hs⟩ := hp
  simp only [offStore, ho, hc, hs]

theorem offStore_setL1 (s : State) (core line : Nat) (f : L1Line → L1Line) : offStore (setL1 s core line f) = offStore s := rfl
theorem offStore_l1Touch (s : State) (core line rank ctx page : Nat) : offStore (l1Touch s core line rank ctx page) = offStore s := rfl

theorem offStore_llcEnsure (s : State) (line : Nat) : offStore (llcEnsure s line) = offStore s :=
  offStore_of (outside_of_beside (beside_llcEnsure ..)) (dirPart_llcEnsure ..)

theorem outside_flushWords (s : State) (core line : Nat) (only : Option (List Nat)) : outside (flushWords s core line only) = outside s := by
  unfold flushWords
  dsimp only
  split
  · rfl
  · exact foldl_keep outside _ (fun s w => outside_regWord s core line true w) _ (countReq s _ _ core true)

theorem queueWords_keeps (s : State) (core line : Nat) (only : Option (List Nat)) :
    offStore (queueWords s core line only) = offStore s ∧ (queueWords s core line only).mm.l1 = s.mm.l1 ∧
      (queueWords s core line only).mm.mem = s.mm.mem := by
  unfold queueWords
  dsimp only
  split <;> exact ⟨rfl, rfl, rfl⟩

/-- The dirty words of a line leave for the directory: they wait there if an engine holds the line. -/
def sentOn (s : State) (core line : Nat) : State := if held s line then queueWords s core line none else flushWords s core line none

theorem sentOn_keeps (s : State) (core line : Nat) : offStore (sentOn s core line) = offStore s ∧
    (∀ c l, l1Key c l ≠ l1Key core line → l1Line (sentOn s core line) c l = l1Line s c l) ∧
    (sentOn s core line).mm.mem = (if held s line then s else flushWords s core line none).mm.mem := by
  unfold sentOn
  split
  · obtain ⟨ho, h1, hm⟩ := queueWords_keeps s core line none
    exact ⟨ho, fun c l _ => l1Line_of_l1 h1 c l, hm⟩
  · exact ⟨offStore_of (outside_flushWords ..) (dirPart_flushWords ..), fun c l hk => l1Line_flushWords_ne hk, rfl⟩

/-- A line given up: its words sent on, then none left. -/
theorem l1Evict_eq (s : State) (core line : Nat) : ∃ u : State, ∃ f : L1Line → L1Line, l1Evict s core line = setL1 u core line f ∧
    (∀ x, (f x).words = []) ∧ offStore u = offStore (sentOn s core line) ∧ u.mm.l1 = (sentOn s core line).mm.l1 ∧
    u.mm.mem = (sentOn s core line).mm.mem := by
  unfold l1Evict giveBack
  refine ⟨_, _, rfl, fun x => ?_, rfl, rfl, rfl⟩
  simp

theorem offStore_l1Evict (s : State) (core line : Nat) : offStore (l1Evict s core line) = offStore s := by
  obtain ⟨u, f, he, -, ho, -⟩ := l1Evict_eq s core line
  rw [he]
  exact ho.trans (sentOn_keeps s core line).1

theorem l1Line_l1Evict_ne {s : State} {core line c l : Nat} (hk : l1Key c l ≠ l1Key core line) :
    l1Line (l1Evict s core line) c l = l1Line s c l := by
  obtain ⟨u, f, he, -, -, h1, -⟩ := l1Evict_eq s core line
  rw [he, l1Line_setL1_ne hk, l1Line_of_l1 h1, (sentOn_keeps s core line).2.1 c l hk]

theorem words_l1Evict (s : State) (core line : Nat) : (l1Line (l1Evict s core line) core line).words = [] := by
  obtain ⟨u, f, he, hf, -⟩ := l1Evict_eq s core line
  rw [he, l1Line_setL1_self, words_normLine, hf]

theorem memByte_l1Evict (s : State) (core line a : Nat) :
    memByte (l1Evict s core line) a = memByte (if held s line then s else flushWords s core line none) a := by
  obtain ⟨u, f, he, -, -, -, hm⟩ := l1Evict_eq s core line
  rw [he, memByte, memByte, ← (sentOn_keeps s core line).2.2, ← hm]
  rfl

theorem l1Key_line_inj {core l line : Nat} (h : l1Key core l = l1Key core line) : l = line := by
  simp only [l1Key] at h
  omega

theorem LinesOk.l1Evict {s : State} (h : LinesOk s) (core line : Nat) : LinesOk (l1Evict s core line) := fun c l => by
  by_cases hk : l1Key c l = l1Key core line
  · rw [l1Line_congr hk]
    exact lineOk_nil (words_l1Evict ..)
  · rw [l1Line_l1Evict_ne hk]
    exact h c l

/-- What a core has stored to a line that no engine holds stands when a line leaves its L1. -/
theorem Stored.l1Evict {s : State} {core pa : Nat} {b : Byte} (h : Stored s core pa b) (hl : LinesOk s) (hh : held s (pa / 128) = false)
    (line : Nat) : Stored (l1Evict s core line) core pa b := by
  by_cases hp : pa / 128 = line
  · subst hp
    have hn : wordIn (Machine.l1Evict s core (pa / 128)) core (pa / 128) (pa % 128 / 4) = none := by
      rw [wordIn, words_l1Evict]
      rfl
    refine ⟨fun x hx => absurd (hn.symm.trans hx) nofun, fun _ => ?_⟩
    rw [memByte_l1Evict, hh]
    exact h.flush (hl core _)
  · refine h.congr ?_ ?_
    · rw [wordIn, l1Line_l1Evict_ne fun e => hp (l1Key_line_inj e), wordIn]
    · rw [memByte_l1Evict]
      split
      · rfl
      · exact memByte_flushWords_ne (hl core line) hp

/-- Room is made by giving a line up, or there is room. -/
theorem l1Room_cases (s : State) (core line : Nat) : l1Room s core line = s ∨ ∃ v, l1Room s core line = l1Evict s core v := by
  unfold l1Room
  split
  · exact .inl rfl
  · dsimp only
    split
    · split
      · exact .inr ⟨_, rfl⟩
      · exact .inl rfl
    · exact .inl rfl

/-! ### A word stored (R120, R136, R154) -/

/-- A word after the bytes of a store. -/
def putBytes (v : Word) (bytes : List (Nat × Byte × Nat)) : Word := bytes.foldl (fun v b => putByte v b.1 b.2.1) v

/-- A word of an L1 after a store to it. -/
def storedWord (mask : Nat) (bytes : List (Nat × Byte × Nat)) (w : L1Word) : L1Word := { w with
  val := putBytes w.val bytes, dirty := true, same := false, mask := w.mask ||| mask, writers := (bytes.map (·.2.2) ++ w.writers).eraseDups }

theorem byteOf_putByte {v : Word} {j k : Nat} {b : Byte} (hj : j < 4) (hk : k < 4) :
    byteOf (putByte v j b) k = if k = j then b else byteOf v k := by
  have hv := v.isLt
  have hb := b.isLt
  by_cases h : k = j
  · subst h
    rw [if_pos rfl]
    apply BitVec.eq_of_toNat_eq
    simp only [byteOf, putByte, BitVec.toNat_ofNat]
    interval_cases k <;> omega
  · rw [if_neg h]
    apply BitVec.eq_of_toNat_eq
    simp only [byteOf, putByte, BitVec.toNat_ofNat]
    interval_cases j <;> interval_cases k <;> omega

/-- A byte that every write of a store to its place gives. -/
theorem byteOf_putBytes {bytes : List (Nat × Byte × Nat)} {k : Nat} {b : Byte} (h4 : ∀ x ∈ bytes, x.1 < 4) (hb : ∃ x ∈ bytes, x.1 = k)
    (hx : ∀ x ∈ bytes, x.1 = k → x.2.1 = b) (v : Word) : byteOf (putBytes v bytes) k = b := by
  obtain ⟨x, hm, rfl⟩ := hb
  have hk := h4 x hm
  refine foldl_reaches (p := fun _ => True) (q := fun v => byteOf v x.1 = b) hm (fun _ _ _ _ _ => trivial) (fun v _ => ?_) (fun v y hy h => ?_) trivial
  · rw [byteOf_putByte hk hk, if_pos rfl, hx x hm rfl]
  · rw [byteOf_putByte (h4 y hy) hk]
    split
    · rename_i e
      exact hx y hy e.symm
    · exact h

/-- The word that a store goes to is valid: brought in, from memory unless the store covers it. -/
def wordBrought (s : State) (core ctx page wa : Nat) (bytes : List (Nat × Byte × Nat)) : State :=
  let line := wa / 32
  let i := wa % 32
  let whole := (List.range 4).all (fun k => bytes.any (fun b => b.1 = k))
  match l1Word s core (wa * 4) with
  | some _ => s
  | none =>
    let s := if whole then s else llcEnsure (countReq s ctx page core false) line
    let old := if whole then 0 else BitVec.ofNat 32 (memNat s (wa * 4) 4)
    let bad := llcPoisoned s (wa * 4) && !(l1Line s core line).words.any (fun w => w.1 / 16 = i / 16)
    setL1 s core line (fun l => { l with
      words := NMap.insert l.words i { val := old }
      poison := if bad then (i / 16 :: l.poison).eraseDups else l.poison })

/-- A store to a word: room, the word valid, its bytes, the line used. -/
theorem l1StoreWord_eq (s : State) (core ctx page rank wa : Nat) (bytes : List (Nat × Byte × Nat)) : ∃ mask, ∃ f : L1Line → L1Line,
    (∀ x, (f x).words = x.words.upd (wa % 32) (storedWord mask bytes)) ∧
    l1StoreWord s core ctx page rank wa bytes =
      l1Touch (setL1 (wordBrought (l1Room s core (wa / 32)) core ctx page wa bytes) core (wa / 32) f) core (wa / 32) rank ctx page :=
  ⟨_, _, fun _ => rfl, rfl⟩

theorem wordIn_setL1_ne {s : State} {core line l i : Nat} {f : L1Line → L1Line} (h : l ≠ line) :
    wordIn (setL1 s core line f) core l i = wordIn s core l i := by
  rw [wordIn, l1Line_setL1_ne fun e => h (l1Key_line_inj e), wordIn]

/-- A change of other words of a line leaves a stored byte. -/
theorem Stored.setL1 {s : State} {core line pa : Nat} {b : Byte} {f : L1Line → L1Line} (h : Stored s core pa b)
    (hf : pa / 128 = line → (f (l1Line s core line)).words.find (pa % 128 / 4) = wordIn s core line (pa % 128 / 4)) :
    Stored (setL1 s core line f) core pa b := by
  refine h.congr ?_ rfl
  by_cases hp : pa / 128 = line
  · rw [hp, wordIn_setL1_self, hf hp]
  · exact wordIn_setL1_ne hp

theorem Stored.l1Touch {s : State} {core line pa rank ctx page : Nat} {b : Byte} (h : Stored s core pa b) :
    Stored (l1Touch s core line rank ctx page) core pa b := by
  have hu : Stored (s.updMM (fun m => { m with l1Clock := s.mm.l1Clock + 1 })) core pa b := h.congr rfl rfl
  exact hu.setL1 fun _ => rfl

theorem LinesOk.l1Touch {s : State} (h : LinesOk s) (core line rank ctx page : Nat) : LinesOk (l1Touch s core line rank ctx page) := by
  have hu : LinesOk (s.updMM (fun m => { m with l1Clock := s.mm.l1Clock + 1 })) := h.of_l1 rfl
  exact hu.setL1 (h core line)

theorem offStore_wordBrought (s : State) (core ctx page wa : Nat) (bytes : List (Nat × Byte × Nat)) :
    offStore (wordBrought s core ctx page wa bytes) = offStore s := by
  unfold wordBrought
  dsimp only
  split
  · rfl
  · split
    · rfl
    · exact offStore_llcEnsure (countReq s ctx page core false) _

/-- The word is valid then; what was in the L1 is as it was. -/
theorem wordBrought_eq (s : State) (core ctx page wa : Nat) (bytes : List (Nat × Byte × Nat)) :
    (wordBrought s core ctx page wa bytes = s ∧ ∃ x, wordIn s core (wa / 32) (wa % 32) = some x) ∨
    ∃ u : State, ∃ f : L1Line → L1Line, ∃ v, beside u = beside s ∧ (∀ x, (f x).words = NMap.insert x.words (wa % 32) v) ∧
      wordBrought s core ctx page wa bytes = Machine.setL1 u core (wa / 32) f := by
  have hl : wa * 4 / 128 = wa / 32 := by omega
  have hi : wa * 4 % 128 / 4 = wa % 32 := by omega
  unfold wordBrought
  dsimp only
  split
  · rename_i x hx
    rw [l1Word, hl, hi] at hx
    exact .inl ⟨rfl, x, hx⟩
  · refine .inr ⟨_, _, _, ?_, fun _ => rfl, rfl⟩
    split
    · rfl
    · exact beside_llcEnsure (countReq s ctx page core false) _

section
variable {s : State} {core : Nat}

theorem LinesOk.wordBrought (h : LinesOk s) (ctx page wa : Nat) (bytes : List (Nat × Byte × Nat)) :
    LinesOk (wordBrought s core ctx page wa bytes) := by
  rcases wordBrought_eq s core ctx page wa bytes with ⟨he, -⟩ | ⟨u, f, v, hu, hf, he⟩
  · rwa [he]
  · rw [he]
    exact (h.of_l1 (l1_of_beside hu)).setL1 (LineOk.insert (h.of_l1 (l1_of_beside hu) _ _) (Nat.mod_lt _ (by omega)) (hf _))

theorem Stored.wordBrought {pa : Nat} {b : Byte} (h : Stored s core pa b) {wa : Nat} (hn : pa / 4 ≠ wa) (ctx page : Nat)
    (bytes : List (Nat × Byte × Nat)) : Stored (wordBrought s core ctx page wa bytes) core pa b := by
  rcases wordBrought_eq s core ctx page wa bytes with ⟨he, -⟩ | ⟨u, f, v, hu, hf, he⟩
  · rwa [he]
  · rw [he]
    have hus : Stored u core pa b := h.congr (wordIn_congr (l1_of_beside hu) ..) (memByte_of_beside hu pa)
    exact hus.setL1 fun hp => by rw [hf, NMap.find_insert_ne _ _ _ _ (by omega), wordIn]

theorem wordIn_wordBrought (ctx page wa : Nat) (bytes : List (Nat × Byte × Nat)) :
    ∃ x, wordIn (wordBrought s core ctx page wa bytes) core (wa / 32) (wa % 32) = some x := by
  rcases wordBrought_eq s core ctx page wa bytes with ⟨he, hx⟩ | ⟨u, f, v, hu, hf, he⟩
  · rwa [he]
  · exact ⟨v, by rw [he, wordIn_setL1_self, hf, NMap.find_insert_self]⟩

theorem LinesOk.l1Room (h : LinesOk s) (line : Nat) : LinesOk (l1Room s core line) := by
  rcases l1Room_cases s core line with he | ⟨v, he⟩
  · rwa [he]
  · rw [he]
    exact h.l1Evict core v

theorem Stored.l1Room {pa : Nat} {b : Byte} (h : Stored s core pa b) (hl : LinesOk s) (hh : held s (pa / 128) = false) (line : Nat) :
    Stored (l1Room s core line) core pa b := by
  rcases l1Room_cases s core line with he | ⟨v, he⟩
  · rwa [he]
  · rw [he]
    exact h.l1Evict hl hh v

theorem offStore_l1Room (line : Nat) : offStore (Machine.l1Room s core line) = offStore s := by
  rcases l1Room_cases s core line with he | ⟨v, he⟩
  · rw [he]
  · rw [he, offStore_l1Evict]

theorem LineOk.upd {x y : L1Line} (h : LineOk x) {k : Nat} {g : L1Word → L1Word} (e : y.words = x.words.upd k g) : LineOk y := by
  cases hk : NMap.find x.words k with
  | none =>
    rw [LineOk, e, NMap.upd, hk]
    exact h
  | some v => exact h.insert (h.2 _ (NMap.mem_of_find hk)) (e.trans (by rw [NMap.upd, hk]))

variable {ctx page rank wa : Nat} {bytes : List (Nat × Byte × Nat)}

theorem offStore_l1StoreWord : offStore (l1StoreWord s core ctx page rank wa bytes) = offStore s := by
  obtain ⟨mask, f, -, he⟩ := l1StoreWord_eq s core ctx page rank wa bytes
  rw [he]
  rw [offStore_l1Touch, offStore_setL1, offStore_wordBrought, offStore_l1Room]

theorem LinesOk.l1StoreWord (h : LinesOk s) : LinesOk (l1StoreWord s core ctx page rank wa bytes) := by
  obtain ⟨mask, f, hf, he⟩ := l1StoreWord_eq s core ctx page rank wa bytes
  rw [he]
  have hb := (h.l1Room (core := core) (wa / 32)).wordBrought (core := core) ctx page wa bytes
  exact (hb.setL1 (LineOk.upd (hb core (wa / 32)) (hf _))).l1Touch core _ rank ctx page

/-- A store to another word leaves what a core has stored, of a line that no engine holds. -/
theorem Stored.l1StoreWord_ne {pa : Nat} {b : Byte} (h : Stored s core pa b) (hl : LinesOk s) (hh : held s (pa / 128) = false)
    (hn : pa / 4 ≠ wa) : Stored (l1StoreWord s core ctx page rank wa bytes) core pa b := by
  obtain ⟨mask, f, hf, he⟩ := l1StoreWord_eq s core ctx page rank wa bytes
  rw [he]
  refine Stored.l1Touch (((h.l1Room hl hh (wa / 32)).wordBrought hn ctx page bytes).setL1 fun hp => ?_)
  rw [hf, NMap.find_upd_ne _ _ _ _ (by omega), wordIn]

/-- A stored byte stands in the L1. -/
theorem stored_l1StoreWord {pa : Nat} {b : Byte} (hpa : pa / 4 = wa) (hb : ∃ x ∈ bytes, x.1 = pa % 4)
    (hx : ∀ x ∈ bytes, x.1 = pa % 4 → x.2.1 = b) (h4 : ∀ x ∈ bytes, x.1 < 4) :
    Stored (l1StoreWord s core ctx page rank wa bytes) core pa b := by
  obtain ⟨mask, f, hf, he⟩ := l1StoreWord_eq s core ctx page rank wa bytes
  rw [he]
  refine Stored.l1Touch ?_
  have hl : pa / 128 = wa / 32 := by omega
  have hi : pa % 128 / 4 = wa % 32 := by omega
  obtain ⟨x, hw⟩ := wordIn_wordBrought (s := Machine.l1Room s core (wa / 32)) (core := core) ctx page wa bytes
  have hs : wordIn (Machine.setL1 (Machine.wordBrought (Machine.l1Room s core (wa / 32)) core ctx page wa bytes) core (wa / 32) f) core (pa / 128)
      (pa % 128 / 4) = some (storedWord mask bytes x) := by
    rw [hl, hi, wordIn_setL1_self, hf, NMap.find_upd_self]
    exact congrArg (Option.map _) hw
  refine ⟨fun y hy => ?_, fun hn => absurd (hs.symm.trans hn) nofun⟩
  obtain rfl := Option.some.inj (hs.symm.trans hy)
  exact ⟨rfl, byteOf_putBytes h4 hb hx _⟩

end

end Sys2Proof.Machine
end

section
/-!
SUPPORT. What the bytes of a store reach (R138, R154): of several that write one place the winner's stands, in the L1, the scratchpad,
or the packets.
-/
namespace Sys2Proof.Machine

open Say

/-! ### The winner of a place -/

/-- A byte of a store is the only one of its place that is not beaten. -/
def Wins (all : List HWrite) (f : HWrite) : Prop :=
  ∀ g ∈ all, g.2.addr % 2 ^ 64 = f.2.addr % 2 ^ 64 → g = f ∨ (samePlace g f = true ∧ writeRank g < writeRank f)

/-- The bytes of a store that stand. -/
def standing (all : List HWrite) : List HWrite := all.filter (fun x => !beaten all x)

theorem samePlace_addr {x y : HWrite} (h : samePlace x y = true) : x.2.addr = y.2.addr := by
  simp only [samePlace, Bool.and_eq_true, decide_eq_true_eq] at h
  exact h.1

section
variable {all : List HWrite} {f : HWrite}

theorem mem_standing_of_wins (hf : f ∈ all) (h : Wins all f) : f ∈ standing all := by
  refine List.mem_filter.2 ⟨hf, ?_⟩
  rw [Bool.not_eq_true', ← Bool.not_eq_true]
  intro hb
  obtain ⟨y, hy, he⟩ := List.any_eq_true.1 hb
  obtain ⟨hp, hr⟩ := Bool.and_eq_true_iff.1 he
  have hlt := of_decide_eq_true hr
  rcases h y hy (by rw [samePlace_addr hp]) with rfl | ⟨-, hlt'⟩
  · omega
  · omega

theorem eq_of_wins (h : Wins all f) (hf : f ∈ all) {g : HWrite} (hg : g ∈ standing all) (ha : g.2.addr % 2 ^ 64 = f.2.addr % 2 ^ 64) : g = f := by
  obtain ⟨hg, hb⟩ := List.mem_filter.1 hg
  refine (h g hg ha).resolve_right fun ⟨hp, hlt⟩ => ?_
  rw [Bool.not_eq_true', ← Bool.not_eq_true] at hb
  exact hb (List.any_eq_true.2 ⟨f, hf, by rw [hp, decide_eq_true hlt]; rfl⟩)

end

/-! ### Words of the L1 -/

/-- The bytes of a list that go to memory: word, context, page, and the byte in its word. -/
def memBytesOf (gi : Nat) (l : List HWrite) : List (Nat × Nat × Nat × (Nat × Byte × Nat)) :=
  l.filterMap (fun x => match x.2.dest with
    | .mem ctx page => some (x.2.addr / 4, ctx, page, (x.2.addr % 4, x.2.byte, thKey gi x.1 x.2.lane))
    | _ => none)

/-- The word of a list of such bytes at a place. -/
def wordFor (b : List (Nat × Nat × Nat × (Nat × Byte × Nat))) (w : Nat) : Option (Nat × Nat × Nat × List (Nat × Byte × Nat)) :=
  (b.find? (fun x => x.1 = w)).map (fun x => (w, x.2.1, x.2.2.1, (b.filter (fun y => y.1 = w)).map (fun y => y.2.2.2)))

theorem memWordsOf_eq (gi : Nat) (l : List HWrite) :
    memWordsOf gi l = (((memBytesOf gi l).map (·.1)).eraseDups).filterMap (wordFor (memBytesOf gi l)) := rfl

theorem wordFor_fst {b : List (Nat × Nat × Nat × (Nat × Byte × Nat))} {w : Nat} {x : Nat × Nat × Nat × List (Nat × Byte × Nat)}
    (h : wordFor b w = some x) : x.1 = w ∧ x.2.2.2 = (b.filter (fun y => y.1 = w)).map (fun y => y.2.2.2) := by
  obtain ⟨y, -, rfl⟩ := Option.map_eq_some_iff.1 h
  exact ⟨rfl, rfl⟩

theorem wordFor_of_mem_memWordsOf {gi : Nat} {l : List HWrite} {w : Nat × Nat × Nat × List (Nat × Byte × Nat)} (h : w ∈ memWordsOf gi l) :
    wordFor (memBytesOf gi l) w.1 = some w := by
  rw [memWordsOf_eq] at h
  obtain ⟨k, -, hk⟩ := List.mem_filterMap.1 h
  rwa [(wordFor_fst hk).1]

/-- A store has one word for each place. -/
theorem memWordsOf_unique {gi : Nat} {l : List HWrite} {v w : Nat × Nat × Nat × List (Nat × Byte × Nat)} (hv : v ∈ memWordsOf gi l)
    (hw : w ∈ memWordsOf gi l) (h : v.1 = w.1) : v = w := by
  have e := wordFor_of_mem_memWordsOf hv
  rw [h, wordFor_of_mem_memWordsOf hw] at e
  exact (Option.some.inj e).symm

theorem exists_word_of_mem {gi : Nat} {l : List HWrite} {f : HWrite} {ctx page : Nat} (hf : f ∈ l) (hd : f.2.dest = .mem ctx page) :
    ∃ w ∈ memWordsOf gi l, w.1 = f.2.addr / 4 := by
  have hb : (f.2.addr / 4, ctx, page, (f.2.addr % 4, f.2.byte, thKey gi f.1 f.2.lane)) ∈ memBytesOf gi l :=
    List.mem_filterMap.2 ⟨f, hf, by rw [hd]⟩
  obtain ⟨y, hy⟩ := Option.isSome_iff_exists.1 ((List.find?_isSome (p := fun x => decide (x.1 = f.2.addr / 4))).2 ⟨_, hb, by simp⟩)
  have hw : wordFor (memBytesOf gi l) (f.2.addr / 4) = some (f.2.addr / 4, y.2.1, y.2.2.1,
      ((memBytesOf gi l).filter (fun z => z.1 = f.2.addr / 4)).map (fun z => z.2.2.2)) := by rw [wordFor, hy]; rfl
  rw [memWordsOf_eq]
  exact ⟨_, List.mem_filterMap.2 ⟨_, List.mem_eraseDups.2 (List.mem_map.2 ⟨_, hb, rfl⟩), hw⟩, rfl⟩

/-- The bytes of a word of a store. -/
theorem mem_word_bytes {gi : Nat} {l : List HWrite} {w : Nat × Nat × Nat × List (Nat × Byte × Nat)} (hw : w ∈ memWordsOf gi l)
    (x : Nat × Byte × Nat) : x ∈ w.2.2.2 ↔ ∃ g ∈ l, (∃ ctx page, g.2.dest = .mem ctx page) ∧ g.2.addr / 4 = w.1 ∧
      x = (g.2.addr % 4, g.2.byte, thKey gi g.1 g.2.lane) := by
  rw [(wordFor_fst (wordFor_of_mem_memWordsOf hw)).2]
  constructor
  · intro h
    obtain ⟨y, hy, rfl⟩ := List.mem_map.1 h
    obtain ⟨hy, he⟩ := List.mem_filter.1 hy
    obtain ⟨g, hg, hgy⟩ := List.mem_filterMap.1 hy
    split at hgy
    · rename_i ctx page hd
      obtain rfl := Option.some.inj hgy
      exact ⟨g, hg, ⟨ctx, page, hd⟩, of_decide_eq_true he, rfl⟩
    · cases hgy
  · rintro ⟨g, hg, ⟨ctx, page, hd⟩, ha, rfl⟩
    exact List.mem_map.2 ⟨(g.2.addr / 4, ctx, page, (g.2.addr % 4, g.2.byte, thKey gi g.1 g.2.lane)),
      List.mem_filter.2 ⟨List.mem_filterMap.2 ⟨g, hg, by rw [hd]⟩, by simp [ha]⟩, rfl⟩

/-- The words of a store that go to the L1. -/
def storeWords (s : State) (gi core hint : Nat) (l : List HWrite) : State :=
  (memWordsOf gi l).foldl (fun s w => l1StoreWord s core w.2.1 w.2.2.1 (rankOf hint) w.1 w.2.2.2) s

theorem offStore_storeWords (s : State) (gi core hint : Nat) (l : List HWrite) : offStore (storeWords s gi core hint l) = offStore s :=
  foldl_keep offStore _ (fun _ _ => offStore_l1StoreWord) _ _

theorem held_of_offStore {s t : State} (h : offStore t = offStore s) (line : Nat) : held t line = held s line := by
  have hc : t.mm.claims = s.mm.claims := congrArg (fun x => x.2.1) h
  rw [held, hc, held]

/-- The word of a winner takes its byte. -/
theorem stored_word {t : State} {gi core rank : Nat} {all : List HWrite} {f : HWrite} {ctx page : Nat} (hf : f ∈ all) (hw : Wins all f)
    (hd : f.2.dest = .mem ctx page) {w : Nat × Nat × Nat × List (Nat × Byte × Nat)} (hm : w ∈ memWordsOf gi (standing all))
    (ha : w.1 = f.2.addr / 4) : Stored (l1StoreWord t core w.2.1 w.2.2.1 rank w.1 w.2.2.2) core f.2.addr f.2.byte := by
  refine stored_l1StoreWord ha.symm ⟨_, (mem_word_bytes hm _).2 ⟨f, mem_standing_of_wins hf hw, ⟨ctx, page, hd⟩, ha.symm, rfl⟩, rfl⟩
    (fun x hx hp => ?_) fun x hx => ?_
  · obtain ⟨g, hg, -, hga, rfl⟩ := (mem_word_bytes hm x).1 hx
    have he : g.2.addr = f.2.addr := by
      dsimp only at hp
      omega
    rw [eq_of_wins hw hf hg (by rw [he])]
  · obtain ⟨g, -, -, -, rfl⟩ := (mem_word_bytes hm x).1 hx
    exact Nat.mod_lt _ (by omega)

theorem stored_storeWords {s : State} {gi core hint : Nat} {all : List HWrite} {f : HWrite} {ctx page : Nat} (hl : LinesOk s) (hf : f ∈ all)
    (hw : Wins all f) (hd : f.2.dest = .mem ctx page) (hh : held s (f.2.addr / 128) = false) :
    Stored (storeWords s gi core hint (standing all)) core f.2.addr f.2.byte := by
  have hs := mem_standing_of_wins hf hw
  obtain ⟨w, hm, hwa⟩ := exists_word_of_mem (gi := gi) hs hd
  have hkeep : ∀ (t : State) (x : Nat × Nat × Nat × List (Nat × Byte × Nat)), LinesOk t ∧ held t (f.2.addr / 128) = false →
      LinesOk (l1StoreWord t core x.2.1 x.2.2.1 (rankOf hint) x.1 x.2.2.2) ∧
        held (l1StoreWord t core x.2.1 x.2.2.1 (rankOf hint) x.1 x.2.2.2) (f.2.addr / 128) = false :=
    fun t x h => ⟨h.1.l1StoreWord, (held_of_offStore offStore_l1StoreWord _).trans h.2⟩
  refine (foldl_reaches (p := fun t => LinesOk t ∧ held t (f.2.addr / 128) = false)
    (q := fun t => (LinesOk t ∧ held t (f.2.addr / 128) = false) ∧ Stored t core f.2.addr f.2.byte) hm (fun t x _ _ h => hkeep t x h)
    (fun t h => ⟨hkeep t w h, stored_word hf hw hd hm hwa⟩) (fun t x hx h => ⟨hkeep t x h.1, ?_⟩) ⟨hl, hh⟩).2
  obtain ⟨⟨hl, hh⟩, hs⟩ := h
  by_cases hxw : x.1 = w.1
  · exact stored_word hf hw hd hx (hxw.trans hwa)
  · exact hs.l1StoreWord_ne hl hh fun e => hxw (e.symm.trans hwa.symm)

/-! ### Bytes of the scratchpad -/

/-- The bytes of a store that go to the scratchpad. -/
def storeSpad (s : State) (core : Nat) (l : List HWrite) : State :=
  l.foldl (fun s x => if x.2.dest = .spad then setSpadByte s core x.2.addr x.2.byte else s) s

/-- The scratchpad's bytes of a store, by key. -/
def spadWrites (core : Nat) (l : List HWrite) : List (Nat × Byte) :=
  (l.filter (fun x => x.2.dest = .spad)).map (fun x => (spadKey core x.2.addr, x.2.byte))

theorem storeSpad_spad (s : State) (core : Nat) (l : List HWrite) : (storeSpad s core l).mm.spad = NMap.writes 0 s.mm.spad (spadWrites core l) := by
  rw [NMap.writes, spadWrites, List.foldl_map, List.foldl_filter]
  refine (List.foldl_hom (fun s : State => s.mm.spad) fun s x => ?_).symm
  by_cases h : x.2.dest = .spad
  · simp only [h, decide_true, if_true]
    rfl
  · simp only [h, decide_false, Bool.false_eq_true, if_false]

/-- What the scratchpad's bytes leave alone. -/
def offSpad (s : State) : (RegSt × WorkSt × EngSt × FabSt × CtxSt × PartSt) × NMap L1Line × List Host.Cell := (outside s, s.mm.l1, s.mm.mem)

theorem offSpad_storeSpad (s : State) (core : Nat) (l : List HWrite) : offSpad (storeSpad s core l) = offSpad s := by
  refine foldl_keep offSpad _ (fun s x => ?_) _ _
  split <;> rfl

theorem mem_spadWrites {core : Nat} {l : List HWrite} {w : Nat × Byte} : w ∈ spadWrites core l ↔
    ∃ f ∈ l, f.2.dest = .spad ∧ w = (spadKey core f.2.addr, f.2.byte) := by
  simp only [spadWrites, List.mem_map, List.mem_filter, decide_eq_true_eq, and_assoc, eq_comm (a := w)]

theorem spadKey_addr_inj {core a b : Nat} (h : spadKey core a = spadKey core b) : a = b := Nat.add_left_cancel h

theorem spadByte_storeSpad_self {s : State} {core : Nat} {all : List HWrite} {f : HWrite} (hf : f ∈ all) (hw : Wins all f)
    (hd : f.2.dest = .spad) : spadByte (storeSpad s core (standing all)) core f.2.addr = f.2.byte := by
  rw [spadByte, storeSpad_spad]
  refine NMap.get_writes_self ⟨_, mem_spadWrites.2 ⟨f, mem_standing_of_wins hf hw, hd, rfl⟩, rfl⟩ fun w hw' e => ?_
  obtain ⟨g, hg, -, rfl⟩ := mem_spadWrites.1 hw'
  rw [eq_of_wins hw hf hg (by rw [spadKey_addr_inj e])]

theorem spadByte_storeSpad_ne {s : State} {core c a : Nat} {l : List HWrite}
    (h : ∀ f ∈ l, f.2.dest = .spad → spadKey core f.2.addr ≠ spadKey c a) : spadByte (storeSpad s core l) c a = spadByte s c a := by
  rw [spadByte, storeSpad_spad]
  refine NMap.get_writes_ne fun w hw => ?_
  obtain ⟨g, hg, hd, rfl⟩ := mem_spadWrites.1 hw
  exact h g hg hd

/-! ### What a store sends -/

/-- What sending leaves alone: the registers but for counters, memory and the scratchpads, the window map. -/
def offSend (s : State) : (NMap Word × NMap Word × NMap Thread × NMap HWarp) × (NMap Group × List Host.Cell × List Host.Cell) × NMap (List Byte) :=
  ((s.rg.v, s.rg.s, s.rg.threads, s.rg.hwarps), (s.wk.groups, s.mm.mem, s.mm.spad), s.fb.wmap)

/-- A change that at most sends: what stands in the L1s stands still, and packets that were made stay. -/
structure Sends (s t : State) : Prop where
  keeps : offSend t = offSend s
  stored : ∀ core pa b, Stored s core pa b → Stored t core pa b
  packets : ∀ c ∈ s.fb.packets, c.1 < s.md.nextId → c ∈ t.fb.packets
  later : s.md.nextId ≤ t.md.nextId

theorem Sends.refl (s : State) : Sends s s := ⟨rfl, fun _ _ _ h => h, fun _ h _ => h, Nat.le_refl _⟩

theorem Sends.trans {s t u : State} (h : Sends s t) (h' : Sends t u) : Sends s u :=
  ⟨h'.keeps.trans h.keeps, fun c a b hs => h'.stored c a b (h.stored c a b hs),
    fun c hc hl => h'.packets c (h.packets c hc hl) (hl.trans_le h.later), h.later.trans h'.later⟩

theorem Sends.foldl {β : Type} {f : State → β → State} {l : List β} (hf : ∀ s, ∀ x ∈ l, Sends s (f s x)) (s : State) : Sends s (l.foldl f s) :=
  List.foldlRecOn (motive := fun t => Sends s t) l f (.refl s) fun t h x hx => h.trans (hf t x hx)

/-- A change of nothing that sending touches but a fresh identity. -/
theorem Sends.of_quiet {s t : State} (hk : offSend t = offSend s) (hl : t.mm.l1 = s.mm.l1) (hp : t.fb.packets = s.fb.packets)
    (hn : s.md.nextId ≤ t.md.nextId) : Sends s t := by
  refine ⟨hk, fun core pa b h => h.congr (wordIn_congr hl ..) ?_, fun c hc _ => hp ▸ hc, hn⟩
  have hm : t.mm.mem = s.mm.mem := congrArg (fun x => x.2.1.2.1) hk
  rw [memByte, hm, memByte]

theorem sends_finishWorks (s : State) (ids : List Nat) : Sends s (finishWorks s ids) := by
  have h := offWork_finishWorks s ids
  simp only [offWork, Prod.mk.injEq] at h
  obtain ⟨⟨hv, hs, -, hh, ht⟩, ⟨-, -, hg⟩, hmm, -, -, hfb, hmd⟩ := h
  refine .of_quiet ?_ (by rw [hmm]) (by rw [hfb]) (by rw [hmd])
  simp only [offSend, hv, hs, hh, ht, hg, hmm, hfb]

theorem Stored.of_same {s t : State} {core pa : Nat} {b : Byte} (h : Stored s core pa b)
    (hw : (wordIn t core (pa / 128) (pa % 128 / 4)).map (fun x => (x.dirty, x.val)) =
      (wordIn s core (pa / 128) (pa % 128 / 4)).map (fun x => (x.dirty, x.val))) (hm : memByte t pa = memByte s pa) : Stored t core pa b := by
  obtain ⟨hs, hn⟩ := h
  refine ⟨fun x hx => ?_, fun hx => ?_⟩
  · rw [hx] at hw
    obtain ⟨y, hy, e⟩ := Option.map_eq_some_iff.1 hw.symm
    obtain ⟨hd, hv⟩ := Prod.ext_iff.1 e
    dsimp only at hd hv
    rw [← hd, ← hv]
    exact hs y hy
  · rw [hx] at hw
    exact hm.trans (hn (Option.map_eq_none_iff.1 hw.symm))

/-- A message to the directory changes of a word only that it has been sent. -/
theorem Stored.setL1_map {s : State} {core line c pa : Nat} {b : Byte} (h : Stored s c pa b) {f : L1Line → L1Line} {g : Nat → L1Word → L1Word}
    (hf : ∀ l, (f l).words = l.words.map (fun w => (w.1, g w.1 w.2))) (hg : ∀ i x, (g i x).dirty = x.dirty ∧ (g i x).val = x.val) :
    Stored (Machine.setL1 s core line f) c pa b := by
  refine h.of_same ?_ rfl
  by_cases hk : l1Key c (pa / 128) = l1Key core line
  · rw [wordIn, wordIn, l1Line_congr hk, l1Line_congr hk, l1Line_setL1_self, words_normLine, hf, NMap.find_map, Option.map_map]
    exact congrFun (congrArg Option.map (funext fun x => Prod.ext (hg _ x).1 (hg _ x).2)) _
  · rw [wordIn, wordIn, l1Line_setL1_ne hk]

theorem sends_sendLine (s : State) (core line : Nat) (only : Option (List Nat)) (work : Option Nat) :
    Sends s (sendLine s core line only work).2 := by
  unfold sendLine
  dsimp only
  split
  · exact .refl s
  · refine ⟨rfl, fun c pa b h => ?_, fun c hc _ => hc, Nat.le_succ_of_le (Nat.le_max_left ..)⟩
    show Stored (setL1 _ core line _) c pa b
    refine Stored.setL1_map (g := fun i x => if (dirtyWords (l1Line s core line) only).any (fun y => y.i = i) then
      { x with sent := max s.md.nextId (s.md.cur + 1) :: x.sent, same := true } else x) ?_ (fun l => ?_) fun i x => ?_
    · exact h.congr rfl rfl
    · refine List.map_congr_left fun w _ => ?_
      split <;> rfl
    · split <;> exact ⟨rfl, rfl⟩

theorem sends_addParts (s : State) (id n : Nat) : Sends s (addParts s id n) := .of_quiet rfl rfl rfl (Nat.le_refl _)

theorem sends_sendStored (s : State) (gi core : Nat) (e : Nat × FifoEntry) : Sends s (sendStored s gi core e) := by
  let ws := (memWordsOf gi (writesOf [e])).map (·.1)
  let lines := (ws.map (fun w => w / 32)).eraseDups
  let out := lines.foldl (fun (acc : Nat × State) (line : Nat) => (acc.1 + (sendLine acc.2 core line (some ((ws.filter (fun w => w / 32 = line)).map
    (fun w => w % 32))) e.2.work).1.length, (sendLine acc.2 core line (some ((ws.filter (fun w => w / 32 = line)).map (fun w => w % 32))) e.2.work).2)) (0, s)
  have hout : Sends s out.2 := List.foldlRecOn (motive := fun acc => Sends s acc.2) lines _ (.refl s) fun (acc : Nat × State) h line _ =>
    h.trans (sends_sendLine ..)
  show Sends s (match e.2.work with | none => out.2 | some x => if out.1 = 0 then finishWork out.2 x else addParts out.2 x (out.1 - 1))
  split
  · exact hout
  · rename_i x _
    split
    · exact hout.trans (sends_finishWorks out.2 [x])
    · exact hout.trans (sends_addParts ..)

theorem NMap.mem_insert_of_ne {α : Type} {m : NMap α} {k : Nat} {v : α} {c : Nat × α} (hc : c ∈ m) (h : c.1 ≠ k) : c ∈ NMap.insert m k v := by
  induction m with
  | nil => cases hc
  | cons a m ih =>
    simp only [NMap.insert]
    split
    · exact List.mem_cons_of_mem _ hc
    · split
      · rename_i he
        refine List.mem_cons_of_mem _ ((List.mem_cons.1 hc).resolve_left ?_)
        rintro rfl
        exact h he.symm
      · rcases List.mem_cons.1 hc with rfl | hc
        · exact List.mem_cons_self
        · exact List.mem_cons_of_mem _ (ih hc)

/-- A packet on its way carries what it was sent with. -/
def Carries (p : Packet) (x : Sender) (d : Descr) (kind : PktKind) (bytes : List (Nat × Byte)) : Prop :=
  p.kind = kind ∧ p.entry = x.entry ∧ p.port = d.port ∧ p.jetty = d.jetty ∧ p.chip = d.chip ∧ p.rxw = d.rxw ∧ p.gi = x.gi ∧ p.hwarp = x.hwarp ∧
    p.bytes = bytes

/-- A sender that has come back to a port stands level there. -/
theorem rejoin_keeps (s : State) (cls place ctx : Nat) (others : List Nat) :
    ∃ p, rejoin s cls place ctx others = { s with pt := p } := by
  unfold rejoin
  split
  · exact ⟨s.pt, rfl⟩
  · exact ⟨_, rfl⟩

/-- A packet sent: one more packet, under a fresh identity. -/
theorem sendPacket_eq (s : State) (x : Sender) (d : Descr) (kind : PktKind) (q : Nat) (bytes : List (Nat × Byte)) (addend : Nat) :
    ∃ id p, offSend (sendPacket s x d kind q bytes addend).2 = offSend s ∧ (sendPacket s x d kind q bytes addend).2.mm.l1 = s.mm.l1 ∧
      (sendPacket s x d kind q bytes addend).2.fb.packets = NMap.insert s.fb.packets id p ∧ s.md.nextId ≤ id ∧
      (sendPacket s x d kind q bytes addend).2.md.nextId = id + 1 ∧ Carries p x d kind bytes := by
  unfold sendPacket
  dsimp only
  split
  · exact ⟨_, _, rfl, rfl, rfl, Nat.le_max_left .., rfl, rfl, rfl, rfl, rfl, rfl, rfl, rfl, rfl, rfl⟩
  · obtain ⟨p, hp⟩ := rejoin_keeps (State.fresh (nextSeq s ⟨x.core, d.port, d.jetty, d.chip, d.rxw, 0⟩).2).2 3 d.port x.ctx
      ((((portWaiting (State.fresh (nextSeq s ⟨x.core, d.port, d.jetty, d.chip, d.rxw, 0⟩).2).2 d.port).filter (fun y => y.2.cls != 0)).map
        (fun y => y.2.ctx)).eraseDups)
    rw [hp]
    exact ⟨_, _, rfl, rfl, rfl, Nat.le_max_left .., rfl, rfl, rfl, rfl, rfl, rfl, rfl, rfl, rfl, rfl⟩

/-- A packet stands that was made for a receiver. -/
def Posted (s : State) (x : Sender) (d : Descr) (kind : PktKind) (ok : List (Nat × Byte) → Prop) : Prop :=
  ∃ c ∈ s.fb.packets, c.1 < s.md.nextId ∧ ∃ bytes, ok bytes ∧ Carries c.2 x d kind bytes

theorem Posted.sends {s t : State} {x : Sender} {d : Descr} {kind : PktKind} {ok : List (Nat × Byte) → Prop} (h : Posted s x d kind ok)
    (ht : Sends s t) : Posted t x d kind ok := by
  obtain ⟨c, hc, hl, hb⟩ := h
  exact ⟨c, ht.packets c hc hl, hl.trans_le ht.later, hb⟩

theorem sends_sendPacket (s : State) (x : Sender) (d : Descr) (kind : PktKind) (q : Nat) (bytes : List (Nat × Byte)) (addend : Nat) :
    Sends s (sendPacket s x d kind q bytes addend).2 := by
  obtain ⟨id, p, hk, h1, hpk, hid, hn, -⟩ := sendPacket_eq s x d kind q bytes addend
  have hm : (sendPacket s x d kind q bytes addend).2.mm.mem = s.mm.mem := congrArg (fun x => x.2.1.2.1) hk
  refine ⟨hk, fun core pa b h => h.congr (wordIn_congr h1 ..) (by rw [memByte, hm, memByte]), fun c hc hl => ?_, by omega⟩
  rw [hpk]
  exact NMap.mem_insert_of_ne hc (by omega)

theorem posted_sendPacket (s : State) (x : Sender) (d : Descr) (kind : PktKind) (q : Nat) {bytes : List (Nat × Byte)}
    {ok : List (Nat × Byte) → Prop} (hb : ok bytes) : Posted (sendPacket s x d kind q bytes 0).2 x d kind ok := by
  obtain ⟨id, p, -, -, hpk, -, hn, hp⟩ := sendPacket_eq s x d kind q bytes 0
  exact ⟨(id, p), by rw [hpk]; exact NMap.mem_of_find (NMap.find_insert_self ..), by rw [hn]; exact Nat.lt_succ_self id, bytes, hb, hp⟩

/-! ### The bytes of one instruction as packets (R321) -/

/-- The packets of a block, one for each receiver. -/
def sendBlock (x : Sender) (kind : PktKind) (ds : List Descr) (acc : List Nat × State) (b : Nat × List (Nat × Byte)) : List Nat × State :=
  ds.foldl (fun (acc : List Nat × State) d => (acc.1 ++ [(sendPacket acc.2 x d kind b.1 b.2 0).1], (sendPacket acc.2 x d kind b.1 b.2 0).2)) acc

theorem sends_sendBlock (x : Sender) (kind : PktKind) (ds : List Descr) (acc : List Nat × State) (b : Nat × List (Nat × Byte)) :
    Sends acc.2 (sendBlock x kind ds acc b).2 :=
  List.foldlRecOn (motive := fun t => Sends acc.2 t.2) ds _ (.refl acc.2) fun (_ : List Nat × State) h _ _ => h.trans (sends_sendPacket ..)

theorem posted_sendBlock {x : Sender} {kind : PktKind} {ds : List Descr} (acc : List Nat × State) {b : Nat × List (Nat × Byte)} {d : Descr}
    {ok : List (Nat × Byte) → Prop} (hd : d ∈ ds) (hb : ok b.2) : Posted (sendBlock x kind ds acc b).2 x d kind ok :=
  foldl_reaches (p := fun _ => True) (q := fun t : List Nat × State => Posted t.2 x d kind ok) hd (fun _ _ _ _ _ => trivial)
    (fun _ _ => posted_sendPacket _ x d kind b.1 hb) (fun _ _ _ h => h.sends (sends_sendPacket ..)) trivial

/-- The bytes of a context that it has sent, counted (R425). -/
def countSent (s : State) (x : Sender) (n : Nat) : State := s.updCtx x.ctx (fun c => { c with bytes := (c.bytes + n) % 2 ^ 64 })

theorem sendBytes_store (s : State) (x : Sender) (writes : List (Nat × Byte)) : sendBytes s x .store writes =
    (blocksOf (wmField s x.entry 0x10 8) writes).foldl (sendBlock x .store (descrs s x.entry)) ([], countSent s x writes.length) := rfl

theorem sends_sendBytes (s : State) (x : Sender) (writes : List (Nat × Byte)) : Sends s (sendBytes s x .store writes).2 := by
  rw [sendBytes_store]
  have h0 : Sends s (countSent s x writes.length) := .of_quiet rfl rfl rfl (Nat.le_refl _)
  exact List.foldlRecOn (motive := fun t : List Nat × State => Sends s t.2) _ _ h0 fun t h b _ => h.trans (sends_sendBlock ..)

theorem posted_sendBytes {s : State} {x : Sender} {writes : List (Nat × Byte)} {d : Descr} {ok : List (Nat × Byte) → Prop}
    (hd : d ∈ descrs s x.entry) (hb : ∃ b ∈ blocksOf (wmField s x.entry 0x10 8) writes, ok b.2) :
    Posted (sendBytes s x .store writes).2 x d .store ok := by
  obtain ⟨b, hb, hok⟩ := hb
  rw [sendBytes_store]
  exact foldl_reaches (p := fun _ => True) (q := fun t : List Nat × State => Posted t.2 x d .store ok) hb (fun _ _ _ _ _ => trivial)
    (fun _ _ => posted_sendBlock _ hd hok) (fun _ _ _ h => h.sends (sends_sendBlock ..)) trivial

/-- A byte that is the only one at its offset stands in a block. -/
theorem exists_block {base : Nat} {writes : List (Nat × Byte)} {w : Nat × Byte} (hw : w ∈ writes)
    (hu : ∀ v ∈ writes, (v.1 + base) % 2 ^ 64 = (w.1 + base) % 2 ^ 64 → v.2 = w.2) :
    ∃ b ∈ blocksOf base writes, ((w.1 + base) % 2 ^ 64, w.2) ∈ b.2 := by
  have hf : NMap.find (writes.foldl (fun m v => NMap.insert m ((v.1 + base) % 2 ^ 64) v.2) ([] : NMap Byte)) ((w.1 + base) % 2 ^ 64) = some w.2 :=
    foldl_reaches (p := fun _ => True) (q := fun m : NMap Byte => NMap.find m ((w.1 + base) % 2 ^ 64) = some w.2) hw (fun _ _ _ _ _ => trivial)
      (fun _ _ => NMap.find_insert_self ..) (fun m v hv h => by
        by_cases e : (w.1 + base) % 2 ^ 64 = (v.1 + base) % 2 ^ 64
        · rw [e, NMap.find_insert_self, hu v hv e.symm]
        · rwa [NMap.find_insert_ne _ _ _ _ e]) trivial
  have hm := NMap.mem_of_find hf
  refine ⟨_, List.mem_map.2 ⟨_, List.mem_eraseDups.2 (List.mem_map.2 ⟨_, hm, rfl⟩), rfl⟩, List.mem_filter.2 ⟨hm, ?_⟩⟩
  simp

end Sys2Proof.Machine
end

section
/-!
SUPPORT. A store performed (R138, R154, R158): its bytes, its packets, the FIFOs of its home warps, and the end of its group.
-/
namespace Sys2Proof.Machine

open Say

/-! ### What an entry sends -/

/-- The bytes that one home warp stores through an entry of the window map. -/
def txWrites (l : List HWrite) (h n : Nat) : List (Nat × Byte) :=
  (((l.filter (fun x => x.1 = h)).map (·.2)).filter (fun x => x.dest = .tx n)).map (fun x => (x.addr, x.byte))

/-- The entries of the window map that one home warp stores through. -/
def txPorts (l : List HWrite) (h : Nat) : List Nat :=
  (((l.filter (fun x => x.1 = h)).map (·.2)).filterMap (fun x => match x.dest with | .tx n => some n | _ => none)).eraseDups

/-- The packets of one entry of a store. -/
def sendTx (gi core ctx : Nat) (l : List HWrite) (h : Nat) (s : State) : State :=
  (txPorts l h).foldl (fun s n => (sendBytes s { core := core, ctx := ctx, gi := gi, hwarp := h, entry := n } .store (txWrites l h n)).2) s

/-- One entry of a store is done: packets, words that a release registers, the work. -/
def doneEntry (gi core ctx : Nat) (l : List HWrite) (s : State) (e : Nat × FifoEntry) : State :=
  let s := sendTx gi core ctx l e.1 s
  if e.2.rel then sendStored s gi core e else finishWorks s e.2.work.toList

theorem sends_sendTx (gi core ctx : Nat) (l : List HWrite) (h : Nat) (s : State) : Sends s (sendTx gi core ctx l h s) :=
  .foldl (fun _ _ _ => sends_sendBytes ..) s

theorem sends_doneEntry (gi core ctx : Nat) (l : List HWrite) (s : State) (e : Nat × FifoEntry) : Sends s (doneEntry gi core ctx l s e) := by
  unfold doneEntry
  dsimp only
  split
  · exact (sends_sendTx ..).trans (sends_sendStored ..)
  · exact (sends_sendTx ..).trans (sends_finishWorks ..)

theorem wmap_of_sends {s t : State} (h : Sends s t) : t.fb.wmap = s.fb.wmap := congrArg (fun x => x.2.2) h.keeps

theorem descrs_congr {s t : State} (h : t.fb.wmap = s.fb.wmap) (n : Nat) : descrs t n = descrs s n := by
  have hb : wmByte t n = wmByte s n := funext fun i => by simp only [wmByte, h]
  have hf : wmField t n = wmField s n := funext fun i => funext fun k => by simp only [wmField, hb]
  have hd : descrOf t n = descrOf s n := funext fun i => by simp only [descrOf, hb, hf]
  simp only [descrs, hb, hd]

theorem wmField_congr {s t : State} (h : t.fb.wmap = s.fb.wmap) (n i k : Nat) : wmField t n i k = wmField s n i k := by
  simp only [wmField, wmByte, h]

/-- A byte of a store is in a packet to a receiver, at its place from the window's base on. -/
def SentTo (gi core ctx n base : Nat) (f : HWrite) (d : Descr) (s : State) : Prop :=
  Posted s { core := core, ctx := ctx, gi := gi, hwarp := f.1, entry := n } d .store (fun b => ((f.2.addr + base) % 2 ^ 64, f.2.byte) ∈ b)

section
variable {gi core ctx n : Nat} {all : List HWrite} {f : HWrite}

theorem mem_txPorts {l : List HWrite} (hf : f ∈ l) (hd : f.2.dest = .tx n) : n ∈ txPorts l f.1 :=
  List.mem_eraseDups.2 (List.mem_filterMap.2 ⟨f.2, List.mem_map.2 ⟨f, List.mem_filter.2 ⟨hf, decide_eq_true rfl⟩, rfl⟩, by rw [hd]⟩)

theorem mem_txWrites {l : List HWrite} {h : Nat} {w : Nat × Byte} : w ∈ txWrites l h n ↔
    ∃ g ∈ l, g.1 = h ∧ g.2.dest = .tx n ∧ w = (g.2.addr, g.2.byte) := by
  simp only [txWrites, List.mem_map, List.mem_filter, decide_eq_true_eq]
  constructor
  · rintro ⟨_, ⟨⟨g, ⟨hg, hh⟩, rfl⟩, hd⟩, rfl⟩
    exact ⟨g, hg, hh, hd, rfl⟩
  · rintro ⟨g, hg, hh, hd, rfl⟩
    exact ⟨_, ⟨⟨g, ⟨hg, hh⟩, rfl⟩, hd⟩, rfl⟩

/-- A winner's byte is in a packet to each receiver of its entry. -/
theorem posted_sendTx {s t : State} (hs : Sends s t) (hf : f ∈ all) (hw : Wins all f) (hd : f.2.dest = .tx n) {d : Descr} (hr : d ∈ descrs s n) :
    SentTo gi core ctx n (wmField s n 0x10 8) f d (sendTx gi core ctx (standing all) f.1 t) := by
  have hst := mem_standing_of_wins hf hw
  refine foldl_reaches (p := fun u => Sends s u) (q := SentTo gi core ctx n (wmField s n 0x10 8) f d) (mem_txPorts hst hd) (fun u m _ _ h => h.trans (sends_sendBytes ..)) (fun u h => ?_)
    (fun u m _ h => Posted.sends h (sends_sendBytes ..)) hs
  have hwm := wmap_of_sends h
  refine posted_sendBytes (by rwa [descrs_congr hwm]) ?_
  rw [wmField_congr hwm]
  refine exists_block (w := (f.2.addr, f.2.byte)) (mem_txWrites.2 ⟨f, hst, rfl, hd, rfl⟩) fun v hv e => ?_
  obtain ⟨g, hg, -, -, rfl⟩ := mem_txWrites.1 hv
  rw [eq_of_wins hw hf hg (by dsimp only at e; omega)]

theorem posted_doneEntries {s : State} {es : List (Nat × FifoEntry)} (hf : f ∈ all) (hw : Wins all f) (hd : f.2.dest = .tx n)
    (he : ∃ e ∈ es, e.1 = f.1) {d : Descr} (hr : d ∈ descrs s n) :
    SentTo gi core ctx n (wmField s n 0x10 8) f d (es.foldl (doneEntry gi core ctx (standing all)) s) := by
  obtain ⟨e, he, hef⟩ := he
  refine foldl_reaches (p := fun u => Sends s u) (q := SentTo gi core ctx n (wmField s n 0x10 8) f d) he (fun u m _ _ h => h.trans (sends_doneEntry ..)) (fun u h => ?_)
    (fun u m _ h => Posted.sends h (sends_doneEntry ..)) (.refl s)
  have hp := posted_sendTx (gi := gi) (core := core) (ctx := ctx) h hf hw hd hr
  unfold doneEntry
  dsimp only
  rw [hef]
  split
  · exact Posted.sends hp (sends_sendStored ..)
  · exact Posted.sends hp (sends_finishWorks ..)

end

/-! ### A store as its stages -/

/-- The bytes of a store in the L1 and the scratchpad. -/
def storeBytes (s : State) (gi core hint : Nat) (l : List HWrite) : State :=
  clearSpadPoison (storeSpad (storeWords s gi core hint l) core l) core l

theorem performStore_eq (s : State) (gi : Nat) (es : List (Nat × FifoEntry)) : performStore s gi es =
    es.foldl (doneEntry gi (s.group gi).core (s.group gi).ctx (standing (writesOf es)))
      (storeBytes s gi (s.group gi).core ((es.map (fun e => e.2.hint)).headD 0) (standing (writesOf es))) := rfl

theorem clearSpadPoison_keeps (s : State) (core : Nat) (l : List HWrite) : ∃ p, clearSpadPoison s core l = { s with pt := p } := by
  unfold clearSpadPoison
  split
  · exact ⟨s.pt, rfl⟩
  · exact ⟨_, rfl⟩

theorem storeBytes_keeps (s : State) (gi core hint : Nat) (l : List HWrite) :
    (storeBytes s gi core hint l).rg = s.rg ∧ (storeBytes s gi core hint l).wk = s.wk ∧ (storeBytes s gi core hint l).fb = s.fb ∧
      (storeBytes s gi core hint l).mm.spad = (storeSpad s core l).mm.spad ∧
      (storeBytes s gi core hint l).mm.l1 = (storeWords s gi core hint l).mm.l1 ∧
      (storeBytes s gi core hint l).mm.mem = (storeWords s gi core hint l).mm.mem := by
  have hw := offStore_storeWords s gi core hint l
  have hs := offSpad_storeSpad (storeWords s gi core hint l) core l
  have hsp : (storeSpad (storeWords s gi core hint l) core l).mm.spad = (storeSpad s core l).mm.spad := by
    rw [storeSpad_spad, storeSpad_spad, show (storeWords s gi core hint l).mm.spad = s.mm.spad from congrArg (fun x => x.2.2) hw]
  obtain ⟨p, hp⟩ := clearSpadPoison_keeps (storeSpad (storeWords s gi core hint l) core l) core l
  simp only [offSpad, outside, Prod.mk.injEq] at hs
  simp only [offStore, outside, Prod.mk.injEq] at hw
  obtain ⟨⟨hrg, hwk, -, hfb, -, -⟩, hl1, hmem⟩ := hs
  obtain ⟨⟨hrg', hwk', -, hfb', -, -⟩, -⟩ := hw
  rw [storeBytes, hp]
  exact ⟨hrg.trans hrg', hwk.trans hwk', hfb.trans hfb', hsp, hl1, hmem⟩

section
variable {s : State} {gi : Nat} {es : List (Nat × FifoEntry)} {f : HWrite}

theorem sends_performStore (s : State) (gi : Nat) (es : List (Nat × FifoEntry)) :
    Sends (storeBytes s gi (s.group gi).core ((es.map (fun e => e.2.hint)).headD 0) (standing (writesOf es))) (performStore s gi es) := by
  rw [performStore_eq]
  exact .foldl (fun _ _ _ => sends_doneEntry ..) _

theorem performStore_keeps (s : State) (gi : Nat) (es : List (Nat × FifoEntry)) : (performStore s gi es).rg.v = s.rg.v ∧
    (performStore s gi es).rg.s = s.rg.s ∧ (performStore s gi es).rg.threads = s.rg.threads ∧ (performStore s gi es).rg.hwarps = s.rg.hwarps := by
  have h := (sends_performStore s gi es).keeps
  obtain ⟨hrg, -⟩ := storeBytes_keeps s gi (s.group gi).core ((es.map (fun e => e.2.hint)).headD 0) (standing (writesOf es))
  simp only [offSend, Prod.mk.injEq] at h
  obtain ⟨⟨hv, hs, ht, hh⟩, -⟩ := h
  rw [hrg] at hv hs ht hh
  exact ⟨hv, hs, ht, hh⟩

theorem spad_performStore (s : State) (gi : Nat) (es : List (Nat × FifoEntry)) :
    (performStore s gi es).mm.spad = (storeSpad s (s.group gi).core (standing (writesOf es))).mm.spad := by
  have h : (performStore s gi es).mm.spad = _ := congrArg (fun x => x.2.1.2.2) (sends_performStore s gi es).keeps
  exact h.trans (storeBytes_keeps ..).2.2.2.1

theorem spadByte_performStore_self (hf : f ∈ writesOf es) (hw : Wins (writesOf es) f) (hd : f.2.dest = .spad) :
    spadByte (performStore s gi es) (s.group gi).core f.2.addr = f.2.byte := by
  rw [spadByte, spad_performStore]
  exact spadByte_storeSpad_self hf hw hd

theorem spadByte_performStore_ne {c a : Nat}
    (h : ∀ f ∈ writesOf es, f.2.dest = .spad → spadKey (s.group gi).core f.2.addr ≠ spadKey c a) :
    spadByte (performStore s gi es) c a = spadByte s c a := by
  rw [spadByte, spad_performStore]
  exact spadByte_storeSpad_ne fun f hf => h f (List.mem_of_mem_filter hf)

theorem coreByte_performStore (hl : LinesOk s) (hf : f ∈ writesOf es) (hw : Wins (writesOf es) f) {ctx page : Nat}
    (hd : f.2.dest = .mem ctx page) (hh : held s (f.2.addr / 128) = false) :
    coreByte (performStore s gi es) (s.group gi).core f.2.addr = f.2.byte := by
  obtain ⟨-, -, -, -, h1, hm⟩ := storeBytes_keeps s gi (s.group gi).core ((es.map (fun e => e.2.hint)).headD 0) (standing (writesOf es))
  refine ((sends_performStore s gi es).stored _ _ _ ?_).coreByte
  refine Stored.congr (stored_storeWords hl hf hw hd hh) (wordIn_congr h1 ..) ?_
  rw [memByte, hm, memByte]

theorem sentTo_performStore (hf : f ∈ writesOf es) (hw : Wins (writesOf es) f) {n : Nat} (hd : f.2.dest = .tx n) {d : Descr}
    (hr : d ∈ descrs s n) :
    SentTo gi (s.group gi).core (s.group gi).ctx n (wmField s n 0x10 8) f d (performStore s gi es) := by
  obtain ⟨-, -, hfb, -⟩ := storeBytes_keeps s gi (s.group gi).core ((es.map (fun e => e.2.hint)).headD 0) (standing (writesOf es))
  have hwm : (storeBytes s gi (s.group gi).core ((es.map (fun e => e.2.hint)).headD 0) (standing (writesOf es))).fb.wmap = s.fb.wmap := by rw [hfb]
  obtain ⟨e, he, hm⟩ := List.mem_flatMap.1 hf
  obtain ⟨x, -, rfl⟩ := List.mem_map.1 hm
  rw [performStore_eq, ← wmField_congr hwm]
  exact posted_doneEntries hf hw hd ⟨e, he, rfl⟩ (by rwa [descrs_congr hwm])

end

/-! ### The FIFOs (R158) -/

/-- Some home warps' records have changed, and nothing else. -/
def HwarpsOnly (s t : State) : Prop := ∃ m, t = { s with rg := { s.rg with hwarps := m } }

theorem hwarpsOnly_foldl {β : Type} (key : β → Nat) (g : β → HWarp → HWarp) (l : List β) (s : State) :
    HwarpsOnly s (l.foldl (fun s x => s.updHWarp (key x) (g x)) s) :=
  List.foldlRecOn (motive := fun t => HwarpsOnly s t) l _ ⟨s.rg.hwarps, rfl⟩ fun t h x _ => by
    obtain ⟨m, rfl⟩ := h
    exact ⟨_, rfl⟩

theorem hwarp_foldl_ne {β : Type} {key : β → Nat} {g : β → HWarp → HWarp} {l : List β} {k : Nat} (h : ∀ x ∈ l, key x ≠ k) (s : State) :
    (l.foldl (fun s x => s.updHWarp (key x) (g x)) s).hwarp k = s.hwarp k :=
  List.foldlRecOn (motive := fun (t : State) => t.hwarp k = s.hwarp k) l _ rfl fun t ht x hx => by
    rw [hwarp_updHWarp, if_neg (h x hx).symm, ht]

/-- The entries performed leave their FIFOs. -/
def popEntries (gi : Nat) (es : List (Nat × FifoEntry)) (s : State) : State :=
  es.foldl (fun s m => s.updHWarp (hwKey gi m.1) (fun x => { x with fifo := x.fifo.drop 1 })) s

/-- The entries that stand for the same store and are not yet performed. -/
def leftMates (s : State) (gi : Nat) (es : List (Nat × FifoEntry)) : List (Nat × List FifoEntry × FifoEntry) :=
  (es.flatMap (fun e => mates s gi e.1 e.2)).filter (fun m => !es.any (fun e => e.1 = m.1))

/-- They lose the bytes in which a higher home lane has stored. -/
def trimMates (gi : Nat) (es : List (Nat × FifoEntry)) (left : List (Nat × List FifoEntry × FifoEntry)) (s : State) : State :=
  left.foldl (fun s m => s.updHWarp (hwKey gi m.1) (fun x => { x with fifo := x.fifo.map (fun y =>
    if y.sync = m.2.2.sync then { y with writes := y.writes.filter (fun w => !beaten (writesOf es) (m.1, w)) } else y) })) s

theorem storeTogether_cons {s : State} {gi hw : Nat} {e : FifoEntry} {l : List FifoEntry} {es : List (Nat × FifoEntry)}
    (hf : (s.hwarp (hwKey gi hw)).fifo = e :: l) (h : storeTogether s gi hw = some es) :
    ∃ rest, es = (hw, e) :: rest ∧ ∀ m ∈ rest, hwKey gi m.1 ≠ hwKey gi hw := by
  have hmates : ∀ m ∈ mates s gi hw e, hwKey gi m.1 ≠ hwKey gi hw := by
    intro m hm
    unfold mates at hm
    split at hm
    · cases hm
    · obtain ⟨c, hc, hcm⟩ := List.mem_filterMap.1 hm
      obtain ⟨x, -, rfl⟩ := Option.map_eq_some_iff.1 hcm
      obtain ⟨hg, hn⟩ := Bool.and_eq_true_iff.1 (List.mem_filter.1 hc).2
      have hg := of_decide_eq_true hg
      have hn : c.1 ≠ hwKey gi hw := by simpa using hn
      simp only [hwKey] at hn ⊢
      omega
  simp only [storeTogether, hf] at h
  split at h
  · cases h
  · obtain rfl := Option.some.inj h
    refine ⟨_, rfl, fun m hm => ?_⟩
    obtain ⟨c, hc, rfl⟩ := List.mem_map.1 hm
    exact hmates c (List.mem_of_mem_filter hc)

theorem fifo_popped {s : State} {gi hw : Nat} {e : FifoEntry} {l : List FifoEntry} {es : List (Nat × FifoEntry)}
    (hf : (s.hwarp (hwKey gi hw)).fifo = e :: l) (h : storeTogether s gi hw = some es) :
    ((trimMates gi es (leftMates s gi es) (popEntries gi es s)).hwarp (hwKey gi hw)).fifo = l := by
  obtain ⟨rest, rfl, hr⟩ := storeTogether_cons hf h
  rw [trimMates, hwarp_foldl_ne fun m hm e => ?_, popEntries, List.foldl_cons, hwarp_foldl_ne hr, hwarp_updHWarp, if_pos rfl]
  · show (s.hwarp (hwKey gi hw)).fifo.drop 1 = l
    rw [hf]
    rfl
  · obtain ⟨-, hn⟩ := List.mem_filter.1 hm
    simp [hwKey_inj e] at hn

/-! ### The end of a group (R181) -/

theorem find_of_find_filter {α : Type} {m : NMap α} {p : Nat → Bool} {k : Nat} {x : α} (h : NMap.find (m.filter (fun c => p c.1)) k = some x) :
    NMap.find m k = some x := by
  induction m with
  | nil => exact h
  | cons c m ih =>
    rw [List.filter_cons] at h
    split at h
    · by_cases hc : c.1 = k
      · simp only [NMap.find, hc, if_true] at h ⊢
        exact h
      · simp only [NMap.find, hc, if_false] at h ⊢
        exact ih h
    · rename_i hp
      have hm := ih h
      have hk : p k = true := by simpa using (List.mem_filter.1 (NMap.mem_of_find h)).2
      rwa [NMap.find, if_neg]
      rintro rfl
      exact hp hk

theorem checkGroupEnd_keeps (s : State) (gi : Nat) : ((∃ th ∈ groupThreads s gi, th.2.stat ≠ .exited) → checkGroupEnd s gi = s) ∧
    ((checkGroupEnd s gi).mm.l1 = s.mm.l1 ∧ (checkGroupEnd s gi).mm.mem = s.mm.mem ∧ (checkGroupEnd s gi).mm.spad = s.mm.spad) ∧
    (checkGroupEnd s gi).fb = s.fb ∧ ∀ k x, (checkGroupEnd s gi).rg.hwarps.find k = some x → s.rg.hwarps.find k = some x := by
  unfold checkGroupEnd
  split
  · exact ⟨fun _ => rfl, ⟨rfl, rfl, rfl⟩, rfl, fun _ _ h => h⟩
  · split
    · rename_i h
      refine ⟨fun ⟨th, hth, hn⟩ => ?_, ⟨rfl, rfl, rfl⟩, rfl, fun k x hx => find_of_find_filter (p := fun k => k / 32 != gi) hx⟩
      have hall := List.all_eq_true.1 (Bool.and_eq_true_iff.1 h).1 th hth
      exact absurd (of_decide_eq_true hall) hn
    · exact ⟨fun _ => rfl, ⟨rfl, rfl, rfl⟩, rfl, fun _ _ h => h⟩

/-! ### The oldest entry is performed -/

theorem exec_storePerform {s : State} {gi hw : Nat} {es : List (Nat × FifoEntry)} (h : storeTogether s gi hw = some es)
    (hw' : storeWaits s gi (writesOf es) = false) : exec (.storePerform gi hw) s =
      .next (checkGroupEnd (performStore (trimMates gi es (leftMates s gi es) (popEntries gi es s)) gi es) gi) := by
  show Host.Outcome.next _ = _
  simp only [h, hw', Bool.false_eq_true, if_false]
  rfl

theorem storePerform_done {s : State} {gi hw : Nat} {e : FifoEntry} {l : List FifoEntry} {es : List (Nat × FifoEntry)}
    (hf : (s.hwarp (hwKey gi hw)).fifo = e :: l) (hes : storeTogether s gi hw = some es) (hwait : storeWaits s gi (writesOf es) = false)
    (hr : L1Rising s) :
    let core := (s.group gi).core
    ∃ t, exec (.storePerform gi hw) s = .next t ∧ ((∃ th ∈ groupThreads s gi, th.2.stat ≠ .exited) → t.rg.v = s.rg.v ∧ t.rg.s = s.rg.s) ∧
      (∀ x, t.rg.hwarps.find (hwKey gi hw) = some x → x.fifo = l) ∧
      (∀ f ∈ writesOf es, (∀ g ∈ writesOf es, g.2.addr % 2 ^ 64 = f.2.addr % 2 ^ 64 → g = f ∨ (samePlace g f = true ∧ writeRank g < writeRank f)) →
        match f.2.dest with
        | .spad => spadByte t core f.2.addr = f.2.byte
        | .mem _ _ => held s (f.2.addr / 128) = false → coreByte t core f.2.addr = f.2.byte
        | .tx n => ∀ d ∈ descrs s n, ∃ p ∈ t.fb.packets, p.2.kind = .store ∧ p.2.entry = n ∧ p.2.port = d.port ∧ p.2.jetty = d.jetty ∧
            p.2.chip = d.chip ∧ p.2.rxw = d.rxw ∧ p.2.gi = gi ∧ p.2.hwarp = f.1 ∧
            ((f.2.addr + wmField s n 0x10 8) % 2 ^ 64, f.2.byte) ∈ p.2.bytes) ∧
      ∀ c a, (∀ f ∈ writesOf es, f.2.dest = .spad → spadKey core f.2.addr ≠ spadKey c a) → spadByte t c a = spadByte s c a := by
  have hfifo := fifo_popped hf hes
  obtain ⟨m, hm⟩ : HwarpsOnly s (trimMates gi es (leftMates s gi es) (popEntries gi es s)) := by
    obtain ⟨m, h⟩ := hwarpsOnly_foldl (fun m : Nat × FifoEntry => hwKey gi m.1) (fun _ x => { x with fifo := x.fifo.drop 1 }) es s
    obtain ⟨m', h'⟩ := hwarpsOnly_foldl (fun m : Nat × List FifoEntry × FifoEntry => hwKey gi m.1)
      (fun m x => { x with fifo := x.fifo.map (fun y => if y.sync = m.2.2.sync then
        { y with writes := y.writes.filter (fun w => !beaten (writesOf es) (m.1, w)) } else y) }) (leftMates s gi es) (popEntries gi es s)
    refine ⟨m', ?_⟩
    rw [trimMates, h', popEntries, h]
  have he := exec_storePerform hes hwait
  rw [hm] at he hfifo
  generalize hu : ({ s with rg := { s.rg with hwarps := m } } : State) = u at he hfifo
  have hgroup : u.group gi = s.group gi := by rw [← hu]; rfl
  have hl : LinesOk u := (LinesOk.of_l1Rising hr).of_l1 (by rw [← hu])
  have hdescrs : ∀ n, descrs u n = descrs s n := fun n => descrs_congr (by rw [← hu]) n
  have hfield : ∀ n i k, wmField u n i k = wmField s n i k := fun n i k => wmField_congr (by rw [← hu]) n i k
  have hheld : ∀ line, held u line = held s line := fun line => by rw [← hu]; rfl
  have hspad : ∀ c a, spadByte u c a = spadByte s c a := fun c a => by rw [← hu]; rfl
  have hregs : u.rg.v = s.rg.v ∧ u.rg.s = s.rg.s ∧ u.rg.threads = s.rg.threads := by rw [← hu]; exact ⟨rfl, rfl, rfl⟩
  clear hu hm
  obtain ⟨hv, hs, hth, hhw⟩ := performStore_keeps u gi es
  obtain ⟨hgo, ⟨hl1, hmem, hsp⟩, hfb, hfind⟩ := checkGroupEnd_keeps (performStore u gi es) gi
  intro core
  have hcore : core = (u.group gi).core := by rw [hgroup]
  clear_value core
  subst hcore
  refine ⟨_, he, fun hex => ?_, fun x hx => ?_, fun f hf hw => ?_, fun c a h => ?_⟩
  · rw [hgo (by rwa [groupThreads, hth, hregs.2.2])]
    exact ⟨hv.trans hregs.1, hs.trans hregs.2.1⟩
  · have hx' := hfind _ x hx
    rw [hhw] at hx'
    rw [← hfifo, State.hwarp, NMap.get_eq_find, hx']
    rfl
  · split
    · rename_i hd
      rw [spadByte, hsp]
      exact spadByte_performStore_self hf hw hd
    · rename_i hd
      intro hh
      have hb := coreByte_performStore (gi := gi) hl hf hw hd ((hheld _).trans hh)
      simp only [coreByte, l1Word, l1Line, memByte, hl1, hmem] at hb ⊢
      exact hb
    · rename_i n hd
      intro d hdm
      obtain ⟨p, hp, -, bytes, hb, h1, h2, h3, h4, h5, h6, h7, h8, rfl⟩ := sentTo_performStore hf hw hd (by rwa [hdescrs] : d ∈ descrs u n)
      rw [hfield] at hb
      exact ⟨p, by rwa [hfb], h1, h2, h3, h4, h5, h6, h7, h8, hb⟩
  · rw [spadByte, hsp]
    exact (spadByte_performStore_ne h).trans (hspad c a)

/-- Settles O47, event by event: a result's lanes are a list of writes to the registers; a walk touches neither warps nor walks, and its
entry stands first in the core's cache; a store's winner stands in the L1 (or in memory, once its line has left), the scratchpad or a
packet; the directory's word is memory's, and a line that a claim takes is written back and then dropped whole. -/
theorem memoryEventsComplete : Obligations.MemoryEventsComplete :=
  ⟨fun _ _ _ _ hr hk => resultReturn_done hr hk,
    fun _ _ _ _ hk hn hl => ⟨walkComplete_busy hk hn hl, walkComplete_done hk hn hl⟩,
    fun _ _ _ _ _ _ hf hes hw hr => storePerform_done hf hes hw hr,
    fun _ _ _ hd h32 => ⟨directoryAck_words hd h32, directoryAck_held hd, fun _ hc hcmd => directoryAck_claim hd hc hcmd⟩,
    fun _ _ _ hd => drop_done hd,
    fun _ _ _ _ hw hp hg hl => lineRetry_done hw hp hg hl⟩

end Sys2Proof.Machine
end

section
/-!
SUPPORT. A span pre-empted while its core carries an issue warp of no active lane whose word has counted work: pre-emption removes the warp
and finishes that work, so that the home warp's scoreboard counter falls (R66, R398), where the statement keeps every register.
-/
namespace Sys2Proof.Machine

/-- Group 1 of the placed span 1, with no thread; its warp 1 has no lane, but its word has counted work 7, of which one part is left and
which counter 0 of home warp 0 counts. -/
def laneless : State :=
  { rg := { sb := [(cKey 1 0 0, 1)] }
    wk := { warps := [(1, { gi := 1, works := [(0, 7)] })], groups := [(1, {})], spans := [(1, { groups := [1] })]
            works := [(7, { gi := 1, sbc := some 0, left := 1 })] } }

/-- It after its span's slice has ended: the group off its core, the warp and its work gone, the counter at 0. -/
def lanelessPreempted : State :=
  { wk := { groups := [(1, { resident := false })], spans := [(1, { groups := [1], placed := false })] } }

theorem exec_preemption_laneless : exec (.preemption 1 .slice) laneless = .next lanelessPreempted := rfl

/-- The counter that the work names falls, though no thread of the group has an open region. -/
theorem laneless_counter_falls : sbOf laneless 1 0 0 = 1 ∧ sbOf lanelessPreempted 1 0 0 = 0 := by decide

/-- Refutes O54, in its part on pre-emption: the span of `laneless` may be pre-empted and no thread of it has an open region, but its
pre-emption lowers a scoreboard counter, which `t.rg = s.rg` forbids. -/
theorem not_gridsAreAcceptedPlacedRunAndCompleted : ¬ Obligations.GridsAreAcceptedPlacedRunAndCompleted := by
  rintro ⟨-, -, -, -, preemption, -⟩
  obtain ⟨-, preempts⟩ := preemption laneless 1 1 { groups := [1] } .slice rfl rfl rfl
  obtain ⟨t, ht, -, -, hrg, -⟩ := preempts {} rfl rfl (by decide) (by decide)
  obtain rfl : lanelessPreempted = t := Host.Outcome.next.inj (exec_preemption_laneless.symm.trans ht)
  obtain ⟨before, after⟩ := laneless_counter_falls
  have kept : sbOf lanelessPreempted 1 0 0 = sbOf laneless 1 0 0 := by rw [sbOf, sbOf, hrg]
  omega

end Sys2Proof.Machine
end

section
/-!
SUPPORT. FENCE (R120, R157, R165, R344): what an access word may have changed before it ends, the release and the acquire one after the
other, and the end of the word.
-/
namespace Sys2Proof.Machine

open Say

/-! ### An access word before its end -/

/-- An issue warp, the phase of its word apart. -/
def unphased (w : Warp) : Warp := { w with phase := 0 }

/-- A state before the end of a word that awaits and settles accesses: all that `Quiet` names is kept, the executing warp but for its
phase, and threads but for their restart records. -/
structure Fencing (s m : State) : Prop extends Quiet s m where
  cur : m.md.cur = s.md.cur
  counters : m.rg.sb = s.rg.sb
  mem : m.mm.mem = s.mm.mem
  llc : m.mm.llc = s.mm.llc
  groups : m.wk.groups = s.wk.groups
  others : ∀ id, id ≠ s.md.cur → (m.wk.warps.find id).map plainWarp = (s.wk.warps.find id).map plainWarp
  self : (m.wk.warps.find s.md.cur).map unphased = (s.wk.warps.find s.md.cur).map unphased
  threads : ∀ k, (m.rg.threads.find k).map bare = (s.rg.threads.find k).map bare
  seats : ∀ k, (m.rg.threads.find k).map (fun x => (x.pc, x.stat)) = (s.rg.threads.find k).map (fun x => (x.pc, x.stat))

theorem quiet_trans {s m t : State} (h : Quiet s m) (g : Quiet m t) : Quiet s t :=
  ⟨g.vectors.trans h.vectors, g.scalars.trans h.scalars, g.predicates.trans h.predicates, g.masks.trans h.masks, g.scratch.trans h.scratch,
    g.engines.trans h.engines, g.fabric.trans h.fabric, g.contexts.trans h.contexts, g.part.trans h.part, g.spans.trans h.spans,
    g.stops.trans h.stops, g.agenda.trans h.agenda⟩

theorem quiet_finish (m : State) (b w : Bool) : Quiet m (finish m b w) := by
  have st := still_finish m b w
  exact ⟨still_v st, still_s st, still_p st, still_k st, by rw [still_mm st], still_en st, still_fb st, still_cx st,
    congrArg (fun x => x.2.2.2.2.2.2.2) st, congrArg (fun x => x.2.1.1) st, still_stops st, finish_agenda m b w⟩

section
variable {s m t : State}

theorem Fencing.refl (s : State) : Fencing s s := by
  constructor
  case toQuiet => constructor <;> rfl
  all_goals intros; rfl

theorem Fencing.trans (h : Fencing s m) (g : Fencing m t) : Fencing s t where
  toQuiet := quiet_trans h.toQuiet g.toQuiet
  cur := g.cur.trans h.cur
  counters := g.counters.trans h.counters
  mem := g.mem.trans h.mem
  llc := g.llc.trans h.llc
  groups := g.groups.trans h.groups
  others id hi := (g.others id (by rwa [h.cur])).trans (h.others id hi)
  self := by
    have := g.self
    rw [h.cur] at this
    exact this.trans h.self
  threads k := (g.threads k).trans (h.threads k)
  seats k := (g.seats k).trans (h.seats k)

theorem Fencing.foldl {β : Type} {f : State → β → State} {l : List β} (hf : ∀ s, ∀ x ∈ l, Fencing s (f s x)) (s : State) :
    Fencing s (l.foldl f s) :=
  List.foldlRecOn (motive := fun t => Fencing s t) l f (.refl s) fun t h x hx => h.trans (hf t x hx)

/-- The executing warp is the same but for its phase. -/
theorem Fencing.warp (h : Fencing s m) : unphased m.curWarp = unphased s.curWarp := by
  have hs := h.self
  unfold State.curWarp State.warp
  rw [h.cur]
  cases ha : m.wk.warps.find s.md.cur <;> cases hb : s.wk.warps.find s.md.cur <;> simp_all

theorem Fencing.stand (h : Fencing s m) : m.curWarp.gi = s.curWarp.gi ∧ m.curWarp.core = s.curWarp.core ∧
    m.curWarp.lanes = s.curWarp.lanes ∧ m.curWarp.pc = s.curWarp.pc := by
  have hg := congrArg Warp.gi h.warp
  have hc := congrArg Warp.core h.warp
  have hl := congrArg Warp.lanes h.warp
  have hp := congrArg Warp.pc h.warp
  exact ⟨hg, hc, hl, hp⟩

/-- THE END OF AN ACCESS WORD: the executing warp goes on, and nothing else has moved. -/
theorem Fencing.onward (h : Fencing s m) (b w : Bool) : Onward bare s (finish m b w) := by
  obtain ⟨hgi, -, hlanes, hpc⟩ := h.stand
  refine ⟨fun g => ?_, fun id hi => ?_, fun k => ?_, fun k hk => ?_, fun y hy => ?_⟩
  · rw [finish_groups, h.groups]
  · rw [finish_others _ _ _ _ (by rwa [h.cur])]
    exact h.others id hi
  · rw [finish_threads bare fun _ _ => rfl]
    exact h.threads k
  · rw [finish_away m b w k fun q hq => ?_]
    · exact h.seats k
    · rw [← activeLanes_congr hlanes] at hk
      exact hgi ▸ hk q hq
  · rw [← h.cur] at hy
    obtain ⟨x, hx, p, e, a, rfl⟩ := finish_self m b w y hy
    rw [curWarp_eq hx] at hgi hlanes hpc
    exact ⟨hgi, hlanes, congrArg (· + 8) hpc⟩

/-! ### What a fence does on its way -/

theorem fencing_phase {wid : Nat} (hw : wid = s.md.cur) (n : Nat) : Fencing s (s.updWarp wid (fun w => { w with phase := n })) := by
  subst hw
  constructor
  case toQuiet => constructor <;> rfl
  case others => exact fun id hi => congrArg _ (NMap.find_upd_ne _ _ _ _ hi)
  case self => exact find_upd_map _ _ _ _ unphased fun _ => rfl
  all_goals intros; rfl

theorem fencing_fixResults (gi : Nat) (threads : List Nat) : Fencing s (fixResults s gi threads) := by
  constructor
  case toQuiet => constructor <;> rfl
  all_goals intros; rfl

/-- A change of home warps alone. -/
theorem fencing_updHWarp (k : Nat) (f : HWarp → HWarp) : Fencing s (s.updHWarp k f) := by
  constructor
  case toQuiet => constructor <;> rfl
  all_goals intros; rfl

/-- A change of a thread's restart record alone. -/
theorem fencing_updThread (k : Nat) {f : Thread → Thread} (hf : ∀ t, bare (f t) = bare t ∧ ((f t).pc, (f t).stat) = (t.pc, t.stat)) :
    Fencing s (s.updThread k f) := by
  constructor
  case toQuiet => constructor <;> rfl
  case threads => exact fun j => find_upd_map _ _ _ _ bare fun t => (hf t).1
  case seats => exact fun j => find_upd_map _ _ _ _ (fun x => (x.pc, x.stat)) fun t => (hf t).2
  all_goals intros; rfl

theorem fencing_commitHW (gi h wid : Nat) (after : List Nat) : Fencing s (commitHW s gi h wid after) :=
  (fencing_updHWarp _ _).trans (.foldl (fun t l _ => fencing_updThread _ fun th => by split <;> exact ⟨rfl, rfl⟩) _)

theorem fencing_commitHomes (gi wid : Nat) (hs : List Nat) : Fencing s (commitHomes s gi wid hs) :=
  .foldl (fun _ _ _ => fencing_commitHW ..) s

theorem fencing_commitLanes (wid : Nat) (lanes : List (Nat × LaneEnt)) : Fencing s (commitLanes s wid lanes) :=
  .foldl (fun _ _ _ => fencing_commitHW ..) s

end

/-! ### Store FIFOs at a commit point (R158, R369) -/

/-- A commit point commits the entries of its home warp's FIFO, and leaves the other FIFOs. -/
theorem commitHW_fifo (s : State) (gi h wid : Nat) (after : List Nat) (k : Nat) : ((commitHW s gi h wid after).hwarp k).fifo =
    if k = hwKey gi h then (s.hwarp k).fifo.map (fun e => { e with uncommitted := [] }) else (s.hwarp k).fifo := by
  have hh : (commitHW s gi h wid after).rg.hwarps =
      (s.updHWarp (hwKey gi h) (fun x => { x with fifo := x.fifo.map (fun e => { e with uncommitted := [] }) })).rg.hwarps := by
    obtain ⟨l, -, he⟩ := commitHW_eq s gi h wid after
    rw [he]
    exact foldl_keep (fun t : State => t.rg.hwarps) _ (fun t j => by rw [State.updThread_rg]) l _
  rw [State.hwarp, hh, ← State.hwarp, hwarp_updHWarp]
  split
  next hk => rw [hk]
  next => rfl

/-- No FIFO becomes empty, and none comes to hold entries. -/
theorem commitHomes_fifo_nil (s : State) (gi wid : Nat) (hs : List Nat) (k : Nat) :
    ((commitHomes s gi wid hs).hwarp k).fifo = [] ↔ (s.hwarp k).fifo = [] :=
  List.foldlRecOn (motive := fun t : State => (t.hwarp k).fifo = [] ↔ (s.hwarp k).fifo = []) hs _ Iff.rfl fun t ht h _ => by
    rw [← ht, commitHW_fifo]
    split
    · exact List.map_eq_nil_iff
    · rfl

/-- The entries of the home warps that commit are committed. -/
theorem commitHomes_committed (s : State) (gi wid : Nat) {hs : List Nat} {hw : Nat} (hm : hw ∈ hs) :
    ∀ e ∈ ((commitHomes s gi wid hs).hwarp (hwKey gi hw)).fifo, e.uncommitted = [] := by
  refine foldl_reaches (p := fun _ => True) (q := fun t : State => ∀ e ∈ (t.hwarp (hwKey gi hw)).fifo, e.uncommitted = []) hm
    (fun _ _ _ _ _ => trivial) (fun t _ e he => ?_) (fun t h _ ht e he => ?_) trivial
  · rw [commitHW_fifo, if_pos rfl] at he
    obtain ⟨x, -, rfl⟩ := List.mem_map.1 he
    rfl
  · rw [commitHW_fifo] at he
    split at he
    · obtain ⟨x, -, rfl⟩ := List.mem_map.1 he
      rfl
    · exact ht e he

theorem fullFifos_commitHomes (s : State) (gi wid : Nat) (l hs : List Nat) :
    fullFifos (commitHomes s gi wid l) gi hs = hs.filter (fun h => (s.hwarp (hwKey gi h)).fifo != []) := by
  refine List.filter_congr fun h _ => ?_
  rw [Bool.eq_iff_iff, bne_iff_ne, bne_iff_ne, ne_eq, ne_eq, commitHomes_fifo_nil]

/-! ### Earlier accesses (R122, R311, R339) -/

section
variable {s m : State} {gi : Nat} {threads : List Nat}

theorem settled_congr (h : Settled s gi threads) (hr : m.wk.results = s.wk.results) (hs : m.mm.svc = s.mm.svc) : Settled m gi threads := by
  obtain ⟨hreq, hload⟩ := h
  refine ⟨?_, ?_⟩
  · rwa [ownRequests, hs]
  · rwa [heldLoads, hr]

/-- Threads whose accesses are all done have no load to wait for. -/
theorem ownRequests_loads (h : Settled s gi threads) : ownRequests s gi threads true = [] := by
  obtain ⟨hreq, -⟩ := h
  simp only [ownRequests, List.map_eq_nil_iff, List.filter_eq_nil_iff, Bool.and_eq_true, not_and] at hreq ⊢
  exact fun r hr hc => hreq r hr ⟨hc.1, rfl⟩

/-- Settling the values of the loads that are formed leaves the others as they wait. -/
theorem settled_fixResults (h : Settled s gi threads) (g : Nat) (l : List Nat) : Settled (fixResults s g l) gi threads := by
  obtain ⟨hreq, hload⟩ := h
  refine ⟨hreq, Eq.trans ?_ hload⟩
  unfold heldLoads fixResults State.updWK
  dsimp only
  rw [List.flatMap_map]
  refine List.flatMap_congr fun r _ => ?_
  split
  · rename_i hk
    simp only [Bool.and_eq_true] at hk
    simp [hk.2]
  · rfl

/-- Where nothing is to be waited for, a word goes on with its loads settled (R339, R344). -/
theorem withLoads_settled (h : Settled s gi threads) (k : State → State) : withLoads s gi threads k = k (fixResults s gi threads) := by
  have hr := ownRequests_loads h
  obtain ⟨-, hl⟩ := h
  simp [withLoads, hl, hr]

theorem withAccesses_settled (h : Settled s gi threads) (k : State → State) : withAccesses s gi threads k = k (fixResults s gi threads) := by
  have hr := h.1
  rw [withAccesses, hr, if_neg (by simp), withLoads_settled h]

theorem fixResults_fixed {r : Nat × Result} (hr : r ∈ (fixResults s gi threads).wk.results) (hg : r.2.gi = gi) (hk : r.2.known = true) :
    ∀ l ∈ r.2.lanes, thKey gi r.2.hwarp l.lane ∈ threads → l.src = .fixed := by
  obtain ⟨x, -, rfl⟩ := List.mem_map.1 hr
  by_cases hx : (x.2.gi = gi && x.2.known) = true
  · simp only [hx, if_true]
    intro l hl ht
    obtain ⟨y, -, rfl⟩ := List.mem_map.1 hl
    by_cases hy : threads.contains (thKey gi x.2.hwarp y.lane) = true
    · rw [if_pos hy]
    · rw [if_neg hy] at ht
      exact absurd (List.contains_iff_mem.2 ht) hy
  · rw [if_neg hx] at hg hk
    simp [hg, hk] at hx

end

/-! ### The acquire (R120, R341) -/

/-- A line of an L1 after the acquire of a core: of that core's, the words owned or dirty. -/
def acquiredLine (core : Nat) (c : Nat × L1Line) : Option (Nat × L1Line) :=
  if c.1 / 2 ^ 41 = core then
    let ws := c.2.words.filter (fun w => w.2.owned || w.2.dirty)
    if ws = [] then none else some (c.1, { c.2 with words := ws })
  else some c

theorem acquireL1_l1 (s : State) (core : Nat) : (acquireL1 s core).mm.l1 = (receiveDrops s core none).mm.l1.filterMap (acquiredLine core) := rfl

/-- A line stays with its words owned or dirty, whole where it is another core's, or goes where it has none. -/
theorem acquiredLine_cases (core a : Nat) (v : L1Line) :
    (∃ y, acquiredLine core (a, v) = some (a, y) ∧ (a / 2 ^ 41 ≠ core → y = v) ∧
      (a / 2 ^ 41 = core → ∀ w ∈ y.words, w.2.owned = true ∨ w.2.dirty = true) ∧
      ∀ w ∈ v.words, w.2.owned = true ∨ w.2.dirty = true → w ∈ y.words) ∨
    (acquiredLine core (a, v) = none ∧ a / 2 ^ 41 = core ∧ ∀ w ∈ v.words, ¬(w.2.owned = true ∨ w.2.dirty = true)) := by
  unfold acquiredLine
  by_cases hc : a / 2 ^ 41 = core
  · by_cases h0 : v.words.filter (fun w => w.2.owned || w.2.dirty) = []
    · refine .inr ⟨by simp only [hc, h0, if_true], hc, fun w hw hd => ?_⟩
      exact (List.filter_eq_nil_iff.1 h0) w hw (by simpa using hd)
    · refine .inl ⟨{ v with words := v.words.filter (fun w => w.2.owned || w.2.dirty) }, by simp only [hc, h0, if_true, if_false],
        fun hn => absurd hc hn, fun _ w hw => by simpa using (List.mem_filter.1 hw).2, fun w hw hd => List.mem_filter.2 ⟨hw, by simpa using hd⟩⟩
  · exact .inl ⟨v, if_neg hc, fun _ => rfl, fun h => absurd h hc, fun w hw _ => hw⟩

/-- Looking a line up among those that the acquire leaves. -/
theorem get_acquiredLines (core k : Nat) (m : NMap L1Line) :
    (k / 2 ^ 41 ≠ core → NMap.get {} (m.filterMap (acquiredLine core)) k = NMap.get {} m k) ∧
    (k / 2 ^ 41 = core → ∀ w ∈ (NMap.get {} (m.filterMap (acquiredLine core)) k).words, w.2.owned = true ∨ w.2.dirty = true) ∧
    ∀ w ∈ (NMap.get {} m k).words, w.2.owned = true ∨ w.2.dirty = true → w ∈ (NMap.get {} (m.filterMap (acquiredLine core)) k).words := by
  induction m with
  | nil => exact ⟨fun _ => rfl, fun _ => nofun, fun w hw _ => hw⟩
  | cons c m ih =>
    obtain ⟨a, v⟩ := c
    obtain ⟨ihne, ihown, ihkept⟩ := ih
    rcases acquiredLine_cases core a v with ⟨y, hy, hne, hown, hkept⟩ | ⟨hn, hc, hnone⟩
    · rw [List.filterMap_cons_some hy]
      by_cases ha : a = k
      · subst ha
        simpa only [NMap.get, if_true] using ⟨hne, hown, hkept⟩
      · simpa only [NMap.get, ha, if_false] using ⟨ihne, ihown, ihkept⟩
    · rw [List.filterMap_cons_none hn]
      by_cases ha : a = k
      · subst ha
        refine ⟨fun h => absurd hc h, ihown, fun w hw hd => ?_⟩
        simp only [NMap.get, if_true] at hw
        exact absurd hd (hnone w hw)
      · simpa only [NMap.get, ha, if_false] using ⟨ihne, ihown, ihkept⟩

/-- A drop leaves the lines of other keys, and of its own the words that it does not name. -/
theorem l1_applyDrop (s : State) (d : DropItem) :
    (∀ k, k ≠ l1Key d.core d.line → NMap.get {} (applyDrop s d).mm.l1 k = NMap.get {} s.mm.l1 k) ∧
    ∀ w ∈ (l1Line s d.core d.line).words, w.1 ∉ d.words → w ∈ (l1Line (applyDrop s d) d.core d.line).words := by
  refine ⟨fun k hk => ?_, fun w hw hn => ?_⟩
  · rw [applyDrop, setL1_mm, NMap.get_set_ne _ _ _ _ _ hk]
  · rw [applyDrop, l1Line_setL1_self, words_normLine]
    have hc : d.words.contains w.1 = false := by simpa using hn
    refine List.mem_map.2 ⟨w, List.mem_filter.2 ⟨hw, by simp [hn]⟩, ?_⟩
    rw [hc, if_neg (by simp)]

/-- The drops on their way to a core, as it receives them. -/
theorem receiveDrops_l1 (s : State) (core : Nat) :
    (∀ k, (∀ d ∈ s.mm.drops, d.2.core = core → k ≠ l1Key core d.2.line) →
      NMap.get {} (receiveDrops s core none).mm.l1 k = NMap.get {} s.mm.l1 k) ∧
    ∀ line, ∀ w ∈ (l1Line s core line).words, (∀ d ∈ s.mm.drops, d.2.core = core → d.2.line = line → w.1 ∉ d.2.words) →
      w ∈ (l1Line (receiveDrops s core none) core line).words := by
  have hds : ∀ d ∈ s.mm.drops.filter (fun d => d.2.core = core && (none : Option Nat).all (fun l => d.2.line = l)),
      d ∈ s.mm.drops ∧ d.2.core = core := fun d hd => ⟨(List.mem_filter.1 hd).1, by simpa using (List.mem_filter.1 hd).2⟩
  refine ⟨fun k hk => ?_, fun line w hw hn => ?_⟩
  · refine List.foldlRecOn (motive := fun t : State => NMap.get {} t.mm.l1 k = NMap.get {} s.mm.l1 k) _ _ rfl fun t ht d hd => ?_
    obtain ⟨hm, hc⟩ := hds d hd
    rw [(l1_applyDrop _ d.2).1 k (hc ▸ hk d hm hc)]
    exact ht
  · refine List.foldlRecOn (motive := fun t : State => w ∈ (l1Line t core line).words) _ _ hw fun t ht d hd => ?_
    obtain ⟨hm, hc⟩ := hds d hd
    by_cases hl : d.2.line = line
    · have := (l1_applyDrop (t.updMM (fun m => { m with drops := m.drops.erase d.1 })) d.2).2 w
      rw [hc, hl] at this
      exact this ht (hn d hm hc hl)
    · rw [l1Line, (l1_applyDrop _ d.2).1 _ fun e => hl (l1Key_line_inj (hc ▸ e)).symm]
      exact ht

/-- THE ACQUIRE OF A CORE leaves what `Acquired` says. -/
theorem acquired_acquireL1 (s : State) (core : Nat) {sc : Scope} (hsc : sc ≠ .grp) : Acquired s (acquireL1 s core) core sc := by
  obtain ⟨hne, hkept⟩ := receiveDrops_l1 s core
  refine ⟨fun h => absurd h hsc, fun _ => ⟨fun line hl => ?_, fun line w hw hd hn => ?_, fun k hk hd => ?_⟩⟩
  · rw [l1Line, acquireL1_l1]
    exact (get_acquiredLines core _ _).2.1 (by simp only [l1Key]; omega)
  · rw [l1Line, acquireL1_l1]
    exact (get_acquiredLines core _ _).2.2 w (hkept line w hw hn) hd
  · rw [acquireL1_l1, (get_acquiredLines core k _).1 hk, hne k hd]

/-- A change of L1s and drops alone. -/
theorem fencing_updMM (s : State) (f : MemSt → MemSt) (hm : (f s.mm).mem = s.mm.mem) (hl : (f s.mm).llc = s.mm.llc)
    (hs : (f s.mm).spad = s.mm.spad) : Fencing s (s.updMM f) := by
  constructor
  case toQuiet =>
    constructor
    case scratch => exact hs
    all_goals rfl
  case mem => exact hm
  case llc => exact hl
  all_goals intros; rfl

theorem fencing_applyDrop (s : State) (d : DropItem) : Fencing s (applyDrop s d) ∧ (applyDrop s d).wk = s.wk :=
  ⟨by unfold applyDrop setL1; exact fencing_updMM s _ rfl rfl rfl, rfl⟩

theorem fencing_acquireL1 (s : State) (core : Nat) : Fencing s (acquireL1 s core) ∧ (acquireL1 s core).wk = s.wk := by
  have h : Fencing s (receiveDrops s core none) ∧ (receiveDrops s core none).wk = s.wk :=
    List.foldlRecOn (motive := fun t : State => Fencing s t ∧ t.wk = s.wk) _ _ ⟨.refl s, rfl⟩ fun t ht d _ =>
      ⟨(ht.1.trans (fencing_updMM t _ rfl rfl rfl)).trans (fencing_applyDrop ..).1, ht.2⟩
  exact ⟨h.1.trans (fencing_updMM _ _ rfl rfl rfl), h.2⟩

/-! ### The release (R157, R369) -/

/-- A core none of whose words is dirty, in its L1 or on its way, has nothing to send. -/
theorem sendAll_clean {s : State} {core : Nat} (h1 : ∀ e ∈ s.mm.l1, e.1 / 2 ^ 41 = core → ∀ w ∈ e.2.words, w.2.dirty = false)
    (hd : ∀ d ∈ s.mm.dirItems, ¬(d.2.evicted = true ∧ d.2.core = core)) : sendAll s core = ([], s) := by
  have hline : ∀ line < 2 ^ 41, sendLine s core line none none = ([], s) := fun line hl => by
    have h0 : dirtyWords (l1Line s core line) none = [] := by
      rcases NMap.get_mem {} s.mm.l1 (l1Key core line) with hn | hm
      · rw [l1Line, hn]
        rfl
      · rw [dirtyWords, List.map_eq_nil_iff, List.filter_eq_nil_iff]
        intro w hw
        simp [h1 _ hm (by simp only [l1Key]; omega) w hw]
    simp only [sendLine, h0, if_true]
  have hb : (s.mm.dirItems.filter (fun d => d.2.evicted && d.2.core = core)).map (·.1) = [] := by
    rw [List.map_eq_nil_iff, List.filter_eq_nil_iff]
    exact fun d hm => by simpa using hd d hm
  unfold sendAll
  dsimp only
  rw [hb]
  refine List.foldlRecOn (motive := fun acc => acc = ([], s)) _ _ rfl fun acc ha line hl => ?_
  obtain ⟨e, -, rfl⟩ := List.mem_map.1 hl
  rw [ha, hline _ (Nat.mod_lt _ (by decide))]
  rfl

section
variable {s : State} {x : Warp} {lanes : List (Nat × LaneEnt)}

/-- Where the home warps that a fence commits have empty FIFOs, there is none to drain. -/
theorem fullFifos_nil {gi wid : Nat} {hs : List Nat} (h : ∀ hw ∈ hs, (s.hwarp (hwKey gi hw)).fifo = []) :
    fullFifos (commitHomes s gi wid hs) gi hs = [] := by
  rw [fullFifos_commitHomes, List.filter_eq_nil_iff]
  exact fun hw hm => by simp [h hw hm]

/-- What a release that waits for nothing leaves to the rest of its word. -/
def ReleasedTo (s : State) (threads : List Nat) (m : State) : Prop :=
  Fencing s m ∧ m.mm = s.mm ∧ Settled m s.curWarp.gi threads

theorem commitHomes_keeps (gi wid : Nat) (hs : List Nat) :
    (commitHomes s gi wid hs).wk = s.wk ∧ (commitHomes s gi wid hs).mm = s.mm :=
  List.foldlRecOn (motive := fun t : State => t.wk = s.wk ∧ t.mm = s.mm) hs _ ⟨rfl, rfl⟩ fun t ht h _ =>
    ⟨(commitHW_wk ..).trans ht.1, (calm_of_calmPart (calmPart_commitHW t gi h wid [])).1.memory.trans ht.2⟩

/-- Committed and with their loads settled, threads that were settled are. -/
theorem releasedTo_committed {threads : List Nat} (wid g : Nat) (hs l : List Nat) (h : Settled s s.curWarp.gi threads) :
    ReleasedTo s threads (fixResults (commitHomes s s.curWarp.gi wid hs) g l) := by
  obtain ⟨hwk, hmm⟩ := commitHomes_keeps (s := s) s.curWarp.gi wid hs
  exact ⟨(fencing_commitHomes ..).trans (fencing_fixResults ..), hmm, settled_fixResults (settled_congr h (by rw [hwk]) (by rw [hmm])) g l⟩

/-- A RELEASE AT GROUP SCOPE with nothing left to wait for. -/
theorem withGroupRelease_done (hset : Settled s s.curWarp.gi (lanes.map (fun q => thKey s.curWarp.gi q.2.hwarp q.2.hlane)))
    (h : s.curWarp.phase ≠ 0 ∨ ∀ hw ∈ homeWarps lanes, (s.hwarp (hwKey s.curWarp.gi hw)).fifo = []) (k : State → State) :
    ∃ m, withGroupRelease s lanes k = k m ∧ ReleasedTo s (lanes.map (fun q => thKey s.curWarp.gi q.2.hwarp q.2.hlane)) m := by
  by_cases hp : (s.curWarp.phase = 0 && lanes != []) = true
  · have hphase : s.curWarp.phase = 0 := of_decide_eq_true (Bool.and_eq_true_iff.1 hp).1
    have hfifo := h.resolve_left (not_not_intro hphase)
    obtain ⟨hwk, hmm⟩ := commitHomes_keeps (s := s) s.curWarp.gi s.md.cur (homeWarps lanes)
    refine ⟨_, (if_pos hp).trans ?_, releasedTo_committed s.md.cur s.curWarp.gi (homeWarps lanes)
      (lanes.map (fun q => thKey s.curWarp.gi q.2.hwarp q.2.hlane)) hset⟩
    rw [withDrain]
    rw [show (s.warp s.md.cur).gi = s.curWarp.gi from rfl, fullFifos_nil hfifo, if_neg (by simp)]
    exact withAccesses_settled (settled_congr hset (by rw [hwk]) (by rw [hmm])) k
  · exact ⟨s, if_neg hp, .refl s, rfl, hset⟩

/-- A RELEASE AT COVE SCOPE OR WIDER with nothing left to wait for. -/
theorem withRelease_done {threads : List Nat} (hset : Settled s s.curWarp.gi threads) (h : Released s s.curWarp) (k : State → State) :
    ∃ m, withRelease s k = k m ∧ ReleasedTo s threads m := by
  by_cases hp : s.curWarp.phase = 0
  · obtain ⟨hfifo, hall, hclean, hsent⟩ := h.resolve_left (not_not_intro hp)
    obtain ⟨hwk, hmm⟩ := commitHomes_keeps (s := s) s.curWarp.gi s.md.cur (warpHomes s.curWarp)
    obtain ⟨hf, hm, hs⟩ := releasedTo_committed s.md.cur s.curWarp.gi (warpHomes s.curWarp) (warpThreads s.curWarp) hset
    refine ⟨_, ?_, hf.trans (fencing_phase hf.cur.symm 1), hm, hs⟩
    rw [withRelease]
    refine (if_pos hp).trans ?_
    dsimp only
    rw [show s.warp s.md.cur = s.curWarp from rfl, fullFifos_nil hfifo, if_neg (by simp), withAccesses_settled (settled_congr hall (by rw [hwk]) (by rw [hmm])),
      sendAll_clean (by rwa [hm]) (by rwa [hm])]
    rfl
  · exact ⟨s, if_neg hp, .refl s, rfl, hset⟩

/-- A word that waits for FIFOs stands at its PC with them committed. -/
theorem fifoWait_parks {y : Warp} (hy : s.wk.warps.find s.md.cur = some y) (hs busy : List Nat) :
    let t := parkHere (commitHomes s s.curWarp.gi s.md.cur hs) (.fifo busy)
    (∃ z, t.wk.warps.find s.md.cur = some z ∧ z.pc = y.pc ∧ z.park = .fifo busy) ∧ t.mm = s.mm ∧
      ∀ hw ∈ hs, ∀ e ∈ (t.hwarp (hwKey s.curWarp.gi hw)).fifo, e.uncommitted = [] := by
  have hcom := fun hw (hm : hw ∈ hs) => commitHomes_committed s s.curWarp.gi s.md.cur hm
  obtain ⟨hwk, hmm⟩ := commitHomes_keeps (s := s) s.curWarp.gi s.md.cur hs
  have hcur := (fencing_commitHomes (s := s) s.curWarp.gi s.md.cur hs).cur
  generalize commitHomes s s.curWarp.gi s.md.cur hs = c at hcom hwk hmm hcur
  obtain ⟨age, hage⟩ := parkWarp_warps c s.md.cur (.fifo busy)
  simp only [parkHere, hcur]
  refine ⟨⟨{ y with park := .fifo busy, age := age }, ?_, rfl, rfl⟩, (still_mm (still_parkWarp ..)).trans hmm, fun hw hm => ?_⟩
  · rw [hage, NMap.find_upd_self, hwk, hy]
    rfl
  · rw [State.hwarp, parkWarp_rg]
    exact hcom hw hm

end

/-! ### The words -/

section
variable {s : State} {h : Hdr} {lanes : List (Nat × LaneEnt)} {sc : Scope}

/-- What a fence that completes leaves as it was. -/
def FenceRest (s t : State) : Prop :=
  Quiet s t ∧ Onward bare s t ∧ t.rg.sb = s.rg.sb ∧ t.mm.mem = s.mm.mem ∧ t.mm.llc = s.mm.llc

/-- What an acquire has done for the threads of some lanes. -/
def FenceAcquired (s t : State) (lanes : List (Nat × LaneEnt)) (sc : Scope) : Prop :=
  (∀ r ∈ t.wk.results, r.2.gi = s.curWarp.gi → r.2.known = true → ∀ l ∈ r.2.lanes,
    thKey s.curWarp.gi r.2.hwarp l.lane ∈ lanes.map (fun q => thKey s.curWarp.gi q.2.hwarp q.2.hlane) → l.src = .fixed) ∧
  (lanes ≠ [] → Acquired s t s.curWarp.core sc)

theorem Fencing.rest {m : State} (hm : Fencing s m) (b w : Bool) : FenceRest s (finish m b w) := by
  have st := still_finish m b w
  exact ⟨quiet_trans hm.toQuiet (quiet_finish m b w), hm.onward b w, (still_sb st).trans hm.counters, by rw [still_mm st, hm.mem],
    by rw [still_mm st, hm.llc]⟩

theorem acquired_of_mm {m t u : State} {core : Nat} (h : Acquired m t core sc) (hm : m.mm = s.mm) (hu : u.mm = t.mm) : Acquired s u core sc := by
  simpa only [Acquired, l1Line, hm, hu] using h

/-- THE ACQUIRE SIDE of a fence whose release side, if it has one, is done. -/
theorem fenceAcquire_done {m : State} (hm : ReleasedTo s (lanes.map (fun q => thKey s.curWarp.gi q.2.hwarp q.2.hlane)) m) :
    FenceRest s (fenceAcquire m h lanes sc) ∧ FenceAcquired s (fenceAcquire m h lanes sc) lanes sc := by
  obtain ⟨hf, hmm, hset⟩ := hm
  obtain ⟨hgi, hcore, -, -⟩ := hf.stand
  have he : fenceAcquire m h lanes sc = finish (if sc = .grp then commitLanes (fixResults m s.curWarp.gi (lanes.map (fun q =>
      thKey s.curWarp.gi q.2.hwarp q.2.hlane))) m.md.cur lanes else acquireL1 (commitLanes (fixResults m s.curWarp.gi (lanes.map (fun q =>
      thKey s.curWarp.gi q.2.hwarp q.2.hlane))) m.md.cur lanes) s.curWarp.core) h.b h.w := by
    rw [fenceAcquire, hgi, hcore]
    exact withLoads_settled hset _
  have hfix := fun r hr => @fixResults_fixed m s.curWarp.gi (lanes.map (fun q => thKey s.curWarp.gi q.2.hwarp q.2.hlane)) r hr
  generalize hc : commitLanes (fixResults m s.curWarp.gi (lanes.map (fun q => thKey s.curWarp.gi q.2.hwarp q.2.hlane))) m.md.cur lanes = c at he
  have hfc : Fencing s c := hc ▸ (hf.trans (fencing_fixResults ..)).trans (fencing_commitLanes ..)
  have hcalm := (calm_of_calmPart (calmPart_commitLanes (fixResults m s.curWarp.gi (lanes.map (fun q =>
    thKey s.curWarp.gi q.2.hwarp q.2.hlane))) m.md.cur lanes)).1
  rw [hc] at hcalm
  have hcm : c.mm = s.mm := hcalm.memory.trans hmm
  rw [← hcalm.results] at hfix
  by_cases hsc : sc = .grp
  · rw [if_pos hsc] at he
    have st := still_finish c h.b h.w
    rw [he, FenceAcquired, still_results st]
    exact ⟨hfc.rest h.b h.w, hfix, fun _ => ⟨fun _ => by rw [still_mm st, hcm], fun hn => absurd hsc hn⟩⟩
  · rw [if_neg hsc] at he
    obtain ⟨ha, hwk⟩ := fencing_acquireL1 c s.curWarp.core
    have st := still_finish (acquireL1 c s.curWarp.core) h.b h.w
    rw [he, FenceAcquired, still_results st, hwk]
    exact ⟨(hfc.trans ha).rest h.b h.w, hfix, fun _ => acquired_of_mm (acquired_acquireL1 c s.curWarp.core hsc) hcm (still_mm st)⟩

/-- When the release side of a fence has nothing left to wait for. -/
def FenceReleased (s : State) (lanes : List (Nat × LaneEnt)) (sc : Scope) : Prop :=
  if sc = .grp then s.curWarp.phase ≠ 0 ∨ ∀ hw ∈ homeWarps lanes, (s.hwarp (hwKey s.curWarp.gi hw)).fifo = [] else Released s s.curWarp

theorem fenceRelease_done (hset : Settled s s.curWarp.gi (lanes.map (fun q => thKey s.curWarp.gi q.2.hwarp q.2.hlane)))
    (hr : FenceReleased s lanes sc) (k : State → State) :
    ∃ m, fenceRelease s lanes sc k = k m ∧ ReleasedTo s (lanes.map (fun q => thKey s.curWarp.gi q.2.hwarp q.2.hlane)) m := by
  unfold FenceReleased at hr
  unfold fenceRelease
  split at hr
  next hsc => rw [if_pos hsc]; exact withGroupRelease_done hset hr k
  next hsc => rw [if_neg hsc]; exact withRelease_done hset hr k

/-- The home warps that a fence has to drain. -/
def fenceBusy (s : State) (lanes : List (Nat × LaneEnt)) (sc : Scope) : List Nat :=
  (if sc = .grp then homeWarps lanes else warpHomes s.curWarp).filter (fun hw => (s.hwarp (hwKey s.curWarp.gi hw)).fifo != [])

theorem homeWarps_subset {l l' : List (Nat × LaneEnt)} (hl : ∀ q ∈ l, q ∈ l') : ∀ hw ∈ homeWarps l, hw ∈ homeWarps l' := fun hw hm => by
  obtain ⟨q, hq, rfl⟩ := List.mem_map.1 (List.mem_eraseDups.1 hm)
  exact mem_homeWarps (hl q hq)

/-- A RELEASE whose home warps' FIFOs are not empty commits them and parks. -/
theorem fenceRelease_waits {y : Warp} (hy : s.wk.warps.find s.md.cur = some y) (hp : s.curWarp.phase = 0) (hl : lanes ≠ [])
    (hact : ∀ q ∈ lanes, q ∈ activeLanes s.curWarp) (hb : fenceBusy s lanes sc ≠ []) (k : State → State) :
    let t := fenceRelease s lanes sc k
    (∃ z, t.wk.warps.find s.md.cur = some z ∧ z.pc = y.pc ∧ z.park = .fifo (fenceBusy s lanes sc)) ∧ t.mm = s.mm ∧
      ∀ hw ∈ homeWarps lanes, ∀ e ∈ (t.hwarp (hwKey s.curWarp.gi hw)).fifo, e.uncommitted = [] := by
  intro t
  by_cases hsc : sc = .grp
  · have hbusy : fenceBusy s lanes sc = (homeWarps lanes).filter (fun hw => (s.hwarp (hwKey s.curWarp.gi hw)).fifo != []) := by
      rw [fenceBusy, if_pos hsc]
    have ht : t = parkHere (commitHomes s s.curWarp.gi s.md.cur (homeWarps lanes)) (.fifo (fenceBusy s lanes sc)) := by
      refine (if_pos hsc).trans ((if_pos (by simp [hl]; exact hp)).trans ?_)
      rw [withDrain, show (s.warp s.md.cur).gi = s.curWarp.gi from rfl, fullFifos_commitHomes, ← hbusy, if_pos hb]
    rw [ht]
    exact fifoWait_parks hy _ _
  · have hbusy : fenceBusy s lanes sc = (warpHomes s.curWarp).filter (fun hw => (s.hwarp (hwKey s.curWarp.gi hw)).fifo != []) := by
      rw [fenceBusy, if_neg hsc]
    have ht : t = parkHere (commitHomes s s.curWarp.gi s.md.cur (warpHomes s.curWarp)) (.fifo (fenceBusy s lanes sc)) := by
      refine (if_neg hsc).trans ((if_pos hp).trans ?_)
      dsimp only
      rw [show s.warp s.md.cur = s.curWarp from rfl, fullFifos_commitHomes, ← hbusy, if_pos hb]
    rw [ht]
    obtain ⟨hz, hm, hc⟩ := fifoWait_parks hy (warpHomes s.curWarp) (fenceBusy s lanes sc)
    exact ⟨hz, hm, fun hw hmem => hc hw (homeWarps_subset hact hw hmem)⟩

/-- A fence of no lane ends at once. -/
theorem fence_noLanes (s : State) (b w : Bool) :
    FenceRest s (finish s b w) ∧ FenceAcquired s (finish s b w) [] sc ∧ (finish s b w).mm.l1 = s.mm.l1 :=
  ⟨(Fencing.refl s).rest b w, ⟨fun _ _ _ _ _ _ => nofun, fun h => absurd rfl h⟩, by rw [still_mm (still_finish s b w)]⟩

theorem fenceAcq_done (hset : Settled s s.curWarp.gi (lanes.map (fun q => thKey s.curWarp.gi q.2.hwarp q.2.hlane)))
    (hl : takingLanes s s.curWarp h = lanes) :
    ∃ t, exec (.fenceAcq h sc) s = .next t ∧ FenceRest s t ∧ FenceAcquired s t lanes sc := by
  subst hl
  refine ⟨_, rfl, ?_⟩
  split
  next h0 =>
    obtain ⟨hrest, hacq, -⟩ := fence_noLanes (sc := sc) s h.b h.w
    exact ⟨hrest, h0.symm ▸ hacq⟩
  next => exact fenceAcquire_done ⟨.refl s, rfl, hset⟩

theorem fenceRel_done (hset : Settled s s.curWarp.gi (lanes.map (fun q => thKey s.curWarp.gi q.2.hwarp q.2.hlane)))
    (hl : takingLanes s s.curWarp h = lanes) (hr : FenceReleased s lanes sc) :
    ∃ t, exec (.fenceRel h sc) s = .next t ∧ FenceRest s t ∧ t.mm.l1 = s.mm.l1 := by
  subst hl
  refine ⟨_, rfl, ?_⟩
  split
  next =>
    obtain ⟨hrest, -, hl1⟩ := fence_noLanes (sc := sc) s h.b h.w
    exact ⟨hrest, hl1⟩
  next =>
    obtain ⟨m, he, hf, hmm, -⟩ := fenceRelease_done hset hr fun s' => finish (commitLanes s' s'.md.cur (takingLanes s s.curWarp h)) h.b h.w
    rw [he]
    have hc := (calm_of_calmPart (calmPart_commitLanes m m.md.cur (takingLanes s s.curWarp h))).1.memory
    exact ⟨(hf.trans (fencing_commitLanes ..)).rest h.b h.w, by rw [still_mm (still_finish ..), hc, hmm]⟩

theorem fenceAcqrel_done (hset : Settled s s.curWarp.gi (lanes.map (fun q => thKey s.curWarp.gi q.2.hwarp q.2.hlane)))
    (hl : takingLanes s s.curWarp h = lanes) (hr : FenceReleased s lanes sc) :
    ∃ t, exec (.fenceAcqrel h sc) s = .next t ∧ FenceRest s t ∧ FenceAcquired s t lanes sc := by
  subst hl
  refine ⟨_, rfl, ?_⟩
  split
  next h0 =>
    obtain ⟨hrest, hacq, -⟩ := fence_noLanes (sc := sc) s h.b h.w
    exact ⟨hrest, h0.symm ▸ hacq⟩
  next =>
    obtain ⟨m, he, hm⟩ := fenceRelease_done hset hr fun s' => fenceAcquire s' h (takingLanes s s.curWarp h) sc
    rw [he]
    exact fenceAcquire_done hm

end

/-- Settles O29: each side of a fence that has nothing to wait for hands the state on with `Fencing` kept, and the end of the word keeps
it; a release with entries in a FIFO parks before its sides are reached. -/
theorem fencesOrderEarlierAccesses : Obligations.FencesOrderEarlierAccesses := by
  intro s h sc x lanes keys rest acquired released busy waits
  refine ⟨fun hset => ⟨fenceAcq_done hset rfl, fenceRel_done hset rfl, fenceAcqrel_done hset rfl⟩, fun hp hl hb hx => ?_⟩
  have hact : ∀ q ∈ lanes, q ∈ activeLanes x := fun q hq => taking_active hq
  have hwaits : ∀ i k, exec i s = .next (if lanes = [] then finish s h.b h.w else fenceRelease s lanes sc k) → waits i := fun i k he => by
    obtain ⟨⟨z, hz, hpc, hpark⟩, hm, hc⟩ := fenceRelease_waits (sc := sc) hx hp hl hact hb k
    exact ⟨_, z, he.trans (congrArg _ (if_neg hl)), hz, hpc, hpark, hm, hc⟩
  exact ⟨hwaits _ _ rfl, hwaits _ _ rfl⟩

end Sys2Proof.Machine
end

section
/-!
SUPPORT. What operations on memory's lines leave of the far tier (R118, R120, R122, R129): the pool, parks and recalls, and of a frame's
record all but its heat; identities only grow.
-/
namespace Sys2Proof.Machine

open Say

/-- The far tier: the free pool, parks and recalls in progress, pages still to be recalled, pages in the jetty pool. -/
def tier (s : State) : List Nat × NMap ParkOp × NMap RecallOp × List (Nat × Nat) × NMap FarPage :=
  (s.xl.pool, s.xl.parks, s.xl.recalls, s.xl.farNotes, s.xl.poolPages)

/-- The records of frames, heat apart. -/
def unheated (s : State) : Nat → Frame := fun f => { s.frame f with heat := 0 }

/-- A change of what caches memory: the far tier stands, and of frames at most the heat has changed. -/
structure Cached (s t : State) : Prop where
  tier : tier t = tier s
  frames : unheated t = unheated s
  later : s.md.nextId ≤ t.md.nextId

theorem frame_updFrame (s : State) (k f : Nat) (g : Frame → Frame) : (s.updFrame k g).frame f = if f = k then g (s.frame k) else s.frame f := by
  rw [State.frame, State.updFrame_xl]
  split
  next h => rw [h, NMap.get_set_self]
  next h => rw [NMap.get_set_ne _ _ _ _ _ h, State.frame]

theorem nextId_fresh (s : State) : s.md.nextId ≤ s.fresh.2.md.nextId := Nat.le_succ_of_le (Nat.le_max_left ..)

section
variable {s t u : State}

theorem Cached.refl (s : State) : Cached s s := ⟨rfl, rfl, Nat.le_refl _⟩

theorem Cached.trans (h : Cached s t) (h' : Cached t u) : Cached s u :=
  ⟨h'.tier.trans h.tier, h'.frames.trans h.frames, h.later.trans h'.later⟩

theorem Cached.foldl {β : Type} {f : State → β → State} {l : List β} (hf : ∀ s, ∀ x ∈ l, Cached s (f s x)) (s : State) : Cached s (l.foldl f s) :=
  List.foldlRecOn (motive := fun t => Cached s t) l f (.refl s) fun t h x hx => h.trans (hf t x hx)

/-- A change outside translation and frames. -/
theorem Cached.of_xl (h : t.xl = s.xl) (hn : s.md.nextId ≤ t.md.nextId) : Cached s t := by
  refine ⟨by rw [Machine.tier, h, Machine.tier], funext fun f => ?_, hn⟩
  rw [unheated, unheated, State.frame, h, State.frame]

theorem cached_updMM (s : State) (f : MemSt → MemSt) : Cached s (s.updMM f) := .of_xl rfl (Nat.le_refl _)

theorem cached_pick (s : State) (n : Nat) : Cached s (s.pick n).2 := .of_xl rfl (Nat.le_refl _)

/-- A frame grows warmer. -/
theorem cached_heat (s : State) (k : Nat) (g : Nat → Nat) : Cached s (s.updFrame k (fun f => { f with heat := g f.heat })) := by
  refine ⟨rfl, funext fun f => ?_, Nat.le_refl _⟩
  rw [unheated, frame_updFrame]
  split
  next h => rw [h]; rfl
  next => rfl

theorem cached_sendDrop (s : State) (core line : Nat) (words : List Nat) : Cached s (sendDrop s core line words) := by
  unfold sendDrop
  split
  · exact .refl s
  · exact .of_xl rfl (nextId_fresh s)

theorem cached_llcEvict (s : State) (line : Nat) : Cached s (llcEvict s line) := by
  unfold llcEvict
  split
  · exact .refl s
  · exact .trans (.foldl (fun s o _ => cached_sendDrop s o.1 line o.2) s) (.of_xl rfl (Nat.le_refl _))

theorem cached_llcEnsure (s : State) (line : Nat) : Cached s (llcEnsure s line) := by
  unfold llcEnsure
  split
  · exact .refl s
  · dsimp only
    refine Cached.trans (Cached.trans ?_ (cached_updMM ..)) (cached_heat _ _ fun n => min (n + 1) 255)
    split
    · exact (cached_pick ..).trans (cached_llcEvict ..)
    · exact .refl s

theorem xl_setMemBytes (s : State) (pa : Nat) (l : List Byte) : (setMemBytes s pa l).xl = s.xl ∧ (setMemBytes s pa l).md = s.md := by
  unfold setMemBytes
  exact List.foldlRecOn (motive := fun t : State => t.xl = s.xl ∧ t.md = s.md) _ _ ⟨rfl, rfl⟩ fun _ h _ _ => h

theorem cached_setMemBytes (s : State) (pa : Nat) (l : List Byte) : Cached s (setMemBytes s pa l) := by
  obtain ⟨hx, hm⟩ := xl_setMemBytes s pa l
  exact .of_xl hx (by rw [hm])

theorem cached_poisonGranule (s : State) (g : Nat) : Cached s (poisonGranule s g) := by
  unfold poisonGranule
  exact (cached_llcEnsure s (g / 2)).trans (cached_updMM ..)

theorem cached_regWord (s : State) (core line : Nat) (own : Bool) (w : DirWord) : Cached s (regWord s core line own w) := by
  have hold : ∀ (o : Option Nat) (s : State), Cached s (match o with
      | some c => if c = core then s else sendDrop s c line [w.i]
      | none => s) := fun o s => by
    split
    · split
      · exact .refl s
      · exact cached_sendDrop ..
    · exact .refl s
  have hput := (cached_llcEnsure s line).trans (cached_setMemBytes (llcEnsure s line) (line * 128 + w.i * 4) (bytesOfNat 4 w.val.toNat))
  unfold regWord
  dsimp only
  split
  · exact ((hput.trans (hold _ _)).trans (cached_updMM ..)).trans (cached_poisonGranule ..)
  · exact (hput.trans (hold _ _)).trans (cached_updMM ..)

theorem cached_setL1 (s : State) (core line : Nat) (f : L1Line → L1Line) : Cached s (setL1 s core line f) := .of_xl rfl (Nat.le_refl _)
theorem cached_countReq (s : State) (ctx page core : Nat) (write : Bool) : Cached s (countReq s ctx page core write) := .of_xl rfl (Nat.le_refl _)

theorem cached_flushWords (s : State) (core line : Nat) (only : Option (List Nat)) : Cached s (flushWords s core line only) := by
  unfold flushWords
  dsimp only
  split
  · exact .refl s
  · exact ((cached_countReq ..).trans (.foldl (fun s w _ => cached_regWord s core line true w) _)).trans (cached_setL1 ..)

theorem cached_queueWords (s : State) (core line : Nat) (only : Option (List Nat)) : Cached s (queueWords s core line only) := by
  unfold queueWords
  dsimp only
  split
  · exact .refl s
  · exact .of_xl rfl (nextId_fresh s)

theorem cached_l1Evict (s : State) (core line : Nat) : Cached s (l1Evict s core line) := by
  unfold l1Evict giveBack
  dsimp only
  refine Cached.trans (Cached.trans ?_ (cached_updMM ..)) (cached_setL1 ..)
  split
  · exact cached_queueWords ..
  · exact cached_flushWords ..

theorem cached_l1Room (s : State) (core line : Nat) : Cached s (l1Room s core line) := by
  rcases l1Room_cases s core line with h | ⟨v, h⟩
  · rw [h]
    exact .refl s
  · rw [h]
    exact cached_l1Evict ..

theorem cached_l1Touch (s : State) (core line rank ctx page : Nat) : Cached s (l1Touch s core line rank ctx page) := .of_xl rfl (Nat.le_refl _)

theorem cached_l1Fill (s : State) (core line rank ctx page : Nat) : Cached s (l1Fill s core line rank ctx page) :=
  ((((cached_countReq s ctx page core false).trans (cached_llcEnsure _ line)).trans (cached_l1Room _ core line)).trans (cached_setL1 ..)).trans
    (cached_l1Touch ..)

theorem cached_dropHalves (s : State) (core pa n : Nat) : Cached s (dropHalves s core pa n) := by
  unfold dropHalves
  split
  · exact .refl s
  · exact cached_setL1 ..

theorem cached_fillFor (s : State) (core ctx page pa n rank : Nat) (bypass : Bool) : Cached s (fillFor s core ctx page pa n rank bypass) := by
  unfold fillFor
  split
  · split
    · exact .refl s
    · exact cached_l1Touch ..
  · split
    · exact ((cached_countReq ..).trans (cached_llcEnsure ..)).trans (cached_dropHalves ..)
    · exact cached_l1Fill ..

theorem cached_applyDrop (s : State) (d : DropItem) : Cached s (applyDrop s d) := cached_setL1 ..

theorem cached_takeLine (s : State) (line : Nat) : Cached s (takeLine s line) := by
  unfold takeLine
  exact (((cached_llcEnsure s line).trans (.foldl (fun s c _ => cached_flushWords s c line none) _)).trans
    (.foldl (fun s c _ => cached_applyDrop s _) _)).trans (cached_updMM ..)

theorem cached_takeLines (s : State) (ls : List Nat) : Cached s (ls.foldl takeLine s) := .foldl (fun s n _ => cached_takeLine s n) s

theorem cached_partWrite (s : State) (pa : Nat) (l : List Byte) : Cached s (partWrite s pa l) := by
  unfold partWrite engWrite
  exact (((cached_takeLines s _).trans (.foldl (fun s n _ => cached_llcEnsure s n) _)).trans (cached_setMemBytes ..)).trans (cached_updMM ..)

end

end Sys2Proof.Machine
end

section
/-!
SUPPORT. What the fault of a lost page leaves of the far tier (R127, R180, R388): lanes stop, commands end, records are posted, and the
pool, the parks and the recalls stand.
-/
namespace Sys2Proof.Machine

/-! ### Stops of lanes (R388) -/

theorem tier_postFault (s : State) (ctx : Nat) (event : Bool) (bytes : List Byte) : tier (postFault s ctx event bytes) = tier s := by
  unfold postFault
  split <;> rfl

theorem tier_enterStop (s : State) (id : Nat) : tier (enterStop s id) = tier s := by
  unfold enterStop
  split
  · rfl
  · dsimp only
    split
    · rfl
    · exact (tier_postFault ..).trans rfl

theorem tier_splitOff (s : State) (wid : Nat) (pl : List Nat) (p : Park) (carry : Bool) : tier (splitOff s wid pl p carry).2 = tier s := by
  unfold splitOff
  exact foldl_keep tier (fun s (x : Nat × Nat) => addParts s x.2 1) (fun _ _ => rfl) _ s.fresh.2

theorem tier_commitHW (s : State) (gi h wid : Nat) (after : List Nat) : tier (commitHW s gi h wid after) = tier s := by
  have hc := (calm_of_calmPart (calmPart_commitHW s gi h wid after)).1.translation
  rw [tier, hc, tier]

theorem tier_stopHome (s : State) (wid h : Nat) (pl : List Nat) (info : FaultInfo) (commit : Bool) :
    tier (stopHome s wid h pl info commit) = tier s := by
  unfold stopHome
  refine (tier_enterStop ..).trans ?_
  show tier (if commit then _ else _) = _
  split
  · exact (tier_commitHW ..).trans (tier_splitOff ..)
  · exact tier_splitOff ..

theorem tier_takeFaults (s : State) (wid opc flags : Nat) (fs : List LaneFault) (commit : Bool) :
    tier (takeFaults s wid opc flags fs commit) = tier s := by
  unfold takeFaults
  refine foldl_keep tier _ (fun s k => ?_) _ _
  refine (tier_stopHome ..).trans ?_
  split <;> rfl

theorem tier_finishWorks (s : State) (ids : List Nat) : tier (finishWorks s ids) = tier s := by
  have h : (finishWorks s ids).xl = s.xl := congrArg (fun x => x.2.2.2.1) (offWork_finishWorks s ids)
  rw [tier, h, tier]

theorem tier_dropStopped (s : State) (wid : Nat) : tier (dropStopped s wid) = tier s := by
  unfold dropStopped endCount
  split
  · have h := still_xl (still_dropEmpty (finishWorks s ((s.warp wid).works.map (·.2))) wid)
    rw [tier, h, ← tier, tier_finishWorks]
  · rfl

theorem tier_faultWaiting (s : State) (wid code : Nat) : tier (faultWaiting s wid code) = tier s := by
  unfold faultWaiting
  exact (tier_dropStopped ..).trans ((tier_takeFaults ..).trans rfl)

/-! ### Ends of commands (R180, R266) -/

theorem tier_checkGroupEnd (s : State) (gi : Nat) : tier (checkGroupEnd s gi) = tier s := by
  unfold checkGroupEnd
  split
  · rfl
  · split <;> rfl

theorem tier_landLate (s : State) (id : Nat) : tier (landLate s id) = tier s := by
  unfold landLate
  refine (foldl_keep tier landRow (fun s x => ?_) _ _)
  unfold landRow
  split
  · rfl
  · dsimp only
    split <;> rfl

theorem tier_sampleHeld (s : State) : tier (sampleHeld s) = tier s := by
  unfold sampleHeld
  refine foldl_keep tier _ (fun s r => ?_) _ _
  dsimp only
  split
  · exact foldl_keep tier _ (fun s m => (cached_fillFor ..).tier) _ s
  · rfl

theorem tier_dropClaims (s : State) (id : Nat) : tier (dropClaims s id) = tier s := by
  unfold dropClaims
  exact (tier_sampleHeld ..).trans rfl

theorem tier_reportCmd (s : State) (id code detail : Nat) (addr : Option Nat) : tier (reportCmd s id code detail addr) = tier s := by
  unfold reportCmd postCommand
  refine (tier_postFault ..).trans ?_
  split <;> rfl

theorem tier_leaveLine (s : State) (id k : Nat) (fault : Bool) : tier (leaveLine s id k fault) = tier s := by
  unfold leaveLine updLine
  show tier (match s.wk.groups.find (k / 4096) with | none => _ | some g => _) = _
  split
  · rfl
  · split <;> rfl

theorem tier_removeCmd (s : State) (id : Nat) : tier (removeCmd s id) = tier s := by
  unfold removeCmd
  exact (tier_checkGroupEnd ..).trans rfl

theorem tier_failCmd (s : State) (id code : Nat) (addr : Option Nat) : tier (failCmd s id code addr) = tier s := by
  unfold failCmd
  refine (tier_removeCmd ..).trans ((tier_finishWorks ..).trans ?_)
  refine (foldl_keep tier _ (fun s k => tier_leaveLine s id k true) _ _).trans ?_
  exact (tier_reportCmd ..).trans ((tier_dropClaims ..).trans (tier_landLate ..))

theorem tier_retireHead (s : State) (core half ctx : Nat) (c : MCmd) (last : Nat) : tier (retireHead s core half ctx c last) = tier s := by
  unfold retireHead
  exact (tier_checkGroupEnd ..).trans (tier_finishWorks ..)

theorem tier_failMatrix (s : State) (core half ctx : Nat) (c : MCmd) (code addr : Nat) : tier (failMatrix s core half ctx c code addr) = tier s := by
  unfold failMatrix reportMatrix postCommand
  refine (tier_retireHead ..).trans ?_
  exact tier_postFault ..

theorem tier_faultMatrix (s : State) (hit : CmdStop → Option Nat) (code : Nat) : tier (faultMatrix s hit code) = tier s := by
  unfold faultMatrix
  refine foldl_keep tier _ (fun s q => ?_) _ _
  split
  · rfl
  · split
    · exact tier_failMatrix ..
    · rfl

/-! ### A page is lost (R127) -/

theorem frameLost_congr {s t : State} (h : t.pt = s.pt) (f : Nat) : frameLost t f = frameLost s f := by rw [frameLost, h, frameLost]

/-- A frame is back in the pool, if it may be (R125, R463). -/
theorem tier_poolPut (s : State) (f : Nat) : tier (poolPut s f) =
    (if frameLost s f = true then s.xl.pool else s.xl.pool ++ [f], s.xl.parks, s.xl.recalls, s.xl.farNotes, s.xl.poolPages) := by
  unfold poolPut
  split <;> rfl

/-- The recall of a lost page is over, and its frame is back in the pool if it may be. -/
theorem tier_loseRecall (s : State) (id f : Nat) (r : RecallOp) : tier (loseRecall s id f r) =
    (if frameLost s f = true then s.xl.pool else s.xl.pool ++ [f], s.xl.parks, s.xl.recalls.erase id, s.xl.farNotes, s.xl.poolPages) := by
  have hw := (cached_partWrite s (r.recPa + 0x0B) [4]).tier
  have hp : (partWrite s (r.recPa + 0x0B) [4]).pt = s.pt :=
    congrArg (fun x => x.2.2.2.2.2) (outside_partWrite (s := s) (pa := r.recPa + 0x0B) (l := [4]))
  unfold loseRecall
  refine (tier_faultMatrix ..).trans ((foldl_keep tier _ (fun s c => ?_) _ _).trans ((foldl_keep tier _ (fun s w => tier_faultWaiting ..) _ _).trans ?_))
  · split
    · split
      · exact tier_failCmd ..
      · rfl
    all_goals rfl
  · simp only [tier, Prod.mk.injEq] at hw
    obtain ⟨hpool, hparks, hrecalls, hnotes, hpages⟩ := hw
    rw [tier_poolPut, frameLost_congr ((State.updXL_pt ..).trans hp)]
    simp only [State.updXL_xl, hpool, hparks, hrecalls, hnotes, hpages]

end Sys2Proof.Machine
end

section
/-!
SUPPORT. A park that completes (R125, R126): the frame's lines are taken, the page goes to the jetty's pool, the record takes STATE 2 and the
frame is free.
-/
namespace Sys2Proof.Machine

open Say

/-! ### A clean line is taken (R122) -/

theorem flushLine_of_clean {s : State} {core line : Nat} (h : CleanLine s line) : flushLine s core line = s := by
  have hd : dirtyWords (l1Line s core line) none = [] := by
    rw [dirtyWords, List.filter_eq_nil_iff.2, List.map_nil]
    intro w hw
    simp [h core w hw]
  rw [flushLine, flushWords]
  exact if_pos hd

theorem flushLines_of_clean {s : State} {line : Nat} (h : CleanLine s line) (cores : List Nat) :
    cores.foldl (fun s c => flushLine s c line) s = s :=
  List.foldlRecOn (motive := fun t => t = s) cores _ rfl fun t ht c _ => by rw [ht, flushLine_of_clean h]

/-- To take a line of which no L1 holds a dirty word changes no byte. -/
theorem mem_takeLine {s : State} {line : Nat} (h : line < 2 ^ 41 → CleanLine s line) : (takeLine s line).mm.mem = s.mm.mem := by
  have he := beside_llcEnsure s line
  have hf : ∀ u, u = llcEnsure s line → (lineCores u line).foldl (fun s c => flushLine s c line) u = u := by
    rintro u rfl
    rcases Nat.lt_or_ge line (2 ^ 41) with hl | hl
    · exact flushLines_of_clean ((NoMoreDirty.of_l1 (l1_of_beside he)).cleanLine (h hl)) _
    · rw [List.eq_nil_iff_forall_not_mem.2 fun c hc => absurd (line_lt_of_mem_lineCores hc) (by omega)]
      rfl
  have hm : (takeLine s line).mm.mem =
      ((lineCores (llcEnsure s line) line).foldl (fun s c => flushLine s c line) (llcEnsure s line)).mm.mem := by
    unfold takeLine
    exact foldl_keep (fun s : State => s.mm.mem) (fun s c => applyDrop s { core := c, line := line, words := List.range 32 }) (fun _ _ => rfl) _ _
  rw [hm, hf _ rfl, mem_of_beside he]

theorem mem_takeLines {s : State} {ls : List Nat} (h : ∀ l ∈ ls, l < 2 ^ 41 → CleanLine s l) : (ls.foldl takeLine s).mm.mem = s.mm.mem := by
  induction ls generalizing s with
  | nil => rfl
  | cons l ls ih =>
    rw [List.foldl_cons, ih fun k hk hlt => (writesBack_takeLine s l).1.dirty.cleanLine (h k (List.mem_cons_of_mem _ hk) hlt),
      mem_takeLine (h l List.mem_cons_self)]

/-- A line of a frame without dirty bytes is clean. -/
theorem cleanLine_of_frame {s : State} {f line : Nat} (hw : DirtyInLine s) (hd : ∀ a, a / 2 ^ 16 = f → ∀ core, ¬DirtyAt s core a)
    (hl : line < 2 ^ 41) (hf : line / 512 = f) : CleanLine s line := fun core w hm => by
  by_contra h
  have h32 := hw core line w hm (by simpa using h)
  obtain ⟨c, hc⟩ := dirtyAt_of_dirtyOver (s := s) (a := line * 128 + w.1 * 4) ⟨core, line, hl, w, hm, by simpa using h, by omega, by omega⟩
  exact hd _ (by omega) c hc

theorem memByte_congr {s t : State} (h : t.mm.mem = s.mm.mem) (a : Nat) : memByte t a = memByte s a := by rw [memByte, h, memByte]
theorem memBytes_congr {s t : State} (h : t.mm.mem = s.mm.mem) (a n : Nat) : memBytes t a n = memBytes s a n := by
  simp only [memBytes, memByte_congr h]
theorem memNat_congr {s t : State} (h : t.mm.mem = s.mm.mem) (a n : Nat) : memNat t a n = memNat s a n := by
  rw [memNat, memBytes_congr h, memNat]

theorem Cached.charge {s t : State} (h : Cached s t) (f : Nat) : (t.frame f).charge = (s.frame f).charge := by
  have hf := congrArg Frame.charge (congrFun h.frames f)
  exact hf

/-! ### A park completes (R125, R126) -/

/-- The lines of a frame. -/
def frameLines (f : Nat) : List Nat := (List.range 512).map (fun i => f * 512 + i)

theorem div_of_mem_frameLines {f l : Nat} (h : l ∈ frameLines f) : l / 512 = f := by
  obtain ⟨i, hi, rfl⟩ := List.mem_map.1 h
  have := List.mem_range.1 hi
  omega

/-- The page of a frame as the jetty keeps it, sealed unless its slot is CLEAR (R125, R126). -/
def pageOf (s : State) (p : ParkOp) : FarPage :=
  let attr := p.oldLeaf / 64 % 4
  let bytes := memBytes s (p.frame * 2 ^ 16) 65536
  let material := sealMaterial s attr (p.oldLeaf / 2 ^ 48 % 2 ^ 8)
  let seq := memNat s (p.recPa + 0x10) 8
  { bytes := bytes, poison := framePoison s p.frame, material := material, seq := seq,
    tag := if attr = 0 then List.replicate 16 0 else fixLen 16 (Config.pageTag material seq bytes) }

theorem bytes_pageOf (s : State) (p : ParkOp) : (pageOf s p).bytes = memBytes s (p.frame * 2 ^ 16) 65536 := by
  simp only [pageOf]
theorem seq_pageOf (s : State) (p : ParkOp) : (pageOf s p).seq = memNat s (p.recPa + 0x10) 8 := by
  simp only [pageOf]

/-- The place in the jetty pool that a record names (R124). -/
def placeOf (s : State) (rec_ : Nat) : Nat := memNat s (rec_ + 8) 2 * 2 ^ 64 + memNat s rec_ 8

/-- The record of a parked page: the tag, then STATE 2. -/
def sealRecord (s : State) (p : ParkOp) : State := partWrite (partWrite s (p.recPa + 0x20) (pageOf s p).tag) (p.recPa + 0x0B) [2]

/-- A frame is charged to no context; its page stands in the pool, and its park is over. -/
def freeFrame (s : State) (id f holder place : Nat) (page : FarPage) : State :=
  let s := dropUsed ((discardFrame s f).updFrame f (fun x => { x with state := 2, bound := false, attr := 0, key := 0 })) holder 1
  poolPut (s.updXL (fun x => { x with poolPages := NMap.insert x.poolPages place page, parks := x.parks.erase id })) f

/-- What a park does once the frame's lines are taken. -/
def finishPark (s : State) (id : Nat) (p : ParkOp) : State :=
  freeFrame (sealRecord s p) id p.frame (s.frame p.frame).charge (placeOf s p.recPa) (pageOf s p)

theorem exec_parkComplete (id : Nat) (s : State) : exec (.parkComplete id) s = execParkComplete id s := rfl

theorem execParkComplete_eq {s : State} {id : Nat} {p : ParkOp} (hp : s.xl.parks.find id = some p) (hb : frameBusy s p.frame = false)
    (hf : ∀ i < 512, held s (p.frame * 512 + i) = false) (hr : ∀ l ∈ linesOf p.recPa 64, held s l = false) :
    execParkComplete id s = .next (finishPark ((frameLines p.frame).foldl takeLine (fixFrame s p.frame)) id p) := by
  have hc : (frameBusy s p.frame || (frameLines p.frame).any (held s) || (linesOf p.recPa 64).any (held s)) = false := by
    rw [hb, List.any_eq_false.2, List.any_eq_false.2]
    · rfl
    · intro l hl
      simp [hr l hl]
    · intro l hl
      obtain ⟨i, hi, rfl⟩ := List.mem_map.1 hl
      simp [hf i (List.mem_range.1 hi)]
  unfold execParkComplete
  rw [hp]
  dsimp only
  rw [← frameLines, if_neg (by rw [hc]; exact Bool.false_ne_true)]
  rfl

section
variable {s : State} {id f holder place : Nat} {page : FarPage}

theorem poolPut_keeps (s : State) (f : Nat) :
    (poolPut s f).mm = s.mm ∧ outside (poolPut s f) = outside s ∧ (poolPut s f).xl.frames = s.xl.frames := by
  unfold poolPut
  split <;> exact ⟨rfl, rfl, rfl⟩

theorem mm_freeFrame : (freeFrame s id f holder place page).mm = (discardFrame s f).mm := (poolPut_keeps ..).1

theorem outside_freeFrame : outside (freeFrame s id f holder place page) = outside (dropUsed s holder 1) := (poolPut_keeps ..).2.1

theorem tier_freeFrame : tier (freeFrame s id f holder place page) =
    (if frameLost s f = true then s.xl.pool else s.xl.pool ++ [f], s.xl.parks.erase id, s.xl.recalls, s.xl.farNotes,
      NMap.insert s.xl.poolPages place page) := by
  unfold freeFrame
  rw [tier_poolPut, frameLost_congr (s := s) rfl]
  rfl

theorem frame_freeFrame : ((freeFrame s id f holder place page).frame f).state = 2 ∧ ((freeFrame s id f holder place page).frame f).bound = false := by
  rw [State.frame, freeFrame, (poolPut_keeps ..).2.2]
  simp only [State.updXL_xl, dropUsed, State.updCtx_xl, State.updFrame_xl, NMap.get_set_self, and_self]

theorem memByte_freeFrame (a : Nat) : memByte (freeFrame s id f holder place page) a = memByte s a := by
  rw [memByte, mm_freeFrame]
  rfl

theorem l1_freeFrame : ∀ c ∈ (freeFrame s id f holder place page).mm.l1, c.1 % 2 ^ 41 / 512 ≠ f := by
  rw [mm_freeFrame]
  intro c hc
  simpa using (List.mem_filter.1 hc).2

theorem used_freeFrame {x : Ctx} (h : s.cx.ctxs.find holder = some x) :
    ((freeFrame s id f holder place page).ctx holder).used = x.used - 1 := by
  have hc : (freeFrame s id f holder place page).cx = (dropUsed s holder 1).cx := congrArg (fun x => x.2.2.2.2.1) outside_freeFrame
  rw [State.ctx, hc, dropUsed, State.updCtx_cx]
  simp only [NMap.find_upd_self, h, Option.map_some, Option.getD_some]

end

section
variable {s : State} {p : ParkOp}

theorem outside_sealRecord : outside (sealRecord s p) = outside s := outside_partWrite.trans outside_partWrite

theorem tier_sealRecord : tier (sealRecord s p) = tier s := ((cached_partWrite ..).trans (cached_partWrite ..)).tier

theorem state_sealRecord : memByte (sealRecord s p) (p.recPa + 0x0B) = 2 := memByte_partWrite_self (l := [2]) (i := 0) Nat.one_pos

/-- A page without a seal has a tag of zeros. -/
theorem tag_sealRecord (hs : DirtyInLine s) (ha : p.oldLeaf / 64 % 4 = 0) {i : Nat} (hi : i < 16) :
    memByte (sealRecord s p) (p.recPa + 0x20 + i) = 0 := by
  have ht : (pageOf s p).tag = List.replicate 16 0 := if_pos ha
  have hl : i < (pageOf s p).tag.length := by rwa [ht, List.length_replicate]
  rw [sealRecord, memByte_partWrite_ne (fun j hj => by simp at hj; omega) (not_dirtyOver_partWrite hs hl), memByte_partWrite_self hl, ht,
    List.getD_replicate _ hi]

end

/-- What stands where once a park has completed (R125, R126). -/
def Parked (s t : State) (id : Nat) (p : ParkOp) : Prop :=
  let place := memNat s (p.recPa + 8) 2 * 2 ^ 64 + memNat s p.recPa 8
  let attr := p.oldLeaf / 64 % 4
  let holder := (s.frame p.frame).charge
  ∃ page, t.xl.parks.find id = none ∧ t.xl.pool = (if frameLost s p.frame = true then s.xl.pool else s.xl.pool ++ [p.frame]) ∧
    t.xl.poolPages.find place = some page ∧ page.bytes = memBytes s (p.frame * 2 ^ 16) 65536 ∧ page.seq = memNat s (p.recPa + 0x10) 8 ∧
    (∀ k, k ≠ place → t.xl.poolPages.find k = s.xl.poolPages.find k) ∧ memByte t (p.recPa + 0x0B) = 2 ∧
    (attr = 0 → ∀ i < 16, memByte t (p.recPa + 0x20 + i) = 0) ∧ (t.frame p.frame).state = 2 ∧ (t.frame p.frame).bound = false ∧
    (∀ x, s.cx.ctxs.find holder = some x → (t.ctx holder).used = x.used - 1) ∧ (∀ c ∈ t.mm.l1, c.1 % 2 ^ 41 / 512 ≠ p.frame) ∧
    t.rg = s.rg ∧ t.wk = { s.wk with results := t.wk.results }

/-- The frame's lines have been taken and no byte has changed: the rest of the park. -/
theorem parked_finishPark {s u : State} {id : Nat} {p : ParkOp} (hmem : u.mm.mem = s.mm.mem) (hin : DirtyInLine u)
    (hc : Cached (fixFrame s p.frame) u) (ho : outside u = outside (fixFrame s p.frame)) : Parked s (finishPark u id p) id p := by
  have hch : (u.frame p.frame).charge = (s.frame p.frame).charge := hc.charge p.frame
  have hpl : placeOf u p.recPa = memNat s (p.recPa + 8) 2 * 2 ^ 64 + memNat s p.recPa 8 := by
    rw [placeOf, memNat_congr hmem, memNat_congr hmem]
  have hut : tier (sealRecord u p) = tier s := tier_sealRecord.trans hc.tier
  have huo : outside (sealRecord u p) = outside (fixFrame s p.frame) := outside_sealRecord.trans ho
  have hue := state_sealRecord (s := u) (p := p)
  have htag := tag_sealRecord (s := u) (p := p) hin
  rw [finishPark, hch, hpl]
  generalize sealRecord u p = v at hut huo hue htag
  simp only [tier, Prod.mk.injEq] at hut
  obtain ⟨hpool, hparks, hrecalls, hnotes, hpages⟩ := hut
  simp only [outside, Prod.mk.injEq] at huo
  obtain ⟨hrg, hwk, -, -, hcx, hpt⟩ := huo
  have ht := tier_freeFrame (s := v) (id := id) (f := p.frame) (holder := (s.frame p.frame).charge)
    (place := memNat s (p.recPa + 8) 2 * 2 ^ 64 + memNat s p.recPa 8) (page := pageOf u p)
  have ho := outside_freeFrame (s := v) (id := id) (f := p.frame) (holder := (s.frame p.frame).charge)
    (place := memNat s (p.recPa + 8) 2 * 2 ^ 64 + memNat s p.recPa 8) (page := pageOf u p)
  rw [frameLost_congr (s := s) hpt, hpool, hparks, hrecalls, hnotes, hpages] at ht
  simp only [tier, Prod.mk.injEq] at ht
  obtain ⟨htpool, htparks, -, -, htpages⟩ := ht
  simp only [outside, Prod.mk.injEq] at ho
  obtain ⟨htrg, htwk, -⟩ := ho
  refine ⟨pageOf u p, ?_, htpool, ?_, by rw [bytes_pageOf, memBytes_congr hmem], by rw [seq_pageOf, memNat_congr hmem], fun k hk => ?_, ?_,
    fun ha i hi => ?_, frame_freeFrame.1, frame_freeFrame.2, fun x hx => ?_, l1_freeFrame, htrg.trans hrg, ?_⟩
  · rw [htparks, NMap.find_erase_self]
  · rw [htpages, NMap.find_insert_self]
  · rw [htpages, NMap.find_insert_ne _ _ _ _ hk]
  · rw [memByte_freeFrame, hue]
  · rw [memByte_freeFrame, htag ha hi]
  · exact used_freeFrame (by rw [hcx]; exact hx)
  · rw [htwk, dropUsed, State.updCtx_wk, hwk]
    rfl

/-- A park that completes puts its page in the jetty's pool and frees the frame (R125, R126). -/
theorem parkCompletes (s : State) (id : Nat) (p : ParkOp) (hp : s.xl.parks.find id = some p) (hb : frameBusy s p.frame = false)
    (hf : ∀ i < 512, held s (p.frame * 512 + i) = false) (hr : ∀ l ∈ linesOf p.recPa 64, held s l = false)
    (hd : ∀ a, a / 2 ^ 16 = p.frame → ∀ core, ¬DirtyAt s core a) (hw : ∀ c ∈ s.mm.l1, ∀ w ∈ c.2.words, w.1 < 32) :
    ∃ t, exec (.parkComplete id) s = .next t ∧ Parked s t id p := by
  have hin : DirtyInLine (fixFrame s p.frame) := dirtyInLine_of_listed hw
  have hclean : ∀ l ∈ frameLines p.frame, l < 2 ^ 41 → CleanLine (fixFrame s p.frame) l := fun l hl hlt =>
    cleanLine_of_frame (s := s) hin hd hlt (div_of_mem_frameLines hl)
  have hwb := writesBack_takeLines (fixFrame s p.frame) (frameLines p.frame)
  exact ⟨_, (exec_parkComplete id s).trans (execParkComplete_eq hp hb hf hr),
    parked_finishPark (mem_takeLines hclean) (hwb.dirty.dirtyInLine hin) (cached_takeLines ..) hwb.outside⟩

end Sys2Proof.Machine
end

section
/-!
SUPPORT. A recall that completes (R127, R128, R431): a leaf that is no longer the record's, a page that is lost, a page that comes home.
-/
namespace Sys2Proof.Machine

open Say

theorem exec_recallComplete (id : Nat) (how : RecallEnd) (s : State) : exec (.recallComplete id how) s = execRecallComplete id how s := rfl

/-- A leaf is the far leaf of a record. -/
def FarLeafOf (leaf rec_ : Nat) : Prop := ∃ size a w x k, entOf 0 0 leaf = .leaf 3 size a w x (rec_ / 2 ^ 16) k

/-- The page that the jetty returns is the record's (R126, R127). -/
def pageGood (s : State) (r : RecallOp) (how : RecallEnd) (leaf : Nat) (page : FarPage) : Bool :=
  let attr := leaf / 64 % 4
  decide (how = .ok) && (attr = 0 || (page.material = sealMaterial s attr (memNat s (r.recPa + 0x0C) 1) &&
    page.seq = memNat s (r.recPa + 0x10) 8 && page.tag = memBytes s (r.recPa + 0x20) 16))

section
variable {s : State} {id f : Nat} {r : RecallOp} (how : RecallEnd) (hr : s.xl.recalls.find id = some r) (hf : r.frame = some f)
  (hl : ∀ l ∈ linesOf r.recPa 64 ++ linesOf r.leafPa 8, held s l = false)
include hr hf hl

theorem execRecallComplete_other (hn : ¬FarLeafOf (memNat s r.leafPa 8) r.recPa) :
    execRecallComplete id how s = .next (poolPut (s.updXL (fun x => { x with recalls := x.recalls.erase id })) f) := by
  unfold execRecallComplete
  rw [hr]
  dsimp only
  rw [hf]
  dsimp only
  rw [if_neg (by simpa [or_imp, forall_and] using hl), if_pos]
  rw [Bool.not_eq_true']
  split
  next h =>
    refine decide_eq_false fun e => hn ?_
    subst e
    exact ⟨_, _, _, _, _, h⟩
  next => rfl

theorem execRecallComplete_lost (hm : FarLeafOf (memNat s r.leafPa 8) r.recPa)
    (hp : ∀ page, s.xl.poolPages.find (placeOf s r.recPa) = some page → pageGood s r how (memNat s r.leafPa 8) page = false) :
    execRecallComplete id how s = .next (loseRecall s id f r) := by
  obtain ⟨size, a, w, x, k, h⟩ := hm
  unfold execRecallComplete
  rw [hr]
  dsimp only
  rw [hf]
  dsimp only
  rw [if_neg (by simpa [or_imp, forall_and] using hl), if_neg (by rw [h]; simp), ← placeOf]
  split
  next => rfl
  next page hf => rw [← pageGood, hp page hf, if_neg Bool.false_ne_true]

theorem execRecallComplete_home (hm : FarLeafOf (memNat s r.leafPa 8) r.recPa) {page : FarPage}
    (hp : s.xl.poolPages.find (placeOf s r.recPa) = some page) (hg : pageGood s r how (memNat s r.leafPa 8) page = true) :
    execRecallComplete id how s = .next (finishRecall s id f r (memNat s r.leafPa 8) page (placeOf s r.recPa)) := by
  obtain ⟨size, a, w, x, k, h⟩ := hm
  unfold execRecallComplete
  rw [hr]
  dsimp only
  rw [hf]
  dsimp only
  rw [if_neg (by simpa [or_imp, forall_and] using hl), if_neg (by rw [h]; simp), ← placeOf, hp]
  dsimp only
  exact congrArg Host.Outcome.next (if_pos hg)

end

/-! ### A page comes home (R127, R128) -/

theorem natOfBytes_bytesOfNat (n v : Nat) : natOfBytes (bytesOfNat n v) = v % 256 ^ n := by
  induction n generalizing v with
  | zero => simp [bytesOfNat, natOfBytes, Nat.mod_one]
  | succ n ih =>
    have hb : bytesOfNat (n + 1) v = BitVec.ofNat 8 v :: bytesOfNat n (v / 256) := by
      simp [bytesOfNat, List.range_succ_eq_map, Nat.div_div_eq_div_mul, Nat.pow_succ, Nat.mul_comm]
    have hn : natOfBytes (bytesOfNat (n + 1) v) = (BitVec.ofNat 8 v).toNat + 256 * natOfBytes (bytesOfNat n (v / 256)) := by rw [hb]; rfl
    rw [hn, ih, BitVec.toNat_ofNat, Nat.pow_succ' (m := 256), Nat.mod_mul]

/-- Memory spells a number where its bytes stand. -/
theorem memNat_of_bytesOfNat {s : State} {a n v : Nat} (h : ∀ i < n, memByte s (a + i) = (bytesOfNat n v).getD i 0) :
    memNat s a n = v % 256 ^ n := by
  have hb : memBytes s a n = bytesOfNat n v := by
    refine List.ext_getElem (by simp [memBytes, bytesOfNat]) fun i h1 h2 => ?_
    have hi : i < n := by simpa [memBytes] using h1
    simp [memBytes, h i hi, h2]
  rw [memNat, hb, natOfBytes_bytesOfNat]

/-- The page's bytes stand in the frame, of which no L1 and no line of the LLC holds anything. -/
def landPage (s : State) (f : Nat) (page : FarPage) : State :=
  (setMemBytes (discardFrame s f) (f * 2 ^ 16) page.bytes).updMM (fun m => { m with
    hbmPoison := page.poison.map (fun g => f * 1024 + g) ++ m.hbmPoison })

/-- The leaf of a page that is back (R124, R127). -/
def homeLeaf (leaf f key : Nat) : Nat :=
  1 + 2 * 2 + leaf % 2 ^ 12 / 64 * 64 + (if leaf / 2 ^ 10 % 2 = 1 then 0 else 2 ^ 10) + f * 2 ^ 16 + (if leaf / 64 % 4 = 0 then 0 else key * 2 ^ 48)

/-- Leaf and record of a page that is back. -/
def homeEntry (s : State) (r : RecallOp) (new : Nat) : State := partWrite (partWrite s r.leafPa (bytesOfNat 8 new)) (r.recPa + 0x0B) [0]

/-- The frame of a page that is back is charged and bound; the pool holds the page no more. -/
def homeFrame (s : State) (id f charge attr key place : Nat) : State :=
  ((chargeRecalled s f charge).updFrame f (fun x => { x with bound := true, attr := attr, key := if attr = 0 then 0 else key })).updXL
    (fun x => { x with recalls := x.recalls.erase id, poolPages := x.poolPages.erase place })

theorem finishRecall_eq (s : State) (id f : Nat) (r : RecallOp) (leaf : Nat) (page : FarPage) (place : Nat) :
    finishRecall s id f r leaf page place =
      homeFrame (homeEntry (landPage s f page) r (homeLeaf leaf f (memNat s (r.recPa + 0x0C) 1))) id f (memNat s (r.recPa + 0x0E) 2) (leaf / 64 % 4)
        (memNat s (r.recPa + 0x0C) 1) place := rfl

section
variable {s : State} {f : Nat} {page : FarPage}

theorem outside_landPage : outside (landPage s f page) = outside s := outside_setMemBytes (discardFrame s f) _ _

theorem tier_landPage : tier (landPage s f page) = tier s := (cached_setMemBytes (discardFrame s f) (f * 2 ^ 16) page.bytes).tier

theorem memByte_landPage (a : Nat) : memByte (landPage s f page) a =
    if f * 2 ^ 16 ≤ a ∧ a < f * 2 ^ 16 + page.bytes.length then page.bytes.getD (a - f * 2 ^ 16) 0 else memByte s a :=
  memByte_setMemBytes (discardFrame s f) _ _ _

theorem l1_landPage : (landPage s f page).mm.l1 = s.mm.l1.filter (fun c => c.1 % 2 ^ 41 / 512 != f) := l1_setMemBytes (discardFrame s f) _ _

theorem listed_landPage (h : ∀ c ∈ s.mm.l1, ∀ w ∈ c.2.words, w.1 < 32) : ∀ c ∈ (landPage s f page).mm.l1, ∀ w ∈ c.2.words, w.1 < 32 := fun c hc =>
  h c (List.mem_of_mem_filter (l1_landPage ▸ hc))

/-- No L1 holds a dirty word of the frame that the page has come to. -/
theorem not_dirtyOver_landPage (h : ∀ c ∈ s.mm.l1, ∀ w ∈ c.2.words, w.1 < 32) {a : Nat} (ha : a / 2 ^ 16 = f) : ¬DirtyOver (landPage s f page) a :=
  fun hd => by
    obtain ⟨core, e, he, -, w, hw, -, ha'⟩ := dirtyAt_of_dirtyOver hd
    have h32 := listed_landPage h e he w hw
    rw [l1_landPage] at he
    have hf : e.1 % 2 ^ 41 / 512 ≠ f := by simpa using (List.mem_filter.1 he).2
    omega

end

section
variable {s : State} {r : RecallOp} {new : Nat}

theorem outside_homeEntry : outside (homeEntry s r new) = outside s := outside_partWrite.trans outside_partWrite

theorem tier_homeEntry : tier (homeEntry s r new) = tier s := ((cached_partWrite ..).trans (cached_partWrite ..)).tier

theorem memByte_homeEntry_ne {a : Nat} (hl : ∀ i < 8, a ≠ r.leafPa + i) (hr : a ≠ r.recPa + 0x0B) (hd : ¬DirtyOver s a) :
    memByte (homeEntry s r new) a = memByte s a := by
  rw [homeEntry, memByte_partWrite_ne (by simpa using hr) fun h => hd (noMoreDirty_partWrite.dirtyOver h),
    memByte_partWrite_ne (by rwa [bytesOfNat_length]) hd]

theorem state_homeEntry : memByte (homeEntry s r new) (r.recPa + 0x0B) = 0 := memByte_partWrite_self (l := [0]) (i := 0) Nat.one_pos

theorem leaf_homeEntry (hs : DirtyInLine s) (ha : ∀ i < 8, r.leafPa + i ≠ r.recPa + 0x0B) : memNat (homeEntry s r new) r.leafPa 8 = new % 2 ^ 64 := by
  refine memNat_of_bytesOfNat fun i hi => ?_
  have hl : i < (bytesOfNat 8 new).length := by rwa [bytesOfNat_length]
  rw [homeEntry, memByte_partWrite_ne (by simpa using ha i hi) (not_dirtyOver_partWrite hs hl), memByte_partWrite_self hl]

end

section
variable {s : State} {id f charge attr key place : Nat}

/-- The charge is live and no reset is at work on it: the frame goes to it (R428). -/
theorem chargeRecalled_live (hl : s.liveCtx charge = true)
    (hj : ∀ j ∈ s.cx.jobs, j.2.active = true → j.2.ofReset = true → charge ∉ j.2.ctxs) : chargeRecalled s f charge = giveFrame s f charge := by
  have hn : s.cx.jobs.find? (fun j => j.2.active && j.2.ofReset && j.2.ctxs.contains charge) = none := by
    rw [List.find?_eq_none]
    intro j hm
    simpa [and_imp] using hj j hm
  rw [chargeRecalled, hn, hl]
  rfl

theorem frame_giveFrame : ((giveFrame s f charge).frame f).charge = charge ∧ ((giveFrame s f charge).frame f).state = 0 := by
  rw [State.frame, giveFrame, addUsed, State.updCtx_xl]
  simp only [State.updFrame_xl, NMap.get_set_self, and_self]

/-- What a page that is back leaves of the state around its frame. -/
theorem homeFrame_live (hl : s.liveCtx charge = true) (hj : ∀ j ∈ s.cx.jobs, j.2.active = true → j.2.ofReset = true → charge ∉ j.2.ctxs) :
    let t := homeFrame s id f charge attr key place
    t.mm = s.mm ∧ t.rg = s.rg ∧ t.wk = s.wk ∧ t.xl.pool = s.xl.pool ∧ t.xl.recalls = s.xl.recalls.erase id ∧
      t.xl.poolPages = s.xl.poolPages.erase place ∧ t.cx = { s.cx with ctxs := s.cx.ctxs.upd charge (fun c => { c with used := c.used + 1 }) } ∧
      (t.frame f).charge = charge ∧ (t.frame f).state = 0 ∧ (t.frame f).bound = true ∧ (t.frame f).attr = attr := by
  intro t
  have ht : t = ((giveFrame s f charge).updFrame f (fun x => { x with bound := true, attr := attr, key := if attr = 0 then 0 else key })).updXL
      (fun x => { x with recalls := x.recalls.erase id, poolPages := x.poolPages.erase place }) := by
    rw [← chargeRecalled_live hl hj]
    rfl
  have hf : (t.frame f).charge = ((giveFrame s f charge).frame f).charge ∧ (t.frame f).state = ((giveFrame s f charge).frame f).state ∧
      (t.frame f).bound = true ∧ (t.frame f).attr = attr := by
    rw [ht, State.frame, State.updXL_xl]
    simp only [State.updFrame_xl, NMap.get_set_self, and_self]
  obtain ⟨hcharge, hstate, hbound⟩ := hf
  obtain ⟨hgcharge, hgstate⟩ := frame_giveFrame (s := s) (f := f) (charge := charge)
  refine ⟨?_, ?_, ?_, ?_, ?_, ?_, ?_, hcharge.trans hgcharge, hstate.trans hgstate, hbound⟩ <;> rw [ht] <;> rfl

end

/-! ### The ends of a recall (R127) -/

section
variable {s : State} {id f : Nat} {r : RecallOp}

/-- A recall whose leaf names another record gives its frame back, and that is all. -/
theorem poolPut_endedRecall : poolPut (s.updXL (fun x => { x with recalls := x.recalls.erase id })) f =
    { s with xl := { s.xl with recalls := s.xl.recalls.erase id, pool := (if frameLost s f = true then s.xl.pool else s.xl.pool ++ [f]) } } := by
  unfold poolPut
  rw [frameLost_congr (State.updXL_pt ..)]
  cases frameLost s f <;> rfl

/-- A recall that fails gives its frame back and leaves the jetty's pool. -/
theorem loseRecall_ends : (loseRecall s id f r).xl.recalls.find id = none ∧ (frameLost s f = false → f ∈ (loseRecall s id f r).xl.pool) ∧
    (loseRecall s id f r).xl.poolPages = s.xl.poolPages := by
  have h := tier_loseRecall s id f r
  simp only [tier, Prod.mk.injEq] at h
  obtain ⟨hpool, -, hrecalls, -, hpages⟩ := h
  refine ⟨by rw [hrecalls, NMap.find_erase_self], fun hf => ?_, hpages⟩
  rw [hpool, hf, if_neg Bool.false_ne_true]
  exact List.mem_append_right _ List.mem_cons_self

theorem pageGood_of_ne_ok {how : RecallEnd} (h : how ≠ .ok) (leaf : Nat) (page : FarPage) : pageGood s r how leaf page = false := by
  rw [pageGood, decide_eq_false h, Bool.false_and]

theorem pageGood_ok {leaf : Nat} {page : FarPage} (h : leaf / 64 % 4 ≠ 0 →
      page.material = (NMap.get {} s.pt.mkeys (memNat s (r.recPa + 0x0C) 1)).material ∧ page.seq = memNat s (r.recPa + 0x10) 8 ∧
        page.tag = memBytes s (r.recPa + 0x20) 16) : pageGood s r .ok leaf page = true := by
  unfold pageGood
  by_cases ha : leaf / 64 % 4 = 0
  · simp [ha]
  · obtain ⟨hm, hs, ht⟩ := h ha
    simp [ha, sealMaterial, hm, hs, ht]

end

/-- What stands where once a page is back (R127, R128). -/
def Recalled (s t : State) (id f : Nat) (r : RecallOp) (page : FarPage) : Prop :=
  let leaf := memNat s r.leafPa 8
  let place := memNat s (r.recPa + 8) 2 * 2 ^ 64 + memNat s r.recPa 8
  let charge := memNat s (r.recPa + 0x0E) 2
  let key := memNat s (r.recPa + 0x0C) 1
  let attr := leaf / 64 % 4
  t.xl.recalls.find id = none ∧ t.xl.poolPages.find place = none ∧ t.xl.pool = s.xl.pool ∧
    (∀ i < 65536, memByte t (f * 2 ^ 16 + i) = page.bytes.getD i 0) ∧ memByte t (r.recPa + 0x0B) = 0 ∧
    memNat t r.leafPa 8 = (1 + 2 * 2 + leaf % 2 ^ 12 / 64 * 64 + (if leaf / 2 ^ 10 % 2 = 1 then 0 else 2 ^ 10) + f * 2 ^ 16 +
      (if attr = 0 then 0 else key * 2 ^ 48)) % 2 ^ 64 ∧
    (t.frame f).charge = charge ∧ (t.frame f).state = 0 ∧ (t.frame f).bound = true ∧ (t.frame f).attr = attr ∧
    (∀ x, s.cx.ctxs.find charge = some x → (t.ctx charge).used = x.used + 1) ∧ t.rg = s.rg ∧ t.wk = s.wk

theorem recalled_finishRecall {s : State} {id f : Nat} {r : RecallOp} {page : FarPage} (hlen : page.bytes.length = 65536)
    (hlive : s.liveCtx (memNat s (r.recPa + 0x0E) 2) = true)
    (hj : ∀ j ∈ s.cx.jobs, j.2.active = true → j.2.ofReset = true → memNat s (r.recPa + 0x0E) 2 ∉ j.2.ctxs)
    (hw : ∀ c ∈ s.mm.l1, ∀ w ∈ c.2.words, w.1 < 32) (ha : ∀ i < 8, (r.leafPa + i) / 2 ^ 16 ≠ f ∧ r.leafPa + i ≠ r.recPa + 0x0B)
    (hr : (r.recPa + 0x0B) / 2 ^ 16 ≠ f) :
    Recalled s (finishRecall s id f r (memNat s r.leafPa 8) page (placeOf s r.recPa)) id f r page := by
  rw [finishRecall_eq]
  have hbytes : ∀ i < 65536, memByte (homeEntry (landPage s f page) r (homeLeaf (memNat s r.leafPa 8) f (memNat s (r.recPa + 0x0C) 1)))
      (f * 2 ^ 16 + i) = page.bytes.getD i 0 := fun i hi => by
    rw [memByte_homeEntry_ne (fun j hj e => (ha j hj).1 (by omega)) (by omega) (not_dirtyOver_landPage hw (by omega)), memByte_landPage,
      if_pos (by omega), Nat.add_sub_cancel_left]
  have hstate := state_homeEntry (s := landPage s f page) (r := r) (new := homeLeaf (memNat s r.leafPa 8) f (memNat s (r.recPa + 0x0C) 1))
  have hleaf := leaf_homeEntry (s := landPage s f page) (r := r) (new := homeLeaf (memNat s r.leafPa 8) f (memNat s (r.recPa + 0x0C) 1))
    (dirtyInLine_of_listed (listed_landPage hw)) fun i hi => (ha i hi).2
  have ho := (outside_homeEntry (r := r) (new := homeLeaf (memNat s r.leafPa 8) f (memNat s (r.recPa + 0x0C) 1))).trans
    (outside_landPage (s := s) (f := f) (page := page))
  have ht := (tier_homeEntry (r := r) (new := homeLeaf (memNat s r.leafPa 8) f (memNat s (r.recPa + 0x0C) 1))).trans
    (tier_landPage (s := s) (f := f) (page := page))
  generalize homeEntry (landPage s f page) r (homeLeaf (memNat s r.leafPa 8) f (memNat s (r.recPa + 0x0C) 1)) = u at hbytes hstate hleaf ho ht
  simp only [outside, Prod.mk.injEq] at ho
  simp only [tier, Prod.mk.injEq] at ht
  obtain ⟨hrg, hwk, -, -, hcx, -⟩ := ho
  obtain ⟨hpool, -, -, -, -⟩ := ht
  obtain ⟨hmm, hrg', hwk', hpool', hrec, hpages, hcx', hframe⟩ := homeFrame_live (s := u) (id := id) (f := f) (attr := memNat s r.leafPa 8 / 64 % 4)
    (key := memNat s (r.recPa + 0x0C) 1) (place := placeOf s r.recPa) (charge := memNat s (r.recPa + 0x0E) 2)
    (by rw [State.liveCtx, hcx]; exact hlive) (by rw [hcx]; exact hj)
  generalize homeFrame u id f _ _ _ _ = t at hmm hrg' hwk' hpool' hrec hpages hcx' hframe
  obtain ⟨hcharge, hst, hbound, hattr⟩ := hframe
  refine ⟨?_, ?_, ?_, fun i hi => ?_, ?_, ?_, hcharge, hst, hbound, hattr, fun x hx => ?_, hrg'.trans hrg, hwk'.trans hwk⟩
  · rw [hrec, NMap.find_erase_self]
  · rw [hpages, placeOf, NMap.find_erase_self]
  · rw [hpool', hpool]
  · rw [memByte, hmm, ← memByte, hbytes i hi]
  · rw [memByte, hmm, ← memByte, hstate]
  · rw [memNat_congr (congrArg MemSt.mem hmm), hleaf, homeLeaf]
  · rw [State.ctx, hcx', hcx]
    simp only [NMap.find_upd_self, hx, Option.map_some, Option.getD_some]

section
variable (s : State) (id f : Nat) (r : RecallOp) (how : RecallEnd) (hr : s.xl.recalls.find id = some r) (hf : r.frame = some f)
  (hl : ∀ l ∈ linesOf r.recPa 64 ++ linesOf r.leafPa 8, held s l = false)
include hr hf hl

/-- The leaf is no longer the record's: system software has overwritten it (R127). -/
theorem recallComplete_other (hn : ¬FarLeafOf (memNat s r.leafPa 8) r.recPa) : exec (.recallComplete id how) s =
    .next { s with xl := { s.xl with recalls := s.xl.recalls.erase id,
                                     pool := (if frameLost s f = true then s.xl.pool else s.xl.pool ++ [f]) } } := by
  rw [exec_recallComplete, execRecallComplete_other how hr hf hl hn, poolPut_endedRecall]

/-- The jetty has no page to give (R127). -/
theorem recallComplete_failed (hm : FarLeafOf (memNat s r.leafPa 8) r.recPa) (hh : how ≠ .ok) :
    ∃ t, exec (.recallComplete id how) s = .next t ∧ t.xl.recalls.find id = none ∧ (frameLost s f = false → f ∈ t.xl.pool) ∧
      t.xl.poolPages = s.xl.poolPages :=
  ⟨_, (exec_recallComplete id how s).trans (execRecallComplete_lost how hr hf hl hm fun page _ => pageGood_of_ne_ok hh _ page), loseRecall_ends⟩

/-- The page comes home (R127, R128). -/
theorem recallComplete_ok (hm : FarLeafOf (memNat s r.leafPa 8) r.recPa) {page : FarPage}
    (hp : s.xl.poolPages.find (memNat s (r.recPa + 8) 2 * 2 ^ 64 + memNat s r.recPa 8) = some page) (hlen : page.bytes.length = 65536)
    (hg : memNat s r.leafPa 8 / 64 % 4 ≠ 0 → page.material = (NMap.get {} s.pt.mkeys (memNat s (r.recPa + 0x0C) 1)).material ∧
      page.seq = memNat s (r.recPa + 0x10) 8 ∧ page.tag = memBytes s (r.recPa + 0x20) 16)
    (hlive : s.liveCtx (memNat s (r.recPa + 0x0E) 2) = true)
    (hj : ∀ j ∈ s.cx.jobs, j.2.active = true → j.2.ofReset = true → memNat s (r.recPa + 0x0E) 2 ∉ j.2.ctxs)
    (hw : ∀ c ∈ s.mm.l1, ∀ w ∈ c.2.words, w.1 < 32) (ha : ∀ i < 8, (r.leafPa + i) / 2 ^ 16 ≠ f ∧ r.leafPa + i ≠ r.recPa + 0x0B)
    (hx : (r.recPa + 0x0B) / 2 ^ 16 ≠ f) : ∃ t, exec (.recallComplete id .ok) s = .next t ∧ Recalled s t id f r page :=
  ⟨_, (exec_recallComplete id .ok s).trans (execRecallComplete_home .ok hr hf hl hm hp (pageGood_ok hg)),
    recalled_finishRecall hlen hlive hj hw ha hx⟩

end

end Sys2Proof.Machine
end

section
/-!
SUPPORT. An epoch (R129, R133, R134): heat is halved, parks ahead of demand begin.
-/
namespace Sys2Proof.Machine

open Say

theorem exec_migrationEpoch (queued : Nat) (s : State) : exec (.migrationEpoch queued) s = execMigrationEpoch queued s := rfl

/-! ### Heat (R129) -/

theorem NMap.get_of_above {α : Type} {d : α} {m : NMap α} {lo k : Nat} (h : NMap.Above lo m) (hk : k < lo) : NMap.get d m k = d := by
  rcases NMap.get_mem d m k with hn | hm
  · exact hn
  · exact absurd (h _ hm) (Nat.not_le_of_lt hk)

/-- A change of every record of a map in canonical form that keeps the default: reading gives the record changed. -/
theorem NMap.get_map_filter {α : Type} [DecidableEq α] {d : α} {g : α → α} (hd : g d = d) {m : NMap α} (h : NMap.wf d m = true) (k : Nat) :
    NMap.get d ((m.map (fun c => (c.1, g c.2))).filter (fun c => c.2 != d)) k = g (NMap.get d m k) := by
  induction m with
  | nil => exact hd.symm
  | cons c m ih =>
    obtain ⟨a, v⟩ := c
    obtain ⟨-, ha, hm⟩ := (NMap.wf_cons d a v m).1 h
    have hk := ih hm
    rw [List.map_cons, List.filter_cons]
    by_cases hak : a = k
    · subst hak
      rw [NMap.get_of_above ha (Nat.lt_succ_self a), hd] at hk
      simp only [NMap.get, if_true]
      split
      next => simp only [NMap.get, if_true]
      next hv => rw [hk, eq_comm]; simpa using hv
    · simp only [NMap.get, if_neg hak]
      split
      next => simp only [NMap.get, if_neg hak, hk]
      next => exact hk

theorem frame_coolFrames {s : State} (h : NMap.wf {} s.xl.frames = true) (f : Nat) :
    (coolFrames s).frame f = { s.frame f with heat := (s.frame f).heat / 2 } :=
  NMap.get_map_filter (g := fun x : Frame => { x with heat := x.heat / 2 }) rfl h f

/-! ### Epochs (R133, R134) -/

section
variable (s : State) (queued : Nat)

theorem migrationEpoch_off (h : s.pt.migCtl % 2 = 0) : exec (.migrationEpoch queued) s = .next s := by
  rw [exec_migrationEpoch, execMigrationEpoch]
  exact congrArg Host.Outcome.next (if_pos h)

theorem migrationEpoch_between (hon : s.pt.migCtl % 2 = 1) (hlo : s.pt.migFreeLow ≤ s.xl.pool.length)
    (hhi : s.xl.pool.length ≤ s.pt.migFreeHigh ∨ s.pt.migCtl / 2 % 2 = 0) : exec (.migrationEpoch queued) s = .next (coolFrames s) := by
  rw [exec_migrationEpoch, execMigrationEpoch]
  dsimp only
  rw [if_neg (by omega), if_neg (by omega), if_neg (by omega)]

/-- The pool is below its lower mark: parks ahead of demand begin. -/
theorem migrationEpoch_low (hon : s.pt.migCtl % 2 = 1) (hlo : s.xl.pool.length < s.pt.migFreeLow) (hm : s.pt.migFreeLow < s.pt.migFreeHigh) :
    exec (.migrationEpoch queued) s = .next (coolFrames (parkAhead (min s.pt.migBatch ((s.pt.migQDepth - queued) / 1280)) s)) := by
  rw [exec_migrationEpoch, execMigrationEpoch]
  dsimp only
  rw [if_neg (by omega), if_pos hlo, if_pos hm]

/-- The pool is above its upper mark: noted pages are recalled. -/
theorem migrationEpoch_high (hon : s.pt.migCtl % 2 = 1) (hlo : s.pt.migFreeLow ≤ s.xl.pool.length) (hhi : s.pt.migFreeHigh < s.xl.pool.length)
    (hn : s.pt.migCtl / 2 % 2 = 1) :
    exec (.migrationEpoch queued) s =
      .next (coolFrames (recallNoted s.xl.farNotes (min s.pt.migBatch ((s.pt.migQDepth - queued) / 1280)) s)) := by
  rw [exec_migrationEpoch, execMigrationEpoch]
  dsimp only
  rw [if_neg (by omega), if_neg (by omega), if_pos ⟨hhi, hn⟩]

end

/-! ### Parks that begin (R125, R129) -/

/-- Parks have begun besides: the parks with old identities stand. -/
structure ParksKept (s t : State) : Prop where
  parks : ∀ y ∈ s.xl.parks, y.1 < s.md.nextId → y ∈ t.xl.parks
  later : s.md.nextId ≤ t.md.nextId

theorem ParksKept.refl (s : State) : ParksKept s s := ⟨fun _ h _ => h, Nat.le_refl _⟩

theorem ParksKept.trans {s t u : State} (h : ParksKept s t) (h' : ParksKept t u) : ParksKept s u :=
  ⟨fun y hy hn => h'.parks y (h.parks y hy hn) (Nat.lt_of_lt_of_le hn h.later), h.later.trans h'.later⟩

theorem Cached.parksKept {s t : State} (h : Cached s t) : ParksKept s t := by
  have hp : t.xl.parks = s.xl.parks := congrArg (fun x => x.2.1) h.tier
  exact ⟨fun y hy _ => by rw [hp]; exact hy, h.later⟩

end Sys2Proof.Machine
end

section
/-!
SUPPORT. Parks that begin (R125, R129): the leaf becomes a far page, and a park of a new identity stands.
-/
namespace Sys2Proof.Machine

open Say

theorem cached_splitLeaf (s : State) (x : PageLeaf) : Cached s (splitLeaf s x) := by
  unfold splitLeaf
  split
  · refine .foldl (fun s i _ => ?_) s
    dsimp only
    split
    · exact cached_partWrite ..
    · exact .refl s
  · exact .refl s

theorem cached_dropXl (s : State) (target lo hi : Nat) (all : Bool) : Cached s (dropXl s target lo hi all) := ⟨rfl, rfl, Nat.le_refl _⟩

theorem cached_poolPlace (s : State) (jetty : Nat) : Cached s (poolPlace s jetty).2 := by
  unfold poolPlace
  dsimp only
  split <;> exact cached_pick s (2 ^ 40)

/-- Leaf and record of a page on its way to a jetty (R125 steps 1 to 3): the entries' lines have been taken. -/
def sendLeaf (s : State) (x : PageLeaf) : State :=
  let blk := Config.farBlock (x.va / 2 ^ 26) % (hbmTop / 2 ^ 16)
  let rec_ := blk * 2 ^ 16 + 64 * (x.va / 2 ^ 16 % 1024)
  let s := splitLeaf s x
  let old := memNat s x.pa 8
  let (port, s) := s.pick 16
  let jetty := portJetty s port
  let (place, s) := poolPlace s jetty
  let seq := (memNat s (rec_ + 0x10) 8 + 1) % 2 ^ 64
  let image := bytesOfNat 8 (place * 2 ^ 16) ++ bytesOfNat 2 jetty ++ bytesOfNat 1 port ++ bytesOfNat 1 1 ++
    bytesOfNat 1 (old / 2 ^ 48) ++ bytesOfNat 1 0 ++ bytesOfNat 2 (s.frame x.frame).charge ++ bytesOfNat 8 seq ++ bytesOfNat 40 0
  let s := partWrite s rec_ image
  let far := 1 + 3 * 2 + old % 2 ^ 12 / 64 * 64 + blk * 2 ^ 16
  dropXl (partWrite s x.pa (bytesOfNat 8 far)) 0 x.va (x.va + 2 ^ 16) false

/-- A park of a new identity. -/
def beginPark (s : State) (op : ParkOp) : State := s.fresh.2.updXL (fun y => { y with parks := NMap.insert y.parks s.fresh.1 op })

/-- The record of the far page of a leaf (R124). -/
def farRecord (x : PageLeaf) : Nat := Config.farBlock (x.va / 2 ^ 26) % (hbmTop / 2 ^ 16) * 2 ^ 16 + 64 * (x.va / 2 ^ 16 % 1024)

/-- The park of a leaf. -/
def parkOf (s : State) (x : PageLeaf) (forRecall : Option Nat) : ParkOp :=
  { leafPa := x.pa, recPa := farRecord x, oldLeaf := memNat (splitLeaf s x) x.pa 8, va := x.va, frame := x.frame, forRecall := forRecall }

theorem startPark_eq (s : State) (x : PageLeaf) (forRecall : Option Nat) : startPark s x forRecall =
    if (parkLines x ++ linesOf (farRecord x) 64).any (held s) then none
    else if memNat ((parkLines x).foldl takeLine s) x.pa 8 ≠ x.ent then some ((parkLines x).foldl takeLine s)
    else some (beginPark (sendLeaf ((parkLines x).foldl takeLine s) x) (parkOf ((parkLines x).foldl takeLine s) x forRecall)) := rfl

theorem cached_sendLeaf (s : State) (x : PageLeaf) : Cached s (sendLeaf s x) := by
  unfold sendLeaf
  dsimp only
  exact (((((cached_splitLeaf s x).trans (cached_pick ..)).trans (cached_poolPlace ..)).trans (cached_partWrite ..)).trans (cached_partWrite ..)).trans
    (cached_dropXl ..)

theorem parksKept_beginPark (s : State) (op : ParkOp) : ParksKept s (beginPark s op) := by
  refine ⟨fun y hy hn => NMap.mem_insert_of_ne hy fun e => ?_, nextId_fresh s⟩
  have : s.md.nextId ≤ s.fresh.1 := Nat.le_max_left ..
  omega

theorem parksKept_startPark {s t : State} {x : PageLeaf} {forRecall : Option Nat} (h : startPark s x forRecall = some t) : ParksKept s t := by
  have ht := cached_takeLines s (parkLines x)
  rw [startPark_eq] at h
  split at h
  next => cases h
  next =>
    split at h
    next =>
      cases h
      exact ht.parksKept
    next =>
      cases h
      exact (ht.trans (cached_sendLeaf ..)).parksKept.trans (parksKept_beginPark ..)

/-- A park begins where no engine holds a line and the leaf stands as it was chosen. -/
theorem startPark_begins {s : State} {x : PageLeaf} (forRecall : Option Nat) (hh : ∀ l ∈ parkLines x ++ linesOf (farRecord x) 64, held s l = false)
    (he : memNat ((parkLines x).foldl takeLine s) x.pa 8 = x.ent) : ∃ t, startPark s x forRecall = some t ∧
    ∃ y ∈ t.xl.parks, y.1 < t.md.nextId ∧ y.2.leafPa = x.pa ∧ y.2.frame = x.frame ∧ y.2.va = x.va := by
  have hn : ¬(parkLines x ++ linesOf (farRecord x) 64).any (held s) = true := by
    simpa [or_imp, forall_and] using hh
  rw [startPark_eq, if_neg hn, if_neg (not_not_intro he)]
  generalize sendLeaf _ x = u
  exact ⟨_, rfl, (u.fresh.1, _), NMap.mem_of_find (NMap.find_insert_self ..), Nat.lt_succ_self _, rfl, rfl, rfl⟩

theorem parksKept_parkAhead (n : Nat) (s : State) : ParksKept s (parkAhead n s) := by
  induction n generalizing s with
  | zero => exact .refl s
  | succ n ih =>
    unfold parkAhead
    split
    · split
      next h => exact (parksKept_startPark h).trans (ih _)
      next => exact .refl s
    · exact .refl s

/-- The first of the parks ahead of demand stands at the end of the epoch. -/
theorem parkAhead_begins {s t : State} {n : Nat} {v : PageLeaf} (hn : 1 ≤ n) (hv : victimFor s none = some v) (ht : startPark s v none = some t) {y : Nat × ParkOp}
    (hy : y ∈ t.xl.parks) (hl : y.1 < t.md.nextId) : y ∈ (parkAhead n s).xl.parks := by
  obtain ⟨n, rfl⟩ := Nat.exists_eq_add_of_le' hn
  rw [parkAhead, hv]
  dsimp only
  rw [ht]
  exact (parksKept_parkAhead n t).parks y hy hl

/-! ### The victim (R129) -/

theorem mem_of_coldest {s : State} {l : List PageLeaf} {x : PageLeaf} (h : coldest s l = some x) : x ∈ l := by
  induction l generalizing x with
  | nil => cases h
  | cons y l ih =>
    unfold coldest at h
    split at h
    next =>
      cases h
      exact List.mem_cons_self
    next z hz =>
      dsimp only at h
      split at h
      next =>
        cases h
        exact List.mem_cons_self
      next =>
        cases h
        exact List.mem_cons_of_mem _ (ih hz)

theorem mem_of_victimFor {s : State} {x : PageLeaf} (h : victimFor s none = some x) : x ∈ parkable s := by
  simp only [victimFor, Option.map_none, Option.getD_none, Bool.false_eq_true, if_false] at h
  split at h
  · exact List.mem_of_mem_filter (mem_of_coldest h)
  · exact mem_of_coldest h

/-- A leaf of the root's tables is the entry that memory holds at its address. -/
theorem ent_of_mem_leavesOf {s : State} {va t0 : Nat} {x : PageLeaf} (h : x ∈ leavesOf s va t0) : x.ent = memNat s x.pa 8 := by
  obtain ⟨e, he, hx⟩ := List.mem_filterMap.1 h
  obtain ⟨i, -, rfl⟩ := List.mem_map.1 he
  dsimp only at hx
  split at hx
  · cases hx
    rfl
  · cases hx

theorem ent_of_mem_pageLeaves {s : State} {x : PageLeaf} (h : x ∈ pageLeaves s) : x.ent = memNat s x.pa 8 := by
  unfold pageLeaves at h
  dsimp only at h
  split at h
  · cases h
  · obtain ⟨e2, -, h⟩ := List.mem_flatMap.1 h
    split at h
    · obtain ⟨e1, -, h⟩ := List.mem_flatMap.1 h
      split at h
      · exact ent_of_mem_leavesOf h
      · cases h
    · cases h

theorem memNat_takeLines {s : State} {pa n : Nat} (ls : List Nat) (h : ∀ i < n, ∀ core, ¬DirtyAt s core (pa + i)) :
    memNat (ls.foldl takeLine s) pa n = memNat s pa n := by
  have hb : memBytes (ls.foldl takeLine s) pa n = memBytes s pa n := List.map_congr_left fun i hi =>
    (writesBack_takeLines s ls).mem _ fun hd => by
      obtain ⟨core, hc⟩ := dirtyAt_of_dirtyOver hd
      exact h i (List.mem_range.1 hi) core hc
  rw [memNat, hb, memNat]

/-- The pool is below its lower mark: the park of the victim of R129 has begun when the epoch ends. -/
theorem epochParks (s : State) (queued : Nat) (hon : s.pt.migCtl % 2 = 1) (hb : 1 ≤ s.pt.migBatch) (hq : queued + 1280 ≤ s.pt.migQDepth)
    (v : PageLeaf) (hlo : s.xl.pool.length < s.pt.migFreeLow) (hm : s.pt.migFreeLow < s.pt.migFreeHigh) (hv : victimFor s none = some v)
    (hh : ∀ l ∈ parkLines v ++ linesOf (farRecord v) 64, held s l = false) (hd : ∀ i < 8, ∀ core, ¬DirtyAt s core (v.pa + i)) :
    ∃ t, exec (.migrationEpoch queued) s = .next t ∧ ∃ y ∈ t.xl.parks, y.2.leafPa = v.pa ∧ y.2.frame = v.frame ∧ y.2.va = v.va := by
  have hn : 1 ≤ min s.pt.migBatch ((s.pt.migQDepth - queued) / 1280) := Nat.le_min.2 ⟨hb, by omega⟩
  have hent : v.ent = memNat s v.pa 8 := ent_of_mem_pageLeaves (List.mem_of_mem_filter (mem_of_victimFor hv))
  obtain ⟨t, ht, y, hy, hid, hleaf⟩ := startPark_begins none hh ((memNat_takeLines _ hd).trans hent.symm)
  exact ⟨_, migrationEpoch_low s queued hon hlo hm, y, parkAhead_begins hn hv ht hy hid, hleaf⟩

end Sys2Proof.Machine
end

section
/-!
SUPPORT. What a walk of the tables does to memory (R98, R99): the A bit of entries at 8-byte addresses, and nothing of the far tier.
-/
namespace Sys2Proof.Machine

open Say

/-! ### The A bit of an entry (R95, R98) -/

theorem natOfBytes_lt (l : List Byte) : natOfBytes l < 256 ^ l.length := by
  induction l with
  | nil => exact Nat.one_pos
  | cons b l ih =>
    have hb := b.isLt
    have hn : natOfBytes (b :: l) = b.toNat + 256 * natOfBytes l := rfl
    rw [hn, List.length_cons, Nat.pow_succ']
    omega

theorem memNat_lt (s : State) (a n : Nat) : memNat s a n < 256 ^ n := by
  have h := natOfBytes_lt (memBytes s a n)
  rwa [memBytes, List.length_map, List.length_range] at h

/-- The A bit lies in no other field of an entry. -/
theorem field_or_a {e k m : Nat} (h : 0x400 / 2 ^ k % 2 ^ m = 0) : (e ||| 0x400) / 2 ^ k % 2 ^ m = e / 2 ^ k % 2 ^ m := by
  rw [Nat.or_div_two_pow, Nat.or_mod_two_pow, h, Nat.or_zero]

theorem top_or_a {e k : Nat} (h : 0x400 / 2 ^ k = 0) : (e ||| 0x400) / 2 ^ k = e / 2 ^ k := by
  rw [Nat.or_div_two_pow, h, Nat.or_zero]

/-- What entries say is in form: a table stands at a multiple of 64 KiB, a leaf has its own TYPE and at least 64 KiB. -/
def EntInForm (e : Nat) : Ent → Prop
  | .invalid | .bad => True
  | .table t => t % 8 = 0
  | .leaf ty size _ _ _ _ _ => ty = e / 2 % 8 ∧ ty ≠ 1 ∧ 3 ≤ size

theorem entInForm_ite {e : Nat} {c : Prop} [Decidable c] {a b : Ent} (ha : c → EntInForm e a) (hb : ¬c → EntInForm e b) :
    EntInForm e (if c then a else b) := by
  split
  next h => exact ha h
  next h => exact hb h

theorem entInForm_entOf (stage level e : Nat) : EntInForm e (entOf stage level e) := by
  have htable : e / 2 ^ 16 % 2 ^ 32 * 2 ^ 16 % 8 = 0 := by omega
  have hsize : 3 ≤ if e / 16 % 4 = 0 then 16 else if e / 16 % 4 = 1 then 21 else 29 := by
    split
    next => decide
    next => split <;> decide
  unfold entOf
  refine entInForm_ite (fun _ => trivial) fun _ => entInForm_ite (fun _ => trivial) fun _ => entInForm_ite (fun _ => ?_) fun hty => ?_
  · exact entInForm_ite (fun _ => trivial) fun _ => entInForm_ite (fun _ => trivial) fun _ => htable
  · exact entInForm_ite (fun _ => trivial) fun _ => entInForm_ite (fun _ => trivial) fun _ => entInForm_ite (fun _ => trivial) fun _ =>
      entInForm_ite (fun _ => trivial) fun _ => entInForm_ite (fun _ => ⟨rfl, hty, hsize⟩) fun _ => trivial

theorem leaf_fields {stage level e ty size attr fr key : Nat} {w x : Bool} (h : entOf stage level e = .leaf ty size attr w x fr key) :
    ty = e / 2 % 8 ∧ ty ≠ 1 ∧ 3 ≤ size := by
  have hf := entInForm_entOf stage level e
  rwa [h] at hf

theorem table_aligned {stage level e t : Nat} (h : entOf stage level e = .table t) : t % 8 = 0 := by
  have hf := entInForm_entOf stage level e
  rwa [h] at hf

/-- A far page leaf stays one when its A bit is set. -/
theorem entOf_far_or_a {e size attr fr key : Nat} {w x : Bool} (h : entOf 0 0 e = .leaf 3 size attr w x fr key) :
    entOf 0 0 (e ||| 0x400) = .leaf 3 size attr w x fr key := by
  have hty : e / 2 % 8 ≠ 1 := (leaf_fields h).1 ▸ by decide
  rw [← h]
  have h1 : (e ||| 0x400) / 2 % 8 = e / 2 % 8 := field_or_a (k := 1) (m := 3) (by norm_num)
  have h2 : (e ||| 0x400) / 16 % 4 = e / 16 % 4 := field_or_a (k := 4) (m := 2) (by norm_num)
  have h3 : (e ||| 0x400) / 64 % 4 = e / 64 % 4 := field_or_a (k := 6) (m := 2) (by norm_num)
  have h4 : (e ||| 0x400) / 256 % 2 = e / 256 % 2 := field_or_a (k := 8) (m := 1) (by norm_num)
  have h5 : (e ||| 0x400) / 512 % 2 = e / 512 % 2 := field_or_a (k := 9) (m := 1) (by norm_num)
  have h6 : (e ||| 0x400) / 2 ^ 16 % 2 ^ 32 = e / 2 ^ 16 % 2 ^ 32 := field_or_a (by norm_num)
  have h7 : (e ||| 0x400) / 2 ^ 48 % 2 ^ 8 = e / 2 ^ 48 % 2 ^ 8 := field_or_a (by norm_num)
  have h8 : (e ||| 0x400) % 2 = e % 2 := by simpa using field_or_a (e := e) (k := 0) (m := 1) (by norm_num)
  have h9 : (e ||| 0x400) / 2 ^ 12 % 16 = e / 2 ^ 12 % 16 := field_or_a (k := 12) (m := 4) (by norm_num)
  have h10 : (e ||| 0x400) / 2 ^ 56 = e / 2 ^ 56 := top_or_a (by norm_num)
  unfold entOf at h ⊢
  dsimp only at h ⊢
  rw [h1, h2, h3, h4, h5, h6, h7, h8, h9, h10]
  rw [if_neg hty, if_neg hty]

/-! ### Marks (R98) -/

/-- Entries have been marked: the far tier stands, and of the numbers at 8-byte addresses some have their A bit set. -/
structure Marked (s t : State) : Prop where
  tier : tier t = tier s
  entries : ∀ a, a % 8 = 0 → memNat t a 8 = memNat s a 8 ∨ memNat t a 8 = memNat s a 8 ||| 0x400

theorem Marked.of_mem {s t : State} (ht : Machine.tier t = Machine.tier s) (hm : t.mm.mem = s.mm.mem) : Marked s t :=
  ⟨ht, fun a _ => .inl (memNat_congr hm a 8)⟩

theorem Marked.refl (s : State) : Marked s s := .of_mem rfl rfl

theorem Marked.trans {s t u : State} (h : Marked s t) (h' : Marked t u) : Marked s u := by
  refine ⟨h'.tier.trans h.tier, fun a ha => ?_⟩
  rcases h.entries a ha with e | e <;> rcases h'.entries a ha with e' | e'
  · exact .inl (e'.trans e)
  · exact .inr (by rw [e', e])
  · exact .inr (e'.trans e)
  · exact .inr (by rw [e', e, Nat.or_assoc, Nat.or_self])

theorem marked_llcEnsure (s : State) (line : Nat) : Marked s (llcEnsure s line) :=
  .of_mem (cached_llcEnsure s line).tier (mem_of_beside (beside_llcEnsure s line))

/-- The owner of a word is sent a drop for it. -/
def tellOwner (s : State) (line i : Nat) : State :=
  match (s.mm.llc.find line).bind (fun l => l.owners.find i) with
  | some c => sendDrop s c line [i]
  | none => s

theorem tellOwner_keeps (s : State) (line i : Nat) : tier (tellOwner s line i) = tier s ∧ (tellOwner s line i).mm.mem = s.mm.mem := by
  unfold tellOwner
  split
  · exact ⟨(cached_sendDrop ..).tier, mem_of_beside (beside_sendDrop ..)⟩
  · exact ⟨rfl, rfl⟩

/-- Bits are set in an entry: its bytes are those of the number with the bits, or nothing changes. -/
theorem orEntry_stages (s : State) (pa bits : Nat) : orEntry s pa bits = s ∨ ∃ u, tier u = tier s ∧ u.mm.mem = s.mm.mem ∧
    tier (orEntry s pa bits) = tier (setMemBytes u pa (bytesOfNat 8 (memNat s pa 8 ||| bits))) ∧
    (orEntry s pa bits).mm.mem = (setMemBytes u pa (bytesOfNat 8 (memNat s pa 8 ||| bits))).mm.mem := by
  unfold orEntry
  dsimp only
  split
  · exact .inl rfl
  · obtain ⟨ht, hm⟩ := tellOwner_keeps (llcEnsure s (pa / 128)) (pa / 128) (pa % 128 / 4)
    exact .inr ⟨tellOwner (llcEnsure s (pa / 128)) (pa / 128) (pa % 128 / 4), ht.trans (cached_llcEnsure ..).tier,
      hm.trans (mem_of_beside (beside_llcEnsure ..)), rfl, rfl⟩

theorem marked_orEntry (s : State) {pa : Nat} (hp : pa % 8 = 0) : Marked s (orEntry s pa 0x400) := by
  rcases orEntry_stages s pa 0x400 with h | ⟨u, hut, hum, ht, hm⟩
  · rw [h]
    exact .refl s
  · refine ⟨ht.trans ((cached_setMemBytes ..).tier.trans hut), fun a ha => ?_⟩
    rw [memNat_congr hm]
    by_cases he : a = pa
    · subst he
      have hlt : memNat s a 8 ||| 0x400 < 256 ^ 8 := Nat.or_lt_two_pow (n := 64) (memNat_lt s a 8) (by norm_num)
      refine .inr ((memNat_of_bytesOfNat fun i hi => ?_).trans (Nat.mod_eq_of_lt hlt))
      rw [memByte_setMemBytes, bytesOfNat_length, if_pos (by omega), Nat.add_sub_cancel_left]
    · have hb : memBytes (setMemBytes u pa (bytesOfNat 8 (memNat s pa 8 ||| 0x400))) a 8 = memBytes s a 8 := by
        refine List.map_congr_left fun i hi => ?_
        have hi8 := List.mem_range.1 hi
        rw [memByte_setMemBytes, bytesOfNat_length, if_neg (by omega), memByte_congr hum]
      exact .inl (by rw [memNat, hb, memNat])

theorem marked_markLeaves (s : State) {leaves : List Nat} (h : ∀ l ∈ leaves, l % 8 = 0) : Marked s (markLeaves s leaves false) :=
  List.foldlRecOn (motive := fun t => Marked s t) leaves _ (.refl s) fun t ht l hl => ht.trans (marked_orEntry t (h l hl))

/-! ### The walk (R94 to R99, R103) -/

/-- What a result of a walk names stands at a multiple of 8: its entry, and its output where the address does. -/
def Aligned (addr : Nat) : XRes → Prop
  | .ok t => addr % 8 = 0 → t.pa % 8 = 0
  | .far leaf _ => leaf % 8 = 0
  | .fail _ | .busy => True

/-- A walk with what it has gathered: entries marked, and all it names at multiples of 8. -/
structure WalkOk (addr : Nat) (acc : WAcc) (r : XRes × WAcc) : Prop where
  marked : Marked acc.s r.2.s
  leaves : (∀ l ∈ acc.leaves, l % 8 = 0) → ∀ l ∈ r.2.leaves, l % 8 = 0
  aligned : Aligned addr r.1

/-- Translating in the stages below is such a walk. -/
def WalksOk (tr : AccKind → Nat → WAcc → XRes × WAcc) : Prop := ∀ k a acc, WalkOk a acc (tr k a acc)

section
variable {tr : AccKind → Nat → WAcc → XRes × WAcc} {id stage level addr ea epa : Nat} {acc : WAcc}

/-- An entry has been read. -/
structure ReadOk (ea : Nat) (acc : WAcc) (r : Except XRes (Nat × Nat) × WAcc) : Prop where
  marked : Marked acc.s r.2.s
  leaves : r.2.leaves = acc.leaves
  error : ∀ x, r.1 = .error x → ∀ addr, Aligned addr x
  entry : ∀ v p, r.1 = .ok (v, p) → ea % 8 = 0 → p % 8 = 0

theorem readOk_readEntry (htr : WalksOk tr) : ReadOk ea acc (readEntry tr id stage level addr ea acc) := by
  have hsub := htr .read ea { acc with leaves := [] }
  unfold readEntry
  split
  next x sub e =>
    rw [e] at hsub
    have hs : Marked acc.s (llcEnsure (markLeaves sub.s sub.leaves false) (x.pa / 128)) :=
      (hsub.marked.trans (marked_markLeaves sub.s (hsub.leaves nofun))).trans (marked_llcEnsure ..)
    dsimp only
    split
    next => exact ⟨hs, rfl, fun _ h _ => by cases h; trivial, nofun⟩
    next =>
      split
      next => exact ⟨hs, rfl, fun _ h _ => by cases h; trivial, nofun⟩
      next =>
        refine ⟨?_, rfl, nofun, fun v p h => ?_⟩
        · dsimp only
          split
          next => exact hs
          next => exact hs.trans (.of_mem rfl rfl)
        · cases h
          exact hsub.aligned
  next r sub hr e =>
    rw [e] at hsub
    refine ⟨hsub.marked, rfl, fun x h _ => ?_, nofun⟩
    cases h
    have ha := hsub.aligned
    cases r with
    | ok t => exact absurd rfl (hr t)
    | far leaf rec_ => exact ha
    | fail f => trivial
    | busy => trivial

theorem walkOk_useLeaf (htr : WalksOk tr) (kind : AccKind) (ty attr : Nat) {size : Nat} (w x : Bool) (frame key : Nat) (hp : epa % 8 = 0)
    (hz : 3 ≤ size) : WalkOk addr acc (useLeaf tr id stage level addr ea epa kind ty size attr w x frame key acc) := by
  have hout : addr % 8 = 0 → (frame * 2 ^ 16 + addr % 2 ^ size) % 8 = 0 := fun ha => by
    have h8 : addr % 2 ^ size % 8 = addr % 8 := Nat.mod_mod_of_dvd _ (pow_dvd_pow 2 hz)
    omega
  have hcons : (∀ l ∈ acc.leaves, l % 8 = 0) → ∀ l ∈ epa :: acc.leaves, l % 8 = 0 := fun h => List.forall_mem_cons.2 ⟨hp, h⟩
  unfold useLeaf
  split
  next => exact ⟨.refl _, fun h => h, trivial⟩
  next =>
    split
    next =>
      dsimp only
      split
      next => exact ⟨.refl _, fun h => h, trivial⟩
      next =>
        split
        next => exact ⟨.refl _, fun h => h, trivial⟩
        next => exact ⟨.refl _, fun h => h, hp⟩
    next =>
      dsimp only
      split
      next =>
        split
        next => exact ⟨.refl _, hcons, trivial⟩
        next => exact ⟨.refl _, hcons, hout⟩
      next =>
        have ht := htr kind (frame * 2 ^ 16 + addr % 2 ^ size) { acc with leaves := epa :: acc.leaves, used := (id, addr, size) :: acc.used }
        split
        next t b e =>
          rw [e] at ht
          split
          next => exact ⟨ht.marked, fun h => ht.leaves (hcons h), trivial⟩
          next => exact ⟨ht.marked, fun h => ht.leaves (hcons h), fun ha => ht.aligned (hout ha)⟩
        next hn =>
          refine ⟨ht.marked, fun h => ht.leaves (hcons h), ?_⟩
          have ha := ht.aligned
          generalize tr kind (frame * 2 ^ 16 + addr % 2 ^ size) _ = r at hn ha
          obtain ⟨r, b⟩ := r
          cases r with
          | ok t => exact absurd rfl (hn t b)
          | far leaf rec_ => exact ha
          | fail f => trivial
          | busy => trivial

/-- A walk whose last step was a read. -/
theorem ReadOk.walkOk_error {a : Nat} {acc b c : WAcc} {x : XRes} (hb : WalkOk a acc (.busy, b)) (h : ReadOk ea b (.error x, c)) :
    WalkOk a acc (x, c) :=
  ⟨hb.marked.trans h.marked, fun hl => by rw [h.leaves]; exact hb.leaves hl, h.error x rfl a⟩

/-- A walk goes on after a read. -/
theorem ReadOk.walkOk_next {a v p : Nat} {acc b c : WAcc} (hb : WalkOk a acc (.busy, b)) (h : ReadOk ea b (.ok (v, p), c)) :
    WalkOk a acc (.busy, c) :=
  ⟨hb.marked.trans h.marked, fun hl => by rw [h.leaves]; exact hb.leaves hl, trivial⟩

theorem WalkOk.trans {a : Nat} {acc b : WAcc} {r : XRes × WAcc} (hb : WalkOk a acc (.busy, b)) (h : WalkOk a b r) : WalkOk a acc r :=
  ⟨hb.marked.trans h.marked, fun hl => h.leaves (hb.leaves hl), h.aligned⟩

theorem WalkOk.fail {a : Nat} {acc b : WAcc} (hb : WalkOk a acc (.busy, b)) (f : XFail) : WalkOk a acc (.fail f, b) :=
  ⟨hb.marked, hb.leaves, trivial⟩

theorem readOk_readEntry_eq (htr : WalksOk tr) {b : WAcc} {r : Except XRes (Nat × Nat)} (e : readEntry tr id stage level addr ea acc = (r, b)) :
    ReadOk ea acc (r, b) := e ▸ readOk_readEntry htr

theorem walkOk_stageWalk (htr : WalksOk tr) (xroot : Nat) (kind : AccKind) : WalkOk addr acc (stageWalk tr id stage xroot kind addr acc) := by
  have h3 : WalkOk addr acc (.busy, acc) := ⟨.refl _, fun h => h, trivial⟩
  unfold stageWalk
  dsimp only
  split
  next => exact h3.fail _
  split
  next => exact h3.fail _
  split
  next e2 => exact (readOk_readEntry_eq htr e2).walkOk_error h3
  next v2 p2 b2 e2 =>
  have h2 := (readOk_readEntry_eq htr e2).walkOk_next h3
  split
  next => exact h2.fail _
  next => exact h2.fail _
  next => exact h2.fail _
  next t1 et1 =>
  split
  next e1 => exact (readOk_readEntry_eq htr e1).walkOk_error h2
  next v1 p1 b1 e1 =>
  have hr1 := readOk_readEntry_eq htr e1
  have h1 := hr1.walkOk_next h2
  have hp1 : p1 % 8 = 0 := hr1.entry v1 p1 rfl (by have := table_aligned et1; omega)
  split
  next => exact h1.fail _
  next => exact h1.fail _
  next el => exact h1.trans (walkOk_useLeaf htr kind _ _ _ _ _ _ hp1 (leaf_fields el).2.2)
  next t0 et0 =>
  split
  next e0 => exact (readOk_readEntry_eq htr e0).walkOk_error h1
  next v0 p0 b0 e0 =>
  have hr0 := readOk_readEntry_eq htr e0
  have h0 := hr0.walkOk_next h1
  have hp0 : p0 % 8 = 0 := hr0.entry v0 p0 rfl (by have := table_aligned et0; omega)
  split
  next => exact h0.fail _
  next => exact h0.fail _
  next => exact h0.fail _
  next el => exact h0.trans (walkOk_useLeaf htr kind _ _ _ _ _ _ hp0 (leaf_fields el).2.2)

end

theorem walksOk_walkChain (l : List (Nat × Ctx)) : WalksOk (walkChain l) := by
  induction l with
  | nil => exact fun _ _ _ => ⟨.refl _, fun h => h, fun h => h⟩
  | cons c l ih => exact fun _ _ _ => walkOk_stageWalk ih ..

/-- A walk that ends at a far page leaf: its address, and what has become of the state. -/
theorem marked_of_runWalk_far {s t : State} {walker core ctx va leaf rec_ : Nat} {kind : AccKind}
    (h : runWalk s walker core ctx va kind = (.far leaf rec_, t)) : Marked s t ∧ leaf % 8 = 0 := by
  have hw := walksOk_walkChain (ctxChain s 3 ctx) kind va { s := s, die := dieOf core, walker := walker }
  unfold runWalk at h
  split at h
  next =>
    split at h
    next => cases h
    split at h <;> cases h
  next => cases h
  next r acc _ _ e =>
    rw [e] at hw
    cases h
    refine ⟨hw.marked.trans ?_, hw.aligned⟩
    dsimp only
    split <;> exact .of_mem rfl rfl

theorem marked_of_xlateNow_far {s : State} {core ctx va leaf rec_ : Nat} {kind : AccKind} (h : (xlateNow s core ctx va kind).1 = .far leaf rec_) :
    Marked s (xlateNow s core ctx va kind).2 ∧ leaf % 8 = 0 := by
  have hp : Marked s (s.pick 64).2 := .of_mem rfl rfl
  unfold xlateNow at h ⊢
  split at h
  next => cases h
  next =>
    dsimp only at h ⊢
    generalize hr : runWalk (s.pick 64).2 (s.pick 64).1 core ctx va kind = r at h ⊢
    obtain ⟨r, t⟩ := r
    cases r with
    | ok _ => cases h
    | busy => cases h
    | fail _ => cases h
    | far a b =>
      cases h
      obtain ⟨hm, hl⟩ := marked_of_runWalk_far hr
      exact ⟨hp.trans hm, hl⟩

end Sys2Proof.Machine
end

section
/-!
SUPPORT. Recalls on notifications (R127, R133): the recall of a noted far page begins. O53 is settled here.
-/
namespace Sys2Proof.Machine

open Say

/-- A recall of a far page leaf is in progress once it has been asked for, unless the page is still being parked. -/
theorem startRecall_begins {s : State} (ctx rec_ : Nat) {leaf size attr fr key : Nat} {w x : Bool}
    (he : entOf 0 0 (memNat s leaf 8) = .leaf 3 size attr w x fr key) (hp : ∀ y ∈ s.xl.parks, y.2.leafPa ≠ leaf) :
    ∃ y ∈ (startRecall s ctx leaf rec_).2.xl.recalls, y.2.leafPa = leaf := by
  have hnone : s.xl.parks.find? (fun p => p.2.leafPa = leaf) = none := List.find?_eq_none.2 fun y hy => by simpa using hp y hy
  unfold startRecall
  rw [hnone]
  dsimp only
  split
  next r hr => exact ⟨r, List.mem_of_find?_eq_some hr, by simpa using List.find?_some hr⟩
  next =>
    rw [he]
    exact ⟨_, NMap.mem_of_find (NMap.find_insert_self ..), rfl⟩

/-- One note, of a far page of a live context. -/
theorem recallNoted_far {s : State} {ctx page n leaf rec_ : Nat} (hn : 1 ≤ n) (hl : s.liveCtx ctx = true)
    (hx : (xlateNow s 0 ctx (page * 2 ^ 16) .read).1 = .far leaf rec_) : ∃ owner, recallNoted [(ctx, page)] n s =
      (startRecall (xlateNow s 0 ctx (page * 2 ^ 16) .read).2 owner leaf rec_).2.updXL (fun x => { x with farNotes := [] }) := by
  obtain ⟨n, rfl⟩ := Nat.exists_eq_add_of_le' hn
  generalize hr : xlateNow s 0 ctx (page * 2 ^ 16) .read = r at hx ⊢
  obtain ⟨r, t⟩ := r
  obtain rfl : r = .far leaf rec_ := hx
  refine ⟨memNat t (rec_ + 0x0E) 2, ?_⟩
  rw [recallNoted, hl, if_neg (by decide), hr]
  rfl

/-- The pool is above its upper mark: the recall of the noted page has begun when the epoch ends. -/
theorem epochRecalls (s : State) (queued : Nat) (hon : s.pt.migCtl % 2 = 1) (hb : 1 ≤ s.pt.migBatch) (hq : queued + 1280 ≤ s.pt.migQDepth)
    (ctx page leaf rec_ : Nat) (hlo : s.pt.migFreeLow ≤ s.xl.pool.length) (hhi : s.pt.migFreeHigh < s.xl.pool.length)
    (hc : s.pt.migCtl / 2 % 2 = 1) (hnote : s.xl.farNotes = [(ctx, page)]) (hl : s.liveCtx ctx = true)
    (hx : (xlateNow s 0 ctx (page * 2 ^ 16) .read).1 = .far leaf rec_)
    (he : ∃ size a w x fr k, entOf 0 0 (memNat s leaf 8) = .leaf 3 size a w x fr k) (hp : ∀ y ∈ s.xl.parks, y.2.leafPa ≠ leaf) :
    ∃ t, exec (.migrationEpoch queued) s = .next t ∧ (∃ y ∈ t.xl.recalls, y.2.leafPa = leaf) ∧ t.xl.farNotes = [] := by
  have hn : 1 ≤ min s.pt.migBatch ((s.pt.migQDepth - queued) / 1280) := Nat.le_min.2 ⟨hb, by omega⟩
  have hex := migrationEpoch_high s queued hon hlo hhi hc
  obtain ⟨owner, hr⟩ := recallNoted_far hn hl hx
  obtain ⟨hm, ha⟩ := marked_of_xlateNow_far hx
  rw [hnote, hr] at hex
  generalize (xlateNow s 0 ctx (page * 2 ^ 16) .read).2 = u at hex hm
  obtain ⟨size, a, w, x, fr, k, he⟩ := he
  have heu : entOf 0 0 (memNat u leaf 8) = .leaf 3 size a w x fr k := by
    rcases hm.entries leaf ha with e | e
    · rw [e, he]
    · rw [e, entOf_far_or_a he]
  have hpu : u.xl.parks = s.xl.parks := congrArg (fun x => x.2.1) hm.tier
  exact ⟨_, hex, startRecall_begins owner rec_ heu (by rwa [hpu]), rfl⟩

/-- Settles O53, by the events: the epoch (`epochParks`, `epochRecalls`), the park that completes (`parkCompletes`) and the ends of a
recall. -/
theorem pagesMoveBetweenFramesAndThePool : Obligations.PagesMoveBetweenFramesAndThePool := by
  unfold Obligations.PagesMoveBetweenFramesAndThePool
  refine ⟨fun s queued => ⟨migrationEpoch_off s queued, fun hon hlo hhi hwf => ?_, fun hon hb hq => ⟨fun v hlo hm hv hh hd => ?_,
    fun ctx page leaf rec_ hlo hhi hc hnote hl hx he hp => epochRecalls s queued hon hb hq ctx page leaf rec_ hlo hhi hc hnote hl hx he hp⟩⟩,
    fun s id p hp hb hf hr hd hw => ?_, fun s id f r how hr hf hl => ?_⟩
  · exact ⟨_, migrationEpoch_between s queued hon hlo hhi, rfl, frame_coolFrames hwf⟩
  · exact epochParks s queued hon hb hq v hlo hm hv hh hd
  · obtain ⟨t, ht, page, hpage⟩ := parkCompletes s id p hp hb hf hr hd hw
    exact ⟨t, page, ht, hpage⟩
  · refine ⟨recallComplete_other s id f r how hr hf hl, recallComplete_failed s id f r how hr hf hl, ?_⟩
    rintro page hm rfl hpage hlen hg hlive hj hw ha hx
    exact recallComplete_ok s id f r hr hf hl hm hpage hlen hg hlive hj hw ha hx

end Sys2Proof.Machine
end

section
/-!
SUPPORT. Presence words (R140, R151, R166): what PRSET and PRCLR change before their end, the lines that a word's lanes name, and
PRTST's values.
-/
namespace Sys2Proof.Machine

open Say

/-! ### Marking lines -/

/-- A state with other presence lines and pending results: all that a presence word changes before its end. -/
def withMarks (s : State) (results : NMap Result) (presence : NMap Presence) : State :=
  { s with wk := { s.wk with results := results }, mm := { s.mm with presence := presence } }

/-- A state, its presence lines and pending results apart. -/
def unmarked (s : State) : State := withMarks s [] []

theorem eq_withMarks {s m : State} (hm : unmarked m = unmarked s) : m = withMarks s m.wk.results m.mm.presence :=
  calc m = withMarks (unmarked m) m.wk.results m.mm.presence := rfl
    _ = withMarks (unmarked s) m.wk.results m.mm.presence := by rw [hm]

@[simp] theorem unmarked_fixOver (s : State) (gi h lane : Nat) (sp : Bool) (addr n : Nat) :
    unmarked (fixOver s gi h lane sp addr n) = unmarked s := rfl
@[simp] theorem unmarked_setPresence (s : State) (core line : Nat) (f : Presence → Presence) :
    unmarked (setPresence s core line f) = unmarked s := rfl

/-- Presence lines of one core, marked one after the other. -/
def markLines (s : State) (core : Nat) (ls : List Nat) (f : Presence → Presence) : State :=
  ls.foldl (fun s line => setPresence s core line f) s

@[simp] theorem unmarked_markLines (s : State) (core : Nat) (ls : List Nat) (f : Presence → Presence) :
    unmarked (markLines s core ls f) = unmarked s :=
  foldl_keep unmarked _ (fun _ _ => unmarked_setPresence ..) _ _

theorem presence_setPresence_ne (s : State) {core line k : Nat} (f : Presence → Presence) (hk : k ≠ core * 4096 + line) :
    NMap.get {} (setPresence s core line f).mm.presence k = NMap.get {} s.mm.presence k :=
  NMap.get_set_ne _ _ _ _ _ hk

theorem presenceOf_setPresence_self (s : State) (core line : Nat) (f : Presence → Presence) :
    presenceOf (setPresence s core line f) core line = f (presenceOf s core line) :=
  NMap.get_set_self ..

theorem presenceOf_setPresence_ne (s : State) (core : Nat) {line l : Nat} (f : Presence → Presence) (hl : l ≠ line) :
    presenceOf (setPresence s core line f) core l = presenceOf s core l :=
  presence_setPresence_ne s f (by omega)

/-- A line that is not among those marked keeps its state. -/
theorem presence_markLines_ne (s : State) (core : Nat) {ls : List Nat} (f : Presence → Presence) {k : Nat}
    (hk : ∀ l ∈ ls, k ≠ core * 4096 + l) : NMap.get {} (markLines s core ls f).mm.presence k = NMap.get {} s.mm.presence k :=
  List.foldlRecOn (motive := fun t : State => NMap.get {} t.mm.presence k = NMap.get {} s.mm.presence k) ls _ rfl
    fun t ht l hl => (presence_setPresence_ne t f (hk l hl)).trans ht

/-- A line among those marked is marked, however often it is named. -/
theorem presenceOf_markLines (s : State) (core : Nat) {ls : List Nat} {f : Presence → Presence} (hf : ∀ y, f (f y) = f y) {line : Nat}
    (hl : line ∈ ls) : presenceOf (markLines s core ls f) core line = f (presenceOf s core line) := by
  refine foldl_reaches (p := fun t => presenceOf t core line = presenceOf s core line)
    (q := fun t => presenceOf t core line = f (presenceOf s core line)) hl (fun t l _ hne ht => ?_) (fun t ht => ?_) (fun t l _ ht => ?_) rfl
  · exact (presenceOf_setPresence_ne t core f hne.symm).trans ht
  · rw [presenceOf_setPresence_self, ht]
  · by_cases h : line = l
    · rw [← h, presenceOf_setPresence_self, ht, hf]
    · rw [presenceOf_setPresence_ne t core f h, ht]

/-! ### The end of a presence word -/

/-- What a presence word leaves as it was, the presence lines that it names apart. -/
def MarkRest (s t : State) : Prop :=
  Quiet s t ∧ t.rg.hwarps = s.rg.hwarps ∧ t.rg.sb = s.rg.sb ∧ Onward seated s t ∧ t.mm.mem = s.mm.mem ∧ t.mm.l1 = s.mm.l1

/-- THE END OF A WORD moves the executing warp on and touches no thread but for its seat. -/
theorem onward_finish (m : State) (b w : Bool) : Onward seated m (finish m b w) := by
  have hk := (Mid.refl seated m).kept seatAt_seated b w
  exact ⟨hk.groups, hk.others, hk.threads, fun k hq => by rw [finish_away m b w k hq], hk.self⟩

theorem markRest_finish {s m : State} (hm : unmarked m = unmarked s) (b w : Bool) : MarkRest s (finish m b w) := by
  rw [eq_withMarks hm]
  generalize m.wk.results = r
  generalize m.mm.presence = p
  have hq := quiet_finish (withMarks s r p) b w
  have ho := onward_finish (withMarks s r p) b w
  have st := still_finish (withMarks s r p) b w
  refine ⟨⟨hq.vectors, hq.scalars, hq.predicates, hq.masks, hq.scratch, hq.engines, hq.fabric, hq.contexts, hq.part, hq.spans, hq.stops,
    hq.agenda⟩, (still_hwarps st).trans rfl, (still_sb st).trans rfl, ⟨ho.groups, ho.others, ho.threads, ho.away, ho.self⟩, ?_, ?_⟩
  all_goals
    rw [still_mm st]
    rfl

/-! ### The words' lanes -/

section
variable {s : State} {h : Hdr} {m : MemOp}

/-- The line of the scratchpad that a lane of the executing warp names. -/
def namedLine (s : State) (m : MemOp) (q : Nat × LaneEnt) : Nat :=
  ((s.group s.curWarp.gi).spBase + memEa s m 1 q.1 q.2) / 128

/-- Where every lane's address lies in its group's range, no lane faults. -/
theorem withLines_inRange (hr : ∀ q ∈ takingLanes s s.curWarp h, memEa s m 1 q.1 q.2 < (s.group s.curWarp.gi).scratch) (opc : Nat)
    (k : List (Nat × LaneEnt × Nat) → State → State) :
    withLines s h opc m k = k ((takingLanes s s.curWarp h).map (fun q => (q.1, q.2, namedLine s m q))) s := by
  have hbad : ((takingLanes s s.curWarp h).map (fun q => (q.1, q.2, memEa s m 1 q.1 q.2))).filter
      (fun a => decide ((s.group s.curWarp.gi).scratch < a.2.2 + 1)) = [] :=
    List.filter_eq_nil_iff.2 fun a ha => by
      obtain ⟨q, hq, rfl⟩ := List.mem_map.1 ha
      simpa using hr q hq
  have hgood : ((takingLanes s s.curWarp h).map (fun q => (q.1, q.2, memEa s m 1 q.1 q.2))).filter
      (fun a => decide (a.2.2 < (s.group s.curWarp.gi).scratch)) =
      (takingLanes s s.curWarp h).map (fun q => (q.1, q.2, memEa s m 1 q.1 q.2)) :=
    List.filter_eq_self.2 fun a ha => by
      obtain ⟨q, hq, rfl⟩ := List.mem_map.1 ha
      simpa using hr q hq
  unfold withLines
  simp only [hbad, hgood, List.map_map]
  rfl

/-- Lanes with no access outstanding await no acquire. -/
theorem withAcquired_settled {gi : Nat} {lanes : List (Nat × LaneEnt)}
    (hset : Settled s gi (lanes.map (fun q => thKey gi q.2.hwarp q.2.hlane))) (k : State → State) : withAcquired s gi lanes k = k s := by
  obtain ⟨hreq, -⟩ := hset
  simp only [ownRequests, List.map_eq_nil_iff, List.filter_eq_nil_iff, Bool.and_eq_true, not_and] at hreq
  refine if_neg (not_not_intro ?_)
  rw [List.map_eq_nil_iff, List.filter_eq_nil_iff]
  intro r hr hc
  simp only [Bool.and_eq_true, List.any_eq_true, decide_eq_true_eq] at hc
  obtain ⟨⟨⟨-, hkind⟩, hgi⟩, q, hq, hw, hl⟩ := hc
  refine hreq r hr ⟨⟨decide_eq_true hgi, hkind⟩, rfl⟩ (List.contains_iff_mem.2 (List.mem_map.2 ⟨q, hq, ?_⟩))
  rw [hw, hl]

/-- PRSET AND PRCLR where nothing is to be waited for: the word marks the lines that its lanes name, and ends. -/
theorem presenceWord_eq (hr : ∀ q ∈ takingLanes s s.curWarp h, memEa s m 1 q.1 q.2 < (s.group s.curWarp.gi).scratch)
    (hfifo : spadEntries s s.curWarp.gi (takingLanes s s.curWarp h) = [])
    (hset : Settled s s.curWarp.gi ((takingLanes s s.curWarp h).map (fun q => thKey s.curWarp.gi q.2.hwarp q.2.hlane)))
    (opc : Nat) (f : Presence → Presence) : ∃ u, unmarked u = unmarked s ∧ u.mm = s.mm ∧ presenceWord s h opc m f =
      finish (markLines u s.curWarp.core ((takingLanes s s.curWarp h).map (namedLine s m)).eraseDups f) h.b h.w := by
  refine ⟨((takingLanes s s.curWarp h).map (fun q => (q.1, q.2, namedLine s m q))).foldl
    (fun s' a => fixOver s' s.curWarp.gi a.2.1.hwarp a.2.1.hlane true (a.2.2 * 128) 128) s,
    foldl_keep unmarked _ (fun _ _ => unmarked_fixOver ..) _ _, foldl_keep State.mm _ (fun t a => State.updWK_mm t _) _ _, ?_⟩
  rw [presenceWord, withAcquired_settled hset, afterSpadStores, hfifo, if_pos rfl, withLines_inRange hr]
  simp only [List.map_map]
  rfl

/-- The word marks each line that a taking lane names, and no other. -/
theorem presenceWord_marks (hr : ∀ q ∈ takingLanes s s.curWarp h, memEa s m 1 q.1 q.2 < (s.group s.curWarp.gi).scratch)
    (hfifo : spadEntries s s.curWarp.gi (takingLanes s s.curWarp h) = [])
    (hset : Settled s s.curWarp.gi ((takingLanes s s.curWarp h).map (fun q => thKey s.curWarp.gi q.2.hwarp q.2.hlane)))
    (opc : Nat) {f : Presence → Presence} (hf : ∀ y, f (f y) = f y) :
    let t := presenceWord s h opc m f
    MarkRest s t ∧
    (∀ k, (∀ q ∈ takingLanes s s.curWarp h, k ≠ s.curWarp.core * 4096 + namedLine s m q) →
      NMap.get {} t.mm.presence k = NMap.get {} s.mm.presence k) ∧
    ∀ q ∈ takingLanes s s.curWarp h, presenceOf t s.curWarp.core (namedLine s m q) = f (presenceOf s s.curWarp.core (namedLine s m q)) := by
  obtain ⟨u, hu, hmm, he⟩ := presenceWord_eq hr hfifo hset opc f
  intro t
  have ht : t = _ := he
  have hmark := markRest_finish ((unmarked_markLines u s.curWarp.core ((takingLanes s s.curWarp h).map (namedLine s m)).eraseDups f).trans hu)
    h.b h.w
  have hend : t.mm = _ := ht ▸ still_mm (still_finish ..)
  refine ⟨ht ▸ hmark, fun k hk => ?_, fun q hq => ?_⟩
  · rw [hend, presence_markLines_ne u _ f, hmm]
    intro l hl
    obtain ⟨q, hq, rfl⟩ := List.mem_map.1 (List.mem_eraseDups.1 hl)
    exact hk q hq
  · have hline := presenceOf_markLines u s.curWarp.core hf (List.mem_eraseDups.2 (List.mem_map_of_mem (f := namedLine s m) hq))
    simpa only [presenceOf, hend, hmm] using hline

/-! ### PRTST -/

/-- A line's state as one word. -/
theorem presenceVal_eq (y : Presence) : presenceVal y = y.p.toNat + 2 * y.q.toNat + 4 * (y.n % 16) := by
  obtain ⟨p, q, n⟩ := y
  cases p <;> cases q <;> simp [presenceVal] <;> omega

/-- Values of guarded lanes, each formed by one function of the lane, among them those of every taking lane. -/
theorem covers_of_val {vals : List (Nat × LaneEnt × Nat)} (f : Nat → LaneEnt → Nat)
    (sub : ∀ v ∈ vals, (v.1, v.2.1) ∈ guardedLanes s s.curWarp h) (all : ∀ q ∈ takingLanes s s.curWarp h, ∃ v ∈ vals, (v.1, v.2.1) = q)
    (val : ∀ v ∈ vals, v.2.2 = f v.1 v.2.1) : Covers s h vals := by
  refine ⟨sub, all, fun v hv r hr hp => ?_⟩
  have hlane : (r.1, r.2.1) = (v.1, v.2.1) := guarded_unique s _ h _ _ (sub r hr) (sub v hv) hp
  obtain ⟨p, e, y⟩ := v
  obtain ⟨p', e', y'⟩ := r
  obtain ⟨rfl, rfl⟩ := Prod.mk.inj hlane
  have hy : y = f p' e' := val _ hv
  have hy' : y' = f p' e' := val _ hr
  rw [hy, hy']

/-- What PRTST writes to a guarded lane: the state of the line that it names, or 0 to a helper lane beyond SCRATCH (R151). -/
def testedVal (s : State) (m : MemOp) (q : Nat × LaneEnt) : Nat :=
  if q.2.help = true ∧ (s.group s.curWarp.gi).scratch ≤ memEa s m 1 q.1 q.2 then 0
  else presenceVal (presenceOf s s.curWarp.core (namedLine s m q))

theorem testedVal_taking {q : Nat × LaneEnt} (hq : q.2.help = false) :
    testedVal s m q = presenceVal (presenceOf s s.curWarp.core (namedLine s m q)) :=
  if_neg (by simp [hq])

theorem testedVal_helper {q : Nat × LaneEnt} (hq : q.2.help = true) : testedVal s m q =
    if memEa s m 1 q.1 q.2 < (s.group s.curWarp.gi).scratch then presenceVal (presenceOf s s.curWarp.core (namedLine s m q)) else 0 := by
  simp only [testedVal, hq, true_and, ← Nat.not_lt, ite_not]

/-- The lanes that PRTST writes: the taking ones, then the helpers. -/
def testedLanes (s : State) (h : Hdr) : List (Nat × LaneEnt) :=
  takingLanes s s.curWarp h ++ (guardedLanes s s.curWarp h).filter (fun q => q.2.help)

theorem prtst_eq (d : Reg) (hr : ∀ q ∈ takingLanes s s.curWarp h, memEa s m 1 q.1 q.2 < (s.group s.curWarp.gi).scratch) :
    exec (.prtst h d m) s = .next (putVals s h d 1 ((testedLanes s h).map (fun q => (q.1, q.2, testedVal s m q)))) := by
  have htaking : (takingLanes s s.curWarp h).map (fun q => (q.1, q.2, testedVal s m q)) =
      (takingLanes s s.curWarp h).map (fun q => (q.1, q.2, presenceVal (presenceOf s s.curWarp.core (namedLine s m q)))) :=
    List.map_congr_left fun q hq => by rw [testedVal_taking (taking_guarded hq).2]
  have hhelp : ((guardedLanes s s.curWarp h).filter (fun q => q.2.help)).map (fun q => (q.1, q.2, testedVal s m q)) =
      ((guardedLanes s s.curWarp h).filter (fun q => q.2.help)).map (fun q => (q.1, q.2,
        if memEa s m 1 q.1 q.2 < (s.group s.curWarp.gi).scratch then presenceVal (presenceOf s s.curWarp.core (namedLine s m q)) else 0)) :=
    List.map_congr_left fun q hq => by rw [testedVal_helper (List.mem_filter.1 hq).2]
  rw [testedLanes, List.map_append, htaking, hhelp]
  refine (congrArg Host.Outcome.next (withLines_inRange hr 0x8C _)).trans ?_
  rw [List.map_map]
  rfl

/-- PRTST (R151, R166): each taking lane reads the state of the line that it names. -/
theorem prtst_reads (d : Reg) (hr : ∀ q ∈ takingLanes s s.curWarp h, memEa s m 1 q.1 q.2 < (s.group s.curWarp.gi).scratch) :
    RunsReg (.prtst h d m) s h d 1 (fun p e v => v = presenceVal (presenceOf s s.curWarp.core (namedLine s m (p, e)))) := by
  refine runsReg_of_put (prtst_eq d hr) (covers_of_val (fun p e => testedVal s m (p, e)) (fun v hv => ?_) (fun q hq => ?_) fun v hv => ?_)
    fun v hv hh => ?_
  · obtain ⟨q, hq, rfl⟩ := List.mem_map.1 hv
    exact (List.mem_append.1 hq).elim (fun hq => (taking_guarded hq).1) List.mem_of_mem_filter
  · exact ⟨_, List.mem_map_of_mem (List.mem_append_left _ hq), rfl⟩
  · obtain ⟨q, -, rfl⟩ := List.mem_map.1 hv
    rfl
  · obtain ⟨q, -, rfl⟩ := List.mem_map.1 hv
    exact testedVal_taking hh

end

/-- Settles O30: with nothing to wait for, PRSET and PRCLR mark the lines that their lanes name (`presenceWord_marks`), and PRTST writes
each lane's line as one word (`prtst_reads`). -/
theorem presenceWordsActOnTheirLines : Obligations.PresenceWordsActOnTheirLines := by
  intro s h d m x g lanes ea line rest hr
  refine ⟨fun hfifo hset => ?_, ?_⟩
  · have hword : ∀ opc f, (∀ y, f (f y) = f y) → rest (presenceWord s h opc m f) ∧
        ∀ q ∈ lanes, presenceOf (presenceWord s h opc m f) x.core (line q) = f (presenceOf s x.core (line q)) := fun opc f hf => by
      obtain ⟨⟨hquiet, hhomes, hsb, hon, hmem, hl1⟩, hframe, hmark⟩ := presenceWord_marks hr hfifo hset opc hf
      exact ⟨⟨hquiet, hhomes, hsb, hon, hmem, hl1, hframe⟩, hmark⟩
    exact ⟨⟨_, rfl, hword 0x8A (fun y => { y with p := true, q := false }) fun _ => rfl⟩,
      _, rfl, hword 0x8B (fun y => { y with p := false, q := false }) fun _ => rfl⟩
  · have hread := prtst_reads d hr
    simp only [presenceVal_eq] at hread
    exact hread

end Sys2Proof.Machine
end

section
/-!
SUPPORT. Words that reach memory, where no lane is stopped or delayed (R66, R103, R104, R141, R150, R158): what they have changed before their
end, and the checks, translations and waits of their lanes, all of which let the word go on with every lane.
-/
namespace Sys2Proof.Machine

open Say

/-! ### A word that accesses memory, before its end -/

/-- An issue warp, the phase of its word and the work that its word has counted apart. -/
def idle (w : Warp) : Warp := { w with phase := 0, works := [] }

/-- A state before the end of a word that accesses memory: all that `Quiet` names is kept, memory's bytes, the executing warp as `idle` shows
it, and threads but for their restart records. -/
structure Underway (s m : State) : Prop extends Quiet s m where
  cur : m.md.cur = s.md.cur
  mem : m.mm.mem = s.mm.mem
  groups : m.wk.groups = s.wk.groups
  others : ∀ id, id ≠ s.md.cur → (m.wk.warps.find id).map plainWarp = (s.wk.warps.find id).map plainWarp
  self : (m.wk.warps.find s.md.cur).map idle = (s.wk.warps.find s.md.cur).map idle
  threads : ∀ k, (m.rg.threads.find k).map bare = (s.rg.threads.find k).map bare
  seats : ∀ k, (m.rg.threads.find k).map (fun x => (x.pc, x.stat)) = (s.rg.threads.find k).map (fun x => (x.pc, x.stat))

/-- What words that reach memory through its caches and its tables leave alone. -/
def aside (s : State) : (RegSt × WorkSt × EngSt × FabSt × CtxSt × PartSt) × List Host.Cell × Nat × List Turn :=
  (outside s, s.mm.spad, s.md.cur, s.md.agenda)

section
variable {s m t : State}

theorem Underway.refl (s : State) : Underway s s := by
  constructor
  case toQuiet => constructor <;> rfl
  all_goals intros; rfl

theorem Underway.trans (h : Underway s m) (g : Underway m t) : Underway s t where
  toQuiet := quiet_trans h.toQuiet g.toQuiet
  cur := g.cur.trans h.cur
  mem := g.mem.trans h.mem
  groups := g.groups.trans h.groups
  others id hi := (g.others id (by rwa [h.cur])).trans (h.others id hi)
  self := by
    have hself := g.self
    rw [h.cur] at hself
    exact hself.trans h.self
  threads k := (g.threads k).trans (h.threads k)
  seats k := (g.seats k).trans (h.seats k)

theorem Fencing.underway (h : Fencing s m) : Underway s m where
  toQuiet := h.toQuiet
  cur := h.cur
  mem := h.mem
  groups := h.groups
  others := h.others
  self := by
    have hself := congrArg (Option.map fun w : Warp => { w with works := [] }) h.self
    simp only [Option.map_map] at hself
    exact hself
  threads := h.threads
  seats := h.seats

theorem Underway.of_aside (h : aside m = aside s) (hm : m.mm.mem = s.mm.mem) : Underway s m := by
  simp only [aside, outside, Prod.mk.injEq] at h
  obtain ⟨⟨hrg, hwk, hen, hfb, hcx, hpt⟩, hspad, hcur, hagenda⟩ := h
  refine { vectors := by rw [hrg], scalars := by rw [hrg], predicates := by rw [hrg], masks := by rw [hrg], scratch := hspad, engines := hen,
           fabric := hfb, contexts := hcx, part := by rw [hpt], spans := by rw [hwk], stops := by rw [hwk], agenda := hagenda, cur := hcur,
           mem := hm, groups := by rw [hwk], others := fun _ _ => by rw [hwk], self := by rw [hwk], threads := fun _ => by rw [hrg],
           seats := fun _ => by rw [hrg] }

/-- The executing warp is the same but for its phase and its counted work. -/
theorem Underway.warp (h : Underway s m) : idle m.curWarp = idle s.curWarp := by
  have hs := h.self
  unfold State.curWarp State.warp
  rw [h.cur]
  cases ha : m.wk.warps.find s.md.cur <;> cases hb : s.wk.warps.find s.md.cur <;> simp_all

theorem Underway.gi (h : Underway s m) : m.curWarp.gi = s.curWarp.gi :=
  (congrArg Warp.gi h.warp :)

theorem Underway.foundFull (h : Underway s m) : m.curWarp.foundFull = s.curWarp.foundFull :=
  (congrArg Warp.foundFull h.warp :)

theorem Underway.group (h : Underway s m) (gi : Nat) : m.group gi = s.group gi := by
  rw [State.group, h.groups, State.group]

theorem Underway.grid (h : Underway s m) (id : Nat) : m.grid id = s.grid id := by
  have hp : m.pt.grids = s.pt.grids := (congrArg PartSt.grids h.part :)
  rw [State.grid, hp, State.grid]

/-- Operands read the same: no register has changed. -/
theorem Underway.srcVal (h : Underway s m) : Machine.srcVal m = Machine.srcVal s := by
  have hhelp : ∀ e, helperThread m m.curWarp e = helperThread s s.curWarp e := fun e => by
    have ht := congrArg Option.isNone (h.threads (thKey s.curWarp.gi e.hwarp e.hlane))
    rw [Option.isNone_map, Option.isNone_map] at ht
    rw [helperThread, h.gi, ht, helperThread]
  have hhv : m.curWarp.hv = s.curWarp.hv := (congrArg Warp.hv h.warp :)
  have hseen : m.curWarp.sSeen = s.curWarp.sSeen := (congrArg Warp.sSeen h.warp :)
  have htemps : m.curWarp.temps = s.curWarp.temps := (congrArg Warp.temps h.warp :)
  have hword : ∀ p e r i, readWord m m.curWarp p e r i = readWord s s.curWarp p e r i := fun p e r i => by
    cases r <;> simp only [readWord, h.gi, h.vectors, h.scalars, hhelp, hhv, hseen, htemps]
  funext r width p e
  simp only [Machine.srcVal, readVal, hword]

/-- THE END OF A WORD: the executing warp goes on, and nothing else has moved. -/
theorem Underway.onward (h : Underway s m) (b w : Bool) : Onward bare s (finish m b w) := by
  have hlanes : m.curWarp.lanes = s.curWarp.lanes := (congrArg Warp.lanes h.warp :)
  have hpc : m.curWarp.pc = s.curWarp.pc := (congrArg Warp.pc h.warp :)
  have hgi := h.gi
  refine ⟨fun g => ?_, fun id hi => ?_, fun k => ?_, fun k hk => ?_, fun y hy => ?_⟩
  · rw [finish_groups, h.groups]
  · rw [finish_others _ _ _ _ (by rwa [h.cur])]
    exact h.others id hi
  · rw [finish_threads bare fun _ _ => rfl]
    exact h.threads k
  · rw [finish_away m b w k fun q hq => ?_]
    · exact h.seats k
    · rw [← activeLanes_congr hlanes] at hk
      exact hgi ▸ hk q hq
  · rw [← h.cur] at hy
    obtain ⟨x, hx, p, e, a, rfl⟩ := finish_self m b w y hy
    rw [curWarp_eq hx] at hgi hlanes hpc
    exact ⟨hgi, hlanes, congrArg (· + 8) hpc⟩

theorem Underway.quiet (h : Underway s m) (b w : Bool) : Quiet s (finish m b w) := quiet_trans h.toQuiet (quiet_finish m b w)

end

/-! ### Checks and waits that let every lane go on -/

section
variable {s : State} {lanes : List (Nat × LaneEnt)}

/-- No counter is full (R66). -/
theorem withCounter_room {sbc : Option (Fin 6)} (h : CounterRoom s s.curWarp.gi sbc (homeWarps lanes)) (k : State → State) :
    withCounter s sbc lanes k = k s := by
  obtain ⟨-, hroom⟩ := h
  cases sbc with
  | none => rfl
  | some c =>
    have hfull : fullCounters s s.curWarp.gi (some c) (homeWarps lanes) = [] :=
      List.filter_eq_nil_iff.2 fun hw hm => by
        have := hroom c rfl hw hm
        simpa using this
    simp only [withCounter, hfull, ne_eq, not_true_eq_false, and_false, if_false]

/-- No store FIFO is full (R158). -/
theorem withRoom_room (h : ∀ hw ∈ homeWarps lanes, (s.hwarp (hwKey s.curWarp.gi hw)).fifo.length < 64) (k : State → State) :
    withRoom s lanes k = k s := by
  have hfull : (homeWarps lanes).filter (fun hw => decide (64 ≤ (s.hwarp (hwKey s.curWarp.gi hw)).fifo.length)) = [] :=
    List.filter_eq_nil_iff.2 fun hw hm => by
      have := h hw hm
      simpa using this
  exact if_pos hfull

/-- Nothing of what a word's lanes ask is missing, faulting or parked. -/
theorem withXlate_ok {opc bytes : Nat} {kind : AccKind} {check : State → Xl → Option Nat} {sbc : Option (Fin 6)} {more : List (Nat × LaneEnt)}
    {l : List Acc} {tr : Acc → Xl} (hok : ∀ a ∈ l, accRes s s.curWarp kind bytes check a = .ok (tr a))
    (hset : Settled s s.curWarp.gi ((more ++ l.map (fun a => (a.pl, a.ent))).map (fun q => thKey s.curWarp.gi q.2.hwarp q.2.hlane)))
    (hopc : opc ≠ 0x95) (k : List (Acc × Xl) → State → State) : withXlate s opc kind bytes check sbc more l k =
      k (l.map (fun a => (a, tr a))) (openWorks s sbc (more ++ l.map (fun a => (a.pl, a.ent)))) := by
  have hrs : l.map (fun a => (a, accRes s s.curWarp kind bytes check a)) = l.map (fun a => (a, AccRes.ok (tr a))) :=
    List.map_congr_left fun a ha => by rw [hok a ha]
  unfold withXlate
  dsimp only
  rw [if_neg hopc]
  refine (withAcquired_settled hset _).trans ?_
  simp only [show s.warp s.md.cur = s.curWarp from rfl, hrs, List.filterMap_map, Function.comp_def, List.filterMap_none, List.filter_map]
  simp [takeFaults, splitRequests, splitFars, byHome, Function.comp_def]

theorem accRes_through {kind : AccKind} {bytes : Nat} {check : State → Xl → Option Nat} {a : Acc} {t : Xl} (hpre : a.pre = none)
    (h : Through s s.curWarp kind bytes a.va t) (hc : check s t = none) : accRes s s.curWarp kind bytes check a = .ok t := by
  obtain ⟨hlt, hal, hxl⟩ := h
  simp only [accRes, hpre, hxl, hc, if_neg (Nat.not_le.2 hlt), hal, ne_eq, not_true_eq_false, if_false]

/-- A list of the lines under some bytes names the line of each byte, and no other. -/
theorem mem_spadLines {base off n line : Nat} : line ∈ spadLines base off n ↔ ∃ i < n, line = (base + off + i) / 128 := by
  simp [spadLines, List.mem_eraseDups, eq_comm]

theorem spadRes_ready {x : Warp} {bytes off : Nat} {load : Bool} (h : SpadReady s x bytes off load) :
    spadRes s x.core (s.group x.gi).spBase (s.group x.gi).scratch bytes off load = .ok := by
  obtain ⟨hin, hal, hline⟩ := h
  have hq : (spadLines (s.group x.gi).spBase off bytes).any (fun l => (presenceOf s x.core l).q) = false := by
    rw [List.any_eq_false]
    intro l hl
    obtain ⟨i, hi, rfl⟩ := mem_spadLines.1 hl
    simp [(hline i hi).2.1]
  have haway : (spadLines (s.group x.gi).spBase off bytes).filter (fun l => !(presenceOf s x.core l).p) = [] := by
    rw [List.filter_eq_nil_iff]
    intro l hl
    obtain ⟨i, hi, rfl⟩ := mem_spadLines.1 hl
    simp [(hline i hi).1]
  have hpoison : (load && (List.range bytes).any (fun i => s.pt.spadPoison.contains (x.core * 2 ^ 17 + ((s.group x.gi).spBase + off + i) / 4))) =
      false := by
    rw [Bool.and_eq_false_iff, Bool.eq_false_iff, List.any_eq_false, or_iff_not_imp_left]
    intro hl i hi
    simpa using (hline i (List.mem_range.1 hi)).2.2 (not_not.1 hl)
  simp only [spadRes, if_neg (Nat.not_lt.2 hin), hal, hq, haway, hpoison, ne_eq, not_true_eq_false, Bool.false_eq_true, if_false]

/-- No lane's scratchpad access is stopped or delayed. -/
theorem withSpad_ready {opc bytes : Nat} {load : Bool} {sbc : Option (Fin 6)} {l : List (Nat × LaneEnt × Nat)}
    (hok : ∀ a ∈ l, SpadReady s s.curWarp bytes a.2.2 load)
    (hset : Settled s s.curWarp.gi ((l.map (fun a => (a.1, a.2.1))).map (fun q => thKey s.curWarp.gi q.2.hwarp q.2.hlane)))
    (k : List (Nat × LaneEnt × Nat) → State → State) :
    withSpad s opc bytes load sbc l k = k l (openWorks s sbc (l.map (fun a => (a.1, a.2.1)))) := by
  have hrs : l.map (fun a => (a, spadRes s s.curWarp.core (s.group s.curWarp.gi).spBase (s.group s.curWarp.gi).scratch bytes a.2.2 load)) =
      l.map (fun a => (a, SpadRes.ok)) :=
    List.map_congr_left fun a ha => by rw [spadRes_ready (hok a ha)]
  unfold withSpad
  refine (withAcquired_settled hset _).trans ?_
  simp only [hrs, List.filterMap_map, Function.comp_def, List.filterMap_none, List.filter_map]
  simp [takeFaults, Function.comp_def]

/-- Threads with no access outstanding have none to ranges that they touch. -/
theorem withOverlap_settled {gi : Nat} {threads : List Nat} {l : List (Nat × Nat × Nat × Nat)} (hset : Settled s gi threads)
    (hl : ∀ y ∈ l, thKey gi y.1 y.2.1 ∈ threads) (k : State → State) :
    withOverlap s gi l k = k (l.foldl (fun s y => fixOver s gi y.1 y.2.1 false y.2.2.1 y.2.2.2) s) := by
  obtain ⟨hreq, hload⟩ := hset
  simp only [ownRequests, List.map_eq_nil_iff, List.filter_eq_nil_iff] at hreq
  simp only [heldLoads, List.flatMap_eq_nil_iff] at hload
  have hsvc : svcOver s gi l = [] := by
    rw [svcOver, List.map_eq_nil_iff, List.filter_eq_nil_iff]
    intro r hr hc
    simp only [Bool.and_eq_true, List.any_eq_true, decide_eq_true_eq] at hc
    obtain ⟨⟨hgi, hkind⟩, y, hy, ⟨hw, hlane⟩, -⟩ := hc
    refine hreq r hr ?_
    simp only [hgi, hkind, decide_true, Bool.not_false, Bool.true_or, Bool.and_self, Bool.true_and, List.contains_iff_mem]
    exact hw ▸ hlane ▸ hl y hy
  have hheld : heldOver s gi l = [] := by
    rw [heldOver, List.flatMap_eq_nil_iff]
    intro r hr
    have hnone := hload r hr
    split
    next hc =>
      rw [if_pos hc, List.filterMap_eq_nil_iff] at hnone
      rw [List.filterMap_eq_nil_iff]
      intro z hz
      have hz' := hnone z hz
      split
      next hsrc =>
        rw [hsrc] at hz'
        refine if_neg fun hany => ?_
        simp only [List.any_eq_true, Bool.and_eq_true, decide_eq_true_eq] at hany
        obtain ⟨y, hy, ⟨hw, hlane⟩, -⟩ := hany
        have hmem := hl y hy
        rw [hw, hlane] at hmem
        simp [hmem] at hz'
      next => rfl
    next => rfl
  simp only [withOverlap, hheld, hsvc, ne_eq, not_true_eq_false, if_false]

end

end Sys2Proof.Machine
end

section
/-!
SUPPORT. The store FIFOs (R66, R154, R157, R158, R369): the counter rises as a store issues, its bytes enter the FIFOs of its lanes' home
warps, and a store that is a commit point commits them.
-/
namespace Sys2Proof.Machine

open Say

/-! ### Folds over items that are each met once -/

/-- A fold over distinct items, one of which turns a state of one kind into one of another. -/
theorem foldl_once {σ β : Type} {f : σ → β → σ} {p q : σ → Prop} {w : β} {l : List β} (hn : l.Nodup) (hw : w ∈ l)
    (hp : ∀ s x, x ≠ w → p s → p (f s x)) (hpq : ∀ s, p s → q (f s w)) (hq : ∀ s x, x ≠ w → q s → q (f s x)) {s : σ} (h : p s) :
    q (l.foldl f s) := by
  obtain ⟨a, b, rfl⟩ := List.append_of_mem hw
  obtain ⟨hwb, hab⟩ := List.nodup_cons.1 (List.nodup_middle.1 hn)
  have hne : ∀ x, x ∈ a ∨ x ∈ b → x ≠ w := fun x hx e => hwb (e ▸ List.mem_append.2 hx)
  rw [List.foldl_append, List.foldl_cons]
  exact List.foldlRecOn (motive := q) b f (hpq _ (List.foldlRecOn (motive := p) a f h fun t ht x hx => hp t x (hne x (.inl hx)) ht))
    fun t ht x hx => hq t x (hne x (.inr hx)) ht

theorem nodup_eraseDups {α : Type} [DecidableEq α] : ∀ l : List α, l.eraseDups.Nodup
  | [] => List.nodup_nil
  | a :: l => by
    rw [List.eraseDups_cons]
    exact List.nodup_cons.2 ⟨by simp, nodup_eraseDups _⟩
  termination_by l => l.length
  decreasing_by exact Nat.lt_succ_of_le (List.length_filter_le ..)

theorem nodup_homeWarps (lanes : List (Nat × LaneEnt)) : (homeWarps lanes).Nodup := nodup_eraseDups _

/-- Lanes in another order have as many home warps. -/
theorem length_homeWarps {l l' : List (Nat × LaneEnt)} (h : ∀ q, q ∈ l ↔ q ∈ l') : (homeWarps l).length = (homeWarps l').length := by
  refine ((List.perm_ext_iff_of_nodup (nodup_homeWarps l) (nodup_homeWarps l')).2 fun hw => ?_).length_eq
  exact ⟨homeWarps_subset (fun q hq => (h q).1 hq) hw, homeWarps_subset (fun q hq => (h q).2 hq) hw⟩

theorem cKey_inj {gi h h' c : Nat} (e : cKey gi h c = cKey gi h' c) : h = h' := by
  simp only [cKey, hwKey] at e
  omega

/-! ### The counter rises (R66) -/

/-- One home warp's work is started. -/
def startWork (gi : Nat) (c : Option (Fin 6)) (acc : List (Nat × Nat) × State) (h : Nat) : List (Nat × Nat) × State :=
  let (id, s) := acc.2.fresh
  let s := match c with
    | some c => setSb s gi h c.val (sbOf s gi h c.val + 1)
    | none => s
  let x : Work := { gi := gi, hwarp := h, sbc := c.map (·.val), left := 1 }
  (acc.1 ++ [(h, id)], s.updWK (fun k => { k with works := NMap.insert k.works id x }))

theorem startWorks_eq (s : State) (gi : Nat) (c : Option (Fin 6)) (hs : List Nat) : startWorks s gi c hs 1 = hs.foldl (startWork gi c) ([], s) := rfl

/-- All of a state but counters, counted work and the count of identities. -/
def uncounted (s : State) : State :=
  { s with rg := { s.rg with sb := [] }, wk := { s.wk with works := [] }, md := { s.md with nextId := 0 } }

section
variable {s : State} {gi : Nat} {c : Fin 6} {hs : List Nat}

theorem uncounted_startWorks : uncounted (startWorks s gi (some c) hs 1).2 = uncounted s := by
  rw [startWorks_eq]
  exact foldl_keep (fun acc : List (Nat × Nat) × State => uncounted acc.2) (startWork gi (some c)) (fun _ _ => rfl) hs ([], s)

theorem startWorks_homes : (startWorks s gi (some c) hs 1).1.map (·.1) = hs := by
  have h : ∀ (hs : List Nat) (acc : List (Nat × Nat) × State), (hs.foldl (startWork gi (some c)) acc).1.map (·.1) = acc.1.map (·.1) ++ hs := by
    intro hs
    induction hs with
    | nil => simp
    | cons h hs ih =>
      intro acc
      rw [List.foldl_cons, ih]
      simp [startWork]
  exact h hs ([], s)

theorem sb_startWork (acc : List (Nat × Nat) × State) (h : Nat) :
    (startWork gi (some c) acc h).2.rg.sb = NMap.set 0 acc.2.rg.sb (cKey gi h c.val) (sbOf acc.2 gi h c.val + 1) := rfl

theorem get_startWork_ne (acc : List (Nat × Nat) × State) {h k : Nat} (hk : k ≠ cKey gi h c.val) :
    NMap.get 0 (startWork gi (some c) acc h).2.rg.sb k = NMap.get 0 acc.2.rg.sb k := by
  rw [sb_startWork, NMap.get_set_ne _ _ _ _ _ hk]

theorem counted_startWorks (hn : hs.Nodup) : Say.Counted s (startWorks s gi (some c) hs 1).2 gi (some c) hs := by
  refine ⟨fun c' hc hw hm => ?_, fun k hk => ?_⟩
  · cases hc
    refine foldl_once (p := fun acc : List (Nat × Nat) × State => sbOf acc.2 gi hw c.val = sbOf s gi hw c.val)
      (q := fun acc => sbOf acc.2 gi hw c.val = sbOf s gi hw c.val + 1) hn hm (fun acc x hx h => ?_) (fun acc h => ?_) (fun acc x hx h => ?_) rfl
    · exact (get_startWork_ne acc fun e => hx (cKey_inj e).symm).trans h
    · rw [← h]
      exact (congrArg (fun m => NMap.get 0 m _) (sb_startWork acc hw)).trans (NMap.get_set_self ..)
    · exact (get_startWork_ne acc fun e => hx (cKey_inj e).symm).trans h
  · exact List.foldlRecOn (motive := fun acc : List (Nat × Nat) × State => NMap.get 0 acc.2.rg.sb k = NMap.get 0 s.rg.sb k) hs _ rfl
      fun acc h x hx => (get_startWork_ne acc (hk c rfl x hx)).trans h

end

/-! ### A store before its bytes enter the FIFOs -/

/-- A store under way: its counter has risen in its home warps, which have its work to do, and the store FIFOs hold the writes that they
held. -/
structure Primed (s m : State) (sbc : Option (Fin 6)) (homes : List Nat) : Prop extends Underway s m where
  counted : Say.Counted s m s.curWarp.gi sbc homes
  works : ∀ x ∈ m.curWarp.works, x.1 ∈ homes
  begun : sbc.isSome = true → homes ≠ [] → m.curWarp.works ≠ []
  fifos : ∀ k, (m.hwarp k).fifo.map (·.writes) = (s.hwarp k).fifo.map (·.writes)

/-- No commit point has come: the store FIFOs and the threads' records are as they were. -/
def Uncommitted (s m : State) : Prop := m.rg.hwarps = s.rg.hwarps ∧ m.rg.threads = s.rg.threads

/-- What a word may have to wait for is as it was: memory, the pending results, its own phase. -/
def SameWaits (s m : State) : Prop := m.mm = s.mm ∧ m.wk.results = s.wk.results ∧ m.curWarp.phase = s.curWarp.phase

theorem counted_congr {s m t : State} {gi : Nat} {sbc : Option (Fin 6)} {hs : List Nat} (h : Say.Counted s m gi sbc hs) (e : t.rg.sb = m.rg.sb) :
    Say.Counted s t gi sbc hs := by
  simpa only [Say.Counted, sbOf, e] using h

theorem Uncommitted.trans {s m t : State} (h : Uncommitted s m) (g : Uncommitted m t) : Uncommitted s t :=
  ⟨g.1.trans h.1, g.2.trans h.2⟩

section
variable {s m t : State} {sbc : Option (Fin 6)} {homes : List Nat} {lanes : List (Nat × LaneEnt)}

/-- Accesses made on the way leave a store primed. -/
theorem Primed.underway (h : Primed s m sbc homes) (hf : Underway m t) (hsb : t.rg.sb = m.rg.sb) (hw : t.curWarp.works = m.curWarp.works)
    (hfifo : ∀ k, (t.hwarp k).fifo.map (·.writes) = (m.hwarp k).fifo.map (·.writes)) : Primed s t sbc homes where
  toUnderway := h.toUnderway.trans hf
  counted := counted_congr h.counted hsb
  works := hw ▸ h.works
  begun := hw ▸ h.begun
  fifos k := (hfifo k).trans (h.fifos k)

theorem Primed.fencing (h : Primed s m sbc homes) (hf : Fencing m t)
    (hfifo : ∀ k, (t.hwarp k).fifo.map (·.writes) = (m.hwarp k).fifo.map (·.writes)) : Primed s t sbc homes :=
  h.underway hf.underway hf.counters (congrArg Warp.works hf.warp :) hfifo

/-- The same for home warps listed otherwise. -/
theorem Primed.congr (h : Primed s m sbc homes) {homes' : List Nat} (he : ∀ hw, hw ∈ homes' ↔ hw ∈ homes) : Primed s m sbc homes' where
  toUnderway := h.toUnderway
  counted := by simpa only [Say.Counted, he] using h.counted
  works x hx := (he _).2 (h.works x hx)
  begun hs hne := h.begun hs fun e => by
    obtain ⟨hw, hm⟩ := List.exists_mem_of_ne_nil _ hne
    simpa [e] using (he hw).1 hm
  fifos := h.fifos

/-- The executing warp with works of its word: all else stands. -/
theorem underway_works (s : State) (l : List (Nat × Nat)) : Underway s (s.updWarp s.md.cur (fun w => { w with works := l })) := by
  constructor
  case toQuiet => constructor <;> rfl
  case others => exact fun id hi => congrArg _ (NMap.find_upd_ne _ _ _ _ hi)
  case self => exact find_upd_map _ _ _ _ idle fun _ => rfl
  all_goals intros; rfl

theorem underway_of_uncounted (h : uncounted m = uncounted s) : Underway s m := by
  simp only [uncounted, State.mk.injEq, RegSt.mk.injEq, WorkSt.mk.injEq, ModelSt.mk.injEq] at h
  obtain ⟨⟨hag, hcur, -, -⟩, ⟨hthreads, hv, hs, hp, hk, -, -⟩, ⟨hwarps, hgroups, hspans, -, -, -, hstops, -⟩, hmm, -, hen, hfb, hcx, hpt⟩ := h
  exact { vectors := hv, scalars := hs, predicates := hp, masks := hk, scratch := by rw [hmm], engines := hen, fabric := hfb, contexts := hcx,
          part := by rw [hpt], spans := hspans, stops := hstops, agenda := hag, cur := hcur, mem := by rw [hmm], groups := hgroups,
          others := fun _ _ => by rw [hwarps], self := by rw [hwarps], threads := fun _ => by rw [hthreads], seats := fun _ => by rw [hthreads] }

theorem curWarp_none (h : s.wk.warps.find s.md.cur = none) : s.curWarp = {} := by
  rw [State.curWarp, State.warp, h, Option.getD_none]

theorem phase_updWarp_works (s : State) (l : List (Nat × Nat)) :
    (s.updWarp s.md.cur (fun w => { w with works := l })).curWarp.phase = s.curWarp.phase := by
  have hf : (s.updWarp s.md.cur (fun w => { w with works := l })).wk.warps.find s.md.cur = (s.wk.warps.find s.md.cur).map
    (fun w => { w with works := l }) := NMap.find_upd_self ..
  rw [State.curWarp, State.warp, State.updWarp_md, hf, State.curWarp, State.warp]
  cases s.wk.warps.find s.md.cur <;> rfl

theorem works_updWarp (s : State) (l : List (Nat × Nat)) {w : Warp} (hw : s.wk.warps.find s.md.cur = some w) :
    (s.updWarp s.md.cur (fun w => { w with works := l })).curWarp.works = l := by
  rw [curWarp_eq (x := { w with works := l })]
  rw [State.updWarp_wk]
  exact (NMap.find_upd_self ..).trans (by rw [hw]; rfl)

/-- THE WORD ISSUES: its counter rises once in each of its lanes' home warps. -/
theorem primed_openWorks (h : CounterRoom s s.curWarp.gi sbc (homeWarps lanes)) (hl : ∀ q ∈ lanes, q ∈ activeLanes s.curWarp) :
    Primed s (openWorks s sbc lanes) sbc (homeWarps lanes) ∧ Uncommitted s (openWorks s sbc lanes) ∧ SameWaits s (openWorks s sbc lanes) := by
  obtain ⟨h0, -⟩ := h
  cases sbc with
  | none =>
    refine ⟨⟨.refl s, ⟨nofun, fun _ _ => rfl⟩, fun x hx => ?_, nofun, fun _ => rfl⟩, ⟨rfl, rfl⟩, rfl, rfl, rfl⟩
    rw [show (openWorks s none lanes).curWarp.works = s.curWarp.works from rfl, h0] at hx
    cases hx
  | some c =>
    have he : openWorks s (some c) lanes = (startWorks s s.curWarp.gi (some c) (homeWarps lanes) 1).2.updWarp s.md.cur
        (fun w => { w with works := (startWorks s s.curWarp.gi (some c) (homeWarps lanes) 1).1 }) := by
      refine if_neg ?_
      rw [show (s.warp s.md.cur).works = [] from h0]
      exact Bool.false_ne_true
    have hun := uncounted_startWorks (s := s) (gi := s.curWarp.gi) (c := c) (hs := homeWarps lanes)
    have hcount := counted_startWorks (s := s) (gi := s.curWarp.gi) (c := c) (nodup_homeWarps lanes)
    have hhomes := startWorks_homes (s := s) (gi := s.curWarp.gi) (c := c) (hs := homeWarps lanes)
    generalize startWorks s s.curWarp.gi (some c) (homeWarps lanes) 1 = r at he hun hcount hhomes
    have hu := underway_of_uncounted hun
    simp only [uncounted, State.mk.injEq, RegSt.mk.injEq, WorkSt.mk.injEq] at hun
    obtain ⟨-, ⟨hthreads, -, -, -, -, -, hhwarps⟩, ⟨hwarps, -, -, -, hresults, -⟩, hmm, -⟩ := hun
    rw [← hu.cur] at he
    have hworks : ∀ w, s.wk.warps.find s.md.cur = some w → (openWorks s (some c) lanes).curWarp.works = r.1 := fun w hw => by
      rw [he]
      exact works_updWarp _ _ (by rw [hu.cur, hwarps, hw])
    have hnone : s.wk.warps.find s.md.cur = none → lanes = [] := fun hn => List.eq_nil_iff_forall_not_mem.2 fun q hq => by
      have hq' := hl q hq
      rw [curWarp_none hn] at hq'
      cases hq'
    have hpush : Underway s (openWorks s (some c) lanes) := he ▸ hu.trans (underway_works r.2 r.1)
    refine ⟨⟨hpush, by rw [he]; exact hcount, fun x hx => ?_, fun _ hne => ?_, fun k => ?_⟩, ?_, ?_⟩
    · cases hw : s.wk.warps.find s.md.cur with
      | none =>
        have h0' : (openWorks s (some c) lanes).curWarp.works = [] := by
          have hs := hpush.self
          rw [hw, Option.map_none, Option.map_eq_none_iff, ← hpush.cur] at hs
          rw [curWarp_none hs]
        rw [h0'] at hx
        cases hx
      | some w =>
        rw [hworks w hw] at hx
        exact hhomes ▸ List.mem_map_of_mem hx
    · cases hw : s.wk.warps.find s.md.cur with
      | none => simp [hnone hw, homeWarps] at hne
      | some w =>
        rw [hworks w hw]
        rintro h0'
        exact hne (by rw [← hhomes, h0', List.map_nil])
    · rw [he, State.hwarp, State.updWarp_rg, hhwarps, State.hwarp]
    · rw [he]
      exact ⟨hhwarps, hthreads⟩
    · rw [he]
      refine ⟨hmm, hresults, (phase_updWarp_works r.2 r.1).trans ?_⟩
      rw [State.curWarp, hu.cur, warp_congr hwarps, State.curWarp]

/-- The counter does not rise again for a word whose works stand (R66). -/
theorem Primed.openWorks_again (h : Primed s m sbc homes) (hl : homeWarps lanes ≠ [] → homes ≠ []) :
    Primed s (openWorks m sbc lanes) sbc homes ∧ Uncommitted m (openWorks m sbc lanes) ∧ SameWaits m (openWorks m sbc lanes) := by
  by_cases hc : (sbc.isNone || m.curWarp.works != []) = true
  · have he : openWorks m sbc lanes = m := if_pos hc
    rw [he]
    exact ⟨h, ⟨rfl, rfl⟩, rfl, rfl, rfl⟩
  · simp only [Bool.or_eq_true, not_or, Option.isNone_iff_eq_none, bne_iff_ne, ne_eq, not_not] at hc
    obtain ⟨hsbc, h0⟩ := hc
    have hh : homeWarps lanes = [] := by
      by_contra hne
      exact h.begun (Option.isSome_iff_ne_none.2 hsbc) (hl hne) h0
    have he : openWorks m sbc lanes = m.updWarp m.md.cur (fun w => { w with works := [] }) := by
      obtain ⟨c, rfl⟩ := Option.ne_none_iff_exists'.1 hsbc
      refine (if_neg ?_).trans ?_
      · rw [show (m.warp m.md.cur).works = [] from h0]
        exact Bool.false_ne_true
      · rw [hh]
        rfl
    rw [he]
    refine ⟨h.underway (underway_works m []) rfl ?_ fun _ => rfl, ⟨rfl, rfl⟩, rfl, rfl, phase_updWarp_works m []⟩
    rw [h0]
    cases hw : m.wk.warps.find m.md.cur with
    | none => rw [curWarp_none (by rw [State.updWarp_wk]; exact (NMap.find_upd_self ..).trans (by rw [hw]; rfl))]
    | some w => exact works_updWarp m [] hw

/-! ### The bytes enter the FIFOs (R154, R158) -/

/-- The entry that a store makes in a home warp's FIFO. -/
def storeEntry (s : State) (gi : Nat) (lanes : List (Nat × LaneEnt)) (writes : Nat × LaneEnt → List FWrite) (hint : Nat) (rel : Bool)
    (works : List (Nat × Nat)) (sync : Option Nat) (hw id : Nat) : FifoEntry :=
  let mine := sortLanes (lanes.filter (fun q => q.2.hwarp = hw))
  { id := id, writes := mine.flatMap writes,
    uncommitted := if rel then [] else (mine.map (·.2.hlane)).filter (fun l => (s.thread (thKey gi hw l)).restart.isOpen),
    work := NMap.find works hw, hint := hint, rel := rel, sync := sync }

theorem mem_insertLane {q r : Nat × LaneEnt} {l : List (Nat × LaneEnt)} : r ∈ insertLane q l ↔ r = q ∨ r ∈ l := by
  induction l with
  | nil => simp [insertLane]
  | cons a l ih =>
    unfold insertLane
    split
    · exact List.mem_cons
    · simp only [List.mem_cons, ih]
      tauto

theorem mem_sortLanes {r : Nat × LaneEnt} {l : List (Nat × LaneEnt)} : r ∈ sortLanes l ↔ r ∈ l := by
  induction l with
  | nil => rfl
  | cons a l ih => rw [sortLanes, List.foldr_cons, mem_insertLane, List.mem_cons, ← ih, sortLanes]

/-- One entry is made. -/
def pushEntry (gi : Nat) (e : State → Nat → Nat → FifoEntry) (s : State) (hw : Nat) : State :=
  s.fresh.2.updHWarp (hwKey gi hw) (fun x => { x with fifo := x.fifo ++ [e s.fresh.2 hw s.fresh.1] })

/-- What entering the FIFOs leaves alone. -/
theorem fencing_pushEntry (s : State) (gi hw : Nat) (e : State → Nat → Nat → FifoEntry) : Fencing s (pushEntry gi e s hw) := by
  constructor
  case toQuiet => constructor <;> rfl
  all_goals intros; rfl

/-- A primed word has work for its lanes' home warps alone: all of it is taken up. -/
theorem Primed.takeWorks (h : Primed s m sbc (homeWarps lanes)) :
    Machine.takeWorks m m.md.cur lanes = (m.curWarp.works, m.updWarp m.md.cur (fun w => { w with works := [] })) := by
  have hall : m.curWarp.works.filter (fun x => (homeWarps lanes).contains x.1) = m.curWarp.works :=
    List.filter_eq_self.2 fun x hx => List.contains_iff_mem.2 (h.works x hx)
  have hnone : m.curWarp.works.filter (fun x => !(homeWarps lanes).contains x.1) = [] :=
    List.filter_eq_nil_iff.2 fun x hx => by simp [h.works x hx]
  show (m.curWarp.works.filter (fun x => (homeWarps lanes).contains x.1), finishWorks _
    ((m.curWarp.works.filter (fun x => !(homeWarps lanes).contains x.1)).map (·.2))) = _
  rw [hall, hnone]
  rfl

/-- The stores of a primed word: its works taken up, an entry made for each home warp. -/
theorem pushStores_eq (h : Primed s m sbc (homeWarps lanes)) (writes : Nat × LaneEnt → List FWrite) (hint : Nat) (rel : Bool) :
    ∃ u sync, Underway m u ∧ u.rg = m.rg ∧ u.mm = m.mm ∧ (sync.isSome = true ↔ 2 ≤ (homeWarps lanes).length) ∧
      pushStores m lanes writes hint rel = (homeWarps lanes).foldl (pushEntry s.curWarp.gi
        (fun t => storeEntry t s.curWarp.gi lanes writes hint rel m.curWarp.works sync)) u := by
  refine ⟨(m.updWarp m.md.cur (fun w => { w with works := [] })).fresh.2,
    if 2 ≤ (homeWarps lanes).length then some (m.updWarp m.md.cur (fun w => { w with works := [] })).fresh.1 else none,
    (underway_works m []).trans (.of_aside rfl rfl), rfl, rfl, by split <;> simp [*], ?_⟩
  unfold pushStores
  rw [h.takeWorks, h.gi]
  rfl

/-- Each home warp's FIFO has taken in one entry behind those that it held. -/
theorem pushEntry_fifo {e : State → Nat → Nat → FifoEntry} {gi hw : Nat} {homes : List Nat} (hn : homes.Nodup) (hm : hw ∈ homes) (s : State) :
    ∃ t id, t.rg.threads = s.rg.threads ∧
      ((homes.foldl (pushEntry gi e) s).hwarp (hwKey gi hw)).fifo = (s.hwarp (hwKey gi hw)).fifo ++ [e t hw id] := by
  have hstep : ∀ (t : State) x, (pushEntry gi e t x).rg.threads = t.rg.threads ∧ ((pushEntry gi e t x).hwarp (hwKey gi hw)).fifo =
      if hw = x then (t.hwarp (hwKey gi hw)).fifo ++ [e t.fresh.2 hw t.fresh.1] else (t.hwarp (hwKey gi hw)).fifo := fun t x => by
    refine ⟨rfl, ?_⟩
    rw [pushEntry, hwarp_updHWarp]
    by_cases hx : hw = x
    · subst hx
      rw [if_pos rfl, if_pos rfl]
      rfl
    · rw [if_neg fun h => hx (hwKey_inj h), if_neg hx]
      rfl
  refine foldl_once (p := fun t : State => t.rg.threads = s.rg.threads ∧ (t.hwarp (hwKey gi hw)).fifo = (s.hwarp (hwKey gi hw)).fifo)
    (q := fun t => ∃ u id, u.rg.threads = s.rg.threads ∧ (t.hwarp (hwKey gi hw)).fifo = (s.hwarp (hwKey gi hw)).fifo ++ [e u hw id])
    hn hm (fun t x hx ht => ?_) (fun t ht => ?_) (fun t x hx ht => ?_) ⟨rfl, rfl⟩
  · exact ⟨(hstep t x).1.trans ht.1, by rw [(hstep t x).2, if_neg (Ne.symm hx), ht.2]⟩
  · exact ⟨t.fresh.2, t.fresh.1, ht.1, by rw [(hstep t hw).2, if_pos rfl, ht.2]⟩
  · obtain ⟨u, id, hu, hf⟩ := ht
    exact ⟨u, id, hu, by rw [(hstep t x).2, if_neg (Ne.symm hx), hf]⟩

/-- A commit point leaves what the FIFOs' entries write, and their number. -/
theorem commitHW_tail {s : State} {gi h wid : Nat} {after : List Nat} {k : Nat} {l : List FifoEntry} {e : FifoEntry}
    (hf : (s.hwarp k).fifo = l ++ [e]) : ∃ l' c, ((commitHW s gi h wid after).hwarp k).fifo = l' ++ [{ e with uncommitted := c }] ∧
      l'.map (·.writes) = l.map (·.writes) := by
  rw [commitHW_fifo]
  split
  · refine ⟨l.map (fun e => { e with uncommitted := [] }), [], by rw [hf]; simp, by simp [Function.comp_def]⟩
  · exact ⟨l, e.uncommitted, hf, rfl⟩

theorem commitLanes_tail {s : State} {wid : Nat} {lanes : List (Nat × LaneEnt)} {k : Nat} {l : List FifoEntry} {e : FifoEntry}
    (hf : (s.hwarp k).fifo = l ++ [e]) : ∃ l' c, ((commitLanes s wid lanes).hwarp k).fifo = l' ++ [{ e with uncommitted := c }] ∧
      l'.map (·.writes) = l.map (·.writes) := by
  refine List.foldlRecOn (motive := fun t : State => ∃ l' c, (t.hwarp k).fifo = l' ++ [{ e with uncommitted := c }] ∧
    l'.map (·.writes) = l.map (·.writes)) _ _ ⟨l, e.uncommitted, hf, rfl⟩ fun t ht h _ => ?_
  obtain ⟨l', c, hf', hw⟩ := ht
  obtain ⟨l'', c', hf'', hw'⟩ := commitHW_tail hf'
  exact ⟨l'', c', hf'', hw'.trans hw⟩

/-- The lanes that pass a commit point leave no entry of their home warps uncommitted. -/
theorem commitLanes_committed {s : State} {wid gi hw : Nat} {lanes : List (Nat × LaneEnt)} (hgi : (s.warp wid).gi = gi)
    (hm : hw ∈ homeWarps lanes) : ∀ e ∈ ((commitLanes s wid lanes).hwarp (hwKey gi hw)).fifo, e.uncommitted = [] := by
  have hclear : ∀ (l : List FifoEntry), ∀ e ∈ l.map (fun e => { e with uncommitted := [] }), e.uncommitted = [] := fun l e he => by
    obtain ⟨x, -, rfl⟩ := List.mem_map.1 he
    rfl
  refine (foldl_reaches (p := fun t : State => t.wk = s.wk)
    (q := fun t : State => t.wk = s.wk ∧ ∀ e ∈ (t.hwarp (hwKey gi hw)).fifo, e.uncommitted = []) hm
    (fun t h _ _ ht => (commitHW_wk ..).trans ht) (fun t ht => ?_) (fun t h _ ht => ?_) rfl).2
  · refine ⟨(commitHW_wk ..).trans ht, fun e he => ?_⟩
    rw [commitHW_fifo, warp_congr (congrArg WorkSt.warps ht), hgi, if_pos rfl] at he
    exact hclear _ e he
  · refine ⟨(commitHW_wk ..).trans ht.1, fun e he => ?_⟩
    rw [commitHW_fifo] at he
    split at he
    · exact hclear _ e he
    · exact ht.2 e he

/-! ### A store's end -/

/-- The home lanes of a home warp, among some lanes, whose threads have an open region. -/
def openLanesOf (s : State) (lanes : List (Nat × LaneEnt)) (hw : Nat) : List Nat :=
  (lanes.filter (fun q => q.2.hwarp = hw && (s.thread (thKey s.curWarp.gi hw q.2.hlane)).restart.isOpen)).map (fun q => q.2.hlane)

/-- WHAT A STORE LEAVES IN THE FIFOS (R154, R158, R369): behind the entries of each of its lanes' home warps one more, of every lane's bytes. -/
def Entered (s t : State) (lanes : List (Nat × LaneEnt)) (bytes : Nat) (ord : Bool) (hint : Nat) (rel : Bool)
    (put : Nat × LaneEnt → Nat → FWrite) : Prop :=
  ∃ sync : Option Nat, (sync.isSome = true ↔ 2 ≤ (homeWarps lanes).length) ∧ ∀ hw ∈ homeWarps lanes, ∃ e l,
    (t.hwarp (hwKey s.curWarp.gi hw)).fifo = l ++ [e] ∧ l.map (·.writes) = (s.hwarp (hwKey s.curWarp.gi hw)).fifo.map (·.writes) ∧
    (∀ f, f ∈ e.writes ↔ ∃ q ∈ lanes, q.2.hwarp = hw ∧ ∃ i < bytes, f = put q i) ∧ e.hint = hint ∧ e.rel = rel ∧
    (ord = false → s.curWarp.foundFull = false →
      (∀ j, j ∈ e.uncommitted ↔ j ∈ openLanesOf s lanes hw) ∧ l = (s.hwarp (hwKey s.curWarp.gi hw)).fifo) ∧
    (ord = true ∨ s.curWarp.foundFull = true → e.uncommitted = []) ∧ e.sync = sync

/-- What a store leaves as it was. -/
def StoreRest (s t : State) : Prop := Quiet s t ∧ t.mm.mem = s.mm.mem ∧ Onward bare s t

/-- What an entry writes: the bytes of the lanes of its home warp. -/
theorem mem_storeEntry_writes {gi bytes hint hw id : Nat} {rel : Bool} {works : List (Nat × Nat)} {sync : Option Nat}
    {writes : Nat × LaneEnt → List FWrite} {put : Nat × LaneEnt → Nat → FWrite}
    (hput : ∀ q ∈ lanes, ∀ f, f ∈ writes q ↔ ∃ i < bytes, f = put q i) (f : FWrite) :
    f ∈ (storeEntry s gi lanes writes hint rel works sync hw id).writes ↔ ∃ q ∈ lanes, q.2.hwarp = hw ∧ ∃ i < bytes, f = put q i := by
  simp only [storeEntry, List.mem_flatMap, mem_sortLanes, List.mem_filter, decide_eq_true_eq, and_assoc]
  exact exists_congr fun q => and_congr_right fun hq => and_congr_right fun _ => hput q hq f

/-- The lanes for which it stands uncommitted: those inside an open region (R369). -/
theorem mem_storeEntry_uncommitted {hint hw id : Nat} {works : List (Nat × Nat)} {sync : Option Nat} {writes : Nat × LaneEnt → List FWrite}
    (ht : t.rg.threads = s.rg.threads) (j : Nat) :
    j ∈ (storeEntry t s.curWarp.gi lanes writes hint false works sync hw id).uncommitted ↔ j ∈ openLanesOf s lanes hw := by
  simp only [storeEntry, openLanesOf, State.thread, ht, Bool.false_eq_true, if_false, List.mem_filter, List.mem_map, mem_sortLanes,
    decide_eq_true_eq, Bool.and_eq_true]
  constructor
  · rintro ⟨⟨q, ⟨hq, hw⟩, rfl⟩, ho⟩
    exact ⟨q, ⟨hq, hw, ho⟩, rfl⟩
  · rintro ⟨q, ⟨hq, hw, ho⟩, rfl⟩
    exact ⟨⟨q, ⟨hq, hw⟩, rfl⟩, ho⟩

/-- A PRIMED STORE ENDS: one entry for each home warp, of every lane's bytes; the counters stand. -/
theorem Primed.stored {ord rel : Bool} {bytes hint : Nat} {writes : Nat × LaneEnt → List FWrite} {put : Nat × LaneEnt → Nat → FWrite}
    (h : Primed s m sbc (homeWarps lanes)) (hun : ord = false → Uncommitted s m) (hrel : rel = true → ord = true)
    (hput : ∀ q ∈ lanes, ∀ f, f ∈ writes q ↔ ∃ i < bytes, f = put q i) (b w : Bool) :
    let t := finish (commitStore (pushStores m lanes writes hint rel) ord lanes) b w
    StoreRest s t ∧ t.rg.sb = m.rg.sb ∧ Entered s t lanes bytes ord hint rel put := by
  obtain ⟨u, sync, hmu, hrg, hmm, hsync, he⟩ := pushStores_eq h writes hint rel
  have hfence : Fencing u (pushStores m lanes writes hint rel) := by
    rw [he]
    exact .foldl (fun t hw _ => fencing_pushEntry ..) u
  have hpush := hmu.trans hfence.underway
  have hfifo : ∀ hw ∈ homeWarps lanes, ∃ t id, t.rg.threads = m.rg.threads ∧
      ((pushStores m lanes writes hint rel).hwarp (hwKey s.curWarp.gi hw)).fifo = (m.hwarp (hwKey s.curWarp.gi hw)).fifo ++
        [storeEntry t s.curWarp.gi lanes writes hint rel m.curWarp.works sync hw id] := fun hw hm => by
    obtain ⟨t, id, ht, hf⟩ := pushEntry_fifo (e := fun t => storeEntry t s.curWarp.gi lanes writes hint rel m.curWarp.works sync)
      (gi := s.curWarp.gi) (nodup_homeWarps lanes) hm u
    refine ⟨t, id, ht.trans (congrArg RegSt.threads hrg), ?_⟩
    rw [he, hf, State.hwarp, hrg, State.hwarp]
  have hsb : (pushStores m lanes writes hint rel).rg.sb = m.rg.sb := hfence.counters.trans (congrArg RegSt.sb hrg)
  generalize pushStores m lanes writes hint rel = v at hfence hpush hfifo hsb
  have hgi : v.curWarp.gi = s.curWarp.gi := (h.toUnderway.trans hpush).gi
  have hfound : v.curWarp.foundFull = s.curWarp.foundFull := (h.toUnderway.trans hpush).foundFull
  have hcommit : Fencing v (commitStore v ord lanes) := by
    unfold commitStore
    split
    · exact fencing_commitLanes ..
    · exact .refl v
  have hall := h.toUnderway.trans (hpush.trans hcommit.underway)
  intro t
  have st := still_finish (commitStore v ord lanes) b w
  refine ⟨⟨hall.quiet b w, (congrArg MemSt.mem (still_mm st)).trans hall.mem, hall.onward b w⟩,
    (still_sb st).trans (hcommit.counters.trans hsb), sync, hsync, fun hw hm => ?_⟩
  · obtain ⟨u', id, hu', hf⟩ := hfifo hw hm
    have hmem := mem_storeEntry_writes (s := u') (gi := s.curWarp.gi) (hint := hint) (hw := hw) (id := id) (rel := rel) (works := m.curWarp.works)
      (sync := sync) hput
    have hend : (t.hwarp (hwKey s.curWarp.gi hw)).fifo = ((commitStore v ord lanes).hwarp (hwKey s.curWarp.gi hw)).fifo := by
      rw [State.hwarp, still_hwarps st, State.hwarp]
    rw [hend]
    by_cases hc : (ord || v.curWarp.foundFull) = true
    · obtain ⟨l, c, hl, hwrites⟩ := commitLanes_tail (wid := v.md.cur) (lanes := lanes) hf
      have hnil : c = [] := commitLanes_committed (s := v) (wid := v.md.cur) hgi hm _ (hl ▸ List.mem_append_right _ (List.mem_singleton_self _))
      rw [commitStore, if_pos hc]
      refine ⟨_, l, hl, hwrites.trans (h.fifos _), hmem, rfl, rfl, fun ho hff => ?_, fun _ => hnil, rfl⟩
      rw [hfound, ho, hff] at hc
      cases hc
    · rw [commitStore, if_neg hc]
      simp only [hfound, Bool.or_eq_true, not_or, Bool.not_eq_true] at hc
      obtain ⟨ho, hff⟩ := hc
      obtain ⟨hhw, hth⟩ := hun ho
      have hr : rel = false := Bool.eq_false_iff.2 fun hr => by simp [hrel hr] at ho
      subst hr
      refine ⟨_, _, hf, h.fifos _, hmem, rfl, rfl, fun _ _ => ⟨mem_storeEntry_uncommitted (hu'.trans hth), ?_⟩, fun hor => ?_, rfl⟩
      · rw [State.hwarp, hhw, State.hwarp]
      · simp [ho, hff] at hor

end

end Sys2Proof.Machine
end

section
/-!
SUPPORT. ST, STS and STSC (R154, R157 to R160): where nothing is to be waited for, the word is primed, and each taking lane's bytes enter.
-/
namespace Sys2Proof.Machine

open Say

section
variable {s m t : State} {sbc : Option (Fin 6)} {lanes l : List (Nat × LaneEnt)}

/-! ### The bytes of a lane -/

/-- Records made of lanes that are told apart by their physical numbers: a lane finds its own. -/
theorem find_ofLane {β : Type} (g : Nat × LaneEnt → β) {key : β → Nat} (hkey : ∀ q, key (g q) = q.1)
    (hu : ∀ a ∈ lanes, ∀ b ∈ lanes, a.1 = b.1 → a = b) {q : Nat × LaneEnt} (hq : q ∈ lanes) :
    (lanes.map g).find? (fun a => key a = q.1) = some (g q) := by
  rw [List.find?_map, Option.map_eq_some_iff]
  have hself : ((fun a => decide (key a = q.1)) ∘ g) q = true := by simp [hkey]
  obtain ⟨a, ha⟩ := Option.isSome_iff_exists.1 (List.find?_isSome.2 ⟨q, hq, hself⟩)
  have hkey' := List.find?_some ha
  simp only [Function.comp_apply, hkey, decide_eq_true_eq] at hkey'
  exact ⟨a, ha, by rw [hu a (List.mem_of_find?_eq_some ha) q hq hkey']⟩

theorem getD_dataBytes (s : State) (d : Reg) (bytes p : Nat) (e : LaneEnt) {i : Nat} (hi : i < bytes) :
    (dataBytes s d bytes p e).getD i 0 = BitVec.ofNat 8 (srcVal s d ((bytes + 3) / 4) p e / 256 ^ i) := by
  simp [dataBytes, bytesOfNat, List.getD_eq_getElem?_getD, hi]

/-- The same entries, of lanes listed otherwise. -/
theorem Entered.congr {bytes hint : Nat} {ord rel : Bool} {put put' : Nat × LaneEnt → Nat → FWrite} (h : Entered s t l bytes ord hint rel put)
    (hl : ∀ q, q ∈ l ↔ q ∈ lanes) (hp : ∀ q ∈ lanes, ∀ i < bytes, put q i = put' q i) : Entered s t lanes bytes ord hint rel put' := by
  obtain ⟨sync, hsync, hent⟩ := h
  refine ⟨sync, length_homeWarps hl ▸ hsync, fun hw hm => ?_⟩
  obtain ⟨e, p, hf, hwr, hmem, hh, hr, hun, hcom, hs⟩ := hent hw (homeWarps_subset (fun q hq => (hl q).2 hq) hw hm)
  refine ⟨e, p, hf, hwr, fun f => (hmem f).trans ?_, hh, hr, fun ho hff => ⟨fun j => ((hun ho hff).1 j).trans ?_, (hun ho hff).2⟩, hcom, hs⟩
  · refine exists_congr fun q => (and_congr_left' (hl q)).trans (and_congr_right fun hq => and_congr_right fun _ => exists_congr fun i =>
      and_congr_right fun hi => ?_)
    rw [hp q hq i hi]
  · simp only [openLanesOf, List.mem_map, List.mem_filter, hl]

/-! ### Accesses settled on the way -/

theorem fencing_fixOver (s : State) (gi h lane : Nat) (sp : Bool) (addr n : Nat) : Fencing s (fixOver s gi h lane sp addr n) := by
  constructor
  case toQuiet => constructor <;> rfl
  all_goals intros; rfl

/-- Settling pending loads touches them alone. -/
theorem Primed.fixOvers {β : Type} {homes : List Nat} (h : Primed s m sbc homes) {f : State → β → State} {ys : List β}
    (hf : ∀ s y, ∃ gi h lane sp addr n, f s y = fixOver s gi h lane sp addr n) :
    Primed s (ys.foldl f m) sbc homes ∧ Uncommitted m (ys.foldl f m) ∧ (ys.foldl f m).rg.sb = m.rg.sb := by
  refine List.foldlRecOn (motive := fun t => Primed s t sbc homes ∧ Uncommitted m t ∧ t.rg.sb = m.rg.sb) ys f ⟨h, ⟨rfl, rfl⟩, rfl⟩
    fun t ht y _ => ?_
  obtain ⟨gi, hw, lane, sp, addr, n, he⟩ := hf t y
  obtain ⟨hp, hun, hsb⟩ := ht
  rw [he]
  exact ⟨hp.fencing (fencing_fixOver ..) fun _ => rfl, hun.trans ⟨rfl, rfl⟩, hsb⟩

/-- Commit points leave what the FIFOs' entries write. -/
theorem commitHomes_writes (s : State) (gi wid : Nat) (hs : List Nat) (k : Nat) :
    ((commitHomes s gi wid hs).hwarp k).fifo.map (·.writes) = (s.hwarp k).fifo.map (·.writes) :=
  List.foldlRecOn (motive := fun t : State => (t.hwarp k).fifo.map (·.writes) = (s.hwarp k).fifo.map (·.writes)) hs _ rfl fun t ht h _ => by
    rw [commitHW_fifo, ← ht]
    split
    · rw [List.map_map]
      rfl
    · rfl

theorem Primed.fixResults {homes : List Nat} (h : Primed s m sbc homes) (gi : Nat) (threads : List Nat) :
    Primed s (fixResults m gi threads) sbc homes := h.fencing (fencing_fixResults ..) fun _ => rfl

theorem Primed.phased {homes : List Nat} (h : Primed s m sbc homes) {wid : Nat} (hw : wid = m.md.cur) (n : Nat) :
    Primed s (m.updWarp wid (fun w => { w with phase := n })) sbc homes := h.fencing (fencing_phase hw n) fun _ => rfl

/-- A release at cove scope or wider with nothing left to wait for leaves a store primed (R157). -/
theorem Primed.release {homes : List Nat} {threads : List Nat} (h : Primed s m sbc homes) (hrel : Released m m.curWarp)
    (hset : Settled m m.curWarp.gi threads) (k : State → State) :
    ∃ u, withRelease m k = k u ∧ Primed s u sbc homes ∧ u.mm = m.mm ∧ Settled u m.curWarp.gi threads := by
  by_cases hp : m.curWarp.phase = 0
  · obtain ⟨hfifo, hall, hclean, hsent⟩ := hrel.resolve_left (not_not_intro hp)
    obtain ⟨hwk, hmm⟩ := commitHomes_keeps (s := m) m.curWarp.gi m.md.cur (warpHomes m.curWarp)
    obtain ⟨hf, hm, hs⟩ := releasedTo_committed m.md.cur m.curWarp.gi (warpHomes m.curWarp) (warpThreads m.curWarp) hset
    have hcommitted : Primed s (commitHomes m m.curWarp.gi m.md.cur (warpHomes m.curWarp)) sbc homes :=
      h.fencing (fencing_commitHomes ..) (commitHomes_writes m _ _ _)
    refine ⟨_, ?_, (hcommitted.fixResults m.curWarp.gi (warpThreads m.curWarp)).phased hf.cur.symm 1, hm, settled_congr hs rfl rfl⟩
    rw [withRelease]
    refine (if_pos hp).trans ?_
    dsimp only
    rw [show m.warp m.md.cur = m.curWarp from rfl, fullFifos_nil hfifo, if_neg (by simp),
      withAccesses_settled (settled_congr hall (by rw [hwk]) (by rw [hmm])), sendAll_clean (by rwa [hm]) (by rwa [hm])]
    rfl
  · exact ⟨m, if_neg hp, h, rfl, hset⟩

/-- What a release asks stands for a store that has issued. -/
theorem Primed.released {homes : List Nat} (h : Primed s m sbc homes) (hun : Uncommitted s m) (hw : SameWaits s m)
    (hr : Released s s.curWarp) : Released m m.curWarp := by
  obtain ⟨hmm, hresults, hphase⟩ := hw
  have hlanes : activeLanes m.curWarp = activeLanes s.curWarp := activeLanes_congr (congrArg Warp.lanes h.warp :)
  have hcore : m.curWarp.core = s.curWarp.core := (congrArg Warp.core h.warp :)
  have hthreads : warpThreads m.curWarp = warpThreads s.curWarp := by rw [warpThreads, hlanes, h.gi, warpThreads]
  have hhomes : warpHomes m.curWarp = warpHomes s.curWarp := by rw [warpHomes, hlanes, warpHomes]
  refine hr.imp (fun hp => hphase ▸ hp) fun ⟨hfifo, hset, hclean, hsent⟩ => ⟨fun hw hm => ?_, ?_, ?_, ?_⟩
  · rw [State.hwarp, hun.1, h.gi]
    exact hfifo hw (hhomes ▸ hm)
  · rw [h.gi, hthreads]
    exact settled_congr hset hresults (by rw [hmm])
  · rw [hmm, hcore]
    exact hclean
  · rw [hmm, hcore]
    exact hsent

/-! ### Scratchpad stores (R159, R160) -/

/-- The writes of a lane to the scratchpad, at the address that its record names. -/
def spadStores (base bytes : Nat) (oks : List (Nat × LaneEnt × Nat)) (data : Nat × LaneEnt → List Byte) (q : Nat × LaneEnt) : List FWrite :=
  match oks.find? (fun a => a.1 = q.1) with
  | none => []
  | some a => (List.range bytes).map (fun i => { lane := q.2.hlane, dest := .spad, addr := base + a.2.2 + i, byte := (data q).getD i 0 })

theorem stsGo_eq (m : State) (h : Hdr) (bytes : Nat) (oks : List (Nat × LaneEnt × Nat)) (rel : Bool) (data : Nat × LaneEnt → List Byte) :
    stsGo m h bytes oks rel data = finish (commitStore (pushStores
      (oks.foldl (fun s a => fixOver s m.curWarp.gi a.2.1.hwarp a.2.1.hlane true ((m.group m.curWarp.gi).spBase + a.2.2) bytes) m)
      (oks.map (fun a => (a.1, a.2.1))) (spadStores (m.group m.curWarp.gi).spBase bytes oks data) 0 false) rel
      (oks.map (fun a => (a.1, a.2.1)))) h.b h.w := rfl

/-- A PRIMED STORE TO THE SCRATCHPAD ENDS, as STS, STSC and LDSC end alike. -/
theorem Primed.stsGo {bytes : Nat} {rel : Bool} (hp : Primed s m sbc (homeWarps l)) (hun : rel = false → Uncommitted s m)
    (hu : ∀ a ∈ l, ∀ b ∈ l, a.1 = b.1 → a = b) (h : Hdr) (off : Nat × LaneEnt → Nat) (data : Nat × LaneEnt → List Byte) :
    let t := stsGo m h bytes (l.map (fun q => (q.1, q.2, off q))) rel data
    StoreRest s t ∧ t.rg.sb = m.rg.sb ∧ Entered s t l bytes rel 0 false
      (fun q i => ⟨q.2.hlane, .spad, (s.group s.curWarp.gi).spBase + off q + i, (data q).getD i 0⟩) := by
  have hlanes : (l.map (fun q => (q.1, q.2, off q))).map (fun a => (a.1, a.2.1)) = l := by
    rw [List.map_map]
    exact List.map_id l
  obtain ⟨hp', hun', hsb⟩ := hp.fixOvers (ys := l.map (fun q => (q.1, q.2, off q)))
    (f := fun s a => fixOver s m.curWarp.gi a.2.1.hwarp a.2.1.hlane true ((m.group m.curWarp.gi).spBase + a.2.2) bytes)
    fun _ a => ⟨m.curWarp.gi, a.2.1.hwarp, a.2.1.hlane, true, (m.group m.curWarp.gi).spBase + a.2.2, bytes, rfl⟩
  rw [stsGo_eq, hlanes]
  rw [← hsb]
  refine hp'.stored (fun hr => (hun hr).trans hun') (fun hr => absurd hr Bool.false_ne_true) (fun q hq f => ?_) h.b h.w
  rw [spadStores, find_ofLane (fun q => (q.1, q.2, off q)) (key := (·.1)) (fun _ => rfl) hu hq]
  simp only [List.mem_map, List.mem_range, hp.gi, hp.group, eq_comm]

/-! ### ST (R154, R155, R320) -/

/-- The access of a lane of ST. -/
def storeAcc (s : State) (m : MemOp) (q : Nat × LaneEnt) : Acc :=
  ⟨q.1, q.2, memEa s m (widthBytes m.width) q.1 q.2, memEa s m (widthBytes m.width) q.1 q.2, none⟩

/-- The accesses of lanes with their translations. -/
def translated (s : State) (m : MemOp) (tr : Nat → Xl) (lanes : List (Nat × LaneEnt)) : List (Acc × Xl) :=
  lanes.map (fun q => (storeAcc s m q, tr q.1))

/-- Where a lane's byte goes: memory's own place, or a window of the fabric. -/
def storePut (s : State) (d : Reg) (m : MemOp) (tr : Nat → Xl) (q : Nat × LaneEnt) (i : Nat) : FWrite :=
  ⟨q.2.hlane, if (tr q.1).ty = .txWin then .tx (tr q.1).key else .mem (ctxOf s s.curWarp) (memEa s m (widthBytes m.width) q.1 q.2 / 2 ^ 16),
    (tr q.1).pa + i, BitVec.ofNat 8 (srcVal s d ((widthBytes m.width + 3) / 4) q.1 q.2 / 256 ^ i)⟩

theorem accLanes_translated (s : State) (m : MemOp) (tr : Nat → Xl) (lanes : List (Nat × LaneEnt)) :
    accLanes (translated s m tr lanes) = lanes := by
  rw [accLanes, translated, List.map_map]
  exact List.map_id lanes

/-- What a lane of ST stores, once the word is under way. -/
theorem mem_storeWrites {op : MemOp} {d : Reg} {tr : Nat → Xl} (hm : Underway s m) (hu : ∀ a ∈ lanes, ∀ b ∈ lanes, a.1 = b.1 → a = b)
    {q : Nat × LaneEnt} (hq : q ∈ lanes) (f : FWrite) :
    f ∈ storeWrites m (ctxOf s s.curWarp) (widthBytes op.width) d (translated s op tr lanes) q ↔
      ∃ i < widthBytes op.width, f = storePut s d op tr q i := by
  have hfind : (translated s op tr lanes).find? (fun a => a.1.pl = q.1) = some (storeAcc s op q, tr q.1) :=
    find_ofLane (fun q => (storeAcc s op q, tr q.1)) (key := fun a => a.1.pl) (fun _ => rfl) hu hq
  rw [storeWrites, hfind]
  simp only [List.mem_map, List.mem_range]
  refine exists_congr fun i => and_congr_right fun hi => ?_
  rw [getD_dataBytes m d _ q.1 q.2 hi, hm.srcVal, eq_comm]
  rfl

/-- The end of ST, from where its accesses have been ordered. -/
def stEnd (m : State) (gi ctx : Nat) (h : Hdr) (d : Reg) (op : MemOp) (oks : List (Acc × Xl)) : State :=
  withOverlap m gi (rangesOf (oks.filter (fun a => a.2.ty != .txWin)) (widthBytes op.width)) (fun s =>
    finish (commitStore (pushStores s (accLanes oks) (storeWrites s ctx (widthBytes op.width) d oks) (hintNum op.hint)
      (op.ord && op.scope != .grp)) op.ord (accLanes oks)) h.b h.w)

/-- ST where its lanes' accesses have been translated. -/
theorem stWord_eq (s : State) (h : Hdr) (d : Reg) (m : MemOp) : stWord s h d m =
    withCounter s m.sbc (takingLanes s s.curWarp h) (fun s' => withRoom s' (takingLanes s s.curWarp h) (fun s' =>
      withXlate s' 0x81 .write (widthBytes m.width) (stCheck (ctxOf s s.curWarp)) m.sbc [] ((takingLanes s s.curWarp h).map (storeAcc s' m))
        (fun oks s' => if oks = [] then finishNone s' h.b h.w
          else if !m.ord then stEnd s' s.curWarp.gi (ctxOf s s.curWarp) h d m oks
          else if m.scope = .grp then withAccesses s' s.curWarp.gi ((accLanes oks).map (fun q => thKey s.curWarp.gi q.2.hwarp q.2.hlane))
            (fun s' => stEnd s' s.curWarp.gi (ctxOf s s.curWarp) h d m oks)
          else withRelease s' (fun s' => stEnd s' s.curWarp.gi (ctxOf s s.curWarp) h d m oks)))) := rfl

/-- The threads of lanes, by key. -/
def laneKeysOf (gi : Nat) (lanes : List (Nat × LaneEnt)) : List Nat := lanes.map (fun q => thKey gi q.2.hwarp q.2.hlane)

/-- A primed ST whose threads have nothing outstanding ends as a store. -/
theorem Primed.stEnd {op : MemOp} {d : Reg} {tr : Nat → Xl} (hp : Primed s m sbc (homeWarps lanes)) (hun : op.ord = false → Uncommitted s m)
    (hu : ∀ a ∈ lanes, ∀ b ∈ lanes, a.1 = b.1 → a = b) (hset : Settled m s.curWarp.gi (laneKeysOf s.curWarp.gi lanes)) (h : Hdr) :
    let t := Machine.stEnd m s.curWarp.gi (ctxOf s s.curWarp) h d op (translated s op tr lanes)
    StoreRest s t ∧ Say.Counted s t s.curWarp.gi sbc (homeWarps lanes) ∧
      Entered s t lanes (widthBytes op.width) op.ord (hintNum op.hint) (op.ord && op.scope != .grp) (storePut s d op tr) := by
  have hranges : ∀ y ∈ rangesOf ((translated s op tr lanes).filter (fun a => a.2.ty != .txWin)) (widthBytes op.width),
      thKey s.curWarp.gi y.1 y.2.1 ∈ laneKeysOf s.curWarp.gi lanes := fun y hy => by
    obtain ⟨a, ha, rfl⟩ := List.mem_map.1 hy
    obtain ⟨q, hq, rfl⟩ := List.mem_map.1 (List.mem_of_mem_filter ha)
    exact List.mem_map_of_mem (f := fun q : Nat × LaneEnt => thKey s.curWarp.gi q.2.hwarp q.2.hlane) hq
  rw [Machine.stEnd, withOverlap_settled hset hranges, accLanes_translated]
  obtain ⟨hp', hun', -⟩ := hp.fixOvers
    (ys := rangesOf ((translated s op tr lanes).filter (fun a => a.2.ty != .txWin)) (widthBytes op.width))
    (f := fun s' y => fixOver s' s.curWarp.gi y.1 y.2.1 false y.2.2.1 y.2.2.2) fun _ y => ⟨s.curWarp.gi, y.1, y.2.1, false, y.2.2.1, y.2.2.2, rfl⟩
  obtain ⟨hrest, hsb, hent⟩ := hp'.stored (fun ho => (hun ho).trans hun') (fun hr => (Bool.and_eq_true_iff.1 hr).1)
    (fun q hq => mem_storeWrites hp'.toUnderway hu hq) h.b h.w
  exact ⟨hrest, counted_congr hp'.counted hsb, hent⟩

end

section
variable {s : State} {h : Hdr} {m : MemOp}

/-- The lanes of a word, its threads with nothing outstanding and room in their FIFOs. -/
structure Storable (s : State) (lanes : List (Nat × LaneEnt)) : Prop where
  active : ∀ q ∈ lanes, q ∈ activeLanes s.curWarp
  unique : ∀ a ∈ lanes, ∀ b ∈ lanes, a.1 = b.1 → a = b
  room : ∀ hw ∈ homeWarps lanes, (s.hwarp (hwKey s.curWarp.gi hw)).fifo.length < 64
  settled : Settled s s.curWarp.gi (laneKeysOf s.curWarp.gi lanes)

/-- A store without lanes counts nothing and ends. -/
theorem Primed.finishNone {sbc : Option (Fin 6)} {v : State} (hp : Primed s v sbc (homeWarps [])) {bytes hint : Nat} {ord rel : Bool}
    {put : Nat × LaneEnt → Nat → FWrite} (b w : Bool) :
    let t := Machine.finishNone v b w
    StoreRest s t ∧ Say.Counted s t s.curWarp.gi sbc (homeWarps []) ∧ Entered s t [] bytes ord hint rel put := by
  have hu := hp.toUnderway.trans (underway_works v [])
  intro t
  have ht : t = finish (v.updWarp v.md.cur (fun w => { w with works := [] })) b w := by
    show finish (Machine.takeWorks v v.md.cur []).2 b w = _
    rw [hp.takeWorks]
  have st := still_finish (v.updWarp v.md.cur (fun w => { w with works := [] })) b w
  rw [ht]
  refine ⟨⟨hu.quiet b w, (congrArg MemSt.mem (still_mm st)).trans hu.mem, hu.onward b w⟩, counted_congr hp.counted (still_sb st), none,
    by simp [homeWarps], nofun⟩

/-- ST where no lane is stopped or delayed. -/
theorem st_stores {lanes : List (Nat × LaneEnt)} (hl : takingLanes s s.curWarp h = lanes) (hs : Storable s lanes) (d : Reg) {tr : Nat → Xl}
    (hroom : CounterRoom s s.curWarp.gi m.sbc (homeWarps lanes))
    (htr : ∀ q ∈ lanes, Through s s.curWarp .write (widthBytes m.width) (memEa s m (widthBytes m.width) q.1 q.2) (tr q.1) ∧
      (if (tr q.1).ty = .txWin then txCheck s (ctxOf s s.curWarp) (tr q.1) false = none else storable s (tr q.1) = true))
    (hwide : (m.ord && m.scope != .grp) = true → Released s s.curWarp) :
    let t := stWord s h d m
    StoreRest s t ∧ Say.Counted s t s.curWarp.gi m.sbc (homeWarps lanes) ∧
      Entered s t lanes (widthBytes m.width) m.ord (hintNum m.hint) (m.ord && m.scope != .grp) (storePut s d m tr) := by
  have hlanes : (lanes.map (storeAcc s m)).map (fun a => (a.pl, a.ent)) = lanes := by
    rw [List.map_map]
    exact List.map_id lanes
  have hok : ∀ a ∈ lanes.map (storeAcc s m),
      accRes s s.curWarp .write (widthBytes m.width) (stCheck (ctxOf s s.curWarp)) a = .ok (tr a.pl) := fun a ha => by
    obtain ⟨q, hq, rfl⟩ := List.mem_map.1 ha
    obtain ⟨hth, hty⟩ := htr q hq
    refine accRes_through rfl hth ?_
    unfold stCheck
    split at hty
    next => exact (if_pos ‹_›).trans hty
    next => exact (if_neg ‹_›).trans (if_pos hty)
  have hcont : (lanes.map (storeAcc s m)).map (fun a => (a, tr a.pl)) = translated s m tr lanes := List.map_map
  obtain ⟨hp, hun, hw⟩ := primed_openWorks hroom hs.active
  rw [stWord_eq, hl, withCounter_room hroom, withRoom_room hs.room, withXlate_ok hok (by rw [List.nil_append, hlanes]; exact hs.settled) (by decide),
    List.nil_append, hlanes, hcont, accLanes_translated]
  generalize openWorks s m.sbc lanes = v at hp hun hw
  have hset : Settled v s.curWarp.gi (laneKeysOf s.curWarp.gi lanes) := settled_congr hs.settled hw.2.1 (by rw [hw.1])
  split
  next h0 =>
    obtain rfl : lanes = [] := List.map_eq_nil_iff.1 h0
    exact hp.finishNone h.b h.w
  next =>
    split
    next => exact hp.stEnd (fun _ => hun) hs.unique hset h
    next ho =>
      have ho : m.ord = true := by simpa using ho
      have hord : ∀ {p : Prop}, m.ord = false → p := fun h0 => by simp [ho] at h0
      split
      next =>
        rw [show lanes.map (fun q => thKey s.curWarp.gi q.2.hwarp q.2.hlane) = laneKeysOf s.curWarp.gi lanes from rfl, withAccesses_settled hset]
        exact (hp.fixResults ..).stEnd hord hs.unique (settled_fixResults hset ..) h
      next hsc =>
        have hrel := hp.released hun hw (hwide (by simp [ho, hsc]))
        obtain ⟨u, he, hpu, -, hsetu⟩ := hp.release hrel (threads := laneKeysOf s.curWarp.gi lanes) (by rw [hp.gi]; exact hset)
          (fun s' => stEnd s' s.curWarp.gi (ctxOf s s.curWarp) h d m (translated s m tr lanes))
        rw [he]
        exact hpu.stEnd hord hs.unique (hp.gi ▸ hsetu) h

/-- The bytes that a lane stores from a register of its own. -/
def dataByte (s : State) (d : Reg) (bytes : Nat) (q : Nat × LaneEnt) (i : Nat) : Byte :=
  BitVec.ofNat 8 (srcVal s d ((bytes + 3) / 4) q.1 q.2 / 256 ^ i)

theorem getD_dataBytes_underway {v : State} (hv : Underway s v) (d : Reg) (bytes : Nat) (q : Nat × LaneEnt) {i : Nat} (hi : i < bytes) :
    (dataBytes v d bytes q.1 q.2).getD i 0 = dataByte s d bytes q i := by
  rw [getD_dataBytes v d bytes q.1 q.2 hi, hv.srcVal, dataByte]

/-- What a lane of STS stores, at its own place in the group's scratchpad. -/
def spadPut (s : State) (d : Reg) (m : MemOp) (q : Nat × LaneEnt) (i : Nat) : FWrite :=
  ⟨q.2.hlane, .spad, (s.group s.curWarp.gi).spBase + memEa s m (widthBytes m.width) q.1 q.2 + i, dataByte s d (widthBytes m.width) q i⟩

/-- The places that lanes name in the scratchpad. -/
def spadAccs (s : State) (m : MemOp) (lanes : List (Nat × LaneEnt)) : List (Nat × LaneEnt × Nat) :=
  lanes.map (fun q => (q.1, q.2, memEa s m (widthBytes m.width) q.1 q.2))

theorem spadAccs_lanes (s : State) (m : MemOp) (lanes : List (Nat × LaneEnt)) : (spadAccs s m lanes).map (fun a => (a.1, a.2.1)) = lanes := by
  rw [spadAccs, List.map_map]
  exact List.map_id lanes

/-- The end of STS, from where its accesses have been ordered. -/
def stsEnd (u : State) (h : Hdr) (d : Reg) (m : MemOp) (oks : List (Nat × LaneEnt × Nat)) : State :=
  stsGo u h (widthBytes m.width) oks m.ord (fun q => dataBytes u d (widthBytes m.width) q.1 q.2)

/-- STS from where its lanes' accesses have issued. -/
def stsIssued (s : State) (h : Hdr) (d : Reg) (m : MemOp) (oks : List (Nat × LaneEnt × Nat)) (v : State) : State :=
  if m.ord && oks ≠ [] then
    withAccesses v s.curWarp.gi (oks.map (fun a => thKey s.curWarp.gi a.2.1.hwarp a.2.1.hlane)) (fun u => stsEnd u h d m oks)
  else stsEnd v h d m oks

theorem sts_eq (s : State) (h : Hdr) (d : Reg) (m : MemOp) : exec (.sts h d m) s =
    .next (withCounter s m.sbc (takingLanes s s.curWarp h) (fun s' => withRoom s' (takingLanes s s.curWarp h) (fun s' =>
      withSpad s' 0x83 (widthBytes m.width) false m.sbc (spadAccs s' m (takingLanes s s.curWarp h)) (stsIssued s h d m)))) := rfl

theorem Primed.stsEnd {u : State} {lanes : List (Nat × LaneEnt)} (hp : Primed s u m.sbc (homeWarps lanes)) (hun : m.ord = false → Uncommitted s u)
    (hs : Storable s lanes) (h : Hdr) (d : Reg) :
    let t := Machine.stsEnd u h d m (spadAccs s m lanes)
    StoreRest s t ∧ Say.Counted s t s.curWarp.gi m.sbc (homeWarps lanes) ∧
      Entered s t lanes (widthBytes m.width) m.ord 0 false (spadPut s d m) := by
  obtain ⟨hrest, hsb, hent⟩ := hp.stsGo hun hs.unique h (fun q => memEa s m (widthBytes m.width) q.1 q.2)
    (fun q => dataBytes u d (widthBytes m.width) q.1 q.2)
  exact ⟨hrest, counted_congr hp.counted hsb, hent.congr (fun _ => .rfl) fun q _ i hi => by
    rw [spadPut, getD_dataBytes_underway hp.toUnderway d _ q hi]⟩

/-- STS where no lane is stopped or delayed. -/
theorem sts_stores {lanes : List (Nat × LaneEnt)} (hl : takingLanes s s.curWarp h = lanes) (hs : Storable s lanes) (d : Reg)
    (hroom : CounterRoom s s.curWarp.gi m.sbc (homeWarps lanes))
    (hspad : ∀ q ∈ lanes, SpadReady s s.curWarp (widthBytes m.width) (memEa s m (widthBytes m.width) q.1 q.2) false) :
    ∃ t, exec (.sts h d m) s = .next t ∧ StoreRest s t ∧ Say.Counted s t s.curWarp.gi m.sbc (homeWarps lanes) ∧
      Entered s t lanes (widthBytes m.width) m.ord 0 false (spadPut s d m) := by
  obtain ⟨hp, hun, hw⟩ := primed_openWorks hroom hs.active
  have hset : Settled (openWorks s m.sbc lanes) s.curWarp.gi (laneKeysOf s.curWarp.gi lanes) := settled_congr hs.settled hw.2.1 (by rw [hw.1])
  have he : exec (.sts h d m) s = .next (stsIssued s h d m (spadAccs s m lanes) (openWorks s m.sbc lanes)) := by
    rw [sts_eq, hl, withCounter_room hroom, withRoom_room hs.room,
      withSpad_ready (l := spadAccs s m lanes) (List.forall_mem_map.2 hspad) (by rw [spadAccs_lanes]; exact hs.settled), spadAccs_lanes]
  refine ⟨_, he, ?_⟩
  by_cases ho : (m.ord && spadAccs s m lanes ≠ []) = true
  · have hkeys : (spadAccs s m lanes).map (fun a => thKey s.curWarp.gi a.2.1.hwarp a.2.1.hlane) = laneKeysOf s.curWarp.gi lanes := List.map_map
    rw [stsIssued, if_pos ho, hkeys, withAccesses_settled hset]
    exact (hp.fixResults ..).stsEnd (fun h0 => by simp [h0] at ho) hs h d
  · rw [stsIssued, if_neg ho]
    exact hp.stsEnd (fun _ => hun) hs h d

/-- STSC where no lane is stopped or delayed. -/
theorem stsc_stores {q0 : Nat × LaneEnt} {l : List (Nat × LaneEnt)} (hl : takingLanes s s.curWarp h = q0 :: l) (hs : Storable s (q0 :: l)) (d : Reg)
    (hroom : CounterRoom s s.curWarp.gi none (homeWarps (q0 :: l)))
    (hspad : SpadReady s s.curWarp (widthBytes m.width) (memEa s m (widthBytes m.width) q0.1 q0.2) false) :
    ∃ t, exec (.stsc h d m) s = .next t ∧ StoreRest s t ∧ t.rg.sb = s.rg.sb ∧
      Entered s t (q0 :: l) (widthBytes m.width) false 0 false (fun q i => ⟨q.2.hlane, .spad,
        (s.group s.curWarp.gi).spBase + memEa s m (widthBytes m.width) q0.1 q0.2 + i, dataByte s d (widthBytes m.width) q0 i⟩) := by
  obtain ⟨hp, -, -⟩ := primed_openWorks hroom hs.active
  obtain ⟨hrest, hsb, hent⟩ := hp.stsGo (rel := false) (bytes := widthBytes m.width) (fun _ => ⟨rfl, rfl⟩) hs.unique h
    (fun _ => memEa s m (widthBytes m.width) q0.1 q0.2) (fun _ => dataBytes s d (widthBytes m.width) q0.1 q0.2)
  refine ⟨_, ?_, hrest, hsb, hent.congr (fun _ => .rfl) fun q _ i hi => by rw [getD_dataBytes_underway (.refl s) d _ q0 hi]⟩
  refine congrArg Host.Outcome.next ?_
  rw [hl, withRoom_room hs.room]
  dsimp only
  rw [withAcquired_settled hs.settled, spadRes_ready hspad]
  rfl

end

end Sys2Proof.Machine
end

section
/-!
SUPPORT. The constant cache (R143, R161): what reading constants leaves alone, and the bytes that it gives.
-/
namespace Sys2Proof.Machine

open Say

/-! ### What reading a line of constants leaves alone -/

/-- What the LLC leaves alone: all but its own lines, HBM's poison, frames' heat, requests counted, drops and free values. -/
def shelf (s : State) : ((RegSt × WorkSt × EngSt × FabSt × CtxSt × PartSt) × List Host.Cell × Nat × List Turn) ×
    List Host.Cell × NMap L1Line × NMap CodeLine :=
  (aside s, s.mm.mem, s.mm.l1, s.mm.ccache)

section
variable {s t u : State} {w : Warp}

theorem aside_of_shelf (h : shelf t = shelf s) : aside t = aside s := congrArg (·.1) h
theorem mem_of_shelf (h : shelf t = shelf s) : t.mm.mem = s.mm.mem := congrArg (·.2.1) h
theorem ccache_of_shelf (h : shelf t = shelf s) : t.mm.ccache = s.mm.ccache := congrArg (·.2.2.2) h

theorem shelf_sendDrop (s : State) (core line : Nat) (words : List Nat) : shelf (sendDrop s core line words) = shelf s := by
  unfold sendDrop
  split <;> rfl

theorem shelf_llcEvict (s : State) (line : Nat) : shelf (llcEvict s line) = shelf s := by
  unfold llcEvict
  split
  · rfl
  · exact foldl_keep shelf _ (fun _ _ => shelf_sendDrop ..) _ _

theorem shelf_llcEnsure (s : State) (line : Nat) : shelf (llcEnsure s line) = shelf s := by
  unfold llcEnsure
  split
  · rfl
  · dsimp only
    split
    · exact (shelf_llcEvict ..).trans rfl
    · rfl

theorem shelf_codeFill (s : State) (w : Warp) (va pa : Nat) : shelf (codeFill s w va pa).2 = shelf s :=
  (shelf_llcEnsure ..).trans rfl

theorem shelf_codePut (m : NMap CodeLine) (cap core : Nat) (x : CodeLine) (s : State) : shelf (codePut m cap core x s).2 = shelf s := by
  unfold codePut
  dsimp only
  split <;> rfl

theorem objOf_of_aside (h : aside t = aside s) (w : Warp) : objOf t w = objOf s w := by
  simp only [aside, outside, Prod.mk.injEq] at h
  obtain ⟨⟨-, hwk, -, -, -, hpt⟩, -⟩ := h
  simp only [objOf, ctxOf, State.grid, State.group, hwk, hpt]

/-! ### Lines of the cache -/

theorem NMap.mem_of_mem_erase {α : Type} {m : NMap α} {k : Nat} {c : Nat × α} (h : c ∈ NMap.erase m k) : c ∈ m := by
  induction m with
  | nil => exact h
  | cons x m ih =>
    rw [NMap.erase] at h
    split at h
    · exact List.mem_cons_of_mem _ (ih h)
    · exact (List.mem_cons.1 h).elim (fun e => e ▸ List.mem_cons_self) fun h => List.mem_cons_of_mem _ (ih h)

/-- A full cache may give a line up; none but the new one comes in. -/
theorem mem_codePut {m : NMap CodeLine} {cap core : Nat} {x : CodeLine} {c : Nat × CodeLine} (h : c ∈ (codePut m cap core x s).1) :
    c.2 = x ∨ c ∈ m := by
  have hnew : ∀ {m' : NMap CodeLine} {k : Nat}, c ∈ NMap.insert m' k x → (c ∈ m' → c ∈ m) → c.2 = x ∨ c ∈ m := fun hc hsub =>
    (NMap.mem_of_mem_insert hc).imp (fun e => by rw [e]) hsub
  unfold codePut at h
  dsimp only at h
  split at h
  · exact hnew h fun hc => List.mem_of_mem_filter (NMap.mem_of_mem_erase hc)
  · exact hnew h List.mem_of_mem_filter

/-- A line that the cache of a core holds for an object. -/
theorem codeLine_some {m : NMap CodeLine} {core obj vline : Nat} {l : CodeLine} (h : codeLine m core obj vline = some l) :
    ∃ c ∈ m, c.2 = l ∧ c.1 / 2 ^ 41 = core ∧ c.2.obj = obj ∧ c.2.vline = vline := by
  obtain ⟨c, hc, rfl⟩ := Option.map_eq_some_iff.1 h
  have hp := List.find?_some hc
  simp only [Bool.and_eq_true, decide_eq_true_eq] at hp
  obtain ⟨⟨hcore, hobj⟩, hvline⟩ := hp
  exact ⟨c, List.mem_of_find?_eq_some hc, rfl, hcore, hobj, hvline⟩

theorem codeLine_none {m : NMap CodeLine} {core obj vline : Nat} (h : codeLine m core obj vline = none) {c : Nat × CodeLine} (hc : c ∈ m) :
    ¬(c.1 / 2 ^ 41 = core ∧ c.2.obj = obj ∧ c.2.vline = vline) := by
  rw [codeLine, Option.map_eq_none_iff, List.find?_eq_none] at h
  simpa [and_assoc] using h c hc

/-! ### The bytes read -/

/-- A word of a line, as the cache or the LLC holds it (R143). -/
def constWord (x : CodeLine) (first : Nat) (acc : List Byte × State) (i : Nat) : List Byte × State :=
  let old := (x.bytes.drop ((first + i) * 4)).take 4
  let new := memBytes acc.2 (x.line * 128 + (first + i) * 4) 4
  if old = new then (acc.1 ++ old, acc.2)
  else
    let (b, s) := acc.2.coin
    (acc.1 ++ (if b then new else old), s)

/-- The line that a read of constants finds, or brings in. -/
def constLine (s : State) (w : Warp) (va pa : Nat) : CodeLine × State :=
  match codeLine s.mm.ccache w.core (objOf s w) (va / 128) with
  | some l => (l, s)
  | none => ((codeFill s w va pa).1, (codePut (codeFill s w va pa).2.mm.ccache 512 w.core (codeFill s w va pa).1 (codeFill s w va pa).2).2.updMM
      (fun y => { y with ccache := (codePut (codeFill s w va pa).2.mm.ccache 512 w.core (codeFill s w va pa).1 (codeFill s w va pa).2).1 }))

/-- The words of a line that cover some bytes. -/
def constWords (x : CodeLine) (va n : Nat) (s : State) : List Byte × State :=
  (List.range ((va % 128 + n - 1) / 4 + 1 - va % 128 / 4)).foldl (constWord x (va % 128 / 4)) ([], s)

theorem constBytes_eq (s : State) (w : Warp) (va pa n : Nat) : constBytes s w va pa n =
    (((constWords (constLine s w va pa).1 va n (constLine s w va pa).2).1.drop (va % 4)).take n,
      (constWords (constLine s w va pa).1 va n (constLine s w va pa).2).2) := by
  unfold constBytes constLine
  cases codeLine s.mm.ccache w.core (objOf s w) (va / 128) <;> rfl

/-- Byte `j` of a line, as the cache or memory holds it. -/
def LineByte (s : State) (x : CodeLine) (j : Nat) (b : Byte) : Prop := b = x.bytes.getD j 0 ∨ b = memByte s (x.line * 128 + j)

theorem constWord_spec {x : CodeLine} (hx : x.bytes.length = 128) {first : Nat} {acc : List Byte × State} {i : Nat} (hi : first + i < 32)
    (hs : shelf acc.2 = shelf s) : shelf (constWord x first acc i).2 = shelf s ∧
    ∃ l : List Byte, (constWord x first acc i).1 = acc.1 ++ l ∧ l.length = 4 ∧
      ∀ j < 4, LineByte s x ((first + i) * 4 + j) (l.getD j 0) := by
  have hold : ((x.bytes.drop ((first + i) * 4)).take 4).length = 4 ∧
      ∀ j < 4, LineByte s x ((first + i) * 4 + j) (((x.bytes.drop ((first + i) * 4)).take 4).getD j 0) :=
    ⟨by rw [List.length_take, List.length_drop, hx]; omega, fun j hj => .inl (by simp [List.getD_eq_getElem?_getD, hj])⟩
  have hnew : (memBytes acc.2 (x.line * 128 + (first + i) * 4) 4).length = 4 ∧
      ∀ j < 4, LineByte s x ((first + i) * 4 + j) ((memBytes acc.2 (x.line * 128 + (first + i) * 4) 4).getD j 0) :=
    ⟨by simp [memBytes], fun j hj => .inr (by simp [memBytes, List.getD_eq_getElem?_getD, hj, memByte, mem_of_shelf hs, Nat.add_assoc])⟩
  unfold constWord
  dsimp only
  split
  · exact ⟨hs, _, rfl, hold⟩
  · refine ⟨hs, _, rfl, ?_⟩
    split
    · exact hnew
    · exact hold

theorem constWords_spec {x : CodeLine} (hx : x.bytes.length = 128) {first k : Nat} (hk : first + k ≤ 32) (s : State) :
    let r := (List.range k).foldl (constWord x first) ([], s)
    shelf r.2 = shelf s ∧ r.1.length = 4 * k ∧ ∀ j < 4 * k, LineByte s x (first * 4 + j) (r.1.getD j 0) := by
  induction k with
  | zero => exact ⟨rfl, rfl, nofun⟩
  | succ k ih =>
    obtain ⟨hs, hlen, hb⟩ := ih (by omega)
    rw [List.range_succ, List.foldl_append, List.foldl_cons, List.foldl_nil]
    obtain ⟨hs', l, hl, hl4, hlb⟩ := constWord_spec hx (by omega : first + k < 32) hs
    refine ⟨hs', by rw [hl, List.length_append, hlen, hl4]; omega, fun j hj => ?_⟩
    rw [hl]
    by_cases hjk : j < 4 * k
    · rw [List.getD_append _ _ _ _ (by omega)]
      exact hb j hjk
    · rw [List.getD_append_right _ _ _ _ (by omega), hlen]
      have := hlb (j - 4 * k) (by omega)
      rwa [show (first + k) * 4 + (j - 4 * k) = first * 4 + j by omega] at this

/-- Words beyond the line's own bytes leave the state alike: only coins are thrown. -/
theorem shelf_constWords (x : CodeLine) (va n : Nat) (s : State) : shelf (constWords x va n s).2 = shelf s :=
  foldl_keep (fun acc : List Byte × State => shelf acc.2) _ (fun acc i => by
    unfold constWord
    dsimp only
    split <;> rfl) _ _

/-- A read of constants within one line gives the line's bytes. -/
theorem getD_constBytes {va pa n : Nat} (hn : va % 128 + n ≤ 128) (hx : (constLine s w va pa).1.bytes.length = 128) {i : Nat} (hi : i < n) :
    LineByte (constLine s w va pa).2 (constLine s w va pa).1 (va % 128 + i) ((constBytes s w va pa n).1.getD i 0) := by
  rw [constBytes_eq]
  generalize constLine s w va pa = r at *
  obtain ⟨-, hlen, hb⟩ := constWords_spec hx (first := va % 128 / 4) (k := (va % 128 + n - 1) / 4 + 1 - va % 128 / 4) (by omega) r.2
  have hj := hb (va % 4 + i) (by omega)
  rw [show va % 128 / 4 * 4 + (va % 4 + i) = va % 128 + i by omega] at hj
  simpa [constWords, List.getD_eq_getElem?_getD, List.getElem?_take, hi] using hj

/-! ### Lane after lane -/

/-- What a cache of constants has come to while a word reads them: memory's bytes stand, and a line that was not there has been brought in
whole for one of the word's own accesses. -/
structure ReadOn (s : State) (lines : List (Nat × Nat)) (u : State) : Prop where
  aside : Machine.aside u = Machine.aside s
  mem : u.mm.mem = s.mm.mem
  lines : ∀ c ∈ u.mm.ccache, c ∈ s.mm.ccache ∨ ((c.2.vline, c.2.line) ∈ lines ∧ c.2.bytes = memBytes s (c.2.line * 128) 128)

theorem constLine_hit {va : Nat} {l : CodeLine} (h : codeLine s.mm.ccache w.core (objOf s w) (va / 128) = some l) (pa : Nat) :
    constLine s w va pa = (l, s) := by
  rw [constLine, h]

theorem constLine_miss {va : Nat} (h : codeLine s.mm.ccache w.core (objOf s w) (va / 128) = none) (pa : Nat) :
    constLine s w va pa = ((codeFill s w va pa).1,
      (codePut (codeFill s w va pa).2.mm.ccache 512 w.core (codeFill s w va pa).1 (codeFill s w va pa).2).2.updMM
      (fun y => { y with ccache := (codePut (codeFill s w va pa).2.mm.ccache 512 w.core (codeFill s w va pa).1 (codeFill s w va pa).2).1 })) := by
  rw [constLine, h]

/-- A lane whose line the cache holds reads it, and the cache stands. -/
theorem constBytes_hit {va n : Nat} (hn : va % 128 + n ≤ 128) (h : (codeLine s.mm.ccache w.core (objOf s w) (va / 128)).isSome = true)
    (hu : shelf u = shelf s) (pa : Nat) {t : Xl} :
    shelf (constBytes u w va pa n).2 = shelf s ∧ ∀ i < n, ConstByte s w va t i ((constBytes u w va pa n).1.getD i 0) := by
  obtain ⟨l, hl⟩ := Option.isSome_iff_exists.1 h
  have hline : constLine u w va pa = (l, u) := constLine_hit (by rw [ccache_of_shelf hu, objOf_of_aside (aside_of_shelf hu), hl]) pa
  refine ⟨by rw [constBytes_eq, hline]; exact (shelf_constWords ..).trans hu, fun i hi => ?_⟩
  unfold ConstByte
  rw [hl]
  intro hlen
  have hb := getD_constBytes (s := u) (pa := pa) hn (by rw [hline]; exact hlen) hi
  rw [hline] at hb
  refine hb.imp id fun hb => hb.trans ?_
  rw [memByte, mem_of_shelf hu, memByte, Nat.add_assoc]

/-- A lane whose line the cache did not hold reads memory, through the line that is brought in for it, or was for one before it. -/
theorem constBytes_miss {va pa n : Nat} (hn : va % 128 + n ≤ 128) (h : codeLine s.mm.ccache w.core (objOf s w) (va / 128) = none)
    (hpa : pa % 128 = va % 128) {lines : List (Nat × Nat)} (hm : (va / 128, pa / 128) ∈ lines)
    (hone : ∀ y ∈ lines, y.1 = va / 128 → y.2 = pa / 128) (hu : ReadOn s lines u) {t : Xl} (ht : t.pa = pa) :
    ReadOn s lines (constBytes u w va pa n).2 ∧ ∀ i < n, ConstByte s w va t i ((constBytes u w va pa n).1.getD i 0) := by
  have hobj := objOf_of_aside hu.aside w
  have hline : ReadOn s lines (constLine u w va pa).2 ∧ (constLine u w va pa).1.line = pa / 128 ∧
      (constLine u w va pa).1.bytes = memBytes s (pa / 128 * 128) 128 := by
    cases hc : codeLine u.mm.ccache w.core (objOf u w) (va / 128) with
    | some l =>
      obtain ⟨c, hcm, rfl, hcore, hcobj, hvl⟩ := codeLine_some hc
      obtain hcs | ⟨hcl, hcb⟩ := hu.lines c hcm
      · exact absurd ⟨hcore, hobj ▸ hcobj, hvl⟩ (codeLine_none h hcs)
      · rw [constLine_hit hc]
        have hcline := hone _ hcl hvl
        exact ⟨hu, hcline, hcline ▸ hcb⟩
    | none =>
      have hfill := shelf_codeFill u w va pa
      have hbytes : (codeFill u w va pa).1.bytes = memBytes s (pa / 128 * 128) 128 := by
        rw [← memBytes_congr ((mem_of_shelf hfill).trans hu.mem)]
        rfl
      have hput := shelf_codePut (codeFill u w va pa).2.mm.ccache 512 w.core (codeFill u w va pa).1 (codeFill u w va pa).2
      rw [constLine_miss hc]
      refine ⟨⟨(aside_of_shelf (hput.trans hfill)).trans hu.aside, (mem_of_shelf (hput.trans hfill)).trans hu.mem, fun c hcm => ?_⟩, rfl, hbytes⟩
      obtain hnew | hold := mem_codePut hcm
      · exact .inr ⟨by rw [hnew]; exact hm, by rw [hnew]; exact hbytes⟩
      · exact hu.lines c (ccache_of_shelf hfill ▸ hold)
  obtain ⟨hread, hpl, hbytes⟩ := hline
  refine ⟨?_, fun i hi => ?_⟩
  · have hs := shelf_constWords (constLine u w va pa).1 va n (constLine u w va pa).2
    rw [constBytes_eq]
    exact ⟨(aside_of_shelf hs).trans hread.aside, (mem_of_shelf hs).trans hread.mem, by rw [ccache_of_shelf hs]; exact hread.lines⟩
  · have hb := getD_constBytes (s := u) (pa := pa) hn (by rw [hbytes]; simp [memBytes]) hi
    unfold ConstByte
    rw [h]
    have hmem : memByte (constLine u w va pa).2 = memByte s := by
      funext a
      rw [memByte, hread.mem, memByte]
    have hadd : pa / 128 * 128 + (va % 128 + i) = t.pa + i := by omega
    rw [LineByte, hbytes, hmem, hpl, hadd] at hb
    refine hb.elim (fun hb => hb.trans ?_) id
    simp [memBytes, List.getD_eq_getElem?_getD, show va % 128 + i < 128 by omega, hadd]

/-- Two lanes of one page: their translations differ as their addresses do. -/
theorem xlFor_page {va va' : Nat} {k : AccKind} {t t' : Xl} (h : xlFor s w va k = some (.ok t)) (h' : xlFor s w va' k = some (.ok t'))
    (hp : va / 2 ^ 16 = va' / 2 ^ 16) : ∃ p, t.pa = p + va % 2 ^ 16 ∧ t'.pa = p + va' % 2 ^ 16 := by
  unfold xlFor at h h'
  rw [← hp] at h'
  split at h
  next f hf =>
    rw [hf] at h'
    dsimp only at h'
    cases hr : f.res with
    | ok t0 =>
      rw [hr] at h h'
      cases h
      cases h'
      exact ⟨_, rfl, rfl⟩
    | _ =>
      rw [hr] at h
      cases h
  next hf =>
    rw [hf] at h'
    cases hr : tlbFind s w.core (ctxOf s w) (va / 2 ^ 16) k with
    | none =>
      rw [hr] at h
      cases h
    | some t0 =>
      rw [hr] at h h'
      cases h
      cases h'
      exact ⟨_, rfl, rfl⟩

/-- Lanes that name one line of constants find it at one place. -/
theorem sameLine {va va' : Nat} {k : AccKind} {t t' : Xl} (h : xlFor s w va k = some (.ok t)) (h' : xlFor s w va' k = some (.ok t'))
    (ht : t.pa % 128 = va % 128) (hv : va / 128 = va' / 128) : t.pa / 128 = t'.pa / 128 := by
  obtain ⟨p, hp, hp'⟩ := xlFor_page h h' (by omega)
  omega

/-! ### LDSC (R162) -/

/-- One lane's bytes are read, behind those of the lanes before it. -/
def readConst (w : Warp) (n : Nat) (acc : List (Nat × List Byte) × State) (a : Acc × Option Nat) : List (Nat × List Byte) × State :=
  (acc.1 ++ [(a.1.pl, (constBytes acc.2 w a.1.va (a.2.getD 0) n).1)], (constBytes acc.2 w a.1.va (a.2.getD 0) n).2)

/-- What every lane's read keeps, and finds, all of them do. -/
theorem foldl_readConst {n : Nat} {inv : State → Prop} {good : Acc × Option Nat → List Byte → Prop} {l : List (Acc × Option Nat)}
    (hstep : ∀ u, ∀ a ∈ l, inv u → inv (constBytes u w a.1.va (a.2.getD 0) n).2 ∧ good a (constBytes u w a.1.va (a.2.getD 0) n).1)
    {acc : List (Nat × List Byte) × State} (h : inv acc.2) : inv (l.foldl (readConst w n) acc).2 ∧
      ∃ ys, (l.foldl (readConst w n) acc).1 = acc.1 ++ ys ∧ List.Forall₂ (fun a y => y.1 = a.1.pl ∧ good a y.2) l ys := by
  induction l generalizing acc with
  | nil => exact ⟨h, [], (List.append_nil _).symm, .nil⟩
  | cons a l ih =>
    obtain ⟨hinv, hgood⟩ := hstep acc.2 a List.mem_cons_self h
    obtain ⟨hend, ys, hys, hall⟩ := ih (fun u b hb => hstep u b (List.mem_cons_of_mem _ hb)) (acc := readConst w n acc a) hinv
    exact ⟨hend, (a.1.pl, _) :: ys, by rw [List.foldl_cons, hys, readConst, List.append_assoc, List.singleton_append], .cons ⟨rfl, hgood⟩ hall⟩

/-- A lane finds its own bytes. -/
theorem find_readings {α : Type} {good : α → List Byte → Prop} {key : α → Nat} {l : List α} {ys : List (Nat × List Byte)}
    (h : List.Forall₂ (fun a y => y.1 = key a ∧ good a y.2) l ys) (hu : ∀ a ∈ l, ∀ b ∈ l, key a = key b → a = b) {a : α} (ha : a ∈ l) :
    ∃ y, ys.find? (fun y => y.1 = key a) = some y ∧ good a y.2 := by
  induction h with
  | nil => cases ha
  | @cons b y l ys hb hall ih =>
    by_cases he : key b = key a
    · obtain rfl := hu b List.mem_cons_self a ha he
      exact ⟨y, List.find?_cons_of_pos (by simp [hb.1]), hb.2⟩
    · rw [List.find?_cons_of_neg (by simpa [hb.1] using he)]
      exact ih (fun c hc d hd => hu c (List.mem_cons_of_mem _ hc) d (List.mem_cons_of_mem _ hd))
        ((List.mem_cons.1 ha).resolve_left fun e => he (e ▸ rfl))

end

section
variable {s : State} {h : Hdr} {m : MemOp} {o : Reg} {tr : Nat → Xl} {lanes : List (Nat × LaneEnt)}

/-- The address of a lane's constants. -/
def constVa (s : State) (m : MemOp) (q : Nat × LaneEnt) : Nat :=
  ((s.grid (s.group s.curWarp.gi).grid).const + memEa s m (widthBytes m.width) q.1 q.2) % 2 ^ 64

/-- The constant cache holds a lane's line. -/
def constHeld (s : State) (m : MemOp) (q : Nat × LaneEnt) : Bool :=
  (codeLine s.mm.ccache s.curWarp.core (objOf s s.curWarp) (constVa s m q / 128)).isSome

/-- The access of a lane of LDSC that passes its checks. -/
def constRead (s : State) (m : MemOp) (q : Nat × LaneEnt) : Acc := ⟨q.1, q.2, memEa s m (widthBytes m.width) q.1 q.2, constVa s m q, none⟩

/-- The access with the place in memory of a line that the cache does not hold. -/
def constGot (s : State) (m : MemOp) (tr : Nat → Xl) (q : Nat × LaneEnt) : Acc × Option Nat :=
  (constRead s m q, if constHeld s m q then none else some (tr q.1).pa)

/-- The lanes of LDSC in the order of their reads: those whose lines the cache holds come first. -/
def readOrder (s : State) (m : MemOp) (lanes : List (Nat × LaneEnt)) : List (Nat × LaneEnt) :=
  lanes.filter (constHeld s m) ++ lanes.filter (fun q => !constHeld s m q)

theorem mem_readOrder (q : Nat × LaneEnt) : q ∈ readOrder s m lanes ↔ q ∈ lanes := by
  simp only [readOrder, List.mem_append, List.mem_filter, Bool.not_eq_true']
  cases constHeld s m q <;> simp

/-- The access of a lane of LDSC with its checks (R150, R162). -/
def ldscAcc (s : State) (o : Reg) (m : MemOp) (q : Nat × LaneEnt) : Acc :=
  if (constAcc s m (widthBytes m.width) q).pre = some 0x19 then constAcc s m (widthBytes m.width) q
  else if (s.group s.curWarp.gi).scratch < srcVal s o 1 q.1 q.2 + widthBytes m.width then
    { constAcc s m (widthBytes m.width) q with pre := some 0x18 }
  else if (constAcc s m (widthBytes m.width) q).pre.isNone && srcVal s o 1 q.1 q.2 % widthBytes m.width != 0 then
    { constAcc s m (widthBytes m.width) q with pre := some 0x11 }
  else constAcc s m (widthBytes m.width) q

/-- What LDSC asks of a leaf. -/
def constLeaf (_ : State) (t : Xl) : Option Nat := if t.ty = .page || t.ty = .rxWin then none else some 0x17

/-- The bytes that a lane of LDSC has read. -/
def bytesRead (data : List (Nat × List Byte)) (q : Nat × LaneEnt) : List Byte := ((data.find? (fun x => x.1 = q.1)).map (·.2)).getD []

/-- LDSC from where its accesses to the scratchpad have issued. -/
def ldscIssued (x : Warp) (h : Hdr) (n : Nat) (all : List (Acc × Option Nat)) (ready : List (Nat × LaneEnt × Nat)) (s : State) : State :=
  let mine := all.filter (fun a => ready.any (fun r => r.1 = a.1.pl))
  let poisoned := fun (a : Acc × Option Nat) => a.2.any (llcPoisoned s)
  let s := takeFaults s s.md.cur 0x85 0 ((mine.filter poisoned).map (fun a => ⟨a.1.pl, a.1.ent, 0x15, some a.1.ea, 0⟩)) true
  let good := mine.filter (fun a => !poisoned a)
  let r := good.foldl (readConst x n) ([], s)
  stsGo r.2 h n (ready.filter (fun r => good.any (fun a => a.1.pl = r.1))) false (bytesRead r.1)

theorem ldsc_eq (s : State) (h : Hdr) (o : Reg) (m : MemOp) : exec (.ldsc h o m) s =
    .next (withCounter s m.sbc (takingLanes s s.curWarp h) (fun s' => withRoom s' (takingLanes s s.curWarp h) (fun s' =>
      let accs := (takingLanes s s.curWarp h).map (ldscAcc s o m)
      let hits := accs.filter (constHit s s.curWarp)
      withXlate s' 0x85 .read 1 constLeaf m.sbc (hits.map (fun a => (a.pl, a.ent))) (accs.filter (fun a => !constHit s' s.curWarp a)) (fun oks s' =>
        let all := hits.map (fun a => (a, none)) ++ oks.map (fun a => (a.1, some a.2.pa))
        withSpad s' 0x85 (widthBytes m.width) false m.sbc (all.map (fun a => (a.1.pl, a.1.ent, srcVal s o 1 a.1.pl a.1.ent)))
          (ldscIssued s.curWarp h (widthBytes m.width) all))))) := rfl

/-- Where the constants and the place of every lane pass their checks. -/
structure Copyable (s : State) (o : Reg) (m : MemOp) (tr : Nat → Xl) (lanes : List (Nat × LaneEnt)) : Prop where
  aligned : (s.grid (s.group s.curWarp.gi).grid).const % 64 = 0
  inside : ∀ q ∈ lanes, memEa s m (widthBytes m.width) q.1 q.2 + widthBytes m.width ≤ (s.grid (s.group s.curWarp.gi).grid).constBytes
  even : ∀ q ∈ lanes, memEa s m (widthBytes m.width) q.1 q.2 % widthBytes m.width = 0
  found : ∀ q ∈ lanes, ConstReady s s.curWarp (constVa s m q) (tr q.1)
  place : ∀ q ∈ lanes, SpadReady s s.curWarp (widthBytes m.width) (srcVal s o 1 q.1 q.2) false

/-- A lane's constants lie in one line: CONSTBYTES' base is aligned, and so is its address. -/
theorem Copyable.oneLine (hc : Copyable s o m tr lanes) {q : Nat × LaneEnt} (hq : q ∈ lanes) :
    constVa s m q % 128 + widthBytes m.width ≤ 128 := by
  have ha := hc.aligned
  have he := hc.even q hq
  unfold constVa
  cases hw : m.width <;> simp only [hw, widthBytes] at he ⊢ <;> omega

theorem Copyable.acc (hc : Copyable s o m tr lanes) {q : Nat × LaneEnt} (hq : q ∈ lanes) : ldscAcc s o m q = constRead s m q := by
  obtain ⟨hin, heven, -⟩ := hc.place q hq
  have hpre : constAcc s m (widthBytes m.width) q = constRead s m q := by
    simp only [constAcc, constRead, constVa, if_neg (Nat.not_lt.2 (hc.inside q hq)), hc.even q hq, ne_eq, not_true_eq_false, if_false]
  simp [ldscAcc, hpre, constRead, Nat.not_lt.2 hin, heven]

/-- A lane whose line the cache does not hold is translated. -/
theorem Copyable.missed (hc : Copyable s o m tr lanes) {q : Nat × LaneEnt} (hq : q ∈ lanes) (hm : constHeld s m q = false) :
    Through s s.curWarp .read 1 (constVa s m q) (tr q.1) ∧ ((tr q.1).ty = .page ∨ (tr q.1).ty = .rxWin) ∧
      llcPoisoned s (tr q.1).pa = false ∧ (tr q.1).pa % 128 = constVa s m q % 128 :=
  (hc.found q hq).resolve_left fun h => by rw [constHeld, h] at hm; cases hm

theorem settled_subset {gi : Nat} {threads l : List Nat} (h : Settled s gi threads) (hl : ∀ k ∈ l, k ∈ threads) : Settled s gi l := by
  obtain ⟨hreq, hload⟩ := h
  simp only [ownRequests, List.map_eq_nil_iff, List.filter_eq_nil_iff] at hreq
  simp only [heldLoads, List.flatMap_eq_nil_iff] at hload
  refine ⟨?_, ?_⟩
  · rw [ownRequests, List.map_eq_nil_iff, List.filter_eq_nil_iff]
    intro r hr hc
    refine hreq r hr ?_
    simp only [Bool.and_eq_true, List.contains_iff_mem] at hc ⊢
    exact ⟨hc.1, hl _ hc.2⟩
  · rw [heldLoads, List.flatMap_eq_nil_iff]
    intro r hr
    have hnone := hload r hr
    split
    next hc =>
      rw [if_pos hc, List.filterMap_eq_nil_iff] at hnone
      rw [List.filterMap_eq_nil_iff]
      intro z hz
      have hz' := hnone z hz
      split
      next hsrc =>
        rw [hsrc] at hz'
        refine if_neg fun hk => ?_
        dsimp only at hz'
        rw [if_pos (List.contains_iff_mem.2 (hl _ (List.contains_iff_mem.1 hk)))] at hz'
        cases hz'
      next => rfl
    next => rfl

theorem Storable.subset {l : List (Nat × LaneEnt)} (hs : Storable s lanes) (hl : ∀ q ∈ l, q ∈ lanes) : Storable s l where
  active q hq := hs.active q (hl q hq)
  unique a ha b hb := hs.unique a (hl a ha) b (hl b hb)
  room hw hm := hs.room hw (homeWarps_subset hl hw hm)
  settled := settled_subset hs.settled fun k hk => by
    obtain ⟨q, hq, rfl⟩ := List.mem_map.1 hk
    exact List.mem_map_of_mem (f := fun q : Nat × LaneEnt => thKey s.curWarp.gi q.2.hwarp q.2.hlane) (hl q hq)

/-- The lanes' places in the scratchpad. -/
def copyPlaces (s : State) (o : Reg) (lanes : List (Nat × LaneEnt)) : List (Nat × LaneEnt × Nat) :=
  lanes.map (fun q => (q.1, q.2, srcVal s o 1 q.1 q.2))

/-- LDSC up to its accesses to the scratchpad: no lane is stopped, and its lanes' constants are found. -/
theorem ldsc_issues (hl : takingLanes s s.curWarp h = lanes) (hs : Storable s lanes) (hc : Copyable s o m tr lanes)
    (hroom : CounterRoom s s.curWarp.gi m.sbc (homeWarps lanes)) : exec (.ldsc h o m) s =
      .next (withSpad (openWorks s m.sbc (readOrder s m lanes)) 0x85 (widthBytes m.width) false m.sbc
        (copyPlaces s o (readOrder s m lanes))
        (ldscIssued s.curWarp h (widthBytes m.width) ((readOrder s m lanes).map (constGot s m tr)))) := by
  have hmiss : ∀ q ∈ lanes.filter (fun q => !constHeld s m q), q ∈ lanes ∧ constHeld s m q = false := fun q hq => by
    simpa using List.mem_filter.1 hq
  have hok : ∀ a ∈ (lanes.filter (fun q => !constHeld s m q)).map (constRead s m), accRes s s.curWarp .read 1 constLeaf a = .ok (tr a.pl) :=
    List.forall_mem_map.2 fun q hq => by
      obtain ⟨hql, hqm⟩ := hmiss q hq
      obtain ⟨hth, hty, -⟩ := hc.missed hql hqm
      exact accRes_through rfl hth (if_pos (Bool.or_eq_true_iff.2 (hty.imp decide_eq_true decide_eq_true)))
  have haccs : lanes.map (ldscAcc s o m) = lanes.map (constRead s m) := List.map_congr_left fun q hq => hc.acc hq
  have hhits : (lanes.map (constRead s m)).filter (constHit s s.curWarp) = (lanes.filter (constHeld s m)).map (constRead s m) := List.filter_map
  have hmisses : (lanes.map (constRead s m)).filter (fun a => !constHit s s.curWarp a) =
      (lanes.filter (fun q => !constHeld s m q)).map (constRead s m) := List.filter_map
  have hlanes : ∀ l : List (Nat × LaneEnt), (l.map (constRead s m)).map (fun a => (a.pl, a.ent)) = l := fun l => by
    rw [List.map_map]
    exact List.map_id l
  have hall : ((lanes.filter (constHeld s m)).map (constRead s m)).map (fun a => (a, none)) ++
      (((lanes.filter (fun q => !constHeld s m q)).map (constRead s m)).map (fun a => (a, tr a.pl))).map (fun a => (a.1, some a.2.pa)) =
      (readOrder s m lanes).map (constGot s m tr) := by
    rw [readOrder, List.map_append, List.map_map, List.map_map, List.map_map]
    refine congrArg₂ _ (List.map_congr_left fun q hq => ?_) (List.map_congr_left fun q hq => ?_)
    · rw [constGot, if_pos (List.mem_filter.1 hq).2]
      rfl
    · rw [constGot, if_neg (by simp [(hmiss q hq).2])]
      rfl
  have hset := (hs.subset (l := readOrder s m lanes) fun q => (mem_readOrder q).1).settled
  rw [ldsc_eq, hl, withCounter_room hroom, withRoom_room hs.room]
  dsimp only
  rw [haccs, hhits, hmisses, withXlate_ok hok (by rw [hlanes, hlanes]; exact hset) (by decide), hlanes, hlanes, hall, List.map_map]
  rfl

/-- What the lanes read of constants, in their order, is copied as it stands: none of it is poisoned. -/
theorem ldscIssued_eq (x : Warp) (n : Nat) {u : State} (hp : ∀ q ∈ lanes, constHeld s m q = false → llcPoisoned u (tr q.1).pa = false) :
    ldscIssued x h n (lanes.map (constGot s m tr)) (copyPlaces s o lanes) u =
      stsGo ((lanes.map (constGot s m tr)).foldl (readConst x n) ([], u)).2 h n (copyPlaces s o lanes) false
        (bytesRead ((lanes.map (constGot s m tr)).foldl (readConst x n) ([], u)).1) := by
  have hmine : (lanes.map (constGot s m tr)).filter (fun a => (copyPlaces s o lanes).any (fun r => r.1 = a.1.pl)) = lanes.map (constGot s m tr) :=
    List.filter_eq_self.2 (List.forall_mem_map.2 fun q hq => List.any_eq_true.2 ⟨_, List.mem_map_of_mem hq, decide_eq_true rfl⟩)
  have hclean : ∀ a ∈ lanes.map (constGot s m tr), a.2.any (llcPoisoned u) = false := List.forall_mem_map.2 fun q hq => by
    cases hm : constHeld s m q with
    | true => simp [constGot, hm]
    | false => simp [constGot, hm, hp q hq hm]
  have hbad : (lanes.map (constGot s m tr)).filter (fun a => a.2.any (llcPoisoned u)) = [] :=
    List.filter_eq_nil_iff.2 fun a ha => by simp [hclean a ha]
  have hgood : (lanes.map (constGot s m tr)).filter (fun a => !a.2.any (llcPoisoned u)) = lanes.map (constGot s m tr) :=
    List.filter_eq_self.2 fun a ha => by simp [hclean a ha]
  have hready : (copyPlaces s o lanes).filter (fun r => (lanes.map (constGot s m tr)).any (fun a => a.1.pl = r.1)) = copyPlaces s o lanes :=
    List.filter_eq_self.2 (List.forall_mem_map.2 fun q hq => List.any_eq_true.2 ⟨_, List.mem_map_of_mem hq, decide_eq_true rfl⟩)
  unfold ldscIssued
  dsimp only
  rw [hmine, hbad, hgood, hready]
  rfl

/-- The bytes of a lane are its constants. -/
def ReadsWell (u : State) (x : Warp) (n : Nat) (tr : Nat → Xl) (a : Acc × Option Nat) (l : List Byte) : Prop :=
  ∀ i < n, ConstByte u x a.1.va (tr a.1.pl) i (l.getD i 0)

/-- The lines of the lanes whose lines the cache does not hold, with their places in memory. -/
def missedLines (s : State) (m : MemOp) (tr : Nat → Xl) (lanes : List (Nat × LaneEnt)) : List (Nat × Nat) :=
  (lanes.filter (fun q => !constHeld s m q)).map (fun q => (constVa s m q / 128, (tr q.1).pa / 128))

/-- The same constants and the same cache of them. -/
structure SameConsts (s u : State) : Prop where
  memory : u.mm = s.mm
  object : objOf u s.curWarp = objOf s s.curWarp

theorem SameConsts.constByte {u : State} (h : SameConsts s u) {va : Nat} {t : Xl} {i : Nat} {b : Byte} (hb : ConstByte u s.curWarp va t i b) :
    ConstByte s s.curWarp va t i b := by
  unfold ConstByte at hb ⊢
  simp only [h.memory, h.object, memByte] at hb ⊢
  exact hb

theorem SameConsts.held {u : State} (h : SameConsts s u) (q : Nat × LaneEnt) :
    (codeLine u.mm.ccache s.curWarp.core (objOf u s.curWarp) (constVa s m q / 128)).isSome = constHeld s m q := by
  rw [h.memory, h.object, constHeld]

theorem Copyable.reads_held (hc : Copyable s o m tr lanes) {u v : State} (hu : SameConsts s u) (hv : shelf v = shelf u) {q : Nat × LaneEnt}
    (hq : q ∈ lanes.filter (constHeld s m)) (pa : Nat) :
    shelf (constBytes v s.curWarp (constVa s m q) pa (widthBytes m.width)).2 = shelf u ∧
      ReadsWell u s.curWarp (widthBytes m.width) tr (constGot s m tr q) (constBytes v s.curWarp (constVa s m q) pa (widthBytes m.width)).1 := by
  obtain ⟨hql, hheld⟩ := List.mem_filter.1 hq
  exact constBytes_hit (hc.oneLine hql) ((hu.held q).trans hheld) hv pa

theorem Copyable.reads_missed (hc : Copyable s o m tr lanes) {u v : State} (hu : SameConsts s u) (hv : ReadOn u (missedLines s m tr lanes) v)
    {q : Nat × LaneEnt} (hq : q ∈ lanes.filter (fun q => !constHeld s m q)) :
    ReadOn u (missedLines s m tr lanes) (constBytes v s.curWarp (constVa s m q) ((constGot s m tr q).2.getD 0) (widthBytes m.width)).2 ∧
      ReadsWell u s.curWarp (widthBytes m.width) tr (constGot s m tr q)
        (constBytes v s.curWarp (constVa s m q) ((constGot s m tr q).2.getD 0) (widthBytes m.width)).1 := by
  have hmissed : ∀ q ∈ lanes.filter (fun q => !constHeld s m q), q ∈ lanes ∧ constHeld s m q = false := fun q hq => by
    simpa using List.mem_filter.1 hq
  obtain ⟨hql, hmiss⟩ := hmissed q hq
  obtain ⟨⟨-, -, hxl⟩, -, -, hpa⟩ := hc.missed hql hmiss
  have hgot : (constGot s m tr q).2 = some (tr q.1).pa := if_neg (by simp [hmiss])
  rw [hgot]
  refine constBytes_miss (hc.oneLine hql) (Option.isNone_iff_eq_none.1 ?_) hpa
    (List.mem_map_of_mem (f := fun q : Nat × LaneEnt => (constVa s m q / 128, (tr q.1).pa / 128)) hq)
    (List.forall_mem_map.2 fun q' hq' he => ?_) hv rfl
  · rw [← Option.not_isSome, hu.held q, hmiss]
    rfl
  · obtain ⟨hql', hmiss'⟩ := hmissed q' hq'
    obtain ⟨⟨-, -, hxl'⟩, -, -, hpa'⟩ := hc.missed hql' hmiss'
    exact sameLine hxl' hxl hpa' he

/-- THE LANES READ (R143, R161): memory stands, and each lane's bytes are its constants. -/
theorem Copyable.reads (hc : Copyable s o m tr lanes) (hu : ∀ a ∈ lanes, ∀ b ∈ lanes, a.1 = b.1 → a = b) {u : State} (hsame : SameConsts s u) :
    let r := ((readOrder s m lanes).map (constGot s m tr)).foldl (readConst s.curWarp (widthBytes m.width)) ([], u)
    aside r.2 = aside u ∧ r.2.mm.mem = u.mm.mem ∧ ∀ q ∈ lanes, ∀ i < widthBytes m.width,
      ConstByte s s.curWarp (constVa s m q) (tr q.1) i ((bytesRead r.1 q).getD i 0) := by
  obtain ⟨hshelf, ys, hys, hall⟩ := foldl_readConst (w := s.curWarp) (acc := ([], u)) (inv := fun v => shelf v = shelf u)
    (l := (lanes.filter (constHeld s m)).map (constGot s m tr)) (good := ReadsWell u s.curWarp (widthBytes m.width) tr)
    (fun v => List.forall_mem_map.2 fun q hq hv => hc.reads_held hsame hv hq _) rfl
  obtain ⟨hread, zs, hzs, hall'⟩ := foldl_readConst (w := s.curWarp) (inv := ReadOn u (missedLines s m tr lanes))
    (l := (lanes.filter (fun q => !constHeld s m q)).map (constGot s m tr))
    (acc := ((lanes.filter (constHeld s m)).map (constGot s m tr)).foldl (readConst s.curWarp (widthBytes m.width)) ([], u))
    (good := ReadsWell u s.curWarp (widthBytes m.width) tr)
    (fun v => List.forall_mem_map.2 fun q hq hv => hc.reads_missed hsame hv hq)
    ⟨aside_of_shelf hshelf, mem_of_shelf hshelf, fun c hcm => .inl (ccache_of_shelf hshelf ▸ hcm)⟩
  rw [← List.foldl_append, ← List.map_append, ← readOrder] at hread hzs
  rw [hys, List.nil_append] at hzs
  have hforall : List.Forall₂ _ (_ ++ _) (_ ++ _) := List.rel_append hall hall'
  rw [← List.map_append, ← readOrder, ← hzs, List.forall₂_map_left_iff] at hforall
  refine ⟨hread.aside, hread.mem, fun q hq i hi => hsame.constByte ?_⟩
  obtain ⟨y, hy, hgood⟩ := find_readings (key := fun q => q.1) hforall
    (fun a ha b hb => hu a ((mem_readOrder a).1 ha) b ((mem_readOrder b).1 hb)) ((mem_readOrder q).2 hq)
  rw [bytesRead, hy]
  exact hgood i hi

end

end Sys2Proof.Machine
end

section
/-!
SUPPORT. LDSC (R162) and the stores together (R154, R159, R160).
-/
namespace Sys2Proof.Machine

open Say

section
variable {s : State} {h : Hdr} {m : MemOp} {o : Reg} {tr : Nat → Xl} {lanes : List (Nat × LaneEnt)}

/-- Reading constants leaves a store primed. -/
theorem Primed.of_aside {v t : State} {sbc : Option (Fin 6)} {homes : List Nat} (hp : Primed s v sbc homes) (ha : aside t = aside v)
    (hm : t.mm.mem = v.mm.mem) : Primed s t sbc homes ∧ Uncommitted v t := by
  have hu := Underway.of_aside ha hm
  simp only [aside, outside, Prod.mk.injEq] at ha
  obtain ⟨⟨hrg, hwk, -⟩, -, hcur, -⟩ := ha
  refine ⟨hp.underway hu (by rw [hrg]) ?_ fun k => ?_, by rw [hrg], by rw [hrg]⟩
  · rw [State.curWarp, State.warp, hwk, hcur]
    rfl
  · rw [State.hwarp, hrg, State.hwarp]

/-- A place in the scratchpad stays ready while a word issues. -/
theorem Underway.spadReady {v : State} (hv : Underway s v) (hmm : v.mm = s.mm) {n off : Nat} (h : SpadReady s s.curWarp n off false) :
    SpadReady v v.curWarp n off false := by
  obtain ⟨hin, heven, hline⟩ := h
  have hcore : v.curWarp.core = s.curWarp.core := (congrArg Warp.core hv.warp :)
  have hpres : presenceOf v = presenceOf s := by
    funext core line
    rw [presenceOf, hmm, presenceOf]
  unfold SpadReady
  rw [hv.gi, hv.group, hcore, hpres]
  exact ⟨hin, heven, fun i hi => ⟨(hline i hi).1, (hline i hi).2.1, nofun⟩⟩

theorem Underway.objOf {v : State} (hv : Underway s v) (x : Warp) : Machine.objOf v x = Machine.objOf s x := by
  simp only [Machine.objOf, ctxOf, hv.group, hv.grid]

/-- LDSC where no lane is stopped or delayed. -/
theorem ldsc_stores (hl : takingLanes s s.curWarp h = lanes) (hs : Storable s lanes) (hc : Copyable s o m tr lanes)
    (hroom : CounterRoom s s.curWarp.gi m.sbc (homeWarps lanes)) :
    ∃ t, exec (.ldsc h o m) s = .next t ∧ StoreRest s t ∧ Say.Counted s t s.curWarp.gi m.sbc (homeWarps lanes) ∧
      ∃ byte : Nat × LaneEnt → Nat → Byte, Entered s t lanes (widthBytes m.width) false 0 false
          (fun q i => ⟨q.2.hlane, .spad, (s.group s.curWarp.gi).spBase + srcVal s o 1 q.1 q.2 + i, byte q i⟩) ∧
        ∀ q ∈ lanes, ∀ i < widthBytes m.width, ConstByte s s.curWarp (constVa s m q) (tr q.1) i (byte q i) := by
  have hsub : ∀ q ∈ readOrder s m lanes, q ∈ lanes := fun q => (mem_readOrder q).1
  have hhomes : ∀ hw, hw ∈ homeWarps lanes ↔ hw ∈ homeWarps (readOrder s m lanes) := fun hw =>
    ⟨homeWarps_subset (fun q => (mem_readOrder q).2) hw, homeWarps_subset hsub hw⟩
  have hso := hs.subset hsub
  have hroom' : CounterRoom s s.curWarp.gi m.sbc (homeWarps (readOrder s m lanes)) :=
    ⟨hroom.1, fun c hc hw hm => hroom.2 c hc hw ((hhomes hw).2 hm)⟩
  obtain ⟨hp, hun, hw⟩ := primed_openWorks hroom' hso.active
  have hexec := ldsc_issues hl hs hc hroom
  have hcopy : (copyPlaces s o (readOrder s m lanes)).map (fun a => (a.1, a.2.1)) = readOrder s m lanes := by
    rw [copyPlaces, List.map_map]
    exact List.map_id _
  obtain ⟨hp', hun', hw'⟩ := hp.openWorks_again (lanes := readOrder s m lanes) id
  have hready := withSpad_ready (s := openWorks s m.sbc (readOrder s m lanes)) (opc := 0x85) (bytes := widthBytes m.width) (load := false)
    (sbc := m.sbc) (l := copyPlaces s o (readOrder s m lanes))
    (List.forall_mem_map.2 fun q hq => hp.toUnderway.spadReady hw.1 (hc.place q (hsub q hq)))
    (by rw [hcopy, hp.gi]; exact settled_congr hso.settled hw.2.1 (by rw [hw.1]))
    (ldscIssued s.curWarp h (widthBytes m.width) ((readOrder s m lanes).map (constGot s m tr)))
  rw [hcopy] at hready
  generalize openWorks (openWorks s m.sbc (readOrder s m lanes)) m.sbc (readOrder s m lanes) = v at hp' hun' hw' hready
  have hmm : v.mm = s.mm := hw'.1.trans hw.1
  have hclean : ∀ q ∈ readOrder s m lanes, constHeld s m q = false → llcPoisoned v (tr q.1).pa = false := fun q hq hmiss => by
    obtain ⟨-, -, hpoison, -⟩ := hc.missed (hsub q hq) hmiss
    rw [llcPoisoned, hmm]
    exact hpoison
  rw [ldscIssued_eq s.curWarp _ hclean] at hready
  obtain ⟨ha, hm, hbytes⟩ := hc.reads hs.unique (u := v) ⟨hmm, hp'.toUnderway.objOf _⟩
  obtain ⟨hp'', hun''⟩ := hp'.of_aside ha hm
  obtain ⟨hrest, hsb, hent⟩ := hp''.stsGo (bytes := widthBytes m.width) (rel := false) (fun _ => hun.trans (hun'.trans hun'')) hso.unique h
    (fun q => srcVal s o 1 q.1 q.2)
    (bytesRead (((readOrder s m lanes).map (constGot s m tr)).foldl (readConst s.curWarp (widthBytes m.width)) ([], v)).1)
  have hcount := counted_congr (hp''.congr hhomes).counted hsb
  have hentered := hent.congr mem_readOrder fun _ _ _ _ => rfl
  rw [hready] at hexec
  exact ⟨_, hexec, hrest, hcount, _, hentered, hbytes⟩

end

/-- Settles O27: each store issues primed (`primed_openWorks`), passes its checks and waits, and enters the FIFOs (`Primed.stored`); LDSC
first reads its lanes' constants (`Copyable.reads`). -/
theorem storesEnterTheStoreFifo : Obligations.StoresEnterTheStoreFifo := by
  intro s h d m x g lanes bytes wide ea homes keys data openLanes entered rest hfull hset
  have hs : Storable s lanes :=
    { active := fun q hq => taking_active hq
      unique := fun a ha b hb => guarded_unique s x h a b (taking_guarded ha).1 (taking_guarded hb).1
      room := hfull
      settled := hset }
  refine ⟨fun tr hroom htr hwide => ⟨_, rfl, st_stores rfl hs d hroom htr hwide⟩, fun hroom hspad => sts_stores rfl hs d hroom hspad,
    fun q0 l hl hroom hspad => ?_, fun o tr hroom haligned hq => ?_⟩
  · have hent := stsc_stores (h := h) (m := m) hl (hl ▸ hs) d (hl ▸ hroom) hspad
    rw [← hl] at hent
    exact hent
  · simp only [forall_and] at hq
    obtain ⟨hinside, heven, hfound, hplace⟩ := hq
    exact ldsc_stores rfl hs ⟨haligned, hinside, heven, hfound, hplace⟩ hroom

end Sys2Proof.Machine
end

section
/-!
SUPPORT. PREF (R163): what a walk and a line brought into an L1 leave alone.
-/
namespace Sys2Proof.Machine

open Say

/-! ### What the caches and a reading walk leave alone -/

theorem aside_llcEnsure (s : State) (line : Nat) : aside (llcEnsure s line) = aside s := aside_of_shelf (shelf_llcEnsure ..)

theorem aside_sendDrop (s : State) (core line : Nat) (words : List Nat) : aside (sendDrop s core line words) = aside s :=
  aside_of_shelf (shelf_sendDrop ..)

/-- A change of the caches. -/
theorem aside_updMM (s : State) (f : MemSt → MemSt) (h : (f s.mm).spad = s.mm.spad) : aside (s.updMM f) = aside s := by
  simp only [aside, State.updMM, h, outside]

theorem aside_setL1 (s : State) (core line : Nat) (f : L1Line → L1Line) : aside (setL1 s core line f) = aside s := aside_updMM s _ rfl

theorem aside_setMemBytes (s : State) (pa : Nat) (l : List Byte) : aside (setMemBytes s pa l) = aside s := by
  unfold setMemBytes
  refine foldl_keep aside _ (fun _ _ => ?_) _ _
  rfl

theorem aside_orEntry (s : State) (pa bits : Nat) : aside (orEntry s pa bits) = aside s := by
  unfold orEntry
  dsimp only
  split
  · rfl
  · refine (aside_updMM _ _ rfl).trans ((aside_setMemBytes ..).trans ?_)
    split
    · exact (aside_sendDrop ..).trans (aside_llcEnsure ..)
    · exact aside_llcEnsure ..

theorem aside_markLeaves (s : State) (leaves : List Nat) (write : Bool) : aside (markLeaves s leaves write) = aside s :=
  foldl_keep aside _ (fun _ _ => aside_orEntry ..) _ _

/-- Translating in the stages below leaves the same alone. -/
def WalksAside (tr : AccKind → Nat → WAcc → XRes × WAcc) : Prop := ∀ k a acc, aside (tr k a acc).2.s = aside acc.s

section
variable {tr : AccKind → Nat → WAcc → XRes × WAcc}

theorem aside_readEntry (htr : WalksAside tr) {id stage level addr ea : Nat} {acc b : WAcc} {r : Except XRes (Nat × Nat)}
    (e : readEntry tr id stage level addr ea acc = (r, b)) : aside b.s = aside acc.s := by
  have hsub := htr .read ea { acc with leaves := [] }
  unfold readEntry at e
  split at e
  next x sub hx =>
    rw [hx] at hsub
    have hs := ((aside_llcEnsure _ (x.pa / 128)).trans (aside_markLeaves sub.s sub.leaves false)).trans hsub
    dsimp only at e
    split at e
    · cases e
      exact hs
    · split at e
      · cases e
        exact hs
      · split at e <;> cases e <;> exact hs
  next hx =>
    cases e
    rw [hx] at hsub
    exact hsub

theorem aside_useLeaf (htr : WalksAside tr) (id stage level addr ea epa : Nat) (kind : AccKind) (ty size attr : Nat) (w x : Bool)
    (frame key : Nat) (acc : WAcc) : aside (useLeaf tr id stage level addr ea epa kind ty size attr w x frame key acc).2.s = aside acc.s := by
  unfold useLeaf
  split
  · rfl
  · split
    · dsimp only
      split
      · rfl
      · split <;> rfl
    · dsimp only
      split
      · split <;> rfl
      · have hout := htr kind (frame * 2 ^ 16 + addr % 2 ^ size) { acc with leaves := epa :: acc.leaves, used := (id, addr, size) :: acc.used }
        split
        next e =>
          rw [e] at hout
          split <;> exact hout
        next => exact hout

theorem aside_stageWalk (htr : WalksAside tr) (id stage xroot : Nat) (kind : AccKind) (addr : Nat) (acc : WAcc) :
    aside (stageWalk tr id stage xroot kind addr acc).2.s = aside acc.s := by
  unfold stageWalk
  dsimp only
  split
  · rfl
  split
  · rfl
  split
  next e2 => exact aside_readEntry htr e2
  next e2 =>
  have h2 := aside_readEntry htr e2
  split
  · exact h2
  · exact h2
  · exact h2
  split
  next e1 => exact (aside_readEntry htr e1).trans h2
  next e1 =>
  have h1 := (aside_readEntry htr e1).trans h2
  split
  · exact h1
  · exact h1
  · exact (aside_useLeaf htr ..).trans h1
  split
  next e0 => exact (aside_readEntry htr e0).trans h1
  next e0 =>
  have h0 := (aside_readEntry htr e0).trans h1
  split
  · exact h0
  · exact h0
  · exact h0
  · exact (aside_useLeaf htr ..).trans h0

end

theorem aside_walkChain (l : List (Nat × Ctx)) : WalksAside (walkChain l) := by
  induction l with
  | nil => exact fun _ _ _ => rfl
  | cons c l ih => exact fun _ _ _ => aside_stageWalk ih ..

theorem aside_frameCheck (s : State) (ctx : Nat) (t : Xl) : aside (frameCheck s ctx t).2 = aside s := by
  simp only [frameCheck, apply_ite Prod.snd, apply_ite aside]
  simp only [ite_self, State.updFrame, aside, outside]

/-- A walk that a read asks for: it marks the entries that it has used, and writes nothing down. -/
theorem aside_runWalk (s : State) (walker core ctx va : Nat) : aside (runWalk s walker core ctx va .read).2 = aside s := by
  have hw := aside_walkChain (ctxChain s 3 ctx) .read va { s := s, die := dieOf core, walker := walker }
  unfold runWalk
  split
  next t acc e =>
    rw [e] at hw
    have hc := (aside_frameCheck acc.s ctx t).trans hw
    split
    · rfl
    · split
      next e2 => rwa [e2] at hc
      next e2 =>
        rw [e2] at hc
        exact (aside_markLeaves ..).trans hc
  next => rfl
  next e =>
    rw [e] at hw
    dsimp only
    split <;> exact hw

theorem aside_tlbPut (s : State) (place unit cap ctx page : Nat) (t : Xl) : aside (tlbPut s place unit cap ctx page t) = aside s := by
  unfold tlbPut
  dsimp only
  split <;> rfl

theorem aside_tlbFill (s : State) (core ctx page : Nat) (t : Xl) : aside (tlbFill s core ctx page t) = aside s := by
  rw [tlbFill, aside_tlbPut, aside_tlbPut, aside_tlbPut]

theorem aside_xlateNow (s : State) (core ctx va : Nat) : aside (xlateNow s core ctx va .read).2 = aside s := by
  unfold xlateNow
  cases tlbFind s core ctx (va / 2 ^ 16) .read with
  | some t => rfl
  | none =>
    have hp : aside (s.pick 64).2 = aside s := rfl
    generalize s.pick 64 = p at hp ⊢
    obtain ⟨walker, v⟩ := p
    have hw := (aside_runWalk v walker core ctx va).trans hp
    dsimp only at hw ⊢
    generalize runWalk v walker core ctx va .read = r at hw ⊢
    obtain ⟨r, u⟩ := r
    cases r with
    | ok t =>
      dsimp only at hw ⊢
      rw [aside_tlbFill, hw]
    | _ => exact hw

/-! ### A line brought into an L1 -/

theorem aside_regWord (s : State) (core line : Nat) (own : Bool) (w : DirWord) : aside (regWord s core line own w) = aside s := by
  have hbytes : aside (setMemBytes (llcEnsure s line) (line * 128 + w.i * 4) (bytesOfNat 4 w.val.toNat)) = aside s :=
    (aside_setMemBytes ..).trans (aside_llcEnsure ..)
  have htold : ∀ (o : Option Nat) (u : State), aside (match o with
      | some c => if c = core then u else sendDrop u c line [w.i]
      | none => u) = aside u := fun o u => by
    cases o with
    | none => rfl
    | some c =>
      dsimp only
      split
      · rfl
      · exact aside_sendDrop ..
  unfold regWord
  dsimp only
  split
  · exact (aside_updMM _ _ rfl).trans ((aside_llcEnsure ..).trans ((aside_updMM _ _ rfl).trans ((htold _ _).trans hbytes)))
  · exact (aside_updMM _ _ rfl).trans ((htold _ _).trans hbytes)

theorem aside_flushWords (s : State) (core line : Nat) (only : Option (List Nat)) : aside (flushWords s core line only) = aside s := by
  unfold flushWords
  dsimp only
  split
  · rfl
  · exact foldl_keep aside _ (fun s w => aside_regWord s core line true w) _ (countReq s _ _ core true)

theorem aside_queueWords (s : State) (core line : Nat) (only : Option (List Nat)) : aside (queueWords s core line only) = aside s := by
  unfold queueWords
  dsimp only
  split <;> rfl

theorem aside_l1Evict (s : State) (core line : Nat) : aside (l1Evict s core line) = aside s := by
  have hsent : aside (if held s line then queueWords s core line none else flushWords s core line none) = aside s := by
    split
    · exact aside_queueWords ..
    · exact aside_flushWords ..
  exact (aside_setL1 ..).trans ((aside_updMM _ _ rfl).trans hsent)

theorem aside_l1Room (s : State) (core line : Nat) : aside (l1Room s core line) = aside s := by
  obtain h | ⟨v, h⟩ := l1Room_cases s core line
  · rw [h]
  · rw [h, aside_l1Evict]

/-- An L1 that has room for a line, as the LLC has brought it. -/
def lineRoom (s : State) (core line ctx page : Nat) : State := l1Room (llcEnsure (countReq s ctx page core false) line) core line

theorem aside_lineRoom (s : State) (core line ctx page : Nat) : aside (lineRoom s core line ctx page) = aside s :=
  (aside_l1Room ..).trans ((aside_llcEnsure ..).trans (aside_updMM _ _ rfl))

/-- A word comes in from memory, unless the L1 has one that is newer, or has sent one on (R136). -/
def fillWord (s : State) (core line : Nat) (l : L1Line) (ws : NMap L1Word) (i : Nat) : NMap L1Word :=
  match NMap.find l.words i with
  | some w =>
    if w.owned || w.dirty || (NMap.find l.words (pairWord i)).isSome then ws
    else NMap.insert ws i { w with val := BitVec.ofNat 32 (memNat s (line * 128 + i * 4) 4) }
  | none => if evictWaits s core line i then ws else NMap.insert ws i { val := BitVec.ofNat 32 (memNat s (line * 128 + i * 4) 4) }

theorem l1Fill_eq (s : State) (core line rank ctx page : Nat) : ∃ bad, l1Fill s core line rank ctx page =
    l1Touch (setL1 (lineRoom s core line ctx page) core line (fun l => { l with
      words := (List.range 32).foldl (fillWord (lineRoom s core line ctx page) core line l) l.words
      poison := (l.poison ++ bad).eraseDups })) core line rank ctx page := ⟨_, rfl⟩

theorem aside_l1Touch (s : State) (core line rank ctx page : Nat) : aside (l1Touch s core line rank ctx page) = aside s :=
  (aside_setL1 ..).trans (aside_updMM _ _ rfl)

theorem aside_l1Fill (s : State) (core line rank ctx page : Nat) : aside (l1Fill s core line rank ctx page) = aside s := by
  obtain ⟨bad, h⟩ := l1Fill_eq s core line rank ctx page
  rw [h, aside_l1Touch, aside_setL1, aside_lineRoom]

/-! ### PREF -/

/-- What PREF does with the translation of a lane's address. -/
def prefLine (s : State) (w : Warp) (m : MemOp) (ea : Nat) (r : XRes) : State :=
  match r with
  | .ok t =>
    if t.ty ≠ .page || held s (t.pa / 128) then s
    else if m.hint = .bypass then llcEnsure (countReq s (ctxOf s w) (ea / 2 ^ 16) w.core false) (t.pa / 128)
    else l1Fill s w.core (t.pa / 128) (rankOf (hintNum m.hint)) (ctxOf s w) (ea / 2 ^ 16)
  | _ => s

/-- PREF's work for one lane. -/
def prefLane (w : Warp) (m : MemOp) (s : State) (q : Nat × LaneEnt) : State :=
  if 2 ^ 55 ≤ memEa s m 1 q.1 q.2 then s
  else
    match xlFor s w (memEa s m 1 q.1 q.2) .read with
    | some r => prefLine s w m (memEa s m 1 q.1 q.2) r
    | none => prefLine (xlateNow s w.core (ctxOf s w) (memEa s m 1 q.1 q.2) .read).2 w m (memEa s m 1 q.1 q.2)
        (xlateNow s w.core (ctxOf s w) (memEa s m 1 q.1 q.2) .read).1

theorem prefLane_eq (w : Warp) (m : MemOp) : prefLane w m = fun s q =>
    let ea := memEa s m 1 q.1 q.2
    if 2 ^ 55 ≤ ea then s
    else
      let (r, s) := match xlFor s w ea .read with
        | some r => (r, s)
        | none => xlateNow s w.core (ctxOf s w) ea .read
      match r with
      | .ok t =>
        if t.ty ≠ .page || held s (t.pa / 128) then s
        else if m.hint = .bypass then llcEnsure (countReq s (ctxOf s w) (ea / 2 ^ 16) w.core false) (t.pa / 128)
        else l1Fill s w.core (t.pa / 128) (rankOf (hintNum m.hint)) (ctxOf s w) (ea / 2 ^ 16)
      | _ => s := by
  funext s q
  unfold prefLane
  dsimp only
  split
  · rfl
  · cases xlFor s w (memEa s m 1 q.1 q.2) .read <;> rfl

theorem pref_eq (s : State) (h : Hdr) (m : MemOp) :
    exec (.pref h m) s = .next (finish ((takingLanes s s.curWarp h).foldl (prefLane s.curWarp m) s) h.b h.w) := by
  rw [prefLane_eq]
  rfl

theorem aside_prefLine (s : State) (w : Warp) (m : MemOp) (ea : Nat) (r : XRes) : aside (prefLine s w m ea r) = aside s := by
  unfold prefLine
  split
  · split
    · rfl
    · split
      · exact (aside_llcEnsure ..).trans rfl
      · exact aside_l1Fill ..
  · rfl

theorem aside_prefLane (w : Warp) (m : MemOp) (s : State) (q : Nat × LaneEnt) : aside (prefLane w m s q) = aside s := by
  unfold prefLane
  split
  · rfl
  · split
    · exact aside_prefLine ..
    · exact (aside_prefLine ..).trans (aside_xlateNow ..)

end Sys2Proof.Machine
end

section
/-!
SUPPORT. The line that PREF brings in (R120, R135, R136, R163): its room, memory meanwhile, its words.
-/
namespace Sys2Proof.Machine

open Say

/-! ### Room for a line (R135) -/

theorem NMap.ne_of_find_none {α : Type} {m : NMap α} {k : Nat} (h : NMap.find m k = none) {c : Nat × α} (hc : c ∈ m) : c.1 ≠ k := by
  induction m with
  | nil => cases hc
  | cons a m ih =>
    rw [NMap.find] at h
    split at h
    · cases h
    next hne => exact (List.mem_cons.1 hc).elim (fun e => e ▸ hne) fun hc => ih h hc

theorem l1Victim_mem {l : List (Nat × L1Line)} {v : Nat × L1Line} (h : l1Victim l = some v) : v ∈ l := by
  induction l generalizing v with
  | nil => cases h
  | cons a l ih =>
    simp only [l1Victim] at h
    split at h
    · cases h
      exact List.mem_cons_self
    next hb =>
      split at h
      · cases h
        exact List.mem_cons_of_mem _ (ih hb)
      · cases h
        exact List.mem_cons_self

/-- Room is made by giving up another line of the core's, where the line itself is not in its L1. -/
theorem l1Room_victim (s : State) (core line : Nat) : l1Room s core line = s ∨
    ∃ v, v < 2 ^ 41 ∧ v ≠ line ∧ l1Room s core line = l1Evict s core v := by
  unfold l1Room
  split
  · exact .inl rfl
  next hnone =>
    dsimp only
    split
    · split
      next v hv =>
        obtain ⟨hm, hc⟩ := List.mem_filter.1 (l1Victim_mem hv)
        obtain ⟨hcore, -⟩ : v.1 / 2 ^ 41 = core ∧ v.1 % 2 ^ 41 % 512 = line % 512 := by simpa using hc
        refine .inr ⟨_, Nat.mod_lt _ (by decide), fun he => ?_, rfl⟩
        have hk : v.1 = l1Key core line := by simp only [l1Key]; omega
        exact NMap.ne_of_find_none hnone hm hk
      · exact .inl rfl
    · exact .inl rfl

theorem dirItems_queueWords {s : State} {core line : Nat} {only : Option (List Nat)} {d : Nat × DirItem}
    (hd : d ∈ (queueWords s core line only).mm.dirItems) : d ∈ s.mm.dirItems ∨ d.2.line = line := by
  unfold queueWords at hd
  dsimp only at hd
  split at hd
  · exact .inl hd
  · exact (NMap.mem_of_mem_insert hd).symm.imp_right fun e => by rw [e]

/-- Nothing but words of the line given up comes to wait at the directory. -/
theorem dirItems_l1Evict {s : State} {core line : Nat} {d : Nat × DirItem} (hd : d ∈ (l1Evict s core line).mm.dirItems) :
    d ∈ s.mm.dirItems ∨ d.2.line = line := by
  have hsent : (l1Evict s core line).mm.dirItems =
      (if held s line then queueWords s core line none else flushWords s core line none).mm.dirItems := rfl
  rw [hsent] at hd
  split at hd
  · exact dirItems_queueWords hd
  · exact .inl ((congrArg (·.2.1) (dirPart_flushWords s core line none) : (flushWords s core line none).mm.dirItems = s.mm.dirItems) ▸ hd)

/-- A dirty word of a line of the core's is one of the L1's. -/
theorem dirtyAt_of_word {s : State} {core line : Nat} (hl : line < 2 ^ 41) {w : Nat × L1Word} (hw : w ∈ (l1Line s core line).words)
    (hd : w.2.dirty = true) {a : Nat} (ha : line * 128 + w.1 * 4 ≤ a ∧ a < line * 128 + w.1 * 4 + 4) : DirtyAt s core a := by
  rcases NMap.get_mem {} s.mm.l1 (l1Key core line) with hn | hm
  · rw [l1Line, hn] at hw
    cases hw
  · have hcore : l1Key core line / 2 ^ 41 = core := by simp only [l1Key]; omega
    have hline : l1Key core line % 2 ^ 41 = line := by simp only [l1Key]; omega
    exact ⟨_, hm, hcore, w, hw, hd, hline.symm ▸ ha⟩

/-- A line given up writes its dirty words back, and no other byte. -/
theorem memKept_l1Evict (s : State) (core : Nat) {line : Nat} (hl : line < 2 ^ 41) : MemKept s (l1Evict s core line) core := fun a ha => by
  rw [memByte_l1Evict]
  split
  · rfl
  · obtain ⟨u, hu, he⟩ := memByte_flushWords s core line a
    rw [he, memByte_regWords_ne fun w hw hc => ?_, memByte_congr hu]
    obtain ⟨v, hv, hd, rfl⟩ := mem_dirtyWords hw
    exact ha (dirtyAt_of_word hl hv hd hc)

section
variable {s : State} {core line ctx page : Nat}

theorem memKept_lineRoom : MemKept s (lineRoom s core line ctx page) core := fun a ha => by
  have hb := beside_llcEnsure (countReq s ctx page core false) line
  have hmem : memByte (llcEnsure (countReq s ctx page core false) line) a = memByte s a := memByte_of_beside hb a
  have hl1 : (llcEnsure (countReq s ctx page core false) line).mm.l1 = s.mm.l1 := l1_of_beside hb
  rw [lineRoom]
  obtain h | ⟨v, hv, -, h⟩ := l1Room_victim (llcEnsure (countReq s ctx page core false) line) core line
  · rw [h, hmem]
  · rw [h, memKept_l1Evict _ core hv a (by rwa [DirtyAt, hl1]), hmem]

/-- No word of a free line comes to wait at the directory for the room made. -/
theorem evictWaits_lineRoom (hf : LineFree s core line) (i : Nat) : evictWaits (lineRoom s core line ctx page) core line i = false := by
  have hdir : (llcEnsure (countReq s ctx page core false) line).mm.dirItems = s.mm.dirItems :=
    (congrArg (·.2.1) (dirPart_llcEnsure (countReq s ctx page core false) line) :)
  have hfree : ∀ d ∈ (lineRoom s core line ctx page).mm.dirItems, ¬(d.2.evicted = true ∧ d.2.core = core ∧ d.2.line = line) := fun d hd hw => by
    rw [lineRoom] at hd
    obtain h | ⟨v, -, hne, h⟩ := l1Room_victim (llcEnsure (countReq s ctx page core false) line) core line
    · rw [h, hdir] at hd
      exact hf.2 d hd hw
    · rw [h] at hd
      obtain hd | he := dirItems_l1Evict hd
      · exact hf.2 d (hdir ▸ hd) hw
      · exact hne (he.symm.trans hw.2.2)
  rw [evictWaits, List.any_eq_false]
  intro d hd
  have := hfree d hd
  simp only [Bool.and_eq_true, decide_eq_true_eq]
  tauto

/-! ### Its words (R136) -/

theorem isSome_fillWord {u : State} {l : L1Line} {ws : NMap L1Word} {i j : Nat} (h : (NMap.find ws j).isSome = true) :
    (NMap.find (fillWord u core line l ws i) j).isSome = true := by
  have hins : ∀ x : L1Word, (NMap.find (NMap.insert ws i x) j).isSome = true := fun x => by
    by_cases hj : j = i
    · rw [hj, NMap.find_insert_self]
      rfl
    · rwa [NMap.find_insert_ne _ _ _ _ hj]
  unfold fillWord
  split <;> split
  · exact h
  · exact hins _
  · exact h
  · exact hins _

/-- Each word of the line is there in the end: those that were, and those brought in. -/
theorem isSome_fillWords {u : State} {l : L1Line} (hw : ∀ i, evictWaits u core line i = false) {i : Nat} (hi : i < 32) :
    (NMap.find ((List.range 32).foldl (fillWord u core line l) l.words) i).isSome = true := by
  refine foldl_reaches (p := fun ws => ∀ j, (NMap.find l.words j).isSome = true → (NMap.find ws j).isSome = true)
    (q := fun ws => (NMap.find ws i).isSome = true) (List.mem_range.2 hi) (fun ws j _ _ h k hk => isSome_fillWord (h k hk)) (fun ws h => ?_)
    (fun ws j _ h => isSome_fillWord h) fun _ h => h
  unfold fillWord
  split
  next w hf =>
    split
    · exact h i (by rw [hf]; rfl)
    · rw [NMap.find_insert_self]
      rfl
  next =>
    rw [hw i, if_neg Bool.false_ne_true, NMap.find_insert_self]
    rfl

theorem words_l1Touch (u : State) (rank : Nat) : (l1Line (l1Touch u core line rank ctx page) core line).words = (l1Line u core line).words := by
  rw [l1Touch, l1Line_setL1_self, words_normLine]
  rfl

/-- A LINE BROUGHT IN: memory keeps what no dirty word of the core's covers, and every word of it is in the L1. -/
theorem l1Fill_brings (hf : LineFree s core line) (rank : Nat) : MemKept s (l1Fill s core line rank ctx page) core ∧
    ∀ i < 32, (l1Word (l1Fill s core line rank ctx page) core (line * 128 + 4 * i)).isSome = true := by
  obtain ⟨bad, he⟩ := l1Fill_eq s core line rank ctx page
  rw [he]
  refine ⟨fun a ha => (memByte_congr (by rw [l1Touch, setL1_mm, State.updMM_mm, setL1_mm]) a).trans (memKept_lineRoom a ha), fun i hi => ?_⟩
  have hwords : (l1Line (l1Touch (setL1 (lineRoom s core line ctx page) core line (fun l => { l with
      words := (List.range 32).foldl (fillWord (lineRoom s core line ctx page) core line l) l.words
      poison := (l.poison ++ bad).eraseDups })) core line rank ctx page) core line).words =
      (List.range 32).foldl (fillWord (lineRoom s core line ctx page) core line (l1Line (lineRoom s core line ctx page) core line))
        (l1Line (lineRoom s core line ctx page) core line).words := by
    rw [words_l1Touch, l1Line_setL1_self, words_normLine]
  rw [l1Word, show (line * 128 + 4 * i) / 128 = line by omega, show (line * 128 + 4 * i) % 128 / 4 = i by omega, hwords]
  exact isSome_fillWords (evictWaits_lineRoom hf) hi

end

section
variable {s : State} {h : Hdr} {m : MemOp}

/-- PREF of a sole lane whose translation stands. -/
theorem pref_brings {q : Nat × LaneEnt} {t : Xl} (hq : Through s s.curWarp .read 1 (memEa s m 1 q.1 q.2) t) (hty : t.ty = .page)
    (hf : LineFree s s.curWarp.core (t.pa / 128)) :
    MemKept s (prefLane s.curWarp m s q) s.curWarp.core ∧
      (m.hint ≠ .bypass → ∀ i < 32, (l1Word (prefLane s.curWarp m s q) s.curWarp.core (t.pa / 128 * 128 + 4 * i)).isSome = true) ∧
      (m.hint = .bypass → ((prefLane s.curWarp m s q).mm.llc.find (t.pa / 128)).isSome = true) := by
  obtain ⟨hlt, -, hxl⟩ := hq
  have hlane : prefLane s.curWarp m s q =
      if m.hint = .bypass then llcEnsure (countReq s (ctxOf s s.curWarp) (memEa s m 1 q.1 q.2 / 2 ^ 16) s.curWarp.core false) (t.pa / 128)
      else l1Fill s s.curWarp.core (t.pa / 128) (rankOf (hintNum m.hint)) (ctxOf s s.curWarp) (memEa s m 1 q.1 q.2 / 2 ^ 16) := by
    rw [prefLane, if_neg (Nat.not_le.2 hlt), hxl]
    exact if_neg (by simp [hty, hf.1])
  rw [hlane]
  split
  next hb =>
    obtain ⟨x, hx⟩ := find_llcEnsure (countReq s (ctxOf s s.curWarp) (memEa s m 1 q.1 q.2 / 2 ^ 16) s.curWarp.core false) (t.pa / 128)
    exact ⟨fun a _ => memByte_of_beside (beside_llcEnsure ..) a, fun hne => absurd hb hne, fun _ => by rw [hx]; rfl⟩
  next hb =>
    obtain ⟨hmem, hwords⟩ := l1Fill_brings (ctx := ctxOf s s.curWarp) (page := memEa s m 1 q.1 q.2 / 2 ^ 16) hf (rankOf (hintNum m.hint))
    exact ⟨hmem, fun _ => hwords, fun h => absurd h hb⟩

end

end Sys2Proof.Machine
end

section
/-!
SUPPORT. CCTL (R164): the lines that its lanes name, their dirty words sent on, their clean words dropped.
-/
namespace Sys2Proof.Machine

open Say

/-! ### Words that touch the caches alone -/

/-- What a word that touches the caches alone leaves as it was. -/
def CacheRest (s t : State) : Prop := Quiet s t ∧ t.rg.hwarps = s.rg.hwarps ∧ t.rg.sb = s.rg.sb ∧ Onward seated s t

theorem cacheRest_finish {s m : State} (ha : aside m = aside s) (b w : Bool) : CacheRest s (finish m b w) := by
  have st := still_finish m b w
  have hq := quiet_finish m b w
  have ho := onward_finish m b w
  simp only [aside, outside, Prod.mk.injEq] at ha
  obtain ⟨⟨hrg, hwk, hen, hfb, hcx, hpt⟩, hspad, hcur, hagenda⟩ := ha
  have hwarp : m.curWarp = s.curWarp := by rw [State.curWarp, State.warp, hwk, hcur]; rfl
  refine ⟨quiet_trans ⟨by rw [hrg], by rw [hrg], by rw [hrg], by rw [hrg], hspad, hen, hfb, hcx, by rw [hpt], by rw [hwk], by rw [hwk], hagenda⟩ hq,
    (still_hwarps st).trans (by rw [hrg]), (still_sb st).trans (by rw [hrg]), ?_⟩
  exact ⟨hwk ▸ ho.groups, by have h := ho.others; rwa [hwk, hcur] at h, by have h := ho.threads; rwa [hrg] at h,
    by have h := ho.away; rwa [hwarp, hrg] at h, by have h := ho.self; rwa [hwarp, hcur] at h⟩

/-! ### The lines that a word's lanes name -/

section
variable {s t u : State} {m : MemOp} {tr : Nat → Xl} {lanes : List (Nat × LaneEnt)} {core line : Nat}

/-- The access of a lane of CCTL. -/
def cctlAcc (s : State) (m : MemOp) (q : Nat × LaneEnt) : Acc := ⟨q.1, q.2, memEa s m 1 q.1 q.2, memEa s m 1 q.1 q.2, none⟩

/-- The accesses with their translations. -/
def cctlOks (s : State) (m : MemOp) (tr : Nat → Xl) (lanes : List (Nat × LaneEnt)) : List (Acc × Xl) :=
  lanes.map (fun q => (cctlAcc s m q, tr q.1))

/-- A line that a lane's access names: of memory, or of a receive window. -/
def Names (tr : Nat → Xl) (lanes : List (Nat × LaneEnt)) (line : Nat) : Prop :=
  ∃ q ∈ lanes, ((tr q.1).ty = .page ∨ (tr q.1).ty = .rxWin) ∧ line = (tr q.1).pa / 128

/-- The lines that accesses name. -/
def linesNamed (oks : List (Acc × Xl)) : List Nat :=
  (oks.filter (fun a => a.2.ty = .page || a.2.ty = .rxWin)).map (fun a => a.2.pa / 128)

theorem mem_linesNamed : line ∈ linesNamed (cctlOks s m tr lanes) ↔ Names tr lanes line := by
  simp only [linesNamed, cctlOks, Names, List.mem_map, List.mem_filter, Bool.or_eq_true, decide_eq_true_eq]
  constructor
  · rintro ⟨a, ⟨⟨q, hq, rfl⟩, hty⟩, rfl⟩
    exact ⟨q, hq, hty, rfl⟩
  · rintro ⟨q, hq, hty, rfl⟩
    exact ⟨_, ⟨⟨q, hq, rfl⟩, hty⟩, rfl⟩

theorem accLanes_cctlOks : accLanes (cctlOks s m tr lanes) = lanes := by
  rw [accLanes, cctlOks, List.map_map]
  exact List.map_id lanes

/-- CCTL's accesses pass their checks, and there is nothing to wait for. -/
theorem withXlate_cctl (htr : ∀ q ∈ lanes, Through s s.curWarp .read 1 (memEa s m 1 q.1 q.2) (tr q.1))
    (hset : Settled s s.curWarp.gi (lanes.map (fun q => thKey s.curWarp.gi q.2.hwarp q.2.hlane))) (k : List (Acc × Xl) → State → State) :
    withXlate s 0x88 .read 1 (fun _ _ => none) none [] (lanes.map (cctlAcc s m)) k = k (cctlOks s m tr lanes) s := by
  have hlanes : (lanes.map (cctlAcc s m)).map (fun a => (a.pl, a.ent)) = lanes := by
    rw [List.map_map]
    exact List.map_id lanes
  rw [withXlate_ok (tr := fun a => tr a.pl) (List.forall_mem_map.2 fun q hq => accRes_through rfl (htr q hq) rfl)
    (by rw [List.nil_append, hlanes]; exact hset) (by decide), List.map_map]
  rfl

/-! ### Clean words dropped (.inv) -/

/-- A core's words of a line that are neither owned nor dirty are dropped. -/
def dropClean (core : Nat) (s : State) (line : Nat) : State :=
  setL1 s core line (fun l => { l with words := l.words.filter (fun x => x.2.owned || x.2.dirty) })

theorem cctlInv_eq (s : State) (h : Hdr) (m : MemOp) : exec (.cctlInv h m) s =
    .next (withXlate s 0x88 .read 1 (fun _ _ => none) none [] ((takingLanes s s.curWarp h).map (cctlAcc s m)) (fun oks s' =>
      finish ((linesNamed oks).foldl (dropClean s.curWarp.core) s') h.b h.w)) := by
  simp only [linesNamed, List.foldl_map]
  rfl

theorem aside_dropCleans (core : Nat) (lines : List Nat) (s : State) : aside (lines.foldl (dropClean core) s) = aside s :=
  foldl_keep aside _ (fun _ _ => aside_setL1 ..) _ _

theorem mem_dropCleans (core : Nat) (lines : List Nat) (s : State) : (lines.foldl (dropClean core) s).mm.mem = s.mm.mem :=
  foldl_keep (fun s : State => s.mm.mem) _ (fun s line => by rw [dropClean, setL1_mm]) _ _

/-- Lines that none of them is are as they were. -/
theorem get_dropCleans {lines : List Nat} {k : Nat} (hk : ∀ line ∈ lines, k ≠ l1Key core line) :
    NMap.get {} (lines.foldl (dropClean core) s).mm.l1 k = NMap.get {} s.mm.l1 k :=
  List.foldlRecOn (motive := fun t : State => NMap.get {} t.mm.l1 k = NMap.get {} s.mm.l1 k) lines _ rfl fun t ht line hl => by
    rw [dropClean, setL1_mm, NMap.get_set_ne _ _ _ _ _ (hk line hl), ht]

/-- Each of the lines keeps its owned and its dirty words. -/
theorem words_dropCleans {lines : List Nat} (hl : line ∈ lines) :
    (l1Line (lines.foldl (dropClean core) s) core line).words = (l1Line s core line).words.filter (fun x => x.2.owned || x.2.dirty) := by
  have hself : ∀ t : State, (l1Line (dropClean core t line) core line).words = (l1Line t core line).words.filter (fun x => x.2.owned || x.2.dirty) :=
    fun t => by rw [dropClean, l1Line_setL1_self, words_normLine]
  have hne : ∀ (t : State) x, x ≠ line → (l1Line (dropClean core t x) core line).words = (l1Line t core line).words := fun t x hx => by
    rw [dropClean, l1Line_setL1_ne fun e => hx (l1Key_line_inj e).symm]
  refine foldl_reaches (p := fun t => (l1Line t core line).words = (l1Line s core line).words)
    (q := fun t => (l1Line t core line).words = (l1Line s core line).words.filter (fun x => x.2.owned || x.2.dirty)) hl
    (fun t x _ hx h => (hne t x hx).trans h) (fun t h => by rw [hself, h]) (fun t x _ h => ?_) rfl
  by_cases hx : x = line
  · rw [hx, hself, h, List.filter_filter]
    simp only [Bool.and_self]
  · exact (hne t x hx).trans h

/-! ### Dirty words sent on (.wb) -/

/-- A line without dirty words sends nothing. -/
theorem sendLine_clean (h : ∀ w ∈ (l1Line s core line).words, w.2.dirty = false) : sendLine s core line none none = ([], s) := by
  have hnone : dirtyWords (l1Line s core line) none = [] := List.eq_nil_iff_forall_not_mem.2 fun w hw => by
    obtain ⟨v, hv, hd, -⟩ := mem_dirtyWords hw
    rw [h v hv] at hd
    cases hd
  exact if_pos hnone

/-- A message of the directory carries a dirty word of a line. -/
def WordSent (items : NMap DirItem) (core line : Nat) (w : Nat × L1Word) (id : Nat) : Prop :=
  ∃ it, items.find id = some it ∧ it.core = core ∧ it.line = line ∧ ∃ dw ∈ it.words, dw.i = w.1 ∧ dw.val = w.2.val

/-- A message that carries a dirty word of a line has come to the directory. -/
def Carried (t : State) (core line : Nat) (w : Nat × L1Word) (ids : List Nat) : Prop :=
  ∃ id ∈ ids, id < t.md.nextId ∧ WordSent t.mm.dirItems core line w id

/-- What sending lines leaves alone: memory, home warps, warps; messages and lines but those sent. -/
structure SendsOn (s t : State) : Prop where
  warps : t.wk = s.wk
  cur : t.md.cur = s.md.cur
  mem : t.mm.mem = s.mm.mem
  later : s.md.nextId ≤ t.md.nextId
  items : ∀ id < s.md.nextId, t.mm.dirItems.find id = s.mm.dirItems.find id

theorem SendsOn.refl (s : State) : SendsOn s s := ⟨rfl, rfl, rfl, Nat.le_refl _, fun _ _ => rfl⟩

theorem SendsOn.trans (h : SendsOn s t) (g : SendsOn t u) : SendsOn s u :=
  ⟨g.warps.trans h.warps, g.cur.trans h.cur, g.mem.trans h.mem, h.later.trans g.later,
    fun id hi => (g.items id (Nat.lt_of_lt_of_le hi h.later)).trans (h.items id hi)⟩

theorem Carried.sendsOn {w : Nat × L1Word} {ids ids' : List Nat} (h : Carried s core line w ids) (g : SendsOn s t) (hi : ∀ id ∈ ids, id ∈ ids') :
    Carried t core line w ids' := by
  obtain ⟨id, hm, hlt, it, hf, hit⟩ := h
  exact ⟨id, hi id hm, Nat.lt_of_lt_of_le hlt g.later, it, (g.items id hlt).trans hf, hit⟩

/-- A line's dirty words go to the directory as one message (R120). -/
theorem sendLine_cases (s : State) (core line : Nat) : (sendLine s core line none none = ([], s) ∧ dirtyWords (l1Line s core line) none = []) ∨
    ∃ id f, s.md.nextId ≤ id ∧ ∃ v : State, v.wk = s.wk ∧ v.md.cur = s.md.cur ∧ v.mm.mem = s.mm.mem ∧ v.mm.l1 = s.mm.l1 ∧ v.md.nextId = id + 1 ∧
      v.mm.dirItems = NMap.insert s.mm.dirItems id { core := core, line := line, words := dirtyWords (l1Line s core line) none } ∧
      sendLine s core line none none = ([id], setL1 v core line f) := by
  unfold sendLine
  dsimp only
  split
  next h0 => exact .inl ⟨rfl, h0⟩
  next => refine .inr ⟨s.fresh.1, _, Nat.le_max_left .., _, ?_, ?_, ?_, ?_, ?_, ?_, rfl⟩ <;> rfl

theorem sendsOn_sendLine (s : State) (core line : Nat) : SendsOn s (sendLine s core line none none).2 := by
  obtain ⟨h, -⟩ | ⟨id, f, hid, v, hwk, hcur, hmem, -, hnext, hitems, h⟩ := sendLine_cases s core line
  · rw [h]
    exact .refl s
  · rw [h]
    refine ⟨hwk, hcur, hmem, ?_, fun j hj => ?_⟩
    · exact (Nat.le_succ_of_le hid).trans_eq hnext.symm
    · exact (congrArg (fun m => NMap.find m j) hitems).trans (NMap.find_insert_ne _ _ _ _ (by omega))

/-- Sending a line leaves the others of the L1. -/
theorem l1Line_sendLine_ne {l : Nat} (hl : l ≠ line) : l1Line (sendLine s core line none none).2 core l = l1Line s core l := by
  obtain ⟨h, -⟩ | ⟨id, f, -, v, -, -, -, hl1, -, -, h⟩ := sendLine_cases s core line
  · rw [h]
  · rw [h, l1Line_setL1_ne fun e => hl (l1Key_line_inj e), l1Line_of_l1 hl1]

/-- Each dirty word of a line sent is carried. -/
theorem carried_sendLine {w : Nat × L1Word} (hw : w ∈ (l1Line s core line).words) (hd : w.2.dirty = true) :
    Carried (sendLine s core line none none).2 core line w (sendLine s core line none none).1 := by
  have hm := dirtyWords_mem hw hd
  obtain ⟨-, h0⟩ | ⟨id, f, -, v, -, -, -, -, hnext, hitems, h⟩ := sendLine_cases s core line
  · rw [h0] at hm
    cases hm
  · rw [h]
    refine ⟨id, List.mem_singleton_self id, Nat.lt_of_lt_of_eq (Nat.lt_succ_self id) hnext.symm,
      { core := core, line := line, words := dirtyWords (l1Line s core line) none }, ?_, rfl, rfl, _, hm, rfl, rfl⟩
    exact (congrArg (fun m => NMap.find m id) hitems).trans (NMap.find_insert_self ..)

/-- Lines sent one after the other, with what awaits them. -/
def sendLines (core : Nat) (acc : List Nat × State) (line : Nat) : List Nat × State :=
  (acc.1 ++ (sendLine acc.2 core line none none).1, (sendLine acc.2 core line none none).2)

theorem sendLines_clean {lines : List Nat} (h : ∀ line ∈ lines, ∀ w ∈ (l1Line s core line).words, w.2.dirty = false) (ids : List Nat) :
    lines.foldl (sendLines core) (ids, s) = (ids, s) := by
  induction lines with
  | nil => rfl
  | cons line lines ih =>
    rw [List.foldl_cons, sendLines, sendLine_clean (h line List.mem_cons_self), List.append_nil]
    exact ih fun l hl => h l (List.mem_cons_of_mem _ hl)

theorem sendsOn_sendLines (lines ids : List Nat) : SendsOn s (lines.foldl (sendLines core) (ids, s)).2 :=
  List.foldlRecOn (motive := fun acc : List Nat × State => SendsOn s acc.2) lines _ (.refl s) fun _ h _ _ => h.trans (sendsOn_sendLine ..)

theorem carried_sendLines {lines ids : List Nat} (hl : line ∈ lines) {w : Nat × L1Word} (hw : w ∈ (l1Line s core line).words)
    (hd : w.2.dirty = true) : Carried (lines.foldl (sendLines core) (ids, s)).2 core line w (lines.foldl (sendLines core) (ids, s)).1 := by
  refine foldl_reaches (p := fun acc : List Nat × State => l1Line acc.2 core line = l1Line s core line)
    (q := fun acc => Carried acc.2 core line w acc.1) hl (fun acc x _ hx h => ?_) (fun acc h => ?_) (fun acc x _ h => ?_) rfl
  · exact (l1Line_sendLine_ne (Ne.symm hx)).trans h
  · exact (carried_sendLine (h ▸ hw) hd).sendsOn (.refl _) fun id hi => List.mem_append_right _ hi
  · exact h.sendsOn (sendsOn_sendLine ..) fun id hi => List.mem_append_left _ hi

end

end Sys2Proof.Machine
end

section
/-!
SUPPORT. The forms of CCTL (R163, R164), and PREF.
-/
namespace Sys2Proof.Machine

open Say

section
variable {s : State} {h : Hdr} {m : MemOp} {tr : Nat → Xl} {lanes : List (Nat × LaneEnt)}

/-! ### CCTL .wb -/

/-- The end of CCTL .wb: a commit point of its lanes. -/
def wbDone (h : Hdr) (lanes : List (Nat × LaneEnt)) (s : State) : State := finish (commitLanes s s.md.cur lanes) h.b h.w

/-- The messages of a core that an eviction has sent on, of some lines. -/
def sentBefore (s : State) (core : Nat) (lines : List Nat) : List Nat :=
  (s.mm.dirItems.filter (fun d => d.2.evicted && d.2.core = core && lines.contains d.2.line)).map (·.1)

/-- The lines that accesses name are sent, with what awaits them. -/
def sendNamed (core : Nat) (oks : List (Acc × Xl)) (s : State) : List Nat × State :=
  (linesNamed oks).eraseDups.foldl (sendLines core) (sentBefore s core (linesNamed oks).eraseDups, s)

/-- The word goes on, or awaits what it has sent. -/
def wbEnd (h : Hdr) (lanes : List (Nat × LaneEnt)) (r : List Nat × State) : State :=
  let u := r.2.updWarp r.2.md.cur (fun x => { x with phase := 1 })
  if r.1 = [] then wbDone h lanes u else parkHere u (.items r.1)

theorem cctlWb_eq (s : State) (h : Hdr) (m : MemOp) : exec (.cctlWb h m) s =
    .next (withXlate s 0x88 .read 1 (fun _ _ => none) none [] ((takingLanes s s.curWarp h).map (cctlAcc s m)) (fun oks s' =>
      if oks = [] then finish s' h.b h.w
      else if s.curWarp.phase ≠ 0 then wbDone h (accLanes oks) s'
      else withDrain s' (accLanes oks) (fun s' => wbEnd h (accLanes oks) (sendNamed s.curWarp.core oks s')))) := rfl

/-- What CCTL .wb that completes leaves as it was. -/
def WbRest (s t : State) : Prop := Quiet s t ∧ t.mm.mem = s.mm.mem ∧ t.mm.l1 = s.mm.l1 ∧ t.rg.sb = s.rg.sb ∧ Onward bare s t

theorem wbRest_finish {u : State} (hu : Fencing s u) (hl1 : u.mm.l1 = s.mm.l1) (b w : Bool) : WbRest s (finish u b w) := by
  obtain ⟨hq, ho, hsb, hmem, -⟩ := hu.rest b w
  exact ⟨hq, hmem, (congrArg MemSt.l1 (still_mm (still_finish u b w))).trans hl1, hsb, ho⟩

theorem wbRest_done {u : State} (hu : Fencing s u) (hl1 : u.mm.l1 = s.mm.l1) (lanes : List (Nat × LaneEnt)) : WbRest s (wbDone h lanes u) :=
  wbRest_finish (hu.trans (fencing_commitLanes ..))
    ((congrArg MemSt.l1 (calm_of_calmPart (calmPart_commitLanes u u.md.cur lanes)).1.memory).trans hl1) h.b h.w

theorem withDrain_drained (hd : ∀ hw ∈ homeWarps lanes, (s.hwarp (hwKey s.curWarp.gi hw)).fifo = []) (k : State → State) :
    withDrain s lanes k = k (commitHomes s s.curWarp.gi s.md.cur (homeWarps lanes)) := by
  exact if_neg (not_not_intro (fullFifos_nil hd))

/-- CCTL .wb completes where it has waited already, or where there is nothing to send and nothing on its way. -/
theorem cctlWb_completes (hl : takingLanes s s.curWarp h = lanes)
    (htr : ∀ q ∈ lanes, Through s s.curWarp .read 1 (memEa s m 1 q.1 q.2) (tr q.1))
    (hset : Settled s s.curWarp.gi (lanes.map (fun q => thKey s.curWarp.gi q.2.hwarp q.2.hlane)))
    (hgo : s.curWarp.phase ≠ 0 ∨ ((∀ hw ∈ homeWarps lanes, (s.hwarp (hwKey s.curWarp.gi hw)).fifo = []) ∧
      (∀ line, Names tr lanes line → ∀ w ∈ (l1Line s s.curWarp.core line).words, w.2.dirty = false) ∧
      ∀ d ∈ s.mm.dirItems, ¬(d.2.evicted = true ∧ d.2.core = s.curWarp.core ∧ Names tr lanes d.2.line))) :
    ∃ t, exec (.cctlWb h m) s = .next t ∧ WbRest s t := by
  refine ⟨_, cctlWb_eq s h m, ?_⟩
  rw [hl, withXlate_cctl htr hset, accLanes_cctlOks]
  split
  · exact wbRest_finish (.refl s) rfl h.b h.w
  · split
    · exact wbRest_done (.refl s) rfl lanes
    next hp =>
      obtain ⟨hd, hclean, hapart⟩ := hgo.resolve_left hp
      obtain ⟨hwk, hmm⟩ := commitHomes_keeps (s := s) s.curWarp.gi s.md.cur (homeWarps lanes)
      have hf : Fencing s (commitHomes s s.curWarp.gi s.md.cur (homeWarps lanes)) := fencing_commitHomes ..
      rw [withDrain_drained hd]
      generalize commitHomes s s.curWarp.gi s.md.cur (homeWarps lanes) = u at hwk hmm hf
      have hlines : ∀ line ∈ (linesNamed (cctlOks s m tr lanes)).eraseDups, Names tr lanes line := fun line hm =>
        mem_linesNamed.1 (List.mem_eraseDups.1 hm)
      have hbefore : sentBefore u s.curWarp.core (linesNamed (cctlOks s m tr lanes)).eraseDups = [] := by
        rw [sentBefore, hmm, List.map_eq_nil_iff, List.filter_eq_nil_iff]
        intro d hdm hc
        simp only [Bool.and_eq_true, decide_eq_true_eq, List.contains_iff_mem] at hc
        obtain ⟨⟨hev, hcore⟩, hline⟩ := hc
        exact hapart d hdm ⟨hev, hcore, hlines _ hline⟩
      have hsent : (linesNamed (cctlOks s m tr lanes)).eraseDups.foldl (sendLines s.curWarp.core) ([], u) = ([], u) :=
        sendLines_clean (fun line hm w hw => hclean line (hlines line hm) w (by rwa [l1Line_of_l1 (congrArg MemSt.l1 hmm)] at hw)) []
      rw [sendNamed, hbefore, hsent]
      exact wbRest_done (hf.trans (fencing_phase rfl 1)) (congrArg MemSt.l1 hmm) lanes

/-- The word parks on what it has sent. -/
theorem wbEnd_parks {r : List Nat × State} (hr : r.1 ≠ []) {x : Warp} (hx : r.2.wk.warps.find r.2.md.cur = some x) :
    (wbEnd h lanes r).mm = r.2.mm ∧ ∃ y, (wbEnd h lanes r).wk.warps.find r.2.md.cur = some y ∧ y.park = .items r.1 ∧ y.pc = x.pc := by
  have he : wbEnd h lanes r = parkHere (r.2.updWarp r.2.md.cur (fun x => { x with phase := 1 })) (.items r.1) := if_neg hr
  obtain ⟨age, hw⟩ := parkWarp_warps (r.2.updWarp r.2.md.cur (fun x => { x with phase := 1 })) r.2.md.cur (.items r.1)
  rw [he]
  refine ⟨(still_mm (still_parkHere ..)).trans rfl, { x with phase := 1, park := .items r.1, age := age },
    (congrArg (fun m => NMap.find m r.2.md.cur) hw).trans ?_, rfl, rfl⟩
  rw [NMap.find_upd_self, State.updWarp_wk, NMap.find_upd_self, hx]
  rfl

/-- CCTL .wb parks on the messages that carry the dirty words of its lines. -/
theorem cctlWb_sends (hl : takingLanes s s.curWarp h = lanes)
    (htr : ∀ q ∈ lanes, Through s s.curWarp .read 1 (memEa s m 1 q.1 q.2) (tr q.1))
    (hset : Settled s s.curWarp.gi (lanes.map (fun q => thKey s.curWarp.gi q.2.hwarp q.2.hlane))) (hp : s.curWarp.phase = 0)
    (hd : ∀ hw ∈ homeWarps lanes, (s.hwarp (hwKey s.curWarp.gi hw)).fifo = [])
    (hdirty : ∃ line, Names tr lanes line ∧ ∃ w ∈ (l1Line s s.curWarp.core line).words, w.2.dirty = true)
    (hx : s.wk.warps.find s.md.cur = some s.curWarp) :
    ∃ t y ids, exec (.cctlWb h m) s = .next t ∧ t.wk.warps.find s.md.cur = some y ∧ y.park = .items ids ∧ y.pc = s.curWarp.pc ∧
      t.mm.mem = s.mm.mem ∧ ∀ line, Names tr lanes line → ∀ w ∈ (l1Line s s.curWarp.core line).words, w.2.dirty = true →
        ∃ id ∈ ids, WordSent t.mm.dirItems s.curWarp.core line w id := by
  have hne : cctlOks s m tr lanes ≠ [] := by
    obtain ⟨line, ⟨q, hq, -⟩, -⟩ := hdirty
    exact List.ne_nil_of_mem (List.mem_map_of_mem hq)
  have he : exec (.cctlWb h m) s = .next (wbEnd h lanes (sendNamed s.curWarp.core (cctlOks s m tr lanes)
      (commitHomes s s.curWarp.gi s.md.cur (homeWarps lanes)))) := by
    rw [cctlWb_eq, hl, withXlate_cctl htr hset, if_neg hne, if_neg (not_not_intro hp), accLanes_cctlOks, withDrain_drained hd]
  obtain ⟨hwk, hmm⟩ := commitHomes_keeps (s := s) s.curWarp.gi s.md.cur (homeWarps lanes)
  have hcur : (commitHomes s s.curWarp.gi s.md.cur (homeWarps lanes)).md.cur = s.md.cur := (fencing_commitHomes ..).cur
  generalize commitHomes s s.curWarp.gi s.md.cur (homeWarps lanes) = u at he hwk hmm hcur
  have hon : SendsOn u (sendNamed s.curWarp.core (cctlOks s m tr lanes) u).2 := sendsOn_sendLines ..
  have hcarried : ∀ line, Names tr lanes line → ∀ w ∈ (l1Line s s.curWarp.core line).words, w.2.dirty = true →
      Carried (sendNamed s.curWarp.core (cctlOks s m tr lanes) u).2 s.curWarp.core line w (sendNamed s.curWarp.core (cctlOks s m tr lanes) u).1 :=
    fun line hn w hw => carried_sendLines (List.mem_eraseDups.2 (mem_linesNamed.2 hn)) (by rwa [l1Line_of_l1 (congrArg MemSt.l1 hmm)])
  generalize sendNamed s.curWarp.core (cctlOks s m tr lanes) u = r at he hon hcarried
  have hids : r.1 ≠ [] := by
    obtain ⟨line, hn, w, hw, hwd⟩ := hdirty
    obtain ⟨id, hid, -⟩ := hcarried line hn w hw hwd
    exact List.ne_nil_of_mem hid
  have hrc : r.2.md.cur = s.md.cur := hon.cur.trans hcur
  obtain ⟨hend, y, hy, hpark, hpc⟩ := wbEnd_parks (h := h) (lanes := lanes) hids (x := s.curWarp) (by rw [hon.warps, hwk, hrc]; exact hx)
  rw [hrc] at hy
  refine ⟨_, y, _, he, hy, hpark, hpc, ?_, fun line hn w hw hwd => ?_⟩
  · rw [hend, hon.mem, hmm]
  · obtain ⟨id, hid, -, hsent⟩ := hcarried line hn w hw hwd
    exact ⟨id, hid, hend.symm ▸ hsent⟩

/-! ### CCTL .inv -/

/-- CCTL .inv drops the clean words of its lines. -/
theorem cctlInv_drops (hl : takingLanes s s.curWarp h = lanes)
    (htr : ∀ q ∈ lanes, Through s s.curWarp .read 1 (memEa s m 1 q.1 q.2) (tr q.1))
    (hset : Settled s s.curWarp.gi (lanes.map (fun q => thKey s.curWarp.gi q.2.hwarp q.2.hlane))) :
    ∃ t, exec (.cctlInv h m) s = .next t ∧ CacheRest s t ∧ t.mm.mem = s.mm.mem ∧
      (∀ line, Names tr lanes line → (l1Line t s.curWarp.core line).words =
        (l1Line s s.curWarp.core line).words.filter (fun x => x.2.owned || x.2.dirty)) ∧
      ∀ k, (∀ line, Names tr lanes line → k ≠ l1Key s.curWarp.core line) → NMap.get {} t.mm.l1 k = NMap.get {} s.mm.l1 k := by
  refine ⟨_, cctlInv_eq s h m, ?_⟩
  rw [hl, withXlate_cctl htr hset]
  have hmm := still_mm (still_finish ((linesNamed (cctlOks s m tr lanes)).foldl (dropClean s.curWarp.core) s) h.b h.w)
  refine ⟨cacheRest_finish (aside_dropCleans ..) h.b h.w, ?_, fun line hn => ?_, fun k hk => ?_⟩
  · rw [hmm, mem_dropCleans]
  · rw [l1Line_of_l1 (congrArg MemSt.l1 hmm), words_dropCleans (mem_linesNamed.2 hn)]
  · rw [hmm, get_dropCleans fun line hm => hk line (mem_linesNamed.1 hm)]

/-! ### CCTL .ivc, .ivc.all and .ivi.all -/

/-- The end of a word that changes caches of code or constants alone. -/
theorem cacheRest_updMM {f : MemSt → MemSt} (hs : (f s.mm).spad = s.mm.spad) (b w : Bool) :
    CacheRest s (finish (s.updMM f) b w) ∧ (finish (s.updMM f) b w).mm = f s.mm :=
  ⟨cacheRest_finish (aside_updMM s f hs) b w, still_mm (still_finish (s.updMM f) b w)⟩

/-- A line of a cache of the core's, of the code object that the word runs. -/
def ofObject (s : State) (c : Nat × CodeLine) : Bool := c.1 / 2 ^ 41 = s.curWarp.core && c.2.obj = objOf s s.curWarp

/-- The line of constants that a lane's offset names. -/
def offsetLine (s : State) (m : MemOp) (q : Nat × LaneEnt) : Nat :=
  ((s.grid (s.group s.curWarp.gi).grid).const + memEa s m 1 q.1 q.2) % 2 ^ 64 / 128

/-- What a cache of code or constants keeps where lanes drop their object. -/
def dropObject (s : State) (lanes : List (Nat × LaneEnt)) (l : NMap CodeLine) : NMap CodeLine :=
  if lanes = [] then l else l.filter (fun c => !ofObject s c)

theorem ofObject_iff (c : Nat × CodeLine) : ofObject s c = true ↔ c.1 / 2 ^ 41 = s.curWarp.core ∧ c.2.obj = objOf s s.curWarp := by
  rw [ofObject, Bool.and_eq_true, decide_eq_true_eq, decide_eq_true_eq]

theorem mem_dropObject (l : NMap CodeLine) (c : Nat × CodeLine) : c ∈ dropObject s lanes l ↔
    c ∈ l ∧ ¬(lanes ≠ [] ∧ c.1 / 2 ^ 41 = s.curWarp.core ∧ c.2.obj = objOf s s.curWarp) := by
  unfold dropObject
  split
  next h0 => simp only [h0, ne_eq, not_true_eq_false, false_and, not_false_eq_true, and_true]
  next h0 =>
    rw [List.mem_filter, Bool.not_eq_true', ← Bool.not_eq_true, ofObject_iff]
    simp only [ne_eq, h0, not_false_eq_true, true_and]

/-- What the constant cache keeps where lanes drop lines of it. -/
def ivcKept (s : State) (m : MemOp) (lanes : List (Nat × LaneEnt)) (l : NMap CodeLine) : NMap CodeLine :=
  l.filter (fun c => !(ofObject s c && (lanes.map (offsetLine s m)).contains c.2.vline))

theorem mem_ivcKept (l : NMap CodeLine) (c : Nat × CodeLine) : c ∈ ivcKept s m lanes l ↔
    c ∈ l ∧ ¬((c.1 / 2 ^ 41 = s.curWarp.core ∧ c.2.obj = objOf s s.curWarp) ∧ ∃ q ∈ lanes, c.2.vline = offsetLine s m q) := by
  rw [ivcKept, List.mem_filter, Bool.not_eq_true', ← Bool.not_eq_true, Bool.and_eq_true, ofObject_iff, List.contains_iff_mem, List.mem_map]
  exact and_congr_right' (not_congr (and_congr_right' (exists_congr fun q => and_congr_right' eq_comm)))

/-- CCTL .ivc drops the lines that offsets inside the constants name. -/
theorem cctlIvc_drops (hl : takingLanes s s.curWarp h = lanes)
    (hin : ∀ q ∈ lanes, memEa s m 1 q.1 q.2 < (s.grid (s.group s.curWarp.gi).grid).constBytes) :
    ∃ t, exec (.cctlIvc h m) s = .next t ∧ CacheRest s t ∧ t.mm = { s.mm with ccache := ivcKept s m lanes s.mm.ccache } := by
  have hpre : ∀ q ∈ lanes, (constAcc s m 1 q).pre = none := fun q hq => by
    have := hin q hq
    simp only [constAcc, Nat.mod_one, ne_eq, not_true_eq_false, if_false, ite_eq_right_iff]
    omega
  have hbad : (lanes.map (constAcc s m 1)).filter (fun a => a.pre.isSome) = [] :=
    List.filter_eq_nil_iff.2 (List.forall_mem_map.2 fun q hq => by simp [hpre q hq])
  have hgood : (lanes.map (constAcc s m 1)).filter (fun a => a.pre.isNone) = lanes.map (constAcc s m 1) :=
    List.filter_eq_self.2 (List.forall_mem_map.2 fun q hq => by simp [hpre q hq])
  obtain ⟨hrest, hmm⟩ := cacheRest_updMM (s := s) (f := fun x => { x with ccache := ivcKept s m lanes x.ccache }) rfl h.b h.w
  refine ⟨_, congrArg Host.Outcome.next ?_, hrest, hmm⟩
  rw [hl, hbad, hgood, List.map_map]
  rfl

/-- A word that changes those caches unless no lane takes it. -/
theorem cacheRest_unless {c : Prop} [Decidable c] {f : MemSt → MemSt} (hs : (f s.mm).spad = s.mm.spad) (b w : Bool) :
    CacheRest s (finish (if c then s else s.updMM f) b w) ∧ (finish (if c then s else s.updMM f) b w).mm = if c then s.mm else f s.mm := by
  split
  · exact ⟨cacheRest_finish rfl b w, still_mm (still_finish s b w)⟩
  · exact cacheRest_updMM hs b w

/-- CCTL .ivc.all drops the constants of the object. -/
theorem cctlIvcAll_drops (s : State) (h : Hdr) : ∃ t, exec (.cctlIvcAll h) s = .next t ∧ CacheRest s t ∧
    t.mm = { s.mm with ccache := dropObject s (takingLanes s s.curWarp h) s.mm.ccache } := by
  obtain ⟨hrest, hmm⟩ := cacheRest_unless (s := s) (c := takingLanes s s.curWarp h = [])
    (f := fun x => { x with ccache := x.ccache.filter (fun c => !ofObject s c) }) rfl h.b h.w
  refine ⟨_, rfl, hrest, hmm.trans ?_⟩
  unfold dropObject
  split <;> rfl

/-- CCTL .ivi.all drops the code of the object. -/
theorem cctlIviAll_drops (s : State) (h : Hdr) : ∃ t, exec (.cctlIviAll h) s = .next t ∧ CacheRest s t ∧
    t.mm = { s.mm with icache := dropObject s (takingLanes s s.curWarp h) s.mm.icache } := by
  obtain ⟨hrest, hmm⟩ := cacheRest_unless (s := s) (c := takingLanes s s.curWarp h = [])
    (f := fun x => { x with icache := x.icache.filter (fun c => !ofObject s c) }) rfl h.b h.w
  refine ⟨_, rfl, hrest, hmm.trans ?_⟩
  unfold dropObject
  split <;> rfl

/-! ### PREF -/

/-- PREF touches the caches alone; a sole lane's line, where its translation stands, comes in. -/
theorem pref_done (s : State) (h : Hdr) (m : MemOp) : ∃ t, exec (.pref h m) s = .next t ∧ CacheRest s t ∧
    ∀ q tr, takingLanes s s.curWarp h = [q] → Through s s.curWarp .read 1 (memEa s m 1 q.1 q.2) tr → tr.ty = .page →
        LineFree s s.curWarp.core (tr.pa / 128) →
      MemKept s t s.curWarp.core ∧ (m.hint ≠ .bypass → ∀ i < 32, (l1Word t s.curWarp.core (tr.pa / 128 * 128 + 4 * i)).isSome = true) ∧
        (m.hint = .bypass → (t.mm.llc.find (tr.pa / 128)).isSome = true) := by
  refine ⟨_, pref_eq s h m, cacheRest_finish (foldl_keep aside _ (aside_prefLane s.curWarp m) _ _) h.b h.w, fun q tr hl hth hty hf => ?_⟩
  have hmm := still_mm (still_finish (prefLane s.curWarp m s q) h.b h.w)
  obtain ⟨hmem, hwords, hllc⟩ := pref_brings hth hty hf
  rw [hl, List.foldl_cons, List.foldl_nil]
  refine ⟨fun a ha => (memByte_congr (congrArg MemSt.mem hmm) a).trans (hmem a ha), fun hh i hi => ?_, fun hh => ?_⟩
  · rw [l1Word, l1Line_of_l1 (congrArg MemSt.l1 hmm)]
    exact hwords hh i hi
  · rw [hmm]
    exact hllc hh

end

/-- Settles O28, form by form: PREF (`pref_done`), CCTL .wb that completes (`cctlWb_completes`) or awaits what it has sent (`cctlWb_sends`),
.inv (`cctlInv_drops`), .ivc (`cctlIvc_drops`) and the two that drop all lines of an object (`cctlIvcAll_drops`,
`cctlIviAll_drops`). -/
theorem cacheControlActsOnTheNamedLines : Obligations.CacheControlActsOnTheNamedLines := by
  intro s h m x lanes ea rest code
  refine ⟨pref_done s h m, fun tr htr hset => ⟨cctlWb_completes rfl htr hset, fun hp hd hdirty hx => ?_, ?_⟩, fun hin => ?_, ?_, ?_⟩
  · refine cctlWb_sends rfl htr hset hp hd ?_ hx
    by_contra hn
    exact hdirty fun line hm w hw => Bool.eq_false_iff.2 fun hwd => hn ⟨line, hm, w, hw, hwd⟩
  · obtain ⟨t, he, hrest, hmem, hwords, hkeys⟩ := cctlInv_drops (m := m) rfl htr hset
    refine ⟨t, he, hrest, hmem, fun line hn => ?_, hkeys⟩
    rw [hwords line hn]
    exact ⟨fun w hw => by simpa using (List.mem_filter.1 hw).2, fun w hw hk => List.mem_filter.2 ⟨hw, by simpa using hk⟩⟩
  · obtain ⟨t, he, hrest, hmm⟩ := cctlIvc_drops (m := m) rfl hin
    refine ⟨t, he, hrest, by rw [hmm], by rw [hmm], fun c => ?_⟩
    rw [hmm]
    exact mem_ivcKept s.mm.ccache c
  · obtain ⟨t, he, hrest, hmm⟩ := cctlIvcAll_drops s h
    refine ⟨t, he, hrest, by rw [hmm], by rw [hmm], by rw [hmm], fun c => ?_⟩
    rw [hmm]
    exact mem_dropObject s.mm.ccache c
  · obtain ⟨t, he, hrest, hmm⟩ := cctlIviAll_drops s h
    refine ⟨t, he, hrest, by rw [hmm], by rw [hmm], by rw [hmm], fun c => ?_⟩
    rw [hmm]
    exact mem_dropObject s.mm.icache c

end Sys2Proof.Machine
end
